-- ==== Sys2Proof/Word.lean ====
section
/-! DEFINITION. The word types of the HCL-1224 and their plainest arithmetic. -/

namespace Sys2Proof

/-- A byte of memory. -/
abbrev Byte := BitVec 8
/-- The content of a w register in one lane, or of any 32-bit field. -/
abbrev Word := BitVec 32
/-- The content of an s or h register, and of every 64-bit field. -/
abbrev DWord := BitVec 64
/-- One bit per lane of a gang, lane 0 in bit 0 (R14, R96). -/
abbrev Mask := BitVec 32
/-- A 16-bit block label (R131, R227). -/
abbrev Label := BitVec 16
/-- One 96-bit instruction word: header in 95:64, body in 63:0 (R259). -/
abbrev IWord := BitVec 96
/-- One 32-bit value per lane. -/
abbrev Lanes := Vector Word 32

/-- The mask of lanes 0 to n-1. -/
def Mask.first (n : Nat) : Mask := BitVec.ofNat 32 (2 ^ n - 1)

/-- The mask of the one lane l. -/
def Mask.lane (l : Nat) : Mask := BitVec.ofNat 32 (2 ^ l)

/-- Whether lane l is in the mask. -/
def Mask.has (m : Mask) (l : Nat) : Bool := m.getLsbD l

/-- The lanes of a mask in increasing number. -/
def Mask.lanes (m : Mask) : List Nat := (List.range 32).filter (fun l => m.getLsbD l)

/-- The lowest lane of the mask, or lane 0 when it is empty (R108). -/
def Mask.lowest (m : Mask) : Nat := m.lanes.headD 0

/-- The mask of the lanes below 32 that satisfy a test. -/
def Mask.ofFn (f : Nat → Bool) : Mask :=
  BitVec.ofNat 32 ((List.range 32).foldr (fun l acc => acc * 2 + (f l).toNat) 0)

/-- The value a lane holds; a lane number of 32 or more reads zero. -/
def Lanes.at (v : Lanes) (l : Nat) : Word := v.getD l 0

/-- The same value in every lane. -/
def Lanes.all (x : Word) : Lanes := Vector.replicate 32 x

/-- The lanes of `m` take `f`, every other lane keeps its value (R14). -/
def Lanes.merge (v : Lanes) (m : Mask) (f : Nat → Word) : Lanes :=
  Vector.ofFn fun (l : Fin 32) => if m.getLsbD l then f l else v[l]

end Sys2Proof
end

