-- ==== Sys2Proof/Machine/Formats.lean ====
section
/-! DEFINITION. Number formats and conversion: Decode, RoundReal and Encode of R237 over exact values,
the formats of R226 to R233, the labels of R227, the stochastic source of R235. -/

namespace Sys2Proof.Machine

open Sys2Proof

/-- An exact value (R237): NaN, a signed infinity or zero, or (-1)^neg * mag * 2^exp with mag > 0. A
set `sticky` adds to the magnitude a positive amount below one unit of mag, which a quotient or a
root leaves over; such a mag always has more bits than any rounding looks at. -/
inductive ExactNum where
  | nan
  | inf (neg : Bool)
  | zero (neg : Bool)
  | fin (neg : Bool) (mag : Nat) (exp : Int) (sticky : Bool)
deriving DecidableEq, Repr

/-- n * 2^e as an exact value; n = 0 gives +0. -/
def ExactNum.ofInt (n : Int) (e : Int) : ExactNum :=
  if n = 0 then .zero false else .fin (decide (n < 0)) n.natAbs e false

/-- Fields of a binary float format (R228, R229): exponent and mantissa bits, bias, whether it has
infinities, whether it has NaNs. -/
structure FloatFmt where
  ebits : Nat
  mbits : Nat
  bias  : Int
  infs  : Bool
  nans  : Bool
deriving DecidableEq, Repr

/-- R228 by format id (R226). -/
def floatFmt (f : Nat) : Option FloatFmt :=
  match f with
  | 0x01 => some ⟨8, 23, 127, true, true⟩
  | 0x02 => some ⟨5, 10, 15, true, true⟩
  | 0x03 => some ⟨8, 7, 127, true, true⟩
  | 0x04 => some ⟨4, 3, 7, false, true⟩
  | 0x05 => some ⟨5, 2, 15, true, true⟩
  | 0x06 => some ⟨3, 2, 3, false, false⟩
  | 0x07 => some ⟨2, 3, 1, false, false⟩
  | 0x08 => some ⟨2, 1, 1, false, false⟩
  | _ => none

/-- Width and signedness of an integer format (R226, R231), the 64-bit lane types of R266 too. -/
def intFmt (f : Nat) : Option (Nat × Bool) :=
  match f with
  | 0x10 => some (32, true) | 0x11 => some (16, true) | 0x12 => some (8, true) | 0x13 => some (4, true)
  | 0x14 => some (32, false) | 0x15 => some (16, false) | 0x16 => some (8, false) | 0x17 => some (4, false)
  | 0x18 => some (64, true) | 0x19 => some (64, false)
  | _ => none

/-- Container width in bits (R226, R266, R275); 0 for what has none. -/
def fmtWidth (f : Nat) : Nat :=
  match f with
  | 0x01 => 32 | 0x02 => 16 | 0x03 => 16 | 0x04 => 8 | 0x05 => 8 | 0x06 => 6 | 0x07 => 6 | 0x08 => 4
  | 0x09 => 8
  | 0x10 => 32 | 0x11 => 16 | 0x12 => 8 | 0x13 => 4 | 0x14 => 32 | 0x15 => 16 | 0x16 => 8 | 0x17 => 4
  | 0x18 => 64 | 0x19 => 64
  | 0x1A => 8 | 0x1B => 16 | 0x1C => 32 | 0x1D => 64
  | 0x20 => 32 | 0x21 => 64 | 0x22 => 16
  | _ => 0

/-- The format ids that R226 assigns to elements. -/
def fmtAssigned (f : Nat) : Bool :=
  (0x01 ≤ f && f ≤ 0x09) || (0x10 ≤ f && f ≤ 0x17) || (0x20 ≤ f && f ≤ 0x22)

/-- The component format of a complex format (R233). -/
def componentFmt (f : Nat) : Nat :=
  match f with
  | 0x20 => 0x03
  | 0x21 => 0x01
  | 0x22 => 0x04
  | g => g

def fmtComplex (f : Nat) : Bool := 0x20 ≤ f && f ≤ 0x22

/-- ExtendOp of R237. -/
def extendOp (bits w : Nat) (signed : Bool) : Int :=
  let b := bits % 2 ^ w
  if signed && b ≥ 2 ^ (w - 1) then (b : Int) - (2 ^ w : Nat) else (b : Int)

/-- SatInt of R237. -/
def satInt (x : Int) (w : Nat) (signed : Bool) : Int :=
  if signed then max (-((2 ^ (w - 1) : Nat) : Int)) (min x ((2 ^ (w - 1) : Nat) - 1))
  else max 0 (min x ((2 ^ w : Nat) - 1))

/-- The w low bits of an integer. -/
def wrapBits (x : Int) (w : Nat) : Nat := (x % ((2 ^ w : Nat) : Int)).toNat

/-- A D8 element in 64ths (R230). -/
def d8Value (bits : Nat) : Int :=
  let term (s k : Nat) : Int := if k = 7 then 0 else (if s = 1 then -1 else 1) * ((2 ^ (6 - k) : Nat) : Int)
  term (bits / 128 % 2) (bits / 16 % 8) + term (bits / 8 % 2) (bits % 8)

/-- The canonical D8 encoding of a value in 64ths (R230). -/
def d8Canon (v : Int) : Nat :=
  if v = 0 then 0x77
  else
    let s1 : Nat := if v < 0 then 1 else 0
    match (List.range 7).find? (fun a => v.natAbs = 2 ^ (6 - a)) with
    | some a => s1 * 128 + a * 16 + 7
    | none =>
      if v = 128 then 0x00
      else if v = -128 then 0x88
      else
        let cands := (List.range 7).flatMap fun a => (List.range 7).flatMap fun b => [0, 1].map fun s2 =>
          (a, b, s1 * 128 + a * 16 + s2 * 8 + b)
        match cands.find? (fun c => c.1 < c.2.1 && d8Value c.2.2 == v) with
        | some c => c.2.2
        | none => 0x77

/-- Decode of R237 for a real format: the exact value of an element's bits. -/
def decodeNum (f : Nat) (bits : Nat) : ExactNum :=
  match floatFmt f with
  | some p =>
    let neg := bits / 2 ^ (p.ebits + p.mbits) % 2 = 1
    let e := bits / 2 ^ p.mbits % 2 ^ p.ebits
    let m := bits % 2 ^ p.mbits
    if p.infs && e = 2 ^ p.ebits - 1 then (if m = 0 then .inf neg else .nan)
    else if p.nans && !p.infs && e = 2 ^ p.ebits - 1 && m = 2 ^ p.mbits - 1 then .nan
    else if e = 0 then
      (if m = 0 then .zero neg else .fin neg m (1 - p.bias - p.mbits) false)
    else .fin neg (2 ^ p.mbits + m) ((e : Int) - p.bias - p.mbits) false
  | none =>
    if f = 0x09 then ExactNum.ofInt (d8Value (bits % 256)) (-6)
    else
      match intFmt f with
      | some (w, sg) => ExactNum.ofInt (extendOp bits w sg) 0
      | none => .nan

/-- LfsrStep of R235. -/
def lfsrStep (x : Word) : Word :=
  if x.getLsbD 0 then (x >>> 1) ^^^ 0x80200003 else x >>> 1

/-- Rounding modes of R234. -/
def rmRne : Nat := 0
def rmRtz : Nat := 1
def rmRdn : Nat := 2
def rmRup : Nat := 3
def rmSr : Nat := 4

/-- n of RoundReal (R237): a magnitude mag * 2^sh rounded to an integer. The second component is
LRAND after it. -/
def roundMag (mag : Nat) (sh : Int) (sticky neg : Bool) (rm : Nat) (lr : Word) : Nat × Word :=
  -- q = num / 2^t exactly, plus the sticky amount
  let t := (-sh).toNat
  let num := mag * 2 ^ sh.toNat
  let n := num / 2 ^ t
  let r2 := 2 * (num % 2 ^ t)
  let half := 2 ^ t
  let rpos := r2 ≠ 0 || sticky
  let up :=
    if rm = rmRne then
      r2 > half || (r2 = half && (sticky || n % 2 = 1))
    else if rm = rmRup then rpos && !neg
    else if rm = rmRdn then rpos && neg
    else if rm = rmSr then (num % 2 ^ t) * 2 ^ 16 / 2 ^ t > (lr.extractLsb' 0 16).toNat
    else false
  ((if up then n + 1 else n), (if rm = rmSr then lfsrStep lr else lr))

/-- Largest finite magnitude as mant * 2^exp (R228). -/
def FloatFmt.largest (p : FloatFmt) : Nat × Int :=
  let top : Int := (2 ^ p.ebits - 1 : Nat) - p.bias - p.mbits
  if p.infs then (2 ^ (p.mbits + 1) - 1, top - 1)
  else if p.nans then (2 ^ (p.mbits + 1) - 2, top)
  else (2 ^ (p.mbits + 1) - 1, top)

/-- Default NaN (R229); formats without NaN convert a NaN to +0 (R236). -/
def FloatFmt.nanBits (p : FloatFmt) : Nat :=
  if p.infs then (2 ^ p.ebits - 1) * 2 ^ p.mbits + 2 ^ (p.mbits - 1)
  else if p.nans then 2 ^ (p.ebits + p.mbits) - 1
  else 0

def FloatFmt.signBit (p : FloatFmt) (neg : Bool) : Nat :=
  if neg then 2 ^ (p.ebits + p.mbits) else 0

def FloatFmt.maxBits (p : FloatFmt) : Nat :=
  if p.infs then (2 ^ p.ebits - 1) * 2 ^ p.mbits - 1
  else if p.nans then 2 ^ (p.ebits + p.mbits) - 2
  else 2 ^ (p.ebits + p.mbits) - 1

/-- An infinity, or what the format has in its place (R236). -/
def FloatFmt.infBits (p : FloatFmt) (neg : Bool) : Nat :=
  p.signBit neg +
    (if p.infs then (2 ^ p.ebits - 1) * 2 ^ p.mbits
     else if p.nans then 2 ^ (p.ebits + p.mbits) - 1
     else p.maxBits)

/-- The overflow column of R236. -/
def FloatFmt.overBits (p : FloatFmt) (neg : Bool) (rm : Nat) : Nat :=
  if p.infs then
    if rm = rmRtz || (rm = rmRup && neg) || (rm = rmRdn && !neg) then p.signBit neg + p.maxBits
    else p.infBits neg
  else p.infBits neg

/-- Encode of R237 for a binary float format. -/
def encodeFloat (p : FloatFmt) (x : ExactNum) (rm : Nat) (lr : Word) : Nat × Word :=
  match x with
  | .nan => (p.nanBits, lr)
  | .inf neg => (p.infBits neg, lr)
  | .zero neg => (p.signBit neg, lr)
  | .fin neg mag exp sticky =>
    let prec := p.mbits + 1
    let top : Int := exp + (Nat.log2 mag : Nat)
    let e := max top (1 - p.bias)
    let k := e - prec + 1
    let (n, lr') := roundMag mag (exp - k) sticky neg rm lr
    let (ml, el) := p.largest
    let base := min k el
    if n * 2 ^ (k - base).toNat > ml * 2 ^ (el - base).toNat then (p.overBits neg rm, lr')
    else if n = 0 then (p.signBit neg, lr')
    else
      let (n, k) := if n = 2 ^ prec then (n / 2, k + 1) else (n, k)
      if n ≥ 2 ^ p.mbits then
        (p.signBit neg + (k + p.mbits + p.bias).toNat * 2 ^ p.mbits + (n - 2 ^ p.mbits), lr')
      else (p.signBit neg + n, lr')

/-- Encode of R237 for an integer format of width w. -/
def encodeInt (w : Nat) (signed : Bool) (x : ExactNum) (rm : Nat) (lr : Word) : Nat × Word :=
  match x with
  | .nan => (0, lr)
  | .inf neg =>
    (wrapBits (satInt (if neg then -((2 ^ w : Nat) : Int) else ((2 ^ w : Nat) : Int)) w signed) w, lr)
  | .zero _ => (0, lr)
  | .fin neg mag exp sticky =>
    let (n, lr') := roundMag mag exp sticky neg rm lr
    (wrapBits (satInt (if neg then -(n : Int) else (n : Int)) w signed) w, lr')

/-- The representable D8 values in 64ths. -/
def d8Values : List Int :=
  ((List.range 256).map d8Value).eraseDups

/-- D8Nearest of R237, R236. -/
def encodeD8 (x : ExactNum) (rm : Nat) : Nat :=
  match x with
  | .nan => 0x77
  | .zero _ => 0x77
  | .inf neg => d8Canon (if neg then -128 else 128)
  | .fin neg mag exp _ =>
    -- x = X / D in 64ths
    let up := (exp + 6).toNat
    let dn : Nat := 2 ^ (-(exp + 6)).toNat
    let X : Int := (if neg then -1 else 1) * ((mag * 2 ^ up : Nat) : Int)
    if X ≥ 128 * dn then d8Canon 128
    else if X ≤ -(128 * dn : Nat) then d8Canon (-128)
    else
      let allowed (v : Int) : Bool :=
        if rm = rmRtz then (if neg then X ≤ v * dn && v ≤ 0 else v * dn ≤ X && 0 ≤ v)
        else if rm = rmRdn then v * dn ≤ X
        else if rm = rmRup then X ≤ v * dn
        else true
      let better (v b : Int) : Bool :=
        let dv := (X - v * dn).natAbs
        let db := (X - b * dn).natAbs
        dv < db || (dv = db && v.natAbs < b.natAbs)
      let best := (d8Values.filter allowed).foldl
        (fun acc v => match acc with | none => some v | some b => if better v b then some v else some b) none
      d8Canon (best.getD 0)

/-- Encode of R237 for any real format: bits and LRAND after. -/
def encodeNum (f : Nat) (x : ExactNum) (rm : Nat) (lr : Word) : Nat × Word :=
  match floatFmt f with
  | some p => encodeFloat p x rm lr
  | none =>
    if f = 0x09 then (encodeD8 x rm, lr)
    else
      match intFmt f with
      | some (w, sg) => encodeInt w sg x rm lr
      | none => (0, lr)

/-! Exact arithmetic (R237). -/

def ExactNum.neg : ExactNum → ExactNum
  | .nan => .nan
  | .inf n => .inf !n
  | .zero n => .zero !n
  | .fin n m e t => .fin (!n) m e t

def ExactNum.isNan : ExactNum → Bool
  | .nan => true
  | _ => false

def ExactNum.isNeg : ExactNum → Bool
  | .nan => false
  | .inf n => n
  | .zero n => n
  | .fin n _ _ _ => n

/-- x * 2^k. -/
def ExactNum.scale (x : ExactNum) (k : Int) : ExactNum :=
  match x with
  | .fin n m e t => .fin n m (e + k) t
  | y => y

/-- Sum; an exact zero sum of opposite signs is +0, under `.rdn` -0. -/
def ExactNum.add (x y : ExactNum) (rm : Nat) : ExactNum :=
  match x, y with
  | .nan, _ => .nan
  | _, .nan => .nan
  | .inf a, .inf b => if a = b then .inf a else .nan
  | .inf a, _ => .inf a
  | _, .inf b => .inf b
  | .zero a, .zero b => if a = b then .zero a else .zero (rm = rmRdn)
  | .zero _, z => z
  | z, .zero _ => z
  | .fin n1 m1 e1 _, .fin n2 m2 e2 _ =>
    let e := min e1 e2
    let v1 : Int := (if n1 then -1 else 1) * ((m1 * 2 ^ (e1 - e).toNat : Nat) : Int)
    let v2 : Int := (if n2 then -1 else 1) * ((m2 * 2 ^ (e2 - e).toNat : Nat) : Int)
    if v1 + v2 = 0 then .zero (rm = rmRdn) else ExactNum.ofInt (v1 + v2) e

def ExactNum.mul (x y : ExactNum) : ExactNum :=
  match x, y with
  | .nan, _ => .nan
  | _, .nan => .nan
  | .inf a, .inf b => .inf (a != b)
  | .inf _, .zero _ => .nan
  | .zero _, .inf _ => .nan
  | .inf a, .fin b _ _ _ => .inf (a != b)
  | .fin a _ _ _, .inf b => .inf (a != b)
  | .zero a, .zero b => .zero (a != b)
  | .zero a, .fin b _ _ _ => .zero (a != b)
  | .fin a _ _ _, .zero b => .zero (a != b)
  | .fin n1 m1 e1 _, .fin n2 m2 e2 _ => .fin (n1 != n2) (m1 * m2) (e1 + e2) false

/-- The quotient of two finite nonzero magnitudes with 64 bits and a sticky bit. -/
def divMag (m1 m2 : Nat) : Nat × Int × Bool :=
  let sh := 64 + Nat.log2 m2 + 1
  let q := m1 * 2 ^ sh / m2
  (q, -(sh : Int), m1 * 2 ^ sh % m2 != 0)

def ExactNum.div (x y : ExactNum) : ExactNum :=
  match x, y with
  | .nan, _ => .nan
  | _, .nan => .nan
  | .inf _, .inf _ => .nan
  | .inf a, .zero b => .inf (a != b)
  | .inf a, .fin b _ _ _ => .inf (a != b)
  | .zero _, .zero _ => .nan
  | .zero a, .inf b => .zero (a != b)
  | .zero a, .fin b _ _ _ => .zero (a != b)
  | .fin a _ _ _, .inf b => .zero (a != b)
  | .fin a _ _ _, .zero b => .inf (a != b)
  | .fin n1 m1 e1 _, .fin n2 m2 e2 _ =>
    let (q, e, st) := divMag m1 m2
    .fin (n1 != n2) q (e + e1 - e2) st

/-- The integer square root of v, found bit by bit from bit n - 1 down; r is what is found so far. -/
def isqrtFrom : Nat → Nat → Nat → Nat
  | 0, _, r => r
  | n + 1, v, r => isqrtFrom n v (if (r + 2 ^ n) * (r + 2 ^ n) ≤ v then r + 2 ^ n else r)

def isqrt (v : Nat) : Nat := isqrtFrom (Nat.log2 v / 2 + 1) v 0

/-- Square root of a magnitude m * 2^e with 64 bits and a sticky bit. -/
def sqrtMag (m : Nat) (e : Int) : Nat × Int × Bool :=
  let e0 := e - 160
  let sh : Nat := if e0 % 2 = 0 then 160 else 161
  let v := m * 2 ^ sh
  let r := isqrt v
  (r, (e - sh) / 2, r * r != v)

/-- Order of two numbers neither of which is a NaN. -/
def ExactNum.lt (x y : ExactNum) : Bool :=
  match x, y with
  | .nan, _ => false
  | _, .nan => false
  | .inf a, .inf b => a && !b
  | .inf a, _ => a
  | _, .inf b => !b
  | .zero _, .zero _ => false
  | .zero _, .fin b _ _ _ => !b
  | .fin a _ _ _, .zero _ => a
  | .fin n1 m1 e1 _, .fin n2 m2 e2 _ =>
    let e := min e1 e2
    let v1 : Int := (if n1 then -1 else 1) * ((m1 * 2 ^ (e1 - e).toNat : Nat) : Int)
    let v2 : Int := (if n2 then -1 else 1) * ((m2 * 2 ^ (e2 - e).toNat : Nat) : Int)
    v1 < v2

def ExactNum.eq (x y : ExactNum) : Bool := !x.isNan && !y.isNan && !x.lt y && !y.lt x

/-! Labels (R227). -/

def Label.fmt (l : Label) : Nat := (l.extractLsb' 0 6).toNat
def Label.spectral (l : Label) : Bool := l.getLsbD 7
def Label.half (l : Label) : Bool := l.getLsbD 6
def Label.scale (l : Label) : Nat := (l.extractLsb' 8 8).toNat
def Label.scaleExp (l : Label) : Int := (Label.scale l : Int) - 127

/-- An effective label that an interpreting unit accepts (R132, R226, R227). -/
def Label.valid (l : Label) : Bool :=
  fmtAssigned (Label.fmt l) && Label.scale l != 0xFF && !(Label.half l && !Label.spectral l)
    && !(Label.spectral l && !([0x01, 0x02, 0x03, 0x04, 0x05, 0x20, 0x21, 0x22].contains (Label.fmt l)))

/-- Elements per 64-byte block (R226). -/
def fmtPerBlock (f : Nat) : Nat :=
  match fmtWidth f with
  | 64 => 8 | 32 => 16 | 16 => 32 | 8 => 64 | 6 => 64 | 4 => 128
  | _ => 0

/-- Element i of a block (R226), the block read as one little-endian number. -/
def elementBits (block : Nat) (f i : Nat) : Nat := block / 2 ^ (fmtWidth f * i) % 2 ^ fmtWidth f

end Sys2Proof.Machine
end

