-- ==== Sys2Proof/Syntax.lean ====
section
/-! DEFINITION. The instruction set as data: one constructor of `Instr` for each row of the opcode
table. Constructors of instruction words carry the fields of their body format (R265) and the header
(R260); constructors of events (what the desk, an engine, the Curator or the host does) carry what
names the event. -/

namespace Sys2Proof

/-- A 10-bit operand field (R263). `bad` is any pattern the table of R263 does not list. -/
inductive Operand where
  | w (i : BitVec 8)
  | s (i : BitVec 6)
  | q (i : BitVec 4)
  | h (i : BitVec 4)
  | a (i : BitVec 2)
  | special (i : BitVec 7)
  | imm (v : BitVec 8)
  | immField
  | absent
  | bad (raw : BitVec 10)
deriving DecidableEq, Repr

/-- The header common to all words, bits 95:64 without the opcode (R260). -/
structure Header where
  neg  : Bool
  kind : Bool
  idx  : BitVec 3
  run  : BitVec 4
  cede : Bool
  use  : BitVec 2
  rsv  : Bool
  d    : Operand
deriving DecidableEq, Repr

/-- The RRR format (R265). -/
structure RRR where
  hdr : Header
  a   : Operand
  b   : Operand
  c   : Operand
  fe  : BitVec 3
  mod : BitVec 15
  rsv : BitVec 16
deriving DecidableEq, Repr

/-- The RI format (R265). -/
structure RI where
  hdr : Header
  a   : Operand
  fe  : Bool
  mod : BitVec 21
  imm : BitVec 32
deriving DecidableEq, Repr

/-- The M format (R265). -/
structure MFmt where
  hdr   : Header
  sbase : BitVec 6
  idx   : Operand
  data  : Operand
  fe    : BitVec 2
  width : BitVec 3
  space : BitVec 3
  scale : BitVec 2
  hint  : BitVec 2
  ext   : Bool
  rsv   : Bool
  off   : BitVec 24
deriving DecidableEq, Repr

/-- The MS format (R265). -/
structure MSFmt where
  hdr   : Header
  sbase : BitVec 6
  idx   : Operand
  data  : Operand
  data2 : Operand
  fe    : BitVec 3
  op    : BitVec 5
  obs   : BitVec 5
  pub   : Bool
  sub   : Bool
  width : BitVec 2
  rsv   : BitVec 11
deriving DecidableEq, Repr

/-- The B format (R265). -/
structure BFmt where
  hdr : Header
  a   : Operand
  mod : BitVec 22
  off : BitVec 32
deriving DecidableEq, Repr

/-- The G format (R265). -/
structure GFmt where
  hdr   : Header
  args  : Operand
  cnt   : BitVec 6
  shelf : BitVec 6
  width : BitVec 6
  place : BitVec 3
  salt  : Bool
  entry : BitVec 32
deriving DecidableEq, Repr

/-- The E format (R265). -/
structure EFmt where
  hdr     : Header
  a       : Operand
  b       : Operand
  c       : Operand
  fe      : BitVec 3
  control : BitVec 31
deriving DecidableEq, Repr

/-- Which of the two faults a fetch raises (R259). -/
inductive FetchFault where
  | translation
  | protection
deriving DecidableEq, Repr

/-- How a request is delivered over Ultra Ethernet (R388). -/
inductive Delivery where
  | rud | rod | rudi | uud
deriving DecidableEq, Repr

/-- Who sends a request over Ultra Ethernet, a host or a peer, and by which delivery (R173, R388). -/
structure Sender where
  peer     : Bool
  delivery : Delivery
deriving DecidableEq, Repr

/-- The two RMA atomics (R388). -/
inductive RmaOp where
  | fetchAdd (v : DWord)
  | compareSwap (expected new : DWord)
deriving DecidableEq, Repr

/-- The queue a host or peer send goes to (R388). -/
inductive QueueKind where
  | launch
  | copy
deriving DecidableEq, Repr

/-- A target whose access table the Curator writes (R394). -/
inductive Target where
  | memory
  | llc
  /-- The copy queue of a wing. -/
  | copyQueue (wing : Nat)
  /-- An entry of the shelf table. -/
  | shelf (n : Nat)
  /-- The Archive, for one context. -/
  | archive (context : Nat)
deriving DecidableEq, Repr

/-- One entry of an access table: a physical range with its rights (R394). -/
structure AccessRange where
  base  : Nat
  size  : Nat
  read  : Bool
  write : Bool
deriving DecidableEq, Repr

/-- What a code object records for one task (R383). -/
structure TaskInfo where
  entry  : DWord
  regs   : Nat
  cellar : Nat
  slice  : Option DWord
deriving DecidableEq, Repr

/-- The four sections of a code object (R383). -/
inductive Section where
  | code
  | consts
  | data
  | modifiable
deriving DecidableEq, Repr

/-- What a relocation puts into its field (R385, R386): an instruction offset, bits 63:32 or bits 31:0 of an address,
or an address of 64 bits. -/
inductive RelocKind where
  | offset
  | hi
  | lo
  | address
deriving DecidableEq, Repr

/-- What a relocation refers to (R385): a label of the same object, or a symbol that another object exports. -/
inductive RelocTarget where
  | label (sec : Section) (off : Nat)
  | symbol (id : Nat)
deriving DecidableEq, Repr

/-- A relocation of a code object (R385): section and offset of the patched field, and what it gets. -/
structure Reloc where
  sec    : Section
  at_    : Nat
  kind   : RelocKind
  target : RelocTarget
deriving DecidableEq, Repr

/-- A symbol that a code object exports (R383): a label of one of its sections. -/
structure Export where
  id  : Nat
  sec : Section
  off : Nat
deriving DecidableEq, Repr

/-- A page that the Curator maps in a context's tables (R136). -/
structure PageMap where
  va    : Nat
  pa    : Nat
  read  : Bool
  write : Bool
  exec  : Bool
  mod   : Bool
deriving DecidableEq, Repr

/-- A wing's copy queue as the Curator places it: header and ring at virtual addresses, slot count (R199). -/
structure QueuePlace where
  wing   : Nat
  header : DWord
  ring   : DWord
  count  : Nat
deriving DecidableEq, Repr

/-- What the Curator chooses when it creates a context: its areas and their sizes, the ring of handle 0, the
copy queues, the pages that it maps itself and the physical pages it takes for page-table levels, and whether BKPT is
enabled (R34, R37, R41, R55, R60, R110, R144, R158, R199, R215, R372). -/
structure Layout where
  stopBase   : DWord
  faultBase  : DWord
  frameBase  : DWord
  frames     : Nat
  imageBase  : DWord
  imageUnits : Nat
  cellarBase : DWord
  modBase    : DWord
  modSize    : Nat
  logBase    : DWord
  archiveMax : Nat
  shelfRing  : DWord
  queues     : List QueuePlace
  maps       : List PageMap
  tables     : List Nat
  debug      : Bool
deriving DecidableEq, Repr

/-- A partition as module flash lays it out: its wings, its ports and its NVMe namespace (R395). -/
structure Partition where
  wings : List Nat
  ports : List Nat
  nvme  : Nat
deriving DecidableEq, Repr

/-- The Curator image in module flash, with its version, its HSS signature and the public key of that (R390). -/
structure BootImage where
  body      : List Byte
  version   : Word
  signature : List Byte
  key       : List Byte
deriving DecidableEq, Repr

/-- A code object as the Curator places it: sections as (virtual base, physical base, bytes), tasks,
imports and exports (R383 to R386). -/
structure CodeObject where
  codeBase  : DWord
  codePa    : Nat
  code      : List Byte
  consts    : List Byte
  dataBase  : DWord
  dataPa    : Nat
  data      : List Byte
  modBase   : DWord
  modPa     : Nat
  modData   : List Byte
  tasks     : List TaskInfo
  relocs    : List Reloc
  imports   : List Nat
  exports   : List Export
  /-- Physical pages that the Curator takes for page-table levels. -/
  tables    : List Nat
deriving DecidableEq, Repr

/-- The rows of the opcode table. -/
inductive Instr where
  -- integer and address instructions (R279)
  | add (x : RRR) | addRI (x : RI) | sub (x : RRR) | subRI (x : RI) | mul (x : RRR) | mulRI (x : RI)
  | mulh (x : RRR) | mad (x : RRR) | div (x : RRR) | rem (x : RRR) | neg (x : RRR) | abs (x : RRR)
  | min (x : RRR) | minRI (x : RI) | max (x : RRR) | maxRI (x : RI) | addmin (x : RRR)
  | and (x : RRR) | andRI (x : RI) | or (x : RRR) | orRI (x : RI) | xor (x : RRR) | xorRI (x : RI)
  | not (x : RRR) | shl (x : RRR) | shr (x : RRR) | sra (x : RRR) | rot (x : RRR) | fsh (x : RRR)
  | clz (x : RRR) | ctz (x : RRR) | popc (x : RRR) | brev (x : RRR) | bfx (x : RRR) | bfi (x : RRR)
  | lea (x : RRR) | leaRI (x : RI) | sel (x : RRR) | cmp (x : RRR) | cmpRI (x : RI)
  -- moves (R284); a MOV into a special register is one of the four rows below it
  | mov (x : RRR) | movi (x : RI) | xmWrite (x : RRR) | lrandWrite (x : RRR) | replaymWrite (x : RRR)
  | registerWrite (x : RRR)
  -- float instructions (R287) and conversion (R293)
  | fadd (x : RRR) | fsub (x : RRR) | fmul (x : RRR) | fma (x : RRR) | fmin (x : RRR) | fmax (x : RRR)
  | fcmp (x : RRR) | fclass (x : RRR) | fdiv (x : RRR) | fsqrt (x : RRR) | frcp (x : RRR)
  | frsq (x : RRR) | fexp (x : RRR) | flog (x : RRR) | fsin (x : RRR) | fcos (x : RRR)
  | ftanh (x : RRR) | ferf (x : RRR) | frnd (x : RRR) | cvt (x : RI)
  -- lane operations (R294 to R298) and PLOG (R286)
  | vote (x : RRR) | shfl (x : RRR) | lsh (x : RRR) | perm (x : RRR) | ptld (x : RRR)
  | lred (x : RRR) | lscan (x : RRR) | matchLanes (x : RRR) | plog (x : RRR)
  -- control (R301)
  | bra (x : BFmt) | brx (x : RRR) | call (x : BFmt) | ret (x : RRR) | join (x : BFmt)
  | rwait (x : RRR)
  /-- The gang `g` whose waiting path's RWAIT budget expires (R102). -/
  | rwaitBudgetExpiry (g : Nat)
  | brk (x : RRR) | exit (x : RRR) | yield (x : RRR) | nop (x : RRR) | dispatch (x : BFmt)
  -- tasks and futures
  | spawn (x : GFmt) | spawng (x : GFmt) | spawnv (x : GFmt) | await (x : BFmt) | awaita (x : BFmt)
  | testf (x : RRR) | cancel (x : RRR) | retv (x : RRR) | trecord (x : GFmt)
  -- shelves
  | shput (x : RRR) | shtake (x : RRR) | shdepth (x : RRR) | shbind (x : RRR) | shprio (x : RRR)
  -- modifiables and traces
  | modnew (x : RRR) | modfree (x : RRR) | modset (x : MFmt)
  /-- The oldest MODSET access held at the Archive is compared (R28). -/
  | modsetHeldCompare
  | propagate (x : RRR)
  /-- The next propagation of trace `t` begins (R72). -/
  | propagationBegin (t : Nat)
  /-- The desk dispatches the stale folio `f` of trace `t` to a carrel (R73). -/
  | reexecDispatch (t f carrel : Nat)
  | tdrop (x : RRR) | tstat (x : RRR) | tkey (x : RRR) | qend (x : RRR)
  -- memory
  | ld (x : MFmt) | st (x : MFmt) | ldv (x : MFmt) | stv (x : MFmt) | pref (x : MFmt)
  | ldx (x : MSFmt) | stx (x : MSFmt) | atom (x : MSFmt) | mwait (x : MSFmt)
  /-- The MWAIT timeout of a path of gang `g` expires (R21). -/
  | mwaitTimeout (g : Nat) (younger : Bool)
  | ldlbl (x : MFmt) | stlbl (x : MFmt) | bar (x : RRR) | bara (x : RRR) | barw (x : RRR)
  | hashrd (x : RRR) | hashclr (x : RRR)
  -- matrix, engines, buffers
  | tcfg (x : RRR) | mma (x : EFmt) | mmac (x : EFmt) | aclr (x : EFmt) | ald (x : EFmt)
  | ast (x : EFmt) | drain (x : EFmt) | drainAdd (x : EFmt) | xformFwd (x : EFmt)
  | xformInv (x : EFmt) | copy (x : EFmt) | copyt (x : EFmt) | copyf (x : EFmt) | job (x : EFmt)
  | bufexp (x : RRR) | bufget (x : RRR) | bufrel (x : RRR) | bufrelAbort (x : RRR) | bufst (x : RRR)
  -- system
  | sysr (x : RI) | sysw (x : RI) | pmselWrite (x : RI) | trap (x : RI) | tret (x : RRR)
  | phint (x : BFmt) | bkpt (x : RRR)
  -- events: the gang's long-latency result number `n` returns (R17)
  | loadReturn (g n : Nat)
  /-- The desk consumes the next slot of the launch queue whose header is at `header` (R46, R47). -/
  | launchPacket (header : Nat)
  | launchComplete (l : Nat)
  /-- An idle slot of a carrel takes a ready task (R45, R49). -/
  | taskDispatch (carrel quarter slot : Nat)
  /-- A runnable continuation resumes in a free slot (R39). -/
  | continuationResume (frame carrel quarter slot : Nat)
  | galleryModeChange (gallery : Nat) (fused : Bool)
  | cardTake (j : Nat) | copyChunk (j : Nat) | tensorCopyChunk (j : Nat) | inflateJob (j : Nat)
  | drainTileRead (carrel : Nat) | jobComplete (j : Nat) | crcRetry (j : Nat)
  | sequencerStep (carrel : Nat) | xuStep (carrel : Nat)
  | haltLine | contextResume | contextTerminate | traceFaultResponse
  /-- The slice ends; the Curator may set the partition's W to 256 times `w` (R148). -/
  | sliceEnd | graceWindowClose | contextRestore (ctx : Nat)
  /-- The Curator lets a gang issue one instruction, of the path that `focus` names (R155). -/
  | singleStep (g : Nat)
  /-- The Curator spreads the order labels of trace `t` afresh (R64). -/
  | relabel (t : Nat)
  /-- Invalidation of the translations of `size` bytes from `va` (R139). -/
  | translationInvalidate (va size : Nat)
  | codeObjectLoad (o : CodeObject)
  /-- Boot of a partition from the Curator image and the layout in module flash (R390, R395). -/
  | packageReset (image : BootImage) (layout : Partition)
  | rmaWrite (from_ : Sender) (vi pa : Nat) (data : List Byte)
  | rmaRead (from_ : Sender) (vi pa len : Nat)
  | rmaAtomic (from_ : Sender) (vi pa : Nat) (op : RmaOp)
  | queueSend (from_ : Sender) (vi : Nat) (kind : QueueKind) (header : Nat) (slot : List Byte)
  | attachRequest (vi : Nat) | quoteRequest (vi : Nat)
  | createContext (vi : Nat) (x : Layout) | destroyContext (vi : Nat) | createLaunchQueue (vi : Nat)
  | createShelfEntry (vi : Nat) | setQuota (vi : Nat) | startMigrationRound (vi : Nat)
  | finalRound (vi : Nat) | reportCopyQueue (vi : Nat)
  | carrelGate (carrel : Nat) | carrelWake (carrel : Nat)
  | unassignedOpcode (raw : IWord)
  /-- A gang would issue a word that cannot be fetched (R259). -/
  | instructionFetchFault (kind : FetchFault) (addr : DWord)
  | gangResume (g : Nat)
  | accessTableChange (vi : Nat) (t : Target) (ranges : List AccessRange) (owner : Bool)
  | nvmeOverFabricsCommand (vi : Nat) (command : List Byte)
deriving DecidableEq, Repr

/-! The mod field of RRR and RI (R266). -/

def RRR.typ (x : RRR) : BitVec 6 := x.mod.extractLsb' 0 6
def RRR.sub (x : RRR) : BitVec 5 := x.mod.extractLsb' 6 5
def RRR.pred (x : RRR) : BitVec 4 := x.mod.extractLsb' 11 4
def RI.typ (x : RI) : BitVec 6 := x.mod.extractLsb' 0 6
def RI.sub (x : RI) : BitVec 5 := x.mod.extractLsb' 6 5
def RI.pred (x : RI) : BitVec 4 := x.mod.extractLsb' 11 4
def RI.typ2 (x : RI) : BitVec 6 := x.mod.extractLsb' 15 6

end Sys2Proof
end

