-- ==== Sys2Proof/WellFormed.lean ====
section
/-! DEFINITION. Which terms of `Instr` stand for a word (or an event) at all: an operand written
`bad` must carry a pattern that R263 does not list, a row that shares its opcode with another must
carry the field value that tells them apart, and an unassigned opcode must be one. Whether a word is
LEGAL is another question, asked only when it acts (R95, R270), and is answered by the meanings. -/

namespace Sys2Proof

/-- The patterns that the operand table lists (R263). -/
def Operand.listed (r : BitVec 10) : Bool :=
  let n := r.toNat
  n < 0x140 || (0x140 ≤ n && n < 0x164) || (0x180 ≤ n && n < 0x300) || n == 0x300 || n == 0x3FF

def Operand.wf : Operand → Bool
  | .bad r => !Operand.listed r
  | _ => true

/-- The destination field names a special register (R108). -/
def Operand.isSpecial : Operand → Bool
  | .special _ => true
  | _ => false

def RRR.wf (x : RRR) : Bool := x.hdr.d.wf && x.a.wf && x.b.wf && x.c.wf
def RI.wf (x : RI) : Bool := x.hdr.d.wf && x.a.wf
def MFmt.wf (x : MFmt) : Bool := x.hdr.d.wf && x.idx.wf && x.data.wf
def MSFmt.wf (x : MSFmt) : Bool := x.hdr.d.wf && x.idx.wf && x.data.wf && x.data2.wf
def BFmt.wf (x : BFmt) : Bool := x.hdr.d.wf && x.a.wf
def GFmt.wf (x : GFmt) : Bool := x.hdr.d.wf && x.args.wf
def EFmt.wf (x : EFmt) : Bool := x.hdr.d.wf && x.a.wf && x.b.wf && x.c.wf

/-- A SYSW whose register number is one of PMSEL0 to PMSEL3 (R372, R373). -/
def RI.isPmsel (x : RI) : Bool :=
  let n := (x.imm.extractLsb' 0 16).toNat
  0x10 ≤ n && n ≤ 0x13

/-- The opcodes that R269 assigns. -/
def assignedOpcodes : List Nat :=
  [0x000, 0x001, 0x002, 0x003, 0x004, 0x005, 0x006, 0x007, 0x008, 0x009, 0x00A, 0x00B, 0x00C, 0x00D, 0x00E, 0x00F]
  ++ [0x010, 0x011, 0x012, 0x013, 0x014, 0x015, 0x016, 0x017, 0x018, 0x019, 0x01A, 0x01B, 0x01C, 0x01D, 0x01F, 0x020]
  ++ [0x021, 0x022, 0x029, 0x02A, 0x02C, 0x02D, 0x02E, 0x03B, 0x03D, 0x03F, 0x040, 0x041, 0x042, 0x043, 0x044, 0x045]
  ++ [0x046, 0x047, 0x048, 0x049, 0x04A, 0x04B, 0x04C, 0x04D, 0x04E, 0x04F, 0x050, 0x051, 0x052, 0x060, 0x080, 0x081]
  ++ [0x082, 0x083, 0x084, 0x085, 0x086, 0x087, 0x088, 0x0C0, 0x0C1, 0x0C2, 0x0C3, 0x0C4, 0x0C5, 0x0C6, 0x0C7, 0x0C8]
  ++ [0x0C9, 0x0CA, 0x0D0, 0x0D1, 0x0D2, 0x0D3, 0x0D4, 0x0D5, 0x0D6, 0x0D7, 0x0D8, 0x0E0, 0x0E1, 0x0E2, 0x0E3, 0x0E4]
  ++ [0x0F0, 0x0F1, 0x0F2, 0x0F3, 0x0F4, 0x0F5, 0x0F6, 0x0F7, 0x100, 0x101, 0x102, 0x103, 0x104, 0x108, 0x109, 0x10A]
  ++ [0x10B, 0x110, 0x111, 0x118, 0x119, 0x11A, 0x13C, 0x13D, 0x140, 0x141, 0x142, 0x143, 0x144, 0x145, 0x146, 0x147]
  ++ [0x150, 0x151, 0x152, 0x153, 0x158, 0x159, 0x15A, 0x15B, 0x180, 0x181, 0x182, 0x183, 0x184, 0x185]

/-- The term stands for a word or an event of the machine. -/
def Instr.wf (i : Instr) : Bool :=
  match i with
  | .add x => x.wf
  | .addRI x => x.wf
  | .sub x => x.wf
  | .subRI x => x.wf
  | .mul x => x.wf
  | .mulRI x => x.wf
  | .mulh x => x.wf
  | .mad x => x.wf
  | .div x => x.wf
  | .rem x => x.wf
  | .neg x => x.wf
  | .abs x => x.wf
  | .min x => x.wf
  | .minRI x => x.wf
  | .max x => x.wf
  | .maxRI x => x.wf
  | .addmin x => x.wf
  | .and x => x.wf
  | .andRI x => x.wf
  | .or x => x.wf
  | .orRI x => x.wf
  | .xor x => x.wf
  | .xorRI x => x.wf
  | .not x => x.wf
  | .shl x => x.wf
  | .shr x => x.wf
  | .sra x => x.wf
  | .rot x => x.wf
  | .fsh x => x.wf
  | .clz x => x.wf
  | .ctz x => x.wf
  | .popc x => x.wf
  | .brev x => x.wf
  | .bfx x => x.wf
  | .bfi x => x.wf
  | .lea x => x.wf
  | .leaRI x => x.wf
  | .sel x => x.wf
  | .cmp x => x.wf
  | .cmpRI x => x.wf
  | .mov x => x.wf && !x.hdr.d.isSpecial
  | .movi x => x.wf
  | .xmWrite x => x.wf && x.hdr.d == .special 0x00
  | .lrandWrite x => x.wf && x.hdr.d == .special 0x0D
  | .replaymWrite x => x.wf && x.hdr.d == .special 0x0F
  | .registerWrite x => x.wf && x.hdr.d.isSpecial && x.hdr.d != .special 0x00 && x.hdr.d != .special 0x0D && x.hdr.d != .special 0x0F
  | .fadd x => x.wf
  | .fsub x => x.wf
  | .fmul x => x.wf
  | .fma x => x.wf
  | .fmin x => x.wf
  | .fmax x => x.wf
  | .fcmp x => x.wf
  | .fclass x => x.wf
  | .fdiv x => x.wf
  | .fsqrt x => x.wf
  | .frcp x => x.wf
  | .frsq x => x.wf
  | .fexp x => x.wf
  | .flog x => x.wf
  | .fsin x => x.wf
  | .fcos x => x.wf
  | .ftanh x => x.wf
  | .ferf x => x.wf
  | .frnd x => x.wf
  | .cvt x => x.wf
  | .vote x => x.wf
  | .shfl x => x.wf
  | .lsh x => x.wf
  | .perm x => x.wf
  | .ptld x => x.wf
  | .lred x => x.wf
  | .lscan x => x.wf
  | .matchLanes x => x.wf
  | .plog x => x.wf
  | .bra x => x.wf
  | .brx x => x.wf
  | .call x => x.wf
  | .ret x => x.wf
  | .join x => x.wf
  | .rwait x => x.wf
  | .rwaitBudgetExpiry _ => true
  | .brk x => x.wf
  | .exit x => x.wf
  | .yield x => x.wf
  | .nop x => x.wf
  | .dispatch x => x.wf
  | .spawn x => x.wf
  | .spawng x => x.wf
  | .spawnv x => x.wf
  | .await x => x.wf
  | .awaita x => x.wf
  | .testf x => x.wf
  | .cancel x => x.wf
  | .retv x => x.wf
  | .trecord x => x.wf
  | .shput x => x.wf
  | .shtake x => x.wf
  | .shdepth x => x.wf
  | .shbind x => x.wf
  | .shprio x => x.wf
  | .modnew x => x.wf
  | .modfree x => x.wf
  | .modset x => x.wf
  | .modsetHeldCompare => true
  | .propagate x => x.wf
  | .propagationBegin _ => true
  | .reexecDispatch _ _ _ => true
  | .tdrop x => x.wf
  | .tstat x => x.wf
  | .tkey x => x.wf
  | .qend x => x.wf
  | .ld x => x.wf
  | .st x => x.wf
  | .ldv x => x.wf
  | .stv x => x.wf
  | .pref x => x.wf
  | .ldx x => x.wf
  | .stx x => x.wf
  | .atom x => x.wf
  | .mwait x => x.wf
  | .mwaitTimeout _ _ => true
  | .ldlbl x => x.wf
  | .stlbl x => x.wf
  | .bar x => x.wf
  | .bara x => x.wf
  | .barw x => x.wf
  | .hashrd x => x.wf
  | .hashclr x => x.wf
  | .tcfg x => x.wf
  | .mma x => x.wf
  | .mmac x => x.wf
  | .aclr x => x.wf
  | .ald x => x.wf
  | .ast x => x.wf
  | .drain x => x.wf && !x.control.getLsbD 0
  | .drainAdd x => x.wf && x.control.getLsbD 0
  | .xformFwd x => x.wf && !x.control.getLsbD 0
  | .xformInv x => x.wf && x.control.getLsbD 0
  | .copy x => x.wf
  | .copyt x => x.wf
  | .copyf x => x.wf
  | .job x => x.wf
  | .bufexp x => x.wf
  | .bufget x => x.wf
  | .bufrel x => x.wf && !x.mod.getLsbD 6
  | .bufrelAbort x => x.wf && x.mod.getLsbD 6
  | .bufst x => x.wf
  | .sysr x => x.wf
  | .sysw x => x.wf && !x.isPmsel
  | .pmselWrite x => x.wf && x.isPmsel
  | .trap x => x.wf
  | .tret x => x.wf
  | .phint x => x.wf
  | .bkpt x => x.wf
  | .loadReturn _ _ => true
  | .launchPacket _ => true
  | .launchComplete _ => true
  | .taskDispatch _ _ _ => true
  | .continuationResume _ _ _ _ => true
  | .galleryModeChange _ _ => true
  | .cardTake _ => true
  | .copyChunk _ => true
  | .tensorCopyChunk _ => true
  | .inflateJob _ => true
  | .drainTileRead _ => true
  | .jobComplete _ => true
  | .crcRetry _ => true
  | .sequencerStep _ => true
  | .xuStep _ => true
  | .haltLine => true
  | .contextResume => true
  | .contextTerminate => true
  | .traceFaultResponse => true
  | .sliceEnd => true
  | .graceWindowClose => true
  | .contextRestore _ => true
  | .singleStep _ => true
  | .relabel _ => true
  | .translationInvalidate _ _ => true
  | .codeObjectLoad _ => true
  | .packageReset _ _ => true
  | .rmaWrite _ _ _ _ => true
  | .rmaRead _ _ _ _ => true
  | .rmaAtomic _ _ _ _ => true
  | .queueSend _ _ _ _ _ => true
  | .attachRequest _ => true
  | .quoteRequest _ => true
  | .createContext _ _ => true
  | .destroyContext _ => true
  | .createLaunchQueue _ => true
  | .createShelfEntry _ => true
  | .setQuota _ => true
  | .startMigrationRound _ => true
  | .finalRound _ => true
  | .reportCopyQueue _ => true
  | .carrelGate _ => true
  | .carrelWake _ => true
  | .unassignedOpcode raw => !assignedOpcodes.contains (raw.extractLsb' 87 9).toNat
  | .instructionFetchFault _ _ => true
  | .gangResume _ => true
  | .accessTableChange _ _ _ _ => true
  | .nvmeOverFabricsCommand _ _ => true

end Sys2Proof
end

