-- ==== Sys2Proof/Decode.lean ====
section
/-! DEFINITION. The decoder of 96-bit words, written from R259 to R269, and after it the encoder
written from the same tables. Decoding is total on words: a word whose opcode is unassigned is the
row UNASSIGNED_OPCODE (R270); only a byte list that is too short is rejected. -/

namespace Sys2Proof

/-- Why the decoder rejects a byte list. -/
inductive DecodeReject where
  /-- Fewer than the 12 bytes of a word (R259). -/
  | tooShort
deriving DecidableEq, Repr

/-- The operand a 10-bit field names (R263). -/
def Operand.ofBits (r : BitVec 10) : Operand :=
  match (r.extractLsb' 8 2).toNat with
  | 0 => .w (r.extractLsb' 0 8)
  | 1 =>
    match (r.extractLsb' 6 2).toNat with
    | 0 => .s (r.extractLsb' 0 6)
    | 1 =>
      match (r.extractLsb' 4 2).toNat with
      | 0 => .q (r.extractLsb' 0 4)
      | 1 => .h (r.extractLsb' 0 4)
      | 2 => if r.extractLsb' 2 2 = 0 then .a (r.extractLsb' 0 2) else .bad r
      | _ => .bad r
    | _ => .special (r.extractLsb' 0 7)
  | 2 => .imm (r.extractLsb' 0 8)
  | _ => if r = 0x300 then .immField else if r = 0x3FF then .absent else .bad r

/-- The 10-bit field of an operand (R263). -/
def Operand.toBits : Operand → BitVec 10
  | .w i => 0b00#2 ++ i
  | .s i => 0b0100#4 ++ i
  | .q i => 0b010100#6 ++ i
  | .h i => 0b010101#6 ++ i
  | .a i => 0b01011000#8 ++ i
  | .special i => 0b011#3 ++ i
  | .imm v => 0b10#2 ++ v
  | .immField => 0x300
  | .absent => 0x3FF
  | .bad r => r

/-- The opcode, header bits 95:87 (R260). -/
def opcodeOf (w : IWord) : Nat := (w.extractLsb' 87 9).toNat

def getHeader (w : IWord) : Header :=
  { neg := w.getLsbD 86, kind := w.getLsbD 85, idx := w.extractLsb' 82 3, run := w.extractLsb' 78 4,
    cede := w.getLsbD 77, use := w.extractLsb' 75 2, rsv := w.getLsbD 74,
    d := Operand.ofBits (w.extractLsb' 64 10) }

def getRRR (w : IWord) : RRR :=
  { hdr := getHeader w, a := Operand.ofBits (w.extractLsb' 54 10),
    b := Operand.ofBits (w.extractLsb' 44 10), c := Operand.ofBits (w.extractLsb' 34 10),
    fe := w.extractLsb' 31 3, mod := w.extractLsb' 16 15, rsv := w.extractLsb' 0 16 }

def getRI (w : IWord) : RI :=
  { hdr := getHeader w, a := Operand.ofBits (w.extractLsb' 54 10), fe := w.getLsbD 53,
    mod := w.extractLsb' 32 21, imm := w.extractLsb' 0 32 }

def getM (w : IWord) : MFmt :=
  { hdr := getHeader w, sbase := w.extractLsb' 58 6, idx := Operand.ofBits (w.extractLsb' 48 10),
    data := Operand.ofBits (w.extractLsb' 38 10), fe := w.extractLsb' 36 2,
    width := w.extractLsb' 33 3, space := w.extractLsb' 30 3, scale := w.extractLsb' 28 2,
    hint := w.extractLsb' 26 2, ext := w.getLsbD 25, rsv := w.getLsbD 24,
    off := w.extractLsb' 0 24 }

def getMS (w : IWord) : MSFmt :=
  { hdr := getHeader w, sbase := w.extractLsb' 58 6, idx := Operand.ofBits (w.extractLsb' 48 10),
    data := Operand.ofBits (w.extractLsb' 38 10), data2 := Operand.ofBits (w.extractLsb' 28 10),
    fe := w.extractLsb' 25 3, op := w.extractLsb' 20 5, obs := w.extractLsb' 15 5,
    pub := w.getLsbD 14, sub := w.getLsbD 13, width := w.extractLsb' 11 2,
    rsv := w.extractLsb' 0 11 }

def getB (w : IWord) : BFmt :=
  { hdr := getHeader w, a := Operand.ofBits (w.extractLsb' 54 10), mod := w.extractLsb' 32 22,
    off := w.extractLsb' 0 32 }

def getG (w : IWord) : GFmt :=
  { hdr := getHeader w, args := Operand.ofBits (w.extractLsb' 54 10), cnt := w.extractLsb' 48 6,
    shelf := w.extractLsb' 42 6, width := w.extractLsb' 36 6, place := w.extractLsb' 33 3,
    salt := w.getLsbD 32, entry := w.extractLsb' 0 32 }

def getE (w : IWord) : EFmt :=
  { hdr := getHeader w, a := Operand.ofBits (w.extractLsb' 54 10),
    b := Operand.ofBits (w.extractLsb' 44 10), c := Operand.ofBits (w.extractLsb' 34 10),
    fe := w.extractLsb' 31 3, control := w.extractLsb' 0 31 }

/-- A MOV whose destination is a special register is one of four rows of the table (R96, R235,
R156, R108). -/
def Instr.splitMov (x : RRR) : Instr :=
  match x.hdr.d with
  | .special i =>
    if i = 0x00 then .xmWrite x
    else if i = 0x0D then .lrandWrite x
    else if i = 0x0F then .replaymWrite x
    else .registerWrite x
  | _ => .mov x

/-- Control bit 0 of a DRAIN is `.add` (R362). -/
def Instr.splitDrain (x : EFmt) : Instr := if x.control.getLsbD 0 then .drainAdd x else .drain x

/-- Control bit 0 of an XFORM is the direction (R241). -/
def Instr.splitXform (x : EFmt) : Instr :=
  if x.control.getLsbD 0 then .xformInv x else .xformFwd x

/-- Sub-op bit 6 of a BUFREL is `.abort` (R355). -/
def Instr.splitBufrel (x : RRR) : Instr := if x.mod.getLsbD 6 then .bufrelAbort x else .bufrel x

/-- A SYSW to PMSEL0 to PMSEL3 is a row of its own (R373). -/
def Instr.splitSysw (x : RI) : Instr := if x.isPmsel then .pmselWrite x else .sysw x

/-- The instruction of a word, by the opcode map (R269). -/
def decodeWord (w : IWord) : Instr :=
  match opcodeOf w with
  | 0x000 => .add (getRRR w)
  | 0x001 => .sub (getRRR w)
  | 0x002 => .mul (getRRR w)
  | 0x003 => .mulh (getRRR w)
  | 0x004 => .mad (getRRR w)
  | 0x005 => .div (getRRR w)
  | 0x006 => .rem (getRRR w)
  | 0x007 => .neg (getRRR w)
  | 0x008 => .abs (getRRR w)
  | 0x009 => .min (getRRR w)
  | 0x00A => .max (getRRR w)
  | 0x00B => .addmin (getRRR w)
  | 0x00C => .and (getRRR w)
  | 0x00D => .or (getRRR w)
  | 0x00E => .xor (getRRR w)
  | 0x00F => .not (getRRR w)
  | 0x010 => .shl (getRRR w)
  | 0x011 => .shr (getRRR w)
  | 0x012 => .sra (getRRR w)
  | 0x013 => .rot (getRRR w)
  | 0x014 => .fsh (getRRR w)
  | 0x015 => .clz (getRRR w)
  | 0x016 => .ctz (getRRR w)
  | 0x017 => .popc (getRRR w)
  | 0x018 => .brev (getRRR w)
  | 0x019 => .bfx (getRRR w)
  | 0x01A => .bfi (getRRR w)
  | 0x01B => .lea (getRRR w)
  | 0x01C => .sel (getRRR w)
  | 0x01D => .cmp (getRRR w)
  | 0x01F => Instr.splitMov (getRRR w)
  | 0x020 => .addRI (getRI w)
  | 0x021 => .subRI (getRI w)
  | 0x022 => .mulRI (getRI w)
  | 0x029 => .minRI (getRI w)
  | 0x02A => .maxRI (getRI w)
  | 0x02C => .andRI (getRI w)
  | 0x02D => .orRI (getRI w)
  | 0x02E => .xorRI (getRI w)
  | 0x03B => .leaRI (getRI w)
  | 0x03D => .cmpRI (getRI w)
  | 0x03F => .movi (getRI w)
  | 0x040 => .fadd (getRRR w)
  | 0x041 => .fsub (getRRR w)
  | 0x042 => .fmul (getRRR w)
  | 0x043 => .fma (getRRR w)
  | 0x044 => .fmin (getRRR w)
  | 0x045 => .fmax (getRRR w)
  | 0x046 => .fcmp (getRRR w)
  | 0x047 => .fclass (getRRR w)
  | 0x048 => .fdiv (getRRR w)
  | 0x049 => .fsqrt (getRRR w)
  | 0x04A => .frcp (getRRR w)
  | 0x04B => .frsq (getRRR w)
  | 0x04C => .fexp (getRRR w)
  | 0x04D => .flog (getRRR w)
  | 0x04E => .fsin (getRRR w)
  | 0x04F => .fcos (getRRR w)
  | 0x050 => .ftanh (getRRR w)
  | 0x051 => .ferf (getRRR w)
  | 0x052 => .frnd (getRRR w)
  | 0x060 => .cvt (getRI w)
  | 0x080 => .vote (getRRR w)
  | 0x081 => .shfl (getRRR w)
  | 0x082 => .lsh (getRRR w)
  | 0x083 => .perm (getRRR w)
  | 0x084 => .ptld (getRRR w)
  | 0x085 => .lred (getRRR w)
  | 0x086 => .lscan (getRRR w)
  | 0x087 => .matchLanes (getRRR w)
  | 0x088 => .plog (getRRR w)
  | 0x0C0 => .bra (getB w)
  | 0x0C1 => .brx (getRRR w)
  | 0x0C2 => .call (getB w)
  | 0x0C3 => .ret (getRRR w)
  | 0x0C4 => .join (getB w)
  | 0x0C5 => .rwait (getRRR w)
  | 0x0C6 => .brk (getRRR w)
  | 0x0C7 => .exit (getRRR w)
  | 0x0C8 => .yield (getRRR w)
  | 0x0C9 => .nop (getRRR w)
  | 0x0CA => .dispatch (getB w)
  | 0x0D0 => .spawn (getG w)
  | 0x0D1 => .spawng (getG w)
  | 0x0D2 => .spawnv (getG w)
  | 0x0D3 => .await (getB w)
  | 0x0D4 => .awaita (getB w)
  | 0x0D5 => .testf (getRRR w)
  | 0x0D6 => .cancel (getRRR w)
  | 0x0D7 => .retv (getRRR w)
  | 0x0D8 => .trecord (getG w)
  | 0x0E0 => .shput (getRRR w)
  | 0x0E1 => .shtake (getRRR w)
  | 0x0E2 => .shdepth (getRRR w)
  | 0x0E3 => .shbind (getRRR w)
  | 0x0E4 => .shprio (getRRR w)
  | 0x0F0 => .modnew (getRRR w)
  | 0x0F1 => .modfree (getRRR w)
  | 0x0F2 => .modset (getM w)
  | 0x0F3 => .propagate (getRRR w)
  | 0x0F4 => .tdrop (getRRR w)
  | 0x0F5 => .tstat (getRRR w)
  | 0x0F6 => .tkey (getRRR w)
  | 0x0F7 => .qend (getRRR w)
  | 0x100 => .ld (getM w)
  | 0x101 => .st (getM w)
  | 0x102 => .ldv (getM w)
  | 0x103 => .stv (getM w)
  | 0x104 => .pref (getM w)
  | 0x108 => .ldx (getMS w)
  | 0x109 => .stx (getMS w)
  | 0x10A => .atom (getMS w)
  | 0x10B => .mwait (getMS w)
  | 0x110 => .ldlbl (getM w)
  | 0x111 => .stlbl (getM w)
  | 0x118 => .bar (getRRR w)
  | 0x119 => .bara (getRRR w)
  | 0x11A => .barw (getRRR w)
  | 0x13C => .hashrd (getRRR w)
  | 0x13D => .hashclr (getRRR w)
  | 0x140 => .tcfg (getRRR w)
  | 0x141 => .mma (getE w)
  | 0x142 => .mmac (getE w)
  | 0x143 => .aclr (getE w)
  | 0x144 => .ald (getE w)
  | 0x145 => .ast (getE w)
  | 0x146 => Instr.splitDrain (getE w)
  | 0x147 => Instr.splitXform (getE w)
  | 0x150 => .copy (getE w)
  | 0x151 => .copyt (getE w)
  | 0x152 => .copyf (getE w)
  | 0x153 => .job (getE w)
  | 0x158 => .bufexp (getRRR w)
  | 0x159 => .bufget (getRRR w)
  | 0x15A => Instr.splitBufrel (getRRR w)
  | 0x15B => .bufst (getRRR w)
  | 0x180 => .sysr (getRI w)
  | 0x181 => Instr.splitSysw (getRI w)
  | 0x182 => .trap (getRI w)
  | 0x183 => .tret (getRRR w)
  | 0x184 => .phint (getB w)
  | 0x185 => .bkpt (getRRR w)
  | _ => .unassignedOpcode w

/-- The little-endian number of a byte list (R5). -/
def bytesToNat : List Byte → Nat
  | [] => 0
  | b :: bs => b.toNat + 256 * bytesToNat bs

/-- The n low bytes of a number, lowest first (R5). -/
def natToBytes : Nat → Nat → List Byte
  | 0, _ => []
  | n + 1, v => BitVec.ofNat 8 v :: natToBytes n (v / 256)

/-- A word from its 12 bytes in memory: body at the lower address, header above it, each
little-endian (R259), which makes the whole word one little-endian number. -/
def wordOfBytes (bs : List Byte) : IWord := BitVec.ofNat 96 (bytesToNat bs)

/-- Decode the word at the head of a byte list. -/
def decode (bs : List Byte) : Except DecodeReject (Instr × List Byte) :=
  if bs.length < 12 then .error .tooShort
  else .ok (decodeWord (wordOfBytes (bs.take 12)), bs.drop 12)

/-! The encoder, from the same tables (R260, R265, R269). -/

def putHeader (op : Nat) (h : Header) : BitVec 32 :=
  BitVec.ofNat 9 op ++ BitVec.ofBool h.neg ++ BitVec.ofBool h.kind ++ h.idx ++ h.run
    ++ BitVec.ofBool h.cede ++ h.use ++ BitVec.ofBool h.rsv ++ h.d.toBits

def putRRR (op : Nat) (x : RRR) : IWord :=
  putHeader op x.hdr ++ x.a.toBits ++ x.b.toBits ++ x.c.toBits ++ x.fe ++ x.mod ++ x.rsv

def putRI (op : Nat) (x : RI) : IWord :=
  putHeader op x.hdr ++ x.a.toBits ++ BitVec.ofBool x.fe ++ x.mod ++ x.imm

def putM (op : Nat) (x : MFmt) : IWord :=
  putHeader op x.hdr ++ x.sbase ++ x.idx.toBits ++ x.data.toBits ++ x.fe ++ x.width ++ x.space
    ++ x.scale ++ x.hint ++ BitVec.ofBool x.ext ++ BitVec.ofBool x.rsv ++ x.off

def putMS (op : Nat) (x : MSFmt) : IWord :=
  putHeader op x.hdr ++ x.sbase ++ x.idx.toBits ++ x.data.toBits ++ x.data2.toBits ++ x.fe ++ x.op
    ++ x.obs ++ BitVec.ofBool x.pub ++ BitVec.ofBool x.sub ++ x.width ++ x.rsv

def putB (op : Nat) (x : BFmt) : IWord :=
  putHeader op x.hdr ++ x.a.toBits ++ x.mod ++ x.off

def putG (op : Nat) (x : GFmt) : IWord :=
  putHeader op x.hdr ++ x.args.toBits ++ x.cnt ++ x.shelf ++ x.width ++ x.place
    ++ BitVec.ofBool x.salt ++ x.entry

def putE (op : Nat) (x : EFmt) : IWord :=
  putHeader op x.hdr ++ x.a.toBits ++ x.b.toBits ++ x.c.toBits ++ x.fe ++ x.control

/-- The word of an instruction; an event has none. -/
def encode (i : Instr) : Option IWord :=
  match i with
  | .add x => some (putRRR 0x000 x)
  | .sub x => some (putRRR 0x001 x)
  | .mul x => some (putRRR 0x002 x)
  | .mulh x => some (putRRR 0x003 x)
  | .mad x => some (putRRR 0x004 x)
  | .div x => some (putRRR 0x005 x)
  | .rem x => some (putRRR 0x006 x)
  | .neg x => some (putRRR 0x007 x)
  | .abs x => some (putRRR 0x008 x)
  | .min x => some (putRRR 0x009 x)
  | .max x => some (putRRR 0x00A x)
  | .addmin x => some (putRRR 0x00B x)
  | .and x => some (putRRR 0x00C x)
  | .or x => some (putRRR 0x00D x)
  | .xor x => some (putRRR 0x00E x)
  | .not x => some (putRRR 0x00F x)
  | .shl x => some (putRRR 0x010 x)
  | .shr x => some (putRRR 0x011 x)
  | .sra x => some (putRRR 0x012 x)
  | .rot x => some (putRRR 0x013 x)
  | .fsh x => some (putRRR 0x014 x)
  | .clz x => some (putRRR 0x015 x)
  | .ctz x => some (putRRR 0x016 x)
  | .popc x => some (putRRR 0x017 x)
  | .brev x => some (putRRR 0x018 x)
  | .bfx x => some (putRRR 0x019 x)
  | .bfi x => some (putRRR 0x01A x)
  | .lea x => some (putRRR 0x01B x)
  | .sel x => some (putRRR 0x01C x)
  | .cmp x => some (putRRR 0x01D x)
  | .mov x => some (putRRR 0x01F x)
  | .xmWrite x => some (putRRR 0x01F x)
  | .lrandWrite x => some (putRRR 0x01F x)
  | .replaymWrite x => some (putRRR 0x01F x)
  | .registerWrite x => some (putRRR 0x01F x)
  | .addRI x => some (putRI 0x020 x)
  | .subRI x => some (putRI 0x021 x)
  | .mulRI x => some (putRI 0x022 x)
  | .minRI x => some (putRI 0x029 x)
  | .maxRI x => some (putRI 0x02A x)
  | .andRI x => some (putRI 0x02C x)
  | .orRI x => some (putRI 0x02D x)
  | .xorRI x => some (putRI 0x02E x)
  | .leaRI x => some (putRI 0x03B x)
  | .cmpRI x => some (putRI 0x03D x)
  | .movi x => some (putRI 0x03F x)
  | .fadd x => some (putRRR 0x040 x)
  | .fsub x => some (putRRR 0x041 x)
  | .fmul x => some (putRRR 0x042 x)
  | .fma x => some (putRRR 0x043 x)
  | .fmin x => some (putRRR 0x044 x)
  | .fmax x => some (putRRR 0x045 x)
  | .fcmp x => some (putRRR 0x046 x)
  | .fclass x => some (putRRR 0x047 x)
  | .fdiv x => some (putRRR 0x048 x)
  | .fsqrt x => some (putRRR 0x049 x)
  | .frcp x => some (putRRR 0x04A x)
  | .frsq x => some (putRRR 0x04B x)
  | .fexp x => some (putRRR 0x04C x)
  | .flog x => some (putRRR 0x04D x)
  | .fsin x => some (putRRR 0x04E x)
  | .fcos x => some (putRRR 0x04F x)
  | .ftanh x => some (putRRR 0x050 x)
  | .ferf x => some (putRRR 0x051 x)
  | .frnd x => some (putRRR 0x052 x)
  | .cvt x => some (putRI 0x060 x)
  | .vote x => some (putRRR 0x080 x)
  | .shfl x => some (putRRR 0x081 x)
  | .lsh x => some (putRRR 0x082 x)
  | .perm x => some (putRRR 0x083 x)
  | .ptld x => some (putRRR 0x084 x)
  | .lred x => some (putRRR 0x085 x)
  | .lscan x => some (putRRR 0x086 x)
  | .matchLanes x => some (putRRR 0x087 x)
  | .plog x => some (putRRR 0x088 x)
  | .bra x => some (putB 0x0C0 x)
  | .brx x => some (putRRR 0x0C1 x)
  | .call x => some (putB 0x0C2 x)
  | .ret x => some (putRRR 0x0C3 x)
  | .join x => some (putB 0x0C4 x)
  | .rwait x => some (putRRR 0x0C5 x)
  | .brk x => some (putRRR 0x0C6 x)
  | .exit x => some (putRRR 0x0C7 x)
  | .yield x => some (putRRR 0x0C8 x)
  | .nop x => some (putRRR 0x0C9 x)
  | .dispatch x => some (putB 0x0CA x)
  | .spawn x => some (putG 0x0D0 x)
  | .spawng x => some (putG 0x0D1 x)
  | .spawnv x => some (putG 0x0D2 x)
  | .await x => some (putB 0x0D3 x)
  | .awaita x => some (putB 0x0D4 x)
  | .testf x => some (putRRR 0x0D5 x)
  | .cancel x => some (putRRR 0x0D6 x)
  | .retv x => some (putRRR 0x0D7 x)
  | .trecord x => some (putG 0x0D8 x)
  | .shput x => some (putRRR 0x0E0 x)
  | .shtake x => some (putRRR 0x0E1 x)
  | .shdepth x => some (putRRR 0x0E2 x)
  | .shbind x => some (putRRR 0x0E3 x)
  | .shprio x => some (putRRR 0x0E4 x)
  | .modnew x => some (putRRR 0x0F0 x)
  | .modfree x => some (putRRR 0x0F1 x)
  | .modset x => some (putM 0x0F2 x)
  | .propagate x => some (putRRR 0x0F3 x)
  | .tdrop x => some (putRRR 0x0F4 x)
  | .tstat x => some (putRRR 0x0F5 x)
  | .tkey x => some (putRRR 0x0F6 x)
  | .qend x => some (putRRR 0x0F7 x)
  | .ld x => some (putM 0x100 x)
  | .st x => some (putM 0x101 x)
  | .ldv x => some (putM 0x102 x)
  | .stv x => some (putM 0x103 x)
  | .pref x => some (putM 0x104 x)
  | .ldx x => some (putMS 0x108 x)
  | .stx x => some (putMS 0x109 x)
  | .atom x => some (putMS 0x10A x)
  | .mwait x => some (putMS 0x10B x)
  | .ldlbl x => some (putM 0x110 x)
  | .stlbl x => some (putM 0x111 x)
  | .bar x => some (putRRR 0x118 x)
  | .bara x => some (putRRR 0x119 x)
  | .barw x => some (putRRR 0x11A x)
  | .hashrd x => some (putRRR 0x13C x)
  | .hashclr x => some (putRRR 0x13D x)
  | .tcfg x => some (putRRR 0x140 x)
  | .mma x => some (putE 0x141 x)
  | .mmac x => some (putE 0x142 x)
  | .aclr x => some (putE 0x143 x)
  | .ald x => some (putE 0x144 x)
  | .ast x => some (putE 0x145 x)
  | .drain x => some (putE 0x146 x)
  | .drainAdd x => some (putE 0x146 x)
  | .xformFwd x => some (putE 0x147 x)
  | .xformInv x => some (putE 0x147 x)
  | .copy x => some (putE 0x150 x)
  | .copyt x => some (putE 0x151 x)
  | .copyf x => some (putE 0x152 x)
  | .job x => some (putE 0x153 x)
  | .bufexp x => some (putRRR 0x158 x)
  | .bufget x => some (putRRR 0x159 x)
  | .bufrel x => some (putRRR 0x15A x)
  | .bufrelAbort x => some (putRRR 0x15A x)
  | .bufst x => some (putRRR 0x15B x)
  | .sysr x => some (putRI 0x180 x)
  | .sysw x => some (putRI 0x181 x)
  | .pmselWrite x => some (putRI 0x181 x)
  | .trap x => some (putRI 0x182 x)
  | .tret x => some (putRRR 0x183 x)
  | .phint x => some (putB 0x184 x)
  | .bkpt x => some (putRRR 0x185 x)
  | .rwaitBudgetExpiry _ => none
  | .modsetHeldCompare => none
  | .propagationBegin _ => none
  | .reexecDispatch _ _ _ => none
  | .mwaitTimeout _ _ => none
  | .loadReturn _ _ => none
  | .launchPacket _ => none
  | .launchComplete _ => none
  | .taskDispatch _ _ _ => none
  | .continuationResume _ _ _ _ => none
  | .galleryModeChange _ _ => none
  | .cardTake _ => none
  | .copyChunk _ => none
  | .tensorCopyChunk _ => none
  | .inflateJob _ => none
  | .drainTileRead _ => none
  | .jobComplete _ => none
  | .crcRetry _ => none
  | .sequencerStep _ => none
  | .xuStep _ => none
  | .haltLine => none
  | .contextResume => none
  | .contextTerminate => none
  | .traceFaultResponse => none
  | .sliceEnd => none
  | .graceWindowClose => none
  | .contextRestore _ => none
  | .singleStep _ => none
  | .relabel _ => none
  | .translationInvalidate _ _ => none
  | .codeObjectLoad _ => none
  | .packageReset _ _ => none
  | .rmaWrite _ _ _ _ => none
  | .rmaRead _ _ _ _ => none
  | .rmaAtomic _ _ _ _ => none
  | .queueSend _ _ _ _ _ => none
  | .attachRequest _ => none
  | .quoteRequest _ => none
  | .createContext _ _ => none
  | .destroyContext _ => none
  | .createLaunchQueue _ => none
  | .createShelfEntry _ => none
  | .setQuota _ => none
  | .startMigrationRound _ => none
  | .finalRound _ => none
  | .reportCopyQueue _ => none
  | .carrelGate _ => none
  | .carrelWake _ => none
  | .unassignedOpcode raw => some raw
  | .instructionFetchFault _ _ => none
  | .gangResume _ => none
  | .accessTableChange _ _ _ _ => none
  | .nvmeOverFabricsCommand _ _ => none

/-- The bytes of a word in memory, lowest address first (R259). -/
def encodeBytes (w : IWord) : List Byte := natToBytes 12 w.toNat

/-- The instruction read from the low `nbits` bits of a word numbered with bit 0 the least
significant bit of the first byte; every bit above them is 0. -/
def decodeTableWord (nbits w : Nat) : Option Instr :=
  if nbits ≤ 96 && w < 2 ^ nbits then
    match decode (natToBytes 12 w) with
    | .ok (i, _) => some i
    | .error _ => none
  else none

end Sys2Proof
end

