-- ==== Sys2Proof/Config.lean ====
section
/-! DEFINITION. What one part or one Curator fixes, and the values the manual leaves open. An
`opaque` constant has no body: no proof can see its value. -/

namespace Sys2Proof.Config

open Sys2Proof

/-- The layout that module flash holds before a package reset has read another (R395): one partition of all twelve
wings (R8), with one port. DESIGN CHOICE (log 6). -/
def layout : Partition := { wings := List.range 12, ports := [0], nvme := 0 }

/-- Carrels of a wing (R8). -/
def carrelsPerWing : Nat := 48

/-- Galleries of a wing, four carrels each (R8, R9). -/
def galleriesPerWing : Nat := 12

/-- The lines of 256 bytes that an L1 of 1 MiB and an L2 slice of 8 MiB hold (R8, R12, R122). -/
def l1Lines : Nat := 4096
def l2Lines : Nat := 32768

/-- The feature vector that the device offers: bits 0 to 8 (R393). -/
def offered : BitVec 256 := 0x1FF

/-- Worst-case T_save and T_restore (R152, R153): 134,469 cycles at the default W, and 83,989. -/
def saveBound (w : Nat) : Nat := w + (415236096 + 3184) / 3185
def restoreBound : Nat := 1024 + (264241152 + 3184) / 3185

/-- Bits 19:16 of SYSID, the stepping (R372). Free (log 2). -/
opaque stepping : BitVec 4

/-- The partition's number in CTXID and in quotes (R372, R391). Free (log 2). -/
opaque partition : BitVec 4

/-- The package's serial (R391). Free (log 2). -/
opaque serial : DWord

/-- The fuses' SHA-256 hash of the public key that verifies a Curator image, byte by byte (R390). Free (log 2). -/
opaque anchor : Nat → Byte

/-- A byte of an HSS signature with the attestation key, by what is signed and by position, where R390's and R391's
types do not fix it. Free (log 2). -/
opaque signature : List Byte → Nat → Byte

/-- The cycles from the halt line to a unit's stop, by a counter (R114). Free (log 2). -/
opaque skid : Nat → BitVec 16

/-- Where the desk puts a task's spilled region entries, by context, frame and purpose (R99). Free (log 2). -/
opaque placement : Nat → Nat → Nat → DWord

/-- The cycles of a slice, as the Curator sets it (R153). Free (log 2). -/
opaque sliceLength : Nat

/-- Which line a full cache evicts, by a counter (R123). Free (log 9). -/
opaque victim : Nat → Nat

/-- Where the Archive puts a record run (R66), by trace, folio and the number of the run: its index in 64-byte units.
Free (log 100). -/
opaque runIndex : Nat → Nat → Nat → Word

/-- Where the Archive puts an entry image (R68), by trace and folio: its index in 256-byte units. Free (log 100). -/
opaque imageIndex : Nat → Nat → Word

/-- The Catalogue's head node of a granule (R67), by trace and granule. Free (log 100). -/
opaque headIndex : Nat → Nat → Word

/-- The Catalogue's list node of a segment as reader or writer of a granule (R67), by trace, granule and folio.
Free (log 100). -/
opaque listIndex : Nat → Nat → Nat → Bool → Word

/-- Byte i of an image's state block, from the task state that the block holds (R38, R109): the manual gives its
size and its contents, not its layout. Free (log 100). -/
opaque stateBlock : List DWord → Nat → Byte

/-- The version in the partition's fused rollback counter (R390). Free (log 2). -/
opaque rollback : Word

/-- A value the manual leaves open, fresh for each number (log 2). -/
opaque freeValue : Nat → DWord

end Sys2Proof.Config
end

