-- ==== Sys2Proof/Machine/State.lean ====
section
/-! DEFINITION. The state of the machine: plain data, everything the manual gives the device. Tables
keyed by a number are lists of pairs (`Table`), read with a default for what is not listed. -/

namespace Sys2Proof.Machine

open Sys2Proof

/-- A table keyed by a number. What is not listed reads as the reader's default. -/
abbrev Table (α : Type) := List (Nat × α)

/-- Byte storage with a 16-bit label per 64-byte block (R131). `bytes` is in canonical form: strictly
rising addresses, no byte equal to what an unlisted address reads as (0, log 4); `labels` likewise,
keyed by block number. -/
structure Memory where
  bytes  : List Host.Cell
  labels : List (Nat × Label)
deriving DecidableEq, Repr

/-! Caches (R122, R125). -/

/-- One 128-byte sector of a line: valid, dirty and label-absent bits, the written mask, the
payload, the labels of its two blocks. -/
structure Sector where
  valid  : Bool
  dirty  : Bool
  absent : Bool
  mask   : BitVec 128
  data   : Vector Byte 128
  lab0   : Label
  lab1   : Label
deriving DecidableEq, Repr

/-- A line of an L1 (R122) or of an L2, where `writers` is the carrel mask of R125. `level` is the
publish level: 0 none, 2 gallery, 4 package. -/
structure Line where
  s0      : Sector
  s1      : Sector
  mark    : BitVec 12
  writers : BitVec 4
  level   : BitVec 3
deriving DecidableEq, Repr

/-- A cached translation of one 64 KiB page (R135, R136, R138). -/
structure Translation where
  frame  : Nat
  label  : Label
  frozen : Bool
  mod    : Bool
  exec   : Bool
  write  : Bool
  read   : Bool
deriving DecidableEq, Repr

/-! Gangs. -/

/-- An entry of a path's region stack (R99). -/
structure Region where
  recon   : DWord
  pending : DWord
  pmask   : Mask
  emask   : Mask
  arrived : Mask
deriving DecidableEq, Repr

/-- What a path waits for. -/
inductive Wait where
  | none
  /-- At the JOIN label of the top-level split (R18). -/
  | atJoin
  /-- The path executed EXIT (R103). -/
  | exited
  /-- At an RWAIT until the deadline (R102). -/
  | rwait (pc : DWord) (deadline : Nat)
  /-- At an MWAIT issued in cycle `start`, with its timeout, its destination and CYCLE at its issue (R21,
  R114, R344). -/
  | mwait (start : Nat) (budget : Option Nat) (dst : Operand) (wide : Bool) (cycle : Nat)
  /-- Arrived at a BAR and waiting with the token (R351). -/
  | barrier (token : Word)
deriving DecidableEq, Repr

/-- One lane of a strong instruction: its word, whether its page is MOD, the folio of its task's segment (R54), its
operands. -/
structure HeldLane where
  lane  : Nat
  va    : Nat
  pa    : Nat
  mod   : Bool
  folio : Nat
  data  : Nat
  data2 : Nat
deriving DecidableEq, Repr

/-- One path of a gang (R98). `held` is the cycle in which it last found that it cannot issue, `lacks` that an empty
operand was the reason (R373). `done` is the completion log of the strong instruction it stands at:
the lanes already performed, with what they returned (R150, R345); `latch` the word that waits here, with its
address: its fields were fixed at its fetch (R272); `reread` that its traced read has waited and reads
memory afresh (R75); `acted` the lanes of a packed gang whose tasks have executed the word at which the path
stands (R302); `reach` the lanes of the MODSET or MWAIT at which it stands, with the translations that they were
given (R138); `began` the clock and CYCLE at that instruction's first issue (R344). -/
structure Path where
  pc     : DWord
  xm     : Mask
  lanes  : Mask
  join   : Option DWord
  stack  : List Region
  wait   : Wait
  held   : Option Nat
  rwSkip : Option DWord
  done   : List (Nat × DWord)
  latch  : Option (DWord × IWord)
  reread : Bool
  acted  : Mask
  lacks  : Bool
  reach  : List HeldLane
  began  : Option (Nat × Nat)
deriving DecidableEq, Repr

/-- The top-level split of a gang: JOIN label and lanes that have arrived there (R98, R100). -/
structure Split where
  label   : DWord
  arrived : Mask
deriving DecidableEq, Repr

/-- The six spaces (R116). -/
inductive Space where
  | gm | sp | cl | fr | lf | cn
deriving DecidableEq, Repr

/-- What a strong access does to its word (R341, R342). -/
inductive StrongKind where
  | load
  | store
  | atom (op : Nat) (noData : Bool)
deriving DecidableEq, Repr

/-- A strong instruction that an order gate holds (R160, R163), or that lets other accesses stand between its lanes
until the cycle `due` (R346): its lanes, and the log of those already performed with what they returned. -/
structure HeldAcc where
  kind  : StrongKind
  width : Nat
  sub   : Bool
  due   : Nat
  lanes : List HeldLane
  done  : List (Nat × DWord)
deriving DecidableEq, Repr

/-- What a result in flight came from, so that it can be replayed (R150). -/
inductive Request where
  /-- An ordinary load: space, bytes per lane, sign extension, (lane, address) pairs. -/
  | load (spc : Space) (n : Nat) (ext : Bool) (addrs : List (Nat × Nat))
  /-- A label load: (lane, address) pairs and space. -/
  | label (spc : Space) (addrs : List (Nat × Nat))
  /-- A result performed already, taken from the completion log. -/
  | done
  /-- A system register of the carrel, read there in cycle `due` (R374). -/
  | sysr (carrel num due : Nat)
  /-- A strong instruction that an order gate holds (R163). -/
  | strong (a : HeldAcc)
deriving DecidableEq, Repr

/-- A long-latency result in flight (R17): destination register and count, lanes, one value per
register and lane. For an s register the value is in `sval`. `pc`, `younger` and `cycle` are the instruction's
for the record of a fault that a replay meets (R114, R150). -/
structure Flight where
  dst    : Operand
  mask   : Mask
  vals   : List Lanes
  sval   : DWord
  req    : Request
  replay : Bool
  pc     : DWord
  younger : Bool
  cycle  : Nat
deriving DecidableEq, Repr

/-- A user trap that waits for the TRET of a running handler (R143): with the address it returns to, and what
the record of an ILLEGAL-OP in its place gives of its instruction (R114). -/
structure TrapReq where
  cause     : BitVec 8
  detail    : BitVec 16
  lanes     : Mask
  acting    : Mask
  offending : Mask
  younger   : Bool
  ret       : DWord
  pc        : DWord
  cycle     : Nat
deriving DecidableEq, Repr

/-- A shelf entry still to be entered by a held spawner (R42). -/
structure Put where
  shelf : Nat
  task  : Bool
  payload : DWord
deriving DecidableEq, Repr

/-- How a traced segment runs (R59, R74, R78). -/
inductive TraceMode where
  | untraced
  | recording
  | reexec
  | newWork
  /-- Its trace was abandoned: it runs on to its next park or EXIT and is then dropped (R60). -/
  | discarded
deriving DecidableEq, Repr

/-- One child of a spawn in its future: lane or index, frame and serial number, return value, whether it ended
and on which carrel. -/
structure Kid where
  index : Nat
  frame : Nat
  serial : Nat
  ret   : DWord
  ended : Bool
  on_   : Nat
deriving DecidableEq, Repr

/-- How a kind-1 future delivers (R313). -/
inductive SpawnKind where
  | lane | gang | vector
deriving DecidableEq, Repr

/-- A slot of a wing's future table (R208), keyed by wing * 2^28 + slot: `maker` is the serial of the
task that made it, `held` the trace whose TDROP alone frees it. -/
structure Slot where
  used        : Bool
  kind        : BitVec 4
  object      : DWord
  value       : DWord
  generation  : BitVec 24
  complete    : Bool
  consumed    : Bool
  overwritten : Bool
  cancelled   : Bool
  outstanding : Nat
  spawn       : SpawnKind
  kids        : List Kid
  maker       : Nat
  held        : Option Nat
deriving DecidableEq, Repr

/-- What a parked task waits for, and what its continuation delivers. -/
inductive Pend where
  | none
  /-- AWAIT of one future: slot, destination, the h register that `.chk` reports (R313). -/
  | one (slot : Nat) (dst : Operand) (chk : Option Nat)
  /-- AWAITA: index and slot of each named future (R314). -/
  | any (slots : List (Nat × Nat)) (dst : Operand)
  /-- The AWAIT's future is complete, with what its slot held then. -/
  | got (slot : Nat) (was : Slot) (dst : Operand) (chk : Option Nat)
  /-- AWAITA's choice (R314). -/
  | chosen (index slot : Nat) (dst : Operand)
  /-- A spawner that found the shelf above its high watermark (R42). -/
  | depth (shelf : Nat)
  /-- An instruction that needs frames and a slot of a wing's future table (R35, R208). -/
  | room (frames wing : Nat)
  /-- A spawn whose children still enter the ring: its slot, its path, whether the shelf stood above H (R42). -/
  | entering (slot : Nat) (younger deep : Bool)
deriving DecidableEq, Repr

/-- What a packed gang holds for one of its tasks (R33, R302): the fields of `Gang` of these names. -/
structure Part where
  frame    : Nat
  h        : Vector DWord 16
  he       : BitVec 16
  replaym  : DWord
  hash     : DWord
  tkey     : DWord
  sites    : Nat
  kids     : List (Nat × Nat)
  puts     : List Put
  strong   : Nat
  rfolio   : Nat
  sroot    : Bool
  mode     : TraceMode
  trace    : Nat
  folio    : Nat
  modnews  : Nat
  atoms    : Nat
  pend     : Pend
  awaitAt  : Nat
  heard    : List Nat
  member   : Bool
  ret      : DWord
deriving DecidableEq, Repr

/-- A gang: its registers (R89), special registers (R108), paths (R98) and the state of its task, with the return
value that its segment has so far. A packed gang
(R33) has the task of lane `front` in its own fields and the tasks of its other lanes in `pack`. -/
structure Gang where
  resident : Bool
  stopped  : Bool
  stepMode : Bool
  saved    : Bool
  carrel   : Nat
  quarter  : BitVec 2
  slot     : BitVec 3
  since    : Nat
  /-- The cycle of its last turn to issue, by which quarters take turns (the model's own, log 3). -/
  issued   : Nat
  ceded    : Bool
  /-- The cycle in which it last ceded its turn (R15). -/
  cededAt  : Nat
  run      : Nat
  width    : Nat
  packed   : Bool
  front    : Nat
  pack     : Table Part
  regs     : Nat
  code     : Nat
  frame    : Nat
  isShadow : Bool
  partner  : Option Nat
  w        : Vector Lanes 256
  we       : Vector Mask 256
  wo       : Vector Mask 256
  s        : Vector DWord 64
  se       : BitVec 64
  p        : Vector Mask 8
  k        : BitVec 8
  h        : Vector DWord 16
  he       : BitVec 16
  q        : Vector (Vector (List Word) 32) 16
  p0       : Path
  p1       : Option Path
  younger  : Bool
  split    : Option Split
  trapv    : DWord
  trapc    : DWord
  trappc   : DWord
  /-- The handler was entered while the gang was split: the other path issues nothing (R143). -/
  trapSplit : Bool
  lrand    : Lanes
  obsdef   : BitVec 5
  replaym  : DWord
  tcfg     : DWord
  shape    : Vector DWord 4
  maskm    : DWord
  maskn    : DWord
  focus    : BitVec 2
  cbase    : DWord
  clim     : DWord
  hash     : DWord
  tkey     : DWord
  sites    : Nat
  /-- Frames and serial numbers of the children that the segment has spawned. -/
  kids     : List (Nat × Nat)
  puts     : List Put
  strong   : Nat
  rfolio   : Nat
  sroot    : Bool
  mode     : TraceMode
  trace    : Nat
  folio    : Nat
  modnews  : Nat
  atoms    : Nat
  flights  : List Flight
  traps    : List TrapReq
  pend     : Pend
  /-- CYCLE at the issue of the AWAIT at which the task parked (R114). -/
  awaitAt  : Nat
  /-- The carrels where children of the segment ended whose frames are freed already (R128). -/
  heard    : List Nat
  /-- The task counts among the tasks of its session (R156). -/
  member   : Bool
  ret      : DWord
  /-- The code of the BKPT that stopped the gang, as the Curator receives it (R377). -/
  report   : Option DWord
deriving DecidableEq, Repr

/-- A watch that an MWAIT lane has set at a home slice (R21): its gang, path and lane, the virtual and the
physical address and the size of the word, whether its page is MOD, the condition code and comparand, the
value that met it. A halt disarms one
that is not met (R150). -/
structure Watch where
  gang    : Nat
  younger : Bool
  lane    : Nat
  va      : Nat
  pa      : Nat
  size    : Nat
  mod     : Bool
  cond    : BitVec 5
  cmp     : DWord
  met     : Option DWord
  armed   : Bool
deriving DecidableEq, Repr

/-! The matrix array and the transform unit (17). -/

/-- Who issued a tile instruction: address, path, GANG value, frame, gang number, cycle (R359). -/
structure Issuer where
  pc      : DWord
  younger : Bool
  gangReg : BitVec 15
  frame   : Nat
  gang    : Nat
  cycle   : Nat
deriving DecidableEq, Repr

/-- A 64-byte block as the operand collector read it: its label, its bytes, whether its check bits failed (R146,
R243). -/
structure Block where
  label : Label
  bytes : List Byte
  bad   : Bool
deriving DecidableEq, Repr

inductive TileOpKind where
  | mma | mmac | aclr | ald | ast | drainRead
deriving DecidableEq, Repr

/-- An entry of the sequencer with its snapshot (R240), its blocks row by row as the collector read them
at issue (R255), and its step state (R256). `again`: a fault stopped it, so the blocks are read afresh
when it is checked again (R359). -/
structure TileOp where
  kind    : TileOpKind
  tile    : BitVec 2
  dA      : DWord
  dB      : DWord
  control : BitVec 31
  tcfg    : DWord
  maskm   : Nat
  maskn   : Nat
  job     : Nat
  step    : Nat
  rowsA   : List (List Block)
  rowsB   : List (List Block)
  again   : Bool
  by_     : Issuer
deriving DecidableEq, Repr

/-- An XFORM queued on the transform unit (R363). `labels` are its source blocks' effective labels as its first step
found them, row by row: in place, the transform's own output takes their places (R221). -/
structure XformOp where
  inverse : Bool
  sym     : Bool
  src     : DWord
  dst     : DWord
  job     : Nat
  step    : Nat
  labels  : List (List Label)
  by_     : Issuer
deriving DecidableEq, Repr

/-! Buffers (R212). -/

inductive BufState where
  | free | filling | full | draining
deriving DecidableEq, Repr

structure BufEntry where
  delivered : Vector Word 4
  expected  : Vector Word 4
  value     : Word
  offset    : BitVec 19
  armed     : Bool
  claims    : Nat
  named     : BitVec 4
  satisfied : BitVec 4
  state     : BufState
deriving DecidableEq, Repr

/-- A pattern table with the code object it is tagged with (R107). -/
structure Pattern where
  tag     : Nat
  entries : Vector (BitVec 16) 128
deriving DecidableEq, Repr

/-- A barrier (R349). -/
structure Barrier where
  count    : Nat
  n        : Nat
  phase    : Word
  standing : Nat
deriving DecidableEq, Repr

/-- The state of one carrel that belongs to the context. -/
structure Carrel where
  sp     : Memory
  loft   : Memory
  /-- The blocks of both whose check bits fail (R146, R256). -/
  spBad  : List Nat
  loftBad : List Nat
  loftWritten : Bool
  tiles  : Vector (Vector (Vector Word 128) 128) 4
  seq    : List TileOp
  xu     : List XformOp
  bufs   : Vector BufEntry 64
  /-- The gangs' paths that wait for a FREE entry, in the order in which they came, and the entries that went to those
  that have not issued since (R369). -/
  takers : List (Nat × Bool)
  given  : List ((Nat × Bool) × Nat)
  pats   : Vector (Option Pattern) 16
  bars   : Table Barrier
  pmsel  : Vector DWord 4
  pmcnt  : Vector DWord 4
deriving DecidableEq, Repr

/-- The part of a carrel that holds no context state: caches, translations, power (R122, R138,
R399). `consts` are the sectors of constant sections in the L1, by code object and sector (R120). -/
structure Cache where
  lines : Table Line
  epoch : BitVec 12
  tlb   : Table Translation
  consts : List (Nat × Nat)
deriving DecidableEq, Repr

/-! Tasks, futures, shelves (04, 14). -/

/-- States of a task in frame byte 62 (R34). -/
inductive TaskState where
  | ready | running | parked | runnable | ended
deriving DecidableEq, Repr

/-- A task's frame (R34), and what the desk keeps beside it: its serial number, its anchor (R32), its
parent's region, where it parked and ended, its launch, its trace, its `group`: the serial number of the first
child of the same spawn instruction (R33). `args` are bytes 64 to 191. -/
structure Frame where
  parent     : Nat
  resumePc   : DWord
  entryPc    : DWord
  ordinal    : Word
  awaiting   : Nat
  digest     : DWord
  folio      : Nat
  imagePtr   : DWord
  imageSize  : BitVec 16
  width      : Nat
  region     : BitVec 3
  shelf      : Nat
  state      : TaskState
  cancel     : Bool
  traced     : Bool
  packed     : Bool
  laneClass  : Bool
  args       : Vector Byte 128
  ret        : DWord
  hasRet     : Bool
  stackSpill : DWord
  bitmap     : BitVec 256
  taskId     : DWord
  anchor     : Nat
  parkedOn   : Nat
  endedOn    : Nat
  serial     : Nat
  parentRegion : BitVec 3
  launch     : Nat
  trace      : Nat
  mode       : TraceMode
  replaym    : DWord
  rfolio     : Nat
  member     : Bool
  group      : Nat
deriving DecidableEq, Repr

/-- A shelf entry (R44); a launch root's entry has no team (R45). -/
structure ShelfEntry where
  age     : Word
  team    : Option Nat
  isTask  : Bool
  boost   : Bool
  payload : DWord
deriving DecidableEq, Repr

/-- A shelf: its table entry (R41), its entries in age order, the launch of the task that bound it
(R321), the gangs and paths whose SHTAKE waits, in order of arrival, and what came to those that have not issued
since: a value, or none where the shelf was bound meanwhile (R320, R329). -/
structure Shelf where
  consumer : DWord
  valid    : Bool
  pinned   : Bool
  prio     : BitVec 3
  low      : Nat
  high     : Nat
  cap      : Nat
  ring     : DWord
  readIdx  : Nat
  entries  : List ShelfEntry
  launch   : Nat
  takers   : List (Nat × Bool)
  given    : List ((Nat × Bool) × Option DWord)
deriving DecidableEq, Repr

/-- A launch not yet completed (R47). -/
structure Launch where
  root       : Nat
  prio       : BitVec 3
  completion : DWord
  fused      : Bool
  rootRet    : DWord
  rootEnded  : Bool
  carrels    : List Nat
  done       : Bool
deriving DecidableEq, Repr

/-! Engine jobs (14). -/

/-- A card (R197), field by field. -/
structure Card where
  kind    : Byte
  op      : Byte
  flags   : BitVec 16
  count   : Word
  source  : DWord
  dest    : DWord
  aux     : DWord
  rBase   : DWord
  rLen    : DWord
  wBase   : DWord
  wLen    : DWord
deriving DecidableEq, Repr

/-- Who submitted a card (R198). -/
inductive Submitter where
  | copy | copyt | copyf | drain | job | host | xform
deriving DecidableEq, Repr

inductive JobState where
  /-- In its copy queue. -/
  | queued
  /-- Taken by its engine. -/
  | running
  /-- Suspended by a fault (R214), restarted when the Curator resumes. -/
  | suspended
  /-- Suspended by a CRC mismatch (R216). -/
  | crcFailed
  /-- All its writes are done; its completion is to be written. -/
  | finishing
deriving DecidableEq, Repr

/-- A job of an engine: card, envelope (R199), place in its queue and in the graph, progress. `gallery` 15
is the desk's choice. `trace` and `folio` are those of the segment that submitted it (R54), `olds` the
MOD granules of its write footprint as they were when it began (R58), `follow` the matrix follow-on
(R206). `cancelled` says that it stops (R211): before its slot is linked, that the slot is passed over. -/
structure Job where
  card      : Card
  by_       : Submitter
  wing      : Nat
  gallery   : Nat
  bufCarrel : Nat
  target    : DWord
  compAddr  : DWord
  compObs   : BitVec 5
  slotAddr  : DWord
  index     : Nat
  future    : Option Nat
  launch    : Nat
  carrel    : Nat
  state     : JobState
  linked    : Bool
  begun     : Bool
  cursor    : Nat
  out       : Nat
  outBuf    : List Byte
  retries   : Nat
  crcWant   : Word
  crcGot    : Word
  value     : DWord
  credit    : Nat
  claim     : Bool
  cancelled : Bool
  tile      : List (List Word)
  tileRead  : Bool
  envBad    : Bool
  fired     : Bool
  trace     : Option Nat
  folio     : Nat
  olds      : List (Nat × List Byte)
  follow    : Option TileOp
deriving DecidableEq, Repr

/-! Traces (05) and sessions (11). -/

/-- A record of a segment's run (R66). -/
inductive Record where
  | read (granule : Nat)
  | write (granule : Nat)
  | atomic (addr : Nat) (op : BitVec 4) (value : DWord)
deriving DecidableEq, Repr

/-- What a re-execution starts from (R68): the saved gang with the value that its AWAIT delivered, that AWAIT as it
found its future, every child's return value, the task's own return value so far, and the bytes the image takes
in the Archive. -/
structure EntryImage where
  gang : Gang
  await : Pend
  rets : List DWord
  ret  : DWord
  size : Nat
deriving DecidableEq, Repr

/-- An Archive folio (R65) with its record run, entry image and recorded allocations. `ran` says that a run has
retired, `runNo` how many have (R66), `exited` that it ended by EXIT; `ret` and `hasRet` are kept in the task's last segment. -/
structure Folio where
  label      : DWord
  entryPc    : DWord
  stale      : Bool
  queued     : Bool
  running    : Bool
  revoked    : Bool
  exited     : Bool
  inPlace    : Bool
  ran        : Bool
  runNo      : Nat
  digest     : DWord
  ordinal    : Word
  parent     : Nat
  successor  : Nat
  frame      : Nat
  task0      : Nat
  records    : List Record
  fresh      : List Record
  image      : Option EntryImage
  ret        : DWord
  hasRet     : Bool
  allocs     : List (Nat × Nat)
  freshAllocs : List (Nat × Nat)
  matched    : List Nat
deriving DecidableEq, Repr

/-- States of a trace in its header (R62). -/
inductive TraceState where
  | recording | recorded | propagating | abandoned
deriving DecidableEq, Repr

/-- A trace: header (R62), folios, recall queue (R71), propagations and drops waiting, propagation futures
cancelled while re-executions still run (R316). `rootArgs` are the root's arguments as spawned. -/
structure Trace where
  live      : Bool
  state     : TraceState
  buckets   : Nat
  root      : Nat
  future    : Nat
  rootFrame : Nat
  rootEnded : Bool
  rootImage : Option EntryImage
  rootArgs  : Vector Byte 128
  rootRet   : DWord
  folios    : Table Folio
  next      : Nat
  queue     : List Nat
  props     : List Nat
  active    : Option Nat
  drop      : Bool
  cancels   : List Nat
  relabel   : Bool
  nprops    : Nat
  nruns     : Nat
  orphans   : List Nat
  carrel    : Nat
deriving DecidableEq, Repr

inductive LogState where
  | empty | recording | recorded | replaying
deriving DecidableEq, Repr

/-- A replay folio (R158). `used`: a task of the running replay has taken it. -/
structure ReplayFolio where
  hash    : DWord
  strong  : Nat
  parent  : Nat
  ordinal : Word
  entryPc : DWord
  ended   : Bool
  hashed  : Bool
  used    : Bool
deriving DecidableEq, Repr

/-- An order log (R158) with the position of each slice's order gate and the accesses held there in order of
arrival, by gang and path (R160): slices are keyed by rank * 16 + slice, and a chunk is (folio, run length). -/
structure OrderLog where
  state     : LogState
  truncated : Bool
  folios    : List ReplayFolio
  extra     : List ReplayFolio
  chunks    : Table (List (Nat × Nat))
  gates     : Table (List (Nat × Nat))
  waits     : Table (List (Nat × Bool))
  members   : Nat
  rootIn    : Bool
deriving DecidableEq, Repr

/-- A granule allocation of the modifiable arena with its owner's trace and folio (R55). -/
structure Alloc where
  addr  : Nat
  size  : Nat
  trace : Option Nat
  folio : Nat
deriving DecidableEq, Repr

/-- A cellar block (R110, R121): its offset in the cellar arena, its bytes, the serial numbers of the tasks that
use it. -/
structure Cellar where
  at_   : Nat
  size  : Nat
  tasks : List Nat
deriving DecidableEq, Repr

/-- A code object in place (R383, R386): its exports with their addresses, none for a label of the constants. -/
structure Loaded where
  consts  : List Byte
  tasks   : List TaskInfo
  exports : List (Nat × Option Nat)
deriving DecidableEq, Repr

/-- A MODSET access held at the Archive during a propagation (R28). -/
structure HeldSet where
  gang    : Nat
  younger : Bool
  lane    : Nat
  va      : Nat
  pa      : Nat
  data    : List Byte
deriving DecidableEq, Repr

/-- A broadcast invalidation of a virtual range that is not complete (R139): the physical pages that accesses
translated before it have still to reach. -/
structure Unmap where
  va     : Nat
  size   : Nat
  frames : List Nat
deriving DecidableEq, Repr

/-- The state that belongs to one context. -/
structure Context where
  made     : Bool
  number   : Nat
  vi       : Nat
  gen      : Byte
  root     : Nat
  stopBase : DWord
  faultBase : DWord
  cstat    : DWord
  dbgctl   : DWord
  frameBase : DWord
  frameRoom : Nat
  imageBase : DWord
  imageRoom : Nat
  cellarBase : DWord
  cellars  : List Cellar
  modBase  : DWord
  modRoom  : Nat
  allocs   : List Alloc
  logBase  : DWord
  archiveMax : Nat
  /-- The galleries that ran fused when the context was pre-empted (R124). -/
  fusedAt  : List Nat
  gangs    : Table Gang
  nextGang : Nat
  carrels  : Table Carrel
  galleryBars : Table (Table Barrier)
  wingBars : Table (Table Barrier)
  frames   : Table Frame
  parked   : Table Gang
  /-- The gangs that re-executions parked, as the entries of the following segments (R68, R77): by trace * 2^32 and
  following folio. -/
  entries  : Table Gang
  slots    : Table Slot
  shelves  : Table Shelf
  residents : List Nat
  age      : Word
  launches : Table Launch
  queues   : List Nat
  copyRings : Table (DWord × DWord)
  jobs     : Table Job
  nextJob  : Nat
  traces   : Table Trace
  logs     : Table OrderLog
  codes    : Table Loaded
  watches  : List Watch
  heldSets : List HeldSet
  /-- Invalidations that accesses translated before still keep from completing, and changes of an access table (R139,
  R394). -/
  unmaps   : List Unmap
  grace    : Option Nat
  /-- Per carrel with a gang at the window's opening: gangs that have not saved at a PHINT, the union of
  the scratchpad bitmaps (R151). -/
  phints   : Table (Nat × DWord)
  nextTask : Nat
deriving DecidableEq, Repr

/-- What a unit that raised a context fault reports (R114). -/
structure FaultInfo where
  unitKind  : BitVec 8
  wing      : Nat
  unit      : Nat
  kind      : BitVec 8
  gangReg   : BitVec 15
  frame     : Nat
  cycle     : Nat
  pc        : DWord
  younger   : Bool
  acting    : Mask
  offending : Mask
  detail    : DWord
  trace     : Option Nat
  gang      : Option Nat
deriving DecidableEq, Repr

/-- The halt line of the partition (R144). -/
inductive Halt where
  | running
  /-- Asserted; the units have yet to stop. -/
  | asserted
  /-- Every unit has stopped and written its record. -/
  | stopped
deriving DecidableEq, Repr

/-- A management page (R392): what the driver wrote and what the device answers. `wanted` is the accepted
field as written, `accepted` what was copied into FEAT0 to FEAT3; CSTAT is read from the context. -/
structure Page where
  signature : List Byte
  nonce     : List Byte
  quote     : List Byte
  command   : Byte
  status    : Byte
  argument  : BitVec 48
  attachReq : Bool
  attached  : Bool
  quoteReq  : Bool
  attachStatus : Byte
  accepted  : BitVec 256
  wanted    : BitVec 256
deriving DecidableEq, Repr

/-- An interface's access table for one target (R394). -/
structure Access where
  vi     : Nat
  target : Target
  ranges : List AccessRange
  owner  : Bool
deriving DecidableEq, Repr

/-- The migration log of one 1 GiB region (R397). -/
structure MigrLog where
  region   : Nat
  pages    : List Nat
  overflow : Bool
deriving DecidableEq, Repr

/-- The state of the machine. -/
structure State where
  /-- Events from outside still to come, oldest first (the model's own). -/
  agenda   : List Instr
  /-- Cycles since package reset, from 0 (R3; log 7, log 84). -/
  clock    : Nat
  /-- For each carrel, the cycles in which it was gated and counted none of its own (R3, R399). -/
  asleep   : Table Nat
  /-- Free values taken so far (the model's own, log 2). -/
  free     : Nat
  /-- Choices that the manual leaves to the device and to the Curator, still to come (the model's own, log 3): each
  is taken in turn, and with none left it is 0. The Curator's are W (R148, log 74) and the path that FOCUS names
  (R155, log 104). -/
  choices  : List Nat
  /-- The number of the gang that issues (the model's own). -/
  cur      : Nat
  ctx      : Context
  saved    : List Context
  mem      : Memory
  bad      : List Nat
  errorLog : List Nat
  l1s      : Table Cache
  l2s      : Table Cache
  engTlbs  : Table (Table Translation)
  fused    : List Nat
  gated    : List Nat
  halt     : Halt
  faults   : List FaultInfo
  /-- W, the cycles of a grace window, as the Curator has set it for the partition (R148). -/
  window   : Nat
  /-- The partition, as the last package reset read it from module flash (R395, log 6). -/
  part     : Partition
  booted   : Bool
  recovery : Bool
  /-- The SHA-256 of the Curator image that runs, 0 before any does (R391). -/
  measurement : BitVec 256
  version  : Word
  pages    : Table Page
  quotes   : BitVec 16
  access   : List Access
  quotas   : Table Nat
  migr     : Option (Nat × List MigrLog)
  /-- The pages that the final round of a migration resends (R397). -/
  resend   : List Nat
deriving DecidableEq, Repr

/-- Why the machine stops. -/
inductive Fault where
  /-- Raised by `step` while a partition is in recovery: it runs nothing (R390). Safe. -/
  | inRecovery
deriving DecidableEq, Repr

/-- Why an operation has no meaning in the model or in the state it meets. -/
inductive Refusal where
  /-- Raised by `exec`'s arm of an instruction that is rejected by name. Safe. -/
  | notModelled (mnemonic : String)
  /-- Raised by the meaning of an event (desk, engine, Curator or host) in a state in which that
  event cannot occur: the machine has no such step there. Safe. -/
  | notEnabled (event : String)
  /-- Raised by the NVMe event: the namespace is a device whose behaviour the manual does not
  give (R388). Safe. -/
  | nvmeNamespace
deriving DecidableEq, Repr

/-! The machine right after reset. -/

def Memory.empty : Memory := { bytes := [], labels := [] }

def Path.start (pc : DWord) (width : Nat) : Path :=
  { pc := pc, xm := Mask.first width, lanes := Mask.first width, join := none, stack := [],
    wait := .none, held := none, rwSkip := none, done := [], latch := none, reread := false, acted := 0,
    lacks := false, reach := [], began := Option.none }

/-- A gang at the start of a task's segment 0 (R89, R108). -/
def Gang.start (pc : DWord) (width : Nat) : Gang :=
  { resident := false, stopped := false, stepMode := false, saved := false, carrel := 0, quarter := 0,
    slot := 0, since := 0, issued := 0, ceded := false, cededAt := 0, run := 0, width := width, packed := false, front := 0, pack := [],
    regs := 32, code := 0,
    frame := 0, isShadow := false, partner := none,
    w := Vector.replicate 256 (Lanes.all 0), we := Vector.replicate 256 0,
    wo := Vector.replicate 256 0, s := Vector.replicate 64 0, se := 0,
    p := Vector.replicate 8 0, k := 0, h := Vector.replicate 16 0, he := 0,
    q := Vector.replicate 16 (Vector.replicate 32 []),
    p0 := Path.start pc width, p1 := none, younger := false, split := none,
    trapv := 0, trapc := 0, trappc := 0, trapSplit := false,
    lrand := Vector.ofFn fun (l : Fin 32) => BitVec.ofNat 32 (1 + l), obsdef := 1, replaym := 0,
    tcfg := 0, shape := Vector.replicate 4 0, maskm := 128, maskn := 128, focus := 0, cbase := 0,
    clim := 0, hash := 0x243F6A88_85A308D3, tkey := 0, sites := 0, kids := [], puts := [],
    strong := 0, rfolio := 0, sroot := false, mode := .untraced, trace := 0, folio := 0,
    modnews := 0, atoms := 0, flights := [], traps := [], pend := .none, awaitAt := 0, heard := [], member := false, ret := 0, report := Option.none }

def BufEntry.zero : BufEntry :=
  { delivered := Vector.replicate 4 0, expected := Vector.replicate 4 0, value := 0, offset := 0,
    armed := false, claims := 0, named := 0, satisfied := 0, state := .free }

def Carrel.reset : Carrel :=
  { sp := Memory.empty, loft := Memory.empty, spBad := [], loftBad := [], loftWritten := false,
    tiles := Vector.replicate 4 (Vector.replicate 128 (Vector.replicate 128 0)), seq := [], xu := [],
    bufs := Vector.replicate 64 BufEntry.zero, takers := [], given := [], pats := Vector.replicate 16 none, bars := [],
    pmsel := Vector.replicate 4 0, pmcnt := Vector.replicate 4 0 }

def Cache.reset : Cache := { lines := [], epoch := 0, tlb := [], consts := [] }

def Context.none : Context :=
  { made := false, number := 0, vi := 0, gen := 0, root := 0, stopBase := 0, faultBase := 0,
    cstat := 0, dbgctl := 0, frameBase := 0, frameRoom := 0, imageBase := 0, imageRoom := 0, cellarBase := 0,
    cellars := [], modBase := 0, modRoom := 0, allocs := [], logBase := 0, archiveMax := 0,
    fusedAt := [], gangs := [], nextGang := 0,
    carrels := [], galleryBars := [], wingBars := [], frames := [], parked := [], entries := [], slots := [],
    shelves := [], residents := [], age := 0, launches := [], queues := [], copyRings := [],
    jobs := [], nextJob := 1, traces := [], logs := [], codes := [], watches := [], heldSets := [], unmaps := [],
    grace := Option.none, phints := [], nextTask := 0 }

/-- The machine right after package reset: no context, no gang, nothing booted, memory with nothing
listed (R118, R390, R392). -/
def State.reset : State :=
  { agenda := [], clock := 0, asleep := [], free := 0, choices := [], cur := 0, ctx := Context.none, saved := [],
    mem := Memory.empty, bad := [], errorLog := [], l1s := [], l2s := [], engTlbs := [], fused := [],
    gated := [], halt := .running, faults := [], window := 4096, part := Config.layout,
    booted := false, recovery := false, measurement := 0, version := 0, pages := [], quotes := 0, access := [], quotas := [], migr := Option.none,
    resend := [] }

end Sys2Proof.Machine
end

