-- ==== Sys2Proof/Machine/Ops.lean ====
section
/-! DEFINITION. The named operations over tables, bytes, gangs and paths that every meaning uses; the
rise of a context fault (R144), the delivery of a user trap and its return (R142); and how an
instruction leaves its path (R98 to R102, R259). -/

namespace Sys2Proof.Machine

open Sys2Proof

/-- What an instruction or event answers. -/
abbrev Result := Host.Outcome State Fault Refusal

/-! Tables. -/

def Table.look {α : Type} (t : Table α) (k : Nat) (d : α) : α :=
  match t with
  | [] => d
  | (k', v) :: r => if k = k' then v else Table.look r k d

def Table.seek {α : Type} (t : Table α) (k : Nat) : Option α :=
  match t with
  | [] => none
  | (k', v) :: r => if k = k' then some v else Table.seek r k

/-- Insert or replace, keeping rising keys. -/
def Table.put {α : Type} (t : Table α) (k : Nat) (v : α) : Table α :=
  match t with
  | [] => [(k, v)]
  | (k', v') :: r =>
    if k = k' then (k, v) :: r
    else if k < k' then (k, v) :: (k', v') :: r
    else (k', v') :: Table.put r k v

def Table.del {α : Type} (t : Table α) (k : Nat) : Table α :=
  t.filter fun e => e.1 != k

def Table.has {α : Type} (t : Table α) (k : Nat) : Bool := (Table.seek t k).isSome

/-- A table that lists only what differs from `d`: writing `d` removes the entry. -/
def Table.store {α : Type} [BEq α] (t : Table α) (k : Nat) (v d : α) : Table α :=
  if v == d then Table.del t k else Table.put t k v

/-- Strictly rising keys, no value equal to `d`. -/
def Table.canon {α : Type} [BEq α] (d : α) : Table α → Bool
  | [] => true
  | [(_, v)] => v != d
  | (k, v) :: (k', v') :: r => v != d && decide (k < k') && Table.canon d ((k', v') :: r)

/-- The first number from `n` on that is no key of the table, for tables that only grow. -/
def Table.fresh {α : Type} (t : Table α) : Nat :=
  t.foldl (fun m e => max m (e.1 + 1)) 0

/-! Byte storage. An address nothing has written reads 0, label 0 (log 4; for the scratchpad and the
loft R118). -/

def Memory.byte (m : Memory) (a : Nat) : Byte := Table.look m.bytes a 0
def Memory.setByte (m : Memory) (a : Nat) (b : Byte) : Memory :=
  { m with bytes := Table.store m.bytes a b 0 }
/-- The stored label of block `blk`, 64 bytes from 64 * blk (R131). -/
def Memory.label (m : Memory) (blk : Nat) : Label := Table.look m.labels blk 0
def Memory.setLabel (m : Memory) (blk : Nat) (l : Label) : Memory :=
  { m with labels := Table.store m.labels blk l 0 }

/-- The canonical form of both lists. -/
def Memory.wf (m : Memory) : Bool := Table.canon 0 m.bytes && Table.canon 0 m.labels

def Memory.read (m : Memory) (a n : Nat) : List Byte := (List.range n).map fun i => m.byte (a + i)

/-- The cells of a run of bytes from `a` on, without those that an unlisted address reads as. -/
def cellsOf (a : Nat) (bs : List Byte) : List Host.Cell :=
  match bs with
  | [] => []
  | b :: r => if b = 0 then cellsOf (a + 1) r else (a, b) :: cellsOf (a + 1) r

/-- Write a run of bytes from `a` on. -/
def Memory.write (m : Memory) (a : Nat) (bs : List Byte) : Memory :=
  { m with bytes := m.bytes.filter (fun e => decide (e.1 < a)) ++ cellsOf a bs
                      ++ m.bytes.filter (fun e => decide (a + bs.length ≤ e.1)) }

/-- The little-endian number of n bytes at an address (R5). -/
def Memory.word (m : Memory) (a n : Nat) : Nat := bytesToNat (m.read a n)

/-! The partition (R395). -/

def State.wings (s : State) : List Nat := s.part.wings

/-- The global numbers of the partition's carrels, wing * 48 + carrel. -/
def State.carrels (s : State) : List Nat :=
  s.wings.flatMap fun w => (List.range Config.carrelsPerWing).map (w * Config.carrelsPerWing + ·)

/-- The stacks of the partition, S of R126. -/
def State.stackCount (s : State) : Nat := 2 * s.wings.length

/-- The bytes of the partition's device memory: 64 GiB for each stack (R8, R12). -/
def State.memBytes (s : State) : Nat := s.stackCount * 2 ^ 36

/-- PWINGS (R372): bit w set for each wing of the partition. -/
def State.pwings (s : State) : DWord := BitVec.ofNat 64 (s.wings.foldr (fun w acc => acc ||| 2 ^ w) 0)

/-! The parts of the state that the current gang and its carrel reach. -/

def State.gangOf (s : State) (n : Nat) : Gang := Table.look s.ctx.gangs n (Gang.start 0 1)
def State.gang (s : State) : Gang := s.gangOf s.cur
def State.setGangOf (s : State) (n : Nat) (g : Gang) : State :=
  { s with ctx := { s.ctx with gangs := Table.put s.ctx.gangs n g } }
def State.modGangOf (s : State) (n : Nat) (f : Gang → Gang) : State := s.setGangOf n (f (s.gangOf n))
def State.setGang (s : State) (g : Gang) : State := s.setGangOf s.cur g
def State.modGang (s : State) (f : Gang → Gang) : State := s.setGang (f s.gang)

def State.carrelOf (s : State) (c : Nat) : Carrel := Table.look s.ctx.carrels c Carrel.reset
def State.setCarrelOf (s : State) (c : Nat) (x : Carrel) : State :=
  { s with ctx := { s.ctx with carrels := Table.put s.ctx.carrels c x } }
def State.modCarrelOf (s : State) (c : Nat) (f : Carrel → Carrel) : State :=
  s.setCarrelOf c (f (s.carrelOf c))

def Frame.none : Frame :=
  { parent := 0, resumePc := 0, entryPc := 0, ordinal := 0, awaiting := 0, digest := 0, folio := 0,
    imagePtr := 0, imageSize := 0, width := 1, region := 0, shelf := 0, state := .ready,
    cancel := false, traced := false, packed := false, laneClass := false,
    args := Vector.replicate 128 0, ret := 0, hasRet := false, stackSpill := 0, bitmap := 0,
    taskId := 0, anchor := 0, parkedOn := 0, endedOn := 0, serial := 0, parentRegion := 0, launch := 0,
    trace := 0, mode := .untraced, replaym := 0, rfolio := 0, member := false, group := 0 }

def State.frameOf (s : State) (f : Nat) : Frame := Table.look s.ctx.frames f Frame.none
def State.setFrameOf (s : State) (f : Nat) (x : Frame) : State :=
  { s with ctx := { s.ctx with frames := Table.put s.ctx.frames f x } }
def State.modFrameOf (s : State) (f : Nat) (g : Frame → Frame) : State :=
  s.setFrameOf f (g (s.frameOf f))

/-! Paths (R98). -/

def Gang.path (g : Gang) : Path := if g.younger then g.p1.getD (Path.start 0 0) else g.p0
def Gang.setPath (g : Gang) (p : Path) : Gang :=
  if g.younger then { g with p1 := some p } else { g with p0 := p }
def Gang.modPath (g : Gang) (f : Path → Path) : Gang := g.setPath (f g.path)
def Gang.xm (g : Gang) : Mask := g.path.xm
/-- The other path of the gang, when there is one. -/
def Gang.other (g : Gang) : Option Path := if g.younger then some g.p0 else g.p1

def State.pc (s : State) : DWord := s.gang.path.pc
def State.xm (s : State) : Mask := s.gang.xm

def State.setPath (s : State) (p : Path) : State := s.modGang fun g => g.setPath p
def State.modPath (s : State) (f : Path → Path) : State := s.modGang fun g => g.modPath f

/-! Packed gangs (R33, R302). -/

/-- The gang's own task as a part of a packed gang. -/
def Gang.part (g : Gang) : Part :=
  { frame := g.frame, h := g.h, he := g.he, replaym := g.replaym, hash := g.hash, tkey := g.tkey, sites := g.sites,
    kids := g.kids, puts := g.puts, strong := g.strong, rfolio := g.rfolio, sroot := g.sroot, mode := g.mode,
    trace := g.trace, folio := g.folio, modnews := g.modnews, atoms := g.atoms, pend := g.pend, awaitAt := g.awaitAt,
    heard := g.heard, member := g.member, ret := g.ret }

def Gang.withPart (g : Gang) (p : Part) : Gang :=
  { g with frame := p.frame, h := p.h, he := p.he, replaym := p.replaym, hash := p.hash, tkey := p.tkey,
           sites := p.sites, kids := p.kids, puts := p.puts, strong := p.strong, rfolio := p.rfolio,
           sroot := p.sroot, mode := p.mode, trace := p.trace, folio := p.folio, modnews := p.modnews,
           atoms := p.atoms, pend := p.pend, awaitAt := p.awaitAt, heard := p.heard, member := p.member,
           ret := p.ret }

/-- The gang with the task of lane l in its own fields. -/
def Gang.task (g : Gang) (l : Nat) : Gang :=
  if l = g.front then g
  else match Table.seek g.pack l with
    | some p => { g.withPart p with front := l, pack := Table.put (Table.del g.pack l) g.front g.part }
    | none => g

/-- The gang once for each task that it holds, with that task in its own fields. -/
def Gang.tasks (g : Gang) : List Gang := g :: g.pack.map fun e => g.task e.1

/-- The gang with `f` done to each of its tasks; `f` changes the fields of `Part` alone. -/
def Gang.mapTasks (f : Gang → Gang) (g : Gang) : Gang :=
  { f g with pack := g.pack.map fun e => (e.1, (f (g.withPart e.2)).part) }

/-- The lanes of the task's width, or of a packed gang's tasks. -/
def Gang.lanes (g : Gang) : Mask :=
  if g.packed then g.pack.foldl (fun m e => m ||| Mask.lane e.1) (Mask.lane g.front) else Mask.first g.width

/-- The number of lane l as its own task sees it: lane 0 of a packed task (R33, R278). -/
def Gang.laneNo (g : Gang) (l : Nat) : Nat := if g.packed then 0 else l

/-- Every task that a gang of the context holds, as its gang. -/
def State.tasksIn (s : State) : List Gang := s.ctx.gangs.flatMap fun e => e.2.tasks

/-- The GANG register (R108): slot, quarter, carrel in the wing, wing. -/
def Gang.number (g : Gang) : BitVec 15 :=
  BitVec.ofNat 15 (g.slot.toNat + g.quarter.toNat * 8 + (g.carrel % Config.carrelsPerWing) * 32
    + (g.carrel / Config.carrelsPerWing) * 2048)

/-! Counting (R373). -/

def Carrel.count (c : Carrel) (event n : Nat) : Carrel :=
  { c with pmcnt := Vector.ofFn fun (i : Fin 4) =>
      if c.pmsel[i].toNat = event then c.pmcnt[i] + BitVec.ofNat 64 n else c.pmcnt[i] }

def State.count (s : State) (carrel event n : Nat) : State :=
  if Table.has s.ctx.carrels carrel then s.modCarrelOf carrel fun c => c.count event n else s

/-- The cycles that a carrel has counted (R3): those in which it was not gated. -/
def State.cycleOf (s : State) (carrel : Nat) : Nat := s.clock - Table.look s.asleep carrel 0

/-- A path of the gang found an empty operand in this cycle. -/
def Gang.lacked (g : Gang) (now : Nat) : Bool :=
  let lacks (p : Path) : Bool := p.held == some now && p.lacks
  lacks g.p0 || (g.p1.map lacks).getD false

/-- The gang is the oldest of its quarter. -/
def State.oldest (s : State) (g : Gang) : Bool :=
  s.ctx.gangs.all fun e => !(e.2.resident && e.2.carrel = g.carrel && e.2.quarter = g.quarter) || g.since ≤ e.2.since

/-- The issue slots of a carrel that are lost in this cycle because the oldest gang of a quarter lacks an operand
(R373): not that of the quarter whose gang issues. -/
def State.lostSlots (s : State) (issues : Bool) (c : Nat) : Nat :=
  let me := s.gang
  let lost (g : Gang) : Bool := g.resident && g.carrel = c && g.lacked s.clock
    && !(issues && me.carrel = c && me.quarter = g.quarter) && s.oldest g
  (((s.ctx.gangs.filter fun e => lost e.2).map fun e => e.2.quarter.toNat).eraseDups).length

/-- One cycle passes (R3): the clock and every counter of cycles advance; a gated carrel counts none. `issues` says
that a word of the current gang issues in it. -/
def State.pass (s : State) (issues : Bool) : State :=
  { s with clock := s.clock + 1,
           asleep := s.gated.foldl (fun t c => Table.put t c (Table.look t c 0 + 1)) s.asleep,
           ctx := { s.ctx with carrels := s.ctx.carrels.map fun e =>
             (e.1, if s.gated.contains e.1 then e.2 else (e.2.count 1 1).count 3 (s.lostSlots issues e.1)) } }

/-- The cycle in which a word of the current gang issues. -/
def State.tick (s : State) : State := s.pass true

/-- A fresh free value (log 2). -/
def State.freeNow (s : State) : DWord := Config.freeValue s.free
def State.useFree (s : State) : State := { s with free := s.free + 1 }

/-- The next choice of the device, and the state in which it is taken (log 3). -/
def State.choice (s : State) : Nat := s.choices.headD 0
def State.chosen (s : State) : State := { s with choices := s.choices.tail }

/-! Context faults (R114, R144, R145). -/

namespace Code
def translation : BitVec 8 := 0x01
def protection : BitVec 8 := 0x02
def alignment : BitVec 8 := 0x03
def illegalOp : BitVec 8 := 0x04
def cellarLimit : BitVec 8 := 0x05
def traceOrphan : BitVec 8 := 0x06
def traceRewrite : BitVec 8 := 0x07
def replayDiverged : BitVec 8 := 0x08
def domainMismatch : BitVec 8 := 0x09
def labelInvalid : BitVec 8 := 0x0A
def uncorrectable : BitVec 8 := 0x0B
end Code

/-- A unit reports a fault and asserts the halt line of its partition (R144). -/
def State.assertHalt (s : State) (f : FaultInfo) : State :=
  { s with faults := s.faults ++ [f], halt := .asserted }

/-- What a carrel reports of a fault at the instruction its current path stands at (R114): the frame is that of the
task in the lowest offending lane. -/
def State.carrelFault (s : State) (kind : BitVec 8) (acting offending : Mask) (detail : DWord) :
    FaultInfo :=
  let g := s.gang
  let t := g.task offending.lowest
  { unitKind := 1, wing := g.carrel / Config.carrelsPerWing, unit := g.carrel % Config.carrelsPerWing,
    kind := kind, gangReg := g.number, frame := t.frame, cycle := s.cycleOf g.carrel, pc := g.path.pc,
    younger := g.younger, acting := acting, offending := offending, detail := detail,
    trace := if t.mode == .untraced then none else some t.trace, gang := some s.cur }

/-- A context fault raised by a carrel: the instruction has no effect (R144). -/
def raiseFault (s : State) (kind : BitVec 8) (acting offending : Mask) (detail : DWord) : Result :=
  .next (s.assertHalt (s.carrelFault kind acting offending detail))

/-- ILLEGAL-OP, with detail 0 (R114): every acting lane offends. -/
def illegal (s : State) (acting : Mask) : Result := raiseFault s Code.illegalOp acting acting 0

/-! How a path moves on. -/

/-- The two paths of a split become one at the label once no path is still on its way (R18, R98,
R103). A JOIN record that a path has set and no branch has used goes with the path (log 87). -/
def Gang.rejoin (g : Gang) : Gang :=
  let away (p : Path) : Bool := p.wait == .atJoin || p.wait == .exited
  match g.split with
  | none => g
  | some sp =>
    if away g.p0 && (g.p1.map away).getD true
        && !(g.p0.wait == .exited && (g.p1.map (·.wait == .exited)).getD true && sp.arrived == 0) then
      { g with p0 := { Path.start sp.label 0 with xm := sp.arrived, lanes := g.lanes },
               p1 := none, younger := false, split := none, focus := 0, trapSplit := false }
    else g

/-! Masks of lanes in a gang (R33, R103). -/

/-- A result in flight for these lanes alone. -/
def Flight.within (x : Flight) (m : Mask) : Flight :=
  let mine (addrs : List (Nat × Nat)) : List (Nat × Nat) := addrs.filter fun e => m.has e.1
  { x with
    mask := m,
    req := match x.req with
      | .load spc n ext addrs => .load spc n ext (mine addrs)
      | .label spc addrs => .label spc (mine addrs)
      | .strong a =>
        .strong { a with lanes := a.lanes.filter fun e => m.has e.lane, done := a.done.filter fun e => m.has e.1 }
      | r => r }

/-- The result goes to a register of one task of a packed gang (R302). -/
def Flight.toHandle (x : Flight) : Bool :=
  match x.dst with
  | .h _ => true
  | _ => false

/-- The result is that of an access that an order gate holds (R163). -/
def Flight.isHeld (f : Flight) : Bool :=
  match f.req with
  | .strong _ => true
  | _ => false

/-- The gang with `f` done to every mask of lanes in it; a result for no lane any longer is dropped. -/
def Gang.mapMasks (f : Mask → Mask) (g : Gang) : Gang :=
  let region (r : Region) : Region :=
    { r with pmask := f r.pmask, emask := f r.emask, arrived := f r.arrived }
  let path (p : Path) : Path :=
    { p with xm := f p.xm, lanes := f p.lanes, stack := p.stack.map region, acted := f p.acted }
  let stays (x : Flight) : Bool := x.mask != 0 || (x.vals.isEmpty && !x.toHandle && !x.isHeld)
  { g with
    we := g.we.map f, wo := g.wo.map f, p := g.p.map f, p0 := path g.p0, p1 := g.p1.map path,
    split := g.split.map fun sp => { sp with arrived := f sp.arrived },
    flights := (g.flights.map fun x => x.within (f x.mask)).filter stays }

/-- A path of a split gang that has lost its last lane has arrived with none (R103). -/
def Gang.closePaths (g : Gang) : Gang :=
  let close (p : Path) : Path := if p.lanes = 0 then { p with wait := .exited } else p
  if g.split.isNone then g
  else ({ g with p0 := close g.p0, p1 := g.p1.map close } : Gang).rejoin

/-- What the current path meets at its PC (R18, R99, R100, R101): a JOIN record that no branch has
used is removed, a region's label is an arrival there, the split's label is an arrival at the top.
`gone` says that the path has no lanes left and so has arrived already. -/
def Gang.settle (fuel : Nat) (gone : Bool) (g : Gang) : Gang :=
  match fuel with
  | 0 => g
  | n + 1 =>
    let p := if g.path.join = some g.path.pc then { g.path with join := none } else g.path
    match p.stack with
    | r :: rest =>
      if gone || p.pc = r.recon then
        let arrived := r.arrived ||| (if gone then 0 else p.xm)
        if r.pmask != 0 then
          (g.setPath { p with pc := r.pending, xm := r.pmask, lanes := r.pmask,
                              stack := { r with pmask := 0, arrived := arrived } :: rest }).settle n false
        else
          (g.setPath { p with pc := r.recon, xm := arrived, lanes := r.emask, stack := rest }).settle n
            (r.emask == 0)
      else g.setPath p
    | [] =>
      match g.split with
      | some sp =>
        if gone || p.pc = sp.label then
          ({ g.setPath { p with wait := .atJoin } with
              split := some { sp with arrived := sp.arrived ||| (if gone then 0 else p.xm) } }).rejoin
        else g.setPath p
      | none => g.setPath p

/-- Enough steps for every open region of the path. -/
def Gang.settled (g : Gang) (gone : Bool) : Gang := g.settle (2 * g.path.stack.length + 3) gone

/-- A gang in single-step mode stops after its instruction, and the stop is reported (R155). -/
def Gang.stepStop (g : Gang) : Gang :=
  if g.stepMode then { g with stopped := true, report := some 0 } else g

/-- The hints of a word take effect when it issues (R15): a run goes on or begins unless control was
transferred (a new hint inside a run counts from there, log 86), a set cede bit ranks the gang as youngest, behind
those that ceded before. -/
def Gang.hint (g : Gang) (h : Header) (transfer : Bool) (now : Nat) : Gang :=
  { g.stepStop with
    run := if transfer then 0 else if h.run != 0 then h.run.toNat else g.run - 1, ceded := h.cede,
    cededAt := if h.cede then now else g.cededAt }

/-- A word begins to wait in its place: a run of its gang lapses there (R93). -/
def Gang.waits (g : Gang) : Gang := { g with run := 0 }

/-- A gang-instruction has issued (R373): the word of a packed gang counts once, whatever the number of its tasks that
act on it. -/
def State.issuedOne (s : State) : State := if s.gang.path.acted = 0 then s.count s.gang.carrel 2 1 else s

/-- The path is at `pc`, with nothing left of the word at which it stood. -/
def Path.leaves (p : Path) (pc : DWord) : Path :=
  { p with pc := pc, latch := none, reread := false, acted := 0, reach := [], began := none }

/-- The path goes on at `pc`, one cycle later. -/
def State.leave (s : State) (h : Header) (pc : DWord) (transfer : Bool) : State :=
  (s.issuedOne.modGang fun g =>
    (((g.modPath fun p => p.leaves pc).hint h transfer s.clock).settled false)).tick

/-- The path goes on at the next word (R259). -/
def State.advance (s : State) (h : Header) : State := s.leave h (s.pc + 12) false

/-- The path does not issue in this cycle and tries again; a run lapses there (R17, R42, R92, R93). -/
def State.hold (s : State) : State :=
  s.modGang fun g => { g.modPath fun p => { p with held := some s.clock, lacks := false } with run := 0 }

/-- As `hold`, for a read of a granule that a segment ahead has still to write: it reads memory afresh (R75). -/
def State.holdRead (s : State) : State := (s.modPath fun p => { p with reread := true }).hold

/-- As `hold`, where the reason is an empty operand (R373). -/
def State.holdEmpty (s : State) : State := s.hold.modPath fun p => { p with lacks := true }

/-! User traps (R141 to R143). -/

def Trap.trap : BitVec 8 := 0x01
def Trap.mwaitTimeout : BitVec 8 := 0x02
def Trap.feEmpty : BitVec 8 := 0x03
def Trap.futLost : BitVec 8 := 0x04

/-- TRAPC[8], the in-handler bit. -/
def Gang.inHandler (g : Gang) : Bool := g.trapc.getLsbD 8

/-- TRAPC after the delivery of a trap (R141). -/
def trapcOf (cause : BitVec 8) (detail : BitVec 16) (lanes : Mask) (younger : Bool) : DWord :=
  lanes ++ detail ++ (0#6 ++ BitVec.ofBool younger ++ 1#1 ++ cause : BitVec 16)

/-- No user trap can be delivered: ILLEGAL-OP takes its place (R142, R143). -/
def Gang.noHandler (g : Gang) : Bool := g.trapv == 0 || g.inHandler || g.isShadow

/-- A user trap is delivered to the current path, with the address it returns to (R142). -/
def State.trapped (s : State) (cause : BitVec 8) (detail : BitVec 16) (lanes : Mask) (ret : DWord) : State :=
  (s.modGang fun g =>
    (({ g.stepStop with
        trappc := ret, trapc := trapcOf cause detail lanes g.younger, trapSplit := g.split.isSome,
        run := 0, ceded := false }).modPath fun p =>
        { p.leaves g.trapv with wait := .none, acted := p.acted }).settled false).tick

/-- A user trap raised at the current path's instruction, whose acting lanes are `acting` (R142, R143). -/
def takeTrap (s : State) (cause : BitVec 8) (detail : BitVec 16) (lanes acting offending : Mask)
    (ret : DWord) : Result :=
  if s.gang.noHandler then raiseFault s Code.illegalOp acting offending 0
  else .next (s.trapped cause detail lanes ret)

/-- A user trap raised at an instruction that the path has left, or at a wait that has ended: the record of
the ILLEGAL-OP in its place is that instruction's (R114, R142, R143). -/
def takeLateTrap (s : State) (t : TrapReq) : Result :=
  if s.gang.noHandler then
    .next (s.assertHalt { s.carrelFault Code.illegalOp t.acting t.offending 0 with
      pc := t.pc, younger := t.younger, cycle := t.cycle })
  else .next (s.trapped t.cause t.detail t.lanes t.ret)

/-- TRET (R142): back to TRAPPC with TRAPC[8] clear; without a handler, ILLEGAL-OP. -/
def trapReturn (s : State) (h : Header) : Result :=
  let g := s.gang
  if g.inHandler then
    .next (((s.modGang fun g => { g with trapc := g.trapc &&& ~~~0x100, trapSplit := false }).leave h g.trappc true))
  else illegal s g.xm

/-! Register files. -/

def Gang.wReg (g : Gang) (i : BitVec 8) : Lanes := g.w[i.toNat]
def Gang.setW (g : Gang) (i : BitVec 8) (v : Lanes) : Gang := { g with w := g.w.set i.toNat v }
def Gang.sReg (g : Gang) (i : BitVec 6) : DWord := g.s[i.toNat]
def Gang.setS (g : Gang) (i : BitVec 6) (v : DWord) : Gang := { g with s := g.s.set i.toNat v }
def Gang.hReg (g : Gang) (i : BitVec 4) : DWord := g.h[i.toNat]
def Gang.setH (g : Gang) (i : BitVec 4) (v : DWord) : Gang := { g with h := g.h.set i.toNat v }
/-- p7 reads true in every lane (R89). -/
def Gang.pReg (g : Gang) (i : BitVec 3) : Mask := if i = 7 then BitVec.allOnes 32 else g.p[i.toNat]
/-- A write to p7 is discarded (R90). -/
def Gang.setP (g : Gang) (i : BitVec 3) (m : Mask) : Gang :=
  if i = 7 then g else { g with p := g.p.set i.toNat m }
/-- k7 reads true (R89). -/
def Gang.kReg (g : Gang) (i : BitVec 3) : Bool := i = 7 || g.k.getLsbD i.toNat
/-- A write to k7 is discarded (R90). -/
def Gang.setK (g : Gang) (i : BitVec 3) (b : Bool) : Gang :=
  if i = 7 then g
  else { g with k := if b then g.k ||| BitVec.ofNat 8 (2 ^ i.toNat) else g.k &&& ~~~BitVec.ofNat 8 (2 ^ i.toNat) }

/-- The lanes in which w register i is empty. -/
def Gang.wEmpty (g : Gang) (i : BitVec 8) : Mask := g.we[i.toNat]
def Gang.setWEmpty (g : Gang) (i : BitVec 8) (m : Mask) : Gang := { g with we := g.we.set i.toNat m }
def Gang.sEmpty (g : Gang) (i : BitVec 6) : Bool := g.se.getLsbD i.toNat
def Gang.setSEmpty (g : Gang) (i : BitVec 6) (b : Bool) : Gang :=
  { g with se := if b then g.se ||| BitVec.ofNat 64 (2 ^ i.toNat) else g.se &&& ~~~BitVec.ofNat 64 (2 ^ i.toNat) }
def Gang.hEmpty (g : Gang) (i : BitVec 4) : Bool := g.he.getLsbD i.toNat
def Gang.setHEmpty (g : Gang) (i : BitVec 4) (b : Bool) : Gang :=
  { g with he := if b then g.he ||| BitVec.ofNat 16 (2 ^ i.toNat) else g.he &&& ~~~BitVec.ofNat 16 (2 ^ i.toNat) }

end Sys2Proof.Machine
end

