-- ==== Sys2Proof/Machine/Operands.lean ====
section
/-! DEFINITION. Guards and acting lanes (R14, R95, R261), every operand form (R13, R108, R263, R264,
R275, R276), full and empty (R17, R91, R92), the checks every page shares (R270, R271) and the one
order in which a word issues. -/

namespace Sys2Proof.Machine

open Sys2Proof

/-! Classes and guards. -/

/-- Lane-class or gang-class (R94, R262). -/
inductive WordClass where
  | lane
  | gang
deriving DecidableEq, Repr

/-- By destination (R262). A destination that names no register is checked as lane-class (log 10). -/
def WordClass.ofDest (d : Operand) : WordClass :=
  match d with
  | .s _ | .h _ | .special _ => .gang
  | _ => .lane

/-- A predicate code names a k register (R263). -/
def predIsK (code : BitVec 4) : Bool := code.getLsbD 3

/-- By the predicate code that is the destination (R262). -/
def WordClass.ofPred (code : BitVec 4) : WordClass := if predIsK code then .gang else .lane

/-- By guard (R262); p7 acts as k7 (R273, log 90). -/
def WordClass.ofGuard (h : Header) : WordClass := if h.kind || h.idx = 7 then .gang else .lane

/-- What the guard decides (R14, R95): nothing acts, these lanes act, or a gang-class word with a p
guard raises ILLEGAL-OP. For a gang-class word the lanes are the path's XM. -/
inductive Acts where
  | no
  | yes (m : Mask)
  | illegal (m : Mask)
deriving DecidableEq, Repr

/-- The lanes of XM that a p guard admits (R14). -/
def guardLanes (g : Gang) (h : Header) : Mask :=
  g.xm &&& (if h.neg then ~~~(g.pReg h.idx) else g.pReg h.idx)

/-- A k guard's truth (R14). -/
def guardTrue (g : Gang) (h : Header) : Bool := (g.kReg h.idx) != h.neg

/-- A never guard, or a k guard that does not hold, lets no task act (R95). -/
def Gang.idles (g : Gang) (h : Header) : Bool := (h.idx = 7 && h.neg) || (h.kind && !guardTrue g h)

def acts (g : Gang) (h : Header) (c : WordClass) : Acts :=
  if h.idx = 7 && h.neg then .no
  else
    match c with
    | .lane =>
      let m := if h.kind then (if guardTrue g h then g.xm else 0) else guardLanes g h
      if m = 0 then .no else .yes m
    | .gang =>
      if h.idx = 7 then .yes g.xm
      else if h.kind then (if guardTrue g h then .yes g.xm else .no)
      else
        let m := guardLanes g h
        if m = 0 then .no else .illegal m

/-! Types (R266, R275). -/

def typeWidth (ty : BitVec 6) : Nat := fmtWidth ty.toNat
/-- The type takes a pair of w registers (R275). -/
def wideType (ty : BitVec 6) : Bool := typeWidth ty == 64
def typeSigned (ty : BitVec 6) : Bool := (intFmt ty.toNat).elim false (·.2)
def typeFloat (ty : BitVec 6) : Bool := (floatFmt ty.toNat).isSome

/-- The types of the group I: .i32, .n32, .i64, .n64 (R279). -/
def typeI (ty : BitVec 6) : Bool := [0x10, 0x14, 0x18, 0x19].contains ty.toNat
/-- The group B: .b32, .b64 (R279). -/
def typeB (ty : BitVec 6) : Bool := [0x1C, 0x1D].contains ty.toNat
/-- .i32 and .i64 (R279). -/
def typeS (ty : BitVec 6) : Bool := [0x10, 0x18].contains ty.toNat
/-- .f32, .f16, .bf16 (R287). -/
def typeF (ty : BitVec 6) : Bool := [0x01, 0x02, 0x03].contains ty.toNat

/-! Special registers (R108). -/

/-- FEAT0 to FEAT3: the accepted feature vector of the context's interface (R108, R393). -/
def State.feature (s : State) (i : Nat) : DWord :=
  match Table.seek s.pages s.ctx.vi with
  | some p => p.accepted.extractLsb' (64 * i) 64
  | none => 0

/-- The value of special register `idx` in lane l; none for an unassigned index (R108). -/
def State.special (s : State) (idx : BitVec 7) (l : Nat) : Option DWord :=
  let g := s.gang
  match idx.toNat with
  | 0x00 => some (g.xm.setWidth 64)
  | 0x01 => some (BitVec.ofNat 64 l)
  | 0x02 => some (g.number.setWidth 64)
  | 0x03 => some (s.frameOf (g.task l).frame).taskId
  | 0x04 => some (BitVec.ofNat 64 (g.task l).frame)
  | 0x05 => some g.cbase
  | 0x06 => some g.clim
  | 0x08 => some g.trapv
  | 0x09 => some g.trapc
  | 0x0A => some g.trappc
  | 0x0C => some (BitVec.ofNat 64 (s.cycleOf g.carrel))
  | 0x0D => some ((g.lrand.at l).setWidth 64)
  | 0x0E => some (g.obsdef.setWidth 64)
  | 0x0F => some g.replaym
  | 0x10 => some g.tcfg
  | 0x11 => some g.shape[0]
  | 0x12 => some g.shape[1]
  | 0x13 => some g.shape[2]
  | 0x14 => some g.shape[3]
  | 0x15 => some g.maskm
  | 0x16 => some g.maskn
  | 0x18 => some (g.focus.setWidth 64)
  | 0x1C => some (s.feature 0)
  | 0x1D => some (s.feature 1)
  | 0x1E => some (s.feature 2)
  | 0x1F => some (s.feature 3)
  | _ => none

/-- The indexes that R108 lists. -/
def specialAssigned (idx : BitVec 7) : Bool :=
  let n := idx.toNat
  n ≤ 0x06 || (0x08 ≤ n && n ≤ 0x0A) || (0x0C ≤ n && n ≤ 0x16) || n = 0x18 || (0x1C ≤ n && n ≤ 0x1F)

/-- The indexes that a MOV may write (R108). -/
def specialWritable (idx : BitVec 7) : Bool :=
  let n := idx.toNat
  n = 0x00 || (0x08 ≤ n && n ≤ 0x0A) || (0x0D ≤ n && n ≤ 0x16)

/-- A lane-scope special register (R108). -/
def specialLane (idx : BitVec 7) : Bool := [0x01, 0x03, 0x04, 0x0D].contains idx.toNat

/-! Queue windows (R51): the FIFOs stand in the compute gang; a shadow's partner is that gang. -/

/-- The head of FIFO i in lane l; zero when it is empty (never read then). -/
def Gang.qHead (g : Gang) (i : BitVec 4) (l : Nat) : Word := ((g.q[i.toNat]).getD l []).headD 0
/-- The lanes in which FIFO i is empty. -/
def Gang.qEmpty (g : Gang) (i : BitVec 4) : Mask := Mask.ofFn fun l => ((g.q[i.toNat]).getD l []).isEmpty
/-- The lanes in which FIFO i holds 4 entries. -/
def Gang.qFull (g : Gang) (i : BitVec 4) : Mask :=
  Mask.ofFn fun l => decide (4 ≤ ((g.q[i.toNat]).getD l []).length)
/-- Remove the heads of FIFO i in the lanes of m. -/
def Gang.qPop (g : Gang) (m : Mask) (i : BitVec 4) : Gang :=
  { g with q := g.q.set i.toNat (Vector.ofFn fun (l : Fin 32) =>
      if m.getLsbD l then (g.q[i.toNat])[l].tail else (g.q[i.toNat])[l]) }
/-- Append to FIFO i in the lanes of m. -/
def Gang.qPush (g : Gang) (m : Mask) (i : BitVec 4) (f : Nat → Word) : Gang :=
  { g with q := g.q.set i.toNat (Vector.ofFn fun (l : Fin 32) =>
      if m.getLsbD l then (g.q[i.toNat])[l] ++ [f l] else (g.q[i.toNat])[l]) }

/-- The gang is a compute gang of a task with `.slice` (R51). -/
def Gang.hasSlice (g : Gang) : Bool := !g.isShadow && g.partner.isSome

/-- The shadow beside the current compute gang has ended (R51). -/
def State.shadowEnded (s : State) : Bool :=
  match s.gang.partner with
  | some n => !(s.gangOf n).resident
  | none => true

/-! Reading operands. -/

/-- An 8-bit immediate at a type (R264): the integer's value in a float type, otherwise its sign
extension. -/
def immValue (ty : BitVec 6) (v : BitVec 8) : DWord :=
  if typeFloat ty then BitVec.ofNat 64 (encodeNum ty.toNat (ExactNum.ofInt v.toInt 0) rmRne 0).1
  else v.signExtend 64

/-- The imm field of an RI word at a type (R264): zeros extend .n64, the sign every other 64-bit
type; narrower types take low bits. -/
def immFieldValue (ty : BitVec 6) (v : BitVec 32) : DWord :=
  if ty.toNat = 0x19 then v.setWidth 64 else v.signExtend 64

/-- What an operand field holds in lane l: 64 bits, of which a type of width w takes the low w. An h register is
that of the lane's own task (R302). -/
def readLane (s : State) (ty : BitVec 6) (imm : BitVec 32) (o : Operand) (l : Nat) : DWord :=
  let g := s.gang
  match o with
  | .w i =>
    if wideType ty then (g.wReg (i + 1)).at l ++ (g.wReg i).at l else ((g.wReg i).at l).setWidth 64
  | .s i => g.sReg i
  | .h i => (g.task (if g.xm = 0 then g.front else l)).hReg i
  | .q i => (g.qHead i l).setWidth 64
  | .special i => (s.special i l).getD 0
  | .imm v => immValue ty v
  | .immField => immFieldValue ty imm
  | _ => 0

/-- The lane whose value a gang-class word takes of a lane-scope register (R108, R284). -/
def Gang.lane0 (g : Gang) : Nat := g.xm.lowest

/-- What an operand field holds for a gang-class word. -/
def readGang (s : State) (ty : BitVec 6) (imm : BitVec 32) (o : Operand) : DWord :=
  readLane s ty imm o s.gang.lane0

/-! Which operands a page accepts. -/

/-- A w register, or a pair, within the allocation (R90, R275). -/
def wOk (g : Gang) (wide : Bool) (i : BitVec 8) : Bool :=
  if wide then i.toNat % 2 = 0 && i.toNat + 1 < g.regs else i.toNat < g.regs

/-- A source of a lane-class word (R276). -/
def laneSrcOk (g : Gang) (wide : Bool) (o : Operand) : Bool :=
  match o with
  | .w i => wOk g wide i
  | .s _ | .h _ | .imm _ => true
  | .q _ => g.hasSlice && !wide
  | .special i => specialAssigned i
  | _ => false

/-- A source of a gang-class word (R262, R276). -/
def gangSrcOk (o : Operand) : Bool :=
  match o with
  | .s _ | .h _ | .imm _ => true
  | .special i => specialAssigned i
  | _ => false

def srcOk (c : WordClass) (g : Gang) (wide : Bool) (o : Operand) : Bool :=
  match c with
  | .lane => laneSrcOk g wide o
  | .gang => gangSrcOk o

/-- A w destination of a lane-class word or an s destination of a gang-class one (R276). -/
def dstOk (c : WordClass) (g : Gang) (wide : Bool) (o : Operand) : Bool :=
  match c, o with
  | .lane, .w i => wOk g wide i
  | .gang, .s _ => true
  | _, _ => false

/-- A set fe bit stands only over a w, s, q or h register (R91). -/
def feOk (fe : Bool) (o : Operand) : Bool :=
  !fe || match o with
    | .w _ | .s _ | .q _ | .h _ => true
    | _ => false

/-! Full and empty (R17, R92). -/

/-- An h register is empty for the gang's task, or for one of the tasks of these lanes of a packed gang (R302). -/
def Gang.hEmptyIn (g : Gang) (m : Mask) (i : BitVec 4) : Bool :=
  if m = 0 then g.hEmpty i else m.lanes.any fun l => (g.task l).hEmpty i

/-- The lanes of m in which a source is empty; all of m for an s or h register (R141). -/
def emptyLanes (g : Gang) (wide : Bool) (m : Mask) (o : Operand) : Mask :=
  match o with
  | .w i => m &&& (if wide then g.wEmpty i ||| g.wEmpty (i + 1) else g.wEmpty i)
  | .s i => if g.sEmpty i then m else 0
  | .h i => if g.hEmptyIn m i then m else 0
  | .q i => m &&& g.qEmpty i
  | _ => 0

/-- A source is empty where it is read. An s register is empty whatever the lanes. -/
def srcEmpty (g : Gang) (wide : Bool) (m : Mask) (o : Operand) : Bool :=
  match o with
  | .s i => g.sEmpty i
  | .h i => g.hEmptyIn m i
  | _ => emptyLanes g wide m o != 0

/-- A destination is empty in an acting lane and a producer is to fill it (R92); a w register left
empty without a producer is free to be written (R344). A full FIFO blocks a shadow's write (R51), and so
does a load still on its way into it (R335). -/
def dstEmpty (s : State) (wide : Bool) (m : Mask) (o : Operand) : Bool :=
  let g := s.gang
  match o with
  | .w i =>
    let due (j : BitVec 8) : Mask := g.wEmpty j &&& ~~~(g.wo[j.toNat])
    m &&& (if wide then due i ||| due (i + 1) else due i) != 0
  | .s i => g.sEmpty i
  | .h i => g.hEmptyIn m i
  | .q i => m &&& (s.gangOf (g.partner.getD 0)).qFull i != 0
      || g.flights.any fun f => f.dst == .q i && f.mask &&& m != 0
  | _ => false

/-- A source of a word: the operand, whether its fe bit is set, its operand field (0 a or idx, 1 b or
data, 2 c or data2: R141), whether it is a pair, the lanes in which it is read. -/
structure Src where
  op    : Operand
  trap  : Bool
  field : BitVec 16
  wide  : Bool
  lanes : Mask
deriving DecidableEq, Repr

def Src.empty (g : Gang) (x : Src) : Bool := srcEmpty g x.wide x.lanes x.op

/-- A q source that can never fill again (R51). -/
def Src.lost (s : State) (x : Src) : Bool :=
  match x.op with
  | .q _ => s.shadowEnded
  | _ => false

/-- The order in which a word issues (R271, R92, R17): the guard; ILLEGAL-OP; a wait for empty
destinations, then for empty block-policy sources; FE-EMPTY for an empty trap-policy source; then what
the page does, with the acting lanes. -/
def issueActs (s : State) (h : Header) (a : Acts) (legal : Bool) (dsts : List (Operand × Bool))
    (srcs : Mask → List Src) (act : Mask → Result) : Result :=
  match a with
  | .no => .next (s.advance h)
  | .illegal m => illegal s m
  | .yes m =>
    if h.rsv || !legal then illegal s m
    else if dsts.any (fun d => dstEmpty s d.2 m d.1) then .next s.holdEmpty
    else
      let empty := (srcs m).filter (fun x => x.empty s.gang)
      if empty.any (fun x => !x.trap && !x.lost s) then .next s.holdEmpty
      else
        match empty.find? (fun x => x.trap || x.lost s) with
        | some x =>
          let ls := match x.op with
            | .w _ => emptyLanes s.gang x.wide x.lanes x.op
            | _ => m
          takeTrap s Trap.feEmpty x.field ls m ls s.pc
        | none => act m

def issue (s : State) (h : Header) (c : WordClass) (legal : Bool) (dsts : List (Operand × Bool))
    (srcs : Mask → List Src) (act : Mask → Result) : Result :=
  issueActs s h (acts s.gang h c) legal dsts srcs act

/-! One task of a packed gang after another (R302). -/

/-- The gang as the task of lane l alone issues its word. -/
def State.narrow (s : State) (l : Nat) : State :=
  s.modGang fun g => (g.task l).modPath fun p => { p with xm := Mask.lane l }

/-- The task of lane l has executed the word at which the path of `s` stands, in `g`: the next task follows, and
after the last the path goes on, with the word's hints. -/
def Gang.next (g : Gang) (h : Header) (s : State) (l : Nat) : Gang :=
  let me := s.gang
  let p := me.path
  let acted := p.acted ||| Mask.lane l
  let g1 := (({ g with
    p0 := me.p0, p1 := me.p1, younger := me.younger, split := me.split, stopped := me.stopped, report := me.report,
    run := me.run, ceded := me.ceded, cededAt := me.cededAt } : Gang).mapMasks fun m => m &&& g.lanes)
  if p.xm &&& g.lanes &&& ~~~acted != 0 then g1.modPath fun p => { p with acted := acted }
  else
    let g2 := g1.modPath fun p => { p.leaves (p.pc + 12) with done := [] }
    (g2.hint h false s.clock).settled (g2.path.lanes == 0)

/-- The gang as a whole again in `t`, after the word of lane l's task from `s`: that task waits or faults at its
word, is at a trap handler, has executed the word, or has left the gang. -/
def State.widen (s : State) (h : Header) (l : Nat) (t : State) : State :=
  if !Table.has t.ctx.gangs s.cur then t
  else
    t.modGang fun g =>
      let whole (a : Mask) : Gang := g.modPath fun p => { p with xm := s.xm, acted := a }
      if !g.lanes.has l then g.next h s l
      else if g.path.pc = s.pc then whole s.gang.path.acted
      else if g.inHandler && !s.gang.inHandler then whole 0
      else g.next h s l

/-- A word that acts once for each task of a packed gang whose lane is set in XM, in increasing lane order (R302),
a task in each step; `one` says that with XM zero it acts for the task in the lowest lane (R356), otherwise for
none. A word whose guard lets none act is a no-op of the gang (R95). -/
def perTask (h : Header) (one : Bool) (f : State → Result) (s : State) : Result :=
  let todo := s.xm &&& s.gang.lanes &&& ~~~s.gang.path.acted
  if !s.gang.packed then f s
  else if s.gang.idles h then .next (s.advance h)
  else if todo = 0 then
    match f (s.modGang fun g => g.task g.lanes.lowest) with
    | .next t => .next (if one || t.halt != s.halt then t else s.advance h)
    | r => r
  else
    match f (s.narrow todo.lowest) with
    | .next t => .next (s.widen h todo.lowest t)
    | r => r

/-! Writing results. -/

/-- The lanes of m of a w register, or of a pair, take the low w bits of f (R275). The written lanes
are full again. -/
def Gang.writeLanes (g : Gang) (m : Mask) (i : BitVec 8) (w : Nat) (f : Nat → DWord) : Gang :=
  let low (l : Nat) : Word := ((f l).setWidth 32) &&& BitVec.ofNat 32 (2 ^ min w 32 - 1)
  let g1 := { g.setW i ((g.wReg i).merge m low) with
    we := g.we.set i.toNat (g.wEmpty i &&& ~~~m), wo := g.wo.set i.toNat (g.wo[i.toNat] &&& ~~~m) }
  if w = 64 then
    let j := i + 1
    { g1.setW j ((g1.wReg j).merge m fun l => (f l).extractLsb' 32 32) with
      we := g1.we.set j.toNat (g1.wEmpty j &&& ~~~m), wo := g1.wo.set j.toNat (g1.wo[j.toNat] &&& ~~~m) }
  else g1

/-- An s register takes the low w bits, zero above (R275). -/
def Gang.writeS (g : Gang) (i : BitVec 6) (w : Nat) (v : DWord) : Gang :=
  g.setS i (v &&& BitVec.ofNat 64 (2 ^ w - 1))

/-- The destination of a by-destination word. -/
def Gang.writeDest (g : Gang) (m : Mask) (d : Operand) (w : Nat) (f : Nat → DWord) (v : DWord) : Gang :=
  match d with
  | .w i => g.writeLanes m i w f
  | .s i => g.writeS i w v
  | _ => g

/-- The operand fields that name q registers each give up one entry (R51, R272). -/
def Gang.popSources (g : Gang) (m : Mask) (ops : List Operand) : Gang :=
  (ops.eraseDups).foldl (fun g o => match o with | .q i => g.qPop m i | _ => g) g

/-! Predicates named by codes (R263). -/

/-- The lanes in which a predicate holds; a k register holds alike in every lane. -/
def Gang.predLanes (g : Gang) (code : BitVec 4) : Mask :=
  if predIsK code then (if g.kReg (code.extractLsb' 0 3) then BitVec.allOnes 32 else 0)
  else g.pReg (code.extractLsb' 0 3)

/-- Write the predicate: a p register in the lanes of m, a k register once (bit 0 of `v`). -/
def Gang.writePred (g : Gang) (m : Mask) (code : BitVec 4) (v : Mask) : Gang :=
  let i := code.extractLsb' 0 3
  if predIsK code then g.setK i (v.getLsbD 0) else g.setP i ((g.pReg i &&& ~~~m) ||| (v &&& m))

/-! The shape that most arithmetic words have. -/

/-- The three sources of an RRR word. -/
def rrrSrcs (x : RRR) (n : Nat) (wide : Bool) (m : Mask) : List Src :=
  [⟨x.a, x.fe.getLsbD 2, 0, wide, m⟩, ⟨x.b, x.fe.getLsbD 1, 1, wide, m⟩,
   ⟨x.c, x.fe.getLsbD 0, 2, wide, m⟩].take n

/-- The first n sources are present and accepted, the others are none, fe bits stand over registers,
reserved bits are zero (R270, R276). -/
def rrrSrcsOk (x : RRR) (n : Nat) (c : WordClass) (g : Gang) (wide : Bool) : Bool :=
  x.rsv == 0 && feOk (x.fe.getLsbD 2) x.a && feOk (x.fe.getLsbD 1) x.b && feOk (x.fe.getLsbD 0) x.c
    && (if 1 ≤ n then srcOk c g wide x.a else x.a == .absent)
    && (if 2 ≤ n then srcOk c g wide x.b else x.b == .absent)
    && (if 3 ≤ n then srcOk c g wide x.c else x.c == .absent)

/-- A word of RRR arithmetic with n sources at its type: `f` computes a lane (or the gang, with
`lane = 32`) from the sources' bits. -/
def alu (s : State) (x : RRR) (n : Nat) (fieldsOk : Bool)
    (f : Nat → DWord → DWord → DWord → DWord) : Result :=
  let c := WordClass.ofDest x.hdr.d
  let w := typeWidth x.typ
  let wide := wideType x.typ
  let g := s.gang
  issue s x.hdr c (fieldsOk && dstOk c g wide x.hdr.d && rrrSrcsOk x n c g wide) [(x.hdr.d, wide)]
    (rrrSrcs x n wide) fun m =>
      let rd := readLane s x.typ 0
      .next ((s.modGang fun g => (g.popSources m [x.a, x.b, x.c]).writeDest m x.hdr.d w
        (fun l => f l (rd x.a l) (rd x.b l) (rd x.c l))
        (f 32 (readGang s x.typ 0 x.a) (readGang s x.typ 0 x.b) (readGang s x.typ 0 x.c))).advance x.hdr)

/-- The sources of an RI word (R264): a, and the imm field; an a field that selects the imm field
reads it too. -/
def riSrcs (x : RI) (wide : Bool) (m : Mask) : List Src := [⟨x.a, x.fe, 0, wide, m⟩]

def riSrcsOk (x : RI) (c : WordClass) (g : Gang) (wide : Bool) : Bool :=
  feOk x.fe x.a && (srcOk c g wide x.a || x.a == .immField) && x.typ2 == 0

/-- A word of RI arithmetic: the RRR operation with the imm field as second source (R269). -/
def aluImm (s : State) (x : RI) (fieldsOk : Bool) (f : Nat → DWord → DWord → DWord) : Result :=
  let c := WordClass.ofDest x.hdr.d
  let w := typeWidth x.typ
  let wide := wideType x.typ
  let g := s.gang
  issue s x.hdr c (fieldsOk && dstOk c g wide x.hdr.d && riSrcsOk x c g wide) [(x.hdr.d, wide)]
    (riSrcs x wide) fun m =>
      let y := immFieldValue x.typ x.imm
      .next ((s.modGang fun g => (g.popSources m [x.a]).writeDest m x.hdr.d w
        (fun l => f l (readLane s x.typ x.imm x.a l) y)
        (f 32 (readGang s x.typ x.imm x.a) y)).advance x.hdr)

end Sys2Proof.Machine
end

