-- ==== Sys2Proof/Machine/Flags.lean ====
section
/-! DEFINITION. Every rule that makes a predicate: condition codes (R266, R285), the predicate logic of
PLOG (R286), the votes (R294). The machine has no status flags (R229): predicates are its only ones. -/

namespace Sys2Proof.Machine

open Sys2Proof

/-- Condition codes 0x00 to 0x05 of R266 over exact integers. -/
def intCond (code : BitVec 5) (x y : Int) : Bool :=
  match code.toNat with
  | 0 => x = y
  | 1 => x ≠ y
  | 2 => x < y
  | 3 => x ≤ y
  | 4 => x > y
  | 5 => x ≥ y
  | _ => false

/-- CMP of two operands at a type (R285): .i types as signed, all others as unsigned. -/
def cmpBits (ty : BitVec 6) (code : BitVec 5) (x y : DWord) : Bool :=
  intCond code (extendOp x.toNat (typeWidth ty) (typeSigned ty))
    (extendOp y.toNat (typeWidth ty) (typeSigned ty))

/-- The codes CMP accepts at a type (R285): all six on the group I, .eq and .ne on the group B. -/
def cmpOk (ty : BitVec 6) (code : BitVec 5) : Bool :=
  (typeI ty && code.toNat ≤ 5) || (typeB ty && code.toNat ≤ 1)

/-- FCMP's codes over exact values (R266, R287 to R289): with a NaN operand only .ne and .uo hold. -/
def numCond (code : BitVec 5) (x y : ExactNum) : Bool :=
  let un := x.isNan || y.isNan
  match code.toNat with
  | 0 => ExactNum.eq x y
  | 1 => !ExactNum.eq x y
  | 2 => !un && x.lt y
  | 3 => !un && !y.lt x
  | 4 => !un && y.lt x
  | 5 => !un && !x.lt y
  | 6 => un
  | 7 => !un
  | _ => false

/-- The functions of PLOG (R286) over lane masks. -/
def plogMask (fn : BitVec 3) (p q : Mask) : Mask :=
  match fn.toNat with
  | 0 => p &&& q
  | 1 => p ||| q
  | 2 => p ^^^ q
  | 3 => p &&& ~~~q
  | 4 => p ||| ~~~q
  | _ => ~~~p

/-- A compare written to a predicate code: in the lanes of m, or once (R285). -/
def Gang.writeCmp (g : Gang) (m : Mask) (code : BitVec 4) (lane : Nat → Bool) (once : Bool) : Gang :=
  g.writePred m code (if predIsK code then (if once then 1 else 0) else Mask.ofFn lane)

end Sys2Proof.Machine
end

