-- ==== Sys2Proof/Machine/Caches.lean ====
section
/-! DEFINITION. Device memory as a carrel and an engine see it: translation (R135 to R138), the home
slice with its watches (R21, R126, R133), the L1 and the L2 (R122 to R125), the release and acquire
edges (R127 to R129). -/

namespace Sys2Proof.Machine

open Sys2Proof

/-! Translation. -/

/-- Whose translations are used: a carrel's (its lanes, its array and its transform unit), or an
engine's, numbered wing * 24 + e (R138, R215). -/
inductive Unit_ where
  | carrel (c : Nat)
  | engine (e : Nat)
deriving DecidableEq, Repr

/-- A block with failing check bits lies in the range. -/
def badIn (bad : List Nat) (a n : Nat) : Bool := bad.any fun b => b * 64 < a + n && a < b * 64 + 64

def blockBad (s : State) (pa n : Nat) : Bool := badIn s.bad pa n

/-- The first such block of a range of device memory, by address; else the range's own. -/
def State.badBlock (s : State) (pa n : Nat) : Nat :=
  ((s.bad.find? fun b => b * 64 < pa + n && pa < b * 64 + 64).map (· * 64)).getD pa

/-- Blocks wholly rewritten lose their failing check bits (R146). -/
def rewrittenIn (bad : List Nat) (ws : List (Nat × Byte)) : List Nat :=
  bad.filter fun b => !((List.range 64).all fun i => ws.any fun e => e.1 = b * 64 + i)

/-- Why an access is not translated: the fault, and the physical address of a block whose error it met. -/
abbrev ReachErr := BitVec 8 × Nat

/-- The walk of R135 to R137 (an address past the partition's stacks is translated nowhere, log 85) from the
table at `table`, at a level of 1 to 5, `fuel` levels deep. -/
def walk (s : State) (fuel level table va : Nat) : Except ReachErr Translation :=
  match fuel with
  | 0 => .error (Code.translation, 0)
  | k + 1 =>
    let idx :=
      match level with
      | 1 => va / 2 ^ 48 % 512
      | 2 => va / 2 ^ 39 % 512
      | 3 => va / 2 ^ 30 % 512
      | 4 => va / 2 ^ 21 % 512
      | _ => va / 2 ^ 16 % 32
    let at_ := table + 8 * idx
    if s.memBytes ≤ at_ then .error (Code.translation, 0)
    else if blockBad s at_ 8 then .error (Code.uncorrectable, at_)
    else
      let e : DWord := BitVec.ofNat 64 (s.mem.word at_ 8)
      let addr := (e.extractLsb' 8 40).toNat * 256
      if !e.getLsbD 0 || e.getLsbD 7 then .error (Code.translation, 0)
      else if e.getLsbD 1 then
        let size := match level with
          | 3 => 2 ^ 30
          | 4 => 2 ^ 21
          | _ => 2 ^ 16
        if level < 3 || addr % size ≠ 0 || (e.getLsbD 5 && e.getLsbD 6) || s.memBytes < addr + size then
          .error (Code.translation, 0)
        else .ok { frame := addr / 65536 + va % size / 65536, label := e.extractLsb' 48 16,
                   frozen := e.getLsbD 6, mod := e.getLsbD 5, exec := e.getLsbD 4,
                   write := e.getLsbD 3, read := e.getLsbD 2 }
      else if level = 5 || e.extractLsb' 48 16 ≠ 0 || e.extractLsb' 2 5 ≠ 0
          || (level < 4 && addr % 4096 ≠ 0) then .error (Code.translation, 0)
      else walk s k (level + 1) addr va

def State.cacheOf (s : State) (c : Nat) : Cache := Table.look s.l1s c Cache.reset
def State.setCacheOf (s : State) (c : Nat) (x : Cache) : State := { s with l1s := Table.put s.l1s c x }
def State.galleryCache (s : State) (g : Nat) : Cache := Table.look s.l2s g Cache.reset
def State.setGalleryCache (s : State) (g : Nat) (x : Cache) : State :=
  { s with l2s := Table.put s.l2s g x }

def State.tlbOf (s : State) (u : Unit_) : Table Translation :=
  match u with
  | .carrel c => (s.cacheOf c).tlb
  | .engine e => Table.look s.engTlbs e []

/-- The translation a unit uses for a virtual address: the one it has cached, else a walk (R138). -/
def State.translate (s : State) (u : Unit_) (va : Nat) : Except ReachErr Translation :=
  if 2 ^ 57 ≤ va then .error (Code.translation, 0)
  else
    match Table.seek (s.tlbOf u) (va / 65536) with
    | some t => .ok t
    | none => walk s 5 1 s.ctx.root va

/-- The unit keeps the translation it used (R138). -/
def State.keep (s : State) (u : Unit_) (va : Nat) (t : Translation) : State :=
  match u with
  | .carrel c => let x := s.cacheOf c; s.setCacheOf c { x with tlb := Table.put x.tlb (va / 65536) t }
  | .engine e =>
    { s with engTlbs := Table.put s.engTlbs e (Table.put (Table.look s.engTlbs e []) (va / 65536) t) }

def Translation.pa (t : Translation) (va : Nat) : Nat := t.frame * 65536 + va % 65536

/-- A live trace stands in the context (R84). -/
def State.traceLive (s : State) : Bool := s.ctx.traces.any fun e => e.2.live && e.2.state != .abandoned

/-- What an access asks of its page, and how many bytes of it it reaches. -/
structure Need where
  read  : Bool
  write : Bool
  exec  : Bool
  bytes : Nat
deriving DecidableEq, Repr

def Need.load : Need := ⟨true, false, false, 1⟩
def Need.store : Need := ⟨false, true, false, 1⟩
def Need.both : Need := ⟨true, true, false, 1⟩
def Need.fetch : Need := ⟨false, false, true, 1⟩

/-- The same of n bytes. -/
def Need.of (x : Need) (n : Nat) : Need := { x with bytes := n }

/-- The access tables of the memory controllers let an interface reach a physical address (R394). A
table that the Curator has not written refuses nothing (log 21). -/
def State.granted (s : State) (vi pa : Nat) (read write : Bool) : Bool :=
  match s.access.find? fun a => a.vi = vi && a.target == .memory with
  | none => true
  | some a => a.ranges.any fun r =>
      r.base ≤ pa && pa < r.base + r.size && (!read || r.read) && (!write || r.write)

/-- A target's access table lets the context's interface use what it owns there (R394): a copy queue, a
shelf, an Archive unit. -/
def State.owns (s : State) (t : Target) : Bool :=
  match s.access.find? fun a => a.vi = s.ctx.vi && a.target == t with
  | none => true
  | some a => a.owner

/-- The page's bits allow the access (R137), R84 for a write, and the access tables every byte of it (R394). -/
def State.pageOk (s : State) (t : Translation) (va : Nat) (n : Need) : Bool :=
  (!n.read || t.read) && (!n.write || (t.write && !(t.frozen && s.traceLive))) && (!n.exec || t.exec)
    && (List.range n.bytes).all fun i => s.granted s.ctx.vi (t.pa va + i) (n.read || n.exec) n.write

/-- One translated access, or the fault it raises.  -/
def State.reach (s : State) (u : Unit_) (va : Nat) (n : Need) : Except ReachErr Translation :=
  match s.translate u va with
  | .error e => .error e
  | .ok t => if s.pageOk t va n then .ok t else .error (Code.protection, 0)

/-- The stack's controller keeps the address of a read that met an uncorrectable error (R146). -/
def State.logError (s : State) (pa : Nat) : State := { s with errorLog := s.errorLog ++ [pa / 64 * 64] }

/-- The physical address of a virtual one for what the desk and the Curator do (they do not fault):
none where nothing is mapped. -/
def State.deskPa (s : State) (va : Nat) : Option Nat :=
  if 2 ^ 57 ≤ va then none
  else match walk s 5 1 s.ctx.root va with
    | .ok t => some (t.pa va)
    | .error _ => none

/-! The home slice (R126). -/

def State.homeRead (s : State) (pa n : Nat) : List Byte := s.mem.read pa n
def State.homeWord (s : State) (pa n : Nat) : Nat := s.mem.word pa n

/-- MWAIT's test of a word (R343): .eq and .ne on bits, the others as unsigned integers. -/
def mwaitHolds (cond : BitVec 5) (v c : Nat) : Bool := intCond cond (v : Int) (c : Int)

/-- Every watch on the written bytes is tested again; the first value that meets its condition
completes it (R21). -/
def State.retest (s : State) (pa n : Nat) : State :=
  let test (w : Watch) : Watch :=
    let v := s.homeWord w.pa w.size
    if w.armed && w.met.isNone && decide (w.pa < pa + n) && decide (pa < w.pa + w.size)
        && mwaitHolds w.cond v (w.cmp.toNat % 2 ^ (8 * w.size)) then
      { w with met := some (BitVec.ofNat 64 v) }
    else w
  { s with ctx := { s.ctx with watches := s.ctx.watches.map test } }

/-- The pages of a 64 KiB size that a range touches. -/
def pagesOf (pa n : Nat) : List Nat :=
  if n = 0 then [] else (List.range ((pa + n - 1) / 65536 - pa / 65536 + 1)).map fun i => (pa / 65536 + i) * 65536

/-- The first write of a round to a page is logged, while its region's ring of 4096 has room (R397). -/
def MigrLog.add (l : MigrLog) (page : Nat) : MigrLog :=
  if l.region ≠ page / 2 ^ 30 || l.pages.contains page then l
  else if 4096 ≤ l.pages.length then { l with overflow := true }
  else { l with pages := l.pages ++ [page] }

/-- A page in the logs of a round. -/
def logPage (logs : List MigrLog) (p : Nat) : List MigrLog :=
  (if logs.any fun l => l.region = p / 2 ^ 30 then logs
   else logs ++ [{ region := p / 2 ^ 30, pages := [], overflow := false }]).map fun l => l.add p

/-- The memory controllers log a write of context c, where that is the one being migrated (R397). -/
def State.logFor (s : State) (c pa n : Nat) : State :=
  match s.migr with
  | some (m, logs) => if m = c then { s with migr := some (m, (pagesOf pa n).foldl logPage logs) } else s
  | none => s

/-- What they log of a write of the context that runs. -/
def State.logWrite (s : State) (pa n : Nat) : State := if s.ctx.made then s.logFor s.ctx.number pa n else s

/-- A write performed at the home slice. A block wholly rewritten loses its failing check bits
(R146). Bytes past the partition's stacks go nowhere, and what nobody can write reads as 0 there (log 85). -/
def State.homeWrite (s : State) (pa : Nat) (all : List Byte) : State :=
  let bs := all.take (s.memBytes - pa)
  (({ s with mem := s.mem.write pa bs,
             bad := s.bad.filter fun b => !(pa ≤ b * 64 && b * 64 + 64 ≤ pa + bs.length) }).logWrite pa bs.length).retest
    pa bs.length

/-- The written bytes of one sector, as offset and byte, reach the home slice in one action: no reader sees a
part of them, and a block of which all 64 bytes are written loses its failing check bits (R21, R123, R146). -/
def State.writeHome (s : State) (base : Nat) (ws : List (Nat × Byte)) : State :=
  let whole (b : Nat) : Bool := (List.range 64).all fun i => ws.any fun e => base + e.1 = b * 64 + i
  if ws.isEmpty then s
  else
    (({ s with mem := ws.foldl (fun (m : Memory) (e : Nat × Byte) => m.setByte (base + e.1) e.2) s.mem,
               bad := s.bad.filter fun b => !whole b }).logWrite base 128).retest base 128

/-- The sector is no longer present; written bytes stay (R129). -/
def Sector.invalidate (x : Sector) : Sector := { x with valid := false }

def Cache.modLine (c : Cache) (ln : Nat) (f : Line → Line) : Cache :=
  match Table.seek c.lines ln with
  | some l => { c with lines := Table.put c.lines ln (f l) }
  | none => c

def Line.sector (l : Line) (i : Nat) : Sector := if i = 0 then l.s0 else l.s1
def Line.setSector (l : Line) (i : Nat) (x : Sector) : Line :=
  if i = 0 then { l with s0 := x } else { l with s1 := x }

/-- A label-changing write of one block: the label and all 64 bytes in one action, every L2 copy of
the block's line sector invalidated in it (R133). -/
def State.homeLabelWrite (s : State) (pa : Nat) (lab : Label) (bs : List Byte) : State :=
  let s1 := (s.homeWrite pa bs)
  { s1 with mem := s1.mem.setLabel (pa / 64) lab,
            l2s := s1.l2s.map fun e => (e.1, e.2.modLine (pa / 256) fun l =>
              l.setSector (pa / 128 % 2) (l.sector (pa / 128 % 2)).invalidate) }

/-! Lines. -/

def Sector.none : Sector :=
  { valid := false, dirty := false, absent := false, mask := 0, data := Vector.replicate 128 0,
    lab0 := 0, lab1 := 0 }
def Line.none : Line :=
  { s0 := Sector.none, s1 := Sector.none, mark := 0, writers := 0, level := 4 }

def Cache.line (c : Cache) (pa : Nat) : Line := Table.look c.lines (pa / 256) Line.none
def Cache.sector (c : Cache) (pa : Nat) : Sector := (c.line pa).sector (pa / 128 % 2)

/-- A fill: the payload and both labels, keeping written bytes (R122, R123, R129). -/
def Sector.fill (x : Sector) (bytes : Nat → Byte) (lab0 lab1 : Label) : Sector :=
  { x with valid := true, absent := false, lab0 := lab0, lab1 := lab1,
           data := Vector.ofFn fun (i : Fin 128) => if x.mask.getLsbD i then x.data[i] else bytes i }

/-- Store bytes at offsets within the sector: set in the payload and the written mask (R123). -/
def Sector.put (x : Sector) (ws : List (Nat × Byte)) : Sector :=
  match ws with
  | [] => x
  | (i, b) :: r =>
    Sector.put { x with dirty := true, mask := x.mask ||| BitVec.ofNat 128 (2 ^ i),
                        data := x.data.setIfInBounds i b } r

/-- The written bytes of a sector, as offset and byte. -/
def Sector.written (x : Sector) : List (Nat × Byte) :=
  (List.range 128).filterMap fun i => if x.mask.getLsbD i then some (i, x.data.getD i 0) else Option.none

/-- A sector after its write-back (R123): clean; a partly stale one is gone. -/
def Sector.clean (x : Sector) : Sector := { x with dirty := false, mask := 0 }

def Cache.setSector (c : Cache) (pa : Nat) (x : Sector) (f : Line → Line) : Cache :=
  { c with lines := Table.put c.lines (pa / 256) (f ((c.line pa).setSector (pa / 128 % 2) x)) }

/-- Drop lines that hold nothing. -/
def Cache.trim (c : Cache) : Cache :=
  { c with lines := c.lines.filter fun e => e.2.s0.valid || e.2.s0.dirty || e.2.s1.valid || e.2.s1.dirty }

/-- The gallery of a carrel, and whether it runs fused (R124). -/
def galleryOf (carrel : Nat) : Nat := carrel / 4
def State.isFused (s : State) (carrel : Nat) : Bool := s.fused.contains (galleryOf carrel)

/-- The L1 that serves a physical address for a carrel: its own, or the slice of the fused four
(R124). -/
def State.l1For (s : State) (carrel pa : Nat) : Nat :=
  if s.isFused carrel then galleryOf carrel * 4 + Nat.xor (pa / 256 % 4) (pa / 4096 % 4) else carrel

/-- The sector is filled into the L2 from the home slice, unless it is there (R125). -/
def State.fillL2 (s : State) (gal pa : Nat) : State :=
  let c := s.galleryCache gal
  let x := c.sector pa
  if x.valid then s
  else
    let base := pa / 128 * 128
    let y := x.fill (fun i => s.mem.byte (base + i)) (s.mem.label (base / 64)) (s.mem.label (base / 64 + 1))
    s.setGalleryCache gal (c.setSector pa y fun l => { l with mark := c.epoch })

/-- The sector is filled into the L1 through the L2, unless it is there (R123). -/
def State.fillL1 (s : State) (carrel pa : Nat) : State :=
  let l1 := s.l1For carrel pa
  let x := (s.cacheOf l1).sector pa
  if x.valid then s
  else
    let s1 := s.fillL2 (galleryOf carrel) pa
    let y := (s1.galleryCache (galleryOf carrel)).sector pa
    let c := s1.cacheOf l1
    (s1.setCacheOf l1 (c.setSector pa (x.fill (fun i => y.data.getD i 0) y.lab0 y.lab1)
      fun l => { l with mark := c.epoch })).count carrel 5 1

/-- A sector of a constant section enters the L1, unless it is there (R120). -/
def State.fillConst (s : State) (carrel code sector : Nat) : State :=
  let c := s.cacheOf carrel
  if c.consts.contains (code, sector) then s
  else (s.setCacheOf carrel { c with consts := c.consts ++ [(code, sector)] }).count carrel 5 1

/-- A fill of this sector would meet an uncorrectable error (R146), at `State.badBlock` of the sector. -/
def State.fillBad (s : State) (carrel pa : Nat) : Bool :=
  !((s.cacheOf (s.l1For carrel pa)).sector pa).valid
    && !((s.galleryCache (galleryOf carrel)).sector pa).valid
    && blockBad s (pa / 128 * 128) 128

/-- A byte as the carrel's loads see it: the L1's, else the L2's, else memory's. -/
def State.viewByte (s : State) (carrel pa : Nat) : Byte :=
  let x := (s.cacheOf (s.l1For carrel pa)).sector pa
  if x.valid || x.mask.getLsbD (pa % 128) then x.data.getD (pa % 128) 0
  else
    let y := (s.galleryCache (galleryOf carrel)).sector pa
    if y.valid || y.mask.getLsbD (pa % 128) then y.data.getD (pa % 128) 0 else s.mem.byte pa

def State.view (s : State) (carrel pa n : Nat) : List Byte :=
  (List.range n).map fun i => s.viewByte carrel (pa + i)

/-- The L2 sector takes written bytes of carrels `who` (R125). -/
def State.intoL2 (s : State) (gal base : Nat) (who : BitVec 4) (ws : List (Nat × Byte)) : State :=
  if ws.isEmpty then s
  else
    let c := s.galleryCache gal
    s.setGalleryCache gal (c.setSector base ((c.sector base).put ws)
      fun l => { l with writers := l.writers ||| who })

/-- A carrel's bit in the masks of its gallery (R122, R125). -/
def carrelBit (carrel : Nat) : BitVec 4 := BitVec.ofNat 4 (2 ^ (carrel % 4))

/-- How a store allocates: to a cellar (R111), or with the hint `.stream` (R267). -/
structure StoreHow where
  cellar : Bool
  stream : Bool
deriving DecidableEq, Repr

/-- The stores of one instruction to one sector (R123): a whole sector that is not present is
allocated without a fill, any other absent one is filled first; with `.stream` an absent one is not
allocated and the bytes go to the L2 (R267). A cellar's line is at level none (R111). -/
def State.storeSector (s : State) (carrel : Nat) (how : StoreHow) (pa : Nat) (ws : List (Nat × Byte)) : State :=
  let l1 := s.l1For carrel pa
  let x := (s.cacheOf l1).sector pa
  let whole := (List.range 128).all fun i => ws.any fun e => e.1 = i
  let fused := s.isFused carrel
  let mark (l : Line) : Line :=
    { l with level := if fused && !how.cellar then 2 else 0,
             writers := if fused then l.writers ||| carrelBit carrel else l.writers }
  if !x.valid && x.mask == 0 && how.stream then
    s.intoL2 (galleryOf carrel) (pa / 128 * 128) (carrelBit carrel) ws
  else if !x.valid && !x.dirty && whole then
    let c := s.cacheOf l1
    s.setCacheOf l1 (c.setSector pa
      (({ Sector.none with valid := true, absent := true } : Sector).put ws)
      fun l => { mark l with mark := c.epoch })
  else
    let s1 := if x.dirty then s else s.fillL1 carrel pa
    let c := s1.cacheOf l1
    s1.setCacheOf l1 (c.setSector pa ((c.sector pa).put ws) mark)

/-- The bytes that one instruction stores, in order: sector by sector (R16, R123). -/
def State.storeBytes (s : State) (carrel : Nat) (how : StoreHow) (ws : List (Nat × Byte)) : State :=
  ((ws.map fun e => e.1 / 128).eraseDups).foldl (fun s sec =>
    s.storeSector carrel how (sec * 128)
      ((ws.filter fun e => e.1 / 128 = sec).map fun e => (e.1 % 128, e.2))) s

/-! Write-backs (R123, R125). -/

/-- One L1 line goes to the L2; the L1 line is clean at `level`. -/
def State.lineToL2 (s : State) (l1 ln : Nat) (level : BitVec 3) : State :=
  let c := s.cacheOf l1
  let l := Table.look c.lines ln Line.none
  if l.s0.dirty || l.s1.dirty then
    let gal := galleryOf l1
    let who := if l.writers = 0 then carrelBit l1 else l.writers
    let s1 := (s.intoL2 gal (ln * 256) who l.s0.written).intoL2 gal (ln * 256 + 128) who l.s1.written
    let l' : Line := { l with s0 := l.s0.clean, s1 := l.s1.clean, level := level, writers := 0 }
    s1.setCacheOf l1 { c with lines := Table.put c.lines ln l' }
  else s

/-- Every dirty line of one L1 goes to the L2. -/
def State.flushL1 (s : State) (l1 : Nat) (level : BitVec 3) : State :=
  let s1 := (s.cacheOf l1).lines.foldl (fun s e => s.lineToL2 l1 e.1 level) s
  s1.setCacheOf l1 (s1.cacheOf l1).trim

/-- One L2 line goes to its home slice. -/
def State.lineHome (s : State) (gal ln : Nat) : State :=
  let c := s.galleryCache gal
  let l := Table.look c.lines ln Line.none
  if l.s0.dirty || l.s1.dirty then
    let s1 := (s.writeHome (ln * 256) l.s0.written).writeHome (ln * 256 + 128) l.s1.written
    let l' : Line := { l with s0 := l.s0.clean, s1 := l.s1.clean, writers := 0 }
    s1.setGalleryCache gal { c with lines := Table.put c.lines ln l' }
  else s

/-- The dirty lines of one L2 whose mask holds one of the carrels `who` go to their home slices (R125, R127). -/
def State.flushL2 (s : State) (gal : Nat) (who : BitVec 4) : State :=
  let s1 := (s.galleryCache gal).lines.foldl (fun s e =>
    if e.2.writers &&& who != 0 then s.lineHome gal e.1 else s) s
  s1.setGalleryCache gal (s1.galleryCache gal).trim

/-! Evictions (R123): a cache that holds more lines than it has room for gives one up. -/

/-- The lines that a cache holds: those of device memory, and in an L1 those of constant sections, of two sectors. -/
def Cache.constLines (c : Cache) : List (Nat × Nat) := (c.consts.map fun e => (e.1, e.2 / 2)).eraseDups
def Cache.room (c : Cache) : Nat := c.lines.length + c.constLines.length

/-- The line of device memory that a cache evicts: which one is left open (log 9). -/
def Cache.victim (c : Cache) (n : Nat) : Option Nat := (c.lines[Config.victim n % c.room]?).map (·.1)

/-- The line of a constant section that it evicts, where its choice is none of the others. -/
def Cache.dropConst (c : Cache) (n : Nat) : Cache :=
  match c.constLines[Config.victim n % c.room - c.lines.length]? with
  | some l => { c with consts := c.consts.filter fun e => (e.1, e.2 / 2) ≠ l }
  | none => c

/-- A line leaves an L1: its written bytes go to the gallery's L2, as a gallery-level write-back does. -/
def State.evictL1 (s : State) (l1 : Nat) : State :=
  match (s.cacheOf l1).victim s.free with
  | some ln =>
    let s1 := s.lineToL2 l1 ln 2
    let c := s1.cacheOf l1
    (s1.setCacheOf l1 { c with lines := Table.del c.lines ln }).useFree
  | none => (s.setCacheOf l1 ((s.cacheOf l1).dropConst s.free)).useFree

/-- A line leaves an L2: its written bytes go to its home slice. -/
def State.evictL2 (s : State) (gal : Nat) : State :=
  match (s.galleryCache gal).victim s.free with
  | some ln =>
    let s1 := s.lineHome gal ln
    let c := s1.galleryCache gal
    (s1.setGalleryCache gal { c with lines := Table.del c.lines ln }).useFree
  | none => s

/-- The eviction that is due, if any. -/
def State.evicted (s : State) : Option State :=
  match s.l1s.find? fun e => decide (Config.l1Lines < e.2.room) with
  | some e => some (s.evictL1 e.1)
  | none => (s.l2s.find? fun e => decide (Config.l2Lines < e.2.lines.length)).map fun e => s.evictL2 e.1

/-- Levels of R9 and R127: 0 team, 1 gallery, 2 wing, 3 package. -/
def levelTeam : Nat := 0
def levelGallery : Nat := 1
def levelWing : Nat := 2
def levelPackage : Nat := 3

/-- The four L1s of a carrel's gallery. -/
def galleryCarrels (gal : Nat) : List Nat := [gal * 4, gal * 4 + 1, gal * 4 + 2, gal * 4 + 3]

/-- Fused lines whose writers include the carrel go to the home slice (R127). -/
def State.flushFused (s : State) (carrel : Nat) : State :=
  (galleryCarrels (galleryOf carrel)).foldl (fun s l1 =>
    (s.cacheOf l1).lines.foldl (fun s e =>
      if e.2.writers.getLsbD (carrel % 4) then s.lineToL2 l1 e.1 4 else s) s) s

/-- Every dirty line left in an L2 is evicted (R123). -/
def State.evictAllL2 (s : State) (gal : Nat) : State :=
  (s.galleryCache gal).lines.foldl (fun s e =>
    if e.2.s0.dirty || e.2.s1.dirty then
      let s1 := s.lineHome gal e.1
      let c := s1.galleryCache gal
      s1.setGalleryCache gal { c with lines := Table.del c.lines e.1 }
    else s) s

/-- Every dirty line left in the L1s of a fused gallery is evicted (R123). -/
def State.evictFused (s : State) (carrel : Nat) : State :=
  (galleryCarrels (galleryOf carrel)).foldl (fun s l1 =>
    (s.cacheOf l1).lines.foldl (fun s e =>
      if e.2.s0.dirty || e.2.s1.dirty then
        let s1 := s.lineToL2 l1 e.1 2
        let c := s1.cacheOf l1
        s1.setCacheOf l1 { c with lines := Table.del c.lines e.1 }
      else s) s) s

/-- With a release at wing or package level the gallery's other dirty lines are evicted. They may hold writes that
came before this edge through an edge at gallery level, and R170 lets no later reader miss those; R127 itself moves only
the lines of this carrel (log 12). -/
def State.evictOthers (s : State) (carrel : Nat) : State :=
  (if s.isFused carrel then s.evictFused carrel else s).evictAllL2 (galleryOf carrel)

/-- A release-side edge of a carrel at a level (R127). -/
def State.release (s : State) (carrel level : Nat) : State :=
  if level = levelTeam then s
  else if s.isFused carrel then
    if level = levelGallery then s
    else ((s.flushFused carrel).flushL2 (galleryOf carrel) (carrelBit carrel)).evictOthers carrel
  else if level = levelGallery then s.flushL1 carrel 2
  else ((s.flushL1 carrel 4).flushL2 (galleryOf carrel) (carrelBit carrel)).evictOthers carrel

/-- Invalidate every clean sector; a dirty one keeps its written bytes and is filled afresh before
its other bytes are read (R128, R129). The acquire epoch advances (R123). -/
def Cache.invalidate (c : Cache) : Cache :=
  Cache.trim { c with
    epoch := c.epoch + 1,
    lines := c.lines.map fun e => (e.1, { e.2 with s0 := e.2.s0.invalidate, s1 := e.2.s1.invalidate }) }

/-- How far an acquire-side edge reaches: 0 this carrel, 1 the gallery, 2 beyond (R128). -/
def crossing (here : Nat) (sources : List Nat) : Nat :=
  sources.foldl (fun m c =>
    max m (if c = here then 0 else if galleryOf c = galleryOf here then 1 else 2)) 0

/-- An acquire-side edge at a carrel (R128). -/
def State.acquire (s : State) (carrel cross : Nat) : State :=
  if cross = 0 || (cross = 1 && s.isFused carrel) then s
  else
    let l1s := if s.isFused carrel then galleryCarrels (galleryOf carrel) else [carrel]
    let s1 := l1s.foldl (fun s c => s.setCacheOf c (s.cacheOf c).invalidate) s
    if cross = 1 then s1
    else s1.setGalleryCache (galleryOf carrel) (s1.galleryCache (galleryOf carrel)).invalidate

/-! What a strong access, an STLBL and an engine do to copies (R340, R348). -/

/-- Written bytes of a range within one sector leave a sector for the home slice. -/
def Sector.giveUp (x : Sector) (lo hi : Nat) : Sector × List (Nat × Byte) :=
  let out := x.written.filter fun e => lo ≤ e.1 && e.1 < hi
  let keep := (x.written.filter fun e => !(lo ≤ e.1 && e.1 < hi))
  ({ x with mask := BitVec.ofNat 128 (keep.foldl (fun a e => a ||| 2 ^ e.1) 0),
            dirty := !keep.isEmpty }, out)

/-- A line that holds no written byte any longer names no writer (R125). -/
def Line.unmarked (l : Line) : Line := if l.s0.dirty || l.s1.dirty then l else { l with writers := 0 }

/-- The dirty bytes of [pa, pa+n), which lie in one sector, go to the home slice from the L2 and then
from the carrel's L1; then the L1 sector and the L2 line of them are invalidated when asked. -/
def State.expel (s : State) (carrel pa n : Nat) (drop : Bool) : State :=
  let base := pa / 128 * 128
  let lo := pa % 128
  let gal := galleryOf carrel
  let l1 := s.l1For carrel pa
  let c2 := s.galleryCache gal
  let c1 := s.cacheOf l1
  let (y2, o2) := (c2.sector pa).giveUp lo (lo + n)
  let (y1, o1) := (c1.sector pa).giveUp lo (lo + n)
  let s1 := (s.writeHome base o2).writeHome base o1
  let c2' : Cache :=
    if Table.has c2.lines (pa / 256) then
      c2.setSector pa y2 fun l =>
        (if drop then { l with s0 := l.s0.invalidate, s1 := l.s1.invalidate } else l).unmarked
    else c2
  let c1' : Cache :=
    if Table.has c1.lines (pa / 256) then c1.setSector pa (if drop then y1.invalidate else y1) Line.unmarked else c1
  (s1.setGalleryCache gal c2'.trim).setCacheOf l1 c1'.trim

/-- The label of a block as LDLBL reads it through the caches (R347). -/
def State.viewLabel (s : State) (carrel pa : Nat) : Label :=
  let x := (s.cacheOf (s.l1For carrel pa)).sector pa
  if x.valid && !x.absent then (if pa / 64 % 2 = 0 then x.lab0 else x.lab1)
  else if x.valid then s.mem.label (pa / 64)
  else
    let y := (s.galleryCache (galleryOf carrel)).sector pa
    if y.valid then (if pa / 64 % 2 = 0 then y.lab0 else y.lab1) else s.mem.label (pa / 64)

end Sys2Proof.Machine
end

