-- ==== Sys2Proof/Machine/Archive.lean ====
section
/-! DEFINITION. What the Archive does inside an access: the records of a traced segment and their
checks (R54, R57, R58, R75, R82), the recall queue (R71), the bytes in use (R60, R62); the store hash
(R178); the order log and its gates (R158 to R160). -/

namespace Sys2Proof.Machine

open Sys2Proof

def Folio.none : Folio :=
  { label := 0, entryPc := 0, stale := false, queued := false, running := false, revoked := false,
    exited := false, inPlace := false, ran := false, runNo := 0, digest := 0, ordinal := 0, parent := 0,
    successor := 0, frame := 0, task0 := 0, records := [], fresh := [],
    image := Option.none, ret := 0, hasRet := false, allocs := [], freshAllocs := [], matched := [] }

/-- A trace before its TRECORD. Its Catalogue keeps 2^8 buckets (R62, log 115). -/
def Trace.none : Trace :=
  { live := false, state := .recording, buckets := 8, root := 1, future := 0, rootFrame := 0,
    rootEnded := false, rootImage := Option.none, rootArgs := Vector.replicate 128 0, rootRet := 0, folios := [], next := 1, queue := [],
    props := [], active := Option.none, drop := false, cancels := [], relabel := false, nprops := 0, nruns := 0,
    orphans := [], carrel := 0 }

def State.traceOf (s : State) (t : Nat) : Trace := Table.look s.ctx.traces t Trace.none
def State.setTraceOf (s : State) (t : Nat) (x : Trace) : State :=
  { s with ctx := { s.ctx with traces := Table.put s.ctx.traces t x } }
def State.modTraceOf (s : State) (t : Nat) (f : Trace → Trace) : State := s.setTraceOf t (f (s.traceOf t))

def Trace.folio (t : Trace) (f : Nat) : Folio := Table.look t.folios f Folio.none
def Trace.setFolio (t : Trace) (f : Nat) (x : Folio) : Trace := { t with folios := Table.put t.folios f x }
def Trace.modFolio (t : Trace) (f : Nat) (g : Folio → Folio) : Trace := t.setFolio f (g (t.folio f))

/-- The trace still records: neither abandoned nor dropped (R60). -/
def Trace.recording (t : Trace) : Bool :=
  t.live && (t.state == .recording || t.state == .recorded || t.state == .propagating)

/-- The gang's accesses leave records: a compute gang of a traced segment (R54). -/
def State.traced (s : State) (g : Gang) : Bool :=
  g.mode != .untraced && g.mode != .discarded && !g.isShadow && (s.traceOf g.trace).recording

def Folio.reads (f : Folio) (g : Nat) : Bool := (f.records ++ f.fresh).contains (.read g)
def Folio.writes (f : Folio) (g : Nat) : Bool := (f.records ++ f.fresh).contains (.write g)

/-- The writer of a granule in a trace (R57). -/
def Trace.writer (t : Trace) (g : Nat) : Option Nat :=
  (t.folios.find? fun e => !e.2.revoked && e.2.writes g).map (·.1)

/-- Put a folio into the recall queue in label order, at most once (R28, R71). -/
def Trace.enqueue (t : Trace) (f : Nat) : Trace :=
  if t.queue.contains f || !(Table.has t.folios f) then t
  else
    let lab := (t.folio f).label
    { t.modFolio f (fun x => { x with stale := true, queued := true }) with
      queue := t.queue.takeWhile (fun q => (t.folio q).label < lab) ++ f ::
               t.queue.dropWhile (fun q => (t.folio q).label < lab) }

/-- Every reader of a granule, above a label when one is given, enters the recall queue (R58, R70). -/
def Trace.markReaders (t : Trace) (g : Nat) (above : Option DWord) : Trace :=
  (t.folios.filter fun e => !e.2.revoked && e.2.reads g
      && (above.map fun l => decide (l < e.2.label)).getD true).foldl (fun t e => t.enqueue e.1) t

/-- A granule is pending for a segment with label `lab` (R75, log 20). -/
def Trace.pendingFor (t : Trace) (g : Nat) (me : Nat) (lab : DWord) : Bool :=
  t.state == .propagating && t.folios.any fun e =>
    e.1 != me && e.2.label < lab &&
      (((e.2.queued || e.2.running) && e.2.records.contains (.write g))
        || (e.2.running && e.2.fresh.contains (.write g)))

/-! Bytes in use (R62, R65 to R68). -/

def runBytes (n : Nat) : Nat := ((n + 1) * 16 + 63) / 64 * 64

/-- A folio, its runs and its image: a segment that re-executes has its old run and its new one (R66). -/
def Folio.bytes (f : Folio) : Nat :=
  64 + (if f.ran then runBytes f.records.length else 0) + (if f.running || !f.ran then runBytes f.fresh.length else 0)
    + (f.image.map fun i => (i.size + 255) / 256 * 256).getD 0

def granuleOf : Record → Option Nat
  | .read g => some g
  | .write g => some g
  | .atomic _ _ _ => none

/-- Catalogue nodes: one head for each granule, one list node for each segment and kind (R67). -/
def Trace.nodes (t : Trace) : Nat :=
  let recs := t.folios.flatMap fun e => (e.2.records ++ e.2.fresh).eraseDups.filterMap granuleOf
  recs.length + recs.eraseDups.length

def Trace.bytes (t : Trace) : Nat :=
  if t.state == .abandoned then 320
  else 64 + (t.folios.map fun e => e.2.bytes).sum + 16 * t.nodes + 4 * 2 ^ t.buckets

def Trace.liveFolios (t : Trace) : Nat := (t.folios.filter fun e => !e.2.revoked).length
def Trace.liveRecords (t : Trace) : Nat := (t.folios.map fun e => (e.2.records ++ e.2.fresh).length).sum

/-! Order logs (R126, R156 to R159). -/

def OrderLog.none : OrderLog :=
  { state := .empty, truncated := false, folios := [], extra := [], chunks := [], gates := [], waits := [],
    members := 0, rootIn := false }

/-- LLC slices of the partition (R158). -/
def State.sliceCount (s : State) : Nat := 16 * s.wings.length

/-- The 64-byte chunk blocks of a slice's list. -/
def blockCount (cs : List (Nat × Nat)) : Nat := (cs.length + 6) / 7

def OrderLog.list (l : OrderLog) (slice : Nat) : List (Nat × Nat) := Table.look l.chunks slice []

/-- Bytes of an order log's slice directory and replay folios, up to the next block. -/
def OrderLog.front (l : OrderLog) (slices : Nat) : Nat := (16 * slices + 32 * (l.folios.length + l.extra.length) + 63) / 64 * 64

/-- Bytes of an order log beside its header (R158). -/
def OrderLog.body (l : OrderLog) (slices : Nat) : Nat := l.front slices + 64 * (l.chunks.map fun e => blockCount e.2).sum

/-- Bytes of an order log that is in use. -/
def OrderLog.bytes (l : OrderLog) (slices : Nat) : Nat := if l.state == .empty then 0 else 64 + l.body slices


/-- The slice of a physical address as rank * 16 + slice (R126, R158). -/
def State.sliceOf (s : State) (pa : Nat) : Nat :=
  let rank := pa / 4096 % s.stackCount
  let j := rank % 2
  rank / 2 * 16 + 8 * j + Nat.xor (pa / 256 % 8) (pa / 16384 % 8)

def State.logOf (s : State) (n : Nat) : OrderLog := Table.look s.ctx.logs n OrderLog.none
/-- A replay folio's 32 bytes (R158). -/
def ReplayFolio.bytes (f : ReplayFolio) : List Byte :=
  natToBytes 8 (f.entryPc.toNat % 2 ^ 57 + (if f.ended then 2 ^ 57 else 0) + if f.hashed then 2 ^ 58 else 0)
    ++ natToBytes 4 0 ++ natToBytes 4 f.ordinal.toNat ++ natToBytes 4 f.parent ++ natToBytes 4 f.strong
    ++ natToBytes 8 f.hash.toNat

/-- The chunk blocks of a slice's list, the first at `start`; `fuel` bounds their number (R158). -/
def chunkBlocks (start : Nat) : (fuel : Nat) → List (Nat × Nat) → List Byte
  | 0, _ => []
  | fuel + 1, cs =>
    let here := cs.take 7 ++ List.replicate (7 - cs.length) (0, 0)
    let rest := cs.drop 7
    here.flatMap (fun c => natToBytes 4 c.1 ++ natToBytes 4 c.2)
      ++ natToBytes 8 (if rest.isEmpty then 0 else start + 64)
      ++ if rest.isEmpty then [] else chunkBlocks (start + 64) fuel rest

def LogState.code : LogState → Nat
  | .empty => 0
  | .recording => 1
  | .recorded => 2
  | .replaying => 3

/-- The first chunk block of a slice: the lists of the slices before it come first. -/
def OrderLog.start (l : OrderLog) (slices area slice : Nat) : Nat :=
  area + l.front slices + 64 * ((List.range slice).map fun i => blockCount (l.list i)).sum

/-- Order log n in the Archive region (R158): its header, and from `area` on its slice directory, its replay
folios and its chunk blocks. Where the parts lie past the headers is the device's (log 57). -/
def State.writeLog (s : State) (n area : Nat) (l : OrderLog) : State :=
  let fs := l.folios ++ l.extra
  let at_ := area + 16 * s.sliceCount
  let header :=
    natToBytes 8 (l.state.code + if l.truncated then 8 else 0) ++ natToBytes 8 0 ++ natToBytes 4 s.sliceCount
      ++ natToBytes 4 fs.length ++ natToBytes 8 area ++ natToBytes 8 at_ ++ natToBytes 24 0
  let entry (sl : Nat) : List Byte :=
    natToBytes 8 (if (l.list sl).isEmpty then 0 else l.start s.sliceCount area sl) ++ natToBytes 4 (l.list sl).length
      ++ natToBytes 4 0
  let s1 := (s.homeWrite (s.ctx.logBase.toNat + 64 * n) header).homeWrite area
    ((List.range s.sliceCount).flatMap entry ++ fs.flatMap ReplayFolio.bytes)
  l.chunks.foldl (fun s' e =>
    s'.homeWrite (l.start s.sliceCount area e.1) (chunkBlocks (l.start s.sliceCount area e.1) (e.2.length + 1) e.2)) s1

/-- Every log of the context, one after the other past the table of headers. -/
def State.writeLogs (s : State) : State :=
  (s.ctx.logs.foldl (fun acc e => (acc.1.writeLog e.1 acc.2 e.2, acc.2 + e.2.body s.sliceCount))
    (s, s.ctx.logBase.toNat + 4096)).1

/-- The log in the state alone, for what its bytes do not show. -/
def State.putLog (s : State) (n : Nat) (x : OrderLog) : State :=
  { s with ctx := { s.ctx with logs := Table.put s.ctx.logs n x } }

/-- The Archive keeps the logs' bytes in memory as a log changes (R158). -/
def State.setLogOf (s : State) (n : Nat) (x : OrderLog) : State := (s.putLog n x).writeLogs

/-- REPLAYM's fields (R156). -/
def replayMode (r : DWord) : Nat := (r.extractLsb' 0 2).toNat
def replayLog (r : DWord) : Nat := (r.extractLsb' 8 6).toNat

def ReplayFolio.none : ReplayFolio :=
  { hash := 0, strong := 0, parent := 0, ordinal := 0, entryPc := 0, ended := false, hashed := false,
    used := false }

/-- Folio i of a log, the new ones of a replay after the recorded ones (R157). -/
def OrderLog.folio (l : OrderLog) (i : Nat) : ReplayFolio :=
  (l.folios ++ l.extra).getD (i - 1) ReplayFolio.none

def OrderLog.setFolio (l : OrderLog) (i : Nat) (f : ReplayFolio) : OrderLog :=
  if i - 1 < l.folios.length then { l with folios := l.folios.set (i - 1) f }
  else { l with extra := l.extra.set (i - 1 - l.folios.length) f }

/-- The chunk list of a slice after one more access of folio f (R159). -/
def appendChunk (cs : List (Nat × Nat)) (f : Nat) : List (Nat × Nat) :=
  match cs.getLast? with
  | some (g, k) => if g = f then cs.dropLast ++ [(f, k + 1)] else cs ++ [(f, 1)]
  | none => [(f, 1)]

/-- A session ends for its log when the root has left and no other task is in it (R156). -/
def OrderLog.leave (l : OrderLog) : OrderLog :=
  if !l.rootIn && l.members = 0 then { l with state := .recorded, extra := [] } else l

/-- The gang's task is in a session and has a replay folio there (R156, R157). A re-execution is none of the
session's tasks, and neither is a root that is recorded afresh (log 91). -/
def Gang.inSession (g : Gang) : Bool := g.member

/-- A task of a session leaves it. A root that ends by EXIT without a write of OFF leaves it there (log 107). -/
def State.dropMember (s : State) (g : Gang) : State :=
  let n := replayLog g.replaym
  let l := s.logOf n
  if !g.inSession then s
  else s.setLogOf n (if g.sroot then { l with rootIn := false } else { l with members := l.members - 1 } : OrderLog).leave

/-- The Archive region in use (R60). -/
def State.archiveBytes (s : State) : Nat :=
  (s.ctx.traces.map fun e => if e.2.live then e.2.bytes else 0).sum
    + (s.ctx.logs.map fun e => e.2.bytes s.sliceCount).sum

/-- An abandoned trace keeps its handle, its header and its root's entry image (R60). -/
def Trace.abandon (t : Trace) : Trace :=
  { t with state := .abandoned, folios := [], queue := [], orphans := [] }

/-- Entries of tasks that are over leave the shelf and count as taken: the write index counts puts and never
goes back (R44). Below L nothing is boosted any longer (R42). -/
def Shelf.without (x : Shelf) (dead : List Nat) : Shelf :=
  let keep := x.entries.filter fun e => !(e.isTask && dead.contains e.payload.toNat)
  { x with
    readIdx := x.readIdx + (x.entries.length - keep.length),
    entries := if keep.length < x.low then keep.map fun e => { e with boost := false } else keep }

/-- The gang of a task that has none in a slot, as far as its session goes. -/
def State.waitingGang (s : State) (a : Nat) : Gang :=
  let f := s.frameOf a
  match Table.seek s.ctx.parked a with
  | some g => g
  | none => { Gang.start 0 1 with replaym := f.replaym, rfolio := f.rfolio, member := f.member, mode := f.mode }

/-- The gang's task uses its cellar block no longer; the block is freed when no task uses it (R121). -/
def State.leaveCellar (s : State) (g : Gang) : State :=
  let me := (s.frameOf g.frame).serial
  let leave (c : Cellar) : Cellar :=
    if s.ctx.cellarBase + BitVec.ofNat 64 c.at_ = g.cbase then { c with tasks := c.tasks.filter (· != me) } else c
  if g.clim = 0 then s
  else { s with ctx := { s.ctx with cellars := (s.ctx.cellars.map leave).filter fun c => !c.tasks.isEmpty } }

/-- Tasks that wait on a shelf or are parked never run: they are over (R60, R79). -/
def State.dropTasks (s : State) (dead : List Nat) : State :=
  let s1 := dead.foldl (fun s a => (s.dropMember (s.waitingGang a)).leaveCellar (s.waitingGang a)) s
  let close (f : Frame) : Frame := { f with state := .ended, imagePtr := 0, imageSize := 0 }
  let room := (dead.map fun a => (s.frameOf a).imageSize.toNat).sum
  let stays (p : Put) : Bool := !(p.task && dead.contains p.payload.toNat)
  { s1 with ctx := { s1.ctx with
      imageRoom := s1.ctx.imageRoom + room,
      parked := s1.ctx.parked.filter fun e => !dead.contains e.1,
      gangs := s1.ctx.gangs.map fun e => (e.1, e.2.mapTasks fun g => { g with puts := g.puts.filter stays }),
      frames := s1.ctx.frames.map fun e => if dead.contains e.1 then (e.1, close e.2) else e,
      shelves := s1.ctx.shelves.map fun e => (e.1, e.2.without dead) } }

/-- What frame a holds parked goes, with its image. -/
def State.dropParked (s : State) (a : Nat) : State :=
  let f := s.frameOf a
  let s1 := s.setFrameOf a { f with imagePtr := 0, imageSize := 0 }
  { s1 with ctx := { s1.ctx with
      imageRoom := s1.ctx.imageRoom + f.imageSize.toNat, parked := Table.del (Table.del s1.ctx.parked a) (a + 1) } }

/-- The trace's tasks run on untraced; what a propagation runs is dropped at its next park or EXIT, or
at once where it does not run (R60, R85). A propagation under way waits to record the root afresh; one that
does so already ends with the root. What the trace's segments allocated stays, and no segment owns it. -/
def State.abandon (s : State) (t : Nat) : State :=
  let new (m : TraceMode) : Bool := m == .newWork || m == .reexec
  let flip (g : Gang) : Gang :=
    if g.trace = t && g.mode == .recording then { g with mode := .untraced, folio := 0 }
    else if g.trace = t && new g.mode then { g with mode := .discarded, folio := 0 }
    else g
  let lost (f : Frame) : Bool :=
    f.trace = t && f.traced && f.mode == .newWork && f.state != .running && f.state != .ended
  let waits := ((s.ctx.parked.filter fun e => e.2.trace = t && new e.2.mode).map (·.1))
  let (under, apart) := waits.partition fun a => (s.frameOf a).state == .running
  let s1 := (under.foldl (fun s a => s.dropParked a) s).dropTasks
    (apart ++ (s.ctx.frames.filter fun e => lost e.2 && !waits.contains e.1).map (·.1))
  let tr := s1.traceOf t
  let tr1 : Trace :=
    if tr.state == .propagating then { tr.abandon with props := tr.active.toList ++ tr.props, active := none }
    else tr.abandon
  { s1 with ctx := { s1.ctx with
      gangs := s1.ctx.gangs.map fun e => (e.1, e.2.mapTasks flip),
      parked := s1.ctx.parked.map fun e => (e.1, flip e.2),
      entries := s1.ctx.entries.filter fun e => e.2.trace != t,
      frames := s1.ctx.frames.map fun e =>
        if e.2.trace = t then (e.1, { e.2 with traced := false, mode := .untraced, folio := 0 }) else e,
      allocs := s1.ctx.allocs.map fun a => if a.trace = some t then { a with trace := none } else a,
      traces := Table.put s1.ctx.traces t tr1 } }

/-- A record that would pass the Archive's limit abandons the trace (R60). -/
def State.checkLimit (s : State) (t : Nat) : State :=
  if s.archiveBytes > s.ctx.archiveMax then s.abandon t else s

/-- A gang runs this folio. -/
def State.runsFolio (s : State) (t f : Nat) : Bool :=
  s.tasksIn.any fun g => (g.resident || g.saved) && g.trace = t && g.folio = f && !g.isShadow
    && g.mode != .untraced && g.mode != .discarded

/-- A record joins the run that is being made, or the run that has retired where the access was held until then
(R163). -/
def State.addRecord (s : State) (t f : Nat) (r : Record) : State :=
  let late := ((s.traceOf t).folio f).ran && !s.runsFolio t f
  (s.modTraceOf t fun x => x.modFolio f fun y =>
    if late then { y with records := y.records ++ [r] } else { y with fresh := y.fresh ++ [r] }).checkLimit t

/-! What a traced access meets. -/

inductive Traced where
  /-- It goes on in this state. -/
  | ok (s : State)
  /-- It waits (R75). -/
  | wait
  /-- It raises a trace fault in these lanes. -/
  | fault (kind : BitVec 8) (lanes : Mask)
deriving Repr

/-- The trace fault that a read of a granule by segment f raises (R57, R82). -/
def Trace.readFault (t : Trace) (f gr : Nat) : Option (BitVec 8) :=
  let x := t.folio f
  if t.orphans.contains gr then some Code.traceOrphan
  else if x.fresh.contains (.read gr) || x.fresh.contains (.write gr) then .none
  else
    match t.writer gr with
    | some w => if x.label < (t.folio w).label then some Code.traceRewrite else .none
    | .none => .none

/-- The trace fault that a write of a granule by segment f raises (R57). -/
def Trace.writeFault (t : Trace) (f gr : Nat) : Option (BitVec 8) :=
  let x := t.folio f
  if x.fresh.contains (.write gr) then .none
  else
    let other := match t.writer gr with
      | some w => w != f
      | .none => false
    let early := t.folios.any fun e => !e.2.revoked && e.2.label < x.label && e.2.reads gr
    if other || early then some Code.traceRewrite else .none

/-- The lanes whose granules raise this fault (R114). -/
def faultLanes (fault : Nat → Option (BitVec 8)) (k : BitVec 8) (gs : List (Nat × Nat)) : Mask :=
  Mask.ofFn fun l => gs.any fun e => e.1 = l && fault e.2 = some k

/-- The reads of a traced segment, granule by granule (R54, R57, R75, R82): each lane's are its task's (R33). -/
def traceReads (s : State) (g0 : Gang) : List (Nat × Nat) → Traced
  | [] => .ok s
  | (lane, gr) :: rest =>
    let g := g0.task lane
    if !s.traced g then .ok s
    else
      let t := s.traceOf g.trace
      let f := t.folio g.folio
      if t.pendingFor gr g.folio f.label then .wait
      else
        match t.readFault g.folio gr with
        | some k => .fault k (faultLanes (t.readFault g.folio) k ((lane, gr) :: rest))
        | none =>
          if f.fresh.contains (.read gr) || f.fresh.contains (.write gr) then traceReads s g0 rest
          else traceReads (s.addRecord g.trace g.folio (.read gr)) g0 rest

/-- The writes of a traced segment (R54, R57). -/
def traceWrites (s : State) (g0 : Gang) : List (Nat × Nat) → Traced
  | [] => .ok s
  | (lane, gr) :: rest =>
    let g := g0.task lane
    if !s.traced g then .ok s
    else
      let t := s.traceOf g.trace
      match t.writeFault g.folio gr with
      | some k => .fault k (faultLanes (t.writeFault g.folio) k ((lane, gr) :: rest))
      | none =>
        if (t.folio g.folio).fresh.contains (.write gr) then traceWrites s g0 rest
        else
          traceWrites ((s.addRecord g.trace g.folio (.write gr)).modTraceOf g.trace fun t =>
            { t with orphans := t.orphans.filter (· != gr) }) g0 rest

/-- The comparison of each written granule's content before and after, with its lane (R58). -/
def traceCompare (s : State) (g0 : Gang) (old new : List (Nat × Nat × List Byte)) : State :=
  (old.zip new).foldl (fun s e =>
    let g := g0.task e.1.1
    let lab := ((s.traceOf g.trace).folio g.folio).label
    if !s.traced g || e.1.2.2 = e.2.2.2 then s
    else s.modTraceOf g.trace fun t => t.markReaders e.1.2.1 (some lab)) s

/-! The store hash (R178). -/

def hashStep (h x : DWord) : DWord :=
  let h1 := (h ^^^ x) * 0xFF51AFD7ED558CCD
  h1 ^^^ (h1 >>> 33)

/-- One granule a lane writes: the mask and the bytes of it, address and byte pairs. -/
def foldGranule (h : DWord) (spBit : Bool) (g : Nat) (ws : List (Nat × Byte)) : DWord :=
  let m := ws.foldl (fun m e => m ||| 2 ^ (e.1 % 8)) 0
  let v := ws.foldl (fun v e => v + e.2.toNat * 2 ^ (8 * (e.1 % 8))) 0
  let h1 := hashStep h (BitVec.ofNat 64 ((if spBit then 256 else 0) ||| m))
  hashStep (hashStep h1 (BitVec.ofNat 64 g)) (BitVec.ofNat 64 v)

def insertNat (x : Nat) : List Nat → List Nat
  | [] => [x]
  | y :: r => if x ≤ y then x :: y :: r else y :: insertNat x r

/-- Numbers in increasing order. -/
def sortNats (l : List Nat) : List Nat := l.foldr insertNat []

/-- What one lane writes, granule by granule in increasing address. -/
def foldLane (h : DWord) (spBit : Bool) (ws : List (Nat × Byte)) : DWord :=
  let gs := sortNats ((ws.map fun e => e.1 / 8 * 8).eraseDups)
  gs.foldl (fun h g => foldGranule h spBit g (ws.filter fun e => e.1 / 8 * 8 = g)) h

/-! Order gates (R159, R160). -/

/-- What the order log says to a strong access that reaches its slice. -/
inductive Gate where
  | ok (s : State)
  | held (s : State)
  | diverged
deriving Repr

/-- The path of the current gang stands among the accesses held at a slice, once. -/
def OrderLog.arrive (l : OrderLog) (slice : Nat) (me : Nat × Bool) : OrderLog :=
  let ws := Table.look l.waits slice []
  if ws.contains me then l else { l with waits := Table.put l.waits slice (ws ++ [me]) }

def OrderLog.pass (l : OrderLog) (slice : Nat) (me : Nat × Bool) : OrderLog :=
  { l with waits := Table.put l.waits slice ((Table.look l.waits slice []).filter (· != me)) }

/-- Under RECORD the access is logged; at the Archive's limit the log is truncated and logs nothing further
(R159). -/
def OrderLog.record (l : OrderLog) (full : Bool) (slice f : Nat) : OrderLog :=
  if l.truncated then l
  else if full then { l with truncated := true }
  else
    let x := l.folio f
    { l.setFolio f { x with strong := x.strong + 1 } with
      chunks := Table.put l.chunks slice (appendChunk (l.list slice) f) }

/-- The log of the session of the current gang at the slice of pa (R159, R160), for an access that is held under
the name `me`. Past the last chunk the access that arrived first goes first. -/
def State.gateAs (s : State) (me : Nat × Bool) (pa : Nat) : Gate :=
  let g := s.gang
  let n := replayLog g.replaym
  let l := s.logOf n
  let sl := s.sliceOf pa
  let counted := s.modGang fun g => { g with strong := g.strong + 1 }
  if !g.inSession then .ok s
  else
    match l.state with
    | .recording => .ok (counted.setLogOf n (l.record (decide (s.ctx.archiveMax ≤ s.archiveBytes)) sl g.rfolio))
    | .replaying =>
      let held : Gate := .held (s.putLog n (l.arrive sl me))
      if (l.folio g.rfolio).strong ≤ g.strong then .diverged
      else
        match Table.look l.gates sl [] with
        | [] =>
          if ((Table.look l.waits sl []).head?.map (· == me)).getD true then .ok (counted.putLog n (l.pass sl me))
          else held
        | (f, k) :: rest =>
          if f = g.rfolio then
            .ok (counted.putLog n { l.pass sl me with
              gates := Table.put l.gates sl (if k ≤ 1 then rest else (f, k - 1) :: rest) })
          else held
    | _ => .ok s

/-- The gate before the current path. -/
def State.gate (s : State) (pa : Nat) : Gate := s.gateAs (s.cur, s.gang.younger) pa

end Sys2Proof.Machine
end

