-- ==== Sys2Proof/Machine/Spaces.lean ====
section
/-! DEFINITION. The six spaces as the M format reaches them (R116 to R121, R332 to R334): address
formation, the checks before any lane performs, reading and writing of each storage, results in
flight (R17). -/

namespace Sys2Proof.Machine

open Sys2Proof

/-- The bytes of a frame (R34), lowest first. -/
def Frame.bytes (f : Frame) : List Byte :=
  let flag (b : Bool) (k : Nat) : Nat := if b then 2 ^ k else 0
  let st := match f.state with
    | .ready => 1 | .running => 2 | .parked => 3 | .runnable => 4 | .ended => 5
  natToBytes 8 f.parent ++ natToBytes 8 f.resumePc.toNat ++ natToBytes 8 f.entryPc.toNat
    ++ natToBytes 4 f.ordinal.toNat ++ natToBytes 4 f.awaiting ++ natToBytes 8 f.digest.toNat
    ++ natToBytes 8 f.folio ++ natToBytes 8 f.imagePtr.toNat ++ natToBytes 2 f.imageSize.toNat
    ++ natToBytes 1 f.width ++ natToBytes 1 f.region.toNat ++ natToBytes 2 f.shelf
    ++ natToBytes 1 st
    ++ natToBytes 1 (flag f.cancel 0 + flag f.traced 1 + flag f.packed 2 + flag f.laneClass 3)
    ++ f.args.toList ++ natToBytes 8 f.ret.toNat ++ natToBytes 8 f.stackSpill.toNat
    ++ natToBytes 32 f.bitmap.toNat ++ natToBytes 8 f.taskId.toNat ++ natToBytes 8 0

/-- The constant section of the gang's code object (R116). -/
def State.consts (s : State) (code : Nat) : List Byte :=
  match Table.seek s.ctx.codes code with
  | some c => c.consts
  | none => []

def Space.ofBits (b : BitVec 3) : Option Space :=
  match b.toNat with
  | 0 => some .gm | 1 => some .sp | 2 => some .cl | 3 => some .fr | 4 => some .lf | 5 => some .cn
  | _ => none

/-- Bytes of an M width code (R267). -/
def mWidth (w : BitVec 3) : Nat :=
  match w.toNat with
  | 0 => 1 | 1 => 2 | 2 => 4 | 3 => 8 | 4 => 16
  | _ => 0

/-- The index value of lane l (R332). -/
def idxValue (g : Gang) (o : Operand) (l : Nat) : DWord :=
  match o with
  | .w i => ((g.wReg i).at l).signExtend 64
  | .s i => g.sReg i
  | _ => 0

/-- The address of lane l (R332): for a cellar access the unsigned word index. -/
def mAddr (g : Gang) (x : MFmt) (spc : Space) (l : Nat) : Nat :=
  match spc with
  | .cl => match x.idx with
    | .w i => ((g.wReg i).at l).toNat
    | _ => 0
  | _ =>
    let base : DWord := match spc with
      | .fr | .cn => 0
      | _ => g.sReg x.sbase
    (base + (idxValue g x.idx l <<< x.scale.toNat) + x.off.signExtend 64).toNat

/-- A run of bytes of one lane: its address in the space, and where it lies in the storage (physical
for gm and cl, an offset otherwise). -/
structure Piece where
  va : Nat
  pa : Nat
  n  : Nat
deriving DecidableEq, Repr

/-- A lane's access that passed its checks. -/
structure LaneAcc where
  lane   : Nat
  pieces : List Piece
  mod    : Bool
  trans  : List (Nat × Translation)
deriving DecidableEq, Repr

/-- Why a lane may not perform: rank within R271, fault code, detail (R114), the block of a stack whose error it
met. -/
structure LaneErr where
  rank   : Nat
  kind   : BitVec 8
  detail : DWord
  bad    : Option Nat
deriving DecidableEq, Repr

def rankOf (kind : BitVec 8) : Nat :=
  if kind = Code.alignment then 0 else if kind = Code.cellarLimit then 1
  else if kind = Code.uncorrectable then 3 else 2

def laneErr (kind : BitVec 8) (a : Nat) : LaneErr := ⟨rankOf kind, kind, BitVec.ofNat 64 a, none⟩
def laneBad (pa : Nat) : LaneErr := ⟨3, Code.uncorrectable, 0, some pa⟩
/-- An error in a scratchpad or loft, which no stack's controller logs (R146). -/
def laneBadHere : LaneErr := ⟨3, Code.uncorrectable, 0, none⟩

/-- The faults of a translation in a lane (R145, R146). -/
def reachErr (e : ReachErr) (a : Nat) : LaneErr :=
  if e.1 = Code.uncorrectable then laneBad e.2 else laneErr e.1 a

/-- What the lanes of an access raise together (R271): the fault, its lanes, the detail of the lowest, the
blocks whose errors they met. -/
structure LaneFault where
  kind   : BitVec 8
  lanes  : Mask
  detail : DWord
  bad    : List Nat
deriving DecidableEq, Repr

def raiseLanes (s : State) (m : Mask) (e : LaneFault) : Result :=
  raiseFault (e.bad.foldl (fun s b => s.logError b) s) e.kind m e.lanes e.detail

/-- The checks of one lane's access of n bytes at address a of a space (R116, R334). `fits` says
whether the access must be aligned. -/
def resolveLane (s : State) (spc : Space) (n : Nat) (need : Need) (fits : Bool) (l a : Nat) :
    Except LaneErr LaneAcc :=
  let g := s.gang
  let own (limit : Nat) (bad : List Nat) : Except LaneErr LaneAcc :=
    if fits && a % n ≠ 0 then .error (laneErr Code.alignment a)
    else if a + n ≤ limit && need.read && badIn bad a n then .error laneBadHere
    else if a + n ≤ limit then .ok ⟨l, [⟨a, a, n⟩], false, []⟩
    else .error (laneErr Code.protection a)
  let gm (va k : Nat) : Except LaneErr (Translation × Nat) :=
    match s.reach (.carrel g.carrel) va (need.of k) with
    | .error e => .error (reachErr e va)
    | .ok t =>
      if need.read && s.fillBad g.carrel (t.pa va) then
        .error (laneBad (s.badBlock (t.pa va / 128 * 128) 128))
      else .ok (t, k)
  match spc with
  | .gm =>
    if fits && a % n ≠ 0 then .error (laneErr Code.alignment a)
    else
      match gm a n with
      | .error e => .error e
      | .ok (t, _) => .ok ⟨l, [⟨a, t.pa a, n⟩], t.mod, [(a, t)]⟩
  | .sp => own 0x80000 (s.carrelOf g.carrel).spBad
  | .lf => own 0x400000 (s.carrelOf g.carrel).loftBad
  | .fr =>
    if need.write && !(64 ≤ a && a + n ≤ 192) && (!fits || a % n = 0) then .error (laneErr Code.protection a)
    else own 256 []
  | .cn => own (s.consts g.code).length []
  | .cl =>
    -- a is the word index; .b64 takes words a and a + 1
    let top := if n = 8 then a + 1 else a
    if g.clim.toNat ≤ top then
      .error ⟨rankOf Code.cellarLimit, Code.cellarLimit, g.clim.extractLsb' 0 32 ++ BitVec.ofNat 32 a, none⟩
    else
      let va := (g.cbase + BitVec.ofNat 64 ((a * 32 + l) * 4)).toNat
      match gm va 4 with
      | .error e => .error e
      | .ok (t, _) =>
        if n = 8 then
          match gm (va + 128) 4 with
          | .error e => .error e
          | .ok (t2, _) =>
            .ok ⟨l, [⟨va, t.pa va, 4⟩, ⟨va + 128, t2.pa (va + 128), 4⟩], false, [(va, t), (va + 128, t2)]⟩
        else .ok ⟨l, [⟨va, t.pa va, 4⟩], false, [(va, t)]⟩

/-- All acting lanes are checked; the fault that R271 ranks first, its lanes and the detail of the
lowest of them. -/
def resolveAll (m : Mask) (f : Nat → Except LaneErr LaneAcc) :
    Except LaneFault (List LaneAcc) :=
  let rs := m.lanes.map fun l => (l, f l)
  let errs := rs.filterMap fun r => match r.2 with
    | .error e => some (r.1, e)
    | .ok _ => none
  match errs.foldl (fun (best : Option (Nat × LaneErr)) e =>
      match best with
      | none => some e
      | some b => if e.2.rank < b.2.rank then some e else some b) none with
  | none => .ok (rs.filterMap fun r => match r.2 with
    | .ok a => some a
    | .error _ => none)
  | some (_, e) =>
    let mine := errs.filter fun x => x.2.kind = e.kind
    .error { kind := e.kind, lanes := Mask.ofFn (fun l => mine.any fun x => x.1 = l), detail := e.detail,
             bad := if e.kind = Code.uncorrectable then (mine.filterMap fun x => x.2.bad).eraseDups else [] }

/-- The carrel keeps the translations of the accesses (R138). -/
def State.keepAll (s : State) (accs : List LaneAcc) : State :=
  accs.foldl (fun s a => a.trans.foldl (fun s t => s.keep (.carrel s.gang.carrel) t.1 t.2) s) s

/-- The sector accesses of an instruction: distinct 128-byte sectors (R16); of the pairs of words of a cellar access,
two for each distinct index (R333). -/
def sectorCount (spc : Space) (accs : List LaneAcc) : Nat :=
  let sectors (a : LaneAcc) : List Nat := a.pieces.map fun p => p.pa / 128
  if spc == .cl then ((accs.map sectors).eraseDups.map List.length).sum
  else ((accs.flatMap sectors).eraseDups).length

/-- The spaces whose lines an L1 holds (R120, R122), where its sector accesses count (R373). -/
def countedSpace (spc : Space) : Bool := spc == .gm || spc == .cl || spc == .cn

def cachedSpace (spc : Space) : Bool := spc == .gm || spc == .cl

/-- A load touches a sector: it is filled, with `.stream` only where the L1 holds it already (R123, R267). -/
def State.fillFor (s : State) (stream : Bool) (pa : Nat) : State :=
  let c := s.gang.carrel
  let x := (s.cacheOf (s.l1For c pa)).sector pa
  if stream && !x.valid && !x.dirty then s.fillL2 (galleryOf c) pa else s.fillL1 c pa

/-- Every sector that a load touches is filled (R123). -/
def State.fillAll (s : State) (spc : Space) (stream : Bool) (accs : List LaneAcc) : State :=
  let g := s.gang
  if cachedSpace spc then (accs.flatMap fun a => a.pieces).foldl (fun s p => s.fillFor stream p.pa) s
  else if spc == .cn && !stream then
    (accs.flatMap fun a => a.pieces).foldl (fun s p => s.fillConst g.carrel g.code (p.pa / 128)) s
  else s

/-- The carrel gives up its copies of what a waiting read was to read: it reads memory afresh (R75). -/
def State.expelAll (s : State) (spc : Space) (accs : List LaneAcc) : State :=
  if cachedSpace spc then
    (accs.flatMap fun a => a.pieces).foldl (fun s p => s.expel s.gang.carrel p.pa p.n true) s
  else s

/-- The bytes of a piece of lane l. -/
def State.readPiece (s : State) (spc : Space) (l : Nat) (p : Piece) : List Byte :=
  let g := s.gang
  match spc with
  | .gm | .cl => s.view g.carrel p.pa p.n
  | .sp => (s.carrelOf g.carrel).sp.read p.pa p.n
  | .lf => (s.carrelOf g.carrel).loft.read p.pa p.n
  | .fr => ((s.frameOf (g.task l).frame).bytes.drop p.pa).take p.n
  | .cn => ((s.consts g.code).drop p.pa).take p.n

def State.readAcc (s : State) (spc : Space) (a : LaneAcc) : List Byte :=
  a.pieces.flatMap fun p => s.readPiece spc a.lane p

/-- The bytes each piece of an access takes of the lane's data, with storage addresses. -/
def accWrites (a : LaneAcc) (data : List Byte) : List (Nat × Byte) :=
  let rec go (ps : List Piece) (d : List Byte) : List (Nat × Byte) :=
    match ps with
    | [] => []
    | p :: r => ((List.range p.n).zip (d.take p.n)).map (fun e => (p.pa + e.1, e.2)) ++ go r (d.drop p.n)
  go a.pieces data

/-- The same with the addresses that the store hash names (R178). -/
def accVirtual (a : LaneAcc) (data : List Byte) : List (Nat × Byte) :=
  accWrites { a with pieces := a.pieces.map fun p => { p with pa := p.va } } data

/-- Bytes 64 to 191 of a frame take stores (R34). -/
def Frame.store (f : Frame) (ws : List (Nat × Byte)) : Frame :=
  ws.foldl (fun f e => { f with args := f.args.setIfInBounds (e.1 - 64) e.2 }) f

/-- Bytes enter the scratchpad, in order. -/
def Carrel.writeSp (c : Carrel) (ws : List (Nat × Byte)) : Carrel :=
  { c with sp := ws.foldl (fun m e => m.setByte e.1 e.2) c.sp, spBad := rewrittenIn c.spBad ws }

/-- Perform the stores of all lanes in increasing lane order (R335): `data` gives the bytes of a lane. -/
def State.writeAccs (s : State) (spc : Space) (stream : Bool) (accs : List LaneAcc) (data : Nat → List Byte) : State :=
  let g := s.gang
  let ws := accs.flatMap fun a => accWrites a (data a.lane)
  match spc with
  | .gm | .cl => s.storeBytes g.carrel { cellar := spc == .cl, stream := stream } ws
  | .sp => s.modCarrelOf g.carrel fun c => c.writeSp ws
  | .fr => accs.foldl (fun s a => s.modFrameOf (g.task a.lane).frame fun f => f.store (accWrites a (data a.lane))) s
  | _ => s

/-- The granules of the accesses that lie on MOD pages, with their lanes (R53, R54). -/
def modGranules (accs : List LaneAcc) : List (Nat × Nat) :=
  (accs.filter (·.mod)).flatMap fun a => a.pieces.flatMap fun p =>
    (List.range ((p.va + p.n - 1) / 8 - p.va / 8 + 1)).map fun i => (a.lane, (p.va / 8 + i) * 8)

/-- The contents of MOD granules as the carrel sees them (R58). -/
def State.granules (s : State) (accs : List LaneAcc) : List (Nat × Nat × List Byte) :=
  (accs.filter (·.mod)).flatMap fun a => a.pieces.flatMap fun p =>
    (List.range ((p.va + p.n - 1) / 8 - p.va / 8 + 1)).map fun i =>
      let off := (p.va / 8 + i) * 8
      (a.lane, off, s.view s.gang.carrel (p.pa / 8 * 8 + i * 8) 8)

/-! Results in flight (R17, R93). -/

/-- Mark a destination empty with a producer. -/
def Gang.markEmpty (g : Gang) (m : Mask) (o : Operand) (wide : Bool) : Gang :=
  let one (g : Gang) (i : BitVec 8) : Gang :=
    { g.setWEmpty i (g.wEmpty i ||| m) with wo := g.wo.set i.toNat (g.wo[i.toNat] &&& ~~~m) }
  match o with
  | .w i => if wide then one (one g i) (i + 1) else one g i
  | .s i => g.setSEmpty i true
  | _ => g

/-- A result is on its way: the destination is empty until LOAD_RETURN fills it. -/
def Gang.launch (g : Gang) (f : Flight) : Gang :=
  let g1 := match f.dst with
    | .w i =>
      (List.range f.vals.length).foldl (fun (g : Gang) k => g.markEmpty f.mask (.w (i + BitVec.ofNat 8 k)) false) g
    | o => g.markEmpty f.mask o false
  { g1 with flights := g1.flights ++ [f] }

/-- The w registers of a result from per-lane 32-bit words. -/
def flightLanes (n : Nat) (f : Nat → Nat → Word) : List Lanes :=
  (List.range n).map fun k => Vector.ofFn fun (l : Fin 32) => f k l

/-- The k-th 32-bit word of a lane's bytes. -/
def wordAt (bs : List Byte) (k : Nat) : Word := BitVec.ofNat 32 (bytesToNat ((bs.drop (4 * k)).take 4))

/-- The value of a loaded lane: zero- or sign-extended to 32 bits when narrower (R335). -/
def loadWords (bs : List Byte) (ext : Bool) (k : Nat) : Word :=
  if bs.length < 4 && ext then BitVec.ofInt 32 (extendOp (bytesToNat bs) (8 * bs.length) true)
  else wordAt bs k

end Sys2Proof.Machine
end

