-- ==== Sys2Proof/Machine/Memory.lean ====
section
/-! DEFINITION. Ordinary accesses (R332 to R338) and label accesses (R347, R348). -/

namespace Sys2Proof.Machine

open Sys2Proof

/-- The sources of an M word (R91): sbase always blocks. -/
def mSrcs (x : MFmt) (sb : Bool) (wideData : Bool) (m : Mask) : List Src :=
  (if sb then [⟨.s x.sbase, false, 0, false, m⟩] else []) ++
    [⟨x.idx, x.fe.getLsbD 1, 0, false, m⟩, ⟨x.data, x.fe.getLsbD 0, 1, wideData, m⟩]

/-- The field rules that every M page shares (R267, R332, R333, R91). -/
def mFieldsOk (g : Gang) (x : MFmt) (spc : Space) : Bool :=
  !x.rsv && x.hint.toNat ≠ 3 && feOk (x.fe.getLsbD 1) x.idx && feOk (x.fe.getLsbD 0) x.data
    && (match x.idx with
        | .w i => decide (i.toNat < g.regs)
        | .s _ => true
        | .absent => true
        | _ => false)
    && (match spc with
        | .fr | .cn => x.sbase == 0
        | .cl => x.sbase == 0 && x.scale == 0 && x.off == 0 && (match x.idx with | .w _ => true | _ => false)
        | _ => true)

def readsBase (spc : Space) : Bool := spc == .gm || spc == .sp || spc == .lf

/-- A quad w(4i) to w(4i+3) within the allocation (R333). -/
def quadOk (g : Gang) (o : Operand) : Bool :=
  match o with
  | .w i => i.toNat % 4 = 0 && i.toNat + 3 < g.regs
  | _ => false

/-- A store operand (R333, R339): w, s or immediate; a pair or s at 64 bits. -/
def storeDataOk (g : Gang) (wide : Bool) (o : Operand) : Bool :=
  match o with
  | .w i => wOk g wide i
  | .s _ => true
  | .imm _ => !wide
  | _ => false

/-- The bytes of lane l of a store operand of n bytes. -/
def storeData (s : State) (o : Operand) (n l : Nat) : List Byte :=
  let g := s.gang
  if n = 16 then
    match o with
    | .w i => (List.range 4).flatMap fun k => natToBytes 4 ((g.wReg (i + BitVec.ofNat 8 k)).at l).toNat
    | _ => natToBytes 16 0
  else natToBytes n (readLane s (if n = 8 then 0x1D else 0x1C) 0 o l).toNat

/-- A load of n bytes per lane: the checks, the trace records, the fills, the result in flight
(R334 to R337). -/
def loadAct (s : State) (x : MFmt) (spc : Space) (n : Nat) (m : Mask) : Result :=
  let g := s.gang
  match resolveAll m fun l => resolveLane s spc n Need.load true l (mAddr g x spc l) with
  | .error e => raiseLanes s m e
  | .ok accs =>
    match traceReads s g (modGranules accs) with
    | .wait => .next s.holdRead
    | .fault k l => raiseFault s k m l 0
    | .ok s1 =>
      let s1 := s1.keepAll accs
      let s2 := (if g.path.reread then s1.expelAll spc accs else s1).fillAll spc (x.hint.toNat = 1) accs
      let s3 := if countedSpace spc then s2.count g.carrel 4 (sectorCount spc accs) else s2
      let bytes (l : Nat) : List Byte :=
        match accs.find? fun a => a.lane = l with
        | some a => s3.readAcc spc a
        | none => []
      let f : Flight :=
        { dst := x.hdr.d, mask := m, sval := 0, replay := false, pc := s.pc, younger := g.younger, cycle := s.cycleOf g.carrel,
          vals := flightLanes ((n + 3) / 4) (fun k l => loadWords (bytes l) x.ext k),
          req := .load spc n x.ext (accs.map fun a => (a.lane, (a.pieces.map (·.va)).headD 0)) }
      .next ((s3.modGang fun g => g.launch f).advance x.hdr)

/-- LD (R333, R335). -/
def execLd (x : MFmt) (s : State) : Result :=
  let g := s.gang
  let spc := (Space.ofBits x.space).getD .gm
  let n := mWidth x.width
  let legal := (Space.ofBits x.space).isSome && x.width.toNat ≤ 3 && mFieldsOk g x spc
    && x.data == .absent && (!x.ext || n < 4) && (spc != .cl || 4 ≤ n)
    && (match x.hdr.d with
        | .w i => wOk g (n = 8) i
        | .q _ => g.isShadow && n ≤ 4
        | _ => false)
  issue s x.hdr .lane legal [(x.hdr.d, n = 8)] (mSrcs x (readsBase spc) false) fun m => loadAct s x spc n m

/-- LDV (R333, R337). -/
def execLdv (x : MFmt) (s : State) : Result :=
  let g := s.gang
  let spc := (Space.ofBits x.space).getD .gm
  let legal := (Space.ofBits x.space).isSome && spc != .cl && x.width.toNat = 4 && mFieldsOk g x spc
    && x.data == .absent && !x.ext && quadOk g x.hdr.d
  let up (o : Operand) : Operand := match o with
    | .w i => .w (i + 2)
    | o => o
  issue s x.hdr .lane legal [(x.hdr.d, true), (up x.hdr.d, true)] (mSrcs x (readsBase spc) false)
    fun m => loadAct s x spc 16 m

/-- A partial store to an absent sector fills it first, and that read may meet an error (R123,
R146): the sectors where it does. -/
def storeFillBad (s : State) (ws : List (Nat × Byte)) : List Nat :=
  (((ws.map fun e => e.1 / 128 * 128).eraseDups).filter fun base =>
    !((s.cacheOf (s.l1For s.gang.carrel base)).sector base).dirty && s.fillBad s.gang.carrel base
      && !((List.range 128).all fun i => ws.any fun f => f.1 = base + i))

/-- The lanes of accesses that touch a unit of n bytes at one of these addresses. -/
def lanesAt (accs : List LaneAcc) (bases : List Nat) (n : Nat) : Mask :=
  Mask.ofFn fun l => accs.any fun a => a.lane = l && a.pieces.any fun p =>
    bases.any fun b => p.pa < b + n && b < p.pa + p.n

/-- The store hash of each lane's task folds what the lane has written (R178). -/
def Gang.foldStores (g : Gang) (sp : Bool) (accs : List LaneAcc) (data : Nat → List Byte) : Gang :=
  accs.foldl (fun g a =>
    let g1 := g.task a.lane
    { g1 with hash := foldLane g1.hash sp (accVirtual a (data a.lane)) }) g

/-- A store of n bytes per lane (R334, R335, R337, R178). -/
def storeAct (s : State) (x : MFmt) (spc : Space) (n : Nat) (m : Mask) : Result :=
  let g := s.gang
  match resolveAll m fun l => resolveLane s spc n Need.store true l (mAddr g x spc l) with
  | .error e => raiseLanes s m e
  | .ok accs =>
    let ws := accs.flatMap fun a => accWrites a (storeData s x.data n a.lane)
    if cachedSpace spc && !(storeFillBad s ws).isEmpty then
      let bad := storeFillBad s ws
      raiseLanes s m { kind := Code.uncorrectable, lanes := lanesAt accs bad 128, detail := 0,
                       bad := bad.map fun b => s.badBlock b 128 }
    else
      match traceWrites s g (modGranules accs) with
      | .wait => .next s.hold
      | .fault k l => raiseFault s k m l 0
      | .ok s1 =>
        let s2 := s1.keepAll accs
        let s3 := s2.writeAccs spc (x.hint.toNat = 1) accs (storeData s x.data n)
        let s4 := if cachedSpace spc then s3.count g.carrel 4 (sectorCount spc accs) else s3
        let s5 := traceCompare s4 g (s2.granules accs) (s4.granules accs)
        let s6 := if spc == .fr then s5
          else s5.modGang fun g => g.foldStores (spc == .sp) accs (storeData s x.data n)
        .next (s6.advance x.hdr)

/-- ST (R333, R335); in a shadow gang ILLEGAL-OP (R51). -/
def execSt (x : MFmt) (s : State) : Result :=
  let g := s.gang
  let spc := (Space.ofBits x.space).getD .gm
  let n := mWidth x.width
  let legal := (Space.ofBits x.space).isSome && spc != .lf && spc != .cn && x.width.toNat ≤ 3
    && mFieldsOk g x spc && x.hdr.d == .absent && !x.ext && (spc != .cl || 4 ≤ n)
    && storeDataOk g (n = 8) x.data && !g.isShadow
  issue s x.hdr .lane legal [] (mSrcs x (readsBase spc) (n = 8)) fun m => storeAct s x spc n m

/-- STV (R333, R337). -/
def execStv (x : MFmt) (s : State) : Result :=
  let g := s.gang
  let spc := (Space.ofBits x.space).getD .gm
  let legal := (spc == .gm || spc == .sp) && (Space.ofBits x.space).isSome && x.width.toNat = 4
    && mFieldsOk g x spc && x.hdr.d == .absent && !x.ext && quadOk g x.data && !g.isShadow
  let quad (m : Mask) : List Src := match x.data with
    | .w i => [⟨.w i, x.fe.getLsbD 0, 1, true, m⟩, ⟨.w (i + 2), x.fe.getLsbD 0, 1, true, m⟩]
    | _ => []
  issue s x.hdr .lane legal [] (fun m => mSrcs x (readsBase spc) false m ++ quad m)
    fun m => storeAct s x spc 16 m

/-- PREF (R338): each lane's sector enters the L1 (with `.stream` the L2 only); a lane that would
fault does nothing. -/
def execPref (x : MFmt) (s : State) : Result :=
  let g := s.gang
  let legal := x.space == 0 && x.width == 0 && mFieldsOk g x .gm && x.hdr.d == .absent
    && x.data == .absent && !x.ext
  issue s x.hdr .lane legal [] (mSrcs x true false) fun m =>
    let s1 := m.lanes.foldl (fun s l =>
      match resolveLane s .gm 1 Need.load false l (mAddr g x .gm l) with
      | .error _ => s
      | .ok a => a.pieces.foldl (fun s p =>
          let s := s.keepAll [a]
          if x.hint.toNat = 1 then
            (if ((s.cacheOf (s.l1For g.carrel p.pa)).sector p.pa).valid then s
             else s.fillL2 (galleryOf g.carrel) p.pa)
          else s.fillL1 g.carrel p.pa) s) s
    .next (s1.advance x.hdr)

/-- A stored label as a lane reads it (R347). -/
def State.labelAt (s : State) (spc : Space) (p : Piece) : Label :=
  let g := s.gang
  match spc with
  | .sp => (s.carrelOf g.carrel).sp.label (p.pa / 64)
  | .lf => (s.carrelOf g.carrel).loft.label (p.pa / 64)
  | _ => s.viewLabel g.carrel p.pa

/-- LDLBL (R333, R347). -/
def execLdlbl (x : MFmt) (s : State) : Result :=
  let g := s.gang
  let spc := (Space.ofBits x.space).getD .gm
  let legal := (spc == .gm || spc == .sp || spc == .lf) && (Space.ofBits x.space).isSome
    && x.width.toNat = 1 && mFieldsOk g x spc && x.hint == 0 && x.data == .absent && !x.ext
    && dstOk .lane g false x.hdr.d
  issue s x.hdr .lane legal [(x.hdr.d, false)] (mSrcs x true false) fun m =>
    match resolveAll m fun l => resolveLane s spc 1 Need.load false l (mAddr g x spc l) with
    | .error e => raiseLanes s m e
    | .ok accs =>
      let s1 := s.keepAll accs
      let s2 := (accs.foldl (fun s a => a.pieces.foldl (fun s p =>
        if spc == .gm then s.fillL1 g.carrel p.pa else s) s) s1).count g.carrel 4
          (if spc == .gm then sectorCount spc accs else 0)
      let lab (l : Nat) : Word :=
        match accs.find? fun a => a.lane = l with
        | some a => (s2.labelAt spc (a.pieces.headD ⟨0, 0, 1⟩)).setWidth 32
        | none => 0
      let f : Flight :=
        { dst := x.hdr.d, mask := m, sval := 0, replay := false, vals := flightLanes 1 (fun _ l => lab l),
          pc := s.pc, younger := g.younger, cycle := s.cycleOf g.carrel,
          req := .label spc (accs.map fun a => (a.lane, (a.pieces.map (·.va)).headD 0)) }
      .next ((s2.modGang fun g => g.launch f).advance x.hdr)

/-- One lane's STLBL: the carrel's dirty bytes of the block go out, its L1 copy is invalidated, the
block is rewritten under the new label in one action (R348). -/
def State.setLabelAt (s : State) (spc : Space) (p : Piece) (lab : Label) : State :=
  let g := s.gang
  match spc with
  | .sp => s.modCarrelOf g.carrel fun c => { c with sp := c.sp.setLabel (p.pa / 64) lab }
  | _ =>
    let base := p.pa / 64 * 64
    let s1 := s.expel g.carrel base 64 false
    let l1 := s1.l1For g.carrel base
    let s2 := s1.setCacheOf l1 ((s1.cacheOf l1).modLine (base / 256) fun l =>
      l.setSector (base / 128 % 2) (l.sector (base / 128 % 2)).invalidate)
    s2.homeLabelWrite base lab (s2.homeRead base 64)

/-- STLBL (R333, R348). -/
def execStlbl (x : MFmt) (s : State) : Result :=
  let g := s.gang
  let spc := (Space.ofBits x.space).getD .gm
  let legal := (spc == .gm || spc == .sp) && (Space.ofBits x.space).isSome && x.width.toNat = 1
    && mFieldsOk g x spc && x.hint == 0 && x.hdr.d == .absent && !x.ext && !g.isShadow
    && (match x.data with
        | .w i => decide (i.toNat < g.regs)
        | .s _ => true
        | _ => false)
  issue s x.hdr .lane legal [] (mSrcs x true false) fun m =>
    let one (l : Nat) : Except LaneErr LaneAcc :=
      let a := mAddr g x spc l
      match resolveLane s spc 1 Need.store false l a with
      | .error e => .error e
      | .ok acc =>
        if acc.mod && s.traceLive then .error (laneErr Code.protection a) else .ok acc
    match resolveAll m one with
    | .error e => raiseLanes s m e
    | .ok accs =>
      let bad := ((accs.flatMap fun a => a.pieces.map fun p => p.pa / 64 * 64).eraseDups).filter fun b => blockBad s b 64
      if spc == .gm && !bad.isEmpty then
        raiseLanes s m { kind := Code.uncorrectable, lanes := lanesAt accs bad 64, detail := 0, bad := bad }
      else
        let s2 := accs.foldl (fun s2 a => a.pieces.foldl (fun s2 p =>
          s2.setLabelAt spc p ((readLane s 0x1C 0 x.data a.lane).extractLsb' 0 16)) s2) (s.keepAll accs)
        .next (s2.advance x.hdr)

end Sys2Proof.Machine
end

