-- ==== Sys2Proof/Machine/Strong.lean ====
section
/-! DEFINITION. Strong accesses (R339 to R345): LDX, STX, ATOM and MWAIT, performed lane by lane at the
home slice, with the MWAIT timeout (R21, R344) and the store hash words (R179). -/

namespace Sys2Proof.Machine

open Sys2Proof

/-- Bytes of an MS width code (R268); 0 for an unassigned one. -/
def msWidth (w : BitVec 2) : Nat :=
  match w.toNat with
  | 0 => 4 | 1 => 8
  | _ => 0

/-- The address of lane l (R339). -/
def msAddr (g : Gang) (x : MSFmt) (l : Nat) : Nat :=
  (g.sReg x.sbase + idxValue g x.idx l * BitVec.ofNat 64 (msWidth x.width)).toNat

def msSrcs (x : MSFmt) (m : Mask) : List Src :=
  let wide := x.width.toNat = 1
  [⟨.s x.sbase, false, 0, false, m⟩, ⟨x.idx, x.fe.getLsbD 2, 0, false, m⟩,
   ⟨x.data, x.fe.getLsbD 1, 1, wide, m⟩, ⟨x.data2, x.fe.getLsbD 0, 2, wide, m⟩]

/-- The field rules every strong page shares (R265, R268, R332, R339, R51). -/
def msFieldsOk (g : Gang) (x : MSFmt) : Bool :=
  x.rsv == 0 && x.width.toNat ≤ 1 && !g.isShadow
    && feOk (x.fe.getLsbD 2) x.idx && feOk (x.fe.getLsbD 1) x.data && feOk (x.fe.getLsbD 0) x.data2
    && (match x.idx with
        | .w i => decide (i.toNat < g.regs)
        | .s _ => true
        | .absent => true
        | _ => false)

/-- The classes of a strong access (R173), by their bits in an observer mask. -/
inductive Observer where
  | tasks | engines | arrays | peers | host
deriving DecidableEq, Repr

def Observer.bit (o : Observer) : Nat :=
  match o with
  | .tasks => 0
  | .engines => 1
  | .arrays => 2
  | .peers => 3
  | .host => 4

/-- The observer mask of a strong instruction: its field, or OBSDEF where that is 0 (R173). -/
def Gang.observers (g : Gang) (x : MSFmt) : BitVec 5 := if x.obs = 0 then g.obsdef else x.obs

/-- A write with `pub` and a read with `sub` that returns its value form an so edge when each one's mask holds the
other's class (R173). The write-back and the acquire of R340 are performed whatever the masks: the package level
serves every one of them (R175). -/
def soEdge (writer reader : Observer) (wMask rMask : BitVec 5) (pub sub : Bool) : Bool :=
  pub && sub && wMask.getLsbD reader.bit && rMask.getLsbD writer.bit

/-- What one lane of a strong instruction does to its word: the new value, none where nothing is
written. -/
abbrev StrongFn := Nat → Nat → Option Nat

/-- The new value of an ATOM (R342): old value, operand, second operand, width in bits. -/
def atomNew (op : Nat) (noData : Bool) (w old v n : Nat) : Option Nat :=
  let sg (x : Nat) : Int := extendOp x w true
  match op with
  | 0x00 => some ((old + v) % 2 ^ w)
  | 0x01 => some (if sg v < sg old then v else old)
  | 0x02 => some (if sg old < sg v then v else old)
  | 0x03 => some (min old v)
  | 0x04 => some (max old v)
  | 0x05 => some (Nat.land old v)
  | 0x06 => some (Nat.lor old v)
  | 0x07 => some (Nat.xor old v)
  | 0x08 => some v
  | 0x09 => if old = v then some n else none
  | _ => some (if noData then (old + 1) % 2 ^ w else if v ≤ old then 0 else old + 1)

/-- The strong lanes of an instruction so far. -/
inductive StrongOut where
  | ok (s : State)
  /-- Held at an order gate (R160). -/
  | held (s : State)
  /-- A fault in this lane; the lanes below it stay performed (R345). -/
  | fault (s : State) (kind : BitVec 8) (lane : Nat)
deriving Repr

/-- The k-th atomic record of the segment that re-executes (R83). -/
def atomicRecord (s : State) (k : Nat) : Option Record :=
  let g := s.gang
  (((s.traceOf g.trace).folio g.folio).records.filter fun r => match r with
    | .atomic _ _ _ => true
    | _ => false)[k]?

/-- The task of lane l of a packed gang stands in the gang's own fields (R33). -/
def State.frontLane (s : State) (l : Nat) : State := s.modGang fun g => g.task l

/-- One lane of a strong instruction at the home slice (R340): the carrel's dirty bytes of the granule
go out, the word is read and perhaps written, the carrel's copies are invalidated. `atom` is the
operation code of an ATOM; `me` is the name under which a gate holds it, `fo` gives each lane's folio. -/
def strongLaneAs (me : Nat × Bool) (fo : Nat → Nat) (s0 : State) (acc : LaneAcc) (z : Nat) (atom : Option Nat)
    (f : StrongFn) : StrongOut :=
  let s := s0.frontLane acc.lane
  let g := { s.gang with folio := fo acc.lane }
  let p := acc.pieces.headD ⟨0, 0, z⟩
  let l := acc.lane
  if blockBad s (p.pa / 64 * 64) 64 then .fault (s.logError p.pa) Code.uncorrectable l
  else
    match s.gateAs me p.pa with
    | .held s1 => .held s1
    | .diverged => .fault s Code.replayDiverged l
    | .ok s1 =>
      let finish (s : State) (old : Nat) : State :=
        s.modPath fun q => { q with done := q.done ++ [(l, BitVec.ofNat 64 old)] }
      let record (s : State) (old : DWord) : State :=
        (s.addRecord g.trace g.folio (.atomic p.va (BitVec.ofNat 4 (atom.getD 0)) old)).modGang fun x =>
          { x with atoms := if x.folio = g.folio then x.atoms + 1 else x.atoms }
      let replaying := atom.isSome && !acc.mod && s.traced g && g.mode == .reexec
      if replaying then
        match atomicRecord s g.atoms with
        | some (.atomic a op v) =>
          if a = p.va && op.toNat = atom.getD 0 then
            .ok (finish (record s1 v) v.toNat)
          else .fault s Code.replayDiverged l
        | _ => .fault s Code.replayDiverged l
      else
        let s2 := s1.expel g.carrel (p.pa / 8 * 8) 8 true
        let old := s2.homeWord p.pa z
        let new := f l old
        let s3 := match new with
          | some v => s2.homeWrite p.pa (natToBytes z v)
          | none => s2
        let s4 := if acc.mod then
            traceCompare s3 g [(l, p.va / 8 * 8, s2.homeRead (p.pa / 8 * 8) 8)]
              [(l, p.va / 8 * 8, s3.homeRead (p.pa / 8 * 8) 8)]
          else s3
        .ok (finish (if atom.isSome && !acc.mod && s.traced g then record s4 (BitVec.ofNat 64 old) else s4) old)

/-- The hash after a strong instruction has retired (R178): what each lane wrote, and what an ATOM left, by the
old values of its completion log; in a packed gang each lane's task has its own. -/
def Gang.foldStrong (g : Gang) (z : Nat) (atom : Bool) (f : StrongFn) (done : List (Nat × DWord))
    (accs : List LaneAcc) : Gang :=
  accs.foldl (fun g a =>
    match done.find? fun e => e.1 = a.lane with
    | some (l, old) =>
      let new := f l old.toNat
      if atom || new.isSome then
        let g1 := g.task l
        { g1 with hash := foldLane g1.hash false (((List.range z).zip (natToBytes z (new.getD old.toNat))).map fun e =>
            ((a.pieces.headD ⟨0, 0, z⟩).va + e.1, e.2)) }
      else g
    | none => g) g

/-- Lane after lane in increasing order, past those already performed (R340, R345). -/
def strongLanesAs (me : Nat × Bool) (fo : Nat → Nat) (s : State) (z : Nat) (atom : Option Nat) (f : StrongFn) :
    List LaneAcc → StrongOut
  | [] => .ok s
  | a :: rest =>
    if s.gang.path.done.any (fun e => e.1 = a.lane) then strongLanesAs me fo s z atom f rest
    else
      match strongLaneAs me fo s a z atom f with
      | .ok s1 => strongLanesAs me fo s1 z atom f rest
      | o => o

/-- The folio of the segment of lane l's task. -/
def Gang.folioAt (g : Gang) (l : Nat) : Nat := (g.task l).folio

/-- A lane of the strong instruction at which the current path stands. -/
def strongLane (s : State) (acc : LaneAcc) (z : Nat) (atom : Option Nat) (f : StrongFn) : StrongOut :=
  strongLaneAs (s.cur, s.gang.younger) s.gang.folioAt s acc z atom f

/-- Its lanes. -/
def strongLanes (s : State) (z : Nat) (atom : Option Nat) (f : StrongFn) (accs : List LaneAcc) : StrongOut :=
  strongLanesAs (s.cur, s.gang.younger) s.gang.folioAt s z atom f accs

/-! What a strong instruction does to a lane's word, by its kind. -/

/-- The operation code of an ATOM. -/
def StrongKind.code (k : StrongKind) : Option Nat :=
  match k with
  | .atom op _ => some op
  | .load | .store => none

def StrongKind.fn (k : StrongKind) (z : Nat) (v n : Nat → Nat) : StrongFn := fun l old =>
  match k with
  | .load => none
  | .store => some (v l)
  | .atom op noData => atomNew op noData (8 * z) old (v l) (n l)

/-- The lanes' accesses with their operands, as they are kept with the translations that they were given (R138). -/
def heldLanes (g : Gang) (accs : List LaneAcc) (v n : Nat → Nat) : List HeldLane :=
  accs.map fun a =>
    let p := a.pieces.headD ⟨0, 0, 1⟩
    { lane := a.lane, va := p.va, pa := p.pa, mod := a.mod, folio := g.folioAt a.lane, data := v a.lane,
      data2 := n a.lane }

/-- The accesses of kept lanes, of z bytes each. -/
def keptAccs (z : Nat) (hs : List HeldLane) : List LaneAcc := hs.map fun e => ⟨e.lane, [⟨e.va, e.pa, z⟩], e.mod, []⟩

/-- What a kept lane holds of an operand. -/
def keptOperand (hs : List HeldLane) (sel : HeldLane → Nat) (l : Nat) : Nat := ((hs.find? (·.lane = l)).map sel).getD 0

/-- The results of a strong instruction's lanes, as w registers. -/
def doneLanes (k : Nat) (done : List (Nat × DWord)) : List Lanes :=
  let val (l : Nat) : DWord := ((done.find? fun e => e.1 = l).map (·.2)).getD 0
  flightLanes k fun k l => (val l).extractLsb' (32 * k) 32

/-- The lanes of a completion log. -/
def doneMask (done : List (Nat × DWord)) : Mask := Mask.ofFn fun l => done.any fun e => e.1 = l

/-- An order gate holds the instruction, or other accesses go before its next lane: it is a request of the gang
(R163), its destination is empty in the lanes that have not returned (R340) and the path goes on (R17). -/
def State.holdAccess (s : State) (x : MSFmt) (kind : StrongKind) (v n : Nat → Nat) (reads : Bool) (m : Mask)
    (accs : List LaneAcc) (due : Nat) : State :=
  let g := s.gang
  let z := msWidth x.width
  let done := g.path.done
  let back := doneMask done
  let h : HeldAcc := { kind := kind, width := z, sub := x.sub, due := due, lanes := heldLanes g accs v n, done := done }
  let flight (m : Mask) (req : Request) (done : List (Nat × DWord)) : Flight :=
    { dst := if reads then x.hdr.d else .absent, mask := m, sval := 0, replay := false, req := req,
      pc := s.pc, younger := g.younger, cycle := s.cycleOf g.carrel,
      vals := if reads then doneLanes (z / 4) done else [] }
  (s.modGang fun g =>
    let g1 := (g.modPath fun q => { q with done := [] }).launch (flight (m &&& ~~~back) (.strong h) [])
    if reads && back != 0 then g1.launch (flight back .done done) else g1).advance x.hdr

/-- The checks of a strong instruction's lanes (R339): its reads are performed at the home slice, so no fill
meets an error. -/
def strongReach (s : State) (x : MSFmt) (need : Need) (m : Mask) : Except LaneFault (List LaneAcc) :=
  resolveAll m fun l =>
    match resolveLane s .gm (msWidth x.width) { need with read := false } true l (msAddr s.gang x l) with
    | .error e => .error e
    | .ok a =>
      if a.trans.all (fun t => s.pageOk t.2 t.1 (need.of (msWidth x.width))) then .ok a
      else .error (laneErr Code.protection (msAddr s.gang x l))

/-- A strong instruction (R340): checks, `pub`, lanes, `sub`, results. Held at an order gate, it is a request of its
gang (log 103). Accesses of other tasks may stand between its lanes: a choice k lets them go first after the next k
lanes (R346), but not in a re-execution (log 78). -/
def strongAct (s : State) (x : MSFmt) (need : Need) (kind : StrongKind) (v n : Nat → Nat)
    (reads : Bool) (m : Mask) : Result :=
  let g := s.gang
  let z := msWidth x.width
  let atom := kind.code
  let f := kind.fn z v n
  match strongReach s x need m with
  | .error e => raiseLanes s m e
  | .ok accs =>
    let gs := modGranules accs
    match (if need.read then traceReads s g gs else .ok s) with
    | .wait => .next s.holdRead
    | .fault k l => raiseFault s k m l 0
    | .ok s1 =>
      match (if need.write then traceWrites s1 g gs else .ok s1) with
      | .wait => .next s.hold
      | .fault k l => raiseFault s k m l 0
      | .ok s2 =>
        let s3 := s2.keepAll accs
        let s4 := if x.pub && g.path.done.isEmpty then s3.release g.carrel levelPackage else s3
        let left := accs.filter fun a => !g.path.done.any fun e => e.1 = a.lane
        let replays := g.tasks.any fun t => s.traced t && t.mode == .reexec
        if 0 < s.choice && s.choice < left.length && !replays then
          match strongLanes s4 z atom f (left.take s.choice) with
          | .held s5 => .next (s5.chosen.holdAccess x kind v n reads m accs s.clock)
          | .ok s5 => .next (s5.chosen.holdAccess x kind v n reads m accs (s.clock + 1))
          | .fault s5 k l => raiseFault s5 k m (Mask.lane l) 0
        else
        match strongLanes s4 z atom f accs with
        | .held s5 => .next (s5.holdAccess x kind v n reads m accs s.clock)
        | .fault s5 k l => raiseFault s5 k m (Mask.lane l) 0
        | .ok s5 =>
          let done := s5.gang.path.done
          let s6 := if x.sub then s5.acquire g.carrel 2 else s5
          let s7 := s6.modGang fun g =>
            let g1 := (g.modPath fun q => { q with done := [] }).foldStrong z atom.isSome f done accs
            if reads then g1.launch
              { dst := x.hdr.d, mask := m, sval := 0, replay := false, req := .done, pc := s.pc, younger := g.younger, cycle := s.cycleOf g.carrel,
                vals := doneLanes (z / 4) done }
            else g1
          .next (s7.advance x.hdr)

/-- LDX (R339, R341). -/
def execLdx (x : MSFmt) (s : State) : Result :=
  let wide := x.width.toNat = 1
  let legal := msFieldsOk s.gang x && x.op == 0 && x.data == .absent && x.data2 == .absent
    && dstOk .lane s.gang wide x.hdr.d
  issue s x.hdr .lane legal [(x.hdr.d, wide)] (msSrcs x) fun m =>
    strongAct s x Need.load .load (fun _ => 0) (fun _ => 0) true m

/-- STX (R339, R341). -/
def execStx (x : MSFmt) (s : State) : Result :=
  let wide := x.width.toNat = 1
  let z := msWidth x.width
  let legal := msFieldsOk s.gang x && x.op == 0 && x.hdr.d == .absent && x.data2 == .absent
    && storeDataOk s.gang wide x.data
  issue s x.hdr .lane legal [] (msSrcs x) fun m =>
    strongAct s x Need.store .store (fun l => bytesToNat (storeData s x.data z l)) (fun _ => 0) false m

/-- ATOM (R339, R342). -/
def execAtom (x : MSFmt) (s : State) : Result :=
  let wide := x.width.toNat = 1
  let z := msWidth x.width
  let cas := x.op.toNat = 0x09
  let legal := msFieldsOk s.gang x && x.op.toNat ≤ 0x0A
    && (x.hdr.d == .absent || dstOk .lane s.gang wide x.hdr.d)
    && (storeDataOk s.gang wide x.data || (x.data == .absent && x.op.toNat = 0x0A))
    && (if cas then storeDataOk s.gang wide x.data2 else x.data2 == .absent)
  issue s x.hdr .lane legal [(x.hdr.d, wide)] (msSrcs x) fun m =>
    strongAct s x Need.both (.atom x.op.toNat (x.data == .absent)) (fun l => bytesToNat (storeData s x.data z l))
      (fun l => bytesToNat (storeData s x.data2 z l)) (x.hdr.d != .absent) m

/-! MWAIT (R21, R343, R344). -/

/-- The watches of the current path. -/
def State.myWatches (s : State) : List Watch :=
  s.ctx.watches.filter fun w => w.gang = s.cur && w.younger = s.gang.younger

def State.dropWatches (s : State) : State :=
  { s with ctx := { s.ctx with
      watches := s.ctx.watches.filter fun w => !(w.gang = s.cur && w.younger = s.gang.younger) } }

/-- The lanes in which a w register (or pair) takes a watch's value. -/
def Gang.writeMet (g : Gang) (ws : List Watch) (d : Operand) (z : Nat) : Gang :=
  match d with
  | .w i =>
    let m := Mask.ofFn fun l => ws.any fun w => w.lane = l && w.met.isSome
    g.writeLanes m i (8 * z) fun l =>
      match ws.find? fun w => w.lane = l with
      | some w => w.met.getD 0
      | none => 0
  | _ => g

/-- Set the watches of the lanes that have none yet: each lane reads its word and compares it as one
action at the slice. With a timeout of 0 that is the only test (R344): the watch is not armed. -/
def setWatches (s0 : State) (cond : BitVec 5) (z : Nat) (armed : Bool) : List HeldLane → StrongOut
  | [] => .ok s0
  | a :: rest =>
    let s := s0.frontLane a.lane
    let g := s.gang
    if s.myWatches.any fun w => w.lane = a.lane then setWatches s cond z armed rest
    else if blockBad s (a.pa / 64 * 64) 64 then .fault (s.logError a.pa) Code.uncorrectable a.lane
    else
      match s.gate a.pa with
      | .held s1 => .held s1
      | .diverged => .fault s Code.replayDiverged a.lane
      | .ok s1 =>
        let s2 := s1.expel g.carrel (a.pa / 8 * 8) 8 true
        let v := s2.homeWord a.pa z
        let w : Watch :=
          { gang := s.cur, younger := g.younger, lane := a.lane, va := a.va, pa := a.pa, size := z, mod := a.mod, cond := cond,
            cmp := BitVec.ofNat 64 a.data, armed := armed,
            met := if mwaitHolds cond v a.data then some (BitVec.ofNat 64 v) else none }
        setWatches { s2 with ctx := { s2.ctx with watches := s2.ctx.watches ++ [w] } } cond z armed rest

/-- The lanes in which the current path has set watches. -/
def State.watched (s : State) : Mask := Mask.ofFn fun l => s.myWatches.any fun w => w.lane = l

/-- The modifiable granules that the path's watches stand on, with their lanes (R54). -/
def watchGranules (ws : List Watch) : List (Nat × Nat) := (ws.filter (·.mod)).map fun w => (w.lane, w.va / 8 * 8)

/-- Every lane's condition has held. -/
def State.allMet (s : State) : Bool :=
  s.gang.path.reach.all fun a => s.myWatches.any fun w => w.lane = a.lane && w.met.isSome

/-- CYCLE at the issue of the MWAIT at which the current path stands (R114). -/
def State.mwaitCycle (s : State) : Nat := (s.gang.path.began.map (·.2)).getD (s.cycleOf s.gang.carrel)

/-- A fault of the MWAIT at which the current path stands: its record gives CYCLE at its issue (R114). -/
def mwaitFault (s : State) (k : BitVec 8) (acting offending : Mask) : Result :=
  .next (s.assertHalt { s.carrelFault k acting offending 0 with cycle := s.mwaitCycle })

/-- The path's watches read their words afresh (R75). -/
def State.remeet (s : State) : State :=
  let again (w : Watch) : Watch :=
    if w.gang = s.cur && w.younger = s.gang.younger then
      let v := s.homeWord w.pa w.size
      { w with met := if mwaitHolds w.cond v (w.cmp.toNat % 2 ^ (8 * w.size)) then some (BitVec.ofNat 64 v) else none }
    else w
  { s with ctx := { s.ctx with watches := s.ctx.watches.map again } }

/-- Every lane's condition has held: its value is written, and the path goes on (R343). A wait for a segment
ahead reads the words afresh, and waits on where one no longer holds (R75). -/
def mwaitComplete (s : State) (x : MSFmt) : Result :=
  let g := s.gang
  match traceReads s g (watchGranules s.myWatches) with
  | .wait => .next s.holdRead
  | .fault k l => mwaitFault s k s.watched l
  | .ok s1 =>
    let s2 := if g.path.reread then s1.remeet else s1
    if s2.allMet then
      let ws := s2.myWatches
      .next (((s2.dropWatches.modGang fun g =>
        (g.writeMet ws x.hdr.d (msWidth x.width)).modPath fun p => { p with wait := .none })).advance x.hdr)
    else .next ((s.remeet.modPath fun p => { p with reread := false }).hold)

/-- The lanes of an MWAIT's access (R339); a block's error stands in the way of its own lane alone (R345). -/
def mwaitLanes (s : State) (x : MSFmt) (m : Mask) : Except LaneFault (List LaneAcc) := strongReach s x Need.load m

/-- The budget of an MWAIT (R344). -/
def mwaitBudget (s : State) (x : MSFmt) : Option Nat :=
  match x.data2 with
  | .absent => none
  | o => some (readLane s 0x1D 0 o 0).toNat

/-- The path begins to stand at its MWAIT with the budget `b` (R21): its destination is empty, its lanes are kept. -/
def State.beginMwait (s : State) (x : MSFmt) (m : Mask) (b : Option Nat) (hs : List HeldLane) : State :=
  let wide := x.width.toNat = 1
  let cycle := s.cycleOf s.gang.carrel
  s.issuedOne.modGang fun g =>
    ((g.markEmpty m x.hdr.d wide).waits).modPath fun p =>
      { p with wait := .mwait s.clock b x.hdr.d wide cycle, reach := hs, began := some (s.clock, cycle) }

/-- MWAIT (R339, R343): the first issue sets the watches and empties the destination; the path then
stands here until every watch is set and met. -/
def execMwait (x : MSFmt) (s : State) : Result :=
  let g := s.gang
  let wide := x.width.toNat = 1
  let z := msWidth x.width
  let legal := msFieldsOk g x && x.op.toNat ≤ 5 && x.obs == 0 && !x.pub && !x.sub
    && dstOk .lane g wide x.hdr.d && storeDataOk g wide x.data
    && (match x.data2 with
        | .s _ | .imm _ | .absent => true
        | _ => false)
  match g.path.wait with
  | .mwait _ b _ _ _ =>
    match setWatches s x.op z (b != some 0) g.path.reach with
    | .held s1 => .next s1.hold
    | .fault s1 k l => mwaitFault s1 k (Mask.ofFn fun i => g.path.reach.any fun a => a.lane = i) (Mask.lane l)
    | .ok s1 => if s1.allMet then mwaitComplete s1 x else .next s1.hold
  | _ =>
    issue s x.hdr .lane legal [(x.hdr.d, wide)] (msSrcs x) fun m =>
      match mwaitLanes s x m with
      | .error e => raiseLanes s m e
      | .ok accs =>
        let b := mwaitBudget s x
        let hs := heldLanes g accs (fun l => bytesToNat (storeData s x.data z l)) (fun _ => 0)
        match setWatches (s.keepAll accs) x.op z (b != some 0) hs with
        | .held s1 => .next (s1.beginMwait x m b hs).tick
        | .fault s1 k l => raiseFault s1 k m (Mask.lane l) 0
        | .ok s1 =>
          let s2 := s1.modPath fun p => { p with reach := hs }
          if s2.allMet then
            match mwaitComplete s2 x with
            | .next t => if t.gang.path.reread && t.halt == s.halt then .next (t.beginMwait x m b hs) else .next t
            | r => r
          else .next (s1.beginMwait x m b hs).tick

/-- The lanes of a register, or of a pair, that an MWAIT leaves empty with no producer (R21, R344). -/
def Gang.orphan (g : Gang) (m : Mask) (d : Operand) (wide : Bool) : Gang :=
  match d with
  | .w i =>
    let g1 := { g with wo := g.wo.set i.toNat (g.wo[i.toNat] ||| m) }
    if wide then { g1 with wo := g1.wo.set (i + 1).toNat (g1.wo[(i + 1).toNat] ||| m) } else g1
  | _ => g

/-- The path is in the handler that runs (R141, R143). -/
def Gang.handles (g : Gang) (younger : Bool) : Bool :=
  g.inHandler && (!g.trapSplit || g.trapc.getLsbD 9 == younger)

/-- The event MWAIT_TIMEOUT (R21, R344, R143): the path's budget has passed and some lane's condition
has not held. -/
def execMwaitTimeout (gn : Nat) (younger : Bool) (s0 : State) : Result :=
  let s := { s0 with cur := gn }.modGang fun g => { g with younger := younger }
  let g := s.gang
  let ws := s.myWatches
  match (if younger then g.p1 else some g.p0) with
  | none => .refused (.notEnabled "MWAIT_TIMEOUT")
  | some p =>
    match p.wait with
    | .mwait start (some b) dst wide cycle =>
      if s.clock ≤ start + b || s.allMet || !g.resident || s.halt != .running then
        .refused (.notEnabled "MWAIT_TIMEOUT")
      else
        let unmet := Mask.ofFn fun l =>
          p.reach.any fun a => a.lane = l && !(ws.any fun w => w.lane = l && w.met.isSome)
        let s1 := s.dropWatches.modGang fun g =>
          ((g.writeMet ws dst (if wide then 8 else 4)).orphan unmet dst wide).modPath fun p =>
            { p.leaves p.pc with wait := .none }
        let t : TrapReq :=
          { cause := Trap.mwaitTimeout, detail := 0, lanes := p.xm, acting := p.xm, offending := unmet,
            younger := younger, ret := p.pc + 12, pc := p.pc, cycle := cycle }
        if g.inHandler then
          .next (s1.modGang fun g =>
            let g1 := { g with traps := g.traps ++ [t] }
            if g.handles younger then g1.modPath fun p => { p with pc := p.pc + 12 } else g1)
        else takeLateTrap s1 t
    | _ => .refused (.notEnabled "MWAIT_TIMEOUT")

/-- The trap held longest, taken at its path's first issue after the TRET (R143), not in the middle of a word of a
packed gang. -/
def State.heldTrap (s : State) : Option Result :=
  let g := s.gang
  match g.traps with
  | t :: rest =>
    if g.inHandler || t.younger != g.younger || g.path.acted != 0 then none
    else some (takeLateTrap (s.modGang fun g => { g with traps := rest }) t)
  | [] => none

/-! HASHRD and HASHCLR (R179): in a packed gang the hash is that of the task in the lowest lane of XM, and every
task in XM has its own cleared. -/

/-- What is done to each task of a packed gang whose lane is in XM, and to the task of any other gang. -/
def Gang.inXm (g : Gang) (f : Gang → Gang) : Gang :=
  if g.packed then g.xm.lanes.foldl (fun g l => if g.lanes.has l then f (g.task l) else g) g else f g

def hashFieldsOk (x : RRR) : Bool :=
  x.a == .absent && x.b == .absent && x.c == .absent && x.fe == 0 && x.mod == 0 && x.rsv == 0

def execHashrd (x : RRR) (s : State) : Result :=
  let legal := hashFieldsOk x && dstOk .gang s.gang false x.hdr.d
  issue s x.hdr .gang legal [(x.hdr.d, false)] (fun _ => []) fun m =>
    .next ((s.modGang fun g => g.writeDest m x.hdr.d 64 (fun _ => 0) (g.task g.lane0).hash).advance x.hdr)

def execHashclr (x : RRR) (s : State) : Result :=
  issue s x.hdr .gang (hashFieldsOk x && x.hdr.d == .absent) [] (fun _ => []) fun _ =>
    .next ((s.modGang fun g => g.inXm fun t => { t with hash := 0x243F6A8885A308D3 }).advance x.hdr)

/-! System registers (R372). -/

/-- The value of a readable system register of a carrel; none where the table lists no such number. -/
def State.sysValue (s : State) (carrel num : Nat) : Option DWord :=
  let c := s.carrelOf carrel
  if num = 0x0000 then some (0#44 ++ Config.stepping ++ 0x1224#16)
  else if num = 0x0001 then
    some (0#40 ++ s.ctx.gen ++ Config.partition ++ 0#2 ++ BitVec.ofNat 10 s.ctx.vi)
  else if num = 0x0002 then some s.pwings
  else if num = 0x0003 then some s.ctx.cstat
  else if num = 0x0004 then
    some (match s.ctx.grace with
      | some deadline => BitVec.ofNat 64 (1 + min (deadline - s.clock) 0xFFFF * 65536)
      | none => 0)
  else if 0x0010 ≤ num && num ≤ 0x0013 then some (c.pmsel.getD (num - 0x0010) 0)
  else if 0x0018 ≤ num && num ≤ 0x001B then some (c.pmcnt.getD (num - 0x0018) 0)
  else if num = 0x0020 then some s.ctx.dbgctl
  else none

/-! Results that return (R17, R150). -/

/-- A lane of a replayed load: a cellar word's address is virtual already. -/
def replayLane (s : State) (spc : Space) (n l a : Nat) : Except LaneErr LaneAcc :=
  let word (va : Nat) : Except LaneErr Nat :=
    match s.reach (.carrel s.gang.carrel) va (Need.load.of 4) with
    | .error e => .error (reachErr e va)
    | .ok t => if s.fillBad s.gang.carrel (t.pa va) then .error (laneBad (s.badBlock (t.pa va / 128 * 128) 128))
      else .ok (t.pa va)
  match spc with
  | .cl =>
    match word a, (if n = 8 then word (a + 128) else .ok 0) with
    | .error e, _ | _, .error e => .error e
    | .ok p, .ok q => .ok ⟨l, if n = 8 then [⟨a, p, 4⟩, ⟨a + 128, q, 4⟩] else [⟨a, p, 4⟩], false, []⟩
  | _ => resolveLane s spc n Need.load false l a

/-- The accesses of a load that is replayed after a halt (R150). -/
def replayAccs (s : State) (f : Flight) : Except LaneFault (List LaneAcc) :=
  let all (spc : Space) (n : Nat) (addrs : List (Nat × Nat)) : Except LaneFault (List LaneAcc) :=
    resolveAll (Mask.ofFn fun l => addrs.any fun e => e.1 = l) fun l =>
      replayLane s spc n l (((addrs.find? fun e => e.1 = l).map (·.2)).getD 0)
  match f.req with
  | .load spc n _ addrs => all spc n addrs
  | .label spc addrs => all spc 1 addrs
  | .done | .sysr _ _ _ | .strong _ => .ok []

/-- What the replay of a load meets (R146). -/
def replayFault (s : State) (f : Flight) : Option LaneFault :=
  match replayAccs s f with
  | .error e => some e
  | .ok _ => none

/-- An ordinary load replayed after a halt reads memory afresh (R150). -/
def replayed (s : State) (f : Flight) : Flight :=
  match replayAccs s f with
  | .error _ => f
  | .ok accs =>
    let mine {α : Type} (l : Nat) (g : LaneAcc → α) (old : α) : α := ((accs.find? fun a => a.lane = l).map g).getD old
    let old (k l : Nat) : Word := (f.vals.getD k (Lanes.all 0)).at l
    match f.req with
    | .load spc _ ext _ =>
      let word (k l : Nat) : Word := mine l (fun a => loadWords (s.readAcc spc a) ext k) (old k l)
      { f with vals := flightLanes f.vals.length word }
    | .label spc _ =>
      let word (k l : Nat) : Word := mine l (fun a => (s.labelAt spc (a.pieces.headD ⟨0, 0, 1⟩)).setWidth 32) (old k l)
      { f with vals := flightLanes f.vals.length word }
    | .done | .sysr _ _ _ | .strong _ => f

/-- The result as it arrives: a replayed load reads afresh (R150), a system register is read now (R374). -/
def arrived (s : State) (f : Flight) : Flight :=
  match f.req with
  | .sysr c num _ => { f with sval := (s.sysValue c num).getD 0 }
  | _ => if f.replay then replayed s f else f

/-- Write a result and make its destination full. -/
def Gang.landFlight (g : Gang) (f : Flight) : Gang :=
  match f.dst with
  | .w i =>
    (f.vals.foldl (fun (acc : Gang × Nat) v =>
      (acc.1.writeLanes f.mask (i + BitVec.ofNat 8 acc.2) 32 fun l => (v.at l).setWidth 64, acc.2 + 1))
      (g, 0)).1
  | .s i => (g.setS i f.sval).setSEmpty i false
  | .h i => (((if g.packed then g.task f.mask.lowest else g).setH i f.sval).setHEmpty i false).task g.front
  | _ => g

/-- A result of the current gang arrives; a shadow's load enters the FIFO it shares with its compute gang (R51,
R333, R335). -/
def State.land (s : State) (f : Flight) : State :=
  match f.dst with
  | .q i =>
    let n := s.gang.partner.getD 0
    s.setGangOf n ((s.gangOf n).qPush f.mask i fun l => (f.vals.getD 0 (Lanes.all 0)).at l)
  | _ => s.modGang fun g => g.landFlight f

/-! Accesses that an order gate holds (R160, R163). -/

def HeldAcc.accs (h : HeldAcc) : List LaneAcc := keptAccs h.width h.lanes

def HeldAcc.fn (h : HeldAcc) : StrongFn :=
  h.kind.fn h.width (keptOperand h.lanes (·.data)) (keptOperand h.lanes (·.data2))

/-- The lanes still to be performed. -/
def HeldAcc.left (h : HeldAcc) : List HeldLane := h.lanes.filter fun e => !(h.done.any fun d => d.1 = e.lane)

/-- What the access asks of its page. -/
def HeldAcc.need (h : HeldAcc) : Need :=
  match h.kind with
  | .load => Need.load
  | .store => Need.store
  | .atom _ _ => Need.both

/-- Lanes that stand at an access of n bytes after a halt are translated again (R138, R150), those of a MODSET to MOD
pages alone. -/
def State.relanes (s : State) (n : Nat) (need : Need) (modOnly : Bool) (es : List HeldLane) : Except LaneFault (List LaneAcc) :=
  let lane (e : HeldLane) : Except LaneErr LaneAcc :=
    match s.reach (.carrel s.gang.carrel) e.va (need.of n) with
    | .error x => .error (reachErr x e.va)
    | .ok t =>
      if modOnly && !t.mod then .error (laneErr Code.protection e.va)
      else .ok ⟨e.lane, [⟨e.va, t.pa e.va, 1⟩], t.mod, [(e.va, t)]⟩
  resolveAll (Mask.ofFn fun l => es.any (·.lane = l)) fun l =>
    ((es.find? (·.lane = l)).map lane).getD (.error (laneErr Code.translation 0))

/-- A lane with its new translation; one that was not translated again keeps its own. -/
def HeldLane.at (e : HeldLane) (accs : List LaneAcc) : HeldLane :=
  match accs.find? (·.lane = e.lane) with
  | some a => { e with pa := (a.pieces.headD ⟨0, 0, 0⟩).pa, mod := a.mod }
  | none => e

/-- A request replayed after a halt is translated again, in the lanes not yet performed (R138, R150). -/
def State.reachAgain (s : State) (h : HeldAcc) : Except LaneFault HeldAcc :=
  (s.relanes h.width h.need false h.left).map fun accs => { h with lanes := h.lanes.map fun e => e.at accs }

def State.setDone (s : State) (done : List (Nat × DWord)) : State := s.modPath fun q => { q with done := done }

/-- A fault of a request of the current gang, in the instruction's own name (R114). -/
def State.requestFault (s : State) (f : Flight) (e : LaneFault) : State :=
  (e.bad.foldl (fun s b => s.logError b) s).assertHalt
    { s.carrelFault e.kind f.mask e.lanes e.detail with pc := f.pc, younger := f.younger, cycle := f.cycle }

/-- A held access of the current gang, number i of its requests, is taken again (R160): its lanes perform as far as
the gate lets them, each filling its destination as it returns (R340). None where nothing changes. -/
def State.takeHeld (s : State) (i : Nat) (f : Flight) (h0 : HeldAcc) : Option State :=
  match (if f.replay then s.reachAgain h0 else .ok h0) with
  | .error e => some (s.requestFault f e)
  | .ok h =>
    let was := s.gang.path.done
    let fo (l : Nat) : Nat := keptOperand h.lanes (·.folio) l
    let news (t : State) : List (Nat × DWord) := t.gang.path.done.filter fun d => !(h.done.any fun e => e.1 = d.1)
    let land (t : State) (done : List (Nat × DWord)) : State :=
      t.land { f with mask := f.mask &&& doneMask done, vals := doneLanes f.vals.length done, req := .done }
    let left (t : State) : Flight :=
      { f with
        replay := false, mask := f.mask &&& ~~~(doneMask (news t)),
        req := .strong { h with done := t.gang.path.done } }
    let keep (t : State) : State :=
      land ((t.setDone was).modGang fun g => { g with flights := g.flights.set i (left t) }) (news t)
    match strongLanesAs (s.cur, f.younger) fo (s.setDone h.done) h.width h.kind.code h.fn h.accs with
    | .held t => if t.gang.path.done == h.done && t.ctx.logs == s.ctx.logs then none else some (keep t)
    | .fault t k l =>
      some ((keep t).assertHalt
        { s.carrelFault k f.mask (Mask.lane l) 0 with pc := f.pc, younger := f.younger, cycle := f.cycle })
    | .ok t =>
      let t1 := if h.sub then t.acquire t.gang.carrel 2 else t
      let t2 := (t1.setDone was).modGang fun g =>
        ({ g with flights := g.flights.eraseIdx i } : Gang).foldStrong h.width h.kind.code.isSome h.fn
          t.gang.path.done h.accs
      some (land t2 (news t))

/-- The gang has such an access. -/
def Gang.holdsAccess (g : Gang) : Bool := g.flights.any Flight.isHeld

end Sys2Proof.Machine
end

