-- ==== Sys2Proof/Machine/Barriers.lean ====
section
/-! DEFINITION. Barriers (R349 to R352): BAR, BARA and BARW. -/

namespace Sys2Proof.Machine

open Sys2Proof

def Barrier.zero : Barrier := { count := 0, n := 0, phase := 0, standing := 0 }

/-- The key of the package's barriers beside those of the wings (R349). -/
def pkgKey : Nat := 4096

/-- The unit that holds the barriers of a level for a carrel (R349). -/
def State.barrier (s : State) (level id : Nat) : Barrier :=
  let c := s.gang.carrel
  match level with
  | 0 => Table.look (s.carrelOf c).bars id Barrier.zero
  | 1 => Table.look (Table.look s.ctx.galleryBars (galleryOf c) []) id Barrier.zero
  | 2 => Table.look (Table.look s.ctx.wingBars (c / Config.carrelsPerWing) []) id Barrier.zero
  | _ => Table.look (Table.look s.ctx.wingBars pkgKey []) id Barrier.zero

def State.setBarrier (s : State) (level id : Nat) (b : Barrier) : State :=
  let c := s.gang.carrel
  let into (t : Table (Table Barrier)) (k : Nat) : Table (Table Barrier) :=
    Table.put t k (Table.put (Table.look t k []) id b)
  match level with
  | 0 => s.modCarrelOf c fun x => { x with bars := Table.put x.bars id b }
  | 1 => { s with ctx := { s.ctx with galleryBars := into s.ctx.galleryBars (galleryOf c) } }
  | 2 => { s with ctx := { s.ctx with wingBars := into s.ctx.wingBars (c / Config.carrelsPerWing) } }
  | _ => { s with ctx := { s.ctx with wingBars := into s.ctx.wingBars pkgKey } }

/-- Ids and participant numbers of a level (R349). -/
def barrierIds (level : Nat) : Nat := if level ≤ 1 then 16 else 32
def barrierMax (level : Nat) : Nat :=
  match level with
  | 0 => 1024
  | 1 => 4096
  | _ => 65535

def barLevel (x : RRR) : Nat := (x.sub.extractLsb' 0 2).toNat

/-- An id, a count or a token as unsigned bits 31:0 (R350). -/
def barNumber (s : State) (o : Operand) : Nat := (readGang s 0x1C 0 o).toNat % 2 ^ 32

/-- The level of the acquire of a departure: every carrel of the level (R351, R128). -/
def barCross (level : Nat) : Nat := min level 2

/-- The field rules of R350 and R352. -/
def barFieldsOk (g : Gang) (x : RRR) : Bool :=
  x.rsv == 0 && x.typ == 0 && x.pred == 0 && x.sub.extractLsb' 2 3 == 0 && x.c == .absent
    && feOk (x.fe.getLsbD 2) x.a && feOk (x.fe.getLsbD 1) x.b && feOk (x.fe.getLsbD 0) x.c
    && (match x.a with
        | .s _ | .imm _ => true
        | _ => false)
    && g.split.isNone && !g.isShadow

def barSrcs (x : RRR) (m : Mask) : List Src :=
  [⟨x.a, x.fe.getLsbD 2, 0, false, m⟩, ⟨x.b, x.fe.getLsbD 1, 1, false, m⟩]

/-- m more arrivals of an instance of k (R351): a departure begins the next instance, in which the arrivals past k
count. -/
def Barrier.add (b : Barrier) (m k : Nat) : Barrier :=
  { b with count := (b.count + m) % k, phase := b.phase + BitVec.ofNat 32 ((b.count + m) / k) }

/-- An arrival (R351): the write-back, the count, the departure; in a packed gang one arrival for each task set in
XM; none where it is a protection fault. -/
def State.arrive (s : State) (level id : Nat) (n : Option Nat) : Option (State × Word) :=
  let s1 := s.release s.gang.carrel level
  let b := s1.barrier level id
  let k := n.getD b.standing
  if k = 0 || barrierMax level < k || barrierIds level ≤ id || (0 < b.count && k ≠ b.n) then none
  else
    let b1 : Barrier := { b with n := k, standing := k }
    let arriving := if s1.gang.packed then s1.gang.xm.lanes.length else 1
    some (s1.setBarrier level id (b1.add arriving k), b.phase)

def barCount (s : State) (x : RRR) : Option Nat :=
  match x.b with
  | .absent => none
  | o => some (barNumber s o)

def barCountOk (x : RRR) : Bool :=
  match x.b with
  | .s _ | .imm _ | .absent => true
  | _ => false

/-- A protection fault of a gang-class word that names no address. -/
def protect (s : State) (m : Mask) : Result := raiseFault s Code.protection m m 0

/-- The gang's task is traced (R352). -/
def State.taskTraced (s : State) : Bool := (s.frameOf s.gang.frame).traced

/-- BARA (R350, R351). -/
def execBara (x : RRR) (s : State) : Result :=
  let level := barLevel x
  let legal := barFieldsOk s.gang x && barCountOk x && dstOk .gang s.gang false x.hdr.d
  issue s x.hdr .gang legal [(x.hdr.d, false)] (barSrcs x) fun m =>
    if s.taskTraced then protect s m
    else
      match s.arrive level (barNumber s x.a) (barCount s x) with
      | none => protect s m
      | some (s1, token) =>
        .next ((s1.modGang fun g => g.writeDest m x.hdr.d 32 (fun _ => 0) (token.setWidth 64)).advance x.hdr)

/-- BARW (R350, R351): waits in place until the phase differs from the token. -/
def execBarw (x : RRR) (s : State) : Result :=
  let level := barLevel x
  let legal := barFieldsOk s.gang x && x.hdr.d == .absent
    && (match x.b with
        | .s _ => true
        | _ => false)
  issue s x.hdr .gang legal [] (barSrcs x) fun m =>
    let id := barNumber s x.a
    if s.taskTraced || barrierIds level ≤ id then protect s m
    else if (s.barrier level id).phase.toNat = barNumber s x.b then .next s.hold
    else .next ((s.acquire s.gang.carrel (barCross level)).advance x.hdr)

/-- BAR (R350, R351): an arrival, then a wait on its token. A gang that waits already does not arrive
again (R352). -/
def execBar (x : RRR) (s : State) : Result :=
  let level := barLevel x
  let legal := barFieldsOk s.gang x && barCountOk x && x.hdr.d == .absent
  match s.gang.path.wait with
  | .barrier token =>
    if (s.barrier level (barNumber s x.a)).phase = token then .next s.hold
    else
      .next (((s.acquire s.gang.carrel (barCross level)).modPath fun p =>
        { p with wait := .none }).advance x.hdr)
  | _ =>
    issue s x.hdr .gang legal [] (barSrcs x) fun m =>
      if s.taskTraced then protect s m
      else
        match s.arrive level (barNumber s x.a) (barCount s x) with
        | none => protect s m
        | some (s1, token) =>
          if (s1.barrier level (barNumber s x.a)).phase = token then
            .next (s1.issuedOne.modGang fun g =>
              (g.modPath fun p => { p with wait := .barrier token }).waits).tick
          else .next ((s1.acquire s.gang.carrel (barCross level)).advance x.hdr)

end Sys2Proof.Machine
end

