-- ==== Sys2Proof/Machine/Moves.lean ====
section
/-! DEFINITION. MOV and MOVI between register kinds (R284), and the writes of special registers (R96,
R108, R156, R235). -/

namespace Sys2Proof.Machine

open Sys2Proof

/-- The field rules of a MOV (R284). -/
def movFieldsOk (x : RRR) : Bool :=
  (x.typ.toNat = 0 || x.typ.toNat = 0x1D) && x.sub == 0 && x.pred == 0 && x.rsv == 0 && x.b == .absent
    && x.c == .absent && feOk (x.fe.getLsbD 2) x.a && !x.fe.getLsbD 1 && !x.fe.getLsbD 0

/-- The sources of a MOV into each kind of register (R284, log 11). -/
def movSrcOk (g : Gang) (wide : Bool) (d a : Operand) : Bool :=
  match d with
  | .w _ =>
    if wide then (match a with
      | .w i => wOk g true i
      | .s _ => true
      | _ => false)
    else laneSrcOk g false a
  | .s _ => gangSrcOk a || (match a with
    | .w i => !wide && decide (i.toNat < g.regs)
    | _ => false)
  | .h _ => (match a with
    | .h _ => true
    | _ => false)
  | .q _ => g.isShadow && !wide && laneSrcOk g false a
  | _ => false

/-- MOV (R284) of one task into a w, s, h or q register. -/
def movAct (x : RRR) (s : State) : Result :=
  let g := s.gang
  let c := WordClass.ofDest x.hdr.d
  let wide := x.typ.toNat = 0x1D
  let ty : BitVec 6 := if wide then 0x1D else 0x1C
  let dst := match x.hdr.d with
    | .w i => wOk g wide i
    | .s _ | .h _ | .q _ => true
    | _ => false
  let pairDst := wide && c == .lane
  let srcLanes (m : Mask) : Mask := if c == .lane then m else Mask.lane g.lane0
  issue s x.hdr c (movFieldsOk x && dst && movSrcOk g wide x.hdr.d x.a) [(x.hdr.d, pairDst)]
    (fun m => [⟨x.a, x.fe.getLsbD 2, 0, pairDst, srcLanes m⟩]) fun m =>
      let rd (l : Nat) : DWord := readLane s (if c == .lane then ty else 0x1C) 0 x.a l
      match x.hdr.d with
      | .w i => .next ((s.modGang fun g => (g.popSources m [x.a]).writeLanes m i (if wide then 64 else 32) rd).advance x.hdr)
      | .s i => .next ((s.modGang fun g => g.setS i (rd g.lane0)).advance x.hdr)
      | .h i => .next ((s.modGang fun g => g.setH i (rd g.lane0)).advance x.hdr)
      | .q i =>
        let n := g.partner.getD 0
        .next ((s.setGangOf n ((s.gangOf n).qPush m i fun l => (rd l).setWidth 32)).advance x.hdr)
      | _ => illegal s m

/-- MOV (R284); in a packed gang each task has its own h registers (R302). -/
def execMov (x : RRR) (s : State) : Result :=
  match x.hdr.d with
  | .h _ => perTask x.hdr false (movAct x) s
  | _ => movAct x s

/-- MOVI (R284): the imm field at the type (R264); in a shadow gang also into a FIFO. -/
def execMovi (x : RI) (s : State) : Result :=
  let c := WordClass.ofDest x.hdr.d
  let w := typeWidth x.typ
  let wide := w = 64
  let fields := (x.typ.toNat = 0 || typeI x.typ || typeB x.typ || typeF x.typ) && x.sub == 0
    && x.pred == 0 && x.typ2 == 0 && x.a == .absent && !x.fe
  let dst := match x.hdr.d with
    | .q _ => s.gang.isShadow && !wide
    | d => dstOk c s.gang wide d
  issue s x.hdr c (fields && dst) [(x.hdr.d, wide)] (fun _ => []) fun m =>
    let v := immFieldValue x.typ x.imm
    match x.hdr.d with
    | .q i =>
      let n := s.gang.partner.getD 0
      .next ((s.setGangOf n ((s.gangOf n).qPush m i fun _ => v.setWidth 32 &&&
        BitVec.ofNat 32 (2 ^ min (if w = 0 then 32 else w) 32 - 1))).advance x.hdr)
    | d => .next ((s.modGang fun g =>
        g.writeDest m d (if w = 0 then (if c == .lane then 32 else 64) else w) (fun _ => v) v).advance x.hdr)

/-- A write of a special register is a gang-class MOV from an s register or an immediate (R108,
R284). -/
def specialMovOk (x : RRR) : Bool :=
  movFieldsOk x && (match x.a with
    | .s _ | .imm _ => true
    | _ => false)

def specialSrcs (x : RRR) (m : Mask) : List Src := [⟨x.a, x.fe.getLsbD 2, 0, false, m⟩]

/-- XM (R96): bits beyond the width and beyond the path's current lanes are ignored. -/
def execXmWrite (x : RRR) (s : State) : Result :=
  issue s x.hdr .gang (specialMovOk x) [] (specialSrcs x) fun _ =>
    let v := (readGang s 0x1D 0 x.a).extractLsb' 0 32
    .next ((s.modGang fun g => g.modPath fun p => { p with xm := v &&& p.lanes &&& g.lanes }).advance x.hdr)

/-- A write of 0 to LRAND stores 1 (R235). -/
def lrandOf (v : Word) : Word := if v = 0 then 1 else v

/-- LRAND (R284, R235): every lane set in XM takes the value, or its own w value; at .b64 a w source is a pair
(R275). -/
def execLrandWrite (x : RRR) (s : State) : Result :=
  let g := s.gang
  let wide := x.typ.toNat = 0x1D
  let legal := movFieldsOk x && (match x.a with
    | .s _ | .imm _ => true
    | .w i => wOk g wide i
    | _ => false)
  issue s x.hdr .gang legal [] (fun m => [⟨x.a, x.fe.getLsbD 2, 0, wide, m⟩]) fun m =>
    .next ((s.modGang fun g =>
      { g with lrand := g.lrand.merge m fun l => lrandOf ((readLane s 0x1C 0 x.a l).extractLsb' 0 32) }).advance x.hdr)

/-- The session root of a new session takes folio 1 (R157); the ordinal is its frame's (R34, R158). -/
def rootFolio (f : Frame) : ReplayFolio := { ReplayFolio.none with entryPc := f.entryPc, ordinal := f.ordinal }

/-- A write of REPLAYM by one task (R156). In a session the root alone may write it; outside one a write of OFF keeps
its log field, whatever that log's state (log 108). -/
def replaymAct (x : RRR) (s : State) : Result :=
  let mine := replayMode s.gang.replaym = 0 || s.gang.sroot
  issue s x.hdr .gang (specialMovOk x && mine) [] (specialSrcs x) fun m =>
    let g := s.gang
    let v := (readGang s 0x1D 0 x.a) &&& 0x3F03
    let n := replayLog v
    let l := s.logOf n
    let root := rootFolio (s.frameOf g.frame)
    if replayMode v = 3 then illegal s m
    else if replayMode g.replaym = 0 then
      match replayMode v with
      | 0 => .next ((s.modGang fun g => { g with replaym := v }).advance x.hdr)
      | 1 =>
        if l.state == .recording || l.state == .replaying then raiseFault s Code.protection m m 0
        else
          let l1 : OrderLog := { OrderLog.none with state := .recording, rootIn := true, folios := [root] }
          .next (((s.setLogOf n l1).modGang fun g =>
            { g with replaym := v, sroot := true, member := true, rfolio := 1, strong := 0 }).advance x.hdr)
      | _ =>
        if l.state != .recorded then raiseFault s Code.protection m m 0
        else
          let fresh := l.folios.mapIdx fun i f => { f with used := i == 0 }
          let l1 : OrderLog :=
            { l with state := .replaying, rootIn := true, extra := [], gates := l.chunks, folios := fresh }
          .next (((s.setLogOf n l1).modGang fun g =>
            { g with replaym := v, sroot := true, member := true, rfolio := 1, strong := 0 }).advance x.hdr)
    else if g.sroot && replayMode v = 0 then
      let n0 := replayLog g.replaym
      .next (((s.setLogOf n0 ({ s.logOf n0 with rootIn := false } : OrderLog).leave).modGang fun g =>
        { g with replaym := v, sroot := false, member := false, rfolio := 0 }).advance x.hdr)
    else illegal s m

/-- REPLAYM (R156). -/
def execReplaymWrite (x : RRR) (s : State) : Result := perTask x.hdr false (replaymAct x) s

/-- The other writable special registers (R108), each with the bits that read zero cleared (R141, R239,
R108). -/
def Gang.setSpecial (g : Gang) (idx : BitVec 7) (v : DWord) : Gang :=
  match idx.toNat with
  | 0x08 => { g with trapv := v &&& ~~~3 }
  | 0x09 => { g with trapc := v &&& ~~~0xFC00 }
  | 0x0A => { g with trappc := v }
  | 0x0E => { g with obsdef := v.extractLsb' 0 5 }
  | 0x10 => { g with tcfg := v &&& 0x7FFFF }
  | 0x11 => { g with shape := g.shape.set 0 v }
  | 0x12 => { g with shape := g.shape.set 1 v }
  | 0x13 => { g with shape := g.shape.set 2 v }
  | 0x14 => { g with shape := g.shape.set 3 v }
  | 0x15 => { g with maskm := v }
  | 0x16 => { g with maskn := v }
  | _ => g

/-- A MOV into another special register (R108): a read-only or unassigned one is ILLEGAL-OP. -/
def execRegisterWrite (x : RRR) (s : State) : Result :=
  let idx : BitVec 7 := match x.hdr.d with
    | .special i => i
    | _ => 0x7F
  issue s x.hdr .gang (specialMovOk x && specialWritable idx) [] (specialSrcs x) fun _ =>
    .next ((s.modGang fun g => g.setSpecial idx (readGang s 0x1D 0 x.a)).advance x.hdr)

end Sys2Proof.Machine
end

