-- ==== Sys2Proof/Machine/Futures.lean ====
section
/-! DEFINITION. Handles and futures (R207, R208, R210), frames in their arena (R34, R35), shelves and
their rings (R41 to R45). -/

namespace Sys2Proof.Machine

open Sys2Proof

/-! Futures. -/

def Slot.none : Slot :=
  { used := false, kind := 0, object := 0, value := 0, generation := 0, complete := false,
    consumed := false, overwritten := false, cancelled := false, outstanding := 0, spawn := .gang,
    kids := [], maker := 0, held := Option.none }

def State.slotOf (s : State) (k : Nat) : Slot := Table.look s.ctx.slots k Slot.none
def State.setSlotOf (s : State) (k : Nat) (x : Slot) : State :=
  { s with ctx := { s.ctx with slots := Table.put s.ctx.slots k x } }
def State.modSlotOf (s : State) (k : Nat) (f : Slot → Slot) : State := s.setSlotOf k (f (s.slotOf k))

/-- The kinds of R207. -/
def kindTask : Nat := 1
def kindEngine : Nat := 2
def kindTrace : Nat := 3
def kindPropagation : Nat := 4

/-- A handle (R207): the key is wing and slot index together. -/
def handle (kind : BitVec 4) (gen : BitVec 24) (key : Nat) : DWord :=
  kind ++ 0#4 ++ gen ++ BitVec.ofNat 32 key

/-- The slot that a handle names, when its kind and generation are the slot's (R208). -/
def State.named (s : State) (h : DWord) : Option (Nat × Slot) :=
  let key := (h.extractLsb' 0 32).toNat
  let kind := h.extractLsb' 60 4
  let x := s.slotOf key
  if 1 ≤ kind.toNat && kind.toNat ≤ 4 && x.used && x.kind = kind && x.generation = h.extractLsb' 32 24 then
    some (key, x)
  else none

/-- The first slot from i on that is not in use. -/
def freeFrom (t : Table Slot) (base fuel i : Nat) : Nat :=
  match fuel with
  | 0 => i
  | k + 1 => if (Table.look t (base + i) Slot.none).used then freeFrom t base k (i + 1) else i

/-- A free slot of a wing's table of 65,536 (R208). -/
def State.newSlot (s : State) (wing : Nat) : Option Nat :=
  let i := freeFrom s.ctx.slots (wing * 2 ^ 28) s.ctx.slots.length 0
  if i < 65536 then some (wing * 2 ^ 28 + i) else none

/-- A slot taken for a new future: its generation stays (R208). -/
def State.openSlot (s : State) (key : Nat) (x : Slot) : State :=
  s.setSlotOf key { x with used := true, generation := (s.slotOf key).generation }

def State.handleOf (s : State) (key : Nat) : DWord :=
  let x := s.slotOf key
  handle x.kind x.generation key

/-- The new future's handle is on its way to the h destination, which is empty until it returns (R17, R92, R302,
log 99). -/
def State.giveHandle (s : State) (d : Operand) (key : Nat) : State :=
  match d with
  | .h i => s.modGang fun g =>
      (g.setHEmpty i true).launch
        { dst := d, mask := if g.packed then Mask.lane g.front else BitVec.allOnes 32, vals := [],
          sval := s.handleOf key, req := .done, replay := false, pc := g.path.pc, younger := g.younger,
          cycle := s.cycleOf g.carrel }
  | _ => s

/-- Serial number of the current gang's task. -/
def State.serial (s : State) : Nat := (s.frameOf s.gang.frame).serial

/-- The task with this serial number has not ended. -/
def State.lives (s : State) (serial : Nat) : Bool :=
  s.ctx.frames.any fun e => e.2.serial = serial && e.2.state != .ended

/-- A write of a future by its producer (R210). -/
def Slot.write (x : Slot) (v : DWord) : Slot :=
  if x.complete && !x.consumed then { x with value := v, overwritten := true }
  else { x with value := v, complete := true, consumed := false }

/-- n bytes from position k of a byte list, as a number. -/
def field (bs : List Byte) (k n : Nat) : Nat := bytesToNat ((bs.drop k).take n)

/-- An 8-byte word of the context at a virtual address; 0 where no page is mapped. -/
def State.deskWord (s : State) (va : Nat) : Nat :=
  match s.deskPa va with
  | some pa => s.homeWord pa 8
  | none => 0

/-- Header and ring of a wing's copy queue (R199, R46). -/
structure Ring where
  header : Nat
  write  : Nat
  read   : Nat
  count  : Nat
  base   : Nat
deriving DecidableEq, Repr

def State.ringAt (s : State) (header : Nat) : Ring :=
  { header := header, write := s.deskWord header, read := s.deskWord (header + 8),
    count := s.deskWord (header + 16), base := s.deskWord (header + 24) }

def State.copyRing (s : State) (wing : Nat) : Ring :=
  s.ringAt (Table.look s.ctx.copyRings wing (0, 0)).1.toNat

/-- Slot i of a ring, of `size` bytes. -/
def Ring.slot (r : Ring) (i size : Nat) : Nat := r.base + size * (if r.count = 0 then i else i % r.count)

/-- The failing block that a read of the desk meets (R146). -/
def State.deskBad (s : State) (va n : Nat) : Option Nat :=
  (s.deskPa va).bind fun pa => if blockBad s pa n then some (s.badBlock pa n) else none

/-- An uncorrectable error in what the desk reads (R146): none of its bytes acts, the address is logged and the halt
line asserted. The desk is no unit of R144's table, so that no stop record names it (log 112). -/
def State.deskFault (s : State) (pa : Nat) : State :=
  (s.logError pa).assertHalt
    { unitKind := 0, wing := 0, unit := 0, kind := Code.uncorrectable, gangReg := 0, frame := 0, cycle := s.clock, pc := 0,
      younger := false, acting := 0, offending := 0, detail := 0, trace := none, gang := none }

/-- A card in the slots of a copy queue from i on, which the desk has not linked yet, targets future `key` (R199):
bytes 80 to 87 of its slot. A slot whose kind is 0 is not filled (R48). -/
def State.ringTargets (s : State) (r : Ring) (key : Nat) : (fuel i : Nat) → Bool
  | 0, _ => false
  | k + 1, i =>
    match s.deskPa (r.slot i 128) with
    | none => false
    | some pa =>
      let t := BitVec.ofNat 64 (s.homeWord (pa + 80) 8)
      s.homeRead pa 1 ≠ [0] && ((t != 0 && (t.extractLsb' 0 32).toNat = key) || s.ringTargets r key k (i + 1))

/-- A queued or running card targets the slot (R208), one in a copy queue's ring too. -/
def State.targeted (s : State) (key : Nat) : Bool :=
  (s.ctx.jobs.any fun e => e.2.future = some key
      || (e.2.target != 0 && (e.2.target.extractLsb' 0 32).toNat = key))
    || s.ctx.copyRings.any fun e =>
      let r := s.copyRing e.1
      s.ringTargets r key (min (r.write - r.read) r.count) r.read

/-- The word at which a path stands names the handle: an AWAIT by its operand, an AWAITA by its bits. -/
def Gang.awaitsBy (g : Gang) (h : DWord) (w : IWord) : Bool :=
  match decodeWord w with
  | .await x => match x.a with
    | .h i => g.hReg i == h
    | _ => false
  | .awaita x => (List.range 16).any fun i => x.mod.getLsbD i && g.hReg (BitVec.ofNat 4 i) == h
  | _ => false

/-- A path of the gang waits in place at an AWAIT or AWAITA of this handle (R40, R313, R314). -/
def Gang.awaitsInPlace (g : Gang) (h : DWord) : Bool :=
  g.tasks.any fun t => (t.p0 :: t.p1.toList).any fun p =>
    match p.latch with
    | some (a, w) => a = p.pc && !(g.packed && p.acted.has t.front) && t.awaitsBy h w
    | none => false

/-- Somebody waits in place for the future. -/
def State.awaitedInPlace (s : State) (key : Nat) (x : Slot) : Bool :=
  s.ctx.gangs.any fun e => (e.2.resident || e.2.saved) && e.2.awaitsInPlace (handle x.kind x.generation key)

/-- A slot that may be freed (R208). An AWAIT or AWAITA that waits in place for it still finds it and delivers
(R313, R314). -/
def State.freeable (s : State) (key : Nat) (x : Slot) : Bool :=
  x.used && x.held.isNone && x.complete && x.consumed && x.outstanding = 0 && !s.lives x.maker
    && !s.awaitedInPlace key x && !s.targeted key

/-- The slot is freed and its generation advances. -/
def Slot.free (x : Slot) : Slot :=
  { Slot.none with generation := x.generation + 1, value := x.value }

def State.sweepSlots (s : State) : State :=
  let slots := s.ctx.slots.map fun e => if s.freeable e.1 e.2 then (e.1, e.2.free) else e
  { s with ctx := { s.ctx with slots := slots } }

/-! Frames. -/

def State.freeFrame (s : State) (f : Nat) : State :=
  if Table.has s.ctx.frames f then
    { s with ctx := { s.ctx with frames := Table.del s.ctx.frames f, frameRoom := s.ctx.frameRoom + 1 } }
  else s

/-- The task that spawned the child keeps in mind on which carrel it ended: its frame goes (R128). -/
def Gang.hears (g : Gang) (kid : Nat × Nat) (carrel : Nat) : Gang :=
  if g.kids.contains kid then { g with heard := g.heard ++ [carrel] } else g

def State.hear (s : State) (kid : Nat × Nat) (carrel : Nat) : State :=
  let hears (g : Gang) : Gang := g.mapTasks fun t => t.hears kid carrel
  { s with ctx := { s.ctx with
      gangs := s.ctx.gangs.map fun e => (e.1, hears e.2), parked := s.ctx.parked.map fun e => (e.1, hears e.2),
      entries := s.ctx.entries.map fun e => (e.1, hears e.2) } }

/-- The frame of a child that has ended is freed, where it is still that child's. -/
def State.freeKid (s : State) (k : Kid) : State :=
  let f := s.frameOf k.frame
  if k.ended && f.serial = k.serial && f.state == .ended then
    (s.hear (k.frame, k.serial) f.endedOn).freeFrame k.frame
  else s

/-- The first free place of the frame arena from i on. -/
def freeFrameFrom (t : Table Frame) (base fuel i : Nat) : Nat :=
  match fuel with
  | 0 => i
  | k + 1 => if Table.has t (base + 256 * i) then freeFrameFrom t base k (i + 1) else i

/-- The address of a new frame (R34). -/
def State.newFrame (s : State) : Nat :=
  let base := s.ctx.frameBase.toNat
  base + 256 * freeFrameFrom s.ctx.frames base s.ctx.frames.length 0

/-- A copy of a handle stands in a live register or an argument (R35). -/
def State.handleHeld (s : State) (h : DWord) : Bool :=
  let inGang (g : Gang) : Bool := g.s.toList.contains h || (g.tasks.any fun t => t.h.toList.contains h)
    || g.flights.any fun f => f.sval == h
  s.ctx.gangs.any (fun e => (e.2.resident || e.2.saved) && inGang e.2) || (s.ctx.parked ++ s.ctx.entries).any (fun e => inGang e.2)
    || s.ctx.frames.any fun e => e.2.state != .ended
        && (List.range 16).any fun i => bytesToNat ((e.2.args.toList.drop (8 * i)).take 8) = h.toNat

/-- Frames of ended children whose maker has ended and whose handle nobody holds are freed (R35). -/
def State.sweepFrames (s : State) : State :=
  s.ctx.slots.foldl (fun s e =>
    if e.2.used && e.2.kind = 1 && e.2.held.isNone && !s.lives e.2.maker
        && !s.handleHeld (handle e.2.kind e.2.generation e.1) then
      e.2.kids.foldl (fun s k => s.freeKid k) s
    else s) s

/-! Shelves. -/

def Shelf.none : Shelf :=
  { consumer := 0, valid := false, pinned := false, prio := 0, low := 0, high := 0, cap := 0, ring := 0,
    readIdx := 0, entries := [], launch := 0, takers := [], given := [] }

def State.shelfOf (s : State) (n : Nat) : Shelf := Table.look s.ctx.shelves n Shelf.none
def State.setShelfOf (s : State) (n : Nat) (x : Shelf) : State :=
  { s with ctx := { s.ctx with shelves := Table.put s.ctx.shelves n x } }
def State.modShelfOf (s : State) (n : Nat) (f : Shelf → Shelf) : State := s.setShelfOf n (f (s.shelfOf n))

/-- A power of two from 64 to 2^24 (R41). -/
def capOk (n : Nat) : Bool := (List.range 19).any fun i => n = 2 ^ (i + 6)

/-- The entry is valid (R41). -/
def Shelf.ok (x : Shelf) : Bool := x.valid && capOk x.cap && x.low < x.high && x.high ≤ x.cap

def Shelf.depth (x : Shelf) : Nat := x.entries.length
def Shelf.full (x : Shelf) : Bool := x.cap ≤ x.depth

/-- Entries run one step up until the depth falls below L (R42). -/
def Shelf.boosting (x : Shelf) : Bool := x.entries.any (·.boost)
def Shelf.boostAll (x : Shelf) (b : Bool) : Shelf :=
  { x with entries := x.entries.map fun e => { e with boost := b } }

/-- The 16 bytes of a ring entry (R44); the team of a launch root's entry is open. -/
def ShelfEntry.bytes (e : ShelfEntry) (open_ : DWord) : List Byte :=
  natToBytes 8 e.payload.toNat ++ natToBytes 1 (if e.boost then 1 else 0)
    ++ natToBytes 1 (if e.isTask then 1 else 2)
    ++ natToBytes 2 (match e.team with
      | some c => c / Config.carrelsPerWing + 16 * (c % Config.carrelsPerWing)
      | none => (open_.extractLsb' 0 10).toNat)
    ++ natToBytes 4 e.age.toNat

/-- Bytes written by the desk at a virtual address, in at most two pages; nothing where no page is mapped. -/
def State.deskWrite (s : State) (va : Nat) (bs : List Byte) : State :=
  let put (s : State) (va : Nat) (bs : List Byte) : State :=
    match s.deskPa va with
    | some pa => s.homeWrite pa bs
    | none => s
  let n := 65536 - va % 65536
  if bs.length ≤ n then put s va bs else put (put s va (bs.take n)) (va + n) (bs.drop n)

/-- A shelf written back to its ring (R43, R44). -/
def State.writeRing (s : State) (n : Nat) : State :=
  let x := s.shelfOf n
  let base := x.ring.toNat
  let s1 := (s.deskWrite base (natToBytes 8 x.readIdx)).deskWrite (base + 8) (natToBytes 8 (x.readIdx + x.depth))
  ((List.range x.depth).foldl (fun s i =>
    match x.entries[i]? with
    | some e => s.deskWrite (base + 64 + 16 * ((x.readIdx + i) % x.cap)) (e.bytes s.freeNow)
    | none => s) s1).useFree

/-- The shelf is resident on the wing: a pinned one always is (R43). -/
def State.resides (s : State) (wing n : Nat) : Bool :=
  (s.shelfOf n).pinned || s.ctx.residents.contains (wing * 4096 + n)

/-- The pinned shelves, which every wing holds among its 64 (R43). -/
def State.pinnedShelves (s : State) : Nat := (s.ctx.shelves.filter fun e => e.2.valid && e.2.pinned).length

/-- The wing uses a shelf: it becomes resident there, and the least recently used unpinned one goes to its ring
where the wing would hold more than 64 (R43). -/
def State.touch (s : State) (wing n : Nat) : State :=
  let key := wing * 4096 + n
  let order := key :: s.ctx.residents.filter (· != key)
  let here := order.filter fun k => k / 4096 = wing && !(s.shelfOf (k % 4096)).pinned
  let s1 := { s with ctx := { s.ctx with residents := order } }
  if (s.shelfOf n).pinned then s
  else if here.length + s.pinnedShelves ≤ 64 then s1
  else
    match here.getLast? with
    | some k =>
      let s2 := s1.writeRing (k % 4096)
      { s2 with ctx := { s2.ctx with residents := order.filter (· != k) } }
    | none => s1

/-- The same for a gang of a carrel, which counts its misses (R373). -/
def State.touchBy (s : State) (carrel n : Nat) : State :=
  let wing := carrel / Config.carrelsPerWing
  let s1 := s.touch wing n
  if s.resides wing n then s1 else s1.count carrel 9 1

/-- Entry i is taken (R44); below L nothing is boosted any longer (R42). -/
def Shelf.takeAt (x : Shelf) (i : Nat) : Shelf :=
  let y : Shelf := { x with entries := x.entries.eraseIdx i, readIdx := x.readIdx + 1 }
  if y.depth < y.low then y.boostAll false else y

/-- The oldest value goes to the SHTAKE that has waited longest, in the step in which both are there (R320). -/
def Shelf.serve (x : Shelf) : Shelf :=
  match x.takers, x.entries.findIdx? fun e => !e.isTask with
  | me :: rest, some i =>
    { x.takeAt i with takers := rest, given := x.given ++ [(me, (x.entries[i]?).map (·.payload))] }
  | _, _ => x

/-- An entry is appended with the next age stamp (R44, R45); a value goes on to an SHTAKE that waits. -/
def State.enter (s : State) (n : Nat) (team : Option Nat) (isTask : Bool) (payload : DWord) : State :=
  let x := s.shelfOf n
  let e : ShelfEntry :=
    { age := s.ctx.age, team := team, isTask := isTask, boost := x.boosting, payload := payload }
  let y : Shelf := { x with entries := x.entries ++ [e] }
  let s1 := s.setShelfOf n (if isTask then y else y.serve)
  { s1 with ctx := { s1.ctx with age := s1.ctx.age + 1 } }

/-- The priority at which an entry runs (R42). -/
def Shelf.prioOf (x : Shelf) (e : ShelfEntry) : Nat := min 7 (x.prio.toNat + (if e.boost then 1 else 0))

/-! Regions. -/

/-- A carrel lies in the region that place names around an anchor (R32). -/
def State.inRegion (s : State) (place : BitVec 3) (anchor carrel : Nat) : Bool :=
  match place.toNat with
  | 0 => carrel == anchor
  | 1 => galleryOf carrel == galleryOf anchor
  | 2 => carrel / Config.carrelsPerWing == anchor / Config.carrelsPerWing
  | _ => s.carrels.contains carrel

def wingOf (carrel : Nat) : Nat := carrel / Config.carrelsPerWing

/-! Delivery (R313). -/

/-- What lane l of a w destination receives; nothing where its content stays. -/
def Slot.laneValue (x : Slot) (l : Nat) : Option DWord :=
  if x.kind = 1 then
    match x.spawn with
    | .gang => x.kids.head?.map (·.ret)
    | _ => (x.kids.find? fun k => k.index = l).map (·.ret)
  else some x.value

/-- What an s destination receives; none where no child of a SPAWN exists and the manual states no
value. -/
def Slot.sValue (x : Slot) : Option DWord :=
  if x.kind = 1 then
    if x.kids.isEmpty then (if x.spawn == .vector then some 0 else Option.none)
    else x.kids.head?.map (·.ret)
  else some x.value

def Gang.deliver (g : Gang) (d : Operand) (x : Slot) (open_ : DWord) : Gang :=
  match d with
  | .w i =>
    let m := Mask.ofFn fun l => g.xm.getLsbD l && (x.laneValue (g.laneNo l)).isSome
    g.writeLanes m i 32 fun l => (x.laneValue (g.laneNo l)).getD 0
  | .s i => g.setS i (x.sValue.getD open_)
  | _ => g

/-- How far the acquire edge of a delivered future reaches (R128). -/
def Slot.cross (x : Slot) (carrel : Nat) : Nat :=
  if x.kind = 1 then crossing carrel (x.kids.map (·.on_)) else 2

end Sys2Proof.Machine
end

