-- ==== Sys2Proof/Machine/Parking.lean ====
section
/-! DEFINITION. Parking and becoming runnable (R26, R34 to R40, R42): the saved image, the release of the
slot, and the continuation's way back to its shelf. -/

namespace Sys2Proof.Machine

open Sys2Proof

/-! One task of a packed gang (R33, R121). -/

/-- The task in front leaves a packed gang that holds others: its lane's bit goes from every mask. -/
def Gang.dropFront (g : Gang) : Gang :=
  match g.pack with
  | [] => g
  | e :: _ =>
    let g1 := g.task e.1
    let l := g.front
    ({ g1 with pack := Table.del g1.pack l }.mapMasks fun m => m &&& ~~~Mask.lane l).closePaths

/-- Lane l in place of lane 0, and no other. -/
def Lanes.only (v : Lanes) (l : Nat) : Lanes := Vector.ofFn fun (i : Fin 32) => if i.val = 0 then v.at l else 0
def Mask.only (l : Nat) (m : Mask) : Mask := if m.has l then 1 else 0

/-- A result in flight to lane l alone, for lane 0. -/
def Flight.only (l : Nat) (f : Flight) : Flight :=
  let mine (addrs : List (Nat × Nat)) : List (Nat × Nat) := (addrs.filter fun e => e.1 = l).map fun e => (0, e.2)
  { f with
    vals := f.vals.map fun v => Lanes.only v l,
    req := match f.req with
      | .load spc n ext addrs => .load spc n ext (mine addrs)
      | .label spc addrs => .label spc (mine addrs)
      | .strong a =>
        .strong { a with
          lanes := (a.lanes.filter fun e => e.lane = l).map fun e => { e with lane := 0 },
          done := (a.done.filter fun e => e.1 = l).map fun e => (0, e.2) }
      | r => r }

/-- The gang of the task in front alone: with a cellar it keeps its lane position, otherwise it stands in lane 0
of a gang that is not packed (R33, R121). -/
def Gang.alone (g : Gang) : Gang :=
  let l := g.front
  if !g.packed then g
  else if g.clim != 0 then
    (({ g with pack := [] } : Gang).mapMasks fun m => m &&& Mask.lane l).closePaths
  else
    (({ g with
      packed := false, front := 0, pack := [], w := g.w.map fun v => Lanes.only v l, lrand := Lanes.only g.lrand l,
      flights := (g.flights.filter fun x => x.mask.has l || (x.vals.isEmpty && !x.toHandle && !x.isHeld)).map (Flight.only l) } : Gang).mapMasks
        (Mask.only l)).closePaths

/-! The live bitmap and the image (R38). -/

/-- Bits 199, 207 and 255 to 224 are reserved (R38). -/
def bitmapRsv : BitVec 256 := BitVec.ofNat 256 ((2 ^ 32 - 1) * 2 ^ 224 + 2 ^ 207 + 2 ^ 199)

/-- Every allocated register (R313). -/
def bitmapAll (regs : Nat) : BitVec 256 :=
  BitVec.ofNat 256 ((2 ^ ((regs + 1) / 2) - 1) + (2 ^ 64 - 1) * 2 ^ 128 + 0x7F * 2 ^ 192 + 0x7F * 2 ^ 200
    + 0xFFFF * 2 ^ 208)

def countBits (bm : BitVec 256) (lo n : Nat) : Nat :=
  ((List.range n).filter fun i => bm.getLsbD (lo + i)).length

/-- The 256-byte units of an image (R38). -/
def imageUnits (width : Nat) (bm : BitVec 256) : Nat :=
  let bytes := 120 + 4 * width + countBits bm 0 128 * (8 * width + 8) + countBits bm 128 64 * 8
    + countBits bm 192 7 * 4 + (if countBits bm 200 7 = 0 then 0 else 8) + countBits bm 208 16 * 8 + 8
  (bytes + 255) / 256

/-- Registers that the bitmap does not name are zero and full (R38). -/
def Gang.keepNamed (g : Gang) (bm : BitVec 256) : Gang :=
  let w (i : Nat) : Bool := bm.getLsbD (i / 2)
  let tasks := g.mapTasks fun t =>
    { t with h := Vector.ofFn fun (i : Fin 16) => if bm.getLsbD (208 + i) then t.h[i] else 0,
             he := t.he &&& bm.extractLsb' 208 16 }
  { tasks with
    w := Vector.ofFn fun (i : Fin 256) => if w i then g.w[i] else Lanes.all 0,
    we := Vector.ofFn fun (i : Fin 256) => if w i then g.we[i] else 0,
    wo := Vector.ofFn fun (i : Fin 256) => if w i then g.wo[i] else 0,
    s := Vector.ofFn fun (i : Fin 64) => if bm.getLsbD (128 + i) then g.s[i] else 0,
    se := g.se &&& bm.extractLsb' 128 64,
    p := Vector.ofFn fun (i : Fin 8) => if bm.getLsbD (192 + i) && i.val < 7 then g.p[i] else 0,
    k := g.k &&& bm.extractLsb' 200 8 }

/-- Every register that the result goes to is named in the bitmap. -/
def Flight.named (f : Flight) (bm : BitVec 256) : Bool :=
  match f.dst with
  | .w i => (List.range f.vals.length).all fun k => bm.getLsbD ((i.toNat + k) / 2)
  | .s i => bm.getLsbD (128 + i.toNat)
  | .h i => bm.getLsbD (208 + i.toNat)
  | _ => false

/-- Results in flight to registers that are not named have arrived; a named register stays empty until its
producer completes (R38). An access that an order gate holds stays held, its result dropped where its register is
not named (R163). -/
def State.landed (s : State) (bm : BitVec 256) : Gang :=
  let stays (f : Flight) : Bool := f.named bm || f.isHeld
  (s.gang.flights.filter fun f => !stays f).foldl (fun g f => g.landFlight (arrived s f))
    { s.gang with flights := (s.gang.flights.filter stays).map fun f => if f.named bm then f else { f with dst := .absent } }

def noQueues : Vector (Vector (List Word) 32) 16 := Vector.replicate 16 (Vector.replicate 32 [])

/-- The gang as a save leaves it, at a parking AWAIT (R37, R38, R109) or at PHINT (R148, R154, R376). TRAPPC stays
as it is (log 88). -/
def State.kept (s : State) (bm : BitVec 256) (resume : DWord) (pend : Pend) : Gang :=
  let g := (s.landed bm).keepNamed bm
  { g with
    p0 := { Path.start resume 0 with xm := s.xm, lanes := g.lanes, join := s.gang.path.join },
    p1 := none, younger := false, split := none, focus := 0, run := 0, ceded := false,
    stopped := false, stepMode := false, report := if g.stepMode then some 0 else none, resident := false,
    partner := none, q := noQueues, pend := pend }

/-- The gang that resumes after a parking AWAIT (R37): of a packed gang, the task in front alone (R33). -/
def State.image (s : State) (bm : BitVec 256) (resume : DWord) (pend : Pend) : Gang :=
  { s.kept bm resume pend with awaitAt := s.cycleOf s.gang.carrel }.alone

/-- The gang of a task that is descheduled with every register live (R42): it goes on at `resume` and
its segment goes on with it. -/
def State.wholeGang (s : State) (resume : DWord) (pend : Pend) : Gang :=
  let g := s.gang.modPath fun p => { p with pc := resume }
  ({ g with run := 0, ceded := false, stopped := false, stepMode := false, resident := false,
            pend := pend } : Gang).alone

/-- The gang whose every result has arrived. -/
def State.settled (s : State) (g : Gang) : Gang :=
  g.flights.foldl (fun g f => g.landFlight (arrived s f)) { g with flights := [] }

/-- The owner that the watches and the held accesses of a task have until it is resident again. -/
def awayOwner (f : Nat) : Nat := 2 ^ 64 + f

/-- Gang n has another number from here on, or none, by path: its held accesses keep their places (R163). -/
def OrderLog.moveHeld (l : OrderLog) (n : Nat) (who : Bool → Option Nat) : OrderLog :=
  { l with waits := l.waits.map fun x => (x.1, x.2.filterMap fun w =>
      if w.1 = n then (who w.2).map fun k => (k, w.2) else some w) }

/-- Gang n waits at the shelf no longer; what came to it is gone with it. -/
def Shelf.forgets (x : Shelf) (n : Nat) : Shelf :=
  { x with takers := x.takers.filter fun w => w.1 != n, given := x.given.filter fun e => e.1.1 != n }

/-- The lowest FREE entry of the buffer table (R213). -/
def Carrel.freeEntry (c : Carrel) : Option Nat := (List.range 64).find? fun i => (c.bufs.getD i BufEntry.zero).state == .free

/-- A FREE entry goes to the path that has waited longest for one, in the step in which both are there (R369). -/
def Carrel.serve (c : Carrel) : Carrel :=
  match c.takers, c.freeEntry with
  | me :: rest, some i =>
    { c with
      takers := rest, given := c.given ++ [(me, i)],
      bufs := c.bufs.setIfInBounds i { BufEntry.zero with state := .filling } }
  | _, _ => c

/-- Gang n waits for a buffer no longer; an entry that came to it is FREE again. -/
def Carrel.forgets (c : Carrel) (n : Nat) : Carrel :=
  let back := c.given.filter fun e => e.1.1 = n
  let c1 : Carrel := { c with
    takers := c.takers.filter fun w => w.1 != n, given := c.given.filter fun e => e.1.1 != n,
    bufs := back.foldl (fun bs e => bs.setIfInBounds e.2 BufEntry.zero) c.bufs }
  back.foldl (fun c _ => c.serve) c1

/-- The gang leaves its slot, and its shadow with it (R51); of a packed gang that holds other tasks, the task in
front alone (R33). What it waited for in a queue it waits for no longer. -/
def State.vacate (s : State) (n : Nat) : State :=
  let g := s.gangOf n
  let t := Table.del s.ctx.gangs n
  if !g.pack.isEmpty then s.setGangOf n g.dropFront
  else
  { s with ctx := { s.ctx with
      gangs := match g.partner with
        | some m => Table.del t m
        | none => t,
      watches := s.ctx.watches.filter fun w => w.gang != n,
      heldSets := s.ctx.heldSets.filter fun h => h.gang != n,
      logs := s.ctx.logs.map fun e => (e.1, e.2.moveHeld n fun y =>
        if g.flights.any fun f => f.isHeld && f.younger == y then some (awayOwner g.frame) else none),
      shelves := s.ctx.shelves.map (fun e => (e.1, e.2.forgets n)),
      carrels := s.ctx.carrels.map fun e => (e.1, e.2.forgets n) } }

/-- The region level of a task: the code of its place (R32). -/
def Frame.level (f : Frame) : Nat := f.region.toNat % 4

/-- The pend of a parking AWAIT, which ends the segment (R26). -/
def endsSegment (p : Pend) : Bool :=
  match p with
  | .one _ _ _ | .any _ _ => true
  | _ => false

/-- A shadow ends with its compute gang's segment (R51). -/
def State.endShadow (s : State) (g : Gang) : State :=
  match g.partner with
  | some m => { s with ctx := { s.ctx with gangs := Table.del s.ctx.gangs m } }
  | none => s

/-! The saved image (R38, R109). -/

/-- What the state block holds: XM, the JOIN record, the named full/empty bits, the special registers of R109. -/
def Gang.stateWords (g : Gang) (bm : BitVec 256) : List DWord :=
  [g.path.xm.setWidth 64, g.path.join.getD 0, g.se &&& bm.extractLsb' 128 64,
    (g.he &&& bm.extractLsb' 208 16).setWidth 64, g.trapv, g.trapc, g.obsdef.setWidth 64, g.replaym, g.tcfg]
    ++ g.shape.toList ++ [g.maskm, g.maskn, g.tkey]

/-- A named pair: the values of the first register lane by lane, then those of the second, and their full/empty bits
(R38, log 106). -/
def Gang.pairBytes (g : Gang) (i : Nat) : List Byte :=
  let reg (k : Nat) : Lanes := g.w[2 * i + k]?.getD (Lanes.all 0)
  let bits (k : Nat) : Nat := (~~~(g.we[2 * i + k]?.getD 0)).toNat
  let lanes (k : Nat) : List Byte := ((reg k).toList.take g.width).flatMap fun v => natToBytes 4 v.toNat
  lanes 0 ++ lanes 1 ++ natToBytes 4 (bits 0) ++ natToBytes 4 (bits 1)

/-- The image of a parked gang (R38): its parts in the order of the table, padded, the store hash in its last 8
bytes. -/
def Gang.imageBytes (g : Gang) (bm : BitVec 256) : List Byte :=
  let named (lo n : Nat) : List Nat := (List.range n).filter fun i => bm.getLsbD (lo + i)
  let parts :=
    (List.range 120).map (Config.stateBlock (g.stateWords bm))
      ++ (g.lrand.toList.take g.width).flatMap (fun v => natToBytes 4 v.toNat)
      ++ (named 0 128).flatMap g.pairBytes
      ++ (named 128 64).flatMap (fun i => natToBytes 8 (g.s[i]?.getD 0).toNat)
      ++ (named 192 7).flatMap (fun i => natToBytes 4 (g.p[i]?.getD 0).toNat)
      ++ (if (named 200 7).isEmpty then [] else natToBytes 8 (g.k &&& bm.extractLsb' 200 8).toNat)
      ++ (named 208 16).flatMap (fun i => natToBytes 8 (g.h[i]?.getD 0).toNat)
  parts ++ List.replicate (imageUnits g.width bm * 256 - 8 - parts.length) 0 ++ natToBytes 8 g.hash.toNat

/-- The registers that the image of a gang names: those of its AWAIT, or every one (R38, R42). -/
def Gang.imageBitmap (g : Gang) (f : Frame) : BitVec 256 :=
  match g.pend with
  | .one _ _ _ | .any _ _ | .got _ _ _ _ | .chosen _ _ _ => f.bitmap
  | .none | .depth _ | .room _ _ | .entering _ _ _ => bitmapAll g.regs

/-- A free block of the image pool (R37): the lowest run of units that no image takes. -/
def State.imageBlock (s : State) (units : Nat) : Option Nat :=
  let base := s.ctx.imageBase.toNat
  let used := (s.ctx.frames.filter fun e => e.2.imageSize != 0).map fun e =>
    (e.2.imagePtr.toNat, 256 * e.2.imageSize.toNat)
  let top := base + 256 * s.ctx.imageRoom + (used.map (·.2)).sum
  let fits (a : Nat) : Bool := decide (a + 256 * units ≤ top)
    && used.all fun u => decide (u.1 + u.2 ≤ a) || decide (a + 256 * units ≤ u.1)
  if s.ctx.imageRoom < units then none else (sortNats ((base :: used.map fun u => u.1 + u.2).filter fits)).head?

/-- The image of a parked task stands in its block (R38). -/
def State.writeImage (s : State) (a : Nat) : State :=
  match Table.seek s.ctx.parked a with
  | some g => s.deskWrite (s.frameOf a).imagePtr.toNat (g.imageBytes (g.imageBitmap (s.frameOf a)))
  | none => s

/-- The current gang parks as `g` (R37): the release at the region level comes first. Without a block of
the image pool it stays in its slot. -/
def State.park (s : State) (bm : BitVec 256) (resume : DWord) (g : Gang) : State :=
  let me := s.gang
  let f := me.frame
  let fr := s.frameOf f
  let units := imageUnits me.width bm
  let s1 := s.release me.carrel fr.level
  let s2 := s1.setFrameOf f { fr with
    resumePc := resume, state := .parked, bitmap := if endsSegment g.pend then bm else fr.bitmap,
    parkedOn := me.carrel, folio := g.folio }
  match s2.imageBlock units with
  | some a =>
    let s3 := (s2.modFrameOf f fun x => { x with
      imagePtr := BitVec.ofNat 64 a, imageSize := BitVec.ofNat 16 units }).vacate s.cur
    ({ s3 with ctx := { s3.ctx with
        imageRoom := s3.ctx.imageRoom - units, parked := Table.put s3.ctx.parked f g } } : State).writeImage f
  | none =>
    (if endsSegment g.pend then s2.endShadow me else s2).setGang
      { g with resident := true, partner := me.partner }

/-! Waking. -/

/-- The frame of a child, while it is that child's. -/
def State.childFrame? (s : State) (k : Nat × Nat) : Option Frame :=
  (Table.seek s.ctx.frames k.1).filter fun f => f.serial = k.2

/-- Every child of the gang's segment has ended (R26, R36). -/
def State.kidsEnded (s : State) (g : Gang) : Bool :=
  g.kids.all fun k => ((s.childFrame? k).map fun f => f.state == .ended).getD true

/-- A folio lies in the subtree of `root` or follows it in its task: its parents lead there. -/
def Trace.under (t : Trace) (fuel root x : Nat) : Bool :=
  match fuel with
  | 0 => false
  | k + 1 => x == root || ((t.folio x).parent != 0 && t.under k root (t.folio x).parent)

def Trace.subtree (t : Trace) (root : Nat) : List Nat :=
  (t.folios.filter fun e => t.under (t.folios.length + 1) root e.1).map (·.1)

/-- Segment 0 of each child of segment f. -/
def Trace.children (t : Trace) (f : Nat) : List (Nat × Folio) :=
  t.folios.filter fun e => e.2.parent = f && e.2.task0 = e.1 && !e.2.revoked

/-- R76: the segment itself or one in the subtrees of its children is queued or running. -/
def Trace.busyBelow (t : Trace) (f : Nat) : Bool :=
  let busy (x : Nat) : Bool := (t.folio x).queued || (t.folio x).running
  busy f || (t.children f).any fun e => (t.subtree e.1).any busy

/-- A gang that parked and still holds its slot (R37). -/
def State.inPlace (s : State) (g : Gang) : Bool :=
  let st := (s.frameOf g.frame).state
  g.resident && !g.isShadow && g.mode != .reexec && (st == .parked || st == .runnable)

/-- The gang runs beneath a trace root whose trace still records. -/
def State.beneath (s : State) (g : Gang) : Bool := s.traced g

/-- The image pool has no room for a task of a packed gang (R37, log 92). -/
def State.packStays (s : State) (bm : BitVec 256) : Bool :=
  s.gang.packed && (s.imageBlock (imageUnits s.gang.width bm)).isNone

/-- What a parked gang waits for has come (R26, R42, R313, R314, R35, R208). Beneath a trace root every named
register is full first (R68). -/
def State.isReady (s : State) (g : Gang) : Bool :=
  let below := !s.beneath g || (s.kidsEnded g && g.flights.isEmpty
    && (g.mode == .recording || !(s.traceOf g.trace).busyBelow ((s.traceOf g.trace).folio g.folio).parent))
  match g.pend with
  | .one k _ _ => (s.slotOf k).complete && below
  | .any ks _ =>
    if s.beneath g then ks.all (fun e => (s.slotOf e.2).complete) && below
    else ks.any fun e => (s.slotOf e.2).complete
  | .depth n => decide ((s.shelfOf n).depth < (s.shelfOf n).low)
  | .room n w => decide (n ≤ s.ctx.frameRoom) && (s.newSlot w).isSome
  | _ => false

/-- What the continuation delivers, fixed as it becomes runnable. -/
def State.settlePend (s : State) (p : Pend) : Pend :=
  match p with
  | .one k d c => .got k (s.slotOf k) d c
  | .any ks d =>
    match ks.find? fun e => (s.slotOf e.2).complete with
    | some e => .chosen e.1 e.2 d
    | _ => p
  | .depth _ | .room _ _ => Pend.none
  | p => p

/-- The last recorded segment of a task, from one of its segments on. -/
def Trace.lastFrom (t : Trace) : (fuel : Nat) → Nat → Nat
  | 0, f => f
  | k + 1, f => if (t.folio f).successor = 0 then f else t.lastFrom k (t.folio f).successor

def Trace.lastOf (t : Trace) (f : Nat) : Nat := t.lastFrom t.folios.length f

/-- The recorded return value of the task whose segment 0 is f (R65). -/
def Trace.taskRet (t : Trace) (f : Nat) : DWord := (t.folio (t.lastOf f)).ret

/-- The recorded return value of the task whose frame is f. -/
def Trace.retOf (t : Trace) (f : Nat) : DWord :=
  match t.folios.find? fun e => e.2.frame = f && e.2.task0 = e.1 && !e.2.revoked with
  | some e => t.taskRet e.1
  | .none => 0

/-- The gang with what its AWAIT delivers (R313, R314). -/
def State.delivered (s : State) (g : Gang) (p : Pend) : Gang :=
  match p with
  | .got _ was d _ => g.deliver d was s.freeNow
  | .chosen i _ d => g.writeDest g.xm d 64 (fun _ => 0) (BitVec.ofNat 64 i)
  | _ => g

/-- What is left of an AWAIT that has delivered: the slot is consumed and checked as the task goes on. -/
def Pend.taken (p : Pend) : Pend :=
  match p with
  | .got k was _ chk => .got k was .absent chk
  | .chosen i k _ => .chosen i k .absent
  | p => p

/-- The entry image of the segment that the parked gang begins (R68); `p` is its AWAIT, whose value the gang
has. -/
def State.entryImage (s : State) (g : Gang) (p : Pend) : EntryImage :=
  let t := s.traceOf g.trace
  let f := s.frameOf g.frame
  { gang := { g with pend := .none }, await := p, rets := g.kids.map fun k => t.retOf k.1, ret := g.ret,
    size := 256 * imageUnits g.width f.bitmap }

/-- One parked task becomes runnable, when its shelf has room for the entry (R45). Beneath a trace root its
entry image is captured with the value delivered (R68). -/
def State.wakeOne (s : State) (f : Nat) (g : Gang) : State × Gang :=
  let fr := s.frameOf f
  let p := s.settlePend g.pend
  let captures := s.beneath g && endsSegment g.pend
  let g1 : Gang := if captures then { s.delivered g p with pend := p.taken } else { g with pend := p }
  let s1 :=
    if captures then
      ((s.modTraceOf g.trace fun t =>
        t.modFolio g.folio fun x => { x with image := some (s.entryImage g1 p) }).checkLimit g.trace).useFree
    else s
  let s2 := (s1.modFrameOf f fun x => { x with state := .runnable }).touch (wingOf fr.parkedOn) fr.shelf
  (s2.enter fr.shelf (some fr.parkedOn) true (BitVec.ofNat 64 f), g1)

/-- A gang as a waking left it, in the mode that the state gives it now. -/
def Gang.woken (now g : Gang) : Gang := { g with mode := now.mode, folio := now.folio }

/-- Every parked task that can go on becomes runnable. -/
def State.wake (s : State) : State :=
  let waiting (s : State) (f : Nat) (g : Gang) : Bool :=
    (s.frameOf f).state == .parked && g.mode != .reexec && s.isReady g && !(s.shelfOf (s.frameOf f).shelf).full
  let s1 := (s.ctx.parked.map (·.1)).foldl (fun s f =>
    match Table.seek s.ctx.parked f with
    | some g =>
      if waiting s f g then
        let r := s.wakeOne f g
        match Table.seek r.1.ctx.parked f with
        | some now => { r.1 with ctx := { r.1.ctx with parked := Table.put r.1.ctx.parked f (now.woken r.2) } }
        | none => r.1
      else s
    | none => s) s
  (s1.ctx.gangs.map (·.1)).foldl (fun s n =>
    let g := s.gangOf n
    if s.inPlace g && waiting s g.frame g then
      let r := s.wakeOne g.frame g
      r.1.setGangOf n ((r.1.gangOf n).woken r.2)
    else s) s1

/-- The slot as it stands now, when the handle still names it; otherwise as it was when the task became
runnable. -/
def State.slotNow (s : State) (k : Nat) (was : Slot) : Slot :=
  let y := s.slotOf k
  if y.used && y.generation = was.generation then y else was

/-- A card that targets a future writes it, and whoever waits for it wakes (R210). -/
def State.writeFuture (s : State) (key : Nat) (v : DWord) : State :=
  ((s.modSlotOf key fun x => x.write v).wake).sweepSlots

/-- A future is written as its producer ends, and whoever waits for it wakes (R210). -/
def State.complete (s : State) (key : Nat) (v : DWord) : State :=
  ((s.modSlotOf key fun x => { x.write v with outstanding := 0 }).wake).sweepSlots

/-- What came from shelf n to the current gang's paths, under the owner that its task has while it is away. -/
def State.givenAway (s : State) (n f : Nat) : List ((Nat × Bool) × Option DWord) :=
  ((s.shelfOf n).given.filter fun e => e.1.1 = s.cur).map fun e => ((awayOwner f, e.1.2), e.2)

/-- The spawning gang is descheduled with every register live (R35, R42): its segment goes on later, so
its shadow gang and its watches wait with it, the shadow under the next key. -/
def State.deschedule (s : State) (resume : DWord) (pend : Pend) : State :=
  let g := s.gang
  let s1 := s.park (bitmapAll g.regs) resume (s.wholeGang resume pend)
  if s.packStays (bitmapAll g.regs) then s
  else if Table.has s1.ctx.parked g.frame then
    let away := (s.ctx.watches.filter fun w => w.gang = s.cur).map fun w => { w with gang := awayOwner g.frame }
    let shadow := match g.partner with
      | some m => Table.seek s.ctx.gangs m
      | none => none
    let parked := match shadow with
      | some h => Table.put s1.ctx.parked (g.frame + 1) { h with resident := false }
      | none => s1.ctx.parked
    { s1 with ctx := { s1.ctx with
        parked := parked, watches := s1.ctx.watches ++ away,
        heldSets := s.ctx.heldSets.map fun (h : HeldSet) => if h.gang = s.cur then { h with gang := awayOwner g.frame } else h,
        shelves := s1.ctx.shelves.map fun (e : Nat × Shelf) =>
          (e.1, { e.2 with given := e.2.given ++ s.givenAway e.1 g.frame }) } }.wake
  else s1.wake

/-- The gang is descheduled until frames and a slot of the future table are there (R35, R208); it then
issues the instruction again. -/
def State.awaitRoom (s : State) (frames : Nat) : State :=
  (s.deschedule s.pc (.room frames (wingOf s.gang.carrel))).tick

/-- An engine instruction waits in place for a slot of the future table (R356, R367). -/
def State.awaitSlot (s : State) : State := s.hold

/-- An entry of a shelf is taken; putters that wait for the depth may go on (R42). -/
def State.takeEntry (s : State) (n i : Nat) : State := (s.modShelfOf n fun x => x.takeAt i).wake

/-! The event LOAD_RETURN (R17): result number `n` of a gang is written, its destination is full; an access that an
order gate holds is taken again (R160). -/

/-- The gang that a result returns to becomes the current one: a resident gang, or a parked task's saved gang
under its away number (R38). -/
def State.seat (s : State) (gn : Nat) : Option State :=
  if gn < awayOwner 0 then (if (s.gangOf gn).resident then some { s with cur := gn } else none)
  else (Table.seek s.ctx.parked (gn - awayOwner 0)).map fun g => { s.setGangOf gn g with cur := gn }

/-- A parked task's saved gang goes back to its place, with its image, and the task may go on. -/
def State.unseat (s : State) : State :=
  if s.cur < awayOwner 0 then s
  else
    (({ s with ctx := { s.ctx with
        parked := Table.put s.ctx.parked (s.cur - awayOwner 0) s.gang,
        gangs := Table.del s.ctx.gangs s.cur } } : State).writeImage (s.cur - awayOwner 0)).wake

/-- What a replayed load meets at its block or page is a fault of the load (R114, R146, R150). -/
def State.returnFault (s : State) (f : Flight) : Option State :=
  if !f.replay then none
  else
    (replayFault s f).map fun e =>
      (e.bad.foldl (fun s pa => s.logError pa) s).assertHalt
        { s.carrelFault e.kind f.mask e.lanes e.detail with pc := f.pc, younger := f.younger, cycle := f.cycle }

def execLoadReturn (gn n : Nat) (s0 : State) : Result :=
  match s0.seat gn with
  | none => .refused (.notEnabled "LOAD_RETURN")
  | some s =>
    match s.gang.flights[n]? with
    | none => .refused (.notEnabled "LOAD_RETURN")
    | some f =>
      let early := match f.req with
        | .sysr _ _ due => decide (s.clock < due)
        | .strong h => decide (s.clock < h.due)
        | _ => false
      if early || s.halt != .running then .refused (.notEnabled "LOAD_RETURN")
      else
        match f.req with
        | .strong h =>
          match s.takeHeld n f h with
          | some s1 => .next s1.unseat
          | none => .refused (.notEnabled "LOAD_RETURN")
        | _ =>
          match s.returnFault f with
          | some s1 => .next s1.unseat
          | none =>
            .next ((s.modGang fun g => { g with flights := g.flights.eraseIdx n }).land (arrived s f)).unseat

end Sys2Proof.Machine
end

