-- ==== Sys2Proof/Machine/Propagation.lean ====
section
/-! DEFINITION. What the Archive and the desk do with a trace between instructions: order labels (R63,
R64), allocations (R55), revocation (R79), retirement (R77), the end of a task (R39, R161, R307), of a
propagation and of a trace (R27, R60, R61). -/

namespace Sys2Proof.Machine

open Sys2Proof

/-! Order. -/

/-- A label between `pred` and the next one in use; none when there is no room (R64). -/
def Trace.labelAfter (t : Trace) (pred : DWord) : Option DWord :=
  let p := pred.toNat
  let above := (t.folios.map fun e => e.2.label.toNat).filter (p < ·)
  let room : Nat := match above with
    | [] => min (2 ^ 41) (2 ^ 64 - p)
    | _ => above.foldl min (2 ^ 64) - p
  if room / 2 = 0 then .none else some (BitVec.ofNat 64 (p + room / 2))

/-- The greatest label among folio f and the subtrees of the given children. -/
def Trace.lastLabel (t : Trace) (f : Nat) (kids : List Nat) : DWord :=
  (kids.flatMap t.subtree).foldl (fun m x => if m < (t.folio x).label then (t.folio x).label else m)
    (t.folio f).label

/-- Where a child with this spawn ordinal stands among the children of segment f (R63). -/
def Trace.childLabel (t : Trace) (f : Nat) (ordinal : Word) : Option DWord :=
  t.labelAfter (t.lastLabel f
    (((t.children f).filter fun e => e.2.ordinal ≤ ordinal).map (·.1)))

/-- Where the task's next segment stands: after every child of segment f (R63). -/
def Trace.nextLabel (t : Trace) (f : Nat) : Option DWord :=
  t.labelAfter (t.lastLabel f ((t.children f).map (·.1)))

/-- A new folio with the trace's next index. -/
def Trace.addFolio (t : Trace) (x : Folio) : Trace × Nat :=
  ({ t.setFolio t.next x with next := t.next + 1 }, t.next)

/-! The modifiable arena (R55). -/

/-- The granules of an allocation; a MODNEW that allocated nothing is recorded at address 0. -/
def granulesOf (a : Nat × Nat) : List Nat :=
  if a.1 = 0 then [] else (List.range ((a.2 + 7) / 8)).map fun i => a.1 / 8 * 8 + 8 * i

/-- The end of an allocation's granules. -/
def Alloc.stop (a : Alloc) : Nat := a.addr + (a.size + 7) / 8 * 8

/-- The allocations that the folios `fs` of trace t own and `p` names go back to the arena, with their granules
(R55, R79). -/
def State.freeOwned (s : State) (t : Nat) (fs : List Nat) (p : Alloc → Bool) : State × List Nat :=
  let goes (x : Alloc) : Bool := x.trace = some t && fs.contains x.folio && p x
  ({ s with ctx := { s.ctx with allocs := s.ctx.allocs.filter fun x => !goes x } },
    (s.ctx.allocs.filter goes).flatMap fun x => granulesOf (x.addr, x.size))

/-- Granules that lost their writer or were freed: every surviving reader is queued, a later read is an
orphan's (R79, R82). -/
def Trace.orphan (t : Trace) (gs : List Nat) : Trace :=
  gs.foldl (fun t g => t.markReaders g .none) { t with orphans := (t.orphans ++ gs).eraseDups }

/-! Revocation (R79). -/

def Folio.written (f : Folio) : List Nat :=
  (f.records ++ f.fresh).filterMap fun r => match r with
    | .write g => some g
    | _ => Option.none

/-- Revoke the folio and everything below and after it. One that runs stays, marked, until it retires;
one that waits never runs. -/
def State.revoke (s : State) (t root : Nat) : State :=
  let tr := s.traceOf t
  let ids := tr.subtree root
  let running := ids.filter fun i => s.runsFolio t i
  let gs := (ids.flatMap fun i => (tr.folio i).written).eraseDups
  let freed := s.freeOwned t ids fun _ => true
  let waits := ((s.ctx.parked.filter fun e => e.2.trace = t && ids.contains e.2.folio).map (·.1))
  let (under, apart) := waits.partition fun a => (s.frameOf a).state == .running
  let lost (f : Frame) : Bool :=
    f.trace = t && f.traced && f.mode == .newWork && ids.contains f.folio && f.state != .ended && f.state != .running
  let dead := apart ++ (s.ctx.frames.filter fun e => lost e.2 && !waits.contains e.1).map (·.1)
  let strip (x : Folio) : Folio :=
    { x with revoked := true, records := [], fresh := [], allocs := [], freshAllocs := [], image := none,
             queued := false, stale := false }
  let tr1 : Trace :=
    { tr with
      folios := (tr.folios.filter fun e => !(ids.contains e.1) || running.contains e.1).map fun e =>
        if running.contains e.1 then (e.1, strip e.2)
        else if ids.contains e.2.successor then (e.1, { e.2 with successor := 0 })
        else e,
      queue := tr.queue.filter fun q => !ids.contains q }
  let s1 := freed.1.setTraceOf t (tr1.orphan (gs ++ freed.2))
  let s2 := { s1 with ctx := { s1.ctx with
    entries := s1.ctx.entries.filter fun e => !(e.2.trace = t && ids.contains e.2.folio) } }
  (under.foldl (fun s a => s.dropParked a) s2).dropTasks dead

/-! Retirement (R77). -/

/-- What every retirement does (a run that is revoked does not count among the propagation's, log 109): unmatched
children go, lost writers orphan their granules, allocations not made again are freed, the new run replaces the
old. -/
def State.retireRun (s : State) (t f : Nat) : State :=
  let x := (s.traceOf t).folio f
  let meets (a : Nat × Nat) (y : Alloc) : Bool := a.1 ≠ 0 && y.addr < a.1 + a.2 && a.1 < y.stop
  if x.revoked then s.revoke t f
  else
    let gone := ((s.traceOf t).children f).filter fun e => !x.matched.contains e.1
    let s1 := gone.foldl (fun s e => s.revoke t e.1) s
    let now := ({ x with records := [] } : Folio).written
    let lost := ({ x with fresh := [] } : Folio).written.filter fun g => !now.contains g
    let unmade := x.allocs.filter fun a => !x.freshAllocs.contains a
    let freed := s1.freeOwned t [f] fun y => unmade.any (fun a => meets a y) && !x.freshAllocs.any fun a => meets a y
    freed.1.modTraceOf t fun tr =>
      let tr1 := tr.modFolio f fun y =>
        { y with records := y.fresh, fresh := [], allocs := y.freshAllocs, freshAllocs := [],
                 matched := [], running := false, ran := true, runNo := y.runNo + 1 }
      let tr2 := tr1.orphan (lost ++ freed.2)
      { tr2 with nruns := tr2.nruns + (if tr.state == .propagating then 1 else 0) }

/-- The trace future holds the root's return value as it stands (R27). -/
def State.rootValue (s : State) (t : Nat) (v : DWord) : State :=
  let tr := s.traceOf t
  (s.setTraceOf t { tr with rootRet := v }).modSlotOf tr.future fun x => { x with value := v }

/-- The children of a future whose frame is f, of this serial number, have this return value, and have ended. -/
def Slot.kidEnds (x : Slot) (f serial : Nat) (ret : DWord) (carrel : Nat) : Slot :=
  let mine (k : Kid) : Bool := k.frame = f && k.serial = serial
  if x.used && x.kind = 1 && x.kids.any (fun k => mine k && (!k.ended || x.held.isSome)) then
    let was := (x.kids.filter fun k => mine k && !k.ended).length
    let kids := x.kids.map fun k =>
      if mine k && (!k.ended || x.held.isSome) then { k with ended := true, ret := ret, on_ := carrel } else k
    let left := x.outstanding - was
    { x with kids := kids, outstanding := left, value := if was = 0 then x.value else ret,
             complete := x.complete || left = 0 }
  else x

def State.kidEnds (s : State) (f : Nat) (ret : DWord) (carrel : Nat) : State :=
  let serial := (s.frameOf f).serial
  { s with ctx := { s.ctx with slots := s.ctx.slots.map fun e => (e.1, e.2.kidEnds f serial ret carrel) } }

/-- The entry of segment g holds the current return value of the child whose frame is f (R68, R77); so does a gang
that waits to begin it. -/
def State.renewEntry (s : State) (t g f : Nat) (ret : DWord) (carrel : Nat) : State :=
  let x := (s.traceOf t).folio g
  match x.image with
  | none => s
  | some im =>
    let p := match im.await with
      | .got k was d chk => .got k (was.kidEnds f (s.frameOf f).serial ret carrel) d chk
      | p => p
    let g1 := s.delivered im.gang p
    let im1 : EntryImage :=
      { im with gang := g1, await := p, rets := (im.gang.kids.zip im.rets).map fun e => if e.1.1 = f then ret else e.2 }
    let s1 := s.modTraceOf t fun tr => tr.modFolio g fun y => { y with image := some im1 }
    match Table.seek s1.ctx.parked x.frame with
    | some now =>
      if now.trace = t && now.folio = g && (s1.frameOf x.frame).state == .runnable then
        { s1 with ctx := { s1.ctx with parked := Table.put s1.ctx.parked x.frame (now.woken { g1 with pend := now.pend }) } }
      else s1
    | none => s1

/-- A changed return value of the task whose segment 0 is t0 reaches what depends on it (R77). -/
def State.returnChanged (s : State) (t t0 : Nat) (ret : DWord) (carrel : Nat) : State :=
  let x := (s.traceOf t).folio t0
  let next := ((s.traceOf t).folio x.parent).successor
  let started := ((s.traceOf t).folio next).ran || ((s.traceOf t).folio next).running
  if x.parent = 0 then s.rootValue t ret
  else if x.inPlace then s.modTraceOf t fun tr => tr.enqueue x.parent
  else if next = 0 then s
  else
    let s1 := s.renewEntry t next x.frame ret carrel
    if started then s1.modTraceOf t fun tr => tr.enqueue next else s1

/-- EXIT of a segment that re-executed or of new work (R77). -/
def State.retireExit (s : State) (t f : Nat) (ret : DWord) (carrel : Nat) : State :=
  let x := (s.traceOf t).folio f
  let last := (s.traceOf t).folio ((s.traceOf t).lastOf f)
  if x.revoked || !Table.has (s.traceOf t).folios f then s
  else
    let s1 := if x.successor = 0 then s else s.revoke t x.successor
    let s2 := s1.modTraceOf t fun tr => tr.modFolio f fun y =>
      { y with successor := 0, exited := true, ret := ret, hasRet := true }
    if last.hasRet && last.ret = ret then s2 else (s2.kidEnds x.frame ret carrel).returnChanged t x.task0 ret carrel

/-- The folio of a task's next segment, after the children of segment f (R77). A return value that is recorded for
the task goes to it, the last one (R65). -/
def State.nextFolio (s : State) (t f : Nat) (resume : DWord) (running : Bool) : State × Nat :=
  let tr := s.traceOf t
  let x := tr.folio f
  match tr.nextLabel f with
  | none => (s, 0)
  | some lab =>
    let r := tr.addFolio { Folio.none with
      label := lab, entryPc := resume, digest := x.digest, ordinal := x.ordinal, parent := f,
      frame := x.frame, task0 := x.task0, running := running, ret := x.ret, hasRet := x.hasRet }
    ((s.setTraceOf t (r.1.modFolio f fun y =>
      { y with successor := r.2, exited := false, ret := 0, hasRet := false })).checkLimit t, r.2)

/-- The bits of two entry images that R68 compares: every saved register (R38, R109), XM, every child's return
value; and the return value so far, which the segment may leave standing, and the address at which it goes on (R80,
log 93). -/
def sameImage (a b : EntryImage) : Bool :=
  a.gang.path.pc == b.gang.path.pc && a.gang.w == b.gang.w && a.gang.we == b.gang.we && a.gang.s == b.gang.s && a.gang.se == b.gang.se
    && a.gang.p == b.gang.p && a.gang.k == b.gang.k && a.gang.h == b.gang.h && a.gang.he == b.gang.he
    && a.gang.xm == b.gang.xm && a.gang.path.join == b.gang.path.join
    && a.gang.lrand == b.gang.lrand && a.gang.tkey == b.gang.tkey
    && a.gang.trapv == b.gang.trapv && a.gang.trapc == b.gang.trapc && a.gang.obsdef == b.gang.obsdef
    && a.gang.replaym == b.gang.replaym && a.gang.tcfg == b.gang.tcfg && a.gang.shape == b.gang.shape
    && a.gang.maskm == b.gang.maskm && a.gang.maskn == b.gang.maskn && a.gang.hash == b.gang.hash
    && a.rets == b.rets && a.ret == b.ret

/-! Propagations and traces end. -/

/-- A slot that the trace kept is freed with it (R61, R208); an AWAIT that waits on it in place still finds it and
delivers (R329). -/
def State.releaseSlot (s : State) (t key : Nat) (x : Slot) : Slot :=
  if x.held != some t then x
  else if s.awaitedInPlace key x then { x with held := none }
  else x.free

/-- Everything a trace holds is released, and the frames and slots it kept (R35, R61, R208). What its segments own
stays allocated and has no owner. -/
def State.releaseTrace (s : State) (t : Nat) : State :=
  let kept (a : Nat) : Bool := a = (s.traceOf t).rootFrame
    || s.ctx.slots.any fun e => e.2.held = some t && e.2.kids.any fun k => k.frame = a && k.serial = (s.frameOf a).serial
  let mine (e : Nat × Frame) : Bool := e.2.state == .ended && ((e.2.traced && e.2.trace = t) || kept e.1)
  let s1 := (((s.ctx.frames.filter mine).map (·.1)).foldl (fun s f => s.freeFrame f) s).setTraceOf t Trace.none
  { s1 with ctx := { s1.ctx with
      slots := s1.ctx.slots.map fun e => (e.1, s1.releaseSlot t e.1 e.2),
      allocs := s1.ctx.allocs.map fun a => if a.trace = some t then { a with trace := none } else a } }

/-- A TDROP that waited takes effect (R61). -/
def State.dropIfDue (s : State) (t : Nat) : State :=
  let tr := s.traceOf t
  if tr.drop && tr.rootEnded && tr.props.isEmpty && tr.active.isNone then s.releaseTrace t else s

/-- A propagation is over when its queue is empty and nothing of it runs (R27). Cancelled ones are over when
nothing of the trace runs: it is abandoned, and one of its propagations that is not cancelled records the root
afresh (R316). -/
def State.settleProp (s : State) (t : Nat) : State :=
  let tr := s.traceOf t
  if tr.folios.any (fun e => e.2.running) || s.ctx.entries.any (fun e => e.2.trace = t) then s
  else if !tr.cancels.isEmpty then
    let gone := (tr.active.map tr.cancels.contains).getD false
    let s1 := (s.setTraceOf t { tr with
      cancels := [], active := if gone then none else tr.active, state := if gone then .recorded else tr.state }).abandon t
    (tr.cancels.foldl (fun s key => s.complete key tr.rootRet) s1).dropIfDue t
  else
    match tr.active with
    | some key =>
      if tr.state == .propagating && tr.queue.isEmpty then
        ((s.setTraceOf t { tr with active := none, state := .recorded, nprops := tr.nprops + 1 }).complete key
          tr.rootRet).dropIfDue t
      else s
    | none => s

/-- A root recorded afresh, or for the first time, has ended (R27, R59, R60). Readers that R58 marked while it was
recorded afresh wait for the next PROPAGATE (R71), as after a first recording (log 94). -/
def State.rootEnds (s : State) (f : Nat) (ret : DWord) : State :=
  s.ctx.traces.foldl (fun s e =>
    let tr := s.traceOf e.1
    if tr.live && tr.rootFrame = f && !tr.rootEnded then
      let tr1 : Trace :=
        { tr with rootEnded := true, rootRet := ret, active := none,
                  state := if tr.state == .recording then .recorded else tr.state,
                  nprops := if tr.active.isSome then tr.nprops + 1 else tr.nprops }
      let s1 := (s.setTraceOf e.1 tr1).modSlotOf tr.future fun x =>
        { x with value := ret, complete := true, outstanding := 0 }
      let s2 := s1.wake
      (match tr.active with
        | some key => s2.complete key ret
        | none => s2).dropIfDue e.1
    else s) s

/-! The following segment of one that re-executed (R68, R77). -/

/-- The state of a frame after a re-execution of one of its segments: another of its segments may run or wait. -/
def State.restFrame (s : State) (a : Nat) : State :=
  let runs := s.tasksIn.any fun g => (g.resident || g.saved) && g.frame = a && !g.isShadow
  s.modFrameOf a fun f =>
    { f with state := if runs then .running else if Table.has s.ctx.parked a then .parked else .ended }

/-- The key of a following segment's entry. -/
def entryKey (t f : Nat) : Nat := t * 2 ^ 32 + f

/-- The gang that a re-execution parked is as the following segment's AWAIT leaves it: the new entry image replaces
that segment's, and the segment enters the recall queue, where the two differ (R68, R77). -/
def State.compareEntry (s : State) (k : Nat) (g : Gang) : State :=
  let p := s.settlePend g.pend
  let new := s.entryImage (s.delivered g p) p
  let old := ((s.traceOf g.trace).folio g.folio).image
  let s1 := (match p with
    | .got j _ _ _ => s.modSlotOf j fun y => { y with consumed := true }
    | _ => s).useFree
  let s2 :=
    if (old.map (sameImage new)).getD false then s1
    else s1.modTraceOf g.trace fun tr =>
      (tr.modFolio g.folio fun y => { y with image := some new, entryPc := new.gang.path.pc }).enqueue g.folio
  (({ s2 with ctx := { s2.ctx with entries := Table.del s2.ctx.entries k } } : State).checkLimit g.trace).settleProp g.trace

/-- Every such gang whose children have ended and whose future is complete. -/
def State.compareEntries (s : State) : State :=
  (s.ctx.entries.map (·.1)).foldl (fun s k =>
    match Table.seek s.ctx.entries k with
    | some g => if s.isReady g then s.compareEntry k g else s
    | none => s) s

/-- A future is written as its producer ends, and whatever waits for it goes on (R210). -/
def State.completed (s : State) (key : Nat) (v : DWord) : State := (s.complete key v).compareEntries

/-! The end of a task. -/

/-- The parent counts one child less (R36). -/
def State.countDown (s : State) (f : Nat) : State :=
  let me := (f, (s.frameOf f).serial)
  let gangs := s.tasksIn.filter (fun g => g.resident || g.saved) ++ (s.ctx.parked ++ s.ctx.entries).map (·.2)
  ((gangs.filter fun g => g.kids.contains me).map (·.frame)).eraseDups.foldl (fun s p =>
    s.modFrameOf p fun x => { x with awaiting := x.awaiting - 1 }) s

/-- A task has ended with this return value (R39, R47, R208). -/
def State.taskEnds (s : State) (f : Nat) (ret : DWord) (carrel : Nat) : State :=
  let s1 := s.countDown f
  let s2 := (s1.modFrameOf f fun x => { x with
    state := .ended, ret := ret, endedOn := carrel, imagePtr := 0, imageSize := 0 }).kidEnds f ret carrel
  let launches := s2.ctx.launches.map fun e =>
    if e.2.root = f && !e.2.rootEnded then (e.1, { e.2 with rootEnded := true, rootRet := ret }) else e
  let s3 := { s2 with ctx := { s2.ctx with launches := launches } }
  let s4 := ((s3.rootEnds f ret).wake).compareEntries.sweepFrames.sweepSlots
  let fr := s4.frameOf f
  if fr.parent = 0 && !fr.traced && fr.state == .ended then s4.freeFrame f else s4

/-- The level of the release at EXIT (R39, R73): the wider of the task's and its parent's; the package
for a launch root, for a task of a bound shelf and for a re-execution. -/
def exitLevel (g : Gang) (f : Frame) : Nat :=
  if f.parent = 0 || g.mode == .reexec then levelPackage
  else max f.level (f.parentRegion.toNat % 4)

/-- A task leaves its session at its EXIT; under RECORD its hash and its strong count are recorded (R156, R161). -/
def State.leaveSession (s : State) (g : Gang) : State :=
  let n := replayLog g.replaym
  let l := s.logOf n
  if g.inSession && !g.sroot && replayMode g.replaym = 1 then
    (s.putLog n (l.setFolio g.rfolio
      { l.folio g.rfolio with hash := g.hash, strong := g.strong, ended := true, hashed := true })).dropMember g
  else s.dropMember g

/-- The current gang's task is dropped, with what it did (R60, R79). -/
def State.discardTask (s : State) : State :=
  let g := s.gang
  (((s.dropMember g).leaveCellar g).vacate s.cur).restFrame g.frame

/-- The current gang's task ends, or its re-execution does (R307, R77). -/
def State.endTask (s : State) (ret : DWord) : State :=
  let g := s.gang
  let f := g.frame
  let s1 := (((s.release g.carrel (exitLevel g (s.frameOf f))).leaveSession g).leaveCellar g).vacate s.cur
  match g.mode with
  | .untraced => s1.taskEnds f ret g.carrel
  | .discarded => s1.restFrame f
  | .recording =>
    let s2 := (s1.retireRun g.trace g.folio).modTraceOf g.trace fun tr =>
      tr.modFolio g.folio fun y => { y with ret := ret, hasRet := true, exited := true }
    s2.taskEnds f ret g.carrel
  | .newWork =>
    (((s1.retireRun g.trace g.folio).retireExit g.trace g.folio ret g.carrel).taskEnds f ret g.carrel).settleProp g.trace
  | .reexec =>
    let s2 := ((s1.retireRun g.trace g.folio).retireExit g.trace g.folio ret g.carrel).restFrame f
    ((s2.wake).compareEntries).settleProp g.trace

/-- The folio that the current gang runs is revoked (R79). -/
def State.runsRevoked (s : State) : Bool :=
  let x := s.traceOf s.gang.trace
  !Table.has x.folios s.gang.folio || (x.folio s.gang.folio).revoked

/-- The image of the segment that follows one that re-executes: every result has arrived, it has no cellar yet. -/
def State.followImage (s : State) (im : Gang) (f : Nat) (mode : TraceMode) : Gang :=
  { s.settled im with folio := f, mode := mode, cbase := 0 }

/-- A parking AWAIT ends the segment (R26, R37, R77). -/
def State.parkSegment (s : State) (bm : BitVec 256) (resume : DWord) (pend : Pend) : State :=
  let g := s.gang
  let im := s.image bm resume pend
  let next (s : State) : State := ((s.wake).compareEntries).settleProp g.trace
  match g.mode with
  | .untraced => (s.park bm resume im).wake
  | .discarded => s.discardTask
  | .recording =>
    let r := (s.retireRun g.trace g.folio).nextFolio g.trace g.folio resume false
    let mode := r.1.gang.mode
    (r.1.park bm resume { im with folio := if mode == .recording then r.2 else 0, mode := mode }).wake
  | .newWork =>
    if s.runsRevoked then next (s.discardTask.retireRun g.trace g.folio)
    else
      let r := (s.retireRun g.trace g.folio).nextFolio g.trace g.folio resume true
      if r.1.gang.mode != .newWork || r.2 = 0 then next r.1.discardTask
      else next (r.1.park bm resume { im with folio := r.2 })
  | .reexec =>
    let s0 := s.release g.carrel levelPackage
    if s.runsRevoked then next (s0.discardTask.retireRun g.trace g.folio)
    else
      let s1 := s0.retireRun g.trace g.folio
      let follower := ((s1.traceOf g.trace).folio g.folio).successor
      if follower = 0 then
        let r := s1.nextFolio g.trace g.folio resume true
        if r.1.gang.mode != .reexec || r.2 = 0 then next r.1.discardTask
        else
          let s2 := r.1.park bm resume { im with folio := r.2, mode := .newWork }
          next (s2.modFrameOf g.frame fun y => { y with mode := .newWork, traced := true })
      else
        let s2 := s1.discardTask.modFrameOf g.frame fun y => { y with bitmap := bm, resumePc := resume }
        let waits := (Table.seek s2.ctx.parked g.frame).any fun x => x.folio = follower
        let s3 := if waits then
            s2.modTraceOf g.trace fun tr => tr.modFolio follower fun y => { y with entryPc := resume }
          else s2
        next { s3 with ctx :=
          if waits then
            { s3.ctx with parked := Table.put s3.ctx.parked g.frame (s1.followImage im follower .newWork) }
          else
            { s3.ctx with
              entries := Table.put s3.ctx.entries (entryKey g.trace follower) (s1.followImage im follower .reexec) } }

end Sys2Proof.Machine
end

