-- ==== Sys2Proof/Machine/Jobs.lean ====
section
/-! DEFINITION. The buffer table (R212, R213, R369, R370), copy queues and cards (R197, R199), and how an
engine job ends (R200, R209, R211). -/

namespace Sys2Proof.Machine

open Sys2Proof

/-! Buffers. -/

/-- The sources that are named and have their expected count (R213). -/
def BufEntry.sat (e : BufEntry) : BitVec 4 :=
  BitVec.ofNat 4 ((List.range 4).foldl (fun m i =>
    if e.named.getLsbD i && decide ((e.expected.getD i 0) ≤ (e.delivered.getD i 0)) then m + 2 ^ i else m) 0)

/-- The armed completion word goes to the carrel's scratchpad (R370). -/
def Carrel.writeArmed (c : Carrel) (e : BufEntry) : Carrel :=
  if e.armed then { c with sp := c.sp.write e.offset.toNat (natToBytes 4 e.value.toNat) } else c

def Carrel.buf (c : Carrel) (i : Nat) : BufEntry := c.bufs.getD i BufEntry.zero
def Carrel.setBuf (c : Carrel) (i : Nat) (e : BufEntry) : Carrel := { c with bufs := c.bufs.setIfInBounds i e }

/-- The entry is evaluated: FILLING with every named source satisfied becomes FULL, and its armed word is
written (R213). -/
def Carrel.evalBuf (c : Carrel) (i : Nat) (e : BufEntry) : Carrel :=
  let sat := e.sat
  if e.state == .filling && e.named ≠ 0 && sat = e.named then
    (c.setBuf i { e with satisfied := sat, state := .full }).writeArmed e
  else c.setBuf i { e with satisfied := sat }

/-- A credit of n bytes to a source (R213). -/
def Carrel.credit (c : Carrel) (i src n : Nat) : Carrel :=
  let e := c.buf i
  match e.state with
  | .filling | .full =>
    c.evalBuf i { e with delivered := e.delivered.setIfInBounds src (e.delivered.getD src 0 + BitVec.ofNat 32 n) }
  | _ => c

/-- A FULL entry, or one given up, is FREE or waits for its claims (R213). -/
def Carrel.freeBuf (c : Carrel) (i : Nat) : Carrel :=
  let e := c.buf i
  (c.setBuf i (if e.claims = 0 then BufEntry.zero else { e with state := .draining })).serve

def Carrel.claim (c : Carrel) (i : Nat) : Carrel :=
  let e := c.buf i
  c.setBuf i { e with claims := e.claims + 1 }

def Carrel.unclaim (c : Carrel) (i : Nat) : Carrel :=
  let e := c.buf i
  let e1 := { e with claims := e.claims - 1 }
  (c.setBuf i (if e1.claims = 0 && e.state == .draining then BufEntry.zero else e1)).serve

/-! Cards and queues. -/

def Card.bytes (c : Card) : List Byte :=
  natToBytes 1 c.kind.toNat ++ natToBytes 1 c.op.toNat ++ natToBytes 2 c.flags.toNat
    ++ natToBytes 4 c.count.toNat ++ natToBytes 8 c.source.toNat ++ natToBytes 8 c.dest.toNat
    ++ natToBytes 8 c.aux.toNat ++ natToBytes 8 c.rBase.toNat ++ natToBytes 8 c.rLen.toNat
    ++ natToBytes 8 c.wBase.toNat ++ natToBytes 8 c.wLen.toNat

def cardOf (bs : List Byte) : Card :=
  let d (k : Nat) : DWord := BitVec.ofNat 64 (field bs k 8)
  { kind := BitVec.ofNat 8 (field bs 0 1), op := BitVec.ofNat 8 (field bs 1 1),
    flags := BitVec.ofNat 16 (field bs 2 2), count := BitVec.ofNat 32 (field bs 4 4),
    source := d 8, dest := d 16, aux := d 24, rBase := d 32, rLen := d 40, wBase := d 48, wLen := d 56 }

/-- A card's buffer entry, source slot, credit and CRC flags (R197). -/
def Card.entry (c : Card) : Nat := (c.flags.extractLsb' 0 6).toNat
def Card.slot (c : Card) : Nat := (c.flags.extractLsb' 6 2).toNat
def Card.credits (c : Card) : Bool := c.flags.getLsbD 8
def Card.checks (c : Card) : Bool := c.flags.getLsbD 9

def Card.zero : Card :=
  { kind := 0, op := 0, flags := 0, count := 0, source := 0, dest := 0, aux := 0, rBase := 0, rLen := 0,
    wBase := 0, wLen := 0 }

def Job.none : Job :=
  { card := Card.zero, by_ := .copy, wing := 0, gallery := 0, bufCarrel := 0, target := 0, compAddr := 0,
    compObs := 0, slotAddr := 0, index := 0, future := Option.none, launch := 0, carrel := 0,
    state := .queued, linked := false, begun := false, cursor := 0, out := 0, outBuf := [], retries := 0,
    crcWant := 0, crcGot := 0, value := 0, credit := 0, claim := false, cancelled := false, tile := [], tileRead := false,
    envBad := false, fired := false, trace := Option.none, folio := 0, olds := [], follow := Option.none }

def State.jobOf (s : State) (j : Nat) : Job := Table.look s.ctx.jobs j Job.none
def State.setJobOf (s : State) (j : Nat) (x : Job) : State :=
  { s with ctx := { s.ctx with jobs := Table.put s.ctx.jobs j x } }
def State.modJobOf (s : State) (j : Nat) (f : Job → Job) : State := s.setJobOf j (f (s.jobOf j))

/-- No slot of the copy queue is free (R367). -/
def Ring.isFull (r : Ring) : Bool := r.count ≠ 0 && r.count ≤ r.write - r.read

/-- The envelope of a slot (R199). -/
def Job.envelope (x : Job) : List Byte :=
  natToBytes 8 x.compAddr.toNat ++ natToBytes 1 x.compObs.toNat ++ natToBytes 5 0
    ++ natToBytes 2 x.gallery ++ natToBytes 8 x.target.toNat
    ++ natToBytes 2 (wingOf x.bufCarrel + 16 * (x.bufCarrel % Config.carrelsPerWing)) ++ natToBytes 38 0

/-- A claimed slot of the wing's copy queue receives a card and its envelope (R199); a card that credits
an entry claims it (R212). -/
def State.appendJob (s : State) (x : Job) : State :=
  let r := s.copyRing x.wing
  let at_ := r.slot r.write 128
  let s1 := ((s.deskWrite at_ (x.card.bytes ++ x.envelope)).deskWrite r.header (natToBytes 8 (r.write + 1)))
  let claims := x.card.credits && ((s.carrelOf x.bufCarrel).buf x.card.entry).state != .free
  let s2 := if claims then s1.modCarrelOf x.bufCarrel fun c => c.claim x.card.entry else s1
  let s3 := s2.setJobOf s.ctx.nextJob { x with slotAddr := BitVec.ofNat 64 at_, index := r.write, claim := claims }
  { s3 with ctx := { s3.ctx with nextJob := s3.ctx.nextJob + 1 } }

/-! The end of a job. -/

/-- A completion word: an 8-byte strong store with `pub` at a virtual address, 0 for none (R47, R200). -/
def State.completionWord (s : State) (va : DWord) (v : DWord) : State :=
  if va = 0 then s else s.deskWrite va.toNat (natToBytes 8 v.toNat)

/-- The value of a job that failed (R209). -/
def failValue (code progress : Nat) : DWord :=
  BitVec.ofNat 64 (2 ^ 63 + code * 2 ^ 32 + progress % 2 ^ 32)

/-- A job ends with a value: the claim, the completion word, the futures (R200, R209, R210). `credit`
is what it credits. -/
def State.endJob (s : State) (j : Nat) (v : DWord) (credit : Option Nat) : State :=
  let x := s.jobOf j
  let s1 := match credit with
    | some n =>
      if x.card.credits then s.modCarrelOf x.bufCarrel fun c => c.credit x.card.entry x.card.slot n else s
    | none => s
  let s2 := if x.claim then s1.modCarrelOf x.bufCarrel fun c => c.unclaim x.card.entry else s1
  let s3 := s2.completionWord x.compAddr v
  let s4 := { s3 with ctx := { s3.ctx with jobs := Table.del s3.ctx.jobs j } }
  let s5 := match x.future with
    | some key => s4.completed key v
    | none => s4
  match s5.named x.target with
  | some (key, _) => (s5.writeFuture key v).compareEntries
  | none => s5

/-- The job of an engine future that has not ended. -/
def State.jobFor (s : State) (key : Nat) : Option Nat :=
  (s.ctx.jobs.find? fun e => e.2.future = some key).map (·.1)

/-- All writes of the job are done. -/
def Job.finish (x : Job) (v : DWord) (credit : Nat) : Job :=
  { x with state := .finishing, value := v, credit := credit }

/-- What a cancelled job leaves in its copy queue until the desk passes its slot. -/
def Job.tombstone (x : Job) : Job :=
  { Job.none with by_ := x.by_, wing := x.wing, index := x.index, cancelled := true }

/-- What is queued for job j on its carrel's units goes. -/
def Carrel.dropJob (c : Carrel) (j : Nat) : Carrel :=
  { c with xu := c.xu.filter fun o => o.job != j,
           seq := c.seq.filter fun o => !(o.job = j && o.kind == .drainRead) }

/-- A job that has not ended stops (R211, R363): one that is not begun goes at once; a running one ends with
what it has written, an inflate after its pending block (R195). One whose last chunk or whose follow-on came
first ends with its count (R217). -/
def State.stopJob (s : State) (j : Nat) : State :=
  let x := s.jobOf j
  let code := failValue 5 x.out
  let s1 := s.modCarrelOf x.carrel fun c => c.dropJob j
  if x.by_ == .xform then s1.endJob j code none
  else if x.state == .finishing || x.fired then s
  else if !x.begun then
    let s2 := s1.endJob j code none
    if x.linked then s2 else s2.setJobOf j x.tombstone
  else if x.card.kind = 3 then s.setJobOf j { x with cancelled := true }
  else s1.setJobOf j (x.finish code 0)

/-- CANCEL of an engine future (R211): on a complete one it does nothing, and the cancelled flag is set where a job
is removed or stopped (R316). -/
def State.cancelJob (s : State) (key : Nat) : State :=
  if (s.slotOf key).complete then s
  else
    match s.jobFor key with
    | some j =>
      let x := s.jobOf j
      if x.by_ != .xform && (x.state == .finishing || x.fired) then s
      else (s.modSlotOf key fun y => { y with cancelled := true }).stopJob j
    | none => s

end Sys2Proof.Machine
end

