-- ==== Sys2Proof/Machine/Control.lean ====
section
/-! DEFINITION. Branches, divergence and reconvergence (R98 to R104, R303 to R306), YIELD and NOP
(R308), DISPATCH (R50, R306). -/

namespace Sys2Proof.Machine

open Sys2Proof

/-- The path leaves its instruction as `f` says; `gone` when no lane of it remains (R101). -/
def State.depart (s : State) (h : Header) (transfer gone : Bool) (f : Gang → Gang) : State :=
  (s.issuedOne.modGang fun g =>
    ((((f g).modPath fun p => p.leaves p.pc).hint h transfer s.clock).settled gone)).tick

/-- A target of the B format, the G format or a bucket: the word's address + 12 * off (R259). -/
def offTarget (pc : DWord) (off : BitVec 32) : DWord := pc + 12 * off.signExtend 64

/-- A split at the top level (R98): the taking lanes are the older path. -/
def Gang.fork (g : Gang) (label target : DWord) (m : Mask) : Gang :=
  let p := g.path
  let rest := p.xm &&& ~~~m
  let a : Path := { Path.start target 0 with xm := m, lanes := m }
  let b : Path := { Path.start (p.pc + 12) 0 with xm := rest, lanes := rest }
  let g1 := ({ g with p0 := a, p1 := some b, younger := true,
                      split := some { label := label, arrived := 0 } }).settle 2 false
  if g1.p1.isSome then ({ g1 with younger := false }).settle 2 false else g1

/-- A divergent branch (R98 to R100): none when it raises ILLEGAL-OP. -/
def Gang.diverge (g : Gang) (target : DWord) (m : Mask) : Option Gang :=
  let p := g.path
  let rest := p.xm &&& ~~~m
  let stay := g.setPath { p with pc := p.pc + 12, xm := rest, lanes := p.lanes &&& ~~~m }
  let go := g.setPath { p with pc := target, xm := m, lanes := p.lanes &&& ~~~rest }
  match p.stack with
  | r :: tail =>
    if target = r.recon then
      some (stay.modPath fun q => { q with stack := { r with arrived := r.arrived ||| m } :: tail })
    else if p.pc + 12 = r.recon then
      some (go.modPath fun q => { q with stack := { r with arrived := r.arrived ||| rest } :: tail })
    else push p rest
  | [] =>
    match g.split with
    | some sp =>
      if target = sp.label then some { stay with split := some { sp with arrived := sp.arrived ||| m } }
      else if p.pc + 12 = sp.label then some { go with split := some { sp with arrived := sp.arrived ||| rest } }
      else push p rest
    | none => p.join.map fun label => g.fork label target m
where
  /-- R99: the record is consumed, an entry pushed; the taking lanes run first. -/
  push (p : Path) (rest : Mask) : Option Gang :=
    match p.join with
    | none => none
    | some label =>
      if 272 ≤ p.stack.length then none
      else
        some (g.setPath { p with pc := target, xm := m, lanes := m, join := none,
                                 stack := { recon := label, pending := p.pc + 12, pmask := rest,
                                            emask := p.lanes, arrived := 0 } :: p.stack })

/-- The entries of a path beyond the 16 that it holds in the carrel, the outermost first (R99). -/
def Path.deep (p : Path) : List Region := p.stack.reverse.drop 16

/-- A spilled entry's 32 bytes (R99). -/
def Region.bytes (r : Region) : List Byte :=
  natToBytes 8 (r.recon.toNat % 2 ^ 57) ++ natToBytes 8 (r.pending.toNat % 2 ^ 57)
    ++ natToBytes 4 r.pmask.toNat ++ natToBytes 4 r.emask.toNat ++ natToBytes 8 0

/-- The entries that the current path has pushed or changed since it had `old` stand in the spill area that the
desk allocates on the first spill and names in the frame (R99); the younger path's follow the older's (log 89). -/
def State.spill (s : State) (old : List Region) : State :=
  let g := s.gang
  let deep := g.path.deep
  if deep.isEmpty || deep == old then s
  else
    let f := s.frameOf g.frame
    let base := if f.stackSpill = 0 then Config.placement s.ctx.number g.frame 7 else f.stackSpill
    let first := base.toNat + if g.younger then 8192 else 0
    let s1 := s.modFrameOf g.frame fun f => { f with stackSpill := base }
    (List.range deep.length).foldl (fun s i =>
      match deep[i]?, s.deskPa (first + 32 * i) with
      | some r, some pa => if old[i]? = some r then s else s.homeWrite pa r.bytes
      | _, _ => s) s1

/-- The branch would diverge where no record lets it (R98, R99): ILLEGAL-OP. -/
def State.strandedBranch (s : State) (c : WordClass) (m : Mask) (target : DWord) : Bool :=
  !(c == .gang || m = s.xm) && (s.gang.diverge target m).isNone

/-- A divergent branch of an unsplit gang needs a JOIN record, whatever its target (R98): without one it is
ILLEGAL-OP before its source is looked at (R271). -/
def Gang.joinReady (g : Gang) (h : Header) (c : WordClass) : Bool :=
  c == .gang || guardLanes g h = g.xm || g.split.isSome || g.path.join.isSome || !g.path.stack.isEmpty

/-- A branch whose guard admits the lanes of m to `target` (R303); `link` is what CALL writes. -/
def branchTo (s : State) (h : Header) (c : WordClass) (m : Mask) (target : DWord) (link : Gang → Gang) :
    Result :=
  if c == .gang || m = s.xm then .next ((s.modGang link).leave h target true)
  else if s.strandedBranch c m target then illegal s m
  else .next (s.depart h true false fun g => ((link g).diverge target m).getD g)

def bFieldsOk (x : BFmt) : Bool := x.a == .absent && x.mod == 0

/-- BRA (R301, R303). -/
def execBra (x : BFmt) (s : State) : Result :=
  let c := WordClass.ofGuard x.hdr
  issue s x.hdr c (bFieldsOk x && x.hdr.d == .absent) [] (fun _ => []) fun m =>
    branchTo s x.hdr c m (offTarget s.pc x.off) id

/-- CALL (R301, R303): the link is the next word's address. -/
def execCall (x : BFmt) (s : State) : Result :=
  let c := WordClass.ofGuard x.hdr
  let legal := bFieldsOk x && (match x.hdr.d with
    | .s _ => true
    | _ => false)
  let pc := s.pc
  issue s x.hdr c legal [(x.hdr.d, false)] (fun _ => []) fun m =>
    branchTo s x.hdr c m (offTarget pc x.off) fun g => match x.hdr.d with
      | .s i => g.setS i (pc + 12)
      | _ => g

/-- The fields of an RRR word of this chapter that a row does not name (R301). -/
def rrrPlain (x : RRR) (b c : Bool) : Bool :=
  x.rsv == 0 && x.mod == 0 && (b || (x.b == .absent && !x.fe.getLsbD 1))
    && (c || (x.c == .absent && !x.fe.getLsbD 0))
    && feOk (x.fe.getLsbD 2) x.a && feOk (x.fe.getLsbD 1) x.b && feOk (x.fe.getLsbD 0) x.c

def isS (o : Operand) : Bool :=
  match o with
  | .s _ => true
  | _ => false

def isH (o : Operand) : Bool :=
  match o with
  | .h _ => true
  | _ => false

def isSImm (o : Operand) : Bool :=
  match o with
  | .s _ | .imm _ => true
  | _ => false

def srcA (x : RRR) (m : Mask) : List Src := [⟨x.a, x.fe.getLsbD 2, 0, false, m⟩]

/-- BRX and RET take the target from an s register (R303); its bits 1:0 must be zero (R259), which is asked
after ILLEGAL-OP (R271). -/
def branchReg (x : RRR) (s : State) : Result :=
  let c := WordClass.ofGuard x.hdr
  let legal := rrrPlain x false false && isS x.a && x.hdr.d == .absent && s.gang.joinReady x.hdr c
  issue s x.hdr c legal [] (srcA x) fun m =>
    let t := readGang s 0x1D 0 x.a
    if s.strandedBranch c m t then illegal s m
    else if t.extractLsb' 0 2 ≠ 0 then raiseFault s Code.alignment m m t
    else branchTo s x.hdr c m t id

def execBrx (x : RRR) (s : State) : Result := branchReg x s
def execRet (x : RRR) (s : State) : Result := branchReg x s

/-- JOIN (R304): the record of the path; it replaces one that stands. -/
def execJoin (x : BFmt) (s : State) : Result :=
  issue s x.hdr .gang (bFieldsOk x && x.hdr.d == .absent) [] (fun _ => []) fun _ =>
    .next ((s.modPath fun p => { p with join := some (offTarget p.pc x.off) }).advance x.hdr)

/-- The two paths meet at one RWAIT (R102). -/
def Gang.meet (g : Gang) (pc : DWord) : Gang :=
  let q := g.other.getD (Path.start 0 0)
  let p := g.path
  let arrived := (g.split.map (·.arrived)).getD 0
  let keep := arrived != 0
  { g with p0 := { Path.start pc 0 with xm := p.xm ||| q.xm,
                                        lanes := if keep then p.lanes ||| q.lanes else g.lanes },
           p1 := none, younger := false, focus := 0, trapSplit := false, split := if keep then g.split else none }

/-- RWAIT (R102, R305). -/
def execRwait (x : RRR) (s : State) : Result :=
  issue s x.hdr .gang (rrrPlain x false false && isSImm x.a && x.hdr.d == .absent) [] (srcA x) fun _ =>
    let g := s.gang
    let p := g.path
    let b := (readGang s 0x1C 0 x.a).toNat % 2 ^ 32
    if p.rwSkip = some p.pc then
      .next ((s.modPath fun p => { p with rwSkip := none }).advance x.hdr)
    else
      match g.split, p.stack, g.other with
      | some _, [], some q =>
        match q.wait with
        | .rwait pc deadline =>
          if pc = p.pc && s.clock ≤ deadline then
            .next (s.depart x.hdr false false fun g => g.meet (p.pc + 12))
          else .next (s.advance x.hdr)
        | .exited => .next (s.advance x.hdr)
        | _ =>
          .next (s.issuedOne.modGang fun g =>
            (g.modPath fun p => { p with wait := .rwait p.pc (s.clock + b) }).waits.stepStop).tick
      | _, _, _ => .next (s.advance x.hdr)

/-- A path that waits at an RWAIT goes on alone; the other passes that RWAIT without waiting (R102). -/
def Gang.passRwait (g : Gang) : Gang :=
  let pass (p : Path) : Path := { p.leaves (p.pc + 12) with wait := .none }
  let at0 := match g.p0.wait with
    | .rwait pc _ => some pc
    | _ => none
  match at0 with
  | some pc =>
    (({ g with p0 := pass g.p0, p1 := g.p1.map fun q => { q with rwSkip := some pc },
               younger := false } : Gang).settled false)
  | none =>
    match g.p1 with
    | some q =>
      match q.wait with
      | .rwait pc _ =>
        (({ g with p1 := some (pass q), p0 := { g.p0 with rwSkip := some pc }, younger := true } : Gang).settled false)
      | _ => g
    | none => g

def Gang.rwaitDeadline (g : Gang) : Option Nat :=
  match g.p0.wait with
  | .rwait _ d => some d
  | _ =>
    match g.p1 with
    | some q => match q.wait with
      | .rwait _ d => some d
      | _ => none
    | none => none

/-- The event RWAIT_BUDGET_EXPIRY (R102): from the cycle after the budget's last. -/
def execRwaitBudgetExpiry (gn : Nat) (s : State) : Result :=
  let g := s.gangOf gn
  match g.rwaitDeadline with
  | some d =>
    if d < s.clock && g.resident && s.halt == .running then .next (s.setGangOf gn g.passRwait)
    else .refused (.notEnabled "RWAIT_BUDGET_EXPIRY")
  | none => .refused (.notEnabled "RWAIT_BUDGET_EXPIRY")

/-- The open regions of the path, the top-level split the outermost (R101). -/
def Gang.openRegions (g : Gang) : Nat := g.path.stack.length + (if g.split.isSome then 1 else 0)

/-- BRK's effect on the gang (R101): `m` leaves n regions. -/
def Gang.breakOut (g : Gang) (m : Mask) (n : Nat) : Gang :=
  let p := g.path
  let st := (List.range p.stack.length).filterMap fun i => (p.stack[i]?).map fun r =>
    if i + 1 < n then { r with pmask := r.pmask &&& ~~~m, arrived := r.arrived &&& ~~~m, emask := r.emask &&& ~~~m }
    else if i + 1 = n then { r with arrived := r.arrived ||| m }
    else r
  let g1 := g.setPath { p with pc := p.pc + 12, xm := p.xm &&& ~~~m, lanes := p.lanes &&& ~~~m, stack := st }
  if n = p.stack.length + 1 then
    { g1 with split := g.split.map fun sp => { sp with arrived := sp.arrived ||| m } }
  else g1

/-- BRK (R101, R305). Outside any region it is ILLEGAL-OP before its count is looked at (R271); a count above 16
acts where that many regions are open (log 105). -/
def execBrk (x : RRR) (s : State) : Result :=
  let legal := rrrPlain x false false && isSImm x.a && x.hdr.d == .absent && s.gang.openRegions ≠ 0
  issue s x.hdr .lane legal [] (srcA x) fun m =>
    let n := (readGang s 0x1C 0 x.a).toNat % 2 ^ 32
    if n = 0 || s.gang.openRegions < n then illegal s m
    else .next (s.depart x.hdr true (s.xm &&& ~~~m == 0) fun g => g.breakOut m n)

/-- NOP (R308). -/
def execNop (x : RRR) (s : State) : Result :=
  issue s x.hdr .gang (rrrPlain x false false && x.a == .absent && x.hdr.d == .absent) [] (fun _ => [])
    fun _ => .next (s.advance x.hdr)

/-- YIELD: a NOP whose cede bit is set (R308). -/
def execYield (x : RRR) (s : State) : Result :=
  issue s x.hdr .gang (rrrPlain x false false && x.a == .absent && x.hdr.d == .absent) [] (fun _ => [])
    fun _ => .next (s.advance { x.hdr with cede := true })

/-! DISPATCH (R50, R306). -/

/-- A bucket of a dispatch table. -/
structure Bucket where
  lo : List Nat
  hi : List Nat
  entry : BitVec 32
  m : Nat
  n : Nat
  ok : Bool
deriving DecidableEq, Repr

def bucketOf (bs : List Byte) : Bucket :=
  let w (k : Nat) : Nat := bytesToNat ((bs.drop (4 * k)).take 4)
  let b (k : Nat) : Nat := bytesToNat ((bs.drop k).take 1)
  { lo := [w 0, w 1, w 2, w 3], hi := [w 4, w 5, w 6, w 7], entry := BitVec.ofNat 32 (w 8),
    m := b 36 % 4, n := b 37 % 4, ok := b 36 < 4 && b 37 < 4 && b 38 = 0 && b 39 = 0 }

def Bucket.holds (b : Bucket) (g : Gang) : Bool :=
  (List.range 4).all fun i =>
    let v := (g.shape.getD i 0).toNat
    b.lo.getD i 0 ≤ v && v ≤ b.hi.getD i 0

/-- DISPATCH (R50, R306); a bucket that is there to read and has a reserved bit set comes before alignment and
protection (R271). -/
def execDispatch (x : BFmt) (s : State) : Result :=
  let n := (x.mod.extractLsb' 0 5).toNat
  let legal := x.a == .absent && x.hdr.d == .absent && x.mod.extractLsb' 5 17 == 0 && 1 ≤ n && n ≤ 16
    && !s.gang.isShadow
  issue s x.hdr .gang legal [] (fun _ => []) fun m =>
    let g := s.gang
    let off := x.off.toNat
    let sec := s.consts g.code
    let inside (i : Nat) : Bool := off + 40 * (i + 1) ≤ sec.length
    let bs := ((List.range n).filter inside).map fun i => bucketOf ((sec.drop (off + 40 * i)).take 40)
    if bs.any fun b => !b.ok then illegal s m
    else if off % 8 ≠ 0 then raiseFault s Code.alignment m m (BitVec.ofNat 64 off)
    else if sec.length < off + 40 * n then raiseFault s Code.protection m m (BitVec.ofNat 64 off)
    else
      match bs.find? fun b => b.holds g with
      | none => .next (s.advance x.hdr)
      | some b =>
        .next ((s.modGang fun g => { g with maskm := g.shape.getD b.m 0, maskn := g.shape.getD b.n 0 }).leave
          x.hdr (offTarget s.pc b.entry) true)

end Sys2Proof.Machine
end

