-- ==== Sys2Proof/Machine/Transcend.lean ====
section
/-! DEFINITION. The transcendental functions of R291 as exact values for Encode: fixed-point series
with 256 fraction bits, and a sticky bit for what lies below (log 14). -/

namespace Sys2Proof.Machine

open Sys2Proof

/-- One in fixed point. -/
def fxOne : Nat := 2 ^ 256

/-- x * y of two fixed-point numbers. -/
def fxMul (x y : Nat) : Nat := x * y / fxOne

/-- The sum of n further terms of y^k / k!, from term `t` = y^(k-1) / (k-1)!. -/
def expTerms : Nat → Nat → Nat → Nat → Nat
  | 0, _, _, _ => 0
  | n + 1, y, t, k => let t' := fxMul t y / k; t' + expTerms n y t' (k + 1)

/-- e^y for a fixed-point y below 1. -/
def fxExp (y : Nat) : Nat := fxOne + expTerms 64 y fxOne 1

/-- The sum of n further terms of z^(2k+1) / (2k+1), given z^(2k-1) as `t` and w = z^2. -/
def atanhTerms : Nat → Nat → Nat → Nat → Nat
  | 0, _, _, _ => 0
  | n + 1, w, t, k => let t' := fxMul t w; t' / (2 * k + 1) + atanhTerms n w t' (k + 1)

/-- 2 atanh z for a fixed-point z of at most 1/3: the natural logarithm of (1 + z) / (1 - z). -/
def fxLn (z : Nat) : Nat := 2 * (z + atanhTerms 96 (fxMul z z) z 1)

/-- ln 2 = 2 atanh (1/3). -/
def fxLn2 : Nat := fxLn (fxOne / 3)

/-- The alternating sum of n further terms of (1/d)^(2k+1) / (2k+1). -/
def atanTerms : Nat → Nat → Nat → Nat → Int
  | 0, _, _, _ => 0
  | n + 1, d2, t, k =>
    let t' := t / d2
    (if k % 2 = 0 then 1 else -1) * ((t' / (2 * k + 1) : Nat) : Int) + atanTerms n d2 t' (k + 1)

/-- atan (1/d). -/
def fxAtanInv (d : Nat) : Int := ((fxOne / d : Nat) : Int) + atanTerms 128 (d * d) (fxOne / d) 1

/-- Pi by Machin's formula. -/
def fxPi : Nat := (16 * fxAtanInv 5 - 4 * fxAtanInv 239).toNat

/-- The sum of n further terms of (sign^k) w^k / ((a k + 1)(a k + 2)... ) for sin z / z: each term is
the one before it times w / (2k (2k + 1)); `alt` alternates signs. -/
def sincTerms (alt : Bool) : Nat → Nat → Nat → Nat → Int
  | 0, _, _, _ => 0
  | n + 1, w, t, k =>
    let t' := fxMul t w / (2 * k * (2 * k + 1))
    (if alt && k % 2 = 1 then -1 else 1) * ((t' : Nat) : Int) + sincTerms alt n w t' (k + 1)

/-- The same for cosh z: each term is the one before it times w / ((2k - 1) 2k). -/
def coshTerms : Nat → Nat → Nat → Nat → Nat
  | 0, _, _, _ => 0
  | n + 1, w, t, k => let t' := fxMul t w / ((2 * k - 1) * (2 * k)); t' + coshTerms n w t' (k + 1)

/-- The sum of n further terms of (-w)^k / (k! (2k + 1)), given w^(k-1) / (k-1)! as `t`. -/
def erfTerms : Nat → Nat → Nat → Nat → Int
  | 0, _, _, _ => 0
  | n + 1, w, t, k =>
    let t' := fxMul t w / k
    (if k % 2 = 1 then -1 else 1) * ((t' / (2 * k + 1) : Nat) : Int) + erfTerms n w t' (k + 1)

/-- mag * 2^exp in fixed point, low bits dropped. -/
def toFx (mag : Nat) (exp : Int) : Nat :=
  let e := exp + 256
  if e ≥ 0 then mag * 2 ^ e.toNat else mag / 2 ^ (-e).toNat

/-- 2^x (R291). -/
def numExp2 (x : ExactNum) : ExactNum :=
  match x with
  | .nan => .nan
  | .inf neg => if neg then .zero false else .inf false
  | .zero _ => .fin false 1 0 false
  | .fin neg mag exp _ =>
    if exp + (Nat.log2 mag : Nat) ≥ 12 then
      if neg then .fin false 1 (-4096) true else .fin false 1 4096 true
    else
      -- floor and fraction of the exact value
      let up := exp.toNat
      let dn : Nat := 2 ^ (-exp).toNat
      let v : Int := (if neg then -1 else 1) * ((mag * 2 ^ up : Nat) : Int)
      let n := v / (dn : Int)
      let f := (v % (dn : Int)).toNat
      if f = 0 then .fin false 1 n false
      else .fin false (fxExp (fxMul (f * fxOne / dn) fxLn2)) (n - 256) true

/-- log2 x (R291). -/
def numLog2 (x : ExactNum) : ExactNum :=
  match x with
  | .nan => .nan
  | .inf neg => if neg then .nan else .inf false
  | .zero _ => .inf true
  | .fin true _ _ _ => .nan
  | .fin false mag exp _ =>
    let b := Nat.log2 mag
    let n : Int := exp + b
    if mag = 2 ^ b then ExactNum.ofInt n 0
    else
      -- m = mag / 2^b in (1, 2); z = (m - 1) / (m + 1)
      let z := (mag - 2 ^ b) * fxOne / (mag + 2 ^ b)
      let frac := fxLn z * fxOne / fxLn2
      let v : Int := n * (fxOne : Int) + (frac : Int)
      match ExactNum.ofInt v (-256) with
      | .fin s m e _ => .fin s m e true
      | y => y

/-- sin (pi r) for 0 < r <= 1/2 given as mag / 2^k: r times a series in (pi r)^2. -/
def sinPi (mag k : Nat) : ExactNum :=
  let z := fxPi * mag / 2 ^ k
  let s := ((fxOne : Int) + sincTerms true 64 (fxMul z z) fxOne 1).toNat
  .fin false (mag * fxMul fxPi s) (-(256 : Int) - k) true

/-- sin (pi x) (R291): reduction modulo 2 is exact. -/
def numSinPi (x : ExactNum) : ExactNum :=
  match x with
  | .nan => .nan
  | .inf _ => .nan
  | .zero neg => .zero neg
  | .fin neg mag exp _ =>
    if exp ≥ 0 then .zero neg
    else
      let k := (-exp).toNat
      let one := 2 ^ k
      let r := mag % (2 * one)
      let flip := r ≥ one
      let t := r % one
      if t = 0 then .zero neg
      else
        let y := if 2 * t = one then ExactNum.fin false 1 0 false
          else sinPi (if 2 * t > one then one - t else t) k
        if flip != neg then y.neg else y

/-- cos (pi x) (R291). -/
def numCosPi (x : ExactNum) : ExactNum :=
  match x with
  | .nan => .nan
  | .inf _ => .nan
  | .zero _ => .fin false 1 0 false
  | .fin _ mag exp _ =>
    if exp ≥ 1 then .fin false 1 0 false
    else
      let k := (-exp).toNat
      let one := 2 ^ k
      let r := mag % (2 * one)
      -- cos is even about 0 and about 1
      let t := if r > one then 2 * one - r else r
      if t = 0 then .fin false 1 0 false
      else if t = one then .fin true 1 0 false
      else if 2 * t = one then .zero false
      else if 2 * t < one then sinPi (one - 2 * t) (k + 1)
      else (sinPi (2 * t - one) (k + 1)).neg

/-- tanh x (R291): x times sinh x / x over cosh x. From 16 on the value rounds to 1 in every format. -/
def numTanh (x : ExactNum) : ExactNum :=
  match x with
  | .nan => .nan
  | .inf neg => .fin neg 1 0 false
  | .zero neg => .zero neg
  | .fin neg mag exp _ =>
    if exp + (Nat.log2 mag : Nat) ≥ 4 then .fin neg (2 ^ 128 - 1) (-128) true
    else
      let w := toFx (mag * mag) (2 * exp)
      let sh := ((fxOne : Int) + sincTerms false 96 w fxOne 1).toNat
      let ch := fxOne + coshTerms 96 w fxOne 1
      .fin neg (mag * (sh * fxOne / ch)) (exp - 256) true

/-- erf x (R291): x times a series in x^2 over sqrt pi. From 8 on the value rounds to 1 in every
format. -/
def numErf (x : ExactNum) : ExactNum :=
  match x with
  | .nan => .nan
  | .inf neg => .fin neg 1 0 false
  | .zero neg => .zero neg
  | .fin neg mag exp _ =>
    if exp + (Nat.log2 mag : Nat) ≥ 3 then .fin neg (2 ^ 128 - 1) (-128) true
    else
      let w := toFx (mag * mag) (2 * exp)
      let s := ((fxOne : Int) + erfTerms 400 w fxOne 1).toNat
      let c := 2 * fxOne * fxOne / isqrt (fxPi * fxOne)
      .fin neg (mag * fxMul s c) (exp - 256) true

end Sys2Proof.Machine
end

