-- ==== Sys2Proof/Machine/Matrix.lean ====
section
/-! DEFINITION. The matrix array and the transform unit (R219 to R223, R238 to R258, R355 to R363): tile
descriptors, what issues into the sequencer, the steps of the array and of the transform unit. -/

namespace Sys2Proof.Machine

open Sys2Proof

/-! Tile descriptors (R219, R220). -/

structure Desc where
  rsv    : Bool
  b      : Nat
  half   : Bool
  domain : Bool
  fmt    : Nat
  cols   : Nat
  rows   : Nat
  stride : Nat
  loft   : Bool
  base   : Nat
deriving DecidableEq, Repr

def descOf (d : DWord) : Desc :=
  { rsv := d.getLsbD 63, b := 2 ^ ((d.extractLsb' 60 3).toNat + 3), half := d.getLsbD 59,
    domain := d.getLsbD 58, fmt := (d.extractLsb' 52 6).toNat, cols := (d.extractLsb' 42 10).toNat + 1,
    rows := (d.extractLsb' 32 10).toNat + 1, stride := (d.extractLsb' 17 15).toNat,
    loft := d.getLsbD 16, base := (d.extractLsb' 0 16).toNat }

/-- A spectral slot of a real format takes two elements (R220). -/
def Desc.pairs (d : Desc) : Bool := d.domain && !fmtComplex d.fmt

/-- Elements per row. -/
def Desc.elems (d : Desc) : Nat := if d.pairs then 2 * d.cols else d.cols

def blocksFor (fmt n : Nat) : Nat :=
  if fmtPerBlock fmt = 0 then 0 else (n + fmtPerBlock fmt - 1) / fmtPerBlock fmt

/-- 64-byte blocks of a row. -/
def Desc.rowBlocks (d : Desc) : Nat := blocksFor d.fmt d.elems

/-- The rules that every descriptor keeps (R219). -/
def Desc.ok (d : Desc) : Bool := !d.rsv && d.stride ≠ 0 && d.rowBlocks ≤ d.stride && !(d.half && !d.domain)

/-- Slots of a spectral block, elements of a spatial one. -/
def Desc.slots (d : Desc) : Nat := if d.domain && d.half then d.b / 2 else d.b

/-- A row is a whole number of blocks (R219). -/
def Desc.whole (d : Desc) : Bool := d.cols % d.slots = 0
def Desc.blocks (d : Desc) : Nat := d.cols / d.slots

/-- The tile ends within its storage (R219). -/
def Desc.fits (d : Desc) : Bool :=
  decide (d.base + (d.rows - 1) * d.stride + d.rowBlocks ≤ (if d.loft then 65536 else 8192))

/-- The format byte of the descriptor's blocks (R227). -/
def Desc.byte (d : Desc) : BitVec 8 := BitVec.ofBool d.domain ++ BitVec.ofBool d.half ++ BitVec.ofNat 6 d.fmt

/-- The block number of block j of row r. -/
def Desc.at_ (d : Desc) (r j : Nat) : Nat := d.base + r * d.stride + j

/-! Blocks. -/

def Carrel.storage (c : Carrel) (loft : Bool) : Memory := if loft then c.loft else c.sp

def Carrel.block (c : Carrel) (loft : Bool) (k : Nat) : Block :=
  let m := c.storage loft
  { label := m.label k, bytes := m.read (64 * k) 64, bad := (if loft then c.loftBad else c.spBad).contains k }

/-- A label-changing write of a whole scratchpad block (R133, R146). -/
def Carrel.putBlock (c : Carrel) (k : Nat) (x : Block) : Carrel :=
  { c with sp := (c.sp.write (64 * k) x.bytes).setLabel k x.label, spBad := c.spBad.filter (· != k) }

/-- The first n rows of a tile, each with its blocks. -/
def Carrel.rowsOf (c : Carrel) (d : Desc) (n : Nat) : List (List Block) :=
  (List.range (min n d.rows)).map fun r => (List.range d.rowBlocks).map fun j => c.block d.loft (d.at_ r j)

def Block.none : Block := { label := 0, bytes := [], bad := false }

def Block.element (x : Block) (fmt i : Nat) : Nat := elementBits (bytesToNat x.bytes) fmt i

/-- The block of a row that holds element i. -/
def rowBlock (row : List Block) (fmt i : Nat) : Block := row.getD (i / fmtPerBlock fmt) Block.none

/-- Element i of a row. -/
def rowElement (row : List Block) (fmt i : Nat) : Nat := (rowBlock row fmt i).element fmt (i % fmtPerBlock fmt)

/-- The exact value of a real element, with its block's scale (R244). -/
def rowNum (row : List Block) (fmt i : Nat) : ExactNum :=
  (decodeNum fmt (rowElement row fmt i)).scale (Label.scaleExp (rowBlock row fmt i).label)

/-- Both parts of a complex element (R233, R248). -/
def rowPair (row : List Block) (fmt i : Nat) : ExactNum × ExactNum :=
  let bits := rowElement row fmt i
  let half := fmtWidth fmt / 2
  let part (v : Nat) : ExactNum := (decodeNum (componentFmt fmt) v).scale (Label.scaleExp (rowBlock row fmt i).label)
  (part (bits % 2 ^ half), part (bits / 2 ^ half))

/-! Tiles (R238). -/

abbrev Tile := Vector (Vector Word 128) 128

def Carrel.tile (c : Carrel) (t : BitVec 2) : Tile := c.tiles[t.toNat]
def Carrel.setTile (c : Carrel) (t : BitVec 2) (x : Tile) : Carrel := { c with tiles := c.tiles.set t.toNat x }

/-- Every cell (m, n) with m < rows and n < cols takes a new value. -/
def Tile.update (x : Tile) (rows cols : Nat) (f : Nat → Nat → Word → Word) : Tile :=
  Vector.ofFn fun (m : Fin 128) =>
    if m.val < rows then
      Vector.ofFn fun (n : Fin 128) => if n.val < cols then f m n x[m][n] else x[m][n]
    else x[m]

/-! MMA (R242 to R244). -/

/-- The classes of R242: K-group and whether the class is integer. -/
def mmaClass (fmt : Nat) : Option (Nat × Bool) :=
  match fmt with
  | 0x02 | 0x03 => some (16, false)
  | 0x04 | 0x05 | 0x06 | 0x07 => some (32, false)
  | 0x12 | 0x16 => some (32, true)
  | 0x08 | 0x09 => some (64, false)
  | _ => none

/-- A control-word format field agrees with a descriptor (R241). -/
def ctlFormat (f : BitVec 6) (d : Desc) : Bool := f = 0 || f.toNat = d.fmt

/-- The signedness bit of an operand agrees with its format (R242). -/
def signOk (bit : Bool) (fmt : Nat) : Bool := bit == (fmt = 0x12)

/-- The operand rules of R242. -/
def mmaOk (a b : Desc) (ctl : BitVec 31) : Bool :=
  let int := (mmaClass a.fmt).elim false (·.2)
  a.ok && b.ok && ctl.extractLsb' 15 16 == 0 && (mmaClass a.fmt).isSome && mmaClass a.fmt == mmaClass b.fmt
    && ctlFormat (ctl.extractLsb' 0 6) a && ctlFormat (ctl.extractLsb' 6 6) b
    && signOk (ctl.getLsbD 12) a.fmt && signOk (ctl.getLsbD 13) b.fmt && (int || !ctl.getLsbD 14)
    && !a.loft && b.loft && a.rows ≤ 128 && b.cols ≤ 128 && b.rows = a.cols

/-- A float group sum (R244): `pad` says that the group runs past K, which contributes +0. -/
def groupSum (ps : List ExactNum) (pad : Bool) : ExactNum :=
  let s := match ps with
    | [] => ExactNum.zero false
    | p :: r => r.foldl (fun a x => a.add x rmRne) p
  if pad then s.add (.zero false) rmRne else s

/-- A cell takes an exact addend with one rounding. -/
def addF32 (w : Word) (s : ExactNum) : Word :=
  BitVec.ofNat 32 (encodeNum 0x01 ((decodeNum 0x01 w.toNat).add s rmRne) rmRne 0).1

/-- The step of group g on one cell (R244). -/
def mmaCell (a b : Desc) (ctl : BitVec 31) (rowsA rowsB : List (List Block)) (g m n : Nat) (w : Word) : Word :=
  let (size, int) := (mmaClass a.fmt).getD (16, false)
  let k0 := g * size
  let ks := (List.range (min size (a.cols - k0))).map (k0 + ·)
  let rowA := rowsA.getD m []
  let rowB (k : Nat) : List Block := rowsB.getD k []
  if int then
    let el (row : List Block) (fmt i : Nat) : Int := extendOp (rowElement row fmt i) 8 (fmt = 0x12)
    let s := ks.foldl (fun s k => s + el rowA a.fmt k * el (rowB k) b.fmt n) 0
    let v := extendOp w.toNat 32 true + s
    BitVec.ofNat 32 (wrapBits (if ctl.getLsbD 14 then satInt v 32 true else v) 32)
  else
    addF32 w (groupSum (ks.map fun k => (rowNum rowA a.fmt k).mul (rowNum (rowB k) b.fmt n))
      (decide (a.cols < k0 + size)))

/-! MMAC (R247, R248). -/

/-- The slot window of an MMAC. -/
def slotWindow (tcfg : DWord) (d : Desc) : Nat × Nat :=
  let f := (tcfg.extractLsb' 0 9).toNat
  let c := (tcfg.extractLsb' 9 9).toNat
  (f, if c = 0 then d.slots - f else min c (d.slots - f))

/-- The operand rules of R247 and R222. Domains and half bits are the array's to check (R253, log 56). -/
def mmacOk (a b : Desc) (ctl : BitVec 31) (tcfg : DWord) : Bool :=
  let (f, n) := slotWindow tcfg a
  a.ok && b.ok && a.whole && b.whole && ctl.extractLsb' 12 19 == 0
    && (a.fmt = 0x20 || a.fmt = 0x22) && a.fmt = b.fmt
    && ctlFormat (ctl.extractLsb' 0 6) a && ctlFormat (ctl.extractLsb' 6 6) b
    && a.rows ≤ 64 && a.b = b.b && b.blocks ≤ 32 && f < a.slots && b.blocks * n ≤ 64
    && !a.loft && b.loft && b.rows = a.blocks

/-- The K-group of MMAC in blocks. -/
def mmacGroup (fmt : Nat) : Nat := if fmt = 0x20 then 16 else 32

/-- The products of block q at slot k for (t, o): those of the real and of the imaginary part (R248). -/
def mmacProducts (a b : Desc) (rowsA rowsB : List (List Block)) (t o k q : Nat) : List ExactNum × List ExactNum :=
  let x := rowPair (rowsA.getD t []) a.fmt (q * a.slots + k)
  let w := rowPair (rowsB.getD q []) b.fmt (o * b.slots + k)
  if a.half && k = 0 then ([x.1.mul w.1], [x.2.mul w.2])
  else ([x.1.mul w.1, (x.2.mul w.2).neg], [x.1.mul w.2, x.2.mul w.1])

/-- The cell of part `im` for (t, o) at slot k after every group in increasing order. -/
def mmacCell (a b : Desc) (rowsA rowsB : List (List Block)) (t o k : Nat) (im : Bool) (w : Word) : Word :=
  let size := mmacGroup a.fmt
  (List.range ((a.blocks + size - 1) / size)).foldl (fun w g =>
    let qs := (List.range (min size (a.blocks - g * size))).map (g * size + ·)
    let ps := qs.flatMap fun q =>
      let p := mmacProducts a b rowsA rowsB t o k q
      if im then p.2 else p.1
    addF32 w (groupSum ps false)) w

/-- The step of slot k (R248). -/
def mmacStep (a b : Desc) (x : TileOp) (k : Nat) (tile : Tile) : Tile :=
  let (f, n) := slotWindow x.tcfg a
  let up := if x.tcfg.getLsbD 18 then 64 else 0
  let ts := min a.rows x.maskm
  let os := min b.blocks x.maskn
  tile.update 128 128 fun row col w =>
    let c := col / 2
    let o := c / n
    if up ≤ row && row < up + ts && o < os && c % n = k - f then
      mmacCell a b x.rowsA x.rowsB (row - up) o k (col % 2 = 1) w
    else w

/-! The checks of the array (R243, R247, R253, R360). -/

/-- What a block's label breaks; none when it is as the descriptor says. -/
def blockFault (d : Desc) (spectral : Bool) (x : Block) : Option (BitVec 8) :=
  if d.domain != spectral || Label.spectral x.label != d.domain then some Code.domainMismatch
  else if Label.half x.label != d.half || Label.fmt x.label != d.fmt || Label.fmt x.label = 0 || Label.scale x.label = 0xFF then
    some Code.labelInvalid
  else none

/-- Detail of a label fault (R359). -/
def blockDetail (loft : Bool) (k : Nat) : DWord := BitVec.ofNat 64 (64 * k % 2 ^ 22 + (if loft then 2 ^ 22 else 0))

/-- The first failing block among rows read: one whose check bits fail gives no label (R146, R256). -/
def rowsFault (d : Desc) (rows : List (List Block)) (test : Block → Option (BitVec 8)) :
    Option (BitVec 8 × DWord) :=
  ((List.range rows.length).flatMap fun r =>
    (List.range d.rowBlocks).filterMap fun j =>
      let k := (rows.getD r []).getD j Block.none
      if k.bad then some (Code.uncorrectable, 0)
      else (test k).map fun c => (c, blockDetail d.loft (d.at_ r j))).head?

/-- The fault that stops an instruction before its first step (R243, R253, R360). -/
def TileOp.fault (x : TileOp) : Option (BitVec 8 × DWord) :=
  let a := descOf x.dA
  let b := descOf x.dB
  let first (p q : Option (BitVec 8 × DWord)) : Option (BitVec 8 × DWord) := if p.isSome then p else q
  let desc (d : Desc) (spectral : Bool) : Option (BitVec 8 × DWord) :=
    if d.domain != spectral then some (Code.domainMismatch, blockDetail d.loft d.base) else none
  let halves : Option (BitVec 8 × DWord) :=
    if a.half != b.half then some (Code.domainMismatch, blockDetail b.loft b.base) else none
  match x.kind with
  | .mma =>
    first (rowsFault a x.rowsA (blockFault a false))
      (first (rowsFault b x.rowsB (blockFault b false)) (first (desc a false) (desc b false)))
  | .mmac =>
    first (rowsFault a x.rowsA (blockFault a true))
      (first (rowsFault b x.rowsB (blockFault b true)) (first (desc a true) (first (desc b true) halves)))
  | .ald =>
    rowsFault a x.rowsA fun k =>
      match blockFault a false k with
      | some c => some c
      | none => if Label.scale k.label = 0x7F then none else some Code.labelInvalid
  | _ => none

/-! Issue. -/

def isTile (o : Operand) : Bool :=
  match o with
  | .a _ => true
  | _ => false

def tileOf (o : Operand) : BitVec 2 :=
  match o with
  | .a i => i
  | _ => 0

/-- The sources of an E word, and what their fields may hold (R91, R355). -/
def eSrcs (x : EFmt) (m : Mask) : List Src :=
  [⟨x.a, x.fe.getLsbD 2, 0, false, m⟩, ⟨x.b, x.fe.getLsbD 1, 1, false, m⟩, ⟨x.c, x.fe.getLsbD 0, 2, false, m⟩]

def eFieldsOk (g : Gang) (x : EFmt) : Bool :=
  feOk (x.fe.getLsbD 2) x.a && feOk (x.fe.getLsbD 1) x.b && feOk (x.fe.getLsbD 0) x.c && !g.isShadow

def Gang.issuer (g : Gang) (n clock : Nat) : Issuer :=
  { pc := g.path.pc, younger := g.younger, gangReg := g.number, frame := g.frame, gang := n, cycle := clock }

/-- Entries of the sequencer (R254). -/
def Carrel.seqLength (c : Carrel) : Nat := c.seq.length + c.xu.length

def State.myCarrel (s : State) : Carrel := s.carrelOf s.gang.carrel

def TileOp.none : TileOp :=
  { kind := .aclr, tile := 0, dA := 0, dB := 0, control := 0, tcfg := 0, maskm := 0, maskn := 0, job := 0,
    step := 0, rowsA := [], rowsB := [], again := false,
    by_ := { pc := 0, younger := false, gangReg := 0, frame := 0, gang := 0, cycle := 0 } }

/-- The collector reads the operands (R243, R255). -/
def Carrel.collect (c : Carrel) (x : TileOp) : TileOp :=
  let a := descOf x.dA
  let b := descOf x.dB
  match x.kind with
  | .mma | .mmac => { x with rowsA := c.rowsOf a x.maskm, rowsB := c.rowsOf b b.rows }
  | .ald => { x with rowsA := c.rowsOf a a.rows }
  | _ => x

/-- A tile instruction enters the sequencer, or waits for an entry (R254). -/
def enterSeq (s : State) (h : Header) (x : TileOp) : Result :=
  let g := s.gang
  if 8 ≤ s.myCarrel.seqLength then .next s.hold
  else
    let y := s.myCarrel.collect
      { x with tcfg := g.tcfg, maskm := min g.maskm.toNat 128, maskn := min g.maskn.toNat 128,
               by_ := g.issuer s.cur (s.cycleOf g.carrel) }
    .next ((s.modCarrelOf g.carrel fun c => { c with seq := c.seq ++ [y] }).advance h)

/-- TCFG (R357). -/
def execTcfg (x : RRR) (s : State) : Result :=
  let legal := x.rsv == 0 && x.typ == 0 && x.pred == 0 && x.sub.extractLsb' 1 4 == 0 && isSImm x.a && isSImm x.b
    && x.c == .absent && feOk (x.fe.getLsbD 2) x.a && feOk (x.fe.getLsbD 1) x.b && !x.fe.getLsbD 0
    && x.hdr.d == .absent && !s.gang.isShadow
  issue s x.hdr .gang legal [] (rrrSrcs x 2 false) fun m =>
    let f := (readGang s 0x1D 0 x.a).extractLsb' 0 32
    let c := (readGang s 0x1D 0 x.b).extractLsb' 0 32
    if 511 < f.toNat || 511 < c.toNat then illegal s m
    else
      .next ((s.modGang fun g => { g with
        tcfg := 0#45 ++ x.sub.extractLsb' 0 1 ++ c.extractLsb' 0 9 ++ f.extractLsb' 0 9 }).advance x.hdr)

/-- MMA and MMAC (R358): `ok` are the operand rules, `rsv` the reserved bits of the control word (R241, R247),
which R271 ranks with the encoding's. -/
def matmul (x : EFmt) (s : State) (kind : TileOpKind) (rsv : Bool) (ok : Desc → Desc → Bool) : Result :=
  let legal := eFieldsOk s.gang x && !rsv && isTile x.hdr.d && isS x.a && isS x.b && x.c == .absent
  issue s x.hdr .gang legal [] (eSrcs x) fun m =>
    let dA := readGang s 0x1D 0 x.a
    let dB := readGang s 0x1D 0 x.b
    if !ok (descOf dA) (descOf dB) then illegal s m
    else if !(descOf dA).fits || !(descOf dB).fits then protect s m
    else enterSeq s x.hdr
      { TileOp.none with kind := kind, tile := tileOf x.hdr.d, dA := dA, dB := dB, control := x.control }

def execMma (x : EFmt) (s : State) : Result := matmul x s .mma (x.control.extractLsb' 15 16 != 0) fun a b => mmaOk a b x.control
def execMmac (x : EFmt) (s : State) : Result := matmul x s .mmac (x.control.extractLsb' 12 19 != 0) fun a b => mmacOk a b x.control s.gang.tcfg

/-- ACLR (R360). -/
def execAclr (x : EFmt) (s : State) : Result :=
  let legal := eFieldsOk s.gang x && isTile x.hdr.d && x.a == .absent && x.b == .absent && x.c == .absent
    && x.control == 0
  issue s x.hdr .gang legal [] (eSrcs x) fun _ =>
    enterSeq s x.hdr { TileOp.none with kind := .aclr, tile := tileOf x.hdr.d }

/-- The descriptor rules that ALD and AST share (R360). -/
def moveOk (d : Desc) : Bool :=
  d.ok && (d.fmt = 0x01 || d.fmt = 0x10) && !d.domain && d.rows ≤ 128 && d.cols ≤ 128

/-- ALD (R360, R361). -/
def execAld (x : EFmt) (s : State) : Result :=
  let legal := eFieldsOk s.gang x && isTile x.hdr.d && isS x.a && x.b == .absent && x.c == .absent
    && x.control == 0
  issue s x.hdr .gang legal [] (eSrcs x) fun m =>
    let dA := readGang s 0x1D 0 x.a
    if !moveOk (descOf dA) then illegal s m
    else if !(descOf dA).fits then protect s m
    else enterSeq s x.hdr { TileOp.none with kind := .ald, tile := tileOf x.hdr.d, dA := dA }

/-- AST (R360, R361). -/
def execAst (x : EFmt) (s : State) : Result :=
  let legal := eFieldsOk s.gang x && x.hdr.d == .absent && isTile x.a && isS x.b && x.c == .absent
    && x.control == 0
  issue s x.hdr .gang legal [] (eSrcs x) fun m =>
    let dA := readGang s 0x1D 0 x.b
    let d := descOf dA
    if !moveOk d || d.loft || d.cols % 16 ≠ 0 then illegal s m
    else if !d.fits then protect s m
    else enterSeq s x.hdr { TileOp.none with kind := .ast, tile := tileOf x.a, dA := dA }

/-! SEQUENCER_STEP (R244, R248, R256, R359, R360). -/

/-- Steps of an instruction. -/
def TileOp.steps (x : TileOp) : Nat :=
  let a := descOf x.dA
  match x.kind with
  | .mma => let g := ((mmaClass a.fmt).getD (16, false)).1; (a.cols + g - 1) / g
  | .mmac => (slotWindow x.tcfg a).2
  | _ => 1

/-- The label of a block that AST writes. -/
def astLabel (d : Desc) : Label := 0x7F#8 ++ BitVec.ofNat 8 d.fmt

/-- What the current step does to the carrel. -/
def Carrel.tileStep (c : Carrel) (x : TileOp) : Carrel :=
  let a := descOf x.dA
  let b := descOf x.dB
  let t := c.tile x.tile
  match x.kind with
  | .mma => c.setTile x.tile (t.update (min a.rows x.maskm) (min b.cols x.maskn) fun m n w =>
      mmaCell a b x.control x.rowsA x.rowsB x.step m n w)
  | .mmac => c.setTile x.tile (mmacStep a b x ((slotWindow x.tcfg a).1 + x.step) t)
  | .aclr => c.setTile x.tile (t.update 128 128 fun _ _ _ => 0)
  | .ald => c.setTile x.tile (t.update a.rows a.cols fun m n _ =>
      BitVec.ofNat 32 (rowElement (x.rowsA.getD m []) a.fmt n))
  | .ast =>
    ((List.range a.rows).flatMap fun r => (List.range a.rowBlocks).map fun j => (r, j)).foldl (fun c e =>
      c.putBlock (a.at_ e.1 e.2)
        { label := astLabel a, bad := false,
          bytes := (List.range 16).flatMap fun i =>
            natToBytes 4 ((t.toList.getD e.1 (Vector.replicate 128 0)).toList.getD (16 * e.2 + i) 0).toNat }) c
  | .drainRead => c

/-- What the array or the transform unit of a carrel reports (R359). -/
def unitFault (carrel unitKind : Nat) (kind : BitVec 8) (by_ : Issuer) (detail : DWord) : FaultInfo :=
  { unitKind := BitVec.ofNat 8 unitKind, wing := wingOf carrel, unit := carrel % Config.carrelsPerWing,
    kind := kind, gangReg := by_.gangReg, frame := by_.frame, cycle := by_.cycle, pc := by_.pc,
    younger := by_.younger, acting := 0, offending := 0, detail := detail, trace := none, gang := some by_.gang }

/-- The matrix follow-on of job j has finished (R206). -/
def State.followDone (s : State) (j : Nat) : State :=
  if j = 0 then s else s.modJobOf j fun x => { x with state := .finishing }

/-- The event SEQUENCER_STEP: the array performs the next step of the oldest instruction. -/
def execSequencerStep (carrel : Nat) (s : State) : Result :=
  let c := s.carrelOf carrel
  match c.seq with
  | [] => .refused (.notEnabled "SEQUENCER_STEP")
  | x :: rest =>
    if s.halt != .running || x.kind == .drainRead then .refused (.notEnabled "SEQUENCER_STEP")
    else
      let y := if x.again then { c.collect x with again := false } else x
      match (if y.step = 0 then y.fault else none) with
      | some (k, d) =>
        .next ((s.setCarrelOf carrel { c with seq := { y with again := true } :: rest }).assertHalt
          (unitFault carrel 2 k y.by_ d))
      | none =>
        let c1 := (c.tileStep y).count 6 1
        if y.step + 1 < y.steps then
          .next (s.setCarrelOf carrel { c1 with seq := { y with step := y.step + 1 } :: rest })
        else .next ((s.setCarrelOf carrel { c1 with seq := rest }).followDone y.job)

/-- The event DRAIN_TILE_READ (R205): the drain reads its tile whole. -/
def execDrainTileRead (carrel : Nat) (s : State) : Result :=
  let c := s.carrelOf carrel
  match c.seq with
  | x :: rest =>
    if s.halt != .running || x.kind != .drainRead then .refused (.notEnabled "DRAIN_TILE_READ")
    else
      let t := ((c.tile x.tile).toList.map fun r => r.toList)
      let s1 := s.setCarrelOf carrel ({ c with seq := rest }.count 6 1)
      .next (s1.modJobOf x.job fun y => { y with tile := t, tileRead := true })
  | [] => .refused (.notEnabled "DRAIN_TILE_READ")

/-! The transform unit (R221, R249 to R252, R363). -/

/-- Real formats of either side, and the spectral ones (R249). -/
def xformReal (f : Nat) : Bool := [0x01, 0x02, 0x03, 0x04, 0x05].contains f
def xformSpectral (f : Nat) : Bool := xformReal f || [0x20, 0x21, 0x22].contains f

/-- The descriptor rules of R221, R249 and R363. -/
def xformOk (inverse : Bool) (src dst : Desc) : Bool :=
  let spatial := if inverse then dst else src
  let spectral := if inverse then src else dst
  src.ok && dst.ok && src.whole && dst.whole && src.rows = dst.rows && src.b = dst.b && src.blocks = dst.blocks
    && !spatial.domain && xformReal spatial.fmt && spectral.domain && spectral.half && xformSpectral spectral.fmt
    && !dst.loft

/-- XFORM of one task (R363). -/
def xformTask (x : EFmt) (inverse : Bool) (s : State) : Result :=
  let g := s.gang
  let legal := eFieldsOk g x && isS x.a && isS x.b && x.c == .absent && x.control.extractLsb' 2 29 == 0
    && (match x.hdr.d with
        | .h _ => true
        | _ => false)
  issue s x.hdr .gang legal [(x.hdr.d, false)] (eSrcs x) fun m =>
    let src := readGang s 0x1D 0 x.a
    let dst := readGang s 0x1D 0 x.b
    if !xformOk inverse (descOf src) (descOf dst) then illegal s m
    else if !(descOf src).fits || !(descOf dst).fits then protect s m
    else if 8 ≤ s.myCarrel.seqLength then .next s.hold
    else
      match s.newSlot (wingOf g.carrel) with
      | none => .next s.awaitSlot
      | some key =>
        let j := s.ctx.nextJob
        let s1 := s.openSlot key
          { Slot.none with kind := 2, outstanding := 1, maker := s.serial }
        let s2 := s1.setJobOf j { Job.none with
          by_ := .xform, wing := wingOf g.carrel, carrel := g.carrel, future := some key,
          launch := (s.frameOf g.frame).launch, state := .running }
        let op : XformOp :=
          { inverse := inverse, sym := x.control.getLsbD 1, src := src, dst := dst, job := j, step := 0, labels := [],
            by_ := g.issuer s.cur (s.cycleOf g.carrel) }
        let s3 : State := { s2 with ctx := { s2.ctx with nextJob := j + 1 } }
        let s4 := s3.modCarrelOf g.carrel fun c => { c with xu := c.xu ++ [op] }
        .next ((s4.giveHandle x.hdr.d key).advance x.hdr)

/-- XFORM acts once for each task of a packed gang (R356). -/
def execXformFwd (x : EFmt) (s : State) : Result := perTask x.hdr true (xformTask x false) s
def execXformInv (x : EFmt) (s : State) : Result := perTask x.hdr true (xformTask x true) s

/-! F32 arithmetic on bits. -/

def f32 (x : Nat) : ExactNum := decodeNum 0x01 x
def toF32 (x : ExactNum) : Nat := (encodeNum 0x01 x rmRne 0).1
def f32Mul (x y : Nat) : Nat := toF32 ((f32 x).mul (f32 y))
def f32Add (x y : Nat) : Nat := toF32 ((f32 x).add (f32 y) rmRne)
def f32Fma (x y z : Nat) : Nat := toF32 (((f32 x).mul (f32 y)).add (f32 z) rmRne)
/-- A changed sign bit. -/
def f32Neg (x : Nat) : Nat := Nat.xor x (2 ^ 31)

abbrev Pair := Nat × Nat

/-- Twiddle(m, j) (R250): cos and sin of 2 pi j / m. -/
def twiddle (inverse : Bool) (m j : Nat) : Pair :=
  let x := ExactNum.ofInt (2 * j) (-(Nat.log2 m : Int))
  let re := toF32 (match numCosPi x with
    | .zero _ => .zero false
    | y => y)
  let im := toF32 (match numSinPi x with
    | .zero _ => .zero false
    | y => if inverse then y else y.neg)
  (re, im)

/-- BitRev(n, L). -/
def bitRev : Nat → Nat → Nat
  | _, 0 => 0
  | n, l + 1 => n % 2 * 2 ^ l + bitRev (n / 2) l

/-- One stage over the whole block (R251). -/
def stage (inverse : Bool) (a : List Pair) (m : Nat) : List Pair :=
  let at_ (i : Nat) : Pair := a.getD i (0, 0)
  let half := m / 2
  (List.range a.length).map fun i =>
    let base := i / m * m
    let j := i % m % half
    let w := twiddle inverse m j
    let u := at_ (base + j)
    let x := at_ (base + j + half)
    let p := f32Mul w.2 x.2
    let q := f32Mul w.2 x.1
    let t : Pair := (f32Fma w.1 x.1 (f32Neg p), f32Fma w.1 x.2 q)
    if i % m < half then (f32Add u.1 t.1, f32Add u.2 t.2)
    else (f32Add u.1 (f32Neg t.1), f32Add u.2 (f32Neg t.2))

/-- The L stages over values in bit-reversed places. -/
def butterflies (inverse : Bool) (l : Nat) (x : List Pair) : List Pair :=
  let a := (List.range x.length).map fun i => x.getD (bitRev i l) (0, 0)
  (List.range l).foldl (fun a s => stage inverse a (2 ^ (s + 1))) a

/-- The scaling of R252. -/
def xformScale (inverse sym : Bool) (l : Nat) (v : Nat) : Nat :=
  let g := (l + 1) / 2
  let k := if inverse && !sym then l else g
  let y := f32Mul v (toF32 (ExactNum.fin false 1 (-(k : Int)) false))
  if sym && l % 2 = 1 then f32Mul y 0x3FB504F3 else y

/-- Forward: the slots of a block from its elements (R251, R252). -/
def xformForward (sym : Bool) (l : Nat) (xs : List Nat) : List Pair :=
  let a := butterflies false l (xs.map fun x => (x, 0))
  let sc := xformScale false sym l
  let b := 2 ^ l
  (List.range (b / 2)).map fun k =>
    if k = 0 then (sc (a.getD 0 (0, 0)).1, sc (a.getD (b / 2) (0, 0)).1)
    else let v := a.getD k (0, 0); (sc v.1, sc v.2)

/-- Inverse: the elements of a block from its slots. -/
def xformInverse (sym : Bool) (l : Nat) (slots : List Pair) : List Nat :=
  let b := 2 ^ l
  let s0 := slots.getD 0 (0, 0)
  let full := (List.range b).map fun k =>
    if k = 0 then ((s0.1, 0) : Pair)
    else if k = b / 2 then (s0.2, 0)
    else if k < b / 2 then slots.getD k (0, 0)
    else let v := slots.getD (b - k) (0, 0); (v.1, f32Mul v.2 0xBF800000)
  (butterflies true l full).map fun v => xformScale true sym l v.1

/-- Element i of a tile row in a carrel's storage. -/
def Carrel.element (c : Carrel) (d : Desc) (r i : Nat) : Nat :=
  (c.block d.loft (d.at_ r (i / fmtPerBlock d.fmt))).element d.fmt (i % fmtPerBlock d.fmt)

/-- Block q of row r as F32 values: elements, or both parts of its slots. -/
def Carrel.spatial (c : Carrel) (d : Desc) (r q : Nat) : List Nat :=
  (List.range d.b).map fun i => toF32 (decodeNum d.fmt (c.element d r (q * d.b + i)))

def Carrel.spectral (c : Carrel) (d : Desc) (r q : Nat) : List Pair :=
  (List.range d.slots).map fun k =>
    let i := q * d.slots + k
    if d.pairs then
      (toF32 (decodeNum d.fmt (c.element d r (2 * i))), toF32 (decodeNum d.fmt (c.element d r (2 * i + 1))))
    else
      let v := c.element d r i
      let h := fmtWidth d.fmt / 2
      (toF32 (decodeNum (componentFmt d.fmt) (v % 2 ^ h)), toF32 (decodeNum (componentFmt d.fmt) (v / 2 ^ h)))

/-- An F32 value in a real destination format. -/
def intoFmt (fmt x : Nat) : Nat := (encodeNum fmt (f32 x) rmRne 0).1

/-- The elements of a destination block of a transform, as bits of the destination format. -/
def Carrel.transformed (c : Carrel) (x : XformOp) (r q : Nat) : List Nat :=
  let src := descOf x.src
  let dst := descOf x.dst
  let l := Nat.log2 src.b
  if x.inverse then (xformInverse x.sym l (c.spectral src r q)).map (intoFmt dst.fmt)
  else
    let slots := xformForward x.sym l (c.spatial src r q)
    if dst.pairs then slots.flatMap fun v => [intoFmt dst.fmt v.1, intoFmt dst.fmt v.2]
    else
      let f := componentFmt dst.fmt
      slots.map fun v => intoFmt f v.1 + intoFmt f v.2 * 2 ^ fmtWidth f

/-- Elements of a tile block of b elements or slots. -/
def Desc.perBlock (d : Desc) : Nat := if d.pairs then 2 * d.slots else d.slots

/-- The 64-byte blocks that hold elements i to i + n - 1 of a row. -/
def spanBlocks (fmt i n : Nat) : List Nat :=
  let p := fmtPerBlock fmt
  (List.range ((i + n - 1) / p - i / p + 1)).map (i / p + ·)

/-- The transform blocks whose data stand in 64-byte block j of a destination row. -/
def dataBlocks (dst : Desc) (j : Nat) : List Nat :=
  (List.range dst.blocks).filter fun q => (spanBlocks dst.fmt (q * dst.perBlock) dst.perBlock).contains j

/-- The source blocks, as 64-byte blocks of the row, that 64-byte block j of the destination row takes. -/
def sourceBlocks (src dst : Desc) (j : Nat) : List Nat :=
  ((dataBlocks dst j).flatMap fun q => spanBlocks src.fmt (q * src.perBlock) src.perBlock).eraseDups

/-- What R252 adds to the label scale. -/
def XformOp.gain (x : XformOp) : Nat :=
  if x.inverse || x.sym then 0 else (Nat.log2 (descOf x.src).b + 1) / 2

/-- The fault that stops a transform before its first step (R221, R253). -/
def Carrel.xformFault (c : Carrel) (x : XformOp) : Option (BitVec 8 × DWord) :=
  let src := descOf x.src
  let dst := descOf x.dst
  let labels := rowsFault src (c.rowsOf src src.rows) fun k =>
    if Label.spectral k.label != src.domain then some Code.domainMismatch
    else if k.label.extractLsb' 0 8 ≠ src.byte || Label.scale k.label = 0xFF then some Code.labelInvalid
    else none
  let scale (r j : Nat) : Nat := Label.scale (c.block src.loft (src.at_ r j)).label
  let scales := ((List.range dst.rows).flatMap fun r => (List.range dst.rowBlocks).filterMap fun j =>
    let js := sourceBlocks src dst j
    let s0 := scale r (js.headD 0)
    match js.find? fun k => scale r k ≠ s0 with
    | some k => some (Code.labelInvalid, blockDetail src.loft (src.at_ r k))
    | none =>
      if 0xFF ≤ s0 + x.gain then some (Code.labelInvalid, blockDetail src.loft (src.at_ r (js.headD 0)))
      else none).head?
  if labels.isSome then labels else scales

/-- Element i of a block replaced. -/
def Block.setElement (x : Block) (fmt i v : Nat) : Block :=
  let w := fmtWidth fmt
  let n := bytesToNat x.bytes
  let old := n / 2 ^ (w * i) % 2 ^ w
  { x with bytes := natToBytes 64 (n - old * 2 ^ (w * i) + v % 2 ^ w * 2 ^ (w * i)) }

/-- The labels of the source's blocks, row by row. -/
def Carrel.labelsOf (c : Carrel) (d : Desc) : List (List Label) := (c.rowsOf d d.rows).map fun r => r.map (·.label)

/-- The operation with its source labels as its first step finds them (R221). -/
def XformOp.begun (x : XformOp) (c : Carrel) : XformOp :=
  if x.step = 0 then { x with labels := c.labelsOf (descOf x.src) } else x

/-- The label scale of 64-byte block j of a source row. -/
def XformOp.scaleAt (x : XformOp) (r j : Nat) : Nat := Label.scale ((x.labels.getD r []).getD j 0)

/-- The current step reads a block whose check bits fail: of the source, or of the destination where the step writes a
part of it (R146, R256). -/
def Carrel.xformBad (c : Carrel) (x : XformOp) : Bool :=
  let src := descOf x.src
  let dst := descOf x.dst
  let r := x.step / src.blocks
  let q := x.step % src.blocks
  (spanBlocks src.fmt (q * src.perBlock) src.perBlock).any (fun j => (c.block src.loft (src.at_ r j)).bad)
    || (dst.perBlock < fmtPerBlock dst.fmt
      && (spanBlocks dst.fmt (q * dst.perBlock) dst.perBlock).any fun j => (c.block false (dst.at_ r j)).bad)

/-- One step: one block of one row is transformed and written (R221, R256). -/
def Carrel.xformStep (c : Carrel) (x : XformOp) : Carrel :=
  let src := descOf x.src
  let dst := descOf x.dst
  let r := x.step / src.blocks
  let q := x.step % src.blocks
  let vs := c.transformed x r q
  let i0 := q * dst.perBlock
  let p := fmtPerBlock dst.fmt
  (spanBlocks dst.fmt i0 dst.perBlock).foldl (fun c' j =>
    let sc := x.scaleAt r ((sourceBlocks src dst j).headD 0) + x.gain
    let new := (List.range vs.length).foldl (fun (k : Block) e =>
      if (i0 + e) / p = j then k.setElement dst.fmt ((i0 + e) % p) (vs.getD e 0) else k)
      (c'.block false (dst.at_ r j))
    c'.putBlock (dst.at_ r j) { new with label := BitVec.ofNat 8 sc ++ dst.byte }) c

/-- The event XU_STEP (R251, R256, R359, R363). -/
def execXuStep (carrel : Nat) (s : State) : Result :=
  let c := s.carrelOf carrel
  match c.xu with
  | [] => .refused (.notEnabled "XU_STEP")
  | op :: rest =>
    let x := op.begun c
    if s.halt != .running then .refused (.notEnabled "XU_STEP")
    else
      match (if x.step = 0 then c.xformFault x else none) with
      | some (k, d) => .next (s.assertHalt (unitFault carrel 3 k x.by_ d))
      | none =>
        if c.xformBad x then .next (s.assertHalt (unitFault carrel 3 Code.uncorrectable x.by_ 0))
        else
        let c1 := (c.xformStep x).count 7 1
        let n := (descOf x.src).rows * (descOf x.src).blocks
        if x.step + 1 < n then
          .next ((s.setCarrelOf carrel { c1 with xu := { x with step := x.step + 1 } :: rest }).modJobOf x.job
            fun y => { y with out := x.step + 1 })
        else .next ((s.setCarrelOf carrel { c1 with xu := rest }).endJob x.job 0 none)

end Sys2Proof.Machine
end

