-- ==== Sys2Proof/Machine/Spawning.lean ====
section
/-! DEFINITION. What the spawn instructions share (R30 to R35, R42, R69, R78, R157, R310): the gang a task
starts as, the children, their folios, the shelf. -/

namespace Sys2Proof.Machine

open Sys2Proof

/-! The gang at the start of segment 0 (R30, R49, R89, R108). -/

/-- The loaded code object that records a task with this entry, and what it records (R383, R49). -/
def State.taskInfo (s : State) (entry : DWord) : Nat × TaskInfo :=
  match (s.ctx.codes.filter fun e => e.2.tasks.any fun t => t.entry = entry).head? with
  | some e =>
    (e.1, (e.2.tasks.find? fun t => t.entry = entry).getD { entry := entry, regs := 32, cellar := 0, slice := none })
  | none => (0, { entry := entry, regs := 32, cellar := 0, slice := none })

def Frame.argWord (f : Frame) (i : Nat) : Word :=
  BitVec.ofNat 32 (bytesToNat ((f.args.toList.drop (4 * i)).take 4))

/-- A task's gang before it is resident: arguments, REPLAYM, everything else at its reset. -/
def State.freshGang (s : State) (a : Nat) : Gang :=
  let f := s.frameOf a
  let info := s.taskInfo f.entryPc
  let g := Gang.start f.entryPc f.width
  let wide (i : Nat) : Lanes := Vector.ofFn fun (l : Fin 32) => if l.val < f.width then f.argWord i else 0
  { g with
    regs := info.2.regs, code := info.1, frame := a, clim := BitVec.ofNat 64 info.2.cellar,
    w := if f.laneClass then Vector.ofFn fun (i : Fin 256) => if i.val < 32 then wide i else Lanes.all 0 else g.w,
    s := if f.laneClass then g.s
      else Vector.ofFn fun (i : Fin 64) => if i.val < 16 then f.argWord (2 * i + 1) ++ f.argWord (2 * i) else 0,
    replaym := f.replaym, rfolio := f.rfolio, member := f.member, mode := f.mode, trace := f.trace, folio := f.folio }

/-- The packed gang of several tasks, one in each lane (R33). -/
def State.packGang (s : State) (as : List Nat) : Gang :=
  let gs := as.map s.freshGang
  let lanes := Mask.first as.length
  let g := gs.headD (Gang.start 0 1)
  let word (i : Nat) : Lanes := Vector.ofFn fun (l : Fin 32) => (((gs.getD l g).w)[i]?.getD (Lanes.all 0)).at 0
  { g with
    packed := true, front := 0, pack := (gs.mapIdx fun l x => (l, x.part)).tail,
    w := Vector.ofFn fun (i : Fin 256) => if i.val < 32 then word i else Lanes.all 0,
    p0 := { g.p0 with xm := lanes, lanes := lanes } }

/-! Spawn keys (R69). -/

def digestStep (h : DWord) (x : Nat) : DWord := (h ^^^ BitVec.ofNat 64 x) * 0x00000100000001B3

def digest (salt : Option DWord) (ws : List Word) : DWord :=
  let h0 : DWord := 0xCBF29CE484222325
  let h1 := match salt with
    | some k => h0 ^^^ k
    | none => h0
  ws.foldl (fun h w => digestStep h w.toNat) (digestStep h1 ws.length)

/-- One child: index, argument words as the frame holds them, argument block of the digest. -/
structure Child where
  index : Nat
  words : List Word
  block : List Word
deriving DecidableEq, Repr

/-- What a spawn asks for, whether the desk packs its children, and their group (R33). -/
structure Spawn where
  width  : Nat
  place  : BitVec 3
  shelf  : Nat
  entry  : DWord
  salt   : Bool
  laneClass : Bool
  packed : Bool
  group  : Nat
deriving DecidableEq, Repr

def argBytes (ws : List Word) : Vector Byte 128 :=
  let bs := ws.flatMap fun w => natToBytes 4 w.toNat
  Vector.ofFn fun (i : Fin 128) => bs.getD i 0

/-- The spawner's session still goes on: its log records, or is replayed (R156). -/
def State.sessionOpen (s : State) (g : Gang) : Bool :=
  let st := (s.logOf (replayLog g.replaym)).state
  g.rfolio ≠ 0 && (if replayMode g.replaym = 1 then st == .recording else replayMode g.replaym = 2 && st == .replaying)

/-- The replay folio that a child of the session takes (R157), where several match the lowest-numbered one that no
task of the replay has taken (log 110). At the Archive's limit the log is truncated and the child has no folio there
(R159). A child that a re-execution spawns is of the session too, while its log is open (log 91). -/
def State.sessionFolio (s : State) (g : Gang) (ordinal : Word) (entry : DWord) : State × Nat :=
  let n := replayLog g.replaym
  let l := s.logOf n
  let new : ReplayFolio :=
    { ReplayFolio.none with parent := g.rfolio, ordinal := ordinal, entryPc := entry, used := true }
  if !s.sessionOpen g then (s, 0)
  else if replayMode g.replaym = 1 then
    if l.truncated || s.ctx.archiveMax < s.archiveBytes + 32 then
      (s.setLogOf n { l with truncated := true, members := l.members + 1 }, l.folios.length + 1)
    else (s.setLogOf n { l with folios := l.folios ++ [new], members := l.members + 1 }, l.folios.length + 1)
  else
    let hit (f : ReplayFolio) : Bool :=
      !f.used && f.parent = g.rfolio && f.ordinal = ordinal && f.entryPc = entry
    match (List.range l.folios.length).find? fun i => hit (l.folios.getD i ReplayFolio.none) with
    | some i =>
      let f := l.folios.getD i ReplayFolio.none
      (s.setLogOf n { l with folios := l.folios.set i { f with used := true }, members := l.members + 1 }, i + 1)
    | none =>
      (s.setLogOf n { l with extra := l.extra ++ [new], members := l.members + 1 },
        l.folios.length + l.extra.length + 1)

/-- Mode of a traced segment's children (R59, R78). -/
def childMode (m : TraceMode) : TraceMode :=
  match m with
  | .recording => .recording
  | .reexec | .newWork => .newWork
  | _ => .untraced

/-- The entry image of a task's segment 0 (R68). -/
def State.startImage (s : State) (a : Nat) : EntryImage :=
  { gang := s.freshGang a, await := .none, rets := [], ret := 0, size := 256 }

/-- The frame of a new child (R34). -/
def State.childFrame (s : State) (r : Spawn) (c : Child) (ordinal : Word) (dig : DWord) : Frame :=
  let g := s.gang
  let fr := s.frameOf g.frame
  { Frame.none with
    parent := g.frame, resumePc := r.entry, entryPc := r.entry, ordinal := ordinal, digest := dig,
    width := r.width, region := r.place, shelf := r.shelf, state := .ready, laneClass := r.laneClass,
    args := argBytes c.words, taskId := s.freeNow, anchor := g.carrel, serial := s.ctx.nextTask,
    parentRegion := fr.region, launch := fr.launch, replaym := g.replaym, packed := r.packed, group := r.group }

/-- A child is made (R310): spliced when it matches a recorded one (R78); otherwise a frame, and beneath a
trace root a folio. None when there is no order label left (R64). The last component is the frame that
goes to the shelf. -/
def State.spawnChild (s : State) (r : Spawn) (site : Nat) (c : Child) : Option (State × Kid × Option Nat) :=
  let g := s.gang
  let ordinal := BitVec.ofNat 32 (site * 4096 + c.index)
  let dig := digest (if r.salt then some g.tkey else none) c.block
  let t := s.traceOf g.trace
  let below := s.beneath g
  let old := if below && g.mode == .reexec then
      (t.children g.folio).find? fun e => !(t.folio g.folio).matched.contains e.1
        && e.2.entryPc = r.entry && e.2.ordinal = ordinal && e.2.digest = dig
    else none
  match old with
  | some (id, x) =>
    some ((s.modTraceOf g.trace fun t => t.modFolio g.folio fun y => { y with matched := y.matched ++ [id] }),
      { index := c.index, frame := x.frame, serial := (s.frameOf x.frame).serial, ret := t.taskRet x.task0, ended := true,
        on_ := (s.frameOf x.frame).endedOn }, none)
  | none =>
    let a := s.newFrame
    let (s1, rf) := s.sessionFolio g ordinal r.entry
    let f := { s.childFrame r c ordinal dig with rfolio := rf, member := rf ≠ 0 }
    let kid : Kid := { index := c.index, frame := a, serial := f.serial, ret := 0, ended := false, on_ := 0 }
    let put (s : State) (f : Frame) : State :=
      let s2 := (s.setFrameOf a f).useFree
      { s2 with ctx := { s2.ctx with nextTask := s2.ctx.nextTask + 1, frameRoom := s2.ctx.frameRoom - 1 } }
    if below then
      match t.childLabel g.folio ordinal with
      | none => none
      | some lab =>
        let mode := childMode g.mode
        let x : Folio :=
          { Folio.none with label := lab, entryPc := r.entry, digest := dig, ordinal := ordinal,
                            parent := g.folio, frame := a, task0 := t.next, running := mode == .newWork }
        let (t1, id) := t.addFolio x
        let t2 := t1.modFolio g.folio fun y => { y with matched := y.matched ++ [id] }
        let s2 := put (s1.setTraceOf g.trace t2) { f with traced := true, mode := mode, trace := g.trace, folio := id }
        let s3 := s2.modTraceOf g.trace fun t => t.modFolio id fun y => { y with image := some (s2.startImage a) }
        some (s3.checkLimit g.trace, kid, some a)
    else some (put s1 f, kid, some a)

/-- All children in order. -/
def State.spawnAll (s : State) (r : Spawn) (site : Nat) : List Child → Option (State × List Kid × List Nat)
  | [] => some (s, [], [])
  | c :: rest =>
    match s.spawnChild r site c with
    | none => none
    | some (s1, k, a) =>
      match s1.spawnAll r site rest with
      | none => none
      | some (s2, ks, as) => some (s2, k :: ks, a.toList ++ as)

/-- Entries go to the shelf in order as its room allows; what does not fit stays with the gang (R42). -/
def State.enterAll (s : State) (carrel : Nat) : List Put → State × List Put
  | [] => (s, [])
  | p :: rest =>
    if (s.shelfOf p.shelf).full then (s, p :: rest)
    else ((s.touchBy carrel p.shelf).enter p.shelf (some carrel) p.task p.payload).enterAll carrel rest

/-- The shelf that a spawn names (R309); none where the instruction raises a protection fault. -/
def State.spawnShelf (s : State) (x : GFmt) : Option Nat :=
  let v := if x.shelf = 0 then 0 else s.gang.sReg x.shelf
  if v.toNat < 4096 && (s.shelfOf v.toNat).ok && s.owns (.shelf v.toNat) then some v.toNat else none

/-- The children of a spawn have all entered the ring: the path goes on; above the high watermark the task is
descheduled (R42). -/
def State.spawnDone (s : State) (h : Header) (shelf : Nat) (deep : Bool) : State :=
  let s1 := (s.modGang fun g => { g with pend := .none }).advance h
  if deep then (s1.modShelfOf shelf fun x => x.boostAll true).deschedule s1.pc (.depth shelf) else s1

/-- A spawn waits for the Curator to spread the order labels (R64). -/
def State.awaitLabels (s : State) : State :=
  (s.modTraceOf s.gang.trace fun t => { t with relabel := true }).hold

/-- Children that still have to enter the ring (R42): the spawn's own path enters them. -/
def State.enterMore (s : State) (h : Header) (shelf : Nat) (younger deep : Bool) : State :=
  let g := s.gang
  if younger != g.younger then s.hold
  else
    let r := s.enterAll g.carrel g.puts
    let s1 := r.1.modGang fun g => { g with puts := r.2 }
    if r.2.isEmpty then s1.spawnDone h shelf deep else s1.hold

/-- The effect of a spawn (R310) once its fields are checked: `new` says which slot it opens. -/
def spawnAct (s : State) (x : GFmt) (r : Spawn) (kind : SpawnKind) (cs : List Child) : Result :=
  let g := s.gang
  let wing := wingOf g.carrel
  match s.newSlot wing with
  | none => .next (s.awaitRoom 0)
  | some key =>
    match s.spawnAll r g.sites cs with
    | none => .next s.awaitLabels
    | some (s1, kids, frames) =>
      if s.ctx.frameRoom < frames.length then .next (s.awaitRoom frames.length)
      else
        let deep := decide ((s.shelfOf r.shelf).high < (s.shelfOf r.shelf).depth)
        let s1 := if r.laneClass && 2 ≤ cs.length then s1.chosen else s1
        let s2 := (s1.release g.carrel (r.place.toNat % 4)).openSlot key
          { Slot.none with
            kind := 1, object := BitVec.ofNat 64 (frames.headD 0), complete := frames.isEmpty,
            outstanding := frames.length, spawn := kind, kids := kids, maker := s.serial,
            held := if s.beneath g then some g.trace else none }
        let s3 := s2.modFrameOf g.frame fun f => { f with awaiting := f.awaiting + frames.length }
        let e := s3.enterAll g.carrel (frames.map fun a =>
          { shelf := r.shelf, task := true, payload := BitVec.ofNat 64 a })
        let s4 := e.1.modGang fun g =>
          { g with sites := g.sites + 1, kids := g.kids ++ kids.map (fun k => (k.frame, k.serial)), puts := e.2 }
        let s5 := s4.giveHandle x.hdr.d key
        if e.2.isEmpty then .next (s5.spawnDone x.hdr r.shelf deep)
        else .next (s5.modGang fun g => { g with pend := .entering key g.younger deep }).hold

/-! The fields of the G format (R30, R309). -/

/-- SPAWN acts whenever its guard is neither a never guard nor a false k guard (R95, R311). -/
def spawnActs (g : Gang) (h : Header) : Acts :=
  if h.idx = 7 && h.neg then .no
  else if h.kind then (if guardTrue g h then .yes g.xm else .no)
  else .yes (guardLanes g h)

/-- The fields common to the four (R30, R32, R301). -/
def gFieldsOk (g : Gang) (x : GFmt) (cntMax : Nat) : Bool :=
  x.cnt.toNat ≤ cntMax && x.place.toNat ≤ 3 && 1 ≤ x.width.toNat && x.width.toNat ≤ 32 && !g.isShadow
    && (match x.hdr.d with
        | .h _ => true
        | _ => false)

def shelfSrc (x : GFmt) (m : Mask) : List Src := if x.shelf = 0 then [] else [⟨.s x.shelf, false, 0, false, m⟩]

/-- The s registers from `i` upward. -/
def sRange (i : BitVec 6) (n : Nat) : List (BitVec 6) := (List.range n).map fun k => i + BitVec.ofNat 6 k

def sWords (g : Gang) (rs : List (BitVec 6)) : List Word :=
  rs.flatMap fun i => [(g.sReg i).extractLsb' 0 32, (g.sReg i).extractLsb' 32 32]

/-- `n` children. The desk packs the children of a SPAWN when it so chooses (R33, log 92). -/
def spawnOf (s : State) (x : GFmt) (shelf : Nat) (laneClass : Bool) (n : Nat) : Spawn :=
  { width := x.width.toNat, place := x.place, shelf := shelf, entry := offTarget s.pc x.entry,
    salt := x.salt, laneClass := laneClass, packed := laneClass && 2 ≤ n && s.choice ≠ 0, group := s.ctx.nextTask }

/-- Either the children of a held spawn enter, or the word issues. -/
def spawnIssue (s : State) (x : GFmt) (go : Result) : Result :=
  match s.gang.pend with
  | .entering _ younger deep => .next (s.enterMore x.hdr ((s.spawnShelf x).getD 0) younger deep)
  | _ => go

end Sys2Proof.Machine
end

