-- ==== Sys2Proof/Machine/Tasks.lean ====
section
/-! DEFINITION. EXIT (R103, R307), the spawns and TRECORD (R309 to R312), AWAIT, AWAITA, TESTF, CANCEL and
RETV (R313 to R317), QEND (R328). -/

namespace Sys2Proof.Machine

open Sys2Proof

/-! Ending. -/

/-- The recorded children of a folio, and those that its task has spawned in this session (R161). -/
def OrderLog.missesChild (l : OrderLog) (f : Nat) : Bool :=
  let recorded := (l.folios.filter fun x => x.parent = f).length
  let spawned := (l.folios.filter fun x => x.parent = f && x.used).length
    + (l.extra.filter fun x => x.parent = f).length
  spawned < recorded

/-- EXIT under REPLAY diverges from the recording (R161). -/
def State.exitDiverges (s : State) (g : Gang) : Bool :=
  let l := s.logOf (replayLog g.replaym)
  let f := l.folio g.rfolio
  g.inSession && replayMode g.replaym = 2 && !g.sroot
    && (!f.hashed || f.hash != g.hash || f.strong != g.strong || l.missesChild g.rfolio)

/-- A re-execution retires with fewer ATOMs than it has records (R83). -/
def State.atomsMissing (s : State) (g : Gang) : Bool :=
  s.beneath g && g.mode == .reexec && (atomicRecord s g.atoms).isSome

/-- Each child of the gang's segment has ended. One that a re-execution spliced had, though its segments may run again
(R78): its slot says so. -/
def State.kidsDone (s : State) (g : Gang) : Bool :=
  let done (k : Nat × Nat) : Bool := s.ctx.slots.any fun e =>
    e.2.used && e.2.kids.any fun c => c.ended && c.frame = k.1 && c.serial = k.2
  g.kids.all fun k => done k || ((s.childFrame? k).map fun f => f.state == .ended).getD true

/-- The task ends with a return value, unless it has to wait for its children (R307) or diverges. -/
def endNow (s : State) (m : Mask) (ret : DWord) : Result :=
  let g := s.gang
  if s.beneath g && !s.kidsDone g then .next s.hold
  else if s.atomsMissing g || s.exitDiverges g then raiseFault s Code.replayDiverged m m 0
  else .next (s.issuedOne.endTask ret).tick

/-- EXIT on one path of a split gang (R103): its path has arrived with no lanes. The other path stops waiting
at an RWAIT for it (R305) and goes on at the next word, which may be the JOIN label. -/
def Gang.pathExits (g : Gang) : Gang :=
  let g1 := g.modPath fun p => { p with wait := .exited }
  match g1.other with
  | some q =>
    match q.wait with
    | .rwait pc _ =>
      let g2 := (({ g1 with younger := !g.younger } : Gang).setPath
        { q with pc := pc + 12, wait := .none, latch := none }).settled false
      if g2.p1.isSome then { g2 with younger := g.younger } else g2
    | _ => g1.rejoin
  | none => g1.rejoin

/-- Every path of the gang has executed EXIT. -/
def Gang.allExited (g : Gang) : Bool :=
  g.p0.wait == .exited && (g.p1.map (·.wait == .exited)).getD true

/-- EXIT of one task, of a packed gang or of a whole one; in a trap handler of every path at once (R307). -/
def exitTask (x : RRR) (s : State) : Result :=
  let legal := rrrPlain x false false && x.a == .absent && x.hdr.d == .absent && !s.gang.isShadow
  issue s x.hdr .gang legal [] (fun _ => []) fun m =>
    let g := s.gang
    if g.packed || g.split.isNone || g.inHandler || g.pathExits.allExited then endNow s m g.ret
    else .next (s.issuedOne.modGang fun g => g.pathExits.hint x.hdr true s.clock).tick

/-- EXIT (R103, R307): in a packed gang it ends the tasks of the acting lanes. -/
def execExit (x : RRR) (s : State) : Result := perTask x.hdr false (exitTask x) s

/-- QEND (R328): the shadow gang ends, its queue entries stay; what it has loaded enters them first (R335). -/
def execQend (x : RRR) (s : State) : Result :=
  let legal := rrrPlain x false false && x.a == .absent && x.hdr.d == .absent && s.gang.isShadow
  let filling := s.gang.flights.any fun f => match f.dst with
    | .q _ => true
    | _ => false
  issue s x.hdr .gang legal [] (fun _ => []) fun _ =>
    if filling then .next s.hold
    else
      let s1 := s.issuedOne
      .next ({ s1 with ctx := { s1.ctx with gangs := Table.del s1.ctx.gangs s1.cur } } : State).tick

/-! Spawning. -/

def spawnTask (x : GFmt) (s : State) : Result :=
  let g := s.gang
  let first := match x.args with
    | .w i => i.toNat
    | _ => 256
  let n := x.cnt.toNat
  let legal := gFieldsOk g x 32 && x.width.toNat = 1
    && ((n = 0 && x.args == .absent) || (first < g.regs && first + n ≤ g.regs))
  let args (m : Mask) : List Src :=
    ((List.range n).map fun k => ⟨.w (BitVec.ofNat 8 (first + k)), false, 0, false, m⟩) ++ shelfSrc x m
  spawnIssue s x <|
    issueActs s x.hdr (spawnActs g x.hdr) legal [(x.hdr.d, false)] args fun m =>
      match s.spawnShelf x with
      | none => protect s m
      | some sh =>
        spawnAct s x (spawnOf s x sh true m.lanes.length) .lane (m.lanes.map fun l =>
          let ws := (List.range n).map fun k => (g.wReg (BitVec.ofNat 8 (first + k))).at l
          { index := g.laneNo l, words := ws, block := ws })

/-- SPAWN (R30, R309, R310, R311). -/
def execSpawn (x : GFmt) (s : State) : Result := perTask x.hdr false (spawnTask x) s

def sFirst (o : Operand) : Nat :=
  match o with
  | .s i => i.toNat
  | _ => 64

/-- The fields of SPAWNG and TRECORD (R30, R309). -/
def spawngOk (g : Gang) (x : GFmt) : Bool :=
  gFieldsOk g x 16 && (if x.cnt = 0 then x.args == .absent || isS x.args
    else isS x.args && sFirst x.args + x.cnt.toNat ≤ 64)

def spawngSrcs (x : GFmt) (m : Mask) : List Src :=
  ((sRange (BitVec.ofNat 6 (sFirst x.args)) x.cnt.toNat).map fun i => ⟨.s i, false, 0, false, m⟩) ++ shelfSrc x m

def spawngChild (g : Gang) (x : GFmt) : Child :=
  let ws := sWords g (sRange (BitVec.ofNat 6 (sFirst x.args)) x.cnt.toNat)
  { index := 0, words := ws, block := ws }

def spawngTask (x : GFmt) (s : State) : Result :=
  let g := s.gang
  spawnIssue s x <|
    issue s x.hdr .gang (spawngOk g x) [(x.hdr.d, false)] (spawngSrcs x) fun m =>
      match s.spawnShelf x with
      | none => protect s m
      | some sh => spawnAct s x (spawnOf s x sh false 1) .gang [spawngChild g x]

/-- SPAWNG (R30, R309, R310). -/
def execSpawng (x : GFmt) (s : State) : Result := perTask x.hdr false (spawngTask x) s

def spawnvTask (x : GFmt) (s : State) : Result :=
  let g := s.gang
  let first := sFirst x.args
  let legal := gFieldsOk g x 15 && isS x.args && first + 1 + x.cnt.toNat ≤ 64
  let rs := sRange (BitVec.ofNat 6 (first + 1)) x.cnt.toNat
  let srcs (m : Mask) : List Src :=
    (⟨x.args, false, 0, false, m⟩ :: rs.map fun i => ⟨.s i, false, 0, false, m⟩) ++ shelfSrc x m
  spawnIssue s x <|
    issue s x.hdr .gang legal [(x.hdr.d, false)] srcs fun m =>
      let n := ((g.sReg (BitVec.ofNat 6 first)).extractLsb' 0 32).toNat
      if 4096 < n then illegal s m
      else
        match s.spawnShelf x with
        | none => protect s m
        | some sh =>
          let ws := sWords g rs
          spawnAct s x (spawnOf s x sh false n) .vector ((List.range n).map fun i =>
            { index := i, words := BitVec.ofNat 32 i :: 0 :: ws, block := ws })

/-- SPAWNV (R30, R31, R309, R310): each child's index comes before its arguments. -/
def execSpawnv (x : GFmt) (s : State) : Result := perTask x.hdr false (spawnvTask x) s

/-! TRECORD (R59, R312). -/

/-- The first trace number not in use. -/
def freeTrace (t : Table Trace) (fuel i : Nat) : Nat :=
  match fuel with
  | 0 => i
  | k + 1 => if (Table.look t i Trace.none).live then freeTrace t k (i + 1) else i

/-- Traces that record (R59). -/
def State.liveTraces (s : State) : Nat :=
  (s.ctx.traces.filter fun e => e.2.live && e.2.state != .abandoned).length

/-- A new trace with its root's folio, or an abandoned one when 64 are live (R59, R62). -/
def State.newTrace (s : State) (t root key : Nat) : State :=
  let f := s.frameOf root
  let tr : Trace :=
    { Trace.none with live := true, rootFrame := root, rootArgs := f.args, future := key, carrel := s.gang.carrel }
  let full := decide (64 ≤ s.liveTraces)
  let s1 := s.setTraceOf t tr
  if full then
    let s2 := s1.modFrameOf root fun f => { f with trace := t }
    s2.setTraceOf t { tr.abandon with rootImage := some (s2.startImage root) }
  else
    let s2 := s1.modFrameOf root fun f =>
      { f with trace := t, traced := true, mode := .recording, folio := 1 }
    let im := s2.startImage root
    let x : Folio :=
      { Folio.none with label := BitVec.ofNat 64 (2 ^ 40), entryPc := f.entryPc, digest := f.digest,
                        ordinal := f.ordinal, frame := root, task0 := 1, image := some im }
    let r := ({ tr with rootImage := some im } : Trace).addFolio x
    (s2.setTraceOf t r.1).checkLimit t

def trecordTask (x : GFmt) (s : State) : Result :=
  let g := s.gang
  spawnIssue s x <|
    issue s x.hdr .gang (spawngOk g x) [(x.hdr.d, false)] (spawngSrcs x) fun m =>
      if s.taskTraced || !s.owns (.archive s.ctx.number) then protect s m
      else
        match s.spawnShelf x, s.newSlot (wingOf g.carrel) with
        | none, _ => protect s m
        | _, none => .next (s.awaitRoom 1)
        | some sh, some key =>
          if s.ctx.frameRoom < 1 then .next (s.awaitRoom 1)
          else
            let r := spawnOf s x sh false 1
            let deep := decide ((s.shelfOf sh).high < (s.shelfOf sh).depth)
            match s.spawnChild r g.sites (spawngChild g x) with
            | some (s1, kid, some root) =>
              let t := freeTrace s.ctx.traces (s.ctx.traces.length + 1) 0
              let s2 := ((s1.newTrace t root key).release g.carrel (r.place.toNat % 4)).openSlot key
                { Slot.none with
                  kind := 3, object := BitVec.ofNat 64 t, outstanding := 1, maker := s.serial, held := some t }
              let s3 := s2.modFrameOf g.frame fun f => { f with awaiting := f.awaiting + 1 }
              let e := s3.enterAll g.carrel [{ shelf := sh, task := true, payload := BitVec.ofNat 64 root }]
              let s4 := e.1.modGang fun g =>
                { g with sites := g.sites + 1, kids := g.kids ++ [(kid.frame, kid.serial)], puts := e.2 }
              let s5 := s4.giveHandle x.hdr.d key
              if e.2.isEmpty then .next (s5.spawnDone x.hdr sh deep)
              else .next (s5.modGang fun g => { g with pend := .entering key g.younger deep }).hold
            | _ => .next s.awaitLabels

/-- TRECORD (R312). -/
def execTrecord (x : GFmt) (s : State) : Result := perTask x.hdr false (trecordTask x) s

/-! RETV (R317). -/

def retvTask (x : RRR) (s : State) : Result :=
  let g := s.gang
  let legal := rrrPlain x false false && x.hdr.d == .absent && !g.isShadow && (match x.a with
    | .w i => decide (i.toNat < g.regs)
    | .s _ | .imm _ => true
    | _ => false)
  let lane (_ : Mask) : Mask := if g.xm = 0 then 0 else Mask.lane g.lane0
  issue s x.hdr .gang legal [] (fun m => [⟨x.a, x.fe.getLsbD 2, 0, false, lane m⟩]) fun _ =>
    let v : DWord := if g.xm = 0 then 0
      else match x.a with
        | .imm v => v.signExtend 64
        | a => readLane s 0x1C 0 a g.lane0
    .next (((s.modFrameOf g.frame fun f => { f with ret := v, hasRet := true }).modGang fun g => { g with ret := v }).advance x.hdr)

def execRetv (x : RRR) (s : State) : Result := perTask x.hdr false (retvTask x) s

/-! CANCEL (R211, R316). -/

/-- The return value of a cancelled child (R316). -/
def cancelValue : DWord := 0x8000000500000000

/-- A child still on its shelf never runs (R316). -/
def State.removeChild (s : State) (f : Nat) : State :=
  let s1 := s.dropTasks [f]
  let s2 := ((s1.countDown f).kidEnds f cancelValue (s.frameOf f).anchor).freeFrame f
  s2.wake.compareEntries.sweepSlots

/-- CANCEL of one child of a task future, by frame and serial number: whether it did anything. -/
def State.cancelChild (s : State) (k : Nat × Nat) : State × Bool :=
  match s.childFrame? k with
  | none => (s, false)
  | some fr =>
    if fr.traced then (s, false)
    else
      match fr.state with
      | .ended => (s, false)
      | .ready => (s.removeChild k.1, true)
      | _ => (s.modFrameOf k.1 fun x => { x with cancel := true }, true)

def State.cancelKids (s : State) (ks : List (Nat × Nat)) : State × Bool :=
  ks.foldl (fun acc k => let r := acc.1.cancelChild k; (r.1, acc.2 || r.2)) (s, false)

/-- CANCEL of a propagation (R316). While re-executions run they retire first; otherwise the trace is abandoned at
once. -/
def State.cancelProp (s : State) (t key : Nat) : State :=
  let tr := s.traceOf t
  let s1 := s.modSlotOf key fun x => { x with cancelled := true }
  if tr.active ≠ some key && !tr.props.contains key then s
  else if tr.state == .propagating then
    (s1.setTraceOf t { tr with
      cancels := if tr.cancels.contains key then tr.cancels else tr.cancels ++ [key], props := tr.props.erase key }).settleProp t
  else
    let active := if tr.active = some key then none else tr.active
    let s2 := (s1.setTraceOf t { tr with active := active, props := tr.props.erase key }).abandon t
    (s2.completed key tr.rootRet).dropIfDue t

def cancelTask (x : RRR) (s : State) : Result :=
  let g := s.gang
  let legal := rrrPlain x false false && x.hdr.d == .absent && !g.isShadow && (match x.a with
    | .h _ => true
    | _ => false)
  issue s x.hdr .gang legal [] (srcA x) fun m =>
    match s.named (readGang s 0x1D 0 x.a) with
    | none => protect s m
    | some (key, y) =>
      match y.kind.toNat with
      | 1 =>
        let traced (k : Kid) : Bool := ((s.childFrame? (k.frame, k.serial)).map (·.traced)).getD false
        if y.kids.any traced then protect s m
        else
          let r := s.cancelKids ((y.kids.filter fun k => !k.ended).map fun k => (k.frame, k.serial))
          let s1 := if r.2 then r.1.modSlotOf key fun z => { z with cancelled := true } else r.1
          .next (s1.advance x.hdr)
      | 2 => .next ((s.cancelJob key).advance x.hdr)
      | 4 => .next ((s.cancelProp y.object.toNat key).advance x.hdr)
      | _ => protect s m

/-- CANCEL (R316). -/
def execCancel (x : RRR) (s : State) : Result := perTask x.hdr false (cancelTask x) s

/-! AWAIT (R26, R40, R313). -/

/-- What reading the live bitmap gives (R313); its reserved bits come before alignment and protection (R271). -/
inductive Bitmap where
  | ok (bm : BitVec 256)
  | fault (kind : BitVec 8) (detail : DWord)
  | illegal
deriving DecidableEq, Repr

def State.bitmap (s : State) (off : BitVec 32) : Bitmap :=
  let g := s.gang
  let o := off.toNat
  let sec := s.consts g.code
  if off = 0xFFFFFFFF then .ok (bitmapAll g.regs)
  else
    let bm := BitVec.ofNat 256 (bytesToNat ((sec.drop o).take 32))
    if o + 32 ≤ sec.length && bm &&& bitmapRsv != 0 then .illegal
    else if o % 32 ≠ 0 then .fault Code.alignment (BitVec.ofNat 64 o)
    else if sec.length < o + 32 then .fault Code.protection (BitVec.ofNat 64 o)
    else .ok bm

/-- The slot's handle is delivered and consumed; its children's frames go when nothing holds them
(R35, R208, R313). -/
def State.consume (s : State) (key : Nat) : State :=
  let x := s.slotOf key
  let s1 := s.modSlotOf key fun y => { y with consumed := true }
  let s2 := if x.held.isNone && x.kind = 1 then x.kids.foldl (fun s k => s.freeKid k) s1 else s1
  s2.wake.compareEntries.sweepSlots

/-- AWAIT.chk finds OVERWRITTEN: FUT-LOST after the delivery (R142, R210). In a packed gang the tasks that follow
execute the AWAIT first; the trap comes next (log 92). -/
def futLost (s s1 : State) (x : BFmt) (m : Mask) (reg : Nat) (next : DWord) : Result :=
  let g := s.gang
  let t : TrapReq :=
    { cause := Trap.futLost, detail := BitVec.ofNat 16 reg, lanes := m, acting := m, offending := m,
      younger := g.younger, ret := next, pc := g.path.pc, cycle := s.cycleOf g.carrel }
  if g.noHandler then illegal s m
  else if g.packed then .next ((s1.modGang fun g => { g with traps := g.traps ++ [t] }).advance x.hdr)
  else takeTrap s1 Trap.futLost (BitVec.ofNat 16 reg) m m m next

/-- The children of this segment that are awaited in place (R40). -/
def State.markInPlace (s : State) (y : Slot) : State :=
  let g := s.gang
  let mine (x : Folio) : Bool :=
    y.kids.any fun k => k.frame = x.frame && k.serial = (s.frameOf x.frame).serial && g.kids.contains (k.frame, k.serial)
  if s.beneath g && g.split.isSome then
    s.modTraceOf g.trace fun t =>
      { t with folios := t.folios.map fun e =>
          if e.2.task0 = e.1 && mine e.2 then (e.1, { e.2 with inPlace := true }) else e }
  else s

/-- The AWAIT at which the current path stands has its value and waits no longer. -/
def Gang.passed (g : Gang) : Gang := if g.packed then g else g.modPath fun p => { p with latch := none }

/-- The AWAIT completes without parking: value, acquire edge, the check (R40, R313). -/
def awaitDone (s0 : State) (x : BFmt) (m : Mask) (key : Nat) (y : Slot) (reg : Nat) : Result :=
  let s := s0.markInPlace y
  let g := s.gang
  let s1 := ((s.acquire g.carrel (y.cross g.carrel)).modGang fun g => (g.deliver x.hdr.d y s.freeNow).passed).useFree
  if x.mod.getLsbD 0 && y.overwritten then
    futLost s0 ((s1.modSlotOf key fun z => { z with overwritten := false }).consume key) x m reg (s.pc + 12)
  else .next ((s1.consume key).advance x.hdr)

/-- A flagged task cancels its children, waits for them and ends (R316). -/
def cancelledTask (s : State) (m : Mask) : Result :=
  let s1 := (s.cancelKids s.gang.kids).1
  if s1.kidsEnded s1.gang then endNow s1 m cancelValue else .next s1.hold

/-- No order label is left for the task's next segment (R64). -/
def State.needsLabels (s : State) : Bool :=
  let g := s.gang
  let t := s.traceOf g.trace
  s.beneath g && ((t.folio g.folio).successor = 0 || g.mode != .reexec) && (t.nextLabel g.folio).isNone

/-- The AWAIT parks (R37), unless it diverges (R83), or has to wait for order labels (R64) or, as one task of a
packed gang, for room in the image pool (log 92). -/
def parkNow (s : State) (m : Mask) (bm : BitVec 256) (pend : Pend) : Result :=
  let g := s.gang
  if s.atomsMissing g then raiseFault s Code.replayDiverged m m 0
  else if s.needsLabels then .next s.awaitLabels
  else if s.packStays bm then .next s.hold
  else .next (s.issuedOne.parkSegment bm (s.pc + 12) pend).tick

/-- The path's segment must end at an AWAIT (R26): it lies beneath a trace root, has executed a spawn and
the gang is not split. -/
def State.mustPark (s : State) : Bool :=
  s.beneath s.gang && s.gang.sites != 0 && s.gang.split.isNone

def awaitTask (x : BFmt) (s : State) : Result :=
  let g := s.gang
  let reg := match x.a with
    | .h i => some i.toNat
    | _ => none
  let legal := reg.isSome && x.mod.extractLsb' 1 21 == 0 && !g.isShadow && (match x.hdr.d with
    | .w i => decide (i.toNat < g.regs)
    | .s _ | .absent => true
    | _ => false)
  issue s x.hdr .gang legal [(x.hdr.d, false)] (fun m => [⟨x.a, false, 0, false, m⟩]) fun m =>
    match s.bitmap x.off with
    | .illegal => illegal s m
    | .fault k d => raiseFault s k m m d
    | .ok bm =>
      match s.named (readGang s 0x1D 0 x.a) with
      | none => protect s m
      | some (key, y) =>
        if (s.frameOf g.frame).cancel then cancelledTask s m
        else if y.complete && !s.mustPark then awaitDone s x m key y (reg.getD 0)
        else if g.split.isSome then .next (s.markInPlace y).hold
        else parkNow s m bm (.one key x.hdr.d (if x.mod.getLsbD 0 then reg else none))

/-- AWAIT (R313). -/
def execAwait (x : BFmt) (s : State) : Result := perTask x.hdr false (awaitTask x) s

def awaitaTask (x : BFmt) (s : State) : Result :=
  let g := s.gang
  let idx := (List.range 16).filter fun i => x.mod.getLsbD i
  let legal := x.a == .absent && isS x.hdr.d && x.mod.extractLsb' 16 6 == 0 && !idx.isEmpty && !g.isShadow
  issue s x.hdr .gang legal [(x.hdr.d, false)]
    (fun m => idx.map fun i => ⟨.h (BitVec.ofNat 4 i), false, 0, false, m⟩) fun m =>
    match s.bitmap x.off with
    | .illegal => illegal s m
    | .fault k d => raiseFault s k m m d
    | .ok bm =>
      let named := idx.map fun i => (i, s.named (g.hReg (BitVec.ofNat 4 i)))
      if named.any fun e => e.2.isNone then protect s m
      else
        let slots := named.filterMap fun e => e.2.map fun y => (e.1, y)
        let all := slots.all fun e => e.2.2.complete
        if (s.frameOf g.frame).cancel then cancelledTask s m
        else
          match slots.find? fun e => e.2.2.complete with
          | some e =>
            if (!s.beneath g || all) && !s.mustPark then
              .next (((s.acquire g.carrel (e.2.2.cross g.carrel)).modGang fun g =>
                g.writeDest m x.hdr.d 64 (fun _ => 0) (BitVec.ofNat 64 e.1)).advance x.hdr)
            else if g.split.isSome then .next s.hold
            else parkNow s m bm (.any (slots.map fun e => (e.1, e.2.1)) x.hdr.d)
          | none =>
            if g.split.isSome then .next s.hold
            else parkNow s m bm (.any (slots.map fun e => (e.1, e.2.1)) x.hdr.d)

/-- AWAITA (R314). -/
def execAwaita (x : BFmt) (s : State) : Result := perTask x.hdr false (awaitaTask x) s

def testfValue (y : Slot) : DWord :=
  y.kind ++ 0#28 ++ BitVec.ofNat 24 y.outstanding ++ 0#4
    ++ BitVec.ofBool y.cancelled ++ BitVec.ofBool y.overwritten ++ BitVec.ofBool y.consumed
    ++ BitVec.ofBool y.complete

def testfTask (x : RRR) (s : State) : Result :=
  let g := s.gang
  let legal := x.rsv == 0 && x.mod.extractLsb' 0 11 == 0 && x.b == .absent && x.c == .absent
    && feOk (x.fe.getLsbD 2) x.a && !x.fe.getLsbD 1 && !x.fe.getLsbD 0 && predIsK x.pred && !g.isShadow
    && (match x.a with
        | .h _ => true
        | _ => false)
    && (x.hdr.d == .absent || isS x.hdr.d)
  issue s x.hdr .gang legal [(x.hdr.d, false)] (srcA x) fun m =>
    match s.named (readGang s 0x1D 0 x.a) with
    | none => protect s m
    | some (_, y) =>
      .next ((s.modGang fun g =>
        (g.writePred m x.pred (if y.complete then BitVec.allOnes 32 else 0)).writeDest m x.hdr.d 64
          (fun _ => 0) (testfValue y)).advance x.hdr)

/-- TESTF (R315). -/
def execTestf (x : RRR) (s : State) : Result := perTask x.hdr false (testfTask x) s

end Sys2Proof.Machine
end

