-- ==== Sys2Proof/Machine/Shelves.lean ====
section
/-! DEFINITION. The shelf instructions (R318 to R321). -/

namespace Sys2Proof.Machine

open Sys2Proof

/-- The shelf that an s register names; none where the instruction raises a protection fault (R318). -/
def State.shelfOperand (s : State) (o : Operand) : Option Nat :=
  let v := readGang s 0x1D 0 o
  if v.toNat < 4096 && (s.shelfOf v.toNat).ok && s.owns (.shelf v.toNat) then some v.toNat else none

/-- The operand fields of the shelf pages (R301). -/
def shelfFieldsOk (s : State) (x : RRR) (sub pred : Bool) : Bool :=
  x.rsv == 0 && x.typ == 0 && (sub || x.sub == 0) && (pred || x.pred == 0) && isS x.a && !s.gang.isShadow
    && feOk (x.fe.getLsbD 2) x.a && feOk (x.fe.getLsbD 1) x.b && feOk (x.fe.getLsbD 0) x.c

def shelfSrcs (x : RRR) (m : Mask) : List Src := rrrSrcs x 3 false m

/-- A long-latency s destination: empty until the value returns (R17, R302). -/
def State.launchS (s : State) (d : Operand) (v : DWord) : State :=
  s.modGang fun g => g.launch { dst := d, mask := 0, vals := [], sval := v, req := .done, replay := false,
                                pc := g.path.pc, younger := g.younger, cycle := s.cycleOf g.carrel }

/-- The frame of a task that a bound shelf makes of a value (R45, R321): width 1, placed `any`, beneath the
launch of the task that bound the shelf. -/
def State.boundFrame (s : State) (n : Nat) (v : DWord) (team : Nat) : Frame :=
  let x := s.shelfOf n
  { Frame.none with
    resumePc := x.consumer, entryPc := x.consumer, width := 1, region := 3, shelf := n, launch := x.launch,
    anchor := team, args := argBytes [v.extractLsb' 0 32, v.extractLsb' 32 32],
    digest := Config.freeValue (s.free + 1), taskId := s.freeNow, serial := s.ctx.nextTask }

/-- A new frame holds `f`. -/
def State.putFrame (s : State) (f : Frame) : State × Nat :=
  let a := s.newFrame
  let s1 := (s.setFrameOf a f).useFree.useFree
  ({ s1 with ctx := { s1.ctx with nextTask := s1.ctx.nextTask + 1, frameRoom := s1.ctx.frameRoom - 1 } }, a)

/-- SHPUT (R319). -/
def execShput (x : RRR) (s : State) : Result :=
  let g := s.gang
  let legal := shelfFieldsOk s x false false && isSImm x.b && x.c == .absent && x.hdr.d == .absent
  issue s x.hdr .gang legal [] (shelfSrcs x) fun m =>
    match s.shelfOperand x.a with
    | none => protect s m
    | some n =>
      let sh := s.shelfOf n
      let v := readGang s 0x1D 0 x.b
      let deep := decide (sh.high < sh.depth)
      let done (s : State) : State :=
        let s1 := s.advance x.hdr
        if deep then (s1.modShelfOf n fun x => x.boostAll true).deschedule s1.pc (.depth n) else s1
      let s0 := s.touchBy g.carrel n
      if sh.full then .next s.hold
      else if sh.consumer = 0 then .next (done (s0.enter n (some g.carrel) false v))
      else if s.ctx.frameRoom = 0 then .next (s.awaitRoom 1)
      else
        let r := (s0.release g.carrel levelPackage).putFrame (s.boundFrame n v g.carrel)
        .next (done (r.1.enter n (some g.carrel) true (BitVec.ofNat 64 r.2)))

/-- Nobody that waits at the shelf came before this gang and path (R320). -/
def Shelf.turnOf (x : Shelf) (me : Nat × Bool) : Bool := (x.takers.head?.map (· == me)).getD true

/-- The gang and path wait at the shelf, once, or wait there no longer (R320). -/
def Shelf.joins (x : Shelf) (me : Nat × Bool) : Shelf :=
  if x.takers.contains me then x else { x with takers := x.takers ++ [me] }
def Shelf.leaves (x : Shelf) (me : Nat × Bool) : Shelf := { x with takers := x.takers.filter (· != me) }

/-- What has come to the gang and path since it waits at the shelf; it is handed over once. -/
def Shelf.gift (x : Shelf) (me : Nat × Bool) : Option (Option DWord) := (x.given.find? fun e => e.1 == me).map (·.2)
def Shelf.handOver (x : Shelf) (me : Nat × Bool) : Shelf := { x with given := x.given.filter fun e => e.1 != me }

/-- SHTAKE has its value: it is on its way to s, and `.try`'s k register is true (R320). -/
def shtakeValue (x : RRR) (m : Mask) (try_ : Bool) (v : DWord) (s : State) : State :=
  ((s.launchS x.hdr.d v).modGang fun g => if try_ then g.writePred m x.pred (BitVec.allOnes 32) else g).advance x.hdr

/-- SHTAKE (R320): the oldest value entry goes to the taker that arrived first. One that waits receives its value, or
the refusal of a shelf that was bound (R329), in the step in which that comes. -/
def execShtake (x : RRR) (s : State) : Result :=
  let g := s.gang
  let try_ := x.sub.getLsbD 0
  let legal := shelfFieldsOk s x true true && x.sub.extractLsb' 1 4 == 0
    && (if try_ then predIsK x.pred else x.pred == 0) && x.b == .absent && x.c == .absent && isS x.hdr.d
  issue s x.hdr .gang legal [(x.hdr.d, false)] (shelfSrcs x) fun m =>
    match s.shelfOperand x.a with
    | none => protect s m
    | some n =>
      let sh := s.shelfOf n
      let me := (s.cur, g.younger)
      match sh.gift me with
      | some none => protect (s.modShelfOf n fun y => y.handOver me) m
      | some (some v) => .next (shtakeValue x m try_ v (s.modShelfOf n fun y => y.handOver me))
      | none =>
        let s0 := s.touchBy g.carrel n
        if sh.consumer ≠ 0 then protect s m
        else
          match (if sh.turnOf me then sh.entries.findIdx? fun e => !e.isTask else none) with
          | some i =>
            let v := (sh.entries[i]?.map (·.payload)).getD 0
            .next (shtakeValue x m try_ v ((s0.modShelfOf n fun y => y.leaves me).takeEntry n i))
          | none =>
            if try_ then
              .next (((s0.launchS x.hdr.d 0).modGang fun g => g.writePred m x.pred 0).advance x.hdr)
            else .next (s0.modShelfOf n fun y => y.joins me).hold

/-- SHDEPTH (R321). -/
def execShdepth (x : RRR) (s : State) : Result :=
  let legal := shelfFieldsOk s x false false && x.b == .absent && x.c == .absent && isS x.hdr.d
  issue s x.hdr .gang legal [(x.hdr.d, false)] (shelfSrcs x) fun m =>
    match s.shelfOperand x.a with
    | none => protect s m
    | some n =>
      let s0 := s.touchBy s.gang.carrel n
      .next ((s0.launchS x.hdr.d (BitVec.ofNat 64 (s.shelfOf n).depth)).advance x.hdr)

/-- The value entries of a shelf that is bound become tasks, oldest first (R321). -/
def State.bindEntries (s : State) (n : Nat) : State :=
  (List.range (s.shelfOf n).depth).foldl (fun s i =>
    match (s.shelfOf n).entries[i]? with
    | some e =>
      if e.isTask then s
      else
        let r := s.putFrame (s.boundFrame n e.payload (e.team.getD 0))
        r.1.modShelfOf n fun x =>
          { x with entries := x.entries.set i { e with isTask := true, payload := BitVec.ofNat 64 r.2 } }
    | none => s) s

/-- Whoever waits at a shelf that is bound is refused (R329). -/
def Shelf.refuseTakers (x : Shelf) : Shelf :=
  let no (me : Nat × Bool) : (Nat × Bool) × Option DWord := (me, Option.none)
  { x with takers := [], given := x.given ++ x.takers.map no }

/-- SHBIND (R321). -/
def execShbind (x : RRR) (s : State) : Result :=
  let g := s.gang
  let legal := shelfFieldsOk s x false false && isS x.b && x.c == .absent && x.hdr.d == .absent
  issue s x.hdr .gang legal [] (shelfSrcs x) fun m =>
    let se := readGang s 0x1D 0 x.b
    if se.extractLsb' 0 2 ≠ 0 then raiseFault s Code.alignment m m se
    else
      match s.shelfOperand x.a with
      | none => protect s m
      | some n =>
        let values := ((s.shelfOf n).entries.filter fun e => !e.isTask).length
        if n = 0 then protect s m
        else if se ≠ 0 && s.ctx.frameRoom < values then .next (s.awaitRoom values)
        else
          let s1 := (s.touchBy g.carrel n).modShelfOf n fun y =>
            { y with consumer := se, launch := (s.frameOf g.frame).launch }
          .next ((if se = 0 then s1 else (s1.bindEntries n).modShelfOf n Shelf.refuseTakers).advance x.hdr)

/-- SHPRIO (R321). -/
def execShprio (x : RRR) (s : State) : Result :=
  let legal := shelfFieldsOk s x false false && isSImm x.b && (isS x.c || x.c == .absent) && x.hdr.d == .absent
  issue s x.hdr .gang legal [] (shelfSrcs x) fun m =>
    match s.shelfOperand x.a with
    | none => protect s m
    | some n =>
      let sh := s.shelfOf n
      let p := readGang s 0x1D 0 x.b
      let wm := readGang s 0x1D 0 x.c
      let new : Shelf := { sh with
        prio := p.extractLsb' 0 3,
        low := if x.c == .absent then sh.low else (wm.extractLsb' 0 32).toNat,
        high := if x.c == .absent then sh.high else (wm.extractLsb' 32 32).toNat }
      if n = 0 || 7 < p.toNat || !new.ok then protect s m
      else
        let s1 := (s.touchBy s.gang.carrel n).setShelfOf n (if new.depth < new.low then new.boostAll false else new)
        .next (s1.wake.advance x.hdr)

end Sys2Proof.Machine
end

