-- ==== Sys2Proof/Machine/Buffers.lean ====
section
/-! DEFINITION. The buffer instructions (R212, R213, R355, R368 to R370). -/

namespace Sys2Proof.Machine

open Sys2Proof

/-- What the pages of the buffer instructions share (R355): `sub` says that sub-op bit 6 has a use, n is the
number of operands. -/
def bufFieldsOk (s : State) (x : RRR) (n : Nat) (sub : Bool) : Bool :=
  x.rsv == 0 && x.typ == 0 && x.pred == 0 && (if sub then x.sub.extractLsb' 1 4 == 0 else x.sub == 0)
    && (if 1 ≤ n then isSImm x.a else x.a == .absent) && (if 2 ≤ n then isSImm x.b else x.b == .absent)
    && (if 3 ≤ n then isSImm x.c else x.c == .absent)
    && feOk (x.fe.getLsbD 2) x.a && feOk (x.fe.getLsbD 1) x.b && feOk (x.fe.getLsbD 0) x.c
    && !s.gang.isShadow

def bufSrcs (x : RRR) (m : Mask) : List Src := rrrSrcs x 3 false m

/-- A path takes its turn at the FREE entries: none waits before it (R369). -/
def Carrel.turnOf (c : Carrel) (me : Nat × Bool) : Bool := (c.takers.head?.map (· == me)).getD true

/-- A path waits for an entry; it waits no longer. -/
def Carrel.joins (c : Carrel) (me : Nat × Bool) : Carrel :=
  if c.takers.contains me then c else { c with takers := c.takers ++ [me] }
def Carrel.leaves (c : Carrel) (me : Nat × Bool) : Carrel := { c with takers := c.takers.filter (· != me) }

/-- The entry that has come to a path since it waits; it is handed over once. -/
def Carrel.gift (c : Carrel) (me : Nat × Bool) : Option Nat := (c.given.find? fun e => e.1 == me).map (·.2)
def Carrel.handOver (c : Carrel) (me : Nat × Bool) : Carrel := { c with given := c.given.filter fun e => e.1 != me }

/-- BUFGET (R369): waits in place while no entry is FREE; one that becomes FREE goes at once to the path that has
waited longest. -/
def execBufget (x : RRR) (s : State) : Result :=
  let legal := bufFieldsOk s x 0 false && isS x.hdr.d
  issue s x.hdr .gang legal [(x.hdr.d, false)] (bufSrcs x) fun _ =>
    let me := (s.cur, s.gang.younger)
    match s.myCarrel.gift me with
    | some i =>
      .next (((s.modCarrelOf s.gang.carrel fun c => c.handOver me).launchS x.hdr.d (BitVec.ofNat 64 i)).advance x.hdr)
    | none =>
    match (if s.myCarrel.turnOf me then s.myCarrel.freeEntry else none) with
    | none => .next (s.modCarrelOf s.gang.carrel fun c => c.joins me).hold
    | some i =>
      let s1 := s.modCarrelOf s.gang.carrel fun c => (c.leaves me).setBuf i { BufEntry.zero with state := .filling }
      .next ((s1.launchS x.hdr.d (BitVec.ofNat 64 i)).advance x.hdr)

/-- A buffer operand (R368): the entry's number; none where it is not 0 to 63. -/
def State.bufOperand (s : State) (o : Operand) : Option Nat :=
  let v := readGang s 0x1D 0 o
  if v.toNat < 64 then some v.toNat else none

/-- What a buffer instruction does to its entry, once its handle is in range. -/
def bufAct (s : State) (x : RRR) (m : Mask) (f : Nat → BufEntry → Result) : Result :=
  match s.bufOperand x.a with
  | none => protect s m
  | some i => f i (s.myCarrel.buf i)

/-- BUFEXP (R213, R368, R369). -/
def execBufexp (x : RRR) (s : State) : Result :=
  let legal := bufFieldsOk s x 3 false && x.hdr.d == .absent
  issue s x.hdr .gang legal [] (bufSrcs x) fun m =>
    bufAct s x m fun i e =>
      let src := (readGang s 0x1D 0 x.b).toNat
      let n := (readGang s 0x1D 0 x.c).extractLsb' 0 32
      if 3 < src || e.state != .filling then protect s m
      else
        let y := { e with expected := e.expected.setIfInBounds src n,
                          named := e.named ||| BitVec.ofNat 4 (2 ^ src) }
        .next ((s.modCarrelOf s.gang.carrel fun c => c.evalBuf i y).advance x.hdr)

/-- BUFST (R213, R368 to R370). -/
def execBufst (x : RRR) (s : State) : Result :=
  let legal := bufFieldsOk s x 3 false && x.hdr.d == .absent
  issue s x.hdr .gang legal [] (bufSrcs x) fun m =>
    bufAct s x m fun i e =>
      let off := (readGang s 0x1D 0 x.b).toNat
      let v := (readGang s 0x1D 0 x.c).extractLsb' 0 32
      if off % 4 ≠ 0 then raiseFault s Code.alignment m m (BitVec.ofNat 64 off)
      else if 0x80000 ≤ off then raiseFault s Code.protection m m (BitVec.ofNat 64 off)
      else if e.state != .filling && e.state != .full then protect s m
      else
        let y := { e with armed := true, offset := BitVec.ofNat 19 off, value := v }
        .next ((s.modCarrelOf s.gang.carrel fun c =>
          let c1 := c.setBuf i y
          if e.state == .full then c1.writeArmed y else c1).advance x.hdr)

/-- BUFREL (R213, R369): waits in place on a FILLING entry. -/
def execBufrel (x : RRR) (s : State) : Result :=
  let legal := bufFieldsOk s x 1 true && x.hdr.d == .absent
  issue s x.hdr .gang legal [] (bufSrcs x) fun m =>
    bufAct s x m fun i e =>
      match e.state with
      | .filling => .next s.hold
      | .full => .next ((s.modCarrelOf s.gang.carrel fun c => c.freeBuf i).advance x.hdr)
      | .free | .draining => protect s m

/-- BUFREL.abort (R213, R369). -/
def execBufrelAbort (x : RRR) (s : State) : Result :=
  let legal := bufFieldsOk s x 1 true && x.hdr.d == .absent
  issue s x.hdr .gang legal [] (bufSrcs x) fun m =>
    bufAct s x m fun i e =>
      match e.state with
      | .filling | .full => .next ((s.modCarrelOf s.gang.carrel fun c => c.freeBuf i).advance x.hdr)
      | .free | .draining => protect s m

end Sys2Proof.Machine
end

