-- ==== Sys2Proof/Machine/Traces.lean ====
section
/-! DEFINITION. Modifiables and traces (R322 to R327): MODNEW, MODFREE, MODSET (R70), PROPAGATE, TDROP,
TSTAT, TKEY; and what the Archive and the Curator do for them: a held MODSET (R28), the beginning of a
propagation (R72), relabelling (R64). -/

namespace Sys2Proof.Machine

open Sys2Proof

/-! MODNEW and MODFREE. -/

/-- A byte count: unsigned bits 31:0 (R322, R323). -/
def modBytes (s : State) (o : Operand) : Nat := (readGang s 0x1C 0 o).toNat % 2 ^ 32

/-- The lowest place of the arena with room for n bytes of whole granules. -/
def State.findRoom (s : State) (n : Nat) : Option Nat :=
  let base := (s.ctx.modBase.toNat + 7) / 8 * 8
  let size := (n + 7) / 8 * 8
  let free (c : Nat) : Bool := base ≤ c && c + size ≤ s.ctx.modBase.toNat + s.ctx.modRoom
    && s.ctx.allocs.all fun a => a.stop ≤ c || c + size ≤ a.addr
  (sortNats (base :: s.ctx.allocs.map Alloc.stop)).find? free

/-- Bytes lo to hi of a sector hold zero, with nothing of them left to write back. -/
def Sector.clear (x : Sector) (lo hi : Nat) : Sector :=
  let y := (x.giveUp lo hi).1
  { y with data := Vector.ofFn fun (i : Fin 128) => if lo ≤ i.val && i.val < hi then 0 else y.data[i] }

def Cache.clear (c : Cache) (pa n : Nat) : Cache :=
  (c.modLine (pa / 256) fun l =>
    (l.setSector (pa / 128 % 2) ((l.sector (pa / 128 % 2)).clear (pa % 128) (pa % 128 + n))).unmarked).trim

/-- A granule of a fresh allocation reads zero wherever it is read (R55). -/
def State.zeroGranule (s : State) (va : Nat) : State :=
  match s.deskPa va with
  | some pa =>
    let l1s := s.l1s.map fun e => (e.1, e.2.clear pa 8)
    let l2s := s.l2s.map fun e => (e.1, e.2.clear pa 8)
    ({ s with l1s := l1s, l2s := l2s }).homeWrite pa (natToBytes 8 0)
  | none => s

/-- The owner of an allocation: the executing segment beneath a trace root, otherwise none (R55). -/
def State.newAlloc (s : State) (a n : Nat) : State :=
  let g := s.gang
  let below := s.beneath g
  let x : Alloc := { addr := a, size := n, trace := if below then some g.trace else none, folio := g.folio }
  { s with ctx := { s.ctx with allocs := s.ctx.allocs ++ [x] } }

/-- The segment of the current gang owns all or a part of the block at a that a recorded MODNEW of n bytes made: the
segment's own MODFREE may have left pieces of it (R55, R323). -/
def State.ownsPart (s : State) (a n : Nat) (x : Alloc) : Bool :=
  x.trace = some s.gang.trace && x.folio = s.gang.folio && a ≤ x.addr && x.stop ≤ a + (n + 7) / 8 * 8

/-- The block is whole again, with its content (R55). -/
def State.reclaim (s : State) (a n : Nat) : State :=
  if s.ctx.allocs.any fun x => s.ownsPart a n x && x.addr = a && x.size = n then s
  else
    { s with ctx := { s.ctx with allocs := s.ctx.allocs.filter fun x => !s.ownsPart a n x } }.newAlloc a n

/-- The address that a re-execution's k-th MODNEW repeats: same byte count, and nobody else has the
granules (R55). -/
def State.repeatAlloc (s : State) (n : Nat) : Option Nat :=
  let g := s.gang
  if s.beneath g && g.mode == .reexec then
    match ((s.traceOf g.trace).folio g.folio).allocs[g.modnews]? with
    | some (a, k) =>
      if k = n && a ≠ 0 && s.ctx.allocs.all fun x => s.ownsPart a k x || x.stop ≤ a || a + (n + 7) / 8 * 8 ≤ x.addr then
        some a
      else none
    | none => none
  else none

/-- MODNEW's effect and the address it returns (R55, R322). -/
def State.modnew (s : State) (n : Nat) : State × Nat :=
  let g := s.gang
  let r : State × Nat :=
    match s.repeatAlloc n with
    | some a => (s.reclaim a n, a)
    | none =>
      if n = 0 then (s, 0)
      else
        match s.findRoom n with
        | none => (s, 0)
        | some a => ((granulesOf (a, n)).foldl (fun s gr => s.zeroGranule gr) (s.newAlloc a n), a)
  let s1 := r.1.modGang fun g => { g with modnews := g.modnews + 1 }
  let s2 := if s.beneath g then
      s1.modTraceOf g.trace fun t =>
        let t1 := t.modFolio g.folio fun f => { f with freshAllocs := f.freshAllocs ++ [(r.2, n)] }
        { t1 with orphans := t1.orphans.filter fun o => !(granulesOf (r.2, n)).contains o }
    else s1
  (s2, r.2)

/-- The operand fields that every RRR page of modifiables and traces shares (R301). -/
def traceFieldsOk (s : State) (x : RRR) : Bool :=
  x.rsv == 0 && x.mod == 0 && !s.gang.isShadow && x.c == .absent
    && feOk (x.fe.getLsbD 2) x.a && feOk (x.fe.getLsbD 1) x.b && !x.fe.getLsbD 0

def abSrcs (x : RRR) (m : Mask) : List Src := rrrSrcs x 2 false m

/-- MODNEW (R322). -/
def execModnew (x : RRR) (s : State) : Result :=
  let legal := traceFieldsOk s x && isSImm x.a && x.b == .absent && isS x.hdr.d
  issue s x.hdr .gang legal [(x.hdr.d, false)] (abSrcs x) fun _ =>
    let r := s.modnew (modBytes s x.a)
    .next ((r.1.launchS x.hdr.d (BitVec.ofNat 64 r.2)).advance x.hdr)

/-- A live trace has written the granule, or a segment of it owns it (R57, R70). -/
def State.rewrites (s : State) (gr : Nat) : Bool :=
  s.ctx.traces.any fun e => e.2.live && e.2.state != .abandoned
    && ((e.2.writer gr).isSome
      || s.ctx.allocs.any fun a => a.trace = some e.1 && a.addr ≤ gr && gr < a.stop)

/-- The first such trace. -/
def State.rewriteTrace (s : State) (gr : Nat) : Option Nat :=
  (s.ctx.traces.find? fun e => e.2.live && e.2.state != .abandoned
    && ((e.2.writer gr).isSome || s.ctx.allocs.any (fun a => a.trace = some e.1 && a.addr ≤ gr && gr < a.stop)
      || e.2.folios.any fun f => !f.2.revoked && (f.2.reads gr || f.2.writes gr))).map (·.1)

/-- TRACE-REWRITE raised by an access from outside the trace, with the trace that the response concerns
(R85). -/
def raiseRewrite (s : State) (k : BitVec 8) (m off : Mask) (gr : Nat) : Result :=
  .next (s.assertHalt
    (if k = Code.traceRewrite then { s.carrelFault k m off 0 with trace := s.rewriteTrace gr }
     else s.carrelFault k m off 0))

/-- The pieces of an allocation that remain without the granules lo to hi. -/
def Alloc.minus (a : Alloc) (lo hi : Nat) : List Alloc :=
  if a.stop ≤ lo || hi ≤ a.addr then [a]
  else
    (if a.addr < lo then [{ a with size := lo - a.addr }] else [])
      ++ (if hi < a.stop then [{ a with addr := hi, size := a.stop - hi }] else [])

/-- MODFREE (R323). -/
def execModfree (x : RRR) (s : State) : Result :=
  let g := s.gang
  let legal := traceFieldsOk s x && isS x.a && isSImm x.b && x.hdr.d == .absent
  issue s x.hdr .gang legal [] (abSrcs x) fun m =>
    let a := (readGang s 0x1D 0 x.a).toNat
    let n := modBytes s x.b
    let lo := a / 8 * 8
    let hi := (a + n + 7) / 8 * 8
    let gs := (List.range ((hi - lo) / 8)).map fun i => lo + 8 * i
    let owner (gr : Nat) : Option Alloc := s.ctx.allocs.find? fun y => y.addr ≤ gr && gr < y.stop
    if n = 0 then .next (s.advance x.hdr)
    else if gs.any fun gr => (owner gr).isNone then protect s m
    else
      let foreign := s.beneath g && gs.any fun gr =>
        match owner gr with
        | some y => y.trace.isSome && !(y.trace = some g.trace && y.folio = g.folio)
        | none => false
      let touched := !s.beneath g && s.ctx.traces.any fun e => e.2.live && e.2.state != .abandoned
        && gs.any fun gr => e.2.folios.any fun f => !f.2.revoked && (f.2.reads gr || f.2.writes gr)
      if foreign then protect s m
      else if touched then
        let held (gr : Nat) : Bool := (s.rewriteTrace gr).isSome
        raiseRewrite s Code.traceRewrite m m ((gs.find? held).getD 0)
      else
        let allocs := s.ctx.allocs.flatMap fun y => y.minus lo hi
        .next (({ s with ctx := { s.ctx with allocs := allocs } }).advance x.hdr)

/-! MODSET (R70, R324, R28). -/

/-- A propagation runs on a trace that holds the granule (R28). One that records the root afresh runs until its
future completes like any other (log 95). -/
def State.modsetHeld (s : State) (gr : Nat) : Bool :=
  s.ctx.traces.any fun e => e.2.live && e.2.active.isSome
    && e.2.folios.any fun f => !f.2.revoked && (f.2.reads gr || f.2.writes gr)

/-- The store and the Archive's comparison as one action at the home slice (R70); the carrel is that of
the current gang. -/
def State.modsetAt (s0 : State) (lane va pa : Nat) (data : List Byte) : StrongOut :=
  let s := s0.frontLane lane
  let g := s.gang
  match s.gate pa with
  | .held s1 => .held s1
  | .diverged => .fault s Code.replayDiverged lane
  | .ok s1 =>
    let s2 := s1.expel g.carrel (pa / 8 * 8) 8 true
    let old := s2.homeRead (pa / 8 * 8) 8
    let s3 := s2.homeWrite pa data
    let s4 := if s3.homeRead (pa / 8 * 8) 8 = old then s3
      else
        let traces := s3.ctx.traces.map fun e =>
          if e.2.live && e.2.state != .abandoned then (e.1, e.2.markReaders (va / 8 * 8) none) else e
        { s3 with ctx := { s3.ctx with traces := traces } }
    .ok (s4.modPath fun p => { p with done := p.done ++ [(lane, 0)] })

/-- This lane's access is held at the Archive already. -/
def State.heldLane (s : State) (lane : Nat) : Bool :=
  s.ctx.heldSets.any fun h => h.gang = s.cur && h.younger = s.gang.younger && h.lane = lane

/-- Lane after lane; a lane that the Archive holds stops the later ones (R70, R324). -/
def modsetLanes (s : State) (data : Nat → List Byte) : List LaneAcc → StrongOut
  | [] => .ok s
  | a :: rest =>
    let p := a.pieces.headD ⟨0, 0, 1⟩
    if s.gang.path.done.any fun e => e.1 = a.lane then modsetLanes s data rest
    else if s.heldLane a.lane then .held s
    else if s.modsetHeld (p.va / 8 * 8) then
      let h : HeldSet :=
        { gang := s.cur, younger := s.gang.younger, lane := a.lane, va := p.va, pa := p.pa, data := data a.lane }
      .held { s with ctx := { s.ctx with heldSets := s.ctx.heldSets ++ [h] } }
    else if s.rewrites (p.va / 8 * 8) then .fault s Code.traceRewrite a.lane
    else if blockBad s (p.pa / 64 * 64) 64 then .fault (s.logError p.pa) Code.uncorrectable a.lane
    else
      match s.modsetAt a.lane p.va p.pa (data a.lane) with
      | .ok s1 => modsetLanes s1 data rest
      | o => o

/-- The accesses of a MODSET: those that it was given at its first issue, while it stands there (R138). -/
def State.modsetAccs (s : State) (x : MFmt) (m : Mask) : Except LaneFault (List LaneAcc) :=
  let g := s.gang
  let n := mWidth x.width
  if !g.path.reach.isEmpty then .ok (keptAccs n g.path.reach)
  else
    resolveAll m fun l =>
      match resolveLane s .gm n Need.store true l (mAddr g x .gm l) with
      | .error e => .error e
      | .ok a => if a.mod then .ok a else .error (laneErr Code.protection (mAddr g x .gm l))

/-- MODSET (R324). -/
def execModset (x : MFmt) (s : State) : Result :=
  let g := s.gang
  let n := mWidth x.width
  let legal := x.space == 0 && x.width.toNat ≤ 3 && mFieldsOk g x .gm && x.hint == 0 && !x.ext
    && x.hdr.d == .absent && !g.isShadow
    && (match x.idx with
        | .w _ | .absent => true
        | _ => false)
    && (match x.data with
        | .w i => wOk g (n = 8) i
        | _ => false)
  issue s x.hdr .lane legal [] (mSrcs x true (n = 8)) fun m =>
    if s.taskTraced then protect s m
    else
      match s.modsetAccs x m with
      | .error e => raiseLanes s m e
      | .ok accs =>
        let s2 := if g.path.reach.isEmpty then
            ((s.keepAll accs).modPath fun p => { p with
              reach := heldLanes g accs (fun l => bytesToNat (storeData s x.data n l)) fun _ => 0 }).release g.carrel
                levelPackage
          else s
        match modsetLanes s2 (storeData s x.data n) accs with
        | .held s3 => .next s3.hold
        | .fault s3 k l =>
          let gr := ((accs.find? fun a => a.lane = l).map fun a => (a.pieces.headD ⟨0, 0, 1⟩).va / 8 * 8).getD 0
          raiseRewrite s3 k m (Mask.lane l) gr
        | .ok s3 =>
          let s4 := s3.modGang fun g =>
            (g.modPath fun p => { p with done := [] }).foldStores false accs (storeData s x.data n)
          .next (s4.advance x.hdr)

/-- A held access of the current gang is performed and compared, once no propagation holds its granule (R28); none
while it is held there or at an order gate where it stands already. -/
def State.compareMine (s0 : State) (h : HeldSet) : Option Result :=
  let s := s0.modGang fun g => { g with younger := h.younger }
  let s1 := { s with ctx := { s.ctx with heldSets := s.ctx.heldSets.erase h } }
  if s.modsetHeld (h.va / 8 * 8) then none
  else if s.rewrites (h.va / 8 * 8) then
    some (raiseRewrite s1 Code.traceRewrite s.xm (Mask.lane h.lane) (h.va / 8 * 8))
  else if blockBad s (h.pa / 64 * 64) 64 then
    some (raiseFault (s1.logError h.pa) Code.uncorrectable s.xm (Mask.lane h.lane) 0)
  else
    match s1.modsetAt h.lane h.va h.pa h.data with
    | .ok s2 => some (.next s2)
    | .held s2 => if s2.ctx.logs == s.ctx.logs then none else some (.next { s with ctx := { s.ctx with logs := s2.ctx.logs } })
    | .fault s2 k l => some (raiseFault s2 k s.xm (Mask.lane l) 0)

/-- The same of any gang, or of a task that is away. -/
def State.compareHeld (s : State) (h : HeldSet) : Option Result :=
  (s.seat h.gang).bind fun t => (t.compareMine h).map fun r => match r with
    | .next u => .next u.unseat
    | r => r

/-- The event MODSET_HELD_COMPARE (R28): the oldest held access that can go on does. -/
def execModsetHeldCompare (s : State) : Result :=
  if s.halt != .running then .refused (.notEnabled "MODSET_HELD_COMPARE")
  else (s.ctx.heldSets.findSome? s.compareHeld).getD (.refused (.notEnabled "MODSET_HELD_COMPARE"))

/-! PROPAGATE, TDROP, TSTAT, TKEY. -/

/-- The trace that a handle of kind 3 names (R61, R302). -/
def State.namedTrace (s : State) (o : Operand) : Option Nat :=
  match s.named (readGang s 0x1D 0 o) with
  | some (_, y) =>
    if y.kind = 3 && s.owns (.archive s.ctx.number) && (s.traceOf y.object.toNat).live then some y.object.toNat else none
  | none => none

def propagateTask (x : RRR) (s : State) : Result :=
  let g := s.gang
  let legal := traceFieldsOk s x && isH x.a && x.b == .absent && isH x.hdr.d
  issue s x.hdr .gang legal [(x.hdr.d, false)] (abSrcs x) fun m =>
    match s.namedTrace x.a with
    | none => protect s m
    | some t =>
      if (s.traceOf t).drop then protect s m
      else
        match s.newSlot (wingOf g.carrel) with
        | none => .next (s.awaitRoom 0)
        | some key =>
          let s1 := ((s.release g.carrel levelPackage).openSlot key
            { Slot.none with kind := 4, object := BitVec.ofNat 64 t, outstanding := 1, maker := s.serial }).modTraceOf
              t fun y => { y with props := y.props ++ [key] }
          .next ((s1.giveHandle x.hdr.d key).advance x.hdr)

/-- PROPAGATE (R325, R72, R28): the future is made; the propagation begins by an event. -/
def execPropagate (x : RRR) (s : State) : Result := perTask x.hdr false (propagateTask x) s

/-- The root's frame as TRECORD made it, with the arguments of the kept entry image (R60). -/
def Trace.freshRoot (t : Trace) (f : Frame) : Frame :=
  { f with
    state := .ready, resumePc := f.entryPc, args := t.rootArgs, ret := 0, hasRet := false, awaiting := 0,
    cancel := false, bitmap := 0, imagePtr := 0, imageSize := 0, traced := false, mode := .untraced, folio := 0 }

/-- A trace root is recorded afresh from its entry image (R60); with 64 live traces it runs and the trace stays
abandoned (R59, log 96). -/
def State.recordAfresh (s : State) (t key : Nat) (rest : List Nat) : State :=
  let tr := s.traceOf t
  let a := tr.rootFrame
  let f := { tr.freshRoot (s.frameOf a) with member := false }
  let begun : Trace := { tr with rootEnded := false, active := some key, props := rest }
  let x : Folio :=
    { Folio.none with label := BitVec.ofNat 64 (2 ^ 40), entryPc := f.entryPc, digest := f.digest,
                      ordinal := f.ordinal, frame := a, task0 := 1, image := tr.rootImage }
  let r := ({ begun with
    state := .recording, next := 1, root := 1, folios := [], queue := [], orphans := [], nruns := 0 } : Trace).addFolio x
  let s1 :=
    if 64 ≤ s.liveTraces then (s.setTraceOf t begun).setFrameOf a { f with trace := t }
    else (s.setTraceOf t r.1).setFrameOf a { f with traced := true, mode := .recording, trace := t, folio := r.2 }
  ((s1.touch (wingOf tr.carrel) f.shelf).enter f.shelf (some tr.carrel) true (BitVec.ofNat 64 a)).checkLimit t

/-- A path stands at a MODSET that has issued: an MWAIT has a wait of its own. -/
def Path.atModset (p : Path) : Bool := p.wait == .none && !p.reach.isEmpty

/-- The task of a propagation's PROPAGATE has a MODSET of which some lane is still to be compared (R28). -/
def State.setsBefore (s : State) (key : Nat) : Bool :=
  let maker (g : Gang) (l : Nat) : Bool := (s.frameOf (g.task l).frame).serial = (s.slotOf key).maker
  let stands (g : Gang) : Bool := (g.p0 :: g.p1.toList).any fun p => p.atModset && p.reach.any fun e => maker g e.lane
  s.ctx.gangs.any (fun e => stands e.2) || s.ctx.parked.any fun e => stands e.2

/-- A discarded run of the trace goes on to its next park or EXIT (R60). -/
def State.discardedRuns (s : State) (t : Nat) : Bool :=
  s.tasksIn.any fun g => (g.resident || g.saved) && g.trace = t && g.mode == .discarded

/-- The event PROPAGATION_BEGIN (R72, R28, R60). -/
def execPropagationBegin (t : Nat) (s : State) : Result :=
  let tr := s.traceOf t
  match tr.props with
  | [] => .refused (.notEnabled "PROPAGATION_BEGIN")
  | key :: rest =>
    if !tr.live || tr.active.isSome || !tr.rootEnded || s.setsBefore key || s.discardedRuns t || s.halt != .running then
      .refused (.notEnabled "PROPAGATION_BEGIN")
    else if tr.state == .abandoned then
      if (s.shelfOf (s.frameOf tr.rootFrame).shelf).full then .refused (.notEnabled "PROPAGATION_BEGIN")
      else .next (s.recordAfresh t key rest)
    else
      .next ((s.setTraceOf t { tr with state := .propagating, active := some key, props := rest, nruns := 0 }).settleProp t)

/-- A TDROP before the root's end abandons the trace at once, but never overtakes a PROPAGATE ordered before it
(R61, log 97). -/
def tdropTask (x : RRR) (s : State) : Result :=
  let legal := traceFieldsOk s x && isH x.a && x.b == .absent && x.hdr.d == .absent
  issue s x.hdr .gang legal [] (abSrcs x) fun m =>
    match s.namedTrace x.a with
    | none => protect s m
    | some t =>
      let tr := s.traceOf t
      let s1 := s.setTraceOf t { tr with drop := true }
      let s2 := if !tr.rootEnded && tr.props.isEmpty && tr.active.isNone then s1.abandon t else s1
      .next ((s2.dropIfDue t).advance x.hdr)

/-- TDROP (R61, R326). -/
def execTdrop (x : RRR) (s : State) : Result := perTask x.hdr false (tdropTask x) s

/-- Word i of a trace header (R62); a trace number beyond 63 shows modulo 64 (log 98). -/
def State.header (s : State) (t i : Nat) : DWord :=
  let tr := s.traceOf t
  let st := if tr.drop then 5 else match tr.state with
    | .recording => 1 | .recorded => 2 | .propagating => 3 | .abandoned => 4
  BitVec.ofNat 64 <|
    match i with
    | 0 => st + tr.buckets * 2 ^ 8 + t % 64 * 2 ^ 16
    | 1 => tr.liveFolios
    | 2 => tr.liveRecords
    | 3 => tr.queue.length
    | 4 => tr.nruns
    | 5 => tr.nprops
    | 6 => tr.bytes
    | _ => tr.root

def tstatTask (x : RRR) (s : State) : Result :=
  let legal := traceFieldsOk s x && isH x.a && isSImm x.b && isS x.hdr.d
  issue s x.hdr .gang legal [(x.hdr.d, false)] (abSrcs x) fun m =>
    match s.namedTrace x.a with
    | none => protect s m
    | some t =>
      let i := modBytes s x.b
      if 7 < i then protect s m
      else .next ((s.launchS x.hdr.d (s.header t i)).advance x.hdr)

/-- TSTAT (R326). -/
def execTstat (x : RRR) (s : State) : Result := perTask x.hdr false (tstatTask x) s

/-- TKEY (R327). -/
def execTkey (x : RRR) (s : State) : Result :=
  let legal := traceFieldsOk s x && isSImm x.a && x.b == .absent && x.hdr.d == .absent
  issue s x.hdr .gang legal [] (abSrcs x) fun _ =>
    .next ((s.modGang fun g => g.inXm fun t => { t with tkey := readGang s 0x1D 0 x.a }).advance x.hdr)

/-- The event RELABEL (R64): the labels of the trace are spread afresh, in the same order. -/
def execRelabel (t : Nat) (s : State) : Result :=
  let tr := s.traceOf t
  if tr.live && tr.relabel then
    let labels := sortNats (tr.folios.map fun e => e.2.label.toNat)
    let step := 2 ^ 64 / (labels.length + 1)
    let spread (x : Folio) : Folio :=
      { x with label := BitVec.ofNat 64 (((labels.filter (· < x.label.toNat)).length + 1) * step) }
    .next (s.setTraceOf t { tr with relabel := false, folios := tr.folios.map fun e => (e.1, spread e.2) })
  else .refused (.notEnabled "RELABEL")

end Sys2Proof.Machine
end

