-- ==== Sys2Proof/Machine/Desk.lean ====
section
/-! DEFINITION. The circulation desk (R32, R39, R45 to R49, R51): launch packets, dispatch of tasks,
continuations and stale segments, the end of a launch, the mode of a gallery. -/

namespace Sys2Proof.Machine

open Sys2Proof

/-! Room on a carrel (R49). -/

/-- Gangs on a carrel. -/
def State.gangsOn (s : State) (carrel : Nat) : List (Nat × Gang) :=
  s.ctx.gangs.filter fun e => e.2.resident && e.2.carrel = carrel

/-- The register file holds 4096 w registers of a gang. -/
def State.regsFree (s : State) (carrel : Nat) : Nat :=
  4096 - ((s.gangsOn carrel).map fun e => e.2.regs).sum

def State.slotFree (s : State) (carrel q i : Nat) : Bool :=
  q < 4 && i < 8 && !((s.gangsOn carrel).any fun e => e.2.quarter.toNat = q && e.2.slot.toNat = i)

/-- The shadow's slot beside slot i of a quarter: the first other free one (R51). -/
def State.shadowSlot (s : State) (carrel q i : Nat) : Option Nat :=
  (List.range 8).find? fun k => k != i && s.slotFree carrel q k

/-- A task of these records may take slot i of quarter q. -/
def State.fits (s : State) (info : TaskInfo) (carrel q i : Nat) : Bool :=
  s.slotFree carrel q i &&
    (if info.slice.isSome then (s.shadowSlot carrel q i).isSome && decide (2 * info.regs ≤ s.regsFree carrel)
     else decide (info.regs ≤ s.regsFree carrel))

/-- The quarters of a carrel, those with fewer gangs first. -/
def State.quarters (s : State) (carrel : Nat) : List Nat :=
  let on_ (q : Nat) : Nat := ((s.gangsOn carrel).filter fun e => e.2.quarter.toNat = q).length
  (List.range 9).flatMap fun k => (List.range 4).filter fun q => on_ q = k

/-- A place on a carrel that it may take. -/
def State.placeFor (s : State) (info : TaskInfo) (carrel : Nat) : Option (Nat × Nat) :=
  ((s.quarters carrel).flatMap fun q => (List.range 8).map fun i => (q, i)).find? fun e => s.fits info carrel e.1 e.2

/-- The carrel can be given work: the partition's, its context neither halted nor in its grace window. A
dispatch wakes a gated carrel (R399). -/
def State.serving (s : State) (carrel : Nat) : Bool :=
  s.carrels.contains carrel && s.ctx.made && s.halt == .running && s.ctx.grace.isNone

/-! Which entry a carrel takes (R45). -/

def Launch.none : Launch :=
  { root := 0, prio := 0, completion := 0, fused := false, rootRet := 0,
    rootEnded := false, carrels := [], done := false }

def State.launchOf (s : State) (l : Nat) : Launch := Table.look s.ctx.launches l Launch.none

/-- The gallery's mode is the one its launch asks for (R124). -/
def State.modeSuits (s : State) (f : Frame) (carrel : Nat) : Bool :=
  s.isFused carrel == (s.launchOf f.launch).fused

/-- The gang of a task that parked without giving up its slot (R37). -/
def State.inPlaceOf (s : State) (f : Nat) : Option Nat :=
  (s.ctx.gangs.find? fun e => s.inPlace e.2 && e.2.frame = f).map (·.1)

/-- A later segment waits for what runs before it (R76). -/
def Trace.heldBack (t : Trace) (f : Nat) : Bool :=
  let x := t.folio f
  x.task0 != f && t.busyBelow x.parent

/-- A task entry may run on the carrel (R32, R37, R45, R76, R124). -/
def State.eligible (s : State) (carrel : Nat) (e : ShelfEntry) : Bool :=
  let a := e.payload.toNat
  let f := s.frameOf a
  e.isTask && (f.state == .ready || f.state == .runnable) && s.modeSuits f carrel
    && !(f.traced && f.state == .runnable && f.mode == .newWork && (s.traceOf f.trace).heldBack f.folio)
    && (match s.inPlaceOf a with
        | some n => (s.gangOf n).carrel = carrel
        | none => e.team.isNone || s.inRegion f.region f.anchor carrel)

/-- The step of R45 at which the carrel finds an entry. -/
def stepOf (carrel : Nat) (e : ShelfEntry) : Nat :=
  match e.team with
  | none => 4
  | some c => if c = carrel then 1 else if galleryOf c = galleryOf carrel then 2
    else if wingOf c = wingOf carrel then 3 else 4

/-- The priority of an entry: a launch root runs at its packet's (R46), everything else at its shelf's. -/
def State.entryPrio (s : State) (x : Shelf) (e : ShelfEntry) : Nat :=
  let a := e.payload.toNat
  let l := s.launchOf (s.frameOf a).launch
  if l.root = a && !l.rootEnded then min 7 (l.prio.toNat + (if e.boost then 1 else 0)) else x.prioOf e

/-- An entry that the carrel considers: shelf, position, entry, priority. -/
structure Pick where
  shelf : Nat
  pos   : Nat
  entry : ShelfEntry
  prio  : Nat
deriving DecidableEq, Repr

/-- `a` is taken before `b`: priority, search step, age (R45). -/
def Pick.before (carrel : Nat) (now : Word) (a b : Pick) : Bool :=
  if a.prio != b.prio then decide (b.prio < a.prio)
  else if stepOf carrel a.entry != stepOf carrel b.entry then
    decide (stepOf carrel a.entry < stepOf carrel b.entry)
  else decide ((now - b.entry.age).toNat < (now - a.entry.age).toNat)

def State.picks (s : State) (carrel : Nat) : List Pick :=
  s.ctx.shelves.flatMap fun sh =>
    (List.range sh.2.entries.length).filterMap fun i =>
      match sh.2.entries[i]? with
      | some e => if s.eligible carrel e then some ⟨sh.1, i, e, s.entryPrio sh.2 e⟩ else none
      | none => none

def bestPick (carrel : Nat) (now : Word) : List Pick → Option Pick
  | [] => none
  | p :: r => match bestPick carrel now r with
    | none => some p
    | some q => some (if q.before carrel now p then q else p)

/-- The entry that an idle carrel takes. -/
def State.nextEntry (s : State) (carrel : Nat) : Option Pick := bestPick carrel s.ctx.age (s.picks carrel)

/-! Residence. -/

/-- The lowest place of the cellar arena with room for n bytes. -/
def State.cellarPlace (s : State) (n : Nat) : Nat :=
  let free (a : Nat) : Bool := s.ctx.cellars.all fun c => c.at_ + c.size ≤ a || a + n ≤ c.at_
  ((sortNats (0 :: s.ctx.cellars.map fun c => c.at_ + c.size)).find? free).getD 0

/-- The gang holds its cellar block already. -/
def State.hasCellar (s : State) (g : Gang) : Bool :=
  s.ctx.cellars.any fun c => g.cbase = s.ctx.cellarBase + BitVec.ofNat 64 c.at_
    && c.tasks.contains (s.frameOf g.frame).serial

/-- The cellar of a gang that becomes resident for the first time, in use by every task of it (R110, R121). -/
def State.giveCellar (s : State) (g : Gang) : State × Gang :=
  if g.clim = 0 || s.hasCellar g then (s, g)
  else
    let n := (g.clim.toNat * 128 + 255) / 256 * 256
    let c : Cellar := { at_ := s.cellarPlace n, size := n, tasks := g.tasks.map fun t => (s.frameOf t.frame).serial }
    ({ s with ctx := { s.ctx with cellars := s.ctx.cellars ++ [c] } },
      { g with cbase := s.ctx.cellarBase + BitVec.ofNat 64 c.at_ })

/-- The shadow gang of a segment that starts (R51). -/
def shadowOf (g : Gang) (n : Nat) (label : DWord) (slot : Nat) (clock : Nat) : Gang :=
  let x := Gang.start label g.width
  { x with resident := true, carrel := g.carrel, quarter := g.quarter, slot := BitVec.ofNat 3 slot,
           since := clock, regs := g.regs, code := g.code, frame := g.frame, isShadow := true,
           partner := some n, s := g.s, se := g.se, cbase := g.cbase, clim := g.clim,
           p0 := { x.p0 with xm := g.p0.xm, lanes := g.p0.lanes } }

/-- The segment's counters start afresh (R36, R57, R83). -/
def Gang.newSegment (g : Gang) : Gang :=
  { g.mapTasks fun t => { t with sites := 0, kids := [], puts := [], modnews := 0, atoms := 0, pend := .none, heard := [] } with
    q := noQueues }

/-- The launch has run on this carrel (R47). -/
def State.ranOn (s : State) (l carrel : Nat) : State :=
  match Table.seek s.ctx.launches l with
  | some x =>
    if x.carrels.contains carrel then s
    else { s with ctx := { s.ctx with launches := Table.put s.ctx.launches l { x with carrels := x.carrels ++ [carrel] } } }
  | none => s

/-- A gang takes a place with its shadow; `mid` says that its segment goes on (R42). The number of the
gang is `n`. -/
def State.settleIn (s : State) (n carrel q i : Nat) (g : Gang) (mid : Bool) (shadow : Option Gang) : State :=
  let info := s.taskInfo (s.frameOf g.frame).entryPc
  let (s1, g1) := s.giveCellar { g with
    resident := true, carrel := carrel, quarter := BitVec.ofNat 2 q, slot := BitVec.ofNat 3 i,
    since := s.clock, ceded := false, run := 0, report := none, partner := if info.2.slice.isSome then some (n + 1) else none }
  let g2 := if mid then g1 else g1.newSegment
  let place := (s.shadowSlot carrel q i).getD 0
  let s2 := (s1.setGangOf n g2).ranOn (s.frameOf g.frame).launch carrel
  let s3 := match info.2.slice, shadow with
    | some _, some h => s2.setGangOf (n + 1)
        { h with resident := true, carrel := carrel, quarter := BitVec.ofNat 2 q, slot := BitVec.ofNat 3 place,
                 since := s.clock, partner := some n }
    | some label, none => if mid then s2 else s2.setGangOf (n + 1) (shadowOf g2 n label place s.clock)
    | none, _ => s2
  { s3 with cur := n, gated := s3.gated.filter (· != carrel) }

/-- A new gang number, and the next for a shadow. -/
def State.takeNumber (s : State) : State × Nat :=
  ({ s with ctx := { s.ctx with nextGang := s.ctx.nextGang + 2 } }, s.ctx.nextGang)

/-- The future that a resumed task awaited is delivered (R313, R314): the current gang's destination, the
slot consumed, FUT-LOST where it was overwritten. -/
def deliverPend (s : State) (p : Pend) : Result :=
  match p with
  | .got k was d chk =>
    let y := s.slotNow k was
    let live := (s.slotOf k).used && (s.slotOf k).generation = was.generation
    let s1 := (s.modGang fun g => g.deliver d y s.freeNow).useFree
    let lost := chk.isSome && y.overwritten
    let s2 := if live then
        ((if lost then s1.modSlotOf k fun z => { z with overwritten := false } else s1).consume k)
      else s1
    if lost then
      let g := s.gang
      if g.trapv == 0 || g.inHandler then
        let t := s.modPath fun p => { p with pc := p.pc - 12 }
        .next (t.assertHalt { t.carrelFault Code.illegalOp g.xm g.xm 0 with cycle := g.awaitAt })
      else takeTrap s2 Trap.futLost (BitVec.ofNat 16 (chk.getD 0)) g.xm g.xm g.xm s2.pc
    else .next s2
  | .chosen i _ d => .next (s.modGang fun g => g.writeDest g.xm d 64 (fun _ => 0) (BitVec.ofNat 64 i))
  | _ => .next s

/-- The start of segment 0 sees the spawner's writes, a launch root's those of the host too (R128, R168). -/
def startCross (e : ShelfEntry) (f : Frame) (carrel : Nat) : Nat :=
  if e.team.isNone then 2 else crossing carrel [f.anchor]

/-- The frames of the shelf that are packed into one gang with frame a, in the order of their lanes; a alone where
its spawn packs nothing (R33). -/
def State.packOf (s : State) (n a : Nat) : List Nat :=
  let f := s.frameOf a
  let mate (b : Nat) : Bool :=
    let x := s.frameOf b
    x.packed && x.state == .ready && x.group = f.group
  if !f.packed then [a]
  else ((s.shelfOf n).entries.filter fun e => e.isTask && mate e.payload.toNat).map fun e => e.payload.toNat

/-- The event TASK_DISPATCH (R45, R49); of packed children the first taken brings the others (R33, log 92). -/
def execTaskDispatch (carrel quarter slot : Nat) (s : State) : Result :=
  match s.nextEntry carrel with
  | none => .refused (.notEnabled "TASK_DISPATCH")
  | some p =>
    let a := p.entry.payload.toNat
    let f := s.frameOf a
    let info := s.taskInfo f.entryPc
    if !s.serving carrel || f.state != .ready || !s.fits info.2 carrel quarter slot then
      .refused (.notEnabled "TASK_DISPATCH")
    else
      let as := s.packOf p.shelf a
      let s1 := ((s.touch (wingOf carrel) p.shelf).modShelfOf p.shelf fun x => x.without as).wake
      let run (f : Frame) : Frame :=
        { f with state := .running, anchor := if p.entry.team.isNone then carrel else f.anchor }
      let s2 := as.foldl (fun s b => s.modFrameOf b run) s1
      let (s3, n) := s2.takeNumber
      let g := if f.packed then s3.packGang as else s3.freshGang a
      .next ((s3.acquire carrel (startCross p.entry f carrel)).settleIn n carrel quarter slot g false none)

/-- How far the edge of the future that a parked AWAIT or AWAITA delivers reaches (R128, R314). -/
def State.pendCross (s : State) (carrel : Nat) (p : Pend) : Nat :=
  match p with
  | .got k was _ _ => (s.slotNow k was).cross carrel
  | .chosen _ k _ => (s.slotOf k).cross carrel
  | _ => 0

/-- The acquire edge of a resumption: from where the task parked, from its children's ends, from the future that it
awaited (R128). -/
def State.resumeCross (s : State) (f : Frame) (g : Gang) (mid : Bool) (carrel : Nat) : Nat :=
  let ends := g.kids.filterMap fun k => (s.childFrame? k).bind fun x => if x.state == .ended then some x.endedOn else none
  max (crossing carrel (f.parkedOn :: if mid then [] else g.heard ++ ends)) (s.pendCross carrel g.pend)

/-- Its segment goes on where the spawn or put left it (R42). -/
def midSegment (p : Pend) : Bool :=
  match p with
  | .got _ _ _ _ | .chosen _ _ _ => false
  | _ => true

/-- The frame of a resumed task: the image block goes back to the pool (R34, R36). -/
def Frame.resumed (f : Frame) (g : Gang) (mid : Bool) : Frame :=
  { f with state := .running, imagePtr := 0, imageSize := 0, folio := g.folio,
           awaiting := if mid then f.awaiting else 0 }

/-- The watches, the held accesses and the values of shelves of a task that was away are its gang's again. -/
def State.watchesBack (s : State) (a n : Nat) : State :=
  { s with ctx := { s.ctx with
      logs := s.ctx.logs.map (fun e => (e.1, e.2.moveHeld (awayOwner a) fun _ => some n)),
      watches := s.ctx.watches.map (fun w => if w.gang = awayOwner a then { w with gang := n } else w),
      heldSets := s.ctx.heldSets.map (fun h => if h.gang = awayOwner a then { h with gang := n } else h),
      shelves := s.ctx.shelves.map fun (e : Nat × Shelf) => (e.1, { e.2 with given := e.2.given.map fun x =>
        ((if x.1.1 = awayOwner a then n else x.1.1, x.1.2), x.2) }) } }

/-- The event CONTINUATION_RESUME (R39, R37). -/
def execContinuationResume (frame carrel quarter slot : Nat) (s : State) : Result :=
  match s.nextEntry carrel with
  | none => .refused (.notEnabled "CONTINUATION_RESUME")
  | some p =>
    let f := s.frameOf frame
    let info := s.taskInfo f.entryPc
    if p.entry.payload.toNat ≠ frame || f.state != .runnable || !s.serving carrel then
      .refused (.notEnabled "CONTINUATION_RESUME")
    else
      let s1 := (s.touch (wingOf carrel) p.shelf).takeEntry p.shelf p.pos
      match s.inPlaceOf frame with
      | some n =>
        let g := s1.gangOf n
        let mid := midSegment g.pend
        if g.quarter.toNat ≠ quarter || g.slot.toNat ≠ slot
            || (!mid && info.2.slice.isSome && (s.shadowSlot carrel quarter slot).isNone) then
          .refused (.notEnabled "CONTINUATION_RESUME")
        else
          let s2 := (s1.setFrameOf frame (f.resumed g mid)).acquire carrel (s.resumeCross f g mid carrel)
          if mid then .next (s2.setGangOf n { g with pend := .none })
          else
            let s3 := s2.settleIn n carrel quarter slot g false none
            deliverPend (s3.setGangOf n { s3.gangOf n with since := g.since }) g.pend
      | none =>
        match Table.seek s1.ctx.parked frame with
        | none => .refused (.notEnabled "CONTINUATION_RESUME")
        | some g =>
          let mid := midSegment g.pend
          let shadow := Table.seek s1.ctx.parked (frame + 1)
          if !s.fits info.2 carrel quarter slot then .refused (.notEnabled "CONTINUATION_RESUME")
          else
            let s2 : State := { s1 with ctx := { s1.ctx with
              parked := Table.del (Table.del s1.ctx.parked frame) (frame + 1),
              imageRoom := s1.ctx.imageRoom + f.imageSize.toNat } }
            let s3 := (s2.setFrameOf frame (f.resumed g mid)).acquire carrel (s.resumeCross f g mid carrel)
            let (s4, n) := s3.takeNumber
            let s5 := (s4.settleIn n carrel quarter slot { g with pend := .none } mid shadow).watchesBack frame n
            if mid then .next s5 else deliverPend s5 g.pend

/-! REEXEC_DISPATCH (R73, R74, R76). -/

/-- Re-executions that run on a wing. -/
def State.reexecsOn (s : State) (wing : Nat) : Nat :=
  (s.ctx.gangs.filter fun e => (e.2.resident || e.2.saved) && e.2.mode == .reexec && wingOf e.2.carrel = wing).length

/-- An earlier segment of the task of folio f runs, or has parked and its following entry is still to come. -/
def State.taskBefore (s : State) (t f : Nat) : Bool :=
  let tr := s.traceOf t
  let x := tr.folio f
  let before (g : Gang) (strict : Bool) : Bool :=
    let lab := (tr.folio g.folio).label
    g.trace = t && g.frame = x.frame && !g.isShadow && (lab < x.label || (!strict && lab = x.label))
  s.tasksIn.any (fun g => (g.resident || g.saved) && before g true)
    || (s.ctx.parked ++ s.ctx.entries).any fun e => before e.2 false

/-- The first folio of the recall queue that can run (R73, R76). -/
def State.nextStale (s : State) (t : Nat) : Option Nat :=
  let tr := s.traceOf t
  tr.queue.find? fun q => !(tr.folio q).running && !tr.heldBack q && !s.taskBefore t q

/-- The run of a stale folio starts: its old marks are gone, nothing is matched yet. -/
def Trace.startRun (t : Trace) (f : Nat) : Trace :=
  let t1 := t.modFolio f fun x =>
    { x with stale := false, queued := false, running := true, fresh := [], freshAllocs := [], matched := [] }
  { t1 with
    queue := t.queue.filter (· != f),
    folios := t1.folios.map fun e =>
      if e.2.parent = f && e.2.task0 = e.1 then (e.1, { e.2 with inPlace := false }) else e }

/-- What waits to follow the run of folio f waits for its new entry: it leaves its shelf and its slot (R76, R77). -/
def State.holdFollower (s : State) (t f : Nat) : State :=
  let x := (s.traceOf t).folio f
  let fr := s.frameOf x.frame
  let s1 := if fr.state == .runnable then s.modShelfOf fr.shelf fun y => y.without [x.frame] else s
  let s2 := { s1 with ctx := { s1.ctx with entries := Table.del s1.ctx.entries (entryKey t x.successor) } }
  match s2.inPlaceOf x.frame with
  | some n =>
    let g := s2.gangOf n
    let s3 := s2.vacate n
    { s3 with ctx := { s3.ctx with parked := Table.put s3.ctx.parked x.frame { g with resident := false, partner := none } } }
  | none => s2

/-- The event REEXEC_DISPATCH (R73, R74): the gang takes the carrel's first free place and starts from the entry
image, whose AWAIT has delivered. -/
def execReexecDispatch (t f carrel : Nat) (s : State) : Result :=
  let tr := s.traceOf t
  let x := tr.folio f
  match x.image, s.placeFor (s.taskInfo (s.frameOf x.frame).entryPc).2 carrel with
  | some im, some (q, i) =>
    if tr.state != .propagating || tr.active.isNone || !tr.cancels.isEmpty || s.nextStale t ≠ some f || !s.serving carrel
        || !s.modeSuits (s.frameOf x.frame) carrel
        || (64 ≤ s.reexecsOn (wingOf carrel) && tr.queue.head? ≠ some f) then
      .refused (.notEnabled "REEXEC_DISPATCH")
    else
      let s1 := ((s.holdFollower t f).modTraceOf t fun tr => tr.startRun f).modFrameOf x.frame fun y =>
        { y with state := .running, folio := f, ret := im.ret, awaiting := 0 }
      let g : Gang :=
        { im.gang with mode := .reexec, member := false, trace := t, folio := f, frame := x.frame, cbase := 0, ret := im.ret, pend := .none }
      let (s2, n) := (s1.acquire carrel 2).takeNumber
      .next (s2.settleIn n carrel q i g false none)
  | _, _ => .refused (.notEnabled "REEXEC_DISPATCH")

/-! Launches (R46, R47). -/

/-- The reason for which a packet is invalid, 0 for none (R47). -/
def State.packetReason (s : State) (b : List Byte) : Nat :=
  let n (k z : Nat) : Nat := field b k z
  let sh := s.shelfOf (n 16 2 % 4096)
  if n 0 2 ≠ 0x0010 then 1
  else if n 4 1 < 1 || 32 < n 4 1 then 2
  else if 3 < n 5 1 % 8 then 3
  else if !sh.ok then 4
  else if n 2 2 / 64 ≠ 0 || n 5 1 / 8 ≠ 0 || n 6 1 / 8 ≠ 0 || n 7 1 ≠ 0 || n 16 2 / 4096 ≠ 0 || n 18 6 ≠ 0 then 5
  else if sh.prio.toNat < n 6 1 % 8 then 6
  else 0

/-- The root of a valid packet. -/
def State.rootFrame (s : State) (b : List Byte) (l : Nat) : Frame :=
  let entry := BitVec.ofNat 64 (field b 8 8)
  { Frame.none with
    resumePc := entry, entryPc := entry, width := field b 4 1, region := BitVec.ofNat 3 (field b 5 1),
    shelf := field b 16 2, launch := l, args := Vector.ofFn fun (i : Fin 128) => if i.val < 32 then b.getD (32 + i) 0 else 0,
    digest := Config.freeValue (s.free + 1), taskId := s.freeNow, serial := s.ctx.nextTask }

/-- The event LAUNCH_PACKET (R46, R47): the next slot of a launch queue is consumed. An invalid packet's kind bytes are
set to zero too (log 111). -/
def execLaunchPacket (header : Nat) (s : State) : Result :=
  let r := s.ringAt header
  match s.deskPa (r.slot r.read 64) with
  | none => .refused (.notEnabled "LAUNCH_PACKET")
  | some pa =>
    let b := s.homeRead pa 64
    let attached := ((Table.seek s.pages s.ctx.vi).map (·.attached)).getD false
    if !attached || !s.ctx.queues.contains header || r.write = r.read || field b 0 2 = 0 || !s.ctx.made
        || s.halt != .running || s.ctx.grace.isSome then
      .refused (.notEnabled "LAUNCH_PACKET")
    else
      match s.deskBad header 64, s.deskBad (r.slot r.read 64) 64 with
      | some pa, _ | none, some pa => .next (s.deskFault pa)
      | none, none =>
      let reason := s.packetReason b
      let completion := BitVec.ofNat 64 (field b 24 8)
      let next (s : State) : State := (s.homeWrite pa [0, 0]).deskWrite (header + 8) (natToBytes 8 (r.read + 1))
      if reason ≠ 0 then
        .next (next (s.completionWord completion (BitVec.ofNat 64 (2 ^ 63 + reason))))
      else
        let n := field b 16 2
        if (s.shelfOf n).full || s.ctx.frameRoom = 0 then .refused (.notEnabled "LAUNCH_PACKET")
        else
          let l := Table.fresh s.ctx.launches
          let (s1, a) := s.putFrame (s.rootFrame b l)
          let launch : Launch :=
            { Launch.none with
              root := a, prio := BitVec.ofNat 3 (field b 6 1), completion := completion,
              fused := field b 2 1 % 2 = 1 && (s.feature 0).getLsbD 0 }
          let s2 : State := { s1 with ctx := { s1.ctx with launches := Table.put s1.ctx.launches l launch } }
          .next (next ((s2.touch (s.wings.headD 0) n).enter n none true (BitVec.ofNat 64 a)))

/-- Work of a launch that has not ended: a task, a job, a propagation. -/
def State.busyLaunch (s : State) (l : Nat) : Bool :=
  s.ctx.frames.any (fun e => e.2.launch = l && e.2.state != .ended)
    || s.ctx.jobs.any (fun e => e.2.launch = l)
    || s.tasksIn.any (fun g => (g.resident || g.saved) && (s.frameOf g.frame).launch = l)
    || s.ctx.entries.any (fun e => (s.frameOf e.2.frame).launch = l)
    || s.ctx.traces.any fun e => e.2.live && (s.frameOf e.2.rootFrame).launch = l
        && (e.2.active.isSome || !e.2.props.isEmpty)

/-- The completion word of a launch: bits 62:32 are open (R47). -/
def launchWord (ret open_ : DWord) : DWord :=
  (open_ &&& 0x7FFFFFFF00000000) ||| (ret &&& 0xFFFFFFFF)

/-- The event LAUNCH_COMPLETE (R47). -/
def execLaunchComplete (l : Nat) (s : State) : Result :=
  match Table.seek s.ctx.launches l with
  | none => .refused (.notEnabled "LAUNCH_COMPLETE")
  | some x =>
    if x.done || !x.rootEnded || s.busyLaunch l || s.halt != .running then .refused (.notEnabled "LAUNCH_COMPLETE")
    else
      let s1 := x.carrels.foldl (fun s c => s.release c levelPackage) s
      let s2 := (s1.completionWord x.completion (launchWord x.rootRet s.freeNow)).useFree
      .next { s2 with ctx := { s2.ctx with launches := Table.put s2.ctx.launches l { x with done := true } } }

/-! GALLERY_MODE_CHANGE (R124). -/

/-- Every dirty line of an L1 goes home and every line goes. -/
def State.emptyL1 (s : State) (l1 : Nat) : State :=
  let s1 := s.flushL1 l1 4
  s1.setCacheOf l1 { s1.cacheOf l1 with lines := [], consts := [] }

def execGalleryModeChange (gallery : Nat) (fused : Bool) (s : State) : Result :=
  let cs := galleryCarrels gallery
  let busy := cs.any fun c => !(s.gangsOn c).isEmpty
  if busy || !(cs.all s.carrels.contains) || s.fused.contains gallery == fused || s.halt != .running then
    .refused (.notEnabled "GALLERY_MODE_CHANGE")
  else
    let s1 := (cs.foldl (fun s c => s.emptyL1 c) s).flushL2 gallery 0xF
    .next { s1 with fused := if fused then gallery :: s1.fused else s1.fused.filter (· != gallery) }

end Sys2Proof.Machine
end

