-- ==== Sys2Proof/Machine/Places.lean ====
section
/-! DEFINITION. Storage as an engine reaches it (R117, R132, R133, R138): places, spans of a range, reads,
writes that change labels; CRC-32C (R202); shape records (R203, R205). -/

namespace Sys2Proof.Machine

open Sys2Proof

/-! Addresses of cards and records (R117). -/

inductive CardAddr where
  | virtual (va : Nat)
  | sp (carrel off : Nat)
  | lf (carrel off : Nat)
  | bad
deriving DecidableEq, Repr

def State.cardAddr (s : State) (a : Nat) : CardAddr :=
  let wing := a / 2 ^ 54 % 16
  let c := a / 2 ^ 48 % 64
  let off := a % 2 ^ 22
  let carrel := wing * Config.carrelsPerWing + c
  if a / 2 ^ 58 % 8 ≠ 0 then .bad
  else if a / 2 ^ 61 % 8 = 0 then .virtual a
  else if a / 2 ^ 22 % 2 ^ 26 ≠ 0 || !s.wings.contains wing || Config.carrelsPerWing ≤ c then .bad
  else if a / 2 ^ 61 % 8 = 4 then .lf carrel off
  else if a / 2 ^ 61 % 8 = 5 && off < 0x80000 then .sp carrel off
  else .bad

/-- Where an address leads: a physical address with its translation, or an offset in a carrel. -/
inductive Place where
  | gm (pa : Nat) (t : Translation)
  | sp (carrel off : Nat)
  | lf (carrel off : Nat)
deriving DecidableEq, Repr

/-- A fault that an engine meets: code, address, the failing block of device memory for the controller's log. What
breaks in the card itself has no address. -/
structure EngErr where
  kind : BitVec 8
  addr : Option Nat
  bad  : Option Nat
deriving DecidableEq, Repr

def engErr (kind : BitVec 8) (a : Nat) : EngErr := ⟨kind, some a, none⟩

/-- What a refused card, record or local address raises (R117, R198, R203). -/
def engProtect (a : Nat) : EngErr := engErr Code.protection a

/-- The place of an address for engine e. -/
def State.placeOf (s : State) (e : Nat) (n : Need) (a : Nat) : Except EngErr Place :=
  match s.cardAddr a with
  | .virtual va =>
    match s.reach (.engine e) va n with
    | .ok t => .ok (.gm (t.pa va) t)
    | .error x => .error ⟨x.1, some va, if x.1 = Code.uncorrectable then some x.2 else none⟩
  | .sp c off => .ok (.sp c off)
  | .lf c off => .ok (.lf c off)
  | .bad => .error (engProtect a)

/-- Bytes of a range that lie in one 64-byte block, with their place. -/
structure Span where
  addr  : Nat
  n     : Nat
  place : Place
deriving DecidableEq, Repr

/-- A range cut at the 64-byte blocks, as address and length. -/
def cutBlocks (a n : Nat) : List (Nat × Nat) :=
  if n = 0 then []
  else (List.range ((a + n - 1) / 64 - a / 64 + 1)).map fun i =>
    let b := (a / 64 + i) * 64
    (max a b, min (a + n) (b + 64) - max a b)

/-- Every block of a range is translated (R138, R201). -/
def State.placeAll (s : State) (e : Nat) (need : Need) : List (Nat × Nat) → Except EngErr (List Span)
  | [] => .ok []
  | (a, n) :: rest =>
    match s.placeOf e (need.of n) (a % 2 ^ 64) with
    | .error x => .error x
    | .ok p =>
      match s.placeAll e need rest with
      | .error x => .error x
      | .ok r => .ok ({ addr := a, n := n, place := p } :: r)

def State.spans (s : State) (e : Nat) (need : Need) (a n : Nat) : Except EngErr (List Span) :=
  s.placeAll e need (cutBlocks a n)

/-- Every one of some accesses of w bytes in a block can be placed (R394). -/
def State.placeEach (s : State) (e : Nat) (need : Need) (w : Nat) : List Nat → Except EngErr Unit
  | [] => .ok ()
  | a :: rest =>
    match s.placeOf e (need.of w) a with
    | .error x => .error x
    | .ok _ => s.placeEach e need w rest

/-- The engine keeps the translations that it used (R138). -/
def State.keepSpans (s : State) (e : Nat) (xs : List Span) : State :=
  xs.foldl (fun s x => match x.place with
    | .gm _ t => s.keep (.engine e) x.addr t
    | _ => s) s

/-- A place n bytes lower. -/
def Place.back (p : Place) (n : Nat) : Place :=
  match p with
  | .gm pa t => .gm (pa - n) t
  | .sp c off => .sp c (off - n)
  | .lf c off => .lf c (off - n)

/-- The place of the block that holds a place. -/
def Place.block (p : Place) : Place :=
  match p with
  | .gm pa _ => p.back (pa % 64)
  | .sp _ off | .lf _ off => p.back (off % 64)

def State.placeBytes (s : State) (p : Place) (n : Nat) : List Byte :=
  match p with
  | .gm pa _ => s.homeRead pa n
  | .sp c off => (s.carrelOf c).sp.read off n
  | .lf c off => (s.carrelOf c).loft.read off n

/-- The stored label of a place's block (R131). -/
def State.storedLabel (s : State) (p : Place) : Label :=
  match p with
  | .gm pa _ => s.mem.label (pa / 64)
  | .sp c off => (s.carrelOf c).sp.label (off / 64)
  | .lf c off => (s.carrelOf c).loft.label (off / 64)

/-- Its effective label (R132). -/
def State.effectiveLabel (s : State) (p : Place) : Label :=
  let l := s.storedLabel p
  match p with
  | .gm _ t => if l.extractLsb' 0 8 = 0 then t.label else l
  | _ => l

/-- The error that a read of n bytes at a place, by its address a, meets (R146, R256). -/
def State.placeBad (s : State) (p : Place) (n a : Nat) : Option EngErr :=
  let own (bad : List Nat) (off : Nat) : Option EngErr :=
    if badIn bad off n then some ⟨Code.uncorrectable, some a, none⟩ else none
  match p with
  | .gm pa _ => if blockBad s pa n then some ⟨Code.uncorrectable, some a, some (s.badBlock pa n)⟩ else none
  | .sp c off => own (s.carrelOf c).spBad off
  | .lf c off => own (s.carrelOf c).loftBad off

/-- The first failing read among spans; `part` takes only those that do not cover their block. -/
def State.spansBad (s : State) (xs : List Span) (part : Bool) : Option EngErr :=
  (xs.filterMap fun x => if part && x.n = 64 then none else s.placeBad x.place.block 64 x.addr).head?

/-- An engine write to a carrel's own storage wakes it (R399), and a copy to the loft is remembered (R151). -/
def State.carrelWrite (s : State) (c : Nat) (f : Carrel → Carrel) : State :=
  { s.modCarrelOf c f with gated := s.gated.filter (· != c) }

/-- A write of all 64 bytes of a block replaces failing check bits (R146). -/
def mendedBy (bad : List Nat) (off n : Nat) : List Nat :=
  if n = 64 && off % 64 = 0 then bad.filter (· != off / 64) else bad

/-- Bytes of one block written with a label in one action (R133); without one, the label stays. -/
def State.placeWrite (s : State) (p : Place) (lab : Option Label) (bs : List Byte) : State :=
  match p with
  | .gm pa _ =>
    match lab with
    | some l => s.homeLabelWrite pa l bs
    | none => s.homeWrite pa bs
  | .sp c off => s.carrelWrite c fun x =>
      let m := x.sp.write off bs
      { x with sp := (lab.map fun l => m.setLabel (off / 64) l).getD m, spBad := mendedBy x.spBad off bs.length }
  | .lf c off => s.carrelWrite c fun x =>
      let m := x.loft.write off bs
      { x with loft := (lab.map fun l => m.setLabel (off / 64) l).getD m, loftBad := mendedBy x.loftBad off bs.length,
               loftWritten := true }

/-- The bytes of all spans. -/
def State.spanBytes (s : State) (xs : List Span) : List Byte := xs.flatMap fun x => s.placeBytes x.place x.n

/-- A whole range read, with its errors. -/
def State.engRead (s : State) (e a n : Nat) : Except EngErr (List Byte) :=
  match s.spans e Need.load a n with
  | .error x => .error x
  | .ok xs =>
    match s.spansBad xs false with
    | some x => .error x
    | none => .ok (s.spanBytes xs)

/-! CRC-32C (R202). -/

def crcBits : Nat → Nat → Nat
  | 0, c => c
  | n + 1, c => crcBits n (if c % 2 = 1 then Nat.xor (c / 2) 0x82F63B78 else c / 2)

def crc32c (bs : List Byte) : Word :=
  BitVec.ofNat 32 (Nat.xor (bs.foldl (fun c b => crcBits 8 (Nat.xor c b.toNat)) 0xFFFFFFFF) 0xFFFFFFFF)

/-! Shape records (R203). -/

structure Shape where
  base  : Nat
  dims  : List Nat
  clips : List Nat
  strides : List Int
  fmt   : BitVec 8
  scale : Nat
  rank  : Nat
  rsv   : Bool
deriving DecidableEq, Repr

def shapeOf (bs : List Byte) : Shape :=
  let st (k : Nat) : Int := extendOp (field bs k 6) 48 true
  { base := field bs 0 8, dims := [field bs 8 4, field bs 12 4, field bs 16 4, field bs 20 4],
    clips := [field bs 24 4, field bs 28 4, field bs 32 4, field bs 36 4],
    strides := [st 40, st 46, st 52], fmt := BitVec.ofNat 8 (field bs 58 1), scale := field bs 59 1,
    rank := field bs 60 1 % 8, rsv := field bs 60 1 / 8 ≠ 0 || field bs 61 3 ≠ 0 }

/-- The format id of a format byte (R223, R227). -/
def fmtId (b : BitVec 8) : Nat := b.toNat % 64

/-- Bytes of an element's container; 0 where a record may not name the format. -/
def containerBytes (fmt : Nat) : Nat :=
  if fmtAssigned fmt && fmtWidth fmt % 8 = 0 then fmtWidth fmt / 8 else 0

/-- What a format id breaks that a record names: unassigned or unlabelled (R226), or of 6 or 4 bits (R203). -/
def recordFmtFault (fmt : Nat) : Option (BitVec 8) :=
  if !fmtAssigned fmt then some Code.labelInvalid
  else if containerBytes fmt = 0 then some Code.protection
  else none

/-- The rules of R203 that do not depend on the format. -/
def Shape.plain (x : Shape) : Bool :=
  !x.rsv && 1 ≤ x.rank && x.rank ≤ 4 && x.dims.all (· ≠ 0)
    && (x.dims.drop x.rank).all (· = 1)

/-- Where the elements begin in their 64-byte blocks, with n values of an index of stride t more. -/
def blockOffsets (from_ : List Nat) (n : Nat) (t : Int) : List Nat :=
  (from_.flatMap fun (a : Nat) => (List.range (min n 64)).map fun (i : Nat) => (((a : Int) + (i : Int) * t) % 64).toNat).eraseDups

/-- Some element lies in two 64-byte blocks. -/
def Shape.splits (x : Shape) (e : Nat) : Bool :=
  x.base % e ≠ 0 &&
    ((x.dims.zip ((e : Int) :: x.strides)).foldl (fun l p => blockOffsets l p.1 p.2) [x.base % 64]).any fun a =>
      decide (64 < a + e)

/-- And those that do; e is the element size. -/
def Shape.sized (x : Shape) (e : Nat) : Bool :=
  e ≠ 0 && x.strides.all (fun t => t % (e : Int) = 0) && !x.splits e

/-- Written extents. -/
def Shape.extents (x : Shape) : List Nat := (x.dims.zip x.clips).map fun p => min p.1 p.2

/-- The address of the element at an index. -/
def Shape.addr (x : Shape) (e : Nat) (idx : List Nat) : Nat :=
  let off := ((idx.zip ((e : Int) :: x.strides)).map fun p => (p.1 : Int) * p.2).foldl (· + ·) 0
  (((x.base : Int) + off) % ((2 ^ 64 : Nat) : Int)).toNat

/-- Lowest written byte and length (R198). -/
def Shape.span (x : Shape) (e : Nat) : Nat × Nat :=
  if x.extents.any (· = 0) then (x.base, 0)
  else
    let ts := (x.extents.zip ((e : Int) :: x.strides)).map fun p => ((p.1 : Int) - 1) * p.2
    let lo := (x.base : Int) + (ts.map fun t => min t 0).foldl (· + ·) 0
    let hi := (x.base : Int) + (ts.map fun t => max t 0).foldl (· + ·) 0 + e
    ((lo % ((2 ^ 64 : Nat) : Int)).toNat, (hi - lo).toNat)

/-- The k-th index of extents, the first fastest (R204). -/
def nthIndex : List Nat → Nat → List Nat
  | [], _ => []
  | m :: r, k => (k % m) :: nthIndex r (k / m)

/-- The element size of a source record: of its own format, or of the effective label at its base (R203). -/
def State.sourceSize (s : State) (e : Nat) (x : Shape) : Except EngErr Nat :=
  if x.fmt ≠ 0 then .ok (containerBytes (fmtId x.fmt))
  else
    match s.placeOf e Need.load x.base with
    | .error y => .error y
    | .ok p =>
      let n := containerBytes (Label.fmt (s.effectiveLabel p))
      if n = 0 then .error (engErr Code.labelInvalid x.base) else .ok n

/-- The two records of a tensor copy, or the one of a drain. -/
def State.shapeAt (s : State) (e a : Nat) : Except EngErr Shape :=
  match s.engRead e a 64 with
  | .error x => .error x
  | .ok bs => .ok (shapeOf bs)

/-! Footprints (R176). -/

/-- Two ranges overlap. -/
def overlaps (a n b m : Nat) : Bool := 0 < n && 0 < m && a < b + m && b < a + n

def Card.setFoot (c : Card) (r w : Nat × Nat) : Card :=
  { c with rBase := BitVec.ofNat 64 r.1, rLen := BitVec.ofNat 64 r.2, wBase := BitVec.ofNat 64 w.1,
           wLen := BitVec.ofNat 64 w.2 }

/-- Pages of a virtual range. -/
def pagesIn (a n : Nat) : List Nat :=
  if n = 0 || 2 ^ 57 ≤ a then []
  else (List.range ((min (a + n) (2 ^ 57) - 1) / 65536 - a / 65536 + 1)).map fun i => a / 65536 + i

/-- The granules of a footprint that lie on MOD pages, with their physical addresses (R54). -/
def State.modGranulesIn (s : State) (a n : Nat) : List (Nat × Nat) :=
  (pagesIn a n).flatMap fun p =>
    match walk s 5 1 s.ctx.root (p * 65536) with
    | .error _ => []
    | .ok t =>
      if t.mod then
        ((List.range 8192).map fun i => p * 65536 + 8 * i).filterMap fun g =>
          if overlaps g 8 a n then some (g, t.pa g) else none
      else []

end Sys2Proof.Machine
end

