-- ==== Sys2Proof/Machine/Submit.lean ====
section
/-! DEFINITION. DRAIN, COPY, COPYT, COPYF and JOB (R198, R362, R364 to R367): the card, its envelope, its
future. -/

namespace Sys2Proof.Machine

open Sys2Proof

/-- A card is appended to the wing's queue with its future (R367, R54), where the queue's access table lets the
interface do so (R394). `reads` is what a traced segment
reads by it; `extra` is what else the word does, given the job's number. -/
def submit (s : State) (h : Header) (m : Mask) (reads : Nat × Nat) (x : Job)
    (extra : Nat → State → State) : Result :=
  let g := s.gang
  let wing := wingOf g.carrel
  let ring := s.copyRing wing
  if ring.isFull then .next s.hold
  else
    match s.newSlot wing with
    | none => .next s.awaitSlot
    | some key =>
      let grs := if s.traced g then (s.modGranulesIn reads.1 reads.2).map fun e => (m.lowest, e.1) else []
      match traceReads s g grs with
      | .wait => .next s.hold
      | .fault k _ => raiseFault s k m m 0
      | .ok s1 =>
        let j := s1.ctx.nextJob
        let s2 := (s1.release g.carrel levelPackage).openSlot key
          { Slot.none with kind := 2, object := BitVec.ofNat 64 (ring.slot ring.write 128), outstanding := 1,
                           maker := s.serial }
        let owns := s.owns (.copyQueue wing)
        let s3 := if !owns then s2.completionWord x.compAddr (BitVec.ofNat 64 (2 ^ 63 + 5)) else s2.appendJob { x with
          wing := wing, gallery := galleryOf g.carrel % Config.galleriesPerWing, bufCarrel := g.carrel,
          future := some key, launch := (s.frameOf g.frame).launch, carrel := g.carrel,
          trace := if s1.traced g then some g.trace else none, folio := g.folio }
        let s4 := if owns then (extra j s3).count g.carrel 8 1 else s3
        .next ((s4.giveHandle h.d key).advance h)

/-- DRAIN and DRAIN.add of one task (R362, R205). Each of these words acts once for each task of a packed gang
(R356). -/
def drainTask (x : EFmt) (op : Byte) (s : State) : Result :=
  let g := s.gang
  let legal := eFieldsOk g x && isH x.hdr.d && isTile x.a && isS x.b && x.c == .absent
    && x.control.extractLsb' 1 30 == 0
  issue s x.hdr .gang legal [(x.hdr.d, false)] (eSrcs x) fun m =>
    let a := readGang s 0x1D 0 x.b
    let tile := tileOf x.a
    let c := g.carrel
    if a.toNat % 64 ≠ 0 then raiseFault s Code.alignment m m a
    else if 8 ≤ s.myCarrel.seqLength then .next s.hold
    else
      let source := wingOf c * 2 ^ 54 + c % Config.carrelsPerWing * 2 ^ 48 + tile.toNat
      let card : Card := { Card.zero with kind := 4, op := op, source := BitVec.ofNat 64 source, aux := a }
      submit s x.hdr m (0, 0) { Job.none with card := card, by_ := .drain } fun j s =>
        s.modCarrelOf c fun k => { k with seq := k.seq ++ [{ TileOp.none with
          kind := .drainRead, tile := tile, job := j, by_ := g.issuer s.cur (s.cycleOf g.carrel) }] }

def execDrain (x : EFmt) (s : State) : Result := perTask x.hdr true (drainTask x 0) s
def execDrainAdd (x : EFmt) (s : State) : Result := perTask x.hdr true (drainTask x 1) s

/-- The register that follows an s operand, the fifth of COPY and COPYF (R365). -/
def nextS (o : Operand) : Option (BitVec 6) :=
  match o with
  | .s i => if i = 63 then none else some (i + 1)
  | _ => none

/-- The sources of COPY and COPYF with that register where the word reads it: no fe bit covers it, so it blocks
(R91). -/
def copySrcs (x : EFmt) (extra : Bool) (m : Mask) : List Src :=
  eSrcs x m ++ (match nextS x.c with
    | some i => if extra then [⟨.s i, false, 2, false, m⟩] else []
    | none => [])

/-- The flags of a copy's card (R364). -/
def copyFlags (x : EFmt) : BitVec 16 := (x.control.extractLsb' 0 10).setWidth 16

/-- The card of COPY or COPYF (R365). -/
def copyCard (s : State) (x : EFmt) (kind : Byte) (extra : Bool) : Card :=
  let a := readGang s 0x1D 0 x.a
  let b := readGang s 0x1D 0 x.b
  let n := (readGang s 0x1D 0 x.c).extractLsb' 0 32
  { kind := kind, op := 0, flags := copyFlags x, count := n, source := a, dest := b,
    aux := match nextS x.c with
      | some i => if extra then s.gang.sReg i else 0
      | none => 0,
    rBase := a, rLen := n.setWidth 64, wBase := b, wLen := n.setWidth 64 }

def copyTask (x : EFmt) (s : State) : Result :=
  let crc := x.control.getLsbD 9
  let legal := eFieldsOk s.gang x && isH x.hdr.d && isS x.a && isS x.b && isSImm x.c
    && x.control.extractLsb' 10 21 == 0 && (!crc || (nextS x.c).isSome)
  issue s x.hdr .gang legal [(x.hdr.d, false)] (copySrcs x crc) fun m =>
    let card := copyCard s x 1 crc
    submit s x.hdr m (card.rBase.toNat, card.rLen.toNat) { Job.none with card := card, by_ := .copy } fun _ s => s

/-- COPY (R364, R365, R367). -/
def execCopy (x : EFmt) (s : State) : Result := perTask x.hdr true (copyTask x) s

/-- The source record's span, where it can be read at the submission (R54). -/
def State.pairSpan (s : State) (a : Nat) : Nat × Nat :=
  let e := wingOf s.gang.carrel * 24 + galleryOf s.gang.carrel % Config.galleriesPerWing
  match s.shapeAt e a with
  | .error _ => (0, 0)
  | .ok r => match s.sourceSize e r with
    | .error _ => (0, 0)
    | .ok n => if r.plain && r.sized n then r.span n else (0, 0)

def copytTask (x : EFmt) (s : State) : Result :=
  let legal := eFieldsOk s.gang x && isH x.hdr.d && isS x.a && x.b == .absent && x.c == .absent
    && x.control.extractLsb' 9 22 == 0
  issue s x.hdr .gang legal [(x.hdr.d, false)] (eSrcs x) fun m =>
    let a := readGang s 0x1D 0 x.a
    let card : Card := { Card.zero with kind := 2, flags := copyFlags x, aux := a }
    let reads := if s.traced s.gang then (s.release s.gang.carrel levelPackage).pairSpan a.toNat else (0, 0)
    submit s x.hdr m reads { Job.none with card := card, by_ := .copyt } fun _ s => s

/-- COPYT (R364, R365, R367). -/
def execCopyt (x : EFmt) (s : State) : Result := perTask x.hdr true (copytTask x) s

def copyfTask (x : EFmt) (s : State) : Result :=
  let g := s.gang
  let legal := eFieldsOk g x && isH x.hdr.d && isS x.a && isS x.b && (nextS x.c).isSome
    && x.control.extractLsb' 9 22 == 0
  issue s x.hdr .gang legal [(x.hdr.d, false)] (copySrcs x true) fun m =>
    let card := copyCard s x 6 true
    let op : TileOp :=
      { TileOp.none with kind := .mma, tcfg := g.tcfg, maskm := min g.maskm.toNat 128,
                         maskn := min g.maskn.toNat 128, by_ := g.issuer s.cur (s.cycleOf g.carrel) }
    submit s x.hdr m (card.rBase.toNat, card.rLen.toNat)
      { Job.none with card := card, by_ := .copyf, follow := some op } fun _ s => s

/-- COPYF (R206, R364, R365, R367). The follow-on takes the masks of the issuing gang. -/
def execCopyf (x : EFmt) (s : State) : Result := perTask x.hdr true (copyfTask x) s

def jobTask (x : EFmt) (s : State) : Result :=
  let legal := eFieldsOk s.gang x && isH x.hdr.d && isSImm x.a && x.b == .absent && x.c == .absent
    && x.control == 0
  issue s x.hdr .gang legal [(x.hdr.d, false)] (eSrcs x) fun m =>
    let off := ((readGang s 0x1D 0 x.a).extractLsb' 0 32).toNat
    if off % 64 ≠ 0 then raiseFault s Code.alignment m m (BitVec.ofNat 64 off)
    else if 0x80000 ≤ off then raiseFault s Code.protection m m (BitVec.ofNat 64 off)
    else
      let card := cardOf (s.myCarrel.sp.read off 64)
      submit s x.hdr m (card.rBase.toNat, card.rLen.toNat) { Job.none with card := card, by_ := .job } fun _ s => s

/-- JOB (R198, R366, R367). -/
def execJob (x : EFmt) (s : State) : Result := perTask x.hdr true (jobTask x) s

end Sys2Proof.Machine
end

