-- ==== Sys2Proof/Machine/Engines.lean ====
section
/-! DEFINITION. The desk's links of cards and the gallery engines (R48, R176, R193 to R206, R209, R214 to
R216): taking a card, chunks, the back-reference stream, completion. -/

namespace Sys2Proof.Machine

open Sys2Proof

/-! Engines. -/

/-- The number of the engine that a job uses in gallery g: wing * 24 + e (R215). -/
def Job.engine (x : Job) (g : Nat) : Nat := x.wing * 24 + (if x.card.kind = 3 then 12 else 0) + g

/-- The job occupies its engine. -/
def Job.holds (x : Job) : Bool :=
  x.by_ != .xform && ((x.state == .running && !x.fired) || (x.state == .suspended && x.begun))

def State.engineFree (s : State) (e j : Nat) : Bool :=
  !s.ctx.jobs.any fun p => p.1 != j && p.2.holds && p.2.engine p.2.gallery = e

/-- The gallery whose engine takes the card: the envelope's, or the desk's choice, the first free one. -/
def State.chooseGallery (s : State) (j : Nat) (x : Job) : Option Nat :=
  if x.gallery = 15 then (List.range Config.galleriesPerWing).find? fun g => s.engineFree (x.engine g) j
  else if s.engineFree (x.engine x.gallery) j then some x.gallery else none

/-! The desk links cards (R48, R199, R362, R365). -/

/-- The card with the footprints that the desk derives from its records. -/
def State.linkCard (s : State) (x : Job) : Except EngErr Card :=
  let e := x.engine (x.gallery % Config.galleriesPerWing)
  let a := x.card.aux.toNat
  let foot (r : Shape) (n : Nat) : Nat × Nat := if r.plain && r.sized n then r.span n else (0, 0)
  match x.by_ with
  | .drain =>
    match s.cardAddr a with
    | .virtual _ =>
      match s.shapeAt e a with
      | .error y => .error y
      | .ok r => .ok (x.card.setFoot (0, 0) (foot r (containerBytes (fmtId r.fmt))))
    | _ => .ok x.card
  | .copyt =>
    match s.shapeAt e a, s.shapeAt e (a + 64) with
    | .error y, _ | _, .error y => .error y
    | .ok r, .ok t =>
      let reads := match s.sourceSize e r with
        | .ok n => foot r n
        | .error _ => (0, 0)
      .ok (x.card.setFoot reads (foot t (containerBytes (fmtId t.fmt))))
  | _ => .ok x.card

/-- A card that a host or peer placed, with its envelope (R199, R200). -/
def hostJob (wing index at_ : Nat) (b : List Byte) : Job :=
  let v := b.drop 64
  let g := field v 14 2
  let car := field v 24 2
  let c := car / 16 % 64
  { Job.none with
    card := cardOf (b.take 64), by_ := .host, wing := wing, gallery := g % 16,
    bufCarrel := if c < Config.carrelsPerWing then car % 16 * Config.carrelsPerWing + c else 2 ^ 20,
    target := BitVec.ofNat 64 (field v 16 8), compAddr := BitVec.ofNat 64 (field v 0 8),
    compObs := BitVec.ofNat 5 (field v 8 1), slotAddr := BitVec.ofNat 64 at_, index := index, linked := true,
    envBad := field v 8 1 / 32 ≠ 0 || field v 9 5 ≠ 0 || g / 16 ≠ 0 || (12 ≤ g && g ≤ 14) || car / 1024 ≠ 0
      || field v 26 38 ≠ 0 }

/-- A credit names an entry that is not FREE (R193, R213). -/
def State.creditOk (s : State) (x : Job) : Bool :=
  !x.card.credits || (s.carrels.contains x.bufCarrel && ((s.carrelOf x.bufCarrel).buf x.card.entry).state != .free)

/-- What the desk finds at the read index of a wing's copy queue. -/
inductive Link where
  | linked (s : State)
  /-- The records of job j cannot be read. -/
  | stuck (j : Nat) (e : EngErr)
  | nothing
deriving Repr

def State.linkOne (s : State) (wing : Nat) : Link :=
  let r := s.copyRing wing
  let at_ := r.slot r.read 128
  let next (s : State) : State :=
    (s.deskWrite at_ (natToBytes 1 0)).deskWrite (r.header + 8) (natToBytes 8 (r.read + 1))
  if (s.deskBad r.header 64).isSome || r.write ≤ r.read then .nothing
  else
    match s.ctx.jobs.find? fun p => !p.2.linked && p.2.by_ != .xform && p.2.wing = wing && p.2.index = r.read with
    | some (j, x) =>
      if x.state != .queued then .nothing
      else if x.cancelled then .linked (next { s with ctx := { s.ctx with jobs := Table.del s.ctx.jobs j } })
      else
        match s.linkCard x with
        | .error e => .stuck j e
        | .ok c => .linked (next (s.setJobOf j { x with card := c, linked := true }))
    | none =>
      match s.deskPa at_ with
      | none => .nothing
      | some pa =>
        let b := s.homeRead pa 128
        if blockBad s pa 128 || field b 0 1 = 0 then .nothing
        else
          let x := hostJob wing r.read at_ b
          let claims := x.card.credits && !x.envBad && s.creditOk x
          let s0 := if claims then s.modCarrelOf x.bufCarrel fun c => c.claim x.card.entry else s
          let s1 := s0.setJobOf s.ctx.nextJob { x with claim := claims }
          .linked (next { s1 with ctx := { s1.ctx with nextJob := s1.ctx.nextJob + 1 } })

/-- Slot after slot of one queue. -/
def State.linkWing (s : State) (wing : Nat) : Nat → State × Option (Nat × EngErr)
  | 0 => (s, none)
  | k + 1 =>
    match s.linkOne wing with
    | .linked s1 => s1.linkWing wing k
    | .stuck j e => (s, some (j, e))
    | .nothing => (s, none)

/-- All queues. -/
def State.linkAll (s : State) : State × List (Nat × EngErr) :=
  s.wings.foldl (fun acc w =>
    let r := acc.1.copyRing w
    let y := acc.1.linkWing w (r.write - r.read)
    (y.1, acc.2 ++ y.2.toList)) (s, [])

/-- The failing block at which the desk's reads of a copy queue stop (R146). -/
def State.linkBad (s : State) : Option Nat :=
  s.wings.findSome? fun w =>
    let r := s.copyRing w
    match s.deskBad r.header 64 with
    | some pa => some pa
    | none =>
      let mine := s.ctx.jobs.any fun p => !p.2.linked && p.2.by_ != .xform && p.2.wing = w && p.2.index = r.read
      if r.write ≤ r.read || mine then none else s.deskBad (r.slot r.read 128) 128

/-- The desk has linked what stands in the copy queues and no engine takes a card: the cards are linked and hold
their claims and targets (R208, R212). With nothing linked, no such step; a failing read of the desk faults. -/
def State.onlyLinked (s s1 : State) : Result :=
  match s1.linkBad with
  | some pa => .next (s1.deskFault pa)
  | none =>
    if s1.ctx.nextJob = s.ctx.nextJob && s1.ctx.jobs = s.ctx.jobs then .refused (.notEnabled "CARD_TAKE") else .next s1

/-- Job k was submitted before job j (R176): in one queue by its order, otherwise by the submissions. -/
def earlierJob (k j : Nat) (x y : Job) : Bool :=
  if x.wing = y.wing then decide (x.index < y.index) else decide (k < j)

/-- The footprints order y after x (R176). -/
def jobsMeet (x y : Card) : Bool :=
  let hit (a n b m : DWord) : Bool := overlaps a.toNat n.toNat b.toNat m.toNat
  hit y.rBase y.rLen x.wBase x.wLen || hit y.wBase y.wLen x.rBase x.rLen || hit y.wBase y.wLen x.wBase x.wLen

/-- An earlier job that it is ordered after has not ended. -/
def State.jobWaits (s : State) (j : Nat) (y : Job) : Bool :=
  s.ctx.jobs.any fun p => p.1 != j && p.2.by_ != .xform && earlierJob p.1 j p.2 y && jobsMeet p.2.card y.card

/-! What the engine checks as it takes a card. -/

/-- Kinds, ops, submitters and fields of R198. -/
def Job.cardOk (x : Job) : Bool :=
  let c := x.card
  let from_ (l : List Submitter) : Bool := l.contains x.by_
  c.flags.extractLsb' 10 6 == 0 &&
    match c.kind.toNat with
    | 1 => c.op = 0 && from_ [.copy, .job, .host] && (c.checks || c.aux = 0)
    | 2 => c.op = 0 && from_ [.copyt, .job, .host] && !c.checks && c.count = 0 && c.source = 0 && c.dest = 0
    | 3 => c.op = 0 && from_ [.job, .host] && !c.checks && c.aux.toNat < 2 ^ 32
    | 4 => c.op.toNat ≤ 1 && from_ [.drain] && !c.checks && c.count = 0 && c.dest = 0
    | 6 => c.op = 0 && from_ [.copyf] && !c.checks
    | _ => false

/-- The addresses of the card that may be local (R117), with the bases of a declared footprint (R193), first
bad one. -/
def State.badAddr (s : State) (x : Job) : Option Nat :=
  let c := x.card
  let as : List DWord := match c.kind.toNat with
    | 1 => if c.checks then [c.source, c.dest, c.aux] else [c.source, c.dest]
    | 3 => [c.source, c.dest]
    | 6 => [c.source, c.dest, c.aux]
    | _ => [c.aux]
  let feet : List DWord := if x.by_ == .job || x.by_ == .host then [c.rBase, c.wBase] else []
  ((as ++ feet).find? fun a => s.cardAddr a.toNat = .bad).map BitVec.toNat

/-- The target future is an engine job's (R199, R208). -/
def State.targetOk (s : State) (x : Job) : Bool :=
  x.target = 0 || match s.named x.target with
    | some (_, y) => y.kind = 2
    | none => false

/-- What a source block's effective label breaks (R132, R204). `n` is the element size. -/
def State.sourceFault (s : State) (r : Shape) (n : Nat) (p : Place) : Option (BitVec 8) :=
  let l := s.effectiveLabel p
  let want : Label := BitVec.ofNat 8 r.scale ++ r.fmt
  if r.fmt ≠ 0 && l.getLsbD 7 != want.getLsbD 7 then some Code.domainMismatch
  else if (r.fmt ≠ 0 && l ≠ want) || !Label.valid l || containerBytes (Label.fmt l) ≠ n then some Code.labelInvalid
  else none

/-- The records of a tensor copy with their element sizes. -/
structure Pair2 where
  src : Shape
  dst : Shape
  es  : Nat
  ed  : Nat
deriving DecidableEq, Repr

/-- The elements that are copied: within the clips of both records. -/
def Pair2.extents (x : Pair2) : List Nat := (x.src.extents.zip x.dst.extents).map fun p => min p.1 p.2

def product (l : List Nat) : Nat := l.foldl (· * ·) 1

/-- The record pair of a card, when it keeps R203 and R204. -/
def State.pairOf (s : State) (e : Nat) (x : Job) : Except EngErr Pair2 :=
  let a := x.card.aux.toNat
  if a % 64 ≠ 0 then .error (engProtect a)
  else
    match s.shapeAt e a, s.shapeAt e (a + 64) with
    | .error y, _ | _, .error y => .error y
    | .ok r, .ok t =>
      let ed := containerBytes (fmtId t.fmt)
      let bad (k : Option (BitVec 8)) : Except EngErr Pair2 → Except EngErr Pair2 := fun y => match k with
        | some c => .error (engErr c a)
        | none => y
      if !r.plain || !t.plain || r.dims ≠ t.dims then .error (engProtect a)
      else bad (recordFmtFault (fmtId t.fmt)) <| bad (if r.fmt = 0 then none else recordFmtFault (fmtId r.fmt)) <|
        if !t.sized ed then .error (engProtect a)
        else
        match s.sourceSize e r with
        | .error y => .error y
        | .ok es => if r.sized es then .ok ⟨r, t, es, ed⟩ else .error (engProtect a)

/-- Every source block's effective label is read before anything is written (R204). -/
def State.pairLabels (s : State) (e : Nat) (p : Pair2) : Except EngErr Unit :=
  let blocks := ((List.range (product p.extents)).map fun k => p.src.addr p.es (nthIndex p.extents k) / 64).eraseDups
  blocks.foldl (fun acc b => match acc with
    | .error y => .error y
    | .ok _ =>
      match s.placeOf e Need.load (64 * b) with
      | .error y => .error y
      | .ok q => match s.placeBad q 64 (64 * b) with
        | some y => .error y
        | none => match s.sourceFault p.src p.es q with
          | some k => .error (engErr k (64 * b))
          | none => .ok ()) (.ok ())

/-- The record of a drain, when it keeps R203 and R205. The loft takes no drain (R119). -/
def State.drainShape (s : State) (e : Nat) (x : Job) : Except EngErr Shape :=
  let a := x.card.aux.toNat
  match s.cardAddr a with
  | .virtual _ =>
    match s.shapeAt e a with
    | .error y => .error y
    | .ok r =>
      let f := fmtId r.fmt
      let fmts := if x.card.op = 0 then [0x01, 0x02, 0x03, 0x04, 0x05, 0x10] else [0x01, 0x10]
      let loft := match s.cardAddr r.base with
        | .lf _ _ => true
        | _ => false
      if r.plain && r.sized (containerBytes f) && r.rank = 2 && (r.dims.all (· ≤ 128)) && fmts.contains f && !loft then
        .ok r
      else .error (engProtect a)
  | _ => .error (engProtect a)

/-- The follow-on of a COPYF (R206): the block in the scratchpad of the destination's carrel. Nonzero rsv bytes or a
field that no MMA takes are a protection fault of the card, which is not begun (log 113). -/
def State.followOn (s : State) (e : Nat) (x : Job) : Except EngErr Job :=
  let go (c : Nat) : Except EngErr Job :=
    match s.cardAddr x.card.aux.toNat with
    | .sp k _ =>
      if k ≠ c then .error (engProtect x.card.aux.toNat)
      else
        match s.engRead e x.card.aux.toNat 64 with
        | .error y => .error y
        | .ok b =>
          let a := BitVec.ofNat 64 (field b 0 8)
          let d := BitVec.ofNat 64 (field b 24 8)
          let ctl := BitVec.ofNat 31 (field b 48 4)
          if field b 8 16 ≠ 0 || field b 32 16 ≠ 0 || 2 ^ 31 ≤ field b 48 4 || 4 ≤ field b 52 1 || field b 53 11 ≠ 0
              || !mmaOk (descOf a) (descOf d) ctl || !(descOf a).fits || !(descOf d).fits then
            .error (engProtect x.card.aux.toNat)
          else
            .ok { x with
              carrel := c,
              follow := x.follow.map fun o =>
                { o with dA := a, dB := d, control := ctl, tile := BitVec.ofNat 2 (field b 52 1) } }
    | _ => .error (engProtect x.card.aux.toNat)
  match s.cardAddr x.card.dest.toNat with
  | .sp c _ | .lf c _ => go c
  | _ => .error (engProtect x.card.dest.toNat)

/-- All that the engine checks (R193, R198, R203 to R206, R208, R213). -/
def State.takeCheck (s : State) (e : Nat) (x : Job) : Except EngErr Job :=
  if !x.cardOk || !s.creditOk x || !s.targetOk x then .error ⟨Code.protection, none, none⟩
  else
    match s.badAddr x with
    | some a => .error (engProtect a)
    | none =>
      match x.card.kind.toNat with
      | 2 =>
        match s.pairOf e x with
        | .error y => .error y
        | .ok p => match s.pairLabels e p with
          | .error y => .error y
          | .ok _ => .ok x
      | 4 =>
        match s.drainShape e x with
        | .error y => .error y
        | .ok _ => .ok x
      | 6 => s.followOn e x
      | _ => .ok x

/-- The card is begun. -/
def State.beginJob (s : State) (j : Nat) (x : Job) : State :=
  let claim := x.card.credits && !x.claim
  let s1 := if claim then s.modCarrelOf x.bufCarrel fun c => c.claim x.card.entry else s
  let olds := if x.trace.isSome then
      (s.modGranulesIn x.card.wBase.toNat x.card.wLen.toNat).map fun g => (g.1, s.homeRead g.2 8)
    else []
  s1.setJobOf j { x with state := .running, begun := true, claim := x.claim || claim, olds := olds }

/-- The first source byte of the chunk that a job is at: of a tensor copy, in the element at its cursor. A drain's
source is no address but its card's selector. -/
def State.sourceAt (s : State) (x : Job) : Nat :=
  match x.card.kind.toNat with
  | 2 => match s.pairOf (x.engine x.gallery) x with
    | .ok p => p.src.addr p.es (nthIndex p.extents x.cursor)
    | .error _ => x.card.aux.toNat
  | 4 => x.card.source.toNat
  | _ => x.card.source.toNat + x.cursor

/-- An engine's fault record (R215), for a fault or a CRC mismatch. The fault base is physical. -/
def State.faultRecord (s : State) (x : Job) (code : BitVec 8) (addr : Option Nat) : State :=
  let crc := code = 0xC0
  let future : DWord := match x.future with
    | some key => s.handleOf key
    | none => 0
  let b : List Byte :=
    natToBytes 1 (if crc then 7 else 3) ++ natToBytes 9 0 ++ natToBytes 1 x.card.kind.toNat
      ++ natToBytes 1 code.toNat ++ natToBytes 1 x.retries ++ natToBytes 11 0
      ++ natToBytes 4 x.crcGot.toNat ++ natToBytes 4 x.crcWant.toNat
      ++ natToBytes 4 x.cursor ++ natToBytes 4 (if x.card.kind = 3 then x.out else 0)
      ++ natToBytes 8 future.toNat ++ natToBytes 8 x.slotAddr.toNat
      ++ natToBytes 8 (addr.getD (s.sourceAt x))
  s.homeWrite (s.ctx.faultBase.toNat + x.engine x.gallery * 64) b

/-- A fault suspends the job at the chunk that it is at, and asserts the halt line (R144, R214). -/
def State.engineFault (s : State) (j : Nat) (x : Job) (e : EngErr) (trace : Option Nat) : State :=
  let s1 := match e.bad with
    | some pa => s.logError pa
    | none => s
  let s2 := (s1.setJobOf j { x with state := if trace.isSome then x.state else .suspended }).faultRecord x e.kind e.addr
  s2.assertHalt
    { unitKind := if x.card.kind = 3 then 5 else 4, wing := x.wing, unit := x.gallery, kind := e.kind,
      gangReg := 0, frame := 0, cycle := s.clock, pc := 0, younger := false, acting := 0, offending := 0,
      detail := if e.kind = Code.translation || e.kind = Code.protection then BitVec.ofNat 64 (e.addr.getD 0) else 0,
      trace := trace, gang := none }

/-- The event CARD_TAKE (R48, R198, R200). -/
def execCardTake (j : Nat) (s : State) : Result :=
  if !s.ctx.made || s.halt != .running || s.ctx.grace.isSome then .refused (.notEnabled "CARD_TAKE")
  else
    let (s1, stuck) := s.linkAll
    match stuck.find? fun p => p.1 = j with
    | some (_, e) => .next (s1.engineFault j (s1.jobOf j) e none)
    | none =>
      match Table.seek s1.ctx.jobs j with
      | none => s.onlyLinked s1
      | some x =>
        if x.by_ == .xform || x.state != .queued || !x.linked then s.onlyLinked s1
        else if x.envBad then
          let s2 := s1.completionWord x.compAddr (BitVec.ofNat 64 (2 ^ 63 + 5))
          .next { s2 with ctx := { s2.ctx with jobs := Table.del s2.ctx.jobs j } }
        else if s1.jobWaits j x then s.onlyLinked s1
        else
          match s1.chooseGallery j x with
          | none => s.onlyLinked s1
          | some g =>
            let y := { x with gallery := g }
            match s1.takeCheck (y.engine g) y with
            | .error e => .next (s1.engineFault j y e none)
            | .ok z => .next (s1.beginJob j z)

/-! Chunks (R201, R202, R204, R205). -/

/-- The job is on its engine and has work left. -/
def State.working (s : State) (j : Nat) (kinds : List Nat) : Bool :=
  match Table.seek s.ctx.jobs j with
  | some x => s.halt == .running && s.ctx.made && x.by_ != .xform && x.state == .running && !x.fired
      && kinds.contains x.card.kind.toNat
  | none => false

inductive ChunkOut where
  | ok (s : State)
  | fault (e : EngErr)
  | crc (want got : Word)
deriving Repr

/-- The label of a copied block (R201). -/
def State.copyLabel (s : State) (srcs : List Span) (src dst : Nat) (d : Span) : Label :=
  if src % 64 = dst % 64 then
    match srcs.find? fun x => x.addr / 64 = (d.addr - dst + src) / 64 with
    | some x => s.storedLabel x.place
    | none => 0x7F00
  else 0x7F00

/-- Blocks written in increasing address, from the bytes of the chunk. -/
def State.writeSpans (s : State) (label : Span → Label) : List Span → List Byte → State
  | [], _ => s
  | x :: r, bs => (s.placeWrite x.place (some (label x)) (bs.take x.n)).writeSpans label r (bs.drop x.n)

/-- One chunk of a copy: translate all, read all, check, write (R201). -/
def State.copyChunk (s : State) (e : Nat) (x : Job) : ChunkOut :=
  let n := min 4096 (x.card.count.toNat - x.cursor)
  let src := x.card.source.toNat + x.cursor
  let dst := x.card.dest.toNat + x.cursor
  let want := if x.card.checks then
      (s.engRead e ((x.card.aux.toNat + x.cursor / 4096 * 4) % 2 ^ 64) 4).map bytesToNat
    else .ok 0
  match s.spans e Need.load src n, s.spans e Need.store dst n with
  | .error y, _ | _, .error y => .fault y
  | .ok xs, .ok ds =>
    match want with
    | .error y => .fault y
    | .ok w =>
      match s.spansBad xs false, s.spansBad ds true with
      | some y, _ | _, some y => .fault y
      | none, none =>
        let bs := s.spanBytes xs
        let got := crc32c bs
        if x.card.checks && got ≠ BitVec.ofNat 32 w then .crc (BitVec.ofNat 32 w) got
        else .ok (((s.keepSpans e xs).keepSpans e ds).writeSpans (s.copyLabel xs src dst) ds bs)

/-- The job after its last byte: it ends, or its follow-on enters the sequencer, when that has room. -/
def State.copyEnd (s : State) (j : Nat) (x : Job) : Option State :=
  let v := BitVec.ofNat 64 x.out
  match x.follow with
  | some op =>
    let c := s.carrelOf x.carrel
    if 8 ≤ c.seqLength then none
    else
      some ((s.setCarrelOf x.carrel { c with seq := c.seq ++ [c.collect { op with job := j }] }).setJobOf j
        { x with fired := true, value := v, credit := x.out })
  | none => some (s.setJobOf j (x.finish v x.out))

/-- After a chunk that was written. -/
def State.copyNext (s : State) (j : Nat) (x : Job) : State :=
  let n := min 4096 (x.card.count.toNat - x.cursor)
  let y := { x with cursor := x.cursor + n, out := x.out + n, state := .running, retries := 0 }
  if y.cursor < x.card.count.toNat then s.setJobOf j y
  else ((s.setJobOf j y).copyEnd j y).getD (s.setJobOf j y)

/-- The event COPY_CHUNK (R201, R202, R206, R214). -/
def execCopyChunk (j : Nat) (s : State) : Result :=
  let x := s.jobOf j
  if !s.working j [1, 6] then .refused (.notEnabled "COPY_CHUNK")
  else if x.card.count.toNat ≤ x.cursor then
    match s.copyEnd j x with
    | some s1 => .next s1
    | none => .refused (.notEnabled "COPY_CHUNK")
  else
    match s.copyChunk (x.engine x.gallery) x with
    | .ok s1 => .next (s1.copyNext j x)
    | .fault e => .next (s.engineFault j x e none)
    | .crc w g =>
      let y := { x with state := .crcFailed, crcWant := w, crcGot := g }
      .next ((s.setJobOf j y).faultRecord y 0xC0 none)

/-- The event CRC_RETRY (R216): the chunk runs again; after the third failure the job ends with code 4. -/
def execCrcRetry (j : Nat) (s : State) : Result :=
  let x := s.jobOf j
  if !Table.has s.ctx.jobs j || x.state != .crcFailed || s.halt != .running || !s.engineFree (x.engine x.gallery) j then
    .refused (.notEnabled "CRC_RETRY")
  else
    let y := { x with retries := x.retries + 1 }
    match s.copyChunk (x.engine x.gallery) y with
    | .ok s1 => .next (s1.copyNext j y)
    | .fault e => .next (s.engineFault j y e none)
    | .crc w g =>
      let z := { y with crcWant := w, crcGot := g }
      let s1 := (s.setJobOf j z).faultRecord z 0xC0 none
      .next (if z.retries < 3 then s1 else s1.setJobOf j (z.finish (failValue 4 z.out) 0))

/-- Elements of one block replaced: address and new bits from old ones. -/
def patchBlock (w : Nat) (b : List Byte) : List (Nat × (Nat → Nat)) → List Byte
  | [] => b
  | (a, f) :: r =>
    let o := a % 64
    patchBlock w (b.take o ++ natToBytes w (f (field b o w)) ++ b.drop (o + w)) r

/-- Elements written block by block, each block in one action; `reads` says that old content counts. -/
def State.writeElems (s : State) (e w : Nat) (lab : Option Label) (reads : Bool)
    (els : List (Nat × (Nat → Nat))) : List Nat → Except EngErr State
  | [] => .ok s
  | b :: rest =>
    let mine := els.filter fun x => x.1 / 64 = b
    let need := if reads then Need.both else Need.store
    match s.placeOf e (need.of 0) (64 * b), s.placeEach e need w (mine.map (·.1)) with
    | .error y, _ | _, .error y => .error y
    | .ok p, .ok _ =>
      let full := decide (((mine.map (·.1)).eraseDups).length * w = 64)
      match (if reads || !full then s.placeBad p 64 (64 * b) else none) with
      | some y => .error y
      | none =>
        let s1 := s.keepSpans e [{ addr := 64 * b, n := 64, place := p }]
        (s1.placeWrite p lab (patchBlock w (s1.placeBytes p 64) mine)).writeElems e w lab reads els rest

/-- A value in another format and scale (R204). -/
def reencode (f : Nat) (scale : Int) (g : Nat) (scale2 : Int) (v : Nat) : Nat :=
  (encodeNum g (((decodeNum f v).scale scale).scale (-scale2)) rmRne 0).1

/-- An element under a source label as the destination record holds it (R204, R233). A conversion between
a complex and a real format has no stated value. -/
def convertElem (l : Label) (r : Shape) (open_ : DWord) (v : Nat) : Nat :=
  let f := Label.fmt l
  let g := fmtId r.fmt
  let part (x : Nat) : Nat := reencode (componentFmt f) (Label.scaleExp l) (componentFmt g) ((r.scale : Int) - 127) x
  if l.extractLsb' 0 8 = r.fmt then v
  else if fmtComplex f != fmtComplex g then open_.toNat
  else if fmtComplex f then
    part (v % 2 ^ (fmtWidth f / 2)) + part (v / 2 ^ (fmtWidth f / 2)) * 2 ^ (fmtWidth g / 2)
  else part v

/-- The elements of a chunk of a tensor copy, each with its destination. -/
def State.tensorElems (s : State) (e : Nat) (p : Pair2) : List Nat → Except EngErr (List (Nat × (Nat → Nat)))
  | [] => .ok []
  | k :: rest =>
    let idx := nthIndex p.extents k
    let a := p.src.addr p.es idx
    match s.placeOf e (Need.load.of p.es) a with
    | .error y => .error y
    | .ok q =>
      match s.placeBad q p.es a, s.sourceFault p.src p.es q with
      | some y, _ => .error y
      | none, some c => .error (engErr c a)
      | none, none =>
        let v := convertElem (s.effectiveLabel q) p.dst (Config.freeValue (s.free + k)) (bytesToNat (s.placeBytes q p.es))
        match s.tensorElems e p rest with
        | .error y => .error y
        | .ok r => .ok ((p.dst.addr p.ed idx, fun _ => v) :: r)

/-- The elements of a chunk of a drain (R205). -/
def drainElems (x : Job) (r : Shape) (ks : List Nat) : List (Nat × (Nat → Nat)) :=
  let f := fmtId r.fmt
  let n := containerBytes f
  ks.map fun k =>
    let idx := nthIndex r.extents k
    let t : Word := (x.tile.getD (idx.getD 1 0) []).getD (idx.getD 0 0) 0
    (r.addr n idx, fun old =>
      if x.card.op = 0 then
        (if f = 0x01 || f = 0x10 then t.toNat else reencode 0x01 0 f ((r.scale : Int) - 127) t.toNat)
      else if f = 0x01 then (addF32 (BitVec.ofNat 32 old) (decodeNum 0x01 t.toNat)).toNat
      else (BitVec.ofNat 32 old + t).toNat)

def blocksTouched (els : List (Nat × (Nat → Nat))) : List Nat := (els.map fun x => x.1 / 64).eraseDups

/-- The element numbers of the chunk at a cursor. -/
def chunkElems (cursor total w : Nat) : List Nat :=
  (List.range (min (4096 / w) (total - cursor))).map (cursor + ·)

/-- After a chunk of elements of `unit` output units each. -/
def State.elemsNext (s : State) (j : Nat) (x : Job) (total unit n : Nat) : State :=
  let y := { x with cursor := x.cursor + n, out := x.out + n * unit }
  s.setJobOf j (if y.cursor < total then y else y.finish (BitVec.ofNat 64 y.out) y.out)

/-- The event TENSOR_COPY_CHUNK (R204, R205): a chunk of a tensor copy or of a drain. -/
def execTensorCopyChunk (j : Nat) (s : State) : Result :=
  let x := s.jobOf j
  let e := x.engine x.gallery
  let fault (y : EngErr) : Result := .next (s.engineFault j x y none)
  if !s.working j [2, 4] || (x.card.kind = 4 && !x.tileRead) then .refused (.notEnabled "TENSOR_COPY_CHUNK")
  else if x.card.kind = 2 then
    match s.pairOf e x with
    | .error y => fault y
    | .ok p =>
      let total := product p.extents
      let ks := chunkElems x.cursor total p.ed
      match s.tensorElems e p ks with
      | .error y => fault y
      | .ok els =>
        let lab : Label := BitVec.ofNat 8 p.dst.scale ++ p.dst.fmt
        match s.writeElems e p.ed (some lab) false els (blocksTouched els) with
        | .error y => fault y
        | .ok s1 => .next ({ s1 with free := s1.free + ks.length }.elemsNext j x total p.ed ks.length)
  else
    match s.drainShape e x with
    | .error y => fault y
    | .ok r =>
      let w := containerBytes (fmtId r.fmt)
      let total := product r.extents
      let ks := chunkElems x.cursor total w
      let els := drainElems x r ks
      let lab : Option Label := if x.card.op = 0 then some (BitVec.ofNat 8 r.scale ++ r.fmt) else none
      match s.writeElems e w lab (x.card.op ≠ 0) els (blocksTouched els) with
      | .error y => fault y
      | .ok s1 => .next (s1.elemsNext j x total 1 ks.length)

/-! The back-reference stream (R194, R195). -/

/-- The decoder: stream position, output count, bytes of the output block not yet written, error code. -/
structure Inflate where
  at_  : Nat
  out  : Nat
  buf  : List Byte
  code : Nat
deriving DecidableEq, Repr

/-- Pending bytes are written under the label 0x7F00 (R195). -/
def State.flushOut (s : State) (e : Nat) (x : Job) (z : Inflate) : Except EngErr (State × Inflate) :=
  match s.spans e Need.store (x.card.dest.toNat + z.out - z.buf.length) z.buf.length with
  | .error y => .error y
  | .ok xs =>
    match s.spansBad xs true with
    | some y => .error y
    | none => .ok ((s.keepSpans e xs).writeSpans (fun _ => 0x7F00) xs z.buf, { z with buf := [] })

/-- One output byte; a block is written once its last byte stands. -/
def State.pushOut (s : State) (e : Nat) (x : Job) (z : Inflate) (b : Byte) : Except EngErr (State × Inflate) :=
  let z1 := { z with out := z.out + 1, buf := z.buf ++ [b] }
  if (x.card.dest.toNat + z1.out) % 64 = 0 then s.flushOut e x z1 else .ok (s, z1)

/-- The byte at an address, as the engine's own output left it: bytes of the pending block stand there. -/
def State.mem8 (s : State) (e : Nat) (x : Job) (z : Inflate) (a : Nat) : Except EngErr Byte :=
  let top := x.card.dest.toNat + z.out
  if top ≤ a + z.buf.length && a < top then .ok (z.buf.getD (a + z.buf.length - top) 0)
  else (s.engRead e a 1).map fun b => b.headD 0

/-- n bytes copied one by one, the i-th from address a + i. -/
def State.copyBytes (s : State) (e : Nat) (x : Job) (z : Inflate) (a : Nat) : Nat → Except EngErr (State × Inflate)
  | 0 => .ok (s, z)
  | n + 1 =>
    match s.mem8 e x z a with
    | .error y => .error y
    | .ok b =>
      match s.pushOut e x z b with
      | .error y => .error y
      | .ok (s1, z1) => s1.copyBytes e x z1 (a + 1) n

/-- One token (R194). -/
def State.token (s : State) (e : Nat) (x : Job) (z : Inflate) : Except EngErr (State × Inflate) :=
  let count := x.card.count.toNat
  let cap := x.card.aux.toNat
  let src := x.card.source.toNat
  match s.mem8 e x z (src + z.at_) with
  | .error y => .error y
  | .ok tb =>
    let t := tb.toNat
    let i := z.at_ + 1
    let bad (c : Nat) : Except EngErr (State × Inflate) := .ok (s, { z with at_ := i, code := c })
    if t < 0x80 then
      let n := t + 1
      if count < i + n then bad 3
      else if cap < z.out + n then bad 2
      else s.copyBytes e x { z with at_ := i + n } (src + i) n
    else
      let n := t % 0x80 + 3
      if count < i + 2 then bad 3
      else
        match s.mem8 e x z (src + i), s.mem8 e x z (src + i + 1) with
        | .error y, _ | _, .error y => .error y
        | .ok d0, .ok d1 =>
          let d := d0.toNat + 256 * d1.toNat
          if d = 0 || z.out < d then bad 1
          else if cap < z.out + n then bad 2
          else s.copyBytes e x { z with at_ := i + 2 } (x.card.dest.toNat + z.out - d) n

/-- Tokens until the output passes the next multiple of 4096 or the stream ends (R214). -/
def State.tokens (s : State) (e : Nat) (x : Job) (start : Nat) (z : Inflate) : Nat → Except EngErr (State × Inflate)
  | 0 => .ok (s, z)
  | k + 1 =>
    if x.card.count.toNat ≤ z.at_ || z.code ≠ 0 || start / 4096 < z.out / 4096 then .ok (s, z)
    else
      match s.token e x z with
      | .error y => .error y
      | .ok (s1, z1) => s1.tokens e x start z1 k

/-- The pending block of a cancelled inflate is written, and it ends with code 5 (R195, R211). -/
def State.stopInflate (s : State) (j : Nat) (x : Job) : State :=
  let e := x.engine x.gallery
  match s.flushOut e x { at_ := x.cursor, out := x.out, buf := x.outBuf, code := 0 } with
  | .error y => s.engineFault j x y none
  | .ok (s1, _) => s1.setJobOf j ({ x with outBuf := [] }.finish (failValue 5 x.out) 0)

/-- The event INFLATE_JOB (R194, R195, R214): the engine decodes to the next place where it may stop. A fault on the way
leaves none of the stretch's blocks written: the restart writes them (log 114). -/
def execInflateJob (j : Nat) (s : State) : Result :=
  let x := s.jobOf j
  let e := x.engine x.gallery
  if !s.working j [3] then .refused (.notEnabled "INFLATE_JOB")
  else if x.cancelled then .next (s.stopInflate j x)
  else
    let z0 : Inflate := { at_ := x.cursor, out := x.out, buf := x.outBuf, code := 0 }
    match s.tokens e x x.out z0 (x.card.count.toNat + 1 - x.cursor) with
    | .error y => .next (s.engineFault j x y none)
    | .ok (s1, z) =>
      let ended := decide (x.card.count.toNat ≤ z.at_) || z.code ≠ 0
      if !ended then .next (s1.setJobOf j { x with cursor := z.at_, out := z.out, outBuf := z.buf })
      else
        match s1.flushOut e x z with
        | .error y => .next (s.engineFault j x y none)
        | .ok (s2, _) =>
          let y := { x with cursor := z.at_, out := z.out, outBuf := [] }
          .next (s2.setJobOf j (if z.code = 0 then y.finish (BitVec.ofNat 64 z.out) z.out
            else y.finish (failValue z.code z.out) 0))

/-! The end of a job (R54, R57, R58, R200, R209). -/

/-- The records of a write footprint, at the job's completion. -/
def State.jobRecords (s : State) (x : Job) : Traced :=
  match x.trace with
  | none => .ok s
  | some t =>
    let tr := s.traceOf t
    if !tr.recording || !Table.has tr.folios x.folio || (tr.folio x.folio).revoked then .ok s
    else
      let g : Gang := { Gang.start 0 1 with mode := .recording, trace := t, folio := x.folio }
      let gs := s.modGranulesIn x.card.wBase.toNat x.card.wLen.toNat
      match traceWrites s g (gs.map fun e => (0, e.1)) with
      | .ok s1 =>
        let olds := (x.olds.filter fun o => gs.any fun e => e.1 = o.1).map fun o => (0, o.1, o.2)
        let news := olds.map fun o => (0, o.2.1, s.homeRead ((gs.find? fun e => e.1 = o.2.1).map (·.2) |>.getD 0) 8)
        let s2 := traceCompare s1 g olds news
        .ok (if s2.runsFolio t x.folio || !Table.has (s2.traceOf t).folios x.folio then s2
          else s2.modTraceOf t fun tr => tr.modFolio x.folio fun f =>
            { f with records := (f.records ++ f.fresh).eraseDups, fresh := [] })
      | y => y

/-- The event JOB_COMPLETE (R200, R209). -/
def execJobComplete (j : Nat) (s : State) : Result :=
  match Table.seek s.ctx.jobs j with
  | none => .refused (.notEnabled "JOB_COMPLETE")
  | some x =>
    if x.state != .finishing || s.halt != .running then .refused (.notEnabled "JOB_COMPLETE")
    else
      match s.jobRecords x with
      | .fault k _ => .next (s.engineFault j x ⟨k, none, none⟩ x.trace)
      | .wait => .refused (.notEnabled "JOB_COMPLETE")
      | .ok s1 => .next (s1.endJob j x.value (if x.value.getLsbD 63 then none else some x.credit))

end Sys2Proof.Machine
end

