-- ==== Sys2Proof/Machine/Halt.lean ====
section
/-! DEFINITION. The halt line (R144), stop records (R114), what a halt does to requests and waits (R150), the
Curator's answer to a fault (R85, R147) and the grace window with the switch of contexts (R148 to R154). -/

namespace Sys2Proof.Machine

open Sys2Proof

/-! Stop records. -/

/-- Unit kind and number within its kind of slot n of a wing's stop area (R144). -/
def stopUnit (n : Nat) : Nat × Nat :=
  if n < 48 then (1, n)
  else if n < 96 then (2, n - 48)
  else if n < 144 then (3, n - 96)
  else if n < 156 then (4, n - 144)
  else (5, n - 156)

/-- The units of a wing that stop. -/
def stopSlots : Nat := 168

/-- The values that a skid may take: up to the unit's bound (R144); an engine's bound is one chunk, with no
count of cycles. -/
def skidBound (unitKind : Nat) : Nat :=
  match unitKind with
  | 1 => 32
  | 2 | 3 => 512
  | _ => 65535

/-- A stop record (R114). `f` is what the unit raised, if it raised anything; bytes 55:14 and the kind are zero
without it. -/
def stopRecord (wing n : Nat) (gen : Byte) (skid : Nat) (f : Option FaultInfo) : List Byte :=
  let u := stopUnit n
  let head (flags kind : Nat) : List Byte :=
    natToBytes 4 flags ++ natToBytes 2 (wing + 16 * u.2) ++ natToBytes 2 0 ++ natToBytes 1 u.1
      ++ natToBytes 1 kind ++ natToBytes 1 0 ++ natToBytes 1 gen.toNat ++ natToBytes 2 skid
  match f with
  | some x =>
    head 3 x.kind.toNat ++ natToBytes 2 x.gangReg.toNat ++ natToBytes 8 x.frame ++ natToBytes 8 x.cycle
      ++ natToBytes 8 (x.pc.toNat % 2 ^ 57 + if x.younger then 2 ^ 57 else 0) ++ natToBytes 4 x.acting.toNat
      ++ natToBytes 4 x.offending.toNat ++ natToBytes 8 x.detail.toNat ++ natToBytes 8 0
  | none => head 1 0 ++ natToBytes 50 0

/-- The first fault of a unit. -/
def faultOf (fs : List FaultInfo) (wing n : Nat) : Option FaultInfo :=
  let u := stopUnit n
  fs.find? fun f => f.wing = wing && f.unitKind.toNat = u.1 && f.unit = u.2

/-- The records of one wing, slot by slot; the skids are free values (log 2). -/
def State.wingRecords (s : State) (fs : List FaultInfo) (wing : Nat) : List Byte :=
  (List.range stopSlots).flatMap fun n =>
    stopRecord wing n s.ctx.gen
      ((Config.skid (s.free + wing * stopSlots + n)).toNat % (skidBound (stopUnit n).1 + 1)) (faultOf fs wing n)

/-- Every unit of the partition writes its record: stop base + (wing * 168 + slot) * 64, physical (R144). -/
def State.writeStops (s : State) (fs : List FaultInfo) : State :=
  let s1 := s.wings.foldl (fun s' w =>
    s'.homeWrite (s.ctx.stopBase.toNat + w * stopSlots * 64) (s.wingRecords fs w)) s
  { s1 with free := s1.free + 16 * stopSlots }

/-! What a halt does to the gangs (R150). -/

/-- A wait's budget counts no cycle while the context is halted: it is kept as the cycles used or left. The
word it stands at is fetched again when the context goes on. -/
def Path.freeze (clock : Nat) (p : Path) : Path :=
  let p := { p with latch := none }
  match p.wait with
  | .mwait start b d w c => { p with wait := .mwait (clock - start) b d w c }
  | .rwait pc deadline => { p with wait := .rwait pc (deadline - clock) }
  | _ => p

def Path.thaw (clock : Nat) (p : Path) : Path :=
  match p.wait with
  | .mwait used b d w c => { p with wait := .mwait (clock - used) b d w c, held := none }
  | .rwait pc left => { p with wait := .rwait pc (clock + left), held := none }
  | _ => { p with held := none }

/-- A load that has not returned, or a strong instruction in the lanes not performed, is a replayable request packet;
its destination stays empty. -/
def Flight.pack (f : Flight) : Flight :=
  match f.req with
  | .load _ _ _ _ | .label _ _ | .strong _ => { f with replay := true }
  | .done | .sysr _ _ _ => f

def Gang.freeze (clock : Nat) (g : Gang) : Gang :=
  { g with p0 := g.p0.freeze clock, p1 := g.p1.map fun p => p.freeze clock, flights := g.flights.map Flight.pack, run := 0 }

def Gang.thaw (clock : Nat) (g : Gang) : Gang :=
  { g with p0 := g.p0.thaw clock, p1 := g.p1.map fun p => p.thaw clock }

/-- The gangs stop: requests are packed, waits keep their budgets, watches that are not met are disarmed. What a halt
leaves of an access is translated again, so that no invalidation waits for it (R138, R150). -/
def State.freeze (s : State) : State :=
  { s with ctx := { s.ctx with
      gangs := s.ctx.gangs.map fun e => (e.1, e.2.freeze s.clock),
      parked := s.ctx.parked.map fun e => (e.1, e.2.freeze s.clock),
      watches := s.ctx.watches.map fun w => { w with armed := w.met.isSome }, unmaps := [] } }

/-- A watch is armed again and reads its word afresh. -/
def State.rearm (s : State) (w : Watch) : Watch :=
  let v := s.homeWord w.pa w.size
  if w.armed then w
  else { w with armed := true,
                met := if mwaitHolds w.cond v (w.cmp.toNat % 2 ^ (8 * w.size)) then some (BitVec.ofNat 64 v) else none }

/-- The gangs go on. -/
def State.thaw (s : State) : State :=
  { s with ctx := { s.ctx with
      gen := s.ctx.gen + 1,
      gangs := s.ctx.gangs.map fun e => (e.1, e.2.thaw s.clock),
      parked := s.ctx.parked.map fun e => (e.1, e.2.thaw s.clock),
      watches := s.ctx.watches.map s.rearm } }

/-- The lanes of the MODSET or MWAIT at which a path of the current gang stands are translated again as the context
goes on (R138, R150), those with a result in the completion log and those whose condition held apart. A lane that no
page takes any longer is a fault of that instruction. -/
def State.repath (s0 : State) (younger : Bool) : State :=
  let s := s0.modGang fun g => { g with younger := younger }
  let p := s.gang.path
  let waits := match p.wait with
    | .mwait _ _ _ _ _ => true
    | _ => false
  let size := match p.wait with
    | .mwait _ _ _ wide _ => if wide then 8 else 4
    | _ => ((s.ctx.heldSets.find? fun h => h.gang = s.cur && h.younger = younger).map fun h => h.data.length).getD 1
  let isDone (l : Nat) : Bool :=
    if waits then s.myWatches.any fun w => w.lane = l && w.met.isSome else p.done.any fun d => d.1 = l
  let left := p.reach.filter fun e => !isDone e.lane
  if left.isEmpty then s0
  else
    match s.relanes size (if waits then Need.load else Need.store) (!waits) left with
    | .error e =>
      (e.bad.foldl (fun s b => s.logError b) s).assertHalt
        { s.carrelFault e.kind p.xm e.lanes e.detail with cycle := s.mwaitCycle }
    | .ok accs =>
      let moved (l pa : Nat) : Nat := ((accs.find? (·.lane = l)).map fun a => (a.pieces.headD ⟨0, 0, 0⟩).pa).getD pa
      let s1 := (s.keepAll accs).modPath fun q => { q with reach := q.reach.map fun e => e.at accs }
      { s1 with ctx := { s1.ctx with
          watches := s1.ctx.watches.map fun w =>
            if w.gang = s.cur && w.younger = younger && w.met.isNone then { w with pa := moved w.lane w.pa } else w,
          heldSets := s1.ctx.heldSets.map fun h =>
            if h.gang = s.cur && h.younger = younger then { h with pa := moved h.lane h.pa } else h } }

/-- A path of the gang stands at a MODSET or MWAIT. -/
def Gang.stands (g : Gang) : Bool := (g.p0 :: g.p1.toList).any fun p => !p.reach.isEmpty

/-- So are those of every gang, and of every task that is away. -/
def State.repaths (s : State) : State :=
  let owners := ((s.ctx.gangs.filter fun e => e.2.stands).map (·.1))
    ++ (s.ctx.parked.filter fun e => e.2.stands).map fun e => awayOwner e.1
  let s1 := owners.foldl (fun s n =>
    match s.seat n with
    | some t =>
      let t1 := t.repath false
      (if t1.gang.p1.isSome then t1.repath true else t1).unseat
    | none => s) s
  { s1 with cur := s.cur }

/-- The event HALT_LINE (R144): every unit of the partition has stopped and has written its record. -/
def execHaltLine (s : State) : Result :=
  if s.halt == .asserted then .next { (s.writeStops s.faults).freeze with halt := .stopped }
  else .refused (.notEnabled "HALT_LINE")

/-! The Curator's answers (R85, R147). -/

/-- A suspended job restarts from its cursor (R214). -/
def Job.restart (x : Job) : Job :=
  match x.state with
  | .suspended => { x with state := if x.begun then .running else .queued }
  | _ => x

/-- Every unit continues from its stop point; a grace window is at its close (R154). -/
def State.resume (s : State) : State :=
  ({ s with
    halt := .running, faults := [],
    ctx := { s.ctx with
      grace := s.ctx.grace.map fun _ => 0, jobs := s.ctx.jobs.map fun e => (e.1, e.2.restart) } } : State).repaths.thaw

/-- The event CONTEXT_RESUME (R147). -/
def execContextResume (s : State) : Result :=
  if s.halt == .stopped then .next s.resume else .refused (.notEnabled "CONTEXT_RESUME")

/-- Every dirty line goes home. -/
def State.allHome (s : State) : State :=
  let s1 := s.l1s.foldl (fun s e => s.flushL1 e.1 4) s
  s1.l2s.foldl (fun s e => s.flushL2 e.1 0xF) s1

/-- Every dirty line goes home; lines and translations go (R151). -/
def State.emptyCaches (s : State) : State :=
  let s2 := s.allHome
  { s2 with
    l1s := s2.l1s.map fun e => (e.1, { e.2 with lines := [], tlb := [], consts := [] }),
    l2s := s2.l2s.map fun e => (e.1, { e.2 with lines := [], tlb := [] }),
    engTlbs := [] }

/-- The completion word of a launch whose context is terminated with a fault code (R147). -/
def abortWord (code : BitVec 8) : DWord := BitVec.ofNat 64 (2 ^ 63 + 256 * code.toNat + 0x10)

/-- The event CONTEXT_TERMINATE (R147). -/
def execContextTerminate (s : State) : Result :=
  match s.halt, s.faults with
  | .stopped, f :: _ =>
    let open_ := s.ctx.launches.filter fun e => !e.2.done
    let s1 := (open_.foldl (fun s e => s.completionWord e.2.completion (abortWord f.kind)) s).emptyCaches
    .next { s1 with ctx := Context.none, halt := .running, faults := [] }
  | _, _ => .refused (.notEnabled "CONTEXT_TERMINATE")

/-- The fault is one of those that R85 answers, with its trace. -/
def State.traceFault (s : State) : Option Nat :=
  match s.faults with
  | f :: _ =>
    let reexec := (f.gang.map fun n => (s.gangOf n).mode == .reexec).getD false
    if f.kind = Code.traceRewrite || f.kind = Code.traceOrphan || (f.kind = Code.replayDiverged && reexec) then f.trace
    else none
  | [] => none

/-- What a propagation of the trace runs is discarded: its tasks leave their slots, new ones are over. -/
def State.discardRuns (s : State) (t : Nat) : State :=
  let mine (g : Gang) : Bool := g.trace = t && !g.isShadow && (g.mode == .reexec || g.mode == .newWork)
  let out (n : Nat) (s : State) (g : Gang) : State :=
    if !mine g then s
    else
      let s1 := ((s.dropMember g).leaveCellar g).modGangOf n fun x =>
        match x.pack.find? fun e => e.2.frame = g.frame with
        | some e => x.task e.1
        | none => x
      ((s1.vacate n).restFrame g.frame).modFrameOf g.frame fun f =>
        if g.mode == .newWork then { f with traced := false, folio := 0 } else f
  s.ctx.gangs.foldl (fun s e => e.2.tasks.foldl (out e.1) s) s

/-- The event TRACE_FAULT_RESPONSE (R85): the trace is abandoned, a propagation of it records the root afresh,
and the context resumes. After TRACE-ORPHAN and REPLAY-DIVERGED its re-executions are discarded. -/
def execTraceFaultResponse (s : State) : Result :=
  match s.halt, s.traceFault with
  | .stopped, some t =>
    let kept : Bool := (s.faults.head?.map fun f => f.kind == Code.traceRewrite).getD false
    .next ((if kept then s else s.discardRuns t).abandon t).resume
  | _, _ => .refused (.notEnabled "TRACE_FAULT_RESPONSE")

/-! Pre-emption (R148 to R154). -/

/-- The slice is shorter than the bounds allow at a window of w cycles (R153). -/
def sliceClamped (w : Nat) : Bool := decide (Config.sliceLength < Config.saveBound w + Config.restoreBound)

/-- The status word of a context whose slice the Curator has computed at a window of w cycles (R153). -/
def Context.slice (x : Context) (w : Nat) : Context :=
  { x with cstat := if sliceClamped w then x.cstat ||| 1 else x.cstat }

/-- The Curator opens the grace window. -/
def State.openWindow (s : State) : State :=
  let on_ (c : Nat) : Nat := (s.gangsOn c).length
  let cs := (s.carrels.filter fun c => on_ c ≠ 0).map fun c => (c, (on_ c, (0 : DWord)))
  { s with ctx := { s.ctx.slice s.window with grace := some (s.clock + s.window), phints := cs } }

/-- W as the Curator sets it for the partition, from 0 to 65,280 in steps of 256; the choice 0 leaves it (R148,
log 74). -/
def State.setWindow (s : State) : State :=
  { s with window := if s.choice = 0 then s.window else 256 * ((s.choice - 1) % 256) }.chosen

/-- The event SLICE_END (R148, R153). -/
def execSliceEnd (s : State) : Result :=
  if s.ctx.made && s.halt == .running && s.ctx.grace.isNone then .next s.setWindow.openWindow
  else .refused (.notEnabled "SLICE_END")

/-- The blocks of 8 KiB that a bitmap names. -/
def Memory.keepBlocks (m : Memory) (bm : DWord) : Memory :=
  { bytes := m.bytes.filter fun e => bm.getLsbD (e.1 / 8192),
    labels := m.labels.filter fun e => bm.getLsbD (e.1 / 128) }

/-- A carrel as its image restores it (R151). One on which no gang was resident as the window opened has its whole
scratchpad saved (log 68). -/
def Carrel.image (c : Carrel) (hint : Option (Nat × DWord)) : Carrel :=
  let c1 := if c.seq.isEmpty && c.xu.isEmpty then { c with tiles := Carrel.reset.tiles } else c
  match hint with
  | some (0, bm) => { c1 with sp := c1.sp.keepBlocks bm, loftWritten := false }
  | _ => { c1 with loftWritten := false }

/-- The image of the context. -/
def Context.image (x : Context) (fused : List Nat) : Context :=
  { x with carrels := x.carrels.map fun e => (e.1, e.2.image (Table.seek x.phints e.1)), fusedAt := fused,
           grace := Option.none, phints := [] }

/-- The frames that the L2 slices' frame stores hold go to their places in the arena (R34). -/
def State.framesHome (s : State) : State :=
  s.ctx.frames.foldl (fun s e => s.deskWrite e.1 e.2.bytes) s

/-- Every gang still resident is halted and the context is saved; no context holds the partition. -/
def State.closeWindow (s : State) : State :=
  let s1 := ((s.writeStops []).freeze).emptyCaches.framesHome
  { s1 with saved := s1.saved ++ [s1.ctx.image s1.fused], ctx := Context.none }

/-- A launch has ended and its completion word is still to be written (R47). -/
def State.launchesDue (s : State) : List (Nat × Launch) :=
  s.ctx.launches.filter fun e => e.2.rootEnded && !e.2.done && !s.busyLaunch e.1

/-- The event GRACE_WINDOW_CLOSE (R149 to R151); the completion word of a launch that has ended comes first
(R154). -/
def execGraceWindowClose (s : State) : Result :=
  match s.ctx.grace with
  | some deadline =>
    if deadline ≤ s.clock && s.halt == .running && s.launchesDue.isEmpty then .next s.closeWindow
    else .refused (.notEnabled "GRACE_WINDOW_CLOSE")
  | none => .refused (.notEnabled "GRACE_WINDOW_CLOSE")

/-- A gang saved at PHINT is in its slot again. -/
def Gang.unsave (g : Gang) : Gang := if g.saved then { g with saved := false, resident := true } else g

/-- The saved context x holds the partition again. The Curator wakes the carrels that its gangs are on (R399). -/
def State.restore (s : State) (x : Context) : State :=
  let x1 : Context := { x.slice s.window with gangs := x.gangs.map fun e => (e.1, e.2.unsave), fusedAt := [] }
  ({ s with
    ctx := x1, saved := s.saved.filter fun y => y.number != x.number, fused := x.fusedAt,
    gated := s.gated.filter fun c => !x1.gangs.any fun e => e.2.resident && e.2.carrel = c } : State).repaths.thaw

/-- The event CONTEXT_RESTORE (R151). -/
def execContextRestore (n : Nat) (s : State) : Result :=
  if s.ctx.made || s.halt != .running || s.recovery then .refused (.notEnabled "CONTEXT_RESTORE")
  else
    match s.saved.find? fun x => x.number = n with
    | some x => .next (s.restore x)
    | none => .refused (.notEnabled "CONTEXT_RESTORE")

end Sys2Proof.Machine
end

