-- ==== Sys2Proof/Machine/Hash.lean ====
section
/-! DEFINITION. SHA-256, and the check of an HSS signature of RFC 8554 with the types of R390: L = 1,
LMS_SHA256_M32_H10, LMOTS_SHA256_N32_W4 (log 117). -/

namespace Sys2Proof.Machine

open Sys2Proof

/-! SHA-256. -/

/-- The 64 round constants. -/
def shaRound : List Word :=
  [0x428A2F98, 0x71374491, 0xB5C0FBCF, 0xE9B5DBA5, 0x3956C25B, 0x59F111F1, 0x923F82A4, 0xAB1C5ED5,
   0xD807AA98, 0x12835B01, 0x243185BE, 0x550C7DC3, 0x72BE5D74, 0x80DEB1FE, 0x9BDC06A7, 0xC19BF174,
   0xE49B69C1, 0xEFBE4786, 0x0FC19DC6, 0x240CA1CC, 0x2DE92C6F, 0x4A7484AA, 0x5CB0A9DC, 0x76F988DA,
   0x983E5152, 0xA831C66D, 0xB00327C8, 0xBF597FC7, 0xC6E00BF3, 0xD5A79147, 0x06CA6351, 0x14292967,
   0x27B70A85, 0x2E1B2138, 0x4D2C6DFC, 0x53380D13, 0x650A7354, 0x766A0ABB, 0x81C2C92E, 0x92722C85,
   0xA2BFE8A1, 0xA81A664B, 0xC24B8B70, 0xC76C51A3, 0xD192E819, 0xD6990624, 0xF40E3585, 0x106AA070]
  ++ [0x19A4C116, 0x1E376C08, 0x2748774C, 0x34B0BCB5, 0x391C0CB3, 0x4ED8AA4A, 0x5B9CCA4F, 0x682E6FF3,
      0x748F82EE, 0x78A5636F, 0x84C87814, 0x8CC70208, 0x90BEFFFA, 0xA4506CEB, 0xBEF9A3F7, 0xC67178F2]

/-- The eight words that a digest starts from. -/
def shaStart : List Word :=
  [0x6A09E667, 0xBB67AE85, 0x3C6EF372, 0xA54FF53A, 0x510E527F, 0x9B05688C, 0x1F83D9AB, 0x5BE0CD19]

/-- A number as n bytes, the highest first, the order of RFC 8554 and of SHA-256. -/
def bigBytes (n v : Nat) : List Byte := (natToBytes n v).reverse

def bigWord (bs : List Byte) : Nat := bytesToNat bs.reverse

/-- The message schedule, the word of the latest round first: n more words. -/
def shaSchedule : Nat → List Word → List Word
  | 0, w => w
  | n + 1, w =>
    let at_ (i : Nat) : Word := w.getD (i - 1) 0
    let a := at_ 15
    let b := at_ 2
    let s0 := a.rotateRight 7 ^^^ a.rotateRight 18 ^^^ (a >>> 3)
    let s1 := b.rotateRight 17 ^^^ b.rotateRight 19 ^^^ (b >>> 10)
    shaSchedule n ((at_ 16 + s0 + at_ 7 + s1) :: w)

/-- The eight working variables. -/
structure ShaVars where
  a : Word
  b : Word
  c : Word
  d : Word
  e : Word
  f : Word
  g : Word
  h : Word
deriving DecidableEq, Repr

def ShaVars.round (v : ShaVars) (kw : Word × Word) : ShaVars :=
  let s1 := v.e.rotateRight 6 ^^^ v.e.rotateRight 11 ^^^ v.e.rotateRight 25
  let ch := (v.e &&& v.f) ^^^ (~~~v.e &&& v.g)
  let t1 := v.h + s1 + ch + kw.1 + kw.2
  let s0 := v.a.rotateRight 2 ^^^ v.a.rotateRight 13 ^^^ v.a.rotateRight 22
  let maj := (v.a &&& v.b) ^^^ (v.a &&& v.c) ^^^ (v.b &&& v.c)
  ⟨t1 + (s0 + maj), v.a, v.b, v.c, v.d + t1, v.e, v.f, v.g⟩

def ShaVars.words (v : ShaVars) : List Word := [v.a, v.b, v.c, v.d, v.e, v.f, v.g, v.h]

/-- One block of 64 bytes. -/
def shaBlock (h : List Word) (block : List Byte) : List Word :=
  let w16 := (List.range 16).map fun i => BitVec.ofNat 32 (bigWord ((block.drop (4 * i)).take 4))
  let w := (shaSchedule 48 w16.reverse).reverse
  let at_ (i : Nat) : Word := h.getD i 0
  let v := (shaRound.zip w).foldl ShaVars.round ⟨at_ 0, at_ 1, at_ 2, at_ 3, at_ 4, at_ 5, at_ 6, at_ 7⟩
  (h.zip v.words).map fun p => p.1 + p.2

/-- The message with its padding: a bit 1, zeros, the length in bits. -/
def shaPadded (m : List Byte) : List Byte :=
  m ++ [0x80] ++ List.replicate ((119 - m.length % 64) % 64) 0 ++ bigBytes 8 (8 * m.length)

def shaBlocks : Nat → List Word → List Byte → List Word
  | 0, h, _ => h
  | n + 1, h, bs => shaBlocks n (shaBlock h (bs.take 64)) (bs.drop 64)

/-- SHA-256 of a byte string, as 32 bytes. -/
def sha256 (m : List Byte) : List Byte :=
  let p := shaPadded m
  (shaBlocks (p.length / 64) shaStart p).flatMap fun w => bigBytes 4 w.toNat

/-! RFC 8554. -/

/-- The typecodes of R390. -/
def lmsType : Nat := 6
def otsType : Nat := 3

/-- Digit i of 4 bits of a byte string, the high half of a byte first. -/
def nibble (bs : List Byte) (i : Nat) : Nat :=
  let b := (bs.getD (i / 2) 0).toNat
  if i % 2 = 0 then b / 16 else b % 16

/-- The checksum that follows the 32 bytes of a message's hash, in 2 bytes. -/
def otsChecksum (q : List Byte) : List Byte :=
  bigBytes 2 (((List.range 64).map fun i => 15 - nibble q i).sum * 16)

/-- A hash under a key's identifier, with a number and a purpose. -/
def lmsHash (id : List Byte) (n purpose : Nat) (bs : List Byte) : List Byte :=
  sha256 (id ++ bigBytes 4 n ++ bigBytes 2 purpose ++ bs)

/-- A chain of one-time hashes from step j on, n of them. -/
def otsChain (id : List Byte) (q i : Nat) : Nat → Nat → List Byte → List Byte
  | 0, _, x => x
  | n + 1, j, x => otsChain id q i n (j + 1) (lmsHash id q i (bigBytes 1 j ++ x))

/-- The candidate for the one-time public key of leaf q: the type, the randomizer and the 67 chains' values make the
signature. -/
def otsCandidate (id : List Byte) (q : Nat) (sig msg : List Byte) : List Byte :=
  let c := (sig.drop 4).take 32
  let y (i : Nat) : List Byte := (sig.drop (36 + 32 * i)).take 32
  let h := lmsHash id q 0x8181 (c ++ msg)
  let digits := h ++ otsChecksum h
  lmsHash id q 0x8080 ((List.range 67).flatMap fun i =>
    let a := nibble digits i
    otsChain id q i (15 - a) a (y i))

/-- Up the tree from a node, with the siblings on the way. -/
def lmsClimb (id : List Byte) : List (List Byte) → Nat → List Byte → List Byte
  | [], _, x => x
  | p :: rest, node, x =>
    lmsClimb id rest (node / 2) (lmsHash id (node / 2) 0x8383 (if node % 2 = 1 then p ++ x else x ++ p))

/-- An LMS signature of 2508 bytes verifies under a public key of 56 bytes. -/
def lmsVerifies (key sig msg : List Byte) : Bool :=
  let id := (key.drop 8).take 16
  let q := bigWord (sig.take 4)
  let path := (List.range 10).map fun i => (sig.drop (2188 + 32 * i)).take 32
  key.length = 56 && bigWord (key.take 4) = lmsType && bigWord ((key.drop 4).take 4) = otsType
    && sig.length = 2508 && bigWord ((sig.drop 4).take 4) = otsType && bigWord ((sig.drop 2184).take 4) = lmsType
    && q < 1024
    && lmsClimb id path (1024 + q) (lmsHash id (1024 + q) 0x8282 (otsCandidate id q ((sig.drop 4).take 2180) msg))
        = key.drop 24

/-- An HSS signature of one level verifies under a public key of one level. -/
def hssVerifies (key sig msg : List Byte) : Bool :=
  bigWord (key.take 4) = 1 && sig.length = 2512 && bigWord (sig.take 4) = 0
    && lmsVerifies (key.drop 4) (sig.drop 4) msg

end Sys2Proof.Machine
end

