-- ==== Sys2Proof/Machine/Curator.lean ====
section
/-! DEFINITION. What the Curator does: translations (R138, R139), page tables (R135 to R137), code objects
(R383 to R386), boot (R390), contexts and the mailbox (R41, R396 to R398), power gating (R399), access tables
(R394). -/

namespace Sys2Proof.Machine

open Sys2Proof

/-! Translations (R139). -/

/-- The 64 KiB page numbers that a virtual range touches include k. -/
def pageIn (va size k : Nat) : Bool := size ≠ 0 && decide (va / 65536 ≤ k) && decide (k ≤ (va + size - 1) / 65536)

/-- The physical pages that any unit reaches by an old entry of the range. -/
def State.oldFrames (s : State) (va size : Nat) : List Nat :=
  let of_ (t : Table Translation) : List Nat := (t.filter fun e => pageIn va size e.1).map fun e => e.2.frame
  ((s.l1s.flatMap fun e => of_ e.2.tlb) ++ (s.engTlbs.flatMap fun e => of_ e.2)).eraseDups

/-- The dirty lines of these pages go to their home slices, from every L1 and L2. -/
def State.drainPages (s : State) (frames : List Nat) : State :=
  let hit (ln : Nat) : Bool := frames.contains (ln / 256)
  let s1 := s.l1s.foldl (fun s e =>
    e.2.lines.foldl (fun s l => if hit l.1 then s.lineToL2 e.1 l.1 4 else s) s) s
  s1.l2s.foldl (fun s e => e.2.lines.foldl (fun s l => if hit l.1 then s.lineHome e.1 l.1 else s) s) s1

/-- The old entries leave every unit's cache, and what was written through them is at home. -/
def State.invalidate (s : State) (va size : Nat) : State :=
  let drop (t : Table Translation) : Table Translation := t.filter fun e => !pageIn va size e.1
  let s1 := s.drainPages (s.oldFrames va size)
  { s1 with
    l1s := s1.l1s.map fun e => (e.1, { e.2 with tlb := drop e.2.tlb }),
    engTlbs := s1.engTlbs.map fun e => (e.1, drop e.2) }

/-- The accesses of the context to a virtual range that are translated and still to be performed, as virtual and
physical address: what an order gate or the Archive holds, the words that MWAITs watch, the lanes of paths that stand
at a MODSET or MWAIT. Every other access is performed in the step in which it is translated. -/
def State.outstanding (s : State) (va size : Nat) : List (Nat × Nat) :=
  let lanes (es : List HeldLane) : List (Nat × Nat) := es.map fun e => (e.va, e.pa)
  let flight (f : Flight) : List (Nat × Nat) := match f.req with
    | .strong h => if f.replay then [] else lanes h.left
    | .load _ _ _ _ | .label _ _ | .done | .sysr _ _ _ => []
  let gang (g : Gang) : List (Nat × Nat) :=
    g.flights.flatMap flight ++ (g.p0 :: g.p1.toList).flatMap fun p => lanes p.reach
  ((s.ctx.gangs ++ s.ctx.parked).flatMap (fun e => gang e.2)
    ++ s.ctx.heldSets.map (fun h => (h.va, h.pa))
    ++ (s.ctx.watches.filter fun w => w.met.isNone).map fun w => (w.va, w.pa)).filter fun e => pageIn va size (e.1 / 65536)

/-- What is translated before an invalidation of the range keeps it from completing (R139). -/
def State.drains (s : State) (va size : Nat) : State :=
  let frames := ((s.outstanding va size).map fun e => e.2 / 65536).eraseDups
  if frames.isEmpty || s.halt == .stopped then s
  else { s with ctx := { s.ctx with unmaps := s.ctx.unmaps ++ [{ va := va, size := size, frames := frames }] } }

/-- An invalidation still waits for such an access. -/
def State.draining (s : State) (u : Unmap) : Bool :=
  (s.outstanding u.va u.size).any fun e => u.frames.contains (e.2 / 65536)

/-- The invalidations that have completed are reported done (R139); none where each still waits. -/
def State.unmapped (s : State) : Option State :=
  if s.ctx.unmaps.any fun u => !s.draining u then
    some { s with ctx := { s.ctx with unmaps := s.ctx.unmaps.filter s.draining } }
  else none

/-- The Curator may use the physical page: no invalidation of it is incomplete (R139). -/
def State.reusable (s : State) (pa : Nat) : Bool := !s.ctx.unmaps.any fun u => u.frames.contains (pa / 65536)

/-- The event TRANSLATION_INVALIDATE (R138, R139): accesses translated from here on use the new entries, and what was
stored by the old ones is at home; the invalidation completes once the accesses translated before are performed. -/
def execTranslationInvalidate (va size : Nat) (s : State) : Result := .next ((s.invalidate va size).drains va size)

/-! Page tables (R135, R136). -/

/-- A leaf entry of a 64 KiB page. -/
def leafEntry (pa : Nat) (read write exec mod : Bool) : Nat :=
  let bit (b : Bool) (i : Nat) : Nat := if b then 2 ^ i else 0
  pa / 65536 * 65536 + 3 + bit read 2 + bit write 3 + bit exec 4 + bit mod 5

/-- The index of an address at a level (R135). -/
def levelIndex (level va : Nat) : Nat :=
  match level with
  | 1 => va / 2 ^ 48 % 512
  | 2 => va / 2 ^ 39 % 512
  | 3 => va / 2 ^ 30 % 512
  | 4 => va / 2 ^ 21 % 512
  | _ => va / 2 ^ 16 % 32

/-- Map a page: an entry not in use on the way takes the next of the Curator's pages as its table, zeroed.
None where a leaf stands in the way, no page is left, or an unmap of the page is not done (R139). -/
def State.mapIn (s : State) (fuel level table va leaf : Nat) (tables : List Nat) : Option (State × List Nat) :=
  let at_ := table + 8 * levelIndex level va
  match fuel with
  | 0 => some (s.homeWrite at_ (natToBytes 8 leaf), tables)
  | k + 1 =>
    let e := s.homeWord at_ 8
    if e % 2 = 1 then
      if e / 2 % 2 = 1 then none
      else s.mapIn k (level + 1) (e / 256 % 2 ^ 40 * 256) va leaf tables
    else
      let size := if level = 4 then 256 else 4096
      match tables with
      | [] => none
      | t :: rest =>
        if t % size ≠ 0 || s.memBytes < t + size || !s.reusable t then none
        else
          let s1 := (s.homeWrite t (natToBytes size 0)).homeWrite at_ (natToBytes 8 (t + 1))
          s1.mapIn k (level + 1) t va leaf rest

/-- Map pages in the tables at `root`. -/
def State.mapPages (s : State) (root : Nat) (ps : List PageMap) (tables : List Nat) : Option (State × List Nat) :=
  match ps with
  | [] => some (s, tables)
  | p :: rest =>
    match if !s.reusable p.pa then none else s.mapIn 4 1 root p.va (leafEntry p.pa p.read p.write p.exec p.mod) tables with
    | some (s1, ts) => s1.mapPages root rest ts
    | none => none

/-! Code objects (R383 to R386). -/

/-- The pages of a section at va with its bytes at pa. -/
def sectionPages (va pa n : Nat) (write exec mod : Bool) : List PageMap :=
  if n = 0 then []
  else (List.range ((va % 65536 + n + 65535) / 65536)).map fun i =>
    { va := (va / 65536 + i) * 65536, pa := (pa / 65536 + i) * 65536,
      read := true, write := write, exec := exec, mod := mod }

/-- The address of a label of the object where the Curator places it; a label of the constants is an offset of their
section, with no address. -/
def labelAddr (o : CodeObject) (sec : Section) (off : Nat) : Option Nat :=
  match sec with
  | .code => some (o.codeBase.toNat + off)
  | .data => some (o.dataBase.toNat + off)
  | .modifiable => some (o.modBase.toNat + off)
  | .consts => none

/-- The objects of the context export this symbol. -/
def State.exported (s : State) (id : Nat) : Bool := s.ctx.codes.any fun e => e.2.exports.any fun x => x.1 = id

/-- The address of a symbol that an object of the context exports (R386). -/
def State.symbolAt (s : State) (id : Nat) : Option Nat :=
  (s.ctx.codes.findSome? fun e => e.2.exports.find? fun x => x.1 = id).bind (·.2)

/-- The address that a relocation refers to: a label of the object, or a symbol that it imports. -/
def State.relocTarget (s : State) (o : CodeObject) (r : Reloc) : Option Nat :=
  match r.target with
  | .label sec off => labelAddr o sec off
  | .symbol id => if o.imports.contains id then s.symbolAt id else none

/-- The instructions from the word that holds the field at `at_` to an address (R259). Fields of 32 bits stand in the
low bytes of their word. None where the address is no whole number of words away, or too far for the field (R386,
log 116). -/
def offsetTo (o : CodeObject) (at_ target : Nat) : Option Int :=
  let d : Int := (target : Int) - ((o.codeBase.toNat + at_ / 12 * 12 : Nat) : Int)
  if d % 12 = 0 && -(2 ^ 31) ≤ d / 12 && d / 12 < 2 ^ 31 then some (d / 12) else none

/-- What a relocation writes into its field (R385, R386); none where it cannot be applied. -/
def State.relocBytes (s : State) (o : CodeObject) (r : Reloc) : Option (List Byte) :=
  (s.relocTarget o r).bind fun a =>
    match r.kind with
    | .offset => (offsetTo o r.at_ a).map fun d => natToBytes 4 (BitVec.ofInt 32 d).toNat
    | .hi => some (natToBytes 4 (a / 2 ^ 32 % 2 ^ 32))
    | .lo => some (natToBytes 4 (a % 2 ^ 32))
    | .address => some (natToBytes 8 a)

/-- The bytes of a section with its relocations applied. -/
def State.patched (s : State) (o : CodeObject) (sec : Section) (bs : List Byte) : List Byte :=
  (o.relocs.filter fun r => r.sec == sec).foldl (fun bs r =>
    let new := (s.relocBytes o r).getD []
    bs.take r.at_ ++ new ++ bs.drop (r.at_ + new.length)) bs

/-- The Curator refuses the load (R386). -/
def State.loadRefused (s : State) (o : CodeObject) : Bool :=
  let ids := o.exports.map (·.id)
  o.imports.any (fun x => !s.exported x) || ids.any (fun x => s.exported x) || ids.eraseDups.length ≠ ids.length
    || o.relocs.any fun r => (s.relocBytes o r).isNone

/-- The Curator can place the sections there: the alignments of R383, physical memory that the partition has, and
for `.mod` free granules of the modifiable arena (R55). -/
def State.canPlace (s : State) (o : CodeObject) : Bool :=
  let even (va : DWord) (pa : Nat) : Bool := va.toNat % 65536 = pa % 65536
  let fits (pa n : Nat) : Bool := decide (pa + n ≤ s.memBytes)
  let a := o.modBase.toNat
  let n := o.modData.length
  even o.codeBase o.codePa && even o.dataBase o.dataPa && even o.modBase o.modPa
    && o.codeBase.toNat % 4 = 0 && o.dataBase.toNat % 65536 = 0 && a % 65536 = 0
    && fits o.codePa o.code.length && fits o.dataPa o.data.length && fits o.modPa n
    && (n = 0 || (s.ctx.modBase.toNat ≤ a && a + n ≤ s.ctx.modBase.toNat + s.ctx.modRoom
      && s.ctx.allocs.all fun x => x.stop ≤ a || a + (n + 7) / 8 * 8 ≤ x.addr))

/-- What stays of an object that is loaded: its constants and tasks, and its exports with their addresses. -/
def State.loadedObject (s : State) (o : CodeObject) : Loaded :=
  { consts := s.patched o .consts o.consts, tasks := o.tasks,
    exports := o.exports.map fun e => (e.id, labelAddr o e.sec e.off) }

/-- The event CODE_OBJECT_LOAD (R383, R385, R386, R55). -/
def execCodeObjectLoad (o : CodeObject) (s : State) : Result :=
  if !s.ctx.made || !s.canPlace o then .refused (.notEnabled "CODE_OBJECT_LOAD")
  else if s.loadRefused o then .next s
  else
    let pages := sectionPages o.codeBase.toNat o.codePa o.code.length false true false
      ++ sectionPages o.dataBase.toNat o.dataPa o.data.length true false false
      ++ sectionPages o.modBase.toNat o.modPa o.modData.length true false true
    match s.mapPages s.ctx.root pages o.tables with
    | none => .refused (.notEnabled "CODE_OBJECT_LOAD")
    | some (s1, _) =>
      let s2 := ((s1.homeWrite o.codePa (s.patched o .code o.code)).homeWrite o.dataPa
        (s.patched o .data o.data)).homeWrite o.modPa (s.patched o .modifiable o.modData)
      let allocs : List Alloc :=
        if o.modData.isEmpty then []
        else [{ addr := o.modBase.toNat, size := o.modData.length, trace := none, folio := 0 }]
      .next { s2 with ctx := { s2.ctx with
        codes := Table.put s2.ctx.codes (Table.fresh s2.ctx.codes) (s.loadedObject o), allocs := s2.ctx.allocs ++ allocs } }

/-! Boot (R390). -/

/-- A layout that module flash can hold: whole wings of the package, at least one port (R395). -/
def layoutOk (x : Partition) : Bool :=
  !x.wings.isEmpty && x.wings == (List.range 12).filter x.wings.contains && !x.ports.isEmpty

/-- The bytes that are signed and measured: the version and what follows it (log 117). -/
def signedBytes (x : BootImage) : List Byte := natToBytes 4 x.version.toNat ++ x.body

/-- The image's public key is the one whose hash the fuses hold, its signature verifies, and its version is not below
the rollback counter (R390). -/
def imageBoots (x : BootImage) : Bool :=
  decide (sha256 x.key = (List.range 32).map Config.anchor) && hssVerifies x.key x.signature (signedBytes x)
    && decide (Config.rollback.toNat ≤ x.version.toNat)

/-- The event PACKAGE_RESET (R390, R395): the partition that module flash lays out boots the image there, or stays in
recovery. Everything is at its reset; device memory keeps what it holds (log 22), and the cycle counts go on
(log 84). -/
def execPackageReset (image : BootImage) (layout : Partition) (s : State) : Result :=
  let good := imageBoots image
  if !layoutOk layout then .refused (.notEnabled "PACKAGE_RESET")
  else
    .next { State.reset with
      agenda := s.agenda, clock := s.clock, asleep := s.asleep, free := s.free, mem := s.mem, bad := s.bad,
      part := layout, booted := good, recovery := !good, version := image.version,
      measurement := if good then BitVec.ofNat 256 (bytesToNat (sha256 (signedBytes image))) else 0 }

/-! Management pages (R392) and the mailbox (R398). -/

def Page.reset : Page :=
  { signature := [], nonce := [], quote := [], command := 0, status := 0, argument := 0,
    attachReq := false, attached := false, quoteReq := false, attachStatus := 0, accepted := 0, wanted := 0 }

def State.pageOf (s : State) (vi : Nat) : Page := Table.look s.pages vi Page.reset
def State.setPageOf (s : State) (vi : Nat) (p : Page) : State := { s with pages := Table.put s.pages vi p }

/-- The interface has accepted feature bit i (R393). -/
def State.accepts (s : State) (vi i : Nat) : Bool := (s.pageOf vi).attached && (s.pageOf vi).accepted.getLsbD i

/-- A mailbox command of this code is pending. -/
def State.asked (s : State) (vi : Nat) (code : Byte) : Bool :=
  let p := s.pageOf vi
  s.booted && p.status = 1 && p.command = code

def State.argument (s : State) (vi : Nat) : Nat := (s.pageOf vi).argument.toNat

/-- The command ends with a status. -/
def State.answer (s : State) (vi : Nat) (status : Byte) : State :=
  s.setPageOf vi { s.pageOf vi with status := status }

/-- The contexts of an interface, the current one first. -/
def State.contextsOf (s : State) (vi : Nat) : List Context :=
  ((if s.ctx.made then [s.ctx] else []) ++ s.saved).filter fun x => x.vi = vi

/-- The interface's context with a number. -/
def State.contextOf (s : State) (vi n : Nat) : Option Context := (s.contextsOf vi).find? fun x => x.number = n

/-- The context of this number becomes x, wherever it is held. -/
def State.putContext (s : State) (x : Context) : State :=
  if s.ctx.made && s.ctx.number = x.number then { s with ctx := x }
  else { s with saved := s.saved.map fun y => if y.number = x.number then x else y }

/-- An action inside the context x, in whose tables it translates, even where x is saved. -/
def State.within (s : State) (x : Context) (f : State → State) : State :=
  if s.ctx.made && s.ctx.number = x.number then f s
  else
    let s1 := f { s with ctx := x }
    { s1 with ctx := s.ctx }.putContext s1.ctx

/-! Contexts. -/

/-- The entry of handle 0 of a new context (R41). -/
def shelfZero (ring : DWord) : Shelf :=
  { Shelf.none with valid := true, pinned := true, low := 2 ^ 18, high := 2 ^ 19, cap := 2 ^ 20, ring := ring }

/-- A context with the areas of a layout; the Curator's write of DBGCTL (R372, log 30). -/
def newContext (vi number root : Nat) (x : Layout) : Context :=
  { Context.none with
    made := true, number := number, vi := vi, root := root, stopBase := x.stopBase, faultBase := x.faultBase,
    frameBase := x.frameBase, frameRoom := x.frames, imageBase := x.imageBase, imageRoom := x.imageUnits,
    cellarBase := x.cellarBase &&& ~~~0xFF, modBase := x.modBase, modRoom := x.modSize, logBase := x.logBase,
    dbgctl := if x.debug then 1 else 0, archiveMax := min x.archiveMax (256 * 2 ^ 30), shelves := [(0, shelfZero x.shelfRing)],
    copyRings := x.queues.map fun q => (q.wing, (q.header, q.ring)) }

/-- The header of a copy queue (R46, R199). -/
def State.writeQueue (s : State) (q : QueuePlace) : State :=
  s.deskWrite q.header.toNat (natToBytes 8 0 ++ natToBytes 8 0 ++ natToBytes 8 q.count ++ natToBytes 8 q.ring.toNat)

/-- The event CREATE_CONTEXT (R398, R41, R199); its order logs' headers are 0 (R158). A context made while another holds the partition waits
for its slice. -/
def execCreateContext (vi : Nat) (x : Layout) (s : State) : Result :=
  if !s.asked vi 0x01 then .refused (.notEnabled "CREATE_CONTEXT")
  else
    let root := s.argument vi
    let used := ((if s.ctx.made then [s.ctx] else []) ++ s.saved).map (·.number)
    match (List.range 1024).find? fun n => !used.contains n with
    | none => .next (s.answer vi 2)
    | some n =>
      if root % 4096 ≠ 0 then .next (s.answer vi 2)
      else
        match s.mapPages root x.maps x.tables with
        | none => .refused (.notEnabled "CREATE_CONTEXT")
        | some (s1, _) =>
          let s2 := x.queues.foldl (fun s q => s.writeQueue q) { s1 with ctx := (newContext vi n root x).slice s.window }
          let s2 := s2.homeWrite x.logBase.toNat (List.replicate 4096 0)
          let s3 := if s.ctx.made then { s2 with saved := s2.saved ++ [s2.ctx], ctx := s.ctx } else s2
          .next (s3.answer vi 0)

/-- The event DESTROY_CONTEXT (R398). -/
def execDestroyContext (vi : Nat) (s : State) : Result :=
  if !s.asked vi 0x02 || s.halt != .running then .refused (.notEnabled "DESTROY_CONTEXT")
  else
    match s.contextOf vi (s.argument vi) with
    | none => .next (s.answer vi 2)
    | some x =>
      let s1 := if s.ctx.made && s.ctx.number = x.number then { s.emptyCaches with ctx := Context.none }
        else { s with saved := s.saved.filter fun y => y.number != x.number }
      .next (s1.answer vi 0)

/-- The event CREATE_LAUNCH_QUEUE (R398, R46): the queue belongs to the interface's first context. -/
def execCreateLaunchQueue (vi : Nat) (s : State) : Result :=
  if !s.asked vi 0x03 then .refused (.notEnabled "CREATE_LAUNCH_QUEUE")
  else
    let a := s.argument vi
    match s.contextsOf vi with
    | [] => .next (s.answer vi 2)
    | x :: _ =>
      if a % 64 ≠ 0 then .next (s.answer vi 2)
      else .next ((s.putContext { x with queues := x.queues ++ (if x.queues.contains a then [] else [a]) }).answer vi 0)

/-- A shelf-table entry of 32 bytes (R41). -/
def shelfOfBytes (b : List Byte) (old : Shelf) : Shelf :=
  let flags := field b 21 1
  { old with
    ring := BitVec.ofNat 64 (field b 0 8), cap := field b 8 4, high := field b 12 4, low := field b 16 4,
    prio := BitVec.ofNat 3 (field b 20 1), valid := flags % 2 = 1, pinned := flags / 2 % 2 = 1,
    consumer := BitVec.ofNat 64 (field b 24 8) }

/-- The event CREATE_SHELF_ENTRY (R398, R41): the entry's place in the table is the handle. -/
def execCreateShelfEntry (vi : Nat) (s : State) : Result :=
  if !s.asked vi 0x04 then .refused (.notEnabled "CREATE_SHELF_ENTRY")
  else
    let a := s.argument vi
    let n := a / 32 % 4096
    match s.contextsOf vi with
    | [] => .next (s.answer vi 2)
    | x :: _ =>
      let y := shelfOfBytes (s.homeRead a 32) (Table.look x.shelves n Shelf.none)
      if a % 32 ≠ 0 || (n = 0 && (!x.launches.isEmpty || !y.ok)) then .next (s.answer vi 2)
      else
        let z := if n = 0 then { y with pinned := true } else y
        .next ((s.putContext { x with shelves := Table.put x.shelves n z }).answer vi 0)

/-- The event SET_QUOTA (R396): the quotas of all interfaces take at most the 49,152 lines of a slice. -/
def execSetQuota (vi : Nat) (s : State) : Result :=
  if !s.asked vi 0x05 then .refused (.notEnabled "SET_QUOTA")
  else if !s.accepts vi 7 then .next (s.answer vi 4)
  else
    let a := s.argument vi
    let others := ((Table.del s.quotas vi).map (·.2)).sum
    if 49152 < others + a then .next (s.answer vi 3)
    else .next ({ s with quotas := Table.put s.quotas vi a }.answer vi 0)

/-! Migration (R397, R398). -/

/-- The event START_MIGRATION_ROUND: the logs start empty. -/
def execStartMigrationRound (vi : Nat) (s : State) : Result :=
  if !s.asked vi 0x06 then .refused (.notEnabled "START_MIGRATION_ROUND")
  else if !s.accepts vi 6 then .next (s.answer vi 4)
  else
    match s.contextOf vi (s.argument vi) with
    | none => .next (s.answer vi 2)
    | some x => .next ({ s with migr := some (x.number, []) }.answer vi 0)

/-- The pages of a migrating context that the logs of the round make dirty: those logged, and every page of a region
whose ring overflowed (R397). -/
def State.dirtyPages (s : State) (n : Nat) : List Nat :=
  match s.migr with
  | some (m, logs) =>
    if m = n then
      logs.flatMap fun l => if l.overflow then (List.range 16384).map fun i => l.region * 2 ^ 30 + i * 65536 else l.pages
    else []
  | none => []

/-- The event FINAL_ROUND: pending until the context is pre-empted, which this starts; then the logs are read, and
the pages that they make dirty are resent (R397). -/
def execFinalRound (vi : Nat) (s : State) : Result :=
  if !s.asked vi 0x07 then .refused (.notEnabled "FINAL_ROUND")
  else if !s.accepts vi 6 then .next (s.answer vi 4)
  else
    match s.contextOf vi (s.argument vi) with
    | none => .next (s.answer vi 2)
    | some x =>
      if !(s.ctx.made && s.ctx.number = x.number) then
        .next ({ s with resend := s.dirtyPages x.number }.answer vi 0)
      else if s.ctx.grace.isNone && s.halt == .running then .next s.openWindow
      else .refused (.notEnabled "FINAL_ROUND")

/-- The event REPORT_COPY_QUEUE (R398, R199). -/
def execReportCopyQueue (vi : Nat) (s : State) : Result :=
  if !s.asked vi 0x08 then .refused (.notEnabled "REPORT_COPY_QUEUE")
  else
    let a := s.argument vi
    match s.contextOf vi (a % 1024) with
    | none => .next (s.answer vi 2)
    | some x =>
      match Table.seek x.copyRings (a / 1024 % 16) with
      | none => .next (s.answer vi 2)
      | some q =>
        match ({ s with ctx := x } : State).deskPa q.1.toNat with
        | none => .next (s.answer vi 2)
        | some pa =>
          if 2 ^ 14 ≤ a then .next (s.answer vi 2)
          else .next (s.setPageOf vi { s.pageOf vi with status := 0, argument := BitVec.ofNat 48 pa })

/-! Power gating (R399). -/

/-- The event CARREL_GATE: dirty lines go home, the L1 is invalid, the rest is retained. In a fused gallery they are the
carrel's own in every slice, and all that its slice holds (R124). -/
def execCarrelGate (carrel : Nat) (s : State) : Result :=
  if !s.carrels.contains carrel || s.gated.contains carrel || !(s.gangsOn carrel).isEmpty || !s.booted then
    .refused (.notEnabled "CARREL_GATE")
  else
    let fused := s.isFused carrel
    let s1 := ((if fused then s.flushFused carrel else s).emptyL1 carrel).flushL2 (galleryOf carrel)
      (if fused then 0xF else carrelBit carrel)
    .next { s1 with gated := carrel :: s1.gated }

/-- The event CARREL_WAKE: a request of the Curator. -/
def execCarrelWake (carrel : Nat) (s : State) : Result :=
  if s.carrels.contains carrel then .next { s with gated := s.gated.filter (· != carrel) }
  else .refused (.notEnabled "CARREL_WAKE")

/-! Access tables (R394). -/

/-- The event ACCESS_TABLE_CHANGE: a memory controller and an LLC slice check the same ranges, of which an
interface has up to 16. What was stored under the old entry is at
home, and the change is done once the requests checked before are performed (R139). -/
def execAccessTableChange (vi : Nat) (t : Target) (ranges : List AccessRange) (owner : Bool) (s : State) : Result :=
  let t1 := match t with
    | .llc => Target.memory
    | t => t
  if 16 < ranges.length || 1024 ≤ vi then .refused (.notEnabled "ACCESS_TABLE_CHANGE")
  else
    let rest := s.access.filter fun a => !(a.vi = vi && a.target == t1)
    let s1 := if t1 == .memory && s.ctx.made && s.ctx.vi = vi then s.allHome.drains 0 (2 ^ 57) else s
    .next { s1 with access := rest ++ [{ vi := vi, target := t1, ranges := ranges, owner := owner }] }

end Sys2Proof.Machine
end

