-- ==== Sys2Proof/Machine/FloatAlu.lean ====
section
/-! DEFINITION. Floating-point instructions (R287 to R292) and CVT (R293). -/

namespace Sys2Proof.Machine

open Sys2Proof

/-- The rounding code of a sub-op (R287). -/
def rmOf (sub : BitVec 5) : Nat := (sub.extractLsb' 0 3).toNat

/-- A rounding code that a class accepts (R234). -/
def rmOk (c : WordClass) (sub : BitVec 5) : Bool :=
  sub.toNat ≤ 4 && (sub.toNat ≠ 4 || c == .lane)

def fieldsRm (x : RRR) : Bool := typeF x.typ && rmOk (WordClass.ofDest x.hdr.d) x.sub && x.pred == 0
def fieldsF (x : RRR) : Bool := typeF x.typ && x.sub == 0 && x.pred == 0

/-- A source's exact value at a float type. -/
def numOf (ty : BitVec 6) (x : DWord) : ExactNum := decodeNum ty.toNat (x.toNat % 2 ^ typeWidth ty)

/-- A float word with n sources: `f` gives the exact result, rounded once under the word's mode; under
`.sr` each acting lane's LRAND steps as Encode says (R235). -/
def falu (s : State) (x : RRR) (n : Nat) (fieldsOk : Bool) (f : Nat → ExactNum → ExactNum → ExactNum → ExactNum) : Result :=
  let c := WordClass.ofDest x.hdr.d
  let w := typeWidth x.typ
  let rm := rmOf x.sub
  let g := s.gang
  issue s x.hdr c (fieldsOk && dstOk c g false x.hdr.d && rrrSrcsOk x n c g false) [(x.hdr.d, false)]
    (rrrSrcs x n false) fun m =>
      let rd (o : Operand) (l : Nat) : ExactNum := numOf x.typ (readLane s x.typ 0 o l)
      let lane (l : Nat) : Nat × Word :=
        encodeNum x.typ.toNat (f rm (rd x.a l) (rd x.b l) (rd x.c l)) rm (g.lrand.at l)
      let l0 := g.lane0
      let once : Nat × Word :=
        encodeNum x.typ.toNat (f rm (rd x.a l0) (rd x.b l0) (rd x.c l0)) rm 0
      .next ((s.modGang fun g =>
        let g1 := (g.popSources m [x.a, x.b, x.c]).writeDest m x.hdr.d w
          (fun l => BitVec.ofNat 64 (lane l).1) (BitVec.ofNat 64 once.1)
        if rm = rmSr then { g1 with lrand := g1.lrand.merge m fun l => (lane l).2 } else g1).advance x.hdr)

def numSqrt (x : ExactNum) : ExactNum :=
  match x with
  | .nan => .nan
  | .inf neg => if neg then .nan else .inf false
  | .zero neg => .zero neg
  | .fin true _ _ _ => .nan
  | .fin false m e _ => let (r, e', t) := sqrtMag m e; .fin false r e' t

/-- 1 / sqrt x (R288): the root is taken of 1 / x scaled so that both roundings keep a sticky bit. -/
def numRsqrt (x : ExactNum) : ExactNum :=
  match x with
  | .nan => .nan
  | .inf neg => if neg then .nan else .zero false
  | .zero neg => .inf neg
  | .fin true _ _ _ => .nan
  | .fin false m e _ =>
    -- floor (2^k / sqrt (m 2^e)) with e even, as the root of 2^(2k) / (m 2^e)
    let odd := e % 2 ≠ 0
    let m' := if odd then 2 * m else m
    let e' := if odd then e - 1 else e
    let k : Nat := 256
    let q := 2 ^ (2 * k) / m'
    let r := isqrt q
    .fin false r (-(k : Int) - e' / 2) (r * r * m' != 2 ^ (2 * k))

def execFadd (x : RRR) (s : State) : Result := falu s x 2 (fieldsRm x) fun rm a b _ => a.add b rm
def execFsub (x : RRR) (s : State) : Result := falu s x 2 (fieldsRm x) fun rm a b _ => a.add b.neg rm
def execFmul (x : RRR) (s : State) : Result := falu s x 2 (fieldsRm x) fun _ a b _ => a.mul b
def execFma (x : RRR) (s : State) : Result :=
  falu s x 3 (fieldsRm x) fun rm a b c => (a.mul b).add c rm
def execFdiv (x : RRR) (s : State) : Result := falu s x 2 (fieldsRm x) fun _ a b _ => a.div b
def execFsqrt (x : RRR) (s : State) : Result := falu s x 1 (fieldsRm x) fun _ a _ _ => numSqrt a
def execFrcp (x : RRR) (s : State) : Result :=
  falu s x 1 (fieldsRm x) fun _ a _ _ => (ExactNum.fin false 1 0 false).div a
def execFrsq (x : RRR) (s : State) : Result := falu s x 1 (fieldsRm x) fun _ a _ _ => numRsqrt a
def execFexp (x : RRR) (s : State) : Result := falu s x 1 (fieldsF x) fun _ a _ _ => numExp2 a
def execFlog (x : RRR) (s : State) : Result := falu s x 1 (fieldsF x) fun _ a _ _ => numLog2 a
def execFsin (x : RRR) (s : State) : Result := falu s x 1 (fieldsF x) fun _ a _ _ => numSinPi a
def execFcos (x : RRR) (s : State) : Result := falu s x 1 (fieldsF x) fun _ a _ _ => numCosPi a
def execFtanh (x : RRR) (s : State) : Result := falu s x 1 (fieldsF x) fun _ a _ _ => numTanh a
def execFerf (x : RRR) (s : State) : Result := falu s x 1 (fieldsF x) fun _ a _ _ => numErf a

/-- A NaN whose mantissa's top bit is clear (R229). -/
def isSignalling (ty : BitVec 6) (x : DWord) : Bool :=
  match floatFmt ty.toNat with
  | some p => (numOf ty x).isNan && !x.getLsbD (p.mbits - 1)
  | none => false

def defaultNan (ty : BitVec 6) : DWord :=
  match floatFmt ty.toNat with
  | some p => BitVec.ofNat 64 p.nanBits
  | none => 0

/-- FMIN and FMAX on bits (R289). -/
def opFminmax (ty : BitVec 6) (isMax : Bool) (x y : DWord) : DWord :=
  let a := numOf ty x
  let b := numOf ty y
  let low (v : DWord) : DWord := BitVec.ofNat 64 (bitsLow ty v)
  if isSignalling ty x || isSignalling ty y || (a.isNan && b.isNan) then defaultNan ty
  else if a.isNan then low y
  else if b.isNan then low x
  else
    -- a below b, with -0 ordered below +0
    let below := a.lt b || (ExactNum.eq a b && a.isNeg && !b.isNeg)
    if below != isMax then low x else low y
where bitsLow (ty : BitVec 6) (v : DWord) : Nat := v.toNat % 2 ^ typeWidth ty

def execFmin (x : RRR) (s : State) : Result :=
  alu s x 2 (fieldsF x) fun _ a b _ => opFminmax x.typ false a b
def execFmax (x : RRR) (s : State) : Result :=
  alu s x 2 (fieldsF x) fun _ a b _ => opFminmax x.typ true a b

/-- FCMP (R290): writes its predicate as CMP does. -/
def execFcmp (x : RRR) (s : State) : Result :=
  let c := WordClass.ofPred x.pred
  let legal := typeF x.typ && x.sub.toNat ≤ 7 && x.hdr.d == .absent && rrrSrcsOk x 2 c s.gang false
  issue s x.hdr c legal [] (rrrSrcs x 2 false) fun m =>
    let test (a b : DWord) : Bool := numCond x.sub (numOf x.typ a) (numOf x.typ b)
    .next ((s.modGang fun g => (g.popSources m [x.a, x.b]).writeCmp m x.pred
      (fun l => test (readLane s x.typ 0 x.a l) (readLane s x.typ 0 x.b l))
      (test (readGang s x.typ 0 x.a) (readGang s x.typ 0 x.b))).advance x.hdr)

/-- FCLASS's mask (R290). -/
def opFclass (ty : BitVec 6) (x : DWord) : DWord :=
  match floatFmt ty.toNat with
  | none => 0
  | some p =>
    let e := x.toNat / 2 ^ p.mbits % 2 ^ p.ebits
    let bit := match numOf ty x with
      | .nan => if isSignalling ty x then 8 else 9
      | .inf neg => if neg then 0 else 7
      | .zero neg => if neg then 3 else 4
      | .fin neg _ _ _ => if e = 0 then (if neg then 2 else 5) else (if neg then 1 else 6)
    BitVec.ofNat 64 (2 ^ bit)

/-- FCLASS (R290): an integer mask, the destination's other bits zero. -/
def execFclass (x : RRR) (s : State) : Result :=
  alu s x 1 (fieldsF x) fun _ a _ _ => opFclass x.typ a

/-- An exact integral rounding of a finite value in its own format (R292). -/
def roundIntegral (x : ExactNum) (rm : Nat) (lr : Word) : ExactNum × Word :=
  match x with
  | .fin neg mag exp st =>
    let (n, lr') := roundMag mag exp st neg rm lr
    ((if n = 0 then .zero neg else .fin neg n 0 false), lr')
  | y => (y, lr)

/-- FRND (R292). -/
def execFrnd (x : RRR) (s : State) : Result :=
  let c := WordClass.ofDest x.hdr.d
  let w := typeWidth x.typ
  let rm := rmOf x.sub
  let g := s.gang
  issue s x.hdr c (fieldsRm x && dstOk c g false x.hdr.d && rrrSrcsOk x 1 c g false) [(x.hdr.d, false)]
    (rrrSrcs x 1 false) fun m =>
      let out (l : Nat) : Nat × Word :=
        let (y, lr) := roundIntegral (numOf x.typ (readLane s x.typ 0 x.a l)) rm (g.lrand.at l)
        ((encodeNum x.typ.toNat y rmRne 0).1, lr)
      .next ((s.modGang fun g =>
        let g1 := (g.popSources m [x.a]).writeDest m x.hdr.d w (fun l => BitVec.ofNat 64 (out l).1)
          (BitVec.ofNat 64 (out g.lane0).1)
        if rm = rmSr then { g1 with lrand := g1.lrand.merge m fun l => (out l).2 } else g1).advance x.hdr)

/-! CVT (R293). -/

/-- The types CVT takes. -/
def cvtType (ty : BitVec 6) : Bool :=
  fmtAssigned ty.toNat || ty.toNat = 0x18 || ty.toNat = 0x19

/-- Convert bits of format f to bits of format g with an exponent adjustment (R233, R236, R293). -/
def convertBits (f g : Nat) (n : Int) (rm : Nat) (bits : Nat) (lr : Word) : Nat × Word :=
  if fmtComplex f then
    let cf := componentFmt f
    let cg := componentFmt g
    let (r, lr1) := encodeNum cg ((decodeNum cf (bits % 2 ^ fmtWidth cf)).scale n) rm lr
    let (i, lr2) := encodeNum cg ((decodeNum cf (bits / 2 ^ fmtWidth cf % 2 ^ fmtWidth cf)).scale n) rm lr1
    (r + i * 2 ^ fmtWidth cg, lr2)
  else encodeNum g ((decodeNum f (bits % 2 ^ fmtWidth f)).scale n) rm lr

/-- An immediate source of CVT at its source format: the integer's value (R264). -/
def cvtRead (s : State) (x : RI) (l : Nat) : Nat :=
  let w := typeWidth x.typ
  (readLane s x.typ x.imm x.a l).toNat % 2 ^ w

/-- CVT (R293). -/
def execCvt (x : RI) (s : State) : Result :=
  let c := WordClass.ofDest x.hdr.d
  let g := s.gang
  let rm := rmOf x.sub
  let f := x.typ.toNat
  let t := x.typ2.toNat
  let wideIn := wideType x.typ
  let wideOut := wideType x.typ2
  let legal := cvtType x.typ && cvtType x.typ2 && (fmtComplex f == fmtComplex t) && rmOk c x.sub
    && !(x.sub.toNat = 4 && t = 0x09) && x.pred == 0 && x.imm.extractLsb' 8 24 == 0
    && feOk x.fe x.a && (srcOk c g wideIn x.a || x.a == .immField) && dstOk c g wideOut x.hdr.d
  issue s x.hdr c legal [(x.hdr.d, wideOut)] (riSrcs x wideIn) fun m =>
    let n : Int := (x.imm.extractLsb' 0 8 : BitVec 8).toInt
    let out (l : Nat) : Nat × Word := convertBits f t n rm (cvtRead s x l) (g.lrand.at l)
    .next ((s.modGang fun g =>
      let g1 := (g.popSources m [x.a]).writeDest m x.hdr.d (typeWidth x.typ2)
        (fun l => BitVec.ofNat 64 (out l).1) (BitVec.ofNat 64 (out g.lane0).1)
      if rm = rmSr then { g1 with lrand := g1.lrand.merge m fun l => (out l).2 } else g1).advance x.hdr)

end Sys2Proof.Machine
end

