-- ==== Sys2Proof/Machine/Host.lean ====
section
/-! DEFINITION. What reaches the device over Ultra Ethernet (R388, R389): RMA, queue sends, management pages
(R392), attachment (R393), quotes (R391), NVMe. -/

namespace Sys2Proof.Machine

open Sys2Proof

/-- A port performs requests: the partition has booted (R390). -/
def State.serves (s : State) : Bool := s.booted && !s.recovery

/-- The port takes the interface's request: RUD always, ROD and RUDI where the interface has accepted the feature,
UUD never (R388, R393). -/
def State.admits (s : State) (from_ : Sender) (vi : Nat) : Bool :=
  s.serves && match from_.delivery with
    | .rud => true
    | .rod => s.accepts vi 1
    | .rudi => s.accepts vi 2
    | .uud => false

/-! Management pages. -/

/-- Where an interface's page of 8 KiB stands among the physical addresses that a request names (log 23). -/
def pageBase (vi : Nat) : Nat := 2 ^ 48 + vi * 8192

/-- The request reaches the interface's own page alone. -/
def inPage (vi pa n : Nat) : Bool := vi < 1024 && decide (pageBase vi ≤ pa) && decide (pa + n ≤ pageBase vi + 8192)

/-- Byte i of a number. -/
def setNatByte (v i : Nat) (b : Byte) : Nat := v - v / 256 ^ i % 256 * 256 ^ i + b.toNat * 256 ^ i

/-- The driver writes one byte of its page (R392, R393, R398). -/
def Page.put (p : Page) (off : Nat) (b : Byte) : Page :=
  if 32 ≤ off && off < 64 then
    if p.attached then p else { p with wanted := BitVec.ofNat 256 (setNatByte p.wanted.toNat (off - 32) b) }
  else if off = 64 then
    { p with attachReq := b.getLsbD 0, quoteReq := b.getLsbD 2 && p.attached && p.accepted.getLsbD 8 }
  else if off = 72 then { p with command := b, status := 1 }
  else if 74 ≤ off && off < 80 then
    { p with argument := BitVec.ofNat 48 (setNatByte p.argument.toNat (off - 74) b) }
  else if 224 ≤ off && off < 256 then
    { p with nonce := ((p.nonce ++ List.replicate 32 0).take 32).set (off - 224) b }
  else p

def Page.putAll (p : Page) (off : Nat) : List Byte → Page
  | [] => p
  | b :: r => (p.put off b).putAll (off + 1) r

/-- n bytes of a list, padded with zeros. -/
def padded (bs : List Byte) (n : Nat) : List Byte := (bs ++ List.replicate n 0).take n

/-- A page as the driver reads it (R392). -/
def State.pageBytes (s : State) (vi : Nat) : List Byte :=
  let p := s.pageOf vi
  let bit (b : Bool) (i : Nat) : Nat := if b then 2 ^ i else 0
  let status : Nat := if s.recovery then 3 else p.attachStatus.toNat
  let cstat : Nat := ((s.contextsOf vi).head?.map fun x => x.cstat.toNat).getD 0
  natToBytes 32 Config.offered.toNat ++ natToBytes 32 p.wanted.toNat
    ++ natToBytes 8 (bit p.attachReq 0 + bit p.attached 1 + bit p.quoteReq 2 + 256 * status)
    ++ natToBytes 8 (p.command.toNat + 256 * p.status.toNat + 65536 * p.argument.toNat) ++ natToBytes 8 cstat
    ++ List.replicate 40 0 ++ padded p.quote 96 ++ padded p.nonce 32 ++ padded p.signature 5888
    ++ List.replicate 2048 0

/-! RMA (R388, R389, R394). -/

/-- Every byte of the range is granted to the interface. -/
def State.rangeGranted (s : State) (vi pa n : Nat) (read write : Bool) : Bool :=
  decide (pa + n ≤ s.memBytes) && (List.range n).all fun i => s.granted vi (pa + i) read write

/-- The 64 KiB pages of a context's queues: headers and rings (R46, R199). -/
def State.queuePages (s : State) (x : Context) : List Nat :=
  let t : State := { s with ctx := x }
  let pages (va n : Nat) : List Nat :=
    ((List.range ((va % 65536 + n + 65535) / 65536)).filterMap fun i => t.deskPa ((va / 65536 + i) * 65536)).map (· / 65536)
  let of_ (header size : Nat) : List Nat :=
    let r := t.ringAt header
    pages header 64 ++ pages r.base (r.count * size)
  (x.queues.flatMap fun h => of_ h 64) ++ x.copyRings.flatMap fun e => of_ e.2.1.toNat 128

/-- A peer's write to a queue page, without PEERQ (R393). -/
def State.peerRefused (s : State) (from_ : Sender) (vi pa n : Nat) : Bool :=
  from_.peer && !s.accepts vi 5
    && (s.contextsOf vi).any fun x => (pagesOf pa n).any fun p => (s.queuePages x).contains (p / 65536)

/-- A write of the interface, performed at the home slices. The migration round of one of its contexts, running or
saved, logs it (R397). -/
def State.rmaPut (s : State) (vi pa : Nat) (bs : List Byte) : State :=
  let s1 := { s with migr := none }.homeWrite pa bs
  (s.contextsOf vi).foldl (fun s x => s.logFor x.number pa bs.length) { s1 with migr := s.migr }

/-- The event RMA_WRITE: performed at the home slices, or a UE error completion and nothing. -/
def execRmaWrite (from_ : Sender) (vi pa : Nat) (data : List Byte) (s : State) : Result :=
  let n := data.length
  if !s.admits from_ vi then .next s
  else if inPage vi pa n then .next (s.setPageOf vi ((s.pageOf vi).putAll (pa - pageBase vi) data))
  else if s.rangeGranted vi pa n false true && !s.peerRefused from_ vi pa n then .next (s.rmaPut vi pa data)
  else .next s

/-- The event RMA_READ: what is read leaves the device; a read that fails is logged (R146). A partition in
recovery answers reads of management pages (R390). -/
def execRmaRead (from_ : Sender) (vi pa len : Nat) (s : State) : Result :=
  if s.admits from_ vi && !inPage vi pa len && s.rangeGranted vi pa len true false && blockBad s pa len then
    .next (s.logError pa)
  else .next s

/-- The data of an RMA read, none where it is answered with an error. -/
def State.rmaData (s : State) (from_ : Sender) (vi pa len : Nat) : Option (List Byte) :=
  if inPage vi pa len && (s.recovery || s.admits from_ vi) then some (((s.pageBytes vi).drop (pa - pageBase vi)).take len)
  else if s.admits from_ vi && s.rangeGranted vi pa len true false && !blockBad s pa len then some (s.homeRead pa len)
  else none

/-- The event RMA_ATOMIC: 8 bytes, a strong access at the home slice. -/
def execRmaAtomic (from_ : Sender) (vi pa : Nat) (op : RmaOp) (s : State) : Result :=
  if !s.admits from_ vi || pa % 8 ≠ 0 || !s.rangeGranted vi pa 8 true true || s.peerRefused from_ vi pa 8 then .next s
  else if blockBad s pa 8 then .next (s.logError pa)
  else
    let old := BitVec.ofNat 64 (s.homeWord pa 8)
    match op with
    | .fetchAdd v => .next (s.rmaPut vi pa (natToBytes 8 (old + v).toNat))
    | .compareSwap expected new =>
      if old = expected then .next (s.rmaPut vi pa (natToBytes 8 new.toNat)) else .next s

/-! Sends into queue slots (R46, R199, R388). -/

/-- The interface's context whose queue of this kind has its header at a physical address, with the header's
virtual address. -/
def State.queueAt (s : State) (vi : Nat) (kind : QueueKind) (pa : Nat) : Option (Context × Nat) :=
  let headers (x : Context) : List Nat := match kind with
    | .launch => x.queues
    | .copy => x.copyRings.map fun e => e.2.1.toNat
  ((s.contextsOf vi).filterMap fun x =>
    ((headers x).find? fun h => ({ s with ctx := x } : State).deskPa h = some pa).map fun h => (x, h)).head?

/-- A slot is claimed by the write index and filled. -/
def State.fillSlot (s : State) (header size : Nat) (slot : List Byte) : State :=
  let r := s.ringAt header
  (s.deskWrite header (natToBytes 8 (r.write + 1))).deskWrite (r.slot r.write size) slot

/-- The event QUEUE_SEND: a full queue holds the message. -/
def execQueueSend (from_ : Sender) (vi : Nat) (kind : QueueKind) (header : Nat) (slot : List Byte) (s : State) :
    Result :=
  let size := match kind with
    | .launch => 64
    | .copy => 128
  if !s.admits from_ vi || slot.length ≠ size then .next s
  else
    match s.queueAt vi kind header with
    | none => .next s
    | some (x, h) =>
      let t : State := { s with ctx := x }
      let peer := from_.peer && !s.accepts vi 5
      let wing := ((x.copyRings.find? fun e => e.2.1.toNat = h).map (·.1)).getD 0
      let refused := peer || (kind == .copy && !t.owns (.copyQueue wing))
      if refused then
        match kind with
        | .copy => .next (s.within x fun s => s.completionWord (BitVec.ofNat 64 (field slot 64 8)) (BitVec.ofNat 64 (2 ^ 63 + 5)))
        | .launch => .next s
      else if (t.ringAt h).isFull then .refused (.notEnabled "QUEUE_SEND")
      else .next (s.within x fun s => s.fillSlot h size slot)

/-! Attachment (R393) and attestation (R391). -/

/-- The event ATTACH_REQUEST. -/
def execAttachRequest (vi : Nat) (s : State) : Result :=
  let p := s.pageOf vi
  if !s.serves || !p.attachReq || p.attached then .refused (.notEnabled "ATTACH_REQUEST")
  else if p.wanted.toNat / 2 ^ 9 ≠ 0 then .next (s.setPageOf vi { p with attachReq := false, attachStatus := 2 })
  else if p.wanted &&& ~~~Config.offered ≠ 0 then .next (s.setPageOf vi { p with attachReq := false, attachStatus := 1 })
  else .next (s.setPageOf vi { p with attached := true, accepted := p.wanted, attachStatus := 0 })

/-- The bytes of an HSS signature of two levels that its form fixes (R390, R391): the count of signed public keys, and
the types of both signatures and of the signed key. The others are the key's own (log 2). -/
def quoteSignature (message : List Byte) : List Byte :=
  let own (from_ n : Nat) : List Byte := (List.range n).map fun i => Config.signature message (from_ + i)
  let types := bigBytes 4 lmsType ++ bigBytes 4 otsType
  let lms (from_ : Nat) : List Byte :=
    own from_ 4 ++ bigBytes 4 otsType ++ own (from_ + 8) 2176 ++ bigBytes 4 lmsType ++ own (from_ + 2188) 320
  bigBytes 4 1 ++ lms 4 ++ types ++ own 2520 48 ++ lms 2568

/-- The bytes 0 to 95 of a quote; the nonce stands behind them. -/
def State.quoteBytes (s : State) (vi : Nat) : List Byte :=
  natToBytes 8 (vi % 1024 + 4096 * Config.partition.toNat + 65536 * (s.quotes + 1).toNat) ++ natToBytes 8 0
    ++ natToBytes 8 Config.serial.toNat ++ natToBytes 8 Config.rollback.toNat
    ++ natToBytes 32 (s.pageOf vi).accepted.toNat ++ natToBytes 32 s.measurement.toNat

/-- The event QUOTE_REQUEST: the signature is of the quote with the nonce that the driver wrote. -/
def execQuoteRequest (vi : Nat) (s : State) : Result :=
  let p := s.pageOf vi
  if !s.serves || !p.quoteReq then .refused (.notEnabled "QUOTE_REQUEST")
  else
    .next { s.setPageOf vi { p with
      quoteReq := false, quote := s.quoteBytes vi,
      signature := quoteSignature (s.quoteBytes vi ++ padded p.nonce 32) } with
      quotes := s.quotes + 1 }

/-- The event NVME_OVER_FABRICS_COMMAND: the namespace is a device that the manual does not describe (R388). -/
def execNvmeOverFabricsCommand (_vi : Nat) (_command : List Byte) (_s : State) : Result :=
  .refused .nvmeNamespace

end Sys2Proof.Machine
end

