-- ==== Sys2Proof/Machine/IntAlu.lean ====
section
/-! DEFINITION. Integer and address instructions (R279 to R283) and CMP and PLOG (R285, R286). -/

namespace Sys2Proof.Machine

open Sys2Proof

/-! The operations of R280 to R282 on bits: each takes the type and the sources' bits. -/

/-- The exact value of a source at a type (R280). -/
def intOf (ty : BitVec 6) (x : DWord) : Int := extendOp x.toNat (typeWidth ty) (typeSigned ty)

/-- An exact result narrowed: wrapped, or saturated under `.sat` (R280). -/
def narrow (ty : BitVec 6) (sat : Bool) (v : Int) : DWord :=
  let w := typeWidth ty
  BitVec.ofNat 64 (wrapBits (if sat then satInt v w (typeSigned ty) else v) w)

/-- The w low bits of a source as a number. -/
def bitsOf (ty : BitVec 6) (x : DWord) : Nat := x.toNat % 2 ^ typeWidth ty

def opMulh (ty : BitVec 6) (x y : DWord) : DWord :=
  let w := typeWidth ty
  BitVec.ofNat 64 (wrapBits ((intOf ty x * intOf ty y) / ((2 ^ w : Nat) : Int)) w)

/-- R281. -/
def opDiv (ty : BitVec 6) (x y : DWord) : DWord :=
  if intOf ty y = 0 then narrow ty false (-1) else narrow ty false (Int.tdiv (intOf ty x) (intOf ty y))

def opRem (ty : BitVec 6) (x y : DWord) : DWord :=
  if intOf ty y = 0 then narrow ty false (intOf ty x) else narrow ty false (Int.tmod (intOf ty x) (intOf ty y))

/-- ADDMIN: always signed, the sum saturates before the minimum (R280). -/
def opAddmin (ty : BitVec 6) (x y z : DWord) : DWord :=
  let w := typeWidth ty
  let e (v : DWord) : Int := extendOp v.toNat w true
  narrow ty false (min (satInt (e x + e y) w true) (e z))

/-- The shifts of R282. -/
def opShl (ty : BitVec 6) (x n : DWord) : DWord :=
  let w := typeWidth ty
  if bitsOf ty n ≥ w then 0 else BitVec.ofNat 64 (bitsOf ty x * 2 ^ bitsOf ty n % 2 ^ w)

def opShr (ty : BitVec 6) (x n : DWord) : DWord :=
  if bitsOf ty n ≥ typeWidth ty then 0 else BitVec.ofNat 64 (bitsOf ty x / 2 ^ bitsOf ty n)

def opSra (ty : BitVec 6) (x n : DWord) : DWord :=
  let w := typeWidth ty
  BitVec.ofNat 64 (wrapBits (extendOp x.toNat w true / ((2 ^ min (bitsOf ty n) w : Nat) : Int)) w)

def opRot (ty : BitVec 6) (x n : DWord) : DWord :=
  let w := typeWidth ty
  let k := bitsOf ty n % w
  BitVec.ofNat 64 ((bitsOf ty x * 2 ^ k % 2 ^ w) + bitsOf ty x / 2 ^ (w - k))

def opFsh (ty : BitVec 6) (hi lo n : DWord) : DWord :=
  let w := typeWidth ty
  BitVec.ofNat 64 ((bitsOf ty hi * 2 ^ w + bitsOf ty lo) / 2 ^ (bitsOf ty n % w) % 2 ^ w)

def bitAt (x i : Nat) : Bool := x / 2 ^ i % 2 = 1

def opClz (ty : BitVec 6) (x : DWord) : DWord :=
  let w := typeWidth ty
  let v := bitsOf ty x
  BitVec.ofNat 64 (if v = 0 then w else w - 1 - Nat.log2 v)

def opCtz (ty : BitVec 6) (x : DWord) : DWord :=
  let w := typeWidth ty
  BitVec.ofNat 64 (((List.range w).find? fun i => bitAt (bitsOf ty x) i).getD w)

def opPopc (ty : BitVec 6) (x : DWord) : DWord :=
  BitVec.ofNat 64 ((List.range (typeWidth ty)).filter fun i => bitAt (bitsOf ty x) i).length

def opBrev (ty : BitVec 6) (x : DWord) : DWord :=
  let w := typeWidth ty
  BitVec.ofNat 64 ((List.range w).foldl (fun v i => if bitAt (bitsOf ty x) i then v + 2 ^ (w - 1 - i) else v) 0)

/-- BFX and BFI take the place and length of the field from bits 7:0 and 15:8 (R282). -/
def opBfx (ty : BitVec 6) (x field : DWord) : DWord :=
  let w := typeWidth ty
  let p := field.toNat % 256
  let len := field.toNat / 256 % 256
  if len = 0 || p ≥ w then 0
  else
    let k := min (p + len) w - p
    BitVec.ofNat 64 (wrapBits (extendOp (bitsOf ty x / 2 ^ p) k (typeSigned ty)) w)

def opBfi (ty : BitVec 6) (x base field : DWord) : DWord :=
  let w := typeWidth ty
  let p := field.toNat % 256
  let len := field.toNat / 256 % 256
  if len = 0 || p ≥ w then BitVec.ofNat 64 (bitsOf ty base)
  else
    let k := min (p + len) w - p
    let b := bitsOf ty base
    BitVec.ofNat 64 (b % 2 ^ p + (bitsOf ty x % 2 ^ k) * 2 ^ p + b / 2 ^ (p + k) * 2 ^ (p + k))

/-! The field rules of R279. -/

def isSat (sub : BitVec 5) : Bool := sub.getLsbD 0
/-- Sub-op: `.sat` or nothing. -/
def subSat (sub : BitVec 5) : Bool := sub.toNat ≤ 1
/-- Sub-op: LEA's shift in bits 8:6. -/
def subShift (sub : BitVec 5) : Bool := sub.toNat ≤ 7

def fieldsI (x : RRR) : Bool := typeI x.typ && x.sub == 0 && x.pred == 0
def fieldsISat (x : RRR) : Bool := typeI x.typ && subSat x.sub && x.pred == 0
def fieldsSSat (x : RRR) : Bool := typeS x.typ && subSat x.sub && x.pred == 0
def fieldsS (x : RRR) : Bool := typeS x.typ && x.sub == 0 && x.pred == 0
def fieldsIB (x : RRR) : Bool := (typeI x.typ || typeB x.typ) && x.sub == 0 && x.pred == 0
def fieldsLea (x : RRR) : Bool := (typeI x.typ || typeB x.typ) && subShift x.sub && x.pred == 0

def fieldsImmI (x : RI) : Bool := typeI x.typ && x.sub == 0 && x.pred == 0
def fieldsImmISat (x : RI) : Bool := typeI x.typ && subSat x.sub && x.pred == 0
def fieldsImmIB (x : RI) : Bool := (typeI x.typ || typeB x.typ) && x.sub == 0 && x.pred == 0
def fieldsImmLea (x : RI) : Bool := (typeI x.typ || typeB x.typ) && subShift x.sub && x.pred == 0

/-! The meanings. -/

def opAdd (ty : BitVec 6) (sat : Bool) (x y : DWord) : DWord := narrow ty sat (intOf ty x + intOf ty y)
def opSub (ty : BitVec 6) (sat : Bool) (x y : DWord) : DWord := narrow ty sat (intOf ty x - intOf ty y)
def opMul (ty : BitVec 6) (sat : Bool) (x y : DWord) : DWord := narrow ty sat (intOf ty x * intOf ty y)
def opMin (ty : BitVec 6) (x y : DWord) : DWord := narrow ty false (min (intOf ty x) (intOf ty y))
def opMax (ty : BitVec 6) (x y : DWord) : DWord := narrow ty false (max (intOf ty x) (intOf ty y))
def opLea (ty : BitVec 6) (sh : Nat) (x y : DWord) : DWord :=
  narrow ty false (intOf ty x + intOf ty y * ((2 ^ sh : Nat) : Int))

def execAdd (x : RRR) (s : State) : Result :=
  alu s x 2 (fieldsISat x) fun _ a b _ => opAdd x.typ (isSat x.sub) a b
def execAddRI (x : RI) (s : State) : Result :=
  aluImm s x (fieldsImmISat x) fun _ a b => opAdd x.typ (isSat x.sub) a b
def execSub (x : RRR) (s : State) : Result :=
  alu s x 2 (fieldsISat x) fun _ a b _ => opSub x.typ (isSat x.sub) a b
def execSubRI (x : RI) (s : State) : Result :=
  aluImm s x (fieldsImmISat x) fun _ a b => opSub x.typ (isSat x.sub) a b
def execMul (x : RRR) (s : State) : Result :=
  alu s x 2 (fieldsISat x) fun _ a b _ => opMul x.typ (isSat x.sub) a b
def execMulRI (x : RI) (s : State) : Result :=
  aluImm s x (fieldsImmISat x) fun _ a b => opMul x.typ (isSat x.sub) a b
def execMulh (x : RRR) (s : State) : Result := alu s x 2 (fieldsI x) fun _ a b _ => opMulh x.typ a b
def execMad (x : RRR) (s : State) : Result :=
  alu s x 3 (fieldsISat x) fun _ a b c =>
    narrow x.typ (isSat x.sub) (intOf x.typ a * intOf x.typ b + intOf x.typ c)
def execDiv (x : RRR) (s : State) : Result := alu s x 2 (fieldsI x) fun _ a b _ => opDiv x.typ a b
def execRem (x : RRR) (s : State) : Result := alu s x 2 (fieldsI x) fun _ a b _ => opRem x.typ a b
def execNeg (x : RRR) (s : State) : Result :=
  alu s x 1 (fieldsSSat x) fun _ a _ _ => narrow x.typ (isSat x.sub) (-(intOf x.typ a))
def execAbs (x : RRR) (s : State) : Result :=
  alu s x 1 (fieldsSSat x) fun _ a _ _ => narrow x.typ (isSat x.sub) ((intOf x.typ a).natAbs : Int)
def execMin (x : RRR) (s : State) : Result := alu s x 2 (fieldsI x) fun _ a b _ => opMin x.typ a b
def execMinRI (x : RI) (s : State) : Result := aluImm s x (fieldsImmI x) fun _ a b => opMin x.typ a b
def execMax (x : RRR) (s : State) : Result := alu s x 2 (fieldsI x) fun _ a b _ => opMax x.typ a b
def execMaxRI (x : RI) (s : State) : Result := aluImm s x (fieldsImmI x) fun _ a b => opMax x.typ a b
def execAddmin (x : RRR) (s : State) : Result := alu s x 3 (fieldsS x) fun _ a b c => opAddmin x.typ a b c
def execAnd (x : RRR) (s : State) : Result := alu s x 2 (fieldsIB x) fun _ a b _ => a &&& b
def execAndRI (x : RI) (s : State) : Result := aluImm s x (fieldsImmIB x) fun _ a b => a &&& b
def execOr (x : RRR) (s : State) : Result := alu s x 2 (fieldsIB x) fun _ a b _ => a ||| b
def execOrRI (x : RI) (s : State) : Result := aluImm s x (fieldsImmIB x) fun _ a b => a ||| b
def execXor (x : RRR) (s : State) : Result := alu s x 2 (fieldsIB x) fun _ a b _ => a ^^^ b
def execXorRI (x : RI) (s : State) : Result := aluImm s x (fieldsImmIB x) fun _ a b => a ^^^ b
def execNot (x : RRR) (s : State) : Result := alu s x 1 (fieldsIB x) fun _ a _ _ => ~~~a
def execShl (x : RRR) (s : State) : Result := alu s x 2 (fieldsIB x) fun _ a b _ => opShl x.typ a b
def execShr (x : RRR) (s : State) : Result := alu s x 2 (fieldsIB x) fun _ a b _ => opShr x.typ a b
def execSra (x : RRR) (s : State) : Result := alu s x 2 (fieldsIB x) fun _ a b _ => opSra x.typ a b
def execRot (x : RRR) (s : State) : Result := alu s x 2 (fieldsIB x) fun _ a b _ => opRot x.typ a b
def execFsh (x : RRR) (s : State) : Result := alu s x 3 (fieldsIB x) fun _ a b c => opFsh x.typ a b c
def execClz (x : RRR) (s : State) : Result := alu s x 1 (fieldsIB x) fun _ a _ _ => opClz x.typ a
def execCtz (x : RRR) (s : State) : Result := alu s x 1 (fieldsIB x) fun _ a _ _ => opCtz x.typ a
def execPopc (x : RRR) (s : State) : Result := alu s x 1 (fieldsIB x) fun _ a _ _ => opPopc x.typ a
def execBrev (x : RRR) (s : State) : Result := alu s x 1 (fieldsIB x) fun _ a _ _ => opBrev x.typ a
def execBfx (x : RRR) (s : State) : Result := alu s x 2 (fieldsIB x) fun _ a b _ => opBfx x.typ a b
def execBfi (x : RRR) (s : State) : Result := alu s x 3 (fieldsIB x) fun _ a b c => opBfi x.typ a b c
def execLea (x : RRR) (s : State) : Result :=
  alu s x 2 (fieldsLea x) fun _ a b _ => opLea x.typ x.sub.toNat a b
def execLeaRI (x : RI) (s : State) : Result :=
  aluImm s x (fieldsImmLea x) fun _ a b => opLea x.typ x.sub.toNat a b

/-- SEL (R283): a gang-class SEL takes a k predicate. -/
def execSel (x : RRR) (s : State) : Result :=
  let fields := (typeI x.typ || typeB x.typ || x.typ.toNat = 0x01) && x.sub == 0
    && (WordClass.ofDest x.hdr.d == .lane || predIsK x.pred)
  let p := s.gang.predLanes x.pred
  alu s x 2 fields fun l a b _ => if p.getLsbD (l % 32) then a else b

/-- CMP (R285): the predicate code is the destination. -/
def execCmp (x : RRR) (s : State) : Result :=
  let c := WordClass.ofPred x.pred
  let wide := wideType x.typ
  let legal := cmpOk x.typ x.sub && x.hdr.d == .absent && rrrSrcsOk x 2 c s.gang wide
  issue s x.hdr c legal [] (rrrSrcs x 2 wide) fun m =>
    .next ((s.modGang fun g => (g.popSources m [x.a, x.b]).writeCmp m x.pred
      (fun l => cmpBits x.typ x.sub (readLane s x.typ 0 x.a l) (readLane s x.typ 0 x.b l))
      (cmpBits x.typ x.sub (readGang s x.typ 0 x.a) (readGang s x.typ 0 x.b))).advance x.hdr)

def execCmpRI (x : RI) (s : State) : Result :=
  let c := WordClass.ofPred x.pred
  let wide := wideType x.typ
  let legal := cmpOk x.typ x.sub && x.hdr.d == .absent && riSrcsOk x c s.gang wide
  let y := immFieldValue x.typ x.imm
  issue s x.hdr c legal [] (riSrcs x wide) fun m =>
    .next ((s.modGang fun g => (g.popSources m [x.a]).writeCmp m x.pred
      (fun l => cmpBits x.typ x.sub (readLane s x.typ x.imm x.a l) y)
      (cmpBits x.typ x.sub (readGang s x.typ x.imm x.a) y)).advance x.hdr)

/-- PLOG (R286): its own layout of mod bits 14:0. -/
def execPlog (x : RRR) (s : State) : Result :=
  let dst := x.mod.extractLsb' 11 4
  let p := x.mod.extractLsb' 7 4
  let q := x.mod.extractLsb' 3 4
  let fn := x.mod.extractLsb' 0 3
  let c := WordClass.ofPred dst
  let legal := x.rsv == 0 && x.fe == 0 && x.a == .absent && x.b == .absent && x.c == .absent
    && x.hdr.d == .absent && fn.toNat ≤ 5
    && (c == .lane || (predIsK p && (predIsK q || fn.toNat = 5)))
  issue s x.hdr c legal [] (fun _ => []) fun m =>
    let v := plogMask fn (s.gang.predLanes p) (s.gang.predLanes q)
    .next ((s.modGang fun g => g.writePred m dst v).advance x.hdr)

end Sys2Proof.Machine
end

