-- ==== Sys2Proof/Machine/LaneOps.lean ====
section
/-! DEFINITION. The lane operations (R105 to R107, R278, R294 to R298). -/

namespace Sys2Proof.Machine

open Sys2Proof

/-! In a packed gang each lane is alone, as lane 0 of a gang of width 1 (R278). -/

/-- The acting lanes by the numbers that they have for one another. -/
def Gang.crossMask (g : Gang) (m : Mask) : Mask := if g.packed then 1 else m

/-- The lane that lane l knows as number j. -/
def Gang.laneAt (g : Gang) (l j : Nat) : Nat := if g.packed then l else j

/-! VOTE (R294). -/

/-- VOTE's own layout of the mod field: destination code, variant, source code. -/
def voteDst (x : RRR) : BitVec 4 := x.mod.extractLsb' 11 4
def voteVariant (x : RRR) : Nat := (x.mod.extractLsb' 6 5).toNat
def voteSrc (x : RRR) : BitVec 4 := x.mod.extractLsb' 0 4

def popcount (m : Mask) : Nat := m.lanes.length

/-- A w or s destination of a cross-lane operation that yields one value (R13); no s in a packed gang (R278). -/
def oneDstOk (g : Gang) (wide : Bool) (d : Operand) : Bool :=
  match d with
  | .w i => wOk g wide i
  | .s _ => !g.packed
  | _ => false

def execVote (x : RRR) (s : State) : Result :=
  let g := s.gang
  let v := voteVariant x
  let legal := x.rsv == 0 && x.fe == 0 && x.a == .absent && x.b == .absent && x.c == .absent
    && x.mod.extractLsb' 4 2 == 0 && v ≤ 3
    && (if v ≤ 1 then x.hdr.d == .absent && !(g.packed && predIsK (voteDst x)) else voteDst x == 0 && oneDstOk g false x.hdr.d)
  issue s x.hdr .lane legal [(x.hdr.d, false)] (fun _ => []) fun m =>
    let b (l : Nat) : Mask :=
      let v := m &&& g.predLanes (voteSrc x)
      if g.packed then (if v.has l then 1 else 0) else v
    let res (t : Nat → Bool) : Result :=
      .next ((s.modGang fun g => g.writePred m (voteDst x) (Mask.ofFn t)).advance x.hdr)
    let num (n : Nat → DWord) : Result :=
      .next ((s.modGang fun g => g.writeDest m x.hdr.d 32 n (n 0)).advance x.hdr)
    match v with
    | 0 => res fun l => b l != 0
    | 1 => res fun l => b l == g.crossMask m
    | 2 => num fun l => (b l).setWidth 64
    | _ => num fun l => BitVec.ofNat 64 (popcount (b l))

/-! SHFL and LSH (R295). -/

def shiftTypeOk (x : RRR) : Bool := typeB x.typ && x.sub.toNat ≤ 1 && x.pred == 0 && x.rsv == 0

/-- The lane that lane l of a SHFL takes (R295). -/
def shflLane (s : State) (x : RRR) (l : Nat) : Nat :=
  let b := (readLane s 0x1C 0 x.b l).toNat % 2 ^ 32
  if x.sub = 0 then b else Nat.xor (s.gang.laneNo l) b

def execShfl (x : RRR) (s : State) : Result :=
  let g := s.gang
  let wide := wideType x.typ
  let legal := shiftTypeOk x && dstOk .lane g wide x.hdr.d && laneSrcOk g wide x.a
    && laneSrcOk g false x.b && x.c == .absent && feOk (x.fe.getLsbD 2) x.a && feOk (x.fe.getLsbD 1) x.b
    && !x.fe.getLsbD 0
  let from_ (m : Mask) (l : Nat) : Nat :=
    let j := shflLane s x l
    if j < 32 && (g.crossMask m).has j then g.laneAt l j else l
  issue s x.hdr .lane legal [(x.hdr.d, wide)]
    (fun m => [⟨x.b, x.fe.getLsbD 1, 1, false, m⟩,
      ⟨x.a, x.fe.getLsbD 2, 0, wide, Mask.ofFn fun j => m.lanes.any fun l => from_ m l = j⟩])
    fun m =>
      .next ((s.modGang fun g => (g.popSources m [x.a, x.b]).writeDest m x.hdr.d (typeWidth x.typ)
        (fun l => readLane s x.typ 0 x.a (from_ m l)) 0).advance x.hdr)

/-- The shift amount of LSH (R105, R295). -/
def lshAmount (s : State) (x : RRR) : Nat := (readLane s 0x1C 0 x.b 0).toNat % 2 ^ 32

/-- The lane that lane l of a LSH takes, when it takes one. -/
def lshLane (s : State) (x : RRR) (m : Mask) (l : Nat) : Option Nat :=
  let g := s.gang
  let k := lshAmount s x
  let i := g.laneNo l
  let m1 := g.crossMask m
  if x.sub = 0 then (if k ≤ i && m1.has (i - k) then some (g.laneAt l (i - k)) else none)
  else (if i + k < 32 && m1.has (i + k) then some (g.laneAt l (i + k)) else none)

def execLsh (x : RRR) (s : State) : Result :=
  let g := s.gang
  let wide := wideType x.typ
  let legal := shiftTypeOk x && dstOk .lane g wide x.hdr.d && laneSrcOk g wide x.a
    && laneSrcOk g wide x.c
    && (match x.b with
        | .s _ => true
        | .imm v => !v.getLsbD 7
        | _ => false)
    && feOk (x.fe.getLsbD 2) x.a && feOk (x.fe.getLsbD 1) x.b && feOk (x.fe.getLsbD 0) x.c
  issue s x.hdr .lane legal [(x.hdr.d, wide)]
    (fun m => [⟨x.b, x.fe.getLsbD 1, 1, false, m⟩,
      ⟨x.a, x.fe.getLsbD 2, 0, wide, Mask.ofFn fun j => m.lanes.any fun l => lshLane s x m l = some j⟩,
      ⟨x.c, x.fe.getLsbD 0, 2, wide, Mask.ofFn fun l => m.has l && (lshLane s x m l).isNone⟩])
    fun m =>
      .next ((s.modGang fun g => (g.popSources m [x.a, x.c]).writeDest m x.hdr.d (typeWidth x.typ)
        (fun l => match lshLane s x m l with
          | some j => readLane s x.typ 0 x.a j
          | none => readLane s x.typ 0 x.c l) 0).advance x.hdr)

/-! PERM and PTLD (R107, R296). -/

def tableNo (o : Operand) : Option Nat :=
  match o with
  | .imm v => if v.toNat ≤ 15 then some v.toNat else none
  | _ => none

def permFieldsOk (x : RRR) : Bool :=
  x.typ == 0 && x.sub == 0 && x.pred == 0 && x.rsv == 0 && x.c == .absent && !x.fe.getLsbD 0

/-- One entry of a pattern table (R107): mode, register, lane, byte. -/
def entryMode (e : BitVec 16) : Nat := (e.extractLsb' 14 2).toNat
def entryReg (e : BitVec 16) : Nat := (e.extractLsb' 7 2).toNat
def entryLane (e : BitVec 16) : Nat := (e.extractLsb' 2 5).toNat
def entryByte (e : BitVec 16) : Nat := (e.extractLsb' 0 2).toNat

/-- The byte that an entry selects for lane l (R105, R107). -/
def permByte (g : Gang) (i : BitVec 8) (m : Mask) (l : Nat) (e : BitVec 16) : Nat :=
  if entryMode e = 3 || !(g.crossMask m).has (entryLane e) then 0
  else
    let w := (g.wReg (i + BitVec.ofNat 8 (entryReg e))).at (g.laneAt l (entryLane e))
    let b := w.toNat / 256 ^ entryByte e % 256
    match entryMode e with
    | 0 => b
    | 1 => b % 16
    | _ => b / 16

def execPerm (x : RRR) (s : State) : Result :=
  let g := s.gang
  let c := s.carrelOf g.carrel
  let pat : Option Pattern := (tableNo x.b).bind fun t => c.pats[t]?.join
  let first : BitVec 8 := match x.a with
    | .w i => i
    | _ => 0
  let legal := permFieldsOk x && dstOk .lane g false x.hdr.d && quadOk_ g x.a && feOk (x.fe.getLsbD 2) x.a
    && !x.fe.getLsbD 1
    && (match pat with
        | some p => p.tag = g.code && p.entries.toList.all fun e => e.extractLsb' 9 5 == 0
        | none => false)
  let entry (e : Nat) : BitVec 16 := match pat with
    | some p => p.entries.getD e 0xC000
    | none => 0xC000
  let reads (m : Mask) (r : Nat) : Mask := Mask.ofFn fun j =>
    m.has j && m.lanes.any fun l => (List.range 4).any fun k =>
      let e := entry (4 * g.laneNo l + k)
      entryMode e ≠ 3 && entryReg e = r && (g.crossMask m).has (entryLane e) && g.laneAt l (entryLane e) = j
  issue s x.hdr .lane legal [(x.hdr.d, false)]
    (fun m => (List.range 4).map fun r =>
      ⟨.w (first + BitVec.ofNat 8 r), x.fe.getLsbD 2, 0, false, reads m r⟩)
    fun m =>
      .next ((s.modGang fun g => g.writeDest m x.hdr.d 32 (fun l =>
        BitVec.ofNat 64 ((List.range 4).foldl (fun v k =>
          v + permByte g first m l (entry (4 * g.laneNo l + k)) * 256 ^ k) 0)) 0).advance x.hdr)
where
  /-- w(4i) with the three after it within the allocation (R107). -/
  quadOk_ (g : Gang) (o : Operand) : Bool :=
    match o with
    | .w i => i.toNat % 4 = 0 && i.toNat + 3 < g.regs
    | _ => false

/-- PTLD: 256 bytes of the constant section become table t, tagged with the code object (R107). -/
def execPtld (x : RRR) (s : State) : Result :=
  let g := s.gang
  let legal := permFieldsOk x && x.hdr.d == .absent && (tableNo x.a).isSome && !x.fe.getLsbD 2
    && (match x.b with
        | .s _ => true
        | _ => false)
  issue s x.hdr .gang legal [] (fun m => [⟨x.b, x.fe.getLsbD 1, 1, false, m⟩]) fun m =>
    let a := (readGang s 0x1D 0 x.b).toNat
    let sec := s.consts g.code
    if a % 256 ≠ 0 then raiseFault s Code.alignment m m (BitVec.ofNat 64 a)
    else if sec.length < a + 256 then raiseFault s Code.protection m m (BitVec.ofNat 64 a)
    else
      let bs := (sec.drop a).take 256
      let p : Pattern :=
        { tag := g.code,
          entries := Vector.ofFn fun (e : Fin 128) => BitVec.ofNat 16 (bytesToNat ((bs.drop (2 * e)).take 2)) }
      .next ((s.modCarrelOf g.carrel fun c =>
        { c with pats := c.pats.setIfInBounds ((tableNo x.a).getD 0) (some p) }).advance x.hdr)

/-! LRED and LSCAN (R105, R106, R297). -/

def redOp (x : RRR) : Nat := (x.sub.extractLsb' 0 3).toNat

def redTypeOk (x : RRR) : Bool :=
  if redOp x ≤ 2 then typeI x.typ || typeF x.typ else redOp x ≤ 5 && typeB x.typ

/-- What an inactive lane contributes (R105). -/
def redIdentity (ty : BitVec 6) (op : Nat) : DWord :=
  let w := typeWidth ty
  let top : Nat := 2 ^ (w - 1)
  match floatFmt ty.toNat with
  | some p =>
    BitVec.ofNat 64 (match op with
      | 0 => p.signBit true
      | 1 => p.infBits false
      | _ => p.infBits true)
  | none =>
    BitVec.ofNat 64 (match op with
      | 1 => if typeSigned ty then top - 1 else 2 ^ w - 1
      | 2 => if typeSigned ty then top else 0
      | 3 => 2 ^ w - 1
      | _ => 0)

/-- One combination; float sums round RNE (R106). -/
def redStep (ty : BitVec 6) (op : Nat) (x y : DWord) : DWord :=
  if typeFloat ty then
    match op with
    | 0 => BitVec.ofNat 64 (encodeNum ty.toNat ((numOf ty x).add (numOf ty y) rmRne) rmRne 0).1
    | 1 => opFminmax ty false x y
    | _ => opFminmax ty true x y
  else
    match op with
    | 0 => narrow_ ty (extendOp x.toNat (typeWidth ty) (typeSigned ty) + extendOp y.toNat (typeWidth ty) (typeSigned ty))
    | 1 => if lt_ ty y x then y else x
    | 2 => if lt_ ty x y then y else x
    | 3 => x &&& y
    | 4 => x ||| y
    | _ => x ^^^ y
where
  narrow_ (ty : BitVec 6) (v : Int) : DWord := BitVec.ofNat 64 (wrapBits v (typeWidth ty))
  lt_ (ty : BitVec 6) (x y : DWord) : Bool :=
    extendOp x.toNat (typeWidth ty) (typeSigned ty) < extendOp y.toNat (typeWidth ty) (typeSigned ty)

/-- The balanced pairwise tree (R106): n levels. -/
def redTree (ty : BitVec 6) (op : Nat) : Nat → List DWord → DWord
  | 0, vs => vs.headD 0
  | n + 1, vs => redTree ty op n (pairs vs)
where
  pairs : List DWord → List DWord
    | a :: b :: r => redStep ty op a b :: pairs r
    | [a] => [a]
    | [] => []

/-- LRED's NaN rule (R106): all NaN, or a signalling one, give the default NaN. A float sum does so itself. -/
def redNan (ty : BitVec 6) (op : Nat) (vs : List DWord) : Bool :=
  typeFloat ty && op ≠ 0 && !vs.isEmpty
    && (vs.all (fun v => (numOf ty v).isNan) || vs.any (fun v => isSignalling ty v))

/-- LRED's result over the acting lanes. -/
def lredValue (ty : BitVec 6) (op : Nat) (m : Mask) (v : Nat → DWord) : DWord :=
  if redNan ty op (m.lanes.map v) then defaultNan ty
  else redTree ty op 5 ((List.range 32).map fun l => if m.has l then v l else redIdentity ty op)

/-- A NaN result of a float operation is the default NaN (R229), one contribution's alone too. -/
def plainNan (ty : BitVec 6) (v : DWord) : DWord := if typeFloat ty && (numOf ty v).isNan then defaultNan ty else v

/-- LSCAN's prefix over lanes 0 to n - 1: their contributions combined from lane 0 upward, by R289 at a float
minimum or maximum; the identity where there are none (R106, log 13). -/
def lscanValue (ty : BitVec 6) (op : Nat) (m : Mask) (v : Nat → DWord) (n : Nat) : DWord :=
  match (List.range n).map fun l => if m.has l then v l else redIdentity ty op with
  | [] => redIdentity ty op
  | x :: r => plainNan ty (r.foldl (redStep ty op) x)

def redFieldsOk (x : RRR) : Bool :=
  redTypeOk x && !x.sub.getLsbD 4 && x.pred == 0

def execLred (x : RRR) (s : State) : Result :=
  let g := s.gang
  let wide := wideType x.typ
  let legal := redFieldsOk x && !x.sub.getLsbD 3 && oneDstOk g wide x.hdr.d && rrrSrcsOk x 1 .lane g wide
  issue s x.hdr .lane legal [(x.hdr.d, wide && !(WordClass.ofDest x.hdr.d == .gang))] (rrrSrcs x 1 wide) fun m =>
    let v (l : Nat) : DWord := readLane s x.typ 0 x.a l &&& BitVec.ofNat 64 (2 ^ typeWidth x.typ - 1)
    let r (l : Nat) : DWord := lredValue x.typ (redOp x) (g.crossMask m) fun j => v (g.laneAt l j)
    .next ((s.modGang fun g => (g.popSources m [x.a]).writeDest m x.hdr.d (typeWidth x.typ) r (r 0)).advance x.hdr)

def execLscan (x : RRR) (s : State) : Result :=
  let g := s.gang
  let wide := wideType x.typ
  let excl := x.sub.getLsbD 3
  let legal := redFieldsOk x && dstOk .lane g wide x.hdr.d && rrrSrcsOk x 1 .lane g wide
  -- the highest acting lane's value is not read by an exclusive scan
  let read (m : Mask) : Mask :=
    if !excl then m else if g.packed then 0 else m &&& ~~~Mask.lane (m.lanes.getLastD 0)
  issue s x.hdr .lane legal [(x.hdr.d, wide)]
    (fun m => [⟨x.a, x.fe.getLsbD 2, 0, wide, read m⟩]) fun m =>
    let v (l : Nat) : DWord := readLane s x.typ 0 x.a l &&& BitVec.ofNat 64 (2 ^ typeWidth x.typ - 1)
    .next ((s.modGang fun g => (g.popSources m [x.a]).writeDest m x.hdr.d (typeWidth x.typ)
      (fun l => lscanValue x.typ (redOp x) (g.crossMask m) (fun j => v (g.laneAt l j))
        (if excl then g.laneNo l else g.laneNo l + 1)) 0).advance x.hdr)

/-- MATCH (R298). -/
def execMatchLanes (x : RRR) (s : State) : Result :=
  let g := s.gang
  let wide := wideType x.typ
  let legal := typeB x.typ && x.sub == 0 && x.pred == 0 && dstOk .lane g false x.hdr.d
    && rrrSrcsOk x 1 .lane g wide
  issue s x.hdr .lane legal [(x.hdr.d, false)] (rrrSrcs x 1 wide) fun m =>
    let v (l : Nat) : Nat := (readLane s x.typ 0 x.a l).toNat % 2 ^ typeWidth x.typ
    .next ((s.modGang fun g => (g.popSources m [x.a]).writeDest m x.hdr.d 32
      (fun l => if g.packed then 1 else (Mask.ofFn fun j => m.has j && v j = v l).setWidth 64) 0).advance x.hdr)

end Sys2Proof.Machine
end

