-- ==== Sys2Proof/Machine/System.lean ====
section
/-! DEFINITION. Fetching (R259), words with an unassigned opcode (R270), SYSR and SYSW (R372 to R374), TRAP
and TRET (R375), PHINT (R148, R376), BKPT and the Curator's steps (R155, R377). -/

namespace Sys2Proof.Machine

open Sys2Proof

/-! Fetching. -/

/-- The 12 bytes of the word at the current path's PC, with the translations used: the exec bit is needed on
every page (R259). -/
def State.fetchBytes (s : State) : Except ReachErr (List Byte × List (Nat × Translation)) :=
  let a := s.pc.toNat
  let z := a + 11
  let u := Unit_.carrel s.gang.carrel
  let next := z / 65536 * 65536
  match s.reach u a (Need.fetch.of (min 12 (65536 - a % 65536))) with
  | .error e => .error e
  | .ok t =>
    match (if a / 65536 = z / 65536 then .ok t else s.reach u next (Need.fetch.of (z + 1 - next))) with
    | .error e => .error e
    | .ok t2 =>
      let pas := (List.range 12).map fun i =>
        if (a + i) / 65536 = a / 65536 then t.pa (a + i) else t2.pa (a + i)
      match pas.find? fun pa => blockBad s pa 1 with
      | some pa => .error (Code.uncorrectable, pa)
      | none => .ok (pas.map fun pa => s.mem.byte pa, [(a, t), (z, t2)])

/-- The carrel keeps the translations of the fetch (R138). -/
def State.keepFetch (s : State) (ts : List (Nat × Translation)) : State :=
  ts.foldl (fun s e => s.keep (.carrel s.gang.carrel) e.1 e.2) s

/-- The event INSTRUCTION_FETCH_FAULT (R259, R271): the current path's word cannot be fetched. -/
def execInstructionFetchFault (kind : FetchFault) (addr : DWord) (s : State) : Result :=
  let code := match kind with
    | .translation => Code.translation
    | .protection => Code.protection
  match s.fetchBytes with
  | .error e =>
    if addr = s.pc && e.1 = code then raiseFault s code s.xm s.xm addr
    else .refused (.notEnabled "INSTRUCTION_FETCH_FAULT")
  | .ok _ => .refused (.notEnabled "INSTRUCTION_FETCH_FAULT")

/-- A word with an unassigned opcode (R95, R270). -/
def execUnassignedOpcode (raw : IWord) (s : State) : Result :=
  let h := getHeader raw
  match acts s.gang h .lane with
  | .no => .next (s.advance h)
  | .yes m | .illegal m => illegal s m

/-! System registers (R372 to R374). -/

def RI.sysNumber (x : RI) : Nat := (x.imm.extractLsb' 0 16).toNat

/-- SYSR: the register is read 8 cycles after issue. -/
def execSysr (x : RI) (s : State) : Result :=
  let num := RI.sysNumber x
  let legal := x.mod == 0 && x.a == .absent && !x.fe && isS x.hdr.d && x.imm.extractLsb' 16 16 == 0
    && (s.sysValue s.gang.carrel num).isSome && !s.gang.isShadow
  issue s x.hdr .gang legal [(x.hdr.d, false)] (fun _ => []) fun _ =>
    let f : Flight :=
      { dst := x.hdr.d, mask := 0, vals := [], sval := 0, req := .sysr s.gang.carrel num (s.clock + 8), replay := false,
        pc := s.pc, younger := s.gang.younger, cycle := s.cycleOf s.gang.carrel }
    .next ((s.modGang fun g => g.launch f).advance x.hdr)

/-- The fields of a SYSW. -/
def syswOk (s : State) (x : RI) : Bool :=
  x.mod == 0 && isSImm x.a && feOk x.fe x.a && x.hdr.d == .absent && x.imm.extractLsb' 16 16 == 0
    && !s.gang.isShadow

def syswSrcs (x : RI) (m : Mask) : List Src := [⟨x.a, x.fe, 0, false, m⟩]

/-- A SYSR of the register that was issued on the carrel has not been read yet: a write is performed after it
(R374). -/
def State.sysReading (s : State) (num : Nat) : Bool :=
  let mine (g : Gang) : Bool := g.flights.any fun f => match f.req with
    | .sysr c k _ => c == s.gang.carrel && k == num
    | _ => false
  s.ctx.gangs.any (fun e => mine e.2) || s.ctx.parked.any fun e => mine e.2

/-- SYSW to a counter, or to DBGCTL, whose writes are the Curator's (R372). -/
def execSysw (x : RI) (s : State) : Result :=
  let num := RI.sysNumber x
  let counter := 0x0018 ≤ num && num ≤ 0x001B
  issue s x.hdr .gang (syswOk s x && (counter || num = 0x0020)) [] (syswSrcs x) fun m =>
    if num = 0x0020 then protect s m
    else if s.sysReading num then .next s.hold
    else
      let v := readGang s 0x1D 0 x.a
      .next ((s.modCarrelOf s.gang.carrel fun c =>
        { c with pmcnt := c.pmcnt.setIfInBounds (num - 0x0018) v }).advance x.hdr)

/-- What a PMSEL register stores (R373): a listed event code, otherwise 0. -/
def pmselStored (v : DWord) : DWord :=
  let e := v.extractLsb' 0 8
  if e.toNat ≤ 9 then e.setWidth 64 else 0

/-- SYSW to PMSEL0 to PMSEL3 (R373). -/
def execPmselWrite (x : RI) (s : State) : Result :=
  let num := RI.sysNumber x
  issue s x.hdr .gang (syswOk s x && 0x0010 ≤ num && num ≤ 0x0013) [] (syswSrcs x) fun _ =>
    let v := readGang s 0x1D 0 x.a
    if s.sysReading num then .next s.hold
    else .next ((s.modCarrelOf s.gang.carrel fun c =>
      { c with pmsel := c.pmsel.setIfInBounds (num - 0x0010) (pmselStored v) }).advance x.hdr)

/-! User traps (R142, R375). -/

/-- TRAP n: TRAPPC receives the address of the next word. -/
def execTrap (x : RI) (s : State) : Result :=
  let g := s.gang
  let legal := x.mod == 0 && x.a == .absent && !x.fe && x.hdr.d == .absent && x.imm.extractLsb' 16 16 == 0
    && !g.isShadow
  issue s x.hdr .gang legal [] (fun _ => []) fun m =>
    if g.trapv == 0 || g.inHandler then illegal s m
    else takeTrap s.issuedOne Trap.trap (x.imm.extractLsb' 0 16) m m m (s.pc + 12)

def execTret (x : RRR) (s : State) : Result :=
  let legal := rrrPlain x false false && x.a == .absent && x.hdr.d == .absent && !s.gang.isShadow
  issue s x.hdr .gang legal [] (fun _ => []) fun _ => trapReturn s x.hdr

/-! PHINT (R148, R376). -/

/-- A register that the bitmap names is empty. -/
def Gang.namedEmpty (g : Gang) (bm : BitVec 256) : Bool :=
  (List.range 256).any (fun i => bm.getLsbD (i / 2) && g.we.getD i 0 != 0)
    || (g.se &&& bm.extractLsb' 128 64) != 0 || g.tasks.any fun t => (t.he &&& bm.extractLsb' 208 16) != 0

/-- The gang saves the named registers and its task state, of all its tasks, and gives up its slot; it keeps its
place for the restore (R148, R151, R376). -/
def State.saveAtHint (s : State) (bm : BitVec 256) (blocks : DWord) : State :=
  let g := s.gang
  let x := { s.kept bm (s.pc + 12) .none with
    saved := true, stepMode := g.stepMode, stopped := g.stepMode, partner := none,
    report := if g.stepMode then some 0 else none }
  let (n, b) := Table.look s.ctx.phints g.carrel (0, 0)
  let s1 := s.setGang x
  { s1 with ctx := { s1.ctx with phints := Table.put s1.ctx.phints g.carrel (n - 1, b ||| blocks) } }

def execPhint (x : BFmt) (s : State) : Result :=
  let g := s.gang
  let o := x.off.toNat
  issue s x.hdr .gang (bFieldsOk x && x.hdr.d == .absent) [] (fun _ => []) fun m =>
    if s.ctx.grace.isNone || g.isShadow then .next (s.advance x.hdr)
    else
      let sec := s.consts g.code
      let r := (sec.drop o).take 64
      let bm := BitVec.ofNat 256 (field r 0 32)
      if o + 64 ≤ sec.length && (bm &&& bitmapRsv != 0 || field r 40 24 != 0) then illegal s m
      else if o % 64 ≠ 0 then raiseFault s Code.alignment m m (BitVec.ofNat 64 o)
      else if sec.length < o + 64 then raiseFault s Code.protection m m (BitVec.ofNat 64 o)
      else if g.split.isSome || g.partner.isSome then .next (s.advance x.hdr)
      else if g.namedEmpty bm then .next s.holdEmpty
      else .next (s.issuedOne.saveAtHint bm (BitVec.ofNat 64 (field r 32 8))).tick

/-! BKPT and the Curator's control of one gang (R155, R377). -/

def execBkpt (x : RRR) (s : State) : Result :=
  let legal := rrrPlain x false false && (x.a == .absent || isSImm x.a) && x.hdr.d == .absent
  issue s x.hdr .gang legal [] (srcA x) fun _ =>
    let code := if x.a == .absent then 0 else readGang s 0x1D 0 x.a
    if s.ctx.dbgctl.getLsbD 0 then
      let s1 := s.advance x.hdr
      .next (s1.modGang fun g => { g with stopped := true, report := some code })
    else .next (s.advance x.hdr)

/-- The event GANG_RESUME: the Curator lets a stopped gang run on. -/
def execGangResume (n : Nat) (s : State) : Result :=
  match Table.seek s.ctx.gangs n with
  | some g =>
    if g.stopped && s.halt == .running then
      .next (s.setGangOf n { g with stopped := false, stepMode := false, report := none })
    else .refused (.notEnabled "GANG_RESUME")
  | none => .refused (.notEnabled "GANG_RESUME")

/-- The event SINGLE_STEP (R155): the gang is in single-step mode and may issue one instruction, of the path
that the Curator names in FOCUS: none, the older or the younger (log 104). -/
def execSingleStep (n : Nat) (s : State) : Result :=
  match Table.seek s.ctx.gangs n with
  | some g =>
    if g.resident && s.halt == .running then
      .next (s.chosen.setGangOf n
        { g with stopped := false, stepMode := true, report := none, focus := BitVec.ofNat 2 (s.choice % 3) })
    else .refused (.notEnabled "SINGLE_STEP")
  | none => .refused (.notEnabled "SINGLE_STEP")

end Sys2Proof.Machine
end

