-- ==== Sys2Proof/Machine/Dispatch.lean ====
section
/-! DEFINITION. What each instruction and event does: one call of its meaning. -/

namespace Sys2Proof.Machine

open Sys2Proof

def exec (i : Instr) (s : State) : Host.Outcome State Fault Refusal :=
  match i with
  | .add x => Sys2Proof.Machine.execAdd x s
  | .addRI x => Sys2Proof.Machine.execAddRI x s
  | .sub x => Sys2Proof.Machine.execSub x s
  | .subRI x => Sys2Proof.Machine.execSubRI x s
  | .mul x => Sys2Proof.Machine.execMul x s
  | .mulRI x => Sys2Proof.Machine.execMulRI x s
  | .mulh x => Sys2Proof.Machine.execMulh x s
  | .mad x => Sys2Proof.Machine.execMad x s
  | .div x => Sys2Proof.Machine.execDiv x s
  | .rem x => Sys2Proof.Machine.execRem x s
  | .neg x => Sys2Proof.Machine.execNeg x s
  | .abs x => Sys2Proof.Machine.execAbs x s
  | .min x => Sys2Proof.Machine.execMin x s
  | .minRI x => Sys2Proof.Machine.execMinRI x s
  | .max x => Sys2Proof.Machine.execMax x s
  | .maxRI x => Sys2Proof.Machine.execMaxRI x s
  | .addmin x => Sys2Proof.Machine.execAddmin x s
  | .and x => Sys2Proof.Machine.execAnd x s
  | .andRI x => Sys2Proof.Machine.execAndRI x s
  | .or x => Sys2Proof.Machine.execOr x s
  | .orRI x => Sys2Proof.Machine.execOrRI x s
  | .xor x => Sys2Proof.Machine.execXor x s
  | .xorRI x => Sys2Proof.Machine.execXorRI x s
  | .not x => Sys2Proof.Machine.execNot x s
  | .shl x => Sys2Proof.Machine.execShl x s
  | .shr x => Sys2Proof.Machine.execShr x s
  | .sra x => Sys2Proof.Machine.execSra x s
  | .rot x => Sys2Proof.Machine.execRot x s
  | .fsh x => Sys2Proof.Machine.execFsh x s
  | .clz x => Sys2Proof.Machine.execClz x s
  | .ctz x => Sys2Proof.Machine.execCtz x s
  | .popc x => Sys2Proof.Machine.execPopc x s
  | .brev x => Sys2Proof.Machine.execBrev x s
  | .bfx x => Sys2Proof.Machine.execBfx x s
  | .bfi x => Sys2Proof.Machine.execBfi x s
  | .lea x => Sys2Proof.Machine.execLea x s
  | .leaRI x => Sys2Proof.Machine.execLeaRI x s
  | .sel x => Sys2Proof.Machine.execSel x s
  | .cmp x => Sys2Proof.Machine.execCmp x s
  | .cmpRI x => Sys2Proof.Machine.execCmpRI x s
  | .mov x => Sys2Proof.Machine.execMov x s
  | .movi x => Sys2Proof.Machine.execMovi x s
  | .xmWrite x => Sys2Proof.Machine.execXmWrite x s
  | .lrandWrite x => Sys2Proof.Machine.execLrandWrite x s
  | .replaymWrite x => Sys2Proof.Machine.execReplaymWrite x s
  | .registerWrite x => Sys2Proof.Machine.execRegisterWrite x s
  | .fadd x => Sys2Proof.Machine.execFadd x s
  | .fsub x => Sys2Proof.Machine.execFsub x s
  | .fmul x => Sys2Proof.Machine.execFmul x s
  | .fma x => Sys2Proof.Machine.execFma x s
  | .fmin x => Sys2Proof.Machine.execFmin x s
  | .fmax x => Sys2Proof.Machine.execFmax x s
  | .fcmp x => Sys2Proof.Machine.execFcmp x s
  | .fclass x => Sys2Proof.Machine.execFclass x s
  | .fdiv x => Sys2Proof.Machine.execFdiv x s
  | .fsqrt x => Sys2Proof.Machine.execFsqrt x s
  | .frcp x => Sys2Proof.Machine.execFrcp x s
  | .frsq x => Sys2Proof.Machine.execFrsq x s
  | .fexp x => Sys2Proof.Machine.execFexp x s
  | .flog x => Sys2Proof.Machine.execFlog x s
  | .fsin x => Sys2Proof.Machine.execFsin x s
  | .fcos x => Sys2Proof.Machine.execFcos x s
  | .ftanh x => Sys2Proof.Machine.execFtanh x s
  | .ferf x => Sys2Proof.Machine.execFerf x s
  | .frnd x => Sys2Proof.Machine.execFrnd x s
  | .cvt x => Sys2Proof.Machine.execCvt x s
  | .vote x => Sys2Proof.Machine.execVote x s
  | .shfl x => Sys2Proof.Machine.execShfl x s
  | .lsh x => Sys2Proof.Machine.execLsh x s
  | .perm x => Sys2Proof.Machine.execPerm x s
  | .ptld x => Sys2Proof.Machine.execPtld x s
  | .lred x => Sys2Proof.Machine.execLred x s
  | .lscan x => Sys2Proof.Machine.execLscan x s
  | .matchLanes x => Sys2Proof.Machine.execMatchLanes x s
  | .plog x => Sys2Proof.Machine.execPlog x s
  | .bra x => Sys2Proof.Machine.execBra x s
  | .brx x => Sys2Proof.Machine.execBrx x s
  | .call x => Sys2Proof.Machine.execCall x s
  | .ret x => Sys2Proof.Machine.execRet x s
  | .join x => Sys2Proof.Machine.execJoin x s
  | .rwait x => Sys2Proof.Machine.execRwait x s
  | .rwaitBudgetExpiry g => Sys2Proof.Machine.execRwaitBudgetExpiry g s
  | .brk x => Sys2Proof.Machine.execBrk x s
  | .exit x => Sys2Proof.Machine.execExit x s
  | .yield x => Sys2Proof.Machine.execYield x s
  | .nop x => Sys2Proof.Machine.execNop x s
  | .dispatch x => Sys2Proof.Machine.execDispatch x s
  | .spawn x => Sys2Proof.Machine.execSpawn x s
  | .spawng x => Sys2Proof.Machine.execSpawng x s
  | .spawnv x => Sys2Proof.Machine.execSpawnv x s
  | .await x => Sys2Proof.Machine.execAwait x s
  | .awaita x => Sys2Proof.Machine.execAwaita x s
  | .testf x => Sys2Proof.Machine.execTestf x s
  | .cancel x => Sys2Proof.Machine.execCancel x s
  | .retv x => Sys2Proof.Machine.execRetv x s
  | .trecord x => Sys2Proof.Machine.execTrecord x s
  | .shput x => Sys2Proof.Machine.execShput x s
  | .shtake x => Sys2Proof.Machine.execShtake x s
  | .shdepth x => Sys2Proof.Machine.execShdepth x s
  | .shbind x => Sys2Proof.Machine.execShbind x s
  | .shprio x => Sys2Proof.Machine.execShprio x s
  | .modnew x => Sys2Proof.Machine.execModnew x s
  | .modfree x => Sys2Proof.Machine.execModfree x s
  | .modset x => Sys2Proof.Machine.execModset x s
  | .modsetHeldCompare => Sys2Proof.Machine.execModsetHeldCompare s
  | .propagate x => Sys2Proof.Machine.execPropagate x s
  | .propagationBegin t => Sys2Proof.Machine.execPropagationBegin t s
  | .reexecDispatch t f carrel => Sys2Proof.Machine.execReexecDispatch t f carrel s
  | .tdrop x => Sys2Proof.Machine.execTdrop x s
  | .tstat x => Sys2Proof.Machine.execTstat x s
  | .tkey x => Sys2Proof.Machine.execTkey x s
  | .qend x => Sys2Proof.Machine.execQend x s
  | .ld x => Sys2Proof.Machine.execLd x s
  | .st x => Sys2Proof.Machine.execSt x s
  | .ldv x => Sys2Proof.Machine.execLdv x s
  | .stv x => Sys2Proof.Machine.execStv x s
  | .pref x => Sys2Proof.Machine.execPref x s
  | .ldx x => Sys2Proof.Machine.execLdx x s
  | .stx x => Sys2Proof.Machine.execStx x s
  | .atom x => Sys2Proof.Machine.execAtom x s
  | .mwait x => Sys2Proof.Machine.execMwait x s
  | .mwaitTimeout g younger => Sys2Proof.Machine.execMwaitTimeout g younger s
  | .ldlbl x => Sys2Proof.Machine.execLdlbl x s
  | .stlbl x => Sys2Proof.Machine.execStlbl x s
  | .bar x => Sys2Proof.Machine.execBar x s
  | .bara x => Sys2Proof.Machine.execBara x s
  | .barw x => Sys2Proof.Machine.execBarw x s
  | .hashrd x => Sys2Proof.Machine.execHashrd x s
  | .hashclr x => Sys2Proof.Machine.execHashclr x s
  | .tcfg x => Sys2Proof.Machine.execTcfg x s
  | .mma x => Sys2Proof.Machine.execMma x s
  | .mmac x => Sys2Proof.Machine.execMmac x s
  | .aclr x => Sys2Proof.Machine.execAclr x s
  | .ald x => Sys2Proof.Machine.execAld x s
  | .ast x => Sys2Proof.Machine.execAst x s
  | .drain x => Sys2Proof.Machine.execDrain x s
  | .drainAdd x => Sys2Proof.Machine.execDrainAdd x s
  | .xformFwd x => Sys2Proof.Machine.execXformFwd x s
  | .xformInv x => Sys2Proof.Machine.execXformInv x s
  | .copy x => Sys2Proof.Machine.execCopy x s
  | .copyt x => Sys2Proof.Machine.execCopyt x s
  | .copyf x => Sys2Proof.Machine.execCopyf x s
  | .job x => Sys2Proof.Machine.execJob x s
  | .bufexp x => Sys2Proof.Machine.execBufexp x s
  | .bufget x => Sys2Proof.Machine.execBufget x s
  | .bufrel x => Sys2Proof.Machine.execBufrel x s
  | .bufrelAbort x => Sys2Proof.Machine.execBufrelAbort x s
  | .bufst x => Sys2Proof.Machine.execBufst x s
  | .sysr x => Sys2Proof.Machine.execSysr x s
  | .sysw x => Sys2Proof.Machine.execSysw x s
  | .pmselWrite x => Sys2Proof.Machine.execPmselWrite x s
  | .trap x => Sys2Proof.Machine.execTrap x s
  | .tret x => Sys2Proof.Machine.execTret x s
  | .phint x => Sys2Proof.Machine.execPhint x s
  | .bkpt x => Sys2Proof.Machine.execBkpt x s
  | .loadReturn g n => Sys2Proof.Machine.execLoadReturn g n s
  | .launchPacket header => Sys2Proof.Machine.execLaunchPacket header s
  | .launchComplete l => Sys2Proof.Machine.execLaunchComplete l s
  | .taskDispatch carrel quarter slot => Sys2Proof.Machine.execTaskDispatch carrel quarter slot s
  | .continuationResume frame carrel quarter slot => Sys2Proof.Machine.execContinuationResume frame carrel quarter slot s
  | .galleryModeChange gallery fused => Sys2Proof.Machine.execGalleryModeChange gallery fused s
  | .cardTake j => Sys2Proof.Machine.execCardTake j s
  | .copyChunk j => Sys2Proof.Machine.execCopyChunk j s
  | .tensorCopyChunk j => Sys2Proof.Machine.execTensorCopyChunk j s
  | .inflateJob j => Sys2Proof.Machine.execInflateJob j s
  | .drainTileRead carrel => Sys2Proof.Machine.execDrainTileRead carrel s
  | .jobComplete j => Sys2Proof.Machine.execJobComplete j s
  | .crcRetry j => Sys2Proof.Machine.execCrcRetry j s
  | .sequencerStep carrel => Sys2Proof.Machine.execSequencerStep carrel s
  | .xuStep carrel => Sys2Proof.Machine.execXuStep carrel s
  | .haltLine => Sys2Proof.Machine.execHaltLine s
  | .contextResume => Sys2Proof.Machine.execContextResume s
  | .contextTerminate => Sys2Proof.Machine.execContextTerminate s
  | .traceFaultResponse => Sys2Proof.Machine.execTraceFaultResponse s
  | .sliceEnd => Sys2Proof.Machine.execSliceEnd s
  | .graceWindowClose => Sys2Proof.Machine.execGraceWindowClose s
  | .contextRestore ctx => Sys2Proof.Machine.execContextRestore ctx s
  | .singleStep g => Sys2Proof.Machine.execSingleStep g s
  | .relabel t => Sys2Proof.Machine.execRelabel t s
  | .translationInvalidate va size => Sys2Proof.Machine.execTranslationInvalidate va size s
  | .codeObjectLoad o => Sys2Proof.Machine.execCodeObjectLoad o s
  | .packageReset image layout => Sys2Proof.Machine.execPackageReset image layout s
  | .rmaWrite from_ vi pa data => Sys2Proof.Machine.execRmaWrite from_ vi pa data s
  | .rmaRead from_ vi pa len => Sys2Proof.Machine.execRmaRead from_ vi pa len s
  | .rmaAtomic from_ vi pa op => Sys2Proof.Machine.execRmaAtomic from_ vi pa op s
  | .queueSend from_ vi kind header slot => Sys2Proof.Machine.execQueueSend from_ vi kind header slot s
  | .attachRequest vi => Sys2Proof.Machine.execAttachRequest vi s
  | .quoteRequest vi => Sys2Proof.Machine.execQuoteRequest vi s
  | .createContext vi x => Sys2Proof.Machine.execCreateContext vi x s
  | .destroyContext vi => Sys2Proof.Machine.execDestroyContext vi s
  | .createLaunchQueue vi => Sys2Proof.Machine.execCreateLaunchQueue vi s
  | .createShelfEntry vi => Sys2Proof.Machine.execCreateShelfEntry vi s
  | .setQuota vi => Sys2Proof.Machine.execSetQuota vi s
  | .startMigrationRound vi => Sys2Proof.Machine.execStartMigrationRound vi s
  | .finalRound vi => Sys2Proof.Machine.execFinalRound vi s
  | .reportCopyQueue vi => Sys2Proof.Machine.execReportCopyQueue vi s
  | .carrelGate carrel => Sys2Proof.Machine.execCarrelGate carrel s
  | .carrelWake carrel => Sys2Proof.Machine.execCarrelWake carrel s
  | .unassignedOpcode raw => Sys2Proof.Machine.execUnassignedOpcode raw s
  | .instructionFetchFault kind addr => Sys2Proof.Machine.execInstructionFetchFault kind addr s
  | .gangResume g => Sys2Proof.Machine.execGangResume g s
  | .accessTableChange vi t ranges owner => Sys2Proof.Machine.execAccessTableChange vi t ranges owner s
  | .nvmeOverFabricsCommand vi command => Sys2Proof.Machine.execNvmeOverFabricsCommand vi command s

end Sys2Proof.Machine
end

