-- ==== Sys2Proof/Machine/Schedule.lean ====
section
/-! DEFINITION. Which of the steps that are possible comes next (log 3): the agenda, the halt line and the
Curator's answers, what the desk, the engines and the units have to do, then the path that issues (R15, R49, R143,
R155). The clock moves as an instruction issues, or when nothing can happen. -/

namespace Sys2Proof.Machine

open Sys2Proof

/-! The path that issues. -/

/-- What a path waits for lets it issue, or try again. -/
def State.unblocked (s : State) (n : Nat) (younger : Bool) (p : Path) : Bool :=
  match p.wait with
  | .none | .barrier _ => true
  | .mwait _ _ _ _ _ =>
    let ws := s.ctx.watches.filter fun w => w.gang = n && w.younger = younger
    p.reach.any (fun e => !ws.any fun w => w.lane = e.lane) || ws.all fun w => w.met.isSome
  | _ => false

/-- The path stands at the JOIN label or at an RWAIT, or has ended. -/
def Path.waitsForOther (p : Path) : Bool :=
  match p.wait with
  | .atJoin | .exited | .rwait _ _ => true
  | _ => false

/-- The path that a step in single-step mode advances (R155): none where the gang is not stepped. -/
def Gang.stepped (g : Gang) : Option Bool :=
  match g.p1 with
  | some q =>
    if !g.stepMode then none
    else
      let want := decide (g.focus = 2)
      let p := if want then q else g.p0
      some (if p.waitsForOther then !want else want)
  | none => none

/-- The gang's other instructions wait for its AST (R361). -/
def State.storesTile (s : State) (n : Nat) (g : Gang) : Bool :=
  (s.carrelOf g.carrel).seq.any fun o => o.kind == .ast && o.by_.gang = n

/-- The path may take its turn in this cycle. -/
def State.mayIssue (s : State) (n : Nat) (g : Gang) (younger : Bool) (p : Path) : Bool :=
  g.resident && !g.stopped && p.held != some s.clock && s.unblocked n younger p && !s.inPlace g
    && (!g.inHandler || g.handles younger)
    && (g.inHandler || !(g.traps.any fun t => t.younger == younger) || (g.traps.head?.map (·.younger)) == some younger)
    && g.tasks.all (fun t => match t.pend with
        | .none => true
        | .entering _ y _ => y == younger
        | _ => false)
    && (g.stepped.getD younger == younger) && !s.storesTile n g

/-- A path that may issue, with its rank. -/
structure Turn where
  gang    : Nat
  younger : Bool
  rank    : List Nat
deriving DecidableEq, Repr

/-- The last turn of a gang's quarter. -/
def State.quarterTurn (s : State) (g : Gang) : Nat :=
  s.ctx.gangs.foldl (fun m e =>
    if e.2.carrel = g.carrel && e.2.quarter = g.quarter then max m e.2.issued else m) 0

/-- The quarter that had its turn longest ago, the lowest of them first (R254, R257, log 3); in it a gang inside a
run, one that has ceded last, behind those that ceded before, and the gang that became resident first; its older path
first (R15, R49, R52). -/
def State.rank (s : State) (n : Nat) (g : Gang) (younger : Bool) : List Nat :=
  [s.quarterTurn g, g.quarter.toNat, g.carrel, if g.run = 0 then 1 else 0, if g.ceded then 1 else 0,
   if g.ceded then g.cededAt else 0, g.since, n,
   if younger then 1 else 0]

def State.turns (s : State) : List Turn :=
  s.ctx.gangs.flatMap fun e =>
    let turn (y : Bool) : Turn := ⟨e.1, y, s.rank e.1 e.2 y⟩
    (if s.mayIssue e.1 e.2 false e.2.p0 then [turn false] else [])
      ++ (match e.2.p1 with
          | some p => if s.mayIssue e.1 e.2 true p then [turn true] else []
          | none => [])

def lexLess : List Nat → List Nat → Bool
  | [], _ => false
  | _, [] => false
  | a :: x, b :: y => decide (a < b) || (a = b && lexLess x y)

/-- The turn of the lowest rank. -/
def firstTurn : List Turn → Option Turn
  | [] => none
  | t :: r => match firstTurn r with
    | none => some t
    | some u => some (if lexLess u.rank t.rank then u else t)

/-- The gang with the task of its lowest lane in XM in its own fields (R33). -/
def Gang.atLane0 (g : Gang) : Gang := if g.packed && g.xm != 0 then g.task g.xm.lowest else g

/-- The path becomes the current one. -/
def State.select (s : State) (n : Nat) (younger : Bool) : State :=
  ({ s with cur := n } : State).modGang fun g => ({ g with younger := younger, issued := s.clock } : Gang).atLane0

/-- The word that the current path fetched and waits with (R272). -/
def State.latched (s : State) : Option IWord :=
  match s.gang.path.latch with
  | some (a, w) => if a = s.pc then some w else none
  | none => none

/-- The word's fields are fixed at its fetch (R272). -/
def State.latch (s : State) (w : IWord) : State := s.modPath fun p => { p with latch := some (p.pc, w) }

/-- What the run of a word leaves, with its deep regions in the spill area (R99). -/
def spilled (old : List Region) (r : Result) : Result :=
  match r with
  | .next t => .next (t.spill old)
  | r => r

/-- Words that a path executes while an order gate holds a strong access of its gang (R163): they reach no storage,
form no edge and end no task. Of the others the manual orders some behind the access (R174, R340); the model lets
every one of them wait (log 103). -/
def overtakes (i : Instr) : Bool :=
  match i with
  | .add _ | .addRI _ | .sub _ | .subRI _ | .mul _ | .mulRI _ | .mulh _ | .mad _ | .div _ | .rem _ | .neg _
  | .abs _ | .min _ | .minRI _ | .max _ | .maxRI _ | .addmin _ | .and _ | .andRI _ | .or _ | .orRI _ | .xor _
  | .xorRI _ | .not _ | .shl _ | .shr _ | .sra _ | .rot _ | .fsh _ | .clz _ | .ctz _ | .popc _ | .brev _
  | .bfx _ | .bfi _ | .lea _ | .leaRI _ | .sel _ | .cmp _ | .cmpRI _ | .mov _ | .movi _ | .xmWrite _
  | .lrandWrite _ | .registerWrite _ | .fadd _ | .fsub _ | .fmul _ | .fma _ | .fmin _ | .fmax _ | .fcmp _
  | .fclass _ | .fdiv _ | .fsqrt _ | .frcp _ | .frsq _ | .fexp _ | .flog _ | .fsin _ | .fcos _ | .ftanh _
  | .ferf _ | .frnd _ | .cvt _ | .vote _ | .shfl _ | .lsh _ | .perm _ | .ptld _ | .lred _ | .lscan _
  | .matchLanes _ | .plog _ | .bra _ | .brx _ | .call _ | .ret _ | .join _ | .rwait _ | .brk _ | .yield _
  | .nop _ | .dispatch _ | .await _ | .awaita _ | .testf _ | .retv _ | .tkey _ | .tcfg _ | .sysr _ | .sysw _
  | .pmselWrite _ | .trap _ | .tret _ | .bkpt _ | .unassignedOpcode _ | .instructionFetchFault _ _ => true
  | .replaymWrite _ | .rwaitBudgetExpiry _ | .exit _ | .spawn _ | .spawng _ | .spawnv _ | .cancel _
  | .trecord _ | .shput _ | .shtake _ | .shdepth _ | .shbind _ | .shprio _ | .modnew _ | .modfree _ | .modset _
  | .modsetHeldCompare | .propagate _ | .propagationBegin _ | .reexecDispatch _ _ _ | .tdrop _ | .tstat _
  | .qend _ | .ld _ | .st _ | .ldv _ | .stv _ | .pref _ | .ldx _ | .stx _ | .atom _ | .mwait _
  | .mwaitTimeout _ _ | .ldlbl _ | .stlbl _ | .bar _ | .bara _ | .barw _ | .hashrd _ | .hashclr _ | .mma _
  | .mmac _ | .aclr _ | .ald _ | .ast _ | .drain _ | .drainAdd _ | .xformFwd _ | .xformInv _ | .copy _
  | .copyt _ | .copyf _ | .job _ | .bufexp _ | .bufget _ | .bufrel _ | .bufrelAbort _ | .bufst _ | .phint _
  | .loadReturn _ _ | .launchPacket _ | .launchComplete _ | .taskDispatch _ _ _ | .continuationResume _ _ _ _
  | .galleryModeChange _ _ | .cardTake _ | .copyChunk _ | .tensorCopyChunk _ | .inflateJob _ | .drainTileRead _
  | .jobComplete _ | .crcRetry _ | .sequencerStep _ | .xuStep _ | .haltLine | .contextResume
  | .contextTerminate | .traceFaultResponse | .sliceEnd | .graceWindowClose | .contextRestore _
  | .singleStep _ | .relabel _ | .translationInvalidate _ _ | .codeObjectLoad _ | .packageReset _ _
  | .rmaWrite _ _ _ _ | .rmaRead _ _ _ _ | .rmaAtomic _ _ _ _ | .queueSend _ _ _ _ _ | .attachRequest _
  | .quoteRequest _ | .createContext _ _ | .destroyContext _ | .createLaunchQueue _ | .createShelfEntry _
  | .setQuota _ | .startMigrationRound _ | .finalRound _ | .reportCopyQueue _ | .carrelGate _ | .carrelWake _
  | .gangResume _ | .accessTableChange _ _ _ _ | .nvmeOverFabricsCommand _ _ => false

/-- The word waits for an access that an order gate holds. -/
def State.waitsForHeld (s : State) (i : Instr) : Bool := s.gang.holdsAccess && !overtakes i

/-- A word issues, or waits for an access that an order gate holds. -/
def issueWord (run : Instr → State → Result) (i : Instr) (s : State) : Result :=
  if s.waitsForHeld i then .next s.hold else spilled s.gang.path.deep (run i s)

/-- The current path's word issues: a held trap comes first (R143); a word that cannot be fetched faults
(R259). -/
def issueCurrent (run : Instr → State → Result) (s : State) : Result :=
  match s.heldTrap with
  | some r => r
  | none =>
    match s.latched with
    | some w => issueWord run (decodeWord w) s
    | none =>
      match s.fetchBytes with
      | .ok (bs, ts) =>
        issueWord run (decodeWord (wordOfBytes bs)) ((s.keepFetch ts).latch (wordOfBytes bs))
      | .error (k, pa) =>
        if k = Code.translation then run (.instructionFetchFault .translation s.pc) s
        else if k = Code.protection then run (.instructionFetchFault .protection s.pc) s
        else raiseFault (s.logError pa) k s.xm s.xm 0

/-! What else can happen. -/

/-- Results that return now: a system register in its cycle (R374), an access that an order gate lets through (R160),
a load whose gang waits in this cycle, or whose task has parked (R38). -/
def State.returnsDue (s : State) : List Instr :=
  (s.ctx.parked.flatMap fun e => (List.range e.2.flights.length).map fun i => Instr.loadReturn (awayOwner e.1) i) ++
  s.ctx.gangs.flatMap fun e =>
    let waits := e.2.p0.held = some s.clock || e.2.p1.any fun p => p.held = some s.clock
    (List.range e.2.flights.length).filterMap fun i =>
      let req : Option Request := (e.2.flights[i]?).map fun f => f.req
      match req with
      | some (.sysr _ _ due) => if due ≤ s.clock then some (.loadReturn e.1 i) else none
      | some (.strong h) => if h.due ≤ s.clock then some (.loadReturn e.1 i) else none
      | some _ => if waits && i = 0 then some (.loadReturn e.1 0) else none
      | none => none

/-- The other results in flight. -/
def State.returnsLeft (s : State) : List Instr :=
  s.ctx.gangs.flatMap fun e => (List.range e.2.flights.length).map fun i => .loadReturn e.1 i

/-- Budgets that have passed (R21, R102). -/
def State.expiries (s : State) : List Instr :=
  s.ctx.gangs.flatMap fun e =>
    let late (y : Bool) (p : Path) : List Instr := match p.wait with
      | .mwait start (some b) _ _ _ => if start + b < s.clock then [.mwaitTimeout e.1 y] else []
      | .rwait _ d => if d < s.clock then [.rwaitBudgetExpiry e.1] else []
      | _ => []
    late false e.2.p0 ++ (match e.2.p1 with
      | some p => late true p
      | none => [])

/-- What jobs have to do. -/
def jobEvent (j : Nat) (x : Job) : List Instr :=
  match x.state with
  | .queued => [.cardTake j]
  | .running =>
    if x.by_ == .xform || x.fired then []
    else if x.card.kind = 3 then [.inflateJob j]
    else if x.card.kind = 2 || x.card.kind = 4 then [.tensorCopyChunk j]
    else [.copyChunk j]
  | .crcFailed => [.crcRetry j]
  | .finishing => [.jobComplete j]
  | .suspended => []

/-- A claimed slot of a copy queue stands before the desk. -/
def State.cardsWait (s : State) : Bool :=
  s.ctx.copyRings.any fun e => let r := s.copyRing e.1; decide (r.read < r.write)

/-- Engines, arrays and transform units. -/
def State.unitEvents (s : State) : List Instr :=
  s.ctx.jobs.flatMap (fun e => jobEvent e.1 e.2)
    ++ (if s.cardsWait then [.cardTake s.ctx.nextJob] else [])
    ++ s.ctx.carrels.flatMap fun e =>
      (match e.2.seq with
        | [] => []
        | o :: _ => if o.kind == .drainRead then [.drainTileRead e.1] else [.sequencerStep e.1])
        ++ (if e.2.xu.isEmpty then [] else [.xuStep e.1])

/-- The place of a carrel's next entry (R39, R45, R49): its own slot for a gang that parked in place. -/
def State.dispatchOn (s : State) (carrel : Nat) : Option Instr :=
  if !s.serving carrel then none
  else
    match s.nextEntry carrel with
    | none => none
    | some p =>
      let a := p.entry.payload.toNat
      let f := s.frameOf a
      let info := (s.taskInfo f.entryPc).2
      match (if f.state == .ready then none else s.inPlaceOf a) with
      | some n =>
        let g := s.gangOf n
        let q := g.quarter.toNat
        let i := g.slot.toNat
        if midSegment g.pend || info.slice.isNone || (s.shadowSlot carrel q i).isSome then
          some (.continuationResume a carrel q i)
        else none
      | none =>
        (s.placeFor info carrel).map fun e =>
          if f.state == .ready then .taskDispatch carrel e.1 e.2 else .continuationResume a carrel e.1 e.2

/-- Some shelf holds a task. -/
def State.tasksWait (s : State) : Bool := s.ctx.shelves.any fun e => e.2.entries.any fun x => x.isTask

/-- An empty gallery changes its mode for a task that then runs there (R124). -/
def State.modeFor (s : State) (gallery : Nat) : Option Instr :=
  let c := gallery * 4
  let want := !s.fused.contains gallery
  let t : State := { s with fused := if want then gallery :: s.fused else s.fused.filter (· != gallery) }
  if (galleryCarrels gallery).all (fun k => (s.gangsOn k).isEmpty) && (t.dispatchOn c).isSome then
    some (.galleryModeChange gallery want)
  else none

def State.galleries (s : State) : List Nat := (s.carrels.map galleryOf).eraseDups

/-- The desk's next placement of a task. -/
def State.dispatches (s : State) : List Instr :=
  if !s.tasksWait then []
  else
    match s.carrels.findSome? s.dispatchOn with
    | some i => [i]
    | none => (s.galleries.findSome? s.modeFor).toList

/-- What the Archive and the Curator have to do for traces (R28, R64, R72, R73). -/
def State.traceEvents (s : State) : List Instr :=
  (if s.ctx.heldSets.isEmpty then [] else [.modsetHeldCompare])
    ++ s.ctx.traces.flatMap fun e =>
      let t := e.2
      let at_ (f c : Nat) : Option Instr :=
        let fr := s.frameOf (t.folio f).frame
        if s.serving c && s.modeSuits fr c && (s.reexecsOn (wingOf c) < 64 || t.queue.head? = some f)
            && (s.placeFor (s.taskInfo fr.entryPc).2 c).isSome then some (.reexecDispatch e.1 f c)
        else none
      (if t.relabel then [.relabel e.1] else [])
        ++ (if t.props.isEmpty || t.active.isSome then [] else [.propagationBegin e.1])
        ++ (if t.state == .propagating && t.active.isSome && t.cancels.isEmpty then
              ((s.nextStale e.1).bind fun f => s.carrels.findSome? (at_ f)).toList
            else [])

/-- Launches that come (R46). -/
def State.deskEvents (s : State) : List Instr :=
  (s.ctx.queues.filter fun h => let r := s.ringAt h; decide (r.read < r.write)).map fun h => .launchPacket h

/-- Launches that have ended (R47), and the close of the grace window (R148, R149, R154). -/
def State.closings (s : State) : List Instr :=
  s.launchesDue.map (fun e => .launchComplete e.1)
    ++ (match s.ctx.grace with
        | some deadline => if deadline < s.clock then [.graceWindowClose] else []
        | none => [])

/-- Everything that may happen beside an issue, in the order in which it is tried. -/
def State.events (s : State) : List Instr :=
  s.closings ++ s.returnsDue ++ s.expiries ++ s.unitEvents ++ s.traceEvents ++ s.dispatches ++ s.deskEvents

/-- The first of these that can happen. -/
def firstOf (run : Instr → Result) : List Instr → Option Result
  | [] => none
  | i :: r => match run i with
    | .refused (.notEnabled _) => firstOf run r
    | y => some y

/-- The Curator's answer to a halted context: R85's for the trace faults, the end of the context otherwise
(R147). -/
def State.answer85 (s : State) : Instr :=
  if s.traceFault.isSome then .traceFaultResponse else .contextTerminate

/-- A step of the partition that runs. -/
def stepRunning (run : Instr → State → Result) (s : State) : Result :=
  match s.evicted <|> s.unmapped with
  | some t => .next t
  | none =>
    match firstOf (fun i => run i s) s.events with
    | some r => r
    | none =>
      match firstTurn s.turns with
      | some t => issueCurrent run (s.select t.gang t.younger)
      | none =>
        match firstOf (fun i => run i s) s.returnsLeft with
        | some r => r
        | none => .next (s.pass false)

/-- One step, where `run` gives each instruction and event its meaning. A partition in recovery runs nothing
(R390). -/
def stepWith (run : Instr → State → Result) (s : State) : Result :=
  match s.agenda with
  | i :: rest => run i { s with agenda := rest }
  | [] =>
    if s.recovery then .fault .inRecovery
    else
      match s.halt with
      | .asserted => run .haltLine s
      | .stopped => run s.answer85 s
      | .running => stepRunning run s

/-! A word placed where the next step fetches. -/

/-- The carrel has nothing queued on its units. -/
def Carrel.quiet (c : Carrel) : Carrel := { c with seq := [], xu := [] }

/-- The context in which the gang `g` alone can do something. -/
def Context.only (x : Context) (n : Nat) (g : Gang) : Context :=
  { x with
    gangs := [(n, g)], carrels := x.carrels.map fun e => (e.1, e.2.quiet), jobs := [], copyRings := [],
    queues := [], launches := [], traces := [], heldSets := [], watches := x.watches.filter fun w => w.gang != n, unmaps := [], shelves := [], grace := Option.none,
    parked := x.parked.map fun e => (e.1, { e.2 with flights := [] }) }

/-- The gang with its current path alone, ready to issue. -/
def Gang.readied (g : Gang) : Gang :=
  let p : Path := { g.path with
    pc := g.path.pc &&& 0x01FFFFFFFFFFFFFC, wait := .none, held := none, rwSkip := none, done := [],
    latch := none, reread := false, acted := 0, lacks := false, reach := [], began := none }
  { g with
    p0 := p, p1 := none, younger := false, split := none, resident := true, stopped := false, stepMode := false, trapc := g.trapc &&& ~~~0x100, traps := [],
    flights := [] }.mapTasks fun t => { t with pend := .none }

/-- The carrel reaches the page of `va` at the same address within the stacks. -/
def State.mapFetch (s : State) (carrel va : Nat) : State :=
  s.keep (.carrel carrel) va
    { frame := va % s.memBytes / 65536, label := 0, frozen := false, mod := false, exec := true, write := true, read := true }

/-- `s` with a word of 12 bytes where the current gang's current path fetches next. -/
def State.placeWord (s : State) (w : IWord) : State :=
  let g := s.gang.readied
  let a := g.path.pc.toNat
  let pa (i : Nat) : Nat := (a + i) % s.memBytes
  let room (n : Nat) (e : Nat × Cache) : Nat × Cache := (e.1, { e.2 with lines := e.2.lines.take n })
  let s1 : State := { s with
    agenda := [], halt := .running, faults := [], recovery := false, access := [],
    l1s := s.l1s.map (room Config.l1Lines), l2s := s.l2s.map (room Config.l2Lines), ctx := s.ctx.only s.cur g }
  let s2 := (s1.mapFetch g.carrel a).mapFetch g.carrel (a + 11)
  { s2 with
    mem := (List.range 12).foldl (fun m i => m.setByte (pa i) ((encodeBytes w).getD i 0)) s2.mem,
    bad := s2.bad.filter fun b => !((List.range 12).any fun i => pa i / 64 = b) }

end Sys2Proof.Machine
end

