-- ==== Sys2Proof/Machine/Step.lean ====
section
/-! DEFINITION. One step of the machine, and a word placed where it fetches next. -/

namespace Sys2Proof.Machine

open Sys2Proof

/-- One step (log 3). -/
def step (s : State) : Host.Outcome State Fault Refusal := stepWith exec s

/-- `s` with the word `w` where `step` fetches its next instruction (log 24). -/
def State.withFetchWord (s : State) (nbits w : Nat) : State := s.placeWord (BitVec.ofNat 96 (w % 2 ^ nbits))

end Sys2Proof.Machine
end

