-- ==== Sys2Proof/Safety.lean ====
section
/-! DEFINITION. What counts as a safe run, and the words that the statements use: when a word issues with its
effect, what a result is, what stays as it was. -/

namespace Sys2Proof.Machine

open Sys2Proof

/-- The state after n steps, where every one of them answers a next state. -/
def run : Nat → State → Option State
  | 0, s => some s
  | n + 1, s => match step s with
    | .next t => run n t
    | _ => none

/-- No step of a run from `s` faults or is refused. -/
def Safe (s : State) : Prop := ∀ n, (run n s).isSome = true

/-! When a word issues (R14, R92, R95, R270, R271). -/

/-- What the guard decides is that the lanes m act, the page accepts the fields, no destination waits for a
producer, no source is empty. -/
def State.issuesActs (s : State) (h : Header) (a : Acts) (legal : Bool) (dsts : List (Operand × Bool))
    (srcs : Mask → List Src) (m : Mask) : Prop :=
  a = .yes m ∧ h.rsv = false ∧ legal = true
    ∧ (∀ d ∈ dsts, dstEmpty s d.2 m d.1 = false) ∧ (∀ x ∈ srcs m, x.empty s.gang = false)

/-- The word issues with the acting lanes m. -/
def State.issues (s : State) (h : Header) (c : WordClass) (legal : Bool) (dsts : List (Operand × Bool))
    (srcs : Mask → List Src) (m : Mask) : Prop :=
  s.issuesActs h (acts s.gang h c) legal dsts srcs m

/-- A word without registers issues with the acting lanes m. -/
def State.issuesPlain (s : State) (h : Header) (c : WordClass) (legal : Bool) (m : Mask) : Prop :=
  s.issues h c legal [] (fun _ => []) m

/-- An RRR word of n sources issues. -/
def State.issuesRrr (s : State) (x : RRR) (n : Nat) (fields : Bool) (m : Mask) : Prop :=
  let c := WordClass.ofDest x.hdr.d
  let wide := wideType x.typ
  s.issues x.hdr c (fields && dstOk c s.gang wide x.hdr.d && rrrSrcsOk x n c s.gang wide) [(x.hdr.d, wide)]
    (rrrSrcs x n wide) m

/-- An RI word issues. -/
def State.issuesRi (s : State) (x : RI) (fields : Bool) (m : Mask) : Prop :=
  let c := WordClass.ofDest x.hdr.d
  let wide := wideType x.typ
  s.issues x.hdr c (fields && dstOk c s.gang wide x.hdr.d && riSrcsOk x c s.gang wide) [(x.hdr.d, wide)]
    (riSrcs x wide) m

/-! What a result is. -/

/-- The acting lanes of a w register, or of a pair, hold the low w bits of f and are full; the other lanes are as
before (R14, R92, R275). -/
def wroteW (s t : State) (m : Mask) (i : BitVec 8) (w : Nat) (f : Nat → DWord) : Prop :=
  (∀ l < 32, (t.gang.wReg i).at l =
      if m.getLsbD l then (f l).setWidth 32 &&& BitVec.ofNat 32 (2 ^ min w 32 - 1) else (s.gang.wReg i).at l)
    ∧ t.gang.wEmpty i = s.gang.wEmpty i &&& ~~~m
    ∧ (w = 64 → ∀ l < 32, (t.gang.wReg (i + 1)).at l =
        if m.getLsbD l then (f l).extractLsb' 32 32 else (s.gang.wReg (i + 1)).at l)

/-- The destination of a by-destination word: lanes of a w register, or an s register once (R275). -/
def wroteDest (s t : State) (m : Mask) (d : Operand) (w : Nat) (f : Nat → DWord) (v : DWord) : Prop :=
  match d with
  | .w i => wroteW s t m i w f
  | .s i => t.gang.sReg i = v &&& BitVec.ofNat 64 (2 ^ w - 1)
  | _ => True

/-- The predicate that a code names: the acting lanes of a p register, or a k register once; p7 and k7 read true
whatever is written (R89, R90, R263). -/
def wrotePred (s t : State) (m : Mask) (code : BitVec 4) (lane : Nat → Bool) (once : Bool) : Prop :=
  let i := code.extractLsb' 0 3
  if predIsK code then t.gang.kReg i = (decide (i = 7) || once)
  else ∀ l < 32, (t.gang.pReg i).getLsbD l =
    (decide (i = 7) || if m.getLsbD l then lane l else (s.gang.pReg i).getLsbD l)

/-- The instruction is over: one cycle has passed, no halt was asserted, memory is as it was, and where the path has
no open region it goes on at `pc` (R3, R98, R259). -/
def wentOn (s t : State) (pc : DWord) : Prop :=
  t.clock = s.clock + 1 ∧ t.cur = s.cur ∧ t.halt = s.halt ∧ t.faults = s.faults ∧ t.mem = s.mem
    ∧ (s.gang.path.stack = [] → s.gang.split = none → t.pc = pc)

/-! Rows of the arithmetic pages: constructor, number of sources, rule of the fields, operation. -/

structure RrrRow where
  make    : RRR → Instr
  sources : Nat
  fields  : RRR → Bool
  op      : RRR → DWord → DWord → DWord → DWord

structure RiRow where
  make   : RI → Instr
  fields : RI → Bool
  op     : RI → DWord → DWord → DWord

structure FloatRow where
  make    : RRR → Instr
  sources : Nat
  fields  : RRR → Bool
  op      : Nat → ExactNum → ExactNum → ExactNum → ExactNum

/-- The integer and address rows in the RRR format (R279 to R282). -/
def integerRows : List RrrRow :=
  [⟨.add, 2, fieldsISat, fun x a b _ => opAdd x.typ (isSat x.sub) a b⟩,
   ⟨.sub, 2, fieldsISat, fun x a b _ => opSub x.typ (isSat x.sub) a b⟩,
   ⟨.mul, 2, fieldsISat, fun x a b _ => opMul x.typ (isSat x.sub) a b⟩,
   ⟨.mulh, 2, fieldsI, fun x a b _ => opMulh x.typ a b⟩,
   ⟨.mad, 3, fieldsISat, fun x a b c =>
      narrow x.typ (isSat x.sub) (intOf x.typ a * intOf x.typ b + intOf x.typ c)⟩,
   ⟨.div, 2, fieldsI, fun x a b _ => opDiv x.typ a b⟩,
   ⟨.rem, 2, fieldsI, fun x a b _ => opRem x.typ a b⟩,
   ⟨.neg, 1, fieldsSSat, fun x a _ _ => narrow x.typ (isSat x.sub) (-(intOf x.typ a))⟩,
   ⟨.abs, 1, fieldsSSat, fun x a _ _ => narrow x.typ (isSat x.sub) ((intOf x.typ a).natAbs : Int)⟩,
   ⟨.min, 2, fieldsI, fun x a b _ => opMin x.typ a b⟩,
   ⟨.max, 2, fieldsI, fun x a b _ => opMax x.typ a b⟩,
   ⟨.addmin, 3, fieldsS, fun x a b c => opAddmin x.typ a b c⟩]
  ++ [⟨.and, 2, fieldsIB, fun _ a b _ => a &&& b⟩,
   ⟨.or, 2, fieldsIB, fun _ a b _ => a ||| b⟩,
   ⟨.xor, 2, fieldsIB, fun _ a b _ => a ^^^ b⟩,
   ⟨.not, 1, fieldsIB, fun _ a _ _ => ~~~a⟩,
   ⟨.shl, 2, fieldsIB, fun x a b _ => opShl x.typ a b⟩,
   ⟨.shr, 2, fieldsIB, fun x a b _ => opShr x.typ a b⟩,
   ⟨.sra, 2, fieldsIB, fun x a b _ => opSra x.typ a b⟩,
   ⟨.rot, 2, fieldsIB, fun x a b _ => opRot x.typ a b⟩,
   ⟨.fsh, 3, fieldsIB, fun x a b c => opFsh x.typ a b c⟩,
   ⟨.clz, 1, fieldsIB, fun x a _ _ => opClz x.typ a⟩,
   ⟨.ctz, 1, fieldsIB, fun x a _ _ => opCtz x.typ a⟩,
   ⟨.popc, 1, fieldsIB, fun x a _ _ => opPopc x.typ a⟩,
   ⟨.brev, 1, fieldsIB, fun x a _ _ => opBrev x.typ a⟩,
   ⟨.bfx, 2, fieldsIB, fun x a b _ => opBfx x.typ a b⟩,
   ⟨.bfi, 3, fieldsIB, fun x a b c => opBfi x.typ a b c⟩,
   ⟨.lea, 2, fieldsLea, fun x a b _ => opLea x.typ x.sub.toNat a b⟩]

/-- The integer and address rows with an immediate (R264, R269, R279). -/
def immediateRows : List RiRow :=
  [⟨.addRI, fieldsImmISat, fun x a b => opAdd x.typ (isSat x.sub) a b⟩,
   ⟨.subRI, fieldsImmISat, fun x a b => opSub x.typ (isSat x.sub) a b⟩,
   ⟨.mulRI, fieldsImmISat, fun x a b => opMul x.typ (isSat x.sub) a b⟩,
   ⟨.minRI, fieldsImmI, fun x a b => opMin x.typ a b⟩,
   ⟨.maxRI, fieldsImmI, fun x a b => opMax x.typ a b⟩,
   ⟨.andRI, fieldsImmIB, fun _ a b => a &&& b⟩,
   ⟨.orRI, fieldsImmIB, fun _ a b => a ||| b⟩,
   ⟨.xorRI, fieldsImmIB, fun _ a b => a ^^^ b⟩,
   ⟨.leaRI, fieldsImmLea, fun x a b => opLea x.typ x.sub.toNat a b⟩]

/-- The float rows that round one exact result (R287, R288, R291). -/
def floatRows : List FloatRow :=
  [⟨.fadd, 2, fieldsRm, fun rm a b _ => a.add b rm⟩,
   ⟨.fsub, 2, fieldsRm, fun rm a b _ => a.add b.neg rm⟩,
   ⟨.fmul, 2, fieldsRm, fun _ a b _ => a.mul b⟩,
   ⟨.fma, 3, fieldsRm, fun rm a b c => (a.mul b).add c rm⟩,
   ⟨.fdiv, 2, fieldsRm, fun _ a b _ => a.div b⟩,
   ⟨.fsqrt, 1, fieldsRm, fun _ a _ _ => numSqrt a⟩,
   ⟨.frcp, 1, fieldsRm, fun _ a _ _ => (ExactNum.fin false 1 0 false).div a⟩,
   ⟨.frsq, 1, fieldsRm, fun _ a _ _ => numRsqrt a⟩,
   ⟨.fexp, 1, fieldsF, fun _ a _ _ => numExp2 a⟩,
   ⟨.flog, 1, fieldsF, fun _ a _ _ => numLog2 a⟩,
   ⟨.fsin, 1, fieldsF, fun _ a _ _ => numSinPi a⟩,
   ⟨.fcos, 1, fieldsF, fun _ a _ _ => numCosPi a⟩,
   ⟨.ftanh, 1, fieldsF, fun _ a _ _ => numTanh a⟩,
   ⟨.ferf, 1, fieldsF, fun _ a _ _ => numErf a⟩]

/-- FMIN, FMAX and FCLASS, which select or test bits (R289, R290). -/
def floatBitRows : List RrrRow :=
  [⟨.fmin, 2, fieldsF, fun x a b _ => opFminmax x.typ false a b⟩,
   ⟨.fmax, 2, fieldsF, fun x a b _ => opFminmax x.typ true a b⟩,
   ⟨.fclass, 1, fieldsF, fun x a _ _ => opFclass x.typ a⟩]

/-! Words whose fields the pages describe apart. -/

/-- A MOV issues (R284). -/
def State.issuesMov (s : State) (x : RRR) (m : Mask) : Prop :=
  let g := s.gang
  let c := WordClass.ofDest x.hdr.d
  let wide : Bool := x.typ.toNat = 0x1D
  let dst := match x.hdr.d with
    | .w i => wOk g wide i
    | .s _ | .h _ | .q _ => true
    | _ => false
  let lanes (m : Mask) : Mask := if c == .lane then m else Mask.lane g.lane0
  s.issues x.hdr c (movFieldsOk x && dst && movSrcOk g wide x.hdr.d x.a) [(x.hdr.d, wide && c == .lane)]
    (fun m => [⟨x.a, x.fe.getLsbD 2, 0, wide && c == .lane, lanes m⟩]) m

/-- A MOV into a special register other than LRAND issues (R108, R284). -/
def State.issuesSpecial (s : State) (x : RRR) (m : Mask) : Prop :=
  s.issues x.hdr .gang (specialMovOk x) [] (specialSrcs x) m

/-- A SHFL, LSH, LSCAN or MATCH issues where its page lists the lanes that it reads. -/
def State.issuesLane (s : State) (x : RRR) (legal : Bool) (wideDst : Bool) (srcs : Mask → List Src) (m : Mask) : Prop :=
  s.issues x.hdr .lane legal [(x.hdr.d, wideDst)] srcs m

/-- The path has no open region. -/
def State.flat (s : State) : Prop := s.gang.path.stack = [] ∧ s.gang.split = none

/-- The gang is one task, not a packed gang (R33). -/
def State.oneTask (s : State) : Prop := s.gang.packed = false ∧ s.gang.pack = []

/-! What R280 says of an operand and of a result. -/

/-- The signed or unsigned value of the low w bits of a source (R280): the operand of every rule below. -/
def sourceInt (ty : BitVec 6) (x : DWord) : Int :=
  let v : Nat := x.toNat % 2 ^ typeWidth ty
  if typeSigned ty && decide (2 ^ (typeWidth ty - 1) ≤ v) then (v : Int) - 2 ^ typeWidth ty else v

/-- What R280 leaves of an exact result v: its low w bits, or with `.sat` the nearest value of the type. -/
def leaves (ty : BitVec 6) (sat : Bool) (v : Int) (d : DWord) : Prop :=
  let w := typeWidth ty
  let lo : Int := if typeSigned ty then -2 ^ (w - 1) else 0
  let hi : Int := if typeSigned ty then 2 ^ (w - 1) - 1 else 2 ^ w - 1
  let u := if sat then (if v < lo then lo else if hi < v then hi else v) else v
  (d.toNat : Int) = u % 2 ^ w

/-! Tasks. -/

/-- A spawn issues in one task, outside every trace and session: there is a slot for its future and a frame for each
of its n children, and the shelf takes them all without going above its high watermark before. -/
def State.spawnsInto (s : State) (x : GFmt) (sh key n : Nat) : Prop :=
  s.oneTask ∧ s.gang.pend = .none ∧ s.gang.mode = .untraced ∧ replayMode s.gang.replaym = 0
    ∧ s.spawnShelf x = some sh ∧ s.newSlot (wingOf s.gang.carrel) = some key ∧ n ≤ s.ctx.frameRoom
    ∧ (s.shelfOf sh).depth + n ≤ (s.shelfOf sh).cap ∧ (s.shelfOf sh).depth ≤ (s.shelfOf sh).high

/-- A handle is on its way to the h destination (R17, R92, R208): the register is empty, the last result in flight
holds it. -/
def handleComing (t : State) (d : Operand) (v : DWord) : Prop :=
  ∀ i, d = .h i → t.gang.hEmpty i = true
    ∧ ∃ f, t.gang.flights.getLast? = some f ∧ f.dst = d ∧ f.sval = v ∧ f.req = .done ∧ f.replay = false

/-- What a spawn of the children `cs` leaves (R30, R34, R36, R42, R310): a handle comes to the h register, of a future
that counts them, each has a frame that is ready with the parent, the entry and the arguments, and as many entries are on the
shelf. -/
def spawned (s t : State) (x : GFmt) (sh key : Nat) (kind : SpawnKind) (cs : List Child) : Prop :=
  t.clock = s.clock + 1 ∧ t.halt = s.halt ∧ (s.flat → t.pc = s.pc + 12)
    ∧ handleComing t x.hdr.d (handle 1 (s.slotOf key).generation key)
    ∧ (t.slotOf key).used = true ∧ (t.slotOf key).kind = 1 ∧ (t.slotOf key).spawn = kind
    ∧ (t.slotOf key).outstanding = cs.length ∧ (t.slotOf key).complete = cs.isEmpty
    ∧ (t.slotOf key).kids.map (·.index) = cs.map (·.index)
    ∧ (t.shelfOf sh).depth = (s.shelfOf sh).depth + cs.length
    ∧ t.gang.sites = s.gang.sites + 1
    ∧ ∀ (j : Nat) (c : Child), cs[j]? = some c → ∃ k, (t.slotOf key).kids[j]? = some k ∧ k.ended = false
        ∧ (let f := t.frameOf k.frame
           f.parent = s.gang.frame ∧ f.entryPc = s.pc + 12 * x.entry.signExtend 64 ∧ f.state = .ready
             ∧ f.width = x.width.toNat ∧ f.region = x.place ∧ f.args = argBytes c.words
             ∧ f.ordinal = BitVec.ofNat 32 (s.gang.sites * 4096 + c.index))

/-- A long-latency s result is on its way: the register is empty, the last result in flight holds v (R17). -/
def launchedS (t : State) (d : Operand) (v : DWord) : Prop :=
  (∀ i, d = .s i → t.gang.sEmpty i = true)
    ∧ ∃ f, t.gang.flights.getLast? = some f ∧ f.dst = d ∧ f.sval = v ∧ f.req = .done ∧ f.replay = false

/-- What the arrival of a result in the lanes m leaves of a gang's registers (R17, R92, R93): a w destination takes the
words of `vals` and is full there, an s or h one takes v and is full. -/
def resultIn (g g' : Gang) (d : Operand) (m : Mask) (vals : List Lanes) (v : DWord) : Prop :=
  (∀ i, d = .w i → i.toNat + vals.length ≤ 256 → ∀ k < vals.length,
      g'.wEmpty (i + BitVec.ofNat 8 k) = g.wEmpty (i + BitVec.ofNat 8 k) &&& ~~~m
      ∧ ∀ l < 32, (g'.wReg (i + BitVec.ofNat 8 k)).at l =
          if m.getLsbD l then (vals.getD k (Lanes.all 0)).at l else (g.wReg (i + BitVec.ofNat 8 k)).at l)
    ∧ (∀ i, d = .s i → g'.sReg i = v ∧ g'.sEmpty i = false)
    ∧ (∀ i, d = .h i → g.packed = false ∨ m.lowest = g.front → g'.hReg i = v ∧ g'.hEmpty i = false)

/-- The byte that a run of writes leaves at an address: the last one written there, or what was there. -/
def lastWritten (ws : List (Nat × Byte)) (a : Nat) (before : Byte) : Byte :=
  ((ws.reverse.find? fun e => e.1 = a).map (·.2)).getD before

/-! Accesses. -/

/-- The checks of every lane of an M word pass, with these accesses (R334, R271). -/
def State.passes (s : State) (x : MFmt) (spc : Space) (n : Nat) (need : Need) (m : Mask) (accs : List LaneAcc) : Prop :=
  (resolveAll m fun l => resolveLane s spc n need true l (mAddr s.gang x spc l)) = .ok accs

/-- The bytes that the lanes store, in lane order. -/
def State.stores (s : State) (x : MFmt) (n : Nat) (accs : List LaneAcc) : List (Nat × Byte) :=
  accs.flatMap fun a => accWrites a (storeData s x.data n a.lane)

/-- An LD or LDV of n bytes a lane has issued (R17, R335): the result in flight, to a w register or to a shadow's
FIFO, holds what each lane's bytes were before the word, and a w destination is empty in the acting lanes. -/
def loaded (s t : State) (x : MFmt) (spc : Space) (n : Nat) (m : Mask) (accs : List LaneAcc) : Prop :=
  wentOn s t (s.pc + 12)
    ∧ (∀ i, x.hdr.d = .w i → ∀ k < (n + 3) / 4, t.gang.wEmpty (i + BitVec.ofNat 8 k) &&& m = m)
    ∧ ∃ f, t.gang.flights.getLast? = some f ∧ f.dst = x.hdr.d ∧ f.mask = m ∧ f.replay = false
        ∧ f.vals.length = (n + 3) / 4
        ∧ ∀ a ∈ accs, ∀ k < (n + 3) / 4,
            (f.vals.getD k (Lanes.all 0)).at a.lane = loadWords (s.readAcc spc a) x.ext k

/-- An ST or STV of n bytes a lane has issued (R335): of the space, exactly the stored bytes change, the highest
lane's value staying where lanes meet, each lane's `fr` being its own task's frame; the store hash of a task folds
what its lanes store, except in `fr` (R178). -/
def stored (s t : State) (x : MFmt) (spc : Space) (n : Nat) (accs : List LaneAcc) : Prop :=
  let ws := s.stores x n accs
  let c := s.gang.carrel
  wentOn s t (s.pc + 12)
    ∧ (∀ a, t.viewByte c a = if spc = .gm ∨ spc = .cl then lastWritten ws a (s.viewByte c a) else s.viewByte c a)
    ∧ (∀ a, (t.carrelOf c).sp.byte a = if spc = .sp then lastWritten ws a ((s.carrelOf c).sp.byte a)
        else (s.carrelOf c).sp.byte a)
    ∧ (∀ fr, ∀ i < 128, (t.frameOf fr).args.getD i 0 =
        if spc = .fr then
          lastWritten (s.stores x n (accs.filter fun a => (s.gang.task a.lane).frame = fr)) (64 + i)
            ((s.frameOf fr).args.getD i 0)
        else (s.frameOf fr).args.getD i 0)
    ∧ (s.oneTask → t.gang.hash = if spc = .fr then s.gang.hash
        else accs.foldl (fun h a => foldLane h (spc == .sp) (accVirtual a (storeData s x.data n a.lane))) s.gang.hash)

/-- The checks of every lane of a strong instruction pass (R339). -/
def State.strongPasses (s : State) (x : MSFmt) (need : Need) (m : Mask) (accs : List LaneAcc) : Prop :=
  (resolveAll m fun l =>
      match resolveLane s .gm (msWidth x.width) { need with read := false } true l (msAddr s.gang x l) with
      | .error e => .error e
      | .ok a => if a.trans.all (fun t => s.pageOk t.2 t.1 (need.of (msWidth x.width))) then .ok a
                 else .error (laneErr Code.protection (msAddr s.gang x l))) = .ok accs

/-- The state in which the first lane performs: after the write-back of `pub` (R340). -/
def State.strongStart (s : State) (x : MSFmt) (accs : List LaneAcc) : State :=
  if x.pub then (s.keepAll accs).release s.gang.carrel levelPackage else s.keepAll accs

/-- A strong instruction whose lanes leave u has issued (R340): it goes on at the next word with an empty
completion log; where it reads, the result in flight is what each lane's word held. -/
def strongDone (s u t : State) (x : MSFmt) (m : Mask) (reads : Bool) : Prop :=
  t.clock = s.clock + 1 ∧ t.mem = u.mem ∧ (s.flat → t.pc = s.pc + 12 ∧ t.gang.path.done = [])
    ∧ (reads = true → ∃ f, t.gang.flights.getLast? = some f ∧ f.dst = x.hdr.d ∧ f.mask = m ∧ f.req = .done
        ∧ ∀ e ∈ u.gang.path.done, u.gang.path.done.find? (fun y => y.1 = e.1) = some e → e.1 < 32 →
            ∀ k < msWidth x.width / 4, (f.vals.getD k (Lanes.all 0)).at e.1 = e.2.extractLsb' (32 * k) 32)

/-- The lanes of a strong read that u has not performed are a request of the gang from cycle `due` on; those performed
are on their way back, and the path goes on (R163, R340). -/
def requested (s u t : State) (x : MSFmt) (m : Mask) (accs : List LaneAcc) (due : Nat) : Prop :=
  let done := u.gang.path.done
  (s.flat → t.pc = s.pc + 12 ∧ t.gang.path.done = [])
    ∧ (∃ f ∈ t.gang.flights, ∃ h, f.req = .strong h ∧ f.dst = x.hdr.d ∧ f.mask = m &&& ~~~(doneMask done)
        ∧ h.done = done ∧ h.due = due ∧ h.lanes.map (·.lane) = accs.map (·.lane))
    ∧ (doneMask done ≠ 0 → ∃ f ∈ t.gang.flights, f.req = .done ∧ f.dst = x.hdr.d ∧ f.mask = doneMask done
        ∧ f.vals = doneLanes (msWidth x.width / 4) done)

/-- The word has entered the sequencer of its carrel with the registers it takes there (R240, R254, R255). -/
def entered (s t : State) (kind : TileOpKind) (tile : BitVec 2) (dA dB : DWord) (control : BitVec 31) : Prop :=
  wentOn s t (s.pc + 12)
    ∧ ∃ y, (t.carrelOf s.gang.carrel).seq = (s.carrelOf s.gang.carrel).seq ++ [y] ∧ y.kind = kind ∧ y.tile = tile
        ∧ y.dA = dA ∧ y.dB = dB ∧ y.control = control ∧ y.step = 0 ∧ y.tcfg = s.gang.tcfg
        ∧ y.maskm = min s.gang.maskm.toNat 128 ∧ y.maskn = min s.gang.maskn.toNat 128

/-- A card has been submitted (R198, R367): a handle of its new engine future comes to the h register. -/
def cardQueued (s t : State) (d : Operand) (by_ : Submitter) (card : Card) (key : Nat) : Prop :=
  t.clock = s.clock + 1 ∧ t.halt = s.halt ∧ (s.flat → t.pc = s.pc + 12)
    ∧ handleComing t d (handle 2 (s.slotOf key).generation key)
    ∧ (t.slotOf key).used = true ∧ (t.slotOf key).kind = 2 ∧ (t.slotOf key).outstanding = 1
    ∧ (t.slotOf key).complete = false
    ∧ t.ctx.nextJob = s.ctx.nextJob + 1
    ∧ (let j := t.jobOf s.ctx.nextJob
       j.card = card ∧ j.by_ = by_ ∧ j.future = some key ∧ j.state = .queued ∧ j.wing = wingOf s.gang.carrel)

/-- A card can be submitted by one task: a slot of the wing's copy queue and of its future table is free, the queue is the
interface's, the task is in no trace. -/
def State.submits (s : State) (key : Nat) : Prop :=
  (s.copyRing (wingOf s.gang.carrel)).isFull = false ∧ s.newSlot (wingOf s.gang.carrel) = some key
    ∧ s.oneTask ∧ s.traced s.gang = false ∧ s.owns (.copyQueue (wingOf s.gang.carrel)) = true

/-- A context fault has been raised and nothing else has happened (R144): the unit's report is the last, the halt
line is asserted. -/
def faulted (s t : State) (f : FaultInfo) : Prop := t = { s with faults := s.faults ++ [f], halt := .asserted }

/-- A mailbox command has ended with a status and without any other effect (R398). -/
def ended (s t : State) (vi : Nat) (status : Byte) : Prop :=
  t = { s with pages := Table.put s.pages vi { s.pageOf vi with status := status } }

/-- No path of a gang, or of a task that is away, stands at a MODSET or MWAIT. -/
def Context.noneStand (x : Context) : Prop :=
  (∀ e ∈ x.gangs, e.2.stands = false) ∧ ∀ e ∈ x.parked, e.2.stands = false

/-- Cell (row r, column c) of a tile (R238). -/
def Carrel.cell (x : Carrel) (tile : BitVec 2) (r c : Nat) : Word :=
  ((x.tile tile).toList.getD r (Vector.replicate 128 0)).toList.getD c 0

/-- What the step of a tile instruction leaves in cell (r, c), which held w (R244, R248, R360, R361). -/
def stepCell (x : TileOp) (r c : Nat) (w : Word) : Word :=
  let a := descOf x.dA
  let b := descOf x.dB
  let (f, n) := slotWindow x.tcfg a
  match x.kind with
  | .aclr => 0
  | .ald => if r < a.rows ∧ c < a.cols then BitVec.ofNat 32 (rowElement (x.rowsA.getD r []) a.fmt c) else w
  | .mma => if r < min a.rows x.maskm ∧ c < min b.cols x.maskn then mmaCell a b x.control x.rowsA x.rowsB x.step r c w else w
  | .mmac =>
    let row := if x.tcfg.getLsbD 18 then 64 else 0
    let o := c / 2 / n
    if row ≤ r ∧ r < row + min a.rows x.maskm ∧ o < min b.blocks x.maskn ∧ c / 2 % n = x.step
    then mmacCell a b x.rowsA x.rowsB (r - row) o (f + x.step) (c % 2 = 1) w else w
  | .ast | .drainRead => w

/-! What stays. -/

/-- A word that writes registers only (R14, R89, R90): of the machine only the current gang and counters change,
of the gang only the destination, the FIFOs that sources name, LRAND, the paths, what the hints set and a report to
the Curator; a carrel may have slept (R399); an FE-EMPTY trap writes TRAPC and TRAPPC and no other register. `wide` says that a w destination is a pair, `pred` is the
predicate that the word writes. -/
def registersOnly (s t : State) (d : Operand) (wide : Bool) (pred : Option (BitVec 4)) (srcs : List Operand) : Prop :=
  let g := s.gang
  let g' := t.gang
  t = { s with clock := t.clock, asleep := t.asleep, halt := t.halt, faults := t.faults,
               ctx := { s.ctx with gangs := t.ctx.gangs, carrels := t.ctx.carrels } }
    ∧ (∀ n, n ≠ s.cur → t.gangOf n = s.gangOf n)
    ∧ (∀ c, t.carrelOf c = { s.carrelOf c with pmcnt := (t.carrelOf c).pmcnt })
    ∧ g' = { g with
        p0 := g'.p0, p1 := g'.p1, younger := g'.younger, split := g'.split, focus := g'.focus, run := g'.run,
        ceded := g'.ceded, cededAt := g'.cededAt, stopped := g'.stopped, w := g'.w, we := g'.we, wo := g'.wo, s := g'.s, p := g'.p,
        k := g'.k, h := g'.h, q := g'.q, lrand := g'.lrand, trapc := g'.trapc, trappc := g'.trappc,
        trapSplit := g'.trapSplit, report := g'.report }
    ∧ (∀ i : BitVec 8, d ≠ .w i → (wide = true → d ≠ .w (i - 1)) →
        g'.wReg i = g.wReg i ∧ g'.wEmpty i = g.wEmpty i)
    ∧ (∀ i : BitVec 6, d ≠ .s i → g'.sReg i = g.sReg i)
    ∧ (∀ i : BitVec 4, d ≠ .h i → g'.hReg i = g.hReg i)
    ∧ (∀ i : BitVec 3, (∀ c, pred = some c → predIsK c = true ∨ c.extractLsb' 0 3 ≠ i) → g'.pReg i = g.pReg i)
    ∧ (∀ i : BitVec 3, (∀ c, pred = some c → predIsK c = false ∨ c.extractLsb' 0 3 ≠ i) → g'.kReg i = g.kReg i)
    ∧ (∀ i : BitVec 4, Operand.q i ∉ srcs → g'.q[i.toNat] = g.q[i.toNat])
    ∧ ((g'.trapc = g.trapc ∧ g'.trappc = g.trappc ∧ (g'.trapSplit = g.trapSplit ∨ g'.trapSplit = false))
        ∨ (g'.trapc.extractLsb' 0 8 = Trap.feEmpty ∧ g'.trappc = s.pc ∧ g'.w = g.w ∧ g'.s = g.s ∧ g'.h = g.h
            ∧ g'.p = g.p ∧ g'.k = g.k ∧ g'.q = g.q ∧ g'.lrand = g.lrand))

/-- The current gang of t has the registers and special registers of that of s; its paths, its store hash, its
results in flight and empty bits, and what hints, a trap and a step's stop set, may differ, and a trace that its records fill may
have been abandoned (R60), with tasks that wait to enter a shelf. -/
def registersKept (s t : State) : Prop :=
  let g := s.gang
  let g' := t.gang
  g' = { g with
    p0 := g'.p0, p1 := g'.p1, younger := g'.younger, split := g'.split, focus := g'.focus, run := g'.run,
    ceded := g'.ceded, cededAt := g'.cededAt, stopped := g'.stopped, we := g'.we, wo := g'.wo, q := g'.q, flights := g'.flights,
    hash := g'.hash, trapc := g'.trapc, trappc := g'.trappc, trapSplit := g'.trapSplit, report := g'.report,
    mode := g'.mode, folio := g'.folio, puts := g'.puts }

/-- The arithmetic words of the RRR format. -/
def arithmeticWords : List (RRR → Instr) :=
  [.add, .sub, .mul, .mulh, .mad, .div, .rem, .neg, .abs, .min, .max, .addmin, .and, .or, .xor, .not, .shl, .shr,
   .sra, .rot, .fsh, .clz, .ctz, .popc, .brev, .bfx, .bfi, .lea]

/-- The words of the RRR format that select, move, compare and compute in floating point. -/
def selectWords : List (RRR → Instr) :=
  [.sel, .mov, .cmp, .fcmp, .plog, .fadd, .fsub, .fmul, .fma, .fdiv, .fsqrt, .frcp, .frsq, .fexp, .flog, .fsin,
      .fcos, .ftanh, .ferf, .frnd, .fmin, .fmax, .fclass]

/-- The lane, control, task, shelf and trace words of the RRR format. -/
def controlWords : List (RRR → Instr) :=
  [.vote, .shfl, .lsh, .lred, .lscan, .matchLanes, .ptld, .perm, .brx, .ret, .nop, .yield, .exit, .rwait, .brk,
      .retv, .testf, .cancel, .shput, .shtake, .shdepth, .shbind, .shprio, .modnew, .modfree, .propagate, .tstat,
      .tdrop, .tkey, .qend, .bara, .barw]

/-- The engine and system words of the RRR format. -/
def systemWords : List (RRR → Instr) :=
  [.hashrd, .hashclr, .tcfg, .bufexp, .bufget, .bufrel, .bufrelAbort, .bufst, .tret, .bkpt]

/-- The words of the RRR format that a guard turns into a no-op. -/
def guardedWords : List (RRR → Instr) := arithmeticWords ++ selectWords ++ controlWords ++ systemWords

/-! Words that the spec's pages write out, as header, body and the instruction that its assembly names (R265). -/

/-- The header of a word without guard or hint: k7 (R261). -/
def plainHeader (d : Operand) : Header :=
  { neg := false, kind := true, idx := 7, run := 0, cede := false, use := 0, rsv := false, d := d }

/-- An RRR word without marks. -/
def wordRRR (d a b c : Operand) (mod : BitVec 15) : RRR :=
  { hdr := plainHeader d, a := a, b := b, c := c, fe := 0, mod := mod, rsv := 0 }

/-- An M word whose index is scaled by 2^scale. -/
def wordM (d : Operand) (base : BitVec 6) (idx data : Operand) (width space : BitVec 3) (scale : BitVec 2)
    (off : BitVec 24) : MFmt :=
  { hdr := plainHeader d, sbase := base, idx := idx, data := data, fe := 0, width := width, space := space,
    scale := scale, hint := 0, ext := false, rsv := false, off := off }

/-- An MS word at s3 without an index. -/
def wordMS (d data data2 : Operand) (op obs : BitVec 5) (pub sub : Bool) : MSFmt :=
  { hdr := plainHeader d, sbase := 3, idx := .absent, data := data, data2 := data2, fe := 0, op := op, obs := obs,
    pub := pub, sub := sub, width := 0, rsv := 0 }

/-- An E word without marks. -/
def wordE (d a b c : Operand) (control : BitVec 31) : EFmt :=
  { hdr := plainHeader d, a := a, b := b, c := c, fe := 0, control := control }

/-- Words of the arithmetic and control pages. -/
def specWordsA : List (Nat × Nat × Instr) :=
  [(0x003C0002, 0x00500FFC00100000, .add (wordRRR (.w 2) (.w 1) (.s 0) .absent 0x10)),
   (0x01040003, 0x00A02FFC00100000, .mul { wordRRR (.w 3) (.w 2) (.imm 2) .absent 0x10 with
      hdr := { plainHeader (.w 3) with kind := false, idx := 1 } }),
   (0x00C44003, 0x00A01FFC00100000, .sub { wordRRR (.w 3) (.w 2) (.imm 1) .absent 0x10 with
      hdr := { plainHeader (.w 3) with neg := true, kind := false, idx := 1, run := 1 } }),
   (0x0EBC03FF, 0x00610FFC08900000, .cmp (wordRRR .absent (.w 1) (.imm 16) .absent 0x0890)),
   (0x083C0104, 0x41220FFC00190000, .shl (wordRRR (.s 4) (.s 4) (.imm 32) .absent 0x19)),
   (0x103C0104, 0x4100001900001000, .addRI { hdr := plainHeader (.s 4), a := .s 4, fe := false, mod := 0x19, imm := 0x1000 }),
   (0x1FBC0104, 0xFFC0001900000040, .movi { hdr := plainHeader (.s 4), a := .absent, fe := false, mod := 0x19, imm := 0x40 }),
   (0x600403FF, 0xFFC0000000000003, .bra { hdr := { plainHeader .absent with kind := false, idx := 1 }, a := .absent, mod := 0, off := 3 }),
   (0x623C03FF, 0xFFC0000000000005, .join { hdr := plainHeader .absent, a := .absent, mod := 0, off := 5 }),
   (0x63BC03FF, 0xFFFFFFFC00000000, .exit (wordRRR .absent .absent .absent .absent 0))]

/-- Words of the task, trace and memory pages. -/
def specWordsB : List (Nat × Nat × Instr) :=
  [(0x68BC0152, 0x41820016FFFFFFF8, .spawng { hdr := plainHeader (.h 2), args := .s 6, cnt := 2, shelf := 0, width := 1, place := 3, salt := false, entry := 0xFFFFFFF8 }),
   (0x69BC0003, 0x5480000000000040, .await { hdr := plainHeader (.w 3), a := .h 2, mod := 0, off := 0x40 }),
   (0x6BBC03FF, 0x003FFFFC00000000, .retv (wordRRR .absent (.w 0) .absent .absent 0)),
   (0x793C03FF, 0x03FF008400000028, .modset (wordM .absent 0 .absent (.w 2) 2 0 0 0x28)),
   (0x79BC0152, 0x547FFFFC00000000, .propagate (wordRRR (.h 2) (.h 1) .absent .absent 0)),
   (0x803C0004, 0x0801FFC420000008, .ld (wordM (.w 4) 2 (.w 1) .absent 2 0 2 8)),
   (0x80BC03FF, 0x0801014420000000, .st (wordM .absent 2 (.w 1) (.w 5) 2 0 2 0)),
   (0x803C0006, 0x0003FFC480000000, .ld (wordM (.w 6) 0 (.w 3) .absent 2 2 0 0)),
   (0x843C0002, 0x0FFFFFFFF000A000, .ldx (wordMS (.w 2) .absent .absent 0 1 false true)),
   (0x84BC03FF, 0x0FFF00BFF000C000, .stx (wordMS .absent (.w 2) .absent 0 1 true false)),
   (0x853C0005, 0x0FFF01BFF0808000, .atom (wordMS (.w 5) (.w 6) .absent 8 1 false false)),
   (0x85BC0002, 0x0FFF01D090100000, .mwait (wordMS (.w 2) (.w 7) (.s 9) 1 0 false false)),
   (0x8C3C03FF, 0x80E02FFC00400000, .bar (wordRRR .absent (.imm 3) (.imm 2) .absent 0x40))]

/-- Words of the engine and system pages. -/
def specWordsC : List (Nat × Nat × Instr) :=
  [(0x9E3C0105, 0xFFFFFFFC00000000, .hashrd (wordRRR (.s 5) .absent .absent .absent 0)),
   (0x9EBC03FF, 0xFFFFFFFC00000000, .hashclr (wordRRR .absent .absent .absent .absent 0)),
   (0xA1BC0160, 0xFFFFFFFC00000000, .aclr (wordE (.a 0) .absent .absent .absent 0)),
   (0xA0BC0160, 0x40101FFC00000104, .mma (wordE (.a 0) (.s 0) (.s 1) .absent 0x104)),
   (0xA33C0155, 0x58102FFC00000000, .drain (wordE (.h 5) (.a 0) (.s 2) .absent 0)),
   (0xA13C0161, 0x4551AFFC00000000, .mmac (wordE (.a 1) (.s 21) (.s 26) .absent 0)),
   (0xA3BC0153, 0x46119FFC00000000, .xformFwd (wordE (.h 3) (.s 24) (.s 25) .absent 0)),
   (0xA83C0152, 0x4110541800000000, .copy (wordE (.h 2) (.s 4) (.s 5) (.s 6) 0)),
   (0xA9BC0154, 0x437FFFFC00000000, .job (wordE (.h 4) (.s 13) .absent .absent 0)),
   (0xAC3C03FF, 0x4260041C00000000, .bufexp (wordRRR .absent (.s 9) (.imm 0) (.s 7) 0)),
   (0xC13C03FF, 0xFFC0000000000005, .trap { hdr := plainHeader .absent, a := .absent, fe := false, mod := 0, imm := 5 }),
   (0xC1BC03FF, 0xFFFFFFFC00000000, .tret (wordRRR .absent .absent .absent .absent 0))]

/-- Some of the words that the spec's pages write out. -/
def specWords : List (Nat × Nat × Instr) := specWordsA ++ specWordsB ++ specWordsC

end Sys2Proof.Machine
end

