-- ==== Sys2Proof/Certificates/Slice0/Obligations.lean ====
section
/-! DEFINITION. The statements for the provers. -/

section Statements

open Sys2Proof Sys2Proof.Machine

/-- Every well-formed instruction is what its bytes decode to, whatever follows them (R259 to R269). -/
def Obligations.DecodeInvertsEncode : Prop :=
  ∀ (i : Instr) (w : IWord) (rest : List Byte), i.wf = true → encode i = some w →
    decode (encodeBytes w ++ rest) = .ok (i, rest)

/-- Every word decodes to a well-formed instruction whose encoding is that word (R259 to R270). -/
def Obligations.EncodeInvertsDecode : Prop :=
  ∀ w : IWord, (decodeWord w).wf = true ∧ encode (decodeWord w) = some w

/-- Each integer and address row in the RRR format completes with its operation's bits in the destination, in the
acting lanes of a lane-class word and once for a gang-class one (R14, R275, R279). -/
def Obligations.IntegerResult : Prop :=
  ∀ r ∈ integerRows, ∀ (x : RRR) (s : State) (m : Mask), s.issuesRrr x r.sources (r.fields x) m →
    ∃ t, exec (r.make x) s = .next t ∧ wentOn s t (s.pc + 12)
      ∧ wroteDest s t m x.hdr.d (typeWidth x.typ)
          (fun l => r.op x (readLane s x.typ 0 x.a l) (readLane s x.typ 0 x.b l) (readLane s x.typ 0 x.c l))
          (r.op x (readGang s x.typ 0 x.a) (readGang s x.typ 0 x.b) (readGang s x.typ 0 x.c))

/-- The same of the rows with an immediate (R264, R279). -/
def Obligations.ImmediateResult : Prop :=
  ∀ r ∈ immediateRows, ∀ (x : RI) (s : State) (m : Mask), s.issuesRi x (r.fields x) m →
    ∃ t, exec (r.make x) s = .next t ∧ wentOn s t (s.pc + 12)
      ∧ wroteDest s t m x.hdr.d (typeWidth x.typ)
          (fun l => r.op x (readLane s x.typ x.imm x.a l) (immFieldValue x.typ x.imm))
          (r.op x (readGang s x.typ x.imm x.a) (immFieldValue x.typ x.imm))

/-- ADD, SUB, MUL, MAD, NEG, ABS, MIN, MAX and LEA compute exactly and narrow once; MULH is the high half; ADDMIN
saturates its signed sum before the minimum (R280). -/
def Obligations.ExactArithmetic : Prop :=
  ∀ (ty : BitVec 6) (sat : Bool) (sh : Nat) (x y z : DWord), typeI ty = true → sh ≤ 7 →
    leaves ty sat (sourceInt ty x + sourceInt ty y) (opAdd ty sat x y)
    ∧ leaves ty sat (sourceInt ty x - sourceInt ty y) (opSub ty sat x y)
    ∧ leaves ty sat (sourceInt ty x * sourceInt ty y) (opMul ty sat x y)
    ∧ leaves ty sat (sourceInt ty x * sourceInt ty y + sourceInt ty z)
        (narrow ty sat (intOf ty x * intOf ty y + intOf ty z))
    ∧ leaves ty sat (-sourceInt ty x) (narrow ty sat (-(intOf ty x)))
    ∧ leaves ty sat ((sourceInt ty x).natAbs : Int) (narrow ty sat ((intOf ty x).natAbs : Int))
    ∧ leaves ty false (min (sourceInt ty x) (sourceInt ty y)) (opMin ty x y)
    ∧ leaves ty false (max (sourceInt ty x) (sourceInt ty y)) (opMax ty x y)
    ∧ leaves ty false (sourceInt ty x + sourceInt ty y * 2 ^ sh) (opLea ty sh x y)
    ∧ ((opMulh ty x y).toNat : Int) = sourceInt ty x * sourceInt ty y / 2 ^ typeWidth ty % 2 ^ typeWidth ty
    ∧ (typeS ty = true →
        let w := typeWidth ty
        let sum := sourceInt ty x + sourceInt ty y
        let capped := if sum < -2 ^ (w - 1) then -2 ^ (w - 1) else if 2 ^ (w - 1) ≤ sum then 2 ^ (w - 1) - 1 else sum
        leaves ty false (min capped (sourceInt ty z)) (opAddmin ty x y z))

/-- DIV and REM (R281): the quotient and remainder of each case, left by the instruction with no fault in any. -/
def Obligations.DivisionRule : Prop :=
  (∀ (ty : BitVec 6) (x y : DWord), typeI ty = true →
    let w := typeWidth ty
    let X := sourceInt ty x
    let Y := sourceInt ty y
    (Y ≠ 0 → leaves ty false (Int.tdiv X Y) (opDiv ty x y)
      ∧ leaves ty false (X - Y * Int.tdiv X Y) (opRem ty x y)
      ∧ (X - Y * Int.tdiv X Y = 0 ∨ (0 < X ∧ 0 < X - Y * Int.tdiv X Y) ∨ (X < 0 ∧ X - Y * Int.tdiv X Y < 0)))
    ∧ (Y = 0 → (opDiv ty x y).toNat = 2 ^ w - 1 ∧ leaves ty false X (opRem ty x y))
    ∧ (typeSigned ty = true → X = -2 ^ (w - 1) → Y = -1 →
        leaves ty false X (opDiv ty x y) ∧ (opRem ty x y).toNat = 0))
  ∧ (∀ p ∈ [(Instr.div, opDiv), (Instr.rem, opRem)], ∀ (x : RRR) (s : State) (m : Mask), s.issuesRrr x 2 (fieldsI x) m →
    ∃ t, exec (p.1 x) s = .next t ∧ t.halt = s.halt ∧ t.faults = s.faults
      ∧ wroteDest s t m x.hdr.d (typeWidth x.typ)
          (fun l => p.2 x.typ (readLane s x.typ 0 x.a l) (readLane s x.typ 0 x.b l))
          (p.2 x.typ (readGang s x.typ 0 x.a) (readGang s x.typ 0 x.b)))

/-- The shifts and bit operations, bit by bit (R282): x and n are the low w bits of the sources. -/
def Obligations.BitOperations : Prop :=
  ∀ (ty : BitVec 6) (a b c : DWord), typeI ty = true ∨ typeB ty = true →
    let w := typeWidth ty
    let x := a.toNat % 2 ^ w
    let n := b.toNat % 2 ^ w
    let p := b.toNat % 256
    let len := b.toNat / 256 % 256
    let top := min (p + len) w
    (∀ i < w, (opShl ty a b).getLsbD i = (decide (n ≤ i) && a.getLsbD (i - n)))
    ∧ (∀ i < w, (opShr ty a b).getLsbD i = (decide (i + n < w) && a.getLsbD (i + n)))
    ∧ (∀ i < w, (opSra ty a b).getLsbD i = a.getLsbD (if i + n < w then i + n else w - 1))
    ∧ (∀ i < w, (opRot ty a b).getLsbD ((i + n) % w) = a.getLsbD i)
    ∧ (∀ i < w, (opFsh ty a b c).getLsbD i =
        let j := i + c.toNat % 2 ^ w % w
        if j < w then b.getLsbD j else a.getLsbD (j - w))
    ∧ (x = 0 → (opClz ty a).toNat = w ∧ (opCtz ty a).toNat = w)
    ∧ (x ≠ 0 → (opClz ty a).toNat < w ∧ a.getLsbD (w - 1 - (opClz ty a).toNat) = true
        ∧ ∀ i < w, w - 1 - (opClz ty a).toNat < i → a.getLsbD i = false)
    ∧ (x ≠ 0 → (opCtz ty a).toNat < w ∧ a.getLsbD (opCtz ty a).toNat = true
        ∧ ∀ i < (opCtz ty a).toNat, a.getLsbD i = false)
    ∧ (opPopc ty a).toNat = ((List.range w).countP fun i => a.getLsbD i)
    ∧ (∀ i < w, (opBrev ty a).getLsbD (w - 1 - i) = a.getLsbD i)
    ∧ (∀ i < w, (opBfx ty a b).getLsbD i =
        (if len = 0 ∨ w ≤ p then false
         else if p + i < top then a.getLsbD (p + i)
         else typeSigned ty && a.getLsbD (top - 1)))
    ∧ (∀ i < w, (opBfi ty c a b).getLsbD i =
        (if len = 0 ∨ w ≤ p ∨ i < p ∨ top ≤ i then a.getLsbD i else c.getLsbD (i - p)))

/-- SEL takes x where its predicate holds and y elsewhere (R283); CMP, its immediate form, FCMP and PLOG write the
predicate that their code names, in the acting lanes or once (R285, R286, R290). -/
def Obligations.PredicateResult : Prop :=
  (∀ (x : RRR) (s : State) (m : Mask),
    s.issuesRrr x 2 ((typeI x.typ || typeB x.typ || x.typ.toNat = 0x01) && x.sub == 0
      && (WordClass.ofDest x.hdr.d == .lane || predIsK x.pred)) m →
    ∃ t, exec (.sel x) s = .next t ∧ wentOn s t (s.pc + 12)
      ∧ wroteDest s t m x.hdr.d (typeWidth x.typ)
          (fun l => if (s.gang.predLanes x.pred).getLsbD (l % 32) then readLane s x.typ 0 x.a l else readLane s x.typ 0 x.b l)
          (if s.gang.kReg (x.pred.extractLsb' 0 3) then readGang s x.typ 0 x.a else readGang s x.typ 0 x.b))
  ∧ (∀ (x : RRR) (s : State) (m : Mask),
    s.issues x.hdr (WordClass.ofPred x.pred) (cmpOk x.typ x.sub && x.hdr.d == .absent
      && rrrSrcsOk x 2 (WordClass.ofPred x.pred) s.gang (wideType x.typ)) [] (rrrSrcs x 2 (wideType x.typ)) m →
    ∃ t, exec (.cmp x) s = .next t ∧ wentOn s t (s.pc + 12)
      ∧ wrotePred s t m x.pred
          (fun l => intCond x.sub (sourceInt x.typ (readLane s x.typ 0 x.a l)) (sourceInt x.typ (readLane s x.typ 0 x.b l)))
          (intCond x.sub (sourceInt x.typ (readGang s x.typ 0 x.a)) (sourceInt x.typ (readGang s x.typ 0 x.b))))
  ∧ (∀ (x : RI) (s : State) (m : Mask),
    s.issues x.hdr (WordClass.ofPred x.pred) (cmpOk x.typ x.sub && x.hdr.d == .absent
      && riSrcsOk x (WordClass.ofPred x.pred) s.gang (wideType x.typ)) [] (riSrcs x (wideType x.typ)) m →
    ∃ t, exec (.cmpRI x) s = .next t ∧ wentOn s t (s.pc + 12)
      ∧ wrotePred s t m x.pred
          (fun l => intCond x.sub (sourceInt x.typ (readLane s x.typ x.imm x.a l)) (sourceInt x.typ (immFieldValue x.typ x.imm)))
          (intCond x.sub (sourceInt x.typ (readGang s x.typ x.imm x.a)) (sourceInt x.typ (immFieldValue x.typ x.imm))))
  ∧ (∀ (x : RRR) (s : State) (m : Mask),
    s.issues x.hdr (WordClass.ofPred x.pred) (typeF x.typ && x.sub.toNat ≤ 7 && x.hdr.d == .absent
      && rrrSrcsOk x 2 (WordClass.ofPred x.pred) s.gang false) [] (rrrSrcs x 2 false) m →
    ∃ t, exec (.fcmp x) s = .next t ∧ wentOn s t (s.pc + 12)
      ∧ wrotePred s t m x.pred
          (fun l => numCond x.sub (numOf x.typ (readLane s x.typ 0 x.a l)) (numOf x.typ (readLane s x.typ 0 x.b l)))
          (numCond x.sub (numOf x.typ (readGang s x.typ 0 x.a)) (numOf x.typ (readGang s x.typ 0 x.b))))
  ∧ (∀ (x : RRR) (s : State) (m : Mask),
    let dst := x.mod.extractLsb' 11 4
    let P := s.gang.predLanes (x.mod.extractLsb' 7 4)
    let Q := s.gang.predLanes (x.mod.extractLsb' 3 4)
    let fn := x.mod.extractLsb' 0 3
    s.issuesPlain x.hdr (WordClass.ofPred dst) (x.rsv == 0 && x.fe == 0 && x.a == .absent && x.b == .absent
      && x.c == .absent && x.hdr.d == .absent && fn.toNat ≤ 5
      && (WordClass.ofPred dst == .lane || (predIsK (x.mod.extractLsb' 7 4) && (predIsK (x.mod.extractLsb' 3 4) || fn.toNat = 5)))) m →
    ∃ t, exec (.plog x) s = .next t ∧ wentOn s t (s.pc + 12)
      ∧ wrotePred s t m dst (fun l => (plogMask fn P Q).getLsbD l) ((plogMask fn P Q).getLsbD 0))

/-- Each float row rounds one exact result once, under the word's rounding code; under `.sr` each acting lane's
LRAND steps, and no other lane's (R235, R287, R288, R291); FMIN, FMAX and FCLASS act on bits (R289, R290). -/
def Obligations.FloatResult : Prop :=
  (∀ r ∈ floatRows, ∀ (x : RRR) (s : State) (m : Mask),
    s.issues x.hdr (WordClass.ofDest x.hdr.d) (r.fields x && dstOk (WordClass.ofDest x.hdr.d) s.gang false x.hdr.d
      && rrrSrcsOk x r.sources (WordClass.ofDest x.hdr.d) s.gang false) [(x.hdr.d, false)] (rrrSrcs x r.sources false) m →
    let rm := rmOf x.sub
    let val (l : Nat) : ExactNum := r.op rm (numOf x.typ (readLane s x.typ 0 x.a l)) (numOf x.typ (readLane s x.typ 0 x.b l))
      (numOf x.typ (readLane s x.typ 0 x.c l))
    ∃ t, exec (r.make x) s = .next t ∧ wentOn s t (s.pc + 12)
      ∧ wroteDest s t m x.hdr.d (typeWidth x.typ)
          (fun l => BitVec.ofNat 64 (encodeNum x.typ.toNat (val l) rm (s.gang.lrand.at l)).1)
          (BitVec.ofNat 64 (encodeNum x.typ.toNat (val s.gang.lane0) rm 0).1)
      ∧ ∀ l < 32, t.gang.lrand.at l =
          if rm = rmSr ∧ m.getLsbD l = true then (encodeNum x.typ.toNat (val l) rm (s.gang.lrand.at l)).2
          else s.gang.lrand.at l)
  ∧ (∀ r ∈ floatBitRows, ∀ (x : RRR) (s : State) (m : Mask), s.issuesRrr x r.sources (r.fields x) m →
    ∃ t, exec (r.make x) s = .next t ∧ wentOn s t (s.pc + 12)
      ∧ wroteDest s t m x.hdr.d (typeWidth x.typ)
          (fun l => r.op x (readLane s x.typ 0 x.a l) (readLane s x.typ 0 x.b l) (readLane s x.typ 0 x.c l))
          (r.op x (readGang s x.typ 0 x.a) (readGang s x.typ 0 x.b) (readGang s x.typ 0 x.c)))

/-- FRND rounds to an integral value of its own format (R292); CVT scales the source's exact value by 2^n and
encodes it in the second type (R233, R236, R293). -/
def Obligations.RoundAndConvert : Prop :=
  (∀ (x : RRR) (s : State) (m : Mask),
    s.issues x.hdr (WordClass.ofDest x.hdr.d) (fieldsRm x && dstOk (WordClass.ofDest x.hdr.d) s.gang false x.hdr.d
      && rrrSrcsOk x 1 (WordClass.ofDest x.hdr.d) s.gang false) [(x.hdr.d, false)] (rrrSrcs x 1 false) m →
    let rm := rmOf x.sub
    let out (l : Nat) : ExactNum × Word :=
      roundIntegral (numOf x.typ (readLane s x.typ 0 x.a l)) rm (s.gang.lrand.at l)
    let bits (l : Nat) : DWord := BitVec.ofNat 64 (encodeNum x.typ.toNat (out l).1 rmRne 0).1
    ∃ t, exec (.frnd x) s = .next t ∧ wentOn s t (s.pc + 12)
      ∧ wroteDest s t m x.hdr.d (typeWidth x.typ) bits (bits s.gang.lane0)
      ∧ ∀ l < 32, t.gang.lrand.at l =
          if rm = rmSr ∧ m.getLsbD l = true then (out l).2 else s.gang.lrand.at l)
  ∧ (∀ (x : RI) (s : State) (m : Mask),
    let c := WordClass.ofDest x.hdr.d
    s.issues x.hdr c (cvtType x.typ && cvtType x.typ2 && (fmtComplex x.typ.toNat == fmtComplex x.typ2.toNat)
      && rmOk c x.sub && !(x.sub.toNat = 4 && x.typ2.toNat = 0x09) && x.pred == 0 && x.imm.extractLsb' 8 24 == 0
      && feOk x.fe x.a && (srcOk c s.gang (wideType x.typ) x.a || x.a == .immField)
      && dstOk c s.gang (wideType x.typ2) x.hdr.d) [(x.hdr.d, wideType x.typ2)] (riSrcs x (wideType x.typ)) m →
    let rm := rmOf x.sub
    let n : Int := (x.imm.extractLsb' 0 8 : BitVec 8).toInt
    let out (l : Nat) : Nat × Word := convertBits x.typ.toNat x.typ2.toNat n rm
      ((readLane s x.typ x.imm x.a l).toNat % 2 ^ typeWidth x.typ) (s.gang.lrand.at l)
    ∃ t, exec (.cvt x) s = .next t ∧ wentOn s t (s.pc + 12)
      ∧ wroteDest s t m x.hdr.d (typeWidth x.typ2) (fun l => BitVec.ofNat 64 (out l).1)
          (BitVec.ofNat 64 (out s.gang.lane0).1)
      ∧ ∀ l < 32, t.gang.lrand.at l =
          if rm = rmSr ∧ m.getLsbD l = true then (out l).2 else s.gang.lrand.at l)

/-- MOV copies bits between register kinds, in one task where an h register takes them; MOVI writes the extended imm
field, in a shadow gang also into a FIFO of its partner (R51, R264, R284). -/
def Obligations.MoveResult : Prop :=
  (∀ (x : RRR) (s : State) (m : Mask), s.issuesMov x m → (∀ i, x.hdr.d = .h i → s.gang.packed = false) →
    let wide : Bool := x.typ.toNat = 0x1D
    ∃ t, exec (.mov x) s = .next t ∧ wentOn s t (s.pc + 12)
      ∧ match x.hdr.d with
        | .w i => wroteW s t m i (if wide then 64 else 32) (readLane s (if wide then 0x1D else 0x1C) 0 x.a)
        | .s i => t.gang.sReg i = readLane s 0x1C 0 x.a s.gang.lane0
        | .h i => t.gang.hReg i = readLane s 0x1C 0 x.a 0
        | .q i => ∀ l < 32, (((t.gangOf (s.gang.partner.getD 0)).q[i.toNat]).getD l []) =
            ((s.gangOf (s.gang.partner.getD 0)).q[i.toNat]).getD l []
              ++ (if m.getLsbD l then [(readLane s (if wide then 0x1D else 0x1C) 0 x.a l).setWidth 32] else [])
        | _ => False)
  ∧ (∀ (x : RI) (s : State) (m : Mask),
    let c := WordClass.ofDest x.hdr.d
    let w := typeWidth x.typ
    s.issues x.hdr c (((x.typ.toNat = 0 || typeI x.typ || typeB x.typ || typeF x.typ) && x.sub == 0
      && x.pred == 0 && x.typ2 == 0 && x.a == .absent && !x.fe) && (match x.hdr.d with
        | .q _ => s.gang.isShadow && !decide (w = 64)
        | d => dstOk c s.gang (w = 64) d))
      [(x.hdr.d, w = 64)] (fun _ => []) m →
    ∃ t, exec (.movi x) s = .next t ∧ wentOn s t (s.pc + 12)
      ∧ wroteDest s t m x.hdr.d (if w = 0 then (if c == .lane then 32 else 64) else w)
          (fun _ => immFieldValue x.typ x.imm) (immFieldValue x.typ x.imm)
      ∧ ∀ i, x.hdr.d = .q i → ∀ l < 32, (((t.gangOf (s.gang.partner.getD 0)).q[i.toNat]).getD l []) =
          ((s.gangOf (s.gang.partner.getD 0)).q[i.toNat]).getD l []
            ++ (if m.getLsbD l then
                  [(immFieldValue x.typ x.imm).setWidth 32 &&& BitVec.ofNat 32 (2 ^ min (if w = 0 then 32 else w) 32 - 1)]
                else []))

/-- A MOV into a special register: XM keeps only lanes of the path and of the width (R96); LRAND takes the value,
or 1 for 0, in every lane of XM (R235, R284); the other writable ones as R108 lists, each with its reserved bits
clear. -/
def Obligations.SpecialRegisterWrite : Prop :=
  (∀ (x : RRR) (s : State) (m : Mask), s.issuesSpecial x m → s.flat →
    ∃ t, exec (.xmWrite x) s = .next t ∧ wentOn s t (s.pc + 12)
      ∧ t.xm = (readGang s 0x1D 0 x.a).setWidth 32 &&& s.gang.path.lanes &&& s.gang.lanes)
  ∧ (∀ (x : RRR) (s : State) (m : Mask),
    let wide : Bool := x.typ.toNat = 0x1D
    s.issues x.hdr .gang (movFieldsOk x && (match x.a with
      | .s _ | .imm _ => true
      | .w i => wOk s.gang wide i
      | _ => false)) [] (fun m => [⟨x.a, x.fe.getLsbD 2, 0, wide, m⟩]) m →
    ∃ t, exec (.lrandWrite x) s = .next t ∧ wentOn s t (s.pc + 12)
      ∧ ∀ l < 32, t.gang.lrand.at l =
          let v := (readLane s 0x1C 0 x.a l).setWidth 32
          if m.getLsbD l then (if v = 0 then 1 else v) else s.gang.lrand.at l)
  ∧ (∀ (x : RRR) (s : State) (m : Mask) (idx : BitVec 7), x.hdr.d = .special idx →
    s.issues x.hdr .gang (specialMovOk x && specialWritable idx) [] (specialSrcs x) m →
    idx ≠ 0x00 → idx ≠ 0x0D → idx ≠ 0x0F →
    ∃ t, exec (.registerWrite x) s = .next t ∧ wentOn s t (s.pc + 12)
      ∧ t.special idx 0 = some
          (let v := readGang s 0x1D 0 x.a
           if idx = 0x08 then v &&& ~~~3 else if idx = 0x09 then v &&& ~~~0xFC00
           else if idx = 0x0E then v &&& 31 else if idx = 0x10 then v &&& 0x7FFFF else v))

/-- The accesses of a session at an order gate (R159, R160): RECORD logs each at its slice; under REPLAY the head's folio
passes and uses up its chunk, another is held, past the last chunk the order of arrival holds, and a task that has made
as many strong accesses as its folio records diverges. -/
def gateRules (s : State) (me : Nat × Bool) (pa : Nat) : Prop :=
  let g := s.gang
  let n := replayLog g.replaym
  let l := s.logOf n
  let head := Table.look l.gates (s.sliceOf pa) []
  let waiting := Table.look l.waits (s.sliceOf pa) []
  (l.state = .recording → l.truncated = false → s.archiveBytes < s.ctx.archiveMax →
    ∃ t, s.gateAs me pa = .ok t ∧ t.gang.strong = g.strong + 1
      ∧ (t.logOf n).list (s.sliceOf pa) = appendChunk (l.list (s.sliceOf pa)) g.rfolio)
  ∧ (l.state = .replaying → (l.folio g.rfolio).strong ≤ g.strong → s.gateAs me pa = .diverged)
  ∧ (l.state = .replaying → g.strong < (l.folio g.rfolio).strong →
    (∀ k rest, head = (g.rfolio, k) :: rest →
      ∃ t, s.gateAs me pa = .ok t ∧ t.gang.strong = g.strong + 1 ∧ t.mem = s.mem
        ∧ Table.look (t.logOf n).gates (s.sliceOf pa) [] = if k ≤ 1 then rest else (g.rfolio, k - 1) :: rest)
    ∧ (∀ f k rest, head = (f, k) :: rest → f ≠ g.rfolio →
      ∃ t, s.gateAs me pa = .held t ∧ t.mem = s.mem ∧ t.gang = g ∧ me ∈ Table.look (t.logOf n).waits (s.sliceOf pa) [])
    ∧ (head = [] → waiting = [] ∨ waiting.head? = some me →
      ∃ t, s.gateAs me pa = .ok t ∧ t.gang.strong = g.strong + 1 ∧ t.mem = s.mem)
    ∧ (∀ y rest, head = [] → waiting = y :: rest → y ≠ me → ∃ t, s.gateAs me pa = .held t ∧ t.mem = s.mem ∧ t.gang = g))

/-- REPLAYM opens and closes a session of one task (R156, R157): a task with mode OFF that writes RECORD clears log n, which
is then recording, and is its root with folio 1; one that writes REPLAY needs a recorded log, which is then
replaying; the root that writes OFF leaves, and with no other task in the session the log is recorded again. A strong
access of the session passes its slice's order gate as R159 and R160 say. -/
def Obligations.ReplaySessions : Prop :=
  (∀ (s : State) (me : Nat × Bool) (pa : Nat), s.gang.inSession = true → gateRules s me pa)
  ∧ (∀ (x : RRR) (s : State) (m : Mask), s.issuesSpecial x m → s.gang.packed = false →
    let v := readGang s 0x1D 0 x.a &&& 0x3F03
    let n := replayLog v
    let n0 := replayLog s.gang.replaym
    (replayMode v = 1 → replayMode s.gang.replaym = 0 →
      (s.logOf n).state ≠ .recording → (s.logOf n).state ≠ .replaying →
      ∃ t, exec (.replaymWrite x) s = .next t ∧ t.clock = s.clock + 1 ∧ t.gang.replaym = v ∧ t.gang.sroot = true
        ∧ t.gang.rfolio = 1 ∧ (t.logOf n).state = .recording ∧ (t.logOf n).chunks = []
        ∧ (t.logOf n).folios.length = 1)
    ∧ (replayMode v = 2 → replayMode s.gang.replaym = 0 → (s.logOf n).state = .recorded →
      ∃ t, exec (.replaymWrite x) s = .next t ∧ t.clock = s.clock + 1 ∧ t.gang.replaym = v ∧ t.gang.sroot = true
        ∧ t.gang.rfolio = 1 ∧ (t.logOf n).state = .replaying ∧ (t.logOf n).gates = (s.logOf n).chunks)
    ∧ (replayMode v = 0 → replayMode s.gang.replaym ≠ 0 → s.gang.sroot = true →
      ∃ t, exec (.replaymWrite x) s = .next t ∧ t.clock = s.clock + 1 ∧ t.gang.replaym = v ∧ t.gang.sroot = false
        ∧ (t.logOf n0).rootIn = false
        ∧ ((s.logOf n0).members = 0 → (t.logOf n0).state = .recorded)
        ∧ ((s.logOf n0).members ≠ 0 → (t.logOf n0).state = (s.logOf n0).state)))

/-- VOTE's four variants over the acting lanes of one task (R294); SHFL, LSH, LRED, LSCAN and MATCH (R105, R106, R295,
R297, R298), where every acting lane's result is read from the lanes as they were before the word. In a packed gang
every lane is alone, as lane 0 of a gang of width 1, and a VOTE or LRED that would write one s or k register for all
of them is ILLEGAL-OP (R13, R33, R278, R300). -/
def Obligations.LaneOperations : Prop :=
  (∀ (x : RRR) (s : State) (m : Mask), s.gang.packed = false →
    let v := voteVariant x
    let b := m &&& s.gang.predLanes (voteSrc x)
    s.issues x.hdr .lane (x.rsv == 0 && x.fe == 0 && x.a == .absent && x.b == .absent && x.c == .absent
      && x.mod.extractLsb' 4 2 == 0 && v ≤ 3
      && (if v ≤ 1 then x.hdr.d == .absent else voteDst x == 0 && oneDstOk s.gang false x.hdr.d))
      [(x.hdr.d, false)] (fun _ => []) m →
    ∃ t, exec (.vote x) s = .next t ∧ wentOn s t (s.pc + 12)
      ∧ (v = 0 → wrotePred s t m (voteDst x) (fun _ => b != 0) (b != 0))
      ∧ (v = 1 → wrotePred s t m (voteDst x) (fun _ => b == m) (b == m))
      ∧ (v = 2 → wroteDest s t m x.hdr.d 32 (fun _ => b.setWidth 64) (b.setWidth 64))
      ∧ (v = 3 → let n : DWord := BitVec.ofNat 64 ((List.range 32).countP fun l => b.getLsbD l)
          wroteDest s t m x.hdr.d 32 (fun _ => n) n))
  ∧ (∀ (x : RRR) (s : State) (m : Mask), s.gang.packed = false →
    let wide := wideType x.typ
    let from_ (m : Mask) (l : Nat) : Nat :=
      let b := (readLane s 0x1C 0 x.b l).toNat % 2 ^ 32
      let j := if x.sub = 0 then b else Nat.xor l b
      if j < 32 && m.has j then j else l
    s.issuesLane x (shiftTypeOk x && dstOk .lane s.gang wide x.hdr.d && laneSrcOk s.gang wide x.a
        && laneSrcOk s.gang false x.b && x.c == .absent && feOk (x.fe.getLsbD 2) x.a && feOk (x.fe.getLsbD 1) x.b
        && !x.fe.getLsbD 0) wide
      (fun m => [⟨x.b, x.fe.getLsbD 1, 1, false, m⟩,
        ⟨x.a, x.fe.getLsbD 2, 0, wide, Mask.ofFn fun j => m.lanes.any fun l => from_ m l = j⟩]) m →
    ∃ t, exec (.shfl x) s = .next t ∧ wentOn s t (s.pc + 12)
      ∧ wroteDest s t m x.hdr.d (typeWidth x.typ) (fun l => readLane s x.typ 0 x.a (from_ m l)) 0)
  ∧ (∀ (x : RRR) (s : State) (m : Mask), s.gang.packed = false →
    let wide := wideType x.typ
    let k := (readLane s 0x1C 0 x.b 0).toNat % 2 ^ 32
    s.issuesLane x (shiftTypeOk x && dstOk .lane s.gang wide x.hdr.d && laneSrcOk s.gang wide x.a
        && laneSrcOk s.gang wide x.c
        && (match x.b with
          | .s _ => true
          | .imm v => !v.getLsbD 7
          | _ => false)
        && feOk (x.fe.getLsbD 2) x.a && feOk (x.fe.getLsbD 1) x.b && feOk (x.fe.getLsbD 0) x.c) wide
      (fun m => [⟨x.b, x.fe.getLsbD 1, 1, false, m⟩,
        ⟨x.a, x.fe.getLsbD 2, 0, wide, Mask.ofFn fun j => m.lanes.any fun l => lshLane s x m l = some j⟩,
        ⟨x.c, x.fe.getLsbD 0, 2, wide, Mask.ofFn fun l => m.has l && (lshLane s x m l).isNone⟩]) m →
    ∃ t, exec (.lsh x) s = .next t ∧ wentOn s t (s.pc + 12)
      ∧ wroteDest s t m x.hdr.d (typeWidth x.typ) (fun l =>
          if x.sub = 0 then
            (if k ≤ l ∧ m.has (l - k) = true then readLane s x.typ 0 x.a (l - k) else readLane s x.typ 0 x.c l)
          else (if l + k < 32 ∧ m.has (l + k) = true then readLane s x.typ 0 x.a (l + k) else readLane s x.typ 0 x.c l)) 0)
  ∧ (∀ (x : RRR) (s : State) (m : Mask), s.gang.packed = false →
    let wide := wideType x.typ
    let low (l : Nat) : DWord := readLane s x.typ 0 x.a l &&& BitVec.ofNat 64 (2 ^ typeWidth x.typ - 1)
    s.issuesLane x (redFieldsOk x && !x.sub.getLsbD 3 && oneDstOk s.gang wide x.hdr.d && rrrSrcsOk x 1 .lane s.gang wide)
      (wide && !(WordClass.ofDest x.hdr.d == .gang)) (rrrSrcs x 1 wide) m →
    ∃ t, exec (.lred x) s = .next t ∧ wentOn s t (s.pc + 12)
      ∧ wroteDest s t m x.hdr.d (typeWidth x.typ) (fun _ => lredValue x.typ (redOp x) m low)
          (lredValue x.typ (redOp x) m low))
  ∧ (∀ (x : RRR) (s : State) (m : Mask), s.gang.packed = false →
    let wide := wideType x.typ
    let excl := x.sub.getLsbD 3
    let low (l : Nat) : DWord := readLane s x.typ 0 x.a l &&& BitVec.ofNat 64 (2 ^ typeWidth x.typ - 1)
    s.issuesLane x (redFieldsOk x && dstOk .lane s.gang wide x.hdr.d && rrrSrcsOk x 1 .lane s.gang wide) wide
      (fun m => [⟨x.a, x.fe.getLsbD 2, 0, wide, if excl then m &&& ~~~Mask.lane (m.lanes.getLastD 0) else m⟩]) m →
    ∃ t, exec (.lscan x) s = .next t ∧ wentOn s t (s.pc + 12)
      ∧ wroteDest s t m x.hdr.d (typeWidth x.typ)
          (fun l => lscanValue x.typ (redOp x) m low (if excl then l else l + 1)) 0)
  ∧ (∀ (x : RRR) (s : State) (m : Mask), s.gang.packed = false →
    let wide := wideType x.typ
    s.issuesLane x (typeB x.typ && x.sub == 0 && x.pred == 0 && dstOk .lane s.gang false x.hdr.d
      && rrrSrcsOk x 1 .lane s.gang wide) false (rrrSrcs x 1 wide) m →
    ∃ t, exec (.matchLanes x) s = .next t ∧ wentOn s t (s.pc + 12)
      ∧ match x.hdr.d with
        | .w i => ∀ l < 32, m.getLsbD l = true → ∀ j < 32, ((t.gang.wReg i).at l).getLsbD j =
            (m.getLsbD j && decide ((readLane s x.typ 0 x.a j).toNat % 2 ^ typeWidth x.typ
              = (readLane s x.typ 0 x.a l).toNat % 2 ^ typeWidth x.typ))
        | _ => False)
  ∧ (∀ (x : RRR) (s : State) (m : Mask), s.gang.packed = true →
      let wide := wideType x.typ
      let low (l : Nat) : DWord := readLane s x.typ 0 x.a l &&& BitVec.ofNat 64 (2 ^ typeWidth x.typ - 1)
      (let v := voteVariant x
       let b (l : Nat) : Bool := m.getLsbD l && (s.gang.predLanes (voteSrc x)).getLsbD l
       s.issues x.hdr .lane (x.rsv == 0 && x.fe == 0 && x.a == .absent && x.b == .absent && x.c == .absent
         && x.mod.extractLsb' 4 2 == 0 && v ≤ 3 && (if v ≤ 1 then x.hdr.d == .absent && !predIsK (voteDst x)
           else voteDst x == 0 && dstOk .lane s.gang false x.hdr.d)) [(x.hdr.d, false)] (fun _ => []) m →
       ∃ t, exec (.vote x) s = .next t ∧ wentOn s t (s.pc + 12)
         ∧ (v ≤ 1 → wrotePred s t m (voteDst x) b false)
         ∧ (2 ≤ v → wroteDest s t m x.hdr.d 32 (fun l => if b l then 1 else 0) 0))
      ∧ (acts s.gang x.hdr .lane = .yes m →
        (voteVariant x ≤ 1 → predIsK (voteDst x) = true → ∃ t, exec (.vote x) s = .next t
          ∧ faulted s t (s.carrelFault Code.illegalOp m m 0))
        ∧ (∀ i, x.hdr.d = .s i →
          (2 ≤ voteVariant x → ∃ t, exec (.vote x) s = .next t ∧ faulted s t (s.carrelFault Code.illegalOp m m 0))
          ∧ ∃ t, exec (.lred x) s = .next t ∧ faulted s t (s.carrelFault Code.illegalOp m m 0)))
      ∧ (s.issuesLane x (shiftTypeOk x && dstOk .lane s.gang wide x.hdr.d && laneSrcOk s.gang wide x.a
           && laneSrcOk s.gang false x.b && x.c == .absent && feOk (x.fe.getLsbD 2) x.a && feOk (x.fe.getLsbD 1) x.b
           && !x.fe.getLsbD 0) wide
         (fun m => [⟨x.b, x.fe.getLsbD 1, 1, false, m⟩, ⟨x.a, x.fe.getLsbD 2, 0, wide, m⟩]) m →
        ∃ t, exec (.shfl x) s = .next t ∧ wentOn s t (s.pc + 12) ∧ wroteDest s t m x.hdr.d (typeWidth x.typ) low 0)
      ∧ (s.issuesLane x (shiftTypeOk x && dstOk .lane s.gang wide x.hdr.d && laneSrcOk s.gang wide x.a
           && laneSrcOk s.gang wide x.c && (match x.b with
             | .s _ => true
             | .imm v => !v.getLsbD 7
             | _ => false)
           && feOk (x.fe.getLsbD 2) x.a && feOk (x.fe.getLsbD 1) x.b && feOk (x.fe.getLsbD 0) x.c) wide
         (fun m => [⟨x.b, x.fe.getLsbD 1, 1, false, m⟩, ⟨x.a, x.fe.getLsbD 2, 0, wide, m⟩,
           ⟨x.c, x.fe.getLsbD 0, 2, wide, m⟩]) m →
        ∃ t, exec (.lsh x) s = .next t ∧ wentOn s t (s.pc + 12)
          ∧ wroteDest s t m x.hdr.d (typeWidth x.typ) (fun l =>
              if (readLane s 0x1C 0 x.b 0).toNat % 2 ^ 32 = 0 then readLane s x.typ 0 x.a l
              else readLane s x.typ 0 x.c l) 0)
      ∧ (s.issuesLane x (redFieldsOk x && !x.sub.getLsbD 3 && dstOk .lane s.gang wide x.hdr.d
           && rrrSrcsOk x 1 .lane s.gang wide) wide (rrrSrcs x 1 wide) m →
        ∃ t, exec (.lred x) s = .next t ∧ wentOn s t (s.pc + 12)
          ∧ wroteDest s t m x.hdr.d (typeWidth x.typ) (fun l => lredValue x.typ (redOp x) 1 fun _ => low l) 0)
      ∧ (s.issuesLane x (redFieldsOk x && dstOk .lane s.gang wide x.hdr.d && rrrSrcsOk x 1 .lane s.gang wide) wide
           (fun m => [⟨x.a, x.fe.getLsbD 2, 0, wide, if x.sub.getLsbD 3 then 0 else m⟩]) m →
        ∃ t, exec (.lscan x) s = .next t ∧ wentOn s t (s.pc + 12)
          ∧ wroteDest s t m x.hdr.d (typeWidth x.typ)
              (fun l => if x.sub.getLsbD 3 then redIdentity x.typ (redOp x)
                else if typeFloat x.typ && (numOf x.typ (low l)).isNan then defaultNan x.typ else low l) 0)
      ∧ (s.issuesLane x (typeB x.typ && x.sub == 0 && x.pred == 0 && dstOk .lane s.gang false x.hdr.d
           && rrrSrcsOk x 1 .lane s.gang wide) false (rrrSrcs x 1 wide) m →
        ∃ t, exec (.matchLanes x) s = .next t ∧ wentOn s t (s.pc + 12) ∧ wroteDest s t m x.hdr.d 32 (fun _ => 1) 0))

/-- PTLD copies 256 bytes of the constant section into a pattern table tagged with the code object; PERM gathers
each acting lane's four bytes as the table's entries say, a task of a packed gang as its own lane 0 (R107, R278,
R296). -/
def Obligations.PatternTables : Prop :=
  (∀ (x : RRR) (s : State) (m : Mask) (n : Nat),
    s.issues x.hdr .gang (permFieldsOk x && x.hdr.d == .absent && (tableNo x.a).isSome && !x.fe.getLsbD 2
      && isS x.b) [] (fun m => [⟨x.b, x.fe.getLsbD 1, 1, false, m⟩]) m →
    tableNo x.a = some n →
    let a := (readGang s 0x1D 0 x.b).toNat
    let sec := s.consts s.gang.code
    a % 256 = 0 → a + 256 ≤ sec.length →
    ∃ t, exec (.ptld x) s = .next t ∧ wentOn s t (s.pc + 12)
      ∧ ∃ p, (t.carrelOf s.gang.carrel).pats[n]? = some (some p) ∧ p.tag = s.gang.code
        ∧ ∀ e < 128, (p.entries.getD e 0).toNat = (sec.getD (a + 2 * e) 0).toNat + 256 * (sec.getD (a + 2 * e + 1) 0).toNat)
  ∧ (∀ (x : RRR) (s : State) (m : Mask) (n : Nat) (p : Pattern) (i d : BitVec 8),
    x.a = .w i → x.hdr.d = .w d → tableNo x.b = some n → (s.carrelOf s.gang.carrel).pats[n]? = some (some p) →
    p.tag = s.gang.code → (∀ e < 128, (p.entries.getD e 0).extractLsb' 9 5 = 0) →
    s.issues x.hdr .lane (permFieldsOk x && !x.fe.getLsbD 1 && wOk s.gang false d && i.toNat % 4 = 0
      && i.toNat + 3 < s.gang.regs) [(x.hdr.d, false)]
      (fun m => (List.range 4).map fun r => ⟨.w (i + BitVec.ofNat 8 r), x.fe.getLsbD 2, 0, false, m⟩) m →
    ∃ t, exec (.perm x) s = .next t ∧ wentOn s t (s.pc + 12)
      ∧ ∀ l < 32, m.getLsbD l = true → ∀ k < 4,
          ((t.gang.wReg d).at l).toNat / 256 ^ k % 256 =
            permByte s.gang i m l (p.entries.getD (4 * s.gang.laneNo l + k) 0))

/-- A branch whose guard admits all of the path's lanes, or that is gang-class, transfers control (R303): BRA and
CALL to the word's address + 12 * off, BRX and RET to an aligned address in an s register; CALL links the next
word (R259, R301). -/
def Obligations.UniformBranch : Prop :=
  (∀ (x : BFmt) (s : State) (m : Mask),
    s.issuesPlain x.hdr (WordClass.ofGuard x.hdr) (bFieldsOk x && x.hdr.d == .absent) m →
    WordClass.ofGuard x.hdr = .gang ∨ m = s.xm →
    ∃ t, exec (.bra x) s = .next t ∧ wentOn s t (s.pc + 12 * x.off.signExtend 64) ∧ t.gang.run = 0)
  ∧ (∀ (x : BFmt) (s : State) (m : Mask) (i : BitVec 6), x.hdr.d = .s i →
    s.issues x.hdr (WordClass.ofGuard x.hdr) (bFieldsOk x) [(x.hdr.d, false)] (fun _ => []) m →
    WordClass.ofGuard x.hdr = .gang ∨ m = s.xm →
    ∃ t, exec (.call x) s = .next t ∧ wentOn s t (s.pc + 12 * x.off.signExtend 64)
      ∧ t.gang.sReg i = s.pc + 12)
  ∧ (∀ (x : RRR) (s : State) (m : Mask),
    s.issues x.hdr (WordClass.ofGuard x.hdr) (rrrPlain x false false && isS x.a && x.hdr.d == .absent) [] (srcA x) m →
    WordClass.ofGuard x.hdr = .gang ∨ m = s.xm →
    let target := readGang s 0x1D 0 x.a
    target.extractLsb' 0 2 = 0 →
    (∃ t, exec (.brx x) s = .next t ∧ wentOn s t target) ∧ (∃ t, exec (.ret x) s = .next t ∧ wentOn s t target))

/-- A branch whose guard admits some of the path's lanes (R98, R99): with no region open, the taking lanes become
the older path at the target and the others the younger one at the next word, and the JOIN label is where they meet;
inside a region, the path keeps the taking lanes and stacks the others; without a JOIN record, or with 272 entries
stacked, it is ILLEGAL-OP. -/
def Obligations.DivergentBranch : Prop :=
  ∀ (x : BFmt) (s : State) (m : Mask),
    s.issuesPlain x.hdr .lane (bFieldsOk x && x.hdr.d == .absent) m → x.hdr.kind = false → m ≠ s.xm →
    let p := s.gang.path
    let target := s.pc + 12 * x.off.signExtend 64
    (∀ label, s.flat → p.join = some label → label ≠ target → label ≠ s.pc + 12 →
      ∃ t, exec (.bra x) s = .next t ∧ t.clock = s.clock + 1 ∧ t.mem = s.mem
        ∧ t.gang.p0.pc = target ∧ t.gang.p0.xm = m ∧ t.gang.p0.lanes = m
        ∧ (∃ q, t.gang.p1 = some q ∧ q.pc = s.pc + 12 ∧ q.xm = s.xm &&& ~~~m)
        ∧ t.gang.split = some { label := label, arrived := 0 })
    ∧ (∀ label r rest, p.stack = r :: rest → p.stack.length < 272 → p.join = some label → label ≠ target →
      r.recon ≠ target → r.recon ≠ s.pc + 12 →
      ∃ t, exec (.bra x) s = .next t ∧ t.clock = s.clock + 1 ∧ t.mem = s.mem ∧ t.pc = target ∧ t.xm = m
        ∧ t.gang.path.join = none
        ∧ t.gang.path.stack = { recon := label, pending := s.pc + 12, pmask := s.xm &&& ~~~m, emask := p.lanes,
                                arrived := 0 } :: r :: rest)
    ∧ (s.flat → p.join = none → ∃ t, exec (.bra x) s = .next t ∧ t.halt = .asserted
        ∧ t.faults = s.faults ++ [s.carrelFault Code.illegalOp m m 0] ∧ t.gang = s.gang)
    ∧ (∀ r rest, p.stack = r :: rest → p.join = none ∨ 272 ≤ p.stack.length → r.recon ≠ target →
      r.recon ≠ s.pc + 12 → ∃ t, exec (.bra x) s = .next t ∧ faulted s t (s.carrelFault Code.illegalOp m m 0))

/-- JOIN records its label for the path, replacing one that stands (R98, R304); NOP changes nothing but the place in the
text, no frame and no count of spawn sites, and YIELD is a NOP whose cede bit is set (R308); DISPATCH takes the first
bucket whose bounds hold the four shape registers (R50, R306). The clock clause is the model's own (log 7). -/
def Obligations.PlainControl : Prop :=
  (∀ (x : BFmt) (s : State) (m : Mask), s.issuesPlain x.hdr .gang (bFieldsOk x && x.hdr.d == .absent) m → s.flat →
    let label := s.pc + 12 * x.off.signExtend 64
    ∃ t, exec (.join x) s = .next t ∧ wentOn s t (s.pc + 12)
      ∧ t.gang.path.join = if label = s.pc + 12 then none else some label)
  ∧ (∀ (x : RRR) (s : State) (m : Mask),
    s.issuesPlain x.hdr .gang (rrrPlain x false false && x.a == .absent && x.hdr.d == .absent) m →
    (∃ t, exec (.nop x) s = .next t ∧ wentOn s t (s.pc + 12) ∧ t.gang.ceded = x.hdr.cede
      ∧ registersOnly s t .absent false none [] ∧ t.gang.lrand = s.gang.lrand)
    ∧ (∃ t, exec (.yield x) s = .next t ∧ wentOn s t (s.pc + 12) ∧ t.gang.ceded = true)
    ∧ exec (.yield x) s = exec (.nop { x with hdr := { x.hdr with cede := true } }) s)
  ∧ (∀ (x : BFmt) (s : State) (m : Mask),
    let n := (x.mod.extractLsb' 0 5).toNat
    s.issuesPlain x.hdr .gang (x.a == .absent && x.hdr.d == .absent && x.mod.extractLsb' 5 17 == 0 && 1 ≤ n && n ≤ 16
      && !s.gang.isShadow) m →
    let off := x.off.toNat
    let sec := s.consts s.gang.code
    let bs := (List.range n).map fun i => bucketOf ((sec.drop (off + 40 * i)).take 40)
    off % 8 = 0 → off + 40 * n ≤ sec.length → (∀ b ∈ bs, b.ok = true) →
    ((∀ b ∈ bs, b.holds s.gang = false) → ∃ t, exec (.dispatch x) s = .next t ∧ wentOn s t (s.pc + 12))
    ∧ (∀ k < n, (∀ j < k, ∀ b, bs[j]? = some b → b.holds s.gang = false) → ∀ b, bs[k]? = some b →
        b.holds s.gang = true →
        ∃ t, exec (.dispatch x) s = .next t ∧ wentOn s t (s.pc + 12 * b.entry.signExtend 64)
          ∧ t.gang.maskm = s.gang.shape.getD b.m 0 ∧ t.gang.maskn = s.gang.shape.getD b.n 0))

/-- RWAIT (R102): an unsplit gang passes it; the first path to arrive waits for the other until its budget ends; the
two paths that meet at one RWAIT become one; a budget that has passed lets the waiting path go on alone. That RWAIT takes a
cycle and RWAIT_BUDGET_EXPIRY none is the model's own (log 7). -/
def Obligations.Rendezvous : Prop :=
  (∀ (x : RRR) (s : State) (m : Mask),
    s.issues x.hdr .gang (rrrPlain x false false && isSImm x.a && x.hdr.d == .absent) [] (srcA x) m →
    let budget := (readGang s 0x1C 0 x.a).toNat % 2 ^ 32
    let p := s.gang.path
    p.rwSkip ≠ some s.pc →
    (s.gang.split = none → ∃ t, exec (.rwait x) s = .next t ∧ wentOn s t (s.pc + 12))
    ∧ (∀ sp q, s.gang.split = some sp → p.stack = [] → s.gang.other = some q → q.wait = .none →
      ∃ t, exec (.rwait x) s = .next t ∧ t.clock = s.clock + 1 ∧ t.pc = s.pc
        ∧ t.gang.path.wait = .rwait s.pc (s.clock + budget))
    ∧ (∀ sp q deadline, s.gang.split = some sp → p.stack = [] → s.gang.other = some q →
      q.wait = .rwait s.pc deadline → s.clock ≤ deadline → sp.arrived = 0 →
      ∃ t, exec (.rwait x) s = .next t ∧ t.clock = s.clock + 1 ∧ t.pc = s.pc + 12 ∧ t.xm = s.xm ||| q.xm
        ∧ t.gang.p1 = none ∧ t.gang.split = none))
  ∧ (∀ (s : State) (n d : Nat) (pc : DWord), (s.gangOf n).p0.wait = .rwait pc d → d < s.clock →
    (s.gangOf n).resident = true → s.halt = .running → (s.gangOf n).p0.stack = [] →
    (∀ sp, (s.gangOf n).split = some sp → sp.label ≠ (s.gangOf n).p0.pc + 12) →
    ∃ t, exec (.rwaitBudgetExpiry n) s = .next t ∧ t.clock = s.clock ∧ t.mem = s.mem
      ∧ (t.gangOf n).p0.pc = (s.gangOf n).p0.pc + 12 ∧ (t.gangOf n).p0.wait = .none
      ∧ (t.gangOf n).p0.xm = (s.gangOf n).p0.xm)

/-- BRK takes the acting lanes out of the innermost region; the others go on at the next word (R101). -/
def Obligations.BreakOneRegion : Prop :=
  ∀ (x : RRR) (s : State) (m : Mask) (r : Region) (rest : List Region),
    s.issues x.hdr .lane (rrrPlain x false false && isSImm x.a && x.hdr.d == .absent) [] (srcA x) m →
    (readGang s 0x1C 0 x.a).toNat % 2 ^ 32 = 1 →
    s.gang.path.stack = r :: rest → s.xm &&& ~~~m ≠ 0 → r.recon ≠ s.pc + 12 →
    ∃ t, exec (.brk x) s = .next t ∧ t.clock = s.clock + 1 ∧ t.mem = s.mem ∧ t.pc = s.pc + 12
      ∧ t.xm = s.xm &&& ~~~m ∧ t.gang.path.stack = { r with arrived := r.arrived ||| m } :: rest

/-- SPAWN, SPAWNG and SPAWNV make their children: one for each acting lane, one, or n of them (R30, R31, R34, R310);
a SPAWN of no argument words names no register (R265). -/
def Obligations.SpawnMakesTasks : Prop :=
  (∀ (x : GFmt) (s : State) (m : Mask) (sh key : Nat) (first : BitVec 8), x.args = .w first →
    s.issuesActs x.hdr (spawnActs s.gang x.hdr) (gFieldsOk s.gang x 32 && x.width.toNat = 1
      && first.toNat + x.cnt.toNat ≤ 256 && first.toNat < s.gang.regs && first.toNat + x.cnt.toNat ≤ s.gang.regs)
      [(x.hdr.d, false)] (fun m => ((List.range x.cnt.toNat).map fun k =>
        ⟨.w (BitVec.ofNat 8 (first.toNat + k)), false, 0, false, m⟩) ++ shelfSrc x m) m →
    s.spawnsInto x sh key m.lanes.length →
    ∃ t, exec (.spawn x) s = .next t ∧ spawned s t x sh key .lane (m.lanes.map fun l =>
      let ws := (List.range x.cnt.toNat).map fun k => (s.gang.wReg (BitVec.ofNat 8 (first.toNat + k))).at l
      { index := l, words := ws, block := ws }))
  ∧ (∀ (x : GFmt) (s : State) (m : Mask) (sh key : Nat), x.args = .absent → x.cnt = 0 →
    s.issuesActs x.hdr (spawnActs s.gang x.hdr) (gFieldsOk s.gang x 32 && x.width.toNat = 1)
      [(x.hdr.d, false)] (shelfSrc x) m →
    s.spawnsInto x sh key m.lanes.length →
    ∃ t, exec (.spawn x) s = .next t ∧ spawned s t x sh key .lane
      (m.lanes.map fun l => { index := l, words := [], block := [] }))
  ∧ (∀ (x : GFmt) (s : State) (m : Mask) (sh key : Nat),
    s.issues x.hdr .gang (spawngOk s.gang x) [(x.hdr.d, false)] (spawngSrcs x) m →
    s.spawnsInto x sh key 1 →
    ∃ t, exec (.spawng x) s = .next t ∧ spawned s t x sh key .gang [spawngChild s.gang x])
  ∧ (∀ (x : GFmt) (s : State) (m : Mask) (sh key : Nat) (first : BitVec 6), x.args = .s first →
    let rs := sRange (BitVec.ofNat 6 (first.toNat + 1)) x.cnt.toNat
    let n := ((s.gang.sReg first).extractLsb' 0 32).toNat
    s.issues x.hdr .gang (gFieldsOk s.gang x 15 && first.toNat + 1 + x.cnt.toNat ≤ 64) [(x.hdr.d, false)]
      (fun m => (⟨x.args, false, 0, false, m⟩ :: rs.map fun i => ⟨.s i, false, 0, false, m⟩) ++ shelfSrc x m) m →
    n ≤ 4096 → s.spawnsInto x sh key n →
    ∃ t, exec (.spawnv x) s = .next t ∧ spawned s t x sh key .vector ((List.range n).map fun i =>
      { index := i, words := BitVec.ofNat 32 i :: 0 :: sWords s.gang rs, block := sWords s.gang rs }))

/-- TRECORD makes a trace root and its future of kind 3 (R59, R312). -/
def Obligations.TraceRootMade : Prop :=
  ∀ (x : GFmt) (s : State) (m : Mask) (sh key : Nat) (i : BitVec 4), x.hdr.d = .h i →
    s.issues x.hdr .gang (spawngOk s.gang x) [(x.hdr.d, false)] (spawngSrcs x) m →
    s.spawnsInto x sh key 1 → s.taskTraced = false → s.owns (.archive s.ctx.number) = true →
    s.liveTraces < 64 →
    s.archiveBytes + 4096 ≤ s.ctx.archiveMax →
    let n := freeTrace s.ctx.traces (s.ctx.traces.length + 1) 0
    ∃ t, exec (.trecord x) s = .next t ∧ t.clock = s.clock + 1 ∧ (s.flat → t.pc = s.pc + 12)
      ∧ handleComing t x.hdr.d (handle 3 (s.slotOf key).generation key)
      ∧ (t.slotOf key).kind = 3 ∧ (t.slotOf key).object = BitVec.ofNat 64 n ∧ (t.slotOf key).outstanding = 1
      ∧ (t.slotOf key).held = some n
      ∧ (t.traceOf n).live = true ∧ (t.traceOf n).state = .recording ∧ (t.traceOf n).rootFrame = s.newFrame
      ∧ (t.frameOf s.newFrame).entryPc = s.pc + 12 * x.entry.signExtend 64
      ∧ (t.shelfOf sh).depth = (s.shelfOf sh).depth + 1

/-- EXIT ends the task once its last path executes it, with the return value that RETV set, or 0 (R103, R307), in a trap
handler at once (R307); elsewhere a path of a split gang whose other path goes on only leaves (R103); QEND ends a shadow gang once what it has loaded
stands in the FIFOs (R328, R335). -/
def Obligations.TasksEnd : Prop :=
  (∀ (x : RRR) (s : State) (m : Mask), s.gang.packed = false →
    s.issuesPlain x.hdr .gang (rrrPlain x false false && x.a == .absent && x.hdr.d == .absent && !s.gang.isShadow) m →
    (s.gang.split = none ∨ s.gang.inHandler = true → s.gang.mode = .untraced → replayMode s.gang.replaym ≠ 2 →
      ∃ t, exec (.exit x) s = .next t ∧ t = (s.issuedOne.endTask s.gang.ret).tick)
    ∧ (∀ q, s.gang.split.isSome = true → s.gang.inHandler = false → s.gang.other = some q → q.wait = .none →
      ∃ t, exec (.exit x) s = .next t ∧ t.clock = s.clock + 1 ∧ t.mem = s.mem ∧ t.gang.path.wait = .exited
        ∧ t.gang.other = some q))
  ∧ (∀ (x : RRR) (s : State) (m : Mask),
    s.issuesPlain x.hdr .gang (rrrPlain x false false && x.a == .absent && x.hdr.d == .absent && s.gang.isShadow) m →
    ((∀ f ∈ s.gang.flights, ∀ i, f.dst ≠ .q i) →
      ∃ t, exec (.qend x) s = .next t ∧ t.clock = s.clock + 1 ∧ t.mem = s.mem
        ∧ Table.seek t.ctx.gangs s.cur = none)
    ∧ ((∃ f ∈ s.gang.flights, ∃ i, f.dst = .q i) → exec (.qend x) s = .next s.hold))

/-- AWAIT and AWAITA by one task of complete futures deliver and acquire without parking (R313, R314, R128); of futures that
are not complete they park the task (R37). -/
def Obligations.AwaitDelivers : Prop :=
  (∀ (x : BFmt) (s : State) (m : Mask) (r : BitVec 4) (bm : BitVec 256) (key : Nat) (y : Slot), x.a = .h r →
    s.oneTask → s.issues x.hdr .gang (x.mod.extractLsb' 1 21 == 0 && !s.gang.isShadow && (match x.hdr.d with
      | .w i => decide (i.toNat < s.gang.regs)
      | .s _ | .absent => true
      | _ => false)) [(x.hdr.d, false)] (fun m => [⟨x.a, false, 0, false, m⟩]) m →
    s.bitmap x.off = .ok bm → s.named (s.gang.hReg r) = some (key, y) → (s.frameOf s.gang.frame).cancel = false →
    (y.complete = true → s.mustPark = false → (x.mod.getLsbD 0 && y.overwritten) = false →
      let u := s.markInPlace y
      ∃ t, exec (.await x) s = .next t
        ∧ t = (((((u.acquire u.gang.carrel (y.cross u.gang.carrel)).modGang fun g =>
            (g.deliver x.hdr.d y u.freeNow).passed).useFree).consume key).advance x.hdr))
    ∧ (y.complete = false → s.gang.split = none → s.gang.mode = .untraced →
      ∃ t, exec (.await x) s = .next t
        ∧ t = (s.issuedOne.parkSegment bm (s.pc + 12)
            (.one key x.hdr.d (if x.mod.getLsbD 0 then some r.toNat else none))).tick))
  ∧ (∀ (x : BFmt) (s : State) (m : Mask) (bm : BitVec 256) (slots : List (Nat × Nat × Slot)),
    let idx := (List.range 16).filter fun i => x.mod.getLsbD i
    s.oneTask → s.issues x.hdr .gang (x.a == .absent && isS x.hdr.d && x.mod.extractLsb' 16 6 == 0 && !idx.isEmpty
      && !s.gang.isShadow) [(x.hdr.d, false)] (fun m => idx.map fun i => ⟨.h (BitVec.ofNat 4 i), false, 0, false, m⟩) m →
    s.bitmap x.off = .ok bm → (s.frameOf s.gang.frame).cancel = false → s.gang.mode = .untraced →
    (idx.map fun i => (i, s.named (s.gang.hReg (BitVec.ofNat 4 i)))) = slots.map (fun e => (e.1, some e.2)) →
    (∀ e, (slots.find? fun e => e.2.2.complete) = some e →
      ∃ t, exec (.awaita x) s = .next t
        ∧ t = (((s.acquire s.gang.carrel (e.2.2.cross s.gang.carrel)).modGang fun g =>
            g.writeDest m x.hdr.d 64 (fun _ => 0) (BitVec.ofNat 64 e.1)).advance x.hdr))
    ∧ ((∀ e ∈ slots, e.2.2.complete = false) → s.gang.split = none →
      ∃ t, exec (.awaita x) s = .next t
        ∧ t = (s.issuedOne.parkSegment bm (s.pc + 12) (.any (slots.map fun e => (e.1, e.2.1)) x.hdr.d)).tick))

/-- RETV sets the task's return value, from a w register the lowest lane's of XM (R317); TESTF reads a future without
waiting (R315); CANCEL acts on the children that have not ended, on a queued job or on a propagation (R316): each in
one task. In a packed gang RETV acts once for each task set in XM, in lane order, a task in each step (R302, R317). -/
def Obligations.FutureInstructions : Prop :=
  (∀ (x : RRR) (s : State) (m : Mask), s.oneTask →
    s.issues x.hdr .gang (rrrPlain x false false && x.hdr.d == .absent && !s.gang.isShadow && (match x.a with
        | .w i => decide (i.toNat < s.gang.regs)
        | .s _ | .imm _ => true
        | _ => false)) []
      (fun _ => [⟨x.a, x.fe.getLsbD 2, 0, false, if s.xm = 0 then 0 else Mask.lane s.gang.lane0⟩]) m →
    let v : DWord := if s.xm = 0 then 0 else match x.a with
      | .w i => ((s.gang.wReg i).at s.gang.lane0).setWidth 64
      | .s i => s.gang.sReg i
      | .imm v => v.signExtend 64
      | _ => 0
    ∃ t, exec (.retv x) s = .next t ∧ wentOn s t (s.pc + 12) ∧ (t.frameOf s.gang.frame).hasRet = true
      ∧ (t.frameOf s.gang.frame).ret = v ∧ t.gang.ret = v)
  ∧ (∀ (x : RRR) (s : State) (m : Mask) (i : BitVec 8), s.gang.packed = true → x.a = .w i → s.gang.path.acted = 0 → s.xm &&& s.gang.lanes ≠ 0 →
    let l := (s.xm &&& s.gang.lanes).lowest
    s.issues x.hdr .gang (rrrPlain x false false && x.hdr.d == .absent && !s.gang.isShadow
      && decide (i.toNat < s.gang.regs)) [] (fun _ => [⟨x.a, x.fe.getLsbD 2, 0, false, Mask.lane l⟩]) m →
    x.hdr.kind = true → s.flat →
    ∃ t, exec (.retv x) s = .next t
      ∧ (t.frameOf (s.gang.task l).frame).ret = ((s.gang.wReg i).at l).setWidth 64
      ∧ (s.xm &&& s.gang.lanes &&& ~~~Mask.lane l ≠ 0 → t.pc = s.pc ∧ t.gang.path.acted = Mask.lane l
          ∧ t.xm = s.xm &&& s.gang.lanes))
  ∧ (∀ (x : RRR) (s : State) (m : Mask) (r : BitVec 4) (key : Nat) (y : Slot), x.a = .h r → s.oneTask →
    s.issues x.hdr .gang (x.rsv == 0 && x.mod.extractLsb' 0 11 == 0 && x.b == .absent && x.c == .absent
      && !x.fe.getLsbD 1 && !x.fe.getLsbD 0 && predIsK x.pred && !s.gang.isShadow
      && (x.hdr.d == .absent || isS x.hdr.d)) [(x.hdr.d, false)] (srcA x) m →
    s.named (s.gang.hReg r) = some (key, y) →
    ∃ t, exec (.testf x) s = .next t ∧ wentOn s t (s.pc + 12)
      ∧ wrotePred s t m x.pred (fun _ => y.complete) y.complete
      ∧ ∀ i, x.hdr.d = .s i → t.gang.sReg i = y.kind ++ 0#28 ++ BitVec.ofNat 24 y.outstanding ++ 0#4
          ++ BitVec.ofBool y.cancelled ++ BitVec.ofBool y.overwritten ++ BitVec.ofBool y.consumed
          ++ BitVec.ofBool y.complete)
  ∧ (∀ (x : RRR) (s : State) (m : Mask) (r : BitVec 4) (key : Nat) (y : Slot), x.a = .h r → s.oneTask →
    s.issues x.hdr .gang (rrrPlain x false false && x.hdr.d == .absent && !s.gang.isShadow) [] (srcA x) m →
    s.named (s.gang.hReg r) = some (key, y) →
    (y.kind = 1 → (∀ k ∈ y.kids, (s.frameOf k.frame).traced = false) → (∀ k ∈ y.kids, k.ended = true) →
      ∃ t, exec (.cancel x) s = .next t ∧ wentOn s t (s.pc + 12))
    ∧ (y.kind = 1 → (∀ k, y.kids = [k] → k.ended = false → Table.has s.ctx.frames k.frame = true →
        (s.frameOf k.frame).serial = k.serial → (s.frameOf k.frame).traced = false → (s.frameOf k.frame).state = .running →
        ∃ t, exec (.cancel x) s = .next t ∧ wentOn s t (s.pc + 12) ∧ (t.frameOf k.frame).cancel = true
          ∧ (t.slotOf key).cancelled = true))
    ∧ (y.kind = 2 → exec (.cancel x) s = .next ((s.cancelJob key).advance x.hdr))
    ∧ (y.kind = 4 → exec (.cancel x) s = .next ((s.cancelProp y.object.toNat key).advance x.hdr)))

/-- The shelf instructions (R319 to R321, R329): SHPUT appends a value, which the SHTAKE that has waited longest receives
in that step; SHTAKE takes the oldest in the order in which takers
came, waits among them where there is none, or under `.try` answers 0 and a false predicate; SHDEPTH reads the number
of entries, SHBIND binds a task entry and turns the values into tasks, SHPRIO sets priority and watermarks. -/
def Obligations.ShelfInstructions : Prop :=
  ∀ (x : RRR) (s : State) (m : Mask) (n : Nat), s.shelfOperand x.a = some n →
    let sh := s.shelfOf n
    (s.issues x.hdr .gang (shelfFieldsOk s x false false && isSImm x.b && x.c == .absent && x.hdr.d == .absent) []
        (shelfSrcs x) m → sh.full = false → sh.consumer = 0 → sh.depth ≤ sh.high →
      (sh.takers = [] → ∃ t, exec (.shput x) s = .next t ∧ t.clock = s.clock + 1 ∧ (s.flat → t.pc = s.pc + 12)
        ∧ ∃ e, (t.shelfOf n).entries = sh.entries ++ [e] ∧ e.isTask = false ∧ e.payload = readGang s 0x1D 0 x.b
            ∧ e.age = s.ctx.age ∧ e.team = some s.gang.carrel)
      ∧ (∀ y rest, sh.takers = y :: rest → (∀ e ∈ sh.entries, e.isTask = true) → sh.gift y = none →
        ∃ t, exec (.shput x) s = .next t ∧ t.clock = s.clock + 1 ∧ (s.flat → t.pc = s.pc + 12)
          ∧ (t.shelfOf n).takers = rest ∧ (t.shelfOf n).gift y = some (some (readGang s 0x1D 0 x.b))
          ∧ (t.shelfOf n).depth = sh.depth))
    ∧ (let try_ := x.sub.getLsbD 0
       let me := (s.cur, s.gang.younger)
       s.issues x.hdr .gang (shelfFieldsOk s x true true && x.sub.extractLsb' 1 4 == 0
        && (if try_ then predIsK x.pred else x.pred == 0) && x.b == .absent && x.c == .absent && isS x.hdr.d)
        [(x.hdr.d, false)] (shelfSrcs x) m →
        (∀ v, sh.gift me = some (some v) → ∃ t, exec (.shtake x) s = .next t ∧ launchedS t x.hdr.d v
          ∧ (try_ = true → wrotePred s t m x.pred (fun _ => true) true) ∧ (t.shelfOf n).gift me = none
          ∧ (t.shelfOf n).entries = sh.entries)
        ∧ (sh.gift me = some none → ∃ t, exec (.shtake x) s = .next t ∧ t.halt = .asserted
          ∧ t.faults = s.faults ++ [s.carrelFault Code.protection m m 0])
        ∧ (sh.gift me = none → sh.consumer = 0 →
        (∀ i e, sh.turnOf me = true → (sh.entries.findIdx? fun e => !e.isTask) = some i → sh.entries[i]? = some e →
          ∃ t, exec (.shtake x) s = .next t ∧ launchedS t x.hdr.d e.payload
            ∧ (try_ = true → wrotePred s t m x.pred (fun _ => true) true)
            ∧ t = ((((((s.touchBy s.gang.carrel n).modShelfOf n fun y => y.leaves me).takeEntry n i).launchS x.hdr.d
                e.payload).modGang fun g => if try_ then g.writePred m x.pred (BitVec.allOnes 32) else g).advance x.hdr))
        ∧ (sh.turnOf me = false ∨ (∀ e ∈ sh.entries, e.isTask = true) →
          (try_ = true → ∃ t, exec (.shtake x) s = .next t ∧ t.clock = s.clock + 1 ∧ (s.flat → t.pc = s.pc + 12)
            ∧ launchedS t x.hdr.d 0 ∧ (t.shelfOf n).entries = sh.entries
            ∧ wrotePred s t m x.pred (fun _ => false) false)
          ∧ (try_ = false → ∃ t, exec (.shtake x) s = .next t ∧ t.clock = s.clock ∧ t.pc = s.pc
            ∧ (t.shelfOf n).entries = sh.entries ∧ me ∈ (t.shelfOf n).takers))))
    ∧ (s.issues x.hdr .gang (shelfFieldsOk s x false false && x.b == .absent && x.c == .absent && isS x.hdr.d)
        [(x.hdr.d, false)] (shelfSrcs x) m →
      ∃ t, exec (.shdepth x) s = .next t ∧ t.clock = s.clock + 1 ∧ (s.flat → t.pc = s.pc + 12)
        ∧ launchedS t x.hdr.d (BitVec.ofNat 64 sh.entries.length))
    ∧ (s.issues x.hdr .gang (shelfFieldsOk s x false false && isS x.b && x.c == .absent && x.hdr.d == .absent) []
        (shelfSrcs x) m → n ≠ 0 → (readGang s 0x1D 0 x.b).extractLsb' 0 2 = 0 → readGang s 0x1D 0 x.b ≠ 0 →
        sh.entries.length ≤ s.ctx.frameRoom →
      ∃ t, exec (.shbind x) s = .next t ∧ t.clock = s.clock + 1 ∧ (s.flat → t.pc = s.pc + 12)
        ∧ (t.shelfOf n).consumer = readGang s 0x1D 0 x.b ∧ (t.shelfOf n).entries.length = sh.entries.length
        ∧ ∀ e ∈ (t.shelfOf n).entries, e.isTask = true)
    ∧ (s.issues x.hdr .gang (shelfFieldsOk s x false false && isSImm x.b && isS x.c && x.hdr.d == .absent) []
        (shelfSrcs x) m → n ≠ 0 →
        let p := readGang s 0x1D 0 x.b
        let wm := readGang s 0x1D 0 x.c
        let new : Shelf := { sh with prio := p.extractLsb' 0 3, low := (wm.extractLsb' 0 32).toNat,
                                     high := (wm.extractLsb' 32 32).toNat }
        p.toNat ≤ 7 → new.ok = true →
      exec (.shprio x) s = .next ((((s.touchBy s.gang.carrel n).setShelfOf n
        (if new.entries.length < new.low then new.boostAll false else new)).wake).advance x.hdr))

/-- MODNEW returns the address that the allocator takes (the first that fits, log 25): outside a trace its granules lie in
the arena, belong to no other allocation and to no segment, and one granule reads zero at home (R55, R322). MODFREE gives
granules back, the pieces beside them staying allocated (R323, log 45); MODSET stores at the home slice and has the
Archive compare (R70, R324); TKEY sets the spawn key's salt (R327). -/
def Obligations.ModifiableInstructions : Prop :=
  (∀ (x : RRR) (s : State) (m : Mask),
    s.issues x.hdr .gang (traceFieldsOk s x && isSImm x.a && x.b == .absent && isS x.hdr.d) [(x.hdr.d, false)]
      (abSrcs x) m →
    let r := s.modnew ((readGang s 0x1C 0 x.a).toNat % 2 ^ 32)
    ∃ t, exec (.modnew x) s = .next t ∧ t.clock = r.1.clock + 1 ∧ launchedS t x.hdr.d (BitVec.ofNat 64 r.2)
      ∧ t.ctx.allocs = r.1.ctx.allocs ∧ t.mem = r.1.mem)
  ∧ (∀ (s : State) (n : Nat), s.beneath s.gang = false → n ≠ 0 → (s.modnew n).2 ≠ 0 →
    let r := s.modnew n
    s.ctx.modBase.toNat ≤ r.2 ∧ r.2 + n ≤ s.ctx.modBase.toNat + s.ctx.modRoom
      ∧ (∀ y ∈ s.ctx.allocs, y.stop ≤ r.2 ∨ r.2 + n ≤ y.addr)
      ∧ (∃ y, r.1.ctx.allocs = s.ctx.allocs ++ [y] ∧ y.addr = r.2 ∧ y.size = n ∧ y.trace = none)
      ∧ ∀ pa, n ≤ 8 → r.2 % 8 = 0 → s.deskPa r.2 = some pa → pa + 8 ≤ s.memBytes → r.1.homeWord pa 8 = 0)
  ∧ (∀ (x : RRR) (s : State) (m : Mask),
    s.issues x.hdr .gang (traceFieldsOk s x && isS x.a && isSImm x.b && x.hdr.d == .absent) [] (abSrcs x) m →
    let a := (readGang s 0x1D 0 x.a).toNat
    let n := (readGang s 0x1C 0 x.b).toNat % 2 ^ 32
    let lo := a / 8 * 8
    let hi := (a + n + 7) / 8 * 8
    (n = 0 → ∃ t, exec (.modfree x) s = .next t ∧ wentOn s t (s.pc + 12) ∧ t.ctx.allocs = s.ctx.allocs)
    ∧ (n ≠ 0 → s.gang.mode = .untraced → s.ctx.traces = [] →
      (∀ i < (hi - lo) / 8, ∃ y ∈ s.ctx.allocs, y.addr ≤ lo + 8 * i ∧ lo + 8 * i < y.stop) →
      ∃ t, exec (.modfree x) s = .next t ∧ wentOn s t (s.pc + 12)
        ∧ t.ctx.allocs = s.ctx.allocs.flatMap fun y => y.minus lo hi))
  ∧ (∀ (x : MFmt) (s : State) (m : Mask) (accs : List LaneAcc) (u : State),
    let n := mWidth x.width
    s.issues x.hdr .lane (x.space == 0 && x.width.toNat ≤ 3 && mFieldsOk s.gang x .gm && x.hint == 0 && !x.ext
      && x.hdr.d == .absent && !s.gang.isShadow
      && (match x.idx with
        | .w _ | .absent => true
        | _ => false)
      && (match x.data with
        | .w i => wOk s.gang (n = 8) i
        | _ => false)) [] (mSrcs x true (n = 8)) m →
    s.oneTask → s.taskTraced = false → s.gang.path.reach = [] →
    (resolveAll m fun l => resolveLane s .gm n Need.store true l (mAddr s.gang x .gm l)) = .ok accs →
    (∀ a ∈ accs, a.mod = true) →
    modsetLanes (((s.keepAll accs).modPath fun p => { p with
        reach := heldLanes s.gang accs (fun l => bytesToNat (storeData s x.data n l)) fun _ => 0 }).release
      s.gang.carrel levelPackage) (storeData s x.data n) accs = .ok u →
    ∃ t, exec (.modset x) s = .next t ∧ t.clock = u.clock + 1 ∧ t.mem = u.mem ∧ t.ctx.traces = u.ctx.traces
      ∧ t.gang.hash = accs.foldl (fun h a => foldLane h false (accVirtual a (storeData s x.data n a.lane))) u.gang.hash)
  ∧ (∀ (x : RRR) (s : State) (m : Mask),
    s.issues x.hdr .gang (traceFieldsOk s x && isSImm x.a && x.b == .absent && x.hdr.d == .absent) [] (abSrcs x) m →
    s.gang.packed = false →
    ∃ t, exec (.tkey x) s = .next t ∧ wentOn s t (s.pc + 12) ∧ t.gang.tkey = readGang s 0x1D 0 x.a)

/-- PROPAGATE makes a future of kind 4 and queues the propagation; TSTAT reads a word of the trace's header; TDROP
marks the trace, and abandons it at once where its root has not ended and no PROPAGATE is ordered before (R61, R62,
R325, R326): each in one task. That a TDROP behind a PROPAGATE marks the trace is read as log 97 says. -/
def Obligations.TraceInstructions : Prop :=
  (∀ (x : RRR) (s : State) (m : Mask) (i : BitVec 4) (n key : Nat), x.hdr.d = .h i →
    s.issues x.hdr .gang (traceFieldsOk s x && isH x.a && x.b == .absent) [(x.hdr.d, false)] (abSrcs x) m →
    s.gang.packed = false → s.namedTrace x.a = some n → (s.traceOf n).drop = false → s.newSlot (wingOf s.gang.carrel) = some key →
    ∃ t, exec (.propagate x) s = .next t ∧ t.clock = s.clock + 1 ∧ (s.flat → t.pc = s.pc + 12)
      ∧ handleComing t x.hdr.d (handle 4 (s.slotOf key).generation key)
      ∧ (t.slotOf key).kind = 4 ∧ (t.slotOf key).object = BitVec.ofNat 64 n ∧ (t.slotOf key).outstanding = 1
      ∧ (t.slotOf key).complete = false ∧ (t.traceOf n).props = (s.traceOf n).props ++ [key])
  ∧ (∀ (x : RRR) (s : State) (m : Mask) (n : Nat),
    s.issues x.hdr .gang (traceFieldsOk s x && isH x.a && isSImm x.b && isS x.hdr.d) [(x.hdr.d, false)] (abSrcs x) m →
    s.gang.packed = false → s.namedTrace x.a = some n → (readGang s 0x1C 0 x.b).toNat % 2 ^ 32 ≤ 7 →
    ∃ t, exec (.tstat x) s = .next t ∧ wentOn s t (s.pc + 12)
      ∧ launchedS t x.hdr.d (s.header n ((readGang s 0x1C 0 x.b).toNat % 2 ^ 32)))
  ∧ (∀ (x : RRR) (s : State) (m : Mask) (n : Nat),
    s.issues x.hdr .gang (traceFieldsOk s x && isH x.a && x.b == .absent && x.hdr.d == .absent) [] (abSrcs x) m →
    s.gang.packed = false → s.namedTrace x.a = some n → (s.traceOf n).rootEnded = false →
    ((s.traceOf n).props ≠ [] →
      ∃ t, exec (.tdrop x) s = .next t ∧ wentOn s t (s.pc + 12) ∧ (t.traceOf n).drop = true
        ∧ (t.traceOf n).state = (s.traceOf n).state ∧ (t.traceOf n).folios = (s.traceOf n).folios)
    ∧ ((s.traceOf n).props = [] → (s.traceOf n).active = none →
      ∃ t, exec (.tdrop x) s = .next t ∧ t.clock = s.clock + 1 ∧ (s.flat → t.pc = s.pc + 12)
        ∧ (t.traceOf n).drop = true ∧ (t.traceOf n).state = .abandoned ∧ (t.traceOf n).folios = []))

/-- The events of traces (R28, R64, R72). The oldest MODSET that the Archive holds is performed and compared once no
propagation holds its granule, no live trace has written it and its block is good (R70), for a gang in its slot and for a
task that is away: its bytes stand at its address, no other byte outside the granule changes, its lane is done and the others stay held. The oldest PROPAGATE of
a trace begins once the root has ended, no other one of the trace runs, no MODSET of its task is held and no discarded
run goes on: with stale segments in the queue the trace is then propagating for it; an abandoned trace's root is
recorded afresh (R60). The Curator spreads the order labels afresh: every folio keeps what it holds but its label, and
their order stays. The events leave the clock as it was (log 7); held stores, cancellation and abandoned traces are read
as logs 40 to 43 say. -/
def Obligations.TraceEvents : Prop :=
  (∀ (s s0 : State) (h : HeldSet) (rest : List HeldSet) (u : State), s.ctx.heldSets = h :: rest → s.halt = .running →
    s.seat h.gang = some s0 →
    let s1 := s0.modGang fun g => { g with younger := h.younger }
    s1.modsetHeld (h.va / 8 * 8) = false → s1.rewrites (h.va / 8 * 8) = false →
    blockBad s1 (h.pa / 64 * 64) 64 = false →
    ({ s1 with ctx := { s1.ctx with heldSets := rest } } : State).modsetAt h.lane h.va h.pa h.data = .ok u →
    exec .modsetHeldCompare s = .next u.unseat)
  ∧ (∀ (s : State) (n key : Nat) (rest : List Nat), (s.traceOf n).props = key :: rest → (s.traceOf n).live = true →
    (s.traceOf n).active = none → (s.traceOf n).rootEnded = true → s.halt = .running →
    s.setsBefore key = false → s.discardedRuns n = false →
    (s.traceOf n).state ≠ .abandoned →
    exec (.propagationBegin n) s = .next ((s.setTraceOf n { s.traceOf n with
      state := .propagating, active := some key, props := rest, nruns := 0 }).settleProp n))
  ∧ (∀ (s : State) (n key : Nat) (rest : List Nat), (s.traceOf n).props = key :: rest → (s.traceOf n).live = true →
    (s.traceOf n).active = none → (s.traceOf n).rootEnded = true → s.halt = .running →
    s.setsBefore key = false → s.discardedRuns n = false →
    (s.traceOf n).state = .abandoned → (s.shelfOf (s.frameOf (s.traceOf n).rootFrame).shelf).full = false →
    exec (.propagationBegin n) s = .next (s.recordAfresh n key rest))
  ∧ (∀ (s : State) (h : HeldSet) (rest : List HeldSet), s.ctx.heldSets = h :: rest → s.halt = .running →
    h.gang < awayOwner 0 → (s.gangOf h.gang).resident = true → h.pa / 8 * 8 + 8 ≤ s.memBytes →
    replayMode ((s.gangOf h.gang).task h.lane).replaym = 0 → s.modsetHeld (h.va / 8 * 8) = false →
    s.rewrites (h.va / 8 * 8) = false → blockBad s (h.pa / 64 * 64) 64 = false → h.pa % 8 + h.data.length ≤ 8 →
    ∃ t, exec .modsetHeldCompare s = .next t ∧ t.ctx.heldSets = rest ∧ t.clock = s.clock ∧ t.halt = s.halt
      ∧ t.gang.path.done.getLast? = some (h.lane, 0)
      ∧ (∀ i < h.data.length, t.mem.byte (h.pa + i) = h.data.getD i 0)
      ∧ (∀ b, b < h.pa / 8 * 8 ∨ h.pa / 8 * 8 + 8 ≤ b → t.mem.byte b = s.mem.byte b))
  ∧ (∀ (s : State) (n key : Nat) (rest : List Nat), (s.traceOf n).props = key :: rest → (s.traceOf n).live = true →
    (s.traceOf n).active = none → (s.traceOf n).rootEnded = true → s.setsBefore key = false →
    s.discardedRuns n = false → s.halt = .running →
    (s.traceOf n).state ≠ .abandoned → (s.traceOf n).cancels = [] → (s.traceOf n).queue ≠ [] →
    ∃ t, exec (.propagationBegin n) s = .next t ∧ t.clock = s.clock ∧ t.mem = s.mem
      ∧ (t.traceOf n).state = .propagating ∧ (t.traceOf n).active = some key ∧ (t.traceOf n).props = rest
      ∧ (t.traceOf n).queue = (s.traceOf n).queue ∧ (t.traceOf n).folios = (s.traceOf n).folios)
  ∧ (∀ (s : State) (n : Nat), (s.traceOf n).live = true → (s.traceOf n).relabel = true →
    ∃ t, exec (.relabel n) s = .next t ∧ t.clock = s.clock ∧ t.mem = s.mem ∧ (t.traceOf n).relabel = false
      ∧ (let a := (s.traceOf n).folios
         let b := (t.traceOf n).folios
         b.map (fun e => (e.1, { e.2 with label := 0 })) = a.map (fun e => (e.1, { e.2 with label := 0 }))
         ∧ (a.length < 2 ^ 64 → ∀ (i j : Nat) (x y x' y' : Nat × Folio), a[i]? = some x → a[j]? = some y →
            b[i]? = some x' → b[j]? = some y' → (x'.2.label.toNat < y'.2.label.toNat ↔ x.2.label.toNat < y.2.label.toNat))))

/-- The barriers (R350, R351): BARA returns the phase, BAR and BARW wait until it has advanced; an arrival counts to
n, and the last starts the next phase with count 0; a packed gang arrives once for each task set in XM, and what is
past n counts in the next instance. -/
def Obligations.Barriers : Prop :=
  (∀ (x : RRR) (s u : State) (m : Mask) (token : Word),
    s.issues x.hdr .gang (barFieldsOk s.gang x && barCountOk x && dstOk .gang s.gang false x.hdr.d) [(x.hdr.d, false)]
      (barSrcs x) m → s.taskTraced = false →
    s.arrive (barLevel x) (barNumber s x.a) (barCount s x) = some (u, token) →
    ∃ t, exec (.bara x) s = .next t ∧ t.clock = u.clock + 1 ∧ t.mem = u.mem
      ∧ ∀ i, x.hdr.d = .s i → t.gang.sReg i = token.setWidth 64)
  ∧ (∀ (x : RRR) (s : State) (m : Mask),
    s.issues x.hdr .gang (barFieldsOk s.gang x && x.hdr.d == .absent && isS x.b) [] (barSrcs x) m →
    s.taskTraced = false → barNumber s x.a < barrierIds (barLevel x) →
    ((s.barrier (barLevel x) (barNumber s x.a)).phase.toNat ≠ barNumber s x.b →
      exec (.barw x) s = .next ((s.acquire s.gang.carrel (barCross (barLevel x))).advance x.hdr))
    ∧ ((s.barrier (barLevel x) (barNumber s x.a)).phase.toNat = barNumber s x.b →
      exec (.barw x) s = .next s.hold))
  ∧ (∀ (x : RRR) (s u : State) (m : Mask) (token : Word),
    s.issues x.hdr .gang (barFieldsOk s.gang x && barCountOk x && x.hdr.d == .absent) [] (barSrcs x) m →
    s.gang.path.wait = .none → s.taskTraced = false →
    s.arrive (barLevel x) (barNumber s x.a) (barCount s x) = some (u, token) →
    ((u.barrier (barLevel x) (barNumber s x.a)).phase ≠ token →
      exec (.bar x) s = .next ((u.acquire s.gang.carrel (barCross (barLevel x))).advance x.hdr))
    ∧ ((u.barrier (barLevel x) (barNumber s x.a)).phase = token →
      ∃ t, exec (.bar x) s = .next t ∧ t.clock = u.clock + 1 ∧ t.mem = u.mem ∧ t.gang.path.wait = .barrier token))
  ∧ (∀ (s u : State) (level id n : Nat) (token : Word), s.arrive level id (some n) = some (u, token) →
    let b := (s.release s.gang.carrel level).barrier level id
    token = b.phase ∧ 0 < n ∧ n ≤ barrierMax level ∧ id < barrierIds level ∧ (0 < b.count → b.n = n)
      ∧ (s.gang.packed = false → b.count < n →
          (u.barrier level id).count = (if b.count + 1 = n then 0 else b.count + 1)
          ∧ (u.barrier level id).phase = (if b.count + 1 = n then b.phase + 1 else b.phase))
      ∧ (let k := if s.gang.packed then (List.range 32).countP fun l => s.xm.getLsbD l else 1
         (u.barrier level id).count = (b.count + k) % n
         ∧ (u.barrier level id).phase = b.phase + BitVec.ofNat 32 ((b.count + k) / n))
      ∧ (u.barrier level id).standing = n)

/-- LD and LDV (R333, R335, R337): the result in flight is what each lane's bytes were before the word. -/
def Obligations.LoadResult : Prop :=
  ∀ (x : MFmt) (s : State) (m : Mask) (accs : List LaneAcc) (spc : Space),
    Space.ofBits x.space = some spc → (∀ l, s.traced (s.gang.task l) = false) → s.gang.path.reread = false →
    (let n := mWidth x.width
     s.issues x.hdr .lane (x.width.toNat ≤ 3 && mFieldsOk s.gang x spc && x.data == .absent && (!x.ext || n < 4)
       && (spc != .cl || 4 ≤ n) && (match x.hdr.d with
         | .w i => wOk s.gang (n = 8) i
         | .q _ => s.gang.isShadow && n ≤ 4
         | _ => false)) [(x.hdr.d, n = 8)] (mSrcs x (readsBase spc) false) m →
     s.passes x spc n Need.load m accs → ∃ t, exec (.ld x) s = .next t ∧ loaded s t x spc n m accs)
    ∧ (∀ i, x.hdr.d = .w i →
     s.issues x.hdr .lane (spc != .cl && x.width.toNat = 4 && mFieldsOk s.gang x spc && x.data == .absent && !x.ext
       && quadOk s.gang x.hdr.d) [(x.hdr.d, true), (.w (i + 2), true)] (mSrcs x (readsBase spc) false) m →
     s.passes x spc 16 Need.load m accs → ∃ t, exec (.ldv x) s = .next t ∧ loaded s t x spc 16 m accs)

/-- LOAD_RETURN writes a result in flight and makes its destination full (R17, R93); a shadow's load enters the FIFO of
its partner (R51, R335); a system register is read as it returns (R374); the results of a parked task return to its
saved gang, which then holds them (R38): unless the step makes the Archive abandon a trace (R60), and beneath a trace root
unless what the task awaits is there, so that its AWAIT delivers in the same step (R68). An access that an order gate held performs as far as the gate lets it, each
lane filling its destination as it returns (R160, R163, R340). When results return is the model's choice (logs 7, 18),
so are the saved gang and its image in the model's own form (log 35) and held accesses as requests (log 103). -/
def Obligations.ResultsReturn : Prop :=
  (∀ (s : State) (gn n : Nat) (f : Flight), gn < awayOwner 0 → (s.gangOf gn).flights[n]? = some f →
    (s.gangOf gn).resident = true → s.halt = .running → f.replay = false →
    ((∀ c num due, f.req ≠ .sysr c num due) → (∀ h, f.req ≠ .strong h) →
      ∃ t, exec (.loadReturn gn n) s = .next t ∧ t.clock = s.clock ∧ t.mem = s.mem
        ∧ (t.gangOf gn).flights = (s.gangOf gn).flights.eraseIdx n
        ∧ resultIn (s.gangOf gn) (t.gangOf gn) f.dst f.mask f.vals f.sval
        ∧ (∀ i, f.dst = .q i → ∀ l < 32,
            (((t.gangOf ((s.gangOf gn).partner.getD 0)).q[i.toNat]).getD l []) =
              ((s.gangOf ((s.gangOf gn).partner.getD 0)).q[i.toNat]).getD l []
                ++ (if f.mask.getLsbD l then [(f.vals.getD 0 (Lanes.all 0)).at l] else [])))
    ∧ (∀ c num due i, f.req = .sysr c num due → due ≤ s.clock → f.dst = .s i →
      ∃ t, exec (.loadReturn gn n) s = .next t ∧ (t.gangOf gn).flights = (s.gangOf gn).flights.eraseIdx n
        ∧ resultIn (s.gangOf gn) (t.gangOf gn) f.dst f.mask f.vals ((s.sysValue c num).getD 0))
    ∧ (∀ h u, f.req = .strong h → h.due ≤ s.clock →
      let news := u.gang.path.done.filter fun d => !(h.done.any fun e => e.1 = d.1)
      let back := f.mask &&& doneMask news
      let out := strongLanesAs (gn, f.younger) (fun l => keptOperand h.lanes (·.folio) l)
        (({ s with cur := gn } : State).setDone h.done) h.width h.kind.code h.fn h.accs
      (out = .ok u →
        ∃ t, exec (.loadReturn gn n) s = .next t ∧ t.mem = u.mem ∧ t.clock = u.clock
          ∧ (t.gangOf gn).flights = u.gang.flights.eraseIdx n
          ∧ resultIn u.gang (t.gangOf gn) f.dst back (doneLanes f.vals.length news) f.sval)
      ∧ (out = .held u → u.gang.path.done ≠ h.done →
        ∃ t, exec (.loadReturn gn n) s = .next t ∧ t.mem = u.mem ∧ t.clock = u.clock
          ∧ (t.gangOf gn).flights = u.gang.flights.set n
              { f with mask := f.mask &&& ~~~(doneMask news), req := .strong { h with done := u.gang.path.done } }
          ∧ resultIn u.gang (t.gangOf gn) f.dst back (doneLanes f.vals.length news) f.sval)))
  ∧ (∀ (s : State) (a n : Nat) (g : Gang) (f : Flight), Table.seek s.ctx.parked a = some g → g.flights[n]? = some f →
    s.halt = .running → f.replay = false → (∀ h, f.req ≠ .strong h) → (∀ i, f.dst ≠ .q i) →
    (∀ c num due, f.req = .sysr c num due → due ≤ s.clock) →
    let v := match f.req with
      | .sysr c num _ => (s.sysValue c num).getD 0
      | _ => f.sval
    ∃ t, exec (.loadReturn (awayOwner 0 + a) n) s = .next t ∧ t.clock = s.clock ∧ t.halt = s.halt
      ∧ ((∀ m, (t.traceOf m).state = (s.traceOf m).state) →
        ∃ g', Table.seek t.ctx.parked a = some g' ∧ g'.flights = g.flights.eraseIdx n
          ∧ (s.traced g = false ∨ s.isReady { g with flights := [] } = false → resultIn g g' f.dst f.mask f.vals v)))

/-- ST and STV (R333, R335, R337) with the store hash (R178). A carrel's store to `gm` or `cl` stands in its L1
(R123), so that it is its view of memory that changes. -/
def Obligations.StoreResult : Prop :=
  ∀ (x : MFmt) (s : State) (m : Mask) (accs : List LaneAcc) (spc : Space),
    Space.ofBits x.space = some spc → (∀ l, s.traced (s.gang.task l) = false) →
    (let n := mWidth x.width
     s.issues x.hdr .lane (spc != .lf && spc != .cn && x.width.toNat ≤ 3 && mFieldsOk s.gang x spc
       && x.hdr.d == .absent && !x.ext && (spc != .cl || 4 ≤ n) && storeDataOk s.gang (n = 8) x.data
       && !s.gang.isShadow) [] (mSrcs x (readsBase spc) (n = 8)) m →
     s.passes x spc n Need.store m accs → storeFillBad s (s.stores x n accs) = [] →
     ∃ t, exec (.st x) s = .next t ∧ stored s t x spc n accs)
    ∧ (∀ i, x.data = .w i →
     s.issues x.hdr .lane ((spc == .gm || spc == .sp) && x.width.toNat = 4 && mFieldsOk s.gang x spc
       && x.hdr.d == .absent && !x.ext && quadOk s.gang x.data && !s.gang.isShadow) []
       (fun m => mSrcs x (readsBase spc) false m
         ++ [⟨.w i, x.fe.getLsbD 0, 1, true, m⟩, ⟨.w (i + 2), x.fe.getLsbD 0, 1, true, m⟩]) m →
     s.passes x spc 16 Need.store m accs → storeFillBad s (s.stores x 16 accs) = [] →
     ∃ t, exec (.stv x) s = .next t ∧ stored s t x spc 16 accs)

/-- LDLBL reads and STLBL writes the stored label of the block, the highest lane's value staying (R347, R348); PREF
changes nothing that a load sees, and holds each lane's sector in the L1 but under `.stream` (R338). -/
def Obligations.LabelsAndPrefetch : Prop :=
  (∀ (x : MFmt) (s : State) (m : Mask) (accs : List LaneAcc) (spc : Space) (i : BitVec 8),
    Space.ofBits x.space = some spc → x.hdr.d = .w i →
    s.issues x.hdr .lane ((spc == .gm || spc == .sp || spc == .lf) && x.width.toNat = 1 && mFieldsOk s.gang x spc
      && x.hint == 0 && x.data == .absent && !x.ext && wOk s.gang false i) [(.w i, false)] (mSrcs x true false) m →
    (resolveAll m fun l => resolveLane s spc 1 Need.load false l (mAddr s.gang x spc l)) = .ok accs →
    ∃ t, exec (.ldlbl x) s = .next t ∧ wentOn s t (s.pc + 12) ∧ t.gang.wEmpty i &&& m = m
      ∧ ∃ f, t.gang.flights.getLast? = some f ∧ f.dst = .w i ∧ f.mask = m
        ∧ ∀ a ∈ accs, (f.vals.getD 0 (Lanes.all 0)).at a.lane
            = (s.labelAt spc (a.pieces.headD ⟨0, 0, 1⟩)).setWidth 32)
  ∧ (∀ (x : MFmt) (s : State) (m : Mask) (accs : List LaneAcc) (spc : Space),
    Space.ofBits x.space = some spc →
    s.issues x.hdr .lane ((spc == .gm || spc == .sp) && x.width.toNat = 1 && mFieldsOk s.gang x spc && x.hint == 0
      && x.hdr.d == .absent && !x.ext && !s.gang.isShadow && (match x.data with
        | .w i => decide (i.toNat < s.gang.regs)
        | .s _ => true
        | _ => false)) [] (mSrcs x true false) m →
    (resolveAll m fun l => resolveLane s spc 1 Need.store false l (mAddr s.gang x spc l)) = .ok accs →
    (∀ a ∈ accs, a.mod = true → s.traceLive = false) →
    (spc = .gm → ∀ a ∈ accs, ∀ p ∈ a.pieces, blockBad s (p.pa / 64 * 64) 64 = false) →
    let left (blk : Nat) (before : Label) : Label :=
      ((accs.reverse.find? fun a => (a.pieces.headD ⟨0, 0, 1⟩).pa / 64 = blk).map fun a =>
        (readLane s 0x1C 0 x.data a.lane).extractLsb' 0 16).getD before
    ∃ t, exec (.stlbl x) s = .next t ∧ t.clock = s.clock + 1 ∧ (s.flat → t.pc = s.pc + 12)
      ∧ t.gang.hash = s.gang.hash
      ∧ (∀ blk, t.mem.label blk = if spc = .gm then left blk (s.mem.label blk) else s.mem.label blk)
      ∧ (∀ blk, (t.carrelOf s.gang.carrel).sp.label blk = if spc = .sp
          then left blk ((s.carrelOf s.gang.carrel).sp.label blk) else (s.carrelOf s.gang.carrel).sp.label blk)
      ∧ (∀ b, (t.carrelOf s.gang.carrel).sp.byte b = (s.carrelOf s.gang.carrel).sp.byte b)
      ∧ (∀ b, (spc = .gm → ∀ a ∈ accs, (a.pieces.headD ⟨0, 0, 1⟩).pa / 64 ≠ b / 64) → t.mem.byte b = s.mem.byte b))
  ∧ (∀ (x : MFmt) (s : State) (m : Mask),
    s.issues x.hdr .lane (x.space == 0 && x.width == 0 && mFieldsOk s.gang x .gm && x.hdr.d == .absent
      && x.data == .absent && !x.ext) [] (mSrcs x true false) m →
    ∃ t, exec (.pref x) s = .next t ∧ wentOn s t (s.pc + 12) ∧ t.gang.flights = s.gang.flights
      ∧ (∀ a, t.viewByte s.gang.carrel a = s.viewByte s.gang.carrel a)
      ∧ (x.hint.toNat ≠ 1 → ∀ l a, m.getLsbD l = true → l < 32 →
          resolveLane s .gm 1 Need.load false l (mAddr s.gang x .gm l) = .ok a → ∀ p ∈ a.pieces,
          ((t.cacheOf (t.l1For s.gang.carrel p.pa)).sector p.pa).valid = true))

/-- LDX, STX and ATOM of one task perform lane by lane (R339 to R342): where every lane's access succeeds, the result
of each is what its word held, and the path goes on; what an STX stores its store hash folds (R178). The accesses of
other tasks may stand between the lanes (R346): the device's choice says after how many. There, and where an order gate
holds a lane, the destination is empty, the lanes performed are on their way back, the others are the gang's request,
and the path goes on (R17, R160, R163, R340, log 103). One lane: the carrel's dirty bytes of the granule go home first, then the
word is read and perhaps written, and nothing else of memory changes. -/
def Obligations.StrongAccess : Prop :=
  (∀ (x : MSFmt) (s u : State) (m : Mask) (accs : List LaneAcc), s.oneTask → s.traced s.gang = false →
    s.gang.path.done = [] → s.choice = 0 ∨ accs.length ≤ s.choice →
    let wide : Bool := x.width.toNat = 1
    let z := msWidth x.width
    let first := s.strongStart x accs
    (s.issues x.hdr .lane (msFieldsOk s.gang x && x.op == 0 && x.data == .absent && x.data2 == .absent
        && dstOk .lane s.gang wide x.hdr.d) [(x.hdr.d, wide)] (msSrcs x) m →
      s.strongPasses x Need.load m accs → strongLanes first z none (fun _ _ => none) accs = .ok u →
      ∃ t, exec (.ldx x) s = .next t ∧ strongDone s u t x m true)
    ∧ (s.issues x.hdr .lane (msFieldsOk s.gang x && x.op == 0 && x.hdr.d == .absent && x.data2 == .absent
        && storeDataOk s.gang wide x.data) [] (msSrcs x) m →
      s.strongPasses x Need.store m accs →
      strongLanes first z none (fun l _ => some (bytesToNat (storeData s x.data z l))) accs = .ok u →
      ∃ t, exec (.stx x) s = .next t ∧ strongDone s u t x m false
        ∧ t.gang.hash = accs.foldl (fun h a =>
            foldLane h false (((List.range z).zip (natToBytes z (bytesToNat (storeData s x.data z a.lane)))).map fun e =>
              ((a.pieces.headD ⟨0, 0, z⟩).va + e.1, e.2))) s.gang.hash)
    ∧ (s.issues x.hdr .lane (msFieldsOk s.gang x && x.op.toNat ≤ 0x0A
        && (x.hdr.d == .absent || dstOk .lane s.gang wide x.hdr.d)
        && (storeDataOk s.gang wide x.data || (x.data == .absent && x.op.toNat = 0x0A))
        && (if x.op.toNat = 0x09 then storeDataOk s.gang wide x.data2 else x.data2 == .absent))
        [(x.hdr.d, wide)] (msSrcs x) m →
      s.strongPasses x Need.both m accs →
      strongLanes first z (some x.op.toNat) (fun l old => atomNew x.op.toNat (x.data == .absent) (8 * z) old
        (bytesToNat (storeData s x.data z l)) (bytesToNat (storeData s x.data2 z l))) accs = .ok u →
      ∃ t, exec (.atom x) s = .next t ∧ strongDone s u t x m (x.hdr.d != .absent)))
  ∧ (∀ (x : MSFmt) (s u : State) (m : Mask) (accs : List LaneAcc), s.oneTask → s.traced s.gang = false →
    s.gang.path.done = [] → 0 < s.choice → s.choice < accs.length →
    s.issues x.hdr .lane (msFieldsOk s.gang x && x.op == 0 && x.data == .absent && x.data2 == .absent
        && dstOk .lane s.gang (x.width.toNat = 1) x.hdr.d) [(x.hdr.d, x.width.toNat = 1)] (msSrcs x) m →
    s.strongPasses x Need.load m accs →
    strongLanes (s.strongStart x accs) (msWidth x.width) none (fun _ _ => none) (accs.take s.choice) = .ok u →
    ∃ t, exec (.ldx x) s = .next t ∧ t.clock = s.clock + 1 ∧ t.mem = u.mem ∧ t.choices = u.choices.tail
      ∧ requested s u t x m accs (s.clock + 1))
  ∧ (∀ (x : MSFmt) (s u : State) (m : Mask) (accs : List LaneAcc) (i : BitVec 8), s.oneTask → s.traced s.gang = false →
    s.gang.path.done = [] → s.choice = 0 ∨ accs.length ≤ s.choice → x.hdr.d = .w i → x.width = 0 →
    s.issues x.hdr .lane (msFieldsOk s.gang x && x.op == 0 && x.data == .absent && x.data2 == .absent
        && dstOk .lane s.gang false x.hdr.d) [(x.hdr.d, false)] (msSrcs x) m →
    s.strongPasses x Need.load m accs → strongLanes (s.strongStart x accs) 4 none (fun _ _ => none) accs = .held u →
    ∃ t, exec (.ldx x) s = .next t ∧ t.clock = s.clock + 1 ∧ t.mem = u.mem ∧ t.gang.wEmpty i &&& m = m
      ∧ requested s u t x m accs s.clock)
  ∧ (∀ (s : State) (a : LaneAcc) (p : Piece) (z : Nat) (atom : Option Nat) (f : StrongFn), s.oneTask → a.pieces = [p] →
    z = 4 ∨ z = 8 → p.pa % z = 0 → p.pa + z ≤ s.memBytes → s.traced s.gang = false → replayMode s.gang.replaym = 0 →
    blockBad s (p.pa / 64 * 64) 64 = false →
    let s2 := s.expel s.gang.carrel (p.pa / 8 * 8) 8 true
    let old := s2.homeWord p.pa z
    ∃ t, strongLane s a z atom f = .ok t
      ∧ t.gang.path.done = s.gang.path.done ++ [(a.lane, BitVec.ofNat 64 old)]
      ∧ (∀ v, f a.lane old = some v → v < 2 ^ (8 * z) → t.mem.word p.pa z = v)
      ∧ (f a.lane old = none → t.mem = s2.mem)
      ∧ (∀ b, b < p.pa ∨ p.pa + z ≤ b → t.mem.byte b = s2.mem.byte b)
      ∧ (∀ b, b < p.pa / 8 * 8 ∨ p.pa / 8 * 8 + 8 ≤ b → s2.mem.byte b = s.mem.byte b))

/-- The new values of ATOM (R342), where v and n are below 2^w: old, v and n as unsigned numbers, and their signed
values for `.min` and `.max`. -/
def Obligations.AtomicRule : Prop :=
  ∀ (noData : Bool) (w old v n : Nat), w = 32 ∨ w = 64 → old < 2 ^ w → v < 2 ^ w → n < 2 ^ w →
    let sg (x : Nat) : Int := if 2 ^ (w - 1) ≤ x then (x : Int) - 2 ^ w else x
    atomNew 0x00 noData w old v n = some ((old + v) % 2 ^ w)
    ∧ (∃ r, atomNew 0x01 noData w old v n = some r ∧ sg r = min (sg old) (sg v) ∧ (r = old ∨ r = v))
    ∧ (∃ r, atomNew 0x02 noData w old v n = some r ∧ sg r = max (sg old) (sg v) ∧ (r = old ∨ r = v))
    ∧ atomNew 0x03 noData w old v n = some (min old v)
    ∧ atomNew 0x04 noData w old v n = some (max old v)
    ∧ atomNew 0x05 noData w old v n = some (old &&& v)
    ∧ atomNew 0x06 noData w old v n = some (old ||| v)
    ∧ atomNew 0x07 noData w old v n = some (old ^^^ v)
    ∧ atomNew 0x08 noData w old v n = some v
    ∧ atomNew 0x09 noData w old v n = (if old = v then some n else none)
    ∧ atomNew 0x0A true w old v n = some ((old + 1) % 2 ^ w)
    ∧ atomNew 0x0A false w old v n = some (if v ≤ old then 0 else old + 1)

/-- MWAIT completes at once where every lane's word meets its condition, else its path stands there with watches and
an empty destination, its count begun at issue (R21, R343, R344), also where an order gate holds a lane (R160); a write
of the watched bytes tests them again (R21); a stood MWAIT whose watches are met goes on with the values; its timeout,
later than a write in its last cycle (R143), raises MWAIT-TIMEOUT (R142, R344), in the record of ILLEGAL-OP in its
place with the path's XM as acting lanes (R114), and is held while a handler runs (R143). -/
def Obligations.WaitOnMemory : Prop :=
  (∀ (x : MSFmt) (s u : State) (m : Mask) (accs : List LaneAcc), s.gang.path.wait = .none →
    let wide : Bool := x.width.toNat = 1
    let z := msWidth x.width
    let b := mwaitBudget s x
    let hs := heldLanes s.gang accs (fun l => bytesToNat (storeData s x.data z l)) fun _ => 0
    let stood (t : State) : Prop := t.clock = s.clock + 1 ∧ t.mem = u.mem ∧ t.pc = u.pc ∧ t.ctx.watches = u.ctx.watches
      ∧ t.gang.path.wait = .mwait s.clock b x.hdr.d wide (s.cycleOf s.gang.carrel) ∧ t.gang.path.reach = hs
      ∧ (x.data2 = .absent → b = none) ∧ (∀ i, x.data2 = .s i → b = some (s.gang.sReg i).toNat)
      ∧ (∀ v, x.data2 = .imm v → b = some (v.signExtend 64).toNat)
      ∧ ∀ i, x.hdr.d = .w i → t.gang.wEmpty i &&& m = m
    s.issues x.hdr .lane (msFieldsOk s.gang x && x.op.toNat ≤ 5 && x.obs == 0 && !x.pub && !x.sub
      && dstOk .lane s.gang wide x.hdr.d && storeDataOk s.gang wide x.data && (match x.data2 with
        | .s _ | .imm _ | .absent => true
        | _ => false)) [(x.hdr.d, wide)] (msSrcs x) m →
    mwaitLanes s x m = .ok accs →
    (setWatches (s.keepAll accs) x.op z (b != some 0) hs = .ok u →
      (∀ l, u.traced (u.gang.task l) = false) → u.gang.path.reread = false →
      let u1 := u.modPath fun p => { p with reach := hs }
      (u1.allMet = true →
        exec (.mwait x) s = .next ((u1.dropWatches.modGang fun g =>
          (g.writeMet u.myWatches x.hdr.d z).modPath fun p => { p with wait := .none }).advance x.hdr))
      ∧ (u1.allMet = false → ∃ t, exec (.mwait x) s = .next t ∧ stood t))
    ∧ (setWatches (s.keepAll accs) x.op z (b != some 0) hs = .held u → ∃ t, exec (.mwait x) s = .next t ∧ stood t))
  ∧ (∀ (x : MSFmt) (s u : State) (start cycle : Nat) (b : Option Nat) (dst : Operand) (wide : Bool),
    s.gang.path.wait = .mwait start b dst wide cycle →
    (setWatches s x.op (msWidth x.width) (b != some 0) s.gang.path.reach = .ok u →
      (∀ l, u.traced (u.gang.task l) = false) → u.gang.path.reread = false →
      (u.allMet = true →
        exec (.mwait x) s = .next ((u.dropWatches.modGang fun g =>
          (g.writeMet u.myWatches x.hdr.d (msWidth x.width)).modPath fun p => { p with wait := .none }).advance x.hdr))
      ∧ (u.allMet = false → exec (.mwait x) s = .next u.hold))
    ∧ (setWatches s x.op (msWidth x.width) (b != some 0) s.gang.path.reach = .held u →
      exec (.mwait x) s = .next u.hold))
  ∧ (∀ (s : State) (pa : Nat) (bs : List Byte) (w : Watch), w ∈ s.ctx.watches → w.armed = true → w.met = none →
    w.pa < pa + bs.length → pa < w.pa + w.size → pa + bs.length ≤ s.memBytes →
    let t := s.homeWrite pa bs
    let v := t.homeWord w.pa w.size
    (mwaitHolds w.cond v (w.cmp.toNat % 2 ^ (8 * w.size)) = true →
      { w with met := some (BitVec.ofNat 64 v) } ∈ t.ctx.watches)
    ∧ (mwaitHolds w.cond v (w.cmp.toNat % 2 ^ (8 * w.size)) = false → w ∈ t.ctx.watches))
  ∧ (∀ v c : Nat, mwaitHolds 0 v c = decide (v = c) ∧ mwaitHolds 1 v c = decide (v ≠ c)
      ∧ mwaitHolds 2 v c = decide (v < c) ∧ mwaitHolds 3 v c = decide (v ≤ c)
      ∧ mwaitHolds 4 v c = decide (c < v) ∧ mwaitHolds 5 v c = decide (c ≤ v))
  ∧ (∀ (s : State) (start b cycle : Nat) (dst : Operand) (wide : Bool), s.gang.younger = false →
    s.gang.p0.wait = .mwait start (some b) dst wide cycle →
    start + b < s.clock → s.allMet = false → s.gang.resident = true →
    s.halt = .running →
    (s.flat → s.gang.trapv ≠ 0 → s.gang.inHandler = false → s.gang.isShadow = false →
      ∃ t, exec (.mwaitTimeout s.cur false) s = .next t ∧ t.clock = s.clock + 1 ∧ t.mem = s.mem
        ∧ t.pc = s.gang.trapv ∧ t.gang.p0.wait = .none ∧ t.gang.trappc = s.gang.p0.pc + 12
        ∧ t.gang.inHandler = true ∧ t.gang.trapc.extractLsb' 0 8 = Trap.mwaitTimeout
        ∧ t.myWatches = [])
    ∧ (s.gang.trapv = 0 → s.gang.inHandler = false →
      ∃ t f, exec (.mwaitTimeout s.cur false) s = .next t ∧ t.halt = .asserted ∧ t.faults = s.faults ++ [f]
        ∧ f.kind = Code.illegalOp ∧ f.acting = s.gang.p0.xm ∧ f.pc = s.gang.p0.pc ∧ f.cycle = cycle)
    ∧ (s.gang.inHandler = true →
      ∃ t y, exec (.mwaitTimeout s.cur false) s = .next t ∧ t.clock = s.clock ∧ t.mem = s.mem
        ∧ t.gang.traps = s.gang.traps ++ [y] ∧ y.cause = Trap.mwaitTimeout ∧ y.ret = s.gang.p0.pc + 12
        ∧ t.gang.p0.wait = .none ∧ t.gang.trappc = s.gang.trappc ∧ t.gang.trapc = s.gang.trapc ∧ t.myWatches = []))

/-- The store hash: what one granule folds (R178), HASHRD and HASHCLR (R179), in a packed gang of the task in the lowest
lane of XM and of every task in XM. -/
def Obligations.StoreHash : Prop :=
  (∀ (h : DWord) (sp : Bool) (g : Nat) (ws : List (Nat × Byte)),
    let fold (h x : DWord) : DWord :=
      let y := (h ^^^ x) * 0xFF51AFD7ED558CCD
      y ^^^ (y >>> 33)
    let m := ws.foldl (fun m e => m ||| 2 ^ (e.1 % 8)) 0
    let v := ws.foldl (fun v e => v + e.2.toNat * 2 ^ (8 * (e.1 % 8))) 0
    foldGranule h sp g ws =
      fold (fold (fold h (BitVec.ofNat 64 ((if sp then 256 else 0) ||| m))) (BitVec.ofNat 64 g)) (BitVec.ofNat 64 v))
  ∧ (∀ (x : RRR) (s : State) (m : Mask) (i : BitVec 6), x.hdr.d = .s i →
    s.issues x.hdr .gang (hashFieldsOk x) [(x.hdr.d, false)] (fun _ => []) m →
    ∃ t, exec (.hashrd x) s = .next t ∧ wentOn s t (s.pc + 12) ∧ t.gang.sReg i = (s.gang.task s.gang.lane0).hash
      ∧ t.gang.hash = s.gang.hash)
  ∧ (∀ (x : RRR) (s : State) (m : Mask),
    s.issues x.hdr .gang (hashFieldsOk x && x.hdr.d == .absent) [] (fun _ => []) m →
    ∃ t, exec (.hashclr x) s = .next t ∧ wentOn s t (s.pc + 12)
      ∧ (s.gang.packed = false → t.gang.hash = 0x243F6A8885A308D3)
      ∧ (s.gang.packed = true → ∀ l, s.gang.lanes.getLsbD l = true →
          (t.gang.task l).hash = if s.xm.getLsbD l then 0x243F6A8885A308D3 else (s.gang.task l).hash))

/-- TCFG sets its register (R357); the tile instructions enter the sequencer with a snapshot (R240, R254, R358,
R360, R361), and XFORM queues on the transform unit with a future (R363). -/
def Obligations.TileIssue : Prop :=
  (∀ (x : RRR) (s : State) (m : Mask),
    s.issues x.hdr .gang (x.rsv == 0 && x.typ == 0 && x.pred == 0 && x.sub.extractLsb' 1 4 == 0 && isSImm x.a
      && isSImm x.b && x.c == .absent && feOk (x.fe.getLsbD 2) x.a && feOk (x.fe.getLsbD 1) x.b && !x.fe.getLsbD 0
      && x.hdr.d == .absent && !s.gang.isShadow) [] (rrrSrcs x 2 false) m →
    let f := (readGang s 0x1D 0 x.a).toNat % 2 ^ 32
    let c := (readGang s 0x1D 0 x.b).toNat % 2 ^ 32
    f ≤ 511 → c ≤ 511 →
    ∃ t, exec (.tcfg x) s = .next t ∧ wentOn s t (s.pc + 12)
      ∧ t.gang.tcfg.toNat = f + 2 ^ 9 * c + 2 ^ 18 * (x.sub.toNat % 2))
  ∧ (∀ (x : EFmt) (s : State) (m : Mask) (tile : BitVec 2), s.myCarrel.seqLength < 8 →
    let A := readGang s 0x1D 0 x.a
    let B := readGang s 0x1D 0 x.b
    (x.hdr.d = .a tile →
      s.issues x.hdr .gang (eFieldsOk s.gang x && isS x.a && isS x.b && x.c == .absent) [] (eSrcs x) m →
      (descOf A).fits = true → (descOf B).fits = true →
      (mmaOk (descOf A) (descOf B) x.control = true →
        ∃ t, exec (.mma x) s = .next t ∧ entered s t .mma tile A B x.control)
      ∧ (mmacOk (descOf A) (descOf B) x.control s.gang.tcfg = true →
        ∃ t, exec (.mmac x) s = .next t ∧ entered s t .mmac tile A B x.control))
    ∧ (x.hdr.d = .a tile → x.control = 0 →
      s.issues x.hdr .gang (eFieldsOk s.gang x && x.a == .absent && x.b == .absent && x.c == .absent) [] (eSrcs x) m →
      ∃ t, exec (.aclr x) s = .next t ∧ entered s t .aclr tile 0 0 0)
    ∧ (x.hdr.d = .a tile → x.control = 0 →
      s.issues x.hdr .gang (eFieldsOk s.gang x && isS x.a && x.b == .absent && x.c == .absent) [] (eSrcs x) m →
      moveOk (descOf A) = true → (descOf A).fits = true →
      ∃ t, exec (.ald x) s = .next t ∧ entered s t .ald tile A 0 0)
    ∧ (x.a = .a tile → x.control = 0 →
      s.issues x.hdr .gang (eFieldsOk s.gang x && x.hdr.d == .absent && isS x.b && x.c == .absent) [] (eSrcs x) m →
      moveOk (descOf B) = true → (descOf B).loft = false → (descOf B).cols % 16 = 0 → (descOf B).fits = true →
      ∃ t, exec (.ast x) s = .next t ∧ entered s t .ast tile B 0 0))
  ∧ (∀ p ∈ [(Instr.xformFwd, false), (Instr.xformInv, true)], ∀ (x : EFmt) (s : State) (m : Mask) (i : BitVec 4)
      (key : Nat), s.oneTask → x.hdr.d = .h i → s.myCarrel.seqLength < 8 → s.newSlot (wingOf s.gang.carrel) = some key →
    s.issues x.hdr .gang (eFieldsOk s.gang x && isS x.a && isS x.b && x.c == .absent && x.control.extractLsb' 2 29 == 0)
      [(x.hdr.d, false)] (eSrcs x) m →
    let src := readGang s 0x1D 0 x.a
    let dst := readGang s 0x1D 0 x.b
    xformOk p.2 (descOf src) (descOf dst) = true → (descOf src).fits = true → (descOf dst).fits = true →
    ∃ t, exec (p.1 x) s = .next t ∧ wentOn s t (s.pc + 12)
      ∧ handleComing t x.hdr.d (handle 2 (s.slotOf key).generation key)
      ∧ (t.slotOf key).kind = 2 ∧ (t.slotOf key).outstanding = 1 ∧ (t.slotOf key).complete = false
      ∧ ∃ o, (t.carrelOf s.gang.carrel).xu = (s.carrelOf s.gang.carrel).xu ++ [o] ∧ o.inverse = p.2
          ∧ o.sym = x.control.getLsbD 1 ∧ o.src = src ∧ o.dst = dst ∧ o.job = s.ctx.nextJob ∧ o.step = 0)

/-- A step of the array (R244, R248, R256, R360, R361) writes its tile's cells, or for AST the scratchpad blocks of
the descriptor, and no other tile; DRAIN's read takes its tile whole (R205); a step of the transform unit transforms
one block (R251, R256), in place too, under the labels read at its first step (R221). These events leave the clock as it
was (log 7). -/
def Obligations.ArraySteps : Prop :=
  (∀ (s : State) (k : Nat) (x : TileOp) (rest : List TileOp), (s.carrelOf k).seq = x :: rest → s.halt = .running →
    x.kind ≠ .drainRead → x.again = false → (x.step = 0 → x.fault = none) →
    ∃ t, exec (.sequencerStep k) s = .next t ∧ t.clock = s.clock ∧ t.mem = s.mem ∧ t.ctx.gangs = s.ctx.gangs
      ∧ (t.carrelOf k).seq = (if x.step + 1 < x.steps then { x with step := x.step + 1 } :: rest else rest)
      ∧ (∀ tile, tile ≠ x.tile → (t.carrelOf k).tile tile = (s.carrelOf k).tile tile)
      ∧ (∀ r < 128, ∀ c < 128,
          (t.carrelOf k).cell x.tile r c = stepCell x r c ((s.carrelOf k).cell x.tile r c))
      ∧ (x.kind ≠ .ast → (t.carrelOf k).sp = (s.carrelOf k).sp)
      ∧ (x.kind = .ast → moveOk (descOf x.dA) = true →
          let d := descOf x.dA
          ∀ r < d.rows, ∀ j < d.rowBlocks,
            (t.carrelOf k).block false (d.at_ r j) = ⟨astLabel d, (List.range 16).flatMap fun i =>
                natToBytes 4 ((s.carrelOf k).cell x.tile r (16 * j + i)).toNat, false⟩))
  ∧ (∀ (s : State) (k : Nat) (x : TileOp) (rest : List TileOp), (s.carrelOf k).seq = x :: rest → s.halt = .running →
    x.kind = .drainRead →
    ∃ t, exec (.drainTileRead k) s = .next t ∧ t.clock = s.clock ∧ t.mem = s.mem ∧ (t.carrelOf k).seq = rest
      ∧ (t.carrelOf k).tiles = (s.carrelOf k).tiles ∧ (t.jobOf x.job).tileRead = true
      ∧ ∀ r < 128, ∀ c < 128, ((t.jobOf x.job).tile.getD r []).getD c 0 = (s.carrelOf k).cell x.tile r c)
  ∧ (∀ (s : State) (k : Nat) (op : XformOp) (rest : List XformOp), (s.carrelOf k).xu = op :: rest → s.halt = .running →
    let x := op.begun (s.carrelOf k)
    (x.step = 0 → (s.carrelOf k).xformFault x = none) → (s.carrelOf k).xformBad x = false →
    let c := ((s.carrelOf k).xformStep x).count 7 1
    let n := (descOf x.src).rows * (descOf x.src).blocks
    (x.step + 1 < n →
      ∃ t, exec (.xuStep k) s = .next t ∧ t.carrelOf k = { c with xu := { x with step := x.step + 1 } :: rest }
        ∧ (t.jobOf x.job).out = x.step + 1)
    ∧ (n ≤ x.step + 1 →
      exec (.xuStep k) s = .next ((s.setCarrelOf k { c with xu := rest }).endJob x.job 0 none)))

/-- COPY, COPYT, COPYF, JOB and DRAIN append their cards with a future each (R198, R362, R364 to R367). -/
def Obligations.CardsSubmitted : Prop :=
  ∀ (x : EFmt) (s : State) (m : Mask) (key : Nat), s.submits key →
    (s.issues x.hdr .gang (eFieldsOk s.gang x && isH x.hdr.d && isS x.a && isS x.b && isSImm x.c
        && x.control.extractLsb' 10 21 == 0 && (!x.control.getLsbD 9 || (nextS x.c).isSome)) [(x.hdr.d, false)]
        (copySrcs x (x.control.getLsbD 9)) m →
      ∃ t, exec (.copy x) s = .next t ∧ cardQueued s t x.hdr.d .copy (copyCard s x 1 (x.control.getLsbD 9)) key)
    ∧ (s.issues x.hdr .gang (eFieldsOk s.gang x && isH x.hdr.d && isS x.a && x.b == .absent && x.c == .absent
        && x.control.extractLsb' 9 22 == 0) [(x.hdr.d, false)] (eSrcs x) m →
      ∃ t, exec (.copyt x) s = .next t ∧ cardQueued s t x.hdr.d .copyt
        { Card.zero with kind := 2, flags := copyFlags x, aux := readGang s 0x1D 0 x.a } key)
    ∧ (s.issues x.hdr .gang (eFieldsOk s.gang x && isH x.hdr.d && isS x.a && isS x.b && (nextS x.c).isSome
        && x.control.extractLsb' 9 22 == 0) [(x.hdr.d, false)] (copySrcs x true) m →
      ∃ t, exec (.copyf x) s = .next t ∧ cardQueued s t x.hdr.d .copyf (copyCard s x 6 true) key
        ∧ ∃ o, (t.jobOf s.ctx.nextJob).follow = some o ∧ o.kind = .mma ∧ o.tcfg = s.gang.tcfg
            ∧ o.maskm = min s.gang.maskm.toNat 128 ∧ o.maskn = min s.gang.maskn.toNat 128)
    ∧ (s.issues x.hdr .gang (eFieldsOk s.gang x && isH x.hdr.d && isSImm x.a && x.b == .absent && x.c == .absent
        && x.control == 0) [(x.hdr.d, false)] (eSrcs x) m →
      let off := (readGang s 0x1D 0 x.a).toNat % 2 ^ 32
      off % 64 = 0 → off < 0x80000 →
      ∃ t, exec (.job x) s = .next t ∧ cardQueued s t x.hdr.d .job (cardOf (s.myCarrel.sp.read off 64)) key)
    ∧ (∀ p ∈ [(Instr.drain, (0 : Byte)), (Instr.drainAdd, 1)], ∀ tile : BitVec 2, x.a = .a tile →
      s.issues x.hdr .gang (eFieldsOk s.gang x && isH x.hdr.d && isS x.b && x.c == .absent
        && x.control.extractLsb' 1 30 == 0) [(x.hdr.d, false)] (eSrcs x) m →
      let a := readGang s 0x1D 0 x.b
      let c := s.gang.carrel
      a.toNat % 64 = 0 → s.myCarrel.seqLength < 8 →
      ∃ t, exec (p.1 x) s = .next t ∧ cardQueued s t x.hdr.d .drain
          { Card.zero with
            kind := 4, op := p.2, aux := a,
            source := BitVec.ofNat 64 (c / 48 * 2 ^ 54 + c % 48 * 2 ^ 48 + tile.toNat) } key
        ∧ ∃ o, (t.carrelOf c).seq = (s.carrelOf c).seq ++ [o] ∧ o.kind = .drainRead ∧ o.tile = tile
            ∧ o.job = s.ctx.nextJob)

/-- The engines (R48, R194, R195, R198, R201, R204, R205, R209, R214, R216): a card that passes its checks is begun;
a chunk advances the job's cursor and its output, the last one finishes it with its value; a fault suspends it and
asserts the halt line; a CRC mismatch is retried up to three times; a finished job completes its future. -/
def Obligations.EngineSteps : Prop :=
  (∀ (s s1 : State) (j g : Nat) (x z : Job) (stuck : List (Nat × EngErr)), s.ctx.made = true → s.halt = .running →
    s.ctx.grace = none → s.linkAll = (s1, stuck) → (∀ p ∈ stuck, p.1 ≠ j) → Table.seek s1.ctx.jobs j = some x →
    x.by_ ≠ .xform → x.state = .queued → x.linked = true → x.envBad = false → s1.jobWaits j x = false →
    s1.chooseGallery j x = some g → s1.takeCheck (({ x with gallery := g } : Job).engine g) { x with gallery := g } = .ok z →
    ∃ t, exec (.cardTake j) s = .next t ∧ (t.jobOf j).state = .running ∧ (t.jobOf j).begun = true
      ∧ (t.jobOf j).gallery = g ∧ (t.jobOf j).card = x.card)
  ∧ (∀ (s : State) (j : Nat), s.working j [1, 6] = true →
    let x := s.jobOf j
    let n := min 4096 (x.card.count.toNat - x.cursor)
    x.cursor < x.card.count.toNat →
    (∀ s1, s.copyChunk (x.engine x.gallery) x = .ok s1 →
      ∃ t, exec (.copyChunk j) s = .next t ∧ t.mem = s1.mem ∧ (t.jobOf j).cursor = x.cursor + n
        ∧ (t.jobOf j).out = x.out + n
        ∧ (x.cursor + n < x.card.count.toNat → (t.jobOf j).state = .running)
        ∧ (x.card.count.toNat ≤ x.cursor + n → x.follow = none →
            (t.jobOf j).state = .finishing ∧ (t.jobOf j).value = BitVec.ofNat 64 (x.out + n)))
    ∧ (∀ e, s.copyChunk (x.engine x.gallery) x = .fault e →
      ∃ t, exec (.copyChunk j) s = .next t ∧ t.halt = .asserted ∧ (t.jobOf j).state = .suspended
        ∧ ∃ f, t.faults = s.faults ++ [f] ∧ f.kind = e.kind ∧ f.unitKind = 4)
    ∧ (∀ w g, s.copyChunk (x.engine x.gallery) x = .crc w g →
      ∃ t, exec (.copyChunk j) s = .next t ∧ (t.jobOf j).state = .crcFailed ∧ (t.jobOf j).crcWant = w
        ∧ (t.jobOf j).crcGot = g ∧ (t.jobOf j).cursor = x.cursor ∧ t.halt = .running))
  ∧ (∀ (s : State) (j : Nat), Table.has s.ctx.jobs j = true → s.halt = .running →
    let x := s.jobOf j
    let n := min 4096 (x.card.count.toNat - x.cursor)
    let y := { x with retries := x.retries + 1 }
    x.state = .crcFailed → s.engineFree (x.engine x.gallery) j = true →
    (∀ s1, s.copyChunk (x.engine x.gallery) y = .ok s1 →
      ∃ t, exec (.crcRetry j) s = .next t ∧ t.mem = s1.mem ∧ (t.jobOf j).cursor = x.cursor + n)
    ∧ (∀ w g, s.copyChunk (x.engine x.gallery) y = .crc w g →
      ∃ t, exec (.crcRetry j) s = .next t ∧ (t.jobOf j).retries = x.retries + 1
        ∧ (x.retries + 1 < 3 → (t.jobOf j).state = .crcFailed)
        ∧ (3 ≤ x.retries + 1 → (t.jobOf j).state = .finishing
            ∧ (t.jobOf j).value = BitVec.ofNat 64 (2 ^ 63 + 4 * 2 ^ 32 + x.out % 2 ^ 32))))
  ∧ (∀ (s : State) (j : Nat), s.working j [2, 4] = true →
    let x := s.jobOf j
    let e := x.engine x.gallery
    (∀ p els s1, x.card.kind = 2 → s.pairOf e x = .ok p →
      let total := product p.extents
      let ks := chunkElems x.cursor total p.ed
      s.tensorElems e p ks = .ok els →
      s.writeElems e p.ed (some (BitVec.ofNat 8 p.dst.scale ++ p.dst.fmt)) false els (blocksTouched els) = .ok s1 →
      ∃ t, exec (.tensorCopyChunk j) s = .next t ∧ t.mem = s1.mem ∧ (t.jobOf j).cursor = x.cursor + ks.length
        ∧ (t.jobOf j).out = x.out + ks.length * p.ed
        ∧ (total ≤ x.cursor + ks.length → (t.jobOf j).state = .finishing
            ∧ (t.jobOf j).value = BitVec.ofNat 64 (x.out + ks.length * p.ed)))
    ∧ (∀ r s1, x.card.kind = 4 → x.tileRead = true → s.drainShape e x = .ok r →
      let w := containerBytes (fmtId r.fmt)
      let total := product r.extents
      let ks := chunkElems x.cursor total w
      let els := drainElems x r ks
      s.writeElems e w (if x.card.op = 0 then some (BitVec.ofNat 8 r.scale ++ r.fmt) else none) (x.card.op ≠ 0) els
        (blocksTouched els) = .ok s1 →
      ∃ t, exec (.tensorCopyChunk j) s = .next t ∧ t.mem = s1.mem ∧ (t.jobOf j).cursor = x.cursor + ks.length
        ∧ (total ≤ x.cursor + ks.length → (t.jobOf j).state = .finishing
            ∧ (t.jobOf j).value = BitVec.ofNat 64 (x.out + ks.length))))
  ∧ (∀ (s s1 : State) (j : Nat) (z : Inflate), s.working j [3] = true → (s.jobOf j).cancelled = true →
    let x := s.jobOf j
    s.flushOut (x.engine x.gallery) x { at_ := x.cursor, out := x.out, buf := x.outBuf, code := 0 } = .ok (s1, z) →
    ∃ t, exec (.inflateJob j) s = .next t ∧ t.mem = s1.mem ∧ (t.jobOf j).state = .finishing
      ∧ (t.jobOf j).value = BitVec.ofNat 64 (2 ^ 63 + 5 * 2 ^ 32 + x.out % 2 ^ 32))
  ∧ (∀ (s s1 : State) (j : Nat) (z : Inflate), s.working j [3] = true → (s.jobOf j).cancelled = false →
    let x := s.jobOf j
    let e := x.engine x.gallery
    s.tokens e x x.out { at_ := x.cursor, out := x.out, buf := x.outBuf, code := 0 }
      (x.card.count.toNat + 1 - x.cursor) = .ok (s1, z) →
    (z.at_ < x.card.count.toNat → z.code = 0 →
      ∃ t, exec (.inflateJob j) s = .next t ∧ t.mem = s1.mem ∧ (t.jobOf j).cursor = z.at_ ∧ (t.jobOf j).out = z.out)
    ∧ (∀ s2 z2, x.card.count.toNat ≤ z.at_ ∨ z.code ≠ 0 → s1.flushOut e x z = .ok (s2, z2) →
      ∃ t, exec (.inflateJob j) s = .next t ∧ t.mem = s2.mem ∧ (t.jobOf j).state = .finishing
        ∧ (t.jobOf j).value = if z.code = 0 then BitVec.ofNat 64 z.out
            else BitVec.ofNat 64 (2 ^ 63 + z.code * 2 ^ 32 + z.out % 2 ^ 32)))
  ∧ (∀ (s : State) (j : Nat) (x : Job), Table.seek s.ctx.jobs j = some x → x.state = .finishing → s.halt = .running →
    x.trace = none →
    exec (.jobComplete j) s = .next (s.endJob j x.value (if x.value.getLsbD 63 then none else some x.credit)))

/-- The buffer instructions (R213, R368 to R370); an entry that becomes FREE goes at once to the BUFGET that has waited
longest (R369). -/
def Obligations.BufferInstructions : Prop :=
  ∀ (x : RRR) (s : State) (m : Mask) (i : Nat),
    let k := s.gang.carrel
    let e := s.myCarrel.buf i
    let freed (e : BufEntry) : BufEntry := if e.claims = 0 then BufEntry.zero else { e with state := .draining }
    let left (t : State) : Prop :=
      (s.myCarrel.takers = [] → (t.carrelOf k).buf i = freed e)
      ∧ (e.claims ≠ 0 → (∀ j < 64, (s.myCarrel.buf j).state ≠ .free) → (t.carrelOf k).buf i = freed e)
      ∧ (∀ y rest, s.myCarrel.takers = y :: rest → e.claims = 0 → (∀ j < 64, (s.myCarrel.buf j).state ≠ .free) →
          s.myCarrel.gift y = none →
          (t.carrelOf k).buf i = { BufEntry.zero with state := .filling } ∧ (t.carrelOf k).gift y = some i)
    (s.issues x.hdr .gang (bufFieldsOk s x 0 false && isS x.hdr.d) [(x.hdr.d, false)] (bufSrcs x) m → i < 64 →
      s.myCarrel.gift (s.cur, s.gang.younger) = none → e.state = .free → (∀ j < i, (s.myCarrel.buf j).state ≠ .free) →
      s.myCarrel.turnOf (s.cur, s.gang.younger) = true →
      ∃ t, exec (.bufget x) s = .next t ∧ wentOn s t (s.pc + 12) ∧ launchedS t x.hdr.d (BitVec.ofNat 64 i)
        ∧ (t.carrelOf k).buf i = { BufEntry.zero with state := .filling }
        ∧ ∀ j, j ≠ i → (t.carrelOf k).buf j = s.myCarrel.buf j)
    ∧ (s.issues x.hdr .gang (bufFieldsOk s x 0 false && isS x.hdr.d) [(x.hdr.d, false)] (bufSrcs x) m →
      s.myCarrel.gift (s.cur, s.gang.younger) = none →
      s.myCarrel.turnOf (s.cur, s.gang.younger) = false ∨ (∀ j < 64, (s.myCarrel.buf j).state ≠ .free) →
      ∃ t, exec (.bufget x) s = .next t ∧ t.clock = s.clock ∧ t.pc = s.pc ∧ (t.carrelOf k).bufs = (s.carrelOf k).bufs
        ∧ (s.cur, s.gang.younger) ∈ (t.carrelOf k).takers)
    ∧ (s.issues x.hdr .gang (bufFieldsOk s x 0 false && isS x.hdr.d) [(x.hdr.d, false)] (bufSrcs x) m →
      s.myCarrel.gift (s.cur, s.gang.younger) = some i →
      ∃ t, exec (.bufget x) s = .next t ∧ wentOn s t (s.pc + 12) ∧ launchedS t x.hdr.d (BitVec.ofNat 64 i)
        ∧ (t.carrelOf k).gift (s.cur, s.gang.younger) = none ∧ (t.carrelOf k).bufs = (s.carrelOf k).bufs)
    ∧ (s.bufOperand x.a = some i →
      (s.issues x.hdr .gang (bufFieldsOk s x 3 false && x.hdr.d == .absent) [] (bufSrcs x) m →
        (let src := (readGang s 0x1D 0 x.b).toNat
         let y := { e with expected := e.expected.setIfInBounds src ((readGang s 0x1D 0 x.c).setWidth 32),
                           named := e.named ||| BitVec.ofNat 4 (2 ^ src) }
         src ≤ 3 → e.state = .filling →
         ∃ t, exec (.bufexp x) s = .next t ∧ wentOn s t (s.pc + 12)
           ∧ (t.carrelOf k).buf i = { y with satisfied := y.sat, state := if y.sat = y.named then .full else .filling }
           ∧ (y.sat = y.named → e.armed = true → (t.carrelOf k).sp.word e.offset.toNat 4 = e.value.toNat)
           ∧ (y.sat ≠ y.named ∨ e.armed = false → (t.carrelOf k).sp = (s.carrelOf k).sp))
        ∧ (let off := (readGang s 0x1D 0 x.b).toNat
           let v : Word := (readGang s 0x1D 0 x.c).setWidth 32
           off % 4 = 0 → off < 0x80000 → e.state = .filling ∨ e.state = .full →
           ∃ t, exec (.bufst x) s = .next t ∧ wentOn s t (s.pc + 12)
             ∧ (t.carrelOf k).buf i = { e with armed := true, offset := BitVec.ofNat 19 off, value := v }
             ∧ (e.state = .full → (t.carrelOf k).sp.word off 4 = v.toNat)
             ∧ (e.state = .filling → (t.carrelOf k).sp = (s.carrelOf k).sp)))
      ∧ (s.issues x.hdr .gang (bufFieldsOk s x 1 true && x.hdr.d == .absent) [] (bufSrcs x) m →
        (e.state = .full →
          ∃ t, exec (.bufrel x) s = .next t ∧ wentOn s t (s.pc + 12) ∧ left t)
        ∧ (e.state = .filling → exec (.bufrel x) s = .next s.hold)
        ∧ (e.state = .filling ∨ e.state = .full →
          ∃ t, exec (.bufrelAbort x) s = .next t ∧ wentOn s t (s.pc + 12) ∧ left t)))

/-- SYSR, SYSW and the PMSEL registers (R372 to R374), PHINT (R148, R376), BKPT and the Curator's control of one gang
(R155, R377). -/
def Obligations.SystemInstructions : Prop :=
  (∀ (x : RI) (s : State) (m : Mask),
    let num := RI.sysNumber x
    s.issues x.hdr .gang (x.mod == 0 && x.a == .absent && !x.fe && isS x.hdr.d && x.imm.extractLsb' 16 16 == 0
      && (s.sysValue s.gang.carrel num).isSome && !s.gang.isShadow) [(x.hdr.d, false)] (fun _ => []) m →
    ∃ t, exec (.sysr x) s = .next t ∧ wentOn s t (s.pc + 12) ∧ (∀ i, x.hdr.d = .s i → t.gang.sEmpty i = true)
      ∧ ∃ f, t.gang.flights.getLast? = some f ∧ f.dst = x.hdr.d ∧ f.req = .sysr s.gang.carrel num (s.clock + 8))
  ∧ (∀ (x : RI) (s : State) (m : Mask),
    let num := RI.sysNumber x
    let c := s.gang.carrel
    let v := readGang s 0x1D 0 x.a
    s.issues x.hdr .gang (syswOk s x) [] (syswSrcs x) m →
    (∀ k < 4, num = 0x18 + k → s.sysReading num = false → c ∉ s.gated →
      ∃ t, exec (.sysw x) s = .next t ∧ wentOn s t (s.pc + 12)
        ∧ let e := (((s.carrelOf c).pmsel.getD k 0)).toNat
          (e ≠ 3 → (t.carrelOf c).pmcnt.getD k 0 = if e = 1 ∨ (e = 2 ∧ s.gang.path.acted = 0) then v + 1 else v)
          ∧ (e = 3 → ∃ n ≤ 3, (t.carrelOf c).pmcnt.getD k 0 = v + BitVec.ofNat 64 n))
    ∧ (num = 0x20 → ∃ t, exec (.sysw x) s = .next t ∧ faulted s t (s.carrelFault Code.protection m m 0))
    ∧ (∀ k < 4, s.sysReading num = true → (num = 0x18 + k → exec (.sysw x) s = .next s.hold)
        ∧ (num = 0x10 + k → exec (.pmselWrite x) s = .next s.hold))
    ∧ (∀ k < 4, num = 0x10 + k → s.sysReading num = false →
      ∃ t, exec (.pmselWrite x) s = .next t ∧ wentOn s t (s.pc + 12)
        ∧ ((t.carrelOf c).pmsel.getD k 0).toNat = if v.toNat % 256 ≤ 9 then v.toNat % 256 else 0))
  ∧ (∀ (x : BFmt) (s : State) (m : Mask),
    s.issues x.hdr .gang (bFieldsOk x && x.hdr.d == .absent) [] (fun _ => []) m →
    (s.ctx.grace = none → ∃ t, exec (.phint x) s = .next t ∧ wentOn s t (s.pc + 12))
    ∧ (let o := x.off.toNat
       let r := ((s.consts s.gang.code).drop o).take 64
       let bm := BitVec.ofNat 256 (field r 0 32)
       s.ctx.grace ≠ none → s.gang.isShadow = false → s.flat → s.gang.partner = none → o % 64 = 0 →
       o + 64 ≤ (s.consts s.gang.code).length → bm &&& bitmapRsv = 0 → field r 40 24 = 0 →
       (s.gang.namedEmpty bm = true → exec (.phint x) s = .next s.holdEmpty)
       ∧ (s.gang.namedEmpty bm = false →
          exec (.phint x) s = .next (s.issuedOne.saveAtHint bm (BitVec.ofNat 64 (field r 32 8))).tick)))
  ∧ (∀ (x : RRR) (s : State) (m : Mask),
    s.issues x.hdr .gang (rrrPlain x false false && (x.a == .absent || isSImm x.a) && x.hdr.d == .absent) []
      (srcA x) m →
    (s.ctx.dbgctl.getLsbD 0 = false → s.gang.stepMode = false → ∃ t, exec (.bkpt x) s = .next t
      ∧ wentOn s t (s.pc + 12) ∧ t.gang.report = s.gang.report ∧ t.gang.stopped = s.gang.stopped)
    ∧ (s.ctx.dbgctl.getLsbD 0 = true → ∃ t, exec (.bkpt x) s = .next t ∧ wentOn s t (s.pc + 12)
      ∧ t.gang.stopped = true
      ∧ t.gang.report = some (if x.a = .absent then 0 else readGang s 0x1D 0 x.a)))
  ∧ (∀ (s : State) (n : Nat) (g : Gang), Table.seek s.ctx.gangs n = some g → s.halt = .running →
    (g.stopped = true →
      exec (.gangResume n) s = .next (s.setGangOf n { g with stopped := false, stepMode := false, report := none }))
    ∧ (g.resident = true →
      ∃ t, exec (.singleStep n) s = .next t ∧ t.choices = s.choices.tail
        ∧ t.gangOf n = { g with stopped := false, stepMode := true, report := none, focus := BitVec.ofNat 2 (s.choice % 3) }
        ∧ ∀ k, k ≠ n → t.gangOf k = s.gangOf k))

/-- A user trap is delivered with TRAPPC at the next word and TRAPC[8] set, and the path goes on at TRAPV; without a
handler, or while one runs, TRAP is ILLEGAL-OP and writes neither register; TRET goes back to TRAPPC with TRAPC[8]
clear, and is ILLEGAL-OP where it is clear (R142, R143, R375). A TRAP under a p guard is ILLEGAL-OP where a lane of XM
holds the predicate, else a no-op; under a never guard or a false k guard it does not act (R95, R271, R375). The clock
clause is the model's own (log 7). -/
def Obligations.UserTraps : Prop :=
  (∀ (x : RI) (s : State) (m : Mask),
    s.issues x.hdr .gang (x.mod == 0 && x.a == .absent && !x.fe && x.hdr.d == .absent && x.imm.extractLsb' 16 16 == 0
      && !s.gang.isShadow) [] (fun _ => []) m →
    (s.gang.trapv ≠ 0 → s.gang.trapc.getLsbD 8 = false →
      ∃ t, exec (.trap x) s = .next t ∧ wentOn s t s.gang.trapv ∧ t.gang.trappc = s.pc + 12
        ∧ t.gang.trapc = m ++ (x.imm.extractLsb' 0 16 : BitVec 16)
            ++ (0#6 ++ BitVec.ofBool s.gang.younger ++ 1#1 ++ 0x01#8 : BitVec 16)
        ∧ (s.flat → t.xm = s.xm))
    ∧ (s.gang.trapv = 0 ∨ s.gang.trapc.getLsbD 8 = true →
      ∃ t, exec (.trap x) s = .next t ∧ faulted s t (s.carrelFault Code.illegalOp m m 0)))
  ∧ (∀ (x : RRR) (s : State) (m : Mask),
    s.issues x.hdr .gang (rrrPlain x false false && x.a == .absent && x.hdr.d == .absent && !s.gang.isShadow) []
      (fun _ => []) m →
    (s.gang.trapc.getLsbD 8 = true →
      ∃ t, exec (.tret x) s = .next t ∧ wentOn s t s.gang.trappc
        ∧ (∀ i, t.gang.trapc.getLsbD i = (s.gang.trapc.getLsbD i && decide (i ≠ 8))))
    ∧ (s.gang.trapc.getLsbD 8 = false →
      ∃ t, exec (.tret x) s = .next t ∧ faulted s t (s.carrelFault Code.illegalOp s.xm s.xm 0)))
  ∧ (∀ (x : RI) (s : State), x.hdr.idx ≠ 7 → x.hdr.kind = false →
    let p := s.gang.pReg x.hdr.idx
    let m := s.xm &&& (if x.hdr.neg then ~~~p else p)
    (m ≠ 0 → ∃ t, exec (.trap x) s = .next t ∧ faulted s t (s.carrelFault Code.illegalOp m m 0))
    ∧ (m = 0 → ∃ t, exec (.trap x) s = .next t ∧ wentOn s t (s.pc + 12)))
  ∧ (∀ (x : RI) (s : State), (x.hdr.idx = 7 ∧ x.hdr.neg = true) ∨
      (x.hdr.kind = true ∧ s.gang.kReg x.hdr.idx = x.hdr.neg) →
    ∃ t, exec (.trap x) s = .next t ∧ wentOn s t (s.pc + 12))

/-- A word with an unassigned opcode raises ILLEGAL-OP in its acting lanes (R95, R270), and one that cannot be fetched
the fault of its translation (R259, R271); a lane's failed check is raised before any lane performs (R334, R271), a
misaligned access as an alignment fault with its address (R114): nothing else happens but that the fault is reported
and the halt line asserted (R144). The clock is the model's own (log 7), as is which of several lanes' faults is reported
(log 17). -/
def Obligations.ContextFaults : Prop :=
  (∀ (raw : IWord) (s : State) (m : Mask), acts s.gang (getHeader raw) .lane = .yes m →
    ∃ t, exec (.unassignedOpcode raw) s = .next t ∧ faulted s t (s.carrelFault 0x04 m m 0))
  ∧ (∀ (raw : IWord) (s : State), acts s.gang (getHeader raw) .lane = .no →
    ∃ t, exec (.unassignedOpcode raw) s = .next t ∧ wentOn s t (s.pc + 12))
  ∧ (∀ (s : State) (pa : Nat),
    (s.fetchBytes = .error (0x01, pa) → ∃ t, exec (.instructionFetchFault .translation s.pc) s = .next t
      ∧ faulted s t (s.carrelFault 0x01 s.xm s.xm s.pc))
    ∧ (s.fetchBytes = .error (0x02, pa) → ∃ t, exec (.instructionFetchFault .protection s.pc) s = .next t
      ∧ faulted s t (s.carrelFault 0x02 s.xm s.xm s.pc)))
  ∧ (∀ (x : MFmt) (s : State) (m : Mask) (spc : Space) (e : LaneFault), Space.ofBits x.space = some spc →
    x.width.toNat ≤ 3 → e.bad = [] →
    (resolveAll m fun l => resolveLane s spc (mWidth x.width) Need.store true l (mAddr s.gang x spc l)) = .error e →
    s.issues x.hdr .lane (spc != .lf && spc != .cn && x.width.toNat ≤ 3 && mFieldsOk s.gang x spc
       && x.hdr.d == .absent && !x.ext && (spc != .cl || 4 ≤ mWidth x.width)
       && storeDataOk s.gang (mWidth x.width = 8) x.data && !s.gang.isShadow) []
       (mSrcs x (readsBase spc) (mWidth x.width = 8)) m →
    ∃ t, exec (.st x) s = .next t ∧ faulted s t (s.carrelFault e.kind m e.lanes e.detail))
  ∧ (∀ (s : State) (m : Mask) (n : Nat) (need : Need) (addr : Nat → Nat) (spc : Space),
    spc = .gm ∨ spc = .sp ∨ spc = .lf ∨ spc = .cn → n ≠ 0 → (∃ l, l < 32 ∧ m.getLsbD l = true ∧ addr l % n ≠ 0) →
    ∃ e, resolveAll m (fun l => resolveLane s spc n need true l (addr l)) = .error e ∧ e.kind = 0x03 ∧ e.bad = []
      ∧ (∀ l < 32, e.lanes.getLsbD l = (m.getLsbD l && decide (addr l % n ≠ 0)))
      ∧ ∃ l, l < 32 ∧ e.lanes.getLsbD l = true ∧ e.detail = BitVec.ofNat 64 (addr l)
          ∧ ∀ k < l, e.lanes.getLsbD k = false)

/-- The halt line (R144): every unit of the partition writes its record at stop base + (wing * 168 + slot) * 64, with a
skid within its bound, as far as the partition has memory there (log 85); HALT_LINE leaves the clock as it was (log 7).
The Curator resumes the context with the next generation tag, where no path stands at a MODSET or MWAIT as it was (what stands there is translated again, R138,
R150), or ends it (R147), and answers a trace fault (R85). -/
def Obligations.HaltAndAnswer : Prop :=
  (∀ s : State, s.halt = .asserted →
    ∃ t, exec .haltLine s = .next t ∧ t.halt = .stopped ∧ t.faults = s.faults ∧ t.clock = s.clock
      ∧ ∀ w ∈ s.wings, s.ctx.stopBase.toNat + (w + 1) * 168 * 64 ≤ s.memBytes → ∀ n < 168, ∃ k ≤ skidBound (stopUnit n).1,
          t.mem.read (s.ctx.stopBase.toNat + (w * 168 + n) * 64) 64
            = stopRecord w n s.ctx.gen k (faultOf s.faults w n))
  ∧ (∀ s : State, s.halt = .stopped →
    (∃ t, exec .contextResume s = .next t ∧ t.ctx.gen = s.ctx.gen + 1 ∧ t.clock = s.clock
      ∧ (s.ctx.noneStand → t.halt = .running ∧ t.faults = [] ∧ t.mem = s.mem
          ∧ t.ctx.frames = s.ctx.frames ∧ t.ctx.slots = s.ctx.slots
          ∧ ∀ n, (t.gangOf n).p0.pc = (s.gangOf n).p0.pc ∧ (t.gangOf n).w = (s.gangOf n).w
              ∧ (t.gangOf n).s = (s.gangOf n).s))
    ∧ (s.faults ≠ [] →
      ∃ t, exec .contextTerminate s = .next t ∧ t.halt = .running ∧ t.faults = [] ∧ t.ctx = Context.none
        ∧ t.saved = s.saved)
    ∧ (∀ n, s.traceFault = some n → (s.faults.head?.map (·.kind)) = some Code.traceRewrite →
      exec .traceFaultResponse s = .next (s.abandon n).resume)
    ∧ (∀ n, s.traceFault = some n → (s.faults.head?.map (·.kind)) ≠ some Code.traceRewrite →
      exec .traceFaultResponse s = .next ((s.discardRuns n).abandon n).resume))

/-- The end of a slice opens the grace window, whose length W the Curator may set from 0 to 65,280 in steps of 256 (R148,
by the next choice, log 74); its close saves the context, all of its tables as they are and
its gangs halted (R149 to R151); a restore brings it back with the next generation tag, and gangs saved at PHINT to
their slots (R150, R151), as they were where no path stands at a MODSET or MWAIT. SLICE_END leaves the clock as it was
(log 7). -/
def Obligations.ContextSwitch : Prop :=
  (∀ (s : State), s.ctx.made = true → s.halt = .running → s.ctx.grace = none →
    ∃ t W, exec .sliceEnd s = .next t ∧ t.window = W ∧ t.ctx.grace = some (s.clock + W)
      ∧ (s.choice = 0 → W = s.window) ∧ (∀ k < 256, s.choice = k + 1 → W = 256 * k) ∧ (s.choice ≠ 0 → W % 256 = 0 ∧ W ≤ 65280)
      ∧ t.ctx.gangs = s.ctx.gangs ∧ t.mem = s.mem ∧ t.clock = s.clock)
  ∧ (∀ (s : State) (d : Nat), s.ctx.grace = some d → d ≤ s.clock → s.halt = .running → s.launchesDue = [] →
    ∃ t x, exec .graceWindowClose s = .next t ∧ t.ctx = Context.none ∧ t.saved = s.saved ++ [x] ∧ t.halt = .running
      ∧ x.number = s.ctx.number ∧ x.gen = s.ctx.gen ∧ x.grace = none ∧ x.fusedAt = s.fused
      ∧ x.frames = s.ctx.frames ∧ x.slots = s.ctx.slots ∧ x.shelves = s.ctx.shelves ∧ x.jobs = s.ctx.jobs
      ∧ x.traces = s.ctx.traces ∧ x.logs = s.ctx.logs
      ∧ x.gangs = s.ctx.gangs.map fun e => (e.1, e.2.freeze s.clock))
  ∧ (∀ (s : State) (n : Nat) (x : Context), s.ctx.made = false → s.halt = .running → s.recovery = false →
    (s.saved.find? fun y => y.number = n) = some x →
    ∃ t, exec (.contextRestore n) s = .next t ∧ t.ctx.number = n ∧ t.ctx.gen = x.gen + 1 ∧ t.fused = x.fusedAt
      ∧ (x.noneStand → t.mem = s.mem ∧ t.ctx.frames = x.frames ∧ t.ctx.slots = x.slots ∧ t.ctx.carrels = x.carrels
          ∧ t.ctx.gangs = x.gangs.map (fun e => (e.1, e.2.unsave.thaw s.clock)))
      ∧ ∀ y ∈ t.saved, y.number ≠ n)

/-- The desk (R33, R39, R45 to R47, R49, R73, R124): a launch packet makes its root task or is skipped with its reason, and
one that meets an uncorrectable block stops the context (R146, log 112); a task, the tasks of a packed gang together, a
continuation or a stale segment takes a slot; a launch ends with its completion word; an empty gallery changes its mode.
Of a continuation it is said that it goes on where it parked, with the number that an AWAITA chose in its s register. The
clock stays as it was (log 7); packed children come in the order of their entries (log 92); the addresses of launch
queues are virtual (log 28). -/
def Obligations.DeskPlacement : Prop :=
  (∀ (s : State) (header pa : Nat),
    let r := s.ringAt header
    s.deskPa (r.slot r.read 64) = some pa →
    let b := s.homeRead pa 64
    let n := field b 16 2
    (∃ p, Table.seek s.pages s.ctx.vi = some p ∧ p.attached = true) → header ∈ s.ctx.queues → r.write ≠ r.read →
    field b 0 2 ≠ 0 → s.ctx.made = true → s.halt = .running → s.ctx.grace = none →
    (∀ bad, s.deskBad header 64 = some bad → exec (.launchPacket header) s = .next (s.deskFault bad))
    ∧ (s.deskBad header 64 = none → ∀ bad, s.deskBad (r.slot r.read 64) 64 = some bad →
      exec (.launchPacket header) s = .next (s.deskFault bad))
    ∧ (s.deskBad header 64 = none → s.deskBad (r.slot r.read 64) 64 = none →
    (s.packetReason b ≠ 0 →
      exec (.launchPacket header) s = .next (((s.completionWord (BitVec.ofNat 64 (field b 24 8))
        (BitVec.ofNat 64 (2 ^ 63 + s.packetReason b))).homeWrite pa [0, 0]).deskWrite (header + 8)
          (natToBytes 8 (r.read + 1))))
    ∧ (s.packetReason b = 0 → (s.shelfOf n).full = false → s.ctx.frameRoom ≠ 0 →
      ∃ t, exec (.launchPacket header) s = .next t
        ∧ (t.shelfOf n).depth = (s.shelfOf n).depth + 1
        ∧ (t.launchOf (Table.fresh s.ctx.launches)).root = s.newFrame
        ∧ (t.launchOf (Table.fresh s.ctx.launches)).completion = BitVec.ofNat 64 (field b 24 8)
        ∧ (let f := t.frameOf s.newFrame
           f.state = .ready ∧ f.entryPc = BitVec.ofNat 64 (field b 8 8) ∧ f.width = field b 4 1
             ∧ f.launch = Table.fresh s.ctx.launches
             ∧ ∀ i < 128, f.args.getD i 0 = if i < 32 then b.getD (32 + i) 0 else 0))))
  ∧ (∀ (s : State) (l : Nat) (x : Launch), Table.seek s.ctx.launches l = some x → x.done = false →
    x.rootEnded = true → s.busyLaunch l = false → s.halt = .running →
    ∃ t v, exec (.launchComplete l) s = .next t ∧ (t.launchOf l).done = true
      ∧ t.mem = ((x.carrels.foldl (fun s c => s.release c levelPackage) s).completionWord x.completion v).mem
      ∧ (∀ i < 32, v.getLsbD i = x.rootRet.getLsbD i) ∧ v.getLsbD 63 = false)
  ∧ (∀ (s : State) (carrel q i : Nat) (p : Pick), s.nextEntry carrel = some p →
    let a := p.entry.payload.toNat
    let f := s.frameOf a
    f.state = .ready → f.packed = false → s.serving carrel = true → s.fits (s.taskInfo f.entryPc).2 carrel q i = true →
    ∃ t, exec (.taskDispatch carrel q i) s = .next t ∧ t.clock = s.clock ∧ t.cur = s.ctx.nextGang
      ∧ (t.frameOf a).state = .running ∧ t.gang.resident = true ∧ t.gang.carrel = carrel
      ∧ t.gang.quarter = BitVec.ofNat 2 q ∧ t.gang.slot = BitVec.ofNat 3 i ∧ t.gang.frame = a
      ∧ t.gang.since = s.clock ∧ t.pc = f.entryPc ∧ t.xm = Mask.first f.width)
  ∧ (∀ (s : State) (carrel q i b : Nat) (rest : List Nat) (p : Pick), s.nextEntry carrel = some p →
    let a := p.entry.payload.toNat
    let f := s.frameOf a
    f.state = .ready → f.packed = true → s.serving carrel = true → s.fits (s.taskInfo f.entryPc).2 carrel q i = true →
    s.packOf p.shelf a = b :: rest →
    ∃ t, exec (.taskDispatch carrel q i) s = .next t ∧ t.clock = s.clock ∧ t.cur = s.ctx.nextGang
      ∧ t.gang.packed = true ∧ t.gang.resident = true ∧ t.gang.carrel = carrel ∧ t.gang.frame = b
      ∧ t.pc = (s.frameOf b).entryPc ∧ t.xm = Mask.first (rest.length + 1)
      ∧ ∀ c ∈ b :: rest, (t.frameOf c).state = .running)
  ∧ (∀ (s : State) (a carrel q i k j : Nat) (p : Pick) (g : Gang) (d : BitVec 6), s.nextEntry carrel = some p →
    p.entry.payload.toNat = a → (s.frameOf a).state = .runnable → s.serving carrel = true → s.inPlaceOf a = none →
    Table.seek ((s.touch (wingOf carrel) p.shelf).takeEntry p.shelf p.pos).ctx.parked a = some g →
    g.pend = .chosen j k (.s d) → s.fits (s.taskInfo (s.frameOf a).entryPc).2 carrel q i = true →
    ∃ t, exec (.continuationResume a carrel q i) s = .next t ∧ t.clock = s.clock ∧ (t.frameOf a).state = .running
      ∧ Table.seek t.ctx.parked a = none ∧ t.gang.resident = true ∧ t.gang.carrel = carrel ∧ t.gang.frame = g.frame
      ∧ t.gang.sReg d = BitVec.ofNat 64 j ∧ t.pc = g.path.pc)
  ∧ (∀ (s : State) (tr f carrel q i : Nat) (im : EntryImage),
    let x := (s.traceOf tr).folio f
    x.image = some im → s.placeFor (s.taskInfo (s.frameOf x.frame).entryPc).2 carrel = some (q, i) →
    (s.traceOf tr).state = .propagating → (s.traceOf tr).active.isSome = true → (s.traceOf tr).cancels = [] →
    s.nextStale tr = some f → s.serving carrel = true → s.modeSuits (s.frameOf x.frame) carrel = true →
    s.reexecsOn (wingOf carrel) < 64 →
    ∃ t, exec (.reexecDispatch tr f carrel) s = .next t ∧ t.gang.mode = .reexec ∧ t.gang.trace = tr
      ∧ t.gang.folio = f ∧ t.gang.resident = true ∧ t.gang.carrel = carrel ∧ t.gang.frame = x.frame
      ∧ t.gang.s = im.gang.s ∧ t.gang.w = im.gang.w ∧ f ∉ (t.traceOf tr).queue)
  ∧ (∀ (s : State) (gallery : Nat) (fused : Bool), (∀ c ∈ galleryCarrels gallery, s.gangsOn c = []) →
    (∀ c ∈ galleryCarrels gallery, c ∈ s.carrels) → s.fused.contains gallery ≠ fused → s.halt = .running →
    ∃ t, exec (.galleryModeChange gallery fused) s = .next t ∧ t.fused.contains gallery = fused
      ∧ ∀ c ∈ galleryCarrels gallery, (t.cacheOf c).lines = [])

/-- What the Curator does to the device: invalidation of translations, which is complete once the accesses translated
before are performed (R138, R139); loading of code objects, with each relocation computed from the address of its symbol
(R383, R385, R386, R387, logs 85, 116); boot of an image that verifies, into the partition that module flash lays out
(R390, R395, logs 6, 22, 117); power gating (R399) and access tables (R394). -/
def Obligations.CuratorActions : Prop :=
  (∀ (s : State) (va size : Nat),
    ∃ t, exec (.translationInvalidate va size) s = .next t
      ∧ (∀ e ∈ t.l1s, ∀ x ∈ e.2.tlb, pageIn va size x.1 = false)
      ∧ (∀ e ∈ t.engTlbs, ∀ x ∈ e.2, pageIn va size x.1 = false)
      ∧ (s.halt = .running → ∀ a ∈ (s.invalidate va size).outstanding va size, ∃ u ∈ t.ctx.unmaps, u.va = va ∧ u.size = size
          ∧ t.draining u = true ∧ t.reusable a.2 = false))
  ∧ (∀ (s s1 : State) (o : CodeObject) (rest : List Nat), s.ctx.made = true → s.canPlace o = true →
    (s.loadRefused o = true → exec (.codeObjectLoad o) s = .next s)
    ∧ (s.loadRefused o = false →
      s.mapPages s.ctx.root (sectionPages o.codeBase.toNat o.codePa o.code.length false true false
        ++ sectionPages o.dataBase.toNat o.dataPa o.data.length true false false
        ++ sectionPages o.modBase.toNat o.modPa o.modData.length true false true) o.tables = some (s1, rest) →
      ∃ t, exec (.codeObjectLoad o) s = .next t
        ∧ t.mem = (((s1.homeWrite o.codePa (s.patched o .code o.code)).homeWrite o.dataPa
            (s.patched o .data o.data)).homeWrite o.modPa (s.patched o .modifiable o.modData)).mem
        ∧ Table.seek t.ctx.codes (Table.fresh s1.ctx.codes)
            = some ⟨s.patched o .consts o.consts, o.tasks, o.exports.map fun e => (e.id, labelAddr o e.sec e.off)⟩))
  ∧ (∀ (s : State) (o : CodeObject) (r : Reloc) (a : Nat),
    ((∃ off, r.target = .label .code off ∧ a = o.codeBase.toNat + off)
      ∨ (∃ off, r.target = .label .data off ∧ a = o.dataBase.toNat + off)
      ∨ (∃ off, r.target = .label .modifiable off ∧ a = o.modBase.toNat + off)
      ∨ ∃ id, r.target = .symbol id ∧ o.imports.contains id = true ∧ s.symbolAt id = some a) →
    (r.kind = .hi → s.relocBytes o r = some (natToBytes 4 (a / 2 ^ 32 % 2 ^ 32)))
    ∧ (r.kind = .lo → s.relocBytes o r = some (natToBytes 4 (a % 2 ^ 32)))
    ∧ (r.kind = .address → s.relocBytes o r = some (natToBytes 8 a))
    ∧ (r.kind = .offset → ∀ k : Int, -(2 ^ 31) ≤ k → k < 2 ^ 31 →
        (a : Int) = ((o.codeBase.toNat + r.at_ / 12 * 12 : Nat) : Int) + 12 * k →
        s.relocBytes o r = some (natToBytes 4 (BitVec.ofInt 32 k).toNat)))
  ∧ (∀ (s : State) (image : BootImage) (layout : Partition), layoutOk layout = true →
    ∃ t, exec (.packageReset image layout) s = .next t ∧ t.ctx = Context.none ∧ t.saved = [] ∧ t.pages = []
      ∧ t.mem = s.mem ∧ t.halt = .running ∧ t.version = image.version ∧ t.part = layout ∧ t.recovery = !t.booted
      ∧ (t.booted = true ↔ sha256 image.key = (List.range 32).map Config.anchor
          ∧ hssVerifies image.key image.signature (signedBytes image) = true
          ∧ Config.rollback.toNat ≤ image.version.toNat)
      ∧ (t.booted = true → t.measurement = BitVec.ofNat 256 (bytesToNat (sha256 (signedBytes image)))))
  ∧ (∀ (s : State) (c : Nat), c ∈ s.carrels →
    (c ∉ s.gated → s.gangsOn c = [] → s.booted = true →
      ∃ t, exec (.carrelGate c) s = .next t ∧ c ∈ t.gated ∧ (t.cacheOf c).lines = [] ∧ t.ctx.gangs = s.ctx.gangs)
    ∧ (∃ t, exec (.carrelWake c) s = .next t ∧ c ∉ t.gated ∧ t.mem = s.mem ∧ t.ctx = s.ctx))
  ∧ (∀ (s : State) (vi : Nat) (target : Target) (ranges : List AccessRange) (owner : Bool), ranges.length ≤ 16 →
    vi < 1024 → target = .memory ∨ target = .llc →
    ∃ t, exec (.accessTableChange vi target ranges owner) s = .next t
      ∧ (s.ctx.made = false ∨ s.ctx.vi ≠ vi → t.mem = s.mem ∧ t.ctx = s.ctx)
      ∧ (s.ctx.made = true → s.ctx.vi = vi → t.mem = s.allHome.mem)
      ∧ ∀ pa rd wr, t.granted vi pa rd wr = ranges.any fun r =>
          decide (r.base ≤ pa) && decide (pa < r.base + r.size) && (!rd || r.read) && (!wr || r.write))

/-- The mailbox (R398, R41, R46, R199, R396, R397): each command that is pending is answered, with status 0 and its
effect, or with 2 (an argument it does not take), 3 (no room for the quota) or 4 (a feature that the interface has not
accepted), and then with no other effect. A new context's DBGCTL is the Curator's (log 30). -/
def Obligations.MailboxCommands : Prop :=
  ∀ (s : State) (vi : Nat),
    let arg := s.argument vi
    let refused (i : Instr) (status : Byte) : Prop := ∃ t, exec i s = .next t ∧ ended s t vi status
    let used := ((if s.ctx.made then [s.ctx] else []) ++ s.saved).map (·.number)
    let free := (List.range 1024).find? fun n => !used.contains n
    (∀ (x : Layout) (s1 : State) (n : Nat) (rest : List Nat), s.asked vi 1 = true → free = some n → arg % 4096 = 0 →
      s.mapPages arg x.maps x.tables = some (s1, rest) →
      ∃ t, exec (.createContext vi x) s = .next t ∧ (t.pageOf vi).status = 0
        ∧ (s.ctx.made = false → t.ctx.made = true ∧ t.ctx.number = n ∧ t.ctx.vi = vi
          ∧ t.ctx.root = arg ∧ t.ctx.dbgctl = (if x.debug then 1 else 0) ∧ (t.shelfOf 0).valid = true
          ∧ (t.shelfOf 0).pinned = true)
        ∧ (s.ctx.made = true → t.ctx = s.ctx ∧ ∃ c, t.saved = s.saved ++ [c] ∧ c.made = true ∧ c.number = n ∧ c.vi = vi
          ∧ c.root = arg ∧ c.dbgctl = (if x.debug then 1 else 0)))
    ∧ (∀ x, s.asked vi 1 = true → free = none ∨ arg % 4096 ≠ 0 → refused (.createContext vi x) 2)
    ∧ (∀ x, s.asked vi 2 = true → s.halt = .running → s.contextOf vi arg = some x →
      (s.ctx.made = true → s.ctx.number = arg →
        ∃ t, exec (.destroyContext vi) s = .next t ∧ t.ctx = Context.none ∧ (t.pageOf vi).status = 0)
      ∧ (s.ctx.made = false ∨ s.ctx.number ≠ arg →
        ∃ t, exec (.destroyContext vi) s = .next t ∧ t.ctx = s.ctx ∧ (∀ y ∈ t.saved, y.number ≠ arg)
          ∧ (t.pageOf vi).status = 0))
    ∧ (s.asked vi 2 = true → s.halt = .running → s.contextOf vi arg = none → refused (.destroyContext vi) 2)
    ∧ (∀ x rest, s.asked vi 3 = true → s.contextsOf vi = x :: rest → arg % 64 = 0 →
      ∃ t, exec (.createLaunchQueue vi) s = .next t ∧ (t.pageOf vi).status = 0 ∧ t.mem = s.mem
        ∧ (s.ctx.made = true → s.ctx.vi = vi → arg ∈ t.ctx.queues)
        ∧ (s.ctx.made = false → ∀ y ∈ t.saved, y.number = x.number → arg ∈ y.queues))
    ∧ (s.asked vi 3 = true → s.contextsOf vi = [] ∨ arg % 64 ≠ 0 → refused (.createLaunchQueue vi) 2)
    ∧ (∀ x rest, s.asked vi 4 = true → s.contextsOf vi = x :: rest → arg % 32 = 0 → s.ctx.made = true →
      s.ctx.vi = vi →
      let n := arg / 32 % 4096
      let y := shelfOfBytes (s.homeRead arg 32) (s.shelfOf n)
      (n ≠ 0 → ∃ t, exec (.createShelfEntry vi) s = .next t ∧ (t.pageOf vi).status = 0 ∧ t.shelfOf n = y)
      ∧ (n = 0 → s.ctx.launches = [] → y.ok = true →
        ∃ t, exec (.createShelfEntry vi) s = .next t ∧ (t.pageOf vi).status = 0 ∧ t.shelfOf 0 = { y with pinned := true })
      ∧ (n = 0 → s.ctx.launches ≠ [] ∨ y.ok = false → refused (.createShelfEntry vi) 2))
    ∧ (∀ x rest, s.asked vi 4 = true → s.contextsOf vi = x :: rest → arg % 32 = 0 → s.ctx.made = false →
      arg / 32 % 4096 ≠ 0 →
      ∃ t, exec (.createShelfEntry vi) s = .next t ∧ (t.pageOf vi).status = 0
        ∧ ∀ y ∈ t.saved, y.number = x.number → Table.seek y.shelves (arg / 32 % 4096)
            = some (shelfOfBytes (s.homeRead arg 32) (Table.look x.shelves (arg / 32 % 4096) Shelf.none)))
    ∧ (s.asked vi 4 = true → s.contextsOf vi = [] ∨ arg % 32 ≠ 0 → refused (.createShelfEntry vi) 2)
    ∧ (s.asked vi 5 = true → s.accepts vi 7 = true → ((Table.del s.quotas vi).map (·.2)).sum + arg ≤ 49152 →
      ∃ t, exec (.setQuota vi) s = .next t ∧ Table.look t.quotas vi 0 = arg ∧ (t.pageOf vi).status = 0)
    ∧ (s.asked vi 5 = true → s.accepts vi 7 = true → 49152 < ((Table.del s.quotas vi).map (·.2)).sum + arg →
      refused (.setQuota vi) 3)
    ∧ (s.asked vi 5 = true → s.accepts vi 7 = false → refused (.setQuota vi) 4)
    ∧ (∀ x, s.asked vi 6 = true → s.accepts vi 6 = true → s.contextOf vi arg = some x →
      ∃ t, exec (.startMigrationRound vi) s = .next t ∧ t.migr = some (x.number, []) ∧ (t.pageOf vi).status = 0)
    ∧ (s.asked vi 6 = true → s.accepts vi 6 = true → s.contextOf vi arg = none → refused (.startMigrationRound vi) 2)
    ∧ (s.asked vi 6 = true → s.accepts vi 6 = false → refused (.startMigrationRound vi) 4)
    ∧ (∀ x, s.asked vi 7 = true → s.accepts vi 6 = true → s.contextOf vi arg = some x →
      (s.ctx.made = false ∨ s.ctx.number ≠ x.number →
        ∃ t, exec (.finalRound vi) s = .next t ∧ (t.pageOf vi).status = 0 ∧ t.resend = s.dirtyPages x.number)
      ∧ (s.ctx.made = true → s.ctx.number = x.number → s.ctx.grace = none → s.halt = .running →
        ∃ t, exec (.finalRound vi) s = .next t ∧ t.ctx.grace.isSome = true ∧ (t.pageOf vi).status = 1))
    ∧ (s.asked vi 7 = true → s.accepts vi 6 = true → s.contextOf vi arg = none → refused (.finalRound vi) 2)
    ∧ (s.asked vi 7 = true → s.accepts vi 6 = false → refused (.finalRound vi) 4)
    ∧ (∀ x q pa, s.asked vi 8 = true → s.contextOf vi (arg % 1024) = some x →
      Table.seek x.copyRings (arg / 1024 % 16) = some q → ({ s with ctx := x } : State).deskPa q.1.toNat = some pa →
      (arg < 2 ^ 14 → ∃ t, exec (.reportCopyQueue vi) s = .next t ∧ (t.pageOf vi).status = 0
        ∧ (t.pageOf vi).argument = BitVec.ofNat 48 pa)
      ∧ (2 ^ 14 ≤ arg → refused (.reportCopyQueue vi) 2))
    ∧ (∀ x q, s.asked vi 8 = true → s.contextOf vi (arg % 1024) = some x →
      Table.seek x.copyRings (arg / 1024 % 16) = some q → ({ s with ctx := x } : State).deskPa q.1.toNat = none →
      refused (.reportCopyQueue vi) 2)
    ∧ (∀ x, s.asked vi 8 = true → s.contextOf vi (arg % 1024) = some x →
      Table.seek x.copyRings (arg / 1024 % 16) = none → refused (.reportCopyQueue vi) 2)
    ∧ (s.asked vi 8 = true → s.contextOf vi (arg % 1024) = none → refused (.reportCopyQueue vi) 2)

/-- Requests from the fabric (R46, R199, R388 to R394): a granted RMA write, read or atomic acts at the home slices; a
send fills the next slot of a queue; attachment accepts the offered features; a quote carries the next counter; an
NVMe command stops, as the manual does not describe the namespace (R388). RMA_WRITE leaves the clock as it was (log 7);
what RMA_READ answers leaves the machine (log 80). -/
def Obligations.HostRequests : Prop :=
  (∀ (s : State) (who : Sender) (vi pa : Nat) (data : List Byte), s.admits who vi = true → inPage vi pa data.length = false →
    s.rangeGranted vi pa data.length false true = true → s.peerRefused who vi pa data.length = false →
    ∃ t, exec (.rmaWrite who vi pa data) s = .next t ∧ t.clock = s.clock
      ∧ ∀ b, t.mem.byte b = if pa ≤ b ∧ b < pa + data.length then data.getD (b - pa) 0 else s.mem.byte b)
  ∧ (∀ (s : State) (who : Sender) (vi pa : Nat) (data : List Byte), s.admits who vi = true → inPage vi pa data.length = true →
    exec (.rmaWrite who vi pa data) s = .next (s.setPageOf vi ((s.pageOf vi).putAll (pa - pageBase vi) data)))
  ∧ (∀ (s : State) (who : Sender) (vi pa : Nat) (data : List Byte) (op : RmaOp) (kind : QueueKind) (header : Nat),
    who.delivery = .uud ∨ (who.delivery = .rod ∧ s.accepts vi 1 = false) ∨ (who.delivery = .rudi ∧ s.accepts vi 2 = false) →
    exec (.rmaWrite who vi pa data) s = .next s ∧ exec (.rmaRead who vi pa data.length) s = .next s
      ∧ exec (.rmaAtomic who vi pa op) s = .next s ∧ exec (.queueSend who vi kind header data) s = .next s)
  ∧ (∀ (s : State) (who : Sender) (vi pa len : Nat), blockBad s pa len = false →
    exec (.rmaRead who vi pa len) s = .next s)
  ∧ (∀ (s : State) (who : Sender) (vi pa : Nat), s.admits who vi = true → pa % 8 = 0 → s.rangeGranted vi pa 8 true true = true →
    s.peerRefused who vi pa 8 = false → blockBad s pa 8 = false →
    let old := s.mem.word pa 8
    (∀ v, ∃ t, exec (.rmaAtomic who vi pa (.fetchAdd v)) s = .next t ∧ t.mem.word pa 8 = (old + v.toNat) % 2 ^ 64)
    ∧ (∀ expected new, ∃ t, exec (.rmaAtomic who vi pa (.compareSwap expected new)) s = .next t
        ∧ t.mem.word pa 8 = if old = expected.toNat then new.toNat else old))
  ∧ (∀ (s : State) (who : Sender) (vi header h : Nat) (x : Context) (slot : List Byte), s.admits who vi = true →
    slot.length = 64 → s.queueAt vi .launch header = some (x, h) → (who.peer = true → s.accepts vi 5 = true) →
    (({ s with ctx := x } : State).ringAt h).isFull = false →
    exec (.queueSend who vi .launch header slot) s = .next (s.within x fun s => s.fillSlot h 64 slot))
  ∧ (∀ (s : State) (vi : Nat),
    let p := s.pageOf vi
    s.serves = true → p.attachReq = true → p.attached = false →
    (p.wanted.toNat / 2 ^ 9 = 0 → p.wanted &&& ~~~Config.offered = 0 →
      ∃ t, exec (.attachRequest vi) s = .next t ∧ (t.pageOf vi).attached = true ∧ (t.pageOf vi).accepted = p.wanted
        ∧ (t.pageOf vi).attachStatus = 0)
    ∧ (p.wanted.toNat / 2 ^ 9 ≠ 0 →
      ∃ t, exec (.attachRequest vi) s = .next t ∧ (t.pageOf vi).attached = false
        ∧ (t.pageOf vi).attachStatus = 2))
  ∧ (∀ (s : State) (vi : Nat), s.serves = true → (s.pageOf vi).quoteReq = true →
    ∃ t, exec (.quoteRequest vi) s = .next t ∧ t.quotes = s.quotes + 1 ∧ (t.pageOf vi).quoteReq = false
      ∧ (t.pageOf vi).quote = s.quoteBytes vi ∧ (t.pageOf vi).signature.length = 5076)
  ∧ (∀ (s : State) (vi : Nat) (command : List Byte),
    exec (.nvmeOverFabricsCommand vi command) s = .refused .nvmeNamespace)

/-- What comes before a word's effect, in this order (R14, R51, R92, R95, R271): a word that does not act is a no-op;
a gang-class word that a p guard lets act, or fields that its page does not accept, ILLEGAL-OP; a wait for an empty
destination, then for an empty block-policy source; the FE-EMPTY trap of an empty trap-policy source (R142). -/
def Obligations.IssueOrder : Prop :=
  (∀ mk ∈ guardedWords, ∀ (x : RRR) (s : State), x.hdr.idx = 7 → x.hdr.neg = true →
    ∃ t, exec (mk x) s = .next t ∧ wentOn s t (s.pc + 12) ∧ registersKept s t ∧ t.gang.we = s.gang.we
      ∧ t.gang.hash = s.gang.hash ∧ t.gang.q = s.gang.q ∧ t.gang.flights = s.gang.flights
      ∧ t.gang.mode = s.gang.mode)
  ∧ (∀ r ∈ integerRows, ∀ (x : RRR) (s : State) (m : Mask),
    let c := WordClass.ofDest x.hdr.d
    let wide := wideType x.typ
    let legal := r.fields x && dstOk c s.gang wide x.hdr.d && rrrSrcsOk x r.sources c s.gang wide
    let srcs := rrrSrcs x r.sources wide m
    let blocks (y : Src) : Prop := y.empty s.gang = true ∧ y.trap = false ∧ y.lost s = false
    (acts s.gang x.hdr c = .illegal m → ∃ t, exec (r.make x) s = .next t
      ∧ faulted s t (s.carrelFault 0x04 m m 0))
    ∧ (acts s.gang x.hdr c = .yes m →
      (x.hdr.rsv = true ∨ legal = false → ∃ t, exec (r.make x) s = .next t
        ∧ faulted s t (s.carrelFault 0x04 m m 0))
      ∧ (x.hdr.rsv = false → legal = true →
        (dstEmpty s wide m x.hdr.d = true → exec (r.make x) s = .next s.holdEmpty)
        ∧ (dstEmpty s wide m x.hdr.d = false →
          ((∃ y ∈ srcs, blocks y) → exec (r.make x) s = .next s.holdEmpty)
          ∧ (∀ y, (∀ y ∈ srcs, ¬ blocks y) → (srcs.find? fun y => y.empty s.gang) = some y →
            s.gang.trapv ≠ 0 → s.gang.inHandler = false → s.gang.isShadow = false →
            ∃ t, exec (r.make x) s = .next t ∧ wentOn s t s.gang.trapv ∧ t.gang.trappc = s.pc
              ∧ t.gang.trapc.extractLsb' 0 8 = 0x03 ∧ t.gang.inHandler = true
              ∧ t.gang.trapc.extractLsb' 16 16 = y.field)))))

/-- What a word that writes registers leaves as it was, in whatever way it issues (R14, R89, R90). -/
def Obligations.RegisterFrame : Prop :=
  (∀ r ∈ integerRows ++ floatBitRows, ∀ (x : RRR) (s t : State), exec (r.make x) s = .next t →
    registersOnly s t x.hdr.d (wideType x.typ) none [x.a, x.b, x.c] ∧ t.gang.lrand = s.gang.lrand)
  ∧ (∀ r ∈ immediateRows, ∀ (x : RI) (s t : State), exec (r.make x) s = .next t →
    registersOnly s t x.hdr.d (wideType x.typ) none [x.a] ∧ t.gang.lrand = s.gang.lrand)
  ∧ (∀ r ∈ floatRows, ∀ (x : RRR) (s t : State), exec (r.make x) s = .next t →
    registersOnly s t x.hdr.d (wideType x.typ) none [x.a, x.b, x.c])
  ∧ (∀ mk ∈ [Instr.sel, .frnd, .shfl, .lsh, .lred, .lscan, .matchLanes], ∀ (x : RRR) (s t : State),
    exec (mk x) s = .next t → registersOnly s t x.hdr.d (wideType x.typ) none [x.a, x.b, x.c])
  ∧ (∀ mk ∈ [Instr.cmp, .fcmp], ∀ (x : RRR) (s t : State), exec (mk x) s = .next t →
    registersOnly s t .absent false (some x.pred) [x.a, x.b, x.c])
  ∧ (∀ (x : RI) (s t : State), exec (.cmpRI x) s = .next t →
    registersOnly s t .absent false (some x.pred) [x.a])
  ∧ (∀ (x : RI) (s t : State), exec (.cvt x) s = .next t →
    registersOnly s t x.hdr.d (wideType x.typ2) none [x.a])
  ∧ (∀ (x : RI) (s t : State), (∀ i, x.hdr.d ≠ .q i) → exec (.movi x) s = .next t → registersOnly s t x.hdr.d true none [])
  ∧ (∀ (x : RRR) (s t : State), exec (.plog x) s = .next t →
    registersOnly s t .absent false (some (x.mod.extractLsb' 11 4)) [])
  ∧ (∀ (x : RRR) (s t : State), exec (.vote x) s = .next t →
    registersOnly s t x.hdr.d false (some (voteDst x)) [])
  ∧ (∀ (x : RRR) (s t : State), (∀ i, x.hdr.d ≠ .q i) → (∀ i, x.hdr.d = .h i → s.gang.packed = false) →
    exec (.mov x) s = .next t →
    registersOnly s t x.hdr.d (x.typ.toNat = 0x1D) none [x.a])

/-- Loads, stores, PREF and the label accesses write no register as they issue, whatever comes of them: a load's
destination stays until LOAD_RETURN (R17). Loads, PREF and ordinary stores leave device memory as it is, a load and
PREF also the carrel's view of it; other carrels see nothing of a store before it is released (R123). -/
def Obligations.AccessFrame : Prop :=
  (∀ mk ∈ [Instr.ld, .ldv, .st, .stv, .pref, .ldlbl, .stlbl], ∀ (x : MFmt) (s t : State), exec (mk x) s = .next t →
    t.cur = s.cur ∧ (s.oneTask → registersKept s t) ∧ t.gang.w = s.gang.w ∧ t.gang.s = s.gang.s
      ∧ t.gang.p = s.gang.p ∧ t.gang.k = s.gang.k ∧ (∀ c, (t.carrelOf c).loft = (s.carrelOf c).loft)
      ∧ (∀ c, (t.carrelOf c).tiles = (s.carrelOf c).tiles) ∧ t.ctx.slots = s.ctx.slots
      ∧ ((∀ l, s.traced (s.gang.task l) = false) → t.ctx.shelves = s.ctx.shelves
          ∧ (s.oneTask → t.gang.mode = s.gang.mode)))
  ∧ (∀ mk ∈ [Instr.ld, .ldv, .st, .stv, .pref, .ldlbl], ∀ (x : MFmt) (s t : State),
    (∀ l, s.traced (s.gang.task l) = false) → s.gang.path.reread = false → exec (mk x) s = .next t → t.mem = s.mem)
  ∧ (∀ mk ∈ [Instr.ld, .ldv, .pref, .ldlbl], ∀ (x : MFmt) (s t : State),
    (∀ l, s.traced (s.gang.task l) = false) → s.gang.path.reread = false → exec (mk x) s = .next t →
    (∀ a, t.viewByte s.gang.carrel a = s.viewByte s.gang.carrel a)
      ∧ (∀ c, (t.carrelOf c).sp = (s.carrelOf c).sp)
      ∧ t.ctx.frames = s.ctx.frames)
  ∧ (∀ mk ∈ [Instr.st, .stv], ∀ (x : MFmt) (s t : State) (c : Nat), (∀ l, s.traced (s.gang.task l) = false) → exec (mk x) s = .next t →
    s.isFused s.gang.carrel = false → s.isFused c = false → galleryOf c ≠ galleryOf s.gang.carrel →
    ∀ a, t.viewByte c a = s.viewByte c a)

/-- A step with nothing waiting from outside, no event due, no line to evict and the halt line not asserted runs the
instruction that the bytes at the chosen path's pc decode to, in the state with that path current and the translation
kept; a word that waits keeps the fields of its fetch (R272), and some words wait for a strong access of the gang that an
order gate holds (R163, R340, log 103); regions beyond a path's 16 then stand in the spill area
(R99). Events from outside come first, then the halt line and the Curator's answer (R49, R144, R259, log 3). -/
def Obligations.StepRunsDecoded : Prop :=
  (∀ (s : State) (turn : Turn), s.agenda = [] → s.recovery = false → s.halt = .running → s.evicted = none →
    s.unmapped = none →
    firstOf (fun i => exec i s) s.events = none → firstTurn s.turns = some turn →
    let u := s.select turn.gang turn.younger
    u.heldTrap = none →
    (∀ (bs : List Byte) (ts : List (Nat × Translation)) (i : Instr) (rest : List Byte), u.latched = none →
      u.fetchBytes = .ok (bs, ts) → decode bs = .ok (i, rest) →
      let v := (u.keepFetch ts).latch (wordOfBytes bs)
      (v.waitsForHeld i = false → step s = spilled u.gang.path.deep (exec i v))
      ∧ (v.waitsForHeld i = true → step s = .next v.hold))
    ∧ (∀ w, u.latched = some w →
      (u.waitsForHeld (decodeWord w) = false → step s = spilled u.gang.path.deep (exec (decodeWord w) u))
      ∧ (u.waitsForHeld (decodeWord w) = true → step s = .next u.hold)))
  ∧ (∀ (s : State) (i : Instr) (rest : List Instr), s.agenda = i :: rest → step s = exec i { s with agenda := rest })
  ∧ (∀ s : State, s.agenda = [] → s.recovery = false →
    (s.halt = .asserted → step s = exec .haltLine s)
    ∧ (s.halt = .stopped → s.traceFault = none → step s = exec .contextTerminate s)
    ∧ (s.halt = .stopped → s.traceFault ≠ none → step s = exec .traceFaultResponse s))

/-- Words that the spec's pages write out decode to the instruction of their assembly line (R259 to R269). -/
def Obligations.SpecWordsDecode : Prop :=
  ∀ e ∈ specWords, e.2.2.wf = true ∧ decode (natToBytes 12 (e.1 * 2 ^ 64 + e.2.1)) = .ok (e.2.2, [])

/-- Byte storage (R5, R131, log 4): a write is read back and leaves every other byte and every label; a label is a
block's; numbers and instruction words are little-endian; memories in the canonical form that read alike are equal. -/
def Obligations.MemoryLaws : Prop :=
  (∀ (m : Memory) (a : Nat) (bs : List Byte),
    (∀ b, (m.write a bs).byte b = if a ≤ b ∧ b < a + bs.length then bs.getD (b - a) 0 else m.byte b)
      ∧ (m.write a bs).read a bs.length = bs ∧ (∀ blk, (m.write a bs).label blk = m.label blk))
  ∧ (∀ (m : Memory) (a n v : Nat), v < 2 ^ (8 * n) → (m.write a (natToBytes n v)).word a n = v)
  ∧ (∀ (m : Memory) (a n i : Nat), i < n → m.word a n / 256 ^ i % 256 = (m.byte (a + i)).toNat)
  ∧ (∀ (bs : List Byte) (i : Nat), bs.length = 12 → i < 12 → (wordOfBytes bs).extractLsb' (8 * i) 8 = bs.getD i 0)
  ∧ (∀ (m : Memory) (blk : Nat) (l : Label),
    (∀ k, (m.setLabel blk l).label k = if k = blk then l else m.label k)
      ∧ (∀ b, (m.setLabel blk l).byte b = m.byte b))
  ∧ (∀ m m' : Memory, m.wf = true → m'.wf = true → (∀ a, m.byte a = m'.byte a) →
    (∀ k, m.label k = m'.label k) → m = m')

/-- Every step keeps device memory in its canonical form (R131, log 4). -/
def Obligations.MemoryStaysCanonical : Prop :=
  ∀ s t : State, s.mem.wf = true → step s = .next t → t.mem.wf = true

/-- After package reset nothing has booted, no context, page, quota or access table exists, no unit is halted and
memory lists nothing (R118, R390, R392); a task starts with its pc at its entry, XM at its width, the store hash of
R178 and the other special registers as R108 says. The clock 0 (log 84) and the empty quota list (log 29) are the
model's own, as what unwritten memory reads as is (log 4). -/
def Obligations.ResetLeaves : Prop :=
  (let s := State.reset
   s.booted = false ∧ s.recovery = false ∧ s.halt = .running ∧ s.faults = [] ∧ s.ctx.made = false
     ∧ s.saved = [] ∧ s.pages = [] ∧ s.quotas = [] ∧ s.access = [] ∧ s.mem = Memory.empty ∧ s.mem.wf = true ∧ s.clock = 0)
  ∧ (∀ (pc : DWord) (width : Nat),
    let g := Gang.start pc width
    g.p0.pc = pc ∧ g.xm = Mask.first width ∧ g.p1 = none ∧ g.hash = 0x243F6A8885A308D3 ∧ g.trapv = 0 ∧ g.trapc = 0
      ∧ g.trappc = 0 ∧ g.obsdef = 1 ∧ g.replaym = 0 ∧ g.tcfg = 0 ∧ g.maskm = 128 ∧ g.maskn = 128 ∧ g.focus = 0
      ∧ ∀ l < 32, g.lrand.at l = BitVec.ofNat 32 (1 + l))

end Statements
end

