-- ==== Sys2Proof/Laws/Memory.lean ====
section
/-! SUPPORT. Tables and byte storage: what a lookup gives after an update, and that every operation on memory keeps
the canonical form. -/

namespace Sys2Proof.Machine

open Sys2Proof

/-! Lookups after updates. -/

theorem Table.look_put {α : Type} (t : Table α) (k j : Nat) (v d : α) :
    (Table.put t k v).look j d = if j = k then v else t.look j d := by
  induction t with
  | nil => simp [Table.put, Table.look]
  | cons e r ih =>
    obtain ⟨k', v'⟩ := e
    by_cases hk : k = k'
    · subst hk; by_cases hj : j = k <;> simp [Table.put, Table.look, hj]
    · by_cases hlt : k < k'
      · by_cases hj : j = k <;> simp [Table.put, Table.look, hk, hlt, hj]
      · by_cases hj : j = k'
        · subst hj; simp [Table.put, Table.look, hk, hlt, Ne.symm hk]
        · simp [Table.put, Table.look, hk, hlt, hj, ih]

theorem Table.seek_put {α : Type} (t : Table α) (k j : Nat) (v : α) :
    (Table.put t k v).seek j = if j = k then some v else t.seek j := by
  induction t with
  | nil => simp [Table.put, Table.seek]
  | cons e r ih =>
    obtain ⟨k', v'⟩ := e
    by_cases hk : k = k'
    · subst hk; by_cases hj : j = k <;> simp [Table.put, Table.seek, hj]
    · by_cases hlt : k < k'
      · by_cases hj : j = k <;> simp [Table.put, Table.seek, hk, hlt, hj]
      · by_cases hj : j = k'
        · subst hj; simp [Table.put, Table.seek, hk, hlt, Ne.symm hk]
        · simp [Table.put, Table.seek, hk, hlt, hj, ih]

theorem Table.look_del {α : Type} (t : Table α) (k j : Nat) (d : α) :
    (Table.del t k).look j d = if j = k then d else t.look j d := by
  induction t with
  | nil => simp [Table.del, Table.look]
  | cons e r ih =>
    obtain ⟨k', v'⟩ := e
    simp only [Table.del] at ih
    by_cases hk : k' = k
    · subst hk; by_cases hj : j = k' <;> simp_all [Table.del, Table.look]
    · by_cases hj : j = k'
      · subst hj; simp [Table.del, Table.look, hk]
      · simp [Table.del, Table.look, hk, hj, ih]

theorem Table.seek_del {α : Type} (t : Table α) (k j : Nat) :
    (Table.del t k).seek j = if j = k then none else t.seek j := by
  induction t with
  | nil => simp [Table.del, Table.seek]
  | cons e r ih =>
    obtain ⟨k', v'⟩ := e
    simp only [Table.del] at ih
    by_cases hk : k' = k
    · subst hk; by_cases hj : j = k' <;> simp_all [Table.del, Table.seek]
    · by_cases hj : j = k'
      · subst hj; simp [Table.del, Table.seek, hk]
      · simp [Table.del, Table.seek, hk, hj, ih]

/-- A table read through one entry: the default where the key is not listed. -/
theorem Table.look_eq_seek {α : Type} (t : Table α) (k : Nat) (d : α) : t.look k d = (t.seek k).getD d := by
  induction t with
  | nil => rfl
  | cons e r ih => obtain ⟨k', v⟩ := e; by_cases h : k = k' <;> simp [Table.look, Table.seek, h, ih]

theorem State.gangOf_setGangOf (s : State) (n m : Nat) (g : Gang) :
    (s.setGangOf n g).gangOf m = if m = n then g else s.gangOf m := Table.look_put ..

theorem State.carrelOf_setCarrelOf (s : State) (n m : Nat) (x : Carrel) :
    (s.setCarrelOf n x).carrelOf m = if m = n then x else s.carrelOf m := Table.look_put ..

theorem State.frameOf_setFrameOf (s : State) (n m : Nat) (x : Frame) :
    (s.setFrameOf n x).frameOf m = if m = n then x else s.frameOf m := Table.look_put ..

theorem State.slotOf_setSlotOf (s : State) (n m : Nat) (x : Slot) :
    (s.setSlotOf n x).slotOf m = if m = n then x else s.slotOf m := Table.look_put ..

theorem State.shelfOf_setShelfOf (s : State) (n m : Nat) (x : Shelf) :
    (s.setShelfOf n x).shelfOf m = if m = n then x else s.shelfOf m := Table.look_put ..

theorem State.traceOf_setTraceOf (s : State) (n m : Nat) (x : Trace) :
    (s.setTraceOf n x).traceOf m = if m = n then x else s.traceOf m := Table.look_put ..

theorem State.jobOf_setJobOf (s : State) (n m : Nat) (x : Job) :
    (s.setJobOf n x).jobOf m = if m = n then x else s.jobOf m := Table.look_put ..

theorem State.cacheOf_setCacheOf (s : State) (n m : Nat) (x : Cache) :
    (s.setCacheOf n x).cacheOf m = if m = n then x else s.cacheOf m := Table.look_put ..

theorem State.galleryCache_setGalleryCache (s : State) (n m : Nat) (x : Cache) :
    (s.setGalleryCache n x).galleryCache m = if m = n then x else s.galleryCache m := Table.look_put ..

theorem State.gang_setGangOf_cur (s : State) (g : Gang) : (s.setGangOf s.cur g).gang = g := by
  simp [State.gang, State.setGangOf, State.gangOf, Table.look_put]

/-! The canonical form: an equivalent reading that splits over `++`. -/

/-- Strictly rising keys from `lo` on and no default value. -/
theorem Table.canon_cons {α : Type} [BEq α] (d : α) (k : Nat) (v : α) (r : Table α) :
    Table.canon d ((k, v) :: r) = true ↔
      (v != d) = true ∧ (∀ e ∈ r, k < e.1) ∧ Table.canon d r = true := by
  induction r generalizing k v with
  | nil => simp [Table.canon]
  | cons e r ih =>
    obtain ⟨k', v'⟩ := e
    simp only [Table.canon, Bool.and_eq_true, decide_eq_true_eq, ih k' v', List.mem_cons]
    constructor
    · rintro ⟨⟨hv, hk⟩, h1, h2, h3⟩
      exact ⟨hv, fun e he => he.elim (fun h => h ▸ hk) (fun h => Nat.lt_trans hk (h2 e h)), h1, h2, h3⟩
    · rintro ⟨hv, hk, h1, h2, h3⟩
      exact ⟨⟨hv, hk _ (.inl rfl)⟩, h1, h2, h3⟩

theorem Table.canon_append {α : Type} [BEq α] (d : α) (t u : Table α) :
    Table.canon d (t ++ u) = true ↔
      Table.canon d t = true ∧ Table.canon d u = true ∧ ∀ e ∈ t, ∀ f ∈ u, e.1 < f.1 := by
  induction t with
  | nil => simp [Table.canon]
  | cons e r ih =>
    obtain ⟨k, v⟩ := e
    simp only [List.cons_append, Table.canon_cons, ih, List.mem_append, List.mem_cons]
    constructor
    · rintro ⟨hv, hk, h1, h2, h3⟩
      exact ⟨⟨hv, fun e he => hk e (.inl he), h1⟩, h2, fun e he f hf =>
        he.elim (fun h => h ▸ hk f (.inr hf)) (fun h => h3 e h f hf)⟩
    · rintro ⟨⟨hv, hk, h1⟩, h2, h3⟩
      exact ⟨hv, fun e he => he.elim (hk e) (h3 _ (.inl rfl) e), h1, h2, fun e he f hf => h3 e (.inr he) f hf⟩

theorem Table.canon_filter {α : Type} [BEq α] (d : α) (t : Table α) (p : Nat × α → Bool)
    (h : Table.canon d t = true) : Table.canon d (t.filter p) = true := by
  induction t with
  | nil => simpa using h
  | cons e r ih =>
    obtain ⟨k, v⟩ := e
    obtain ⟨hv, hk, hr⟩ := (Table.canon_cons d k v r).1 h
    by_cases hp : p (k, v) = true
    · simp only [List.filter_cons, hp, if_true, Table.canon_cons]
      exact ⟨hv, fun e he => hk e (List.mem_filter.1 he).1, ih hr⟩
    · simpa [List.filter_cons, hp] using ih hr

theorem Table.mem_put {α : Type} (t : Table α) (k : Nat) (v : α) (e : Nat × α) (h : e ∈ Table.put t k v) :
    e = (k, v) ∨ e ∈ t := by
  induction t with
  | nil => simpa [Table.put] using h
  | cons x r ih =>
    obtain ⟨k', v'⟩ := x
    simp only [Table.put] at h
    split at h
    · rcases List.mem_cons.1 h with h | h
      · exact .inl h
      · exact .inr (List.mem_cons_of_mem _ h)
    · split at h
      · rcases List.mem_cons.1 h with h | h
        · exact .inl h
        · exact .inr h
      · rcases List.mem_cons.1 h with h | h
        · exact .inr (h ▸ List.mem_cons_self)
        · exact (ih h).imp id (List.mem_cons_of_mem _)

theorem Table.canon_put {α : Type} [BEq α] (d : α) (t : Table α) (k : Nat) (v : α) (hv : (v != d) = true)
    (h : Table.canon d t = true) : Table.canon d (Table.put t k v) = true := by
  induction t with
  | nil => simpa [Table.put, Table.canon] using hv
  | cons e r ih =>
    obtain ⟨k', v'⟩ := e
    obtain ⟨hv', hk, hr⟩ := (Table.canon_cons d k' v' r).1 h
    simp only [Table.put]
    split
    · rename_i he; subst he; exact (Table.canon_cons ..).2 ⟨hv, hk, hr⟩
    · split
      · rename_i _ hlt
        refine (Table.canon_cons ..).2 ⟨hv, fun e he => ?_, h⟩
        rcases List.mem_cons.1 he with he | he
        · exact he ▸ hlt
        · exact Nat.lt_trans hlt (hk e he)
      · rename_i hne hlt
        refine (Table.canon_cons ..).2 ⟨hv', fun e he => ?_, ih hr⟩
        rcases Table.mem_put r k v e he with he | he
        · subst he; exact Nat.lt_of_le_of_ne (Nat.le_of_not_lt hlt) (Ne.symm hne)
        · exact hk e he

theorem Table.canon_store {α : Type} [BEq α] (d : α) (t : Table α) (k : Nat) (v : α)
    (h : Table.canon d t = true) : Table.canon d (Table.store t k v d) = true := by
  unfold Table.store
  split
  · exact Table.canon_filter d t _ h
  · rename_i hne; exact Table.canon_put d t k v (by simpa [bne] using hne) h

/-! Every operation on memory keeps the canonical form. -/

theorem Memory.wf_iff (m : Memory) :
    m.wf = true ↔ Table.canon 0 m.bytes = true ∧ Table.canon 0 m.labels = true := by
  simp [Memory.wf]

theorem Memory.empty_wf : Memory.empty.wf = true := rfl

theorem Memory.setByte_wf (m : Memory) (a : Nat) (b : Byte) (h : m.wf = true) : (m.setByte a b).wf = true := by
  rw [Memory.wf_iff] at h ⊢; exact ⟨Table.canon_store 0 _ a b h.1, h.2⟩

theorem Memory.setLabel_wf (m : Memory) (blk : Nat) (l : Label) (h : m.wf = true) : (m.setLabel blk l).wf = true := by
  rw [Memory.wf_iff] at h ⊢; exact ⟨h.1, Table.canon_store 0 _ blk l h.2⟩

/-- The cells of a run are in the canonical form and lie within it. -/
theorem cellsOf_canon (a : Nat) (bs : List Byte) :
    Table.canon 0 (cellsOf a bs) = true ∧ ∀ e ∈ cellsOf a bs, a ≤ e.1 ∧ e.1 < a + bs.length := by
  induction bs generalizing a with
  | nil => simp [cellsOf, Table.canon]
  | cons b r ih =>
    obtain ⟨hc, hm⟩ := ih (a + 1)
    by_cases hb : b = 0
    · simp only [cellsOf, hb, if_true, List.length_cons]
      exact ⟨hc, fun e he => ⟨by have := (hm e he).1; omega, by have := (hm e he).2; omega⟩⟩
    · simp only [cellsOf, hb, if_false, List.length_cons, Table.canon_cons, List.mem_cons]
      refine ⟨⟨by simpa [bne] using hb, fun e he => by have := (hm e he).1; omega, hc⟩, fun e he => ?_⟩
      rcases he with he | he
      · subst he; exact ⟨Nat.le_refl _, by simp only; omega⟩
      · exact ⟨by have := (hm e he).1; omega, by have := (hm e he).2; omega⟩

theorem Memory.write_wf (m : Memory) (a : Nat) (bs : List Byte) (h : m.wf = true) : (m.write a bs).wf = true := by
  rw [Memory.wf_iff] at h ⊢
  obtain ⟨hc, hm⟩ := cellsOf_canon a bs
  refine ⟨?_, h.2⟩
  simp only [Memory.write, Table.canon_append]
  refine ⟨⟨Table.canon_filter 0 _ _ h.1, hc, fun e he f hf => ?_⟩, Table.canon_filter 0 _ _ h.1, fun e he f hf => ?_⟩
  · have := (List.mem_filter.1 he).2; have := (hm f hf).1; simp at *; omega
  · have hf' := (List.mem_filter.1 hf).2
    simp only [decide_eq_true_eq] at hf'
    rcases List.mem_append.1 he with he | he
    · have := (List.mem_filter.1 he).2; simp only [decide_eq_true_eq] at this; omega
    · have := (hm e he).2; omega

/-- A scratchpad that keeps only the blocks of a bitmap (R151). -/
theorem Memory.keepBlocks_wf (m : Memory) (bm : DWord) (h : m.wf = true) : (m.keepBlocks bm).wf = true := by
  rw [Memory.wf_iff] at h ⊢; exact ⟨Table.canon_filter 0 _ _ h.1, Table.canon_filter 0 _ _ h.2⟩

theorem reset_mem_wf : State.reset.mem.wf = true := rfl

end Sys2Proof.Machine
end

