-- ==== Sys2Proof/Laws/State.lean ====
section
/-! SUPPORT. For each update of the state, of its context and of a gang: what every field holds after it. -/

namespace Sys2Proof.Machine

open Sys2Proof

/-! `State.setGangOf`. -/

@[simp] theorem State.setGangOf_agenda (s : State) (n : Nat) (g : Gang) : (s.setGangOf n g).agenda = s.agenda := rfl
@[simp] theorem State.setGangOf_clock (s : State) (n : Nat) (g : Gang) : (s.setGangOf n g).clock = s.clock := rfl
@[simp] theorem State.setGangOf_asleep (s : State) (n : Nat) (g : Gang) : (s.setGangOf n g).asleep = s.asleep := rfl
@[simp] theorem State.setGangOf_free (s : State) (n : Nat) (g : Gang) : (s.setGangOf n g).free = s.free := rfl
@[simp] theorem State.setGangOf_choices (s : State) (n : Nat) (g : Gang) : (s.setGangOf n g).choices = s.choices := rfl
@[simp] theorem State.setGangOf_cur (s : State) (n : Nat) (g : Gang) : (s.setGangOf n g).cur = s.cur := rfl
@[simp] theorem State.setGangOf_saved (s : State) (n : Nat) (g : Gang) : (s.setGangOf n g).saved = s.saved := rfl
@[simp] theorem State.setGangOf_mem (s : State) (n : Nat) (g : Gang) : (s.setGangOf n g).mem = s.mem := rfl
@[simp] theorem State.setGangOf_bad (s : State) (n : Nat) (g : Gang) : (s.setGangOf n g).bad = s.bad := rfl
@[simp] theorem State.setGangOf_errorLog (s : State) (n : Nat) (g : Gang) : (s.setGangOf n g).errorLog = s.errorLog := rfl
@[simp] theorem State.setGangOf_l1s (s : State) (n : Nat) (g : Gang) : (s.setGangOf n g).l1s = s.l1s := rfl
@[simp] theorem State.setGangOf_l2s (s : State) (n : Nat) (g : Gang) : (s.setGangOf n g).l2s = s.l2s := rfl
@[simp] theorem State.setGangOf_engTlbs (s : State) (n : Nat) (g : Gang) : (s.setGangOf n g).engTlbs = s.engTlbs := rfl
@[simp] theorem State.setGangOf_fused (s : State) (n : Nat) (g : Gang) : (s.setGangOf n g).fused = s.fused := rfl
@[simp] theorem State.setGangOf_gated (s : State) (n : Nat) (g : Gang) : (s.setGangOf n g).gated = s.gated := rfl
@[simp] theorem State.setGangOf_halt (s : State) (n : Nat) (g : Gang) : (s.setGangOf n g).halt = s.halt := rfl
@[simp] theorem State.setGangOf_faults (s : State) (n : Nat) (g : Gang) : (s.setGangOf n g).faults = s.faults := rfl
@[simp] theorem State.setGangOf_window (s : State) (n : Nat) (g : Gang) : (s.setGangOf n g).window = s.window := rfl
@[simp] theorem State.setGangOf_part (s : State) (n : Nat) (g : Gang) : (s.setGangOf n g).part = s.part := rfl
@[simp] theorem State.setGangOf_booted (s : State) (n : Nat) (g : Gang) : (s.setGangOf n g).booted = s.booted := rfl
@[simp] theorem State.setGangOf_recovery (s : State) (n : Nat) (g : Gang) : (s.setGangOf n g).recovery = s.recovery := rfl
@[simp] theorem State.setGangOf_measurement (s : State) (n : Nat) (g : Gang) : (s.setGangOf n g).measurement = s.measurement := rfl
@[simp] theorem State.setGangOf_version (s : State) (n : Nat) (g : Gang) : (s.setGangOf n g).version = s.version := rfl
@[simp] theorem State.setGangOf_pages (s : State) (n : Nat) (g : Gang) : (s.setGangOf n g).pages = s.pages := rfl
@[simp] theorem State.setGangOf_quotes (s : State) (n : Nat) (g : Gang) : (s.setGangOf n g).quotes = s.quotes := rfl
@[simp] theorem State.setGangOf_access (s : State) (n : Nat) (g : Gang) : (s.setGangOf n g).access = s.access := rfl
@[simp] theorem State.setGangOf_quotas (s : State) (n : Nat) (g : Gang) : (s.setGangOf n g).quotas = s.quotas := rfl
@[simp] theorem State.setGangOf_migr (s : State) (n : Nat) (g : Gang) : (s.setGangOf n g).migr = s.migr := rfl
@[simp] theorem State.setGangOf_resend (s : State) (n : Nat) (g : Gang) : (s.setGangOf n g).resend = s.resend := rfl
@[simp] theorem State.setGangOf_ctx_made (s : State) (n : Nat) (g : Gang) : (s.setGangOf n g).ctx.made = s.ctx.made := rfl
@[simp] theorem State.setGangOf_ctx_number (s : State) (n : Nat) (g : Gang) : (s.setGangOf n g).ctx.number = s.ctx.number := rfl
@[simp] theorem State.setGangOf_ctx_vi (s : State) (n : Nat) (g : Gang) : (s.setGangOf n g).ctx.vi = s.ctx.vi := rfl
@[simp] theorem State.setGangOf_ctx_gen (s : State) (n : Nat) (g : Gang) : (s.setGangOf n g).ctx.gen = s.ctx.gen := rfl
@[simp] theorem State.setGangOf_ctx_root (s : State) (n : Nat) (g : Gang) : (s.setGangOf n g).ctx.root = s.ctx.root := rfl
@[simp] theorem State.setGangOf_ctx_stopBase (s : State) (n : Nat) (g : Gang) : (s.setGangOf n g).ctx.stopBase = s.ctx.stopBase := rfl
@[simp] theorem State.setGangOf_ctx_faultBase (s : State) (n : Nat) (g : Gang) : (s.setGangOf n g).ctx.faultBase = s.ctx.faultBase := rfl
@[simp] theorem State.setGangOf_ctx_cstat (s : State) (n : Nat) (g : Gang) : (s.setGangOf n g).ctx.cstat = s.ctx.cstat := rfl
@[simp] theorem State.setGangOf_ctx_dbgctl (s : State) (n : Nat) (g : Gang) : (s.setGangOf n g).ctx.dbgctl = s.ctx.dbgctl := rfl
@[simp] theorem State.setGangOf_ctx_frameBase (s : State) (n : Nat) (g : Gang) : (s.setGangOf n g).ctx.frameBase = s.ctx.frameBase := rfl
@[simp] theorem State.setGangOf_ctx_frameRoom (s : State) (n : Nat) (g : Gang) : (s.setGangOf n g).ctx.frameRoom = s.ctx.frameRoom := rfl
@[simp] theorem State.setGangOf_ctx_imageBase (s : State) (n : Nat) (g : Gang) : (s.setGangOf n g).ctx.imageBase = s.ctx.imageBase := rfl
@[simp] theorem State.setGangOf_ctx_imageRoom (s : State) (n : Nat) (g : Gang) : (s.setGangOf n g).ctx.imageRoom = s.ctx.imageRoom := rfl
@[simp] theorem State.setGangOf_ctx_cellarBase (s : State) (n : Nat) (g : Gang) : (s.setGangOf n g).ctx.cellarBase = s.ctx.cellarBase := rfl
@[simp] theorem State.setGangOf_ctx_cellars (s : State) (n : Nat) (g : Gang) : (s.setGangOf n g).ctx.cellars = s.ctx.cellars := rfl
@[simp] theorem State.setGangOf_ctx_modBase (s : State) (n : Nat) (g : Gang) : (s.setGangOf n g).ctx.modBase = s.ctx.modBase := rfl
@[simp] theorem State.setGangOf_ctx_modRoom (s : State) (n : Nat) (g : Gang) : (s.setGangOf n g).ctx.modRoom = s.ctx.modRoom := rfl
@[simp] theorem State.setGangOf_ctx_allocs (s : State) (n : Nat) (g : Gang) : (s.setGangOf n g).ctx.allocs = s.ctx.allocs := rfl
@[simp] theorem State.setGangOf_ctx_logBase (s : State) (n : Nat) (g : Gang) : (s.setGangOf n g).ctx.logBase = s.ctx.logBase := rfl
@[simp] theorem State.setGangOf_ctx_archiveMax (s : State) (n : Nat) (g : Gang) : (s.setGangOf n g).ctx.archiveMax = s.ctx.archiveMax := rfl
@[simp] theorem State.setGangOf_ctx_fusedAt (s : State) (n : Nat) (g : Gang) : (s.setGangOf n g).ctx.fusedAt = s.ctx.fusedAt := rfl
@[simp] theorem State.setGangOf_ctx_gangs (s : State) (n : Nat) (g : Gang) : (s.setGangOf n g).ctx.gangs = Table.put s.ctx.gangs n g := rfl
@[simp] theorem State.setGangOf_ctx_nextGang (s : State) (n : Nat) (g : Gang) : (s.setGangOf n g).ctx.nextGang = s.ctx.nextGang := rfl
@[simp] theorem State.setGangOf_ctx_carrels (s : State) (n : Nat) (g : Gang) : (s.setGangOf n g).ctx.carrels = s.ctx.carrels := rfl
@[simp] theorem State.setGangOf_ctx_galleryBars (s : State) (n : Nat) (g : Gang) : (s.setGangOf n g).ctx.galleryBars = s.ctx.galleryBars := rfl
@[simp] theorem State.setGangOf_ctx_wingBars (s : State) (n : Nat) (g : Gang) : (s.setGangOf n g).ctx.wingBars = s.ctx.wingBars := rfl
@[simp] theorem State.setGangOf_ctx_frames (s : State) (n : Nat) (g : Gang) : (s.setGangOf n g).ctx.frames = s.ctx.frames := rfl
@[simp] theorem State.setGangOf_ctx_parked (s : State) (n : Nat) (g : Gang) : (s.setGangOf n g).ctx.parked = s.ctx.parked := rfl
@[simp] theorem State.setGangOf_ctx_entries (s : State) (n : Nat) (g : Gang) : (s.setGangOf n g).ctx.entries = s.ctx.entries := rfl
@[simp] theorem State.setGangOf_ctx_slots (s : State) (n : Nat) (g : Gang) : (s.setGangOf n g).ctx.slots = s.ctx.slots := rfl
@[simp] theorem State.setGangOf_ctx_shelves (s : State) (n : Nat) (g : Gang) : (s.setGangOf n g).ctx.shelves = s.ctx.shelves := rfl
@[simp] theorem State.setGangOf_ctx_residents (s : State) (n : Nat) (g : Gang) : (s.setGangOf n g).ctx.residents = s.ctx.residents := rfl
@[simp] theorem State.setGangOf_ctx_age (s : State) (n : Nat) (g : Gang) : (s.setGangOf n g).ctx.age = s.ctx.age := rfl
@[simp] theorem State.setGangOf_ctx_launches (s : State) (n : Nat) (g : Gang) : (s.setGangOf n g).ctx.launches = s.ctx.launches := rfl
@[simp] theorem State.setGangOf_ctx_queues (s : State) (n : Nat) (g : Gang) : (s.setGangOf n g).ctx.queues = s.ctx.queues := rfl
@[simp] theorem State.setGangOf_ctx_copyRings (s : State) (n : Nat) (g : Gang) : (s.setGangOf n g).ctx.copyRings = s.ctx.copyRings := rfl
@[simp] theorem State.setGangOf_ctx_jobs (s : State) (n : Nat) (g : Gang) : (s.setGangOf n g).ctx.jobs = s.ctx.jobs := rfl
@[simp] theorem State.setGangOf_ctx_nextJob (s : State) (n : Nat) (g : Gang) : (s.setGangOf n g).ctx.nextJob = s.ctx.nextJob := rfl
@[simp] theorem State.setGangOf_ctx_traces (s : State) (n : Nat) (g : Gang) : (s.setGangOf n g).ctx.traces = s.ctx.traces := rfl
@[simp] theorem State.setGangOf_ctx_logs (s : State) (n : Nat) (g : Gang) : (s.setGangOf n g).ctx.logs = s.ctx.logs := rfl
@[simp] theorem State.setGangOf_ctx_codes (s : State) (n : Nat) (g : Gang) : (s.setGangOf n g).ctx.codes = s.ctx.codes := rfl
@[simp] theorem State.setGangOf_ctx_watches (s : State) (n : Nat) (g : Gang) : (s.setGangOf n g).ctx.watches = s.ctx.watches := rfl
@[simp] theorem State.setGangOf_ctx_heldSets (s : State) (n : Nat) (g : Gang) : (s.setGangOf n g).ctx.heldSets = s.ctx.heldSets := rfl
@[simp] theorem State.setGangOf_ctx_unmaps (s : State) (n : Nat) (g : Gang) : (s.setGangOf n g).ctx.unmaps = s.ctx.unmaps := rfl
@[simp] theorem State.setGangOf_ctx_grace (s : State) (n : Nat) (g : Gang) : (s.setGangOf n g).ctx.grace = s.ctx.grace := rfl
@[simp] theorem State.setGangOf_ctx_phints (s : State) (n : Nat) (g : Gang) : (s.setGangOf n g).ctx.phints = s.ctx.phints := rfl
@[simp] theorem State.setGangOf_ctx_nextTask (s : State) (n : Nat) (g : Gang) : (s.setGangOf n g).ctx.nextTask = s.ctx.nextTask := rfl

/-! `State.setCarrelOf`. -/

@[simp] theorem State.setCarrelOf_agenda (s : State) (n : Nat) (x : Carrel) : (s.setCarrelOf n x).agenda = s.agenda := rfl
@[simp] theorem State.setCarrelOf_clock (s : State) (n : Nat) (x : Carrel) : (s.setCarrelOf n x).clock = s.clock := rfl
@[simp] theorem State.setCarrelOf_asleep (s : State) (n : Nat) (x : Carrel) : (s.setCarrelOf n x).asleep = s.asleep := rfl
@[simp] theorem State.setCarrelOf_free (s : State) (n : Nat) (x : Carrel) : (s.setCarrelOf n x).free = s.free := rfl
@[simp] theorem State.setCarrelOf_choices (s : State) (n : Nat) (x : Carrel) : (s.setCarrelOf n x).choices = s.choices := rfl
@[simp] theorem State.setCarrelOf_cur (s : State) (n : Nat) (x : Carrel) : (s.setCarrelOf n x).cur = s.cur := rfl
@[simp] theorem State.setCarrelOf_saved (s : State) (n : Nat) (x : Carrel) : (s.setCarrelOf n x).saved = s.saved := rfl
@[simp] theorem State.setCarrelOf_mem (s : State) (n : Nat) (x : Carrel) : (s.setCarrelOf n x).mem = s.mem := rfl
@[simp] theorem State.setCarrelOf_bad (s : State) (n : Nat) (x : Carrel) : (s.setCarrelOf n x).bad = s.bad := rfl
@[simp] theorem State.setCarrelOf_errorLog (s : State) (n : Nat) (x : Carrel) : (s.setCarrelOf n x).errorLog = s.errorLog := rfl
@[simp] theorem State.setCarrelOf_l1s (s : State) (n : Nat) (x : Carrel) : (s.setCarrelOf n x).l1s = s.l1s := rfl
@[simp] theorem State.setCarrelOf_l2s (s : State) (n : Nat) (x : Carrel) : (s.setCarrelOf n x).l2s = s.l2s := rfl
@[simp] theorem State.setCarrelOf_engTlbs (s : State) (n : Nat) (x : Carrel) : (s.setCarrelOf n x).engTlbs = s.engTlbs := rfl
@[simp] theorem State.setCarrelOf_fused (s : State) (n : Nat) (x : Carrel) : (s.setCarrelOf n x).fused = s.fused := rfl
@[simp] theorem State.setCarrelOf_gated (s : State) (n : Nat) (x : Carrel) : (s.setCarrelOf n x).gated = s.gated := rfl
@[simp] theorem State.setCarrelOf_halt (s : State) (n : Nat) (x : Carrel) : (s.setCarrelOf n x).halt = s.halt := rfl
@[simp] theorem State.setCarrelOf_faults (s : State) (n : Nat) (x : Carrel) : (s.setCarrelOf n x).faults = s.faults := rfl
@[simp] theorem State.setCarrelOf_window (s : State) (n : Nat) (x : Carrel) : (s.setCarrelOf n x).window = s.window := rfl
@[simp] theorem State.setCarrelOf_part (s : State) (n : Nat) (x : Carrel) : (s.setCarrelOf n x).part = s.part := rfl
@[simp] theorem State.setCarrelOf_booted (s : State) (n : Nat) (x : Carrel) : (s.setCarrelOf n x).booted = s.booted := rfl
@[simp] theorem State.setCarrelOf_recovery (s : State) (n : Nat) (x : Carrel) : (s.setCarrelOf n x).recovery = s.recovery := rfl
@[simp] theorem State.setCarrelOf_measurement (s : State) (n : Nat) (x : Carrel) : (s.setCarrelOf n x).measurement = s.measurement := rfl
@[simp] theorem State.setCarrelOf_version (s : State) (n : Nat) (x : Carrel) : (s.setCarrelOf n x).version = s.version := rfl
@[simp] theorem State.setCarrelOf_pages (s : State) (n : Nat) (x : Carrel) : (s.setCarrelOf n x).pages = s.pages := rfl
@[simp] theorem State.setCarrelOf_quotes (s : State) (n : Nat) (x : Carrel) : (s.setCarrelOf n x).quotes = s.quotes := rfl
@[simp] theorem State.setCarrelOf_access (s : State) (n : Nat) (x : Carrel) : (s.setCarrelOf n x).access = s.access := rfl
@[simp] theorem State.setCarrelOf_quotas (s : State) (n : Nat) (x : Carrel) : (s.setCarrelOf n x).quotas = s.quotas := rfl
@[simp] theorem State.setCarrelOf_migr (s : State) (n : Nat) (x : Carrel) : (s.setCarrelOf n x).migr = s.migr := rfl
@[simp] theorem State.setCarrelOf_resend (s : State) (n : Nat) (x : Carrel) : (s.setCarrelOf n x).resend = s.resend := rfl
@[simp] theorem State.setCarrelOf_ctx_made (s : State) (n : Nat) (x : Carrel) : (s.setCarrelOf n x).ctx.made = s.ctx.made := rfl
@[simp] theorem State.setCarrelOf_ctx_number (s : State) (n : Nat) (x : Carrel) : (s.setCarrelOf n x).ctx.number = s.ctx.number := rfl
@[simp] theorem State.setCarrelOf_ctx_vi (s : State) (n : Nat) (x : Carrel) : (s.setCarrelOf n x).ctx.vi = s.ctx.vi := rfl
@[simp] theorem State.setCarrelOf_ctx_gen (s : State) (n : Nat) (x : Carrel) : (s.setCarrelOf n x).ctx.gen = s.ctx.gen := rfl
@[simp] theorem State.setCarrelOf_ctx_root (s : State) (n : Nat) (x : Carrel) : (s.setCarrelOf n x).ctx.root = s.ctx.root := rfl
@[simp] theorem State.setCarrelOf_ctx_stopBase (s : State) (n : Nat) (x : Carrel) : (s.setCarrelOf n x).ctx.stopBase = s.ctx.stopBase := rfl
@[simp] theorem State.setCarrelOf_ctx_faultBase (s : State) (n : Nat) (x : Carrel) : (s.setCarrelOf n x).ctx.faultBase = s.ctx.faultBase := rfl
@[simp] theorem State.setCarrelOf_ctx_cstat (s : State) (n : Nat) (x : Carrel) : (s.setCarrelOf n x).ctx.cstat = s.ctx.cstat := rfl
@[simp] theorem State.setCarrelOf_ctx_dbgctl (s : State) (n : Nat) (x : Carrel) : (s.setCarrelOf n x).ctx.dbgctl = s.ctx.dbgctl := rfl
@[simp] theorem State.setCarrelOf_ctx_frameBase (s : State) (n : Nat) (x : Carrel) : (s.setCarrelOf n x).ctx.frameBase = s.ctx.frameBase := rfl
@[simp] theorem State.setCarrelOf_ctx_frameRoom (s : State) (n : Nat) (x : Carrel) : (s.setCarrelOf n x).ctx.frameRoom = s.ctx.frameRoom := rfl
@[simp] theorem State.setCarrelOf_ctx_imageBase (s : State) (n : Nat) (x : Carrel) : (s.setCarrelOf n x).ctx.imageBase = s.ctx.imageBase := rfl
@[simp] theorem State.setCarrelOf_ctx_imageRoom (s : State) (n : Nat) (x : Carrel) : (s.setCarrelOf n x).ctx.imageRoom = s.ctx.imageRoom := rfl
@[simp] theorem State.setCarrelOf_ctx_cellarBase (s : State) (n : Nat) (x : Carrel) : (s.setCarrelOf n x).ctx.cellarBase = s.ctx.cellarBase := rfl
@[simp] theorem State.setCarrelOf_ctx_cellars (s : State) (n : Nat) (x : Carrel) : (s.setCarrelOf n x).ctx.cellars = s.ctx.cellars := rfl
@[simp] theorem State.setCarrelOf_ctx_modBase (s : State) (n : Nat) (x : Carrel) : (s.setCarrelOf n x).ctx.modBase = s.ctx.modBase := rfl
@[simp] theorem State.setCarrelOf_ctx_modRoom (s : State) (n : Nat) (x : Carrel) : (s.setCarrelOf n x).ctx.modRoom = s.ctx.modRoom := rfl
@[simp] theorem State.setCarrelOf_ctx_allocs (s : State) (n : Nat) (x : Carrel) : (s.setCarrelOf n x).ctx.allocs = s.ctx.allocs := rfl
@[simp] theorem State.setCarrelOf_ctx_logBase (s : State) (n : Nat) (x : Carrel) : (s.setCarrelOf n x).ctx.logBase = s.ctx.logBase := rfl
@[simp] theorem State.setCarrelOf_ctx_archiveMax (s : State) (n : Nat) (x : Carrel) : (s.setCarrelOf n x).ctx.archiveMax = s.ctx.archiveMax := rfl
@[simp] theorem State.setCarrelOf_ctx_fusedAt (s : State) (n : Nat) (x : Carrel) : (s.setCarrelOf n x).ctx.fusedAt = s.ctx.fusedAt := rfl
@[simp] theorem State.setCarrelOf_ctx_gangs (s : State) (n : Nat) (x : Carrel) : (s.setCarrelOf n x).ctx.gangs = s.ctx.gangs := rfl
@[simp] theorem State.setCarrelOf_ctx_nextGang (s : State) (n : Nat) (x : Carrel) : (s.setCarrelOf n x).ctx.nextGang = s.ctx.nextGang := rfl
@[simp] theorem State.setCarrelOf_ctx_carrels (s : State) (n : Nat) (x : Carrel) : (s.setCarrelOf n x).ctx.carrels = Table.put s.ctx.carrels n x := rfl
@[simp] theorem State.setCarrelOf_ctx_galleryBars (s : State) (n : Nat) (x : Carrel) : (s.setCarrelOf n x).ctx.galleryBars = s.ctx.galleryBars := rfl
@[simp] theorem State.setCarrelOf_ctx_wingBars (s : State) (n : Nat) (x : Carrel) : (s.setCarrelOf n x).ctx.wingBars = s.ctx.wingBars := rfl
@[simp] theorem State.setCarrelOf_ctx_frames (s : State) (n : Nat) (x : Carrel) : (s.setCarrelOf n x).ctx.frames = s.ctx.frames := rfl
@[simp] theorem State.setCarrelOf_ctx_parked (s : State) (n : Nat) (x : Carrel) : (s.setCarrelOf n x).ctx.parked = s.ctx.parked := rfl
@[simp] theorem State.setCarrelOf_ctx_entries (s : State) (n : Nat) (x : Carrel) : (s.setCarrelOf n x).ctx.entries = s.ctx.entries := rfl
@[simp] theorem State.setCarrelOf_ctx_slots (s : State) (n : Nat) (x : Carrel) : (s.setCarrelOf n x).ctx.slots = s.ctx.slots := rfl
@[simp] theorem State.setCarrelOf_ctx_shelves (s : State) (n : Nat) (x : Carrel) : (s.setCarrelOf n x).ctx.shelves = s.ctx.shelves := rfl
@[simp] theorem State.setCarrelOf_ctx_residents (s : State) (n : Nat) (x : Carrel) : (s.setCarrelOf n x).ctx.residents = s.ctx.residents := rfl
@[simp] theorem State.setCarrelOf_ctx_age (s : State) (n : Nat) (x : Carrel) : (s.setCarrelOf n x).ctx.age = s.ctx.age := rfl
@[simp] theorem State.setCarrelOf_ctx_launches (s : State) (n : Nat) (x : Carrel) : (s.setCarrelOf n x).ctx.launches = s.ctx.launches := rfl
@[simp] theorem State.setCarrelOf_ctx_queues (s : State) (n : Nat) (x : Carrel) : (s.setCarrelOf n x).ctx.queues = s.ctx.queues := rfl
@[simp] theorem State.setCarrelOf_ctx_copyRings (s : State) (n : Nat) (x : Carrel) : (s.setCarrelOf n x).ctx.copyRings = s.ctx.copyRings := rfl
@[simp] theorem State.setCarrelOf_ctx_jobs (s : State) (n : Nat) (x : Carrel) : (s.setCarrelOf n x).ctx.jobs = s.ctx.jobs := rfl
@[simp] theorem State.setCarrelOf_ctx_nextJob (s : State) (n : Nat) (x : Carrel) : (s.setCarrelOf n x).ctx.nextJob = s.ctx.nextJob := rfl
@[simp] theorem State.setCarrelOf_ctx_traces (s : State) (n : Nat) (x : Carrel) : (s.setCarrelOf n x).ctx.traces = s.ctx.traces := rfl
@[simp] theorem State.setCarrelOf_ctx_logs (s : State) (n : Nat) (x : Carrel) : (s.setCarrelOf n x).ctx.logs = s.ctx.logs := rfl
@[simp] theorem State.setCarrelOf_ctx_codes (s : State) (n : Nat) (x : Carrel) : (s.setCarrelOf n x).ctx.codes = s.ctx.codes := rfl
@[simp] theorem State.setCarrelOf_ctx_watches (s : State) (n : Nat) (x : Carrel) : (s.setCarrelOf n x).ctx.watches = s.ctx.watches := rfl
@[simp] theorem State.setCarrelOf_ctx_heldSets (s : State) (n : Nat) (x : Carrel) : (s.setCarrelOf n x).ctx.heldSets = s.ctx.heldSets := rfl
@[simp] theorem State.setCarrelOf_ctx_unmaps (s : State) (n : Nat) (x : Carrel) : (s.setCarrelOf n x).ctx.unmaps = s.ctx.unmaps := rfl
@[simp] theorem State.setCarrelOf_ctx_grace (s : State) (n : Nat) (x : Carrel) : (s.setCarrelOf n x).ctx.grace = s.ctx.grace := rfl
@[simp] theorem State.setCarrelOf_ctx_phints (s : State) (n : Nat) (x : Carrel) : (s.setCarrelOf n x).ctx.phints = s.ctx.phints := rfl
@[simp] theorem State.setCarrelOf_ctx_nextTask (s : State) (n : Nat) (x : Carrel) : (s.setCarrelOf n x).ctx.nextTask = s.ctx.nextTask := rfl

/-! `State.setFrameOf`. -/

@[simp] theorem State.setFrameOf_agenda (s : State) (n : Nat) (x : Frame) : (s.setFrameOf n x).agenda = s.agenda := rfl
@[simp] theorem State.setFrameOf_clock (s : State) (n : Nat) (x : Frame) : (s.setFrameOf n x).clock = s.clock := rfl
@[simp] theorem State.setFrameOf_asleep (s : State) (n : Nat) (x : Frame) : (s.setFrameOf n x).asleep = s.asleep := rfl
@[simp] theorem State.setFrameOf_free (s : State) (n : Nat) (x : Frame) : (s.setFrameOf n x).free = s.free := rfl
@[simp] theorem State.setFrameOf_choices (s : State) (n : Nat) (x : Frame) : (s.setFrameOf n x).choices = s.choices := rfl
@[simp] theorem State.setFrameOf_cur (s : State) (n : Nat) (x : Frame) : (s.setFrameOf n x).cur = s.cur := rfl
@[simp] theorem State.setFrameOf_saved (s : State) (n : Nat) (x : Frame) : (s.setFrameOf n x).saved = s.saved := rfl
@[simp] theorem State.setFrameOf_mem (s : State) (n : Nat) (x : Frame) : (s.setFrameOf n x).mem = s.mem := rfl
@[simp] theorem State.setFrameOf_bad (s : State) (n : Nat) (x : Frame) : (s.setFrameOf n x).bad = s.bad := rfl
@[simp] theorem State.setFrameOf_errorLog (s : State) (n : Nat) (x : Frame) : (s.setFrameOf n x).errorLog = s.errorLog := rfl
@[simp] theorem State.setFrameOf_l1s (s : State) (n : Nat) (x : Frame) : (s.setFrameOf n x).l1s = s.l1s := rfl
@[simp] theorem State.setFrameOf_l2s (s : State) (n : Nat) (x : Frame) : (s.setFrameOf n x).l2s = s.l2s := rfl
@[simp] theorem State.setFrameOf_engTlbs (s : State) (n : Nat) (x : Frame) : (s.setFrameOf n x).engTlbs = s.engTlbs := rfl
@[simp] theorem State.setFrameOf_fused (s : State) (n : Nat) (x : Frame) : (s.setFrameOf n x).fused = s.fused := rfl
@[simp] theorem State.setFrameOf_gated (s : State) (n : Nat) (x : Frame) : (s.setFrameOf n x).gated = s.gated := rfl
@[simp] theorem State.setFrameOf_halt (s : State) (n : Nat) (x : Frame) : (s.setFrameOf n x).halt = s.halt := rfl
@[simp] theorem State.setFrameOf_faults (s : State) (n : Nat) (x : Frame) : (s.setFrameOf n x).faults = s.faults := rfl
@[simp] theorem State.setFrameOf_window (s : State) (n : Nat) (x : Frame) : (s.setFrameOf n x).window = s.window := rfl
@[simp] theorem State.setFrameOf_part (s : State) (n : Nat) (x : Frame) : (s.setFrameOf n x).part = s.part := rfl
@[simp] theorem State.setFrameOf_booted (s : State) (n : Nat) (x : Frame) : (s.setFrameOf n x).booted = s.booted := rfl
@[simp] theorem State.setFrameOf_recovery (s : State) (n : Nat) (x : Frame) : (s.setFrameOf n x).recovery = s.recovery := rfl
@[simp] theorem State.setFrameOf_measurement (s : State) (n : Nat) (x : Frame) : (s.setFrameOf n x).measurement = s.measurement := rfl
@[simp] theorem State.setFrameOf_version (s : State) (n : Nat) (x : Frame) : (s.setFrameOf n x).version = s.version := rfl
@[simp] theorem State.setFrameOf_pages (s : State) (n : Nat) (x : Frame) : (s.setFrameOf n x).pages = s.pages := rfl
@[simp] theorem State.setFrameOf_quotes (s : State) (n : Nat) (x : Frame) : (s.setFrameOf n x).quotes = s.quotes := rfl
@[simp] theorem State.setFrameOf_access (s : State) (n : Nat) (x : Frame) : (s.setFrameOf n x).access = s.access := rfl
@[simp] theorem State.setFrameOf_quotas (s : State) (n : Nat) (x : Frame) : (s.setFrameOf n x).quotas = s.quotas := rfl
@[simp] theorem State.setFrameOf_migr (s : State) (n : Nat) (x : Frame) : (s.setFrameOf n x).migr = s.migr := rfl
@[simp] theorem State.setFrameOf_resend (s : State) (n : Nat) (x : Frame) : (s.setFrameOf n x).resend = s.resend := rfl
@[simp] theorem State.setFrameOf_ctx_made (s : State) (n : Nat) (x : Frame) : (s.setFrameOf n x).ctx.made = s.ctx.made := rfl
@[simp] theorem State.setFrameOf_ctx_number (s : State) (n : Nat) (x : Frame) : (s.setFrameOf n x).ctx.number = s.ctx.number := rfl
@[simp] theorem State.setFrameOf_ctx_vi (s : State) (n : Nat) (x : Frame) : (s.setFrameOf n x).ctx.vi = s.ctx.vi := rfl
@[simp] theorem State.setFrameOf_ctx_gen (s : State) (n : Nat) (x : Frame) : (s.setFrameOf n x).ctx.gen = s.ctx.gen := rfl
@[simp] theorem State.setFrameOf_ctx_root (s : State) (n : Nat) (x : Frame) : (s.setFrameOf n x).ctx.root = s.ctx.root := rfl
@[simp] theorem State.setFrameOf_ctx_stopBase (s : State) (n : Nat) (x : Frame) : (s.setFrameOf n x).ctx.stopBase = s.ctx.stopBase := rfl
@[simp] theorem State.setFrameOf_ctx_faultBase (s : State) (n : Nat) (x : Frame) : (s.setFrameOf n x).ctx.faultBase = s.ctx.faultBase := rfl
@[simp] theorem State.setFrameOf_ctx_cstat (s : State) (n : Nat) (x : Frame) : (s.setFrameOf n x).ctx.cstat = s.ctx.cstat := rfl
@[simp] theorem State.setFrameOf_ctx_dbgctl (s : State) (n : Nat) (x : Frame) : (s.setFrameOf n x).ctx.dbgctl = s.ctx.dbgctl := rfl
@[simp] theorem State.setFrameOf_ctx_frameBase (s : State) (n : Nat) (x : Frame) : (s.setFrameOf n x).ctx.frameBase = s.ctx.frameBase := rfl
@[simp] theorem State.setFrameOf_ctx_frameRoom (s : State) (n : Nat) (x : Frame) : (s.setFrameOf n x).ctx.frameRoom = s.ctx.frameRoom := rfl
@[simp] theorem State.setFrameOf_ctx_imageBase (s : State) (n : Nat) (x : Frame) : (s.setFrameOf n x).ctx.imageBase = s.ctx.imageBase := rfl
@[simp] theorem State.setFrameOf_ctx_imageRoom (s : State) (n : Nat) (x : Frame) : (s.setFrameOf n x).ctx.imageRoom = s.ctx.imageRoom := rfl
@[simp] theorem State.setFrameOf_ctx_cellarBase (s : State) (n : Nat) (x : Frame) : (s.setFrameOf n x).ctx.cellarBase = s.ctx.cellarBase := rfl
@[simp] theorem State.setFrameOf_ctx_cellars (s : State) (n : Nat) (x : Frame) : (s.setFrameOf n x).ctx.cellars = s.ctx.cellars := rfl
@[simp] theorem State.setFrameOf_ctx_modBase (s : State) (n : Nat) (x : Frame) : (s.setFrameOf n x).ctx.modBase = s.ctx.modBase := rfl
@[simp] theorem State.setFrameOf_ctx_modRoom (s : State) (n : Nat) (x : Frame) : (s.setFrameOf n x).ctx.modRoom = s.ctx.modRoom := rfl
@[simp] theorem State.setFrameOf_ctx_allocs (s : State) (n : Nat) (x : Frame) : (s.setFrameOf n x).ctx.allocs = s.ctx.allocs := rfl
@[simp] theorem State.setFrameOf_ctx_logBase (s : State) (n : Nat) (x : Frame) : (s.setFrameOf n x).ctx.logBase = s.ctx.logBase := rfl
@[simp] theorem State.setFrameOf_ctx_archiveMax (s : State) (n : Nat) (x : Frame) : (s.setFrameOf n x).ctx.archiveMax = s.ctx.archiveMax := rfl
@[simp] theorem State.setFrameOf_ctx_fusedAt (s : State) (n : Nat) (x : Frame) : (s.setFrameOf n x).ctx.fusedAt = s.ctx.fusedAt := rfl
@[simp] theorem State.setFrameOf_ctx_gangs (s : State) (n : Nat) (x : Frame) : (s.setFrameOf n x).ctx.gangs = s.ctx.gangs := rfl
@[simp] theorem State.setFrameOf_ctx_nextGang (s : State) (n : Nat) (x : Frame) : (s.setFrameOf n x).ctx.nextGang = s.ctx.nextGang := rfl
@[simp] theorem State.setFrameOf_ctx_carrels (s : State) (n : Nat) (x : Frame) : (s.setFrameOf n x).ctx.carrels = s.ctx.carrels := rfl
@[simp] theorem State.setFrameOf_ctx_galleryBars (s : State) (n : Nat) (x : Frame) : (s.setFrameOf n x).ctx.galleryBars = s.ctx.galleryBars := rfl
@[simp] theorem State.setFrameOf_ctx_wingBars (s : State) (n : Nat) (x : Frame) : (s.setFrameOf n x).ctx.wingBars = s.ctx.wingBars := rfl
@[simp] theorem State.setFrameOf_ctx_frames (s : State) (n : Nat) (x : Frame) : (s.setFrameOf n x).ctx.frames = Table.put s.ctx.frames n x := rfl
@[simp] theorem State.setFrameOf_ctx_parked (s : State) (n : Nat) (x : Frame) : (s.setFrameOf n x).ctx.parked = s.ctx.parked := rfl
@[simp] theorem State.setFrameOf_ctx_entries (s : State) (n : Nat) (x : Frame) : (s.setFrameOf n x).ctx.entries = s.ctx.entries := rfl
@[simp] theorem State.setFrameOf_ctx_slots (s : State) (n : Nat) (x : Frame) : (s.setFrameOf n x).ctx.slots = s.ctx.slots := rfl
@[simp] theorem State.setFrameOf_ctx_shelves (s : State) (n : Nat) (x : Frame) : (s.setFrameOf n x).ctx.shelves = s.ctx.shelves := rfl
@[simp] theorem State.setFrameOf_ctx_residents (s : State) (n : Nat) (x : Frame) : (s.setFrameOf n x).ctx.residents = s.ctx.residents := rfl
@[simp] theorem State.setFrameOf_ctx_age (s : State) (n : Nat) (x : Frame) : (s.setFrameOf n x).ctx.age = s.ctx.age := rfl
@[simp] theorem State.setFrameOf_ctx_launches (s : State) (n : Nat) (x : Frame) : (s.setFrameOf n x).ctx.launches = s.ctx.launches := rfl
@[simp] theorem State.setFrameOf_ctx_queues (s : State) (n : Nat) (x : Frame) : (s.setFrameOf n x).ctx.queues = s.ctx.queues := rfl
@[simp] theorem State.setFrameOf_ctx_copyRings (s : State) (n : Nat) (x : Frame) : (s.setFrameOf n x).ctx.copyRings = s.ctx.copyRings := rfl
@[simp] theorem State.setFrameOf_ctx_jobs (s : State) (n : Nat) (x : Frame) : (s.setFrameOf n x).ctx.jobs = s.ctx.jobs := rfl
@[simp] theorem State.setFrameOf_ctx_nextJob (s : State) (n : Nat) (x : Frame) : (s.setFrameOf n x).ctx.nextJob = s.ctx.nextJob := rfl
@[simp] theorem State.setFrameOf_ctx_traces (s : State) (n : Nat) (x : Frame) : (s.setFrameOf n x).ctx.traces = s.ctx.traces := rfl
@[simp] theorem State.setFrameOf_ctx_logs (s : State) (n : Nat) (x : Frame) : (s.setFrameOf n x).ctx.logs = s.ctx.logs := rfl
@[simp] theorem State.setFrameOf_ctx_codes (s : State) (n : Nat) (x : Frame) : (s.setFrameOf n x).ctx.codes = s.ctx.codes := rfl
@[simp] theorem State.setFrameOf_ctx_watches (s : State) (n : Nat) (x : Frame) : (s.setFrameOf n x).ctx.watches = s.ctx.watches := rfl
@[simp] theorem State.setFrameOf_ctx_heldSets (s : State) (n : Nat) (x : Frame) : (s.setFrameOf n x).ctx.heldSets = s.ctx.heldSets := rfl
@[simp] theorem State.setFrameOf_ctx_unmaps (s : State) (n : Nat) (x : Frame) : (s.setFrameOf n x).ctx.unmaps = s.ctx.unmaps := rfl
@[simp] theorem State.setFrameOf_ctx_grace (s : State) (n : Nat) (x : Frame) : (s.setFrameOf n x).ctx.grace = s.ctx.grace := rfl
@[simp] theorem State.setFrameOf_ctx_phints (s : State) (n : Nat) (x : Frame) : (s.setFrameOf n x).ctx.phints = s.ctx.phints := rfl
@[simp] theorem State.setFrameOf_ctx_nextTask (s : State) (n : Nat) (x : Frame) : (s.setFrameOf n x).ctx.nextTask = s.ctx.nextTask := rfl

/-! `State.setTraceOf`. -/

@[simp] theorem State.setTraceOf_agenda (s : State) (n : Nat) (x : Trace) : (s.setTraceOf n x).agenda = s.agenda := rfl
@[simp] theorem State.setTraceOf_clock (s : State) (n : Nat) (x : Trace) : (s.setTraceOf n x).clock = s.clock := rfl
@[simp] theorem State.setTraceOf_asleep (s : State) (n : Nat) (x : Trace) : (s.setTraceOf n x).asleep = s.asleep := rfl
@[simp] theorem State.setTraceOf_free (s : State) (n : Nat) (x : Trace) : (s.setTraceOf n x).free = s.free := rfl
@[simp] theorem State.setTraceOf_choices (s : State) (n : Nat) (x : Trace) : (s.setTraceOf n x).choices = s.choices := rfl
@[simp] theorem State.setTraceOf_cur (s : State) (n : Nat) (x : Trace) : (s.setTraceOf n x).cur = s.cur := rfl
@[simp] theorem State.setTraceOf_saved (s : State) (n : Nat) (x : Trace) : (s.setTraceOf n x).saved = s.saved := rfl
@[simp] theorem State.setTraceOf_mem (s : State) (n : Nat) (x : Trace) : (s.setTraceOf n x).mem = s.mem := rfl
@[simp] theorem State.setTraceOf_bad (s : State) (n : Nat) (x : Trace) : (s.setTraceOf n x).bad = s.bad := rfl
@[simp] theorem State.setTraceOf_errorLog (s : State) (n : Nat) (x : Trace) : (s.setTraceOf n x).errorLog = s.errorLog := rfl
@[simp] theorem State.setTraceOf_l1s (s : State) (n : Nat) (x : Trace) : (s.setTraceOf n x).l1s = s.l1s := rfl
@[simp] theorem State.setTraceOf_l2s (s : State) (n : Nat) (x : Trace) : (s.setTraceOf n x).l2s = s.l2s := rfl
@[simp] theorem State.setTraceOf_engTlbs (s : State) (n : Nat) (x : Trace) : (s.setTraceOf n x).engTlbs = s.engTlbs := rfl
@[simp] theorem State.setTraceOf_fused (s : State) (n : Nat) (x : Trace) : (s.setTraceOf n x).fused = s.fused := rfl
@[simp] theorem State.setTraceOf_gated (s : State) (n : Nat) (x : Trace) : (s.setTraceOf n x).gated = s.gated := rfl
@[simp] theorem State.setTraceOf_halt (s : State) (n : Nat) (x : Trace) : (s.setTraceOf n x).halt = s.halt := rfl
@[simp] theorem State.setTraceOf_faults (s : State) (n : Nat) (x : Trace) : (s.setTraceOf n x).faults = s.faults := rfl
@[simp] theorem State.setTraceOf_window (s : State) (n : Nat) (x : Trace) : (s.setTraceOf n x).window = s.window := rfl
@[simp] theorem State.setTraceOf_part (s : State) (n : Nat) (x : Trace) : (s.setTraceOf n x).part = s.part := rfl
@[simp] theorem State.setTraceOf_booted (s : State) (n : Nat) (x : Trace) : (s.setTraceOf n x).booted = s.booted := rfl
@[simp] theorem State.setTraceOf_recovery (s : State) (n : Nat) (x : Trace) : (s.setTraceOf n x).recovery = s.recovery := rfl
@[simp] theorem State.setTraceOf_measurement (s : State) (n : Nat) (x : Trace) : (s.setTraceOf n x).measurement = s.measurement := rfl
@[simp] theorem State.setTraceOf_version (s : State) (n : Nat) (x : Trace) : (s.setTraceOf n x).version = s.version := rfl
@[simp] theorem State.setTraceOf_pages (s : State) (n : Nat) (x : Trace) : (s.setTraceOf n x).pages = s.pages := rfl
@[simp] theorem State.setTraceOf_quotes (s : State) (n : Nat) (x : Trace) : (s.setTraceOf n x).quotes = s.quotes := rfl
@[simp] theorem State.setTraceOf_access (s : State) (n : Nat) (x : Trace) : (s.setTraceOf n x).access = s.access := rfl
@[simp] theorem State.setTraceOf_quotas (s : State) (n : Nat) (x : Trace) : (s.setTraceOf n x).quotas = s.quotas := rfl
@[simp] theorem State.setTraceOf_migr (s : State) (n : Nat) (x : Trace) : (s.setTraceOf n x).migr = s.migr := rfl
@[simp] theorem State.setTraceOf_resend (s : State) (n : Nat) (x : Trace) : (s.setTraceOf n x).resend = s.resend := rfl
@[simp] theorem State.setTraceOf_ctx_made (s : State) (n : Nat) (x : Trace) : (s.setTraceOf n x).ctx.made = s.ctx.made := rfl
@[simp] theorem State.setTraceOf_ctx_number (s : State) (n : Nat) (x : Trace) : (s.setTraceOf n x).ctx.number = s.ctx.number := rfl
@[simp] theorem State.setTraceOf_ctx_vi (s : State) (n : Nat) (x : Trace) : (s.setTraceOf n x).ctx.vi = s.ctx.vi := rfl
@[simp] theorem State.setTraceOf_ctx_gen (s : State) (n : Nat) (x : Trace) : (s.setTraceOf n x).ctx.gen = s.ctx.gen := rfl
@[simp] theorem State.setTraceOf_ctx_root (s : State) (n : Nat) (x : Trace) : (s.setTraceOf n x).ctx.root = s.ctx.root := rfl
@[simp] theorem State.setTraceOf_ctx_stopBase (s : State) (n : Nat) (x : Trace) : (s.setTraceOf n x).ctx.stopBase = s.ctx.stopBase := rfl
@[simp] theorem State.setTraceOf_ctx_faultBase (s : State) (n : Nat) (x : Trace) : (s.setTraceOf n x).ctx.faultBase = s.ctx.faultBase := rfl
@[simp] theorem State.setTraceOf_ctx_cstat (s : State) (n : Nat) (x : Trace) : (s.setTraceOf n x).ctx.cstat = s.ctx.cstat := rfl
@[simp] theorem State.setTraceOf_ctx_dbgctl (s : State) (n : Nat) (x : Trace) : (s.setTraceOf n x).ctx.dbgctl = s.ctx.dbgctl := rfl
@[simp] theorem State.setTraceOf_ctx_frameBase (s : State) (n : Nat) (x : Trace) : (s.setTraceOf n x).ctx.frameBase = s.ctx.frameBase := rfl
@[simp] theorem State.setTraceOf_ctx_frameRoom (s : State) (n : Nat) (x : Trace) : (s.setTraceOf n x).ctx.frameRoom = s.ctx.frameRoom := rfl
@[simp] theorem State.setTraceOf_ctx_imageBase (s : State) (n : Nat) (x : Trace) : (s.setTraceOf n x).ctx.imageBase = s.ctx.imageBase := rfl
@[simp] theorem State.setTraceOf_ctx_imageRoom (s : State) (n : Nat) (x : Trace) : (s.setTraceOf n x).ctx.imageRoom = s.ctx.imageRoom := rfl
@[simp] theorem State.setTraceOf_ctx_cellarBase (s : State) (n : Nat) (x : Trace) : (s.setTraceOf n x).ctx.cellarBase = s.ctx.cellarBase := rfl
@[simp] theorem State.setTraceOf_ctx_cellars (s : State) (n : Nat) (x : Trace) : (s.setTraceOf n x).ctx.cellars = s.ctx.cellars := rfl
@[simp] theorem State.setTraceOf_ctx_modBase (s : State) (n : Nat) (x : Trace) : (s.setTraceOf n x).ctx.modBase = s.ctx.modBase := rfl
@[simp] theorem State.setTraceOf_ctx_modRoom (s : State) (n : Nat) (x : Trace) : (s.setTraceOf n x).ctx.modRoom = s.ctx.modRoom := rfl
@[simp] theorem State.setTraceOf_ctx_allocs (s : State) (n : Nat) (x : Trace) : (s.setTraceOf n x).ctx.allocs = s.ctx.allocs := rfl
@[simp] theorem State.setTraceOf_ctx_logBase (s : State) (n : Nat) (x : Trace) : (s.setTraceOf n x).ctx.logBase = s.ctx.logBase := rfl
@[simp] theorem State.setTraceOf_ctx_archiveMax (s : State) (n : Nat) (x : Trace) : (s.setTraceOf n x).ctx.archiveMax = s.ctx.archiveMax := rfl
@[simp] theorem State.setTraceOf_ctx_fusedAt (s : State) (n : Nat) (x : Trace) : (s.setTraceOf n x).ctx.fusedAt = s.ctx.fusedAt := rfl
@[simp] theorem State.setTraceOf_ctx_gangs (s : State) (n : Nat) (x : Trace) : (s.setTraceOf n x).ctx.gangs = s.ctx.gangs := rfl
@[simp] theorem State.setTraceOf_ctx_nextGang (s : State) (n : Nat) (x : Trace) : (s.setTraceOf n x).ctx.nextGang = s.ctx.nextGang := rfl
@[simp] theorem State.setTraceOf_ctx_carrels (s : State) (n : Nat) (x : Trace) : (s.setTraceOf n x).ctx.carrels = s.ctx.carrels := rfl
@[simp] theorem State.setTraceOf_ctx_galleryBars (s : State) (n : Nat) (x : Trace) : (s.setTraceOf n x).ctx.galleryBars = s.ctx.galleryBars := rfl
@[simp] theorem State.setTraceOf_ctx_wingBars (s : State) (n : Nat) (x : Trace) : (s.setTraceOf n x).ctx.wingBars = s.ctx.wingBars := rfl
@[simp] theorem State.setTraceOf_ctx_frames (s : State) (n : Nat) (x : Trace) : (s.setTraceOf n x).ctx.frames = s.ctx.frames := rfl
@[simp] theorem State.setTraceOf_ctx_parked (s : State) (n : Nat) (x : Trace) : (s.setTraceOf n x).ctx.parked = s.ctx.parked := rfl
@[simp] theorem State.setTraceOf_ctx_entries (s : State) (n : Nat) (x : Trace) : (s.setTraceOf n x).ctx.entries = s.ctx.entries := rfl
@[simp] theorem State.setTraceOf_ctx_slots (s : State) (n : Nat) (x : Trace) : (s.setTraceOf n x).ctx.slots = s.ctx.slots := rfl
@[simp] theorem State.setTraceOf_ctx_shelves (s : State) (n : Nat) (x : Trace) : (s.setTraceOf n x).ctx.shelves = s.ctx.shelves := rfl
@[simp] theorem State.setTraceOf_ctx_residents (s : State) (n : Nat) (x : Trace) : (s.setTraceOf n x).ctx.residents = s.ctx.residents := rfl
@[simp] theorem State.setTraceOf_ctx_age (s : State) (n : Nat) (x : Trace) : (s.setTraceOf n x).ctx.age = s.ctx.age := rfl
@[simp] theorem State.setTraceOf_ctx_launches (s : State) (n : Nat) (x : Trace) : (s.setTraceOf n x).ctx.launches = s.ctx.launches := rfl
@[simp] theorem State.setTraceOf_ctx_queues (s : State) (n : Nat) (x : Trace) : (s.setTraceOf n x).ctx.queues = s.ctx.queues := rfl
@[simp] theorem State.setTraceOf_ctx_copyRings (s : State) (n : Nat) (x : Trace) : (s.setTraceOf n x).ctx.copyRings = s.ctx.copyRings := rfl
@[simp] theorem State.setTraceOf_ctx_jobs (s : State) (n : Nat) (x : Trace) : (s.setTraceOf n x).ctx.jobs = s.ctx.jobs := rfl
@[simp] theorem State.setTraceOf_ctx_nextJob (s : State) (n : Nat) (x : Trace) : (s.setTraceOf n x).ctx.nextJob = s.ctx.nextJob := rfl
@[simp] theorem State.setTraceOf_ctx_traces (s : State) (n : Nat) (x : Trace) : (s.setTraceOf n x).ctx.traces = Table.put s.ctx.traces n x := rfl
@[simp] theorem State.setTraceOf_ctx_logs (s : State) (n : Nat) (x : Trace) : (s.setTraceOf n x).ctx.logs = s.ctx.logs := rfl
@[simp] theorem State.setTraceOf_ctx_codes (s : State) (n : Nat) (x : Trace) : (s.setTraceOf n x).ctx.codes = s.ctx.codes := rfl
@[simp] theorem State.setTraceOf_ctx_watches (s : State) (n : Nat) (x : Trace) : (s.setTraceOf n x).ctx.watches = s.ctx.watches := rfl
@[simp] theorem State.setTraceOf_ctx_heldSets (s : State) (n : Nat) (x : Trace) : (s.setTraceOf n x).ctx.heldSets = s.ctx.heldSets := rfl
@[simp] theorem State.setTraceOf_ctx_unmaps (s : State) (n : Nat) (x : Trace) : (s.setTraceOf n x).ctx.unmaps = s.ctx.unmaps := rfl
@[simp] theorem State.setTraceOf_ctx_grace (s : State) (n : Nat) (x : Trace) : (s.setTraceOf n x).ctx.grace = s.ctx.grace := rfl
@[simp] theorem State.setTraceOf_ctx_phints (s : State) (n : Nat) (x : Trace) : (s.setTraceOf n x).ctx.phints = s.ctx.phints := rfl
@[simp] theorem State.setTraceOf_ctx_nextTask (s : State) (n : Nat) (x : Trace) : (s.setTraceOf n x).ctx.nextTask = s.ctx.nextTask := rfl

/-! `State.setSlotOf`. -/

@[simp] theorem State.setSlotOf_agenda (s : State) (n : Nat) (x : Slot) : (s.setSlotOf n x).agenda = s.agenda := rfl
@[simp] theorem State.setSlotOf_clock (s : State) (n : Nat) (x : Slot) : (s.setSlotOf n x).clock = s.clock := rfl
@[simp] theorem State.setSlotOf_asleep (s : State) (n : Nat) (x : Slot) : (s.setSlotOf n x).asleep = s.asleep := rfl
@[simp] theorem State.setSlotOf_free (s : State) (n : Nat) (x : Slot) : (s.setSlotOf n x).free = s.free := rfl
@[simp] theorem State.setSlotOf_choices (s : State) (n : Nat) (x : Slot) : (s.setSlotOf n x).choices = s.choices := rfl
@[simp] theorem State.setSlotOf_cur (s : State) (n : Nat) (x : Slot) : (s.setSlotOf n x).cur = s.cur := rfl
@[simp] theorem State.setSlotOf_saved (s : State) (n : Nat) (x : Slot) : (s.setSlotOf n x).saved = s.saved := rfl
@[simp] theorem State.setSlotOf_mem (s : State) (n : Nat) (x : Slot) : (s.setSlotOf n x).mem = s.mem := rfl
@[simp] theorem State.setSlotOf_bad (s : State) (n : Nat) (x : Slot) : (s.setSlotOf n x).bad = s.bad := rfl
@[simp] theorem State.setSlotOf_errorLog (s : State) (n : Nat) (x : Slot) : (s.setSlotOf n x).errorLog = s.errorLog := rfl
@[simp] theorem State.setSlotOf_l1s (s : State) (n : Nat) (x : Slot) : (s.setSlotOf n x).l1s = s.l1s := rfl
@[simp] theorem State.setSlotOf_l2s (s : State) (n : Nat) (x : Slot) : (s.setSlotOf n x).l2s = s.l2s := rfl
@[simp] theorem State.setSlotOf_engTlbs (s : State) (n : Nat) (x : Slot) : (s.setSlotOf n x).engTlbs = s.engTlbs := rfl
@[simp] theorem State.setSlotOf_fused (s : State) (n : Nat) (x : Slot) : (s.setSlotOf n x).fused = s.fused := rfl
@[simp] theorem State.setSlotOf_gated (s : State) (n : Nat) (x : Slot) : (s.setSlotOf n x).gated = s.gated := rfl
@[simp] theorem State.setSlotOf_halt (s : State) (n : Nat) (x : Slot) : (s.setSlotOf n x).halt = s.halt := rfl
@[simp] theorem State.setSlotOf_faults (s : State) (n : Nat) (x : Slot) : (s.setSlotOf n x).faults = s.faults := rfl
@[simp] theorem State.setSlotOf_window (s : State) (n : Nat) (x : Slot) : (s.setSlotOf n x).window = s.window := rfl
@[simp] theorem State.setSlotOf_part (s : State) (n : Nat) (x : Slot) : (s.setSlotOf n x).part = s.part := rfl
@[simp] theorem State.setSlotOf_booted (s : State) (n : Nat) (x : Slot) : (s.setSlotOf n x).booted = s.booted := rfl
@[simp] theorem State.setSlotOf_recovery (s : State) (n : Nat) (x : Slot) : (s.setSlotOf n x).recovery = s.recovery := rfl
@[simp] theorem State.setSlotOf_measurement (s : State) (n : Nat) (x : Slot) : (s.setSlotOf n x).measurement = s.measurement := rfl
@[simp] theorem State.setSlotOf_version (s : State) (n : Nat) (x : Slot) : (s.setSlotOf n x).version = s.version := rfl
@[simp] theorem State.setSlotOf_pages (s : State) (n : Nat) (x : Slot) : (s.setSlotOf n x).pages = s.pages := rfl
@[simp] theorem State.setSlotOf_quotes (s : State) (n : Nat) (x : Slot) : (s.setSlotOf n x).quotes = s.quotes := rfl
@[simp] theorem State.setSlotOf_access (s : State) (n : Nat) (x : Slot) : (s.setSlotOf n x).access = s.access := rfl
@[simp] theorem State.setSlotOf_quotas (s : State) (n : Nat) (x : Slot) : (s.setSlotOf n x).quotas = s.quotas := rfl
@[simp] theorem State.setSlotOf_migr (s : State) (n : Nat) (x : Slot) : (s.setSlotOf n x).migr = s.migr := rfl
@[simp] theorem State.setSlotOf_resend (s : State) (n : Nat) (x : Slot) : (s.setSlotOf n x).resend = s.resend := rfl
@[simp] theorem State.setSlotOf_ctx_made (s : State) (n : Nat) (x : Slot) : (s.setSlotOf n x).ctx.made = s.ctx.made := rfl
@[simp] theorem State.setSlotOf_ctx_number (s : State) (n : Nat) (x : Slot) : (s.setSlotOf n x).ctx.number = s.ctx.number := rfl
@[simp] theorem State.setSlotOf_ctx_vi (s : State) (n : Nat) (x : Slot) : (s.setSlotOf n x).ctx.vi = s.ctx.vi := rfl
@[simp] theorem State.setSlotOf_ctx_gen (s : State) (n : Nat) (x : Slot) : (s.setSlotOf n x).ctx.gen = s.ctx.gen := rfl
@[simp] theorem State.setSlotOf_ctx_root (s : State) (n : Nat) (x : Slot) : (s.setSlotOf n x).ctx.root = s.ctx.root := rfl
@[simp] theorem State.setSlotOf_ctx_stopBase (s : State) (n : Nat) (x : Slot) : (s.setSlotOf n x).ctx.stopBase = s.ctx.stopBase := rfl
@[simp] theorem State.setSlotOf_ctx_faultBase (s : State) (n : Nat) (x : Slot) : (s.setSlotOf n x).ctx.faultBase = s.ctx.faultBase := rfl
@[simp] theorem State.setSlotOf_ctx_cstat (s : State) (n : Nat) (x : Slot) : (s.setSlotOf n x).ctx.cstat = s.ctx.cstat := rfl
@[simp] theorem State.setSlotOf_ctx_dbgctl (s : State) (n : Nat) (x : Slot) : (s.setSlotOf n x).ctx.dbgctl = s.ctx.dbgctl := rfl
@[simp] theorem State.setSlotOf_ctx_frameBase (s : State) (n : Nat) (x : Slot) : (s.setSlotOf n x).ctx.frameBase = s.ctx.frameBase := rfl
@[simp] theorem State.setSlotOf_ctx_frameRoom (s : State) (n : Nat) (x : Slot) : (s.setSlotOf n x).ctx.frameRoom = s.ctx.frameRoom := rfl
@[simp] theorem State.setSlotOf_ctx_imageBase (s : State) (n : Nat) (x : Slot) : (s.setSlotOf n x).ctx.imageBase = s.ctx.imageBase := rfl
@[simp] theorem State.setSlotOf_ctx_imageRoom (s : State) (n : Nat) (x : Slot) : (s.setSlotOf n x).ctx.imageRoom = s.ctx.imageRoom := rfl
@[simp] theorem State.setSlotOf_ctx_cellarBase (s : State) (n : Nat) (x : Slot) : (s.setSlotOf n x).ctx.cellarBase = s.ctx.cellarBase := rfl
@[simp] theorem State.setSlotOf_ctx_cellars (s : State) (n : Nat) (x : Slot) : (s.setSlotOf n x).ctx.cellars = s.ctx.cellars := rfl
@[simp] theorem State.setSlotOf_ctx_modBase (s : State) (n : Nat) (x : Slot) : (s.setSlotOf n x).ctx.modBase = s.ctx.modBase := rfl
@[simp] theorem State.setSlotOf_ctx_modRoom (s : State) (n : Nat) (x : Slot) : (s.setSlotOf n x).ctx.modRoom = s.ctx.modRoom := rfl
@[simp] theorem State.setSlotOf_ctx_allocs (s : State) (n : Nat) (x : Slot) : (s.setSlotOf n x).ctx.allocs = s.ctx.allocs := rfl
@[simp] theorem State.setSlotOf_ctx_logBase (s : State) (n : Nat) (x : Slot) : (s.setSlotOf n x).ctx.logBase = s.ctx.logBase := rfl
@[simp] theorem State.setSlotOf_ctx_archiveMax (s : State) (n : Nat) (x : Slot) : (s.setSlotOf n x).ctx.archiveMax = s.ctx.archiveMax := rfl
@[simp] theorem State.setSlotOf_ctx_fusedAt (s : State) (n : Nat) (x : Slot) : (s.setSlotOf n x).ctx.fusedAt = s.ctx.fusedAt := rfl
@[simp] theorem State.setSlotOf_ctx_gangs (s : State) (n : Nat) (x : Slot) : (s.setSlotOf n x).ctx.gangs = s.ctx.gangs := rfl
@[simp] theorem State.setSlotOf_ctx_nextGang (s : State) (n : Nat) (x : Slot) : (s.setSlotOf n x).ctx.nextGang = s.ctx.nextGang := rfl
@[simp] theorem State.setSlotOf_ctx_carrels (s : State) (n : Nat) (x : Slot) : (s.setSlotOf n x).ctx.carrels = s.ctx.carrels := rfl
@[simp] theorem State.setSlotOf_ctx_galleryBars (s : State) (n : Nat) (x : Slot) : (s.setSlotOf n x).ctx.galleryBars = s.ctx.galleryBars := rfl
@[simp] theorem State.setSlotOf_ctx_wingBars (s : State) (n : Nat) (x : Slot) : (s.setSlotOf n x).ctx.wingBars = s.ctx.wingBars := rfl
@[simp] theorem State.setSlotOf_ctx_frames (s : State) (n : Nat) (x : Slot) : (s.setSlotOf n x).ctx.frames = s.ctx.frames := rfl
@[simp] theorem State.setSlotOf_ctx_parked (s : State) (n : Nat) (x : Slot) : (s.setSlotOf n x).ctx.parked = s.ctx.parked := rfl
@[simp] theorem State.setSlotOf_ctx_entries (s : State) (n : Nat) (x : Slot) : (s.setSlotOf n x).ctx.entries = s.ctx.entries := rfl
@[simp] theorem State.setSlotOf_ctx_slots (s : State) (n : Nat) (x : Slot) : (s.setSlotOf n x).ctx.slots = Table.put s.ctx.slots n x := rfl
@[simp] theorem State.setSlotOf_ctx_shelves (s : State) (n : Nat) (x : Slot) : (s.setSlotOf n x).ctx.shelves = s.ctx.shelves := rfl
@[simp] theorem State.setSlotOf_ctx_residents (s : State) (n : Nat) (x : Slot) : (s.setSlotOf n x).ctx.residents = s.ctx.residents := rfl
@[simp] theorem State.setSlotOf_ctx_age (s : State) (n : Nat) (x : Slot) : (s.setSlotOf n x).ctx.age = s.ctx.age := rfl
@[simp] theorem State.setSlotOf_ctx_launches (s : State) (n : Nat) (x : Slot) : (s.setSlotOf n x).ctx.launches = s.ctx.launches := rfl
@[simp] theorem State.setSlotOf_ctx_queues (s : State) (n : Nat) (x : Slot) : (s.setSlotOf n x).ctx.queues = s.ctx.queues := rfl
@[simp] theorem State.setSlotOf_ctx_copyRings (s : State) (n : Nat) (x : Slot) : (s.setSlotOf n x).ctx.copyRings = s.ctx.copyRings := rfl
@[simp] theorem State.setSlotOf_ctx_jobs (s : State) (n : Nat) (x : Slot) : (s.setSlotOf n x).ctx.jobs = s.ctx.jobs := rfl
@[simp] theorem State.setSlotOf_ctx_nextJob (s : State) (n : Nat) (x : Slot) : (s.setSlotOf n x).ctx.nextJob = s.ctx.nextJob := rfl
@[simp] theorem State.setSlotOf_ctx_traces (s : State) (n : Nat) (x : Slot) : (s.setSlotOf n x).ctx.traces = s.ctx.traces := rfl
@[simp] theorem State.setSlotOf_ctx_logs (s : State) (n : Nat) (x : Slot) : (s.setSlotOf n x).ctx.logs = s.ctx.logs := rfl
@[simp] theorem State.setSlotOf_ctx_codes (s : State) (n : Nat) (x : Slot) : (s.setSlotOf n x).ctx.codes = s.ctx.codes := rfl
@[simp] theorem State.setSlotOf_ctx_watches (s : State) (n : Nat) (x : Slot) : (s.setSlotOf n x).ctx.watches = s.ctx.watches := rfl
@[simp] theorem State.setSlotOf_ctx_heldSets (s : State) (n : Nat) (x : Slot) : (s.setSlotOf n x).ctx.heldSets = s.ctx.heldSets := rfl
@[simp] theorem State.setSlotOf_ctx_unmaps (s : State) (n : Nat) (x : Slot) : (s.setSlotOf n x).ctx.unmaps = s.ctx.unmaps := rfl
@[simp] theorem State.setSlotOf_ctx_grace (s : State) (n : Nat) (x : Slot) : (s.setSlotOf n x).ctx.grace = s.ctx.grace := rfl
@[simp] theorem State.setSlotOf_ctx_phints (s : State) (n : Nat) (x : Slot) : (s.setSlotOf n x).ctx.phints = s.ctx.phints := rfl
@[simp] theorem State.setSlotOf_ctx_nextTask (s : State) (n : Nat) (x : Slot) : (s.setSlotOf n x).ctx.nextTask = s.ctx.nextTask := rfl

/-! `State.setShelfOf`. -/

@[simp] theorem State.setShelfOf_agenda (s : State) (n : Nat) (x : Shelf) : (s.setShelfOf n x).agenda = s.agenda := rfl
@[simp] theorem State.setShelfOf_clock (s : State) (n : Nat) (x : Shelf) : (s.setShelfOf n x).clock = s.clock := rfl
@[simp] theorem State.setShelfOf_asleep (s : State) (n : Nat) (x : Shelf) : (s.setShelfOf n x).asleep = s.asleep := rfl
@[simp] theorem State.setShelfOf_free (s : State) (n : Nat) (x : Shelf) : (s.setShelfOf n x).free = s.free := rfl
@[simp] theorem State.setShelfOf_choices (s : State) (n : Nat) (x : Shelf) : (s.setShelfOf n x).choices = s.choices := rfl
@[simp] theorem State.setShelfOf_cur (s : State) (n : Nat) (x : Shelf) : (s.setShelfOf n x).cur = s.cur := rfl
@[simp] theorem State.setShelfOf_saved (s : State) (n : Nat) (x : Shelf) : (s.setShelfOf n x).saved = s.saved := rfl
@[simp] theorem State.setShelfOf_mem (s : State) (n : Nat) (x : Shelf) : (s.setShelfOf n x).mem = s.mem := rfl
@[simp] theorem State.setShelfOf_bad (s : State) (n : Nat) (x : Shelf) : (s.setShelfOf n x).bad = s.bad := rfl
@[simp] theorem State.setShelfOf_errorLog (s : State) (n : Nat) (x : Shelf) : (s.setShelfOf n x).errorLog = s.errorLog := rfl
@[simp] theorem State.setShelfOf_l1s (s : State) (n : Nat) (x : Shelf) : (s.setShelfOf n x).l1s = s.l1s := rfl
@[simp] theorem State.setShelfOf_l2s (s : State) (n : Nat) (x : Shelf) : (s.setShelfOf n x).l2s = s.l2s := rfl
@[simp] theorem State.setShelfOf_engTlbs (s : State) (n : Nat) (x : Shelf) : (s.setShelfOf n x).engTlbs = s.engTlbs := rfl
@[simp] theorem State.setShelfOf_fused (s : State) (n : Nat) (x : Shelf) : (s.setShelfOf n x).fused = s.fused := rfl
@[simp] theorem State.setShelfOf_gated (s : State) (n : Nat) (x : Shelf) : (s.setShelfOf n x).gated = s.gated := rfl
@[simp] theorem State.setShelfOf_halt (s : State) (n : Nat) (x : Shelf) : (s.setShelfOf n x).halt = s.halt := rfl
@[simp] theorem State.setShelfOf_faults (s : State) (n : Nat) (x : Shelf) : (s.setShelfOf n x).faults = s.faults := rfl
@[simp] theorem State.setShelfOf_window (s : State) (n : Nat) (x : Shelf) : (s.setShelfOf n x).window = s.window := rfl
@[simp] theorem State.setShelfOf_part (s : State) (n : Nat) (x : Shelf) : (s.setShelfOf n x).part = s.part := rfl
@[simp] theorem State.setShelfOf_booted (s : State) (n : Nat) (x : Shelf) : (s.setShelfOf n x).booted = s.booted := rfl
@[simp] theorem State.setShelfOf_recovery (s : State) (n : Nat) (x : Shelf) : (s.setShelfOf n x).recovery = s.recovery := rfl
@[simp] theorem State.setShelfOf_measurement (s : State) (n : Nat) (x : Shelf) : (s.setShelfOf n x).measurement = s.measurement := rfl
@[simp] theorem State.setShelfOf_version (s : State) (n : Nat) (x : Shelf) : (s.setShelfOf n x).version = s.version := rfl
@[simp] theorem State.setShelfOf_pages (s : State) (n : Nat) (x : Shelf) : (s.setShelfOf n x).pages = s.pages := rfl
@[simp] theorem State.setShelfOf_quotes (s : State) (n : Nat) (x : Shelf) : (s.setShelfOf n x).quotes = s.quotes := rfl
@[simp] theorem State.setShelfOf_access (s : State) (n : Nat) (x : Shelf) : (s.setShelfOf n x).access = s.access := rfl
@[simp] theorem State.setShelfOf_quotas (s : State) (n : Nat) (x : Shelf) : (s.setShelfOf n x).quotas = s.quotas := rfl
@[simp] theorem State.setShelfOf_migr (s : State) (n : Nat) (x : Shelf) : (s.setShelfOf n x).migr = s.migr := rfl
@[simp] theorem State.setShelfOf_resend (s : State) (n : Nat) (x : Shelf) : (s.setShelfOf n x).resend = s.resend := rfl
@[simp] theorem State.setShelfOf_ctx_made (s : State) (n : Nat) (x : Shelf) : (s.setShelfOf n x).ctx.made = s.ctx.made := rfl
@[simp] theorem State.setShelfOf_ctx_number (s : State) (n : Nat) (x : Shelf) : (s.setShelfOf n x).ctx.number = s.ctx.number := rfl
@[simp] theorem State.setShelfOf_ctx_vi (s : State) (n : Nat) (x : Shelf) : (s.setShelfOf n x).ctx.vi = s.ctx.vi := rfl
@[simp] theorem State.setShelfOf_ctx_gen (s : State) (n : Nat) (x : Shelf) : (s.setShelfOf n x).ctx.gen = s.ctx.gen := rfl
@[simp] theorem State.setShelfOf_ctx_root (s : State) (n : Nat) (x : Shelf) : (s.setShelfOf n x).ctx.root = s.ctx.root := rfl
@[simp] theorem State.setShelfOf_ctx_stopBase (s : State) (n : Nat) (x : Shelf) : (s.setShelfOf n x).ctx.stopBase = s.ctx.stopBase := rfl
@[simp] theorem State.setShelfOf_ctx_faultBase (s : State) (n : Nat) (x : Shelf) : (s.setShelfOf n x).ctx.faultBase = s.ctx.faultBase := rfl
@[simp] theorem State.setShelfOf_ctx_cstat (s : State) (n : Nat) (x : Shelf) : (s.setShelfOf n x).ctx.cstat = s.ctx.cstat := rfl
@[simp] theorem State.setShelfOf_ctx_dbgctl (s : State) (n : Nat) (x : Shelf) : (s.setShelfOf n x).ctx.dbgctl = s.ctx.dbgctl := rfl
@[simp] theorem State.setShelfOf_ctx_frameBase (s : State) (n : Nat) (x : Shelf) : (s.setShelfOf n x).ctx.frameBase = s.ctx.frameBase := rfl
@[simp] theorem State.setShelfOf_ctx_frameRoom (s : State) (n : Nat) (x : Shelf) : (s.setShelfOf n x).ctx.frameRoom = s.ctx.frameRoom := rfl
@[simp] theorem State.setShelfOf_ctx_imageBase (s : State) (n : Nat) (x : Shelf) : (s.setShelfOf n x).ctx.imageBase = s.ctx.imageBase := rfl
@[simp] theorem State.setShelfOf_ctx_imageRoom (s : State) (n : Nat) (x : Shelf) : (s.setShelfOf n x).ctx.imageRoom = s.ctx.imageRoom := rfl
@[simp] theorem State.setShelfOf_ctx_cellarBase (s : State) (n : Nat) (x : Shelf) : (s.setShelfOf n x).ctx.cellarBase = s.ctx.cellarBase := rfl
@[simp] theorem State.setShelfOf_ctx_cellars (s : State) (n : Nat) (x : Shelf) : (s.setShelfOf n x).ctx.cellars = s.ctx.cellars := rfl
@[simp] theorem State.setShelfOf_ctx_modBase (s : State) (n : Nat) (x : Shelf) : (s.setShelfOf n x).ctx.modBase = s.ctx.modBase := rfl
@[simp] theorem State.setShelfOf_ctx_modRoom (s : State) (n : Nat) (x : Shelf) : (s.setShelfOf n x).ctx.modRoom = s.ctx.modRoom := rfl
@[simp] theorem State.setShelfOf_ctx_allocs (s : State) (n : Nat) (x : Shelf) : (s.setShelfOf n x).ctx.allocs = s.ctx.allocs := rfl
@[simp] theorem State.setShelfOf_ctx_logBase (s : State) (n : Nat) (x : Shelf) : (s.setShelfOf n x).ctx.logBase = s.ctx.logBase := rfl
@[simp] theorem State.setShelfOf_ctx_archiveMax (s : State) (n : Nat) (x : Shelf) : (s.setShelfOf n x).ctx.archiveMax = s.ctx.archiveMax := rfl
@[simp] theorem State.setShelfOf_ctx_fusedAt (s : State) (n : Nat) (x : Shelf) : (s.setShelfOf n x).ctx.fusedAt = s.ctx.fusedAt := rfl
@[simp] theorem State.setShelfOf_ctx_gangs (s : State) (n : Nat) (x : Shelf) : (s.setShelfOf n x).ctx.gangs = s.ctx.gangs := rfl
@[simp] theorem State.setShelfOf_ctx_nextGang (s : State) (n : Nat) (x : Shelf) : (s.setShelfOf n x).ctx.nextGang = s.ctx.nextGang := rfl
@[simp] theorem State.setShelfOf_ctx_carrels (s : State) (n : Nat) (x : Shelf) : (s.setShelfOf n x).ctx.carrels = s.ctx.carrels := rfl
@[simp] theorem State.setShelfOf_ctx_galleryBars (s : State) (n : Nat) (x : Shelf) : (s.setShelfOf n x).ctx.galleryBars = s.ctx.galleryBars := rfl
@[simp] theorem State.setShelfOf_ctx_wingBars (s : State) (n : Nat) (x : Shelf) : (s.setShelfOf n x).ctx.wingBars = s.ctx.wingBars := rfl
@[simp] theorem State.setShelfOf_ctx_frames (s : State) (n : Nat) (x : Shelf) : (s.setShelfOf n x).ctx.frames = s.ctx.frames := rfl
@[simp] theorem State.setShelfOf_ctx_parked (s : State) (n : Nat) (x : Shelf) : (s.setShelfOf n x).ctx.parked = s.ctx.parked := rfl
@[simp] theorem State.setShelfOf_ctx_entries (s : State) (n : Nat) (x : Shelf) : (s.setShelfOf n x).ctx.entries = s.ctx.entries := rfl
@[simp] theorem State.setShelfOf_ctx_slots (s : State) (n : Nat) (x : Shelf) : (s.setShelfOf n x).ctx.slots = s.ctx.slots := rfl
@[simp] theorem State.setShelfOf_ctx_shelves (s : State) (n : Nat) (x : Shelf) : (s.setShelfOf n x).ctx.shelves = Table.put s.ctx.shelves n x := rfl
@[simp] theorem State.setShelfOf_ctx_residents (s : State) (n : Nat) (x : Shelf) : (s.setShelfOf n x).ctx.residents = s.ctx.residents := rfl
@[simp] theorem State.setShelfOf_ctx_age (s : State) (n : Nat) (x : Shelf) : (s.setShelfOf n x).ctx.age = s.ctx.age := rfl
@[simp] theorem State.setShelfOf_ctx_launches (s : State) (n : Nat) (x : Shelf) : (s.setShelfOf n x).ctx.launches = s.ctx.launches := rfl
@[simp] theorem State.setShelfOf_ctx_queues (s : State) (n : Nat) (x : Shelf) : (s.setShelfOf n x).ctx.queues = s.ctx.queues := rfl
@[simp] theorem State.setShelfOf_ctx_copyRings (s : State) (n : Nat) (x : Shelf) : (s.setShelfOf n x).ctx.copyRings = s.ctx.copyRings := rfl
@[simp] theorem State.setShelfOf_ctx_jobs (s : State) (n : Nat) (x : Shelf) : (s.setShelfOf n x).ctx.jobs = s.ctx.jobs := rfl
@[simp] theorem State.setShelfOf_ctx_nextJob (s : State) (n : Nat) (x : Shelf) : (s.setShelfOf n x).ctx.nextJob = s.ctx.nextJob := rfl
@[simp] theorem State.setShelfOf_ctx_traces (s : State) (n : Nat) (x : Shelf) : (s.setShelfOf n x).ctx.traces = s.ctx.traces := rfl
@[simp] theorem State.setShelfOf_ctx_logs (s : State) (n : Nat) (x : Shelf) : (s.setShelfOf n x).ctx.logs = s.ctx.logs := rfl
@[simp] theorem State.setShelfOf_ctx_codes (s : State) (n : Nat) (x : Shelf) : (s.setShelfOf n x).ctx.codes = s.ctx.codes := rfl
@[simp] theorem State.setShelfOf_ctx_watches (s : State) (n : Nat) (x : Shelf) : (s.setShelfOf n x).ctx.watches = s.ctx.watches := rfl
@[simp] theorem State.setShelfOf_ctx_heldSets (s : State) (n : Nat) (x : Shelf) : (s.setShelfOf n x).ctx.heldSets = s.ctx.heldSets := rfl
@[simp] theorem State.setShelfOf_ctx_unmaps (s : State) (n : Nat) (x : Shelf) : (s.setShelfOf n x).ctx.unmaps = s.ctx.unmaps := rfl
@[simp] theorem State.setShelfOf_ctx_grace (s : State) (n : Nat) (x : Shelf) : (s.setShelfOf n x).ctx.grace = s.ctx.grace := rfl
@[simp] theorem State.setShelfOf_ctx_phints (s : State) (n : Nat) (x : Shelf) : (s.setShelfOf n x).ctx.phints = s.ctx.phints := rfl
@[simp] theorem State.setShelfOf_ctx_nextTask (s : State) (n : Nat) (x : Shelf) : (s.setShelfOf n x).ctx.nextTask = s.ctx.nextTask := rfl

/-! `State.setJobOf`. -/

@[simp] theorem State.setJobOf_agenda (s : State) (n : Nat) (x : Job) : (s.setJobOf n x).agenda = s.agenda := rfl
@[simp] theorem State.setJobOf_clock (s : State) (n : Nat) (x : Job) : (s.setJobOf n x).clock = s.clock := rfl
@[simp] theorem State.setJobOf_asleep (s : State) (n : Nat) (x : Job) : (s.setJobOf n x).asleep = s.asleep := rfl
@[simp] theorem State.setJobOf_free (s : State) (n : Nat) (x : Job) : (s.setJobOf n x).free = s.free := rfl
@[simp] theorem State.setJobOf_choices (s : State) (n : Nat) (x : Job) : (s.setJobOf n x).choices = s.choices := rfl
@[simp] theorem State.setJobOf_cur (s : State) (n : Nat) (x : Job) : (s.setJobOf n x).cur = s.cur := rfl
@[simp] theorem State.setJobOf_saved (s : State) (n : Nat) (x : Job) : (s.setJobOf n x).saved = s.saved := rfl
@[simp] theorem State.setJobOf_mem (s : State) (n : Nat) (x : Job) : (s.setJobOf n x).mem = s.mem := rfl
@[simp] theorem State.setJobOf_bad (s : State) (n : Nat) (x : Job) : (s.setJobOf n x).bad = s.bad := rfl
@[simp] theorem State.setJobOf_errorLog (s : State) (n : Nat) (x : Job) : (s.setJobOf n x).errorLog = s.errorLog := rfl
@[simp] theorem State.setJobOf_l1s (s : State) (n : Nat) (x : Job) : (s.setJobOf n x).l1s = s.l1s := rfl
@[simp] theorem State.setJobOf_l2s (s : State) (n : Nat) (x : Job) : (s.setJobOf n x).l2s = s.l2s := rfl
@[simp] theorem State.setJobOf_engTlbs (s : State) (n : Nat) (x : Job) : (s.setJobOf n x).engTlbs = s.engTlbs := rfl
@[simp] theorem State.setJobOf_fused (s : State) (n : Nat) (x : Job) : (s.setJobOf n x).fused = s.fused := rfl
@[simp] theorem State.setJobOf_gated (s : State) (n : Nat) (x : Job) : (s.setJobOf n x).gated = s.gated := rfl
@[simp] theorem State.setJobOf_halt (s : State) (n : Nat) (x : Job) : (s.setJobOf n x).halt = s.halt := rfl
@[simp] theorem State.setJobOf_faults (s : State) (n : Nat) (x : Job) : (s.setJobOf n x).faults = s.faults := rfl
@[simp] theorem State.setJobOf_window (s : State) (n : Nat) (x : Job) : (s.setJobOf n x).window = s.window := rfl
@[simp] theorem State.setJobOf_part (s : State) (n : Nat) (x : Job) : (s.setJobOf n x).part = s.part := rfl
@[simp] theorem State.setJobOf_booted (s : State) (n : Nat) (x : Job) : (s.setJobOf n x).booted = s.booted := rfl
@[simp] theorem State.setJobOf_recovery (s : State) (n : Nat) (x : Job) : (s.setJobOf n x).recovery = s.recovery := rfl
@[simp] theorem State.setJobOf_measurement (s : State) (n : Nat) (x : Job) : (s.setJobOf n x).measurement = s.measurement := rfl
@[simp] theorem State.setJobOf_version (s : State) (n : Nat) (x : Job) : (s.setJobOf n x).version = s.version := rfl
@[simp] theorem State.setJobOf_pages (s : State) (n : Nat) (x : Job) : (s.setJobOf n x).pages = s.pages := rfl
@[simp] theorem State.setJobOf_quotes (s : State) (n : Nat) (x : Job) : (s.setJobOf n x).quotes = s.quotes := rfl
@[simp] theorem State.setJobOf_access (s : State) (n : Nat) (x : Job) : (s.setJobOf n x).access = s.access := rfl
@[simp] theorem State.setJobOf_quotas (s : State) (n : Nat) (x : Job) : (s.setJobOf n x).quotas = s.quotas := rfl
@[simp] theorem State.setJobOf_migr (s : State) (n : Nat) (x : Job) : (s.setJobOf n x).migr = s.migr := rfl
@[simp] theorem State.setJobOf_resend (s : State) (n : Nat) (x : Job) : (s.setJobOf n x).resend = s.resend := rfl
@[simp] theorem State.setJobOf_ctx_made (s : State) (n : Nat) (x : Job) : (s.setJobOf n x).ctx.made = s.ctx.made := rfl
@[simp] theorem State.setJobOf_ctx_number (s : State) (n : Nat) (x : Job) : (s.setJobOf n x).ctx.number = s.ctx.number := rfl
@[simp] theorem State.setJobOf_ctx_vi (s : State) (n : Nat) (x : Job) : (s.setJobOf n x).ctx.vi = s.ctx.vi := rfl
@[simp] theorem State.setJobOf_ctx_gen (s : State) (n : Nat) (x : Job) : (s.setJobOf n x).ctx.gen = s.ctx.gen := rfl
@[simp] theorem State.setJobOf_ctx_root (s : State) (n : Nat) (x : Job) : (s.setJobOf n x).ctx.root = s.ctx.root := rfl
@[simp] theorem State.setJobOf_ctx_stopBase (s : State) (n : Nat) (x : Job) : (s.setJobOf n x).ctx.stopBase = s.ctx.stopBase := rfl
@[simp] theorem State.setJobOf_ctx_faultBase (s : State) (n : Nat) (x : Job) : (s.setJobOf n x).ctx.faultBase = s.ctx.faultBase := rfl
@[simp] theorem State.setJobOf_ctx_cstat (s : State) (n : Nat) (x : Job) : (s.setJobOf n x).ctx.cstat = s.ctx.cstat := rfl
@[simp] theorem State.setJobOf_ctx_dbgctl (s : State) (n : Nat) (x : Job) : (s.setJobOf n x).ctx.dbgctl = s.ctx.dbgctl := rfl
@[simp] theorem State.setJobOf_ctx_frameBase (s : State) (n : Nat) (x : Job) : (s.setJobOf n x).ctx.frameBase = s.ctx.frameBase := rfl
@[simp] theorem State.setJobOf_ctx_frameRoom (s : State) (n : Nat) (x : Job) : (s.setJobOf n x).ctx.frameRoom = s.ctx.frameRoom := rfl
@[simp] theorem State.setJobOf_ctx_imageBase (s : State) (n : Nat) (x : Job) : (s.setJobOf n x).ctx.imageBase = s.ctx.imageBase := rfl
@[simp] theorem State.setJobOf_ctx_imageRoom (s : State) (n : Nat) (x : Job) : (s.setJobOf n x).ctx.imageRoom = s.ctx.imageRoom := rfl
@[simp] theorem State.setJobOf_ctx_cellarBase (s : State) (n : Nat) (x : Job) : (s.setJobOf n x).ctx.cellarBase = s.ctx.cellarBase := rfl
@[simp] theorem State.setJobOf_ctx_cellars (s : State) (n : Nat) (x : Job) : (s.setJobOf n x).ctx.cellars = s.ctx.cellars := rfl
@[simp] theorem State.setJobOf_ctx_modBase (s : State) (n : Nat) (x : Job) : (s.setJobOf n x).ctx.modBase = s.ctx.modBase := rfl
@[simp] theorem State.setJobOf_ctx_modRoom (s : State) (n : Nat) (x : Job) : (s.setJobOf n x).ctx.modRoom = s.ctx.modRoom := rfl
@[simp] theorem State.setJobOf_ctx_allocs (s : State) (n : Nat) (x : Job) : (s.setJobOf n x).ctx.allocs = s.ctx.allocs := rfl
@[simp] theorem State.setJobOf_ctx_logBase (s : State) (n : Nat) (x : Job) : (s.setJobOf n x).ctx.logBase = s.ctx.logBase := rfl
@[simp] theorem State.setJobOf_ctx_archiveMax (s : State) (n : Nat) (x : Job) : (s.setJobOf n x).ctx.archiveMax = s.ctx.archiveMax := rfl
@[simp] theorem State.setJobOf_ctx_fusedAt (s : State) (n : Nat) (x : Job) : (s.setJobOf n x).ctx.fusedAt = s.ctx.fusedAt := rfl
@[simp] theorem State.setJobOf_ctx_gangs (s : State) (n : Nat) (x : Job) : (s.setJobOf n x).ctx.gangs = s.ctx.gangs := rfl
@[simp] theorem State.setJobOf_ctx_nextGang (s : State) (n : Nat) (x : Job) : (s.setJobOf n x).ctx.nextGang = s.ctx.nextGang := rfl
@[simp] theorem State.setJobOf_ctx_carrels (s : State) (n : Nat) (x : Job) : (s.setJobOf n x).ctx.carrels = s.ctx.carrels := rfl
@[simp] theorem State.setJobOf_ctx_galleryBars (s : State) (n : Nat) (x : Job) : (s.setJobOf n x).ctx.galleryBars = s.ctx.galleryBars := rfl
@[simp] theorem State.setJobOf_ctx_wingBars (s : State) (n : Nat) (x : Job) : (s.setJobOf n x).ctx.wingBars = s.ctx.wingBars := rfl
@[simp] theorem State.setJobOf_ctx_frames (s : State) (n : Nat) (x : Job) : (s.setJobOf n x).ctx.frames = s.ctx.frames := rfl
@[simp] theorem State.setJobOf_ctx_parked (s : State) (n : Nat) (x : Job) : (s.setJobOf n x).ctx.parked = s.ctx.parked := rfl
@[simp] theorem State.setJobOf_ctx_entries (s : State) (n : Nat) (x : Job) : (s.setJobOf n x).ctx.entries = s.ctx.entries := rfl
@[simp] theorem State.setJobOf_ctx_slots (s : State) (n : Nat) (x : Job) : (s.setJobOf n x).ctx.slots = s.ctx.slots := rfl
@[simp] theorem State.setJobOf_ctx_shelves (s : State) (n : Nat) (x : Job) : (s.setJobOf n x).ctx.shelves = s.ctx.shelves := rfl
@[simp] theorem State.setJobOf_ctx_residents (s : State) (n : Nat) (x : Job) : (s.setJobOf n x).ctx.residents = s.ctx.residents := rfl
@[simp] theorem State.setJobOf_ctx_age (s : State) (n : Nat) (x : Job) : (s.setJobOf n x).ctx.age = s.ctx.age := rfl
@[simp] theorem State.setJobOf_ctx_launches (s : State) (n : Nat) (x : Job) : (s.setJobOf n x).ctx.launches = s.ctx.launches := rfl
@[simp] theorem State.setJobOf_ctx_queues (s : State) (n : Nat) (x : Job) : (s.setJobOf n x).ctx.queues = s.ctx.queues := rfl
@[simp] theorem State.setJobOf_ctx_copyRings (s : State) (n : Nat) (x : Job) : (s.setJobOf n x).ctx.copyRings = s.ctx.copyRings := rfl
@[simp] theorem State.setJobOf_ctx_jobs (s : State) (n : Nat) (x : Job) : (s.setJobOf n x).ctx.jobs = Table.put s.ctx.jobs n x := rfl
@[simp] theorem State.setJobOf_ctx_nextJob (s : State) (n : Nat) (x : Job) : (s.setJobOf n x).ctx.nextJob = s.ctx.nextJob := rfl
@[simp] theorem State.setJobOf_ctx_traces (s : State) (n : Nat) (x : Job) : (s.setJobOf n x).ctx.traces = s.ctx.traces := rfl
@[simp] theorem State.setJobOf_ctx_logs (s : State) (n : Nat) (x : Job) : (s.setJobOf n x).ctx.logs = s.ctx.logs := rfl
@[simp] theorem State.setJobOf_ctx_codes (s : State) (n : Nat) (x : Job) : (s.setJobOf n x).ctx.codes = s.ctx.codes := rfl
@[simp] theorem State.setJobOf_ctx_watches (s : State) (n : Nat) (x : Job) : (s.setJobOf n x).ctx.watches = s.ctx.watches := rfl
@[simp] theorem State.setJobOf_ctx_heldSets (s : State) (n : Nat) (x : Job) : (s.setJobOf n x).ctx.heldSets = s.ctx.heldSets := rfl
@[simp] theorem State.setJobOf_ctx_unmaps (s : State) (n : Nat) (x : Job) : (s.setJobOf n x).ctx.unmaps = s.ctx.unmaps := rfl
@[simp] theorem State.setJobOf_ctx_grace (s : State) (n : Nat) (x : Job) : (s.setJobOf n x).ctx.grace = s.ctx.grace := rfl
@[simp] theorem State.setJobOf_ctx_phints (s : State) (n : Nat) (x : Job) : (s.setJobOf n x).ctx.phints = s.ctx.phints := rfl
@[simp] theorem State.setJobOf_ctx_nextTask (s : State) (n : Nat) (x : Job) : (s.setJobOf n x).ctx.nextTask = s.ctx.nextTask := rfl

/-! `State.tick`. -/

@[simp] theorem State.tick_agenda (s : State) : (s.tick).agenda = s.agenda := rfl
@[simp] theorem State.tick_clock (s : State) : s.tick.clock = s.clock + 1 := rfl
@[simp] theorem State.tick_asleep (s : State) : s.tick.asleep = s.gated.foldl (fun t c => Table.put t c (Table.look t c 0 + 1)) s.asleep := rfl
@[simp] theorem State.tick_free (s : State) : (s.tick).free = s.free := rfl
@[simp] theorem State.tick_choices (s : State) : (s.tick).choices = s.choices := rfl
@[simp] theorem State.tick_cur (s : State) : (s.tick).cur = s.cur := rfl
@[simp] theorem State.tick_saved (s : State) : (s.tick).saved = s.saved := rfl
@[simp] theorem State.tick_mem (s : State) : (s.tick).mem = s.mem := rfl
@[simp] theorem State.tick_bad (s : State) : (s.tick).bad = s.bad := rfl
@[simp] theorem State.tick_errorLog (s : State) : (s.tick).errorLog = s.errorLog := rfl
@[simp] theorem State.tick_l1s (s : State) : (s.tick).l1s = s.l1s := rfl
@[simp] theorem State.tick_l2s (s : State) : (s.tick).l2s = s.l2s := rfl
@[simp] theorem State.tick_engTlbs (s : State) : (s.tick).engTlbs = s.engTlbs := rfl
@[simp] theorem State.tick_fused (s : State) : (s.tick).fused = s.fused := rfl
@[simp] theorem State.tick_gated (s : State) : (s.tick).gated = s.gated := rfl
@[simp] theorem State.tick_halt (s : State) : (s.tick).halt = s.halt := rfl
@[simp] theorem State.tick_faults (s : State) : (s.tick).faults = s.faults := rfl
@[simp] theorem State.tick_window (s : State) : (s.tick).window = s.window := rfl
@[simp] theorem State.tick_part (s : State) : (s.tick).part = s.part := rfl
@[simp] theorem State.tick_booted (s : State) : (s.tick).booted = s.booted := rfl
@[simp] theorem State.tick_recovery (s : State) : (s.tick).recovery = s.recovery := rfl
@[simp] theorem State.tick_measurement (s : State) : (s.tick).measurement = s.measurement := rfl
@[simp] theorem State.tick_version (s : State) : (s.tick).version = s.version := rfl
@[simp] theorem State.tick_pages (s : State) : (s.tick).pages = s.pages := rfl
@[simp] theorem State.tick_quotes (s : State) : (s.tick).quotes = s.quotes := rfl
@[simp] theorem State.tick_access (s : State) : (s.tick).access = s.access := rfl
@[simp] theorem State.tick_quotas (s : State) : (s.tick).quotas = s.quotas := rfl
@[simp] theorem State.tick_migr (s : State) : (s.tick).migr = s.migr := rfl
@[simp] theorem State.tick_resend (s : State) : (s.tick).resend = s.resend := rfl
@[simp] theorem State.tick_ctx_made (s : State) : (s.tick).ctx.made = s.ctx.made := rfl
@[simp] theorem State.tick_ctx_number (s : State) : (s.tick).ctx.number = s.ctx.number := rfl
@[simp] theorem State.tick_ctx_vi (s : State) : (s.tick).ctx.vi = s.ctx.vi := rfl
@[simp] theorem State.tick_ctx_gen (s : State) : (s.tick).ctx.gen = s.ctx.gen := rfl
@[simp] theorem State.tick_ctx_root (s : State) : (s.tick).ctx.root = s.ctx.root := rfl
@[simp] theorem State.tick_ctx_stopBase (s : State) : (s.tick).ctx.stopBase = s.ctx.stopBase := rfl
@[simp] theorem State.tick_ctx_faultBase (s : State) : (s.tick).ctx.faultBase = s.ctx.faultBase := rfl
@[simp] theorem State.tick_ctx_cstat (s : State) : (s.tick).ctx.cstat = s.ctx.cstat := rfl
@[simp] theorem State.tick_ctx_dbgctl (s : State) : (s.tick).ctx.dbgctl = s.ctx.dbgctl := rfl
@[simp] theorem State.tick_ctx_frameBase (s : State) : (s.tick).ctx.frameBase = s.ctx.frameBase := rfl
@[simp] theorem State.tick_ctx_frameRoom (s : State) : (s.tick).ctx.frameRoom = s.ctx.frameRoom := rfl
@[simp] theorem State.tick_ctx_imageBase (s : State) : (s.tick).ctx.imageBase = s.ctx.imageBase := rfl
@[simp] theorem State.tick_ctx_imageRoom (s : State) : (s.tick).ctx.imageRoom = s.ctx.imageRoom := rfl
@[simp] theorem State.tick_ctx_cellarBase (s : State) : (s.tick).ctx.cellarBase = s.ctx.cellarBase := rfl
@[simp] theorem State.tick_ctx_cellars (s : State) : (s.tick).ctx.cellars = s.ctx.cellars := rfl
@[simp] theorem State.tick_ctx_modBase (s : State) : (s.tick).ctx.modBase = s.ctx.modBase := rfl
@[simp] theorem State.tick_ctx_modRoom (s : State) : (s.tick).ctx.modRoom = s.ctx.modRoom := rfl
@[simp] theorem State.tick_ctx_allocs (s : State) : (s.tick).ctx.allocs = s.ctx.allocs := rfl
@[simp] theorem State.tick_ctx_logBase (s : State) : (s.tick).ctx.logBase = s.ctx.logBase := rfl
@[simp] theorem State.tick_ctx_archiveMax (s : State) : (s.tick).ctx.archiveMax = s.ctx.archiveMax := rfl
@[simp] theorem State.tick_ctx_fusedAt (s : State) : (s.tick).ctx.fusedAt = s.ctx.fusedAt := rfl
@[simp] theorem State.tick_ctx_gangs (s : State) : (s.tick).ctx.gangs = s.ctx.gangs := rfl
@[simp] theorem State.tick_ctx_nextGang (s : State) : (s.tick).ctx.nextGang = s.ctx.nextGang := rfl
@[simp] theorem State.tick_ctx_carrels (s : State) : (s.tick).ctx.carrels = s.ctx.carrels.map fun e => (e.1, if s.gated.contains e.1 then e.2 else (e.2.count 1 1).count 3 (s.lostSlots true e.1)) := rfl
@[simp] theorem State.tick_ctx_galleryBars (s : State) : (s.tick).ctx.galleryBars = s.ctx.galleryBars := rfl
@[simp] theorem State.tick_ctx_wingBars (s : State) : (s.tick).ctx.wingBars = s.ctx.wingBars := rfl
@[simp] theorem State.tick_ctx_frames (s : State) : (s.tick).ctx.frames = s.ctx.frames := rfl
@[simp] theorem State.tick_ctx_parked (s : State) : (s.tick).ctx.parked = s.ctx.parked := rfl
@[simp] theorem State.tick_ctx_entries (s : State) : (s.tick).ctx.entries = s.ctx.entries := rfl
@[simp] theorem State.tick_ctx_slots (s : State) : (s.tick).ctx.slots = s.ctx.slots := rfl
@[simp] theorem State.tick_ctx_shelves (s : State) : (s.tick).ctx.shelves = s.ctx.shelves := rfl
@[simp] theorem State.tick_ctx_residents (s : State) : (s.tick).ctx.residents = s.ctx.residents := rfl
@[simp] theorem State.tick_ctx_age (s : State) : (s.tick).ctx.age = s.ctx.age := rfl
@[simp] theorem State.tick_ctx_launches (s : State) : (s.tick).ctx.launches = s.ctx.launches := rfl
@[simp] theorem State.tick_ctx_queues (s : State) : (s.tick).ctx.queues = s.ctx.queues := rfl
@[simp] theorem State.tick_ctx_copyRings (s : State) : (s.tick).ctx.copyRings = s.ctx.copyRings := rfl
@[simp] theorem State.tick_ctx_jobs (s : State) : (s.tick).ctx.jobs = s.ctx.jobs := rfl
@[simp] theorem State.tick_ctx_nextJob (s : State) : (s.tick).ctx.nextJob = s.ctx.nextJob := rfl
@[simp] theorem State.tick_ctx_traces (s : State) : (s.tick).ctx.traces = s.ctx.traces := rfl
@[simp] theorem State.tick_ctx_logs (s : State) : (s.tick).ctx.logs = s.ctx.logs := rfl
@[simp] theorem State.tick_ctx_codes (s : State) : (s.tick).ctx.codes = s.ctx.codes := rfl
@[simp] theorem State.tick_ctx_watches (s : State) : (s.tick).ctx.watches = s.ctx.watches := rfl
@[simp] theorem State.tick_ctx_heldSets (s : State) : (s.tick).ctx.heldSets = s.ctx.heldSets := rfl
@[simp] theorem State.tick_ctx_unmaps (s : State) : (s.tick).ctx.unmaps = s.ctx.unmaps := rfl
@[simp] theorem State.tick_ctx_grace (s : State) : (s.tick).ctx.grace = s.ctx.grace := rfl
@[simp] theorem State.tick_ctx_phints (s : State) : (s.tick).ctx.phints = s.ctx.phints := rfl
@[simp] theorem State.tick_ctx_nextTask (s : State) : (s.tick).ctx.nextTask = s.ctx.nextTask := rfl

/-! `State.setCacheOf`. -/

@[simp] theorem State.setCacheOf_agenda (s : State) (n : Nat) (x : Cache) : (s.setCacheOf n x).agenda = s.agenda := rfl
@[simp] theorem State.setCacheOf_clock (s : State) (n : Nat) (x : Cache) : (s.setCacheOf n x).clock = s.clock := rfl
@[simp] theorem State.setCacheOf_asleep (s : State) (n : Nat) (x : Cache) : (s.setCacheOf n x).asleep = s.asleep := rfl
@[simp] theorem State.setCacheOf_free (s : State) (n : Nat) (x : Cache) : (s.setCacheOf n x).free = s.free := rfl
@[simp] theorem State.setCacheOf_choices (s : State) (n : Nat) (x : Cache) : (s.setCacheOf n x).choices = s.choices := rfl
@[simp] theorem State.setCacheOf_cur (s : State) (n : Nat) (x : Cache) : (s.setCacheOf n x).cur = s.cur := rfl
@[simp] theorem State.setCacheOf_ctx (s : State) (n : Nat) (x : Cache) : (s.setCacheOf n x).ctx = s.ctx := rfl
@[simp] theorem State.setCacheOf_saved (s : State) (n : Nat) (x : Cache) : (s.setCacheOf n x).saved = s.saved := rfl
@[simp] theorem State.setCacheOf_mem (s : State) (n : Nat) (x : Cache) : (s.setCacheOf n x).mem = s.mem := rfl
@[simp] theorem State.setCacheOf_bad (s : State) (n : Nat) (x : Cache) : (s.setCacheOf n x).bad = s.bad := rfl
@[simp] theorem State.setCacheOf_errorLog (s : State) (n : Nat) (x : Cache) : (s.setCacheOf n x).errorLog = s.errorLog := rfl
@[simp] theorem State.setCacheOf_l1s (s : State) (n : Nat) (x : Cache) : (s.setCacheOf n x).l1s = Table.put s.l1s n x := rfl
@[simp] theorem State.setCacheOf_l2s (s : State) (n : Nat) (x : Cache) : (s.setCacheOf n x).l2s = s.l2s := rfl
@[simp] theorem State.setCacheOf_engTlbs (s : State) (n : Nat) (x : Cache) : (s.setCacheOf n x).engTlbs = s.engTlbs := rfl
@[simp] theorem State.setCacheOf_fused (s : State) (n : Nat) (x : Cache) : (s.setCacheOf n x).fused = s.fused := rfl
@[simp] theorem State.setCacheOf_gated (s : State) (n : Nat) (x : Cache) : (s.setCacheOf n x).gated = s.gated := rfl
@[simp] theorem State.setCacheOf_halt (s : State) (n : Nat) (x : Cache) : (s.setCacheOf n x).halt = s.halt := rfl
@[simp] theorem State.setCacheOf_faults (s : State) (n : Nat) (x : Cache) : (s.setCacheOf n x).faults = s.faults := rfl
@[simp] theorem State.setCacheOf_window (s : State) (n : Nat) (x : Cache) : (s.setCacheOf n x).window = s.window := rfl
@[simp] theorem State.setCacheOf_part (s : State) (n : Nat) (x : Cache) : (s.setCacheOf n x).part = s.part := rfl
@[simp] theorem State.setCacheOf_booted (s : State) (n : Nat) (x : Cache) : (s.setCacheOf n x).booted = s.booted := rfl
@[simp] theorem State.setCacheOf_recovery (s : State) (n : Nat) (x : Cache) : (s.setCacheOf n x).recovery = s.recovery := rfl
@[simp] theorem State.setCacheOf_measurement (s : State) (n : Nat) (x : Cache) : (s.setCacheOf n x).measurement = s.measurement := rfl
@[simp] theorem State.setCacheOf_version (s : State) (n : Nat) (x : Cache) : (s.setCacheOf n x).version = s.version := rfl
@[simp] theorem State.setCacheOf_pages (s : State) (n : Nat) (x : Cache) : (s.setCacheOf n x).pages = s.pages := rfl
@[simp] theorem State.setCacheOf_quotes (s : State) (n : Nat) (x : Cache) : (s.setCacheOf n x).quotes = s.quotes := rfl
@[simp] theorem State.setCacheOf_access (s : State) (n : Nat) (x : Cache) : (s.setCacheOf n x).access = s.access := rfl
@[simp] theorem State.setCacheOf_quotas (s : State) (n : Nat) (x : Cache) : (s.setCacheOf n x).quotas = s.quotas := rfl
@[simp] theorem State.setCacheOf_migr (s : State) (n : Nat) (x : Cache) : (s.setCacheOf n x).migr = s.migr := rfl
@[simp] theorem State.setCacheOf_resend (s : State) (n : Nat) (x : Cache) : (s.setCacheOf n x).resend = s.resend := rfl

/-! `State.setGalleryCache`. -/

@[simp] theorem State.setGalleryCache_agenda (s : State) (n : Nat) (x : Cache) : (s.setGalleryCache n x).agenda = s.agenda := rfl
@[simp] theorem State.setGalleryCache_clock (s : State) (n : Nat) (x : Cache) : (s.setGalleryCache n x).clock = s.clock := rfl
@[simp] theorem State.setGalleryCache_asleep (s : State) (n : Nat) (x : Cache) : (s.setGalleryCache n x).asleep = s.asleep := rfl
@[simp] theorem State.setGalleryCache_free (s : State) (n : Nat) (x : Cache) : (s.setGalleryCache n x).free = s.free := rfl
@[simp] theorem State.setGalleryCache_choices (s : State) (n : Nat) (x : Cache) : (s.setGalleryCache n x).choices = s.choices := rfl
@[simp] theorem State.setGalleryCache_cur (s : State) (n : Nat) (x : Cache) : (s.setGalleryCache n x).cur = s.cur := rfl
@[simp] theorem State.setGalleryCache_ctx (s : State) (n : Nat) (x : Cache) : (s.setGalleryCache n x).ctx = s.ctx := rfl
@[simp] theorem State.setGalleryCache_saved (s : State) (n : Nat) (x : Cache) : (s.setGalleryCache n x).saved = s.saved := rfl
@[simp] theorem State.setGalleryCache_mem (s : State) (n : Nat) (x : Cache) : (s.setGalleryCache n x).mem = s.mem := rfl
@[simp] theorem State.setGalleryCache_bad (s : State) (n : Nat) (x : Cache) : (s.setGalleryCache n x).bad = s.bad := rfl
@[simp] theorem State.setGalleryCache_errorLog (s : State) (n : Nat) (x : Cache) : (s.setGalleryCache n x).errorLog = s.errorLog := rfl
@[simp] theorem State.setGalleryCache_l1s (s : State) (n : Nat) (x : Cache) : (s.setGalleryCache n x).l1s = s.l1s := rfl
@[simp] theorem State.setGalleryCache_l2s (s : State) (n : Nat) (x : Cache) : (s.setGalleryCache n x).l2s = Table.put s.l2s n x := rfl
@[simp] theorem State.setGalleryCache_engTlbs (s : State) (n : Nat) (x : Cache) : (s.setGalleryCache n x).engTlbs = s.engTlbs := rfl
@[simp] theorem State.setGalleryCache_fused (s : State) (n : Nat) (x : Cache) : (s.setGalleryCache n x).fused = s.fused := rfl
@[simp] theorem State.setGalleryCache_gated (s : State) (n : Nat) (x : Cache) : (s.setGalleryCache n x).gated = s.gated := rfl
@[simp] theorem State.setGalleryCache_halt (s : State) (n : Nat) (x : Cache) : (s.setGalleryCache n x).halt = s.halt := rfl
@[simp] theorem State.setGalleryCache_faults (s : State) (n : Nat) (x : Cache) : (s.setGalleryCache n x).faults = s.faults := rfl
@[simp] theorem State.setGalleryCache_window (s : State) (n : Nat) (x : Cache) : (s.setGalleryCache n x).window = s.window := rfl
@[simp] theorem State.setGalleryCache_part (s : State) (n : Nat) (x : Cache) : (s.setGalleryCache n x).part = s.part := rfl
@[simp] theorem State.setGalleryCache_booted (s : State) (n : Nat) (x : Cache) : (s.setGalleryCache n x).booted = s.booted := rfl
@[simp] theorem State.setGalleryCache_recovery (s : State) (n : Nat) (x : Cache) : (s.setGalleryCache n x).recovery = s.recovery := rfl
@[simp] theorem State.setGalleryCache_measurement (s : State) (n : Nat) (x : Cache) : (s.setGalleryCache n x).measurement = s.measurement := rfl
@[simp] theorem State.setGalleryCache_version (s : State) (n : Nat) (x : Cache) : (s.setGalleryCache n x).version = s.version := rfl
@[simp] theorem State.setGalleryCache_pages (s : State) (n : Nat) (x : Cache) : (s.setGalleryCache n x).pages = s.pages := rfl
@[simp] theorem State.setGalleryCache_quotes (s : State) (n : Nat) (x : Cache) : (s.setGalleryCache n x).quotes = s.quotes := rfl
@[simp] theorem State.setGalleryCache_access (s : State) (n : Nat) (x : Cache) : (s.setGalleryCache n x).access = s.access := rfl
@[simp] theorem State.setGalleryCache_quotas (s : State) (n : Nat) (x : Cache) : (s.setGalleryCache n x).quotas = s.quotas := rfl
@[simp] theorem State.setGalleryCache_migr (s : State) (n : Nat) (x : Cache) : (s.setGalleryCache n x).migr = s.migr := rfl
@[simp] theorem State.setGalleryCache_resend (s : State) (n : Nat) (x : Cache) : (s.setGalleryCache n x).resend = s.resend := rfl

/-! `State.setPageOf`. -/

@[simp] theorem State.setPageOf_agenda (s : State) (n : Nat) (x : Page) : (s.setPageOf n x).agenda = s.agenda := rfl
@[simp] theorem State.setPageOf_clock (s : State) (n : Nat) (x : Page) : (s.setPageOf n x).clock = s.clock := rfl
@[simp] theorem State.setPageOf_asleep (s : State) (n : Nat) (x : Page) : (s.setPageOf n x).asleep = s.asleep := rfl
@[simp] theorem State.setPageOf_free (s : State) (n : Nat) (x : Page) : (s.setPageOf n x).free = s.free := rfl
@[simp] theorem State.setPageOf_choices (s : State) (n : Nat) (x : Page) : (s.setPageOf n x).choices = s.choices := rfl
@[simp] theorem State.setPageOf_cur (s : State) (n : Nat) (x : Page) : (s.setPageOf n x).cur = s.cur := rfl
@[simp] theorem State.setPageOf_ctx (s : State) (n : Nat) (x : Page) : (s.setPageOf n x).ctx = s.ctx := rfl
@[simp] theorem State.setPageOf_saved (s : State) (n : Nat) (x : Page) : (s.setPageOf n x).saved = s.saved := rfl
@[simp] theorem State.setPageOf_mem (s : State) (n : Nat) (x : Page) : (s.setPageOf n x).mem = s.mem := rfl
@[simp] theorem State.setPageOf_bad (s : State) (n : Nat) (x : Page) : (s.setPageOf n x).bad = s.bad := rfl
@[simp] theorem State.setPageOf_errorLog (s : State) (n : Nat) (x : Page) : (s.setPageOf n x).errorLog = s.errorLog := rfl
@[simp] theorem State.setPageOf_l1s (s : State) (n : Nat) (x : Page) : (s.setPageOf n x).l1s = s.l1s := rfl
@[simp] theorem State.setPageOf_l2s (s : State) (n : Nat) (x : Page) : (s.setPageOf n x).l2s = s.l2s := rfl
@[simp] theorem State.setPageOf_engTlbs (s : State) (n : Nat) (x : Page) : (s.setPageOf n x).engTlbs = s.engTlbs := rfl
@[simp] theorem State.setPageOf_fused (s : State) (n : Nat) (x : Page) : (s.setPageOf n x).fused = s.fused := rfl
@[simp] theorem State.setPageOf_gated (s : State) (n : Nat) (x : Page) : (s.setPageOf n x).gated = s.gated := rfl
@[simp] theorem State.setPageOf_halt (s : State) (n : Nat) (x : Page) : (s.setPageOf n x).halt = s.halt := rfl
@[simp] theorem State.setPageOf_faults (s : State) (n : Nat) (x : Page) : (s.setPageOf n x).faults = s.faults := rfl
@[simp] theorem State.setPageOf_window (s : State) (n : Nat) (x : Page) : (s.setPageOf n x).window = s.window := rfl
@[simp] theorem State.setPageOf_part (s : State) (n : Nat) (x : Page) : (s.setPageOf n x).part = s.part := rfl
@[simp] theorem State.setPageOf_booted (s : State) (n : Nat) (x : Page) : (s.setPageOf n x).booted = s.booted := rfl
@[simp] theorem State.setPageOf_recovery (s : State) (n : Nat) (x : Page) : (s.setPageOf n x).recovery = s.recovery := rfl
@[simp] theorem State.setPageOf_measurement (s : State) (n : Nat) (x : Page) : (s.setPageOf n x).measurement = s.measurement := rfl
@[simp] theorem State.setPageOf_version (s : State) (n : Nat) (x : Page) : (s.setPageOf n x).version = s.version := rfl
@[simp] theorem State.setPageOf_pages (s : State) (n : Nat) (x : Page) : (s.setPageOf n x).pages = Table.put s.pages n x := rfl
@[simp] theorem State.setPageOf_quotes (s : State) (n : Nat) (x : Page) : (s.setPageOf n x).quotes = s.quotes := rfl
@[simp] theorem State.setPageOf_access (s : State) (n : Nat) (x : Page) : (s.setPageOf n x).access = s.access := rfl
@[simp] theorem State.setPageOf_quotas (s : State) (n : Nat) (x : Page) : (s.setPageOf n x).quotas = s.quotas := rfl
@[simp] theorem State.setPageOf_migr (s : State) (n : Nat) (x : Page) : (s.setPageOf n x).migr = s.migr := rfl
@[simp] theorem State.setPageOf_resend (s : State) (n : Nat) (x : Page) : (s.setPageOf n x).resend = s.resend := rfl

/-! `State.useFree`. -/

@[simp] theorem State.useFree_agenda (s : State) : (s.useFree).agenda = s.agenda := rfl
@[simp] theorem State.useFree_clock (s : State) : (s.useFree).clock = s.clock := rfl
@[simp] theorem State.useFree_asleep (s : State) : (s.useFree).asleep = s.asleep := rfl
@[simp] theorem State.useFree_free (s : State) : (s.useFree).free = s.free + 1 := rfl
@[simp] theorem State.useFree_choices (s : State) : (s.useFree).choices = s.choices := rfl
@[simp] theorem State.useFree_cur (s : State) : (s.useFree).cur = s.cur := rfl
@[simp] theorem State.useFree_ctx (s : State) : (s.useFree).ctx = s.ctx := rfl
@[simp] theorem State.useFree_saved (s : State) : (s.useFree).saved = s.saved := rfl
@[simp] theorem State.useFree_mem (s : State) : (s.useFree).mem = s.mem := rfl
@[simp] theorem State.useFree_bad (s : State) : (s.useFree).bad = s.bad := rfl
@[simp] theorem State.useFree_errorLog (s : State) : (s.useFree).errorLog = s.errorLog := rfl
@[simp] theorem State.useFree_l1s (s : State) : (s.useFree).l1s = s.l1s := rfl
@[simp] theorem State.useFree_l2s (s : State) : (s.useFree).l2s = s.l2s := rfl
@[simp] theorem State.useFree_engTlbs (s : State) : (s.useFree).engTlbs = s.engTlbs := rfl
@[simp] theorem State.useFree_fused (s : State) : (s.useFree).fused = s.fused := rfl
@[simp] theorem State.useFree_gated (s : State) : (s.useFree).gated = s.gated := rfl
@[simp] theorem State.useFree_halt (s : State) : (s.useFree).halt = s.halt := rfl
@[simp] theorem State.useFree_faults (s : State) : (s.useFree).faults = s.faults := rfl
@[simp] theorem State.useFree_window (s : State) : (s.useFree).window = s.window := rfl
@[simp] theorem State.useFree_part (s : State) : (s.useFree).part = s.part := rfl
@[simp] theorem State.useFree_booted (s : State) : (s.useFree).booted = s.booted := rfl
@[simp] theorem State.useFree_recovery (s : State) : (s.useFree).recovery = s.recovery := rfl
@[simp] theorem State.useFree_measurement (s : State) : (s.useFree).measurement = s.measurement := rfl
@[simp] theorem State.useFree_version (s : State) : (s.useFree).version = s.version := rfl
@[simp] theorem State.useFree_pages (s : State) : (s.useFree).pages = s.pages := rfl
@[simp] theorem State.useFree_quotes (s : State) : (s.useFree).quotes = s.quotes := rfl
@[simp] theorem State.useFree_access (s : State) : (s.useFree).access = s.access := rfl
@[simp] theorem State.useFree_quotas (s : State) : (s.useFree).quotas = s.quotas := rfl
@[simp] theorem State.useFree_migr (s : State) : (s.useFree).migr = s.migr := rfl
@[simp] theorem State.useFree_resend (s : State) : (s.useFree).resend = s.resend := rfl

/-! `State.assertHalt`. -/

@[simp] theorem State.assertHalt_agenda (s : State) (f : FaultInfo) : (s.assertHalt f).agenda = s.agenda := rfl
@[simp] theorem State.assertHalt_clock (s : State) (f : FaultInfo) : (s.assertHalt f).clock = s.clock := rfl
@[simp] theorem State.assertHalt_asleep (s : State) (f : FaultInfo) : (s.assertHalt f).asleep = s.asleep := rfl
@[simp] theorem State.assertHalt_free (s : State) (f : FaultInfo) : (s.assertHalt f).free = s.free := rfl
@[simp] theorem State.assertHalt_choices (s : State) (f : FaultInfo) : (s.assertHalt f).choices = s.choices := rfl
@[simp] theorem State.assertHalt_cur (s : State) (f : FaultInfo) : (s.assertHalt f).cur = s.cur := rfl
@[simp] theorem State.assertHalt_ctx (s : State) (f : FaultInfo) : (s.assertHalt f).ctx = s.ctx := rfl
@[simp] theorem State.assertHalt_saved (s : State) (f : FaultInfo) : (s.assertHalt f).saved = s.saved := rfl
@[simp] theorem State.assertHalt_mem (s : State) (f : FaultInfo) : (s.assertHalt f).mem = s.mem := rfl
@[simp] theorem State.assertHalt_bad (s : State) (f : FaultInfo) : (s.assertHalt f).bad = s.bad := rfl
@[simp] theorem State.assertHalt_errorLog (s : State) (f : FaultInfo) : (s.assertHalt f).errorLog = s.errorLog := rfl
@[simp] theorem State.assertHalt_l1s (s : State) (f : FaultInfo) : (s.assertHalt f).l1s = s.l1s := rfl
@[simp] theorem State.assertHalt_l2s (s : State) (f : FaultInfo) : (s.assertHalt f).l2s = s.l2s := rfl
@[simp] theorem State.assertHalt_engTlbs (s : State) (f : FaultInfo) : (s.assertHalt f).engTlbs = s.engTlbs := rfl
@[simp] theorem State.assertHalt_fused (s : State) (f : FaultInfo) : (s.assertHalt f).fused = s.fused := rfl
@[simp] theorem State.assertHalt_gated (s : State) (f : FaultInfo) : (s.assertHalt f).gated = s.gated := rfl
@[simp] theorem State.assertHalt_halt (s : State) (f : FaultInfo) : (s.assertHalt f).halt = .asserted := rfl
@[simp] theorem State.assertHalt_faults (s : State) (f : FaultInfo) : (s.assertHalt f).faults = s.faults ++ [f] := rfl
@[simp] theorem State.assertHalt_window (s : State) (f : FaultInfo) : (s.assertHalt f).window = s.window := rfl
@[simp] theorem State.assertHalt_part (s : State) (f : FaultInfo) : (s.assertHalt f).part = s.part := rfl
@[simp] theorem State.assertHalt_booted (s : State) (f : FaultInfo) : (s.assertHalt f).booted = s.booted := rfl
@[simp] theorem State.assertHalt_recovery (s : State) (f : FaultInfo) : (s.assertHalt f).recovery = s.recovery := rfl
@[simp] theorem State.assertHalt_measurement (s : State) (f : FaultInfo) : (s.assertHalt f).measurement = s.measurement := rfl
@[simp] theorem State.assertHalt_version (s : State) (f : FaultInfo) : (s.assertHalt f).version = s.version := rfl
@[simp] theorem State.assertHalt_pages (s : State) (f : FaultInfo) : (s.assertHalt f).pages = s.pages := rfl
@[simp] theorem State.assertHalt_quotes (s : State) (f : FaultInfo) : (s.assertHalt f).quotes = s.quotes := rfl
@[simp] theorem State.assertHalt_access (s : State) (f : FaultInfo) : (s.assertHalt f).access = s.access := rfl
@[simp] theorem State.assertHalt_quotas (s : State) (f : FaultInfo) : (s.assertHalt f).quotas = s.quotas := rfl
@[simp] theorem State.assertHalt_migr (s : State) (f : FaultInfo) : (s.assertHalt f).migr = s.migr := rfl
@[simp] theorem State.assertHalt_resend (s : State) (f : FaultInfo) : (s.assertHalt f).resend = s.resend := rfl

/-! `State.logError`. -/

@[simp] theorem State.logError_agenda (s : State) (pa : Nat) : (s.logError pa).agenda = s.agenda := rfl
@[simp] theorem State.logError_clock (s : State) (pa : Nat) : (s.logError pa).clock = s.clock := rfl
@[simp] theorem State.logError_asleep (s : State) (pa : Nat) : (s.logError pa).asleep = s.asleep := rfl
@[simp] theorem State.logError_free (s : State) (pa : Nat) : (s.logError pa).free = s.free := rfl
@[simp] theorem State.logError_choices (s : State) (pa : Nat) : (s.logError pa).choices = s.choices := rfl
@[simp] theorem State.logError_cur (s : State) (pa : Nat) : (s.logError pa).cur = s.cur := rfl
@[simp] theorem State.logError_ctx (s : State) (pa : Nat) : (s.logError pa).ctx = s.ctx := rfl
@[simp] theorem State.logError_saved (s : State) (pa : Nat) : (s.logError pa).saved = s.saved := rfl
@[simp] theorem State.logError_mem (s : State) (pa : Nat) : (s.logError pa).mem = s.mem := rfl
@[simp] theorem State.logError_bad (s : State) (pa : Nat) : (s.logError pa).bad = s.bad := rfl
@[simp] theorem State.logError_errorLog (s : State) (pa : Nat) : (s.logError pa).errorLog = s.errorLog ++ [pa / 64 * 64] := rfl
@[simp] theorem State.logError_l1s (s : State) (pa : Nat) : (s.logError pa).l1s = s.l1s := rfl
@[simp] theorem State.logError_l2s (s : State) (pa : Nat) : (s.logError pa).l2s = s.l2s := rfl
@[simp] theorem State.logError_engTlbs (s : State) (pa : Nat) : (s.logError pa).engTlbs = s.engTlbs := rfl
@[simp] theorem State.logError_fused (s : State) (pa : Nat) : (s.logError pa).fused = s.fused := rfl
@[simp] theorem State.logError_gated (s : State) (pa : Nat) : (s.logError pa).gated = s.gated := rfl
@[simp] theorem State.logError_halt (s : State) (pa : Nat) : (s.logError pa).halt = s.halt := rfl
@[simp] theorem State.logError_faults (s : State) (pa : Nat) : (s.logError pa).faults = s.faults := rfl
@[simp] theorem State.logError_window (s : State) (pa : Nat) : (s.logError pa).window = s.window := rfl
@[simp] theorem State.logError_part (s : State) (pa : Nat) : (s.logError pa).part = s.part := rfl
@[simp] theorem State.logError_booted (s : State) (pa : Nat) : (s.logError pa).booted = s.booted := rfl
@[simp] theorem State.logError_recovery (s : State) (pa : Nat) : (s.logError pa).recovery = s.recovery := rfl
@[simp] theorem State.logError_measurement (s : State) (pa : Nat) : (s.logError pa).measurement = s.measurement := rfl
@[simp] theorem State.logError_version (s : State) (pa : Nat) : (s.logError pa).version = s.version := rfl
@[simp] theorem State.logError_pages (s : State) (pa : Nat) : (s.logError pa).pages = s.pages := rfl
@[simp] theorem State.logError_quotes (s : State) (pa : Nat) : (s.logError pa).quotes = s.quotes := rfl
@[simp] theorem State.logError_access (s : State) (pa : Nat) : (s.logError pa).access = s.access := rfl
@[simp] theorem State.logError_quotas (s : State) (pa : Nat) : (s.logError pa).quotas = s.quotas := rfl
@[simp] theorem State.logError_migr (s : State) (pa : Nat) : (s.logError pa).migr = s.migr := rfl
@[simp] theorem State.logError_resend (s : State) (pa : Nat) : (s.logError pa).resend = s.resend := rfl

/-! Updates through the current gang, or through an entry, are updates of that entry. -/

theorem State.setGang_eq (s : State) (g : Gang) : s.setGang g = s.setGangOf s.cur g := rfl
theorem State.modGang_eq (s : State) (f : Gang → Gang) : s.modGang f = s.setGangOf s.cur (f s.gang) := rfl
theorem State.modCarrelOf_eq (s : State) (n : Nat) (f : Carrel → Carrel) : s.modCarrelOf n f = s.setCarrelOf n (f (s.carrelOf n)) := rfl
theorem State.modFrameOf_eq (s : State) (n : Nat) (f : Frame → Frame) : s.modFrameOf n f = s.setFrameOf n (f (s.frameOf n)) := rfl
theorem State.modTraceOf_eq (s : State) (n : Nat) (f : Trace → Trace) : s.modTraceOf n f = s.setTraceOf n (f (s.traceOf n)) := rfl
theorem State.modSlotOf_eq (s : State) (n : Nat) (f : Slot → Slot) : s.modSlotOf n f = s.setSlotOf n (f (s.slotOf n)) := rfl
theorem State.modShelfOf_eq (s : State) (n : Nat) (f : Shelf → Shelf) : s.modShelfOf n f = s.setShelfOf n (f (s.shelfOf n)) := rfl
theorem State.modJobOf_eq (s : State) (n : Nat) (f : Job → Job) : s.modJobOf n f = s.setJobOf n (f (s.jobOf n)) := rfl
theorem State.setPath_eq (s : State) (p : Path) : s.setPath p = s.setGangOf s.cur (s.gang.setPath p) := rfl
theorem State.modPath_eq (s : State) (f : Path → Path) : s.modPath f = s.setGangOf s.cur (s.gang.modPath f) := rfl

/-! `Gang.setW`. -/

@[simp] theorem Gang.setW_resident (g : Gang) (i : BitVec 8) (v : Lanes) : (g.setW i v).resident = g.resident := rfl
@[simp] theorem Gang.setW_stopped (g : Gang) (i : BitVec 8) (v : Lanes) : (g.setW i v).stopped = g.stopped := rfl
@[simp] theorem Gang.setW_stepMode (g : Gang) (i : BitVec 8) (v : Lanes) : (g.setW i v).stepMode = g.stepMode := rfl
@[simp] theorem Gang.setW_saved (g : Gang) (i : BitVec 8) (v : Lanes) : (g.setW i v).saved = g.saved := rfl
@[simp] theorem Gang.setW_carrel (g : Gang) (i : BitVec 8) (v : Lanes) : (g.setW i v).carrel = g.carrel := rfl
@[simp] theorem Gang.setW_quarter (g : Gang) (i : BitVec 8) (v : Lanes) : (g.setW i v).quarter = g.quarter := rfl
@[simp] theorem Gang.setW_slot (g : Gang) (i : BitVec 8) (v : Lanes) : (g.setW i v).slot = g.slot := rfl
@[simp] theorem Gang.setW_since (g : Gang) (i : BitVec 8) (v : Lanes) : (g.setW i v).since = g.since := rfl
@[simp] theorem Gang.setW_issued (g : Gang) (i : BitVec 8) (v : Lanes) : (g.setW i v).issued = g.issued := rfl
@[simp] theorem Gang.setW_ceded (g : Gang) (i : BitVec 8) (v : Lanes) : (g.setW i v).ceded = g.ceded := rfl
@[simp] theorem Gang.setW_cededAt (g : Gang) (i : BitVec 8) (v : Lanes) : (g.setW i v).cededAt = g.cededAt := rfl
@[simp] theorem Gang.setW_run (g : Gang) (i : BitVec 8) (v : Lanes) : (g.setW i v).run = g.run := rfl
@[simp] theorem Gang.setW_width (g : Gang) (i : BitVec 8) (v : Lanes) : (g.setW i v).width = g.width := rfl
@[simp] theorem Gang.setW_packed (g : Gang) (i : BitVec 8) (v : Lanes) : (g.setW i v).packed = g.packed := rfl
@[simp] theorem Gang.setW_front (g : Gang) (i : BitVec 8) (v : Lanes) : (g.setW i v).front = g.front := rfl
@[simp] theorem Gang.setW_pack (g : Gang) (i : BitVec 8) (v : Lanes) : (g.setW i v).pack = g.pack := rfl
@[simp] theorem Gang.setW_regs (g : Gang) (i : BitVec 8) (v : Lanes) : (g.setW i v).regs = g.regs := rfl
@[simp] theorem Gang.setW_code (g : Gang) (i : BitVec 8) (v : Lanes) : (g.setW i v).code = g.code := rfl
@[simp] theorem Gang.setW_frame (g : Gang) (i : BitVec 8) (v : Lanes) : (g.setW i v).frame = g.frame := rfl
@[simp] theorem Gang.setW_isShadow (g : Gang) (i : BitVec 8) (v : Lanes) : (g.setW i v).isShadow = g.isShadow := rfl
@[simp] theorem Gang.setW_partner (g : Gang) (i : BitVec 8) (v : Lanes) : (g.setW i v).partner = g.partner := rfl
@[simp] theorem Gang.setW_w (g : Gang) (i : BitVec 8) (v : Lanes) : (g.setW i v).w = g.w.set i.toNat v := rfl
@[simp] theorem Gang.setW_we (g : Gang) (i : BitVec 8) (v : Lanes) : (g.setW i v).we = g.we := rfl
@[simp] theorem Gang.setW_wo (g : Gang) (i : BitVec 8) (v : Lanes) : (g.setW i v).wo = g.wo := rfl
@[simp] theorem Gang.setW_s (g : Gang) (i : BitVec 8) (v : Lanes) : (g.setW i v).s = g.s := rfl
@[simp] theorem Gang.setW_se (g : Gang) (i : BitVec 8) (v : Lanes) : (g.setW i v).se = g.se := rfl
@[simp] theorem Gang.setW_p (g : Gang) (i : BitVec 8) (v : Lanes) : (g.setW i v).p = g.p := rfl
@[simp] theorem Gang.setW_k (g : Gang) (i : BitVec 8) (v : Lanes) : (g.setW i v).k = g.k := rfl
@[simp] theorem Gang.setW_h (g : Gang) (i : BitVec 8) (v : Lanes) : (g.setW i v).h = g.h := rfl
@[simp] theorem Gang.setW_he (g : Gang) (i : BitVec 8) (v : Lanes) : (g.setW i v).he = g.he := rfl
@[simp] theorem Gang.setW_q (g : Gang) (i : BitVec 8) (v : Lanes) : (g.setW i v).q = g.q := rfl
@[simp] theorem Gang.setW_p0 (g : Gang) (i : BitVec 8) (v : Lanes) : (g.setW i v).p0 = g.p0 := rfl
@[simp] theorem Gang.setW_p1 (g : Gang) (i : BitVec 8) (v : Lanes) : (g.setW i v).p1 = g.p1 := rfl
@[simp] theorem Gang.setW_younger (g : Gang) (i : BitVec 8) (v : Lanes) : (g.setW i v).younger = g.younger := rfl
@[simp] theorem Gang.setW_split (g : Gang) (i : BitVec 8) (v : Lanes) : (g.setW i v).split = g.split := rfl
@[simp] theorem Gang.setW_trapv (g : Gang) (i : BitVec 8) (v : Lanes) : (g.setW i v).trapv = g.trapv := rfl
@[simp] theorem Gang.setW_trapc (g : Gang) (i : BitVec 8) (v : Lanes) : (g.setW i v).trapc = g.trapc := rfl
@[simp] theorem Gang.setW_trappc (g : Gang) (i : BitVec 8) (v : Lanes) : (g.setW i v).trappc = g.trappc := rfl
@[simp] theorem Gang.setW_trapSplit (g : Gang) (i : BitVec 8) (v : Lanes) : (g.setW i v).trapSplit = g.trapSplit := rfl
@[simp] theorem Gang.setW_lrand (g : Gang) (i : BitVec 8) (v : Lanes) : (g.setW i v).lrand = g.lrand := rfl
@[simp] theorem Gang.setW_obsdef (g : Gang) (i : BitVec 8) (v : Lanes) : (g.setW i v).obsdef = g.obsdef := rfl
@[simp] theorem Gang.setW_replaym (g : Gang) (i : BitVec 8) (v : Lanes) : (g.setW i v).replaym = g.replaym := rfl
@[simp] theorem Gang.setW_tcfg (g : Gang) (i : BitVec 8) (v : Lanes) : (g.setW i v).tcfg = g.tcfg := rfl
@[simp] theorem Gang.setW_shape (g : Gang) (i : BitVec 8) (v : Lanes) : (g.setW i v).shape = g.shape := rfl
@[simp] theorem Gang.setW_maskm (g : Gang) (i : BitVec 8) (v : Lanes) : (g.setW i v).maskm = g.maskm := rfl
@[simp] theorem Gang.setW_maskn (g : Gang) (i : BitVec 8) (v : Lanes) : (g.setW i v).maskn = g.maskn := rfl
@[simp] theorem Gang.setW_focus (g : Gang) (i : BitVec 8) (v : Lanes) : (g.setW i v).focus = g.focus := rfl
@[simp] theorem Gang.setW_cbase (g : Gang) (i : BitVec 8) (v : Lanes) : (g.setW i v).cbase = g.cbase := rfl
@[simp] theorem Gang.setW_clim (g : Gang) (i : BitVec 8) (v : Lanes) : (g.setW i v).clim = g.clim := rfl
@[simp] theorem Gang.setW_hash (g : Gang) (i : BitVec 8) (v : Lanes) : (g.setW i v).hash = g.hash := rfl
@[simp] theorem Gang.setW_tkey (g : Gang) (i : BitVec 8) (v : Lanes) : (g.setW i v).tkey = g.tkey := rfl
@[simp] theorem Gang.setW_sites (g : Gang) (i : BitVec 8) (v : Lanes) : (g.setW i v).sites = g.sites := rfl
@[simp] theorem Gang.setW_kids (g : Gang) (i : BitVec 8) (v : Lanes) : (g.setW i v).kids = g.kids := rfl
@[simp] theorem Gang.setW_puts (g : Gang) (i : BitVec 8) (v : Lanes) : (g.setW i v).puts = g.puts := rfl
@[simp] theorem Gang.setW_strong (g : Gang) (i : BitVec 8) (v : Lanes) : (g.setW i v).strong = g.strong := rfl
@[simp] theorem Gang.setW_rfolio (g : Gang) (i : BitVec 8) (v : Lanes) : (g.setW i v).rfolio = g.rfolio := rfl
@[simp] theorem Gang.setW_sroot (g : Gang) (i : BitVec 8) (v : Lanes) : (g.setW i v).sroot = g.sroot := rfl
@[simp] theorem Gang.setW_mode (g : Gang) (i : BitVec 8) (v : Lanes) : (g.setW i v).mode = g.mode := rfl
@[simp] theorem Gang.setW_trace (g : Gang) (i : BitVec 8) (v : Lanes) : (g.setW i v).trace = g.trace := rfl
@[simp] theorem Gang.setW_folio (g : Gang) (i : BitVec 8) (v : Lanes) : (g.setW i v).folio = g.folio := rfl
@[simp] theorem Gang.setW_modnews (g : Gang) (i : BitVec 8) (v : Lanes) : (g.setW i v).modnews = g.modnews := rfl
@[simp] theorem Gang.setW_atoms (g : Gang) (i : BitVec 8) (v : Lanes) : (g.setW i v).atoms = g.atoms := rfl
@[simp] theorem Gang.setW_flights (g : Gang) (i : BitVec 8) (v : Lanes) : (g.setW i v).flights = g.flights := rfl
@[simp] theorem Gang.setW_traps (g : Gang) (i : BitVec 8) (v : Lanes) : (g.setW i v).traps = g.traps := rfl
@[simp] theorem Gang.setW_pend (g : Gang) (i : BitVec 8) (v : Lanes) : (g.setW i v).pend = g.pend := rfl
@[simp] theorem Gang.setW_awaitAt (g : Gang) (i : BitVec 8) (v : Lanes) : (g.setW i v).awaitAt = g.awaitAt := rfl
@[simp] theorem Gang.setW_heard (g : Gang) (i : BitVec 8) (v : Lanes) : (g.setW i v).heard = g.heard := rfl
@[simp] theorem Gang.setW_member (g : Gang) (i : BitVec 8) (v : Lanes) : (g.setW i v).member = g.member := rfl
@[simp] theorem Gang.setW_ret (g : Gang) (i : BitVec 8) (v : Lanes) : (g.setW i v).ret = g.ret := rfl
@[simp] theorem Gang.setW_report (g : Gang) (i : BitVec 8) (v : Lanes) : (g.setW i v).report = g.report := rfl

/-! `Gang.setS`. -/

@[simp] theorem Gang.setS_resident (g : Gang) (i : BitVec 6) (v : DWord) : (g.setS i v).resident = g.resident := rfl
@[simp] theorem Gang.setS_stopped (g : Gang) (i : BitVec 6) (v : DWord) : (g.setS i v).stopped = g.stopped := rfl
@[simp] theorem Gang.setS_stepMode (g : Gang) (i : BitVec 6) (v : DWord) : (g.setS i v).stepMode = g.stepMode := rfl
@[simp] theorem Gang.setS_saved (g : Gang) (i : BitVec 6) (v : DWord) : (g.setS i v).saved = g.saved := rfl
@[simp] theorem Gang.setS_carrel (g : Gang) (i : BitVec 6) (v : DWord) : (g.setS i v).carrel = g.carrel := rfl
@[simp] theorem Gang.setS_quarter (g : Gang) (i : BitVec 6) (v : DWord) : (g.setS i v).quarter = g.quarter := rfl
@[simp] theorem Gang.setS_slot (g : Gang) (i : BitVec 6) (v : DWord) : (g.setS i v).slot = g.slot := rfl
@[simp] theorem Gang.setS_since (g : Gang) (i : BitVec 6) (v : DWord) : (g.setS i v).since = g.since := rfl
@[simp] theorem Gang.setS_issued (g : Gang) (i : BitVec 6) (v : DWord) : (g.setS i v).issued = g.issued := rfl
@[simp] theorem Gang.setS_ceded (g : Gang) (i : BitVec 6) (v : DWord) : (g.setS i v).ceded = g.ceded := rfl
@[simp] theorem Gang.setS_cededAt (g : Gang) (i : BitVec 6) (v : DWord) : (g.setS i v).cededAt = g.cededAt := rfl
@[simp] theorem Gang.setS_run (g : Gang) (i : BitVec 6) (v : DWord) : (g.setS i v).run = g.run := rfl
@[simp] theorem Gang.setS_width (g : Gang) (i : BitVec 6) (v : DWord) : (g.setS i v).width = g.width := rfl
@[simp] theorem Gang.setS_packed (g : Gang) (i : BitVec 6) (v : DWord) : (g.setS i v).packed = g.packed := rfl
@[simp] theorem Gang.setS_front (g : Gang) (i : BitVec 6) (v : DWord) : (g.setS i v).front = g.front := rfl
@[simp] theorem Gang.setS_pack (g : Gang) (i : BitVec 6) (v : DWord) : (g.setS i v).pack = g.pack := rfl
@[simp] theorem Gang.setS_regs (g : Gang) (i : BitVec 6) (v : DWord) : (g.setS i v).regs = g.regs := rfl
@[simp] theorem Gang.setS_code (g : Gang) (i : BitVec 6) (v : DWord) : (g.setS i v).code = g.code := rfl
@[simp] theorem Gang.setS_frame (g : Gang) (i : BitVec 6) (v : DWord) : (g.setS i v).frame = g.frame := rfl
@[simp] theorem Gang.setS_isShadow (g : Gang) (i : BitVec 6) (v : DWord) : (g.setS i v).isShadow = g.isShadow := rfl
@[simp] theorem Gang.setS_partner (g : Gang) (i : BitVec 6) (v : DWord) : (g.setS i v).partner = g.partner := rfl
@[simp] theorem Gang.setS_w (g : Gang) (i : BitVec 6) (v : DWord) : (g.setS i v).w = g.w := rfl
@[simp] theorem Gang.setS_we (g : Gang) (i : BitVec 6) (v : DWord) : (g.setS i v).we = g.we := rfl
@[simp] theorem Gang.setS_wo (g : Gang) (i : BitVec 6) (v : DWord) : (g.setS i v).wo = g.wo := rfl
@[simp] theorem Gang.setS_s (g : Gang) (i : BitVec 6) (v : DWord) : (g.setS i v).s = g.s.set i.toNat v := rfl
@[simp] theorem Gang.setS_se (g : Gang) (i : BitVec 6) (v : DWord) : (g.setS i v).se = g.se := rfl
@[simp] theorem Gang.setS_p (g : Gang) (i : BitVec 6) (v : DWord) : (g.setS i v).p = g.p := rfl
@[simp] theorem Gang.setS_k (g : Gang) (i : BitVec 6) (v : DWord) : (g.setS i v).k = g.k := rfl
@[simp] theorem Gang.setS_h (g : Gang) (i : BitVec 6) (v : DWord) : (g.setS i v).h = g.h := rfl
@[simp] theorem Gang.setS_he (g : Gang) (i : BitVec 6) (v : DWord) : (g.setS i v).he = g.he := rfl
@[simp] theorem Gang.setS_q (g : Gang) (i : BitVec 6) (v : DWord) : (g.setS i v).q = g.q := rfl
@[simp] theorem Gang.setS_p0 (g : Gang) (i : BitVec 6) (v : DWord) : (g.setS i v).p0 = g.p0 := rfl
@[simp] theorem Gang.setS_p1 (g : Gang) (i : BitVec 6) (v : DWord) : (g.setS i v).p1 = g.p1 := rfl
@[simp] theorem Gang.setS_younger (g : Gang) (i : BitVec 6) (v : DWord) : (g.setS i v).younger = g.younger := rfl
@[simp] theorem Gang.setS_split (g : Gang) (i : BitVec 6) (v : DWord) : (g.setS i v).split = g.split := rfl
@[simp] theorem Gang.setS_trapv (g : Gang) (i : BitVec 6) (v : DWord) : (g.setS i v).trapv = g.trapv := rfl
@[simp] theorem Gang.setS_trapc (g : Gang) (i : BitVec 6) (v : DWord) : (g.setS i v).trapc = g.trapc := rfl
@[simp] theorem Gang.setS_trappc (g : Gang) (i : BitVec 6) (v : DWord) : (g.setS i v).trappc = g.trappc := rfl
@[simp] theorem Gang.setS_trapSplit (g : Gang) (i : BitVec 6) (v : DWord) : (g.setS i v).trapSplit = g.trapSplit := rfl
@[simp] theorem Gang.setS_lrand (g : Gang) (i : BitVec 6) (v : DWord) : (g.setS i v).lrand = g.lrand := rfl
@[simp] theorem Gang.setS_obsdef (g : Gang) (i : BitVec 6) (v : DWord) : (g.setS i v).obsdef = g.obsdef := rfl
@[simp] theorem Gang.setS_replaym (g : Gang) (i : BitVec 6) (v : DWord) : (g.setS i v).replaym = g.replaym := rfl
@[simp] theorem Gang.setS_tcfg (g : Gang) (i : BitVec 6) (v : DWord) : (g.setS i v).tcfg = g.tcfg := rfl
@[simp] theorem Gang.setS_shape (g : Gang) (i : BitVec 6) (v : DWord) : (g.setS i v).shape = g.shape := rfl
@[simp] theorem Gang.setS_maskm (g : Gang) (i : BitVec 6) (v : DWord) : (g.setS i v).maskm = g.maskm := rfl
@[simp] theorem Gang.setS_maskn (g : Gang) (i : BitVec 6) (v : DWord) : (g.setS i v).maskn = g.maskn := rfl
@[simp] theorem Gang.setS_focus (g : Gang) (i : BitVec 6) (v : DWord) : (g.setS i v).focus = g.focus := rfl
@[simp] theorem Gang.setS_cbase (g : Gang) (i : BitVec 6) (v : DWord) : (g.setS i v).cbase = g.cbase := rfl
@[simp] theorem Gang.setS_clim (g : Gang) (i : BitVec 6) (v : DWord) : (g.setS i v).clim = g.clim := rfl
@[simp] theorem Gang.setS_hash (g : Gang) (i : BitVec 6) (v : DWord) : (g.setS i v).hash = g.hash := rfl
@[simp] theorem Gang.setS_tkey (g : Gang) (i : BitVec 6) (v : DWord) : (g.setS i v).tkey = g.tkey := rfl
@[simp] theorem Gang.setS_sites (g : Gang) (i : BitVec 6) (v : DWord) : (g.setS i v).sites = g.sites := rfl
@[simp] theorem Gang.setS_kids (g : Gang) (i : BitVec 6) (v : DWord) : (g.setS i v).kids = g.kids := rfl
@[simp] theorem Gang.setS_puts (g : Gang) (i : BitVec 6) (v : DWord) : (g.setS i v).puts = g.puts := rfl
@[simp] theorem Gang.setS_strong (g : Gang) (i : BitVec 6) (v : DWord) : (g.setS i v).strong = g.strong := rfl
@[simp] theorem Gang.setS_rfolio (g : Gang) (i : BitVec 6) (v : DWord) : (g.setS i v).rfolio = g.rfolio := rfl
@[simp] theorem Gang.setS_sroot (g : Gang) (i : BitVec 6) (v : DWord) : (g.setS i v).sroot = g.sroot := rfl
@[simp] theorem Gang.setS_mode (g : Gang) (i : BitVec 6) (v : DWord) : (g.setS i v).mode = g.mode := rfl
@[simp] theorem Gang.setS_trace (g : Gang) (i : BitVec 6) (v : DWord) : (g.setS i v).trace = g.trace := rfl
@[simp] theorem Gang.setS_folio (g : Gang) (i : BitVec 6) (v : DWord) : (g.setS i v).folio = g.folio := rfl
@[simp] theorem Gang.setS_modnews (g : Gang) (i : BitVec 6) (v : DWord) : (g.setS i v).modnews = g.modnews := rfl
@[simp] theorem Gang.setS_atoms (g : Gang) (i : BitVec 6) (v : DWord) : (g.setS i v).atoms = g.atoms := rfl
@[simp] theorem Gang.setS_flights (g : Gang) (i : BitVec 6) (v : DWord) : (g.setS i v).flights = g.flights := rfl
@[simp] theorem Gang.setS_traps (g : Gang) (i : BitVec 6) (v : DWord) : (g.setS i v).traps = g.traps := rfl
@[simp] theorem Gang.setS_pend (g : Gang) (i : BitVec 6) (v : DWord) : (g.setS i v).pend = g.pend := rfl
@[simp] theorem Gang.setS_awaitAt (g : Gang) (i : BitVec 6) (v : DWord) : (g.setS i v).awaitAt = g.awaitAt := rfl
@[simp] theorem Gang.setS_heard (g : Gang) (i : BitVec 6) (v : DWord) : (g.setS i v).heard = g.heard := rfl
@[simp] theorem Gang.setS_member (g : Gang) (i : BitVec 6) (v : DWord) : (g.setS i v).member = g.member := rfl
@[simp] theorem Gang.setS_ret (g : Gang) (i : BitVec 6) (v : DWord) : (g.setS i v).ret = g.ret := rfl
@[simp] theorem Gang.setS_report (g : Gang) (i : BitVec 6) (v : DWord) : (g.setS i v).report = g.report := rfl

/-! `Gang.setH`. -/

@[simp] theorem Gang.setH_resident (g : Gang) (i : BitVec 4) (v : DWord) : (g.setH i v).resident = g.resident := rfl
@[simp] theorem Gang.setH_stopped (g : Gang) (i : BitVec 4) (v : DWord) : (g.setH i v).stopped = g.stopped := rfl
@[simp] theorem Gang.setH_stepMode (g : Gang) (i : BitVec 4) (v : DWord) : (g.setH i v).stepMode = g.stepMode := rfl
@[simp] theorem Gang.setH_saved (g : Gang) (i : BitVec 4) (v : DWord) : (g.setH i v).saved = g.saved := rfl
@[simp] theorem Gang.setH_carrel (g : Gang) (i : BitVec 4) (v : DWord) : (g.setH i v).carrel = g.carrel := rfl
@[simp] theorem Gang.setH_quarter (g : Gang) (i : BitVec 4) (v : DWord) : (g.setH i v).quarter = g.quarter := rfl
@[simp] theorem Gang.setH_slot (g : Gang) (i : BitVec 4) (v : DWord) : (g.setH i v).slot = g.slot := rfl
@[simp] theorem Gang.setH_since (g : Gang) (i : BitVec 4) (v : DWord) : (g.setH i v).since = g.since := rfl
@[simp] theorem Gang.setH_issued (g : Gang) (i : BitVec 4) (v : DWord) : (g.setH i v).issued = g.issued := rfl
@[simp] theorem Gang.setH_ceded (g : Gang) (i : BitVec 4) (v : DWord) : (g.setH i v).ceded = g.ceded := rfl
@[simp] theorem Gang.setH_cededAt (g : Gang) (i : BitVec 4) (v : DWord) : (g.setH i v).cededAt = g.cededAt := rfl
@[simp] theorem Gang.setH_run (g : Gang) (i : BitVec 4) (v : DWord) : (g.setH i v).run = g.run := rfl
@[simp] theorem Gang.setH_width (g : Gang) (i : BitVec 4) (v : DWord) : (g.setH i v).width = g.width := rfl
@[simp] theorem Gang.setH_packed (g : Gang) (i : BitVec 4) (v : DWord) : (g.setH i v).packed = g.packed := rfl
@[simp] theorem Gang.setH_front (g : Gang) (i : BitVec 4) (v : DWord) : (g.setH i v).front = g.front := rfl
@[simp] theorem Gang.setH_pack (g : Gang) (i : BitVec 4) (v : DWord) : (g.setH i v).pack = g.pack := rfl
@[simp] theorem Gang.setH_regs (g : Gang) (i : BitVec 4) (v : DWord) : (g.setH i v).regs = g.regs := rfl
@[simp] theorem Gang.setH_code (g : Gang) (i : BitVec 4) (v : DWord) : (g.setH i v).code = g.code := rfl
@[simp] theorem Gang.setH_frame (g : Gang) (i : BitVec 4) (v : DWord) : (g.setH i v).frame = g.frame := rfl
@[simp] theorem Gang.setH_isShadow (g : Gang) (i : BitVec 4) (v : DWord) : (g.setH i v).isShadow = g.isShadow := rfl
@[simp] theorem Gang.setH_partner (g : Gang) (i : BitVec 4) (v : DWord) : (g.setH i v).partner = g.partner := rfl
@[simp] theorem Gang.setH_w (g : Gang) (i : BitVec 4) (v : DWord) : (g.setH i v).w = g.w := rfl
@[simp] theorem Gang.setH_we (g : Gang) (i : BitVec 4) (v : DWord) : (g.setH i v).we = g.we := rfl
@[simp] theorem Gang.setH_wo (g : Gang) (i : BitVec 4) (v : DWord) : (g.setH i v).wo = g.wo := rfl
@[simp] theorem Gang.setH_s (g : Gang) (i : BitVec 4) (v : DWord) : (g.setH i v).s = g.s := rfl
@[simp] theorem Gang.setH_se (g : Gang) (i : BitVec 4) (v : DWord) : (g.setH i v).se = g.se := rfl
@[simp] theorem Gang.setH_p (g : Gang) (i : BitVec 4) (v : DWord) : (g.setH i v).p = g.p := rfl
@[simp] theorem Gang.setH_k (g : Gang) (i : BitVec 4) (v : DWord) : (g.setH i v).k = g.k := rfl
@[simp] theorem Gang.setH_h (g : Gang) (i : BitVec 4) (v : DWord) : (g.setH i v).h = g.h.set i.toNat v := rfl
@[simp] theorem Gang.setH_he (g : Gang) (i : BitVec 4) (v : DWord) : (g.setH i v).he = g.he := rfl
@[simp] theorem Gang.setH_q (g : Gang) (i : BitVec 4) (v : DWord) : (g.setH i v).q = g.q := rfl
@[simp] theorem Gang.setH_p0 (g : Gang) (i : BitVec 4) (v : DWord) : (g.setH i v).p0 = g.p0 := rfl
@[simp] theorem Gang.setH_p1 (g : Gang) (i : BitVec 4) (v : DWord) : (g.setH i v).p1 = g.p1 := rfl
@[simp] theorem Gang.setH_younger (g : Gang) (i : BitVec 4) (v : DWord) : (g.setH i v).younger = g.younger := rfl
@[simp] theorem Gang.setH_split (g : Gang) (i : BitVec 4) (v : DWord) : (g.setH i v).split = g.split := rfl
@[simp] theorem Gang.setH_trapv (g : Gang) (i : BitVec 4) (v : DWord) : (g.setH i v).trapv = g.trapv := rfl
@[simp] theorem Gang.setH_trapc (g : Gang) (i : BitVec 4) (v : DWord) : (g.setH i v).trapc = g.trapc := rfl
@[simp] theorem Gang.setH_trappc (g : Gang) (i : BitVec 4) (v : DWord) : (g.setH i v).trappc = g.trappc := rfl
@[simp] theorem Gang.setH_trapSplit (g : Gang) (i : BitVec 4) (v : DWord) : (g.setH i v).trapSplit = g.trapSplit := rfl
@[simp] theorem Gang.setH_lrand (g : Gang) (i : BitVec 4) (v : DWord) : (g.setH i v).lrand = g.lrand := rfl
@[simp] theorem Gang.setH_obsdef (g : Gang) (i : BitVec 4) (v : DWord) : (g.setH i v).obsdef = g.obsdef := rfl
@[simp] theorem Gang.setH_replaym (g : Gang) (i : BitVec 4) (v : DWord) : (g.setH i v).replaym = g.replaym := rfl
@[simp] theorem Gang.setH_tcfg (g : Gang) (i : BitVec 4) (v : DWord) : (g.setH i v).tcfg = g.tcfg := rfl
@[simp] theorem Gang.setH_shape (g : Gang) (i : BitVec 4) (v : DWord) : (g.setH i v).shape = g.shape := rfl
@[simp] theorem Gang.setH_maskm (g : Gang) (i : BitVec 4) (v : DWord) : (g.setH i v).maskm = g.maskm := rfl
@[simp] theorem Gang.setH_maskn (g : Gang) (i : BitVec 4) (v : DWord) : (g.setH i v).maskn = g.maskn := rfl
@[simp] theorem Gang.setH_focus (g : Gang) (i : BitVec 4) (v : DWord) : (g.setH i v).focus = g.focus := rfl
@[simp] theorem Gang.setH_cbase (g : Gang) (i : BitVec 4) (v : DWord) : (g.setH i v).cbase = g.cbase := rfl
@[simp] theorem Gang.setH_clim (g : Gang) (i : BitVec 4) (v : DWord) : (g.setH i v).clim = g.clim := rfl
@[simp] theorem Gang.setH_hash (g : Gang) (i : BitVec 4) (v : DWord) : (g.setH i v).hash = g.hash := rfl
@[simp] theorem Gang.setH_tkey (g : Gang) (i : BitVec 4) (v : DWord) : (g.setH i v).tkey = g.tkey := rfl
@[simp] theorem Gang.setH_sites (g : Gang) (i : BitVec 4) (v : DWord) : (g.setH i v).sites = g.sites := rfl
@[simp] theorem Gang.setH_kids (g : Gang) (i : BitVec 4) (v : DWord) : (g.setH i v).kids = g.kids := rfl
@[simp] theorem Gang.setH_puts (g : Gang) (i : BitVec 4) (v : DWord) : (g.setH i v).puts = g.puts := rfl
@[simp] theorem Gang.setH_strong (g : Gang) (i : BitVec 4) (v : DWord) : (g.setH i v).strong = g.strong := rfl
@[simp] theorem Gang.setH_rfolio (g : Gang) (i : BitVec 4) (v : DWord) : (g.setH i v).rfolio = g.rfolio := rfl
@[simp] theorem Gang.setH_sroot (g : Gang) (i : BitVec 4) (v : DWord) : (g.setH i v).sroot = g.sroot := rfl
@[simp] theorem Gang.setH_mode (g : Gang) (i : BitVec 4) (v : DWord) : (g.setH i v).mode = g.mode := rfl
@[simp] theorem Gang.setH_trace (g : Gang) (i : BitVec 4) (v : DWord) : (g.setH i v).trace = g.trace := rfl
@[simp] theorem Gang.setH_folio (g : Gang) (i : BitVec 4) (v : DWord) : (g.setH i v).folio = g.folio := rfl
@[simp] theorem Gang.setH_modnews (g : Gang) (i : BitVec 4) (v : DWord) : (g.setH i v).modnews = g.modnews := rfl
@[simp] theorem Gang.setH_atoms (g : Gang) (i : BitVec 4) (v : DWord) : (g.setH i v).atoms = g.atoms := rfl
@[simp] theorem Gang.setH_flights (g : Gang) (i : BitVec 4) (v : DWord) : (g.setH i v).flights = g.flights := rfl
@[simp] theorem Gang.setH_traps (g : Gang) (i : BitVec 4) (v : DWord) : (g.setH i v).traps = g.traps := rfl
@[simp] theorem Gang.setH_pend (g : Gang) (i : BitVec 4) (v : DWord) : (g.setH i v).pend = g.pend := rfl
@[simp] theorem Gang.setH_awaitAt (g : Gang) (i : BitVec 4) (v : DWord) : (g.setH i v).awaitAt = g.awaitAt := rfl
@[simp] theorem Gang.setH_heard (g : Gang) (i : BitVec 4) (v : DWord) : (g.setH i v).heard = g.heard := rfl
@[simp] theorem Gang.setH_member (g : Gang) (i : BitVec 4) (v : DWord) : (g.setH i v).member = g.member := rfl
@[simp] theorem Gang.setH_ret (g : Gang) (i : BitVec 4) (v : DWord) : (g.setH i v).ret = g.ret := rfl
@[simp] theorem Gang.setH_report (g : Gang) (i : BitVec 4) (v : DWord) : (g.setH i v).report = g.report := rfl

/-! `Gang.setWEmpty`. -/

@[simp] theorem Gang.setWEmpty_resident (g : Gang) (i : BitVec 8) (m : Mask) : (g.setWEmpty i m).resident = g.resident := rfl
@[simp] theorem Gang.setWEmpty_stopped (g : Gang) (i : BitVec 8) (m : Mask) : (g.setWEmpty i m).stopped = g.stopped := rfl
@[simp] theorem Gang.setWEmpty_stepMode (g : Gang) (i : BitVec 8) (m : Mask) : (g.setWEmpty i m).stepMode = g.stepMode := rfl
@[simp] theorem Gang.setWEmpty_saved (g : Gang) (i : BitVec 8) (m : Mask) : (g.setWEmpty i m).saved = g.saved := rfl
@[simp] theorem Gang.setWEmpty_carrel (g : Gang) (i : BitVec 8) (m : Mask) : (g.setWEmpty i m).carrel = g.carrel := rfl
@[simp] theorem Gang.setWEmpty_quarter (g : Gang) (i : BitVec 8) (m : Mask) : (g.setWEmpty i m).quarter = g.quarter := rfl
@[simp] theorem Gang.setWEmpty_slot (g : Gang) (i : BitVec 8) (m : Mask) : (g.setWEmpty i m).slot = g.slot := rfl
@[simp] theorem Gang.setWEmpty_since (g : Gang) (i : BitVec 8) (m : Mask) : (g.setWEmpty i m).since = g.since := rfl
@[simp] theorem Gang.setWEmpty_issued (g : Gang) (i : BitVec 8) (m : Mask) : (g.setWEmpty i m).issued = g.issued := rfl
@[simp] theorem Gang.setWEmpty_ceded (g : Gang) (i : BitVec 8) (m : Mask) : (g.setWEmpty i m).ceded = g.ceded := rfl
@[simp] theorem Gang.setWEmpty_cededAt (g : Gang) (i : BitVec 8) (m : Mask) : (g.setWEmpty i m).cededAt = g.cededAt := rfl
@[simp] theorem Gang.setWEmpty_run (g : Gang) (i : BitVec 8) (m : Mask) : (g.setWEmpty i m).run = g.run := rfl
@[simp] theorem Gang.setWEmpty_width (g : Gang) (i : BitVec 8) (m : Mask) : (g.setWEmpty i m).width = g.width := rfl
@[simp] theorem Gang.setWEmpty_packed (g : Gang) (i : BitVec 8) (m : Mask) : (g.setWEmpty i m).packed = g.packed := rfl
@[simp] theorem Gang.setWEmpty_front (g : Gang) (i : BitVec 8) (m : Mask) : (g.setWEmpty i m).front = g.front := rfl
@[simp] theorem Gang.setWEmpty_pack (g : Gang) (i : BitVec 8) (m : Mask) : (g.setWEmpty i m).pack = g.pack := rfl
@[simp] theorem Gang.setWEmpty_regs (g : Gang) (i : BitVec 8) (m : Mask) : (g.setWEmpty i m).regs = g.regs := rfl
@[simp] theorem Gang.setWEmpty_code (g : Gang) (i : BitVec 8) (m : Mask) : (g.setWEmpty i m).code = g.code := rfl
@[simp] theorem Gang.setWEmpty_frame (g : Gang) (i : BitVec 8) (m : Mask) : (g.setWEmpty i m).frame = g.frame := rfl
@[simp] theorem Gang.setWEmpty_isShadow (g : Gang) (i : BitVec 8) (m : Mask) : (g.setWEmpty i m).isShadow = g.isShadow := rfl
@[simp] theorem Gang.setWEmpty_partner (g : Gang) (i : BitVec 8) (m : Mask) : (g.setWEmpty i m).partner = g.partner := rfl
@[simp] theorem Gang.setWEmpty_w (g : Gang) (i : BitVec 8) (m : Mask) : (g.setWEmpty i m).w = g.w := rfl
@[simp] theorem Gang.setWEmpty_we (g : Gang) (i : BitVec 8) (m : Mask) : (g.setWEmpty i m).we = g.we.set i.toNat m := rfl
@[simp] theorem Gang.setWEmpty_wo (g : Gang) (i : BitVec 8) (m : Mask) : (g.setWEmpty i m).wo = g.wo := rfl
@[simp] theorem Gang.setWEmpty_s (g : Gang) (i : BitVec 8) (m : Mask) : (g.setWEmpty i m).s = g.s := rfl
@[simp] theorem Gang.setWEmpty_se (g : Gang) (i : BitVec 8) (m : Mask) : (g.setWEmpty i m).se = g.se := rfl
@[simp] theorem Gang.setWEmpty_p (g : Gang) (i : BitVec 8) (m : Mask) : (g.setWEmpty i m).p = g.p := rfl
@[simp] theorem Gang.setWEmpty_k (g : Gang) (i : BitVec 8) (m : Mask) : (g.setWEmpty i m).k = g.k := rfl
@[simp] theorem Gang.setWEmpty_h (g : Gang) (i : BitVec 8) (m : Mask) : (g.setWEmpty i m).h = g.h := rfl
@[simp] theorem Gang.setWEmpty_he (g : Gang) (i : BitVec 8) (m : Mask) : (g.setWEmpty i m).he = g.he := rfl
@[simp] theorem Gang.setWEmpty_q (g : Gang) (i : BitVec 8) (m : Mask) : (g.setWEmpty i m).q = g.q := rfl
@[simp] theorem Gang.setWEmpty_p0 (g : Gang) (i : BitVec 8) (m : Mask) : (g.setWEmpty i m).p0 = g.p0 := rfl
@[simp] theorem Gang.setWEmpty_p1 (g : Gang) (i : BitVec 8) (m : Mask) : (g.setWEmpty i m).p1 = g.p1 := rfl
@[simp] theorem Gang.setWEmpty_younger (g : Gang) (i : BitVec 8) (m : Mask) : (g.setWEmpty i m).younger = g.younger := rfl
@[simp] theorem Gang.setWEmpty_split (g : Gang) (i : BitVec 8) (m : Mask) : (g.setWEmpty i m).split = g.split := rfl
@[simp] theorem Gang.setWEmpty_trapv (g : Gang) (i : BitVec 8) (m : Mask) : (g.setWEmpty i m).trapv = g.trapv := rfl
@[simp] theorem Gang.setWEmpty_trapc (g : Gang) (i : BitVec 8) (m : Mask) : (g.setWEmpty i m).trapc = g.trapc := rfl
@[simp] theorem Gang.setWEmpty_trappc (g : Gang) (i : BitVec 8) (m : Mask) : (g.setWEmpty i m).trappc = g.trappc := rfl
@[simp] theorem Gang.setWEmpty_trapSplit (g : Gang) (i : BitVec 8) (m : Mask) : (g.setWEmpty i m).trapSplit = g.trapSplit := rfl
@[simp] theorem Gang.setWEmpty_lrand (g : Gang) (i : BitVec 8) (m : Mask) : (g.setWEmpty i m).lrand = g.lrand := rfl
@[simp] theorem Gang.setWEmpty_obsdef (g : Gang) (i : BitVec 8) (m : Mask) : (g.setWEmpty i m).obsdef = g.obsdef := rfl
@[simp] theorem Gang.setWEmpty_replaym (g : Gang) (i : BitVec 8) (m : Mask) : (g.setWEmpty i m).replaym = g.replaym := rfl
@[simp] theorem Gang.setWEmpty_tcfg (g : Gang) (i : BitVec 8) (m : Mask) : (g.setWEmpty i m).tcfg = g.tcfg := rfl
@[simp] theorem Gang.setWEmpty_shape (g : Gang) (i : BitVec 8) (m : Mask) : (g.setWEmpty i m).shape = g.shape := rfl
@[simp] theorem Gang.setWEmpty_maskm (g : Gang) (i : BitVec 8) (m : Mask) : (g.setWEmpty i m).maskm = g.maskm := rfl
@[simp] theorem Gang.setWEmpty_maskn (g : Gang) (i : BitVec 8) (m : Mask) : (g.setWEmpty i m).maskn = g.maskn := rfl
@[simp] theorem Gang.setWEmpty_focus (g : Gang) (i : BitVec 8) (m : Mask) : (g.setWEmpty i m).focus = g.focus := rfl
@[simp] theorem Gang.setWEmpty_cbase (g : Gang) (i : BitVec 8) (m : Mask) : (g.setWEmpty i m).cbase = g.cbase := rfl
@[simp] theorem Gang.setWEmpty_clim (g : Gang) (i : BitVec 8) (m : Mask) : (g.setWEmpty i m).clim = g.clim := rfl
@[simp] theorem Gang.setWEmpty_hash (g : Gang) (i : BitVec 8) (m : Mask) : (g.setWEmpty i m).hash = g.hash := rfl
@[simp] theorem Gang.setWEmpty_tkey (g : Gang) (i : BitVec 8) (m : Mask) : (g.setWEmpty i m).tkey = g.tkey := rfl
@[simp] theorem Gang.setWEmpty_sites (g : Gang) (i : BitVec 8) (m : Mask) : (g.setWEmpty i m).sites = g.sites := rfl
@[simp] theorem Gang.setWEmpty_kids (g : Gang) (i : BitVec 8) (m : Mask) : (g.setWEmpty i m).kids = g.kids := rfl
@[simp] theorem Gang.setWEmpty_puts (g : Gang) (i : BitVec 8) (m : Mask) : (g.setWEmpty i m).puts = g.puts := rfl
@[simp] theorem Gang.setWEmpty_strong (g : Gang) (i : BitVec 8) (m : Mask) : (g.setWEmpty i m).strong = g.strong := rfl
@[simp] theorem Gang.setWEmpty_rfolio (g : Gang) (i : BitVec 8) (m : Mask) : (g.setWEmpty i m).rfolio = g.rfolio := rfl
@[simp] theorem Gang.setWEmpty_sroot (g : Gang) (i : BitVec 8) (m : Mask) : (g.setWEmpty i m).sroot = g.sroot := rfl
@[simp] theorem Gang.setWEmpty_mode (g : Gang) (i : BitVec 8) (m : Mask) : (g.setWEmpty i m).mode = g.mode := rfl
@[simp] theorem Gang.setWEmpty_trace (g : Gang) (i : BitVec 8) (m : Mask) : (g.setWEmpty i m).trace = g.trace := rfl
@[simp] theorem Gang.setWEmpty_folio (g : Gang) (i : BitVec 8) (m : Mask) : (g.setWEmpty i m).folio = g.folio := rfl
@[simp] theorem Gang.setWEmpty_modnews (g : Gang) (i : BitVec 8) (m : Mask) : (g.setWEmpty i m).modnews = g.modnews := rfl
@[simp] theorem Gang.setWEmpty_atoms (g : Gang) (i : BitVec 8) (m : Mask) : (g.setWEmpty i m).atoms = g.atoms := rfl
@[simp] theorem Gang.setWEmpty_flights (g : Gang) (i : BitVec 8) (m : Mask) : (g.setWEmpty i m).flights = g.flights := rfl
@[simp] theorem Gang.setWEmpty_traps (g : Gang) (i : BitVec 8) (m : Mask) : (g.setWEmpty i m).traps = g.traps := rfl
@[simp] theorem Gang.setWEmpty_pend (g : Gang) (i : BitVec 8) (m : Mask) : (g.setWEmpty i m).pend = g.pend := rfl
@[simp] theorem Gang.setWEmpty_awaitAt (g : Gang) (i : BitVec 8) (m : Mask) : (g.setWEmpty i m).awaitAt = g.awaitAt := rfl
@[simp] theorem Gang.setWEmpty_heard (g : Gang) (i : BitVec 8) (m : Mask) : (g.setWEmpty i m).heard = g.heard := rfl
@[simp] theorem Gang.setWEmpty_member (g : Gang) (i : BitVec 8) (m : Mask) : (g.setWEmpty i m).member = g.member := rfl
@[simp] theorem Gang.setWEmpty_ret (g : Gang) (i : BitVec 8) (m : Mask) : (g.setWEmpty i m).ret = g.ret := rfl
@[simp] theorem Gang.setWEmpty_report (g : Gang) (i : BitVec 8) (m : Mask) : (g.setWEmpty i m).report = g.report := rfl

end Sys2Proof.Machine
end

