-- ==== Sys2Proof/Laws/Caches.lean ====
section
/-! SUPPORT. What the operations on device memory and on the caches do to memory: the home slice alone is written,
and in the canonical form. -/

namespace Sys2Proof.Machine

open Sys2Proof

@[simp] theorem State.logWrite_mem (s : State) (pa n : Nat) : (s.logWrite pa n).mem = s.mem := by
  unfold State.logWrite State.logFor; repeat' split
  all_goals rfl

@[simp] theorem State.retest_mem (s : State) (pa n : Nat) : (s.retest pa n).mem = s.mem := rfl

/-- A write at the home slice is a write of memory, of the bytes that the partition has (R126). -/
@[simp] theorem State.homeWrite_mem (s : State) (pa : Nat) (bs : List Byte) :
    (s.homeWrite pa bs).mem = s.mem.write pa (bs.take (s.memBytes - pa)) := by simp [State.homeWrite]

/-- Where the partition has them all, it is a write of all. -/
theorem State.homeWrite_mem_fits (s : State) (pa : Nat) (bs : List Byte) (h : pa + bs.length ≤ s.memBytes) :
    (s.homeWrite pa bs).mem = s.mem.write pa bs := by
  rw [State.homeWrite_mem, List.take_of_length_le (by omega)]

theorem State.homeWrite_wf (s : State) (pa : Nat) (bs : List Byte) (h : s.mem.wf = true) :
    (s.homeWrite pa bs).mem.wf = true := by simpa using Memory.write_wf s.mem pa _ h

/-- A label-changing write writes the block and its label in one action (R133). -/
theorem State.homeLabelWrite_mem (s : State) (pa : Nat) (lab : Label) (bs : List Byte) :
    (s.homeLabelWrite pa lab bs).mem = (s.mem.write pa (bs.take (s.memBytes - pa))).setLabel (pa / 64) lab := by
  simp [State.homeLabelWrite]

theorem State.homeLabelWrite_wf (s : State) (pa : Nat) (lab : Label) (bs : List Byte) (h : s.mem.wf = true) :
    (s.homeLabelWrite pa lab bs).mem.wf = true := by
  rw [State.homeLabelWrite_mem]; exact Memory.setLabel_wf _ _ _ (Memory.write_wf _ _ _ h)

/-- A property of memory that one action of a fold keeps is kept by the fold. -/
theorem mem_foldl {α : Type} (P : Memory → Prop) (f : State → α → State) (xs : List α) (s : State)
    (hf : ∀ s x, P s.mem → P (f s x).mem) (h : P s.mem) : P (xs.foldl f s).mem := by
  induction xs generalizing s with
  | nil => exact h
  | cons x r ih => exact ih (f s x) (hf s x h)

theorem mem_foldl_eq {α : Type} (f : State → α → State) (xs : List α) (s : State)
    (hf : ∀ s x, (f s x).mem = s.mem) : (xs.foldl f s).mem = s.mem :=
  mem_foldl (fun m => m = s.mem) f xs s (fun s' x h => (hf s' x).trans h) rfl

@[simp] theorem State.count_mem (s : State) (c e n : Nat) : (s.count c e n).mem = s.mem := by
  unfold State.count; split <;> rfl

/-- Translations, fills and stores into an L1 leave the home slice as it is (R122, R123, R138). -/
@[simp] theorem State.keep_mem (s : State) (u : Unit_) (va : Nat) (t : Translation) : (s.keep u va t).mem = s.mem := by
  cases u <;> rfl
@[simp] theorem State.keepAll_mem (s : State) (accs : List LaneAcc) : (s.keepAll accs).mem = s.mem :=
  mem_foldl_eq _ _ _ fun s _ => mem_foldl_eq _ _ s fun _ _ => State.keep_mem ..
@[simp] theorem State.fillL2_mem (s : State) (g pa : Nat) : (s.fillL2 g pa).mem = s.mem := by
  unfold State.fillL2; simp only; split <;> rfl
@[simp] theorem State.fillL1_mem (s : State) (c pa : Nat) : (s.fillL1 c pa).mem = s.mem := by
  unfold State.fillL1; simp only; split <;> simp
@[simp] theorem State.fillFor_mem (s : State) (st : Bool) (pa : Nat) : (s.fillFor st pa).mem = s.mem := by
  unfold State.fillFor; simp only; split <;> simp
@[simp] theorem State.fillConst_mem (s : State) (c k n : Nat) : (s.fillConst c k n).mem = s.mem := by
  unfold State.fillConst; simp only; split <;> simp
@[simp] theorem State.fillAll_mem (s : State) (spc : Space) (st : Bool) (accs : List LaneAcc) :
    (s.fillAll spc st accs).mem = s.mem := by
  unfold State.fillAll; simp only; split
  · exact mem_foldl_eq _ _ _ fun _ _ => State.fillFor_mem ..
  · split
    · exact mem_foldl_eq _ _ _ fun _ _ => State.fillConst_mem ..
    · rfl
@[simp] theorem State.intoL2_mem (s : State) (g base : Nat) (who : BitVec 4) (ws : List (Nat × Byte)) :
    (s.intoL2 g base who ws).mem = s.mem := by unfold State.intoL2; split <;> rfl
@[simp] theorem State.storeSector_mem (s : State) (c : Nat) (how : StoreHow) (pa : Nat) (ws : List (Nat × Byte)) :
    (s.storeSector c how pa ws).mem = s.mem := by
  unfold State.storeSector; simp only; split
  · simp
  · split
    · rfl
    · split <;> simp
@[simp] theorem State.storeBytes_mem (s : State) (c : Nat) (how : StoreHow) (ws : List (Nat × Byte)) :
    (s.storeBytes c how ws).mem = s.mem :=
  mem_foldl_eq _ _ _ fun _ _ => State.storeSector_mem ..
@[simp] theorem State.writeAccs_mem (s : State) (spc : Space) (st : Bool) (accs : List LaneAcc)
    (data : Nat → List Byte) : (s.writeAccs spc st accs data).mem = s.mem := by
  cases spc
  case fr => exact mem_foldl_eq _ _ _ fun _ _ => rfl
  all_goals simp [State.writeAccs, State.modCarrelOf_eq]

/-- Bytes written one by one keep the canonical form. -/
theorem setBytes_wf (base : Nat) (ws : List (Nat × Byte)) (m : Memory) (h : m.wf = true) :
    (ws.foldl (fun (m : Memory) (e : Nat × Byte) => m.setByte (base + e.1) e.2) m).wf = true := by
  induction ws generalizing m with
  | nil => exact h
  | cons e r ih => exact ih _ (Memory.setByte_wf m _ _ h)

theorem State.writeHome_mem (s : State) (base : Nat) (ws : List (Nat × Byte)) :
    (s.writeHome base ws).mem
      = ws.foldl (fun (m : Memory) (e : Nat × Byte) => m.setByte (base + e.1) e.2) s.mem := by
  unfold State.writeHome; simp only; split
  · rename_i h; rw [List.isEmpty_iff.1 h]; rfl
  · simp

/-- Write-backs and edges keep the canonical form (R123, R125, R127, R128). -/
theorem State.writeHome_wf (s : State) (base : Nat) (ws : List (Nat × Byte)) (h : s.mem.wf = true) :
    (s.writeHome base ws).mem.wf = true :=
  State.writeHome_mem s base ws ▸ setBytes_wf base ws s.mem h

@[simp] theorem State.lineToL2_mem (s : State) (l1 ln : Nat) (lv : BitVec 3) : (s.lineToL2 l1 ln lv).mem = s.mem := by
  unfold State.lineToL2; simp only; split <;> simp

@[simp] theorem State.flushL1_mem (s : State) (l1 : Nat) (lv : BitVec 3) : (s.flushL1 l1 lv).mem = s.mem := by
  simp only [State.flushL1, State.setCacheOf_mem]
  exact mem_foldl_eq _ _ _ fun _ _ => State.lineToL2_mem ..

theorem State.lineHome_wf (s : State) (g ln : Nat) (h : s.mem.wf = true) : (s.lineHome g ln).mem.wf = true := by
  unfold State.lineHome; simp only; split
  · exact State.writeHome_wf _ _ _ (State.writeHome_wf _ _ _ h)
  · exact h

theorem State.flushL2_wf (s : State) (g : Nat) (who : BitVec 4) (h : s.mem.wf = true) :
    (s.flushL2 g who).mem.wf = true := by
  simp only [State.flushL2, State.setGalleryCache_mem]
  refine mem_foldl (fun m => m.wf = true) _ _ _ (fun s e hs => ?_) h
  split
  · exact State.lineHome_wf s g e.1 hs
  · exact hs

/-- So does an eviction (R123). -/
theorem State.evicted_wf (s t : State) (h : s.mem.wf = true) (ht : s.evicted = some t) : t.mem.wf = true := by
  unfold State.evicted at ht
  split at ht
  · obtain rfl := (Option.some.inj ht).symm
    unfold State.evictL1; split <;> simp [h]
  · obtain ⟨e, -, rfl⟩ := Option.map_eq_some_iff.1 ht
    unfold State.evictL2; split
    · simpa using State.lineHome_wf _ _ _ h
    · exact h

@[simp] theorem State.flushFused_mem (s : State) (c : Nat) : (s.flushFused c).mem = s.mem :=
  mem_foldl_eq _ _ _ fun s _ => mem_foldl_eq _ _ s fun _ _ => by split <;> simp

theorem State.evictAllL2_wf (s : State) (g : Nat) (h : s.mem.wf = true) : (s.evictAllL2 g).mem.wf = true := by
  unfold State.evictAllL2
  refine mem_foldl (fun m => m.wf = true) _ _ _ (fun s e hs => ?_) h
  split
  · simpa using State.lineHome_wf s g e.1 hs
  · exact hs

@[simp] theorem State.evictFused_mem (s : State) (c : Nat) : (s.evictFused c).mem = s.mem :=
  mem_foldl_eq _ _ _ fun s _ => mem_foldl_eq _ _ s fun _ _ => by split <;> simp

theorem State.evictOthers_wf (s : State) (c : Nat) (h : s.mem.wf = true) : (s.evictOthers c).mem.wf = true := by
  unfold State.evictOthers
  refine State.evictAllL2_wf _ _ ?_
  split
  · simpa using h
  · exact h

theorem State.release_wf (s : State) (c lv : Nat) (h : s.mem.wf = true) : (s.release c lv).mem.wf = true := by
  unfold State.release
  split
  · exact h
  · split
    · split
      · exact h
      · exact State.evictOthers_wf _ _ (State.flushL2_wf _ _ _ (by simpa using h))
    · split
      · simpa using h
      · exact State.evictOthers_wf _ _ (State.flushL2_wf _ _ _ (by simpa using h))

@[simp] theorem State.acquire_mem (s : State) (c x : Nat) : (s.acquire c x).mem = s.mem := by
  unfold State.acquire
  split
  · rfl
  · have hm : ∀ l : List Nat, (l.foldl (fun s c => s.setCacheOf c (s.cacheOf c).invalidate) s).mem = s.mem :=
      fun l => mem_foldl_eq _ _ _ fun _ _ => rfl
    simp only; split <;> simp [hm]

theorem State.expel_wf (s : State) (c pa n : Nat) (b : Bool) (h : s.mem.wf = true) : (s.expel c pa n b).mem.wf = true :=
  State.writeHome_wf _ _ _ (State.writeHome_wf _ _ _ h)

end Sys2Proof.Machine
end

