-- ==== Sys2Proof/Laws/Issue.lean ====
section
/-! SUPPORT. What the shared operations of issue can do: everything a word may answer before its page's effect, and
what moving on, holding, a context fault and a user trap leave. -/

namespace Sys2Proof.Machine

open Sys2Proof

/-! The order of issue. -/

/-- A word issues: its page acts with the lanes that the guard admits. -/
theorem issueActs_of_issuesActs {s : State} {h : Header} {a : Acts} {legal : Bool} {dsts : List (Operand × Bool)}
    {srcs : Mask → List Src} {m : Mask} (act : Mask → Result) (hi : s.issuesActs h a legal dsts srcs m) :
    issueActs s h a legal dsts srcs act = act m := by
  obtain ⟨rfl, hr, hl, hd, hs⟩ := hi
  have hd' : (dsts.any fun d => dstEmpty s d.2 m d.1) = false := by
    rw [List.any_eq_false]; intro d h; simp [hd d h]
  have hf : (srcs m).filter (fun x => x.empty s.gang) = [] := by
    rw [List.filter_eq_nil_iff]; intro x h; simp [hs x h]
  simp [issueActs, hr, hl, hd', hf]

theorem issue_of_issues {s : State} {h : Header} {c : WordClass} {legal : Bool} {dsts : List (Operand × Bool)}
    {srcs : Mask → List Src} {m : Mask} (act : Mask → Result) (hi : s.issues h c legal dsts srcs m) :
    issue s h c legal dsts srcs act = act m := issueActs_of_issuesActs act hi

/-- A word that does not act only goes on (R95). -/
theorem issue_of_no {s : State} {h : Header} {c : WordClass} (legal : Bool) (dsts : List (Operand × Bool))
    (srcs : Mask → List Src) (act : Mask → Result) (ha : acts s.gang h c = .no) :
    issue s h c legal dsts srcs act = .next (s.advance h) := by simp [issue, issueActs, ha]

/-- Never a word under !p7 or !k7 (R261). -/
theorem acts_never (g : Gang) (h : Header) (c : WordClass) (hi : h.idx = 7) (hn : h.neg = true) : acts g h c = .no := by
  simp [acts, hi, hn]

/-- Everything that a word can answer (R271, R92). -/
theorem issueActs_cases {s : State} {h : Header} {a : Acts} {legal : Bool} {dsts : List (Operand × Bool)}
    {srcs : Mask → List Src} {act : Mask → Result} :
    (a = .no ∧ issueActs s h a legal dsts srcs act = .next (s.advance h))
    ∨ (∃ m, issueActs s h a legal dsts srcs act = illegal s m)
    ∨ issueActs s h a legal dsts srcs act = .next s.holdEmpty
    ∨ (∃ (x : Src) (m : Mask), x ∈ srcs m ∧ x.empty s.gang = true ∧ (x.trap || x.lost s) = true
        ∧ a = .yes m ∧ ∃ ls, issueActs s h a legal dsts srcs act = takeTrap s Trap.feEmpty x.field ls m ls s.pc)
    ∨ (∃ m, s.issuesActs h a legal dsts srcs m ∧ issueActs s h a legal dsts srcs act = act m) := by
  cases a with
  | no => exact .inl ⟨rfl, rfl⟩
  | illegal m => exact .inr (.inl ⟨m, rfl⟩)
  | yes m =>
    by_cases hr : h.rsv = true
    · exact .inr (.inl ⟨m, by simp [issueActs, hr]⟩)
    by_cases hl : legal = true
    case neg => exact .inr (.inl ⟨m, by simp [issueActs, hl]⟩)
    by_cases hd : (dsts.any fun d => dstEmpty s d.2 m d.1) = true
    · exact .inr (.inr (.inl (by simp only [issueActs]; rw [if_neg (by simp [hr, hl]), if_pos hd])))
    by_cases hb : (((srcs m).filter (fun x => x.empty s.gang)).any (fun x => !x.trap && !x.lost s)) = true
    · exact .inr (.inr (.inl (by
        simp only [issueActs]; rw [if_neg (by simp [hr, hl]), if_neg hd, if_pos hb])))
    cases hf : ((srcs m).filter (fun x => x.empty s.gang)).find? (fun x => x.trap || x.lost s) with
    | some x =>
      have hm := List.mem_filter.1 (List.mem_of_find?_eq_some hf)
      have hp : (x.trap || x.lost s) = true := by simpa using List.find?_some hf
      refine .inr (.inr (.inr (.inl ⟨x, m, hm.1, hm.2, hp, rfl, ?_⟩)))
      simp only [issueActs]
      rw [if_neg (by simp [hr, hl]), if_neg hd, if_neg hb, hf]
      exact ⟨_, rfl⟩
    | none =>
      refine .inr (.inr (.inr (.inr ⟨m, ⟨rfl, by simpa using hr, hl, fun d h => ?_, fun x h => ?_⟩, ?_⟩)))
      · have hd' := Bool.eq_false_iff.2 hd
        exact Bool.eq_false_iff.2 (List.any_eq_false.1 hd' d h)
      · refine Bool.eq_false_iff.2 fun he => ?_
        have hin : x ∈ (srcs m).filter (fun x => x.empty s.gang) := List.mem_filter.2 ⟨h, he⟩
        have h1 := List.find?_eq_none.1 hf x hin
        have h2 := List.any_eq_false.1 (Bool.eq_false_iff.2 hb) x hin
        cases hx : x.trap <;> cases hy : x.lost s <;> simp_all
      · simp only [issueActs]; rw [if_neg (by simp [hr, hl]), if_neg hd, if_neg hb, hf]

/-! Counting, moving on and holding leave all but the gang, the clock and the counters. -/

@[simp] theorem State.count_clock (s : State) (c e n : Nat) : (s.count c e n).clock = s.clock := by
  unfold State.count; split <;> rfl
@[simp] theorem State.count_cur (s : State) (c e n : Nat) : (s.count c e n).cur = s.cur := by
  unfold State.count; split <;> rfl
@[simp] theorem State.count_halt (s : State) (c e n : Nat) : (s.count c e n).halt = s.halt := by
  unfold State.count; split <;> rfl
@[simp] theorem State.count_faults (s : State) (c e n : Nat) : (s.count c e n).faults = s.faults := by
  unfold State.count; split <;> rfl
@[simp] theorem State.count_l1s (s : State) (c e n : Nat) : (s.count c e n).l1s = s.l1s := by
  unfold State.count; split <;> rfl
@[simp] theorem State.count_l2s (s : State) (c e n : Nat) : (s.count c e n).l2s = s.l2s := by
  unfold State.count; split <;> rfl
@[simp] theorem State.count_fused (s : State) (c e n : Nat) : (s.count c e n).fused = s.fused := by
  unfold State.count; split <;> rfl
@[simp] theorem State.count_gangs (s : State) (c e n : Nat) : (s.count c e n).ctx.gangs = s.ctx.gangs := by
  unfold State.count; split <;> rfl
@[simp] theorem State.count_frames (s : State) (c e n : Nat) : (s.count c e n).ctx.frames = s.ctx.frames := by
  unfold State.count; split <;> rfl
@[simp] theorem State.count_slots (s : State) (c e n : Nat) : (s.count c e n).ctx.slots = s.ctx.slots := by
  unfold State.count; split <;> rfl
@[simp] theorem State.count_shelves (s : State) (c e n : Nat) : (s.count c e n).ctx.shelves = s.ctx.shelves := by
  unfold State.count; split <;> rfl
@[simp] theorem State.count_gang (s : State) (c e n : Nat) : (s.count c e n).gang = s.gang := by
  simp [State.gang, State.gangOf]

/-- What a count of an issue leaves. -/
@[simp] theorem State.issuedOne_mem (s : State) : s.issuedOne.mem = s.mem := by unfold State.issuedOne; split <;> simp
@[simp] theorem State.issuedOne_clock (s : State) : s.issuedOne.clock = s.clock := by unfold State.issuedOne; split <;> simp
@[simp] theorem State.issuedOne_cur (s : State) : s.issuedOne.cur = s.cur := by unfold State.issuedOne; split <;> simp
@[simp] theorem State.issuedOne_halt (s : State) : s.issuedOne.halt = s.halt := by unfold State.issuedOne; split <;> simp
@[simp] theorem State.issuedOne_faults (s : State) : s.issuedOne.faults = s.faults := by
  unfold State.issuedOne; split <;> simp
@[simp] theorem State.issuedOne_ctx_gangs (s : State) : s.issuedOne.ctx.gangs = s.ctx.gangs := by
  unfold State.issuedOne; split <;> simp
@[simp] theorem State.issuedOne_gang (s : State) : s.issuedOne.gang = s.gang := by
  unfold State.issuedOne; split <;> simp

@[simp] theorem State.leave_mem (s : State) (h : Header) (pc : DWord) (b : Bool) : (s.leave h pc b).mem = s.mem := by
  simp [State.leave, State.modGang_eq]
@[simp] theorem State.leave_clock (s : State) (h : Header) (pc : DWord) (b : Bool) :
    (s.leave h pc b).clock = s.clock + 1 := by
  simp [State.leave, State.modGang_eq]
@[simp] theorem State.leave_cur (s : State) (h : Header) (pc : DWord) (b : Bool) : (s.leave h pc b).cur = s.cur := by
  simp [State.leave, State.modGang_eq]
@[simp] theorem State.leave_halt (s : State) (h : Header) (pc : DWord) (b : Bool) : (s.leave h pc b).halt = s.halt := by
  simp [State.leave, State.modGang_eq]
@[simp] theorem State.leave_faults (s : State) (h : Header) (pc : DWord) (b : Bool) :
    (s.leave h pc b).faults = s.faults := by
  simp [State.leave, State.modGang_eq]
theorem State.leave_gang (s : State) (h : Header) (pc : DWord) (b : Bool) :
    (s.leave h pc b).gang = ((s.gang.modPath fun p => p.leaves pc).hint h b s.clock).settled false := by
  simp [State.leave, State.modGang_eq, State.gang, State.gangOf, Table.look_put]
theorem State.leave_gangOf (s : State) (h : Header) (pc : DWord) (b : Bool) (n : Nat) (hn : n ≠ s.cur) :
    (s.leave h pc b).gangOf n = s.gangOf n := by
  simp [State.leave, State.modGang_eq, State.gangOf, Table.look_put, hn]

@[simp] theorem State.hold_mem (s : State) : s.hold.mem = s.mem := rfl
@[simp] theorem State.hold_clock (s : State) : s.hold.clock = s.clock := rfl
@[simp] theorem State.holdRead_mem (s : State) : s.holdRead.mem = s.mem := rfl
@[simp] theorem State.holdEmpty_mem (s : State) : s.holdEmpty.mem = s.mem := rfl

/-- A path without a region, in a gang that is not split, settles where it stands. -/
theorem Gang.settled_flat (g : Gang) (hs : g.path.stack = []) (hp : g.split = none) :
    (g.settled false).path.pc = g.path.pc ∧ (g.settled false).path.xm = g.path.xm ∧ (g.settled false).split = none := by
  have hf : 2 * g.path.stack.length + 3 = 2 + 1 := by simp [hs]
  have h : g.settled false =
      g.setPath (if g.path.join = some g.path.pc then { g.path with join := none } else g.path) := by
    have hq : (if g.path.join = some g.path.pc then { g.path with join := none } else g.path).stack = [] := by
      split <;> simp [hs]
    rw [Gang.settled, hf, Gang.settle]
    simp only [hq, hp]
  rw [h]
  by_cases hj : g.path.join = some g.path.pc <;> cases hy : g.younger <;>
    simp_all [Gang.setPath, Gang.path]

/-! Context faults and user traps. -/

/-- A context fault reports, asserts the halt line and does nothing else (R144). -/
theorem raiseFault_faulted (s : State) (kind : BitVec 8) (a o : Mask) (d : DWord) :
    ∃ t, raiseFault s kind a o d = .next t ∧ faulted s t (s.carrelFault kind a o d) := ⟨_, rfl, rfl⟩

/-- A user trap is delivered, or replaced by ILLEGAL-OP (R142, R143). -/
theorem takeTrap_cases (s : State) (cause : BitVec 8) (detail : BitVec 16) (ls as os : Mask) (ret : DWord) :
    takeTrap s cause detail ls as os ret = raiseFault s Code.illegalOp as os 0
    ∨ (s.gang.trapv ≠ 0 ∧ s.gang.inHandler = false ∧ s.gang.isShadow = false
        ∧ ∃ t, takeTrap s cause detail ls as os ret = .next t ∧ t.clock = s.clock + 1 ∧ t.mem = s.mem
          ∧ t.halt = s.halt ∧ t.faults = s.faults ∧ t.cur = s.cur) := by
  by_cases h : s.gang.noHandler = true
  · exact .inl (by simp only [takeTrap]; rw [if_pos h])
  · have h' := h
    simp only [Gang.noHandler] at h'
    refine .inr ⟨by simp_all, by simp_all, by simp_all, _, by simp only [takeTrap]; rw [if_neg h], ?_⟩
    simp [State.trapped, State.modGang_eq]

/-- No word of a page faults or is refused by the order of issue itself. -/
theorem issueActs_next {s : State} {h : Header} {a : Acts} {legal : Bool} {dsts : List (Operand × Bool)}
    {srcs : Mask → List Src} {act : Mask → Result} (ha : ∀ m, ∃ t, act m = .next t) :
    ∃ t, issueActs s h a legal dsts srcs act = .next t := by
  rcases issueActs_cases (s := s) (h := h) (a := a) (legal := legal) (dsts := dsts) (srcs := srcs) (act := act) with
    ⟨-, e⟩ | ⟨m, e⟩ | e | ⟨x, m, -, -, -, -, ls, e⟩ | ⟨m, -, e⟩
  · exact ⟨_, e⟩
  · exact ⟨_, e⟩
  · exact ⟨_, e⟩
  · rcases takeTrap_cases s Trap.feEmpty x.field ls m ls s.pc with e' | ⟨-, -, -, t, e', -⟩
    · exact ⟨_, e.trans e'⟩
    · exact ⟨t, e.trans e'⟩
  · obtain ⟨t, ht⟩ := ha m; exact ⟨t, e.trans ht⟩

end Sys2Proof.Machine
end

