-- ==== Sys2Proof/Laws/PerInstr.lean ====
section
/-! SUPPORT. The family `RoundTrip`: the word of a well-formed instruction decodes to that instruction, one lemma
for each constructor, over one lemma for each format. -/

namespace Sys2Proof

/-! Fields of a concatenation. -/

theorem field_above {v w n : Nat} (x : BitVec v) (y : BitVec w) (k len : Nat) (r : BitVec len) (h : n = k + w)
    (e : x.extractLsb' k len = r) : (x ++ y).extractLsb' n len = r := by
  subst h; rw [BitVec.extractLsb'_append_eq_of_le (Nat.le_add_left ..)]; simpa using e

theorem field_here {v w n len : Nat} (x : BitVec v) (y : BitVec w) (r : BitVec len) (h : n + len ≤ w)
    (e : y.extractLsb' n len = r) : (x ++ y).extractLsb' n len = r := by
  rw [BitVec.extractLsb'_append_eq_of_add_le h, e]

theorem bit_above {v w n : Nat} (x : BitVec v) (y : BitVec w) (k : Nat) (r : Bool) (h : n = k + w)
    (e : x.getLsbD k = r) : (x ++ y).getLsbD n = r := by
  subst h; rw [BitVec.getLsbD_append]; simp [e]

theorem bit_here {v w n : Nat} (x : BitVec v) (y : BitVec w) (b : Bool) (h : n < w) (e : y.getLsbD n = b) :
    (x ++ y).getLsbD n = b := by
  rw [BitVec.getLsbD_append, if_pos h, e]

/-- The operand table has one meaning for each pattern (R263). -/
theorem Operand.ofBits_toBits (o : Operand) (h : o.wf = true) : Operand.ofBits o.toBits = o := by
  cases o with
  | w i => revert i; decide +kernel
  | s i => revert i; decide +kernel
  | q i => revert i; decide +kernel
  | h i => revert i; decide +kernel
  | a i => revert i; decide +kernel
  | special i => revert i; decide +kernel
  | imm v => revert v; decide +kernel
  | immField => decide
  | absent => decide
  | bad r => revert h; revert r; decide +kernel

theorem operand_field {n : Nat} {x : BitVec n} {k : Nat} {o : Operand} (h : o.wf = true)
    (e : x.extractLsb' k 10 = o.toBits) : Operand.ofBits (x.extractLsb' k 10) = o := by
  rw [e, Operand.ofBits_toBits o h]

/-! Each format (R265): the fields and the opcode that were put are the ones that are got. -/

theorem getRRR_put (code : Nat) (x : RRR) (hw : x.wf = true) : getRRR (putRRR code x) = x := by
  obtain ⟨⟨neg, kind, idx', run, cede, use, rsv', d⟩, a, b, c, fe, mod, rsv⟩ := x
  simp only [RRR.wf, Bool.and_eq_true] at hw
  obtain ⟨⟨⟨hd, h1⟩, h2⟩, h3⟩ := hw
  simp only [getRRR, getHeader, RRR.mk.injEq, Header.mk.injEq]
  refine ⟨⟨?_, ?_, ?_, ?_, ?_, ?_, ?_, operand_field hd ?_⟩, operand_field h1 ?_, operand_field h2 ?_, operand_field h3 ?_, ?_, ?_, ?_⟩
  all_goals repeat first
    | (refine field_here _ _ _ (by decide) ?_; exact BitVec.extractLsb'_eq_self)
    | (refine bit_here _ _ _ (by decide) ?_; simp)
    | refine field_above _ _ _ _ _ rfl ?_
    | refine bit_above _ _ _ _ rfl ?_

theorem opcodeOf_putRRR (code : Nat) (x : RRR) (h : code < 512) : opcodeOf (putRRR code x) = code := by
  have e : BitVec.extractLsb' 87 9 (putRRR code x) = BitVec.ofNat 9 code := by
    iterate 14 refine field_above _ _ _ _ _ rfl ?_
    exact BitVec.extractLsb'_eq_self
  rw [opcodeOf, e, BitVec.toNat_ofNat]; exact Nat.mod_eq_of_lt h

theorem getRI_put (code : Nat) (x : RI) (hw : x.wf = true) : getRI (putRI code x) = x := by
  obtain ⟨⟨neg, kind, idx', run, cede, use, rsv', d⟩, a, fe, mod, imm⟩ := x
  simp only [RI.wf, Bool.and_eq_true] at hw
  obtain ⟨hd, h1⟩ := hw
  simp only [getRI, getHeader, RI.mk.injEq, Header.mk.injEq]
  refine ⟨⟨?_, ?_, ?_, ?_, ?_, ?_, ?_, operand_field hd ?_⟩, operand_field h1 ?_, ?_, ?_, ?_⟩
  all_goals repeat first
    | (refine field_here _ _ _ (by decide) ?_; exact BitVec.extractLsb'_eq_self)
    | (refine bit_here _ _ _ (by decide) ?_; simp)
    | refine field_above _ _ _ _ _ rfl ?_
    | refine bit_above _ _ _ _ rfl ?_

theorem opcodeOf_putRI (code : Nat) (x : RI) (h : code < 512) : opcodeOf (putRI code x) = code := by
  have e : BitVec.extractLsb' 87 9 (putRI code x) = BitVec.ofNat 9 code := by
    iterate 12 refine field_above _ _ _ _ _ rfl ?_
    exact BitVec.extractLsb'_eq_self
  rw [opcodeOf, e, BitVec.toNat_ofNat]; exact Nat.mod_eq_of_lt h

theorem getM_put (code : Nat) (x : MFmt) (hw : x.wf = true) : getM (putM code x) = x := by
  obtain ⟨⟨neg, kind, idx', run, cede, use, rsv', d⟩, sbase, idx, data, fe, width, space, scale, hint, ext, rsv, off⟩ := x
  simp only [MFmt.wf, Bool.and_eq_true] at hw
  obtain ⟨⟨hd, h1⟩, h2⟩ := hw
  simp only [getM, getHeader, MFmt.mk.injEq, Header.mk.injEq]
  refine ⟨⟨?_, ?_, ?_, ?_, ?_, ?_, ?_, operand_field hd ?_⟩, ?_, operand_field h1 ?_, operand_field h2 ?_, ?_, ?_, ?_, ?_, ?_, ?_, ?_, ?_⟩
  all_goals repeat first
    | (refine field_here _ _ _ (by decide) ?_; exact BitVec.extractLsb'_eq_self)
    | (refine bit_here _ _ _ (by decide) ?_; simp)
    | refine field_above _ _ _ _ _ rfl ?_
    | refine bit_above _ _ _ _ rfl ?_

theorem opcodeOf_putM (code : Nat) (x : MFmt) (h : code < 512) : opcodeOf (putM code x) = code := by
  have e : BitVec.extractLsb' 87 9 (putM code x) = BitVec.ofNat 9 code := by
    iterate 19 refine field_above _ _ _ _ _ rfl ?_
    exact BitVec.extractLsb'_eq_self
  rw [opcodeOf, e, BitVec.toNat_ofNat]; exact Nat.mod_eq_of_lt h

theorem getMS_put (code : Nat) (x : MSFmt) (hw : x.wf = true) : getMS (putMS code x) = x := by
  obtain ⟨⟨neg, kind, idx', run, cede, use, rsv', d⟩, sbase, idx, data, data2, fe, op, obs, pub, sub, width, rsv⟩ := x
  simp only [MSFmt.wf, Bool.and_eq_true] at hw
  obtain ⟨⟨⟨hd, h1⟩, h2⟩, h3⟩ := hw
  simp only [getMS, getHeader, MSFmt.mk.injEq, Header.mk.injEq]
  refine ⟨⟨?_, ?_, ?_, ?_, ?_, ?_, ?_, operand_field hd ?_⟩, ?_, operand_field h1 ?_, operand_field h2 ?_, operand_field h3 ?_, ?_, ?_, ?_, ?_, ?_, ?_, ?_⟩
  all_goals repeat first
    | (refine field_here _ _ _ (by decide) ?_; exact BitVec.extractLsb'_eq_self)
    | (refine bit_here _ _ _ (by decide) ?_; simp)
    | refine field_above _ _ _ _ _ rfl ?_
    | refine bit_above _ _ _ _ rfl ?_

theorem opcodeOf_putMS (code : Nat) (x : MSFmt) (h : code < 512) : opcodeOf (putMS code x) = code := by
  have e : BitVec.extractLsb' 87 9 (putMS code x) = BitVec.ofNat 9 code := by
    iterate 19 refine field_above _ _ _ _ _ rfl ?_
    exact BitVec.extractLsb'_eq_self
  rw [opcodeOf, e, BitVec.toNat_ofNat]; exact Nat.mod_eq_of_lt h

theorem getB_put (code : Nat) (x : BFmt) (hw : x.wf = true) : getB (putB code x) = x := by
  obtain ⟨⟨neg, kind, idx', run, cede, use, rsv', d⟩, a, mod, off⟩ := x
  simp only [BFmt.wf, Bool.and_eq_true] at hw
  obtain ⟨hd, h1⟩ := hw
  simp only [getB, getHeader, BFmt.mk.injEq, Header.mk.injEq]
  refine ⟨⟨?_, ?_, ?_, ?_, ?_, ?_, ?_, operand_field hd ?_⟩, operand_field h1 ?_, ?_, ?_⟩
  all_goals repeat first
    | (refine field_here _ _ _ (by decide) ?_; exact BitVec.extractLsb'_eq_self)
    | (refine bit_here _ _ _ (by decide) ?_; simp)
    | refine field_above _ _ _ _ _ rfl ?_
    | refine bit_above _ _ _ _ rfl ?_

theorem opcodeOf_putB (code : Nat) (x : BFmt) (h : code < 512) : opcodeOf (putB code x) = code := by
  have e : BitVec.extractLsb' 87 9 (putB code x) = BitVec.ofNat 9 code := by
    iterate 11 refine field_above _ _ _ _ _ rfl ?_
    exact BitVec.extractLsb'_eq_self
  rw [opcodeOf, e, BitVec.toNat_ofNat]; exact Nat.mod_eq_of_lt h

theorem getG_put (code : Nat) (x : GFmt) (hw : x.wf = true) : getG (putG code x) = x := by
  obtain ⟨⟨neg, kind, idx', run, cede, use, rsv', d⟩, args, cnt, shelf, width, place, salt, entry⟩ := x
  simp only [GFmt.wf, Bool.and_eq_true] at hw
  obtain ⟨hd, h1⟩ := hw
  simp only [getG, getHeader, GFmt.mk.injEq, Header.mk.injEq]
  refine ⟨⟨?_, ?_, ?_, ?_, ?_, ?_, ?_, operand_field hd ?_⟩, operand_field h1 ?_, ?_, ?_, ?_, ?_, ?_, ?_⟩
  all_goals repeat first
    | (refine field_here _ _ _ (by decide) ?_; exact BitVec.extractLsb'_eq_self)
    | (refine bit_here _ _ _ (by decide) ?_; simp)
    | refine field_above _ _ _ _ _ rfl ?_
    | refine bit_above _ _ _ _ rfl ?_

theorem opcodeOf_putG (code : Nat) (x : GFmt) (h : code < 512) : opcodeOf (putG code x) = code := by
  have e : BitVec.extractLsb' 87 9 (putG code x) = BitVec.ofNat 9 code := by
    iterate 15 refine field_above _ _ _ _ _ rfl ?_
    exact BitVec.extractLsb'_eq_self
  rw [opcodeOf, e, BitVec.toNat_ofNat]; exact Nat.mod_eq_of_lt h

theorem getE_put (code : Nat) (x : EFmt) (hw : x.wf = true) : getE (putE code x) = x := by
  obtain ⟨⟨neg, kind, idx', run, cede, use, rsv', d⟩, a, b, c, fe, control⟩ := x
  simp only [EFmt.wf, Bool.and_eq_true] at hw
  obtain ⟨⟨⟨hd, h1⟩, h2⟩, h3⟩ := hw
  simp only [getE, getHeader, EFmt.mk.injEq, Header.mk.injEq]
  refine ⟨⟨?_, ?_, ?_, ?_, ?_, ?_, ?_, operand_field hd ?_⟩, operand_field h1 ?_, operand_field h2 ?_, operand_field h3 ?_, ?_, ?_⟩
  all_goals repeat first
    | (refine field_here _ _ _ (by decide) ?_; exact BitVec.extractLsb'_eq_self)
    | (refine bit_here _ _ _ (by decide) ?_; simp)
    | refine field_above _ _ _ _ _ rfl ?_
    | refine bit_above _ _ _ _ rfl ?_

theorem opcodeOf_putE (code : Nat) (x : EFmt) (h : code < 512) : opcodeOf (putE code x) = code := by
  have e : BitVec.extractLsb' 87 9 (putE code x) = BitVec.ofNat 9 code := by
    iterate 13 refine field_above _ _ _ _ _ rfl ?_
    exact BitVec.extractLsb'_eq_self
  rw [opcodeOf, e, BitVec.toNat_ofNat]; exact Nat.mod_eq_of_lt h

/-! The family. -/

/-- The word of a well-formed instruction decodes to it (R259 to R269). -/
def Laws.RoundTrip.Statement (i : Instr) : Prop :=
  ∀ w : IWord, i.wf = true → encode i = some w → decodeWord w = i

/-- An event has no word. -/
theorem Laws.RoundTrip.of_none {i : Instr} (h : encode i = none) : Laws.RoundTrip.Statement i := by
  intro w _ he; rw [h] at he; cases he

theorem Laws.RoundTrip.add (x : RRR) : Laws.RoundTrip.Statement (.add x) := by
  intro w hw he; cases he
  rw [decodeWord, opcodeOf_putRRR _ x (by decide)]; exact congrArg Instr.add (getRRR_put _ x hw)
theorem Laws.RoundTrip.addRI (x : RI) : Laws.RoundTrip.Statement (.addRI x) := by
  intro w hw he; cases he
  rw [decodeWord, opcodeOf_putRI _ x (by decide)]; exact congrArg Instr.addRI (getRI_put _ x hw)
theorem Laws.RoundTrip.sub (x : RRR) : Laws.RoundTrip.Statement (.sub x) := by
  intro w hw he; cases he
  rw [decodeWord, opcodeOf_putRRR _ x (by decide)]; exact congrArg Instr.sub (getRRR_put _ x hw)
theorem Laws.RoundTrip.subRI (x : RI) : Laws.RoundTrip.Statement (.subRI x) := by
  intro w hw he; cases he
  rw [decodeWord, opcodeOf_putRI _ x (by decide)]; exact congrArg Instr.subRI (getRI_put _ x hw)
theorem Laws.RoundTrip.mul (x : RRR) : Laws.RoundTrip.Statement (.mul x) := by
  intro w hw he; cases he
  rw [decodeWord, opcodeOf_putRRR _ x (by decide)]; exact congrArg Instr.mul (getRRR_put _ x hw)
theorem Laws.RoundTrip.mulRI (x : RI) : Laws.RoundTrip.Statement (.mulRI x) := by
  intro w hw he; cases he
  rw [decodeWord, opcodeOf_putRI _ x (by decide)]; exact congrArg Instr.mulRI (getRI_put _ x hw)
theorem Laws.RoundTrip.mulh (x : RRR) : Laws.RoundTrip.Statement (.mulh x) := by
  intro w hw he; cases he
  rw [decodeWord, opcodeOf_putRRR _ x (by decide)]; exact congrArg Instr.mulh (getRRR_put _ x hw)
theorem Laws.RoundTrip.mad (x : RRR) : Laws.RoundTrip.Statement (.mad x) := by
  intro w hw he; cases he
  rw [decodeWord, opcodeOf_putRRR _ x (by decide)]; exact congrArg Instr.mad (getRRR_put _ x hw)
theorem Laws.RoundTrip.div (x : RRR) : Laws.RoundTrip.Statement (.div x) := by
  intro w hw he; cases he
  rw [decodeWord, opcodeOf_putRRR _ x (by decide)]; exact congrArg Instr.div (getRRR_put _ x hw)
theorem Laws.RoundTrip.rem (x : RRR) : Laws.RoundTrip.Statement (.rem x) := by
  intro w hw he; cases he
  rw [decodeWord, opcodeOf_putRRR _ x (by decide)]; exact congrArg Instr.rem (getRRR_put _ x hw)
theorem Laws.RoundTrip.neg (x : RRR) : Laws.RoundTrip.Statement (.neg x) := by
  intro w hw he; cases he
  rw [decodeWord, opcodeOf_putRRR _ x (by decide)]; exact congrArg Instr.neg (getRRR_put _ x hw)
theorem Laws.RoundTrip.abs (x : RRR) : Laws.RoundTrip.Statement (.abs x) := by
  intro w hw he; cases he
  rw [decodeWord, opcodeOf_putRRR _ x (by decide)]; exact congrArg Instr.abs (getRRR_put _ x hw)
theorem Laws.RoundTrip.min (x : RRR) : Laws.RoundTrip.Statement (.min x) := by
  intro w hw he; cases he
  rw [decodeWord, opcodeOf_putRRR _ x (by decide)]; exact congrArg Instr.min (getRRR_put _ x hw)
theorem Laws.RoundTrip.minRI (x : RI) : Laws.RoundTrip.Statement (.minRI x) := by
  intro w hw he; cases he
  rw [decodeWord, opcodeOf_putRI _ x (by decide)]; exact congrArg Instr.minRI (getRI_put _ x hw)
theorem Laws.RoundTrip.max (x : RRR) : Laws.RoundTrip.Statement (.max x) := by
  intro w hw he; cases he
  rw [decodeWord, opcodeOf_putRRR _ x (by decide)]; exact congrArg Instr.max (getRRR_put _ x hw)
theorem Laws.RoundTrip.maxRI (x : RI) : Laws.RoundTrip.Statement (.maxRI x) := by
  intro w hw he; cases he
  rw [decodeWord, opcodeOf_putRI _ x (by decide)]; exact congrArg Instr.maxRI (getRI_put _ x hw)
theorem Laws.RoundTrip.addmin (x : RRR) : Laws.RoundTrip.Statement (.addmin x) := by
  intro w hw he; cases he
  rw [decodeWord, opcodeOf_putRRR _ x (by decide)]; exact congrArg Instr.addmin (getRRR_put _ x hw)
theorem Laws.RoundTrip.and (x : RRR) : Laws.RoundTrip.Statement (.and x) := by
  intro w hw he; cases he
  rw [decodeWord, opcodeOf_putRRR _ x (by decide)]; exact congrArg Instr.and (getRRR_put _ x hw)
theorem Laws.RoundTrip.andRI (x : RI) : Laws.RoundTrip.Statement (.andRI x) := by
  intro w hw he; cases he
  rw [decodeWord, opcodeOf_putRI _ x (by decide)]; exact congrArg Instr.andRI (getRI_put _ x hw)
theorem Laws.RoundTrip.or (x : RRR) : Laws.RoundTrip.Statement (.or x) := by
  intro w hw he; cases he
  rw [decodeWord, opcodeOf_putRRR _ x (by decide)]; exact congrArg Instr.or (getRRR_put _ x hw)
theorem Laws.RoundTrip.orRI (x : RI) : Laws.RoundTrip.Statement (.orRI x) := by
  intro w hw he; cases he
  rw [decodeWord, opcodeOf_putRI _ x (by decide)]; exact congrArg Instr.orRI (getRI_put _ x hw)
theorem Laws.RoundTrip.xor (x : RRR) : Laws.RoundTrip.Statement (.xor x) := by
  intro w hw he; cases he
  rw [decodeWord, opcodeOf_putRRR _ x (by decide)]; exact congrArg Instr.xor (getRRR_put _ x hw)
theorem Laws.RoundTrip.xorRI (x : RI) : Laws.RoundTrip.Statement (.xorRI x) := by
  intro w hw he; cases he
  rw [decodeWord, opcodeOf_putRI _ x (by decide)]; exact congrArg Instr.xorRI (getRI_put _ x hw)
theorem Laws.RoundTrip.not (x : RRR) : Laws.RoundTrip.Statement (.not x) := by
  intro w hw he; cases he
  rw [decodeWord, opcodeOf_putRRR _ x (by decide)]; exact congrArg Instr.not (getRRR_put _ x hw)
theorem Laws.RoundTrip.shl (x : RRR) : Laws.RoundTrip.Statement (.shl x) := by
  intro w hw he; cases he
  rw [decodeWord, opcodeOf_putRRR _ x (by decide)]; exact congrArg Instr.shl (getRRR_put _ x hw)
theorem Laws.RoundTrip.shr (x : RRR) : Laws.RoundTrip.Statement (.shr x) := by
  intro w hw he; cases he
  rw [decodeWord, opcodeOf_putRRR _ x (by decide)]; exact congrArg Instr.shr (getRRR_put _ x hw)
theorem Laws.RoundTrip.sra (x : RRR) : Laws.RoundTrip.Statement (.sra x) := by
  intro w hw he; cases he
  rw [decodeWord, opcodeOf_putRRR _ x (by decide)]; exact congrArg Instr.sra (getRRR_put _ x hw)
theorem Laws.RoundTrip.rot (x : RRR) : Laws.RoundTrip.Statement (.rot x) := by
  intro w hw he; cases he
  rw [decodeWord, opcodeOf_putRRR _ x (by decide)]; exact congrArg Instr.rot (getRRR_put _ x hw)
theorem Laws.RoundTrip.fsh (x : RRR) : Laws.RoundTrip.Statement (.fsh x) := by
  intro w hw he; cases he
  rw [decodeWord, opcodeOf_putRRR _ x (by decide)]; exact congrArg Instr.fsh (getRRR_put _ x hw)
theorem Laws.RoundTrip.clz (x : RRR) : Laws.RoundTrip.Statement (.clz x) := by
  intro w hw he; cases he
  rw [decodeWord, opcodeOf_putRRR _ x (by decide)]; exact congrArg Instr.clz (getRRR_put _ x hw)
theorem Laws.RoundTrip.ctz (x : RRR) : Laws.RoundTrip.Statement (.ctz x) := by
  intro w hw he; cases he
  rw [decodeWord, opcodeOf_putRRR _ x (by decide)]; exact congrArg Instr.ctz (getRRR_put _ x hw)
theorem Laws.RoundTrip.popc (x : RRR) : Laws.RoundTrip.Statement (.popc x) := by
  intro w hw he; cases he
  rw [decodeWord, opcodeOf_putRRR _ x (by decide)]; exact congrArg Instr.popc (getRRR_put _ x hw)
theorem Laws.RoundTrip.brev (x : RRR) : Laws.RoundTrip.Statement (.brev x) := by
  intro w hw he; cases he
  rw [decodeWord, opcodeOf_putRRR _ x (by decide)]; exact congrArg Instr.brev (getRRR_put _ x hw)
theorem Laws.RoundTrip.bfx (x : RRR) : Laws.RoundTrip.Statement (.bfx x) := by
  intro w hw he; cases he
  rw [decodeWord, opcodeOf_putRRR _ x (by decide)]; exact congrArg Instr.bfx (getRRR_put _ x hw)
theorem Laws.RoundTrip.bfi (x : RRR) : Laws.RoundTrip.Statement (.bfi x) := by
  intro w hw he; cases he
  rw [decodeWord, opcodeOf_putRRR _ x (by decide)]; exact congrArg Instr.bfi (getRRR_put _ x hw)
theorem Laws.RoundTrip.lea (x : RRR) : Laws.RoundTrip.Statement (.lea x) := by
  intro w hw he; cases he
  rw [decodeWord, opcodeOf_putRRR _ x (by decide)]; exact congrArg Instr.lea (getRRR_put _ x hw)
theorem Laws.RoundTrip.leaRI (x : RI) : Laws.RoundTrip.Statement (.leaRI x) := by
  intro w hw he; cases he
  rw [decodeWord, opcodeOf_putRI _ x (by decide)]; exact congrArg Instr.leaRI (getRI_put _ x hw)
theorem Laws.RoundTrip.sel (x : RRR) : Laws.RoundTrip.Statement (.sel x) := by
  intro w hw he; cases he
  rw [decodeWord, opcodeOf_putRRR _ x (by decide)]; exact congrArg Instr.sel (getRRR_put _ x hw)
theorem Laws.RoundTrip.cmp (x : RRR) : Laws.RoundTrip.Statement (.cmp x) := by
  intro w hw he; cases he
  rw [decodeWord, opcodeOf_putRRR _ x (by decide)]; exact congrArg Instr.cmp (getRRR_put _ x hw)
theorem Laws.RoundTrip.cmpRI (x : RI) : Laws.RoundTrip.Statement (.cmpRI x) := by
  intro w hw he; cases he
  rw [decodeWord, opcodeOf_putRI _ x (by decide)]; exact congrArg Instr.cmpRI (getRI_put _ x hw)
theorem Laws.RoundTrip.mov (x : RRR) : Laws.RoundTrip.Statement (.mov x) := by
  intro w hw he; cases he
  simp only [Instr.wf, Bool.and_eq_true] at hw
  rw [decodeWord, opcodeOf_putRRR _ x (by decide)]
  show Instr.splitMov (getRRR (putRRR 0x01F x)) = _
  rw [getRRR_put _ x hw.1]
  cases hd : x.hdr.d <;> simp_all [Instr.splitMov, Operand.isSpecial]
theorem Laws.RoundTrip.movi (x : RI) : Laws.RoundTrip.Statement (.movi x) := by
  intro w hw he; cases he
  rw [decodeWord, opcodeOf_putRI _ x (by decide)]; exact congrArg Instr.movi (getRI_put _ x hw)
theorem Laws.RoundTrip.xmWrite (x : RRR) : Laws.RoundTrip.Statement (.xmWrite x) := by
  intro w hw he; cases he
  simp only [Instr.wf, Bool.and_eq_true] at hw
  rw [decodeWord, opcodeOf_putRRR _ x (by decide)]
  show Instr.splitMov (getRRR (putRRR 0x01F x)) = _
  rw [getRRR_put _ x hw.1]; have hd : x.hdr.d = .special 0x00 := by simpa using hw.2
  simp [Instr.splitMov, hd]
theorem Laws.RoundTrip.lrandWrite (x : RRR) : Laws.RoundTrip.Statement (.lrandWrite x) := by
  intro w hw he; cases he
  simp only [Instr.wf, Bool.and_eq_true] at hw
  rw [decodeWord, opcodeOf_putRRR _ x (by decide)]
  show Instr.splitMov (getRRR (putRRR 0x01F x)) = _
  rw [getRRR_put _ x hw.1]; have hd : x.hdr.d = .special 0x0D := by simpa using hw.2
  simp [Instr.splitMov, hd]
theorem Laws.RoundTrip.replaymWrite (x : RRR) : Laws.RoundTrip.Statement (.replaymWrite x) := by
  intro w hw he; cases he
  simp only [Instr.wf, Bool.and_eq_true] at hw
  rw [decodeWord, opcodeOf_putRRR _ x (by decide)]
  show Instr.splitMov (getRRR (putRRR 0x01F x)) = _
  rw [getRRR_put _ x hw.1]; have hd : x.hdr.d = .special 0x0F := by simpa using hw.2
  simp [Instr.splitMov, hd]
theorem Laws.RoundTrip.registerWrite (x : RRR) : Laws.RoundTrip.Statement (.registerWrite x) := by
  intro w hw he; cases he
  simp only [Instr.wf, Bool.and_eq_true] at hw
  rw [decodeWord, opcodeOf_putRRR _ x (by decide)]
  show Instr.splitMov (getRRR (putRRR 0x01F x)) = _
  rw [getRRR_put _ x hw.1.1.1.1]
  obtain ⟨⟨⟨⟨-, hs⟩, h0⟩, hD⟩, hF⟩ := hw
  cases hd : x.hdr.d <;> simp_all [Instr.splitMov, Operand.isSpecial]
theorem Laws.RoundTrip.fadd (x : RRR) : Laws.RoundTrip.Statement (.fadd x) := by
  intro w hw he; cases he
  rw [decodeWord, opcodeOf_putRRR _ x (by decide)]; exact congrArg Instr.fadd (getRRR_put _ x hw)
theorem Laws.RoundTrip.fsub (x : RRR) : Laws.RoundTrip.Statement (.fsub x) := by
  intro w hw he; cases he
  rw [decodeWord, opcodeOf_putRRR _ x (by decide)]; exact congrArg Instr.fsub (getRRR_put _ x hw)
theorem Laws.RoundTrip.fmul (x : RRR) : Laws.RoundTrip.Statement (.fmul x) := by
  intro w hw he; cases he
  rw [decodeWord, opcodeOf_putRRR _ x (by decide)]; exact congrArg Instr.fmul (getRRR_put _ x hw)
theorem Laws.RoundTrip.fma (x : RRR) : Laws.RoundTrip.Statement (.fma x) := by
  intro w hw he; cases he
  rw [decodeWord, opcodeOf_putRRR _ x (by decide)]; exact congrArg Instr.fma (getRRR_put _ x hw)
theorem Laws.RoundTrip.fmin (x : RRR) : Laws.RoundTrip.Statement (.fmin x) := by
  intro w hw he; cases he
  rw [decodeWord, opcodeOf_putRRR _ x (by decide)]; exact congrArg Instr.fmin (getRRR_put _ x hw)
theorem Laws.RoundTrip.fmax (x : RRR) : Laws.RoundTrip.Statement (.fmax x) := by
  intro w hw he; cases he
  rw [decodeWord, opcodeOf_putRRR _ x (by decide)]; exact congrArg Instr.fmax (getRRR_put _ x hw)
theorem Laws.RoundTrip.fcmp (x : RRR) : Laws.RoundTrip.Statement (.fcmp x) := by
  intro w hw he; cases he
  rw [decodeWord, opcodeOf_putRRR _ x (by decide)]; exact congrArg Instr.fcmp (getRRR_put _ x hw)
theorem Laws.RoundTrip.fclass (x : RRR) : Laws.RoundTrip.Statement (.fclass x) := by
  intro w hw he; cases he
  rw [decodeWord, opcodeOf_putRRR _ x (by decide)]; exact congrArg Instr.fclass (getRRR_put _ x hw)
theorem Laws.RoundTrip.fdiv (x : RRR) : Laws.RoundTrip.Statement (.fdiv x) := by
  intro w hw he; cases he
  rw [decodeWord, opcodeOf_putRRR _ x (by decide)]; exact congrArg Instr.fdiv (getRRR_put _ x hw)
theorem Laws.RoundTrip.fsqrt (x : RRR) : Laws.RoundTrip.Statement (.fsqrt x) := by
  intro w hw he; cases he
  rw [decodeWord, opcodeOf_putRRR _ x (by decide)]; exact congrArg Instr.fsqrt (getRRR_put _ x hw)
theorem Laws.RoundTrip.frcp (x : RRR) : Laws.RoundTrip.Statement (.frcp x) := by
  intro w hw he; cases he
  rw [decodeWord, opcodeOf_putRRR _ x (by decide)]; exact congrArg Instr.frcp (getRRR_put _ x hw)
theorem Laws.RoundTrip.frsq (x : RRR) : Laws.RoundTrip.Statement (.frsq x) := by
  intro w hw he; cases he
  rw [decodeWord, opcodeOf_putRRR _ x (by decide)]; exact congrArg Instr.frsq (getRRR_put _ x hw)
theorem Laws.RoundTrip.fexp (x : RRR) : Laws.RoundTrip.Statement (.fexp x) := by
  intro w hw he; cases he
  rw [decodeWord, opcodeOf_putRRR _ x (by decide)]; exact congrArg Instr.fexp (getRRR_put _ x hw)
theorem Laws.RoundTrip.flog (x : RRR) : Laws.RoundTrip.Statement (.flog x) := by
  intro w hw he; cases he
  rw [decodeWord, opcodeOf_putRRR _ x (by decide)]; exact congrArg Instr.flog (getRRR_put _ x hw)
theorem Laws.RoundTrip.fsin (x : RRR) : Laws.RoundTrip.Statement (.fsin x) := by
  intro w hw he; cases he
  rw [decodeWord, opcodeOf_putRRR _ x (by decide)]; exact congrArg Instr.fsin (getRRR_put _ x hw)
theorem Laws.RoundTrip.fcos (x : RRR) : Laws.RoundTrip.Statement (.fcos x) := by
  intro w hw he; cases he
  rw [decodeWord, opcodeOf_putRRR _ x (by decide)]; exact congrArg Instr.fcos (getRRR_put _ x hw)
theorem Laws.RoundTrip.ftanh (x : RRR) : Laws.RoundTrip.Statement (.ftanh x) := by
  intro w hw he; cases he
  rw [decodeWord, opcodeOf_putRRR _ x (by decide)]; exact congrArg Instr.ftanh (getRRR_put _ x hw)
theorem Laws.RoundTrip.ferf (x : RRR) : Laws.RoundTrip.Statement (.ferf x) := by
  intro w hw he; cases he
  rw [decodeWord, opcodeOf_putRRR _ x (by decide)]; exact congrArg Instr.ferf (getRRR_put _ x hw)
theorem Laws.RoundTrip.frnd (x : RRR) : Laws.RoundTrip.Statement (.frnd x) := by
  intro w hw he; cases he
  rw [decodeWord, opcodeOf_putRRR _ x (by decide)]; exact congrArg Instr.frnd (getRRR_put _ x hw)
theorem Laws.RoundTrip.cvt (x : RI) : Laws.RoundTrip.Statement (.cvt x) := by
  intro w hw he; cases he
  rw [decodeWord, opcodeOf_putRI _ x (by decide)]; exact congrArg Instr.cvt (getRI_put _ x hw)
theorem Laws.RoundTrip.vote (x : RRR) : Laws.RoundTrip.Statement (.vote x) := by
  intro w hw he; cases he
  rw [decodeWord, opcodeOf_putRRR _ x (by decide)]; exact congrArg Instr.vote (getRRR_put _ x hw)
theorem Laws.RoundTrip.shfl (x : RRR) : Laws.RoundTrip.Statement (.shfl x) := by
  intro w hw he; cases he
  rw [decodeWord, opcodeOf_putRRR _ x (by decide)]; exact congrArg Instr.shfl (getRRR_put _ x hw)
theorem Laws.RoundTrip.lsh (x : RRR) : Laws.RoundTrip.Statement (.lsh x) := by
  intro w hw he; cases he
  rw [decodeWord, opcodeOf_putRRR _ x (by decide)]; exact congrArg Instr.lsh (getRRR_put _ x hw)
theorem Laws.RoundTrip.perm (x : RRR) : Laws.RoundTrip.Statement (.perm x) := by
  intro w hw he; cases he
  rw [decodeWord, opcodeOf_putRRR _ x (by decide)]; exact congrArg Instr.perm (getRRR_put _ x hw)
theorem Laws.RoundTrip.ptld (x : RRR) : Laws.RoundTrip.Statement (.ptld x) := by
  intro w hw he; cases he
  rw [decodeWord, opcodeOf_putRRR _ x (by decide)]; exact congrArg Instr.ptld (getRRR_put _ x hw)
theorem Laws.RoundTrip.lred (x : RRR) : Laws.RoundTrip.Statement (.lred x) := by
  intro w hw he; cases he
  rw [decodeWord, opcodeOf_putRRR _ x (by decide)]; exact congrArg Instr.lred (getRRR_put _ x hw)
theorem Laws.RoundTrip.lscan (x : RRR) : Laws.RoundTrip.Statement (.lscan x) := by
  intro w hw he; cases he
  rw [decodeWord, opcodeOf_putRRR _ x (by decide)]; exact congrArg Instr.lscan (getRRR_put _ x hw)
theorem Laws.RoundTrip.matchLanes (x : RRR) : Laws.RoundTrip.Statement (.matchLanes x) := by
  intro w hw he; cases he
  rw [decodeWord, opcodeOf_putRRR _ x (by decide)]; exact congrArg Instr.matchLanes (getRRR_put _ x hw)
theorem Laws.RoundTrip.plog (x : RRR) : Laws.RoundTrip.Statement (.plog x) := by
  intro w hw he; cases he
  rw [decodeWord, opcodeOf_putRRR _ x (by decide)]; exact congrArg Instr.plog (getRRR_put _ x hw)
theorem Laws.RoundTrip.bra (x : BFmt) : Laws.RoundTrip.Statement (.bra x) := by
  intro w hw he; cases he
  rw [decodeWord, opcodeOf_putB _ x (by decide)]; exact congrArg Instr.bra (getB_put _ x hw)
theorem Laws.RoundTrip.brx (x : RRR) : Laws.RoundTrip.Statement (.brx x) := by
  intro w hw he; cases he
  rw [decodeWord, opcodeOf_putRRR _ x (by decide)]; exact congrArg Instr.brx (getRRR_put _ x hw)
theorem Laws.RoundTrip.call (x : BFmt) : Laws.RoundTrip.Statement (.call x) := by
  intro w hw he; cases he
  rw [decodeWord, opcodeOf_putB _ x (by decide)]; exact congrArg Instr.call (getB_put _ x hw)
theorem Laws.RoundTrip.ret (x : RRR) : Laws.RoundTrip.Statement (.ret x) := by
  intro w hw he; cases he
  rw [decodeWord, opcodeOf_putRRR _ x (by decide)]; exact congrArg Instr.ret (getRRR_put _ x hw)
theorem Laws.RoundTrip.join (x : BFmt) : Laws.RoundTrip.Statement (.join x) := by
  intro w hw he; cases he
  rw [decodeWord, opcodeOf_putB _ x (by decide)]; exact congrArg Instr.join (getB_put _ x hw)
theorem Laws.RoundTrip.rwait (x : RRR) : Laws.RoundTrip.Statement (.rwait x) := by
  intro w hw he; cases he
  rw [decodeWord, opcodeOf_putRRR _ x (by decide)]; exact congrArg Instr.rwait (getRRR_put _ x hw)
theorem Laws.RoundTrip.rwaitBudgetExpiry (g : Nat) : Laws.RoundTrip.Statement (.rwaitBudgetExpiry g) := Laws.RoundTrip.of_none rfl
theorem Laws.RoundTrip.brk (x : RRR) : Laws.RoundTrip.Statement (.brk x) := by
  intro w hw he; cases he
  rw [decodeWord, opcodeOf_putRRR _ x (by decide)]; exact congrArg Instr.brk (getRRR_put _ x hw)
theorem Laws.RoundTrip.exit (x : RRR) : Laws.RoundTrip.Statement (.exit x) := by
  intro w hw he; cases he
  rw [decodeWord, opcodeOf_putRRR _ x (by decide)]; exact congrArg Instr.exit (getRRR_put _ x hw)
theorem Laws.RoundTrip.yield (x : RRR) : Laws.RoundTrip.Statement (.yield x) := by
  intro w hw he; cases he
  rw [decodeWord, opcodeOf_putRRR _ x (by decide)]; exact congrArg Instr.yield (getRRR_put _ x hw)
theorem Laws.RoundTrip.nop (x : RRR) : Laws.RoundTrip.Statement (.nop x) := by
  intro w hw he; cases he
  rw [decodeWord, opcodeOf_putRRR _ x (by decide)]; exact congrArg Instr.nop (getRRR_put _ x hw)
theorem Laws.RoundTrip.dispatch (x : BFmt) : Laws.RoundTrip.Statement (.dispatch x) := by
  intro w hw he; cases he
  rw [decodeWord, opcodeOf_putB _ x (by decide)]; exact congrArg Instr.dispatch (getB_put _ x hw)
theorem Laws.RoundTrip.spawn (x : GFmt) : Laws.RoundTrip.Statement (.spawn x) := by
  intro w hw he; cases he
  rw [decodeWord, opcodeOf_putG _ x (by decide)]; exact congrArg Instr.spawn (getG_put _ x hw)
theorem Laws.RoundTrip.spawng (x : GFmt) : Laws.RoundTrip.Statement (.spawng x) := by
  intro w hw he; cases he
  rw [decodeWord, opcodeOf_putG _ x (by decide)]; exact congrArg Instr.spawng (getG_put _ x hw)
theorem Laws.RoundTrip.spawnv (x : GFmt) : Laws.RoundTrip.Statement (.spawnv x) := by
  intro w hw he; cases he
  rw [decodeWord, opcodeOf_putG _ x (by decide)]; exact congrArg Instr.spawnv (getG_put _ x hw)
theorem Laws.RoundTrip.await (x : BFmt) : Laws.RoundTrip.Statement (.await x) := by
  intro w hw he; cases he
  rw [decodeWord, opcodeOf_putB _ x (by decide)]; exact congrArg Instr.await (getB_put _ x hw)
theorem Laws.RoundTrip.awaita (x : BFmt) : Laws.RoundTrip.Statement (.awaita x) := by
  intro w hw he; cases he
  rw [decodeWord, opcodeOf_putB _ x (by decide)]; exact congrArg Instr.awaita (getB_put _ x hw)
theorem Laws.RoundTrip.testf (x : RRR) : Laws.RoundTrip.Statement (.testf x) := by
  intro w hw he; cases he
  rw [decodeWord, opcodeOf_putRRR _ x (by decide)]; exact congrArg Instr.testf (getRRR_put _ x hw)
theorem Laws.RoundTrip.cancel (x : RRR) : Laws.RoundTrip.Statement (.cancel x) := by
  intro w hw he; cases he
  rw [decodeWord, opcodeOf_putRRR _ x (by decide)]; exact congrArg Instr.cancel (getRRR_put _ x hw)
theorem Laws.RoundTrip.retv (x : RRR) : Laws.RoundTrip.Statement (.retv x) := by
  intro w hw he; cases he
  rw [decodeWord, opcodeOf_putRRR _ x (by decide)]; exact congrArg Instr.retv (getRRR_put _ x hw)
theorem Laws.RoundTrip.trecord (x : GFmt) : Laws.RoundTrip.Statement (.trecord x) := by
  intro w hw he; cases he
  rw [decodeWord, opcodeOf_putG _ x (by decide)]; exact congrArg Instr.trecord (getG_put _ x hw)
theorem Laws.RoundTrip.shput (x : RRR) : Laws.RoundTrip.Statement (.shput x) := by
  intro w hw he; cases he
  rw [decodeWord, opcodeOf_putRRR _ x (by decide)]; exact congrArg Instr.shput (getRRR_put _ x hw)
theorem Laws.RoundTrip.shtake (x : RRR) : Laws.RoundTrip.Statement (.shtake x) := by
  intro w hw he; cases he
  rw [decodeWord, opcodeOf_putRRR _ x (by decide)]; exact congrArg Instr.shtake (getRRR_put _ x hw)
theorem Laws.RoundTrip.shdepth (x : RRR) : Laws.RoundTrip.Statement (.shdepth x) := by
  intro w hw he; cases he
  rw [decodeWord, opcodeOf_putRRR _ x (by decide)]; exact congrArg Instr.shdepth (getRRR_put _ x hw)
theorem Laws.RoundTrip.shbind (x : RRR) : Laws.RoundTrip.Statement (.shbind x) := by
  intro w hw he; cases he
  rw [decodeWord, opcodeOf_putRRR _ x (by decide)]; exact congrArg Instr.shbind (getRRR_put _ x hw)
theorem Laws.RoundTrip.shprio (x : RRR) : Laws.RoundTrip.Statement (.shprio x) := by
  intro w hw he; cases he
  rw [decodeWord, opcodeOf_putRRR _ x (by decide)]; exact congrArg Instr.shprio (getRRR_put _ x hw)
theorem Laws.RoundTrip.modnew (x : RRR) : Laws.RoundTrip.Statement (.modnew x) := by
  intro w hw he; cases he
  rw [decodeWord, opcodeOf_putRRR _ x (by decide)]; exact congrArg Instr.modnew (getRRR_put _ x hw)
theorem Laws.RoundTrip.modfree (x : RRR) : Laws.RoundTrip.Statement (.modfree x) := by
  intro w hw he; cases he
  rw [decodeWord, opcodeOf_putRRR _ x (by decide)]; exact congrArg Instr.modfree (getRRR_put _ x hw)
theorem Laws.RoundTrip.modset (x : MFmt) : Laws.RoundTrip.Statement (.modset x) := by
  intro w hw he; cases he
  rw [decodeWord, opcodeOf_putM _ x (by decide)]; exact congrArg Instr.modset (getM_put _ x hw)
theorem Laws.RoundTrip.modsetHeldCompare : Laws.RoundTrip.Statement .modsetHeldCompare := Laws.RoundTrip.of_none rfl
theorem Laws.RoundTrip.propagate (x : RRR) : Laws.RoundTrip.Statement (.propagate x) := by
  intro w hw he; cases he
  rw [decodeWord, opcodeOf_putRRR _ x (by decide)]; exact congrArg Instr.propagate (getRRR_put _ x hw)
theorem Laws.RoundTrip.propagationBegin (t : Nat) : Laws.RoundTrip.Statement (.propagationBegin t) := Laws.RoundTrip.of_none rfl
theorem Laws.RoundTrip.reexecDispatch (t f carrel : Nat) : Laws.RoundTrip.Statement (.reexecDispatch t f carrel) := Laws.RoundTrip.of_none rfl
theorem Laws.RoundTrip.tdrop (x : RRR) : Laws.RoundTrip.Statement (.tdrop x) := by
  intro w hw he; cases he
  rw [decodeWord, opcodeOf_putRRR _ x (by decide)]; exact congrArg Instr.tdrop (getRRR_put _ x hw)
theorem Laws.RoundTrip.tstat (x : RRR) : Laws.RoundTrip.Statement (.tstat x) := by
  intro w hw he; cases he
  rw [decodeWord, opcodeOf_putRRR _ x (by decide)]; exact congrArg Instr.tstat (getRRR_put _ x hw)
theorem Laws.RoundTrip.tkey (x : RRR) : Laws.RoundTrip.Statement (.tkey x) := by
  intro w hw he; cases he
  rw [decodeWord, opcodeOf_putRRR _ x (by decide)]; exact congrArg Instr.tkey (getRRR_put _ x hw)
theorem Laws.RoundTrip.qend (x : RRR) : Laws.RoundTrip.Statement (.qend x) := by
  intro w hw he; cases he
  rw [decodeWord, opcodeOf_putRRR _ x (by decide)]; exact congrArg Instr.qend (getRRR_put _ x hw)
theorem Laws.RoundTrip.ld (x : MFmt) : Laws.RoundTrip.Statement (.ld x) := by
  intro w hw he; cases he
  rw [decodeWord, opcodeOf_putM _ x (by decide)]; exact congrArg Instr.ld (getM_put _ x hw)
theorem Laws.RoundTrip.st (x : MFmt) : Laws.RoundTrip.Statement (.st x) := by
  intro w hw he; cases he
  rw [decodeWord, opcodeOf_putM _ x (by decide)]; exact congrArg Instr.st (getM_put _ x hw)
theorem Laws.RoundTrip.ldv (x : MFmt) : Laws.RoundTrip.Statement (.ldv x) := by
  intro w hw he; cases he
  rw [decodeWord, opcodeOf_putM _ x (by decide)]; exact congrArg Instr.ldv (getM_put _ x hw)
theorem Laws.RoundTrip.stv (x : MFmt) : Laws.RoundTrip.Statement (.stv x) := by
  intro w hw he; cases he
  rw [decodeWord, opcodeOf_putM _ x (by decide)]; exact congrArg Instr.stv (getM_put _ x hw)
theorem Laws.RoundTrip.pref (x : MFmt) : Laws.RoundTrip.Statement (.pref x) := by
  intro w hw he; cases he
  rw [decodeWord, opcodeOf_putM _ x (by decide)]; exact congrArg Instr.pref (getM_put _ x hw)
theorem Laws.RoundTrip.ldx (x : MSFmt) : Laws.RoundTrip.Statement (.ldx x) := by
  intro w hw he; cases he
  rw [decodeWord, opcodeOf_putMS _ x (by decide)]; exact congrArg Instr.ldx (getMS_put _ x hw)
theorem Laws.RoundTrip.stx (x : MSFmt) : Laws.RoundTrip.Statement (.stx x) := by
  intro w hw he; cases he
  rw [decodeWord, opcodeOf_putMS _ x (by decide)]; exact congrArg Instr.stx (getMS_put _ x hw)
theorem Laws.RoundTrip.atom (x : MSFmt) : Laws.RoundTrip.Statement (.atom x) := by
  intro w hw he; cases he
  rw [decodeWord, opcodeOf_putMS _ x (by decide)]; exact congrArg Instr.atom (getMS_put _ x hw)
theorem Laws.RoundTrip.mwait (x : MSFmt) : Laws.RoundTrip.Statement (.mwait x) := by
  intro w hw he; cases he
  rw [decodeWord, opcodeOf_putMS _ x (by decide)]; exact congrArg Instr.mwait (getMS_put _ x hw)
theorem Laws.RoundTrip.mwaitTimeout (g : Nat) (younger : Bool) : Laws.RoundTrip.Statement (.mwaitTimeout g younger) := Laws.RoundTrip.of_none rfl
theorem Laws.RoundTrip.ldlbl (x : MFmt) : Laws.RoundTrip.Statement (.ldlbl x) := by
  intro w hw he; cases he
  rw [decodeWord, opcodeOf_putM _ x (by decide)]; exact congrArg Instr.ldlbl (getM_put _ x hw)
theorem Laws.RoundTrip.stlbl (x : MFmt) : Laws.RoundTrip.Statement (.stlbl x) := by
  intro w hw he; cases he
  rw [decodeWord, opcodeOf_putM _ x (by decide)]; exact congrArg Instr.stlbl (getM_put _ x hw)
theorem Laws.RoundTrip.bar (x : RRR) : Laws.RoundTrip.Statement (.bar x) := by
  intro w hw he; cases he
  rw [decodeWord, opcodeOf_putRRR _ x (by decide)]; exact congrArg Instr.bar (getRRR_put _ x hw)
theorem Laws.RoundTrip.bara (x : RRR) : Laws.RoundTrip.Statement (.bara x) := by
  intro w hw he; cases he
  rw [decodeWord, opcodeOf_putRRR _ x (by decide)]; exact congrArg Instr.bara (getRRR_put _ x hw)
theorem Laws.RoundTrip.barw (x : RRR) : Laws.RoundTrip.Statement (.barw x) := by
  intro w hw he; cases he
  rw [decodeWord, opcodeOf_putRRR _ x (by decide)]; exact congrArg Instr.barw (getRRR_put _ x hw)
theorem Laws.RoundTrip.hashrd (x : RRR) : Laws.RoundTrip.Statement (.hashrd x) := by
  intro w hw he; cases he
  rw [decodeWord, opcodeOf_putRRR _ x (by decide)]; exact congrArg Instr.hashrd (getRRR_put _ x hw)
theorem Laws.RoundTrip.hashclr (x : RRR) : Laws.RoundTrip.Statement (.hashclr x) := by
  intro w hw he; cases he
  rw [decodeWord, opcodeOf_putRRR _ x (by decide)]; exact congrArg Instr.hashclr (getRRR_put _ x hw)
theorem Laws.RoundTrip.tcfg (x : RRR) : Laws.RoundTrip.Statement (.tcfg x) := by
  intro w hw he; cases he
  rw [decodeWord, opcodeOf_putRRR _ x (by decide)]; exact congrArg Instr.tcfg (getRRR_put _ x hw)
theorem Laws.RoundTrip.mma (x : EFmt) : Laws.RoundTrip.Statement (.mma x) := by
  intro w hw he; cases he
  rw [decodeWord, opcodeOf_putE _ x (by decide)]; exact congrArg Instr.mma (getE_put _ x hw)
theorem Laws.RoundTrip.mmac (x : EFmt) : Laws.RoundTrip.Statement (.mmac x) := by
  intro w hw he; cases he
  rw [decodeWord, opcodeOf_putE _ x (by decide)]; exact congrArg Instr.mmac (getE_put _ x hw)
theorem Laws.RoundTrip.aclr (x : EFmt) : Laws.RoundTrip.Statement (.aclr x) := by
  intro w hw he; cases he
  rw [decodeWord, opcodeOf_putE _ x (by decide)]; exact congrArg Instr.aclr (getE_put _ x hw)
theorem Laws.RoundTrip.ald (x : EFmt) : Laws.RoundTrip.Statement (.ald x) := by
  intro w hw he; cases he
  rw [decodeWord, opcodeOf_putE _ x (by decide)]; exact congrArg Instr.ald (getE_put _ x hw)
theorem Laws.RoundTrip.ast (x : EFmt) : Laws.RoundTrip.Statement (.ast x) := by
  intro w hw he; cases he
  rw [decodeWord, opcodeOf_putE _ x (by decide)]; exact congrArg Instr.ast (getE_put _ x hw)
theorem Laws.RoundTrip.drain (x : EFmt) : Laws.RoundTrip.Statement (.drain x) := by
  intro w hw he; cases he
  simp only [Instr.wf, Bool.and_eq_true] at hw
  rw [decodeWord, opcodeOf_putE _ x (by decide)]
  show Instr.splitDrain (getE (putE 0x146 x)) = _
  rw [getE_put _ x hw.1]; simp_all [Instr.splitDrain]
theorem Laws.RoundTrip.drainAdd (x : EFmt) : Laws.RoundTrip.Statement (.drainAdd x) := by
  intro w hw he; cases he
  simp only [Instr.wf, Bool.and_eq_true] at hw
  rw [decodeWord, opcodeOf_putE _ x (by decide)]
  show Instr.splitDrain (getE (putE 0x146 x)) = _
  rw [getE_put _ x hw.1]; simp_all [Instr.splitDrain]
theorem Laws.RoundTrip.xformFwd (x : EFmt) : Laws.RoundTrip.Statement (.xformFwd x) := by
  intro w hw he; cases he
  simp only [Instr.wf, Bool.and_eq_true] at hw
  rw [decodeWord, opcodeOf_putE _ x (by decide)]
  show Instr.splitXform (getE (putE 0x147 x)) = _
  rw [getE_put _ x hw.1]; simp_all [Instr.splitXform]
theorem Laws.RoundTrip.xformInv (x : EFmt) : Laws.RoundTrip.Statement (.xformInv x) := by
  intro w hw he; cases he
  simp only [Instr.wf, Bool.and_eq_true] at hw
  rw [decodeWord, opcodeOf_putE _ x (by decide)]
  show Instr.splitXform (getE (putE 0x147 x)) = _
  rw [getE_put _ x hw.1]; simp_all [Instr.splitXform]
theorem Laws.RoundTrip.copy (x : EFmt) : Laws.RoundTrip.Statement (.copy x) := by
  intro w hw he; cases he
  rw [decodeWord, opcodeOf_putE _ x (by decide)]; exact congrArg Instr.copy (getE_put _ x hw)
theorem Laws.RoundTrip.copyt (x : EFmt) : Laws.RoundTrip.Statement (.copyt x) := by
  intro w hw he; cases he
  rw [decodeWord, opcodeOf_putE _ x (by decide)]; exact congrArg Instr.copyt (getE_put _ x hw)
theorem Laws.RoundTrip.copyf (x : EFmt) : Laws.RoundTrip.Statement (.copyf x) := by
  intro w hw he; cases he
  rw [decodeWord, opcodeOf_putE _ x (by decide)]; exact congrArg Instr.copyf (getE_put _ x hw)
theorem Laws.RoundTrip.job (x : EFmt) : Laws.RoundTrip.Statement (.job x) := by
  intro w hw he; cases he
  rw [decodeWord, opcodeOf_putE _ x (by decide)]; exact congrArg Instr.job (getE_put _ x hw)
theorem Laws.RoundTrip.bufexp (x : RRR) : Laws.RoundTrip.Statement (.bufexp x) := by
  intro w hw he; cases he
  rw [decodeWord, opcodeOf_putRRR _ x (by decide)]; exact congrArg Instr.bufexp (getRRR_put _ x hw)
theorem Laws.RoundTrip.bufget (x : RRR) : Laws.RoundTrip.Statement (.bufget x) := by
  intro w hw he; cases he
  rw [decodeWord, opcodeOf_putRRR _ x (by decide)]; exact congrArg Instr.bufget (getRRR_put _ x hw)
theorem Laws.RoundTrip.bufrel (x : RRR) : Laws.RoundTrip.Statement (.bufrel x) := by
  intro w hw he; cases he
  simp only [Instr.wf, Bool.and_eq_true] at hw
  rw [decodeWord, opcodeOf_putRRR _ x (by decide)]
  show Instr.splitBufrel (getRRR (putRRR 0x15A x)) = _
  rw [getRRR_put _ x hw.1]; simp_all [Instr.splitBufrel]
theorem Laws.RoundTrip.bufrelAbort (x : RRR) : Laws.RoundTrip.Statement (.bufrelAbort x) := by
  intro w hw he; cases he
  simp only [Instr.wf, Bool.and_eq_true] at hw
  rw [decodeWord, opcodeOf_putRRR _ x (by decide)]
  show Instr.splitBufrel (getRRR (putRRR 0x15A x)) = _
  rw [getRRR_put _ x hw.1]; simp_all [Instr.splitBufrel]
theorem Laws.RoundTrip.bufst (x : RRR) : Laws.RoundTrip.Statement (.bufst x) := by
  intro w hw he; cases he
  rw [decodeWord, opcodeOf_putRRR _ x (by decide)]; exact congrArg Instr.bufst (getRRR_put _ x hw)
theorem Laws.RoundTrip.sysr (x : RI) : Laws.RoundTrip.Statement (.sysr x) := by
  intro w hw he; cases he
  rw [decodeWord, opcodeOf_putRI _ x (by decide)]; exact congrArg Instr.sysr (getRI_put _ x hw)
theorem Laws.RoundTrip.sysw (x : RI) : Laws.RoundTrip.Statement (.sysw x) := by
  intro w hw he; cases he
  simp only [Instr.wf, Bool.and_eq_true] at hw
  rw [decodeWord, opcodeOf_putRI _ x (by decide)]
  show Instr.splitSysw (getRI (putRI 0x181 x)) = _
  rw [getRI_put _ x hw.1]; simp_all [Instr.splitSysw]
theorem Laws.RoundTrip.pmselWrite (x : RI) : Laws.RoundTrip.Statement (.pmselWrite x) := by
  intro w hw he; cases he
  simp only [Instr.wf, Bool.and_eq_true] at hw
  rw [decodeWord, opcodeOf_putRI _ x (by decide)]
  show Instr.splitSysw (getRI (putRI 0x181 x)) = _
  rw [getRI_put _ x hw.1]; simp_all [Instr.splitSysw]
theorem Laws.RoundTrip.trap (x : RI) : Laws.RoundTrip.Statement (.trap x) := by
  intro w hw he; cases he
  rw [decodeWord, opcodeOf_putRI _ x (by decide)]; exact congrArg Instr.trap (getRI_put _ x hw)
theorem Laws.RoundTrip.tret (x : RRR) : Laws.RoundTrip.Statement (.tret x) := by
  intro w hw he; cases he
  rw [decodeWord, opcodeOf_putRRR _ x (by decide)]; exact congrArg Instr.tret (getRRR_put _ x hw)
theorem Laws.RoundTrip.phint (x : BFmt) : Laws.RoundTrip.Statement (.phint x) := by
  intro w hw he; cases he
  rw [decodeWord, opcodeOf_putB _ x (by decide)]; exact congrArg Instr.phint (getB_put _ x hw)
theorem Laws.RoundTrip.bkpt (x : RRR) : Laws.RoundTrip.Statement (.bkpt x) := by
  intro w hw he; cases he
  rw [decodeWord, opcodeOf_putRRR _ x (by decide)]; exact congrArg Instr.bkpt (getRRR_put _ x hw)
theorem Laws.RoundTrip.loadReturn (g n : Nat) : Laws.RoundTrip.Statement (.loadReturn g n) := Laws.RoundTrip.of_none rfl
theorem Laws.RoundTrip.launchPacket (header : Nat) : Laws.RoundTrip.Statement (.launchPacket header) := Laws.RoundTrip.of_none rfl
theorem Laws.RoundTrip.launchComplete (l : Nat) : Laws.RoundTrip.Statement (.launchComplete l) := Laws.RoundTrip.of_none rfl
theorem Laws.RoundTrip.taskDispatch (carrel quarter slot : Nat) : Laws.RoundTrip.Statement (.taskDispatch carrel quarter slot) := Laws.RoundTrip.of_none rfl
theorem Laws.RoundTrip.continuationResume (frame carrel quarter slot : Nat) : Laws.RoundTrip.Statement (.continuationResume frame carrel quarter slot) := Laws.RoundTrip.of_none rfl
theorem Laws.RoundTrip.galleryModeChange (gallery : Nat) (fused : Bool) : Laws.RoundTrip.Statement (.galleryModeChange gallery fused) := Laws.RoundTrip.of_none rfl
theorem Laws.RoundTrip.cardTake (j : Nat) : Laws.RoundTrip.Statement (.cardTake j) := Laws.RoundTrip.of_none rfl
theorem Laws.RoundTrip.copyChunk (j : Nat) : Laws.RoundTrip.Statement (.copyChunk j) := Laws.RoundTrip.of_none rfl
theorem Laws.RoundTrip.tensorCopyChunk (j : Nat) : Laws.RoundTrip.Statement (.tensorCopyChunk j) := Laws.RoundTrip.of_none rfl
theorem Laws.RoundTrip.inflateJob (j : Nat) : Laws.RoundTrip.Statement (.inflateJob j) := Laws.RoundTrip.of_none rfl
theorem Laws.RoundTrip.drainTileRead (carrel : Nat) : Laws.RoundTrip.Statement (.drainTileRead carrel) := Laws.RoundTrip.of_none rfl
theorem Laws.RoundTrip.jobComplete (j : Nat) : Laws.RoundTrip.Statement (.jobComplete j) := Laws.RoundTrip.of_none rfl
theorem Laws.RoundTrip.crcRetry (j : Nat) : Laws.RoundTrip.Statement (.crcRetry j) := Laws.RoundTrip.of_none rfl
theorem Laws.RoundTrip.sequencerStep (carrel : Nat) : Laws.RoundTrip.Statement (.sequencerStep carrel) := Laws.RoundTrip.of_none rfl
theorem Laws.RoundTrip.xuStep (carrel : Nat) : Laws.RoundTrip.Statement (.xuStep carrel) := Laws.RoundTrip.of_none rfl
theorem Laws.RoundTrip.haltLine : Laws.RoundTrip.Statement .haltLine := Laws.RoundTrip.of_none rfl
theorem Laws.RoundTrip.contextResume : Laws.RoundTrip.Statement .contextResume := Laws.RoundTrip.of_none rfl
theorem Laws.RoundTrip.contextTerminate : Laws.RoundTrip.Statement .contextTerminate := Laws.RoundTrip.of_none rfl
theorem Laws.RoundTrip.traceFaultResponse : Laws.RoundTrip.Statement .traceFaultResponse := Laws.RoundTrip.of_none rfl
theorem Laws.RoundTrip.sliceEnd : Laws.RoundTrip.Statement .sliceEnd := Laws.RoundTrip.of_none rfl
theorem Laws.RoundTrip.graceWindowClose : Laws.RoundTrip.Statement .graceWindowClose := Laws.RoundTrip.of_none rfl
theorem Laws.RoundTrip.contextRestore (ctx : Nat) : Laws.RoundTrip.Statement (.contextRestore ctx) := Laws.RoundTrip.of_none rfl
theorem Laws.RoundTrip.singleStep (g : Nat) : Laws.RoundTrip.Statement (.singleStep g) := Laws.RoundTrip.of_none rfl
theorem Laws.RoundTrip.relabel (t : Nat) : Laws.RoundTrip.Statement (.relabel t) := Laws.RoundTrip.of_none rfl
theorem Laws.RoundTrip.translationInvalidate (va size : Nat) : Laws.RoundTrip.Statement (.translationInvalidate va size) := Laws.RoundTrip.of_none rfl
theorem Laws.RoundTrip.codeObjectLoad (o : CodeObject) : Laws.RoundTrip.Statement (.codeObjectLoad o) := Laws.RoundTrip.of_none rfl
theorem Laws.RoundTrip.packageReset (image : BootImage) (layout : Partition) : Laws.RoundTrip.Statement (.packageReset image layout) := Laws.RoundTrip.of_none rfl
theorem Laws.RoundTrip.rmaWrite (from_ : Sender) (vi pa : Nat) (data : List Byte) : Laws.RoundTrip.Statement (.rmaWrite from_ vi pa data) := Laws.RoundTrip.of_none rfl
theorem Laws.RoundTrip.rmaRead (from_ : Sender) (vi pa len : Nat) : Laws.RoundTrip.Statement (.rmaRead from_ vi pa len) := Laws.RoundTrip.of_none rfl
theorem Laws.RoundTrip.rmaAtomic (from_ : Sender) (vi pa : Nat) (op : RmaOp) : Laws.RoundTrip.Statement (.rmaAtomic from_ vi pa op) := Laws.RoundTrip.of_none rfl
theorem Laws.RoundTrip.queueSend (from_ : Sender) (vi : Nat) (kind : QueueKind) (header : Nat) (slot : List Byte) : Laws.RoundTrip.Statement (.queueSend from_ vi kind header slot) := Laws.RoundTrip.of_none rfl
theorem Laws.RoundTrip.attachRequest (vi : Nat) : Laws.RoundTrip.Statement (.attachRequest vi) := Laws.RoundTrip.of_none rfl
theorem Laws.RoundTrip.quoteRequest (vi : Nat) : Laws.RoundTrip.Statement (.quoteRequest vi) := Laws.RoundTrip.of_none rfl
theorem Laws.RoundTrip.createContext (vi : Nat) (x : Layout) : Laws.RoundTrip.Statement (.createContext vi x) := Laws.RoundTrip.of_none rfl
theorem Laws.RoundTrip.destroyContext (vi : Nat) : Laws.RoundTrip.Statement (.destroyContext vi) := Laws.RoundTrip.of_none rfl
theorem Laws.RoundTrip.createLaunchQueue (vi : Nat) : Laws.RoundTrip.Statement (.createLaunchQueue vi) := Laws.RoundTrip.of_none rfl
theorem Laws.RoundTrip.createShelfEntry (vi : Nat) : Laws.RoundTrip.Statement (.createShelfEntry vi) := Laws.RoundTrip.of_none rfl
theorem Laws.RoundTrip.setQuota (vi : Nat) : Laws.RoundTrip.Statement (.setQuota vi) := Laws.RoundTrip.of_none rfl
theorem Laws.RoundTrip.startMigrationRound (vi : Nat) : Laws.RoundTrip.Statement (.startMigrationRound vi) := Laws.RoundTrip.of_none rfl
theorem Laws.RoundTrip.finalRound (vi : Nat) : Laws.RoundTrip.Statement (.finalRound vi) := Laws.RoundTrip.of_none rfl
theorem Laws.RoundTrip.reportCopyQueue (vi : Nat) : Laws.RoundTrip.Statement (.reportCopyQueue vi) := Laws.RoundTrip.of_none rfl
theorem Laws.RoundTrip.carrelGate (carrel : Nat) : Laws.RoundTrip.Statement (.carrelGate carrel) := Laws.RoundTrip.of_none rfl
theorem Laws.RoundTrip.carrelWake (carrel : Nat) : Laws.RoundTrip.Statement (.carrelWake carrel) := Laws.RoundTrip.of_none rfl
theorem Laws.RoundTrip.unassignedOpcode (raw : IWord) : Laws.RoundTrip.Statement (.unassignedOpcode raw) := by
  intro w hw he; cases he
  simp only [Instr.wf, Bool.not_eq_true'] at hw
  unfold decodeWord
  split
  all_goals first
    | rfl
    | (rename_i h; simp only [opcodeOf] at h; rw [h] at hw; exact absurd hw (by decide))
theorem Laws.RoundTrip.instructionFetchFault (kind : FetchFault) (addr : DWord) : Laws.RoundTrip.Statement (.instructionFetchFault kind addr) := Laws.RoundTrip.of_none rfl
theorem Laws.RoundTrip.gangResume (g : Nat) : Laws.RoundTrip.Statement (.gangResume g) := Laws.RoundTrip.of_none rfl
theorem Laws.RoundTrip.accessTableChange (vi : Nat) (t : Target) (ranges : List AccessRange) (owner : Bool) : Laws.RoundTrip.Statement (.accessTableChange vi t ranges owner) := Laws.RoundTrip.of_none rfl
theorem Laws.RoundTrip.nvmeOverFabricsCommand (vi : Nat) (command : List Byte) : Laws.RoundTrip.Statement (.nvmeOverFabricsCommand vi command) := Laws.RoundTrip.of_none rfl

end Sys2Proof
end

