-- ==== Sys2Proof/Machine/Ledger.lean ====
section
/-! DEFINITION. What stands byte for byte in the Archive region: the trace header (R62),
folios (R65), record runs (R66), the Catalogue (R67). Each is a view of `Trace`, `Folio`
and `Record`, which hold the same things as data; the indices that link them are the device's (log 100). -/

namespace Sys2Proof.Machine

open Sys2Proof

/-- Folio slot 0 of a trace (R62). -/
def State.headerBytes (s : State) (t : Nat) : List Byte :=
  (List.range 8).flatMap fun i => natToBytes 8 (s.header t i).toNat

/-! Record runs (R66). -/

/-- A run of the segment is being made: its first, or that of a re-execution. -/
def Folio.making (f : Folio) : Bool := f.running || !f.ran

/-- The run of a segment that the folio names: the one being made, or the one that has retired. -/
def Folio.run (f : Folio) : List Record := if f.making then f.fresh else f.records

/-- Its number: a re-execution's run is a new one (R66). -/
def Folio.runNow (f : Folio) : Nat := if f.making then f.runNo else f.runNo - 1

/-- The records of run n, while it stands in the Archive: a retired run until the next one retires. -/
def Folio.runAt (f : Folio) (n : Nat) : Option (List Record) :=
  if f.making && n = f.runNo then some f.fresh else if f.ran && n + 1 = f.runNo then some f.records else Option.none

/-- A record's 16 bytes (R66). -/
def Record.bytes (t folio : Nat) (r : Record) : List Byte :=
  match r with
  | .read g => natToBytes 8 g ++ natToBytes 8 (Config.listIndex t g folio false).toNat
  | .write g => natToBytes 8 (2 ^ 61 + g) ++ natToBytes 8 (Config.headIndex t g).toNat
  | .atomic a op v => natToBytes 8 (2 * 2 ^ 61 + op.toNat * 2 ^ 57 + a) ++ natToBytes 8 v.toNat

/-- The record that ends a run (R66). -/
def endRecord : List Byte := natToBytes 8 (7 * 2 ^ 61) ++ natToBytes 8 0

/-- Bytes filled up with zeros to a multiple of n. -/
def padTo (n : Nat) (bs : List Byte) : List Byte := bs ++ List.replicate ((n - bs.length % n) % n) 0

/-- A segment's run n as it stands in the Archive from Config.runIndex on (R66). -/
def Folio.runImage (f : Folio) (t folio n : Nat) : Option (List Byte) :=
  (f.runAt n).map fun rs => padTo 64 (rs.flatMap (Record.bytes t folio) ++ endRecord)

/-! Folios (R65). -/

def isRead : Record → Bool
  | .read _ => true
  | .write _ => false
  | .atomic _ _ _ => false

def isWrite : Record → Bool
  | .read _ => false
  | .write _ => true
  | .atomic _ _ _ => false

/-- A count that stops at its field's largest value (R65). -/
def saturated (n : Nat) : Nat := min n 0xFFFF

/-- Of some children, the one that was spawned first (R34, R69). -/
def firstChild (es : List (Nat × Folio)) : Nat :=
  (es.foldl (fun (best : Option (Nat × Folio)) e =>
    match best with
    | some b => if e.2.ordinal < b.2.ordinal then some e else best
    | none => some e) none).elim 0 (·.1)

/-- The next child of the same spawning segment, for a task's segment 0 (R65). -/
def Trace.sibling (t : Trace) (id : Nat) : Nat :=
  let f := t.folio id
  if f.task0 = id then firstChild ((t.children f.parent).filter fun e => f.ordinal < e.2.ordinal) else 0

/-- A folio's 64 bytes (R65): running says that a gang runs the segment. -/
def State.folioBytes (s : State) (number id : Nat) : List Byte :=
  let t := s.traceOf number
  let f := t.folio id
  let flags := [f.stale, f.queued, s.runsFolio number id, f.revoked, f.exited, f.inPlace && f.task0 = id]
  let bits := (flags.mapIdx fun i b => if b then 2 ^ (57 + i) else 0).sum
  natToBytes 8 f.label.toNat ++ natToBytes 8 (f.entryPc.toNat % 2 ^ 57 + bits) ++ natToBytes 8 f.digest.toNat
    ++ natToBytes 4 f.ordinal.toNat ++ natToBytes 4 f.parent ++ natToBytes 4 (firstChild (t.children id))
    ++ natToBytes 4 (t.sibling id) ++ natToBytes 4 f.successor
    ++ natToBytes 2 (saturated (f.run.filter isRead).length) ++ natToBytes 2 (saturated (f.run.filter isWrite).length)
    ++ natToBytes 4 (Config.runIndex number id f.runNow).toNat ++ natToBytes 4 (Config.imageIndex number id).toNat
    ++ natToBytes 8 f.ret.toNat

/-! The Catalogue (R67). -/

/-- The bucket of a granule in a Catalogue of 2^n buckets (R67). -/
def bucketIndex (granule n : Nat) : Nat :=
  let a := granule / 8
  Nat.xor a (a / 2 ^ n) % 2 ^ n

/-- The granules that have a head node (R67). -/
def Trace.granules (t : Trace) : List Nat :=
  ((t.folios.filter fun e => !e.2.revoked).flatMap fun e =>
    (e.2.records ++ e.2.fresh).filterMap granuleOf).eraseDups

/-- The granules of a bucket, in the order of their chain. -/
def Trace.bucket (t : Trace) (i : Nat) : List Nat := t.granules.filter fun g => bucketIndex g t.buckets = i

/-- The segments on a granule's list, the writer first (R67). -/
def Trace.listed (t : Trace) (g : Nat) : List (Nat × Bool) :=
  ((t.writer g).map fun w => (w, true)).toList
    ++ (t.folios.filter fun e => !e.2.revoked && e.2.reads g).map fun e => (e.1, false)

/-- What follows an entry of a list; 0 after the last. -/
def linkAfter {α : Type} [DecidableEq α] (at_ : α → Word) (x : α) (xs : List α) : Word :=
  ((xs.dropWhile (· != x)).drop 1).head?.elim 0 at_

/-- A granule's head node (R67). -/
def Trace.headNode (t : Trace) (number g : Nat) : List Byte :=
  let first := (t.listed g).head?.elim 0 fun e => Config.listIndex number g e.1 e.2
  natToBytes 8 (g + 1) ++ natToBytes 4 first.toNat
    ++ natToBytes 4 (linkAfter (Config.headIndex number) g (t.bucket (bucketIndex g t.buckets))).toNat

/-- A segment's list node (R67). -/
def Trace.listNode (t : Trace) (number g : Nat) (e : Nat × Bool) : List Byte :=
  natToBytes 8 ((if e.2 then 3 else 2) + e.1 * 2 ^ 32)
    ++ natToBytes 4 (linkAfter (fun x => Config.listIndex number g x.1 x.2) e (t.listed g)).toNat ++ natToBytes 4 0

/-- A bucket's 4 bytes: its first head node (R67). -/
def Trace.bucketBytes (t : Trace) (number i : Nat) : List Byte :=
  natToBytes 4 ((t.bucket i).head?.elim 0 (Config.headIndex number)).toNat

end Sys2Proof.Machine
end

