-- ==== Sys2Proof/Tests/Slice0.lean ====
section
/-! SUPPORT. Tests and witnesses. Words and values are those that the spec writes out or that follow from its rules by hand. For every
statement with hypotheses, `witness_<statement>…` shows a concrete state and operands that meet them. -/

namespace Sys2Proof.Tests

open Sys2Proof Sys2Proof.Machine

set_option Elab.async false

/-! A small state: context 0 with one gang of 32 lanes on carrel 0 that runs the task of frame 0 at 0x1000, with
64 w registers. -/

def gang0 : Gang := { Gang.start 0x1000 32 with resident := true, regs := 64, trapv := 0x8000 }

def frame0 : Frame := { Frame.none with entryPc := 0x1000, width := 32, state := .running, shelf := 0 }

def shelf0 : Shelf :=
  { consumer := 0, valid := true, pinned := true, prio := 3, low := 0, high := 60, cap := 64, ring := 0, readIdx := 0,
    entries := [], launch := 0, takers := [], given := [] }

def base : State :=
  { State.reset with
    booted := true,
    ctx := { Context.none with
      made := true, gangs := [(0, gang0)], nextGang := 1, carrels := [(0, Carrel.reset)], frames := [(0, frame0)],
      frameRoom := 64, imageRoom := 64, shelves := [(0, shelf0)], archiveMax := 8192 } }

/-- `base` with its gang changed. -/
def baseWith (f : Gang → Gang) : State := base.modGang f

/-- `base` where the gang is packed: the task of frame 0 in lane 0, that of frame 256 in lane 1. -/
def packed0 : State :=
  { baseWith fun g => { g with
      packed := true, width := 1, pack := [(1, { g.part with frame := 256 })],
      p0 := { g.p0 with xm := 3, lanes := 3 } } with
    ctx := { (baseWith fun g => { g with
      packed := true, width := 1, pack := [(1, { g.part with frame := 256 })],
      p0 := { g.p0 with xm := 3, lanes := 3 } }).ctx with
      frames := [(0, { frame0 with width := 1, packed := true }), (256, { frame0 with width := 1, packed := true })] } }

/-- Every task of a gang that holds one is in the gang's own fields. -/
theorem untraced_of {s : State} (hp : s.gang.pack = []) (h : s.traced s.gang = false) (l : Nat) :
    s.traced (s.gang.task l) = false := by
  unfold Gang.task
  split
  · exact h
  · simp [hp, Table.seek, h]

/-! A check of the hypotheses that a word issues. -/

theorem issuesActs_of_check {s : State} {h : Header} {a : Acts} {legal : Bool} {dsts : List (Operand × Bool)}
    {srcs : Mask → List Src} {m : Mask}
    (e : (decide (a = .yes m) && !h.rsv && legal && dsts.all (fun d => !dstEmpty s d.2 m d.1)
      && (srcs m).all (fun x => !x.empty s.gang)) = true) : s.issuesActs h a legal dsts srcs m := by
  simp only [Bool.and_eq_true, decide_eq_true_eq, Bool.not_eq_true', List.all_eq_true] at e
  exact ⟨e.1.1.1.1, e.1.1.1.2, e.1.1.2, e.1.2, e.2⟩

theorem issues_of_check {s : State} {h : Header} {c : WordClass} {legal : Bool} {dsts : List (Operand × Bool)}
    {srcs : Mask → List Src} {m : Mask}
    (e : (decide (acts s.gang h c = .yes m) && !h.rsv && legal && dsts.all (fun d => !dstEmpty s d.2 m d.1)
      && (srcs m).all (fun x => !x.empty s.gang)) = true) : s.issues h c legal dsts srcs m :=
  issuesActs_of_check e

theorem ok_with {ε α : Type} {e : Except ε α} (p : α → Bool)
    (h : (match e with | .ok u => p u | .error _ => false) = true) : ∃ u, e = .ok u ∧ p u = true := by
  cases e with
  | ok u => exact ⟨u, rfl, h⟩
  | error _ => cases h

theorem some_with {α : Type} {e : Option α} (p : α → Bool)
    (h : (match e with | some u => p u | none => false) = true) : ∃ u, e = some u ∧ p u = true := by
  cases e with
  | some u => exact ⟨u, rfl, h⟩
  | none => cases h

/-- An answer that is a next state with a property. -/
def after (r : Result) (p : State → Bool) : Bool := match r with
  | .next t => p t
  | _ => false

theorem next_with {r : Result} (p : State → Bool) (h : after r p = true) : ∃ t, r = .next t ∧ p t = true := by
  cases r with
  | next t => exact ⟨t, rfl, h⟩
  | _ => cases h

/-- All 32 lanes. -/
def all : Mask := BitVec.allOnes 32

/-- An RRR word of n sources, w1, w2 and w3, or s1, s2 and s3. -/
def rrr (n : Nat) (d : Operand) (mod : BitVec 15) : RRR :=
  let src (k : Nat) : Operand := if k ≤ n then
    (match d with
     | .s _ => .s (BitVec.ofNat 6 k)
     | _ => .w (BitVec.ofNat 8 k)) else .absent
  wordRRR d (src 1) (src 2) (src 3) mod

def ri (d a : Operand) (mod : BitVec 21) (imm : BitVec 32) : RI :=
  { hdr := plainHeader d, a := a, fe := false, mod := mod, imm := imm }

/-- A strong operation that succeeds. -/
theorem strong_ok {o : StrongOut} (h : (match o with | .ok _ => true | _ => false) = true) : ∃ u, o = .ok u := by
  cases o with
  | ok u => exact ⟨u, rfl⟩
  | _ => cases h

theorem ok_eq {ε α : Type} [DecidableEq α] {e : Except ε α} {v : α}
    (h : (match e with | .ok u => decide (u = v) | .error _ => false) = true) : e = .ok v := by
  cases e with
  | ok u => simpa using h
  | error _ => cases h

theorem error_eq {ε α : Type} [DecidableEq ε] {e : Except ε α} {v : ε}
    (h : (match e with | .ok _ => false | .error u => decide (u = v)) = true) : e = .error v := by
  cases e with
  | ok _ => cases h
  | error u => simpa using h

/-! Witnesses: decoding and the arithmetic pages. -/

theorem witness_DecodeInvertsEncode :
    ∃ (i : Instr) (w : IWord), i.wf = true ∧ encode i = some w := ⟨.nop (rrr 0 .absent 0), _, rfl, rfl⟩

theorem witness_IntegerResult : ∀ d ∈ [Operand.w 4, .s 4], ∀ r ∈ integerRows,
    ∃ (x : RRR) (m : Mask), base.issuesRrr x r.sources (r.fields x) m := by
  intro d hd r hr
  refine ⟨rrr r.sources d 0x10, all, issues_of_check ?_⟩
  revert r d; decide +kernel

theorem witness_ImmediateResult : ∀ d ∈ [Operand.w 4, .s 4], ∀ r ∈ immediateRows,
    ∃ (x : RI) (m : Mask), base.issuesRi x (r.fields x) m := by
  intro d hd r hr
  refine ⟨ri d (if d = .s 4 then .s 1 else .w 1) 0x10 5, all, issues_of_check ?_⟩
  revert r d; decide +kernel

theorem witness_ExactArithmetic : typeI 0x19 = true ∧ (7 : Nat) ≤ 7 ∧ typeI 0x10 = true ∧ typeS 0x10 = true := by
  decide

theorem witness_DivisionRule :
    typeI 0x10 = true ∧ typeSigned 0x10 = true
      ∧ sourceInt 0x10 7 ≠ 0 ∧ sourceInt 0x10 0x100000000 = 0
      ∧ sourceInt 0x10 0x80000000 = -2 ^ (typeWidth 0x10 - 1) ∧ sourceInt 0x10 0xFFFFFFFF = -1 := by decide

theorem witness_DivisionRule_exec : ∃ (x : RRR) (m : Mask), base.issuesRrr x 2 (fieldsI x) m :=
  ⟨rrr 2 (.s 4) 0x19, all, issues_of_check (by decide +kernel)⟩

theorem witness_BitOperations : (typeI 0x18 = true ∨ typeB 0x18 = true) ∧ (typeI 0x1D = true ∨ typeB 0x1D = true)
    ∧ (0 : DWord).toNat % 2 ^ typeWidth 0x1C = 0 ∧ (1 : DWord).toNat % 2 ^ typeWidth 0x1C ≠ 0 := by decide

theorem witness_PredicateResult_sel : ∃ (x : RRR) (m : Mask),
    base.issuesRrr x 2 ((typeI x.typ || typeB x.typ || x.typ.toNat = 0x01) && x.sub == 0
      && (WordClass.ofDest x.hdr.d == .lane || predIsK x.pred)) m :=
  ⟨rrr 2 (.w 4) 0x1C, all, issues_of_check (by decide +kernel)⟩

theorem witness_PredicateResult_cmp : ∀ once : Bool, ∃ (x : RRR) (m : Mask), predIsK x.pred = once ∧
    base.issues x.hdr (WordClass.ofPred x.pred) (cmpOk x.typ x.sub && x.hdr.d == .absent
      && rrrSrcsOk x 2 (WordClass.ofPred x.pred) base.gang (wideType x.typ)) [] (rrrSrcs x 2 (wideType x.typ)) m
  | false => ⟨wordRRR .absent (.w 1) (.imm 16) .absent 0x0890, all, rfl, issues_of_check (by decide +kernel)⟩
  | true => ⟨wordRRR .absent (.s 1) (.imm 16) .absent 0x5090, all, rfl, issues_of_check (by decide +kernel)⟩

theorem witness_PredicateResult_cmpRI : ∃ (x : RI) (m : Mask),
    base.issues x.hdr (WordClass.ofPred x.pred) (cmpOk x.typ x.sub && x.hdr.d == .absent
      && riSrcsOk x (WordClass.ofPred x.pred) base.gang (wideType x.typ)) [] (riSrcs x (wideType x.typ)) m :=
  ⟨ri .absent (.w 1) 0x0890 300, all, issues_of_check (by decide +kernel)⟩

theorem witness_PredicateResult_fcmp : ∃ (x : RRR) (m : Mask),
    base.issues x.hdr (WordClass.ofPred x.pred) (typeF x.typ && x.sub.toNat ≤ 7 && x.hdr.d == .absent
      && rrrSrcsOk x 2 (WordClass.ofPred x.pred) base.gang false) [] (rrrSrcs x 2 false) m :=
  ⟨rrr 2 .absent 0x0981, all, issues_of_check (by decide +kernel)⟩

theorem witness_PredicateResult_plog : ∃ (x : RRR) (m : Mask),
    let dst := x.mod.extractLsb' 11 4
    let fn := x.mod.extractLsb' 0 3
    base.issuesPlain x.hdr (WordClass.ofPred dst) (x.rsv == 0 && x.fe == 0 && x.a == .absent && x.b == .absent
      && x.c == .absent && x.hdr.d == .absent && fn.toNat ≤ 5
      && (WordClass.ofPred dst == .lane || (predIsK (x.mod.extractLsb' 7 4) && (predIsK (x.mod.extractLsb' 3 4) || fn.toNat = 5)))) m :=
  ⟨rrr 0 .absent 0x091A, all, issues_of_check (by decide +kernel)⟩

theorem witness_FloatResult : ∀ d ∈ [Operand.w 4, .s 4], ∀ r ∈ floatRows, ∃ (x : RRR) (m : Mask),
    base.issues x.hdr (WordClass.ofDest x.hdr.d) (r.fields x && dstOk (WordClass.ofDest x.hdr.d) base.gang false x.hdr.d
      && rrrSrcsOk x r.sources (WordClass.ofDest x.hdr.d) base.gang false) [(x.hdr.d, false)] (rrrSrcs x r.sources false) m := by
  intro d hd r hr
  refine ⟨rrr r.sources d 0x01, all, issues_of_check ?_⟩
  revert r d; decide +kernel

/-- With `.sr`, rounding code 4. -/
theorem witness_FloatResult_sr : ∃ (x : RRR) (m : Mask), rmOf x.sub = rmSr ∧
    base.issues x.hdr (WordClass.ofDest x.hdr.d) (fieldsRm x && dstOk (WordClass.ofDest x.hdr.d) base.gang false x.hdr.d
      && rrrSrcsOk x 2 (WordClass.ofDest x.hdr.d) base.gang false) [(x.hdr.d, false)] (rrrSrcs x 2 false) m :=
  ⟨rrr 2 (.w 4) 0x103, all, by decide, issues_of_check (by decide +kernel)⟩

theorem witness_FloatResult_bits : ∀ r ∈ floatBitRows, ∃ (x : RRR) (m : Mask),
    base.issuesRrr x r.sources (r.fields x) m := by
  intro r hr
  refine ⟨rrr r.sources (.w 4) 0x01, all, issues_of_check ?_⟩
  revert r; decide +kernel

theorem witness_RoundAndConvert_frnd : ∃ (x : RRR) (m : Mask),
    base.issues x.hdr (WordClass.ofDest x.hdr.d) (fieldsRm x && dstOk (WordClass.ofDest x.hdr.d) base.gang false x.hdr.d
      && rrrSrcsOk x 1 (WordClass.ofDest x.hdr.d) base.gang false) [(x.hdr.d, false)] (rrrSrcs x 1 false) m :=
  ⟨rrr 1 (.w 4) 0x01, all, issues_of_check (by decide +kernel)⟩

/-- CVT.bf16.f32 with n = −128, the least scale. -/
theorem witness_RoundAndConvert_cvt : ∃ (x : RI) (m : Mask), (x.imm.extractLsb' 0 8 : BitVec 8).toInt = -128 ∧
    let c := WordClass.ofDest x.hdr.d
    base.issues x.hdr c (cvtType x.typ && cvtType x.typ2 && (fmtComplex x.typ.toNat == fmtComplex x.typ2.toNat)
      && rmOk c x.sub && !(x.sub.toNat = 4 && x.typ2.toNat = 0x09) && x.pred == 0 && x.imm.extractLsb' 8 24 == 0
      && feOk x.fe x.a && (srcOk c base.gang (wideType x.typ) x.a || x.a == .immField)
      && dstOk c base.gang (wideType x.typ2) x.hdr.d) [(x.hdr.d, wideType x.typ2)] (riSrcs x (wideType x.typ)) m :=
  ⟨ri (.w 4) (.w 1) 0x18001 0x80, all, by decide, issues_of_check (by decide +kernel)⟩

/-- `base` with a shadow gang that shares the FIFOs of gang 0, as the current gang. -/
def shadowed : State :=
  { base with cur := 1, ctx := { base.ctx with
      gangs := [(0, { gang0 with partner := some 1 }), (1, { gang0 with isShadow := true, partner := some 0 })] } }

theorem witness_MoveResult_w : ∃ (x : RRR) (m : Mask), base.issuesMov x m ∧ x.hdr.d = .w 4 :=
  ⟨wordRRR (.w 4) (.w 2) .absent .absent 0x1D, all, issues_of_check (by decide +kernel), rfl⟩
theorem witness_MoveResult_s : ∃ (x : RRR) (m : Mask), base.issuesMov x m ∧ x.hdr.d = .s 63 :=
  ⟨wordRRR (.s 63) (.w 1) .absent .absent 0, all, issues_of_check (by decide +kernel), rfl⟩
theorem witness_MoveResult_h : ∃ (x : RRR) (m : Mask), base.issuesMov x m ∧ x.hdr.d = .h 15 ∧ base.gang.packed = false :=
  ⟨wordRRR (.h 15) (.h 1) .absent .absent 0, all, issues_of_check (by decide +kernel), rfl, rfl⟩
theorem witness_MoveResult_q : ∃ (x : RRR) (m : Mask), shadowed.issuesMov x m ∧ x.hdr.d = .q 15 :=
  ⟨wordRRR (.q 15) (.w 1) .absent .absent 0, all, issues_of_check (by decide +kernel), rfl⟩

theorem witness_MoveResult_movi : ∃ (x : RI) (m : Mask),
    let c := WordClass.ofDest x.hdr.d
    let w := typeWidth x.typ
    base.issues x.hdr c (((x.typ.toNat = 0 || typeI x.typ || typeB x.typ || typeF x.typ) && x.sub == 0
      && x.pred == 0 && x.typ2 == 0 && x.a == .absent && !x.fe) && (match x.hdr.d with
        | .q _ => base.gang.isShadow && !decide (w = 64)
        | d => dstOk c base.gang (w = 64) d))
      [(x.hdr.d, w = 64)] (fun _ => []) m :=
  ⟨ri (.s 4) .absent 0x19 0x40, all, issues_of_check (by decide +kernel)⟩
/-- Into FIFO 15 of the partner. -/
theorem witness_MoveResult_movi_q : ∃ (x : RI) (m : Mask), x.hdr.d = .q 15 ∧
    (let c := WordClass.ofDest x.hdr.d
     let w := typeWidth x.typ
     shadowed.issues x.hdr c (((x.typ.toNat = 0 || typeI x.typ || typeB x.typ || typeF x.typ) && x.sub == 0
      && x.pred == 0 && x.typ2 == 0 && x.a == .absent && !x.fe) && (match x.hdr.d with
        | .q _ => shadowed.gang.isShadow && !decide (w = 64)
        | d => dstOk c shadowed.gang (w = 64) d))
      [(x.hdr.d, w = 64)] (fun _ => []) m) :=
  ⟨ri (.q 15) .absent 0 0x40, all, rfl, issues_of_check (by decide +kernel)⟩

def movTo (idx : BitVec 7) (a : Operand) : RRR := wordRRR (.special idx) a .absent .absent 0

theorem witness_SpecialRegisterWrite_xm : ∃ (x : RRR) (m : Mask), base.issuesSpecial x m ∧ base.flat :=
  ⟨movTo 0x00 (.imm 15), all, issues_of_check (by decide +kernel), by decide, by decide⟩
/-- From the last w register, and from the last pair. -/
theorem witness_SpecialRegisterWrite_lrand : ∀ p : Bool, ∃ (x : RRR) (m : Mask),
    let wide : Bool := x.typ.toNat = 0x1D
    wide = p ∧ base.issues x.hdr .gang (movFieldsOk x && (match x.a with
      | .s _ | .imm _ => true
      | .w i => wOk base.gang wide i
      | _ => false)) [] (fun m => [⟨x.a, x.fe.getLsbD 2, 0, wide, m⟩]) m
  | false => ⟨movTo 0x0D (.w 63), all, rfl, issues_of_check (by decide +kernel)⟩
  | true => ⟨wordRRR (.special 0x0D) (.w 62) .absent .absent 0x1D, all, rfl, issues_of_check (by decide +kernel)⟩
theorem witness_SpecialRegisterWrite_other : ∀ n ∈ [0x08, 0x09, 0x0E, 0x10], ∃ (x : RRR) (m : Mask) (idx : BitVec 7),
    idx.toNat = n ∧ x.hdr.d = .special idx
      ∧ base.issues x.hdr .gang (specialMovOk x && specialWritable idx) [] (specialSrcs x) m
      ∧ idx ≠ 0x00 ∧ idx ≠ 0x0D ∧ idx ≠ 0x0F := by
  intro n h
  refine ⟨movTo (BitVec.ofNat 7 n) (.s 1), all, BitVec.ofNat 7 n, ?_, rfl, issues_of_check ?_, ?_⟩ <;> revert n <;> decide +kernel

/-- s1 holds a REPLAYM value; log 5 stands in a state. -/
def session (v r : DWord) (l : OrderLog) (root : Bool) : State :=
  { baseWith fun g => { g.setS 1 v with replaym := r, sroot := root } with
    ctx := { (baseWith fun g => { g.setS 1 v with replaym := r, sroot := root }).ctx with logs := [(5, l)] } }

theorem witness_ReplaySessions_record : ∃ (x : RRR) (m : Mask),
    let s := session 0x501 0 OrderLog.none false
    let v := readGang s 0x1D 0 x.a &&& 0x3F03
    s.issuesSpecial x m ∧ s.gang.packed = false ∧ replayMode v = 1 ∧ replayMode s.gang.replaym = 0
      ∧ (s.logOf (replayLog v)).state ≠ .recording ∧ (s.logOf (replayLog v)).state ≠ .replaying :=
  ⟨movTo 0x0F (.s 1), all, issues_of_check (by decide +kernel), by decide +kernel⟩
theorem witness_ReplaySessions_replay : ∃ (x : RRR) (m : Mask),
    let s := session 0x502 0 { OrderLog.none with state := .recorded } false
    let v := readGang s 0x1D 0 x.a &&& 0x3F03
    s.issuesSpecial x m ∧ s.gang.packed = false ∧ replayMode v = 2 ∧ replayMode s.gang.replaym = 0
      ∧ (s.logOf (replayLog v)).state = .recorded :=
  ⟨movTo 0x0F (.s 1), all, issues_of_check (by decide +kernel), by decide +kernel⟩
/-- A task of the session of log 5 whose folio is 1, with `k` strong accesses. -/
def inLog (mode : DWord) (k : Nat) (l : OrderLog) : State :=
  { baseWith fun g => { g with replaym := 0x500 + mode, member := true, rfolio := 1, strong := k } with
    ctx := { (baseWith fun g => { g with replaym := 0x500 + mode, member := true, rfolio := 1, strong := k }).ctx with
      logs := [(5, l)], archiveMax := 2 ^ 20 } }
def folio1 : ReplayFolio := { ReplayFolio.none with strong := 3, used := true }
def replayLog5 (gates : List (Nat × Nat)) (waits : List (Nat × Bool)) : OrderLog :=
  { OrderLog.none with state := .replaying, rootIn := true, folios := [folio1, folio1], gates := [(0, gates)], waits := [(0, waits)] }
theorem witness_ReplaySessions_gate :
    let rec_ := inLog 1 0 { OrderLog.none with state := .recording, rootIn := true, folios := [folio1] }
    rec_.gang.inSession = true ∧ (rec_.logOf 5).truncated = false ∧ rec_.archiveBytes < rec_.ctx.archiveMax
      ∧ ∀ k ∈ [2, 3], ∀ e ∈ [([(1, 2)], []), ([(2, 1)], []), ([], []), ([], [(7, false)])],
        let s := inLog 2 k (replayLog5 e.1 e.2)
        s.gang.inSession = true ∧ (s.logOf (replayLog s.gang.replaym)).state = .replaying
          ∧ Table.look (s.logOf 5).gates (s.sliceOf 0) [] = e.1 ∧ Table.look (s.logOf 5).waits (s.sliceOf 0) [] = e.2
          ∧ (s.gang.strong < ((s.logOf 5).folio s.gang.rfolio).strong ↔ k = 2) := by decide +kernel
/-- The head's folio passes and its run is one shorter; another is held; past the end the first in line passes. -/
theorem test_gate :
    (match (inLog 2 0 (replayLog5 [(1, 2)] [])).gateAs (0, false) 0 with
      | .ok t => decide (t.gang.strong = 1) && Table.look (t.logOf 5).gates 0 [] == [(1, 1)]
      | _ => false) = true
    ∧ (match (inLog 2 0 (replayLog5 [(2, 1)] [])).gateAs (0, false) 0 with
      | .held t => Table.look (t.logOf 5).waits 0 [] == [(0, false)]
      | _ => false) = true
    ∧ (match (inLog 2 0 (replayLog5 [] [(7, false)])).gateAs (0, false) 0 with
      | .held _ => true
      | _ => false) = true := by decide +kernel
theorem witness_ReplaySessions_off : ∀ n ∈ [0, 3], ∃ (x : RRR) (m : Mask),
    let s := session 0 0x501 { OrderLog.none with state := .recording, rootIn := true, members := n } true
    let v := readGang s 0x1D 0 x.a &&& 0x3F03
    s.issuesSpecial x m ∧ s.gang.packed = false ∧ replayMode v = 0 ∧ replayMode s.gang.replaym ≠ 0 ∧ s.gang.sroot = true
      ∧ (s.logOf (replayLog s.gang.replaym)).members = n := by
  intro n h
  refine ⟨movTo 0x0F (.s 1), all, issues_of_check ?_, ?_⟩ <;> revert n <;> decide +kernel

/-! Witnesses: lane operations and control. -/

theorem witness_LaneOperations : base.gang.packed = false := rfl

/-- VOTE.any, .all, .mask and .count of p0; .any and .all write p1. -/
theorem witness_LaneOperations_vote : ∀ n ∈ [0, 1, 2, 3], ∃ (x : RRR) (m : Mask),
    let v := voteVariant x
    v = n ∧ base.issues x.hdr .lane (x.rsv == 0 && x.fe == 0 && x.a == .absent && x.b == .absent && x.c == .absent
      && x.mod.extractLsb' 4 2 == 0 && v ≤ 3
      && (if v ≤ 1 then x.hdr.d == .absent else voteDst x == 0 && oneDstOk base.gang false x.hdr.d))
      [(x.hdr.d, false)] (fun _ => []) m := by
  intro n h
  refine ⟨rrr 0 (if n ≤ 1 then .absent else .w 4) (BitVec.ofNat 15 ((if n ≤ 1 then 0x800 else 0) + 64 * n)), all, ?_,
    issues_of_check ?_⟩ <;> revert n <;> decide +kernel

theorem witness_LaneOperations_shfl : ∃ (x : RRR) (m : Mask),
    let wide := wideType x.typ
    let from_ (m : Mask) (l : Nat) : Nat :=
      let b := (readLane base 0x1C 0 x.b l).toNat % 2 ^ 32
      let j := if x.sub = 0 then b else Nat.xor l b
      if j < 32 && m.has j then j else l
    base.issuesLane x (shiftTypeOk x && dstOk .lane base.gang wide x.hdr.d && laneSrcOk base.gang wide x.a
        && laneSrcOk base.gang false x.b && x.c == .absent && feOk (x.fe.getLsbD 2) x.a && feOk (x.fe.getLsbD 1) x.b
        && !x.fe.getLsbD 0) wide
      (fun m => [⟨x.b, x.fe.getLsbD 1, 1, false, m⟩,
        ⟨x.a, x.fe.getLsbD 2, 0, wide, Mask.ofFn fun j => m.lanes.any fun l => from_ m l = j⟩]) m :=
  ⟨wordRRR (.w 4) (.w 1) (.imm 31) .absent 0x1C, all, issues_of_check (by decide +kernel)⟩

theorem witness_LaneOperations_lsh : ∀ down : Bool, ∃ (x : RRR) (m : Mask),
    let wide := wideType x.typ
    decide (x.sub = 0) = down ∧
    base.issuesLane x (shiftTypeOk x && dstOk .lane base.gang wide x.hdr.d && laneSrcOk base.gang wide x.a
        && laneSrcOk base.gang wide x.c
        && (match x.b with
          | .s _ => true
          | .imm v => !v.getLsbD 7
          | _ => false)
        && feOk (x.fe.getLsbD 2) x.a && feOk (x.fe.getLsbD 1) x.b && feOk (x.fe.getLsbD 0) x.c) wide
      (fun m => [⟨x.b, x.fe.getLsbD 1, 1, false, m⟩,
        ⟨x.a, x.fe.getLsbD 2, 0, wide, Mask.ofFn fun j => m.lanes.any fun l => lshLane base x m l = some j⟩,
        ⟨x.c, x.fe.getLsbD 0, 2, wide, Mask.ofFn fun l => m.has l && (lshLane base x m l).isNone⟩]) m
  | true => ⟨wordRRR (.w 4) (.w 1) (.imm 31) (.w 2) 0x1C, all, rfl, issues_of_check (by decide +kernel)⟩
  | false => ⟨wordRRR (.w 4) (.w 1) (.imm 32) (.w 2) 0x5C, all, rfl, issues_of_check (by decide +kernel)⟩

theorem witness_LaneOperations_lred : ∀ once : Bool, ∃ (x : RRR) (m : Mask),
    let wide := wideType x.typ
    (x.hdr.d = if once then .s 4 else .w 4) ∧
    base.issuesLane x (redFieldsOk x && !x.sub.getLsbD 3 && oneDstOk base.gang wide x.hdr.d && rrrSrcsOk x 1 .lane base.gang wide)
      (wide && !(WordClass.ofDest x.hdr.d == .gang)) (rrrSrcs x 1 wide) m
  | true => ⟨wordRRR (.s 4) (.w 1) .absent .absent 0x10, all, rfl, issues_of_check (by decide +kernel)⟩
  | false => ⟨wordRRR (.w 4) (.w 1) .absent .absent 0x10, all, rfl, issues_of_check (by decide +kernel)⟩

theorem witness_LaneOperations_lscan : ∀ excl : Bool, ∃ (x : RRR) (m : Mask),
    let wide := wideType x.typ
    x.sub.getLsbD 3 = excl ∧
    base.issuesLane x (redFieldsOk x && dstOk .lane base.gang wide x.hdr.d && rrrSrcsOk x 1 .lane base.gang wide) wide
      (fun m => [⟨x.a, x.fe.getLsbD 2, 0, wide, if x.sub.getLsbD 3 then m &&& ~~~Mask.lane (m.lanes.getLastD 0) else m⟩]) m
  | true => ⟨wordRRR (.w 4) (.w 1) .absent .absent 0x210, all, rfl, issues_of_check (by decide +kernel)⟩
  | false => ⟨wordRRR (.w 4) (.w 1) .absent .absent 0x10, all, rfl, issues_of_check (by decide +kernel)⟩

theorem witness_LaneOperations_match : ∃ (x : RRR) (m : Mask),
    let wide := wideType x.typ
    base.issuesLane x (typeB x.typ && x.sub == 0 && x.pred == 0 && dstOk .lane base.gang false x.hdr.d
      && rrrSrcsOk x 1 .lane base.gang wide) false (rrrSrcs x 1 wide) m :=
  ⟨wordRRR (.w 4) (.w 2) .absent .absent 0x1D, all, issues_of_check (by decide +kernel)⟩

/-- The same in a packed gang. -/
theorem witness_LaneOperations_packed_vote : packed0.gang.packed = true ∧ ∀ n ∈ [0, 1, 2, 3], ∃ (x : RRR) (m : Mask),
    let v := voteVariant x
    v = n ∧ packed0.issues x.hdr .lane (x.rsv == 0 && x.fe == 0 && x.a == .absent && x.b == .absent && x.c == .absent
      && x.mod.extractLsb' 4 2 == 0 && v ≤ 3 && (if v ≤ 1 then x.hdr.d == .absent && !predIsK (voteDst x)
        else voteDst x == 0 && dstOk .lane packed0.gang false x.hdr.d)) [(x.hdr.d, false)] (fun _ => []) m := by
  refine ⟨rfl, fun n h => ⟨rrr 0 (if n ≤ 1 then .absent else .w 4) (BitVec.ofNat 15 ((if n ≤ 1 then 0x800 else 0) + 64 * n)),
    3, ?_, issues_of_check ?_⟩⟩ <;> revert n <;> decide +kernel
/-- A VOTE into k1, a VOTE and an LRED into s4. -/
theorem witness_LaneOperations_packed_illegal : ∀ k : Bool, ∃ (x : RRR) (m : Mask), acts packed0.gang x.hdr .lane = .yes m
    ∧ (k = true → voteVariant x ≤ 1 ∧ predIsK (voteDst x) = true)
    ∧ (k = false → 2 ≤ voteVariant x ∧ ∃ i, x.hdr.d = .s i) := by
  intro k
  refine ⟨rrr 0 (if k then .absent else .s 4) (if k then 0x4800 else 0x80), 3, ?_, ?_, ?_⟩
  · revert k; decide +kernel
  · revert k; decide +kernel
  · intro hk; subst hk; exact ⟨by decide +kernel, 4, rfl⟩
theorem witness_LaneOperations_packed_shfl : ∃ (x : RRR) (m : Mask),
    let wide := wideType x.typ
    packed0.issuesLane x (shiftTypeOk x && dstOk .lane packed0.gang wide x.hdr.d && laneSrcOk packed0.gang wide x.a
        && laneSrcOk packed0.gang false x.b && x.c == .absent && feOk (x.fe.getLsbD 2) x.a && feOk (x.fe.getLsbD 1) x.b
        && !x.fe.getLsbD 0) wide
      (fun m => [⟨x.b, x.fe.getLsbD 1, 1, false, m⟩, ⟨x.a, x.fe.getLsbD 2, 0, wide, m⟩]) m :=
  ⟨wordRRR (.w 4) (.w 1) (.imm 1) .absent 0x1C, 3, issues_of_check (by decide +kernel)⟩
theorem witness_LaneOperations_packed_lsh : ∃ (x : RRR) (m : Mask),
    let wide := wideType x.typ
    packed0.issuesLane x (shiftTypeOk x && dstOk .lane packed0.gang wide x.hdr.d && laneSrcOk packed0.gang wide x.a
        && laneSrcOk packed0.gang wide x.c && (match x.b with
          | .s _ => true
          | .imm v => !v.getLsbD 7
          | _ => false)
        && feOk (x.fe.getLsbD 2) x.a && feOk (x.fe.getLsbD 1) x.b && feOk (x.fe.getLsbD 0) x.c) wide
      (fun m => [⟨x.b, x.fe.getLsbD 1, 1, false, m⟩, ⟨x.a, x.fe.getLsbD 2, 0, wide, m⟩,
        ⟨x.c, x.fe.getLsbD 0, 2, wide, m⟩]) m :=
  ⟨wordRRR (.w 4) (.w 1) (.imm 1) (.w 2) 0x1C, 3, issues_of_check (by decide +kernel)⟩
theorem witness_LaneOperations_packed_lred : ∃ (x : RRR) (m : Mask),
    let wide := wideType x.typ
    packed0.issuesLane x (redFieldsOk x && !x.sub.getLsbD 3 && dstOk .lane packed0.gang wide x.hdr.d
      && rrrSrcsOk x 1 .lane packed0.gang wide) wide (rrrSrcs x 1 wide) m :=
  ⟨wordRRR (.w 4) (.w 1) .absent .absent 0x10, 3, issues_of_check (by decide +kernel)⟩
theorem witness_LaneOperations_packed_lscan : ∀ excl : Bool, ∃ (x : RRR) (m : Mask),
    let wide := wideType x.typ
    x.sub.getLsbD 3 = excl ∧
    packed0.issuesLane x (redFieldsOk x && dstOk .lane packed0.gang wide x.hdr.d && rrrSrcsOk x 1 .lane packed0.gang wide)
      wide (rrrSrcs x 1 wide) m
  | true => ⟨wordRRR (.w 4) (.w 1) .absent .absent 0x210, 3, rfl, issues_of_check (by decide +kernel)⟩
  | false => ⟨wordRRR (.w 4) (.w 1) .absent .absent 0x10, 3, rfl, issues_of_check (by decide +kernel)⟩
theorem witness_LaneOperations_packed_match : ∃ (x : RRR) (m : Mask),
    let wide := wideType x.typ
    packed0.issuesLane x (typeB x.typ && x.sub == 0 && x.pred == 0 && dstOk .lane packed0.gang false x.hdr.d
      && rrrSrcsOk x 1 .lane packed0.gang wide) false (rrrSrcs x 1 wide) m :=
  ⟨wordRRR (.w 4) (.w 2) .absent .absent 0x1D, 3, issues_of_check (by decide +kernel)⟩

/-- A code object with a constant section of the given bytes. -/
def withConsts (s : State) (bs : List Byte) : State :=
  { s with ctx := { s.ctx with codes := [(0, { consts := bs, tasks := [], exports := [] })] } }

/-- A table load from byte 256, the last 256 bytes of a section of 512. -/
theorem witness_PatternTables_ptld : ∃ (x : RRR) (m : Mask) (n : Nat),
    let s := withConsts (baseWith fun g => g.setS 1 256) (List.replicate 512 7)
    let a := (readGang s 0x1D 0 x.b).toNat
    let sec := s.consts s.gang.code
    (s.issues x.hdr .gang (permFieldsOk x && x.hdr.d == .absent && (tableNo x.a).isSome && !x.fe.getLsbD 2
      && isS x.b) [] (fun m => [⟨x.b, x.fe.getLsbD 1, 1, false, m⟩]) m)
    ∧ tableNo x.a = some n ∧ a % 256 = 0 ∧ a + 256 ≤ sec.length :=
  ⟨wordRRR .absent (.imm 15) (.s 1) .absent 0, all, 15, issues_of_check (by decide +kernel), by decide +kernel⟩

def pattern0 : Pattern := { tag := 0, entries := Vector.replicate 128 0xC000 }

theorem witness_PatternTables_perm : ∃ (x : RRR) (s : State) (m : Mask) (n : Nat) (p : Pattern) (i d : BitVec 8),
    x.a = .w i ∧ x.hdr.d = .w d ∧ tableNo x.b = some n ∧ (s.carrelOf s.gang.carrel).pats[n]? = some (some p) ∧
    p.tag = s.gang.code ∧ (∀ e < 128, (p.entries.getD e 0).extractLsb' 9 5 = 0) ∧
    s.issues x.hdr .lane (permFieldsOk x && !x.fe.getLsbD 1 && wOk s.gang false d && i.toNat % 4 = 0
      && i.toNat + 3 < s.gang.regs) [(x.hdr.d, false)]
      (fun m => (List.range 4).map fun r => ⟨.w (i + BitVec.ofNat 8 r), x.fe.getLsbD 2, 0, false, m⟩) m :=
  ⟨wordRRR (.w 1) (.w 4) (.imm 15) .absent 0,
    base.modCarrelOf 0 fun c => { c with pats := c.pats.set 15 (some pattern0) }, all, 15, pattern0, 4, 1,
    rfl, rfl, by decide +kernel, by decide +kernel, rfl, by decide +kernel, issues_of_check (by decide +kernel)⟩

/-- A B word under a guard: p1 or k7. -/
def bWord (lanes : Bool) (d : Operand) (off : BitVec 32) : BFmt :=
  { hdr := { plainHeader d with kind := !lanes, idx := if lanes then 1 else 7 }, a := .absent, mod := 0, off := off }

/-- `base` where p1 holds in lanes 0 to n-1. -/
def voted (n : Nat) : State := baseWith fun g => g.setP 1 (Mask.first n)

theorem witness_UniformBranch_bra : ∀ lanes : Bool, ∃ (x : BFmt) (m : Mask),
    let s := voted 32
    s.issuesPlain x.hdr (WordClass.ofGuard x.hdr) (bFieldsOk x && x.hdr.d == .absent) m ∧
    ((WordClass.ofGuard x.hdr = .gang ∧ lanes = false) ∨ (m = s.xm ∧ lanes = true)) := by
  intro lanes
  refine ⟨bWord lanes .absent 0xFFFFFFFF, all, issues_of_check ?_, ?_⟩ <;> revert lanes <;> decide +kernel
theorem witness_UniformBranch_call : ∀ lanes : Bool, ∃ (x : BFmt) (m : Mask) (i : BitVec 6),
    let s := voted 32
    x.hdr.kind = !lanes ∧
    x.hdr.d = .s i ∧ s.issues x.hdr (WordClass.ofGuard x.hdr) (bFieldsOk x) [(x.hdr.d, false)] (fun _ => []) m ∧
    (WordClass.ofGuard x.hdr = .gang ∨ m = s.xm) := by
  intro lanes
  refine ⟨bWord lanes (.s 63) 5, all, 63, rfl, rfl, issues_of_check ?_, ?_⟩ <;> revert lanes <;> decide +kernel
theorem witness_UniformBranch_brx : ∃ (x : RRR) (m : Mask),
    let s := baseWith fun g => g.setS 1 0x2000
    s.issues x.hdr (WordClass.ofGuard x.hdr) (rrrPlain x false false && isS x.a && x.hdr.d == .absent) [] (srcA x) m ∧
    (WordClass.ofGuard x.hdr = .gang ∨ m = s.xm) ∧ (readGang s 0x1D 0 x.a).extractLsb' 0 2 = 0 :=
  ⟨wordRRR .absent (.s 1) .absent .absent 0, all, issues_of_check (by decide +kernel), by decide +kernel⟩

/-- A state whose path has a JOIN record and the given open regions. -/
def joined (n : Nat) (label : Option DWord) (rs : List Region) : State :=
  (voted n).modGang fun g => g.modPath fun p => { p with join := label, stack := rs }

def region0 : Region := { recon := 0x3000, pending := 0, pmask := 0, emask := all, arrived := 0 }

/-- The branch goes to 0x1030, the next word stands at 0x100C. -/
theorem witness_DivergentBranch_split : ∃ (x : BFmt) (m : Mask) (label : DWord),
    let s := joined 8 (some 0x1060) []
    let target := s.pc + 12 * x.off.signExtend 64
    s.issuesPlain x.hdr .lane (bFieldsOk x && x.hdr.d == .absent) m ∧ x.hdr.kind = false ∧ m ≠ s.xm ∧ s.flat
      ∧ s.gang.path.join = some label ∧ label ≠ target ∧ label ≠ s.pc + 12 :=
  ⟨bWord true .absent 4, Mask.first 8, 0x1060, issues_of_check (by decide +kernel), by decide +kernel, by decide +kernel,
    ⟨by decide +kernel, by decide +kernel⟩, by decide +kernel⟩
/-- With 271 regions open, the greatest number that another branch admits (R99). -/
theorem witness_DivergentBranch_region : ∃ (x : BFmt) (m : Mask) (label : DWord) (r : Region) (rest : List Region),
    let s := joined 8 (some 0x1060) (List.replicate 271 region0)
    let p := s.gang.path
    let target := s.pc + 12 * x.off.signExtend 64
    s.issuesPlain x.hdr .lane (bFieldsOk x && x.hdr.d == .absent) m ∧ x.hdr.kind = false ∧ m ≠ s.xm
      ∧ p.stack = r :: rest ∧ p.stack.length < 272 ∧ p.join = some label ∧ label ≠ target
      ∧ r.recon ≠ target ∧ r.recon ≠ s.pc + 12 :=
  ⟨bWord true .absent 4, Mask.first 8, 0x1060, region0, List.replicate 270 region0, issues_of_check (by decide +kernel),
    by decide +kernel, by decide +kernel, by decide +kernel, by decide +kernel, by decide +kernel, by decide +kernel,
    by decide +kernel, by decide +kernel⟩
theorem witness_DivergentBranch_illegal : ∃ (x : BFmt) (m : Mask),
    let s := joined 8 none []
    s.issuesPlain x.hdr .lane (bFieldsOk x && x.hdr.d == .absent) m ∧ x.hdr.kind = false ∧ m ≠ s.xm ∧ s.flat
      ∧ s.gang.path.join = none :=
  ⟨bWord true .absent 4, Mask.first 8, issues_of_check (by decide +kernel), by decide +kernel, by decide +kernel,
    ⟨by decide +kernel, by decide +kernel⟩, by decide +kernel⟩
/-- A region open and no JOIN record; and 272 regions open. -/
theorem witness_DivergentBranch_deep : ∀ full : Bool, ∃ (x : BFmt) (m : Mask) (r : Region) (rest : List Region),
    let s := joined 8 (if full then some 0x1060 else none) (List.replicate (if full then 272 else 1) region0)
    let p := s.gang.path
    let target := s.pc + 12 * x.off.signExtend 64
    s.issuesPlain x.hdr .lane (bFieldsOk x && x.hdr.d == .absent) m ∧ x.hdr.kind = false ∧ m ≠ s.xm
      ∧ p.stack = r :: rest ∧ (p.join = none ∨ 272 ≤ p.stack.length) ∧ r.recon ≠ target ∧ r.recon ≠ s.pc + 12 := by
  intro full
  refine ⟨bWord true .absent 4, Mask.first 8, region0, List.replicate (if full then 271 else 0) region0, issues_of_check ?_,
    ?_, ?_, ?_, ?_, ?_, ?_⟩ <;> revert full <;> decide +kernel

theorem witness_PlainControl_join : ∀ off ∈ [1, 5], ∃ (x : BFmt) (m : Mask), x.off.toNat = off ∧
    base.issuesPlain x.hdr .gang (bFieldsOk x && x.hdr.d == .absent) m ∧ base.flat := by
  intro off h
  refine ⟨bWord false .absent (BitVec.ofNat 32 off), all, ?_, issues_of_check ?_, ⟨by decide +kernel, by decide +kernel⟩⟩
    <;> revert off <;> decide +kernel
theorem witness_PlainControl_nop : ∃ (x : RRR) (m : Mask),
    base.issuesPlain x.hdr .gang (rrrPlain x false false && x.a == .absent && x.hdr.d == .absent) m :=
  ⟨rrr 0 .absent 0, all, issues_of_check (by decide +kernel)⟩

/-- A bucket of the shapes whose first component lies from lo to hi. -/
def bucketBytes (lo hi : Nat) : List Byte :=
  natToBytes 4 lo ++ natToBytes 12 0 ++ natToBytes 4 hi ++ natToBytes 12 (2 ^ 96 - 1) ++ natToBytes 8 5

def dispatchWord (n : BitVec 22) (off : BitVec 32) : BFmt := { bWord false .absent off with mod := n }

/-- Two buckets at byte 8, the end of the section; the shape registers are 0. -/
def bucketed (lo1 lo2 : Nat) : State := withConsts base (natToBytes 8 0 ++ bucketBytes lo1 9 ++ bucketBytes lo2 9)

theorem witness_PlainControl_dispatch_none : ∃ (x : BFmt) (m : Mask),
    let s := bucketed 7 7
    let n := (x.mod.extractLsb' 0 5).toNat
    let off := x.off.toNat
    let sec := s.consts s.gang.code
    let bs := (List.range n).map fun i => bucketOf ((sec.drop (off + 40 * i)).take 40)
    s.issuesPlain x.hdr .gang (x.a == .absent && x.hdr.d == .absent && x.mod.extractLsb' 5 17 == 0 && 1 ≤ n && n ≤ 16
      && !s.gang.isShadow) m
      ∧ off % 8 = 0 ∧ off + 40 * n ≤ sec.length ∧ (∀ b ∈ bs, b.ok = true) ∧ (∀ b ∈ bs, b.holds s.gang = false) :=
  ⟨dispatchWord 2 8, all, issues_of_check (by decide +kernel), by decide +kernel⟩
theorem witness_PlainControl_dispatch_second : ∃ (x : BFmt) (m : Mask) (k : Nat) (b : Bucket),
    let s := bucketed 7 0
    let n := (x.mod.extractLsb' 0 5).toNat
    let off := x.off.toNat
    let sec := s.consts s.gang.code
    let bs := (List.range n).map fun i => bucketOf ((sec.drop (off + 40 * i)).take 40)
    s.issuesPlain x.hdr .gang (x.a == .absent && x.hdr.d == .absent && x.mod.extractLsb' 5 17 == 0 && 1 ≤ n && n ≤ 16
      && !s.gang.isShadow) m
      ∧ off % 8 = 0 ∧ off + 40 * n ≤ sec.length ∧ (∀ b ∈ bs, b.ok = true)
      ∧ k < n ∧ (∀ j < k, (bs[j]?.map fun b => b.holds s.gang) = some false) ∧ bs[k]? = some b ∧ b.holds s.gang = true :=
  ⟨dispatchWord 2 8, all, 1, bucketOf (bucketBytes 0 9), issues_of_check (by decide +kernel), by decide +kernel⟩

/-! RWAIT: an unsplit gang; a split one whose other path has yet to come, or waits. -/

def splitGang (other : Path) : State :=
  baseWith fun g => { g with p0 := { g.p0 with xm := 0xFFFF, lanes := 0xFFFF }, p1 := some other,
                             split := some { label := 0x2000, arrived := 0 } }
def path1 (pc : DWord) (w : Wait) : Path := { Path.start pc 32 with xm := 0xFFFF0000, lanes := 0xFFFF0000, wait := w }
def rwaitWord : RRR := wordRRR .absent (.imm 50) .absent .absent 0

theorem witness_Rendezvous_unsplit : ∃ (x : RRR) (m : Mask),
    base.issues x.hdr .gang (rrrPlain x false false && isSImm x.a && x.hdr.d == .absent) [] (srcA x) m
      ∧ base.gang.path.rwSkip ≠ some base.pc ∧ base.gang.split = none :=
  ⟨rwaitWord, all, issues_of_check (by decide +kernel), by decide +kernel⟩
theorem witness_Rendezvous_first : ∃ (x : RRR) (m : Mask) (sp : Split) (q : Path),
    let s := splitGang (path1 0x1F00 .none)
    s.issues x.hdr .gang (rrrPlain x false false && isSImm x.a && x.hdr.d == .absent) [] (srcA x) m
      ∧ s.gang.path.rwSkip ≠ some s.pc ∧ s.gang.split = some sp ∧ s.gang.path.stack = [] ∧ s.gang.other = some q
      ∧ q.wait = .none :=
  ⟨rwaitWord, 0xFFFF, { label := 0x2000, arrived := 0 }, path1 0x1F00 .none, issues_of_check (by decide +kernel),
    by decide +kernel⟩
/-- The other path's budget ends in this very cycle. -/
theorem witness_Rendezvous_meet : ∃ (x : RRR) (m : Mask) (sp : Split) (q : Path) (deadline : Nat),
    let s := splitGang (path1 0x1000 (.rwait 0x1000 0))
    s.issues x.hdr .gang (rrrPlain x false false && isSImm x.a && x.hdr.d == .absent) [] (srcA x) m
      ∧ s.gang.path.rwSkip ≠ some s.pc ∧ s.gang.split = some sp ∧ s.gang.path.stack = [] ∧ s.gang.other = some q
      ∧ q.wait = .rwait s.pc deadline ∧ s.clock ≤ deadline ∧ sp.arrived = 0 :=
  ⟨rwaitWord, 0xFFFF, { label := 0x2000, arrived := 0 }, path1 0x1000 (.rwait 0x1000 0), 0, issues_of_check (by decide +kernel),
    by decide +kernel⟩
theorem witness_Rendezvous_expiry : ∃ (s : State) (n d : Nat) (pc : DWord), (s.gangOf n).p0.wait = .rwait pc d ∧ d < s.clock
    ∧ (s.gangOf n).resident = true ∧ s.halt = .running ∧ (s.gangOf n).p0.stack = []
    ∧ (∀ sp, (s.gangOf n).split = some sp → sp.label ≠ (s.gangOf n).p0.pc + 12) := by
  refine ⟨{ (splitGang (path1 0x1F00 .none)).modPath (fun p => { p with wait := .rwait 0x1000 0 }) with clock := 1 }, 0, 0, 0x1000,
    by decide +kernel, by decide +kernel, by decide +kernel, by decide +kernel, by decide +kernel, fun sp h => ?_⟩
  have e : sp = { label := 0x2000, arrived := 0 } := by
    have h' : some sp = some ({ label := 0x2000, arrived := 0 } : Split) := h.symm.trans (by decide +kernel)
    exact Option.some.inj h'
  subst e; decide +kernel

/-- Two hundred and seventy-two regions are open, as many as there can be (R99). -/
theorem witness_BreakOneRegion : ∃ (x : RRR) (m : Mask) (r : Region) (rest : List Region),
    let s := joined 8 none (List.replicate 272 region0)
    s.issues x.hdr .lane (rrrPlain x false false && isSImm x.a && x.hdr.d == .absent) [] (srcA x) m
      ∧ (readGang s 0x1C 0 x.a).toNat % 2 ^ 32 = 1 ∧ s.gang.path.stack = r :: rest
      ∧ s.xm &&& ~~~m ≠ 0 ∧ r.recon ≠ s.pc + 12 :=
  ⟨{ wordRRR .absent (.imm 1) .absent .absent 0 with hdr := { plainHeader .absent with kind := false, idx := 1 } },
    Mask.first 8, region0, List.replicate 271 region0, issues_of_check (by decide +kernel), by decide +kernel⟩

/-! Witnesses: tasks, futures, shelves, traces, barriers. -/

def gWord (d args : Operand) (cnt : BitVec 6) (entry : BitVec 32) : GFmt :=
  { hdr := plainHeader d, args := args, cnt := cnt, shelf := 0, width := 1, place := 3, salt := false, entry := entry }

theorem spawnsInto_of_check {s : State} {x : GFmt} {sh key n : Nat}
    (e : (decide (s.gang.packed = false) && decide (s.gang.pack = []) && decide (s.gang.pend = .none) && decide (s.gang.mode = .untraced) && decide (replayMode s.gang.replaym = 0)
      && decide (s.spawnShelf x = some sh) && decide (s.newSlot (wingOf s.gang.carrel) = some key)
      && decide (n ≤ s.ctx.frameRoom) && decide ((s.shelfOf sh).depth + n ≤ (s.shelfOf sh).cap)
      && decide ((s.shelfOf sh).depth ≤ (s.shelfOf sh).high)) = true) : s.spawnsInto x sh key n := by
  simp only [Bool.and_eq_true, decide_eq_true_eq] at e
  exact ⟨⟨e.1.1.1.1.1.1.1.1.1, e.1.1.1.1.1.1.1.1.2⟩, e.1.1.1.1.1.1.1.2, e.1.1.1.1.1.1.2, e.1.1.1.1.1.2, e.1.1.1.1.2, e.1.1.1.2, e.1.1.2, e.1.2, e.2⟩

/-- The greatest number of words of a lane's arguments: 32, w32 to w63. -/
theorem witness_SpawnMakesTasks_lanes : ∃ (x : GFmt) (m : Mask) (sh key : Nat) (first : BitVec 8),
    x.args = .w first ∧
    base.issuesActs x.hdr (spawnActs base.gang x.hdr) (gFieldsOk base.gang x 32 && x.width.toNat = 1
      && first.toNat + x.cnt.toNat ≤ 256 && first.toNat < base.gang.regs && first.toNat + x.cnt.toNat ≤ base.gang.regs)
      [(x.hdr.d, false)] (fun m => ((List.range x.cnt.toNat).map fun k =>
        ⟨.w (BitVec.ofNat 8 (first.toNat + k)), false, 0, false, m⟩) ++ shelfSrc x m) m ∧
    base.spawnsInto x sh key m.lanes.length :=
  ⟨gWord (.h 2) (.w 32) 32 8, all, 0, 0, 32, rfl, issuesActs_of_check (by decide +kernel),
    spawnsInto_of_check (by decide +kernel)⟩
/-- A spawn without argument words. -/
theorem witness_SpawnMakesTasks_none : ∃ (x : GFmt) (m : Mask) (sh key : Nat), x.args = .absent ∧ x.cnt = 0 ∧
    base.issuesActs x.hdr (spawnActs base.gang x.hdr) (gFieldsOk base.gang x 32 && x.width.toNat = 1)
      [(x.hdr.d, false)] (shelfSrc x) m ∧
    base.spawnsInto x sh key m.lanes.length :=
  ⟨gWord (.h 2) .absent 0 8, all, 0, 0, rfl, rfl, issuesActs_of_check (by decide +kernel),
    spawnsInto_of_check (by decide +kernel)⟩
theorem witness_SpawnMakesTasks_gang : ∃ (x : GFmt) (m : Mask) (sh key : Nat),
    base.issues x.hdr .gang (spawngOk base.gang x) [(x.hdr.d, false)] (spawngSrcs x) m ∧ base.spawnsInto x sh key 1 :=
  ⟨gWord (.h 2) (.s 48) 16 8, all, 0, 0, issues_of_check (by decide +kernel), spawnsInto_of_check (by decide +kernel)⟩
/-- No child, and as many as there are frames. -/
theorem witness_SpawnMakesTasks_vector : ∀ n ∈ [0, 64], ∃ (x : GFmt) (m : Mask) (sh key : Nat) (first : BitVec 6),
    let s := baseWith fun g => g.setS 1 (BitVec.ofNat 64 n)
    let rs := sRange (BitVec.ofNat 6 (first.toNat + 1)) x.cnt.toNat
    x.args = .s first ∧ ((s.gang.sReg first).extractLsb' 0 32).toNat = n ∧
    s.issues x.hdr .gang (gFieldsOk s.gang x 15 && first.toNat + 1 + x.cnt.toNat ≤ 64) [(x.hdr.d, false)]
      (fun m => (⟨x.args, false, 0, false, m⟩ :: rs.map fun i => ⟨.s i, false, 0, false, m⟩) ++ shelfSrc x m) m ∧
    n ≤ 4096 ∧ s.spawnsInto x sh key n := by
  intro n h
  refine ⟨gWord (.h 2) (.s 1) 15 8, all, 0, 0, 1, rfl, ?_, issues_of_check ?_, ?_, spawnsInto_of_check ?_⟩
    <;> revert n <;> decide +kernel

theorem witness_TraceRootMade : ∃ (x : GFmt) (m : Mask) (sh key : Nat) (i : BitVec 4),
    x.hdr.d = .h i ∧ base.issues x.hdr .gang (spawngOk base.gang x) [(x.hdr.d, false)] (spawngSrcs x) m ∧
    base.spawnsInto x sh key 1 ∧ base.taskTraced = false ∧ base.owns (.archive base.ctx.number) = true ∧ base.liveTraces < 64 ∧
    base.archiveBytes + 4096 ≤ base.ctx.archiveMax :=
  ⟨gWord (.h 2) .absent 0 8, all, 0, 0, 2, rfl, issues_of_check (by decide +kernel),
    spawnsInto_of_check (by decide +kernel), by decide +kernel⟩

def plain0 : RRR := rrr 0 .absent 0

theorem witness_TasksEnd_last : ∃ (x : RRR) (m : Mask),
    base.gang.packed = false
      ∧ base.issuesPlain x.hdr .gang (rrrPlain x false false && x.a == .absent && x.hdr.d == .absent && !base.gang.isShadow) m
      ∧ base.gang.split = none ∧ base.gang.mode = .untraced ∧ replayMode base.gang.replaym ≠ 2 :=
  ⟨plain0, all, rfl, issues_of_check (by decide +kernel), by decide +kernel⟩
theorem witness_TasksEnd_path : ∃ (x : RRR) (m : Mask) (q : Path),
    let s := splitGang (path1 0x1F00 .none)
    s.gang.packed = false
      ∧ s.issuesPlain x.hdr .gang (rrrPlain x false false && x.a == .absent && x.hdr.d == .absent && !s.gang.isShadow) m
      ∧ s.gang.split.isSome = true ∧ s.gang.inHandler = false ∧ s.gang.other = some q ∧ q.wait = .none :=
  ⟨plain0, 0xFFFF, path1 0x1F00 .none, rfl, issues_of_check (by decide +kernel), by decide +kernel⟩
/-- In a trap handler, on one path of two (R307). -/
theorem witness_TasksEnd_handler : ∃ (x : RRR) (m : Mask),
    let s := (splitGang (path1 0x1F00 .none)).modGang fun g => { g with trapc := 0x100 }
    s.gang.packed = false
      ∧ s.issuesPlain x.hdr .gang (rrrPlain x false false && x.a == .absent && x.hdr.d == .absent && !s.gang.isShadow) m
      ∧ s.gang.split.isSome = true ∧ s.gang.inHandler = true ∧ s.gang.mode = .untraced ∧ replayMode s.gang.replaym ≠ 2 :=
  ⟨plain0, 0xFFFF, rfl, issues_of_check (by decide +kernel), by decide +kernel⟩
/-- A result in flight that was performed as it issued. -/
def flight0 (dst : Operand) (m : Mask) (vals : List Lanes) (v : DWord) : Flight :=
  { dst := dst, mask := m, vals := vals, sval := v, req := .done, replay := false, pc := 0, younger := false, cycle := 0 }

/-- Nothing is in flight, or a load into q1. -/
theorem witness_TasksEnd_shadow : ∀ waits : Bool, ∃ (x : RRR) (m : Mask),
    let s := if waits then shadowed.modGang fun g => { g with flights := [flight0 (.q 1) 1 [] 0] } else shadowed
    s.issuesPlain x.hdr .gang (rrrPlain x false false && x.a == .absent && x.hdr.d == .absent && s.gang.isShadow) m
      ∧ (waits = false → s.gang.flights = [])
      ∧ (waits = true → ∃ f ∈ s.gang.flights, ∃ i, f.dst = .q i)
  | true => ⟨plain0, all, issues_of_check (by decide +kernel), (nomatch ·),
      fun _ => ⟨flight0 (.q 1) 1 [] 0, by decide +kernel, 1, rfl⟩⟩
  | false => ⟨plain0, all, issues_of_check (by decide +kernel), fun _ => rfl, (nomatch ·)⟩

/-- A future in slot 3 that h1 names. -/
def slot0 (kind : BitVec 4) (complete : Bool) : Slot :=
  { Slot.none with used := true, kind := kind, generation := 9, complete := complete, value := 0x55, outstanding := 1 }
def future (kind : BitVec 4) (complete : Bool) : State :=
  (baseWith fun g => g.setH 1 (handle kind 9 3)).setSlotOf 3 (slot0 kind complete)

theorem witness_AwaitDelivers_one : ∀ done : Bool, ∃ (x : BFmt) (m : Mask) (r : BitVec 4) (bm : BitVec 256) (key : Nat) (y : Slot),
    let s := future 2 done
    x.a = .h r ∧ s.oneTask ∧
    s.issues x.hdr .gang (x.mod.extractLsb' 1 21 == 0 && !s.gang.isShadow && (match x.hdr.d with
      | .w i => decide (i.toNat < s.gang.regs)
      | .s _ | .absent => true
      | _ => false)) [(x.hdr.d, false)] (fun m => [⟨x.a, false, 0, false, m⟩]) m ∧
    s.bitmap x.off = .ok bm ∧ s.named (s.gang.hReg r) = some (key, y) ∧ (s.frameOf s.gang.frame).cancel = false
      ∧ y.complete = done ∧ (done = true → s.mustPark = false ∧ (x.mod.getLsbD 0 && y.overwritten) = false)
      ∧ (done = false → s.gang.split = none ∧ s.gang.mode = .untraced) := by
  intro done
  refine ⟨{ hdr := plainHeader (.s 5), a := .h 1, mod := 1, off := 0xFFFFFFFF }, all, 1, bitmapAll 64, 3, slot0 2 done, rfl,
    ⟨rfl, rfl⟩, issues_of_check ?_, ?_, ?_, ?_, rfl, ?_, ?_⟩ <;> revert done <;> decide +kernel

theorem witness_AwaitDelivers_any : ∀ done : Bool, ∃ (x : BFmt) (m : Mask) (bm : BitVec 256) (slots : List (Nat × Nat × Slot)),
    let s := future 2 done
    let idx := (List.range 16).filter fun i => x.mod.getLsbD i
    s.oneTask ∧ s.issues x.hdr .gang (x.a == .absent && isS x.hdr.d && x.mod.extractLsb' 16 6 == 0 && !idx.isEmpty
      && !s.gang.isShadow) [(x.hdr.d, false)] (fun m => idx.map fun i => ⟨.h (BitVec.ofNat 4 i), false, 0, false, m⟩) m ∧
    s.bitmap x.off = .ok bm ∧ (s.frameOf s.gang.frame).cancel = false ∧ s.gang.mode = .untraced ∧
    (idx.map fun i => (i, s.named (s.gang.hReg (BitVec.ofNat 4 i)))) = slots.map (fun e => (e.1, some e.2))
      ∧ (done = true → (slots.find? fun e => e.2.2.complete) = some (1, 3, slot0 2 done))
      ∧ (done = false → (∀ e ∈ slots, e.2.2.complete = false) ∧ s.gang.split = none) := by
  intro done
  refine ⟨{ hdr := plainHeader (.s 5), a := .absent, mod := 2, off := 0xFFFFFFFF }, all, bitmapAll 64, [(1, 3, slot0 2 done)],
    ⟨rfl, rfl⟩, issues_of_check ?_, ?_, ?_, ?_, ?_, ?_, ?_⟩ <;> revert done <;> decide +kernel

/-- From w63 with all lanes in XM, and with XM zero; an immediate. -/
theorem witness_FutureInstructions_retv : ∀ e ∈ [(Operand.w 63, all), (.w 63, (0 : Mask)), (.imm 0x80, all)],
    ∃ (x : RRR) (m : Mask), let s := baseWith fun g => g.modPath fun p => { p with xm := e.2 }
    s.oneTask ∧ x.a = e.1 ∧
    s.issues x.hdr .gang (rrrPlain x false false && x.hdr.d == .absent && !s.gang.isShadow && (match x.a with
        | .w i => decide (i.toNat < s.gang.regs)
        | .s _ | .imm _ => true
        | _ => false)) []
      (fun _ => [⟨x.a, x.fe.getLsbD 2, 0, false, if s.xm = 0 then 0 else Mask.lane s.gang.lane0⟩]) m := by
  intro e h
  refine ⟨wordRRR .absent e.1 .absent .absent 0, e.2, ⟨rfl, rfl⟩, rfl, issues_of_check ?_⟩ <;> revert e <;> decide +kernel
/-- Both tasks of the packed gang are set in XM. -/
theorem witness_FutureInstructions_retv_packed : ∃ (x : RRR) (m : Mask) (i : BitVec 8),
    let s := packed0
    let l := (s.xm &&& s.gang.lanes).lowest
    s.gang.packed = true ∧ x.a = .w i ∧ s.gang.path.acted = 0 ∧ s.xm &&& s.gang.lanes ≠ 0 ∧
    s.issues x.hdr .gang (rrrPlain x false false && x.hdr.d == .absent && !s.gang.isShadow
      && decide (i.toNat < s.gang.regs)) [] (fun _ => [⟨x.a, x.fe.getLsbD 2, 0, false, Mask.lane l⟩]) m ∧
    x.hdr.kind = true ∧ s.flat ∧ s.xm &&& s.gang.lanes &&& ~~~Mask.lane l ≠ 0 :=
  ⟨wordRRR .absent (.w 63) .absent .absent 0, 3, 63, rfl, rfl, rfl, by decide +kernel, issues_of_check (by decide +kernel),
    rfl, ⟨rfl, rfl⟩, by decide +kernel⟩
/-- k6 is the destination. -/
theorem witness_FutureInstructions_testf : ∃ (x : RRR) (m : Mask) (r : BitVec 4) (key : Nat) (y : Slot),
    let s := future 4 false
    x.a = .h r ∧ s.oneTask ∧ s.issues x.hdr .gang (x.rsv == 0 && x.mod.extractLsb' 0 11 == 0 && x.b == .absent && x.c == .absent
      && !x.fe.getLsbD 1 && !x.fe.getLsbD 0 && predIsK x.pred && !s.gang.isShadow
      && (x.hdr.d == .absent || isS x.hdr.d)) [(x.hdr.d, false)] (srcA x) m ∧
    s.named (s.gang.hReg r) = some (key, y) :=
  ⟨wordRRR (.s 5) (.h 1) .absent .absent 0x7000, all, 1, 3, slot0 4 false, rfl, ⟨rfl, rfl⟩, issues_of_check (by decide +kernel),
    by decide +kernel⟩

def kid0 (ended : Bool) : Kid := { index := 0, frame := 256, serial := 0, ret := 0, ended := ended, on_ := 0 }
/-- h1 names a task future with one child, whose frame stands at 256. -/
def parentOf (ended : Bool) : State :=
  ((baseWith fun g => g.setH 1 (handle 1 9 3)).setSlotOf 3 { slot0 1 false with kids := [kid0 ended] }).setFrameOf 256
    { frame0 with state := if ended then .ended else .running }
def cancelWord : RRR := wordRRR .absent (.h 1) .absent .absent 0

theorem witness_FutureInstructions_cancel_task : ∀ ended : Bool, ∃ (x : RRR) (m : Mask) (r : BitVec 4) (key : Nat) (y : Slot),
    let s := parentOf ended
    x.a = .h r ∧ s.oneTask ∧
    s.issues x.hdr .gang (rrrPlain x false false && x.hdr.d == .absent && !s.gang.isShadow) [] (srcA x) m ∧
    s.named (s.gang.hReg r) = some (key, y) ∧ y.kind = 1 ∧ (∀ k ∈ y.kids, (s.frameOf k.frame).traced = false)
      ∧ (ended = true → ∀ k ∈ y.kids, k.ended = true)
      ∧ (ended = false → y.kids = [kid0 false] ∧ Table.has s.ctx.frames 256 = true ∧ (s.frameOf 256).serial = (kid0 false).serial
        ∧ (s.frameOf 256).state = .running) := by
  intro ended
  refine ⟨cancelWord, all, 1, 3, { slot0 1 false with kids := [kid0 ended] }, rfl, ⟨rfl, rfl⟩, issues_of_check ?_, ?_, rfl, ?_, ?_, ?_⟩
    <;> revert ended <;> decide +kernel
theorem witness_FutureInstructions_cancel_other : ∀ prop : Bool, ∃ (x : RRR) (m : Mask) (r : BitVec 4) (key : Nat) (y : Slot),
    let s := future (if prop then 4 else 2) false
    x.a = .h r ∧ s.oneTask ∧
    s.issues x.hdr .gang (rrrPlain x false false && x.hdr.d == .absent && !s.gang.isShadow) [] (srcA x) m ∧
    s.named (s.gang.hReg r) = some (key, y) ∧ y.kind = (if prop then 4 else 2) := by
  intro prop
  refine ⟨cancelWord, all, 1, 3, slot0 (if prop then 4 else 2) false, rfl, ⟨rfl, rfl⟩, issues_of_check ?_, ?_, rfl⟩
    <;> revert prop <;> decide +kernel

/-- s1 names shelf 5, which holds the given entries; s2 and s3 are set. -/
def shelved (es : List ShelfEntry) (v2 v3 : DWord) : State :=
  (baseWith fun g => ((g.setS 1 5).setS 2 v2).setS 3 v3).setShelfOf 5 { shelf0 with pinned := false, entries := es }
def value0 (v : DWord) : ShelfEntry := { age := 1, team := some 0, isTask := false, boost := false, payload := v }

/-- The depth stands at the high watermark before the instruction. -/
theorem witness_ShelfInstructions_shput : ∃ (x : RRR) (m : Mask) (n : Nat),
    let s := shelved (List.replicate 60 (value0 7)) 0x55 0
    let sh := s.shelfOf n
    s.shelfOperand x.a = some n ∧
    s.issues x.hdr .gang (shelfFieldsOk s x false false && isSImm x.b && x.c == .absent && x.hdr.d == .absent) []
        (shelfSrcs x) m ∧ sh.full = false ∧ sh.consumer = 0 ∧ sh.depth ≤ sh.high ∧ sh.depth = sh.high ∧ sh.takers = [] :=
  ⟨wordRRR .absent (.s 1) (.s 2) .absent 0, all, 5, by decide +kernel, issues_of_check (by decide +kernel), by decide +kernel⟩
/-- Gang 7 waits for a value, and then gang 8. -/
theorem witness_ShelfInstructions_shput_taker : ∃ (x : RRR) (m : Mask) (n : Nat) (y : Nat × Bool) (rest : List (Nat × Bool)),
    let s := (shelved [] 0x55 0).modShelfOf 5 fun z => { z with takers := [(7, true), (8, false)] }
    let sh := s.shelfOf n
    s.shelfOperand x.a = some n ∧
    s.issues x.hdr .gang (shelfFieldsOk s x false false && isSImm x.b && x.c == .absent && x.hdr.d == .absent) []
        (shelfSrcs x) m ∧ sh.full = false ∧ sh.consumer = 0 ∧ sh.depth ≤ sh.high ∧ sh.takers = y :: rest ∧
        (∀ e ∈ sh.entries, e.isTask = true) ∧ sh.gift y = none :=
  ⟨wordRRR .absent (.s 1) (.s 2) .absent 0, all, 5, (7, true), [(8, false)], by decide +kernel,
    issues_of_check (by decide +kernel), by decide +kernel⟩
/-- A value has come to the taker, or SHBIND has refused it (R329). -/
theorem witness_ShelfInstructions_gift : ∀ refused : Bool, ∃ (x : RRR) (m : Mask) (n : Nat),
    let e : Option DWord := if refused then none else some 8
    let s := (shelved [] 0 0).modShelfOf 5 fun z => { z with given := [((0, false), e)] }
    let sh := s.shelfOf n
    let try_ := x.sub.getLsbD 0
    let me := (s.cur, s.gang.younger)
    s.shelfOperand x.a = some n ∧
    s.issues x.hdr .gang (shelfFieldsOk s x true true && x.sub.extractLsb' 1 4 == 0
        && (if try_ then predIsK x.pred else x.pred == 0) && x.b == .absent && x.c == .absent && isS x.hdr.d)
        [(x.hdr.d, false)] (shelfSrcs x) m ∧ sh.gift me = some e := by
  intro refused
  refine ⟨wordRRR (.s 4) (.s 1) .absent .absent 0, all, 5, ?_, issues_of_check ?_, ?_⟩
    <;> revert refused <;> decide +kernel
/-- A taker that is first finds a value, with and without `.try`. -/
theorem witness_ShelfInstructions_shtake : ∀ t : Bool, ∃ (x : RRR) (m : Mask) (n i : Nat) (e : ShelfEntry),
    let s := shelved [{ value0 7 with isTask := true }, value0 8] 0 0
    let sh := s.shelfOf n
    let try_ := x.sub.getLsbD 0
    let me := (s.cur, s.gang.younger)
    try_ = t ∧ s.shelfOperand x.a = some n ∧
    s.issues x.hdr .gang (shelfFieldsOk s x true true && x.sub.extractLsb' 1 4 == 0
        && (if try_ then predIsK x.pred else x.pred == 0) && x.b == .absent && x.c == .absent && isS x.hdr.d)
        [(x.hdr.d, false)] (shelfSrcs x) m ∧ sh.gift me = none ∧ sh.consumer = 0 ∧ sh.turnOf me = true ∧
        (sh.entries.findIdx? fun e => !e.isTask) = some i ∧ sh.entries[i]? = some e := by
  intro t
  refine ⟨wordRRR (.s 4) (.s 1) .absent .absent (if t then 0x4840 else 0), all, 5, 1, value0 8, ?_, ?_, issues_of_check ?_, ?_⟩
    <;> revert t <;> decide +kernel
/-- No value, or another taker first. -/
theorem witness_ShelfInstructions_shtake_none : ∀ late t : Bool, ∃ (x : RRR) (m : Mask) (n : Nat),
    let s := if late then (shelved [value0 8] 0 0).modShelfOf 5 fun y => { y with takers := [(7, false)] } else shelved [] 0 0
    let sh := s.shelfOf n
    let try_ := x.sub.getLsbD 0
    let me := (s.cur, s.gang.younger)
    try_ = t ∧ s.shelfOperand x.a = some n ∧
    s.issues x.hdr .gang (shelfFieldsOk s x true true && x.sub.extractLsb' 1 4 == 0
        && (if try_ then predIsK x.pred else x.pred == 0) && x.b == .absent && x.c == .absent && isS x.hdr.d)
        [(x.hdr.d, false)] (shelfSrcs x) m ∧ sh.gift me = none ∧ sh.consumer = 0 ∧
        (sh.turnOf me = false ∨ (∀ e ∈ sh.entries, e.isTask = true)) := by
  intro late t
  refine ⟨wordRRR (.s 4) (.s 1) .absent .absent (if t then 0x4840 else 0), all, 5, ?_, ?_, issues_of_check ?_, ?_⟩
    <;> revert late t <;> decide +kernel
theorem witness_ShelfInstructions_shdepth : ∃ (x : RRR) (m : Mask) (n : Nat),
    let s := shelved [value0 8] 0 0
    s.shelfOperand x.a = some n ∧
    s.issues x.hdr .gang (shelfFieldsOk s x false false && x.b == .absent && x.c == .absent && isS x.hdr.d)
        [(x.hdr.d, false)] (shelfSrcs x) m :=
  ⟨wordRRR (.s 4) (.s 1) .absent .absent 0, all, 5, by decide +kernel, issues_of_check (by decide +kernel)⟩
theorem witness_ShelfInstructions_shbind : ∃ (x : RRR) (m : Mask) (n : Nat),
    let s := shelved [value0 7, value0 8] 0x4000 0
    let sh := s.shelfOf n
    s.shelfOperand x.a = some n ∧
    s.issues x.hdr .gang (shelfFieldsOk s x false false && isS x.b && x.c == .absent && x.hdr.d == .absent) []
        (shelfSrcs x) m ∧ n ≠ 0 ∧ (readGang s 0x1D 0 x.b).extractLsb' 0 2 = 0 ∧ readGang s 0x1D 0 x.b ≠ 0 ∧
        sh.entries.length ≤ s.ctx.frameRoom :=
  ⟨wordRRR .absent (.s 1) (.s 2) .absent 0, all, 5, by decide +kernel, issues_of_check (by decide +kernel), by decide +kernel⟩
/-- Priority 7, watermarks 0 and 64. -/
theorem witness_ShelfInstructions_shprio : ∃ (x : RRR) (m : Mask) (n : Nat),
    let s := shelved [value0 7] 7 0x4000000000
    let sh := s.shelfOf n
    let p := readGang s 0x1D 0 x.b
    let wm := readGang s 0x1D 0 x.c
    let new : Shelf := { sh with prio := p.extractLsb' 0 3, low := (wm.extractLsb' 0 32).toNat,
                                 high := (wm.extractLsb' 32 32).toNat }
    s.shelfOperand x.a = some n ∧
    s.issues x.hdr .gang (shelfFieldsOk s x false false && isSImm x.b && isS x.c && x.hdr.d == .absent) []
        (shelfSrcs x) m ∧ n ≠ 0 ∧ p.toNat ≤ 7 ∧ new.ok = true :=
  ⟨wordRRR .absent (.s 1) (.s 2) (.s 3) 0, all, 5, by decide +kernel, issues_of_check (by decide +kernel), by decide +kernel⟩

/-! Pages 0 (plain), 1 (MOD) and 2 (code) are in the carrel's translations. -/

def page (frame : Nat) (mod exec : Bool) : Translation :=
  { frame := frame, label := 0, frozen := false, mod := mod, exec := exec, write := !exec, read := true }
def mapped (s : State) : State :=
  { s with l1s := [(0, { Cache.reset with tlb := [(0, page 0 false false), (1, page 1 true false), (2, page 2 false true)] })] }

theorem witness_ModifiableInstructions_modnew : ∃ (x : RRR) (m : Mask),
    base.issues x.hdr .gang (traceFieldsOk base x && isSImm x.a && x.b == .absent && isS x.hdr.d) [(x.hdr.d, false)]
      (abSrcs x) m :=
  ⟨wordRRR (.s 4) (.imm 24) .absent .absent 0, all, issues_of_check (by decide +kernel)⟩

def allocated : State :=
  let s := baseWith fun g => g.setS 1 0x10000
  { s with ctx := { s.ctx with allocs := [{ addr := 0x10000, size := 24, trace := none, folio := 0 }] } }
/-- 0 bytes, and the 17 bytes that touch the last granule of 24. -/
theorem witness_ModifiableInstructions_modfree : ∀ n ∈ [0, 17], ∃ (x : RRR) (m : Mask),
    let s := allocated
    let a := (readGang s 0x1D 0 x.a).toNat
    let lo := a / 8 * 8
    let hi := (a + n + 7) / 8 * 8
    n = (readGang s 0x1C 0 x.b).toNat % 2 ^ 32 ∧
    s.issues x.hdr .gang (traceFieldsOk s x && isS x.a && isSImm x.b && x.hdr.d == .absent) [] (abSrcs x) m ∧
    (n ≠ 0 → s.gang.mode = .untraced ∧ s.ctx.traces = [] ∧
      (∀ i < (hi - lo) / 8, ∃ y ∈ s.ctx.allocs, y.addr ≤ lo + 8 * i ∧ lo + 8 * i < y.stop)) := by
  intro n h
  refine ⟨wordRRR .absent (.s 1) (.imm (BitVec.ofNat 8 n)) .absent 0, all, ?_, issues_of_check ?_, ?_⟩
    <;> revert n <;> decide +kernel

def mWord (d : Operand) (idx data : Operand) (width space : BitVec 3) : MFmt := wordM d 1 idx data width space 0 0

/-- One lane stores to MOD page 1. -/
theorem witness_ModifiableInstructions_modset : ∃ (x : MFmt) (m : Mask) (accs : List LaneAcc) (u : State),
    let s := mapped (baseWith fun g => (g.setS 1 0x10000).modPath fun p => { p with xm := 1 })
    let n := mWidth x.width
    s.issues x.hdr .lane (x.space == 0 && x.width.toNat ≤ 3 && mFieldsOk s.gang x .gm && x.hint == 0 && !x.ext
      && x.hdr.d == .absent && !s.gang.isShadow
      && (match x.idx with
        | .w _ | .absent => true
        | _ => false)
      && (match x.data with
        | .w i => wOk s.gang (n = 8) i
        | _ => false)) [] (mSrcs x true (n = 8)) m ∧
    s.oneTask ∧ s.taskTraced = false ∧ s.gang.path.reach = [] ∧
    (resolveAll m fun l => resolveLane s .gm n Need.store true l (mAddr s.gang x .gm l)) = .ok accs ∧
    (∀ a ∈ accs, a.mod = true) ∧
    modsetLanes (((s.keepAll accs).modPath fun p => { p with
        reach := heldLanes s.gang accs (fun l => bytesToNat (storeData s x.data n l)) fun _ => 0 }).release
      s.gang.carrel levelPackage) (storeData s x.data n) accs = .ok u := by
  let s := mapped (baseWith fun g => (g.setS 1 0x10000).modPath fun p => { p with xm := 1 })
  let accs : List LaneAcc := [⟨0, [⟨0x10000, 0x10000, 4⟩], true, [(0x10000, page 1 true false)]⟩]
  obtain ⟨u, hu⟩ := strong_ok (o := modsetLanes (((s.keepAll accs).modPath fun p => { p with
      reach := heldLanes s.gang accs (fun l => bytesToNat (storeData s (.w 2) 4 l)) fun _ => 0 }).release 0 levelPackage)
    (storeData s (.w 2) 4) accs) (by decide +kernel)
  exact ⟨mWord .absent .absent (.w 2) 2 0, 1, accs, u, issues_of_check (by decide +kernel), ⟨rfl, rfl⟩, by decide +kernel,
    by decide +kernel, ok_eq (by decide +kernel), by decide +kernel, hu⟩
theorem witness_ModifiableInstructions_tkey : ∃ (x : RRR) (m : Mask),
    base.issues x.hdr .gang (traceFieldsOk base x && isSImm x.a && x.b == .absent && x.hdr.d == .absent) [] (abSrcs x) m
      ∧ base.gang.packed = false :=
  ⟨wordRRR .absent (.imm 0xFF) .absent .absent 0, all, issues_of_check (by decide +kernel), rfl⟩

/-- h1 names trace 0. -/
def tracing (t : Trace) : State :=
  ((baseWith fun g => g.setH 1 (handle 3 9 3)).setSlotOf 3 { slot0 3 true with object := 0 }).setTraceOf 0 t
def trace0 : Trace := { Trace.none with live := true, state := .recorded, rootEnded := true }

theorem witness_TraceInstructions_propagate : ∃ (x : RRR) (m : Mask) (i : BitVec 4) (n key : Nat),
    let s := tracing trace0
    x.hdr.d = .h i ∧ s.issues x.hdr .gang (traceFieldsOk s x && isH x.a && x.b == .absent) [(x.hdr.d, false)] (abSrcs x) m ∧
    s.gang.packed = false ∧ s.namedTrace x.a = some n ∧ (s.traceOf n).drop = false ∧ s.newSlot (wingOf s.gang.carrel) = some key :=
  ⟨wordRRR (.h 2) (.h 1) .absent .absent 0, all, 2, 0, 0, rfl, issues_of_check (by decide +kernel), by decide +kernel⟩
/-- The last word of the header. -/
theorem witness_TraceInstructions_tstat : ∃ (x : RRR) (m : Mask) (n : Nat),
    let s := tracing trace0
    s.issues x.hdr .gang (traceFieldsOk s x && isH x.a && isSImm x.b && isS x.hdr.d) [(x.hdr.d, false)] (abSrcs x) m ∧
    s.gang.packed = false ∧ s.namedTrace x.a = some n ∧ (readGang s 0x1C 0 x.b).toNat % 2 ^ 32 ≤ 7 :=
  ⟨wordRRR (.s 5) (.h 1) (.imm 7) .absent 0, all, 0, issues_of_check (by decide +kernel), by decide +kernel⟩
/-- With a PROPAGATE ordered before, and with none. -/
theorem witness_TraceInstructions_tdrop : ∀ waits : Bool, ∃ (x : RRR) (m : Mask) (n : Nat),
    let s := tracing { trace0 with rootEnded := false, state := .recording, props := if waits then [4] else [] }
    s.issues x.hdr .gang (traceFieldsOk s x && isH x.a && x.b == .absent && x.hdr.d == .absent) [] (abSrcs x) m ∧
    s.gang.packed = false ∧ s.namedTrace x.a = some n ∧ (s.traceOf n).rootEnded = false ∧ (waits = true → (s.traceOf n).props ≠ []) ∧
    (waits = false → (s.traceOf n).props = [] ∧ (s.traceOf n).active = none) := by
  intro waits
  refine ⟨wordRRR .absent (.h 1) .absent .absent 0, all, 0, issues_of_check ?_, ?_⟩ <;> revert waits <;> decide +kernel

def held0 : HeldSet := { gang := 0, younger := false, lane := 0, va := 0x10000, pa := 0x10000, data := [1, 2, 3, 4] }
def holding : State := { base with ctx := { base.ctx with heldSets := [held0, { held0 with lane := 1 }] } }
/-- Of gang 0 in its slot, and of the task of frame 0 away. -/
theorem witness_TraceEvents_held : ∀ away : Bool, ∃ (s s0 u : State) (h : HeldSet) (rest : List HeldSet),
    (away = true ↔ awayOwner 0 ≤ h.gang) ∧ s.ctx.heldSets = h :: rest ∧ s.halt = .running ∧ s.seat h.gang = some s0 ∧
    (let s1 := s0.modGang fun g => { g with younger := h.younger }
     s1.modsetHeld (h.va / 8 * 8) = false ∧ s1.rewrites (h.va / 8 * 8) = false ∧
     blockBad s1 (h.pa / 64 * 64) 64 = false ∧
     ({ s1 with ctx := { s1.ctx with heldSets := rest } } : State).modsetAt h.lane h.va h.pa h.data = .ok u) := by
  intro away
  let n := if away then awayOwner 0 else 0
  let h : HeldSet := { held0 with gang := n }
  let s : State := { base with ctx := { base.ctx with
    heldSets := [h], parked := if away then [(0, gang0)] else [] } }
  obtain ⟨s0, hs, hp⟩ := some_with (e := s.seat n) (fun s0 =>
      let s1 := s0.modGang fun g => { g with younger := false }
      !s1.modsetHeld (0x10000 / 8 * 8) && !s1.rewrites (0x10000 / 8 * 8) && !blockBad s1 (0x10000 / 64 * 64) 64
        && (match ({ s1 with ctx := { s1.ctx with heldSets := [] } } : State).modsetAt 0 0x10000 0x10000 [1, 2, 3, 4] with
          | .ok _ => true
          | _ => false)) (by revert away; decide +kernel)
  simp only [Bool.and_eq_true, Bool.not_eq_true'] at hp
  obtain ⟨u, hu⟩ := strong_ok hp.2
  refine ⟨s, s0, u, h, [], ?_, rfl, rfl, hs, hp.1.1.1, hp.1.1.2, hp.1.2, hu⟩
  clear hs hp hu; revert away; decide +kernel
theorem witness_TraceEvents_held_next : ∃ (s : State) (h : HeldSet) (rest : List HeldSet),
    s.ctx.heldSets = h :: rest ∧ s.halt = .running ∧ h.gang < awayOwner 0 ∧ (s.gangOf h.gang).resident = true ∧
    h.pa / 8 * 8 + 8 ≤ s.memBytes ∧ replayMode ((s.gangOf h.gang).task h.lane).replaym = 0 ∧
    s.modsetHeld (h.va / 8 * 8) = false ∧ s.rewrites (h.va / 8 * 8) = false ∧ blockBad s (h.pa / 64 * 64) 64 = false ∧
    h.pa % 8 + h.data.length ≤ 8 :=
  ⟨holding, held0, [{ held0 with lane := 1 }], rfl, rfl, by decide +kernel⟩
theorem witness_TraceEvents_begin : ∃ (s : State) (n key : Nat) (rest : List Nat), (s.traceOf n).props = key :: rest
    ∧ (s.traceOf n).live = true ∧ (s.traceOf n).active = none ∧ (s.traceOf n).rootEnded = true ∧ s.halt = .running
    ∧ s.setsBefore key = false ∧ s.discardedRuns n = false ∧ (s.traceOf n).state ≠ .abandoned :=
  ⟨tracing { trace0 with props := [4] }, 0, 4, [], by decide +kernel⟩
theorem witness_TraceEvents_begin_next : ∃ (s : State) (n key : Nat) (rest : List Nat), (s.traceOf n).props = key :: rest
    ∧ (s.traceOf n).live = true ∧ (s.traceOf n).active = none ∧ (s.traceOf n).rootEnded = true
    ∧ s.setsBefore key = false ∧ s.discardedRuns n = false ∧ s.halt = .running ∧ (s.traceOf n).state ≠ .abandoned
    ∧ (s.traceOf n).cancels = [] ∧ (s.traceOf n).queue ≠ [] :=
  ⟨tracing { trace0 with props := [4], queue := [2] }, 0, 4, [], by decide +kernel⟩
theorem witness_TraceEvents_afresh : ∃ (s : State) (n key : Nat) (rest : List Nat), (s.traceOf n).props = key :: rest
    ∧ (s.traceOf n).live = true ∧ (s.traceOf n).active = none ∧ (s.traceOf n).rootEnded = true ∧ s.halt = .running
    ∧ s.setsBefore key = false ∧ s.discardedRuns n = false
    ∧ (s.traceOf n).state = .abandoned ∧ (s.shelfOf (s.frameOf (s.traceOf n).rootFrame).shelf).full = false :=
  ⟨tracing { trace0 with props := [4], state := .abandoned }, 0, 4, [], by decide +kernel⟩
/-- A trace of two folios. -/
theorem witness_TraceEvents_relabel : ∃ (s : State) (n : Nat), (s.traceOf n).live = true ∧ (s.traceOf n).relabel = true
    ∧ (s.traceOf n).folios.length = 2 :=
  ⟨tracing { trace0 with
    relabel := true, folios := [(1, { Folio.none with label := 5 }), (2, { Folio.none with label := 9 })] }, 0, by decide +kernel⟩

/-- Arrivals at barrier 31 of the package, the last id, of 2 and of 1 participants. -/
theorem witness_Barriers_bara : ∀ n ∈ [1, 2], ∃ (x : RRR) (m : Mask) (u : State) (token : Word),
    base.issues x.hdr .gang (barFieldsOk base.gang x && barCountOk x && dstOk .gang base.gang false x.hdr.d) [(x.hdr.d, false)]
      (barSrcs x) m ∧ base.taskTraced = false ∧ barCount base x = some n ∧
    base.arrive (barLevel x) (barNumber base x.a) (barCount base x) = some (u, token) := by
  intro n h
  have e : ∃ r, base.arrive 3 31 (some n) = some r := by
    obtain ⟨r, hr, -⟩ := some_with (e := base.arrive 3 31 (some n)) (fun _ => true) (by revert n; decide +kernel)
    exact ⟨r, hr⟩
  obtain ⟨⟨u, token⟩, hr⟩ := e
  have hx : barLevel (wordRRR (.s 5) (.imm 31) (.imm (BitVec.ofNat 8 n)) .absent 0xC0) = 3
      ∧ barNumber base (.imm 31) = 31 ∧ barCount base (wordRRR (.s 5) (.imm 31) (.imm (BitVec.ofNat 8 n)) .absent 0xC0) = some n := by
    clear hr; revert n; decide +kernel
  refine ⟨wordRRR (.s 5) (.imm 31) (.imm (BitVec.ofNat 8 n)) .absent 0xC0, all, u, token, issues_of_check ?_, by decide +kernel, hx.2.2, ?_⟩
  · clear hr hx; revert n; decide +kernel
  · show base.arrive (barLevel (wordRRR (.s 5) (.imm 31) (.imm (BitVec.ofNat 8 n)) .absent 0xC0)) (barNumber base (.imm 31)) _ = _
    rw [hx.1, hx.2.1, hx.2.2, hr]
/-- The token 0 of the first phase, and a token of another. -/
theorem witness_Barriers_barw : ∀ same : Bool, ∃ (x : RRR) (m : Mask),
    let s := baseWith fun g => g.setS 1 (if same then 0 else 1)
    s.issues x.hdr .gang (barFieldsOk s.gang x && x.hdr.d == .absent && isS x.b) [] (barSrcs x) m ∧
    s.taskTraced = false ∧ barNumber s x.a < barrierIds (barLevel x)
      ∧ decide ((s.barrier (barLevel x) (barNumber s x.a)).phase.toNat = barNumber s x.b) = same := by
  intro same
  refine ⟨wordRRR .absent (.imm 15) (.s 1) .absent 0x40, all, issues_of_check ?_, ?_, ?_, ?_⟩ <;> revert same <;> decide +kernel
/-- The last arrival of 1, and the first of 2. -/
theorem witness_Barriers_bar : ∀ last : Bool, ∃ (x : RRR) (m : Mask) (u : State) (token : Word),
    base.issues x.hdr .gang (barFieldsOk base.gang x && barCountOk x && x.hdr.d == .absent) [] (barSrcs x) m ∧
    base.gang.path.wait = .none ∧ base.taskTraced = false ∧
    base.arrive (barLevel x) (barNumber base x.a) (barCount base x) = some (u, token) ∧
    decide ((u.barrier (barLevel x) (barNumber base x.a)).phase ≠ token) = last := by
  intro last
  have e : ∃ r, base.arrive 1 3 (some (if last then 1 else 2)) = some r
      ∧ decide ((r.1.barrier 1 3).phase ≠ r.2) = last := by
    obtain ⟨r, hr, h⟩ := some_with (e := base.arrive 1 3 (some (if last then 1 else 2)))
      (fun r => decide ((r.1.barrier 1 3).phase ≠ r.2) == last) (by revert last; decide +kernel)
    exact ⟨r, hr, by simpa using h⟩
  obtain ⟨⟨u, token⟩, hr, hp⟩ := e
  have hx : barCount base (wordRRR .absent (.imm 3) (.imm (if last then 1 else 2)) .absent 0x40) = some (if last then 1 else 2) := by
    clear hr hp; revert last; decide +kernel
  have hl : barLevel (wordRRR .absent (.imm 3) (.imm (if last then 1 else 2)) .absent 0x40) = 1 := by
    clear hr hp hx; revert last; decide +kernel
  have hn : barNumber base (.imm 3) = 3 := by decide +kernel
  refine ⟨wordRRR .absent (.imm 3) (.imm (if last then 1 else 2)) .absent 0x40, all, u, token, issues_of_check ?_, ?_, ?_, ?_, ?_⟩
  · clear hr hp hx hl; revert last; decide +kernel
  · decide +kernel
  · decide +kernel
  · show base.arrive (barLevel _) (barNumber base (.imm 3)) _ = _
    rw [hl, hn, hx, hr]
  · show decide ((u.barrier (barLevel _) (barNumber base (.imm 3))).phase ≠ token) = last
    rw [hl, hn, hp]

/-- Arrivals before the last, and the last. -/
theorem witness_Barriers_arrive : ∀ n ∈ [1, 65535], ∃ (u : State) (token : Word),
    base.arrive 3 31 (some n) = some (u, token) ∧ base.gang.packed = false
      ∧ ((base.release base.gang.carrel 3).barrier 3 31).count < n := by
  intro n h
  have hc : ((base.release base.gang.carrel 3).barrier 3 31).count < n := by revert n; decide +kernel
  obtain ⟨r, hr, -⟩ := some_with (e := base.arrive 3 31 (some n)) (fun _ => true) (by revert n; decide +kernel)
  exact ⟨r.1, r.2, hr, rfl, hc⟩
/-- A packed gang of two tasks arrives. -/
theorem witness_Barriers_packed : ∃ (u : State) (token : Word), packed0.arrive 1 15 (some 2) = some (u, token)
    ∧ packed0.gang.packed = true := by
  obtain ⟨r, hr, -⟩ := some_with (e := packed0.arrive 1 15 (some 2)) (fun _ => true) (by decide +kernel)
  exact ⟨r.1, r.2, hr, rfl⟩

/-! Accesses: s1 holds the last doubleword of page 0, or the last of the space. -/

def memory (v : DWord) : State :=
  mapped (withConsts (baseWith fun g => { g.setS 1 v with cbase := 0x8000, clim := 1 }) (List.replicate 8 7))

/-- Space, base register, index, offset and s1 of an access at the end of the space. -/
def spots : List (Space × BitVec 3 × BitVec 6 × Operand × BitVec 24 × DWord) :=
  [(.gm, 0, 1, .absent, 0, 0xFFF0), (.sp, 1, 1, .absent, 0, 0x7FFF0), (.cl, 2, 0, .w 1, 0, 0),
   (.fr, 3, 0, .absent, 0xB8, 0), (.lf, 4, 1, .absent, 0, 0x3FFFF0), (.cn, 5, 0, .absent, 4, 0)]

/-- The premise of loads and stores that no task of the gang is traced. -/
theorem witness_LoadResult_untraced (v : DWord) :
    (∀ l, (memory v).traced ((memory v).gang.task l) = false) ∧ (memory v).gang.path.reread = false :=
  ⟨untraced_of rfl rfl, rfl⟩
/-- Into FIFO 15 of a shadow's partner, from the scratchpad. -/
theorem witness_LoadResult_q : ∃ (x : MFmt) (m : Mask) (accs : List LaneAcc),
    let s := mapped shadowed
    (∀ l, s.traced (s.gang.task l) = false) ∧ s.gang.path.reread = false ∧ x.hdr.d = .q 15 ∧
    Space.ofBits x.space = some .sp ∧
    (let n := mWidth x.width
     s.issues x.hdr .lane (x.width.toNat ≤ 3 && mFieldsOk s.gang x .sp && x.data == .absent && (!x.ext || n < 4)
       && (Space.sp != .cl || 4 ≤ n) && (match x.hdr.d with
         | .w i => wOk s.gang (n = 8) i
         | .q _ => s.gang.isShadow && n ≤ 4
         | _ => false)) [(x.hdr.d, n = 8)] (mSrcs x (readsBase .sp) false) m ∧
     s.passes x .sp n Need.load m accs) := by
  obtain ⟨accs, h, -⟩ := ok_with (e := resolveAll all fun l => resolveLane (mapped shadowed) .sp 4 Need.load true l
    (mAddr (mapped shadowed).gang (wordM (.q 15) 1 .absent .absent 2 1 0 0) .sp l)) (fun _ => true) (by decide +kernel)
  exact ⟨wordM (.q 15) 1 .absent .absent 2 1 0 0, all, accs, untraced_of rfl rfl, rfl, rfl, rfl, issues_of_check (by decide +kernel), h⟩

theorem witness_LoadResult_ld : ∀ p ∈ spots, ∃ (x : MFmt) (m : Mask) (accs : List LaneAcc),
    let s := memory p.2.2.2.2.2
    Space.ofBits x.space = some p.1 ∧ s.traced s.gang = false ∧
    (let n := mWidth x.width
     s.issues x.hdr .lane (x.width.toNat ≤ 3 && mFieldsOk s.gang x p.1 && x.data == .absent && (!x.ext || n < 4)
       && (p.1 != .cl || 4 ≤ n) && (match x.hdr.d with
         | .w i => wOk s.gang (n = 8) i
         | .q _ => s.gang.isShadow && n ≤ 4
         | _ => false)) [(x.hdr.d, n = 8)] (mSrcs x (readsBase p.1) false) m ∧
     s.passes x p.1 n Need.load m accs) := by
  intro p hp
  obtain ⟨accs, h, -⟩ := ok_with (e := resolveAll all fun l => resolveLane (memory p.2.2.2.2.2) p.1 4 Need.load true l
    (mAddr (memory p.2.2.2.2.2).gang (wordM (.w 4) p.2.2.1 p.2.2.2.1 .absent 2 p.2.1 0 p.2.2.2.2.1) p.1 l)) (fun _ => true)
    (by revert p; decide +kernel)
  refine ⟨wordM (.w 4) p.2.2.1 p.2.2.2.1 .absent 2 p.2.1 0 p.2.2.2.2.1, all, accs, ?_, ?_, issues_of_check ?_, h⟩
    <;> clear h <;> revert p <;> decide +kernel

theorem witness_LoadResult_ldv : ∀ p ∈ spots.filter (fun p => p.1 == .gm || p.1 == .sp || p.1 == .lf),
    ∃ (x : MFmt) (m : Mask) (accs : List LaneAcc) (i : BitVec 8),
    let s := memory p.2.2.2.2.2
    Space.ofBits x.space = some p.1 ∧ s.traced s.gang = false ∧ x.hdr.d = .w i ∧
     s.issues x.hdr .lane (p.1 != .cl && x.width.toNat = 4 && mFieldsOk s.gang x p.1 && x.data == .absent && !x.ext
       && quadOk s.gang x.hdr.d) [(x.hdr.d, true), (.w (i + 2), true)] (mSrcs x (readsBase p.1) false) m ∧
     s.passes x p.1 16 Need.load m accs := by
  intro p hp
  obtain ⟨accs, h, -⟩ := ok_with (e := resolveAll all fun l => resolveLane (memory p.2.2.2.2.2) p.1 16 Need.load true l
    (mAddr (memory p.2.2.2.2.2).gang (wordM (.w 60) p.2.2.1 p.2.2.2.1 .absent 4 p.2.1 0 p.2.2.2.2.1) p.1 l)) (fun _ => true)
    (by revert p; decide +kernel)
  refine ⟨wordM (.w 60) p.2.2.1 p.2.2.2.1 .absent 4 p.2.1 0 p.2.2.2.2.1, all, accs, 60, ?_, ?_, ?_, issues_of_check ?_, h⟩
    <;> clear h <;> revert p <;> decide +kernel

def flying (f : Flight) : State := baseWith fun g => { g with flights := [f] }

theorem witness_ResultsReturn_w : ∃ (s : State) (gn n : Nat) (f : Flight) (i : BitVec 8), gn < awayOwner 0 ∧
    (s.gangOf gn).flights[n]? = some f ∧
    (s.gangOf gn).resident = true ∧ s.halt = .running ∧ f.replay = false ∧ (∀ c num due, f.req ≠ .sysr c num due) ∧ (∀ h, f.req ≠ .strong h) ∧
    f.dst = .w i ∧ i.toNat + f.vals.length ≤ 256 :=
  ⟨flying (flight0 (.w 252) 0x80000001 (List.replicate 4 (Lanes.all 9)) 0),
    0, 0, _, 252, by decide, rfl, rfl, rfl, rfl, (fun _ _ _ h => nomatch h), (fun _ h => nomatch h), rfl, by decide⟩
theorem witness_ResultsReturn_s : ∃ (s : State) (gn n : Nat) (f : Flight) (i : BitVec 6), gn < awayOwner 0 ∧
    (s.gangOf gn).flights[n]? = some f ∧
    (s.gangOf gn).resident = true ∧ s.halt = .running ∧ f.replay = false ∧ (∀ c num due, f.req ≠ .sysr c num due) ∧ (∀ h, f.req ≠ .strong h) ∧ f.dst = .s i :=
  ⟨flying (flight0 (.s 63) 1 [] 5), 0, 0, _, 63, by decide, rfl,
    rfl, rfl, rfl, (fun _ _ _ h => nomatch h), (fun _ h => nomatch h), rfl⟩
/-- A shadow's load into FIFO 15. -/
theorem witness_ResultsReturn_q : ∃ (s : State) (gn n : Nat) (f : Flight) (i : BitVec 4), gn < awayOwner 0 ∧
    (s.gangOf gn).flights[n]? = some f ∧
    (s.gangOf gn).resident = true ∧ s.halt = .running ∧ f.replay = false ∧ (∀ c num due, f.req ≠ .sysr c num due) ∧ (∀ h, f.req ≠ .strong h) ∧ f.dst = .q i :=
  ⟨shadowed.modGang fun g => { g with flights := [flight0 (.q 15) 1 [Lanes.all 9] 0] }, 1, 0,
    flight0 (.q 15) 1 [Lanes.all 9] 0, 15, by decide, by decide +kernel, by decide +kernel, rfl, rfl, (fun _ _ _ h => nomatch h), (fun _ h => nomatch h), rfl⟩
theorem witness_ResultsReturn_sysr : ∃ (s : State) (gn n : Nat) (f : Flight) (c num due : Nat) (i : BitVec 6), gn < awayOwner 0 ∧
    (s.gangOf gn).flights[n]? = some f ∧ (s.gangOf gn).resident = true ∧ s.halt = .running ∧ f.replay = false ∧
    f.req = .sysr c num due ∧ due ≤ s.clock ∧ f.dst = .s i :=
  ⟨flying { flight0 (.s 1) 1 [] 0 with req := .sysr 0 3 0 }, 0, 0, _, 0, 3, 0, 1, by decide, rfl, by decide +kernel⟩
/-- The task of frame 256 has parked with a result in flight, a load or a SYSR; its trace, if it has one, records. -/
def away (sys traced : Bool) : State :=
  let f : Flight := if sys then { flight0 (.s 1) 1 [] 0 with req := .sysr 0 3 0 } else flight0 (.w 2) 1 [Lanes.all 9] 0
  let g : Gang := { gang0 with
    flights := [f], mode := if traced then .recording else .untraced, pend := .one 3 (.s 4) none }
  ({ base with ctx := { base.ctx with parked := [(256, g)] } } : State).setTraceOf 0
    { Trace.none with live := true, state := .recording }
theorem witness_ResultsReturn_parked : ∀ sys traced : Bool, ∃ (s : State) (a n : Nat) (g : Gang) (f : Flight),
    Table.seek s.ctx.parked a = some g ∧ g.flights[n]? = some f ∧ s.halt = .running ∧ f.replay = false ∧
    (∀ h, f.req ≠ .strong h) ∧ (∀ i, f.dst ≠ .q i) ∧ (∀ c num due, f.req = .sysr c num due → due ≤ s.clock) ∧
    s.traced g = traced ∧ (traced = true → s.isReady { g with flights := [] } = false) ∧
    ∃ t, exec (.loadReturn (awayOwner 0 + a) n) s = .next t ∧ ∀ m, (t.traceOf m).state = (s.traceOf m).state := by
  intro sys traced
  have same : ∃ t, exec (.loadReturn (awayOwner 0 + 256) 0) (away sys traced) = .next t
      ∧ decide (t.ctx.traces = (away sys traced).ctx.traces) = true := next_with _ (by revert sys traced; decide +kernel)
  obtain ⟨t, h, e⟩ := same
  refine ⟨away sys traced, 256, 0, _, _, rfl, rfl, ?_, ?_, ?_, ?_, ?_, ?_, ?_, t, h, fun m => ?_⟩
  · cases sys <;> rfl
  · cases sys <;> rfl
  · cases sys <;> exact fun _ h => nomatch h
  · cases sys <;> exact fun _ h => nomatch h
  · cases sys
    · exact fun _ _ _ h => nomatch h
    · exact fun _ _ _ h => by cases h; exact Nat.zero_le _
  · clear e h t; revert sys traced; decide +kernel
  · clear e h t; revert sys traced; decide +kernel
  · unfold State.traceOf; rw [of_decide_eq_true e]

/-- The saved gang holds the loaded word, and the flight is gone. -/
theorem test_parked_return : after (exec (.loadReturn (awayOwner 0 + 256) 0) (away false true)) (fun t =>
    (Table.seek t.ctx.parked 256).any fun g => g.flights.isEmpty && (g.wReg 2).at 0 == 9 && !(g.wEmpty 2).getLsbD 0) = true := by
  decide +kernel

def stores4 : List (Space × BitVec 3 × BitVec 6 × Operand × BitVec 24 × DWord) :=
  spots.filter fun p => p.1 != .lf && p.1 != .cn

theorem witness_StoreResult_st : ∀ p ∈ stores4, ∃ (x : MFmt) (m : Mask) (accs : List LaneAcc),
    let s := memory p.2.2.2.2.2
    Space.ofBits x.space = some p.1 ∧ s.traced s.gang = false ∧
    (let n := mWidth x.width
     s.issues x.hdr .lane (p.1 != .lf && p.1 != .cn && x.width.toNat ≤ 3 && mFieldsOk s.gang x p.1
       && x.hdr.d == .absent && !x.ext && (p.1 != .cl || 4 ≤ n) && storeDataOk s.gang (n = 8) x.data
       && !s.gang.isShadow) [] (mSrcs x (readsBase p.1) (n = 8)) m ∧
     s.passes x p.1 n Need.store m accs ∧ storeFillBad s (s.stores x n accs) = []) := by
  intro p hp
  obtain ⟨accs, h, hb⟩ := ok_with (e := resolveAll all fun l => resolveLane (memory p.2.2.2.2.2) p.1 4 Need.store true l
    (mAddr (memory p.2.2.2.2.2).gang (wordM .absent p.2.2.1 p.2.2.2.1 (.w 5) 2 p.2.1 0 p.2.2.2.2.1) p.1 l))
    (fun accs => storeFillBad (memory p.2.2.2.2.2)
      ((memory p.2.2.2.2.2).stores (wordM .absent p.2.2.1 p.2.2.2.1 (.w 5) 2 p.2.1 0 p.2.2.2.2.1) 4 accs) == [])
    (by revert p; decide +kernel)
  refine ⟨wordM .absent p.2.2.1 p.2.2.2.1 (.w 5) 2 p.2.1 0 p.2.2.2.2.1, all, accs, ?_, ?_, issues_of_check ?_, h, eq_of_beq hb⟩
    <;> clear h hb <;> revert p <;> decide +kernel

theorem witness_StoreResult_stv : ∀ p ∈ stores4.filter (fun p => p.1 == .gm || p.1 == .sp),
    ∃ (x : MFmt) (m : Mask) (accs : List LaneAcc) (i : BitVec 8),
    let s := memory p.2.2.2.2.2
    Space.ofBits x.space = some p.1 ∧ s.traced s.gang = false ∧ x.data = .w i ∧
     s.issues x.hdr .lane ((p.1 == .gm || p.1 == .sp) && x.width.toNat = 4 && mFieldsOk s.gang x p.1
       && x.hdr.d == .absent && !x.ext && quadOk s.gang x.data && !s.gang.isShadow) []
       (fun m => mSrcs x (readsBase p.1) false m
         ++ [⟨.w i, x.fe.getLsbD 0, 1, true, m⟩, ⟨.w (i + 2), x.fe.getLsbD 0, 1, true, m⟩]) m ∧
     s.passes x p.1 16 Need.store m accs ∧ storeFillBad s (s.stores x 16 accs) = [] := by
  intro p hp
  obtain ⟨accs, h, hb⟩ := ok_with (e := resolveAll all fun l => resolveLane (memory p.2.2.2.2.2) p.1 16 Need.store true l
    (mAddr (memory p.2.2.2.2.2).gang (wordM .absent p.2.2.1 p.2.2.2.1 (.w 60) 4 p.2.1 0 p.2.2.2.2.1) p.1 l))
    (fun accs => storeFillBad (memory p.2.2.2.2.2)
      ((memory p.2.2.2.2.2).stores (wordM .absent p.2.2.1 p.2.2.2.1 (.w 60) 4 p.2.1 0 p.2.2.2.2.1) 16 accs) == [])
    (by revert p; decide +kernel)
  refine ⟨wordM .absent p.2.2.1 p.2.2.2.1 (.w 60) 4 p.2.1 0 p.2.2.2.2.1, all, accs, 60, ?_, ?_, ?_, issues_of_check ?_, h, eq_of_beq hb⟩
    <;> clear h hb <;> revert p <;> decide +kernel

theorem witness_LabelsAndPrefetch_ldlbl : ∀ p ∈ spots.filter (fun p => p.1 == .gm || p.1 == .sp || p.1 == .lf),
    ∃ (x : MFmt) (m : Mask) (accs : List LaneAcc) (i : BitVec 8),
    let s := memory p.2.2.2.2.2
    Space.ofBits x.space = some p.1 ∧ x.hdr.d = .w i ∧
    s.issues x.hdr .lane ((p.1 == .gm || p.1 == .sp || p.1 == .lf) && x.width.toNat = 1 && mFieldsOk s.gang x p.1
      && x.hint == 0 && x.data == .absent && !x.ext && wOk s.gang false i) [(.w i, false)] (mSrcs x true false) m ∧
    (resolveAll m fun l => resolveLane s p.1 1 Need.load false l (mAddr s.gang x p.1 l)) = .ok accs := by
  intro p hp
  obtain ⟨accs, h, -⟩ := ok_with (e := resolveAll all fun l => resolveLane (memory p.2.2.2.2.2) p.1 1 Need.load false l
    (mAddr (memory p.2.2.2.2.2).gang (wordM (.w 4) p.2.2.1 p.2.2.2.1 .absent 1 p.2.1 0 p.2.2.2.2.1) p.1 l)) (fun _ => true)
    (by revert p; decide +kernel)
  refine ⟨wordM (.w 4) p.2.2.1 p.2.2.2.1 .absent 1 p.2.1 0 p.2.2.2.2.1, all, accs, 4, ?_, ?_, issues_of_check ?_, h⟩
    <;> clear h <;> revert p <;> decide +kernel

/-- The label of the last block. -/
theorem witness_LabelsAndPrefetch_stlbl : ∀ p ∈ spots.filter (fun p => p.1 == .gm || p.1 == .sp),
    ∃ (x : MFmt) (m : Mask) (accs : List LaneAcc),
    let s := memory p.2.2.2.2.2
    Space.ofBits x.space = some p.1 ∧
    s.issues x.hdr .lane ((p.1 == .gm || p.1 == .sp) && x.width.toNat = 1 && mFieldsOk s.gang x p.1 && x.hint == 0
      && x.hdr.d == .absent && !x.ext && !s.gang.isShadow && (match x.data with
        | .w i => decide (i.toNat < s.gang.regs)
        | .s _ => true
        | _ => false)) [] (mSrcs x true false) m ∧
    (resolveAll m fun l => resolveLane s p.1 1 Need.store false l (mAddr s.gang x p.1 l)) = .ok accs ∧
    (∀ a ∈ accs, a.mod = true → s.traceLive = false) ∧
    (p.1 = .gm → ∀ a ∈ accs, ∀ q ∈ a.pieces, blockBad s (q.pa / 64 * 64) 64 = false) := by
  intro p hp
  obtain ⟨accs, h, hb⟩ := ok_with (e := resolveAll all fun l => resolveLane (memory p.2.2.2.2.2) p.1 1 Need.store false l
    (mAddr (memory p.2.2.2.2.2).gang (wordM .absent p.2.2.1 p.2.2.2.1 (.w 5) 1 p.2.1 0 p.2.2.2.2.1) p.1 l))
    (fun accs => decide ((∀ a ∈ accs, a.mod = true → (memory p.2.2.2.2.2).traceLive = false) ∧
      (p.1 = .gm → ∀ a ∈ accs, ∀ q ∈ a.pieces, blockBad (memory p.2.2.2.2.2) (q.pa / 64 * 64) 64 = false)))
    (by revert p; decide +kernel)
  refine ⟨wordM .absent p.2.2.1 p.2.2.2.1 (.w 5) 1 p.2.1 0 p.2.2.2.2.1, all, accs, ?_, issues_of_check ?_, h, of_decide_eq_true hb⟩
    <;> clear h hb <;> revert p <;> decide +kernel
/-- A prefetch that is not a stream of the last sector of page 0. -/
theorem witness_LabelsAndPrefetch_pref : ∃ (x : MFmt) (m : Mask) (l : Nat) (a : LaneAcc),
    let s := memory 0xFFF0
    s.issues x.hdr .lane (x.space == 0 && x.width == 0 && mFieldsOk s.gang x .gm && x.hdr.d == .absent
      && x.data == .absent && !x.ext) [] (mSrcs x true false) m ∧
    x.hint.toNat ≠ 1 ∧ m.getLsbD l = true ∧ l < 32 ∧ resolveLane s .gm 1 Need.load false l (mAddr s.gang x .gm l) = .ok a := by
  obtain ⟨a, h, -⟩ := ok_with (e := resolveLane (memory 0xFFF0) .gm 1 Need.load false 31
    (mAddr (memory 0xFFF0).gang (wordM .absent 1 .absent .absent 0 0 0 0) .gm 31)) (fun _ => true) (by decide +kernel)
  exact ⟨wordM .absent 1 .absent .absent 0 0 0 0, all, 31, a, issues_of_check (by decide +kernel), by decide, by decide, by decide, h⟩

/-! Strong accesses by two lanes of one word, at s3. -/

def strongState : State := mapped (baseWith fun g => ((g.setS 3 0xFFF8).modPath fun p => { p with xm := 3 }))
def strongWord (d data : Operand) (op : BitVec 5) : MSFmt := wordMS d data .absent op 1 true false

theorem witness_StrongAccess_ldx : ∃ (x : MSFmt) (u : State) (m : Mask) (accs : List LaneAcc),
    let s := strongState
    let wide : Bool := x.width.toNat = 1
    let z := msWidth x.width
    let first := s.strongStart x accs
    s.oneTask ∧ s.traced s.gang = false ∧ s.gang.path.done = [] ∧ (s.choice = 0 ∨ accs.length ≤ s.choice) ∧
    s.issues x.hdr .lane (msFieldsOk s.gang x && x.op == 0 && x.data == .absent && x.data2 == .absent
        && dstOk .lane s.gang wide x.hdr.d) [(x.hdr.d, wide)] (msSrcs x) m ∧
      s.strongPasses x Need.load m accs ∧ strongLanes first z none (fun _ _ => none) accs = .ok u := by
  obtain ⟨accs, h, hu⟩ := ok_with (e := resolveAll 3 fun l =>
      match resolveLane strongState .gm 4 { Need.load with read := false } true l (msAddr strongState.gang (strongWord (.w 4) .absent 0) l) with
      | .error e => .error e
      | .ok a => if a.trans.all (fun t => strongState.pageOk t.2 t.1 (Need.load.of 4)) then .ok a
                 else .error (laneErr Code.protection (msAddr strongState.gang (strongWord (.w 4) .absent 0) l)))
    (fun accs => match strongLanes (strongState.strongStart (strongWord (.w 4) .absent 0) accs) 4 none (fun _ _ => none) accs with
      | .ok _ => true
      | _ => false) (by decide +kernel)
  obtain ⟨u, hu⟩ := strong_ok hu
  exact ⟨strongWord (.w 4) .absent 0, u, 3, accs, ⟨rfl, rfl⟩, by decide +kernel, by decide +kernel, .inl rfl, issues_of_check (by decide +kernel), h, hu⟩

theorem witness_StrongAccess_stx : ∃ (x : MSFmt) (u : State) (m : Mask) (accs : List LaneAcc),
    let s := strongState
    let wide : Bool := x.width.toNat = 1
    let z := msWidth x.width
    let first := s.strongStart x accs
    s.oneTask ∧ s.traced s.gang = false ∧ s.gang.path.done = [] ∧ (s.choice = 0 ∨ accs.length ≤ s.choice) ∧
    s.issues x.hdr .lane (msFieldsOk s.gang x && x.op == 0 && x.hdr.d == .absent && x.data2 == .absent
        && storeDataOk s.gang wide x.data) [] (msSrcs x) m ∧
      s.strongPasses x Need.store m accs ∧
      strongLanes first z none (fun l _ => some (bytesToNat (storeData s x.data z l))) accs = .ok u := by
  obtain ⟨accs, h, hu⟩ := ok_with (e := resolveAll 3 fun l =>
      match resolveLane strongState .gm 4 { Need.store with read := false } true l (msAddr strongState.gang (strongWord .absent (.w 2) 0) l) with
      | .error e => .error e
      | .ok a => if a.trans.all (fun t => strongState.pageOk t.2 t.1 (Need.store.of 4)) then .ok a
                 else .error (laneErr Code.protection (msAddr strongState.gang (strongWord .absent (.w 2) 0) l)))
    (fun accs => match strongLanes (strongState.strongStart (strongWord .absent (.w 2) 0) accs) 4 none
        (fun l _ => some (bytesToNat (storeData strongState (.w 2) 4 l))) accs with
      | .ok _ => true
      | _ => false) (by decide +kernel)
  obtain ⟨u, hu⟩ := strong_ok hu
  exact ⟨strongWord .absent (.w 2) 0, u, 3, accs, ⟨rfl, rfl⟩, by decide +kernel, by decide +kernel, .inl rfl, issues_of_check (by decide +kernel), h, hu⟩

theorem witness_StrongAccess_atom : ∀ op ∈ [0, 10], ∃ (x : MSFmt) (u : State) (m : Mask) (accs : List LaneAcc),
    let s := strongState
    let wide : Bool := x.width.toNat = 1
    let z := msWidth x.width
    let first := s.strongStart x accs
    x.op.toNat = op ∧ s.oneTask ∧ s.traced s.gang = false ∧ s.gang.path.done = [] ∧ (s.choice = 0 ∨ accs.length ≤ s.choice) ∧
    s.issues x.hdr .lane (msFieldsOk s.gang x && x.op.toNat ≤ 0x0A
        && (x.hdr.d == .absent || dstOk .lane s.gang wide x.hdr.d)
        && (storeDataOk s.gang wide x.data || (x.data == .absent && x.op.toNat = 0x0A))
        && (if x.op.toNat = 0x09 then storeDataOk s.gang wide x.data2 else x.data2 == .absent))
        [(x.hdr.d, wide)] (msSrcs x) m ∧
      s.strongPasses x Need.both m accs ∧
      strongLanes first z (some x.op.toNat) (fun l old => atomNew x.op.toNat (x.data == .absent) (8 * z) old
        (bytesToNat (storeData s x.data z l)) (bytesToNat (storeData s x.data2 z l))) accs = .ok u := by
  intro op hop
  obtain ⟨accs, h, hu⟩ := ok_with (e := resolveAll 3 fun l =>
      match resolveLane strongState .gm 4 { Need.both with read := false } true l (msAddr strongState.gang (strongWord (.w 5) (.w 2) (BitVec.ofNat 5 op)) l) with
      | .error e => .error e
      | .ok a => if a.trans.all (fun t => strongState.pageOk t.2 t.1 (Need.both.of 4)) then .ok a
                 else .error (laneErr Code.protection (msAddr strongState.gang (strongWord (.w 5) (.w 2) (BitVec.ofNat 5 op)) l)))
    (fun accs => match strongLanes (strongState.strongStart (strongWord (.w 5) (.w 2) (BitVec.ofNat 5 op)) accs) 4
        (some (BitVec.ofNat 5 op).toNat) (fun l old => atomNew (BitVec.ofNat 5 op).toNat false 32 old
        (bytesToNat (storeData strongState (.w 2) 4 l)) (bytesToNat (storeData strongState .absent 4 l))) accs with
      | .ok _ => true
      | _ => false) (by revert op; decide +kernel)
  obtain ⟨u, hv⟩ := strong_ok hu
  clear hu
  refine ⟨strongWord (.w 5) (.w 2) (BitVec.ofNat 5 op), u, 3, accs, ?_, ⟨rfl, rfl⟩, by decide +kernel, by decide +kernel, .inl rfl, issues_of_check ?_, h, hv⟩
    <;> clear h hv <;> revert op <;> decide +kernel

/-- Another task's access may stand after the first of two lanes. -/
theorem witness_StrongAccess_between : ∃ (x : MSFmt) (u : State) (m : Mask) (accs : List LaneAcc),
    let s := { strongState with choices := [1] }
    s.oneTask ∧ s.traced s.gang = false ∧ s.gang.path.done = [] ∧ 0 < s.choice ∧ s.choice < accs.length ∧
    s.issues x.hdr .lane (msFieldsOk s.gang x && x.op == 0 && x.data == .absent && x.data2 == .absent
        && dstOk .lane s.gang (x.width.toNat = 1) x.hdr.d) [(x.hdr.d, x.width.toNat = 1)] (msSrcs x) m ∧
    s.strongPasses x Need.load m accs ∧
    strongLanes (s.strongStart x accs) (msWidth x.width) none (fun _ _ => none) (accs.take s.choice) = .ok u := by
  let s := { strongState with choices := [1] }
  obtain ⟨accs, h, hu⟩ := ok_with (e := resolveAll 3 fun l =>
      match resolveLane s .gm 4 { Need.load with read := false } true l (msAddr s.gang (strongWord (.w 4) .absent 0) l) with
      | .error e => .error e
      | .ok a => if a.trans.all (fun t => s.pageOk t.2 t.1 (Need.load.of 4)) then .ok a
                 else .error (laneErr Code.protection (msAddr s.gang (strongWord (.w 4) .absent 0) l)))
    (fun accs => decide (accs.length = 2)
      && (match strongLanes (s.strongStart (strongWord (.w 4) .absent 0) accs) 4 none (fun _ _ => none) (accs.take 1) with
      | .ok _ => true
      | _ => false)) (by decide +kernel)
  rw [Bool.and_eq_true, decide_eq_true_eq] at hu
  obtain ⟨u, hv⟩ := strong_ok hu.2
  exact ⟨strongWord (.w 4) .absent 0, u, 3, accs, ⟨rfl, rfl⟩, by decide +kernel, by decide +kernel, by decide +kernel,
    by rw [hu.1]; decide +kernel, issues_of_check (by decide +kernel), h, hv⟩

/-- The same word where another folio stands at the slice's gate. -/
def gatedStrong : State :=
  { strongState.modGang fun g => { g with replaym := 0x502, member := true, rfolio := 1 } with
    ctx := { (strongState.modGang fun g => { g with replaym := 0x502, member := true, rfolio := 1 }).ctx with
      logs := [(5, { replayLog5 [] [] with gates := (List.range 192).map fun i => (i, [(2, 1)]) })] } }
theorem held_ok {o : StrongOut} (h : (match o with | .held _ => true | _ => false) = true) : ∃ u, o = .held u := by
  cases o with
  | held u => exact ⟨u, rfl⟩
  | _ => cases h
theorem witness_StrongAccess_held : ∃ (x : MSFmt) (u : State) (m : Mask) (accs : List LaneAcc) (i : BitVec 8),
    let s := gatedStrong
    s.oneTask ∧ s.traced s.gang = false ∧ s.gang.path.done = [] ∧ (s.choice = 0 ∨ accs.length ≤ s.choice) ∧ x.hdr.d = .w i ∧ x.width = 0 ∧
    s.issues x.hdr .lane (msFieldsOk s.gang x && x.op == 0 && x.data == .absent && x.data2 == .absent
        && dstOk .lane s.gang false x.hdr.d) [(x.hdr.d, false)] (msSrcs x) m ∧
    s.strongPasses x Need.load m accs ∧ strongLanes (s.strongStart x accs) 4 none (fun _ _ => none) accs = .held u := by
  obtain ⟨accs, h, hu⟩ := ok_with (e := resolveAll 3 fun l =>
      match resolveLane gatedStrong .gm 4 { Need.load with read := false } true l (msAddr gatedStrong.gang (strongWord (.w 4) .absent 0) l) with
      | .error e => .error e
      | .ok a => if a.trans.all (fun t => gatedStrong.pageOk t.2 t.1 (Need.load.of 4)) then .ok a
                 else .error (laneErr Code.protection (msAddr gatedStrong.gang (strongWord (.w 4) .absent 0) l)))
    (fun accs => match strongLanes (gatedStrong.strongStart (strongWord (.w 4) .absent 0) accs) 4 none (fun _ _ => none) accs with
      | .held _ => true
      | _ => false) (by decide +kernel)
  obtain ⟨u, hu⟩ := held_ok hu
  exact ⟨strongWord (.w 4) .absent 0, u, 3, accs, 4, ⟨rfl, rfl⟩, by decide +kernel, by decide +kernel, .inl rfl, rfl, rfl,
    issues_of_check (by decide +kernel), h, hu⟩
/-- A store of 7 that a gate has held, and that nothing holds any longer. -/
def heldStore : Flight :=
  { flight0 (.w 2) 1 [Lanes.all 0] 0 with
    req := .strong { kind := .store, width := 4, sub := false, due := 0, lanes := [⟨0, 0xFFF8, 0xFFF8, false, 0, 7, 0⟩], done := [] } }
/-- A load of two lanes in two slices, at the second of which folio 2 stands first. -/
def heldTwo : Flight :=
  { flight0 (.w 2) 3 [Lanes.all 0] 0 with
    req := .strong { kind := .load, width := 4, sub := false, due := 0,
                     lanes := [⟨0, 0x100, 0x100, false, 0, 0, 0⟩, ⟨1, 0xFFF8, 0xFFF8, false, 0, 0, 0⟩], done := [] } }
def gatedTwo : State :=
  let s := flying heldTwo
  let t := s.modGang fun g => { g with replaym := 0x502, member := true, rfolio := 1 }
  { t with ctx := { t.ctx with logs := [(5, { replayLog5 [] [] with gates := [(s.sliceOf 0xFFF8, [(2, 1)])] })] } }
theorem witness_ResultsReturn_held : ∃ (s : State) (gn n : Nat) (f : Flight) (h : HeldAcc) (u : State), gn < awayOwner 0 ∧
    (s.gangOf gn).flights[n]? = some f ∧ (s.gangOf gn).resident = true ∧ s.halt = .running ∧ f.replay = false ∧
    f.req = .strong h ∧ h.due ≤ s.clock ∧
    strongLanesAs (gn, f.younger) (fun l => keptOperand h.lanes (·.folio) l) (({ s with cur := gn } : State).setDone h.done)
      h.width h.kind.code h.fn h.accs = .ok u := by
  obtain ⟨u, hu⟩ := strong_ok (o := strongLanesAs (0, false) (fun l => keptOperand [⟨0, 0xFFF8, 0xFFF8, false, 0, 7, 0⟩] (·.folio) l)
    (({ flying heldStore with cur := 0 } : State).setDone []) 4 none
    ({ kind := .store, width := 4, sub := false, due := 0, lanes := [⟨0, 0xFFF8, 0xFFF8, false, 0, 7, 0⟩], done := [] } : HeldAcc).fn
    [⟨0, [⟨0xFFF8, 0xFFF8, 4⟩], false, []⟩]) (by decide +kernel)
  exact ⟨flying heldStore, 0, 0, heldStore, _, u, by decide, rfl, rfl, rfl, rfl, rfl, by decide +kernel, hu⟩
theorem held_with {o : StrongOut} (p : State → Bool) (h : (match o with | .held u => p u | _ => false) = true) :
    ∃ u, o = .held u ∧ p u = true := by
  cases o with
  | held u => exact ⟨u, rfl, h⟩
  | _ => cases h
theorem witness_ResultsReturn_heldStill : ∃ (s : State) (gn n : Nat) (f : Flight) (h : HeldAcc) (u : State), gn < awayOwner 0 ∧
    (s.gangOf gn).flights[n]? = some f ∧ (s.gangOf gn).resident = true ∧ s.halt = .running ∧ f.replay = false ∧
    f.req = .strong h ∧ h.due ≤ s.clock ∧
    strongLanesAs (gn, f.younger) (fun l => keptOperand h.lanes (·.folio) l) (({ s with cur := gn } : State).setDone h.done)
      h.width h.kind.code h.fn h.accs = .held u ∧ u.gang.path.done ≠ h.done := by
  let h : HeldAcc := { kind := .load, width := 4, sub := false, due := 0,
                       lanes := [⟨0, 0x100, 0x100, false, 0, 0, 0⟩, ⟨1, 0xFFF8, 0xFFF8, false, 0, 0, 0⟩], done := [] }
  obtain ⟨u, hu, hd⟩ := held_with (o := strongLanesAs (0, false) (fun l => keptOperand h.lanes (·.folio) l)
    (({ gatedTwo with cur := 0 } : State).setDone h.done) h.width h.kind.code h.fn h.accs)
    (fun u => decide (u.gang.path.done ≠ [])) (by decide +kernel)
  exact ⟨gatedTwo, 0, 0, heldTwo, h, u, by decide, by decide +kernel, by decide +kernel, by decide +kernel, rfl, rfl,
    by decide +kernel, hu, by simpa using hd⟩
theorem test_held_store_performs :
    after (exec (.loadReturn 0 0) (flying heldStore)) (fun t => t.mem.word 0xFFF8 4 == 7 && t.gang.flights.isEmpty) = true := by
  decide +kernel
/-- Lane 0 has returned and fills its lane of w2; lane 1 stays a request. -/
theorem test_held_fills_as_it_returns :
    after (exec (.loadReturn 0 0) (gatedTwo.modGang fun g => { g with we := g.we.set 2 3 })) (fun t => t.gang.wEmpty 2 == 2
      && (t.gang.flights.map fun f => f.mask) == [2]) = true := by decide +kernel

/-- A word at the end of a granule. -/
theorem witness_StrongAccess_lane : ∃ (s : State) (a : LaneAcc) (p : Piece) (z : Nat) (f : StrongFn), s.oneTask ∧ a.pieces = [p] ∧
    (z = 4 ∨ z = 8) ∧ p.pa % z = 0 ∧ p.pa + z ≤ s.memBytes ∧ s.traced s.gang = false ∧ replayMode s.gang.replaym = 0 ∧
    blockBad s (p.pa / 64 * 64) 64 = false ∧
    f a.lane ((s.expel s.gang.carrel (p.pa / 8 * 8) 8 true).homeWord p.pa z) = some 7 ∧ 7 < 2 ^ (8 * z) :=
  ⟨strongState, ⟨31, [⟨0xFFFC, 0xFFFC, 4⟩], false, []⟩, ⟨0xFFFC, 0xFFFC, 4⟩, 4, fun _ _ => some 7, ⟨rfl, rfl⟩, by decide +kernel⟩

theorem witness_AtomicRule : ((32 : Nat) = 32 ∨ (32 : Nat) = 64) ∧ (0x80000000 : Nat) < 2 ^ 32 ∧ (0xFFFFFFFF : Nat) < 2 ^ 32 := by
  decide

theorem strong_with {o : StrongOut} (p : State → Bool)
    (h : (match o with | .ok u => p u | _ => false) = true) : ∃ u, o = .ok u ∧ p u = true := by
  cases o with
  | ok u => exact ⟨u, rfl, h⟩
  | _ => cases h

/-- MWAIT.eq or .ne against 0 of a word that holds 0. -/
theorem witness_WaitOnMemory_start : ∀ met : Bool, ∃ (x : MSFmt) (u : State) (m : Mask) (accs : List LaneAcc),
    let s := strongState
    let wide : Bool := x.width.toNat = 1
    let z := msWidth x.width
    let b := mwaitBudget s x
    let hs := heldLanes s.gang accs (fun l => bytesToNat (storeData s x.data z l)) fun _ => 0
    s.gang.path.wait = .none ∧
    s.issues x.hdr .lane (msFieldsOk s.gang x && x.op.toNat ≤ 5 && x.obs == 0 && !x.pub && !x.sub
      && dstOk .lane s.gang wide x.hdr.d && storeDataOk s.gang wide x.data && (match x.data2 with
        | .s _ | .imm _ | .absent => true
        | _ => false)) [(x.hdr.d, wide)] (msSrcs x) m ∧
    mwaitLanes s x m = .ok accs ∧ setWatches (s.keepAll accs) x.op z (b != some 0) hs = .ok u ∧
    (∀ l, u.traced (u.gang.task l) = false) ∧ u.gang.path.reread = false ∧
    (u.modPath fun p => { p with reach := hs }).allMet = met := by
  intro met
  let x := wordMS (.w 2) (.w 7) (.s 9) (if met then 0 else 1) 0 false false
  obtain ⟨accs, h, hu⟩ := ok_with (e := mwaitLanes strongState x 3)
    (fun accs =>
      let hs := heldLanes strongState.gang accs (fun l => bytesToNat (storeData strongState (.w 7) 4 l)) fun _ => 0
      match setWatches (strongState.keepAll accs) x.op 4 (mwaitBudget strongState x != some 0) hs with
      | .ok u => decide (u.gang.pack = []) && u.traced u.gang == false && u.gang.path.reread == false
          && (u.modPath fun p => { p with reach := hs }).allMet == met
      | _ => false) (by revert met; decide +kernel)
  obtain ⟨u, hv, hw⟩ := strong_with _ hu
  clear hu
  simp only [Bool.and_eq_true, beq_iff_eq, decide_eq_true_eq] at hw
  refine ⟨x, u, 3, accs, ?_, issues_of_check ?_, h, hv, untraced_of hw.1.1.1 hw.1.1.2, hw.1.2, hw.2⟩
    <;> clear hv hw h <;> revert met <;> decide +kernel
/-- An order gate holds its first lane, as it begins to stand. -/
theorem witness_WaitOnMemory_held : ∃ (x : MSFmt) (u : State) (m : Mask) (accs : List LaneAcc),
    let s := gatedStrong
    let wide : Bool := x.width.toNat = 1
    let z := msWidth x.width
    let hs := heldLanes s.gang accs (fun l => bytesToNat (storeData s x.data z l)) fun _ => 0
    s.gang.path.wait = .none ∧
    s.issues x.hdr .lane (msFieldsOk s.gang x && x.op.toNat ≤ 5 && x.obs == 0 && !x.pub && !x.sub
      && dstOk .lane s.gang wide x.hdr.d && storeDataOk s.gang wide x.data && (match x.data2 with
        | .s _ | .imm _ | .absent => true
        | _ => false)) [(x.hdr.d, wide)] (msSrcs x) m ∧
    mwaitLanes s x m = .ok accs ∧ setWatches (s.keepAll accs) x.op z (mwaitBudget s x != some 0) hs = .held u := by
  let x := wordMS (.w 2) (.w 7) .absent 0 0 false false
  obtain ⟨accs, h, hu⟩ := ok_with (e := mwaitLanes gatedStrong x 3)
    (fun accs =>
      let hs := heldLanes gatedStrong.gang accs (fun l => bytesToNat (storeData gatedStrong (.w 7) 4 l)) fun _ => 0
      match setWatches (gatedStrong.keepAll accs) x.op 4 (mwaitBudget gatedStrong x != some 0) hs with
      | .held _ => true
      | _ => false) (by decide +kernel)
  obtain ⟨u, hv⟩ := held_ok hu
  exact ⟨x, u, 3, accs, by decide +kernel, issues_of_check (by decide +kernel), h, hv⟩

/-- A path stands at an MWAIT of one lane; its watch is met, or not. -/
def watch0 (met : Option DWord) (cmp : DWord) : Watch :=
  { gang := 0, younger := false, lane := 0, va := 0x1F8, pa := 0x1F8, size := 4, mod := false, cond := 0, cmp := cmp,
    armed := true, met := met }
def waiting (b : Option Nat) (w : Watch) : State :=
  let s := baseWith fun g => g.modPath fun p =>
    { p with wait := .mwait 0 b (.w 2) false 0, pc := 0x1000, xm := 1, reach := [⟨0, w.va, w.pa, w.mod, 0, w.cmp.toNat, 0⟩] }
  { s with ctx := { s.ctx with watches := [w] } }

/-- Its one watch is set already. -/
theorem witness_WaitOnMemory_stand : ∀ met : Bool, ∃ (x : MSFmt) (s u : State) (start cycle : Nat) (b : Option Nat) (dst : Operand) (wide : Bool),
    s.gang.path.wait = .mwait start b dst wide cycle ∧
    setWatches s x.op (msWidth x.width) (b != some 0) s.gang.path.reach = .ok u ∧
    (∀ l, u.traced (u.gang.task l) = false) ∧ u.gang.path.reread = false ∧ u.allMet = met := by
  intro met
  let s := waiting none (watch0 (if met then some 0 else none) 0)
  obtain ⟨u, hv, hw⟩ := strong_with (o := setWatches s 0 4 (none != some 0) s.gang.path.reach)
    (fun u => decide (u.gang.pack = []) && u.traced u.gang == false && u.gang.path.reread == false && u.allMet == met)
    (by revert met; decide +kernel)
  simp only [Bool.and_eq_true, beq_iff_eq, decide_eq_true_eq] at hw
  refine ⟨wordMS (.w 2) (.w 7) (.s 9) 0 0 false false, s, u, 0, 0, none, .w 2, false, ?_, hv,
    untraced_of hw.1.1.1 hw.1.1.2, hw.1.2, hw.2⟩
  clear hw hv; revert met; decide +kernel
/-- The gate still holds its lane. -/
theorem witness_WaitOnMemory_standHeld : ∃ (x : MSFmt) (s u : State) (start cycle : Nat) (b : Option Nat) (dst : Operand) (wide : Bool),
    s.gang.path.wait = .mwait start b dst wide cycle ∧
    setWatches s x.op (msWidth x.width) (b != some 0) s.gang.path.reach = .held u := by
  let s := gatedStrong.modPath fun p =>
    { p with wait := .mwait 0 none (.w 2) false 0, reach := [⟨0, 0xFFF8, 0xFFF8, false, 0, 1, 0⟩] }
  obtain ⟨u, hv⟩ := held_ok (o := setWatches s 0 4 (none != some 0) s.gang.path.reach) (by decide +kernel)
  exact ⟨wordMS (.w 2) (.w 7) .absent 0 0 false false, s, u, 0, 0, none, .w 2, false, by decide +kernel, hv⟩
/-- A write of the watch's last byte makes its word 0x01000000. -/
theorem witness_WaitOnMemory_write : ∀ holds : Bool, ∃ (s : State) (pa : Nat) (bs : List Byte) (w : Watch),
    w ∈ s.ctx.watches ∧ w.armed = true ∧ w.met = none ∧ w.pa < pa + bs.length ∧ pa < w.pa + w.size ∧
    pa + bs.length ≤ s.memBytes ∧
    mwaitHolds w.cond ((s.homeWrite pa bs).homeWord w.pa w.size) (w.cmp.toNat % 2 ^ (8 * w.size)) = holds := by
  intro holds
  refine ⟨waiting none (watch0 none (if holds then 0x01000000 else 1)), 0x1FB, [1], watch0 none (if holds then 0x01000000 else 1), ?_⟩
  revert holds; decide +kernel
/-- The budget has ended in the cycle before: with a handler to go to, while one runs, and with none. -/
theorem witness_WaitOnMemory_timeout : ∀ k ∈ [0, 1, 2], ∃ (s : State) (start b cycle : Nat) (dst : Operand) (wide : Bool),
    s.gang.younger = false ∧ s.gang.p0.wait = .mwait start (some b) dst wide cycle ∧
    start + b < s.clock ∧ s.allMet = false ∧ s.gang.resident = true ∧ s.halt = .running ∧
    (k = 0 → s.flat ∧ s.gang.trapv ≠ 0 ∧ s.gang.inHandler = false ∧ s.gang.isShadow = false) ∧
    (k = 1 → s.gang.inHandler = true) ∧ (k = 2 → s.gang.trapv = 0 ∧ s.gang.inHandler = false) := by
  intro k h
  let s := ({ waiting (some 0) (watch0 none 1) with clock := 1 } : State).modGang fun g =>
    { g with trapc := if k = 1 then 0x100 else 0, trapv := if k = 2 then 0 else 0x8000 }
  refine ⟨s, 0, 0, 0, .w 2, false, ?_, ?_, ?_, ?_, ?_, ?_, fun hk => ⟨⟨?_, ?_⟩, ?_⟩, ?_, ?_⟩
    <;> revert k <;> decide +kernel
/-- A write in the last cycle of the count comes before the timeout (R143). -/
theorem test_timeout_loses_the_tie :
    (waiting (some 0) (watch0 none 1)).expiries.isEmpty = true
      ∧ ({ waiting (some 0) (watch0 none 1) with clock := 1 } : State).expiries.isEmpty = false := by decide +kernel

theorem witness_StoreHash_hashrd : ∃ (x : RRR) (m : Mask) (i : BitVec 6), x.hdr.d = .s i ∧
    base.issues x.hdr .gang (hashFieldsOk x) [(x.hdr.d, false)] (fun _ => []) m :=
  ⟨wordRRR (.s 63) .absent .absent .absent 0, all, 63, rfl, issues_of_check (by decide +kernel)⟩
theorem witness_StoreHash_hashclr : ∃ (x : RRR) (m : Mask),
    base.issues x.hdr .gang (hashFieldsOk x && x.hdr.d == .absent) [] (fun _ => []) m :=
  ⟨wordRRR .absent .absent .absent .absent 0, all, issues_of_check (by decide +kernel)⟩
/-- A packed gang with the task of lane 1 alone in XM. -/
theorem witness_StoreHash_packed : ∃ (x : RRR) (m : Mask),
    let s := packed0.modPath fun p => { p with xm := 2 }
    s.issues x.hdr .gang (hashFieldsOk x && x.hdr.d == .absent) [] (fun _ => []) m ∧ s.gang.packed = true ∧
    s.gang.lanes.getLsbD 1 = true ∧ s.xm.getLsbD 1 = true ∧ s.gang.lanes.getLsbD 0 = true ∧ s.xm.getLsbD 0 = false :=
  ⟨wordRRR .absent .absent .absent .absent 0, 2, issues_of_check (by decide +kernel), by decide +kernel⟩

/-! Tiles. -/

/-- A descriptor: format, columns, rows, stride, base block. -/
def desc (fmt cols rows stride base : Nat) : DWord :=
  BitVec.ofNat 64 (base + stride * 2 ^ 17 + (rows - 1) * 2 ^ 32 + (cols - 1) * 2 ^ 42 + fmt * 2 ^ 52)
def inLoft : DWord := 0x10000
def spectralHalf : DWord := 0x0C00000000000000

theorem witness_TileIssue_tcfg : ∃ (x : RRR) (m : Mask),
    let s := baseWith fun g => g.setS 1 511
    s.issues x.hdr .gang (x.rsv == 0 && x.typ == 0 && x.pred == 0 && x.sub.extractLsb' 1 4 == 0 && isSImm x.a
      && isSImm x.b && x.c == .absent && feOk (x.fe.getLsbD 2) x.a && feOk (x.fe.getLsbD 1) x.b && !x.fe.getLsbD 0
      && x.hdr.d == .absent && !s.gang.isShadow) [] (rrrSrcs x 2 false) m ∧
    (readGang s 0x1D 0 x.a).toNat % 2 ^ 32 ≤ 511 ∧ (readGang s 0x1D 0 x.b).toNat % 2 ^ 32 ≤ 511 :=
  ⟨wordRRR .absent (.s 1) (.s 1) .absent 0x40, all, issues_of_check (by decide +kernel), by decide +kernel⟩

def tiled (a b : DWord) : State := baseWith fun g => (g.setS 1 a).setS 2 b

theorem witness_TileIssue_mma : ∃ (x : EFmt) (m : Mask) (tile : BitVec 2),
    let s := tiled (desc 2 16 1 1 8191) (desc 2 128 16 4 0 ||| inLoft)
    let A := readGang s 0x1D 0 x.a
    let B := readGang s 0x1D 0 x.b
    s.myCarrel.seqLength < 8 ∧ x.hdr.d = .a tile ∧
      s.issues x.hdr .gang (eFieldsOk s.gang x && isS x.a && isS x.b && x.c == .absent) [] (eSrcs x) m ∧
      (descOf A).fits = true ∧ (descOf B).fits = true ∧ mmaOk (descOf A) (descOf B) x.control = true :=
  ⟨wordE (.a 3) (.s 1) (.s 2) .absent 0, all, 3, by decide +kernel, rfl, issues_of_check (by decide +kernel), by decide +kernel⟩
theorem witness_TileIssue_mmac : ∃ (x : EFmt) (m : Mask) (tile : BitVec 2),
    let s := tiled (desc 0x20 8 1 1 0 ||| spectralHalf) (desc 0x20 4 2 1 0 ||| spectralHalf ||| inLoft)
    let A := readGang s 0x1D 0 x.a
    let B := readGang s 0x1D 0 x.b
    s.myCarrel.seqLength < 8 ∧ x.hdr.d = .a tile ∧
      s.issues x.hdr .gang (eFieldsOk s.gang x && isS x.a && isS x.b && x.c == .absent) [] (eSrcs x) m ∧
      (descOf A).fits = true ∧ (descOf B).fits = true ∧ mmacOk (descOf A) (descOf B) x.control s.gang.tcfg = true :=
  ⟨wordE (.a 3) (.s 1) (.s 2) .absent 0, all, 3, by decide +kernel, rfl, issues_of_check (by decide +kernel), by decide +kernel⟩
theorem witness_TileIssue_aclr : ∃ (x : EFmt) (m : Mask) (tile : BitVec 2), base.myCarrel.seqLength < 8 ∧ x.hdr.d = .a tile ∧
    x.control = 0 ∧
      base.issues x.hdr .gang (eFieldsOk base.gang x && x.a == .absent && x.b == .absent && x.c == .absent) [] (eSrcs x) m :=
  ⟨wordE (.a 0) .absent .absent .absent 0, all, 0, by decide +kernel, rfl, rfl, issues_of_check (by decide +kernel)⟩
theorem witness_TileIssue_ald : ∃ (x : EFmt) (m : Mask) (tile : BitVec 2),
    let s := tiled (desc 1 128 128 8 0) 0
    let A := readGang s 0x1D 0 x.a
    s.myCarrel.seqLength < 8 ∧ x.hdr.d = .a tile ∧ x.control = 0 ∧
      s.issues x.hdr .gang (eFieldsOk s.gang x && isS x.a && x.b == .absent && x.c == .absent) [] (eSrcs x) m ∧
      moveOk (descOf A) = true ∧ (descOf A).fits = true :=
  ⟨wordE (.a 1) (.s 1) .absent .absent 0, all, 1, by decide +kernel, rfl, rfl, issues_of_check (by decide +kernel), by decide +kernel⟩
theorem witness_TileIssue_ast : ∃ (x : EFmt) (m : Mask) (tile : BitVec 2),
    let s := tiled 0 (desc 0x10 16 1 1 8191)
    let B := readGang s 0x1D 0 x.b
    s.myCarrel.seqLength < 8 ∧ x.a = .a tile ∧ x.control = 0 ∧
      s.issues x.hdr .gang (eFieldsOk s.gang x && x.hdr.d == .absent && isS x.b && x.c == .absent) [] (eSrcs x) m ∧
      moveOk (descOf B) = true ∧ (descOf B).loft = false ∧ (descOf B).cols % 16 = 0 ∧ (descOf B).fits = true :=
  ⟨wordE .absent (.a 2) (.s 2) .absent 0, all, 2, by decide +kernel, rfl, rfl, issues_of_check (by decide +kernel), by decide +kernel⟩
theorem witness_TileIssue_xform : ∀ p ∈ [(Instr.xformFwd, false), (Instr.xformInv, true)],
    ∃ (x : EFmt) (m : Mask) (i : BitVec 4) (key : Nat),
    let real := desc 1 8 1 1 0
    let spec := desc 0x20 4 1 1 1 ||| spectralHalf
    let s := if p.2 then tiled spec real else tiled real spec
    let src := readGang s 0x1D 0 x.a
    let dst := readGang s 0x1D 0 x.b
    s.oneTask ∧ x.hdr.d = .h i ∧ s.myCarrel.seqLength < 8 ∧ s.newSlot (wingOf s.gang.carrel) = some key ∧
    s.issues x.hdr .gang (eFieldsOk s.gang x && isS x.a && isS x.b && x.c == .absent && x.control.extractLsb' 2 29 == 0)
      [(x.hdr.d, false)] (eSrcs x) m ∧
    xformOk p.2 (descOf src) (descOf dst) = true ∧ (descOf src).fits = true ∧ (descOf dst).fits = true := by
  have h : ∀ inv : Bool, ∃ (x : EFmt) (m : Mask) (i : BitVec 4) (key : Nat),
    let real := desc 1 8 1 1 0
    let spec := desc 0x20 4 1 1 1 ||| spectralHalf
    let s := if inv then tiled spec real else tiled real spec
    let src := readGang s 0x1D 0 x.a
    let dst := readGang s 0x1D 0 x.b
    s.oneTask ∧ x.hdr.d = .h i ∧ s.myCarrel.seqLength < 8 ∧ s.newSlot (wingOf s.gang.carrel) = some key ∧
    s.issues x.hdr .gang (eFieldsOk s.gang x && isS x.a && isS x.b && x.c == .absent && x.control.extractLsb' 2 29 == 0)
      [(x.hdr.d, false)] (eSrcs x) m ∧
    xformOk inv (descOf src) (descOf dst) = true ∧ (descOf src).fits = true ∧ (descOf dst).fits = true := by
    intro inv
    refine ⟨wordE (.h 15) (.s 1) (.s 2) .absent 3, all, 15, 0, ⟨?_, ?_⟩, rfl, ?_, ?_, issues_of_check ?_, ?_⟩
      <;> revert inv <;> decide +kernel
  intro p _
  exact h p.2

def passed {ε α : Type} (e : Except ε α) (p : α → Bool) : Bool := match e with
  | .ok u => p u
  | .error _ => false
theorem ok_passed {ε α : Type} {e : Except ε α} {p : α → Bool} (h : passed e p = true) : ∃ u, e = .ok u ∧ p u = true := by
  cases e with
  | ok u => exact ⟨u, rfl, h⟩
  | error _ => cases h

/-! The array. -/

def onCarrel (f : Carrel → Carrel) : State := base.modCarrelOf 0 f
def floatBlock (label : Label) : Block := { label := label, bytes := List.replicate 64 0x3C, bad := false }

def tileOp0 (kind : TileOpKind) : TileOp := match kind with
  | .ald => { TileOp.none with kind := kind, dA := desc 1 16 1 1 0, rowsA := [[floatBlock 0x7F01]] }
  | .ast => { TileOp.none with kind := kind, dA := desc 1 16 1 1 8191 }
  | .mma => { TileOp.none with
      kind := kind, dA := desc 2 16 1 1 0, dB := desc 2 1 16 1 0 ||| inLoft, maskm := 128, maskn := 128,
      rowsA := [[floatBlock 0x7F02]], rowsB := List.replicate 16 [floatBlock 0x7F02] }
  | .mmac => { TileOp.none with
      kind := kind, dA := desc 0x20 4 1 1 0 ||| spectralHalf, dB := desc 0x20 4 1 1 0 ||| spectralHalf ||| inLoft,
      maskm := 128, maskn := 128, rowsA := [[floatBlock 0x7FE0]], rowsB := [[floatBlock 0x7FE0]] }
  | _ => { TileOp.none with kind := kind }

theorem witness_ArraySteps_step : ∀ kind ∈ [TileOpKind.aclr, .ald, .ast, .mma, .mmac],
    ∃ (s : State) (k : Nat) (x : TileOp) (rest : List TileOp),
    x.kind = kind ∧ (s.carrelOf k).seq = x :: rest ∧ s.halt = .running ∧ x.kind ≠ .drainRead ∧ x.again = false ∧
    (x.step = 0 → x.fault = none) ∧ (x.kind = .ast → moveOk (descOf x.dA) = true) := by
  intro kind hk
  refine ⟨onCarrel fun c => { c with seq := [tileOp0 kind] }, 0, tileOp0 kind, [], ?_⟩
  revert kind; decide +kernel
theorem witness_ArraySteps_drain : ∃ (s : State) (k : Nat) (x : TileOp) (rest : List TileOp),
    (s.carrelOf k).seq = x :: rest ∧ s.halt = .running ∧ x.kind = .drainRead :=
  ⟨onCarrel fun c => { c with seq := [{ TileOp.none with kind := .drainRead }] }, 0, _, [], rfl, by decide +kernel⟩

/-- A transform of n blocks of 8 elements. -/
def xform0 (n : Nat) : XformOp :=
  { inverse := false, sym := false, src := desc 1 (8 * n) 1 1 0, dst := desc 0x20 (4 * n) 1 1 1 ||| spectralHalf, job := 0, step := 0, labels := [],
    by_ := { pc := 0, younger := false, gangReg := 0, frame := 0, gang := 0, cycle := 0 } }
theorem witness_ArraySteps_xform : ∀ n ∈ [1, 2], ∃ (s : State) (k : Nat) (op : XformOp) (rest : List XformOp),
    (s.carrelOf k).xu = op :: rest ∧ s.halt = .running ∧
    (let x := op.begun (s.carrelOf k)
     (x.step = 0 → (s.carrelOf k).xformFault x = none) ∧ (s.carrelOf k).xformBad x = false ∧
     (descOf x.src).rows * (descOf x.src).blocks = n) := by
  intro n h
  refine ⟨onCarrel fun c => { c with sp := c.sp.setLabel 0 0x7F01, xu := [xform0 n] }, 0, xform0 n, [], ?_⟩
  revert n; decide +kernel

/-! Engines. Virtual addresses of the second 2 MiB are physical ones for the desk; 0xA000000000000000 is the
scratchpad of carrel 0. -/

def spA (off : Nat) : DWord := BitVec.ofNat 64 (0xA000000000000000 + off)

def walked (words : List (Nat × Nat)) (s : State) : State :=
  let m := Memory.empty.write 0x1000 (natToBytes 8 0x1001 ++ natToBytes 8 0x20000F)
  { s with mem := words.foldl (fun m e => m.write e.1 (natToBytes 8 e.2)) m, ctx := { s.ctx with root := 0x1000 } }

/-- One slot of the wing's copy queue of 2 is taken. -/
def queued (s : State) : State :=
  let t := walked [(0x200000, 1), (0x200010, 2), (0x200018, 0x200040)] s
  { t with ctx := { t.ctx with copyRings := [(0, (0x200000, 0x200040))] } }

/-- 8 bytes behind an allocation of 24 in an arena at 0x200000. -/
def arena : State :=
  let s := walked [(0x200018, 7)] base
  { s with ctx := { s.ctx with
      modBase := 0x200000, modRoom := 4096, allocs := [{ addr := 0x200000, size := 24, trace := none, folio := 0 }] } }
theorem witness_ModifiableInstructions_fresh : ∃ (s : State) (n pa : Nat), s.beneath s.gang = false ∧ n ≠ 0 ∧
    (s.modnew n).2 ≠ 0 ∧ n ≤ 8 ∧ (s.modnew n).2 % 8 = 0 ∧ s.deskPa (s.modnew n).2 = some pa ∧ pa + 8 ≤ s.memBytes :=
  ⟨arena, 8, 0x200018, by decide +kernel⟩
/-- The fresh granule stands behind the allocation and no longer holds 7. -/
theorem test_modnew_fresh : (arena.modnew 8).2 = 0x200018 ∧ arena.homeWord 0x200018 8 = 7
    ∧ (arena.modnew 8).1.homeWord 0x200018 8 = 0 := by decide +kernel

theorem witness_CardsSubmitted_queue : ∃ key : Nat, (queued base).submits key := ⟨0, by
  refine ⟨?_, ?_, ⟨?_, ?_⟩, ?_, ?_⟩ <;> decide +kernel⟩

theorem witness_CardsSubmitted_copy : ∀ checks : Bool, ∃ (x : EFmt) (m : Mask) (key : Nat), x.control.getLsbD 9 = checks ∧
    let s := queued base
    s.submits key ∧
    s.issues x.hdr .gang (eFieldsOk s.gang x && isH x.hdr.d && isS x.a && isS x.b && isSImm x.c
        && x.control.extractLsb' 10 21 == 0 && (!x.control.getLsbD 9 || (nextS x.c).isSome)) [(x.hdr.d, false)]
        (copySrcs x (x.control.getLsbD 9)) m := by
  intro checks
  refine ⟨wordE (.h 15) (.s 4) (.s 5) (.s 62) (if checks then 0x200 else 0), all, 0, ?_, ⟨?_, ?_, ⟨?_, ?_⟩, ?_, ?_⟩, issues_of_check ?_⟩
    <;> revert checks <;> decide +kernel
theorem witness_CardsSubmitted_copyt : ∃ (x : EFmt) (m : Mask) (key : Nat),
    let s := queued base
    s.submits key ∧
    s.issues x.hdr .gang (eFieldsOk s.gang x && isH x.hdr.d && isS x.a && x.b == .absent && x.c == .absent
        && x.control.extractLsb' 9 22 == 0) [(x.hdr.d, false)] (eSrcs x) m :=
  ⟨wordE (.h 0) (.s 4) .absent .absent 0, all, 0, ⟨by decide +kernel, by decide +kernel, ⟨rfl, rfl⟩, by decide +kernel, by decide +kernel⟩,
    issues_of_check (by decide +kernel)⟩
theorem witness_CardsSubmitted_copyf : ∃ (x : EFmt) (m : Mask) (key : Nat),
    let s := queued base
    s.submits key ∧
    s.issues x.hdr .gang (eFieldsOk s.gang x && isH x.hdr.d && isS x.a && isS x.b && (nextS x.c).isSome
        && x.control.extractLsb' 9 22 == 0) [(x.hdr.d, false)] (copySrcs x true) m :=
  ⟨wordE (.h 0) (.s 4) (.s 5) (.s 6) 0, all, 0, ⟨by decide +kernel, by decide +kernel, ⟨rfl, rfl⟩, by decide +kernel, by decide +kernel⟩,
    issues_of_check (by decide +kernel)⟩
/-- The last 64 bytes of the scratchpad. -/
theorem witness_CardsSubmitted_job : ∃ (x : EFmt) (m : Mask) (key : Nat),
    let s := queued (baseWith fun g => g.setS 1 0x7FFC0)
    let off := (readGang s 0x1D 0 x.a).toNat % 2 ^ 32
    s.submits key ∧
    s.issues x.hdr .gang (eFieldsOk s.gang x && isH x.hdr.d && isSImm x.a && x.b == .absent && x.c == .absent
        && x.control == 0) [(x.hdr.d, false)] (eSrcs x) m ∧ off % 64 = 0 ∧ off < 0x80000 :=
  ⟨wordE (.h 0) (.s 1) .absent .absent 0, all, 0, ⟨by decide +kernel, by decide +kernel, ⟨rfl, rfl⟩, by decide +kernel, by decide +kernel⟩,
    issues_of_check (by decide +kernel), by decide +kernel⟩
theorem witness_CardsSubmitted_drain : ∃ (x : EFmt) (m : Mask) (key : Nat) (tile : BitVec 2),
    let s := queued (baseWith fun g => g.setS 1 0x40)
    s.submits key ∧ x.a = .a tile ∧
    s.issues x.hdr .gang (eFieldsOk s.gang x && isH x.hdr.d && isS x.b && x.c == .absent
        && x.control.extractLsb' 1 30 == 0) [(x.hdr.d, false)] (eSrcs x) m ∧
    (readGang s 0x1D 0 x.b).toNat % 64 = 0 ∧ s.myCarrel.seqLength < 8 :=
  ⟨wordE (.h 0) (.a 3) (.s 1) .absent 0, all, 0, 3, ⟨by decide +kernel, by decide +kernel, ⟨rfl, rfl⟩, by decide +kernel, by decide +kernel⟩, rfl,
    issues_of_check (by decide +kernel), by decide +kernel⟩

def withJob (x : Job) (s : State) : State := { s with ctx := { s.ctx with jobs := [(7, x)], nextJob := 8 } }
def copy0 (n : Nat) (flags : BitVec 16) (src : DWord) : Job :=
  let aux : DWord := if flags = 0 then 0 else spA 0x100
  let card : Card := { Card.zero with kind := 1, flags := flags, count := BitVec.ofNat 32 n, source := src, dest := spA 0x40000, aux := aux }
  { Job.none with linked := true, index := 0, card := card }

theorem witness_EngineSteps_take : ∃ (s s1 : State) (j g : Nat) (x z : Job) (stuck : List (Nat × EngErr)), s.ctx.made = true ∧
    s.halt = .running ∧ s.ctx.grace = none ∧ s.linkAll = (s1, stuck) ∧ (∀ p ∈ stuck, p.1 ≠ j) ∧ Table.seek s1.ctx.jobs j = some x ∧
    x.by_ ≠ .xform ∧ x.state = .queued ∧ x.linked = true ∧ x.envBad = false ∧ s1.jobWaits j x = false ∧
    s1.chooseGallery j x = some g ∧ s1.takeCheck (({ x with gallery := g } : Job).engine g) { x with gallery := g } = .ok z := by
  have h : ∃ z, (withJob (copy0 64 0 (spA 0)) base).linkAll.1.takeCheck (({ copy0 64 0 (spA 0) with gallery := 0 } : Job).engine 0)
      { copy0 64 0 (spA 0) with gallery := 0 } = .ok z := by
    obtain ⟨z, hz, -⟩ := ok_with (e := (withJob (copy0 64 0 (spA 0)) base).linkAll.1.takeCheck
      (({ copy0 64 0 (spA 0) with gallery := 0 } : Job).engine 0) { copy0 64 0 (spA 0) with gallery := 0 }) (fun _ => true)
      (by decide +kernel)
    exact ⟨z, hz⟩
  obtain ⟨z, hz⟩ := h
  exact ⟨withJob (copy0 64 0 (spA 0)) base, (withJob (copy0 64 0 (spA 0)) base).linkAll.1, 7, 0, copy0 64 0 (spA 0), z,
    (withJob (copy0 64 0 (spA 0)) base).linkAll.2, by decide +kernel, by decide +kernel, by decide +kernel,
    (Prod.eta _).symm, by decide +kernel, by decide +kernel, by decide +kernel, by decide +kernel, by decide +kernel, by decide +kernel,
    by decide +kernel, by decide +kernel, hz⟩

theorem chunk_ok {o : ChunkOut} (h : (match o with | .ok _ => true | _ => false) = true) : ∃ u, o = .ok u := by
  cases o with
  | ok u => exact ⟨u, rfl⟩
  | _ => cases h
theorem chunk_fault {o : ChunkOut} (h : (match o with | .fault _ => true | _ => false) = true) : ∃ u, o = .fault u := by
  cases o with
  | fault u => exact ⟨u, rfl⟩
  | _ => cases h
theorem chunk_crc {o : ChunkOut} (h : (match o with | .crc _ _ => true | _ => false) = true) : ∃ u v, o = .crc u v := by
  cases o with
  | crc u v => exact ⟨u, v, rfl⟩
  | _ => cases h

/-- The last byte of a copy, and the first chunk of one of 4097 bytes. -/
theorem witness_EngineSteps_copy : ∀ n ∈ [1, 4097], ∃ (s s1 : State) (j : Nat), s.working j [1, 6] = true ∧
    (s.jobOf j).cursor < (s.jobOf j).card.count.toNat ∧ (s.jobOf j).follow = none ∧
    s.copyChunk ((s.jobOf j).engine (s.jobOf j).gallery) (s.jobOf j) = .ok s1 := by
  intro n h
  have e : ∃ u, (withJob { copy0 n 0 (spA 0) with state := .running } base).copyChunk
      (({ copy0 n 0 (spA 0) with state := .running } : Job).engine 0) { copy0 n 0 (spA 0) with state := .running } = .ok u := by
    apply chunk_ok; revert n; decide +kernel
  obtain ⟨u, hu⟩ := e
  refine ⟨withJob { copy0 n 0 (spA 0) with state := .running } base, u, 7, ?_, ?_, ?_, hu⟩ <;> clear hu <;> revert n <;> decide +kernel
/-- An unmapped source. -/
theorem witness_EngineSteps_fault : ∃ (s : State) (j : Nat) (e : EngErr), s.working j [1, 6] = true ∧
    (s.jobOf j).cursor < (s.jobOf j).card.count.toNat ∧
    s.copyChunk ((s.jobOf j).engine (s.jobOf j).gallery) (s.jobOf j) = .fault e := by
  have e : ∃ u, (withJob { copy0 64 0 0 with state := .running } base).copyChunk
      (({ copy0 64 0 0 with state := .running } : Job).engine 0) { copy0 64 0 0 with state := .running } = .fault u :=
    chunk_fault (by decide +kernel)
  obtain ⟨u, hu⟩ := e
  exact ⟨withJob { copy0 64 0 0 with state := .running } base, 7, u, by decide +kernel, by decide +kernel, hu⟩
/-- The CRC of 64 bytes 0 is not 0. -/
theorem witness_EngineSteps_crc : ∃ (s : State) (j : Nat) (w g : Word), s.working j [1, 6] = true ∧
    (s.jobOf j).cursor < (s.jobOf j).card.count.toNat ∧
    s.copyChunk ((s.jobOf j).engine (s.jobOf j).gallery) (s.jobOf j) = .crc w g := by
  have e : ∃ u v, (withJob { copy0 64 0x200 (spA 0) with state := .running } base).copyChunk
      (({ copy0 64 0x200 (spA 0) with state := .running } : Job).engine 0) { copy0 64 0x200 (spA 0) with state := .running } = .crc u v :=
    chunk_crc (by decide +kernel)
  obtain ⟨u, v, hu⟩ := e
  exact ⟨withJob { copy0 64 0x200 (spA 0) with state := .running } base, 7, u, v, by decide +kernel, by decide +kernel, hu⟩

theorem witness_EngineSteps_retry : ∃ (s s1 : State) (j : Nat), Table.has s.ctx.jobs j = true ∧ s.halt = .running ∧
    (s.jobOf j).state = .crcFailed ∧ s.engineFree ((s.jobOf j).engine (s.jobOf j).gallery) j = true ∧
    s.copyChunk ((s.jobOf j).engine (s.jobOf j).gallery) { s.jobOf j with retries := (s.jobOf j).retries + 1 } = .ok s1 := by
  have e : ∃ u, (withJob { copy0 64 0 (spA 0) with state := .crcFailed } base).copyChunk
      (({ copy0 64 0 (spA 0) with state := .crcFailed } : Job).engine 0) { copy0 64 0 (spA 0) with state := .crcFailed, retries := 1 }
      = .ok u := chunk_ok (by decide +kernel)
  obtain ⟨u, hu⟩ := e
  exact ⟨withJob { copy0 64 0 (spA 0) with state := .crcFailed } base, u, 7, by decide +kernel, by decide +kernel, by decide +kernel,
    by decide +kernel, hu⟩
/-- The second retry and the third, which is the last. -/
theorem witness_EngineSteps_mismatch : ∀ n ∈ [1, 2], ∃ (s : State) (j : Nat) (w g : Word), Table.has s.ctx.jobs j = true ∧
    s.halt = .running ∧ (s.jobOf j).state = .crcFailed ∧ (s.jobOf j).retries = n ∧
    s.engineFree ((s.jobOf j).engine (s.jobOf j).gallery) j = true ∧
    s.copyChunk ((s.jobOf j).engine (s.jobOf j).gallery) { s.jobOf j with retries := (s.jobOf j).retries + 1 } = .crc w g := by
  intro n h
  have e : ∃ u v, (withJob { copy0 64 0x200 (spA 0) with state := .crcFailed, retries := n } base).copyChunk
      (({ copy0 64 0x200 (spA 0) with state := .crcFailed, retries := n } : Job).engine 0)
      { copy0 64 0x200 (spA 0) with state := .crcFailed, retries := n + 1 } = .crc u v := by
    apply chunk_crc; revert n; decide +kernel
  obtain ⟨u, v, hu⟩ := e
  refine ⟨withJob { copy0 64 0x200 (spA 0) with state := .crcFailed, retries := n } base, 7, u, v, ?_, ?_, ?_, ?_, ?_, hu⟩
    <;> clear hu <;> revert n <;> decide +kernel

/-- A record of one dimension of f32 elements with scale 0x7F (R203). -/
def record (addr : DWord) (d1 d2 rank : Nat) : List Byte :=
  natToBytes 8 addr.toNat ++ natToBytes 4 d1 ++ natToBytes 4 d2 ++ natToBytes 8 0x100000001 ++ natToBytes 4 d1 ++ natToBytes 4 d2
    ++ natToBytes 8 0x100000001 ++ natToBytes 6 64 ++ natToBytes 12 0 ++ [0x01, 0x7F] ++ natToBytes 4 rank

/-- The record pair is at 0x200 of the scratchpad. -/
def tensor0 : State :=
  (withJob { Job.none with
    state := .running, linked := true, by_ := .copyt, card := { Card.zero with kind := 2, aux := spA 0x200 } } base).modCarrelOf 0
    fun c => { c with sp := ((c.sp.write 0x200 (record (spA 0) 2 1 1 ++ record (spA 0x40) 2 1 1)).setLabel 0 0x7F01) }
theorem witness_EngineSteps_tensor : ∃ (s : State) (j : Nat) (p : Pair2) (els : List (Nat × (Nat → Nat))) (s1 : State),
    s.working j [2, 4] = true ∧
    let x := s.jobOf j
    let e := x.engine x.gallery
    x.card.kind = 2 ∧ s.pairOf e x = .ok p ∧ s.tensorElems e p (chunkElems x.cursor (product p.extents) p.ed) = .ok els ∧
    s.writeElems e p.ed (some (BitVec.ofNat 8 p.dst.scale ++ p.dst.fmt)) false els (blocksTouched els) = .ok s1 ∧
    product p.extents ≤ x.cursor + (chunkElems x.cursor (product p.extents) p.ed).length := by
  obtain ⟨p, hp, h⟩ := ok_with (e := tensor0.pairOf 0 (tensor0.jobOf 7))
    (fun p => decide (product p.extents ≤ (tensor0.jobOf 7).cursor + (chunkElems (tensor0.jobOf 7).cursor (product p.extents) p.ed).length) &&
      passed (tensor0.tensorElems 0 p (chunkElems (tensor0.jobOf 7).cursor (product p.extents) p.ed)) fun els =>
        passed (tensor0.writeElems 0 p.ed (some (BitVec.ofNat 8 p.dst.scale ++ p.dst.fmt)) false els (blocksTouched els)) fun _ => true)
    (by decide +kernel)
  simp only [Bool.and_eq_true] at h
  obtain ⟨els, he, h'⟩ := ok_passed h.2
  obtain ⟨u, hu, -⟩ := ok_passed h'
  exact ⟨tensor0, 7, p, els, u, by decide +kernel, by decide +kernel, hp, he, hu, of_decide_eq_true h.1⟩

/-- A drain of 2 rows of 2; its record is in memory. -/
def drain0 : State :=
  let s := withJob { Job.none with
    state := .running, linked := true, by_ := .drain, tileRead := true, tile := List.replicate 128 (List.replicate 128 1),
    card := { Card.zero with kind := 4, aux := 0x40 } } base
  { s with mem := Memory.empty.write 0x40 (record (spA 0) 2 2 2), engTlbs := [(0, [(0, page 0 false false)])] }
theorem witness_EngineSteps_drain : ∃ (s : State) (j : Nat) (r : Shape) (s1 : State), s.working j [2, 4] = true ∧
    let x := s.jobOf j
    let e := x.engine x.gallery
    x.card.kind = 4 ∧ x.tileRead = true ∧ s.drainShape e x = .ok r ∧
    (let w := containerBytes (fmtId r.fmt)
     let total := product r.extents
     let ks := chunkElems x.cursor total w
     let els := drainElems x r ks
     s.writeElems e w (if x.card.op = 0 then some (BitVec.ofNat 8 r.scale ++ r.fmt) else none) (x.card.op ≠ 0) els
        (blocksTouched els) = .ok s1 ∧ total ≤ x.cursor + ks.length) := by
  obtain ⟨r, hr, h⟩ := ok_with (e := drain0.drainShape 0 (drain0.jobOf 7))
    (fun r => decide (product r.extents ≤ (drain0.jobOf 7).cursor + (chunkElems (drain0.jobOf 7).cursor (product r.extents) (containerBytes (fmtId r.fmt))).length) &&
      passed (drain0.writeElems 0 (containerBytes (fmtId r.fmt)) (if (drain0.jobOf 7).card.op = 0 then some (BitVec.ofNat 8 r.scale ++ r.fmt) else none)
        ((drain0.jobOf 7).card.op ≠ 0) (drainElems (drain0.jobOf 7) r (chunkElems (drain0.jobOf 7).cursor (product r.extents) (containerBytes (fmtId r.fmt))))
        (blocksTouched (drainElems (drain0.jobOf 7) r (chunkElems (drain0.jobOf 7).cursor (product r.extents) (containerBytes (fmtId r.fmt)))))) fun _ => true) (by decide +kernel)
  simp only [Bool.and_eq_true] at h
  obtain ⟨u, hu, -⟩ := ok_passed h.2
  exact ⟨drain0, 7, r, u, by decide +kernel, by decide +kernel, by decide +kernel, hr, hu, of_decide_eq_true h.1⟩

/-- A stream in the scratchpad, at 0x200 (R194). -/
def inflate0 (stream : List Byte) (count out : Nat) : State :=
  (withJob { Job.none with
    state := .running, linked := true, by_ := .job, out := out,
    card := { Card.zero with kind := 3, count := BitVec.ofNat 32 count, source := spA 0x200, dest := spA 0x40000, aux := 0x10000 } }
    base).modCarrelOf 0 fun c => { c with sp := c.sp.write 0x200 stream }

/-- A CANCEL between two chunks, with output of a block not yet written. -/
theorem witness_EngineSteps_cancelled : ∃ (s s1 : State) (j : Nat) (z : Inflate), s.working j [3] = true ∧ (s.jobOf j).cancelled = true ∧
    s.flushOut ((s.jobOf j).engine (s.jobOf j).gallery) (s.jobOf j)
      { at_ := (s.jobOf j).cursor, out := (s.jobOf j).out, buf := (s.jobOf j).outBuf, code := 0 } = .ok (s1, z) := by
  let s := (inflate0 [0, 1, 0, 2] 4 65).setJobOf 7 { (inflate0 [0, 1, 0, 2] 4 65).jobOf 7 with cancelled := true, cursor := 2, outBuf := [1] }
  obtain ⟨z, hz, -⟩ := ok_with (e := s.flushOut ((s.jobOf 7).engine (s.jobOf 7).gallery) (s.jobOf 7)
      { at_ := (s.jobOf 7).cursor, out := (s.jobOf 7).out, buf := (s.jobOf 7).outBuf, code := 0 }) (fun _ => true) (by decide +kernel)
  exact ⟨s, z.1, 7, z.2, by decide +kernel, by decide +kernel, hz⟩
/-- A literal that ends a chunk with a token still to come. -/
theorem witness_EngineSteps_inflate : ∃ (s : State) (j : Nat) (s1 : State) (z : Inflate), s.working j [3] = true ∧ (s.jobOf j).cancelled = false ∧
    let x := s.jobOf j
    let e := x.engine x.gallery
    s.tokens e x x.out { at_ := x.cursor, out := x.out, buf := x.outBuf, code := 0 } (x.card.count.toNat + 1 - x.cursor) = .ok (s1, z) ∧
    z.at_ < x.card.count.toNat ∧ z.code = 0 := by
  obtain ⟨z, hz, h⟩ := ok_with (e := (inflate0 [0, 1, 0, 2] 4 4095).tokens 12 ((inflate0 [0, 1, 0, 2] 4 4095).jobOf 7) 4095
      { at_ := 0, out := 4095, buf := [], code := 0 } 5) (fun z => decide (z.2.at_ < 4 ∧ z.2.code = 0)) (by decide +kernel)
  exact ⟨inflate0 [0, 1, 0, 2] 4 4095, 7, z.1, z.2, by decide +kernel, by decide +kernel, hz, of_decide_eq_true h⟩
/-- The end of a stream, and a back reference of distance 0. -/
theorem witness_EngineSteps_inflated : ∀ p ∈ [([(0 : Byte), 1], 2, 0), ([0x80, 0, 0, 0], 4, 1)],
    ∃ (s : State) (j : Nat) (s1 s2 : State) (z z2 : Inflate), s.working j [3] = true ∧ (s.jobOf j).cancelled = false ∧
    let x := s.jobOf j
    let e := x.engine x.gallery
    s.tokens e x x.out { at_ := x.cursor, out := x.out, buf := x.outBuf, code := 0 } (x.card.count.toNat + 1 - x.cursor) = .ok (s1, z) ∧
    (x.card.count.toNat ≤ z.at_ ∨ z.code ≠ 0) ∧ s1.flushOut e x z = .ok (s2, z2) ∧ z.code = p.2.2 := by
  intro p hp
  obtain ⟨z, hz, h⟩ := ok_with (e := (inflate0 p.1 p.2.1 0).tokens 12 ((inflate0 p.1 p.2.1 0).jobOf 7) 0
      { at_ := 0, out := 0, buf := [], code := 0 } (((inflate0 p.1 p.2.1 0).jobOf 7).card.count.toNat + 1 - 0))
    (fun z => decide ((((inflate0 p.1 p.2.1 0).jobOf 7).card.count.toNat ≤ z.2.at_ ∨ z.2.code ≠ 0) ∧ z.2.code = p.2.2)
      && passed (z.1.flushOut 12 ((inflate0 p.1 p.2.1 0).jobOf 7) z.2) fun _ => true)
    (by revert p; decide +kernel)
  simp only [Bool.and_eq_true] at h
  obtain ⟨u, hu, -⟩ := ok_passed h.2
  have d := of_decide_eq_true h.1
  refine ⟨inflate0 p.1 p.2.1 0, 7, z.1, u.1, z.2, u.2, ?_, ?_, hz, d.1, hu, d.2⟩ <;>
    (clear hz h hu d; revert p; decide +kernel)
theorem witness_EngineSteps_complete : ∃ (s : State) (j : Nat) (x : Job), Table.seek s.ctx.jobs j = some x ∧ x.state = .finishing ∧
    s.halt = .running ∧ x.trace = none :=
  ⟨withJob { copy0 64 0 (spA 0) with state := .finishing } base, 7, { copy0 64 0 (spA 0) with state := .finishing }, by decide +kernel⟩

/-! Buffers: entry 63 of carrel 0 is in a state; s1 names it. -/

def buffered (e : BufEntry) (v2 v3 : DWord) : State :=
  ((baseWith fun g => ((g.setS 1 63).setS 2 v2).setS 3 v3)).modCarrelOf 0 fun c => { c with bufs := c.bufs.set 63 e }
def filling : BufEntry := { BufEntry.zero with state := .filling }

theorem witness_BufferInstructions_bufget : ∃ (x : RRR) (s : State) (m : Mask) (i : Nat),
    s.issues x.hdr .gang (bufFieldsOk s x 0 false && isS x.hdr.d) [(x.hdr.d, false)] (bufSrcs x) m ∧ i < 64 ∧
    s.myCarrel.gift (s.cur, s.gang.younger) = none ∧ (s.myCarrel.buf i).state = .free ∧ (∀ j < i, (s.myCarrel.buf j).state ≠ .free) ∧ s.myCarrel.turnOf (s.cur, s.gang.younger) = true :=
  ⟨wordRRR (.s 4) .absent .absent .absent 0, base.modCarrelOf 0 fun c => { c with bufs := (Vector.replicate 64 filling).set 63 BufEntry.zero },
    all, 63, issues_of_check (by decide +kernel), by decide +kernel⟩
/-- Another path waits before this one, or no entry is FREE. -/
theorem witness_BufferInstructions_wait : ∀ full : Bool, ∃ (x : RRR) (s : State) (m : Mask),
    s.issues x.hdr .gang (bufFieldsOk s x 0 false && isS x.hdr.d) [(x.hdr.d, false)] (bufSrcs x) m ∧
    s.myCarrel.gift (s.cur, s.gang.younger) = none ∧
    (if full then ∀ j < 64, (s.myCarrel.buf j).state ≠ .free else s.myCarrel.turnOf (s.cur, s.gang.younger) = false) := by
  intro full
  refine ⟨wordRRR (.s 4) .absent .absent .absent 0, base.modCarrelOf 0 fun c =>
      if full then { c with bufs := Vector.replicate 64 filling } else { c with takers := [(77, false)] },
    all, issues_of_check ?_, ?_⟩ <;> revert full <;> decide +kernel
/-- The entry has come to the path that waited longest. -/
theorem witness_BufferInstructions_gift : ∃ (x : RRR) (s : State) (m : Mask) (i : Nat),
    s.issues x.hdr .gang (bufFieldsOk s x 0 false && isS x.hdr.d) [(x.hdr.d, false)] (bufSrcs x) m ∧
    s.myCarrel.gift (s.cur, s.gang.younger) = some i :=
  ⟨wordRRR (.s 4) .absent .absent .absent 0, base.modCarrelOf 0 fun c => { c with given := [((0, false), 63)] },
    all, 63, issues_of_check (by decide +kernel), by decide +kernel⟩
/-- The last tile is named; its expectation is met, or the entry stays FILLING. -/
theorem witness_BufferInstructions_bufexp : ∀ met : Bool, ∃ (x : RRR) (s : State) (m : Mask) (i : Nat), s.bufOperand x.a = some i ∧
    s.issues x.hdr .gang (bufFieldsOk s x 3 false && x.hdr.d == .absent) [] (bufSrcs x) m ∧
    let e := s.myCarrel.buf i
    let src := (readGang s 0x1D 0 x.b).toNat
    let y := { e with expected := e.expected.setIfInBounds src ((readGang s 0x1D 0 x.c).setWidth 32),
                      named := e.named ||| BitVec.ofNat 4 (2 ^ src) }
    src ≤ 3 ∧ e.state = .filling ∧ e.armed = true ∧ decide (y.sat = y.named) = met := by
  intro met
  refine ⟨wordRRR .absent (.s 1) (.s 2) (.s 3) 0, buffered { filling with armed := true } 3 (if met then 0 else 64), all, 63, ?_,
    issues_of_check ?_, ?_⟩ <;> revert met <;> decide +kernel
/-- The last word of the scratchpad. -/
theorem witness_BufferInstructions_bufst : ∀ st ∈ [BufState.filling, .full], ∃ (x : RRR) (s : State) (m : Mask) (i : Nat),
    s.bufOperand x.a = some i ∧
    s.issues x.hdr .gang (bufFieldsOk s x 3 false && x.hdr.d == .absent) [] (bufSrcs x) m ∧
    (readGang s 0x1D 0 x.b).toNat % 4 = 0 ∧ (readGang s 0x1D 0 x.b).toNat < 0x80000 ∧ (s.myCarrel.buf i).state = st := by
  intro st h
  refine ⟨wordRRR .absent (.s 1) (.s 2) (.s 3) 0, buffered { filling with state := st } 0x7FFFC 9, all, 63, ?_, issues_of_check ?_, ?_⟩
    <;> revert st <;> decide +kernel
theorem witness_BufferInstructions_bufrel : ∀ st ∈ [BufState.filling, .full], ∃ (x : RRR) (s : State) (m : Mask) (i : Nat),
    s.bufOperand x.a = some i ∧
    s.issues x.hdr .gang (bufFieldsOk s x 1 true && x.hdr.d == .absent) [] (bufSrcs x) m ∧ (s.myCarrel.buf i).state = st := by
  intro st h
  refine ⟨wordRRR .absent (.s 1) .absent .absent 0, buffered { filling with state := st, claims := 1 } 0 0, all, 63, ?_, issues_of_check ?_, ?_⟩
    <;> revert st <;> decide +kernel

/-- Every other entry is in use: no path waits, one waits and takes the entry, or a card still claims it. -/
theorem witness_BufferInstructions_left : ∀ n ∈ [0, 1, 2], ∃ (x : RRR) (s : State) (m : Mask) (i : Nat),
    s.bufOperand x.a = some i ∧
    s.issues x.hdr .gang (bufFieldsOk s x 1 true && x.hdr.d == .absent) [] (bufSrcs x) m ∧ (s.myCarrel.buf i).state = .full ∧
    (n = 0 → s.myCarrel.takers = []) ∧
    (n = 1 → s.myCarrel.takers = [(7, false), (8, false)] ∧ (s.myCarrel.buf i).claims = 0 ∧
      (∀ j < 64, (s.myCarrel.buf j).state ≠ .free) ∧ s.myCarrel.gift (7, false) = none) ∧
    (n = 2 → (s.myCarrel.buf i).claims ≠ 0 ∧ (∀ j < 64, (s.myCarrel.buf j).state ≠ .free)) := by
  intro n h
  refine ⟨wordRRR .absent (.s 1) .absent .absent 0, (buffered filling 0 0).modCarrelOf 0 fun c => { c with
      bufs := (Vector.replicate 64 filling).set 63 { filling with state := .full, claims := if n = 2 then 1 else 0 },
      takers := if n = 0 then [] else [(7, false), (8, false)] }, all, 63, ?_, issues_of_check ?_, ?_⟩
    <;> revert n <;> decide +kernel
/-- A released entry goes to the BUFGET that waits. -/
theorem test_bufrel_serves : after (exec (.bufrel (wordRRR .absent (.s 1) .absent .absent 0))
      ((buffered { filling with state := .full } 0 0).modCarrelOf 0 fun c => { c with
        bufs := (Vector.replicate 64 filling).set 63 { filling with state := .full }, takers := [(7, false)] }))
    (fun t => (t.carrelOf 0).gift (7, false) == some 63 && (t.carrelOf 0).takers.isEmpty) = true := by decide +kernel

/-! System registers. -/

theorem witness_SystemInstructions_sysr : ∃ (x : RI) (m : Mask),
    base.issues x.hdr .gang (x.mod == 0 && x.a == .absent && !x.fe && isS x.hdr.d && x.imm.extractLsb' 16 16 == 0
      && (base.sysValue base.gang.carrel (RI.sysNumber x)).isSome && !base.gang.isShadow) [(x.hdr.d, false)] (fun _ => []) m :=
  ⟨ri (.s 4) .absent 0 0, all, issues_of_check (by decide +kernel)⟩
/-- A counter that counts cycles, and one that does not. -/
theorem witness_SystemInstructions_sysw : ∀ num ∈ [0x18, 0x1B, 0x20, 0x10, 0x13], ∃ (x : RI) (s : State) (m : Mask), RI.sysNumber x = num ∧
    s.issues x.hdr .gang (syswOk s x) [] (syswSrcs x) m ∧ ((s.carrelOf s.gang.carrel).pmsel.getD 0 0).toNat = 1 ∧ s.sysReading num = false ∧
    s.gang.carrel ∉ s.gated := by
  intro num h
  refine ⟨ri .absent (.imm 9) 0 (BitVec.ofNat 32 num), base.modCarrelOf 0 fun c => { c with pmsel := c.pmsel.set 0 1 }, all, ?_,
    issues_of_check ?_, ?_⟩ <;> revert num <;> decide +kernel
/-- A counter of words executed, and one of slots without a word to issue. -/
theorem witness_SystemInstructions_syswEvents : ∀ e ∈ [2, 3], ∃ (x : RI) (s : State) (m : Mask), RI.sysNumber x = 0x18 ∧
    s.issues x.hdr .gang (syswOk s x) [] (syswSrcs x) m ∧ ((s.carrelOf s.gang.carrel).pmsel.getD 0 0).toNat = e ∧ s.sysReading 0x18 = false ∧
    s.gang.carrel ∉ s.gated := by
  intro e h
  refine ⟨ri .absent (.imm 9) 0 0x18, base.modCarrelOf 0 fun c => { c with pmsel := c.pmsel.set 0 (BitVec.ofNat 64 e) }, all, ?_,
    issues_of_check ?_, ?_⟩ <;> revert e <;> decide +kernel
def sysrFlight (num : Nat) : Flight :=
  { dst := .s 4, mask := 0, vals := [], sval := 0, req := .sysr 0 num 8, replay := false, pc := 0, younger := false, cycle := 0 }
/-- A SYSR of the register is in flight. -/
theorem witness_SystemInstructions_syswWaits : ∀ num ∈ [0x18, 0x13], ∃ (x : RI) (s : State) (m : Mask), RI.sysNumber x = num ∧
    s.issues x.hdr .gang (syswOk s x) [] (syswSrcs x) m ∧ s.sysReading num = true := by
  intro num h
  refine ⟨ri .absent (.imm 9) 0 (BitVec.ofNat 32 num), baseWith fun g => g.launch (sysrFlight num), all, ?_,
    issues_of_check ?_, ?_⟩ <;> revert num <;> decide +kernel
def phintWord (o : BitVec 32) : BFmt := { hdr := plainHeader .absent, a := .absent, mod := 0, off := o }
theorem witness_SystemInstructions_phint : ∃ (x : BFmt) (m : Mask),
    base.issues x.hdr .gang (bFieldsOk x && x.hdr.d == .absent) [] (fun _ => []) m ∧ base.ctx.grace = none :=
  ⟨phintWord 0, all, issues_of_check (by decide +kernel), rfl⟩
/-- The record's bitmap names w4 and w5; w5 is empty, or full. It is the last of the constants. -/
theorem witness_SystemInstructions_save : ∀ empty : Bool, ∃ (x : BFmt) (s : State) (m : Mask) (bm : BitVec 256),
    s.issues x.hdr .gang (bFieldsOk x && x.hdr.d == .absent) [] (fun _ => []) m ∧
    (let o := x.off.toNat
     let r := ((s.consts s.gang.code).drop o).take 64
     bm = BitVec.ofNat 256 (field r 0 32) ∧ o % 64 = 0 ∧ o + 64 = (s.consts s.gang.code).length ∧ field r 40 24 = 0) ∧
    (s.ctx.grace ≠ none ∧ s.gang.isShadow = false ∧ s.gang.partner = none ∧ bm &&& bitmapRsv = 0 ∧ s.gang.namedEmpty bm = empty) ∧
    s.flat := by
  intro empty
  let s0 := withConsts (baseWith fun g => if empty then g.setWEmpty 5 1 else g) (List.replicate 64 0 ++ natToBytes 64 4)
  refine ⟨phintWord 64, { s0 with ctx := { s0.ctx with grace := some 4096 } }, all, 4, issues_of_check ?_, ?_, ?_, ?_⟩
  · revert empty; decide +kernel
  · revert empty; decide +kernel
  · revert empty; decide +kernel
  · constructor <;> revert empty <;> decide +kernel
theorem witness_SystemInstructions_bkpt : ∀ on : Bool, ∃ (x : RRR) (s : State) (m : Mask),
    s.issues x.hdr .gang (rrrPlain x false false && (x.a == .absent || isSImm x.a) && x.hdr.d == .absent) [] (srcA x) m ∧
    s.ctx.dbgctl.getLsbD 0 = on ∧ s.gang.stepMode = false := by
  intro on
  refine ⟨wordRRR .absent (.imm 0xFF) .absent .absent 0, { base with ctx := { base.ctx with dbgctl := if on then 1 else 0 } }, all,
    issues_of_check ?_, ?_⟩ <;> revert on <;> decide +kernel
theorem witness_SystemInstructions_debug : ∃ (s : State) (n : Nat) (g : Gang), Table.seek s.ctx.gangs n = some g ∧ s.halt = .running ∧
    g.stopped = true ∧ g.resident = true :=
  ⟨baseWith fun g => { g with stopped := true }, 0, { gang0 with stopped := true }, rfl, rfl, rfl, rfl⟩

/-- Whole gang, older path, younger path (R155). -/
theorem witness_SystemInstructions_step : ∀ focus ∈ [0, 1, 2], ∃ (s : State) (n : Nat) (g : Gang),
    Table.seek s.ctx.gangs n = some g ∧ s.halt = .running ∧ g.resident = true ∧ s.choice % 3 = focus := by
  intro focus h
  refine ⟨{ base with choices := [focus] }, 0, gang0, rfl, rfl, rfl, ?_⟩
  revert focus; decide

/-! Traps and faults. -/

def handler (v : DWord) (on : Bool) : State :=
  baseWith fun g => { g with trapv := v, trapc := if on then 0x100 else 0, trappc := 0x1010 }

theorem witness_UserTraps_trap : ∀ p ∈ [((0x8000 : Nat), false), (0, false), (0x8000, true)], ∃ (x : RI) (m : Mask),
    let s := handler (BitVec.ofNat 64 p.1) p.2
    s.issues x.hdr .gang (x.mod == 0 && x.a == .absent && !x.fe && x.hdr.d == .absent && x.imm.extractLsb' 16 16 == 0
      && !s.gang.isShadow) [] (fun _ => []) m ∧ (s.gang.trapv = 0 ↔ p.1 = 0) ∧ s.gang.trapc.getLsbD 8 = p.2 := by
  intro p hp
  refine ⟨ri .absent .absent 0 0xFFFF, all, issues_of_check ?_, ?_, ?_⟩ <;> revert p <;> decide +kernel
theorem witness_UserTraps_tret : ∀ on : Bool, ∃ (x : RRR) (m : Mask),
    let s := handler 0x8000 on
    s.issues x.hdr .gang (rrrPlain x false false && x.a == .absent && x.hdr.d == .absent && !s.gang.isShadow) []
      (fun _ => []) m ∧ s.gang.trapc.getLsbD 8 = on := by
  intro on
  refine ⟨wordRRR .absent .absent .absent .absent 0, all, issues_of_check ?_, ?_⟩ <;> revert on <;> decide +kernel

/-- p0 holds in lane 31 only: p0 admits it, !p0 admits none of XM = lane 31. -/
theorem witness_UserTraps_guard : ∀ neg : Bool, ∃ (x : RI) (s : State), x.hdr.idx ≠ 7 ∧ x.hdr.kind = false ∧
    (let p := s.gang.pReg x.hdr.idx
     (s.xm &&& (if x.hdr.neg then ~~~p else p) = 0 ↔ neg = true)) := by
  intro neg
  refine ⟨{ ri .absent .absent 0 5 with hdr := { plainHeader .absent with kind := false, idx := 0, neg := neg } },
    baseWith fun g => (g.setP 0 0x80000000).modPath fun p => { p with xm := 0x80000000 }, ?_⟩
  revert neg; decide +kernel
theorem witness_UserTraps_never : ∃ (x : RI) (s : State), (x.hdr.idx = 7 ∧ x.hdr.neg = true) ∨
    (x.hdr.kind = true ∧ s.gang.kReg x.hdr.idx = x.hdr.neg) :=
  ⟨{ ri .absent .absent 0 5 with hdr := { plainHeader .absent with neg := true } }, base, .inl ⟨rfl, rfl⟩⟩
theorem witness_UserTraps_falseK : ∃ (x : RI) (s : State), x.hdr.kind = true ∧ x.hdr.idx ≠ 7 ∧ s.gang.kReg x.hdr.idx = x.hdr.neg :=
  ⟨{ ri .absent .absent 0 5 with hdr := { plainHeader .absent with idx := 0 } }, base, by decide +kernel⟩

/-- Opcode 0x0FF with k7, and with !k7. -/
theorem witness_ContextFaults_unassigned : ∃ (raw : IWord) (m : Mask), acts base.gang (getHeader raw) .lane = .yes m :=
  ⟨0x7FBC03FF0000000000000000, all, by decide +kernel⟩
theorem witness_ContextFaults_skipped : ∃ raw : IWord, acts base.gang (getHeader raw) .lane = .no :=
  ⟨0x7FFC03FF0000000000000000, by decide +kernel⟩
/-- No translation, and a page that is not code. -/
theorem witness_ContextFaults_fetch : (∃ pa, base.fetchBytes = .error (0x01, pa)) ∧ ∃ pa, (mapped base).fetchBytes = .error (0x02, pa) :=
  ⟨⟨0, error_eq (by decide +kernel)⟩, ⟨0, error_eq (by decide +kernel)⟩⟩
/-- A store one byte past a word's place. -/
theorem witness_ContextFaults_store : ∃ (x : MFmt) (s : State) (m : Mask) (spc : Space) (e : LaneFault), Space.ofBits x.space = some spc ∧
    x.width.toNat ≤ 3 ∧ e.bad = [] ∧
    (resolveAll m fun l => resolveLane s spc (mWidth x.width) Need.store true l (mAddr s.gang x spc l)) = .error e ∧
    s.issues x.hdr .lane (spc != .lf && spc != .cn && x.width.toNat ≤ 3 && mFieldsOk s.gang x spc
       && x.hdr.d == .absent && !x.ext && (spc != .cl || 4 ≤ mWidth x.width)
       && storeDataOk s.gang (mWidth x.width = 8) x.data && !s.gang.isShadow) []
       (mSrcs x (readsBase spc) (mWidth x.width = 8)) m :=
  ⟨wordM .absent 1 .absent (.w 5) 2 0 0 0, memory 0xFFF1, all, .gm, ⟨0x03, all, 0xFFF1, []⟩, by decide +kernel, by decide +kernel, rfl,
    error_eq (by decide +kernel), issues_of_check (by decide +kernel)⟩
theorem witness_ContextFaults_aligned : ∀ spc ∈ [Space.gm, .sp, .lf, .cn], ∃ (m : Mask) (n : Nat) (addr : Nat → Nat),
    (spc = .gm ∨ spc = .sp ∨ spc = .lf ∨ spc = .cn) ∧ n ≠ 0 ∧ (∃ l, l < 32 ∧ m.getLsbD l = true ∧ addr l % n ≠ 0) := by
  intro spc h
  exact ⟨all, 4, fun l => l, by revert spc; decide, by decide, 31, by decide, by decide, by decide⟩

/-- The last wing's records end where the partition's memory ends. -/
theorem witness_HaltAndAnswer_line : ∃ (s : State) (w n : Nat), s.halt = .asserted ∧ w ∈ s.wings ∧
    s.ctx.stopBase.toNat + (w + 1) * 168 * 64 ≤ s.memBytes ∧ n < 168 :=
  ⟨{ base with halt := .asserted, ctx := { base.ctx with stopBase := BitVec.ofNat 64 (base.memBytes - 12 * 168 * 64) } }, 11, 167,
    by decide +kernel⟩
def stoppedWith (code : BitVec 8) : State :=
  { base with
    halt := .stopped,
    faults := [{ unitKind := 1, wing := 0, unit := 0, kind := code, gangReg := 0, frame := 0, cycle := 0, pc := 0, younger := false,
                 acting := 0, offending := 0, detail := 0, trace := some 3, gang := none }] }
theorem witness_HaltAndAnswer_resume : (stoppedWith 1).halt = .stopped ∧ (stoppedWith 1).ctx.noneStand :=
  ⟨rfl, by unfold Context.noneStand; decide +kernel⟩
theorem witness_HaltAndAnswer_stopped : ∀ code ∈ [Code.traceRewrite, Code.traceOrphan], ∃ (s : State) (n : Nat), s.halt = .stopped ∧ s.faults ≠ [] ∧
    s.traceFault = some n ∧ (s.faults.head?.map (·.kind)) = some code := by
  intro code h
  refine ⟨stoppedWith code, 3, ?_⟩
  simp only [List.mem_cons, List.not_mem_nil, or_false] at h
  rcases h with rfl | rfl <;> decide +kernel

theorem witness_ContextSwitch_end : ∀ c ∈ [0, 1, 256], ∃ s : State, s.ctx.made = true ∧ s.halt = .running ∧ s.ctx.grace = none
    ∧ s.choice = c := by
  intro c h
  refine ⟨{ base with choices := [c] }, ?_⟩
  revert c; decide +kernel
theorem witness_ContextSwitch_close : ∃ (s : State) (d : Nat), s.ctx.grace = some d ∧ d ≤ s.clock ∧ s.halt = .running ∧ s.launchesDue = [] :=
  ⟨{ base with clock := 4096, ctx := { base.ctx with grace := some 4096 } }, 4096, by decide +kernel⟩
theorem witness_ContextSwitch_restore : ∃ (s : State) (n : Nat) (x : Context), s.ctx.made = false ∧ s.halt = .running ∧ s.recovery = false ∧
    (s.saved.find? fun y => y.number = n) = some x ∧ x.noneStand :=
  ⟨{ base with ctx := Context.none, saved := [base.ctx] }, 0, base.ctx, rfl, rfl, rfl, rfl,
    by unfold Context.noneStand; decide +kernel⟩

/-! The desk. -/

def withPage (p : Page) (s : State) : State := { s with pages := [(0, p)] }
def attached0 : Page := { Page.reset with attached := true, accepted := 0xE6 }

/-- A launch queue of 2 slots at 0x200000 with one packet of the given width. -/
def packetBytes (width : Nat) : List Byte :=
  natToBytes 4 0x10 ++ natToBytes 4 width ++ natToBytes 8 0x1000 ++ natToBytes 8 0 ++ natToBytes 8 0x200100 ++ natToBytes 32 7
def launchState (width : Nat) : State :=
  let s := withPage attached0 (walked [(0x200000, 1), (0x200010, 2), (0x200018, 0x200040)] base)
  let m := s.mem.write 0x200040 (packetBytes width)
  { s with mem := m, ctx := { s.ctx with queues := [0x200000] } }

/-- Widths 32 and 33. -/
theorem witness_DeskPlacement_launch : ∀ p ∈ [(32, 0), (33, 2)], ∃ (s : State) (header pa : Nat),
    let r := s.ringAt header
    s.deskPa (r.slot r.read 64) = some pa ∧ s.deskBad header 64 = none ∧ s.deskBad (r.slot r.read 64) 64 = none ∧
    (let b := s.homeRead pa 64
     (∃ y, Table.seek s.pages s.ctx.vi = some y ∧ y.attached = true) ∧ header ∈ s.ctx.queues ∧ r.write ≠ r.read ∧
     field b 0 2 ≠ 0 ∧ s.ctx.made = true ∧ s.halt = .running ∧ s.ctx.grace = none ∧ s.packetReason b = p.2 ∧
     (s.shelfOf (field b 16 2)).full = false ∧ s.ctx.frameRoom ≠ 0) := by
  intro p hp
  refine ⟨launchState p.1, 0x200000, 0x200040, ?_, ?_, ?_, ⟨attached0, rfl, rfl⟩, ?_⟩ <;> revert p <;> decide +kernel
/-- The block of the header fails, or that of the packet. -/
theorem witness_DeskPlacement_bad : ∀ packet : Bool, ∃ (s : State) (header pa bad : Nat),
    let r := s.ringAt header
    s.deskPa (r.slot r.read 64) = some pa ∧
    (let b := s.homeRead pa 64
     (∃ y, Table.seek s.pages s.ctx.vi = some y ∧ y.attached = true) ∧ header ∈ s.ctx.queues ∧ r.write ≠ r.read ∧
     field b 0 2 ≠ 0 ∧ s.ctx.made = true ∧ s.halt = .running ∧ s.ctx.grace = none) ∧
    (packet = false → s.deskBad header 64 = some bad) ∧
    (packet = true → s.deskBad header 64 = none ∧ s.deskBad (r.slot r.read 64) 64 = some bad) := by
  intro packet
  refine ⟨{ launchState 32 with bad := [if packet then 0x8001 else 0x8000] }, 0x200000, 0x200040, if packet then 0x200040 else 0x200000,
    ?_, ⟨⟨attached0, rfl, rfl⟩, ?_⟩, ?_, ?_⟩ <;> revert packet <;> decide +kernel

theorem witness_DeskPlacement_complete : ∃ (s : State) (l : Nat) (x : Launch), Table.seek s.ctx.launches l = some x ∧ x.done = false ∧
    x.rootEnded = true ∧ s.busyLaunch l = false ∧ s.halt = .running :=
  ⟨{ base with ctx := { base.ctx with launches := [(5, { Launch.none with rootEnded := true })] } }, 5,
    { Launch.none with rootEnded := true }, by decide +kernel⟩

def task1 (st : TaskState) : State :=
  let e : ShelfEntry := { age := 1, team := some 0, isTask := true, boost := false, payload := 1 }
  { base with ctx := { base.ctx with
      frames := [(0, frame0), (1, { frame0 with state := st })], shelves := [(0, { shelf0 with entries := [e] })] } }
/-- The last place of the carrel. -/
theorem witness_DeskPlacement_dispatch : ∃ (s : State) (carrel q i : Nat) (p : Pick), s.nextEntry carrel = some p ∧
    (s.frameOf p.entry.payload.toNat).state = .ready ∧ (s.frameOf p.entry.payload.toNat).packed = false ∧
    s.serving carrel = true ∧ s.fits (s.taskInfo (s.frameOf p.entry.payload.toNat).entryPc).2 carrel q i = true := by
  obtain ⟨p, hp, h⟩ := some_with (e := (task1 .ready).nextEntry 0) (fun p => decide (
    ((task1 .ready).frameOf p.entry.payload.toNat).state = .ready ∧ ((task1 .ready).frameOf p.entry.payload.toNat).packed = false ∧ (task1 .ready).serving 0 = true ∧
    (task1 .ready).fits ((task1 .ready).taskInfo ((task1 .ready).frameOf p.entry.payload.toNat).entryPc).2 0 3 7 = true))
    (by decide +kernel)
  exact ⟨task1 .ready, 0, 3, 7, p, hp, of_decide_eq_true h⟩

/-- Two children that were packed at their spawn. -/
def mates : State :=
  let e (a : DWord) : ShelfEntry := { age := 1, team := some 0, isTask := true, boost := false, payload := a }
  let f : Frame := { frame0 with state := .ready, packed := true, width := 1, group := 5 }
  { base with ctx := { base.ctx with
      frames := [(0, frame0), (1, f), (2, f)], shelves := [(0, { shelf0 with entries := [e 1, e 2] })] } }
theorem witness_DeskPlacement_packed : ∃ (s : State) (carrel q i : Nat) (p : Pick), s.nextEntry carrel = some p ∧
    (s.frameOf p.entry.payload.toNat).state = .ready ∧ (s.frameOf p.entry.payload.toNat).packed = true ∧
    s.serving carrel = true ∧ s.fits (s.taskInfo (s.frameOf p.entry.payload.toNat).entryPc).2 carrel q i = true ∧
    s.packOf p.shelf p.entry.payload.toNat = [1, 2] := by
  obtain ⟨p, hp, h⟩ := some_with (e := mates.nextEntry 0) (fun p => decide (
    (mates.frameOf p.entry.payload.toNat).state = .ready ∧ (mates.frameOf p.entry.payload.toNat).packed = true ∧
    mates.serving 0 = true ∧ mates.fits (mates.taskInfo (mates.frameOf p.entry.payload.toNat).entryPc).2 0 3 7 = true ∧
    mates.packOf p.shelf p.entry.payload.toNat = [1, 2])) (by decide +kernel)
  exact ⟨mates, 0, 3, 7, p, hp, of_decide_eq_true h⟩

def gang1 : Gang := { gang0 with resident := false, frame := 1, pend := .chosen 4 2 (.s 63) }
def runnable1 : State := { task1 .runnable with ctx := { (task1 .runnable).ctx with parked := [(1, gang1)] } }
theorem witness_DeskPlacement_resume : ∃ (s : State) (a carrel q i k j : Nat) (p : Pick) (g : Gang) (d : BitVec 6),
    s.nextEntry carrel = some p ∧ (p.entry.payload.toNat = a ∧ (s.frameOf a).state = .runnable ∧ s.serving carrel = true ∧
    s.inPlaceOf a = none ∧ s.fits (s.taskInfo (s.frameOf a).entryPc).2 carrel q i = true) ∧
    Table.seek ((s.touch (wingOf carrel) p.shelf).takeEntry p.shelf p.pos).ctx.parked a = some g ∧
    g.pend = .chosen j k (.s d) := by
  obtain ⟨p, hp, h⟩ := some_with (e := runnable1.nextEntry 0) (fun p => decide (
    p.entry.payload.toNat = 1 ∧ (runnable1.frameOf 1).state = .runnable ∧ runnable1.serving 0 = true ∧ runnable1.inPlaceOf 1 = none ∧
    runnable1.fits (runnable1.taskInfo (runnable1.frameOf 1).entryPc).2 0 3 7 = true) && decide (p.shelf = 0 ∧ p.pos = 0))
    (by decide +kernel)
  simp only [Bool.and_eq_true, decide_eq_true_eq] at h
  obtain ⟨h1, h2, h3⟩ := h
  refine ⟨runnable1, 1, 0, 3, 7, 2, 4, p, gang1, 63, hp, h1, ?_, rfl⟩
  rw [h2, h3]; rfl

/-- Folio 1 of trace 0 is stale and next. -/
def stale0 : State :=
  base.setTraceOf 0 { trace0 with
    state := .propagating, active := some 4, folios := [(1, { Folio.none with image := some ⟨gang0, .none, [], 0, 0⟩, task0 := 1 })], queue := [1] }
theorem witness_DeskPlacement_reexec : ∃ (s : State) (tr f carrel q i : Nat) (im : EntryImage),
    let x := (s.traceOf tr).folio f
    x.image = some im ∧ (s.placeFor (s.taskInfo (s.frameOf x.frame).entryPc).2 carrel = some (q, i) ∧
    (s.traceOf tr).state = .propagating ∧ (s.traceOf tr).active.isSome = true ∧ (s.traceOf tr).cancels = [] ∧
    s.nextStale tr = some f ∧ s.serving carrel = true ∧ s.modeSuits (s.frameOf x.frame) carrel = true ∧
    s.reexecsOn (wingOf carrel) < 64) :=
  ⟨stale0, 0, 1, 1, 0, 0, ⟨gang0, .none, [], 0, 0⟩, rfl, by decide +kernel⟩
theorem witness_DeskPlacement_mode : ∀ fused : Bool, ∃ (s : State) (gallery : Nat), (∀ c ∈ galleryCarrels gallery, s.gangsOn c = []) ∧
    (∀ c ∈ galleryCarrels gallery, c ∈ s.carrels) ∧ s.fused.contains gallery ≠ fused ∧ s.halt = .running := by
  intro fused
  refine ⟨{ base with fused := if fused then [] else [11] }, 11, ?_, ?_, ?_, ?_⟩ <;> revert fused <;> decide +kernel

/-! The Curator. -/

/-- FIPS 180-4's example, the message "abc". -/
theorem test_sha256 : sha256 [0x61, 0x62, 0x63] = bigBytes 32 0xBA7816BF8F01CFEA414140DE5DAE2223B00361A396177A9CB410FF61F20015AD := by
  decide +kernel

def object0 : CodeObject :=
  { codeBase := 0x400000, codePa := 0x400000, code := List.replicate 12 0, consts := [], dataBase := 0, dataPa := 0, data := [],
    modBase := 0, modPa := 0, modData := [], tasks := [], relocs := [], imports := [], exports := [⟨9, .code, 0⟩], tables := [0x3000] }
/-- An object of the context exports symbol 8 at 0x4000001000. -/
def exporting : State :=
  let s := walked [] base
  { s with ctx := { s.ctx with codes := [(0, ⟨[], [], [(8, some 0x4000001000)]⟩)] } }
/-- A load to a place that the object may take; one that imports a symbol which nothing exports is refused. -/
theorem witness_CuratorActions_load : ∀ refused : Bool, ∃ (s : State) (o : CodeObject), s.ctx.made = true ∧
    s.canPlace o = true ∧ s.loadRefused o = refused := by
  intro refused
  refine ⟨exporting, { object0 with imports := [if refused then 7 else 8] }, ?_, ?_, ?_⟩ <;> revert refused <;> decide +kernel
theorem witness_CuratorActions_loaded : ∃ (s s1 : State) (o : CodeObject) (rest : List Nat), (s.ctx.made = true ∧
    s.canPlace o = true ∧ s.loadRefused o = false) ∧
      s.mapPages s.ctx.root (sectionPages o.codeBase.toNat o.codePa o.code.length false true false
        ++ sectionPages o.dataBase.toNat o.dataPa o.data.length true false false
        ++ sectionPages o.modBase.toNat o.modPa o.modData.length true false true) o.tables = some (s1, rest) := by
  obtain ⟨r, hr, -⟩ := some_with (e := (walked [] base).mapPages 0x1000 (sectionPages 0x400000 0x400000 12 false true false) [0x3000])
    (fun _ => true) (by decide +kernel)
  exact ⟨walked [] base, r.1, object0, r.2, by decide +kernel, hr⟩
/-- Every kind of relocation, of a label 2^31 − 1 words behind and of an imported symbol. -/
theorem witness_CuratorActions_reloc : ∀ kind ∈ [RelocKind.offset, .hi, .lo, .address], ∃ (s : State) (o : CodeObject) (r : Reloc) (a : Nat),
    r.kind = kind ∧
    ((∃ off, r.target = .label .code off ∧ a = o.codeBase.toNat + off)
      ∨ (∃ off, r.target = .label .data off ∧ a = o.dataBase.toNat + off)
      ∨ (∃ off, r.target = .label .modifiable off ∧ a = o.modBase.toNat + off)
      ∨ ∃ id, r.target = .symbol id ∧ o.imports.contains id = true ∧ s.symbolAt id = some a) ∧
    (kind = .offset → ∃ k : Int, -(2 ^ 31) ≤ k ∧ k < 2 ^ 31 ∧
      (a : Int) = ((o.codeBase.toNat + r.at_ / 12 * 12 : Nat) : Int) + 12 * k) := by
  intro kind h
  by_cases e : kind = .offset
  · exact ⟨base, object0, ⟨.code, 12, kind, .label .code (12 + 12 * (2 ^ 31 - 1))⟩, _, rfl, .inl ⟨_, rfl, rfl⟩,
      fun _ => ⟨2 ^ 31 - 1, by decide, by decide, by subst e; decide +kernel⟩⟩
  · exact ⟨exporting, { object0 with imports := [8] }, ⟨.code, 12, kind, .symbol 8⟩, 0x4000001000, rfl,
      .inr (.inr (.inr ⟨8, rfl, rfl, by decide +kernel⟩)), (absurd · e)⟩
/-- The `lo` and `hi` halves of the address of a symbol (R387). -/
theorem test_relocations : exporting.relocBytes { object0 with imports := [8] } ⟨.code, 0, .lo, .symbol 8⟩ = some [0, 16, 0, 0]
    ∧ exporting.relocBytes { object0 with imports := [8] } ⟨.code, 0, .hi, .symbol 8⟩ = some [0x40, 0, 0, 0]
    ∧ exporting.relocBytes object0 ⟨.code, 24, .offset, .label .code 0⟩ = some [0xFE, 0xFF, 0xFF, 0xFF] := by decide +kernel
/-- An access that a gate holds is translated; the range is unmapped. -/
theorem witness_CuratorActions_unmap : ∃ (s : State) (va size : Nat) (a : Nat × Nat), s.halt = .running ∧
    a ∈ (s.invalidate va size).outstanding va size :=
  ⟨flying heldStore, 0, 65536, (0xFFF8, 0xFFF8), by decide +kernel⟩
/-- A partition of the package's last wing. -/
theorem witness_CuratorActions_boot : layoutOk ⟨[11], [0], 0⟩ = true := by decide
theorem witness_CuratorActions_gate : ∃ (s : State) (c : Nat), c ∈ s.carrels ∧ c ∉ s.gated ∧ s.gangsOn c = [] ∧ s.booted = true :=
  ⟨base, 47, by decide +kernel⟩
theorem witness_CuratorActions_access : ∃ (vi : Nat) (target : Target) (ranges : List AccessRange), ranges.length ≤ 16 ∧ vi < 1024 ∧
    (target = .memory ∨ target = .llc) :=
  ⟨1023, .memory, List.replicate 16 ⟨0x10000, 0x10000, true, false⟩, by decide +kernel⟩
theorem witness_CuratorActions_accessDrains : ∃ (s : State) (vi : Nat), s.ctx.made = true ∧ s.ctx.vi = vi := ⟨base, 0, rfl, rfl⟩

/-! The mailbox. -/

def mailbox (code : Byte) (arg : Nat) (s : State) : State :=
  withPage { attached0 with command := code, status := 1, argument := BitVec.ofNat 48 arg } s
def layout0 : Layout :=
  { stopBase := 0, faultBase := 0, frameBase := 0, frames := 1, imageUnits := 1, cellarBase := 0, modBase := 0, modSize := 0,
    logBase := 0, archiveMax := 0, imageBase := 0, shelfRing := 0, queues := [], maps := [], tables := [], debug := false }
/-- A second context of the interface, which is saved. -/
def saved1 : State := { base with ctx := Context.none, saved := [{ base.ctx with number := 7 }] }
/-- Number 0 is used: the next free one is 1; with no context made, 0. -/
theorem witness_MailboxCommands_create : ∀ made : Bool, ∃ (s : State) (vi : Nat) (x : Layout) (s1 : State) (n : Nat) (rest : List Nat),
    s.asked vi 1 = true ∧ s.ctx.made = made ∧
    ((List.range 1024).find? fun n => !(((if s.ctx.made then [s.ctx] else []) ++ s.saved).map (·.number)).contains n) = some n ∧
    s.argument vi % 4096 = 0 ∧ s.mapPages (s.argument vi) x.maps x.tables = some (s1, rest)
  | false => ⟨mailbox 1 0x1000 { base with ctx := Context.none }, 0, layout0, mailbox 1 0x1000 { base with ctx := Context.none }, 0, [],
      by decide +kernel, by decide +kernel, by decide +kernel, by decide +kernel, rfl⟩
  | true => ⟨mailbox 1 0x1000 base, 0, layout0, mailbox 1 0x1000 base, 1, [],
      by decide +kernel, by decide +kernel, by decide +kernel, by decide +kernel, rfl⟩
/-- A root that is no page's address. -/
theorem witness_MailboxCommands_createRefused : ∃ (s : State) (vi : Nat), s.asked vi 1 = true ∧ s.argument vi % 4096 ≠ 0 :=
  ⟨mailbox 1 0x1001 base, 0, by decide +kernel⟩
/-- The current context, and a saved one. -/
theorem witness_MailboxCommands_destroy : ∀ current : Bool, ∃ (s : State) (vi : Nat) (x : Context), s.asked vi 2 = true ∧ s.halt = .running ∧
    s.contextOf vi (s.argument vi) = some x ∧
    (if current then s.ctx.made = true ∧ s.ctx.number = s.argument vi else s.ctx.made = false ∨ s.ctx.number ≠ s.argument vi)
  | true => ⟨mailbox 2 0 base, 0, base.ctx, by decide +kernel, by decide +kernel, rfl, by decide +kernel⟩
  | false => ⟨mailbox 2 7 saved1, 0, { base.ctx with number := 7 }, by decide +kernel, by decide +kernel, rfl, by decide +kernel⟩
theorem witness_MailboxCommands_destroyRefused : ∃ (s : State) (vi : Nat), s.asked vi 2 = true ∧ s.halt = .running ∧
    s.contextOf vi (s.argument vi) = none := ⟨mailbox 2 1023 base, 0, by decide +kernel, by decide +kernel, rfl⟩
theorem witness_MailboxCommands_queue : ∀ made : Bool, ∃ (s : State) (vi : Nat) (x : Context) (rest : List Context), s.asked vi 3 = true ∧
    s.contextsOf vi = x :: rest ∧ s.argument vi % 64 = 0 ∧ s.ctx.made = made ∧ (made = true → s.ctx.vi = vi) ∧
    (made = false → ∃ y ∈ s.saved, y.number = x.number)
  | true => ⟨mailbox 3 0x40 base, 0, base.ctx, [], by decide +kernel, rfl, by decide +kernel, by decide +kernel,
      fun _ => by decide +kernel, (nomatch ·)⟩
  | false => ⟨mailbox 3 0x40 saved1, 0, { base.ctx with number := 7 }, [], by decide +kernel, rfl, by decide +kernel, by decide +kernel,
      (nomatch ·), fun _ => ⟨{ base.ctx with number := 7 }, List.mem_singleton.mpr rfl, rfl⟩⟩
theorem witness_MailboxCommands_queueRefused : ∀ none : Bool, ∃ (s : State) (vi : Nat), s.asked vi 3 = true ∧
    (if none then s.contextsOf vi = [] else s.argument vi % 64 ≠ 0)
  | true => ⟨mailbox 3 0x40 { base with ctx := Context.none }, 0, by decide +kernel, rfl⟩
  | false => ⟨mailbox 3 0x60 base, 0, by decide +kernel, by decide +kernel⟩
/-- Entry 4095, the last, of the context and of a saved one. -/
theorem witness_MailboxCommands_shelf : ∀ made : Bool, ∃ (s : State) (vi : Nat) (x : Context) (rest : List Context), s.asked vi 4 = true ∧
    s.contextsOf vi = x :: rest ∧ s.argument vi % 32 = 0 ∧ s.ctx.made = made ∧ s.argument vi / 32 % 4096 ≠ 0 ∧
    (made = true → s.ctx.vi = vi)
  | true => ⟨mailbox 4 0x1FFE0 base, 0, base.ctx, [], by decide +kernel, rfl, by decide +kernel, by decide +kernel, by decide +kernel,
      fun _ => by decide +kernel⟩
  | false => ⟨mailbox 4 0x1FFE0 saved1, 0, { base.ctx with number := 7 }, [], by decide +kernel, rfl, by decide +kernel, by decide +kernel,
      by decide +kernel, (nomatch ·)⟩
/-- Entry 0: capacity 64, watermarks 4 and 8; and one of zeros, which the shelf table cannot hold. -/
theorem witness_MailboxCommands_shelf0 : ∀ good : Bool, ∃ (s : State) (vi : Nat) (x : Context) (rest : List Context), s.asked vi 4 = true ∧
    s.contextsOf vi = x :: rest ∧ s.argument vi % 32 = 0 ∧ s.ctx.made = true ∧ s.ctx.vi = vi ∧ s.argument vi / 32 % 4096 = 0 ∧
    s.ctx.launches = [] ∧ (shelfOfBytes (s.homeRead (s.argument vi) 32) (s.shelfOf 0)).ok = good := by
  intro good
  let s := mailbox 4 0x20000 { base with mem := if good then Memory.empty.write 0x20008 (natToBytes 4 64 ++ natToBytes 4 8 ++ natToBytes 4 4 ++ [0, 3]) else Memory.empty }
  refine ⟨s, 0, s.ctx, [], ?_, rfl, ?_, ?_, ?_, ?_, rfl, ?_⟩ <;> revert good <;> decide +kernel
theorem witness_MailboxCommands_shelfRefused : ∀ none : Bool, ∃ (s : State) (vi : Nat), s.asked vi 4 = true ∧
    (if none then s.contextsOf vi = [] else s.argument vi % 32 ≠ 0)
  | true => ⟨mailbox 4 0x40 { base with ctx := Context.none }, 0, by decide +kernel, rfl⟩
  | false => ⟨mailbox 4 0x30 base, 0, by decide +kernel, by decide +kernel⟩
/-- Interface 7 has 1; 49151 more are all, and 49152 are too many. -/
theorem witness_MailboxCommands_quota : ∀ arg ∈ [49151, 49152], ∃ (s : State) (vi : Nat), s.asked vi 5 = true ∧ s.accepts vi 7 = true ∧
    s.argument vi = arg ∧ ((Table.del s.quotas vi).map (·.2)).sum = 1 := by
  intro arg h
  refine ⟨mailbox 5 arg { base with quotas := [(7, 1)] }, 0, ?_⟩
  revert arg; decide +kernel
/-- The context exists, or not, for both migration commands. -/
theorem witness_MailboxCommands_round : ∃ (s : State) (vi : Nat) (x : Context), s.asked vi 6 = true ∧ s.accepts vi 6 = true ∧
    s.contextOf vi (s.argument vi) = some x :=
  ⟨mailbox 6 0 base, 0, base.ctx, by decide +kernel, by decide +kernel, rfl⟩
theorem witness_MailboxCommands_roundRefused : ∀ code ∈ [6, 7], ∃ (s : State) (vi : Nat), s.asked vi (BitVec.ofNat 8 code) = true ∧
    s.accepts vi 6 = true ∧ (s.contextOf vi (s.argument vi)).isNone = true := by
  intro code h
  refine ⟨mailbox (BitVec.ofNat 8 code) 5 base, 0, ?_⟩
  revert code; decide +kernel
theorem witness_MailboxCommands_last : ∃ (s : State) (vi : Nat) (x : Context), s.asked vi 7 = true ∧ s.accepts vi 6 = true ∧
    s.contextOf vi (s.argument vi) = some x ∧ s.ctx.made = true ∧ s.ctx.number = x.number ∧ s.ctx.grace = none ∧ s.halt = .running :=
  ⟨mailbox 7 0 base, 0, base.ctx, by decide +kernel, by decide +kernel, rfl, rfl, rfl, rfl, rfl⟩
theorem witness_MailboxCommands_lastSaved : ∃ (s : State) (vi : Nat) (x : Context), s.asked vi 7 = true ∧ s.accepts vi 6 = true ∧
    s.contextOf vi (s.argument vi) = some x ∧ (s.ctx.made = false ∨ s.ctx.number ≠ x.number) :=
  ⟨mailbox 7 7 saved1, 0, { base.ctx with number := 7 }, by decide +kernel, by decide +kernel, rfl, .inl rfl⟩
/-- The queue's address is reported; a wing of no copy queue, a context that is not there, bits beyond the wing are refused. -/
theorem witness_MailboxCommands_report : ∀ arg ∈ [0, 2 ^ 14], ∃ (s : State) (vi : Nat) (x : Context) (q : DWord × DWord) (pa : Nat), s.asked vi 8 = true ∧
    s.contextOf vi (s.argument vi % 1024) = some x ∧ Table.seek x.copyRings (s.argument vi / 1024 % 16) = some q ∧
    ({ s with ctx := x } : State).deskPa q.1.toNat = some pa ∧ s.argument vi = arg := by
  intro arg h
  simp only [List.mem_cons, List.not_mem_nil, or_false] at h
  rcases h with rfl | rfl
  · exact ⟨mailbox 8 0 (queued base), 0, (queued base).ctx, (0x200000, 0x200040), 0x200000, by decide +kernel, rfl,
      by decide +kernel, by decide +kernel, by decide +kernel⟩
  · exact ⟨mailbox 8 (2 ^ 14) (queued base), 0, (queued base).ctx, (0x200000, 0x200040), 0x200000, by decide +kernel, rfl,
      by decide +kernel, by decide +kernel, by decide +kernel⟩
theorem witness_MailboxCommands_reportNone : ∃ (s : State) (vi : Nat) (x : Context), s.asked vi 8 = true ∧
    s.contextOf vi (s.argument vi % 1024) = some x ∧ Table.seek x.copyRings (s.argument vi / 1024 % 16) = none :=
  ⟨mailbox 8 (1024 * 15) (queued base), 0, (queued base).ctx, by decide +kernel, rfl, by decide +kernel⟩
theorem witness_MailboxCommands_reportUnmapped : ∃ (s : State) (vi : Nat) (x : Context) (q : DWord × DWord), s.asked vi 8 = true ∧
    s.contextOf vi (s.argument vi % 1024) = some x ∧ Table.seek x.copyRings (s.argument vi / 1024 % 16) = some q ∧
    ({ s with ctx := x } : State).deskPa q.1.toNat = none :=
  ⟨mailbox 8 0 { base with ctx := { base.ctx with copyRings := [(0, (0x200000, 0x200040))] } }, 0,
    { base.ctx with copyRings := [(0, (0x200000, 0x200040))] }, (0x200000, 0x200040), by decide +kernel, rfl, by decide +kernel, by decide +kernel⟩
theorem witness_MailboxCommands_reportRefused : ∃ (s : State) (vi : Nat), s.asked vi 8 = true ∧
    s.contextOf vi (s.argument vi % 1024) = none := ⟨mailbox 8 1023 base, 0, by decide +kernel, rfl⟩
/-- Neither feature is accepted. -/
theorem witness_MailboxCommands_unaccepted : ∀ code ∈ [(5 : Byte), 6, 7], ∃ (s : State) (vi : Nat), s.asked vi code = true ∧
    s.accepts vi 7 = false ∧ s.accepts vi 6 = false := by
  intro code h
  refine ⟨withPage { attached0 with command := code, status := 1, accepted := 0 } base, 0, ?_⟩
  simp only [List.mem_cons, List.not_mem_nil, or_false] at h
  rcases h with rfl | rfl | rfl <;> decide +kernel

/-! The fabric. -/

theorem witness_HostRequests_write : ∃ (s : State) (who : Sender) (vi pa : Nat) (data : List Byte), s.admits who vi = true ∧
    inPage vi pa data.length = false ∧ s.rangeGranted vi pa data.length false true = true ∧ s.peerRefused who vi pa data.length = false :=
  ⟨withPage attached0 base, ⟨true, .rod⟩, 0, base.memBytes - 2, [1, 2], by decide +kernel⟩
theorem witness_HostRequests_page : ∃ (s : State) (who : Sender) (vi pa : Nat) (data : List Byte), s.admits who vi = true ∧
    inPage vi pa data.length = true :=
  ⟨base, ⟨false, .rud⟩, 1023, 2 ^ 48 + 1023 * 8192 + 8191, [0], by decide +kernel⟩
theorem witness_HostRequests_read : blockBad base 0x1000 8 = false := by decide +kernel
theorem witness_HostRequests_atomic : ∃ (s : State) (who : Sender) (vi pa : Nat), s.admits who vi = true ∧ pa % 8 = 0 ∧
    s.rangeGranted vi pa 8 true true = true ∧ s.peerRefused who vi pa 8 = false ∧ blockBad s pa 8 = false :=
  ⟨base, ⟨false, .rud⟩, 0, base.memBytes - 8, by decide +kernel⟩
theorem witness_HostRequests_send : ∃ (s : State) (who : Sender) (vi header h : Nat) (x : Context) (slot : List Byte), s.admits who vi = true ∧
    slot.length = 64 ∧ s.queueAt vi .launch header = some (x, h) ∧ (who.peer = true → s.accepts vi 5 = true) ∧
    (({ s with ctx := x } : State).ringAt h).isFull = false :=
  ⟨launchState 1, ⟨true, .rudi⟩, 0, 0x200000, 0x200000, (launchState 1).ctx, packetBytes 1, by decide +kernel, by decide +kernel, rfl,
    by decide +kernel, by decide +kernel⟩
/-- UUD, and ROD and RUDI without their features. -/
theorem witness_HostRequests_refused : ∀ d ∈ [Delivery.uud, .rod, .rudi], ∃ (s : State) (who : Sender) (vi : Nat), who.delivery = d ∧
    s.accepts vi 1 = false ∧ s.accepts vi 2 = false := by
  intro d h
  exact ⟨withPage { attached0 with accepted := 0 } base, ⟨false, d⟩, 0, rfl, by decide +kernel⟩
/-- Bit 8, the last that the device offers, and bit 9. -/
theorem witness_HostRequests_attach : ∀ n ∈ [0x100, 0x200], ∃ (s : State) (vi : Nat), s.serves = true ∧ (s.pageOf vi).attachReq = true ∧
    (s.pageOf vi).attached = false ∧ (s.pageOf vi).wanted.toNat = n ∧
    (n = 0x100 → (s.pageOf vi).wanted &&& ~~~Config.offered = 0) := by
  intro n h
  refine ⟨withPage { Page.reset with attachReq := true, wanted := BitVec.ofNat 256 n } base, 0, ?_⟩
  revert n; decide +kernel
theorem witness_HostRequests_quote : ∃ (s : State) (vi : Nat), s.serves = true ∧ (s.pageOf vi).quoteReq = true :=
  ⟨withPage { attached0 with quoteReq := true } base, 0, by decide +kernel⟩

/-! Issue and frames. -/

theorem next_of {r : Result} (h : after r (fun _ => true) = true) : ∃ t, r = .next t := by
  cases r with
  | next t => exact ⟨t, rfl⟩
  | _ => cases h

/-- `!k7`: nothing acts. -/
theorem witness_IssueOrder_off : ∃ x : RRR, x.hdr.idx = 7 ∧ x.hdr.neg = true :=
  ⟨{ rrr 2 (.w 4) 0x10 with hdr := { plainHeader (.w 4) with neg := true } }, rfl, rfl⟩
/-- A gang-class word under p1. -/
theorem witness_IssueOrder_class : ∀ r ∈ integerRows, ∃ (x : RRR) (m : Mask), acts base.gang x.hdr (WordClass.ofDest x.hdr.d) = .illegal m ∧
    r.fields x = true := by
  intro r hr
  refine ⟨{ rrr r.sources (.s 4) 0x10 with hdr := { plainHeader (.s 4) with neg := true, kind := false, idx := 1 } }, all, ?_⟩
  revert r; decide +kernel
/-- A register past the allocation. -/
theorem witness_IssueOrder_fields : ∀ r ∈ integerRows, ∃ (x : RRR) (m : Mask), acts base.gang x.hdr (WordClass.ofDest x.hdr.d) = .yes m ∧
    (r.fields x && dstOk (WordClass.ofDest x.hdr.d) base.gang (wideType x.typ) x.hdr.d
      && rrrSrcsOk x r.sources (WordClass.ofDest x.hdr.d) base.gang (wideType x.typ)) = false := by
  intro r hr
  refine ⟨rrr r.sources (.w 64) 0x10, all, ?_⟩
  revert r; decide +kernel
/-- w4 is the empty destination, then w1 the empty source, with the block policy or with the trap one. -/
theorem witness_IssueOrder_wait : ∀ n ∈ [4, 1], ∀ trap : Bool, ∀ r ∈ integerRows, ∃ (x : RRR) (s : State) (m : Mask),
    let c := WordClass.ofDest x.hdr.d
    let wide := wideType x.typ
    acts s.gang x.hdr c = .yes m ∧ x.hdr.rsv = false ∧
    (r.fields x && dstOk c s.gang wide x.hdr.d && rrrSrcsOk x r.sources c s.gang wide) = true ∧
    dstEmpty s wide m x.hdr.d = decide (n = 4) ∧
    (n = 1 → ∃ y, (rrrSrcs x r.sources wide m).find? (fun y => y.empty s.gang) = some y ∧ y.trap = trap ∧
      (trap = false → y ∈ rrrSrcs x r.sources wide m ∧ y.lost s = false) ∧
      (trap = true → ∀ y ∈ rrrSrcs x r.sources wide m, ¬ (y.empty s.gang = true ∧ y.trap = false ∧ y.lost s = false)) ∧
      s.gang.trapv ≠ 0 ∧ s.gang.inHandler = false ∧ s.gang.isShadow = false) := by
  intro n hn trap r hr
  refine ⟨{ rrr r.sources (.w 4) 0x10 with fe := if trap then 4 else 0 }, baseWith fun g => g.setWEmpty (BitVec.ofNat 8 n) 1, all,
    ?_, rfl, ?_, ?_, fun h => ⟨⟨.w 1, trap, 0, false, all⟩, ?_⟩⟩
  · revert n trap r; decide +kernel
  · revert n trap r; decide +kernel
  · revert n trap r; decide +kernel
  · subst h; clear hn; revert trap r; decide +kernel

theorem witness_RegisterFrame_rrr : ∀ ty ∈ [0x10, 0x01], ∀ r ∈ if ty = 0x10 then integerRows else floatBitRows, ∃ (x : RRR) (s t : State),
    exec (r.make x) s = .next t ∧ t.faults = [] := by
  intro ty hty r hr
  have h : after (exec (r.make (rrr r.sources (.w 4) ty)) base) (fun t => t.faults.isEmpty) = true := by
    revert r; revert ty; decide +kernel
  cases e : exec (r.make (rrr r.sources (.w 4) ty)) base with
  | next t =>
    rw [e] at h
    exact ⟨_, base, t, e, List.isEmpty_iff.mp h⟩
  | _ => rw [e] at h; cases h
theorem witness_RegisterFrame_ri : ∀ r ∈ immediateRows, ∃ (x : RI) (s t : State), exec (r.make x) s = .next t := by
  intro r hr
  have h : after (exec (r.make (ri (.w 4) (.w 1) 0x10 5)) base) (fun _ => true) = true := by
    revert r; decide +kernel
  obtain ⟨t, ht⟩ := next_of h
  exact ⟨_, base, t, ht⟩
theorem witness_RegisterFrame_float : ∀ r ∈ floatRows, ∃ (x : RRR) (s t : State), exec (r.make x) s = .next t := by
  intro r hr
  have h : after (exec (r.make (rrr r.sources (.w 4) 0x01)) base) (fun _ => true) = true := by
    revert r; decide +kernel
  obtain ⟨t, ht⟩ := next_of h
  exact ⟨_, base, t, ht⟩
theorem witness_RegisterFrame_words : ∀ i ∈ [Instr.sel (rrr 2 (.w 4) 0x1C), .frnd (rrr 1 (.w 4) 0x01), .shfl (rrr 2 (.w 4) 0x1C),
    .lsh (rrr 2 (.w 4) 0x1C), .lred (rrr 1 (.s 4) 0x10), .lscan (rrr 1 (.w 4) 0x10), .matchLanes (rrr 1 (.w 4) 0x1C),
    .cmp (rrr 2 .absent 0x0890), .fcmp (rrr 2 .absent 0x0981), .cmpRI (ri .absent (.w 1) 0x0890 300), .cvt (ri (.w 4) (.w 1) 0x18001 0),
    .movi (ri (.s 4) .absent 0x19 1), .plog (rrr 0 .absent 0x091A), .vote (rrr 0 (.s 4) 0), .mov (rrr 1 (.w 4) 0)],
    ∃ s t, exec i s = .next t := by
  intro i hi
  have h : after (exec i base) (fun _ => true) = true := by revert i; decide +kernel
  obtain ⟨t, ht⟩ := next_of h
  exact ⟨base, t, ht⟩

theorem witness_AccessFrame : ∀ i ∈ [Instr.ld (wordM (.w 4) 1 .absent .absent 2 0 0 0), .ldv (wordM (.w 8) 1 .absent .absent 4 0 0 0),
    .st (wordM .absent 1 .absent (.w 5) 2 0 0 0), .stv (wordM .absent 1 .absent (.w 8) 4 0 0 0), .pref (wordM .absent 1 .absent .absent 0 0 0 0),
    .ldlbl (wordM (.w 4) 1 .absent .absent 1 0 0 0), .stlbl (wordM .absent 1 .absent (.w 5) 1 0 0 0)],
    ∃ (s t : State) (c : Nat), exec i s = .next t ∧ (∀ l, s.traced (s.gang.task l) = false) ∧ s.gang.path.reread = false ∧ s.oneTask ∧
      s.isFused s.gang.carrel = false ∧ s.isFused c = false ∧ galleryOf c ≠ galleryOf s.gang.carrel ∧ t.faults = [] := by
  intro i hi
  have h : after (exec i (memory 0xFFF0)) (fun t => t.faults.isEmpty) = true := by revert i; decide +kernel
  cases hr : exec i (memory 0xFFF0) with
  | next t =>
    refine ⟨memory 0xFFF0, t, 47, hr, untraced_of rfl rfl, rfl, ⟨rfl, rfl⟩, by decide +kernel, by decide +kernel, by decide +kernel, ?_⟩
    rw [hr] at h
    exact List.isEmpty_iff.mp h
  | _ => rw [hr] at h; cases h

/-- A NOP stands at the gang's pc, in a code page. -/
def nopAt : State :=
  let s := mapped (baseWith fun g => g.modPath fun p => { p with pc := 0x20000 })
  { s with mem := Memory.empty.write 0x20000 (natToBytes 12 0x64BC03FFFFFFFFFC00000000) }
def nopWord : Instr := .nop (wordRRR .absent .absent .absent .absent 0)
theorem witness_StepRunsDecoded_issue : ∃ (s : State) (turn : Turn) (bs : List Byte) (ts : List (Nat × Translation)) (i : Instr) (rest : List Byte),
    s.agenda = [] ∧ s.recovery = false ∧ s.halt = .running ∧ s.evicted = none ∧ s.unmapped = none ∧
    firstOf (fun i => exec i s) s.events = none ∧
    firstTurn s.turns = some turn ∧
    let u := s.select turn.gang turn.younger
    u.heldTrap = none ∧ u.latched = none ∧ u.fetchBytes = .ok (bs, ts) ∧ decode bs = .ok (i, rest)
      ∧ ((u.keepFetch ts).latch (wordOfBytes bs)).waitsForHeld i = false := by
  obtain ⟨turn, ht, h⟩ := some_with (e := firstTurn nopAt.turns) (fun u => decide (u.gang = 0) && u.younger == false) (by decide +kernel)
  simp only [Bool.and_eq_true, decide_eq_true_eq, beq_iff_eq] at h
  have he : firstOf (fun i => exec i nopAt) nopAt.events = none := Option.isNone_iff_eq_none.mp (by decide +kernel)
  have hh : (nopAt.select 0 false).heldTrap = none := Option.isNone_iff_eq_none.mp (by decide +kernel)
  obtain ⟨b, hb, hd⟩ := ok_with (e := (nopAt.select 0 false).fetchBytes)
    (fun b => match decode b.1 with
      | .ok (i, rest) => decide (i = nopWord) && rest.isEmpty
      | .error _ => false) (by decide +kernel)
  have hw : decode b.1 = .ok (nopWord, []) := by
    cases e : decode b.1 with
    | error _ => rw [e] at hd; cases hd
    | ok v =>
      rw [e] at hd
      simp only [Bool.and_eq_true, decide_eq_true_eq, List.isEmpty_iff] at hd
      rw [← hd.1, ← hd.2]
  exact ⟨nopAt, turn, b.1, b.2, nopWord, [], by decide +kernel, rfl, rfl, Option.isNone_iff_eq_none.mp (by decide +kernel),
    Option.isNone_iff_eq_none.mp (by decide +kernel),
    he, ht, by rw [h.1, h.2]; exact hh, by rw [h.1, h.2]; exact Option.isNone_iff_eq_none.mp (by decide +kernel), by rw [h.1, h.2]; exact hb, hw,
    Bool.and_eq_false_iff.mpr (.inr (by decide +kernel))⟩
/-- The same word waits at the pc with the fields of its fetch. -/
def waitsAt : State :=
  nopAt.modGang fun g => g.modPath fun p => { p with latch := some (0x20000, 0x64BC03FFFFFFFFFC00000000) }
theorem witness_StepRunsDecoded_latched : ∃ (s : State) (turn : Turn) (w : IWord),
    s.agenda = [] ∧ s.recovery = false ∧ s.halt = .running ∧ s.evicted = none ∧ s.unmapped = none ∧
    firstOf (fun i => exec i s) s.events = none ∧ firstTurn s.turns = some turn ∧
    (s.select turn.gang turn.younger).heldTrap = none ∧ (s.select turn.gang turn.younger).latched = some w
      ∧ (s.select turn.gang turn.younger).waitsForHeld (decodeWord w) = false := by
  obtain ⟨turn, ht, h⟩ := some_with (e := firstTurn waitsAt.turns) (fun u => decide (u.gang = 0) && u.younger == false) (by decide +kernel)
  simp only [Bool.and_eq_true, decide_eq_true_eq, beq_iff_eq] at h
  obtain ⟨w, hw, hh⟩ := some_with (e := (waitsAt.select 0 false).latched)
    (fun w => !(waitsAt.select 0 false).waitsForHeld (decodeWord w)) (by decide +kernel)
  exact ⟨waitsAt, turn, w, by decide +kernel, rfl, rfl, Option.isNone_iff_eq_none.mp (by decide +kernel),
    Option.isNone_iff_eq_none.mp (by decide +kernel),
    Option.isNone_iff_eq_none.mp (by decide +kernel), ht,
    by rw [h.1, h.2]; exact Option.isNone_iff_eq_none.mp (by decide +kernel), by rw [h.1, h.2]; exact hw,
    by rw [h.1, h.2]; simpa using hh⟩
/-- HASHCLR (R179) stands at the pc, with an access of the gang held at its slice's gate for folio 2. -/
def heldAt (latch : Option (DWord × IWord)) : State :=
  let s := nopAt.modGang fun g =>
    { g.modPath fun p => { p with latch := latch } with replaym := 0x502, member := true, rfolio := 1, flights := [heldStore] }
  { s with
    mem := Memory.empty.write 0x20000 (natToBytes 12 0x9EBC03FFFFFFFFFC00000000),
    ctx := { s.ctx with logs := [(5, { replayLog5 [] [] with
      gates := [(s.sliceOf 0xFFF8, [(2, 1)])], waits := [(s.sliceOf 0xFFF8, [(0, false)])] })] } }
theorem witness_StepRunsDecoded_waits : ∃ (s : State) (turn : Turn) (bs : List Byte) (ts : List (Nat × Translation)) (i : Instr) (rest : List Byte),
    s.agenda = [] ∧ s.recovery = false ∧ s.halt = .running ∧ s.evicted = none ∧ s.unmapped = none ∧
    firstOf (fun i => exec i s) s.events = none ∧ firstTurn s.turns = some turn ∧
    let u := s.select turn.gang turn.younger
    u.heldTrap = none ∧ u.latched = none ∧ u.fetchBytes = .ok (bs, ts) ∧ decode bs = .ok (i, rest)
      ∧ ((u.keepFetch ts).latch (wordOfBytes bs)).waitsForHeld i = true := by
  let s := heldAt none
  obtain ⟨turn, ht, h⟩ := some_with (e := firstTurn s.turns) (fun u => decide (u.gang = 0) && u.younger == false) (by decide +kernel)
  simp only [Bool.and_eq_true, decide_eq_true_eq, beq_iff_eq] at h
  obtain ⟨b, hb, hd⟩ := ok_with (e := (s.select 0 false).fetchBytes)
    (fun b => match decode b.1 with
      | .ok (i, rest) => decide (i = .hashclr (wordRRR .absent .absent .absent .absent 0)) && rest.isEmpty
        && (((s.select 0 false).keepFetch b.2).latch (wordOfBytes b.1)).waitsForHeld i
      | .error _ => false) (by decide +kernel)
  cases e : decode b.1 with
  | error _ => rw [e] at hd; cases hd
  | ok v =>
    rw [e] at hd
    simp only [Bool.and_eq_true] at hd
    exact ⟨s, turn, b.1, b.2, v.1, v.2, by decide +kernel, rfl, rfl, Option.isNone_iff_eq_none.mp (by decide +kernel),
    Option.isNone_iff_eq_none.mp (by decide +kernel),
      Option.isNone_iff_eq_none.mp (by decide +kernel), ht, by rw [h.1, h.2]; exact Option.isNone_iff_eq_none.mp (by decide +kernel),
      by rw [h.1, h.2]; exact Option.isNone_iff_eq_none.mp (by decide +kernel), by rw [h.1, h.2]; exact hb, e, by rw [h.1, h.2]; exact hd.2⟩
theorem witness_StepRunsDecoded_latchedWaits : ∃ (s : State) (turn : Turn) (w : IWord),
    s.agenda = [] ∧ s.recovery = false ∧ s.halt = .running ∧ s.evicted = none ∧ s.unmapped = none ∧
    firstOf (fun i => exec i s) s.events = none ∧ firstTurn s.turns = some turn ∧
    (s.select turn.gang turn.younger).heldTrap = none ∧ (s.select turn.gang turn.younger).latched = some w
      ∧ (s.select turn.gang turn.younger).waitsForHeld (decodeWord w) = true := by
  let s := heldAt (some (0x20000, 0x9EBC03FFFFFFFFFC00000000))
  obtain ⟨turn, ht, h⟩ := some_with (e := firstTurn s.turns) (fun u => decide (u.gang = 0) && u.younger == false) (by decide +kernel)
  simp only [Bool.and_eq_true, decide_eq_true_eq, beq_iff_eq] at h
  obtain ⟨w, hw, hh⟩ := some_with (e := (s.select 0 false).latched)
    (fun w => (s.select 0 false).waitsForHeld (decodeWord w)) (by decide +kernel)
  exact ⟨s, turn, w, by decide +kernel, rfl, rfl, Option.isNone_iff_eq_none.mp (by decide +kernel),
    Option.isNone_iff_eq_none.mp (by decide +kernel),
    Option.isNone_iff_eq_none.mp (by decide +kernel), ht,
    by rw [h.1, h.2]; exact Option.isNone_iff_eq_none.mp (by decide +kernel), by rw [h.1, h.2]; exact hw, by rw [h.1, h.2]; exact hh⟩
/-- An EXIT waits for the access that a gate holds; a NOP does not. -/
theorem test_waits_for_held :
    (flying heldStore).waitsForHeld (.exit (wordRRR .absent .absent .absent .absent 0)) = true
      ∧ (flying heldStore).waitsForHeld nopWord = false := by decide +kernel
/-- The NOP runs: the pc is that of the next word. -/
theorem test_step_nop : after (step nopAt) (fun t => t.pc = 0x2000C && t.clock = 1) = true := by decide +kernel
theorem witness_StepRunsDecoded_agenda : ∃ (s : State) (i : Instr) (rest : List Instr), s.agenda = i :: rest :=
  ⟨{ base with agenda := [nopWord] }, nopWord, [], rfl⟩
theorem witness_StepRunsDecoded_halt : ∃ s : State, s.agenda = [] ∧ s.recovery = false ∧ s.halt = .asserted :=
  ⟨{ base with halt := .asserted }, rfl, rfl, rfl⟩
theorem witness_StepRunsDecoded_stopped : ∀ b : Bool, ∃ s : State, s.agenda = [] ∧ s.recovery = false ∧ s.halt = .stopped ∧
    s.traceFault.isSome = b := by
  intro b
  refine ⟨stoppedWith (if b then Code.traceRewrite else Code.protection), ?_⟩
  cases b <;> decide +kernel

/-! Memory. -/

theorem witness_MemoryLaws_number : (2 ^ 64 - 1 : Nat) < 2 ^ (8 * 8) := by decide
theorem witness_MemoryLaws_bytes : (natToBytes 12 0x64BC03FFFFFFFFFC00000000).length = 12 ∧ (11 : Nat) < 12 := by decide
theorem witness_MemoryLaws_same : ∃ m m' : Memory, m.wf = true ∧ m'.wf = true ∧ (∀ a, m.byte a = m'.byte a) ∧ ∀ k, m.label k = m'.label k :=
  ⟨nopAt.mem, nopAt.mem, by decide +kernel, by decide +kernel, fun _ => rfl, fun _ => rfl⟩
theorem witness_MemoryStaysCanonical : ∃ s t : State, s.mem.wf = true ∧ step s = .next t := by
  obtain ⟨t, ht⟩ := next_of (r := step nopAt) (by decide +kernel)
  exact ⟨nopAt, t, by decide +kernel, ht⟩

/-! Decoding. Words are written out field by field from R260 and R265 and the opcode map R269: `!p3?`, run 9, cede,
use 2, destination w5; first source w1, second s2, third -3. -/

def headerWord (op : Nat) : Nat := op * 2 ^ 23 + 2 ^ 22 + 3 * 2 ^ 18 + 9 * 2 ^ 14 + 2 ^ 13 + 2 * 2 ^ 11 + 5
def header0 : Header := { neg := true, kind := false, idx := 3, run := 9, cede := true, use := 2, rsv := false, d := .w 5 }
/-- The instruction at the 12 bytes, body first (R259). -/
def readsAs (op body : Nat) (i : Instr) : Bool :=
  match decode (natToBytes 8 body ++ natToBytes 4 (headerWord op)) with
  | .ok (j, []) => decide (j = i)
  | _ => false

def rrrBody : Nat := 0x001 * 2 ^ 54 + 0x102 * 2 ^ 44 + 0x2FD * 2 ^ 34 + 5 * 2 ^ 31 + 0x5835 * 2 ^ 16 + 0x00A5
def rrrTerm : RRR :=
  { hdr := header0, a := .w 1, b := .s 2, c := .imm 0xFD, fe := 5, mod := 0x5835, rsv := 0x00A5 }
def rrrOpcodesA : List (Nat × (RRR → Instr)) :=
  [(0x000, .add), (0x001, .sub), (0x002, .mul), (0x003, .mulh), (0x004, .mad), (0x005, .div), (0x006, .rem), (0x007, .neg),
   (0x008, .abs), (0x009, .min), (0x00A, .max), (0x00B, .addmin), (0x00C, .and), (0x00D, .or), (0x00E, .xor), (0x00F,
   .not), (0x010, .shl), (0x011, .shr), (0x012, .sra), (0x013, .rot), (0x014, .fsh), (0x015, .clz), (0x016, .ctz), (0x017,
   .popc)]
theorem test_decode_rrrA : rrrOpcodesA.all (fun e => readsAs e.1 rrrBody (e.2 rrrTerm)) = true := by decide +kernel
def rrrOpcodesB : List (Nat × (RRR → Instr)) :=
  [(0x018, .brev), (0x019, .bfx), (0x01A, .bfi), (0x01B, .lea), (0x01C, .sel), (0x01D, .cmp), (0x01F, .mov), (0x040,
   .fadd), (0x041, .fsub), (0x042, .fmul), (0x043, .fma), (0x044, .fmin), (0x045, .fmax), (0x046, .fcmp), (0x047, .fclass),
   (0x048, .fdiv), (0x049, .fsqrt), (0x04A, .frcp), (0x04B, .frsq), (0x04C, .fexp), (0x04D, .flog), (0x04E, .fsin), (0x04F,
   .fcos), (0x050, .ftanh)]
theorem test_decode_rrrB : rrrOpcodesB.all (fun e => readsAs e.1 rrrBody (e.2 rrrTerm)) = true := by decide +kernel
def rrrOpcodesC : List (Nat × (RRR → Instr)) :=
  [(0x051, .ferf), (0x052, .frnd), (0x080, .vote), (0x081, .shfl), (0x082, .lsh), (0x083, .perm), (0x084, .ptld), (0x085,
   .lred), (0x086, .lscan), (0x087, .matchLanes), (0x088, .plog), (0x0C1, .brx), (0x0C3, .ret), (0x0C5, .rwait), (0x0C6,
   .brk), (0x0C7, .exit), (0x0C8, .yield), (0x0C9, .nop), (0x0D5, .testf), (0x0D6, .cancel), (0x0D7, .retv), (0x0E0,
   .shput), (0x0E1, .shtake), (0x0E2, .shdepth)]
theorem test_decode_rrrC : rrrOpcodesC.all (fun e => readsAs e.1 rrrBody (e.2 rrrTerm)) = true := by decide +kernel
def rrrOpcodesD : List (Nat × (RRR → Instr)) :=
  [(0x0E3, .shbind), (0x0E4, .shprio), (0x0F0, .modnew), (0x0F1, .modfree), (0x0F3, .propagate), (0x0F4, .tdrop), (0x0F5,
   .tstat), (0x0F6, .tkey), (0x0F7, .qend), (0x118, .bar), (0x119, .bara), (0x11A, .barw), (0x13C, .hashrd), (0x13D,
   .hashclr), (0x140, .tcfg), (0x158, .bufexp), (0x159, .bufget), (0x15A, .bufrel), (0x15B, .bufst), (0x183, .tret),
   (0x185, .bkpt)]
theorem test_decode_rrrD : rrrOpcodesD.all (fun e => readsAs e.1 rrrBody (e.2 rrrTerm)) = true := by decide +kernel

def riBody : Nat := 0x001 * 2 ^ 54 + 2 ^ 53 + 0x1A5835 * 2 ^ 32 + 0x89ABCDEF
def riTerm : RI :=
  { hdr := header0, a := .w 1, fe := true, mod := 0x1A5835, imm := 0x89ABCDEF }
def riOpcodes : List (Nat × (RI → Instr)) :=
  [(0x020, .addRI), (0x021, .subRI), (0x022, .mulRI), (0x029, .minRI), (0x02A, .maxRI), (0x02C, .andRI), (0x02D, .orRI),
   (0x02E, .xorRI), (0x03B, .leaRI), (0x03D, .cmpRI), (0x03F, .movi), (0x060, .cvt), (0x180, .sysr), (0x181, .sysw),
   (0x182, .trap)]
theorem test_decode_ri : riOpcodes.all (fun e => readsAs e.1 riBody (e.2 riTerm)) = true := by decide +kernel

def mBody : Nat := 0x2A * 2 ^ 58 + 0x001 * 2 ^ 48 + 0x102 * 2 ^ 38 + 2 * 2 ^ 36 + 3 * 2 ^ 33 + 5 * 2 ^ 30 + 2 * 2 ^ 28 + 1 * 2 ^ 26 + 2 ^ 25 + 0x9ABCDE
def mTerm : MFmt :=
  { hdr := header0, sbase := 0x2A, idx := .w 1, data := .s 2, fe := 2, width := 3, space := 5, scale := 2, hint := 1, ext := true,
    rsv := false, off := 0x9ABCDE }
def mOpcodes : List (Nat × (MFmt → Instr)) :=
  [(0x0F2, .modset), (0x100, .ld), (0x101, .st), (0x102, .ldv), (0x103, .stv), (0x104, .pref), (0x110, .ldlbl), (0x111,
   .stlbl)]
theorem test_decode_m : mOpcodes.all (fun e => readsAs e.1 mBody (e.2 mTerm)) = true := by decide +kernel

def msBody : Nat := 0x2A * 2 ^ 58 + 0x001 * 2 ^ 48 + 0x102 * 2 ^ 38 + 0x2FD * 2 ^ 28 + 5 * 2 ^ 25 + 0x0A * 2 ^ 20 + 0x13 * 2 ^ 15 + 2 ^ 14 + 1 * 2 ^ 11 + 0x2A5
def msTerm : MSFmt :=
  { hdr := header0, sbase := 0x2A, idx := .w 1, data := .s 2, data2 := .imm 0xFD, fe := 5, op := 0x0A, obs := 0x13, pub := true,
    sub := false, width := 1, rsv := 0x2A5 }
def msOpcodes : List (Nat × (MSFmt → Instr)) :=
  [(0x108, .ldx), (0x109, .stx), (0x10A, .atom), (0x10B, .mwait)]
theorem test_decode_ms : msOpcodes.all (fun e => readsAs e.1 msBody (e.2 msTerm)) = true := by decide +kernel

def bBody : Nat := 0x001 * 2 ^ 54 + 0x2A5835 * 2 ^ 32 + 0x89ABCDEF
def bTerm : BFmt :=
  { hdr := header0, a := .w 1, mod := 0x2A5835, off := 0x89ABCDEF }
def bOpcodes : List (Nat × (BFmt → Instr)) :=
  [(0x0C0, .bra), (0x0C2, .call), (0x0C4, .join), (0x0CA, .dispatch), (0x0D3, .await), (0x0D4, .awaita), (0x184, .phint)]
theorem test_decode_b : bOpcodes.all (fun e => readsAs e.1 bBody (e.2 bTerm)) = true := by decide +kernel

def gBody : Nat := 0x001 * 2 ^ 54 + 0x2B * 2 ^ 48 + 0x16 * 2 ^ 42 + 0x25 * 2 ^ 36 + 5 * 2 ^ 33 + 2 ^ 32 + 0x89ABCDEF
def gTerm : GFmt :=
  { hdr := header0, args := .w 1, cnt := 0x2B, shelf := 0x16, width := 0x25, place := 5, salt := true, entry := 0x89ABCDEF }
def gOpcodes : List (Nat × (GFmt → Instr)) :=
  [(0x0D0, .spawn), (0x0D1, .spawng), (0x0D2, .spawnv), (0x0D8, .trecord)]
theorem test_decode_g : gOpcodes.all (fun e => readsAs e.1 gBody (e.2 gTerm)) = true := by decide +kernel

def eBody : Nat := 0x001 * 2 ^ 54 + 0x102 * 2 ^ 44 + 0x2FD * 2 ^ 34 + 5 * 2 ^ 31 + 0x12345678
def eTerm : EFmt :=
  { hdr := header0, a := .w 1, b := .s 2, c := .imm 0xFD, fe := 5, control := 0x12345678 }
def eOpcodes : List (Nat × (EFmt → Instr)) :=
  [(0x141, .mma), (0x142, .mmac), (0x143, .aclr), (0x144, .ald), (0x145, .ast), (0x146, .drain), (0x147, .xformFwd),
   (0x150, .copy), (0x151, .copyt), (0x152, .copyf), (0x153, .job)]
theorem test_decode_e : eOpcodes.all (fun e => readsAs e.1 eBody (e.2 eTerm)) = true := by decide +kernel

/-- The rows that share an opcode: control bit 0 of DRAIN and XFORM, mod bit 6 of BUFREL, register numbers 0x10 to 0x13
of SYSW (R362, R363, R369, R372). -/
theorem test_decode_shared :
    readsAs 0x146 (eBody + 1) (.drainAdd { eTerm with control := 0x12345679 })
      && readsAs 0x147 (eBody + 1) (.xformInv { eTerm with control := 0x12345679 })
      && readsAs 0x15A (rrrBody + 2 ^ 22) (.bufrelAbort { rrrTerm with mod := 0x5875 })
      && readsAs 0x181 (0x001 * 2 ^ 54 + 0x13) (.pmselWrite { hdr := header0, a := .w 1, fe := false, mod := 0, imm := 0x13 }) = true := by
  decide +kernel
/-- A MOV into XM, LRAND, REPLAYM or FOCUS: `MOV <special>, s2` (R108, R284). -/
def movBody : Nat := 0x102 * 2 ^ 54 + 0x3FF * 2 ^ 44 + 0x3FF * 2 ^ 34
def movWord (idx : Nat) (mk : RRR → Instr) : Bool :=
  match decode (natToBytes 8 movBody ++ natToBytes 4 (0x01F * 2 ^ 23 + 0x3C0000 + 0x180 + idx)) with
  | .ok (j, []) => decide (j = mk (wordRRR (.special (BitVec.ofNat 7 idx)) (.s 2) .absent .absent 0))
  | _ => false
theorem test_decode_mov_special :
    (movWord 0x00 .xmWrite && movWord 0x0D .lrandWrite && movWord 0x0F .replaymWrite && movWord 0x08 .registerWrite
      && movWord 0x7F .registerWrite) = true := by decide +kernel
/-- Opcodes that R269 leaves unassigned: 0x01E, 0x0B0, 0x1C0 and 0x1FF. -/
theorem test_decode_unassigned : [0x01E, 0x0B0, 0x1C0, 0x1FF].all (fun op =>
    readsAs op 0 (.unassignedOpcode (BitVec.ofNat 96 (headerWord op * 2 ^ 64)))) = true := by decide +kernel
/-- Every operand pattern of R263, at its ends. -/
theorem test_decode_operands :
    [(0x000, Operand.w 0), (0x0FF, .w 255), (0x100, .s 0), (0x13F, .s 63), (0x140, .q 0), (0x14F, .q 15), (0x150, .h 0), (0x15F, .h 15),
     (0x160, .a 0), (0x163, .a 3), (0x164, .bad 0x164), (0x17F, .bad 0x17F), (0x180, .special 0), (0x1FF, .special 127),
     (0x200, .imm 0), (0x2FF, .imm 255), (0x300, .immField), (0x301, .bad 0x301), (0x3FE, .bad 0x3FE), (0x3FF, .absent)].all (fun e =>
      readsAs 0x000 (e.1 * 2 ^ 54) (.add { hdr := header0, a := e.2, b := .w 0, c := .w 0, fe := 0, mod := 0, rsv := 0 })) = true := by
  decide +kernel
/-- Fewer than 12 bytes are no word. -/
theorem test_decode_short : (match decode (natToBytes 11 0) with
    | .ok _ => false
    | .error _ => true) = true := by decide +kernel
/-- The table's numbering: bit 0 is the least significant bit of the first byte (SHL.i64 s4, s4, 32 of chapter 20). -/
theorem test_decode_table_word :
    decodeTableWord 96 0x083C010441220FFC00190000 = some (.shl (wordRRR (.s 4) (.s 4) (.imm 32) .absent 0x19)) := by decide +kernel
theorem test_spec_words : specWords.all (fun e => e.2.2.wf && encode e.2.2 == some (BitVec.ofNat 96 (e.1 * 2 ^ 64 + e.2.1))) = true := by
  decide +kernel

/-! Well-formedness: what each check refuses. -/

/-- An operand kept as a bad pattern that R263 lists. -/
theorem test_wf_bad_operand : (Operand.bad 0x3FF).wf = false ∧ (Operand.bad 0x164).wf = true
    ∧ (Instr.add { rrrTerm with c := .bad 0x000 }).wf = false ∧ (Instr.addRI { riTerm with a := .bad 0x300 }).wf = false
    ∧ (Instr.ld { mTerm with data := .bad 0x1FF }).wf = false ∧ (Instr.atom { msTerm with data2 := .bad 0x200 }).wf = false
    ∧ (Instr.bra { bTerm with a := .bad 0x150 }).wf = false ∧ (Instr.spawn { gTerm with args := .bad 0x163 }).wf = false
    ∧ (Instr.mma { eTerm with b := .bad 0x140 }).wf = false
    ∧ (Instr.nop { rrrTerm with hdr := { header0 with d := .bad 0 } }).wf = false := by decide +kernel
/-- A MOV row with another destination. -/
theorem test_wf_mov : (Instr.mov (movTo 0x08 (.s 2))).wf = false ∧ (Instr.xmWrite (movTo 0x08 (.s 2))).wf = false
    ∧ (Instr.lrandWrite (movTo 0x00 (.s 2))).wf = false ∧ (Instr.replaymWrite (movTo 0x0D (.s 2))).wf = false
    ∧ (Instr.registerWrite (movTo 0x00 (.s 2))).wf = false ∧ (Instr.registerWrite (movTo 0x0D (.s 2))).wf = false
    ∧ (Instr.registerWrite (movTo 0x0F (.s 2))).wf = false ∧ (Instr.registerWrite rrrTerm).wf = false := by decide +kernel
/-- A row with the field value of the other row of its opcode. -/
theorem test_wf_shared : (Instr.drain { eTerm with control := 1 }).wf = false ∧ (Instr.drainAdd eTerm).wf = false
    ∧ (Instr.xformFwd { eTerm with control := 1 }).wf = false ∧ (Instr.xformInv eTerm).wf = false
    ∧ (Instr.bufrel { rrrTerm with mod := 0x40 }).wf = false ∧ (Instr.bufrelAbort rrrTerm).wf = false
    ∧ (Instr.sysw { riTerm with imm := 0x10 }).wf = false ∧ (Instr.pmselWrite riTerm).wf = false := by decide +kernel
/-- An unassigned opcode that is assigned. -/
theorem test_wf_unassigned : (Instr.unassignedOpcode 0).wf = false ∧ (Instr.unassignedOpcode (0x1C0 <<< 87)).wf = true := by decide +kernel


/-! One step each; the expected values are the spec's own tables (R232, R235, R274, R288, R299, R300) or follow from
its rules by hand. -/

/-- w1, w2 and w3 hold one value each in every lane. -/
def lanes3 (a b c : Word) : State :=
  baseWith fun g => ((g.setW 1 (Lanes.all a)).setW 2 (Lanes.all b)).setW 3 (Lanes.all c)
def leavesW (i : Instr) (s : State) (r : BitVec 8) (l : Nat) (v : Word) : Bool :=
  after (exec i s) fun t => (t.gang.wReg r).at l == v && t.faults.isEmpty
def leavesS (i : Instr) (s : State) (r : BitVec 6) (v : DWord) : Bool :=
  after (exec i s) fun t => t.gang.sReg r == v && t.faults.isEmpty
def faultsWith (i : Instr) (s : State) (code : BitVec 8) (lanes : Mask) : Bool :=
  after (exec i s) fun t => t.halt == .asserted && (t.faults.map fun f => (f.kind, f.offending)) == [(code, lanes)]

/-- The rows of R299. -/
theorem test_div_zero : leavesW (.div (rrr 2 (.w 4) 0x10)) (lanes3 7 0 0) 4 31 0xFFFFFFFF = true := by decide +kernel
theorem test_div_most_negative : leavesW (.div (rrr 2 (.w 4) 0x10)) (lanes3 0x80000000 0xFFFFFFFF 0) 4 0 0x80000000 = true := by decide +kernel
theorem test_rem_zero : leavesW (.rem (rrr 2 (.w 4) 0x14)) (lanes3 7 0 0) 4 0 7 = true := by decide +kernel
theorem test_add_sat : leavesW (.add (rrr 2 (.w 4) 0x50)) (lanes3 0x7FFFFFFF 1 0) 4 0 0x7FFFFFFF = true := by decide +kernel
theorem test_add_wraps : leavesW (.add (rrr 2 (.w 4) 0x10)) (lanes3 0x7FFFFFFF 1 0) 4 0 0x80000000 = true := by decide +kernel
theorem test_addmin : leavesW (.addmin (rrr 3 (.w 4) 0x10)) (lanes3 0x7FFFFFF0 0x20 0x7FFFFFFF) 4 0 0x7FFFFFFF
    && leavesW (.addmin (rrr 3 (.w 4) 0x10)) (lanes3 0x7FFFFFF0 0x20 5) 4 0 5 = true := by decide +kernel
theorem test_sra : leavesW (.sra (rrr 2 (.w 4) 0x10)) (lanes3 0x80000000 40 0) 4 0 0xFFFFFFFF = true := by decide +kernel
theorem test_rot : leavesW (.rot (rrr 2 (.w 4) 0x1C)) (lanes3 0x80000001 33 0) 4 0 3 = true := by decide +kernel
theorem test_odd_pair : faultsWith (.add (rrr 2 (.w 3) 0x18)) base 0x04 all = true := by decide +kernel
theorem test_cmp_bits : faultsWith (.cmp (wordRRR .absent (.w 1) (.w 2) .absent 0x089C)) base 0x04 all = true := by decide +kernel
theorem test_fmin_quiet : leavesW (.fmin (rrr 2 (.w 4) 1)) (lanes3 0x7FC00001 0x40000000 0) 4 0 0x40000000 = true := by decide +kernel
theorem test_fmin_signalling : leavesW (.fmin (rrr 2 (.w 4) 1)) (lanes3 0x7F800001 0x40000000 0) 4 0 0x7FC00000 = true := by decide +kernel
theorem test_fsin_one : leavesW (.fsin (rrr 1 (.w 4) 1)) (lanes3 0x3F800000 0 0) 4 0 0 = true := by decide +kernel
theorem test_fexp_rtz : faultsWith (.fexp (rrr 1 (.w 4) 0x41)) base 0x04 all = true := by decide +kernel
/-- XM = 0 and a p guard: a no-op (R95). -/
theorem test_no_lane : after (exec (.fexp (rrr 1 (.w 4) 0x41)) (baseWith fun g => g.modPath fun p => { p with xm := 0 }))
    (fun t => t.pc == 0x100C && t.faults.isEmpty) = true := by decide +kernel

/-- The example of R288. -/
theorem test_fma : leavesW (.fma (rrr 3 (.w 4) 1)) (lanes3 0x3F800001 0x3F800001 0xBF800002) 4 0 0x28800000 = true := by decide +kernel
theorem test_fmul : leavesW (.fmul (rrr 2 (.w 4) 1)) (lanes3 0x3F800001 0x3F800001 0) 4 0 0x3F800002 = true := by decide +kernel
theorem test_fadd : leavesW (.fadd (rrr 2 (.w 4) 1)) (lanes3 0x3F800002 0xBF800002 0) 4 0 0 = true := by decide +kernel
theorem test_fsqrt_negative : leavesW (.fsqrt (rrr 1 (.w 4) 1)) (lanes3 0xBF800000 0 0) 4 0 0x7FC00000
    && leavesW (.fsqrt (rrr 1 (.w 4) 1)) (lanes3 0x80000000 0 0) 4 0 0x80000000 = true := by decide +kernel
theorem test_frcp : leavesW (.frcp (rrr 1 (.w 4) 1)) (lanes3 0x80000000 0 0) 4 0 0xFF800000 = true := by decide +kernel

/-- The example of R235: CVT.bf16.f32.sr w2, w1 in two lanes. -/
def srState : State :=
  baseWith fun g => { g.setW 1 (Lanes.all 0x3F802000) with lrand := (g.lrand.set 0 1).set 1 0x1234C000 }
def srWord : Instr := .cvt (ri (.w 2) (.w 1) 0x18101 0)
theorem test_cvt_sr : leavesW srWord srState 2 0 0x3F81 && leavesW srWord srState 2 1 0x3F80
    && after (exec srWord srState) (fun t => t.gang.lrand.at 0 == 0x80200003 && t.gang.lrand.at 1 == 0x091A6000) = true := by
  decide +kernel

/-- Lane operations: R300, and the example of R106. -/
def counting (xm : Mask) : State :=
  baseWith fun g => (g.setW 1 (Vector.ofFn fun (l : Fin 32) => BitVec.ofNat 32 (l.val + 1))).modPath fun p => { p with xm := xm }
theorem test_lred : leavesW (.lred (rrr 1 (.w 6) 0x10)) (counting 0xFF) 6 7 36 = true := by decide +kernel
theorem test_vote_count : leavesS (.vote (rrr 0 (.s 4) 0xCF)) (counting 0xFF) 4 8 = true := by decide +kernel
/-- The rows of R300 on a packed gang: each task counts itself alone; one result for all of them is ILLEGAL-OP. -/
theorem test_packed_lred : leavesW (.lred (rrr 1 (.w 6) 0x10))
    (packed0.modGang fun g => g.setW 1 (Vector.ofFn fun (l : Fin 32) => BitVec.ofNat 32 (l.val + 1))) 6 1 2 = true := by decide +kernel
theorem test_packed_vote_count : faultsWith (.vote (rrr 0 (.s 4) 0xCF)) packed0 0x04 3 = true := by decide +kernel
theorem test_lscan : leavesW (.lscan (rrr 1 (.w 7) 0x10)) (counting 0xFFFFFF00) 7 31 492
    && leavesW (.lscan (rrr 1 (.w 7) 0x10)) (counting 0xFFFFFF00) 7 8 9 = true := by decide +kernel
theorem test_match : leavesW (.matchLanes (rrr 1 (.w 7) 0x1C)) (lanes3 5 0 0) 7 9 0xFFFFFFFF = true := by decide +kernel

/-- The words of R274. -/
theorem test_unassigned : after (exec (.unassignedOpcode 0xE03C03FF0000000000000000) base)
    (fun t => (t.faults.map fun f => (f.kind, f.acting)) == [(0x04, all)])
    && after (exec (.unassignedOpcode 0xE07C03FF0000000000000000) base) (fun t => t.faults.isEmpty && t.pc == 0x100C) = true := by
  decide +kernel

/-- A branch goes 3 words on, a call links the next word (R303). -/
theorem test_bra : after (exec (.bra { hdr := plainHeader .absent, a := .absent, mod := 0, off := 3 }) base) (fun t => t.pc == 0x1024) = true := by
  decide +kernel
theorem test_call : after (exec (.call { hdr := plainHeader (.s 5), a := .absent, mod := 0, off := 0xFFFFFFFF }) base)
    (fun t => t.pc == 0xFF4 && t.gang.sReg 5 == 0x100C) = true := by decide +kernel
/-- A target with bit 1 set (R259). -/
theorem test_brx_misaligned : faultsWith (.brx (wordRRR .absent (.s 1) .absent .absent 0)) (baseWith fun g => g.setS 1 0x2002) 0x03 all = true := by
  decide +kernel

/-- A store reaches its carrel's view at once, memory only when it is released (R123). -/
theorem test_store : after (exec (.st (wordM .absent 1 .absent (.w 2) 1 0 0 0)) (mapped (baseWith fun g => (g.setS 1 0x40).setW 2 (Lanes.all 0xABCD1234))))
    (fun t => t.viewByte 0 0x40 == 0x34 && t.viewByte 0 0x41 == 0x12 && t.viewByte 0 0x42 == 0 && t.mem.byte 0x40 == 0
      && t.viewByte 47 0x40 == 0) = true := by decide +kernel
/-- A load's register is empty until the result returns (R17). -/
theorem test_load : after (exec (.ld (wordM (.w 4) 1 .absent .absent 1 1 0 0)) (memory 0x40))
    (fun t => t.gang.wEmpty 4 == all && t.gang.flights.length == 1) = true := by decide +kernel
theorem test_store_fault : faultsWith (.st (wordM .absent 1 .absent (.w 2) 2 0 0 0)) (memory 0x30000) 0x01 all = true := by decide +kernel
/-- R346: 32 lanes add 1 to 100 and then T2 finds 132. -/
theorem test_atom : after (exec (.atom (wordMS (.w 5) (.imm 1) .absent 0 1 false false))
    (let s := mapped (baseWith fun g => g.setS 3 0x40)
     { s with mem := Memory.empty.write 0x40 [100] }))
    (fun t => t.mem.word 0x40 4 == 132 && (t.gang.flights.map fun f => (f.vals.getD 0 (Lanes.all 0)).at 31) == [131]) = true := by
  decide +kernel
theorem test_inc : atomNew 0x0A true 32 0xFFFFFFFF 0 0 = some 0 ∧ atomNew 0x0A false 32 3 3 0 = some 0 ∧ atomNew 0x0A false 32 2 3 0 = some 3 := by
  decide +kernel

/-- TCFG 0, 600 is ILLEGAL-OP (R379); TCFG.upper 2, 2 sets its fields (R357). -/
theorem test_tcfg : faultsWith (.tcfg (wordRRR .absent (.imm 0) (.s 1) .absent 0)) (baseWith fun g => g.setS 1 600) 0x04 all
    && after (exec (.tcfg (wordRRR .absent (.imm 2) (.imm 2) .absent 0x40)) base) (fun t => t.gang.tcfg == 0x40402) = true := by decide +kernel
theorem test_trap : after (exec (.trap (ri .absent .absent 0 5)) base)
    (fun t => t.pc == 0x8000 && t.gang.trappc == 0x100C && t.gang.trapc == 0xFFFFFFFF00050101) = true := by decide +kernel
theorem test_tret : after (exec (.tret (rrr 0 .absent 0)) (handler 0x8000 true)) (fun t => t.pc == 0x1010 && t.gang.trapc == 0) = true := by
  decide +kernel
theorem test_hashrd : leavesS (.hashrd (rrr 0 (.s 4) 0)) base 4 0x243F6A8885A308D3 = true := by decide +kernel
/-- A decoded store that the host's fetch word places runs as the next instruction (log 24). -/
theorem test_fetch_word : after (step (State.reset.withFetchWord 96 0x64BC03FFFFFFFFFC00000000)) (fun t => t.faults.isEmpty && t.halt == .running) = true := by
  decide +kernel

end Sys2Proof.Tests
end

section
namespace Sys2Proof.Machine
open Sys2Proof

/-! One task, untraced: what the shared guards of the task instructions say. -/

theorem Gang.task_of_pack_nil (g : Gang) (hp : g.pack = []) (l : Nat) : g.task l = g := by
  unfold Gang.task; split
  · rfl
  · simp [hp, Table.seek]

theorem readGang_h {s : State} (h1 : s.oneTask) (ty : BitVec 6) (v : BitVec 32) (r : BitVec 4) :
    readGang s ty v (.h r) = s.gang.hReg r := by
  simp [readGang, readLane, Gang.task_of_pack_nil _ h1.2]

theorem perTask_oneTask {s : State} (h1 : s.oneTask) (h : Header) (b : Bool) (f : State → Result) :
    perTask h b f s = f s := by
  simp [perTask, h1.1]

theorem State.beneath_untraced {s : State} {g : Gang} (hm : g.mode = .untraced) : s.beneath g = false := by
  simp [State.beneath, State.traced, hm]

theorem State.mustPark_untraced {s : State} (hm : s.gang.mode = .untraced) : s.mustPark = false := by
  simp [State.mustPark, State.beneath_untraced hm]

/-- An untraced task parks at once: it neither diverges nor waits for labels or, alone in its gang, for room (R37). -/
theorem parkNow_untraced {s : State} (h1 : s.oneTask) (hm : s.gang.mode = .untraced) (m : Mask) (bm : BitVec 256)
    (pend : Pend) : parkNow s m bm pend = .next (s.issuedOne.parkSegment bm (s.pc + 12) pend).tick := by
  simp [parkNow, State.atomsMissing, State.needsLabels, State.packStays, State.beneath_untraced hm, h1.1]

/-- The fields that AWAIT accepts (R313). -/
def awaitOk (g : Gang) (x : BFmt) : Bool :=
  x.mod.extractLsb' 1 21 == 0 && !g.isShadow && (match x.hdr.d with
    | .w i => decide (i.toNat < g.regs)
    | .s _ | .absent => true
    | _ => false)

/-- An AWAIT of one task that issues with a bitmap and a handle that names a future: it delivers, or waits where its path
is one of two, or parks (R313, R37, R40). -/
theorem execAwait_issued {x : BFmt} {s : State} {m : Mask} {r : BitVec 4} {bm : BitVec 256} {key : Nat} {y : Slot}
    (ha : x.a = .h r) (h1 : s.oneTask)
    (hi : s.issues x.hdr .gang (awaitOk s.gang x) [(x.hdr.d, false)] (fun m => [⟨x.a, false, 0, false, m⟩]) m)
    (hb : s.bitmap x.off = .ok bm) (hn : s.named (s.gang.hReg r) = some (key, y))
    (hc : (s.frameOf s.gang.frame).cancel = false) :
    exec (.await x) s =
      if y.complete && !s.mustPark then awaitDone s x m key y r.toNat
      else if s.gang.split.isSome then .next (s.markInPlace y).hold
      else parkNow s m bm (.one key x.hdr.d (if x.mod.getLsbD 0 then some r.toNat else none)) := by
  refine (perTask_oneTask h1 x.hdr false (awaitTask x)).trans ?_
  rw [awaitTask]
  simp only [ha] at hi ⊢
  rw [issue_of_issues (m := m)]
  · simp [hb, readGang_h h1, hn, hc]
  · exact hi

/-- An AWAIT whose future is complete and whose check finds nothing delivers and goes on (R313). -/
theorem awaitDone_kept {s : State} {x : BFmt} {y : Slot} (hy : (x.mod.getLsbD 0 && y.overwritten) = false) (m : Mask)
    (key reg : Nat) :
    awaitDone s x m key y reg =
      let u := s.markInPlace y
      .next (((((u.acquire u.gang.carrel (y.cross u.gang.carrel)).modGang fun g =>
        (g.deliver x.hdr.d y u.freeNow).passed).useFree).consume key).advance x.hdr) := by
  simp only [awaitDone, hy]; rfl

/-- The registers that AWAITA names (R314). -/
def awaitaIdx (x : BFmt) : List Nat := (List.range 16).filter fun i => x.mod.getLsbD i

/-- What every one of a list of lookups found. -/
theorem filterMap_found {α β : Type} {named : List (α × Option β)} {found : List (α × β)}
    (h : named = found.map fun e => (e.1, some e.2)) :
    (named.any fun e => e.2.isNone) = false ∧ (named.filterMap fun e => e.2.map fun y => (e.1, y)) = found := by
  subst h
  constructor
  · simp
  · simp [List.filterMap_map]

/-- An AWAITA of one untraced task that issues with a bitmap and handles that all name futures: the lowest complete one's
number, or it waits where its path is one of two, or parks (R314). -/
theorem execAwaita_issued {x : BFmt} {s : State} {m : Mask} {bm : BitVec 256} {slots : List (Nat × Nat × Slot)}
    (h1 : s.oneTask)
    (hi : s.issues x.hdr .gang (x.a == .absent && isS x.hdr.d && x.mod.extractLsb' 16 6 == 0 && !(awaitaIdx x).isEmpty
      && !s.gang.isShadow) [(x.hdr.d, false)]
      (fun m => (awaitaIdx x).map fun i => ⟨.h (BitVec.ofNat 4 i), false, 0, false, m⟩) m)
    (hb : s.bitmap x.off = .ok bm) (hc : (s.frameOf s.gang.frame).cancel = false) (hm : s.gang.mode = .untraced)
    (hn : ((awaitaIdx x).map fun i => (i, s.named (s.gang.hReg (BitVec.ofNat 4 i))))
      = slots.map fun e => (e.1, some e.2)) :
    exec (.awaita x) s =
      match slots.find? fun e => e.2.2.complete with
      | some e => .next (((s.acquire s.gang.carrel (e.2.2.cross s.gang.carrel)).modGang fun g =>
          g.writeDest m x.hdr.d 64 (fun _ => 0) (BitVec.ofNat 64 e.1)).advance x.hdr)
      | none => if s.gang.split.isSome then .next s.hold
          else parkNow s m bm (.any (slots.map fun e => (e.1, e.2.1)) x.hdr.d) := by
  obtain ⟨hall, hslots⟩ := filterMap_found hn
  refine (perTask_oneTask h1 x.hdr false (awaitaTask x)).trans ?_
  simp only [awaitaIdx] at hi hall hslots
  rw [awaitaTask, issue_of_issues _ hi]
  simp only [hb, hall, hslots, hc, State.beneath_untraced hm, State.mustPark_untraced hm]
  cases slots.find? fun e => e.2.2.complete with
  | none => rfl
  | some e => rfl

end Sys2Proof.Machine

open Sys2Proof Sys2Proof.Machine

/-- Settles O24: AWAIT and AWAITA by what they answer once they issue, then by whether the future is complete. -/
theorem awaitDelivers : Obligations.AwaitDelivers := by
  refine ⟨fun x s m r bm key y ha h1 hi hb hn hc => ?_, fun x s m bm slots => ?_⟩
  · have he := execAwait_issued ha h1 hi hb hn hc
    refine ⟨fun hy hp ho => ⟨_, ?_, rfl⟩, fun hy hs hm => ⟨_, ?_, rfl⟩⟩
    · simpa [hy, hp, awaitDone_kept ho] using he
    · simpa [hy, hs, parkNow_untraced h1 hm] using he
  · intro idx h1 hi hb hc hm hn
    have he := execAwaita_issued h1 hi hb hc hm hn
    refine ⟨fun e hf => ⟨_, ?_, rfl⟩, fun hf hs => ⟨_, ?_, rfl⟩⟩
    · simpa [hf] using he
    · have hnone : slots.find? (fun e => e.2.2.complete) = none := List.find?_eq_none.2 (by simpa using hf)
      simpa [hnone, hs, parkNow_untraced h1 hm] using he
end

section
namespace Sys2Proof.Machine
open Sys2Proof

/-! What write-backs, edges, writes of the desk, counts, free values and choices leave as it is. -/

/-- What is kept by every step of a fold is kept by the fold. -/
theorem foldl_keeps {σ α β : Type} (π : σ → β) (f : σ → α → σ) (hf : ∀ s x, π (f s x) = π s)
    (xs : List α) (s : σ) : π (xs.foldl f s) = π s := by
  induction xs generalizing s with
  | nil => rfl
  | cons x xs ih => exact (ih _).trans (hf s x)

/-- The state without the contents of memory and caches, watches, resident shelves, counters, and what is next of free
values and choices. -/
def State.bare (s : State) : State :=
  { s with
    mem := Memory.empty, bad := [], l1s := [], l2s := [], migr := none, free := 0, choices := [],
    ctx := { s.ctx with watches := [], residents := [], carrels := [] } }

@[simp] theorem State.bare_setCacheOf (s : State) (n : Nat) (x : Cache) : (s.setCacheOf n x).bare = s.bare := rfl
@[simp] theorem State.bare_setGalleryCache (s : State) (n : Nat) (x : Cache) : (s.setGalleryCache n x).bare = s.bare := rfl
@[simp] theorem State.bare_useFree (s : State) : s.useFree.bare = s.bare := rfl
@[simp] theorem State.bare_chosen (s : State) : s.chosen.bare = s.bare := rfl
@[simp] theorem State.bare_retest (s : State) (pa n : Nat) : (s.retest pa n).bare = s.bare := rfl

@[simp] theorem State.bare_logWrite (s : State) (pa n : Nat) : (s.logWrite pa n).bare = s.bare := by
  unfold State.logWrite State.logFor; repeat' split
  all_goals rfl

@[simp] theorem State.bare_count (s : State) (c e n : Nat) : (s.count c e n).bare = s.bare := by
  unfold State.count; split <;> rfl

/-- Writes at the home slice (R126). -/
@[simp] theorem State.bare_homeWrite (s : State) (pa : Nat) (bs : List Byte) : (s.homeWrite pa bs).bare = s.bare := by
  simp only [State.homeWrite, State.bare_retest, State.bare_logWrite]; rfl

@[simp] theorem State.bare_writeHome (s : State) (base : Nat) (ws : List (Nat × Byte)) :
    (s.writeHome base ws).bare = s.bare := by
  unfold State.writeHome; simp only; split
  · rfl
  · simp only [State.bare_retest, State.bare_logWrite]; rfl

/-- Write-backs (R123, R125). -/
@[simp] theorem State.bare_intoL2 (s : State) (g base : Nat) (who : BitVec 4) (ws : List (Nat × Byte)) :
    (s.intoL2 g base who ws).bare = s.bare := by
  unfold State.intoL2; split <;> rfl

@[simp] theorem State.bare_lineToL2 (s : State) (l1 ln : Nat) (lv : BitVec 3) : (s.lineToL2 l1 ln lv).bare = s.bare := by
  unfold State.lineToL2; simp only; split <;> simp

@[simp] theorem State.bare_lineHome (s : State) (g ln : Nat) : (s.lineHome g ln).bare = s.bare := by
  unfold State.lineHome; simp only; split <;> simp

@[simp] theorem State.bare_flushL1 (s : State) (l1 : Nat) (lv : BitVec 3) : (s.flushL1 l1 lv).bare = s.bare := by
  simp only [State.flushL1, State.bare_setCacheOf]
  exact foldl_keeps _ _ (fun _ _ => State.bare_lineToL2 ..) _ _

@[simp] theorem State.bare_flushL2 (s : State) (g : Nat) (who : BitVec 4) : (s.flushL2 g who).bare = s.bare := by
  simp only [State.flushL2, State.bare_setGalleryCache]
  exact foldl_keeps _ _ (fun _ _ => by split <;> simp) _ _

@[simp] theorem State.bare_flushFused (s : State) (c : Nat) : (s.flushFused c).bare = s.bare :=
  foldl_keeps _ _ (fun s _ => foldl_keeps _ _ (fun _ _ => by split <;> simp) _ s) _ _

@[simp] theorem State.bare_evictAllL2 (s : State) (g : Nat) : (s.evictAllL2 g).bare = s.bare :=
  foldl_keeps _ _ (fun _ _ => by split <;> simp) _ _

@[simp] theorem State.bare_evictFused (s : State) (c : Nat) : (s.evictFused c).bare = s.bare :=
  foldl_keeps _ _ (fun s _ => foldl_keeps _ _ (fun _ _ => by split <;> simp) _ s) _ _

@[simp] theorem State.bare_evictOthers (s : State) (c : Nat) : (s.evictOthers c).bare = s.bare := by
  unfold State.evictOthers; split <;> simp

/-- The edges (R127, R128). -/
@[simp] theorem State.bare_release (s : State) (c lv : Nat) : (s.release c lv).bare = s.bare := by
  unfold State.release; repeat' split
  all_goals simp

@[simp] theorem State.bare_acquire (s : State) (c x : Nat) : (s.acquire c x).bare = s.bare := by
  have hl : ∀ l : List Nat, (l.foldl (fun s c => s.setCacheOf c (s.cacheOf c).invalidate) s).bare = s.bare :=
    fun l => foldl_keeps _ _ (fun _ _ => State.bare_setCacheOf ..) _ _
  unfold State.acquire; split
  · rfl
  · simp only; split <;> simp [hl]

/-- What the desk writes (R43, R44, R47). -/
@[simp] theorem State.bare_deskWrite (s : State) (va : Nat) (bs : List Byte) : (s.deskWrite va bs).bare = s.bare := by
  unfold State.deskWrite; simp only; repeat' split
  all_goals simp

@[simp] theorem State.bare_completionWord (s : State) (va v : DWord) : (s.completionWord va v).bare = s.bare := by
  unfold State.completionWord; split <;> simp

@[simp] theorem State.bare_writeRing (s : State) (n : Nat) : (s.writeRing n).bare = s.bare := by
  simp only [State.writeRing, State.bare_useFree]
  rw [foldl_keeps State.bare _ (fun _ _ => by split <;> simp)]; simp

@[simp] theorem State.bare_touch (s : State) (wing n : Nat) : (s.touch wing n).bare = s.bare := by
  unfold State.touch; simp only; repeat' split
  · rfl
  · rfl
  · exact State.bare_writeRing ..
  · rfl

@[simp] theorem State.bare_touchBy (s : State) (c n : Nat) : (s.touchBy c n).bare = s.bare := by
  unfold State.touchBy; simp only; split <;> simp

/-- States alike but for those parts have the same tables. -/
theorem State.gang_of_bare {s t : State} (h : t.bare = s.bare) : t.gang = s.gang := (congrArg State.gang h :)
theorem State.frameOf_of_bare {s t : State} (h : t.bare = s.bare) (n : Nat) : t.frameOf n = s.frameOf n :=
  (congrArg (fun u : State => u.frameOf n) h :)
theorem State.slotOf_of_bare {s t : State} (h : t.bare = s.bare) (n : Nat) : t.slotOf n = s.slotOf n :=
  (congrArg (fun u : State => u.slotOf n) h :)
theorem State.shelfOf_of_bare {s t : State} (h : t.bare = s.bare) (n : Nat) : t.shelfOf n = s.shelfOf n :=
  (congrArg (fun u : State => u.shelfOf n) h :)
theorem State.clock_of_bare {s t : State} (h : t.bare = s.bare) : t.clock = s.clock := (congrArg State.clock h :)
theorem State.halt_of_bare {s t : State} (h : t.bare = s.bare) : t.halt = s.halt := (congrArg State.halt h :)

end Sys2Proof.Machine
end

section
namespace Sys2Proof.Machine
open Sys2Proof

/-! A new frame's address is free (R34). -/

theorem Table.key_mem_of_has {α : Type} {t : Table α} {k : Nat} (h : Table.has t k = true) : k ∈ t.map (·.1) := by
  induction t with
  | nil => simp [Table.has, Table.seek] at h
  | cons e r ih =>
    obtain ⟨k', v⟩ := e
    by_cases hk : k = k'
    · simp [hk]
    · exact List.mem_cons_of_mem _ (ih (by simpa [Table.has, Table.seek, hk] using h))

theorem Table.has_put {α : Type} (t : Table α) (k j : Nat) (v : α) :
    Table.has (Table.put t k v) j = (decide (j = k) || Table.has t j) := by
  by_cases h : j = k <;> simp [Table.has, Table.seek_put, h]

/-- The search passes over places that are taken, and ends at a free one or with its fuel. -/
theorem freeFrameFrom_spec (t : Table Frame) (base fuel i : Nat) :
    (∀ k, i ≤ k → k < freeFrameFrom t base fuel i → Table.has t (base + 256 * k) = true)
      ∧ (Table.has t (base + 256 * freeFrameFrom t base fuel i) = true → freeFrameFrom t base fuel i = i + fuel) := by
  induction fuel generalizing i with
  | zero => exact ⟨fun k h h' => absurd h' (Nat.not_lt.2 h), fun _ => rfl⟩
  | succ n ih =>
    unfold freeFrameFrom
    split
    case isTrue hi =>
      obtain ⟨hpassed, hend⟩ := ih (i + 1)
      refine ⟨fun k h h' => ?_, fun h => by rw [hend h]; omega⟩
      rcases Nat.eq_or_lt_of_le h with rfl | hlt
      · exact hi
      · exact hpassed k hlt h'
    case isFalse hi => exact ⟨fun k h h' => absurd h' (Nat.not_lt.2 h), fun h => absurd h hi⟩

/-- No frame stands at the address of a new one: a table cannot have more keys than entries. -/
theorem State.has_newFrame (s : State) : Table.has s.ctx.frames s.newFrame = false := by
  obtain ⟨hpassed, hend⟩ := freeFrameFrom_spec s.ctx.frames s.ctx.frameBase.toNat s.ctx.frames.length 0
  by_contra h
  have htaken : Table.has s.ctx.frames s.newFrame = true := by simpa using h
  have hlast := hend htaken
  have hall : ∀ a ∈ (List.range (s.ctx.frames.length + 1)).map (s.ctx.frameBase.toNat + 256 * ·),
      a ∈ s.ctx.frames.map (·.1) := by
    intro a ha
    obtain ⟨k, hk, rfl⟩ := List.mem_map.1 ha
    rcases Nat.lt_succ_iff_lt_or_eq.1 (List.mem_range.1 hk) with hlt | rfl
    · exact Table.key_mem_of_has (hpassed k (Nat.zero_le k) (by omega))
    · exact Table.key_mem_of_has (by rw [State.newFrame, hlast, Nat.zero_add] at htaken; exact htaken)
  have hnodup : ((List.range (s.ctx.frames.length + 1)).map (s.ctx.frameBase.toNat + 256 * ·)).Nodup :=
    List.nodup_range.map fun a b hab => by omega
  have hlen := (hnodup.subperm hall).length_le
  simp at hlen

/-! Children outside traces and sessions (R30, R34, R310). -/

/-- A spawn's task records nothing and is in no session. -/
def State.plainTask (s : State) : Prop := s.gang.mode = .untraced ∧ replayMode s.gang.replaym = 0

/-- The frame that a child of such a task has. -/
def State.plainFrame (s : State) (r : Spawn) (site : Nat) (c : Child) : Frame :=
  { s.childFrame r c (BitVec.ofNat 32 (site * 4096 + c.index))
      (digest (if r.salt then some s.gang.tkey else none) c.block) with rfolio := 0, member := false }

/-- The child as its future counts it. -/
def State.plainKid (s : State) (c : Child) : Kid :=
  { index := c.index, frame := s.newFrame, serial := s.ctx.nextTask, ret := 0, ended := false, on_ := 0 }

/-- The state in which it is made. -/
def State.withChild (s : State) (r : Spawn) (site : Nat) (c : Child) : State :=
  let s2 := (s.setFrameOf s.newFrame (s.plainFrame r site c)).useFree
  { s2 with ctx := { s2.ctx with nextTask := s2.ctx.nextTask + 1, frameRoom := s2.ctx.frameRoom - 1 } }

theorem State.spawnChild_plain {s : State} (hp : s.plainTask) (r : Spawn) (site : Nat) (c : Child) :
    s.spawnChild r site c = some (s.withChild r site c, s.plainKid c, some s.newFrame) := by
  obtain ⟨hm, hr⟩ := hp
  have hs : ∀ ordinal entry, s.sessionFolio s.gang ordinal entry = (s, 0) := fun _ _ => by
    simp [State.sessionFolio, State.sessionOpen, hr]
  simp only [State.spawnChild, State.beneath_untraced hm, hs]
  rfl

/-- A state in which children have been made has the current gang, the shelves and the futures of the one before. -/
def State.offFrames (s : State) : State :=
  { s.bare with ctx := { s.bare.ctx with frames := [], nextTask := 0, frameRoom := 0 } }

@[simp] theorem State.offFrames_withChild (s : State) (r : Spawn) (site : Nat) (c : Child) :
    (s.withChild r site c).offFrames = s.offFrames := rfl

theorem State.gang_of_offFrames {s t : State} (h : t.offFrames = s.offFrames) : t.gang = s.gang :=
  (congrArg State.gang h :)
theorem State.plainTask_of_offFrames {s t : State} (h : t.offFrames = s.offFrames) (hp : s.plainTask) : t.plainTask := by
  rw [State.plainTask, State.gang_of_offFrames h]; exact hp

/-- What the frame of a child says of its spawn (R34). -/
def Frame.isChild (f : Frame) (parent site : Nat) (r : Spawn) (c : Child) : Prop :=
  f.parent = parent ∧ f.entryPc = r.entry ∧ f.state = .ready ∧ f.width = r.width ∧ f.region = r.place
    ∧ f.args = argBytes c.words ∧ f.ordinal = BitVec.ofNat 32 (site * 4096 + c.index)

/-- A child stands in a state as its future counts it. -/
def State.standsFor (t : State) (parent site : Nat) (r : Spawn) (c : Child) (k : Kid) : Prop :=
  k.index = c.index ∧ k.ended = false ∧ Table.has t.ctx.frames k.frame = true
    ∧ (t.frameOf k.frame).isChild parent site r c

theorem State.frameOf_withChild (s : State) (r : Spawn) (site : Nat) (c : Child) (a : Nat) :
    (s.withChild r site c).frameOf a = if a = s.newFrame then s.plainFrame r site c else s.frameOf a := Table.look_put ..

theorem State.has_withChild (s : State) (r : Spawn) (site : Nat) (c : Child) (a : Nat) :
    Table.has (s.withChild r site c).ctx.frames a = (decide (a = s.newFrame) || Table.has s.ctx.frames a) :=
  Table.has_put ..

/-- Frames that stood there stay as they were. -/
theorem State.withChild_keeps {s : State} {a : Nat} (h : Table.has s.ctx.frames a = true) (r : Spawn) (site : Nat)
    (c : Child) : Table.has (s.withChild r site c).ctx.frames a = true ∧ (s.withChild r site c).frameOf a = s.frameOf a := by
  have hne : a ≠ s.newFrame := fun e => by rw [e, State.has_newFrame] at h; cases h
  exact ⟨by simp [State.has_withChild, h], by simp [State.frameOf_withChild, hne]⟩

theorem State.withChild_stands (s : State) (r : Spawn) (site : Nat) (c : Child) :
    (s.withChild r site c).standsFor s.gang.frame site r c (s.plainKid c) := by
  refine ⟨rfl, rfl, by simp [State.has_withChild, State.plainKid], ?_⟩
  have hf : (s.withChild r site c).frameOf (s.plainKid c).frame = s.plainFrame r site c := by
    simp [State.frameOf_withChild, State.plainKid]
  rw [hf]
  exact ⟨rfl, rfl, rfl, rfl, rfl, rfl, rfl⟩

/-- A spawn of such a task makes all its children: each stands as its future counts it, nothing else but the frames
has changed, and those that stood there have not. -/
theorem State.spawnAll_plain {s : State} (hp : s.plainTask) (r : Spawn) (site : Nat) (cs : List Child) :
    ∃ t kids, s.spawnAll r site cs = some (t, kids, kids.map (·.frame)) ∧ t.offFrames = s.offFrames
      ∧ List.Forall₂ (t.standsFor s.gang.frame site r) cs kids
      ∧ ∀ a, Table.has s.ctx.frames a = true → Table.has t.ctx.frames a = true ∧ t.frameOf a = s.frameOf a := by
  induction cs generalizing s with
  | nil => exact ⟨s, [], rfl, rfl, .nil, fun _ h => ⟨h, rfl⟩⟩
  | cons c cs ih =>
    obtain ⟨t, kids, he, hoff, hstand, hkeep⟩ := ih (s := s.withChild r site c) (State.plainTask_of_offFrames rfl hp)
    refine ⟨t, s.plainKid c :: kids, ?_, hoff, .cons ?_ hstand, fun a h => ?_⟩
    · simp [State.spawnAll, State.spawnChild_plain hp, he, State.plainKid]
    · obtain ⟨hi, hn, hh, hc⟩ := s.withChild_stands r site c
      obtain ⟨hh', hf⟩ := hkeep _ hh
      exact ⟨hi, hn, hh', hf ▸ hc⟩
    · obtain ⟨h1, e1⟩ := State.withChild_keeps h r site c
      obtain ⟨h2, e2⟩ := hkeep a h1
      exact ⟨h2, e2.trans e1⟩

end Sys2Proof.Machine
end

section
namespace Sys2Proof.Machine
open Sys2Proof

/-! Entries go to their shelf (R42). -/

/-- The state without its shelves. -/
def State.offShelf (s : State) : State := { s.bare with ctx := { s.bare.ctx with shelves := [], age := 0 } }

theorem State.offShelf_of_bare {s t : State} (h : t.bare = s.bare) : t.offShelf = s.offShelf :=
  congrArg (fun u : State => { u with ctx := { u.ctx with shelves := [], age := 0 } }) h

@[simp] theorem State.offShelf_enter (s : State) (n : Nat) (team : Option Nat) (b : Bool) (v : DWord) :
    (s.enter n team b v).offShelf = s.offShelf := rfl

/-- A task's entry makes its shelf one entry deeper, within the same capacity. -/
theorem State.shelfOf_enter_task (s : State) (n : Nat) (team : Option Nat) (v : DWord) :
    ((s.enter n team true v).shelfOf n).depth = (s.shelfOf n).depth + 1
      ∧ ((s.enter n team true v).shelfOf n).cap = (s.shelfOf n).cap := by
  have h : (s.enter n team true v).shelfOf n = _ := (Table.look_put ..).trans (if_pos rfl)
  rw [h]
  exact ⟨by simp [Shelf.depth], rfl⟩

/-- Where the shelf has room for them, all task entries enter it. -/
theorem State.enterAll_room {s : State} {sh : Nat} (carrel : Nat) {ps : List Put}
    (hps : ∀ p ∈ ps, p.shelf = sh ∧ p.task = true) (hroom : (s.shelfOf sh).depth + ps.length ≤ (s.shelfOf sh).cap) :
    ∃ t, s.enterAll carrel ps = (t, []) ∧ t.offShelf = s.offShelf
      ∧ (t.shelfOf sh).depth = (s.shelfOf sh).depth + ps.length := by
  induction ps generalizing s with
  | nil => exact ⟨s, rfl, rfl, rfl⟩
  | cons p ps ih =>
    obtain ⟨⟨hsh, htask⟩, hrest⟩ := List.forall_mem_cons.1 hps
    rw [List.length_cons] at hroom
    have hfull : (s.shelfOf sh).full = false := by
      simp only [Shelf.full, decide_eq_false_iff_not, not_le]; omega
    let s1 := (s.touchBy carrel sh).enter sh (some carrel) true p.payload
    have hsame : (s.touchBy carrel sh).shelfOf sh = s.shelfOf sh := State.shelfOf_of_bare (State.bare_touchBy ..) sh
    obtain ⟨hd, hcap⟩ := State.shelfOf_enter_task (s.touchBy carrel sh) sh (some carrel) p.payload
    rw [hsame] at hd hcap
    obtain ⟨t, he, hoff, hdepth⟩ := ih (s := s1) hrest (by rw [hd, hcap]; omega)
    refine ⟨t, ?_, (hoff.trans (State.offShelf_enter ..)).trans (State.offShelf_of_bare (State.bare_touchBy ..)),
      by rw [hdepth, hd, List.length_cons]; omega⟩
    simp only [State.enterAll, hsh, htask, hfull]
    exact he

/-! What leaving a word leaves of the gang (R98, R259). -/

/-- The gang without its paths and what the hints of a word set. -/
def Gang.offIssue (g : Gang) : Gang :=
  { g with
    p0 := Path.start 0 0, p1 := none, younger := false, split := none, focus := 0, trapSplit := false, run := 0,
    ceded := false, cededAt := 0, stopped := false, report := none }

@[simp] theorem Gang.offIssue_setPath (g : Gang) (p : Path) : (g.setPath p).offIssue = g.offIssue := by
  unfold Gang.setPath; split <;> rfl

@[simp] theorem Gang.offIssue_rejoin (g : Gang) : g.rejoin.offIssue = g.offIssue := by
  unfold Gang.rejoin; simp only; repeat' split
  all_goals rfl

@[simp] theorem Gang.offIssue_settle (fuel : Nat) (gone : Bool) (g : Gang) : (g.settle fuel gone).offIssue = g.offIssue := by
  induction fuel generalizing gone g with
  | zero => rfl
  | succ n ih =>
    unfold Gang.settle
    extract_lets p
    clear_value p
    split
    · split
      · extract_lets arrived
        split <;> rw [ih, Gang.offIssue_setPath]
      · exact Gang.offIssue_setPath ..
    · split
      · split
        · exact (Gang.offIssue_rejoin _).trans (Gang.offIssue_setPath g _)
        · exact Gang.offIssue_setPath ..
      · exact Gang.offIssue_setPath ..

@[simp] theorem Gang.offIssue_hint (g : Gang) (h : Header) (b : Bool) (now : Nat) :
    (g.hint h b now).offIssue = g.offIssue := by
  simp only [Gang.hint, Gang.stepStop]; split <;> rfl

theorem State.offIssue_leave (s : State) (h : Header) (pc : DWord) (b : Bool) :
    (s.leave h pc b).gang.offIssue = s.gang.offIssue := by
  rw [State.leave_gang, Gang.settled, Gang.offIssue_settle, Gang.offIssue_hint, Gang.modPath, Gang.offIssue_setPath]

@[simp] theorem Gang.path_setPath (g : Gang) (p : Path) : (g.setPath p).path = p := by
  unfold Gang.setPath; split <;> simp_all [Gang.path]
@[simp] theorem Gang.split_setPath (g : Gang) (p : Path) : (g.setPath p).split = g.split := by
  unfold Gang.setPath; split <;> rfl
@[simp] theorem Gang.path_hint (g : Gang) (h : Header) (b : Bool) (now : Nat) : (g.hint h b now).path = g.path := by
  simp only [Gang.hint, Gang.stepStop]; split <;> rfl
@[simp] theorem Gang.split_hint (g : Gang) (h : Header) (b : Bool) (now : Nat) : (g.hint h b now).split = g.split := by
  simp only [Gang.hint, Gang.stepStop]; split <;> rfl

/-- A path without a region, in a gang that is not split, goes on where it is told to (R259). -/
theorem State.leave_pc {s : State} (hf : s.flat) (h : Header) (pc : DWord) (b : Bool) : (s.leave h pc b).pc = pc := by
  obtain ⟨hs, hp⟩ := hf
  rw [State.pc, State.leave_gang]
  rw [(Gang.settled_flat _ (by simpa [Gang.modPath, Path.leaves] using hs) (by simpa [Gang.modPath] using hp)).1]
  simp [Gang.modPath, Path.leaves]

@[simp] theorem State.leave_frameOf (s : State) (h : Header) (pc : DWord) (b : Bool) (n : Nat) :
    (s.leave h pc b).frameOf n = s.frameOf n := by
  simp only [State.leave, State.frameOf, State.tick_ctx_frames, State.modGang_eq, State.setGangOf_ctx_frames]
  unfold State.issuedOne; split <;> simp
@[simp] theorem State.leave_slotOf (s : State) (h : Header) (pc : DWord) (b : Bool) (n : Nat) :
    (s.leave h pc b).slotOf n = s.slotOf n := by
  simp only [State.leave, State.slotOf, State.tick_ctx_slots, State.modGang_eq, State.setGangOf_ctx_slots]
  unfold State.issuedOne; split <;> simp
@[simp] theorem State.leave_shelfOf (s : State) (h : Header) (pc : DWord) (b : Bool) (n : Nat) :
    (s.leave h pc b).shelfOf n = s.shelfOf n := by
  simp only [State.leave, State.shelfOf, State.tick_ctx_shelves, State.modGang_eq, State.setGangOf_ctx_shelves]
  unfold State.issuedOne; split <;> simp

/-! A handle on its way (R17, R208). -/

theorem Gang.hEmpty_setHEmpty (g : Gang) (i : BitVec 4) : (g.setHEmpty i true).hEmpty i = true := by
  have hi : i.toNat < 16 := i.isLt
  have hbit : (BitVec.ofNat 16 (2 ^ i.toNat)).getLsbD i.toNat = true := by
    rw [BitVec.getLsbD_ofNat, Nat.testBit_two_pow_self]; simpa using hi
  rw [Gang.hEmpty, Gang.setHEmpty, if_pos rfl, BitVec.getLsbD_or, hbit, Bool.or_true]

end Sys2Proof.Machine
end

section
namespace Sys2Proof.Machine
open Sys2Proof

/-! The effect of a spawn (R310). -/

theorem State.modGang_gang (s : State) (f : Gang → Gang) : (s.modGang f).gang = f s.gang := by
  rw [State.modGang_eq, State.gang_setGangOf_cur]

theorem State.gang_of_offShelf {s t : State} (h : t.offShelf = s.offShelf) : t.gang = s.gang := (congrArg State.gang h :)
theorem State.frameOf_of_offShelf {s t : State} (h : t.offShelf = s.offShelf) (n : Nat) : t.frameOf n = s.frameOf n :=
  (congrArg (fun u : State => u.frameOf n) h :)
theorem State.slotOf_of_offShelf {s t : State} (h : t.offShelf = s.offShelf) (n : Nat) : t.slotOf n = s.slotOf n :=
  (congrArg (fun u : State => u.slotOf n) h :)
theorem State.clock_of_offShelf {s t : State} (h : t.offShelf = s.offShelf) : t.clock = s.clock :=
  (congrArg State.clock h :)
theorem State.halt_of_offShelf {s t : State} (h : t.offShelf = s.offShelf) : t.halt = s.halt := (congrArg State.halt h :)

theorem State.slotOf_of_offFrames {s t : State} (h : t.offFrames = s.offFrames) (n : Nat) : t.slotOf n = s.slotOf n :=
  (congrArg (fun u : State => u.slotOf n) h :)
theorem State.shelfOf_of_offFrames {s t : State} (h : t.offFrames = s.offFrames) (n : Nat) :
    t.shelfOf n = s.shelfOf n := (congrArg (fun u : State => u.shelfOf n) h :)
theorem State.clock_of_offFrames {s t : State} (h : t.offFrames = s.offFrames) : t.clock = s.clock :=
  (congrArg State.clock h :)
theorem State.halt_of_offFrames {s t : State} (h : t.offFrames = s.offFrames) : t.halt = s.halt :=
  (congrArg State.halt h :)

/-- The future that a spawn opens (R208, R310). -/
def State.spawnSlot (s : State) (kind : SpawnKind) (kids : List Kid) (frames : List Nat) : Slot :=
  { Slot.none with
    kind := 1, object := BitVec.ofNat 64 (frames.headD 0), complete := frames.isEmpty,
    outstanding := frames.length, spawn := kind, kids := kids, maker := s.serial,
    held := if s.beneath s.gang then some s.gang.trace else none }

/-- The gang of a spawn whose children are all on their shelf. -/
def Gang.spawnedKids (g : Gang) (kids : List Kid) : Gang :=
  { g with sites := g.sites + 1, kids := g.kids ++ kids.map (fun k => (k.frame, k.serial)), puts := [] }

/-- A spawn in `s` has left its children in `u`, each on the shelf and counted by the future. -/
def State.spawnPlaced (s u : State) (r : Spawn) (kind : SpawnKind) (cs : List Child) (kids : List Kid) (key : Nat) : Prop :=
  u.clock = s.clock ∧ u.halt = s.halt ∧ u.gang = s.gang
    ∧ u.slotOf key = { s.spawnSlot kind kids (kids.map (·.frame)) with
        used := true, generation := (s.slotOf key).generation }
    ∧ (u.shelfOf r.shelf).depth = (s.shelfOf r.shelf).depth + cs.length
    ∧ List.Forall₂ (fun c k => k.index = c.index ∧ k.ended = false
        ∧ (u.frameOf k.frame).isChild s.gang.frame s.gang.sites r c) cs kids

/-- The spawned children's entries, one after the other. -/
def taskPuts (sh : Nat) (frames : List Nat) : List Put :=
  frames.map fun a => { shelf := sh, task := true, payload := BitVec.ofNat 64 a }

/-- The spawn's future is open, and its task awaits the children. -/
def State.spawnOpened (s : State) (key : Nat) (x : Slot) (me n : Nat) : State :=
  (s.openSlot key x).modFrameOf me fun f => { f with awaiting := f.awaiting + n }

theorem State.spawnOpened_slotOf (s : State) (key : Nat) (x : Slot) (me n : Nat) :
    (s.spawnOpened key x me n).slotOf key = { x with used := true, generation := (s.slotOf key).generation } :=
  (State.slotOf_setSlotOf s key key _).trans (if_pos rfl)

/-- A parent that awaits more children changes no frame in what it says of a spawn. -/
theorem State.spawnOpened_isChild {s : State} {a parent site : Nat} {r : Spawn} {c : Child}
    (h : (s.frameOf a).isChild parent site r c) (key : Nat) (x : Slot) (me n : Nat) :
    ((s.spawnOpened key x me n).frameOf a).isChild parent site r c := by
  rw [State.spawnOpened, State.modFrameOf_eq, State.frameOf_setFrameOf]
  split
  case isTrue e => subst e; exact h
  case isFalse => exact h

/-- With a slot, frames and order labels for its children, a spawn on a shelf that is not above its high watermark whose
entries all find room is done. -/
theorem spawnAct_entered {s s1 s2 u : State} {r : Spawn} {cs : List Child} {kids : List Kid} {frames : List Nat} {key : Nat}
    (x : GFmt) (kind : SpawnKind) (hnew : s.newSlot (wingOf s.gang.carrel) = some key)
    (hall : s.spawnAll r s.gang.sites cs = some (s1, kids, frames)) (hfits : ¬ s.ctx.frameRoom < frames.length)
    (hdeep : decide ((s.shelfOf r.shelf).high < (s.shelfOf r.shelf).depth) = false)
    (hs2 : (if r.laneClass && 2 ≤ cs.length then s1.chosen else s1).release s.gang.carrel (r.place.toNat % 4) = s2)
    (hu : (s2.spawnOpened key (s.spawnSlot kind kids frames) s.gang.frame frames.length).enterAll s.gang.carrel
      (taskPuts r.shelf frames) = (u, [])) :
    spawnAct s x r kind cs
      = .next (((u.modGang fun g => g.spawnedKids kids).giveHandle x.hdr.d key).spawnDone x.hdr r.shelf false) := by
  unfold spawnAct
  extract_lets g wing deep _
  rw [hnew]
  simp -zeta only
  rw [hall]
  simp -zeta only
  rw [if_neg hfits]
  extract_lets s1' s2' s3' e s4 s5
  have he : e = (u, []) := by rw [← hu, ← hs2]; rfl
  have hd : deep = false := hdeep
  rw [if_pos (by rw [he]; rfl)]
  simp only [s5, s4, he, hd]
  rfl

/-- Outside traces and sessions, with room for all: the children stand on their shelf, the future counts them, the handle
is on its way, and the word goes on. -/
theorem spawnAct_room {s : State} {x : GFmt} {r : Spawn} (kind : SpawnKind) {cs : List Child} {key : Nat}
    (hs : s.spawnsInto x r.shelf key cs.length) :
    ∃ u kids, s.spawnPlaced u r kind cs kids key ∧ spawnAct s x r kind cs
        = .next (((u.modGang fun g => g.spawnedKids kids).giveHandle x.hdr.d key).spawnDone x.hdr r.shelf false) := by
  obtain ⟨h1, hpend, hmode, hrep, hsh, hnew, hroom, hcap, hhigh⟩ := hs
  obtain ⟨s1, kids, hall, hoff, hstand, hkeep⟩ := State.spawnAll_plain ⟨hmode, hrep⟩ r s.gang.sites cs
  have hlen : (kids.map (·.frame)).length = cs.length := by simpa using hstand.length_eq.symm
  obtain ⟨s2, hbare, hs2⟩ : ∃ s2, s2.bare = s1.bare
      ∧ (if r.laneClass && 2 ≤ cs.length then s1.chosen else s1).release s.gang.carrel (r.place.toNat % 4) = s2 :=
    ⟨_, by rw [State.bare_release]; split <;> rfl, rfl⟩
  obtain ⟨s3, hs3⟩ : ∃ s3, s2.spawnOpened key (s.spawnSlot kind kids (kids.map (·.frame))) s.gang.frame
      (kids.map (·.frame)).length = s3 := ⟨_, rfl⟩
  have hshelf : s3.shelfOf r.shelf = s.shelfOf r.shelf := hs3 ▸
    (State.shelfOf_of_bare hbare r.shelf).trans (State.shelfOf_of_offFrames hoff r.shelf)
  have hputs : ∀ p ∈ taskPuts r.shelf (kids.map (·.frame)), p.shelf = r.shelf ∧ p.task = true := by
    intro p hp; obtain ⟨a, -, rfl⟩ := List.mem_map.1 hp; exact ⟨rfl, rfl⟩
  obtain ⟨u, hu, huoff, hdepth⟩ := State.enterAll_room (s := s3) s.gang.carrel hputs
    (by rw [hshelf, taskPuts, List.length_map, hlen]; exact hcap)
  refine ⟨u, kids, ⟨?_, ?_, ?_, ?_, ?_, ?_⟩, ?_⟩
  · rw [State.clock_of_offShelf huoff, ← State.clock_of_offFrames hoff, ← State.clock_of_bare hbare, ← hs3]; rfl
  · rw [State.halt_of_offShelf huoff, ← State.halt_of_offFrames hoff, ← State.halt_of_bare hbare, ← hs3]; rfl
  · rw [State.gang_of_offShelf huoff, ← State.gang_of_offFrames hoff, ← State.gang_of_bare hbare, ← hs3]; rfl
  · rw [State.slotOf_of_offShelf huoff, ← hs3, State.spawnOpened_slotOf, State.slotOf_of_bare hbare,
      State.slotOf_of_offFrames hoff]
  · rw [hdepth, hshelf, taskPuts, List.length_map, hlen]
  · refine hstand.imp fun c k ⟨hi, he, _, hc⟩ => ⟨hi, he, ?_⟩
    rw [State.frameOf_of_offShelf huoff, ← hs3]
    exact State.spawnOpened_isChild (State.frameOf_of_bare hbare _ ▸ hc) ..
  · have hdeep : decide ((s.shelfOf r.shelf).high < (s.shelfOf r.shelf).depth) = false := by simpa using hhigh
    have hfits : ¬ s.ctx.frameRoom < (kids.map (·.frame)).length := by rw [hlen]; omega
    exact spawnAct_entered x kind hnew hall hfits hdeep hs2 (hs3 ▸ hu)

/-- Children and kids that stand for each other one by one have the same indexes. -/
theorem kidsIndex_eq {cs : List Child} {kids : List Kid} (h : List.Forall₂ (fun c k => k.index = c.index) cs kids) :
    cs.map (·.index) = kids.map (·.index) := by
  induction h with
  | nil => rfl
  | cons h _ ih => simp [h, ih]

theorem exists_getElem?_of_forall₂ {α β : Type} {R : α → β → Prop} {as : List α} {bs : List β}
    (h : List.Forall₂ R as bs) {j : Nat} {a : α} (ha : as[j]? = some a) : ∃ b, bs[j]? = some b ∧ R a b := by
  obtain ⟨hj, rfl⟩ := List.getElem?_eq_some_iff.1 ha
  have hj' : j < bs.length := h.length_eq ▸ hj
  exact ⟨bs[j], List.getElem?_eq_getElem hj', h.get hj hj'⟩

/-- The result in flight that brings the handle of a new future. -/
def State.handleFlight (s : State) (d : Operand) (key : Nat) : Flight :=
  { dst := d, mask := if s.gang.packed then Mask.lane s.gang.front else BitVec.allOnes 32, vals := [],
    sval := s.handleOf key, req := .done, replay := false, pc := s.gang.path.pc, younger := s.gang.younger,
    cycle := s.cycleOf s.gang.carrel }

/-- The gang of a spawn that is done: the handle is on its way to the h register, and nothing is pending. -/
def State.doneGang (u : State) (kids : List Kid) (i : BitVec 4) (key : Nat) : Gang :=
  let v := u.modGang fun g => g.spawnedKids kids
  { (v.gang.setHEmpty i true).launch (v.handleFlight (.h i) key) with pend := .none }

theorem Gang.launch_handle (g : Gang) {f : Flight} {i : BitVec 4} (hf : f.dst = .h i) :
    g.launch f = { g with flights := g.flights ++ [f] } := by
  simp only [Gang.launch, hf, Gang.markEmpty]

theorem State.doneGang_keeps (u : State) (kids : List Kid) (i : BitVec 4) (key : Nat) :
    (u.doneGang kids i key).path = u.gang.path ∧ (u.doneGang kids i key).split = u.gang.split
      ∧ (u.doneGang kids i key).sites = u.gang.sites + 1 := by
  have hdone := Gang.launch_handle (i := i) (f := (u.modGang fun g => g.spawnedKids kids).handleFlight (.h i) key)
    ((u.gang.spawnedKids kids).setHEmpty i true) rfl
  rw [State.doneGang, State.modGang_gang, hdone]
  exact ⟨rfl, rfl, rfl⟩

/-- What a spawn that is done leaves before its word does. -/
theorem State.spawnDone_eq (u : State) (kids : List Kid) (i : BitVec 4) (key sh : Nat) (h : Header) :
    ∃ w : State, ((u.modGang fun g => g.spawnedKids kids).giveHandle (.h i) key).spawnDone h sh false = w.advance h
      ∧ w.gang = u.doneGang kids i key ∧ w.clock = u.clock ∧ w.halt = u.halt ∧ (∀ k, w.slotOf k = u.slotOf k)
      ∧ (∀ a, w.frameOf a = u.frameOf a) ∧ ∀ n, w.shelfOf n = u.shelfOf n := by
  refine ⟨_, rfl, ?_, rfl, rfl, fun _ => rfl, fun _ => rfl, fun _ => rfl⟩
  rw [State.modGang_gang, State.giveHandle, State.modGang_gang]
  rfl

theorem State.handleComing_advance {w : State} {u : State} {kids : List Kid} {i : BitVec 4} {key : Nat} (h : Header)
    (hw : w.gang = u.doneGang kids i key) : handleComing (w.advance h) (.h i) (u.handleOf key) := by
  intro j hj
  cases hj
  have hg := State.offIssue_leave w h (w.pc + 12) false
  have he : (w.advance h).gang.he = w.gang.he := (congrArg Gang.he hg :)
  have hf : (w.advance h).gang.flights = w.gang.flights := (congrArg Gang.flights hg :)
  rw [Gang.hEmpty, he, hf, hw]
  exact ⟨Gang.hEmpty_setHEmpty .., _, List.getLast?_concat, rfl, rfl, rfl, rfl⟩

/-- Such a spawn has left what the statement says. -/
theorem State.spawnPlaced_spawned {s u : State} {x : GFmt} {r : Spawn} {kind : SpawnKind} {cs : List Child} {kids : List Kid}
    {key : Nat} {i : BitVec 4} (hd : x.hdr.d = .h i) (hentry : r.entry = s.pc + 12 * x.entry.signExtend 64)
    (hwidth : r.width = x.width.toNat) (hplace : r.place = x.place) (hu : s.spawnPlaced u r kind cs kids key) :
    spawned s (((u.modGang fun g => g.spawnedKids kids).giveHandle x.hdr.d key).spawnDone x.hdr r.shelf false) x r.shelf key
      kind cs := by
  obtain ⟨hclock, hhalt, hgang, hslot, hdepth, hkids⟩ := hu
  rw [hd]
  obtain ⟨w, he, hwg, hwc, hwh, hws, hwf, hwsh⟩ := u.spawnDone_eq kids i key r.shelf x.hdr
  rw [he]
  have hpath : w.gang.path = s.gang.path ∧ w.gang.split = s.gang.split ∧ w.gang.sites = s.gang.sites + 1 := by
    rw [hwg, ← hgang]; exact u.doneGang_keeps kids i key
  obtain ⟨hp, hsplit, hsites⟩ := hpath
  have hts : (w.advance x.hdr).slotOf key = { s.spawnSlot kind kids (kids.map (·.frame)) with
      used := true, generation := (s.slotOf key).generation } := by rw [State.advance, State.leave_slotOf, hws, hslot]
  have hlen := hkids.length_eq
  refine ⟨?_, ?_, fun hf => ?_, ?_, ?_, ?_, ?_, ?_, ?_, ?_, ?_, ?_, fun j c hc => ?_⟩
  · rw [State.advance, State.leave_clock, hwc, hclock]
  · rw [State.advance, State.leave_halt, hwh, hhalt]
  · have hflat : w.flat := by rw [State.flat, hp, hsplit]; exact hf
    rw [State.advance, State.leave_pc hflat, State.pc, hp]; rfl
  · have hh : u.handleOf key = handle 1 (s.slotOf key).generation key := by rw [State.handleOf, hslot]; rfl
    rw [hd, ← hh]
    exact State.handleComing_advance x.hdr hwg
  · rw [hts]
  · rw [hts]; rfl
  · rw [hts]; rfl
  · rw [hts]; simp [State.spawnSlot, hlen]
  · rw [hts]; cases hkids <;> rfl
  · rw [hts]; exact (kidsIndex_eq (hkids.imp fun _ _ h => h.1)).symm
  · rw [State.advance, State.leave_shelfOf, hwsh, hdepth]
  · exact (congrArg Gang.sites (State.offIssue_leave w x.hdr (w.pc + 12) false) :).trans hsites
  · obtain ⟨k, hk, -, hended, hchild⟩ := exists_getElem?_of_forall₂ hkids hc
    obtain ⟨hpar, hent, hst, hwd, hreg, hargs, hord⟩ := hchild
    refine ⟨k, by rw [hts]; exact hk, hended, ?_⟩
    simp only [State.advance, State.leave_frameOf, hwf]
    exact ⟨hpar, hent.trans hentry, hst, hwd.trans hwidth, hreg.trans hplace, hargs, hord⟩

end Sys2Proof.Machine
end

section
namespace Sys2Proof.Machine
open Sys2Proof

/-! The spawns (R309 to R311). -/

/-- A spawn outside traces and sessions, with room for its children, leaves what the statement says. -/
theorem spawnAct_spawned {s : State} {x : GFmt} {sh key : Nat} {cs : List Child} (kind : SpawnKind) (laneClass : Bool)
    (n : Nat) (hd : ∃ i, x.hdr.d = .h i) (hs : s.spawnsInto x sh key cs.length) :
    ∃ t, spawnAct s x (spawnOf s x sh laneClass n) kind cs = .next t ∧ spawned s t x sh key kind cs := by
  obtain ⟨i, hd⟩ := hd
  obtain ⟨u, kids, hu, he⟩ := spawnAct_room (r := spawnOf s x sh laneClass n) kind hs
  exact ⟨_, he, State.spawnPlaced_spawned hd rfl rfl rfl hu⟩

theorem spawnIssue_none {s : State} (hp : s.gang.pend = .none) (x : GFmt) (go : Result) : spawnIssue s x go = go := by
  simp only [spawnIssue, hp]

/-- A spawn's destination is an h register (R309). -/
theorem isH_of_gFieldsOk {g : Gang} {x : GFmt} {n : Nat} (h : gFieldsOk g x n = true) : ∃ i, x.hdr.d = .h i := by
  simp only [gFieldsOk, Bool.and_eq_true] at h
  obtain ⟨-, h⟩ := h
  cases hd : x.hdr.d with
  | h i => exact ⟨i, rfl⟩
  | _ => rw [hd] at h; cases h

/-- The word of a page whose fields are legal issues as it does where that is said in another way. -/
theorem State.issuesActs.mono {s : State} {h : Header} {a : Acts} {legal legal' : Bool} {dsts : List (Operand × Bool)}
    {srcs : Mask → List Src} {m : Mask} (hi : s.issuesActs h a legal dsts srcs m) (hl : legal = true → legal' = true) :
    s.issuesActs h a legal' dsts srcs m := by
  obtain ⟨ha, hr, hlegal, hrest⟩ := hi
  exact ⟨ha, hr, hl hlegal, hrest⟩

theorem State.issuesActs.fieldsOk {s : State} {h : Header} {a : Acts} {legal : Bool} {dsts : List (Operand × Bool)}
    {srcs : Mask → List Src} {m : Mask} (hi : s.issuesActs h a legal dsts srcs m) : legal = true := by
  obtain ⟨-, -, hlegal, -⟩ := hi
  exact hlegal

/-- SPAWN with argument words. -/
theorem execSpawn_args {x : GFmt} {s : State} {m : Mask} {sh key : Nat} {first : BitVec 8} (ha : x.args = .w first)
    (hi : s.issuesActs x.hdr (spawnActs s.gang x.hdr) (gFieldsOk s.gang x 32 && x.width.toNat = 1
      && first.toNat + x.cnt.toNat ≤ 256 && first.toNat < s.gang.regs && first.toNat + x.cnt.toNat ≤ s.gang.regs)
      [(x.hdr.d, false)] (fun m => ((List.range x.cnt.toNat).map fun k =>
        ⟨.w (BitVec.ofNat 8 (first.toNat + k)), false, 0, false, m⟩) ++ shelfSrc x m) m)
    (hs : s.spawnsInto x sh key m.lanes.length) :
    exec (.spawn x) s = spawnAct s x (spawnOf s x sh true m.lanes.length) .lane (m.lanes.map fun l =>
      let ws := (List.range x.cnt.toNat).map fun k => (s.gang.wReg (BitVec.ofNat 8 (first.toNat + k))).at l
      { index := l, words := ws, block := ws }) := by
  obtain ⟨h1, hpend, -, -, hsh, -⟩ := hs
  refine (perTask_oneTask h1 x.hdr false (spawnTask x)).trans ?_
  rw [spawnTask, spawnIssue_none hpend]
  simp only [ha]
  rw [issueActs_of_issuesActs _ (hi.mono fun h => ?_)]
  · simp only [hsh, Gang.laneNo, h1.1]; rfl
  · simp only [Bool.and_eq_true, decide_eq_true_eq] at h
    simp [h]

/-- SPAWN without. -/
theorem execSpawn_noArgs {x : GFmt} {s : State} {m : Mask} {sh key : Nat} (ha : x.args = .absent) (hn : x.cnt = 0)
    (hi : s.issuesActs x.hdr (spawnActs s.gang x.hdr) (gFieldsOk s.gang x 32 && x.width.toNat = 1)
      [(x.hdr.d, false)] (shelfSrc x) m)
    (hs : s.spawnsInto x sh key m.lanes.length) :
    exec (.spawn x) s = spawnAct s x (spawnOf s x sh true m.lanes.length) .lane
      (m.lanes.map fun l => { index := l, words := [], block := [] }) := by
  obtain ⟨h1, hpend, -, -, hsh, -⟩ := hs
  refine (perTask_oneTask h1 x.hdr false (spawnTask x)).trans ?_
  rw [spawnTask, spawnIssue_none hpend]
  simp only [ha, hn]
  rw [issueActs_of_issuesActs (m := m)]
  · simp only [hsh, Gang.laneNo, h1.1]; rfl
  · exact hi.mono fun h => by simpa using h

theorem execSpawng_issued {x : GFmt} {s : State} {m : Mask} {sh key : Nat}
    (hi : s.issues x.hdr .gang (spawngOk s.gang x) [(x.hdr.d, false)] (spawngSrcs x) m) (hs : s.spawnsInto x sh key 1) :
    exec (.spawng x) s = spawnAct s x (spawnOf s x sh false 1) .gang [spawngChild s.gang x] := by
  obtain ⟨h1, hpend, -, -, hsh, -⟩ := hs
  refine (perTask_oneTask h1 x.hdr false (spawngTask x)).trans ?_
  rw [spawngTask, spawnIssue_none hpend, issue_of_issues _ hi]
  simp only [hsh]

theorem execSpawnv_issued {x : GFmt} {s : State} {m : Mask} {sh key : Nat} {first : BitVec 6} (ha : x.args = .s first)
    (hi : s.issues x.hdr .gang (gFieldsOk s.gang x 15 && first.toNat + 1 + x.cnt.toNat ≤ 64) [(x.hdr.d, false)]
      (fun m => (⟨x.args, false, 0, false, m⟩ :: (sRange (BitVec.ofNat 6 (first.toNat + 1)) x.cnt.toNat).map fun i =>
        ⟨.s i, false, 0, false, m⟩) ++ shelfSrc x m) m)
    (hn : ((s.gang.sReg first).extractLsb' 0 32).toNat ≤ 4096)
    (hs : s.spawnsInto x sh key ((s.gang.sReg first).extractLsb' 0 32).toNat) :
    exec (.spawnv x) s = spawnAct s x (spawnOf s x sh false ((s.gang.sReg first).extractLsb' 0 32).toNat) .vector
      ((List.range ((s.gang.sReg first).extractLsb' 0 32).toNat).map fun i =>
        let ws := sWords s.gang (sRange (BitVec.ofNat 6 (first.toNat + 1)) x.cnt.toNat)
        { index := i, words := BitVec.ofNat 32 i :: 0 :: ws, block := ws }) := by
  obtain ⟨h1, hpend, -, -, hsh, -⟩ := hs
  refine (perTask_oneTask h1 x.hdr false (spawnvTask x)).trans ?_
  rw [spawnvTask, spawnIssue_none hpend]
  simp only [ha, sFirst] at hi ⊢
  rw [issue_of_issues _ (State.issuesActs.mono hi fun h => ?_)]
  · simp only [hsh, BitVec.ofNat_toNat, BitVec.setWidth_eq, Nat.not_lt.2 hn, if_false]
  · simpa [isS] using h

end Sys2Proof.Machine

open Sys2Proof Sys2Proof.Machine

/-- Settles O21: each form of spawn is one effect with the children it names, and that effect, by induction on the children
and then on their entries, leaves them ready, counted and on the shelf. -/
theorem spawnMakesTasks : Obligations.SpawnMakesTasks := by
  refine ⟨fun x s m sh key first ha hi hs => ?_, fun x s m sh key ha hn hi hs => ?_, fun x s m sh key hi hs => ?_,
    fun x s m sh key first ha => ?_⟩
  · have hl := hi.fieldsOk
    simp only [Bool.and_eq_true] at hl
    rw [execSpawn_args ha hi hs]
    exact spawnAct_spawned .lane true _ (isH_of_gFieldsOk hl.1.1.1.1) (by simpa using hs)
  · have hl := hi.fieldsOk
    simp only [Bool.and_eq_true] at hl
    rw [execSpawn_noArgs ha hn hi hs]
    exact spawnAct_spawned .lane true _ (isH_of_gFieldsOk hl.1) (by simpa using hs)
  · have hl := hi.fieldsOk
    simp only [spawngOk, Bool.and_eq_true] at hl
    rw [execSpawng_issued hi hs]
    exact spawnAct_spawned .gang false 1 (isH_of_gFieldsOk hl.1) hs
  · intro rs n hi hn hs
    have hl := hi.fieldsOk
    simp only [Bool.and_eq_true] at hl
    rw [execSpawnv_issued ha hi hn hs]
    exact spawnAct_spawned .vector false _ (isH_of_gFieldsOk hl.1) (by rw [List.length_map, List.length_range]; exact hs)
end

section
namespace Sys2Proof.Machine
open Sys2Proof

/-! What a waking leaves as it is (R26, R45, R60): the clock, the next gang number, and of each frame its entry and width. -/

/-- The entry and the width of a frame: what no step changes while the frame stands. -/
def Frame.start (f : Frame) : DWord × Nat := (f.entryPc, f.width)

/-- What a waking leaves as it is. -/
def State.fixed (s : State) : Nat × Nat × (Nat → DWord × Nat) :=
  (s.clock, s.ctx.nextGang, fun a => (s.frameOf a).start)

theorem State.fixed_of_bare {s t : State} (h : t.bare = s.bare) : t.fixed = s.fixed := (congrArg State.fixed h :)

/-- What each entry of a table keeps, every lookup keeps. -/
theorem Table.look_map_keeps {α β : Type} (π : α → β) (F : Nat × α → Nat × α) (hk : ∀ e, (F e).1 = e.1)
    (hv : ∀ e, π (F e).2 = π e.2) (t : Table α) (k : Nat) (d : α) :
    π (Table.look (List.map F t : Table α) k d) = π (Table.look t k d) := by
  induction t with
  | nil => rfl
  | cons e r ih =>
    obtain ⟨k', v⟩ := e
    have hF : F (k', v) = (k', (F (k', v)).2) := Prod.ext (hk _) rfl
    rw [List.map_cons, hF]
    by_cases h : k = k'
    · simpa [Table.look, h] using hv (k', v)
    · simpa [Table.look, h] using ih

theorem State.fixed_setFrameOf {s : State} {n : Nat} {x : Frame} (h : x.start = (s.frameOf n).start) :
    (s.setFrameOf n x).fixed = s.fixed := by
  refine Prod.ext rfl (Prod.ext rfl (funext fun a => ?_))
  show ((s.setFrameOf n x).frameOf a).start = (s.frameOf a).start
  rw [State.frameOf_setFrameOf]
  split
  case isTrue e => rw [e, h]
  case isFalse => rfl

theorem State.fixed_modFrameOf (s : State) (n : Nat) {f : Frame → Frame} (h : ∀ x, (f x).start = x.start) :
    (s.modFrameOf n f).fixed = s.fixed := State.fixed_setFrameOf (h _)

/-- Every frame of the table is changed in other things. -/
theorem State.fixed_mapFrames {s t : State} (F : Nat × Frame → Nat × Frame) (hk : ∀ e, (F e).1 = e.1)
    (hv : ∀ e, (F e).2.start = e.2.start) (hc : t.clock = s.clock) (hn : t.ctx.nextGang = s.ctx.nextGang)
    (ht : t.ctx.frames = s.ctx.frames.map F) : t.fixed = s.fixed := by
  refine Prod.ext hc (Prod.ext hn (funext fun a => ?_))
  show (Table.look t.ctx.frames a Frame.none).start = _
  rw [ht]
  exact Table.look_map_keeps Frame.start F hk hv ..

/-! The Archive's logs and the end of tasks that never run (R60, R79, R158). -/

@[simp] theorem State.bare_writeLog (s : State) (n area : Nat) (l : OrderLog) : (s.writeLog n area l).bare = s.bare := by
  unfold State.writeLog
  extract_lets fs at_ header entry s1
  rw [foldl_keeps State.bare _ (fun _ _ => State.bare_homeWrite ..)]
  simp [s1]

@[simp] theorem State.bare_writeLogs (s : State) : s.writeLogs.bare = s.bare :=
  foldl_keeps (fun acc : State × Nat => acc.1.bare) _ (fun _ _ => State.bare_writeLog ..) s.ctx.logs _

@[simp] theorem State.fixed_dropMember (s : State) (g : Gang) : (s.dropMember g).fixed = s.fixed := by
  unfold State.dropMember
  extract_lets n l
  split
  · rfl
  · exact (State.fixed_of_bare (State.bare_writeLogs (s.putLog n _))).trans rfl

@[simp] theorem State.fixed_leaveCellar (s : State) (g : Gang) : (s.leaveCellar g).fixed = s.fixed := by
  unfold State.leaveCellar
  extract_lets me leave
  split <;> rfl

theorem State.fixed_dropTasks (s : State) (dead : List Nat) : (s.dropTasks dead).fixed = s.fixed := by
  unfold State.dropTasks
  extract_lets s1 close room stays
  have h1 : s1.fixed = s.fixed := foldl_keeps _ _ (fun _ _ => by simp) _ _
  refine Eq.trans (State.fixed_mapFrames (s := s1) (fun e => if dead.contains e.1 then (e.1, close e.2) else e)
    (fun e => ?_) (fun e => ?_) rfl rfl rfl) h1
  · split <;> rfl
  · split <;> rfl

theorem State.fixed_dropParked (s : State) (a : Nat) : (s.dropParked a).fixed = s.fixed := by
  unfold State.dropParked
  extract_lets f s1
  exact (State.fixed_setFrameOf (s := s) (n := a) (x := { f with imagePtr := 0, imageSize := 0 }) rfl :)

theorem State.fixed_abandon (s : State) (t : Nat) : (s.abandon t).fixed = s.fixed := by
  unfold State.abandon
  extract_lets new flip lost waits
  split
  extract_lets s1 tr tr1
  have h1 : s1.fixed = s.fixed :=
    (State.fixed_dropTasks ..).trans (foldl_keeps _ _ (fun _ _ => State.fixed_dropParked ..) _ _)
  refine Eq.trans (State.fixed_mapFrames (s := s1)
    (fun e => if e.2.trace = t then (e.1, { e.2 with traced := false, mode := .untraced, folio := 0 }) else e)
    (fun e => ?_) (fun e => ?_) rfl rfl rfl) h1
  · split <;> rfl
  · split <;> rfl

theorem State.fixed_checkLimit (s : State) (t : Nat) : (s.checkLimit t).fixed = s.fixed := by
  unfold State.checkLimit
  split
  · exact State.fixed_abandon ..
  · rfl

/-! Waking. -/

theorem State.fixed_wakeOne (s : State) (f : Nat) (g : Gang) : (s.wakeOne f g).1.fixed = s.fixed := by
  unfold State.wakeOne
  extract_lets fr p captures _ g1 s1 s2
  have h1 : s1.fixed = s.fixed := by
    simp only [s1]
    split
    · exact State.fixed_checkLimit ..
    · rfl
  have h2 : s2.fixed = s1.fixed :=
    (State.fixed_of_bare (State.bare_touch ..)).trans (State.fixed_modFrameOf s1 f fun _ => rfl)
  have h := h2.trans h1
  clear_value s2
  exact h

theorem State.fixed_wake (s : State) : s.wake.fixed = s.fixed := by
  unfold State.wake
  extract_lets waiting s1
  have h1 : s1.fixed = s.fixed := by
    refine foldl_keeps State.fixed _ (fun s f => ?_) _ _
    split
    next g _ =>
      split
      · extract_lets r
        have hr : r.1.fixed = s.fixed := State.fixed_wakeOne s f g
        clear_value r
        split
        · exact hr
        · exact hr
      · rfl
    next => rfl
  refine (foldl_keeps State.fixed _ (fun s n => ?_) _ _).trans h1
  extract_lets g
  split
  next r _ =>
    have hr : r.1.fixed = s.fixed := State.fixed_wakeOne s g.frame g
    clear_value r
    exact hr
  next => rfl

theorem State.clock_of_fixed {s t : State} (h : t.fixed = s.fixed) : t.clock = s.clock := congrArg (·.1) h
theorem State.nextGang_of_fixed {s t : State} (h : t.fixed = s.fixed) : t.ctx.nextGang = s.ctx.nextGang :=
  congrArg (·.2.1) h
theorem State.frameStart_of_fixed {s t : State} (h : t.fixed = s.fixed) (a : Nat) :
    (t.frameOf a).start = (s.frameOf a).start := congrFun (congrArg (·.2.2) h) a

end Sys2Proof.Machine
end

section
namespace Sys2Proof.Machine
open Sys2Proof

/-! A gang takes a place (R49, R51, R110). -/

/-- The state without what a placement changes: gangs, their cellar blocks, the carrels of launches, gated carrels. -/
def State.offPlace (s : State) : State :=
  { s with cur := 0, gated := [], ctx := { s.ctx with cellars := [], launches := [], gangs := [] } }

/-- A gang in its place; only the cellar block and the shadow's number depend on more than the place. -/
def Gang.placed (g : Gang) (carrel q i clock : Nat) (partner : Option Nat) (cbase : DWord) : Gang :=
  { g with
    resident := true, carrel := carrel, quarter := BitVec.ofNat 2 q, slot := BitVec.ofNat 3 i,
    since := clock, ceded := false, run := 0, report := none, partner := partner, cbase := cbase }

theorem State.giveCellar_spec (s : State) (g : Gang) :
    (s.giveCellar g).1.offPlace = s.offPlace ∧ ∃ b, (s.giveCellar g).2 = { g with cbase := b } := by
  unfold State.giveCellar
  split
  · exact ⟨rfl, g.cbase, rfl⟩
  · exact ⟨rfl, _, rfl⟩

@[simp] theorem State.offPlace_setGangOf (s : State) (n : Nat) (g : Gang) : (s.setGangOf n g).offPlace = s.offPlace := rfl

@[simp] theorem State.offPlace_ranOn (s : State) (l c : Nat) : (s.ranOn l c).offPlace = s.offPlace := by
  unfold State.ranOn
  split
  · split <;> rfl
  · rfl

@[simp] theorem State.gangOf_ranOn (s : State) (l c n : Nat) : (s.ranOn l c).gangOf n = s.gangOf n := by
  unfold State.ranOn
  split
  · split <;> rfl
  · rfl

/-- The gang that took the place is the current one, in its place; nothing but places has changed. -/
theorem State.settleIn_spec (s : State) (n carrel q i : Nat) (g : Gang) (mid : Bool) (shadow : Option Gang) :
    (s.settleIn n carrel q i g mid shadow).offPlace = s.offPlace ∧ (s.settleIn n carrel q i g mid shadow).cur = n
      ∧ ∃ partner b, (s.settleIn n carrel q i g mid shadow).gang
          = if mid then g.placed carrel q i s.clock partner b else (g.placed carrel q i s.clock partner b).newSegment := by
  unfold State.settleIn
  extract_lets info place
  have hgive := s.giveCellar_spec
    (g.placed carrel q i s.clock (if info.2.slice.isSome then some (n + 1) else none) g.cbase)
  unfold Gang.placed at hgive
  generalize State.giveCellar _ _ = r at hgive ⊢
  obtain ⟨s1, g1⟩ := r
  obtain ⟨hoff, b, hg : g1 = g.placed carrel q i s.clock (if info.2.slice.isSome then some (n + 1) else none) b⟩ := hgive
  dsimp -zeta only
  extract_lets g2 s2 s3
  have h2 : s2.offPlace = s.offPlace ∧ s2.gangOf n = g2 :=
    ⟨by simp only [s2, State.offPlace_ranOn, State.offPlace_setGangOf]; exact hoff,
      by simp only [s2, State.gangOf_ranOn, State.gangOf_setGangOf, if_true]⟩
  have hbeside : ∀ h, (s2.setGangOf (n + 1) h).offPlace = s.offPlace ∧ (s2.setGangOf (n + 1) h).gangOf n = g2 :=
    fun h => ⟨h2.1, by rw [State.gangOf_setGangOf, if_neg (by omega)]; exact h2.2⟩
  have h3 : s3.offPlace = s.offPlace ∧ s3.gangOf n = g2 := by
    simp only [s3]
    split
    · exact hbeside _
    · split
      · exact h2
      · exact hbeside _
    · exact h2
  clear_value s3
  refine ⟨h3.1, rfl, if info.2.slice.isSome then some (n + 1) else none, b, h3.2.trans ?_⟩
  simp only [g2, hg]

theorem State.frameOf_of_offPlace {s t : State} (h : t.offPlace = s.offPlace) (n : Nat) : t.frameOf n = s.frameOf n :=
  (congrArg (fun u : State => u.frameOf n) h :)
theorem State.traceOf_of_offPlace {s t : State} (h : t.offPlace = s.offPlace) (n : Nat) : t.traceOf n = s.traceOf n :=
  (congrArg (fun u : State => u.traceOf n) h :)
theorem State.clock_of_offPlace {s t : State} (h : t.offPlace = s.offPlace) : t.clock = s.clock :=
  (congrArg State.clock h :)
theorem State.parked_of_offPlace {s t : State} (h : t.offPlace = s.offPlace) : t.ctx.parked = s.ctx.parked :=
  (congrArg (fun u : State => u.ctx.parked) h :)

end Sys2Proof.Machine
end

section
namespace Sys2Proof.Machine
open Sys2Proof

/-! TASK_DISPATCH (R33, R45, R49). -/

/-- Every frame of the list runs after each of them was set running. -/
theorem State.running_of_mem {run : Frame → Frame} (hrun : ∀ x, (run x).state = .running) (as : List Nat) (s : State)
    (b : Nat) (hb : b ∈ as ∨ (s.frameOf b).state = .running) :
    ((as.foldl (fun s c => s.modFrameOf c run) s).frameOf b).state = .running := by
  induction as generalizing s with
  | nil => exact hb.resolve_left (by simp)
  | cons c cs ih =>
    refine ih (s.setFrameOf c (run (s.frameOf c))) ?_
    rw [State.frameOf_setFrameOf]
    by_cases hbc : b = c
    · rw [if_pos hbc]
      exact .inr (hrun _)
    · rw [if_neg hbc]
      exact hb.imp_left fun h => (List.mem_cons.1 h).resolve_left hbc

/-- The shelf's entries leave it, and whoever waited for its depth wakes. -/
theorem State.fixed_without (s : State) (wing n : Nat) (as : List Nat) :
    ((s.touch wing n).modShelfOf n fun x => x.without as).wake.fixed = s.fixed :=
  (State.fixed_wake _).trans (State.fixed_of_bare (State.bare_touch s wing n) :)

@[simp] theorem State.packOf_unpacked {s : State} {a : Nat} (h : (s.frameOf a).packed = false) (n : Nat) :
    s.packOf n a = [a] := by simp [State.packOf, h]

/-- A dispatch in which every check passes: the tasks taken run, and their gang has the place. -/
theorem execTaskDispatch_placed {s : State} {carrel q i : Nat} {p : Pick} (hp : s.nextEntry carrel = some p)
    (hready : (s.frameOf p.entry.payload.toNat).state = .ready) (hserve : s.serving carrel = true)
    (hfits : s.fits (s.taskInfo (s.frameOf p.entry.payload.toNat).entryPc).2 carrel q i = true) :
    ∃ (u t : State) (partner : Option Nat) (b : DWord), execTaskDispatch carrel q i s = .next t
      ∧ t.clock = s.clock ∧ t.cur = s.ctx.nextGang
      ∧ (∀ c ∈ s.packOf p.shelf p.entry.payload.toNat, (t.frameOf c).state = .running)
      ∧ (∀ c, (u.frameOf c).start = (s.frameOf c).start)
      ∧ t.gang = ((if (s.frameOf p.entry.payload.toNat).packed
            then u.packGang (s.packOf p.shelf p.entry.payload.toNat)
            else u.freshGang p.entry.payload.toNat).placed carrel q i s.clock partner b).newSegment := by
  unfold execTaskDispatch
  rw [hp]
  dsimp -zeta only
  extract_lets a f info as s1 run s2 g
  rw [if_neg (by simp [hserve, f, a, hready, info, hfits])]
  have h2 : s2.fixed = s.fixed :=
    (foldl_keeps State.fixed _ (fun s c => State.fixed_modFrameOf s c (f := run) fun _ => rfl) as s1).trans
      (s.fixed_without _ _ _)
  have hrun : ∀ c ∈ as, (s2.frameOf c).state = .running :=
    fun c hc => State.running_of_mem (fun _ => rfl) as s1 c (.inl hc)
  have hacq := s2.takeNumber.1.bare_acquire carrel (startCross p.entry (s.frameOf p.entry.payload.toNat) carrel)
  generalize s2.takeNumber.1.acquire carrel _ = s4 at hacq ⊢
  obtain ⟨hoff, hcur, partner, b, hg⟩ := s4.settleIn_spec s2.takeNumber.2 carrel q i g false none
  have hclock : s4.clock = s.clock := (State.clock_of_bare hacq).trans (State.clock_of_fixed h2 :)
  refine ⟨s2.takeNumber.1, _, partner, b, rfl, (State.clock_of_offPlace hoff).trans hclock,
    hcur.trans (State.nextGang_of_fixed h2), fun c hc => ?_, fun c => State.frameStart_of_fixed h2 c, ?_⟩
  · rw [State.frameOf_of_offPlace hoff, State.frameOf_of_bare hacq]
    exact hrun c hc
  · rw [hclock] at hg
    exact hg

/-- The gang of a fresh task starts at its entry, in the lanes of its width. -/
theorem State.freshGang_start (u : State) (a : Nat) :
    (u.freshGang a).frame = a ∧ ((u.freshGang a).path.pc, (u.freshGang a).xm)
      = ((u.frameOf a).start.1, Mask.first (u.frameOf a).start.2) := ⟨rfl, rfl⟩

/-- A packed gang has the first of its tasks in front and a lane for each. -/
theorem State.packGang_start (u : State) (b : Nat) (rest : List Nat) :
    (u.packGang (b :: rest)).packed = true ∧ (u.packGang (b :: rest)).frame = b
      ∧ (u.packGang (b :: rest)).path.pc = (u.frameOf b).start.1
      ∧ (u.packGang (b :: rest)).xm = Mask.first (rest.length + 1) := ⟨rfl, rfl, rfl, rfl⟩

/-- One task takes the slot. -/
theorem execTaskDispatch_one {s : State} {carrel q i : Nat} {p : Pick} (hp : s.nextEntry carrel = some p)
    (hready : (s.frameOf p.entry.payload.toNat).state = .ready)
    (halone : (s.frameOf p.entry.payload.toNat).packed = false) (hserve : s.serving carrel = true)
    (hfits : s.fits (s.taskInfo (s.frameOf p.entry.payload.toNat).entryPc).2 carrel q i = true) :
    ∃ t, execTaskDispatch carrel q i s = .next t ∧ t.clock = s.clock ∧ t.cur = s.ctx.nextGang
      ∧ (t.frameOf p.entry.payload.toNat).state = .running ∧ t.gang.resident = true ∧ t.gang.carrel = carrel
      ∧ t.gang.quarter = BitVec.ofNat 2 q ∧ t.gang.slot = BitVec.ofNat 3 i ∧ t.gang.frame = p.entry.payload.toNat
      ∧ t.gang.since = s.clock ∧ t.pc = (s.frameOf p.entry.payload.toNat).entryPc
      ∧ t.xm = Mask.first (s.frameOf p.entry.payload.toNat).width := by
  obtain ⟨u, t, partner, b, he, hclock, hcur, hrun, hstart, hg⟩ := execTaskDispatch_placed hp hready hserve hfits
  rw [halone, if_neg (by simp)] at hg
  obtain ⟨hframe, hpath⟩ := u.freshGang_start p.entry.payload.toNat
  rw [hstart] at hpath
  obtain ⟨hpc, hxm⟩ := Prod.mk.inj hpath
  refine ⟨t, he, hclock, hcur, hrun _ (by simp [halone]), ?_⟩
  rw [State.pc, State.xm, hg]
  exact ⟨rfl, rfl, rfl, rfl, hframe, rfl, hpc, hxm⟩

/-- The tasks packed together take the slot together. -/
theorem execTaskDispatch_packed {s : State} {carrel q i b : Nat} {rest : List Nat} {p : Pick}
    (hp : s.nextEntry carrel = some p) (hready : (s.frameOf p.entry.payload.toNat).state = .ready)
    (hpacked : (s.frameOf p.entry.payload.toNat).packed = true) (hserve : s.serving carrel = true)
    (hfits : s.fits (s.taskInfo (s.frameOf p.entry.payload.toNat).entryPc).2 carrel q i = true)
    (hpack : s.packOf p.shelf p.entry.payload.toNat = b :: rest) :
    ∃ t, execTaskDispatch carrel q i s = .next t ∧ t.clock = s.clock ∧ t.cur = s.ctx.nextGang
      ∧ t.gang.packed = true ∧ t.gang.resident = true ∧ t.gang.carrel = carrel ∧ t.gang.frame = b
      ∧ t.pc = (s.frameOf b).entryPc ∧ t.xm = Mask.first (rest.length + 1)
      ∧ ∀ c ∈ b :: rest, (t.frameOf c).state = .running := by
  obtain ⟨u, t, partner, base, he, hclock, hcur, hrun, hstart, hg⟩ := execTaskDispatch_placed hp hready hserve hfits
  rw [hpacked, if_pos rfl, hpack] at hg
  obtain ⟨hp, hframe, hpc, hxm⟩ := u.packGang_start b rest
  rw [hstart] at hpc
  refine ⟨t, he, hclock, hcur, ?_⟩
  rw [State.pc, State.xm, hg]
  exact ⟨hp, rfl, rfl, hframe, hpc, hxm, hpack ▸ hrun⟩

end Sys2Proof.Machine
end

section
namespace Sys2Proof.Machine
open Sys2Proof

/-! CONTINUATION_RESUME (R37, R39). -/

theorem Gang.sReg_writeDest_s (g : Gang) (m : Mask) (d : BitVec 6) (f : Nat → DWord) (v : DWord) :
    (g.writeDest m (.s d) 64 f v).sReg d = v := by
  have hall : v &&& BitVec.ofNat 64 (2 ^ 64 - 1) = v := BitVec.and_allOnes
  show (g.s.set d.toNat (v &&& BitVec.ofNat 64 (2 ^ 64 - 1)))[d.toNat] = v
  rw [hall]
  exact Vector.getElem_set_self ..

theorem State.parked_of_bare {s t : State} (h : t.bare = s.bare) : t.ctx.parked = s.ctx.parked :=
  (congrArg (fun u : State => u.ctx.parked) h :)

theorem State.fixed_takeEntry (s : State) (wing n pos : Nat) : ((s.touch wing n).takeEntry n pos).fixed = s.fixed :=
  (State.fixed_wake _).trans (State.fixed_of_bare (State.bare_touch s wing n) :)

theorem State.gang_watchesBack (s : State) (a n : Nat) : (s.watchesBack a n).gang = s.gang := rfl

/-- A continuation whose AWAITA chose a future goes on in its new place with that future's number. -/
theorem execContinuationResume_chosen {s : State} {a carrel q i k j : Nat} {p : Pick} {g : Gang} {d : BitVec 6}
    (hp : s.nextEntry carrel = some p) (ha : p.entry.payload.toNat = a) (hrunnable : (s.frameOf a).state = .runnable)
    (hserve : s.serving carrel = true) (haway : s.inPlaceOf a = none)
    (hparked : Table.seek ((s.touch (wingOf carrel) p.shelf).takeEntry p.shelf p.pos).ctx.parked a = some g)
    (hpend : g.pend = .chosen j k (.s d)) (hfits : s.fits (s.taskInfo (s.frameOf a).entryPc).2 carrel q i = true) :
    ∃ t, execContinuationResume a carrel q i s = .next t ∧ t.clock = s.clock ∧ (t.frameOf a).state = .running
      ∧ Table.seek t.ctx.parked a = none ∧ t.gang.resident = true ∧ t.gang.carrel = carrel ∧ t.gang.frame = g.frame
      ∧ t.gang.sReg d = BitVec.ofNat 64 j ∧ t.pc = g.path.pc := by
  unfold execContinuationResume
  rw [hp]
  dsimp -zeta only
  extract_lets f info s1 shadow _ s2
  have h1 : s1.fixed = s.fixed := s.fixed_takeEntry ..
  rw [if_neg (by simp [ha, f, hrunnable, hserve]), haway]
  dsimp -zeta only
  rw [hparked]
  dsimp -zeta only
  extract_lets mid s3 s5
  have hmid : mid = false := by simp only [mid, hpend, midSegment]
  rw [if_neg (by simp [info, f, hfits]), if_neg (by simp [hmid]), hpend]
  have hacq : s3.bare = (s2.setFrameOf a (f.resumed g mid)).bare := State.bare_acquire ..
  have hrun : ((s2.setFrameOf a (f.resumed g mid)).frameOf a).state = .running := by
    rw [State.frameOf_setFrameOf, if_pos rfl]; rfl
  have hgone : Table.seek s2.ctx.parked a = none := by
    show Table.seek (Table.del (Table.del s1.ctx.parked a) (a + 1)) a = none
    rw [Table.seek_del, if_neg (by omega), Table.seek_del, if_pos rfl]
  have hclock2 : s2.clock = s.clock := State.clock_of_fixed h1
  obtain ⟨hoff, -, partner, b, hg⟩ :=
    s3.takeNumber.1.settleIn_spec s3.takeNumber.2 carrel q i { g with pend := .none } mid shadow
  have hclock : s5.clock = s.clock :=
    (State.clock_of_offPlace hoff).trans ((State.clock_of_bare hacq).trans hclock2 :)
  have hframe : s5.frameOf a = (s2.setFrameOf a (f.resumed g mid)).frameOf a :=
    (State.frameOf_of_offPlace hoff a).trans (State.frameOf_of_bare hacq a :)
  have hpark : s5.ctx.parked = s2.ctx.parked :=
    (State.parked_of_offPlace hoff).trans (State.parked_of_bare hacq :)
  have hgang : s5.gang = (Gang.placed { g with pend := .none } carrel q i s3.takeNumber.1.clock partner b).newSegment :=
    (State.gang_watchesBack ..).trans (hg.trans (if_neg (by simp [hmid])))
  clear_value s5
  refine ⟨_, rfl, hclock, ?_, ?_, ?_⟩
  · exact (congrArg Frame.state hframe).trans hrun
  · exact (congrArg (Table.seek · a) hpark).trans hgone
  · rw [State.pc, State.modGang_gang, hgang]
    exact ⟨rfl, rfl, rfl, Gang.sReg_writeDest_s .., rfl⟩

end Sys2Proof.Machine
end

section
namespace Sys2Proof.Machine
open Sys2Proof

/-! REEXEC_DISPATCH (R73, R74). -/

theorem State.traceOf_of_bare {s t : State} (h : t.bare = s.bare) (n : Nat) : t.traceOf n = s.traceOf n :=
  (congrArg (fun u : State => u.traceOf n) h :)

/-- A folio whose run starts is in the recall queue no longer. -/
theorem Trace.notMem_queue_startRun (t : Trace) (f : Nat) : f ∉ (t.startRun f).queue := by
  simp [Trace.startRun]

theorem State.traceOf_modTraceOf_same (s : State) (n : Nat) (f : Trace → Trace) :
    (s.modTraceOf n f).traceOf n = f (s.traceOf n) :=
  (State.traceOf_setTraceOf ..).trans (if_pos rfl)

/-- The stale folio's entry image takes the place, in the trace and the folio that it is of. -/
theorem execReexecDispatch_placed {s : State} {tr f carrel q i : Nat} {im : EntryImage}
    (himage : ((s.traceOf tr).folio f).image = some im)
    (hplace : s.placeFor (s.taskInfo (s.frameOf ((s.traceOf tr).folio f).frame).entryPc).2 carrel = some (q, i))
    (hstate : (s.traceOf tr).state = .propagating) (hactive : (s.traceOf tr).active.isSome = true)
    (hcancels : (s.traceOf tr).cancels = []) (hstale : s.nextStale tr = some f) (hserve : s.serving carrel = true)
    (hmode : s.modeSuits (s.frameOf ((s.traceOf tr).folio f).frame) carrel = true)
    (hfew : s.reexecsOn (wingOf carrel) < 64) :
    ∃ t, execReexecDispatch tr f carrel s = .next t ∧ t.gang.mode = .reexec ∧ t.gang.trace = tr
      ∧ t.gang.folio = f ∧ t.gang.resident = true ∧ t.gang.carrel = carrel
      ∧ t.gang.frame = ((s.traceOf tr).folio f).frame
      ∧ t.gang.s = im.gang.s ∧ t.gang.w = im.gang.w ∧ f ∉ (t.traceOf tr).queue := by
  have hact : (s.traceOf tr).active.isNone = false := by simpa using hactive
  unfold execReexecDispatch
  extract_lets tr0 x
  rw [himage, hplace]
  dsimp -zeta only
  extract_lets s1 _ g
  rw [if_neg (by simp [tr0, x, hstate, hact, hcancels, hstale, hserve, hmode]; omega)]
  have hacq := s1.bare_acquire carrel 2
  generalize s1.acquire carrel 2 = s2 at hacq ⊢
  obtain ⟨hoff, -, partner, b, hg⟩ := s2.takeNumber.1.settleIn_spec s2.takeNumber.2 carrel q i g false none
  have htrace : (s2.takeNumber.1.settleIn s2.takeNumber.2 carrel q i g false none).traceOf tr
      = ((s.holdFollower tr f).traceOf tr).startRun f :=
    calc _ = s2.traceOf tr := State.traceOf_of_offPlace hoff tr
      _ = s1.traceOf tr := State.traceOf_of_bare hacq tr
      _ = _ := State.traceOf_modTraceOf_same (s.holdFollower tr f) tr fun t => t.startRun f
  refine ⟨_, rfl, ?_⟩
  rw [htrace, hg]
  exact ⟨rfl, rfl, rfl, rfl, rfl, rfl, rfl, rfl, Trace.notMem_queue_startRun _ _⟩

end Sys2Proof.Machine
end

section
namespace Sys2Proof.Machine
open Sys2Proof

/-! GALLERY_MODE_CHANGE (R124): the gallery's L1s are emptied one by one. -/

/-! Work on a gallery cache or on memory leaves the L1s as they are. -/

@[simp] theorem State.l1s_intoL2 (s : State) (g base : Nat) (who : BitVec 4) (ws : List (Nat × Byte)) :
    (s.intoL2 g base who ws).l1s = s.l1s := by
  unfold State.intoL2; split <;> rfl

@[simp] theorem State.l1s_logWrite (s : State) (pa n : Nat) : (s.logWrite pa n).l1s = s.l1s := by
  unfold State.logWrite State.logFor; repeat' split
  all_goals rfl

@[simp] theorem State.l1s_writeHome (s : State) (base : Nat) (ws : List (Nat × Byte)) :
    (s.writeHome base ws).l1s = s.l1s := by
  unfold State.writeHome
  extract_lets whole
  split
  · rfl
  · exact State.l1s_logWrite ..

@[simp] theorem State.l1s_lineHome (s : State) (g ln : Nat) : (s.lineHome g ln).l1s = s.l1s := by
  unfold State.lineHome
  extract_lets c l s1 l'
  split
  · exact (State.l1s_writeHome ..).trans (State.l1s_writeHome ..)
  · rfl

theorem State.l1s_flushL2 (s : State) (g : Nat) (who : BitVec 4) : (s.flushL2 g who).l1s = s.l1s :=
  foldl_keeps State.l1s _ (fun _ _ => by split <;> simp) (s.galleryCache g).lines s

/-! Work on an L1 leaves the others as they are. -/

theorem State.cacheOf_lineToL2 {l c : Nat} (h : c ≠ l) (s : State) (ln : Nat) (lv : BitVec 3) :
    (s.lineToL2 l ln lv).cacheOf c = s.cacheOf c := by
  unfold State.lineToL2
  extract_lets x l gal who s1 l'
  split
  · have h1 : s1.l1s = s.l1s := (State.l1s_intoL2 ..).trans (State.l1s_intoL2 ..)
    rw [State.cacheOf_setCacheOf, if_neg h, State.cacheOf, h1, State.cacheOf]
  · rfl

theorem State.cacheOf_emptyL1 {l c : Nat} (h : c ≠ l) (s : State) : (s.emptyL1 l).cacheOf c = s.cacheOf c := by
  unfold State.emptyL1 State.flushL1
  extract_lets s1 s2
  rw [State.cacheOf_setCacheOf, if_neg h, State.cacheOf_setCacheOf, if_neg h]
  exact foldl_keeps (State.cacheOf · c) _ (fun s e => State.cacheOf_lineToL2 h s e.1 4) (s.cacheOf l).lines s

theorem State.lines_emptyL1 (s : State) (l : Nat) : ((s.emptyL1 l).cacheOf l).lines = [] := by
  unfold State.emptyL1
  rw [State.cacheOf_setCacheOf, if_pos rfl]

/-- An L1 that is emptied stays empty as others are. -/
theorem State.lines_emptyAll (cs : List Nat) (s : State) (c : Nat) (h : c ∈ cs ∨ (s.cacheOf c).lines = []) :
    ((cs.foldl (fun s l => s.emptyL1 l) s).cacheOf c).lines = [] := by
  induction cs generalizing s with
  | nil => exact h.resolve_left (by simp)
  | cons l ls ih =>
    refine ih (s.emptyL1 l) ?_
    by_cases hc : c = l
    · exact .inr (hc ▸ s.lines_emptyL1 l)
    · rw [State.cacheOf_emptyL1 hc]
      exact h.imp_left fun h => (List.mem_cons.1 h).resolve_left hc

/-- An idle gallery of the partition changes its mode with its L1s empty. -/
theorem execGalleryModeChange_changed {s : State} {gallery : Nat} {fused : Bool}
    (hidle : ∀ c ∈ galleryCarrels gallery, s.gangsOn c = []) (hours : ∀ c ∈ galleryCarrels gallery, c ∈ s.carrels)
    (hother : s.fused.contains gallery ≠ fused) (hhalt : s.halt = .running) :
    ∃ t, execGalleryModeChange gallery fused s = .next t ∧ t.fused.contains gallery = fused
      ∧ ∀ c ∈ galleryCarrels gallery, (t.cacheOf c).lines = [] := by
  have hbusy : ((galleryCarrels gallery).any fun c => !(s.gangsOn c).isEmpty) = false :=
    List.any_eq_false.2 fun c hc => by simp [hidle c hc]
  have hall : (galleryCarrels gallery).all s.carrels.contains = true :=
    List.all_eq_true.2 fun c hc => by simpa using hours c hc
  unfold execGalleryModeChange
  extract_lets cs busy s1
  have hlines : ∀ c ∈ cs, (s1.cacheOf c).lines = [] := fun c hc => by
    rw [State.cacheOf, State.l1s_flushL2]
    exact State.lines_emptyAll cs s c (.inl hc)
  clear_value s1
  rw [if_neg (by simpa [busy, cs, hbusy, hall, hhalt] using hother)]
  refine ⟨_, rfl, ?_, hlines⟩
  cases fused <;> simp

end Sys2Proof.Machine
end

section
namespace Sys2Proof.Machine
open Sys2Proof

/-! LAUNCH_COMPLETE (R47). -/

/-- The low half of a completion word is the root's, and its top bit is clear. -/
theorem launchWord_bits (ret free : DWord) :
    (∀ i < 32, (launchWord ret free).getLsbD i = ret.getLsbD i) ∧ (launchWord ret free).getLsbD 63 = false := by
  have hopen : ∀ i < 32, (0x7FFFFFFF00000000 : DWord).getLsbD i = false := by decide
  have hlow : ∀ i < 32, (0xFFFFFFFF : DWord).getLsbD i = true := by decide
  refine ⟨fun i hi => ?_, ?_⟩
  · rw [launchWord, BitVec.getLsbD_or, BitVec.getLsbD_and, BitVec.getLsbD_and, hopen i hi, hlow i hi, Bool.and_false,
      Bool.false_or, Bool.and_true]
  · rw [launchWord, BitVec.getLsbD_or, BitVec.getLsbD_and, BitVec.getLsbD_and,
      show (0x7FFFFFFF00000000 : DWord).getLsbD 63 = false by decide,
      show (0xFFFFFFFF : DWord).getLsbD 63 = false by decide, Bool.and_false, Bool.and_false, Bool.or_false]

/-- A launch with nothing left to do is done, and its completion word is written. -/
theorem execLaunchComplete_done {s : State} {l : Nat} {x : Launch} (hx : Table.seek s.ctx.launches l = some x)
    (hdone : x.done = false) (hroot : x.rootEnded = true) (hidle : s.busyLaunch l = false) (hhalt : s.halt = .running) :
    ∃ t v, execLaunchComplete l s = .next t ∧ (t.launchOf l).done = true
      ∧ t.mem = ((x.carrels.foldl (fun s c => s.release c levelPackage) s).completionWord x.completion v).mem
      ∧ (∀ i < 32, v.getLsbD i = x.rootRet.getLsbD i) ∧ v.getLsbD 63 = false := by
  unfold execLaunchComplete
  rw [hx]
  dsimp -zeta only
  extract_lets s1 s2
  rw [if_neg (by simp [hdone, hroot, hidle, hhalt])]
  have hmem : s2.mem = (s1.completionWord x.completion (launchWord x.rootRet s.freeNow)).mem := rfl
  clear_value s2
  refine ⟨_, _, rfl, ?_, hmem, launchWord_bits ..⟩
  exact congrArg Launch.done ((Table.look_put ..).trans (if_pos rfl))

/-! LAUNCH_PACKET (R46, R47). -/

/-- The checks that every packet passes before it is looked at. -/
structure State.packetAt (s : State) (header pa : Nat) : Prop where
  place : s.deskPa ((s.ringAt header).slot (s.ringAt header).read 64) = some pa
  attached : ∃ p, Table.seek s.pages s.ctx.vi = some p ∧ p.attached = true
  queue : header ∈ s.ctx.queues
  behind : (s.ringAt header).write ≠ (s.ringAt header).read
  kind : field (s.homeRead pa 64) 0 2 ≠ 0
  made : s.ctx.made = true
  running : s.halt = .running
  nograce : s.ctx.grace = none

/-- The packet's slot is given back and the queue moves on. -/
def State.packetTaken (s : State) (header pa read : Nat) : State :=
  (s.homeWrite pa [0, 0]).deskWrite (header + 8) (natToBytes 8 (read + 1))

/-- The launch of a valid packet. -/
def State.packetLaunch (s : State) (b : List Byte) : Launch :=
  { Launch.none with
    root := s.newFrame, prio := BitVec.ofNat 3 (field b 6 1), completion := BitVec.ofNat 64 (field b 24 8),
    fused := field b 2 1 % 2 = 1 && (s.feature 0).getLsbD 0 }

/-- The launch and its root's frame are there. -/
def State.withLaunch (s : State) (b : List Byte) : State :=
  let s1 := (s.putFrame (s.rootFrame b (Table.fresh s.ctx.launches))).1
  { s1 with ctx := { s1.ctx with
      launches := Table.put s1.ctx.launches (Table.fresh s.ctx.launches) (s.packetLaunch b) } }

/-- The packet is looked at. -/
theorem State.packetAt.guard {s : State} {header pa : Nat} (h : s.packetAt header pa) :
    (!((Table.seek s.pages s.ctx.vi).map (·.attached)).getD false || !s.ctx.queues.contains header
      || (s.ringAt header).write = (s.ringAt header).read || field (s.homeRead pa 64) 0 2 = 0 || !s.ctx.made
      || s.halt != .running || s.ctx.grace.isSome) = false := by
  obtain ⟨-, ⟨p, hp, hatt⟩, hqueue, hbehind, hkind, hmade, hrun, hgrace⟩ := h
  simp [hp, hatt, hqueue, hbehind, hkind, hmade, hrun, hgrace]

variable {s : State} {header pa : Nat}

theorem execLaunchPacket_badHeader (h : s.packetAt header pa) {bad : Nat} (hbad : s.deskBad header 64 = some bad) :
    execLaunchPacket header s = .next (s.deskFault bad) := by
  unfold execLaunchPacket
  simp only [h.place, h.guard, hbad]
  rfl

theorem execLaunchPacket_badPacket (h : s.packetAt header pa) (hheader : s.deskBad header 64 = none) {bad : Nat}
    (hbad : s.deskBad ((s.ringAt header).slot (s.ringAt header).read 64) 64 = some bad) :
    execLaunchPacket header s = .next (s.deskFault bad) := by
  unfold execLaunchPacket
  simp only [h.place, h.guard, hheader, hbad]
  rfl

theorem execLaunchPacket_skipped (h : s.packetAt header pa) (hheader : s.deskBad header 64 = none)
    (hpacket : s.deskBad ((s.ringAt header).slot (s.ringAt header).read 64) 64 = none)
    (hreason : s.packetReason (s.homeRead pa 64) ≠ 0) :
    execLaunchPacket header s =
      .next ((s.completionWord (BitVec.ofNat 64 (field (s.homeRead pa 64) 24 8))
        (BitVec.ofNat 64 (2 ^ 63 + s.packetReason (s.homeRead pa 64)))).packetTaken header pa (s.ringAt header).read) := by
  unfold execLaunchPacket
  simp only [h.place, h.guard, hheader, hpacket, if_pos hreason]
  rfl

theorem execLaunchPacket_launched (h : s.packetAt header pa) (hheader : s.deskBad header 64 = none)
    (hpacket : s.deskBad ((s.ringAt header).slot (s.ringAt header).read 64) 64 = none)
    (hreason : s.packetReason (s.homeRead pa 64) = 0)
    (hfull : (s.shelfOf (field (s.homeRead pa 64) 16 2)).full = false) (hroom : s.ctx.frameRoom ≠ 0) :
    execLaunchPacket header s =
      .next ((((s.withLaunch (s.homeRead pa 64)).touch (s.wings.headD 0) (field (s.homeRead pa 64) 16 2)).enter
        (field (s.homeRead pa 64) 16 2) none true (BitVec.ofNat 64 s.newFrame)).packetTaken header pa
          (s.ringAt header).read) := by
  unfold execLaunchPacket
  simp only [h.place, h.guard, hheader, hpacket, hreason, hfull, hroom]
  rfl

end Sys2Proof.Machine
end

section
namespace Sys2Proof.Machine
open Sys2Proof

/-! What a valid packet leaves (R46): its launch, its root's frame, a deeper shelf. -/

@[simp] theorem State.bare_packetTaken (s : State) (header pa read : Nat) :
    (s.packetTaken header pa read).bare = s.bare := by
  simp [State.packetTaken]

theorem State.launchOf_of_offShelf {s t : State} (h : t.offShelf = s.offShelf) (l : Nat) : t.launchOf l = s.launchOf l :=
  (congrArg (fun u : State => u.launchOf l) h :)

theorem State.launchOf_withLaunch (s : State) (b : List Byte) :
    (s.withLaunch b).launchOf (Table.fresh s.ctx.launches) = s.packetLaunch b := (Table.look_put ..).trans (if_pos rfl)

theorem State.frameOf_withLaunch (s : State) (b : List Byte) :
    (s.withLaunch b).frameOf s.newFrame = s.rootFrame b (Table.fresh s.ctx.launches) :=
  (Table.look_put ..).trans (if_pos rfl)

/-- The root has the packet's 32 argument bytes, the rest of its arguments zero. -/
theorem State.rootFrame_args (s : State) (b : List Byte) (l : Nat) :
    ∀ i < 128, (s.rootFrame b l).args.getD i 0 = if i < 32 then b.getD (32 + i) 0 else 0 := by
  intro i hi
  simp [State.rootFrame, Vector.getD, hi]

/-- The launched root waits on its shelf. -/
theorem State.launched_spec (s : State) (b : List Byte) (wing n header pa read : Nat) (v : DWord) :
    let t := (((s.withLaunch b).touch wing n).enter n none true v).packetTaken header pa read
    (t.shelfOf n).depth = (s.shelfOf n).depth + 1
      ∧ t.launchOf (Table.fresh s.ctx.launches) = s.packetLaunch b
      ∧ t.frameOf s.newFrame = s.rootFrame b (Table.fresh s.ctx.launches) := by
  intro t
  have hbare : t.bare = (((s.withLaunch b).touch wing n).enter n none true v).bare := State.bare_packetTaken ..
  have htouch := (s.withLaunch b).bare_touch wing n
  have hoff : t.offShelf = (s.withLaunch b).offShelf :=
    (State.offShelf_of_bare hbare).trans ((State.offShelf_enter ..).trans (State.offShelf_of_bare htouch))
  refine ⟨?_, (State.launchOf_of_offShelf hoff _).trans (s.launchOf_withLaunch b),
    (State.frameOf_of_offShelf hoff _).trans (s.frameOf_withLaunch b)⟩
  rw [State.shelfOf_of_bare hbare, (State.shelfOf_enter_task _ n none v).1, State.shelfOf_of_bare htouch]
  rfl

end Sys2Proof.Machine

open Sys2Proof Sys2Proof.Machine

/-- Settles O49: each event of the desk by its own rule; a placement leaves everything but places as it was
(`settleIn_spec`), and a waking leaves the clock, the numbers of gangs, and the entries and widths of frames
(`fixed_wake`). -/
theorem deskPlacement : Obligations.DeskPlacement := by
  unfold Obligations.DeskPlacement
  refine ⟨?packet, fun s l x hx hdone hroot hidle hhalt => execLaunchComplete_done hx hdone hroot hidle hhalt,
    fun s carrel q i p hp hready halone hserve hfits => execTaskDispatch_one hp hready halone hserve hfits,
    fun s carrel q i b rest p hp hready hpacked hserve hfits hpack =>
      execTaskDispatch_packed hp hready hpacked hserve hfits hpack,
    fun s a carrel q i k j p g d hp ha hrunnable hserve haway hparked hpend hfits =>
      execContinuationResume_chosen hp ha hrunnable hserve haway hparked hpend hfits,
    fun s tr f carrel q i im himage hplace hstate hactive hcancels hstale hserve hmode hfew =>
      execReexecDispatch_placed himage hplace hstate hactive hcancels hstale hserve hmode hfew,
    fun s gallery fused hidle hours hother hhalt => execGalleryModeChange_changed hidle hours hother hhalt⟩
  case packet =>
    intro s header pa r hplace b n hatt hqueue hbehind hkind hmade hrun hgrace
    have h : s.packetAt header pa := ⟨hplace, hatt, hqueue, hbehind, hkind, hmade, hrun, hgrace⟩
    refine ⟨fun bad hbad => execLaunchPacket_badHeader h hbad,
      fun hheader bad hbad => execLaunchPacket_badPacket h hheader hbad, fun hheader hpacket =>
        ⟨fun hreason => execLaunchPacket_skipped h hheader hpacket hreason, fun hreason hfull hroom => ?_⟩⟩
    obtain ⟨hdepth, hlaunch, hframe⟩ :=
      s.launched_spec b (s.wings.headD 0) n header pa r.read (BitVec.ofNat 64 s.newFrame)
    refine ⟨_, execLaunchPacket_launched h hheader hpacket hreason hfull hroom, hdepth, ?_⟩
    rw [hlaunch, hframe]
    exact ⟨rfl, rfl, rfl, rfl, rfl, rfl, s.rootFrame_args b _⟩
end

section
namespace Sys2Proof.Machine
open Sys2Proof

/-! What leaving a word leaves of the context and of one task (R3, R98, R259). -/

@[simp] theorem State.bare_issuedOne (s : State) : s.issuedOne.bare = s.bare := by
  unfold State.issuedOne; split <;> simp

theorem State.traces_of_bare {s t : State} (h : t.bare = s.bare) : t.ctx.traces = s.ctx.traces :=
  (congrArg (fun u : State => u.ctx.traces) h :)
theorem State.allocs_of_bare {s t : State} (h : t.bare = s.bare) : t.ctx.allocs = s.ctx.allocs :=
  (congrArg (fun u : State => u.ctx.allocs) h :)

@[simp] theorem State.leave_traces (s : State) (h : Header) (pc : DWord) (b : Bool) :
    (s.leave h pc b).ctx.traces = s.ctx.traces := (State.traces_of_bare s.bare_issuedOne :)
@[simp] theorem State.leave_allocs (s : State) (h : Header) (pc : DWord) (b : Bool) :
    (s.leave h pc b).ctx.allocs = s.ctx.allocs := (State.allocs_of_bare s.bare_issuedOne :)
@[simp] theorem State.leave_traceOf (s : State) (h : Header) (pc : DWord) (b : Bool) (n : Nat) :
    (s.leave h pc b).traceOf n = s.traceOf n := by simp [State.traceOf]

/-- Where the current gang's path stands and how the gang is split. -/
def State.stand (s : State) : Path × Option Split := (s.gang.path, s.gang.split)

theorem State.pc_of_stand {s u : State} (h : u.stand = s.stand) : u.pc = s.pc :=
  (congrArg (fun e : Path × Option Split => e.1.pc) h :)

theorem State.flat_of_stand {s u : State} (h : u.stand = s.stand) (hf : s.flat) : u.flat := by
  obtain ⟨hp, hs⟩ := Prod.mk.inj h
  rw [State.flat, hp, hs]; exact hf

/-- A state in which the path stands as in `s` goes on behind the word of `s`. -/
theorem State.advance_pc {s u : State} (h : u.stand = s.stand) (hf : s.flat) (x : Header) :
    (u.advance x).pc = s.pc + 12 := by
  rw [State.advance, State.leave_pc (State.flat_of_stand h hf), State.pc_of_stand h]

/-- A state that differs from `s` in neither memory nor the halt line goes on as an instruction that is over. -/
theorem wentOn_advance {s u : State} (x : Header) (hc : u.clock = s.clock) (hu : u.cur = s.cur) (hh : u.halt = s.halt)
    (hf : u.faults = s.faults) (hm : u.mem = s.mem) (hs : u.stand = s.stand) : wentOn s (u.advance x) (s.pc + 12) := by
  refine ⟨?_, ?_, ?_, ?_, ?_, fun hstack hsplit => State.advance_pc hs ⟨hstack, hsplit⟩ x⟩
  · rw [State.advance, State.leave_clock, hc]
  · rw [State.advance, State.leave_cur, hu]
  · rw [State.advance, State.leave_halt, hh]
  · rw [State.advance, State.leave_faults, hf]
  · rw [State.advance, State.leave_mem, hm]

/-- A change of the gang that leaves its path and its split. -/
theorem State.stand_modGang {s : State} {f : Gang → Gang} (hp : (f s.gang).path = s.gang.path)
    (hs : (f s.gang).split = s.gang.split) : (s.modGang f).stand = s.stand := by
  rw [State.stand, State.modGang_gang, hp, hs]; rfl

theorem State.offIssue_advance (s : State) (h : Header) : (s.advance h).gang.offIssue = s.gang.offIssue :=
  State.offIssue_leave ..
theorem State.advance_hash (s : State) (h : Header) : (s.advance h).gang.hash = s.gang.hash :=
  (congrArg Gang.hash (s.offIssue_advance h) :)
theorem State.advance_tkey (s : State) (h : Header) : (s.advance h).gang.tkey = s.gang.tkey :=
  (congrArg Gang.tkey (s.offIssue_advance h) :)

/-! A long-latency s result on its way (R17). -/

theorem exists_s_of_isS {d : Operand} (h : isS d = true) : ∃ i, d = .s i := by
  cases d with
  | s i => exact ⟨i, rfl⟩
  | _ => cases h

theorem Gang.sEmpty_setSEmpty (g : Gang) (i : BitVec 6) : (g.setSEmpty i true).sEmpty i = true := by
  have hi : i.toNat < 64 := i.isLt
  have hbit : (BitVec.ofNat 64 (2 ^ i.toNat)).getLsbD i.toNat = true := by
    rw [BitVec.getLsbD_ofNat, Nat.testBit_two_pow_self]; simpa using hi
  rw [Gang.sEmpty, Gang.setSEmpty, if_pos rfl, BitVec.getLsbD_or, hbit, Bool.or_true]

theorem Gang.launch_s (g : Gang) {f : Flight} {i : BitVec 6} (hf : f.dst = .s i) :
    g.launch f = { g.setSEmpty i true with flights := g.flights ++ [f] } := by
  simp only [Gang.launch, hf, Gang.markEmpty]; rfl

@[simp] theorem State.stand_launchS (s : State) (i : BitVec 6) (v : DWord) : (s.launchS (.s i) v).stand = s.stand := by
  refine State.stand_modGang ?_ ?_ <;> rw [Gang.launch_s _ rfl] <;> rfl

/-- A word that launches an s result leaves it on its way. -/
theorem launchedS_advance (s : State) (i : BitVec 6) (v : DWord) (x : Header) :
    launchedS ((s.launchS (.s i) v).advance x) (.s i) v := by
  have hg := (s.launchS (.s i) v).offIssue_advance x
  have he : ((s.launchS (.s i) v).advance x).gang.se = (s.launchS (.s i) v).gang.se := (congrArg Gang.se hg :)
  have hf : ((s.launchS (.s i) v).advance x).gang.flights = (s.launchS (.s i) v).gang.flights :=
    (congrArg Gang.flights hg :)
  rw [launchedS, hf]
  simp only [Gang.sEmpty, he]
  rw [State.launchS, State.modGang_gang, Gang.launch_s _ rfl]
  refine ⟨fun j hj => ?_, _, List.getLast?_concat, rfl, rfl, rfl, rfl⟩
  cases hj
  exact Gang.sEmpty_setSEmpty s.gang i

end Sys2Proof.Machine
end

section
namespace Sys2Proof.Machine
open Sys2Proof

/-! What a byte of memory is after a run is written. -/

theorem Table.look_append {α : Type} (t u : Table α) (k : Nat) (d : α) :
    Table.look (t ++ u : List (Nat × α)) k d = Table.look t k (Table.look u k d) := by
  induction t with
  | nil => rfl
  | cons e r ih =>
    obtain ⟨k', v⟩ := e
    by_cases h : k = k' <;> simp [Table.look, h, ih]

/-- A lookup sees nothing of a filter on the keys that its key passes; of one that it fails, it sees the default. -/
theorem Table.look_filter {α : Type} (t : Table α) (p : Nat → Bool) (k : Nat) (d : α) :
    Table.look (t.filter fun e => p e.1) k d = if p k then Table.look t k d else d := by
  induction t with
  | nil => simp [Table.look]
  | cons e r ih =>
    obtain ⟨k', v⟩ := e
    by_cases h : k = k'
    · subst h; by_cases hp : p k <;> simp_all [Table.look]
    · by_cases hp : p k' <;> simp [Table.look, h, hp, ih]

theorem look_cellsOf_cons (a : Nat) (b : Byte) (r : List Byte) (x : Nat) (d : Byte) :
    Table.look (cellsOf a (b :: r)) x d = if x = a ∧ b ≠ 0 then b else Table.look (cellsOf (a + 1) r) x d := by
  rw [cellsOf]
  by_cases hb : b = 0
  · rw [if_pos hb, if_neg fun h => h.2 hb]
  · rw [if_neg hb, Table.look]
    by_cases hx : x = a
    · rw [if_pos hx, if_pos ⟨hx, hb⟩]
    · rw [if_neg hx, if_neg fun h => hx h.1]

/-- The cells of a run say nothing of an address beside it, and read as its bytes within it. -/
theorem look_cellsOf (bs : List Byte) (a x : Nat) :
    (¬(a ≤ x ∧ x < a + bs.length) → ∀ d, Table.look (cellsOf a bs) x d = d)
      ∧ (a ≤ x ∧ x < a + bs.length → Table.look (cellsOf a bs) x 0 = bs.getD (x - a) 0) := by
  induction bs generalizing a with
  | nil => exact ⟨fun _ _ => rfl, fun h => by rw [List.length_nil] at h; omega⟩
  | cons b r ih =>
    obtain ⟨hout, hin⟩ := ih (a + 1)
    rw [List.length_cons]
    refine ⟨fun h d => ?_, fun h => ?_⟩
    · rw [look_cellsOf_cons, if_neg (by omega), hout (by omega)]
    · rw [look_cellsOf_cons]
      rcases Nat.eq_or_lt_of_le h.1 with rfl | hlt
      · rw [hout (by omega), Nat.sub_self]
        by_cases hb : b = 0
        · rw [if_neg fun h => h.2 hb, List.getD_cons_zero, hb]
        · rw [if_pos ⟨rfl, hb⟩, List.getD_cons_zero]
      · obtain ⟨k, rfl⟩ : ∃ k, x = a + 1 + k := ⟨x - (a + 1), by omega⟩
        rw [if_neg (by omega), hin (by omega), show a + 1 + k - a = k + 1 by omega,
          show a + 1 + k - (a + 1) = k by omega, List.getD_cons_succ]

/-- A run that is written reads as its bytes; beside it memory is as it was. -/
theorem Memory.byte_write (m : Memory) (a : Nat) (bs : List Byte) (x : Nat) :
    (m.write a bs).byte x = if a ≤ x ∧ x < a + bs.length then bs.getD (x - a) 0 else m.byte x := by
  obtain ⟨hout, hin⟩ := look_cellsOf bs a x
  have hlow := Table.look_filter m.bytes (fun k => decide (k < a)) x
  have hhigh := Table.look_filter m.bytes (fun k => decide (a + bs.length ≤ k)) x 0
  rw [Memory.byte, Memory.byte, Memory.write]
  simp only [List.append_assoc, Table.look_append, hhigh, hlow]
  by_cases h : a ≤ x ∧ x < a + bs.length
  · rw [if_pos h, if_neg (by simpa using h.1), if_neg (by simpa using h.2), hin h]
  · rw [if_neg h, hout h]
    rcases Nat.lt_or_ge x a with hlt | hge
    · rw [if_pos (by simpa using hlt), if_neg (by simp; omega)]
    · rw [if_neg (by simpa using hge), if_pos (by simp; omega)]
end Sys2Proof.Machine
end

section
namespace Sys2Proof.Machine
open Sys2Proof

/-! MODNEW (R55, R322). -/

theorem execModnew_issued {x : RRR} {s : State} {m : Mask}
    (hi : s.issues x.hdr .gang (traceFieldsOk s x && isSImm x.a && x.b == .absent && isS x.hdr.d) [(x.hdr.d, false)]
      (abSrcs x) m) :
    exec (.modnew x) s = .next (((s.modnew (modBytes s x.a)).1.launchS x.hdr.d
      (BitVec.ofNat 64 (s.modnew (modBytes s x.a)).2)).advance x.hdr) := issue_of_issues _ hi

/-- The place that the allocator takes has room for the granules and meets no allocation. -/
theorem State.findRoom_spec {s : State} {n a : Nat} (h : s.findRoom n = some a) :
    s.ctx.modBase.toNat ≤ a ∧ a + n ≤ s.ctx.modBase.toNat + s.ctx.modRoom
      ∧ ∀ y ∈ s.ctx.allocs, y.stop ≤ a ∨ a + n ≤ y.addr := by
  have hfree := List.find?_some h
  simp only [Bool.and_eq_true, decide_eq_true_eq, List.all_eq_true, Bool.or_eq_true] at hfree
  obtain ⟨⟨hbase, hroom⟩, hapart⟩ := hfree
  exact ⟨by omega, by omega, fun y hy => (hapart y hy).imp_right fun h => by omega⟩

/-- The state in which MODNEW has taken `n` bytes at `a`, each granule zero. -/
def State.withAlloc (s : State) (a n : Nat) : State :=
  (granulesOf (a, n)).foldl (fun s gr => s.zeroGranule gr) (s.newAlloc a n)

/-- Outside a trace MODNEW takes what the allocator finds, or nothing. -/
theorem State.modnew_untraced {s : State} {n : Nat} (hb : s.beneath s.gang = false) (hn : n ≠ 0)
    (h0 : (s.modnew n).2 ≠ 0) : ∃ a, s.findRoom n = some a
      ∧ s.modnew n = ((s.withAlloc a n).modGang fun g => { g with modnews := g.modnews + 1 }, a) := by
  have hrep : s.repeatAlloc n = none := by simp [State.repeatAlloc, hb]
  cases hf : s.findRoom n with
  | none => simp [State.modnew, hrep, hn, hf] at h0
  | some a => exact ⟨a, rfl, by simp only [State.modnew, hrep, hn, hf, hb]; rfl⟩

@[simp] theorem State.bare_zeroGranule (s : State) (va : Nat) : (s.zeroGranule va).bare = s.bare := by
  unfold State.zeroGranule
  split
  · exact (State.bare_homeWrite ..).trans rfl
  · rfl

theorem State.allocs_withAlloc {s : State} (hb : s.beneath s.gang = false) (a n : Nat) :
    (s.withAlloc a n).ctx.allocs
      = s.ctx.allocs ++ [{ addr := a, size := n, trace := none, folio := s.gang.folio }] := by
  have hbare : (s.withAlloc a n).bare = (s.newAlloc a n).bare :=
    foldl_keeps State.bare _ (fun _ _ => State.bare_zeroGranule ..) _ _
  rw [State.allocs_of_bare hbare]
  simp [State.newAlloc, hb]

/-- A walk reads nothing but memory, its failing blocks and the size of the partition. -/
theorem walk_congr {s t : State} (hm : t.mem = s.mem) (hb : t.bad = s.bad) (hp : t.part = s.part)
    (fuel level table va : Nat) : walk t fuel level table va = walk s fuel level table va := by
  have hbytes : t.memBytes = s.memBytes := by simp only [State.memBytes, State.stackCount, State.wings, hp]
  induction fuel generalizing level table with
  | zero => rfl
  | succ k ih =>
    rw [walk.eq_def, walk.eq_def]
    simp only [blockBad, hm, hb, hbytes, ih]

theorem State.deskPa_newAlloc (s : State) (a n va : Nat) : (s.newAlloc a n).deskPa va = s.deskPa va := by
  have hwalk := walk_congr (s := s) (t := s.newAlloc a n) rfl rfl rfl 5 1
  have hroot : (s.newAlloc a n).ctx.root = s.ctx.root := rfl
  simp only [State.deskPa, hwalk, hroot]

theorem bytesToNat_zeros {bs : List Byte} (h : ∀ b ∈ bs, b = 0) : bytesToNat bs = 0 := by
  induction bs with
  | nil => rfl
  | cons b r ih =>
    rw [bytesToNat, h b (by simp), ih fun b hb => h b (List.mem_cons_of_mem _ hb)]
    rfl

/-- A granule that was cleared reads zero at home. -/
theorem State.homeWord_zeroGranule {s : State} {va pa : Nat} (hpa : s.deskPa va = some pa)
    (hfits : pa + 8 ≤ s.memBytes) : (s.zeroGranule va).homeWord pa 8 = 0 := by
  have hmem : (s.zeroGranule va).mem = s.mem.write pa (natToBytes 8 0) := by
    simp only [State.zeroGranule, hpa]
    exact State.homeWrite_mem_fits _ pa _ hfits
  refine bytesToNat_zeros fun b hb => ?_
  obtain ⟨i, hi, rfl⟩ := List.mem_map.1 hb
  rw [hmem, Memory.byte_write, if_pos ⟨by omega, by simpa [natToBytes] using hi⟩, Nat.add_sub_cancel_left]
  have hzero : ∀ i < 8, (natToBytes 8 0).getD i 0 = 0 := by decide
  exact hzero i (List.mem_range.1 hi)

/-- One granule is all that up to 8 bytes take. -/
theorem granulesOf_one {a n : Nat} (ha : a ≠ 0) (h8 : a % 8 = 0) (hn : n ≠ 0) (hle : n ≤ 8) : granulesOf (a, n) = [a] := by
  have hcount : (n + 7) / 8 = 1 := by omega
  have hplace : a / 8 * 8 = a := by omega
  simp [granulesOf, ha, hcount, hplace]

/-- What MODNEW takes outside a trace is fresh, and one granule of it reads zero (R55). -/
theorem State.modnew_fresh {s : State} {n : Nat} (hb : s.beneath s.gang = false) (hn : n ≠ 0) (h0 : (s.modnew n).2 ≠ 0) :
    let r := s.modnew n
    s.ctx.modBase.toNat ≤ r.2 ∧ r.2 + n ≤ s.ctx.modBase.toNat + s.ctx.modRoom
      ∧ (∀ y ∈ s.ctx.allocs, y.stop ≤ r.2 ∨ r.2 + n ≤ y.addr)
      ∧ (∃ y, r.1.ctx.allocs = s.ctx.allocs ++ [y] ∧ y.addr = r.2 ∧ y.size = n ∧ y.trace = none)
      ∧ ∀ pa, n ≤ 8 → r.2 % 8 = 0 → s.deskPa r.2 = some pa → pa + 8 ≤ s.memBytes → r.1.homeWord pa 8 = 0 := by
  obtain ⟨a, hf, he⟩ := State.modnew_untraced hb hn h0
  rw [he] at h0 ⊢
  obtain ⟨hbase, hroom, hapart⟩ := State.findRoom_spec hf
  refine ⟨hbase, hroom, hapart, ⟨_, State.allocs_withAlloc hb a n, rfl, rfl, rfl⟩, fun pa hle h8 hpa hfits => ?_⟩
  show (s.withAlloc a n).homeWord pa 8 = 0
  rw [State.withAlloc, granulesOf_one h0 h8 hn hle]
  exact State.homeWord_zeroGranule ((s.deskPa_newAlloc a n a).trans hpa) hfits

/-! MODFREE (R323). -/

/-- MODFREE of nothing only goes on. -/
theorem execModfree_nothing {x : RRR} {s : State} {m : Mask}
    (hi : s.issues x.hdr .gang (traceFieldsOk s x && isS x.a && isSImm x.b && x.hdr.d == .absent) [] (abSrcs x) m)
    (hn : modBytes s x.b = 0) : exec (.modfree x) s = .next (s.advance x.hdr) :=
  (issue_of_issues _ hi).trans (if_pos hn)

/-- The state without the granules `lo` to `hi`. -/
def State.freed (s : State) (lo hi : Nat) : State :=
  { s with ctx := { s.ctx with allocs := s.ctx.allocs.flatMap fun y => y.minus lo hi } }

/-- MODFREE outside traces, of granules that are all allocated, takes them out of the allocations. -/
theorem execModfree_freed {x : RRR} {s : State} {m : Mask} {lo hi : Nat}
    (his : s.issues x.hdr .gang (traceFieldsOk s x && isS x.a && isSImm x.b && x.hdr.d == .absent) [] (abSrcs x) m)
    (hlo : (readGang s 0x1D 0 x.a).toNat / 8 * 8 = lo)
    (hhi : ((readGang s 0x1D 0 x.a).toNat + modBytes s x.b + 7) / 8 * 8 = hi)
    (hn : modBytes s x.b ≠ 0) (hm : s.gang.mode = .untraced) (ht : s.ctx.traces = [])
    (hown : ∀ i < (hi - lo) / 8, ∃ y ∈ s.ctx.allocs, y.addr ≤ lo + 8 * i ∧ lo + 8 * i < y.stop) :
    exec (.modfree x) s = .next ((s.freed lo hi).advance x.hdr) := by
  refine (issue_of_issues _ his).trans ?_
  extract_lets a n lo' hi' gs owner foreign touched held allocs
  obtain rfl : lo' = lo := hlo
  obtain rfl : hi' = hi := hhi
  have howned : (gs.any fun gr => (owner gr).isNone) = false := by
    simp only [gs, owner, List.any_map, List.any_eq_false, List.mem_range, Function.comp, Option.isNone_iff_eq_none,
      List.find?_eq_none]
    intro i h hnone
    obtain ⟨y, hy, hfrom, hto⟩ := hown i h
    exact hnone y hy (by simp [hfrom, hto])
  have hforeign : foreign = false := by simp [foreign, State.beneath_untraced hm]
  have htouched : touched = false := by simp [touched, ht]
  rw [if_neg hn, if_neg (by simp [howned]), if_neg (by simp [hforeign]), if_neg (by simp [htouched])]
  rfl

end Sys2Proof.Machine
end

section
namespace Sys2Proof.Machine
open Sys2Proof

/-! MODSET (R70, R324). -/

theorem isSome_foldl {α β : Type} (f : Option β → α → Option β) (hf : ∀ o a, (f o a).isSome = true) (xs : List α)
    (o : Option β) (h : o.isSome = true ∨ xs ≠ []) : (xs.foldl f o).isSome = true := by
  induction xs generalizing o with
  | nil => exact h.resolve_right fun h => h rfl
  | cons x xs ih => exact ih (f o x) (.inl (hf o x))

/-- Where the checks of all lanes pass, each lane's access is among those found. -/
theorem resolveAll_ok {m : Mask} {f : Nat → Except LaneErr LaneAcc} {accs : List LaneAcc}
    (h : resolveAll m f = .ok accs) : ∀ l ∈ m.lanes, ∃ a ∈ accs, f l = .ok a := by
  intro l hl
  unfold resolveAll at h
  extract_lets rs errs at h
  have hrs : (l, f l) ∈ rs := List.mem_map.2 ⟨l, hl, rfl⟩
  split at h
  next hnone =>
    obtain rfl := (Except.ok.inj h).symm
    have herrs : errs = [] := by
      by_contra hne
      refine Option.not_isSome_iff_eq_none.2 hnone (isSome_foldl _ (fun o e => ?_) errs none (.inr hne))
      cases o with
      | none => rfl
      | some b => dsimp only; split <;> rfl
    cases hf : f l with
    | ok a => exact ⟨a, List.mem_filterMap.2 ⟨_, hrs, by rw [hf]⟩, rfl⟩
    | error e =>
      have : (l, e) ∈ errs := List.mem_filterMap.2 ⟨_, hrs, by rw [hf]⟩
      rw [herrs] at this
      cases this
  next => cases h

theorem resolveAll_congr {m : Mask} {f g : Nat → Except LaneErr LaneAcc} (h : ∀ l ∈ m.lanes, f l = g l) :
    resolveAll m f = resolveAll m g := by
  have hrs : (m.lanes.map fun l => (l, f l)) = m.lanes.map fun l => (l, g l) :=
    List.map_congr_left fun l hl => by rw [h l hl]
  simp only [resolveAll, hrs]

/-- The accesses of a MODSET at its first issue, when all of them lie in modifiable memory. -/
theorem State.modsetAccs_fresh {s : State} {x : MFmt} {m : Mask} {accs : List LaneAcc} (hr : s.gang.path.reach = [])
    (h : (resolveAll m fun l => resolveLane s .gm (mWidth x.width) Need.store true l (mAddr s.gang x .gm l)) = .ok accs)
    (hmod : ∀ a ∈ accs, a.mod = true) : s.modsetAccs x m = .ok accs := by
  unfold State.modsetAccs
  extract_lets g n
  rw [if_neg (by simp [g, hr]), ← h]
  refine resolveAll_congr fun l hl => ?_
  obtain ⟨a, ha, he⟩ := resolveAll_ok h l hl
  rw [he]
  exact if_pos (hmod a ha)

@[simp] theorem State.bare_keep_carrel (s : State) (c va : Nat) (t : Translation) :
    (s.keep (.carrel c) va t).bare = s.bare := rfl

@[simp] theorem State.bare_keepAll (s : State) (accs : List LaneAcc) : (s.keepAll accs).bare = s.bare :=
  foldl_keeps _ _ (fun s _ => foldl_keeps _ _ (fun _ _ => State.bare_keep_carrel ..) _ s) _ _

@[simp] theorem State.bare_expel (s : State) (c pa n : Nat) (b : Bool) : (s.expel c pa n b).bare = s.bare := by
  simp [State.expel]

/-- The log in memory and the caches apart, a log that is written changes the table of logs alone. -/
theorem State.gang_setLogOf (s : State) (n : Nat) (l : OrderLog) : (s.setLogOf n l).gang = s.gang :=
  (State.gang_of_bare (State.bare_writeLogs (s.putLog n l))).trans rfl

/-- An access that passes the gate counts, and moves no task into or out of the gang. -/
theorem State.pack_of_gate {s t : State} {pa : Nat} (h : s.gate pa = .ok t) : t.gang.pack = s.gang.pack := by
  unfold State.gate State.gateAs at h
  extract_lets g n l sl counted held at h
  have hc : counted.gang.pack = s.gang.pack := by rw [State.modGang_gang]
  clear_value counted
  split at h
  · cases h; rfl
  · split at h
    · cases h; rw [State.gang_setLogOf]; exact hc
    · split at h
      · cases h
      · split at h
        · split at h
          · cases h; exact hc
          · exact absurd h (by simp [held])
        · split at h
          · cases h; exact hc
          · exact absurd h (by simp [held])
    · cases h; rfl

theorem Gang.pack_modPath (g : Gang) (f : Path → Path) : (g.modPath f).pack = g.pack :=
  (congrArg Gang.pack (g.offIssue_setPath (f g.path)) :)
theorem Gang.hash_modPath (g : Gang) (f : Path → Path) : (g.modPath f).hash = g.hash :=
  (congrArg Gang.hash (g.offIssue_setPath (f g.path)) :)

/-- A lane's store at home leaves a gang of one task a gang of one task. -/
theorem State.pack_of_modsetAt {s u : State} {lane va pa : Nat} {data : List Byte} (hp : s.gang.pack = [])
    (h : s.modsetAt lane va pa data = .ok u) : u.gang.pack = [] := by
  have hfront : (s.frontLane lane).gang.pack = [] := by
    rw [State.frontLane, State.modGang_gang, Gang.task_of_pack_nil _ hp, hp]
  unfold State.modsetAt at h
  extract_lets s1 g at h
  split at h
  · cases h
  · cases h
  next s2 hgate =>
    extract_lets s3 old s4 traces _ s5 at h
    cases h
    have h5 : s5.gang = s2.gang := by
      have h4 : s4.gang = s2.gang := State.gang_of_bare (by simp [s4, s3])
      simp only [s5]
      split
      · exact h4
      · exact h4
    rw [State.modPath, State.modGang_gang, Gang.pack_modPath, h5, State.pack_of_gate hgate]
    exact hfront

theorem pack_of_modsetLanes {s u : State} {data : Nat → List Byte} {accs : List LaneAcc} (hp : s.gang.pack = [])
    (h : modsetLanes s data accs = .ok u) : u.gang.pack = [] := by
  induction accs generalizing s with
  | nil => cases h; exact hp
  | cons a rest ih =>
    unfold modsetLanes at h
    extract_lets p held at h
    split at h
    · exact ih hp h
    · split at h
      · cases h
      · split at h
        · cases h
        · split at h
          · cases h
          · split at h
            · cases h
            · split at h
              next s1 hat => exact ih (State.pack_of_modsetAt hp hat) h
              next hno => exact absurd h (hno u)

/-- In a gang of one task every lane folds what it stores into that task's hash (R178). -/
theorem Gang.hash_foldStores (sp : Bool) (data : Nat → List Byte) (accs : List LaneAcc) {g : Gang} (hp : g.pack = []) :
    (g.foldStores sp accs data).hash = accs.foldl (fun h a => foldLane h sp (accVirtual a (data a.lane))) g.hash := by
  induction accs generalizing g with
  | nil => rfl
  | cons a rest ih =>
    have htask := g.task_of_pack_nil hp a.lane
    have hstep : g.foldStores sp (a :: rest) data
        = Gang.foldStores { g with hash := foldLane g.hash sp (accVirtual a (data a.lane)) } sp rest data := by
      simp only [Gang.foldStores, List.foldl_cons, htask]
    rw [hstep]
    exact ih (g := { g with hash := foldLane g.hash sp (accVirtual a (data a.lane)) }) hp

/-- The fields that MODSET accepts (R324). -/
def modsetOk (g : Gang) (x : MFmt) : Bool :=
  x.space == 0 && x.width.toNat ≤ 3 && mFieldsOk g x .gm && x.hint == 0 && !x.ext && x.hdr.d == .absent && !g.isShadow
    && (match x.idx with
      | .w _ | .absent => true
      | _ => false)
    && (match x.data with
      | .w i => wOk g (mWidth x.width = 8) i
      | _ => false)

/-- The state in which the lanes of a MODSET begin to store: the accesses are kept, what the carrel wrote is released. -/
def State.modsetBegun (s : State) (x : MFmt) (accs : List LaneAcc) : State :=
  ((s.keepAll accs).modPath fun p => { p with
    reach := heldLanes s.gang accs (fun l => bytesToNat (storeData s x.data (mWidth x.width) l)) fun _ => 0 }).release
    s.gang.carrel levelPackage

/-- A MODSET whose lanes have all stored ends in the state that they left, the hash folded. -/
theorem execModset_stored {x : MFmt} {s u : State} {m : Mask} {accs : List LaneAcc}
    (hi : s.issues x.hdr .lane (modsetOk s.gang x) [] (mSrcs x true (mWidth x.width = 8)) m)
    (ht : s.taskTraced = false) (hr : s.gang.path.reach = []) (haccs : s.modsetAccs x m = .ok accs)
    (hu : modsetLanes (s.modsetBegun x accs) (storeData s x.data (mWidth x.width)) accs = .ok u) :
    exec (.modset x) s = .next ((u.modGang fun g => (g.modPath fun p => { p with done := [] }).foldStores false accs
      (storeData s x.data (mWidth x.width))).advance x.hdr) := by
  refine (issue_of_issues _ hi).trans ?_
  rw [if_neg (by simp [ht]), haccs]
  simp only [hr, List.isEmpty_nil, if_true]
  rw [State.modsetBegun] at hu
  rw [hu]

theorem State.pack_modsetBegun {s : State} (h1 : s.oneTask) (x : MFmt) (accs : List LaneAcc) :
    (s.modsetBegun x accs).gang.pack = [] := by
  rw [State.modsetBegun, State.gang_of_bare (State.bare_release ..), State.modPath, State.modGang_gang,
    Gang.pack_modPath, State.gang_of_bare (State.bare_keepAll ..)]
  exact h1.2

end Sys2Proof.Machine
end

section
namespace Sys2Proof.Machine
open Sys2Proof

/-! TKEY (R327). -/

/-- TKEY in a gang of one task sets that task's salt. -/
theorem execTkey_issued {x : RRR} {s : State} {m : Mask}
    (hi : s.issues x.hdr .gang (traceFieldsOk s x && isSImm x.a && x.b == .absent && x.hdr.d == .absent) [] (abSrcs x) m)
    (hp : s.gang.packed = false) :
    exec (.tkey x) s = .next ((s.modGang fun g => { g with tkey := readGang s 0x1D 0 x.a }).advance x.hdr) := by
  refine (issue_of_issues _ hi).trans ?_
  simp only [State.modGang, Gang.inXm, hp]
  rfl

end Sys2Proof.Machine

open Sys2Proof Sys2Proof.Machine

/-- Settles O27: MODNEW by the place that the allocator finds, MODFREE by the owners of its granules, MODSET by what its
lanes leave (they move no task into or out of the gang, so that one hash folds them all), TKEY by its one write. -/
theorem modifiableInstructions : Obligations.ModifiableInstructions := by
  refine ⟨?modnew, fun s n hb hn h0 => State.modnew_fresh hb hn h0, ?modfree, ?modset, ?tkey⟩
  case modnew =>
    intro x s m hi r
    have hl := State.issuesActs.fieldsOk hi
    simp only [Bool.and_eq_true] at hl
    obtain ⟨i, hd⟩ := exists_s_of_isS hl.2
    refine ⟨_, execModnew_issued hi, ?_, ?_, ?_, ?_⟩
    · exact State.leave_clock ..
    · rw [hd]; exact launchedS_advance ..
    · exact State.leave_allocs ..
    · exact State.leave_mem ..
  case modfree =>
    intro x s m hi a n lo hi'
    refine ⟨fun hn => ⟨_, execModfree_nothing hi hn, wentOn_advance x.hdr rfl rfl rfl rfl rfl rfl, ?_⟩,
      fun hn hm ht hown => ⟨_, execModfree_freed hi rfl rfl hn hm ht hown,
        wentOn_advance (u := s.freed lo hi') x.hdr rfl rfl rfl rfl rfl rfl, ?_⟩⟩
    · exact State.leave_allocs ..
    · exact State.leave_allocs ..
  case modset =>
    intro x s m accs u n hi h1 ht hr haccs hmod hu
    refine ⟨_, execModset_stored hi ht hr (State.modsetAccs_fresh hr haccs hmod) hu, ?_, ?_, ?_, ?_⟩
    · exact State.leave_clock ..
    · exact State.leave_mem ..
    · exact State.leave_traces ..
    · have hpack : (u.gang.modPath fun p => { p with done := [] }).pack = [] := by
        rw [Gang.pack_modPath, pack_of_modsetLanes (s.pack_modsetBegun h1 x accs) hu]
      rw [State.advance_hash, State.modGang_gang, Gang.hash_foldStores false _ accs hpack, Gang.hash_modPath]
  case tkey =>
    intro x s m hi hp
    have hstand : (s.modGang fun g => { g with tkey := readGang s 0x1D 0 x.a }).stand = s.stand :=
      State.stand_modGang rfl rfl
    refine ⟨_, execTkey_issued hi hp, wentOn_advance x.hdr rfl rfl rfl rfl rfl hstand, ?_⟩
    rw [State.advance_tkey, State.modGang_gang]
end

section
namespace Sys2Proof.Machine
open Sys2Proof

/-! What an abandonment leaves (R60): where the paths stand, and of its trace what the handle still names. -/

/-- The traces, the current gang, and of each gang where its path stands and how it is split. -/
def State.course (s : State) : Table Trace × Nat × (Nat → Path × Option Split) :=
  (s.ctx.traces, s.cur, fun n => ((s.gangOf n).path, (s.gangOf n).split))

theorem State.course_of_bare {s t : State} (h : t.bare = s.bare) : t.course = s.course := (congrArg State.course h :)

theorem State.traceOf_of_course {s t : State} (h : t.course = s.course) (n : Nat) : t.traceOf n = s.traceOf n :=
  congrArg (fun c : Table Trace × Nat × (Nat → Path × Option Split) => Table.look c.1 n Trace.none) h

theorem State.stand_of_course {s t : State} (h : t.course = s.course) : t.stand = s.stand :=
  congrArg (fun c : Table Trace × Nat × (Nat → Path × Option Split) => c.2.2 c.2.1) h

/-- Every gang of the table is changed in other things. -/
theorem State.course_mapGangs {s t : State} (F : Gang → Gang) (hF : ∀ g, (F g).path = g.path ∧ (F g).split = g.split)
    (htr : t.ctx.traces = s.ctx.traces) (hc : t.cur = s.cur)
    (ht : t.ctx.gangs = s.ctx.gangs.map fun e => (e.1, F e.2)) : t.course = s.course := by
  refine Prod.ext htr (Prod.ext hc (funext fun n => ?_))
  show ((Table.look t.ctx.gangs n _).path, (Table.look t.ctx.gangs n _).split) = _
  rw [ht]
  exact Table.look_map_keeps (fun g : Gang => (g.path, g.split)) (fun e => (e.1, F e.2)) (fun _ => rfl)
    (fun e => Prod.ext (hF e.2).1 (hF e.2).2) ..

@[simp] theorem State.course_dropMember (s : State) (g : Gang) : (s.dropMember g).course = s.course := by
  unfold State.dropMember
  extract_lets n l
  split
  · rfl
  · exact (State.course_of_bare (State.bare_writeLogs (s.putLog n _))).trans rfl

@[simp] theorem State.course_leaveCellar (s : State) (g : Gang) : (s.leaveCellar g).course = s.course := by
  unfold State.leaveCellar
  extract_lets me leave
  split <;> rfl

@[simp] theorem State.course_dropParked (s : State) (a : Nat) : (s.dropParked a).course = s.course := rfl

theorem State.course_dropTasks (s : State) (dead : List Nat) : (s.dropTasks dead).course = s.course := by
  unfold State.dropTasks
  extract_lets s1 close room stays
  have h1 : s1.course = s.course := foldl_keeps _ _ (fun _ _ => by simp) _ _
  exact Eq.trans (State.course_mapGangs (s := s1) (Gang.mapTasks fun g => { g with puts := g.puts.filter stays })
    (fun _ => ⟨rfl, rfl⟩) rfl rfl rfl) h1

/-- The trace as an abandonment leaves it: a propagation under way waits to record the root afresh. -/
def Trace.abandoned (tr : Trace) : Trace :=
  if tr.state == .propagating then { tr.abandon with props := tr.active.toList ++ tr.props, active := Option.none }
  else tr.abandon

theorem Trace.abandoned_keeps (tr : Trace) : tr.abandoned.drop = tr.drop ∧ tr.abandoned.rootEnded = tr.rootEnded
    ∧ tr.abandoned.state = .abandoned ∧ tr.abandoned.folios = [] := by
  unfold Trace.abandoned; split <;> exact ⟨rfl, rfl, rfl, rfl⟩

theorem State.abandon_spec (s : State) (n : Nat) :
    (s.abandon n).traceOf n = (s.traceOf n).abandoned ∧ (s.abandon n).stand = s.stand := by
  unfold State.abandon
  extract_lets new flip lost waits
  split
  extract_lets s1 tr tr1
  have h1 : s1.course = s.course :=
    (State.course_dropTasks ..).trans (foldl_keeps _ _ (fun _ _ => State.course_dropParked ..) _ _)
  have hflip : ∀ g : Gang, (g.mapTasks flip).path = g.path ∧ (g.mapTasks flip).split = g.split := by
    intro g
    have hf : (flip g).path = g.path ∧ (flip g).split = g.split := by
      simp only [flip]; split
      · exact ⟨rfl, rfl⟩
      · split <;> exact ⟨rfl, rfl⟩
    exact hf
  have hcourse : ∀ u : State, u.ctx.gangs = s1.ctx.gangs.map (fun e => (e.1, e.2.mapTasks flip)) → u.cur = s1.cur →
      u.stand = s.stand := fun u hu hc =>
    (State.stand_of_course (State.course_mapGangs (s := s1) (t := { u with ctx := { u.ctx with traces := s1.ctx.traces } })
      (Gang.mapTasks flip) hflip rfl hc hu)).trans (State.stand_of_course h1)
  refine ⟨?_, hcourse _ rfl rfl⟩
  rw [← State.traceOf_of_course h1]
  exact (Table.look_put ..).trans (if_pos rfl)

/-! TDROP (R61, R326). -/

theorem perTask_unpacked {s : State} (hp : s.gang.packed = false) (h : Header) (b : Bool) (f : State → Result) :
    perTask h b f s = f s := by simp [perTask, hp]

/-- The trace is to be dropped. -/
def State.markDrop (s : State) (n : Nat) : State := s.setTraceOf n { s.traceOf n with drop := true }

theorem State.traceOf_markDrop (s : State) (n : Nat) : (s.markDrop n).traceOf n = { s.traceOf n with drop := true } :=
  (State.traceOf_setTraceOf ..).trans (if_pos rfl)

/-- A trace whose root has not ended is not released. -/
theorem State.dropIfDue_running {s : State} {n : Nat} (h : (s.traceOf n).rootEnded = false) : s.dropIfDue n = s := by
  simp [State.dropIfDue, h]

section
variable {x : RRR} {s : State} {m : Mask} {n : Nat}

/-- TDROP before the end of the root: the trace is marked, and abandoned where no PROPAGATE is ordered before. -/
theorem execTdrop_running
    (hi : s.issues x.hdr .gang (traceFieldsOk s x && isH x.a && x.b == .absent && x.hdr.d == .absent) [] (abSrcs x) m)
    (hp : s.gang.packed = false) (hn : s.namedTrace x.a = some n) (hr : (s.traceOf n).rootEnded = false) :
    exec (.tdrop x) s = .next (State.advance (if (s.traceOf n).props.isEmpty && (s.traceOf n).active.isNone
      then (s.markDrop n).abandon n else s.markDrop n) x.hdr) := by
  have hmark : ((s.markDrop n).traceOf n).rootEnded = false := by rw [State.traceOf_markDrop]; exact hr
  refine (perTask_unpacked hp x.hdr false (tdropTask x)).trans ?_
  rw [tdropTask, issue_of_issues _ hi, hn]
  dsimp -zeta only
  extract_lets tr s1 s2
  have h2 : s2 = if (s.traceOf n).props.isEmpty && (s.traceOf n).active.isNone
      then (s.markDrop n).abandon n else s.markDrop n := by
    simp only [s2, tr, hr]; rfl
  rw [h2]
  split
  · have hgone : (((s.markDrop n).abandon n).traceOf n).rootEnded = false := by
      obtain ⟨-, hroot, -⟩ := Trace.abandoned_keeps ((s.markDrop n).traceOf n)
      rw [((s.markDrop n).abandon_spec n).1, hroot, hmark]
    exact congrArg (fun u : State => Host.Outcome.next (u.advance x.hdr)) (State.dropIfDue_running hgone)
  · exact congrArg (fun u : State => Host.Outcome.next (u.advance x.hdr)) (State.dropIfDue_running hmark)

/-! TSTAT (R326). -/

theorem execTstat_issued
    (hi : s.issues x.hdr .gang (traceFieldsOk s x && isH x.a && isSImm x.b && isS x.hdr.d) [(x.hdr.d, false)] (abSrcs x) m)
    (hp : s.gang.packed = false) (hn : s.namedTrace x.a = some n) (h7 : modBytes s x.b ≤ 7) :
    exec (.tstat x) s = .next ((s.launchS x.hdr.d (s.header n (modBytes s x.b))).advance x.hdr) := by
  refine (perTask_unpacked hp x.hdr false (tstatTask x)).trans ?_
  rw [tstatTask, issue_of_issues _ hi]
  simp only [hn, if_neg (Nat.not_lt.2 h7)]

/-! PROPAGATE (R72, R325). -/

/-- The future of a propagation of trace n. -/
def State.propSlot (s : State) (n : Nat) : Slot :=
  { Slot.none with kind := 4, object := BitVec.ofNat 64 n, outstanding := 1, maker := s.serial }

/-- The propagation is queued, and its future open. -/
def State.propQueued (s : State) (n key : Nat) : State :=
  ((s.release s.gang.carrel levelPackage).openSlot key (s.propSlot n)).modTraceOf n fun y =>
    { y with props := y.props ++ [key] }

theorem execPropagate_issued {key : Nat} {i : BitVec 4} (hd : x.hdr.d = .h i)
    (hi : s.issues x.hdr .gang (traceFieldsOk s x && isH x.a && x.b == .absent) [(x.hdr.d, false)] (abSrcs x) m)
    (hp : s.gang.packed = false) (hn : s.namedTrace x.a = some n) (hdrop : (s.traceOf n).drop = false)
    (hkey : s.newSlot (wingOf s.gang.carrel) = some key) :
    exec (.propagate x) s = .next (((s.propQueued n key).giveHandle x.hdr.d key).advance x.hdr) := by
  refine (perTask_unpacked hp x.hdr false (propagateTask x)).trans ?_
  rw [propagateTask, issue_of_issues _ (State.issuesActs.mono hi fun h => by rw [h, hd]; rfl)]
  simp only [hn, hdrop, hkey]
  rfl

theorem State.slotOf_propQueued (s : State) (n key : Nat) : (s.propQueued n key).slotOf key =
    { s.propSlot n with used := true, generation := (s.slotOf key).generation } := by
  refine (State.slotOf_setSlotOf (s.release s.gang.carrel levelPackage) key key _).trans ?_
  rw [if_pos rfl, State.slotOf_of_bare (State.bare_release ..)]

theorem State.traceOf_propQueued (s : State) (n key : Nat) :
    ((s.propQueued n key).traceOf n).props = (s.traceOf n).props ++ [key] := by
  have h : ∀ u : State, u.bare = s.bare → ∀ y, (u.openSlot key y).traceOf n = s.traceOf n :=
    fun u hu _ => State.traceOf_of_bare hu n
  rw [State.propQueued, State.traceOf_modTraceOf_same, h _ (State.bare_release ..)]

theorem State.clock_propQueued (s : State) (n key : Nat) : (s.propQueued n key).clock = s.clock :=
  (State.clock_of_bare (State.bare_release s s.gang.carrel levelPackage) :)

theorem State.stand_propQueued (s : State) (n key : Nat) : (s.propQueued n key).stand = s.stand :=
  (congrArg State.stand (State.bare_release s s.gang.carrel levelPackage) :)

end

/-- The result in flight that brings a future's handle. -/
theorem State.gang_giveHandle (s : State) (i : BitVec 4) (key : Nat) :
    (s.giveHandle (.h i) key).gang
      = { s.gang.setHEmpty i true with flights := s.gang.flights ++ [s.handleFlight (.h i) key] } := by
  rw [State.giveHandle, State.modGang_gang, Gang.launch_handle _ rfl]
  rfl

theorem State.stand_giveHandle (s : State) (i : BitVec 4) (key : Nat) : (s.giveHandle (.h i) key).stand = s.stand := by
  rw [State.stand, State.gang_giveHandle]
  rfl

/-- A word that gives a handle leaves it on its way. -/
theorem handleComing_giveHandle (s : State) (i : BitVec 4) (key : Nat) (x : Header) :
    handleComing ((s.giveHandle (.h i) key).advance x) (.h i) (s.handleOf key) := by
  intro j hj
  cases hj
  have hg := (s.giveHandle (.h i) key).offIssue_advance x
  have he : ((s.giveHandle (.h i) key).advance x).gang.he = (s.giveHandle (.h i) key).gang.he := (congrArg Gang.he hg :)
  have hf : ((s.giveHandle (.h i) key).advance x).gang.flights = (s.giveHandle (.h i) key).gang.flights :=
    (congrArg Gang.flights hg :)
  rw [Gang.hEmpty, he, hf, State.gang_giveHandle]
  exact ⟨Gang.hEmpty_setHEmpty s.gang i, _, List.getLast?_concat, rfl, rfl, rfl, rfl⟩

end Sys2Proof.Machine

open Sys2Proof Sys2Proof.Machine

/-- Settles O28: PROPAGATE by the slot and the queue that it writes, TSTAT by the word that it launches, TDROP by whether a
PROPAGATE is ordered before; an abandonment moves no path (`abandon_spec`). -/
theorem traceInstructions : Obligations.TraceInstructions := by
  refine ⟨?propagate, ?tstat, ?tdrop⟩
  case propagate =>
    intro x s m i n key hd hi hp hn hdrop hkey
    refine ⟨_, execPropagate_issued hd hi hp hn hdrop hkey, ?_⟩
    rw [hd]
    have hslot : (((s.propQueued n key).giveHandle (.h i) key).advance x.hdr).slotOf key = (s.propQueued n key).slotOf key :=
      State.leave_slotOf ..
    have htrace : (((s.propQueued n key).giveHandle (.h i) key).advance x.hdr).traceOf n = (s.propQueued n key).traceOf n :=
      State.leave_traceOf ..
    have hstand : ((s.propQueued n key).giveHandle (.h i) key).stand = s.stand :=
      (State.stand_giveHandle ..).trans (s.stand_propQueued n key)
    have hhandle : (s.propQueued n key).handleOf key = handle 4 (s.slotOf key).generation key := by
      rw [State.handleOf, State.slotOf_propQueued]; rfl
    rw [hslot, htrace, State.slotOf_propQueued, State.traceOf_propQueued]
    refine ⟨?_, fun hf => State.advance_pc hstand hf x.hdr, ?_, rfl, rfl, rfl, rfl, rfl⟩
    · exact (State.leave_clock ..).trans (congrArg (· + 1) (s.clock_propQueued n key))
    · exact hhandle ▸ handleComing_giveHandle (s.propQueued n key) i key x.hdr
  case tstat =>
    intro x s m n hi hp hn h7
    have hl := State.issuesActs.fieldsOk hi
    simp only [Bool.and_eq_true] at hl
    obtain ⟨i, hd⟩ := exists_s_of_isS hl.2
    refine ⟨_, execTstat_issued hi hp hn h7, ?_⟩
    rw [hd]
    exact ⟨wentOn_advance x.hdr rfl rfl rfl rfl rfl (State.stand_launchS ..), launchedS_advance ..⟩
  case tdrop =>
    intro x s m n hi hp hn hr
    have he := execTdrop_running hi hp hn hr
    refine ⟨fun hprops => ?_, fun hprops hactive => ?_⟩
    · rw [if_neg (by simp [hprops])] at he
      refine ⟨_, he, wentOn_advance (u := s.markDrop n) x.hdr rfl rfl rfl rfl rfl rfl, ?_⟩
      rw [State.advance, State.leave_traceOf, State.traceOf_markDrop]
      exact ⟨rfl, rfl, rfl⟩
    · rw [if_pos (by simp [hprops, hactive])] at he
      obtain ⟨htrace, hstand⟩ := (s.markDrop n).abandon_spec n
      obtain ⟨hdrop, -, hstate, hfolios⟩ := Trace.abandoned_keeps ((s.markDrop n).traceOf n)
      refine ⟨_, he, ?_, fun hf => State.advance_pc (s := s) hstand hf x.hdr, ?_⟩
      · exact (State.leave_clock ..).trans
          (congrArg (· + 1) (State.clock_of_fixed (State.fixed_abandon (s.markDrop n) n)))
      · rw [State.advance, State.leave_traceOf, htrace, hdrop, hstate, hfolios, State.traceOf_markDrop]
        exact ⟨rfl, rfl, rfl⟩
end

section
namespace Sys2Proof.Machine
open Sys2Proof

/-! A new trace within the Archive's limit (R59, R60, R62). -/

theorem Table.put_put {α : Type} (t : Table α) (k : Nat) (v w : α) :
    Table.put (Table.put t k v) k w = Table.put t k w := by
  induction t with
  | nil => simp [Table.put]
  | cons e r ih =>
    obtain ⟨k', v'⟩ := e
    by_cases h : k = k'
    · simp [Table.put, h]
    · by_cases hlt : k < k' <;> simp [Table.put, h, hlt, ih]

/-- An entry that is put adds no more to a sum over the table than its own share. -/
theorem Table.sum_put_le {α : Type} (share : α → Nat) (t : Table α) (k : Nat) (v : α) :
    ((Table.put t k v : List (Nat × α)).map fun e => share e.2).sum
      ≤ ((t : List (Nat × α)).map fun e => share e.2).sum + share v := by
  induction t with
  | nil => simp [Table.put]
  | cons e r ih =>
    obtain ⟨k', v'⟩ := e
    by_cases h : k = k'
    · simp [Table.put, h]; omega
    · by_cases hlt : k < k'
      · simp [Table.put, h, hlt]; omega
      · simp [Table.put, h, hlt]; omega

/-- A trace that is put adds no more than its own bytes to the Archive region in use. -/
theorem State.archiveBytes_setTraceOf_le {s u : State} {n : Nat} {tr : Trace} (v : Trace)
    (ht : u.ctx.traces = Table.put s.ctx.traces n v) (hl : u.ctx.logs = s.ctx.logs) (hp : u.part = s.part) :
    (u.setTraceOf n tr).archiveBytes ≤ s.archiveBytes + tr.bytes := by
  have hsum := Table.sum_put_le (fun t : Trace => if t.live then t.bytes else 0) s.ctx.traces n tr
  have hshare : (if tr.live then tr.bytes else 0) ≤ tr.bytes := by split <;> omega
  have htraces : (u.setTraceOf n tr).ctx.traces = Table.put s.ctx.traces n tr := by
    rw [State.setTraceOf_ctx_traces, ht, Table.put_put]
  have hslices : (u.setTraceOf n tr).sliceCount = s.sliceCount := by
    simp only [State.sliceCount, State.wings, State.setTraceOf_part, hp]
  have hlogs : (u.setTraceOf n tr).ctx.logs = s.ctx.logs := hl
  simp only [State.archiveBytes, htraces, hslices, hlogs]
  omega

/-- The frame of a trace root (R59). -/
def Frame.recorded (f : Frame) (n : Nat) : Frame :=
  { f with trace := n, traced := true, mode := .recording, folio := 1 }

/-- The trace of this root records. -/
def Trace.recordsRoot (tr : Trace) (root : Nat) : Prop :=
  tr.live = true ∧ tr.state = .recording ∧ tr.rootFrame = root

/-- The bytes of a trace that has recorded nothing but its root's entry (R62, R65 to R68): header, folio with an empty run
and one unit of image, no node, 2^8 buckets. -/
theorem Trace.bytes_rootOnly {tr : Trace} {x : Folio} {im : EntryImage} (hs : tr.state = .recording)
    (hb : tr.buckets = 8) (hf : tr.folios = [(1, x)]) (hran : x.ran = false) (hrec : x.records = []) (hfresh : x.fresh = [])
    (him : x.image = some im) (hsize : im.size = 256) : tr.bytes = 1472 := by
  have hx : x.bytes = 384 := by simp [Folio.bytes, runBytes, hran, hfresh, him, hsize]
  have hn : tr.nodes = 0 := by simp [Trace.nodes, hf, hrec, hfresh]
  simp [Trace.bytes, hs, hb, hf, hx, hn]

/-- With fewer than 64 live traces and room in the Archive, a new trace records its root. -/
theorem State.newTrace_recording {s : State} (n root key : Nat) (hlive : s.liveTraces < 64)
    (hroom : s.archiveBytes + 4096 ≤ s.ctx.archiveMax) :
    ∃ tr0 tr : Trace, tr.recordsRoot root
      ∧ s.newTrace n root key = ((s.setTraceOf n tr0).modFrameOf root fun f => f.recorded n).setTraceOf n tr := by
  unfold State.newTrace
  extract_lets f _ tr0 full s1 _ _ s2 im _ x r
  have hfull : full = false := by simpa [full] using hlive
  rw [if_neg (by simp [hfull])]
  refine ⟨tr0, r.1, ⟨rfl, rfl, rfl⟩, ?_⟩
  have hbytes : r.1.bytes = 1472 := Trace.bytes_rootOnly rfl rfl rfl rfl rfl rfl rfl rfl
  have hle := State.archiveBytes_setTraceOf_le (s := s) (u := s2) (n := n) (tr := r.1) tr0 rfl rfl rfl
  exact if_neg (by rw [hbytes] at hle; show ¬ s.ctx.archiveMax < _; omega)

/-! TRECORD (R59, R312). -/

/-- The state in which TRECORD has made the root's frame, as a spawn of one child makes it. -/
def State.withRoot (s : State) (x : GFmt) (sh : Nat) : State :=
  s.withChild (spawnOf s x sh false 1) s.gang.sites (spawngChild s.gang x)

/-- The first free trace number. -/
def State.nextTrace (s : State) : Nat := freeTrace s.ctx.traces (s.ctx.traces.length + 1) 0

/-- The future that TRECORD opens (R207, R312): the trace holds it. -/
def State.traceSlot (s : State) : Slot :=
  { Slot.none with
    kind := 3, object := BitVec.ofNat 64 s.nextTrace, outstanding := 1, maker := s.serial, held := some s.nextTrace }

/-- The root's trace is there. -/
def State.rootTraced (s : State) (x : GFmt) (sh key : Nat) : State :=
  (s.withRoot x sh).newTrace s.nextTrace s.newFrame key

/-- The root's future is open, and the task awaits the root. -/
def State.rootOpened (s : State) (x : GFmt) (sh key : Nat) : State :=
  ((s.rootTraced x sh key).release s.gang.carrel (x.place.toNat % 4)).spawnOpened key s.traceSlot s.gang.frame 1

/-- The gang keeps the root in mind, and the word leaves with the handle on its way. -/
def State.rootSpawned (s u : State) (x : GFmt) (sh key : Nat) : State :=
  ((u.modGang fun g => g.spawnedKids [s.plainKid (spawngChild s.gang x)]).giveHandle x.hdr.d key).spawnDone x.hdr sh false

section
variable {x : GFmt} {s u : State} {m : Mask} {sh key : Nat}

/-- A TRECORD that issues, whose root's entry finds room, is done. -/
theorem execTrecord_entered (hi : s.issues x.hdr .gang (spawngOk s.gang x) [(x.hdr.d, false)] (spawngSrcs x) m)
    (hs : s.spawnsInto x sh key 1) (ht : s.taskTraced = false) (ho : s.owns (.archive s.ctx.number) = true)
    (hu : (s.rootOpened x sh key).enterAll s.gang.carrel (taskPuts sh [s.newFrame]) = (u, [])) :
    exec (.trecord x) s = .next (s.rootSpawned u x sh key) := by
  obtain ⟨h1, hpend, hmode, hrep, hsh, hnew, hframes, -, hhigh⟩ := hs
  refine (perTask_oneTask h1 x.hdr false (trecordTask x)).trans ?_
  rw [trecordTask, spawnIssue_none hpend, issue_of_issues _ hi, if_neg (by simp [ht, ho]), hsh, hnew]
  dsimp -zeta only
  extract_lets r deep
  have hdeep : deep = false := by simpa [deep] using hhigh
  rw [if_neg (by omega), State.spawnChild_plain ⟨hmode, hrep⟩]
  dsimp -zeta only
  extract_lets s2 s3 e s4 s5
  have he : e = (u, []) := hu
  rw [if_pos (by rw [he]; rfl)]
  simp only [s5, s4, he, hdeep]
  rfl

/-- The state without its frames and its traces. -/
def State.offRoot (s : State) : State := { s.offFrames with ctx := { s.offFrames.ctx with traces := [] } }

@[simp] theorem State.offRoot_setTraceOf (s : State) (n : Nat) (t : Trace) : (s.setTraceOf n t).offRoot = s.offRoot := rfl
@[simp] theorem State.offRoot_setFrameOf (s : State) (n : Nat) (f : Frame) : (s.setFrameOf n f).offRoot = s.offRoot := rfl
@[simp] theorem State.offRoot_withChild (s : State) (r : Spawn) (site : Nat) (c : Child) :
    (s.withChild r site c).offRoot = s.offRoot := rfl

theorem State.clock_of_offRoot {s t : State} (h : t.offRoot = s.offRoot) : t.clock = s.clock := (congrArg State.clock h :)
theorem State.gang_of_offRoot {s t : State} (h : t.offRoot = s.offRoot) : t.gang = s.gang := (congrArg State.gang h :)
theorem State.shelfOf_of_offRoot {s t : State} (h : t.offRoot = s.offRoot) (n : Nat) : t.shelfOf n = s.shelfOf n :=
  (congrArg (fun u : State => u.shelfOf n) h :)
theorem State.slotOf_of_offRoot {s t : State} (h : t.offRoot = s.offRoot) (n : Nat) : t.slotOf n = s.slotOf n :=
  (congrArg (fun u : State => u.slotOf n) h :)

/-- Frames and traces apart, the state in which the root's trace is there is as it was. -/
theorem State.rootTraced_spec (x : GFmt) (sh key : Nat) (hlive : s.liveTraces < 64)
    (hroom : s.archiveBytes + 4096 ≤ s.ctx.archiveMax) :
    let v := s.rootTraced x sh key
    v.clock = s.clock ∧ v.gang = s.gang ∧ v.shelfOf sh = s.shelfOf sh ∧ v.slotOf key = s.slotOf key
      ∧ (v.traceOf s.nextTrace).recordsRoot s.newFrame
      ∧ (v.frameOf s.newFrame).entryPc = s.pc + 12 * x.entry.signExtend 64 := by
  have hl : (s.withRoot x sh).liveTraces = s.liveTraces := rfl
  have hb : (s.withRoot x sh).archiveBytes = s.archiveBytes := rfl
  have hm : (s.withRoot x sh).ctx.archiveMax = s.ctx.archiveMax := rfl
  obtain ⟨tr0, tr, htr, he⟩ := (s.withRoot x sh).newTrace_recording s.nextTrace s.newFrame key (hl ▸ hlive)
    (by rw [hb, hm]; exact hroom)
  have hsame : (s.rootTraced x sh key).offRoot = s.offRoot := by
    rw [State.rootTraced, he]
    simp [State.modFrameOf_eq, State.withRoot]
  have hframe : (s.withRoot x sh).frameOf s.newFrame
      = s.plainFrame (spawnOf s x sh false 1) s.gang.sites (spawngChild s.gang x) := by
    rw [State.withRoot, State.frameOf_withChild, if_pos rfl]
  refine ⟨State.clock_of_offRoot hsame, State.gang_of_offRoot hsame, State.shelfOf_of_offRoot hsame sh,
    State.slotOf_of_offRoot hsame key, ?_, ?_⟩
  · rw [State.rootTraced, he, State.traceOf_setTraceOf, if_pos rfl]; exact htr
  · rw [State.rootTraced, he]
    refine (congrArg Frame.entryPc ((State.frameOf_setFrameOf ..).trans (if_pos rfl)) :).trans ?_
    exact (congrArg Frame.entryPc hframe :)

/-- So is the state in which its future is open, but for that slot. -/
theorem State.rootOpened_spec (x : GFmt) (sh key : Nat) (hlive : s.liveTraces < 64)
    (hroom : s.archiveBytes + 4096 ≤ s.ctx.archiveMax) :
    let v := s.rootOpened x sh key
    v.clock = s.clock ∧ v.gang = s.gang ∧ v.shelfOf sh = s.shelfOf sh
      ∧ v.slotOf key = { s.traceSlot with used := true, generation := (s.slotOf key).generation }
      ∧ (v.traceOf s.nextTrace).recordsRoot s.newFrame
      ∧ (v.frameOf s.newFrame).entryPc = s.pc + 12 * x.entry.signExtend 64 := by
  obtain ⟨hclock, hgang, hshelf, hslot, htrace, hentry⟩ := s.rootTraced_spec x sh key hlive hroom
  have hbare := (s.rootTraced x sh key).bare_release s.gang.carrel (x.place.toNat % 4)
  rw [State.rootOpened]
  generalize (s.rootTraced x sh key).release s.gang.carrel (x.place.toNat % 4) = w at hbare ⊢
  have hfixed : (w.spawnOpened key s.traceSlot s.gang.frame 1).fixed = w.fixed :=
    State.fixed_modFrameOf (w.openSlot key s.traceSlot) s.gang.frame
      (f := fun y => { y with awaiting := y.awaiting + 1 }) fun _ => rfl
  refine ⟨(State.clock_of_bare hbare).trans hclock, (State.gang_of_bare hbare).trans hgang,
    (State.shelfOf_of_bare hbare sh).trans hshelf, ?_, ?_, ?_⟩
  · rw [State.spawnOpened_slotOf, State.slotOf_of_bare hbare, hslot]
  · exact (State.traceOf_of_bare hbare s.nextTrace) ▸ htrace
  · refine (congrArg Prod.fst (State.frameStart_of_fixed hfixed s.newFrame)).trans ?_
    rw [State.frameOf_of_bare hbare]
    exact hentry

/-- The root's entry goes to its shelf, and nothing else changes. -/
theorem State.rootEntered (hs : s.spawnsInto x sh key 1) (hsame : (s.rootOpened x sh key).shelfOf sh = s.shelfOf sh) :
    ∃ u, (s.rootOpened x sh key).enterAll s.gang.carrel (taskPuts sh [s.newFrame]) = (u, [])
      ∧ u.offShelf = (s.rootOpened x sh key).offShelf ∧ (u.shelfOf sh).depth = (s.shelfOf sh).depth + 1 := by
  obtain ⟨-, -, -, -, -, -, -, hcap, -⟩ := hs
  have hputs : ∀ p ∈ taskPuts sh [s.newFrame], p.shelf = sh ∧ p.task = true := by
    intro p hp; obtain ⟨a, -, rfl⟩ := List.mem_map.1 hp; exact ⟨rfl, rfl⟩
  obtain ⟨u, hu, hoff, hdepth⟩ := State.enterAll_room (s := s.rootOpened x sh key) s.gang.carrel hputs
    (by rw [hsame]; exact hcap)
  exact ⟨u, hu, hoff, by rw [hdepth, hsame]; rfl⟩

theorem State.traceOf_rootSpawned (s u : State) {i : BitVec 4} (hd : x.hdr.d = .h i) (sh key n : Nat) :
    (s.rootSpawned u x sh key).traceOf n = u.traceOf n := by
  rw [State.rootSpawned, hd]
  exact State.leave_traceOf ..

end

theorem State.traceOf_of_offShelf {s t : State} (h : t.offShelf = s.offShelf) (n : Nat) : t.traceOf n = s.traceOf n :=
  (congrArg (fun u : State => u.traceOf n) h :)

end Sys2Proof.Machine

open Sys2Proof Sys2Proof.Machine

/-- Settles O22: the root is made as the one child of a spawn is, its trace fits the Archive (1472 bytes of the 4096 that
are free), and what follows (the release, the future, the entry on the shelf, the handle) touches neither. -/
theorem traceRootMade : Obligations.TraceRootMade := by
  intro x s m sh key i hd hi hs ht ho hlive hroom n
  obtain ⟨hclock, hgang, hshelf, hslot, htrace, hentry⟩ := s.rootOpened_spec x sh key hlive hroom
  obtain ⟨u, hu, hoff, hdepth⟩ := State.rootEntered hs hshelf
  obtain ⟨w, hw, hwg, hwc, -, hws, hwf, hwsh⟩ :=
    u.spawnDone_eq [s.plainKid (spawngChild s.gang x)] i key sh x.hdr
  have he : s.rootSpawned u x sh key = w.advance x.hdr := by rw [State.rootSpawned, hd, hw]
  have huslot : u.slotOf key = { s.traceSlot with used := true, generation := (s.slotOf key).generation } :=
    (State.slotOf_of_offShelf hoff key).trans hslot
  have hstand : w.stand = s.stand := by
    obtain ⟨hp, hsplit, -⟩ := u.doneGang_keeps [s.plainKid (spawngChild s.gang x)] i key
    rw [State.stand, hwg, hp, hsplit, State.gang_of_offShelf hoff, hgang]; rfl
  have hhandle : u.handleOf key = handle 3 (s.slotOf key).generation key := by rw [State.handleOf, huslot]; rfl
  obtain ⟨hlives, hstate, hroot⟩ : ((w.advance x.hdr).traceOf n).recordsRoot s.newFrame := by
    rw [← he, State.traceOf_rootSpawned s u hd, State.traceOf_of_offShelf hoff]; exact htrace
  refine ⟨_, execTrecord_entered hi hs ht ho hu, ?_⟩
  rw [he, hd]
  refine ⟨?_, fun hf => State.advance_pc hstand hf x.hdr, hhandle ▸ State.handleComing_advance x.hdr hwg, ?_, ?_, ?_, ?_,
    hlives, hstate, hroot, ?_, ?_⟩
  · rw [State.advance, State.leave_clock, hwc, State.clock_of_offShelf hoff, hclock]
  · rw [State.advance, State.leave_slotOf, hws, huslot]; rfl
  · rw [State.advance, State.leave_slotOf, hws, huslot]; rfl
  · rw [State.advance, State.leave_slotOf, hws, huslot]; rfl
  · rw [State.advance, State.leave_slotOf, hws, huslot]; rfl
  · rw [State.advance, State.leave_frameOf, hwf, State.frameOf_of_offShelf hoff, hentry]
  · rw [State.advance, State.leave_shelfOf, hwsh, hdepth]
end

section
namespace Sys2Proof.Machine
open Sys2Proof

/-! A held MODSET whose task is a member of a session although its REPLAYM reads OFF (R156, R160). -/

/-- The gang of such a task: nothing but its membership differs from a start. -/
def strayGang : Gang := { Gang.start 0x1000 1 with resident := true, member := true }

/-- Its MODSET of 4 bytes at 0x10000. -/
def straySet : HeldSet := { gang := 0, younger := false, lane := 0, va := 0x10000, pa := 0x10000, data := [1, 2, 3, 4] }

/-- Log 0 is replayed, and grants the task no strong access. -/
def strayState : State :=
  { State.reset with
    ctx := { Context.none with
      gangs := [(0, strayGang)], heldSets := [straySet], logs := [(0, { OrderLog.none with state := .replaying })] } }

/-- The order gate answers that the access diverges, which asserts the halt line. -/
theorem strayState_diverges :
    (match exec .modsetHeldCompare strayState with
      | .next t => t.halt
      | _ => .running) = .asserted := by decide +kernel

end Sys2Proof.Machine

open Sys2Proof Sys2Proof.Machine

/-- Refutes O29: the clause on the performed MODSET asks that REPLAYM reads OFF, where the order gate asks whether the task
is a member of a session, which the state keeps apart. For a member whose REPLAYM reads OFF, with a log that is replayed and
grants it no access, the MODSET diverges and the halt line is asserted (R156, R160). -/
theorem not_traceEvents : ¬ Obligations.TraceEvents := by
  rintro ⟨-, -, -, hperformed, -⟩
  obtain ⟨t, ht, -, -, hhalt, -⟩ := hperformed strayState straySet [] rfl rfl (by decide) rfl (by decide +kernel) rfl
    (by decide +kernel) (by decide +kernel) (by decide +kernel) (by decide)
  have hasserted := strayState_diverges
  rw [ht] at hasserted
  have hrunning : t.halt = .running := hhalt
  exact absurd (hrunning.symm.trans hasserted) (by decide)
end

section
namespace Sys2Proof.Machine
open Sys2Proof

/-! TRANSLATION_INVALIDATE (R138, R139). -/

@[simp] theorem State.bare_drainPages (s : State) (frames : List Nat) : (s.drainPages frames).bare = s.bare := by
  unfold State.drainPages
  extract_lets hit s1
  have hl2 : (s1.l2s.foldl (fun s e => e.2.lines.foldl (fun s l => if hit l.1 then s.lineHome e.1 l.1 else s) s) s1).bare
      = s1.bare :=
    foldl_keeps State.bare _ (fun s _ => foldl_keeps State.bare _ (fun _ _ => by split <;> simp) _ s) _ _
  have hl1 : s1.bare = s.bare :=
    foldl_keeps State.bare _ (fun s _ => foldl_keeps State.bare _ (fun _ _ => by split <;> simp) _ s) _ _
  exact hl2.trans hl1

theorem State.invalidate_halt (s : State) (va size : Nat) : (s.invalidate va size).halt = s.halt :=
  (State.halt_of_bare (s.bare_drainPages (s.oldFrames va size)) :)

/-- No L1 keeps a translation of the range. -/
theorem State.invalidate_tlb (s : State) (va size : Nat) {e : Nat × Cache} (he : e ∈ (s.invalidate va size).l1s)
    {x : Nat × Translation} (hx : x ∈ e.2.tlb) : pageIn va size x.1 = false := by
  obtain ⟨e0, -, rfl⟩ := List.mem_map.1 he
  simpa using (List.mem_filter.1 hx).2

/-- Nor does an engine. -/
theorem State.invalidate_engTlbs (s : State) (va size : Nat) {e : Nat × Table Translation}
    (he : e ∈ (s.invalidate va size).engTlbs) {x : Nat × Translation} (hx : x ∈ e.2) : pageIn va size x.1 = false := by
  obtain ⟨e0, -, rfl⟩ := List.mem_map.1 he
  simpa using (List.mem_filter.1 hx).2

@[simp] theorem State.drains_l1s (s : State) (va size : Nat) : (s.drains va size).l1s = s.l1s := by
  unfold State.drains; extract_lets frames; split <;> rfl
@[simp] theorem State.drains_engTlbs (s : State) (va size : Nat) : (s.drains va size).engTlbs = s.engTlbs := by
  unfold State.drains; extract_lets frames; split <;> rfl
@[simp] theorem State.drains_mem (s : State) (va size : Nat) : (s.drains va size).mem = s.mem := by
  unfold State.drains; extract_lets frames; split <;> rfl
@[simp] theorem State.drains_outstanding (s : State) (va size va' size' : Nat) :
    (s.drains va size).outstanding va' size' = s.outstanding va' size' := by
  unfold State.drains; extract_lets frames; split <;> rfl

/-- The physical pages that the outstanding accesses of a range reach. -/
def State.pagesReached (s : State) (va size : Nat) : List Nat :=
  ((s.outstanding va size).map fun e => e.2 / 65536).eraseDups

theorem State.mem_pagesReached {s : State} {va size : Nat} {a : Nat × Nat} (ha : a ∈ s.outstanding va size) :
    a.2 / 65536 ∈ s.pagesReached va size :=
  List.mem_eraseDups.2 (List.mem_map_of_mem ha)

/-- With an access outstanding, the invalidation is entered with those pages (R139). -/
theorem State.drains_unmaps {s : State} {va size : Nat} {a : Nat × Nat} (hhalt : s.halt = .running)
    (ha : a ∈ s.outstanding va size) :
    (s.drains va size).ctx.unmaps = s.ctx.unmaps ++ [⟨va, size, s.pagesReached va size⟩] := by
  unfold State.drains
  extract_lets frames
  have hne : frames.isEmpty = false := List.isEmpty_eq_false_iff_exists_mem.2 ⟨_, State.mem_pagesReached ha⟩
  rw [if_neg (by simp [hne, hhalt])]
  rfl

/-- Such an invalidation waits, and the page may not be used again. -/
theorem State.drains_waits {s : State} {va size : Nat} {a : Nat × Nat} (hhalt : s.halt = .running)
    (ha : a ∈ s.outstanding va size) :
    ∃ u ∈ (s.drains va size).ctx.unmaps, u.va = va ∧ u.size = size ∧ (s.drains va size).draining u = true
      ∧ (s.drains va size).reusable a.2 = false := by
  have hpage : (s.pagesReached va size).contains (a.2 / 65536) = true := by
    simpa using State.mem_pagesReached ha
  have hunmap : (⟨va, size, s.pagesReached va size⟩ : Unmap) ∈ (s.drains va size).ctx.unmaps := by
    simp [State.drains_unmaps hhalt ha]
  refine ⟨_, hunmap, rfl, rfl, ?_, ?_⟩
  · rw [State.draining, State.drains_outstanding]
    exact List.any_eq_true.2 ⟨a, ha, hpage⟩
  · rw [State.reusable, List.any_eq_true.2 ⟨_, hunmap, hpage⟩]
    rfl

/-- TRANSLATION_INVALIDATE empties the range from every unit, and waits for what is still to be performed. -/
theorem execTranslationInvalidate_drops (va size : Nat) (s : State) :
    ∃ t, execTranslationInvalidate va size s = .next t
      ∧ (∀ e ∈ t.l1s, ∀ x ∈ e.2.tlb, pageIn va size x.1 = false)
      ∧ (∀ e ∈ t.engTlbs, ∀ x ∈ e.2, pageIn va size x.1 = false)
      ∧ (s.halt = .running → ∀ a ∈ (s.invalidate va size).outstanding va size,
          ∃ u ∈ t.ctx.unmaps, u.va = va ∧ u.size = size ∧ t.draining u = true ∧ t.reusable a.2 = false) := by
  refine ⟨_, rfl, ?_, ?_, fun hhalt a ha => State.drains_waits ((s.invalidate_halt va size).trans hhalt) ha⟩
  · rw [State.drains_l1s]
    exact fun e he x hx => s.invalidate_tlb va size he hx
  · rw [State.drains_engTlbs]
    exact fun e he x hx => s.invalidate_engTlbs va size he hx

end Sys2Proof.Machine
end

section
namespace Sys2Proof.Machine
open Sys2Proof

/-! CODE_OBJECT_LOAD (R383 to R386). -/

/-- An object that can be placed and is refused changes nothing (R386). -/
theorem execCodeObjectLoad_refused {s : State} {o : CodeObject} (hmade : s.ctx.made = true) (hplace : s.canPlace o = true)
    (hrefused : s.loadRefused o = true) : execCodeObjectLoad o s = .next s := by
  simp [execCodeObjectLoad, hmade, hplace, hrefused]

/-- The pages of the object's sections. -/
def objectPages (o : CodeObject) : List PageMap :=
  sectionPages o.codeBase.toNat o.codePa o.code.length false true false
    ++ sectionPages o.dataBase.toNat o.dataPa o.data.length true false false
    ++ sectionPages o.modBase.toNat o.modPa o.modData.length true false true

/-- The sections of an object, with the relocations that `s` gives them, are written where they are placed. -/
def State.writeSections (s s1 : State) (o : CodeObject) : State :=
  ((s1.homeWrite o.codePa (s.patched o .code o.code)).homeWrite o.dataPa (s.patched o .data o.data)).homeWrite o.modPa
    (s.patched o .modifiable o.modData)

@[simp] theorem State.bare_writeSections (s s1 : State) (o : CodeObject) : (s.writeSections s1 o).bare = s1.bare := by
  simp [State.writeSections]

/-- One that is not refused is written once its pages are mapped, and its constants, tasks and exports are kept. -/
theorem execCodeObjectLoad_loaded {s s1 : State} {o : CodeObject} {rest : List Nat} (hmade : s.ctx.made = true)
    (hplace : s.canPlace o = true) (htaken : s.loadRefused o = false)
    (hmap : s.mapPages s.ctx.root (objectPages o) o.tables = some (s1, rest)) :
    ∃ t, execCodeObjectLoad o s = .next t ∧ t.mem = (s.writeSections s1 o).mem
      ∧ Table.seek t.ctx.codes (Table.fresh s1.ctx.codes) = some (s.loadedObject o) := by
  have hcodes : (s.writeSections s1 o).ctx.codes = s1.ctx.codes :=
    (congrArg (fun u : State => u.ctx.codes) (s.bare_writeSections s1 o) :)
  unfold execCodeObjectLoad
  rw [hmade, hplace, htaken]
  extract_lets pages
  rw [show s.mapPages s.ctx.root pages o.tables = _ from hmap]
  refine ⟨_, rfl, rfl, ?_⟩
  change Table.seek (Table.put (s.writeSections s1 o).ctx.codes (Table.fresh (s.writeSections s1 o).ctx.codes) _) _ = _
  rw [hcodes, Table.seek_put, if_pos rfl]

/-! Relocations (R385, R386, R387). -/

/-- The address that a relocation names: a label of a section that has one, or an imported symbol that is exported. -/
def State.relocNames (s : State) (o : CodeObject) (r : Reloc) (a : Nat) : Prop :=
  (∃ off, r.target = .label .code off ∧ a = o.codeBase.toNat + off)
    ∨ (∃ off, r.target = .label .data off ∧ a = o.dataBase.toNat + off)
    ∨ (∃ off, r.target = .label .modifiable off ∧ a = o.modBase.toNat + off)
    ∨ ∃ id, r.target = .symbol id ∧ o.imports.contains id = true ∧ s.symbolAt id = some a

theorem State.relocTarget_of_relocNames {s : State} {o : CodeObject} {r : Reloc} {a : Nat} (h : s.relocNames o r a) :
    s.relocTarget o r = some a := by
  unfold State.relocTarget
  obtain ⟨off, hr, rfl⟩ | ⟨off, hr, rfl⟩ | ⟨off, hr, rfl⟩ | ⟨id, hr, himport, hsymbol⟩ := h
  · rw [hr]; rfl
  · rw [hr]; rfl
  · rw [hr]; rfl
  · simpa [hr, hsymbol] using himport

/-- An address k words from the word of the field, where k fits 32 bits signed, has the offset k. -/
theorem offsetTo_eq {o : CodeObject} {at_ target : Nat} {k : Int} (hlow : -(2 ^ 31) ≤ k) (hhigh : k < 2 ^ 31)
    (hk : (target : Int) = ((o.codeBase.toNat + at_ / 12 * 12 : Nat) : Int) + 12 * k) :
    offsetTo o at_ target = some k := by
  unfold offsetTo
  extract_lets d
  have hd : d = 12 * k := by simp only [d, hk]; omega
  have hmod : d % 12 = 0 := by omega
  have hdiv : d / 12 = k := by omega
  rw [hmod, hdiv, if_pos (by simp only [hlow, hhigh, decide_true, Bool.and_self])]

/-- What a relocation writes, by its kind. -/
theorem State.relocBytes_of_relocNames {s : State} {o : CodeObject} {r : Reloc} {a : Nat} (h : s.relocNames o r a) :
    (r.kind = .hi → s.relocBytes o r = some (natToBytes 4 (a / 2 ^ 32 % 2 ^ 32)))
    ∧ (r.kind = .lo → s.relocBytes o r = some (natToBytes 4 (a % 2 ^ 32)))
    ∧ (r.kind = .address → s.relocBytes o r = some (natToBytes 8 a))
    ∧ (r.kind = .offset → ∀ k : Int, -(2 ^ 31) ≤ k → k < 2 ^ 31 →
        (a : Int) = ((o.codeBase.toNat + r.at_ / 12 * 12 : Nat) : Int) + 12 * k →
        s.relocBytes o r = some (natToBytes 4 (BitVec.ofInt 32 k).toNat)) := by
  unfold State.relocBytes
  rw [State.relocTarget_of_relocNames h, Option.bind_some]
  refine ⟨fun hkind => ?_, fun hkind => ?_, fun hkind => ?_, fun hkind k hlow hhigh hk => ?_⟩
  · rw [hkind]
  · rw [hkind]
  · rw [hkind]
  · rw [hkind, offsetTo_eq hlow hhigh hk]; rfl

end Sys2Proof.Machine
end

section
namespace Sys2Proof.Machine
open Sys2Proof

/-! PACKAGE_RESET (R390, R395). -/

/-- An image boots where its key, its signature and its version pass (R390). -/
theorem imageBoots_iff (x : BootImage) : imageBoots x = true ↔ sha256 x.key = (List.range 32).map Config.anchor
    ∧ hssVerifies x.key x.signature (signedBytes x) = true ∧ Config.rollback.toNat ≤ x.version.toNat := by
  simp only [imageBoots, Bool.and_eq_true, decide_eq_true_eq, and_assoc]

/-- A reset leaves no context, boots the image where it passes, keeps memory and measures the image. -/
theorem execPackageReset_boots (image : BootImage) {layout : Partition} (s : State) (hlayout : layoutOk layout = true) :
    ∃ t, execPackageReset image layout s = .next t ∧ t.ctx = Context.none ∧ t.saved = [] ∧ t.pages = []
      ∧ t.mem = s.mem ∧ t.halt = .running ∧ t.version = image.version ∧ t.part = layout ∧ t.recovery = !t.booted
      ∧ (t.booted = true ↔ imageBoots image = true)
      ∧ (t.booted = true → t.measurement = BitVec.ofNat 256 (bytesToNat (sha256 (signedBytes image)))) := by
  unfold execPackageReset
  extract_lets good
  rw [if_neg (by simp [hlayout])]
  exact ⟨_, rfl, rfl, rfl, rfl, rfl, rfl, rfl, rfl, rfl, Iff.rfl, fun hgood => if_pos hgood⟩

/-! CARREL_GATE and CARREL_WAKE (R399). -/

@[simp] theorem State.bare_emptyL1 (s : State) (l : Nat) : (s.emptyL1 l).bare = s.bare := by simp [State.emptyL1]

/-- An idle carrel that is awake is gated with its L1 empty. -/
theorem execCarrelGate_gated {s : State} {c : Nat} (hours : c ∈ s.carrels) (hawake : c ∉ s.gated)
    (hidle : s.gangsOn c = []) (hbooted : s.booted = true) :
    ∃ t, execCarrelGate c s = .next t ∧ c ∈ t.gated ∧ (t.cacheOf c).lines = [] ∧ t.ctx.gangs = s.ctx.gangs := by
  unfold execCarrelGate
  extract_lets fused s1
  have hlines : (s1.cacheOf c).lines = [] := by
    rw [State.cacheOf, State.l1s_flushL2]
    exact State.lines_emptyL1 _ c
  have hbare : s1.bare = s.bare := by
    simp only [s1, State.bare_flushL2, State.bare_emptyL1]
    split <;> simp
  have hgangs : s1.ctx.gangs = s.ctx.gangs :=
    (congrArg (fun u : State => u.ctx.gangs) hbare :)
  clear_value s1
  rw [if_neg (by simp [hours, hawake, hidle, hbooted])]
  exact ⟨_, rfl, List.mem_cons_self, hlines, hgangs⟩

/-- A carrel of the partition wakes, and nothing else changes. -/
theorem execCarrelWake_woken {s : State} {c : Nat} (hours : c ∈ s.carrels) :
    ∃ t, execCarrelWake c s = .next t ∧ c ∉ t.gated ∧ t.mem = s.mem ∧ t.ctx = s.ctx := by
  unfold execCarrelWake
  rw [if_pos (by simpa using hours)]
  exact ⟨_, rfl, by simp, rfl, rfl⟩

/-! ACCESS_TABLE_CHANGE (R394). -/

/-- The ranges let an access of these rights reach an address. -/
def rangesGrant (ranges : List AccessRange) (pa : Nat) (rd wr : Bool) : Bool :=
  ranges.any fun r => decide (r.base ≤ pa) && decide (pa < r.base + r.size) && (!rd || r.read) && (!wr || r.write)

/-- The memory table of an interface that replaces its old one is the one that grants. -/
theorem State.granted_of_access {s t : State} {vi : Nat} {x : Access} (hvi : x.vi = vi) (htarget : x.target = .memory)
    (ht : t.access = s.access.filter (fun a => !(decide (a.vi = vi) && a.target == .memory)) ++ [x]) (pa : Nat) (rd wr : Bool) :
    t.granted vi pa rd wr = rangesGrant x.ranges pa rd wr := by
  have hold : (s.access.filter fun a => !(a.vi = vi && a.target == .memory)).find?
      (fun a => a.vi = vi && a.target == .memory) = none :=
    List.find?_eq_none.2 fun a ha => by simpa [imp_iff_not_or] using (List.mem_filter.1 ha).2
  have hfind : t.access.find? (fun a => a.vi = vi && a.target == .memory) = some x := by
    rw [ht, List.find?_append, hold, Option.none_or, List.find?_cons_of_pos (by simp [hvi, htarget])]
  unfold State.granted
  rw [hfind]
  rfl

/-- An access table of memory is replaced; only where its interface holds the partition does what stands in the caches go
home first. -/
theorem execAccessTableChange_changed (s : State) {vi : Nat} {target : Target} {ranges : List AccessRange} (owner : Bool)
    (hfew : ranges.length ≤ 16) (hvi : vi < 1024) (htarget : target = .memory ∨ target = .llc) :
    ∃ t, execAccessTableChange vi target ranges owner s = .next t
      ∧ (s.ctx.made = false ∨ s.ctx.vi ≠ vi → t.mem = s.mem ∧ t.ctx = s.ctx)
      ∧ (s.ctx.made = true → s.ctx.vi = vi → t.mem = s.allHome.mem)
      ∧ ∀ pa rd wr, t.granted vi pa rd wr = rangesGrant ranges pa rd wr := by
  unfold execAccessTableChange
  extract_lets t1 rest s1
  have ht1 : t1 = .memory := by obtain rfl | rfl := htarget <;> rfl
  rw [if_neg (by simp; omega)]
  refine ⟨_, rfl, fun hother => ?_, fun hmade hown => ?_,
    State.granted_of_access (s := s) (x := ⟨vi, t1, ranges, owner⟩) rfl ht1 (by simp only [rest, ht1])⟩
  · have hs1 : s1 = s := if_neg (by obtain h | h := hother <;> simp [h])
    exact ⟨(congrArg State.mem hs1 :), (congrArg State.ctx hs1 :)⟩
  · have hs1 : s1 = s.allHome.drains 0 (2 ^ 57) := if_pos (by simp [ht1, hmade, hown])
    exact (congrArg State.mem hs1 :).trans (State.drains_mem ..)

end Sys2Proof.Machine

open Sys2Proof Sys2Proof.Machine

/-- Settles O50: each event of the Curator by its own rule. What leaves the caches changes neither the halt line nor the
gangs (`bare_drainPages`), so an invalidation and a gating are read off their last writes. -/
theorem curatorActions : Obligations.CuratorActions := by
  unfold Obligations.CuratorActions
  refine ⟨fun s va size => execTranslationInvalidate_drops va size s,
    fun s s1 o rest hmade hplace => ⟨fun hrefused => execCodeObjectLoad_refused hmade hplace hrefused,
      fun htaken hmap => execCodeObjectLoad_loaded hmade hplace htaken hmap⟩,
    fun s o r a hnames => State.relocBytes_of_relocNames hnames, fun s image layout hlayout => ?boot,
    fun s c hours => ⟨fun hawake hidle hbooted => execCarrelGate_gated hours hawake hidle hbooted, execCarrelWake_woken hours⟩,
    fun s vi target ranges owner hfew hvi htarget => execAccessTableChange_changed s owner hfew hvi htarget⟩
  case boot =>
    simp only [← imageBoots_iff]
    exact execPackageReset_boots image s hlayout
end

section
namespace Sys2Proof.Machine
open Sys2Proof

/-! The stop area (R114, R144): a run of bytes that memory holds, and what writes of other runs leave of it. -/

@[simp] theorem length_natToBytes (n v : Nat) : (natToBytes n v).length = n := by
  induction n generalizing v with
  | zero => rfl
  | succ n ih => simp [natToBytes, ih]

/-- Memory has the run of bytes from `a` on. -/
def Memory.holds (m : Memory) (a : Nat) (bs : List Byte) : Prop := ∀ i < bs.length, m.byte (a + i) = bs.getD i 0

theorem Memory.holds_write (m : Memory) (a : Nat) (bs : List Byte) : (m.write a bs).holds a bs := by
  intro i hi
  rw [Memory.byte_write, if_pos (by omega), Nat.add_sub_cancel_left]

/-- A run that stands stays as its first bytes are written again. -/
theorem Memory.holds_write_take {m : Memory} {a : Nat} {bs : List Byte} (h : m.holds a bs) (k : Nat) :
    (m.write a (bs.take k)).holds a bs := by
  intro i hi
  rw [Memory.byte_write, Nat.add_sub_cancel_left]
  split
  case isTrue hin =>
    have hik : i < (bs.take k).length := by omega
    rw [List.getD_eq_getElem _ _ hik, List.getElem_take, List.getD_eq_getElem _ _ hi]
  case isFalse => exact h i hi

theorem Memory.holds_write_apart {m : Memory} {a b : Nat} {bs cs : List Byte} (h : m.holds a bs)
    (hapart : b + cs.length ≤ a ∨ a + bs.length ≤ b) : (m.write b cs).holds a bs := by
  intro i hi
  rw [Memory.byte_write, if_neg (by omega), h i hi]

/-- A part of a run that stands is read as it is in the run. -/
theorem Memory.holds.read {m : Memory} {a : Nat} {bs : List Byte} (h : m.holds a bs) {off n : Nat}
    (hin : off + n ≤ bs.length) : m.read (a + off) n = (bs.drop off).take n := by
  refine List.ext_getElem (by simp [Memory.read]; omega) fun i hi hi' => ?_
  have hn : i < n := by simpa [Memory.read] using hi
  have hbyte : m.byte (a + (off + i)) = bs[off + i] :=
    (h (off + i) (by omega)).trans (List.getD_eq_getElem _ _ (by omega))
  simpa [Memory.read, Nat.add_assoc] using hbyte

theorem length_flatMap_range {α : Type} {f : Nat → List α} {k : Nat} (hf : ∀ i, (f i).length = k) (N : Nat) :
    ((List.range N).flatMap f).length = N * k := by
  simp [List.length_flatMap, hf]

/-- Where every part of a run has k bytes, part n is found n * k bytes on. -/
theorem take_drop_flatMap_range {α : Type} {f : Nat → List α} {k N n : Nat} (hf : ∀ i, (f i).length = k) (hn : n < N) :
    (((List.range N).flatMap f).drop (n * k)).take k = f n := by
  obtain ⟨r, rfl⟩ : ∃ r, N = n + (1 + r) := ⟨N - n - 1, by omega⟩
  have hparts : (List.range (n + (1 + r))).flatMap f
      = (List.range n).flatMap f ++ (f n ++ ((List.range r).map fun i => n + (1 + i)).flatMap f) := by
    simp [List.range_add, List.flatMap_append, Function.comp_def]
  rw [hparts, List.drop_left' (length_flatMap_range hf n), List.take_left' (hf n)]

/-! Stop records (R114, R144). -/

theorem length_stopRecord (wing n : Nat) (gen : Byte) (skid : Nat) (f : Option FaultInfo) :
    (stopRecord wing n gen skid f).length = 64 := by
  cases f <;> simp only [stopRecord, List.length_append, length_natToBytes]

/-- The skid that unit n of a wing reports. -/
def State.skidOf (s : State) (wing n : Nat) : Nat :=
  (Config.skid (s.free + wing * stopSlots + n)).toNat % (skidBound (stopUnit n).1 + 1)

theorem State.skidOf_le (s : State) (wing n : Nat) : s.skidOf wing n ≤ skidBound (stopUnit n).1 :=
  Nat.le_of_lt_succ (Nat.mod_lt _ (Nat.succ_pos _))

theorem State.length_wingRecords (s : State) (fs : List FaultInfo) (wing : Nat) :
    (s.wingRecords fs wing).length = 168 * 64 :=
  length_flatMap_range (fun _ => length_stopRecord ..) stopSlots

theorem State.wingRecords_slot (s : State) (fs : List FaultInfo) (wing : Nat) {n : Nat} (hn : n < 168) :
    ((s.wingRecords fs wing).drop (n * 64)).take 64
      = stopRecord wing n s.ctx.gen (s.skidOf wing n) (faultOf fs wing n) :=
  take_drop_flatMap_range (fun _ => length_stopRecord ..) hn

/-- Where a wing's records begin. -/
def State.wingStops (s : State) (wing : Nat) : Nat := s.ctx.stopBase.toNat + wing * stopSlots * 64

/-- The records of one wing are written. -/
def State.writeWing (s : State) (fs : List FaultInfo) (s' : State) (wing : Nat) : State :=
  s'.homeWrite (s.wingStops wing) (s.wingRecords fs wing)

theorem State.writeStops_eq (s : State) (fs : List FaultInfo) :
    s.writeStops fs = { s.wings.foldl (s.writeWing fs) s with
      free := (s.wings.foldl (s.writeWing fs) s).free + 16 * stopSlots } := rfl

@[simp] theorem State.bare_writeStops (s : State) (fs : List FaultInfo) : (s.writeStops fs).bare = s.bare :=
  (foldl_keeps State.bare (s.writeWing fs) (fun _ _ => State.bare_homeWrite ..) s.wings s :)

/-- The records of one wing leave those of each wing. -/
theorem State.holds_writeWing {s s' : State} {fs : List FaultInfo} {w : Nat}
    (h : s'.mem.holds (s.wingStops w) (s.wingRecords fs w)) (w' : Nat) :
    (s.writeWing fs s' w').mem.holds (s.wingStops w) (s.wingRecords fs w) := by
  rw [State.writeWing, State.homeWrite_mem]
  by_cases hw : w' = w
  · rw [hw]; exact Memory.holds_write_take h _
  · refine Memory.holds_write_apart h ?_
    rw [List.length_take, State.length_wingRecords, State.length_wingRecords]
    simp only [State.wingStops, stopSlots]
    omega

/-- Every wing's records stand, as far as the partition has memory there. -/
theorem State.holds_writeStops (s : State) (fs : List FaultInfo) {w : Nat} (hw : w ∈ s.wings)
    (hfits : s.wingStops w + 168 * 64 ≤ s.memBytes) :
    (s.writeStops fs).mem.holds (s.wingStops w) (s.wingRecords fs w) := by
  obtain ⟨before, after, hwings⟩ := List.append_of_mem hw
  have hbytes : (before.foldl (s.writeWing fs) s).memBytes = s.memBytes :=
    (congrArg State.memBytes (foldl_keeps State.bare (s.writeWing fs) (fun _ _ => State.bare_homeWrite ..) before s) :)
  have hmem : (s.writeStops fs).mem = ((before ++ w :: after).foldl (s.writeWing fs) s).mem := by
    rw [← hwings]; rfl
  rw [hmem, List.foldl_append, List.foldl_cons]
  refine mem_foldl (fun m => m.holds (s.wingStops w) (s.wingRecords fs w)) _ _ _
    (fun _ w' h => State.holds_writeWing h w') ?_
  rw [State.writeWing, State.homeWrite_mem_fits _ _ _ (by rw [State.length_wingRecords, hbytes]; exact hfits)]
  exact Memory.holds_write _ _ _

/-- Each unit's record is at its place (R144). -/
theorem State.read_writeStops (s : State) (fs : List FaultInfo) {w n : Nat} (hw : w ∈ s.wings) (hn : n < 168)
    (hfits : s.ctx.stopBase.toNat + (w + 1) * 168 * 64 ≤ s.memBytes) :
    (s.writeStops fs).mem.read (s.ctx.stopBase.toNat + (w * 168 + n) * 64) 64
      = stopRecord w n s.ctx.gen (s.skidOf w n) (faultOf fs w n) := by
  have hplace : s.ctx.stopBase.toNat + (w * 168 + n) * 64 = s.wingStops w + n * 64 := by
    simp only [State.wingStops, stopSlots]; omega
  have hholds := s.holds_writeStops fs hw (by simp only [State.wingStops, stopSlots]; omega)
  rw [hplace, hholds.read (by rw [State.length_wingRecords]; omega), State.wingRecords_slot s fs w hn]

/-- HALT_LINE (R144). -/
theorem execHaltLine_stopped {s : State} (hline : s.halt = .asserted) :
    ∃ t, execHaltLine s = .next t ∧ t.halt = .stopped ∧ t.faults = s.faults ∧ t.clock = s.clock
      ∧ t.mem = (s.writeStops s.faults).mem := by
  have hbare := s.bare_writeStops s.faults
  unfold execHaltLine
  rw [hline]
  exact ⟨_, rfl, rfl, (congrArg State.faults hbare :), (State.clock_of_bare hbare :), rfl⟩

end Sys2Proof.Machine
end

section
namespace Sys2Proof.Machine
open Sys2Proof

/-! What translating again what stands at a MODSET or MWAIT leaves (R138, R150): the clock, the context that holds the
partition, its tag, and the contexts that are saved. -/

/-- Who holds the partition and when. -/
def State.tenure (s : State) : Nat × Nat × Byte × List Nat × List Context :=
  (s.clock, s.ctx.number, s.ctx.gen, s.fused, s.saved)

theorem State.tenure_of_bare {s t : State} (h : t.bare = s.bare) : t.tenure = s.tenure := (congrArg State.tenure h :)

@[simp] theorem State.tenure_dropMember (s : State) (g : Gang) : (s.dropMember g).tenure = s.tenure := by
  unfold State.dropMember
  extract_lets n l
  split
  · rfl
  · exact (State.tenure_of_bare (State.bare_writeLogs (s.putLog n _))).trans rfl

@[simp] theorem State.tenure_leaveCellar (s : State) (g : Gang) : (s.leaveCellar g).tenure = s.tenure := by
  unfold State.leaveCellar
  extract_lets me leave
  split <;> rfl

theorem State.tenure_dropTasks (s : State) (dead : List Nat) : (s.dropTasks dead).tenure = s.tenure :=
  (foldl_keeps State.tenure (fun s a => (s.dropMember (s.waitingGang a)).leaveCellar (s.waitingGang a))
    (fun _ _ => by simp) dead s :)

theorem State.tenure_abandon (s : State) (t : Nat) : (s.abandon t).tenure = s.tenure := by
  unfold State.abandon
  extract_lets new flip lost waits
  split
  extract_lets s1 tr tr1
  have h1 : s1.tenure = s.tenure :=
    (State.tenure_dropTasks ..).trans (foldl_keeps State.tenure State.dropParked (fun _ _ => rfl) _ s)
  exact (h1 :)

theorem State.tenure_checkLimit (s : State) (t : Nat) : (s.checkLimit t).tenure = s.tenure := by
  unfold State.checkLimit
  split
  · exact State.tenure_abandon ..
  · rfl

theorem State.tenure_wakeOne (s : State) (f : Nat) (g : Gang) : (s.wakeOne f g).1.tenure = s.tenure := by
  unfold State.wakeOne
  extract_lets fr p captures _ g1 s1 s2
  have h1 : s1.tenure = s.tenure := by
    simp only [s1]
    split
    · exact State.tenure_checkLimit ..
    · rfl
  have h2 : s2.tenure = s1.tenure := (State.tenure_of_bare (State.bare_touch (s1.modFrameOf ..) ..) :)
  clear_value s2
  exact h2.trans h1

theorem State.tenure_wake (s : State) : s.wake.tenure = s.tenure := by
  unfold State.wake
  extract_lets waiting s1
  have hparked : s1.tenure = s.tenure := by
    refine foldl_keeps State.tenure _ (fun s f => ?_) _ _
    split
    next g _ =>
      split
      · extract_lets r
        have hr : r.1.tenure = s.tenure := State.tenure_wakeOne s f g
        clear_value r
        split <;> exact hr
      · rfl
    next => rfl
  refine (foldl_keeps State.tenure _ (fun s n => ?_) _ _).trans hparked
  extract_lets g
  split
  next r _ =>
    have hr : r.1.tenure = s.tenure := State.tenure_wakeOne s g.frame g
    clear_value r
    exact hr
  next => rfl

theorem State.tenure_seat {s t : State} {n : Nat} (h : s.seat n = some t) : t.tenure = s.tenure := by
  unfold State.seat at h
  split at h
  · split at h
    · cases h; rfl
    · cases h
  · obtain ⟨g, -, rfl⟩ := Option.map_eq_some_iff.1 h
    rfl

theorem State.bare_writeImage (s : State) (a : Nat) : (s.writeImage a).bare = s.bare := by
  unfold State.writeImage; split <;> simp

@[simp] theorem State.tenure_unseat (s : State) : s.unseat.tenure = s.tenure := by
  unfold State.unseat
  split
  · rfl
  · rw [State.tenure_wake, State.tenure_of_bare (State.bare_writeImage ..)]
    rfl

@[simp] theorem State.tenure_repath (s : State) (younger : Bool) : (s.repath younger).tenure = s.tenure := by
  unfold State.repath
  extract_lets s1 p waits size isDone left
  split
  · rfl
  · split
    next e _ => exact (foldl_keeps State.tenure State.logError (fun _ _ => rfl) e.bad s1 :)
    next accs _ => exact (State.tenure_of_bare (State.bare_keepAll s1 accs) :)

theorem State.tenure_repaths (s : State) : s.repaths.tenure = s.tenure := by
  unfold State.repaths
  extract_lets owners s1
  refine foldl_keeps State.tenure _ (fun s n => ?_) owners s
  split
  next t hseat =>
    extract_lets t1
    have ht1 : t1.tenure = s.tenure := (State.tenure_repath ..).trans (State.tenure_seat hseat)
    rw [State.tenure_unseat, ← ht1]
    split
    · exact State.tenure_repath ..
    · rfl
  next => rfl

/-- Where no path stands there is nothing to translate. -/
theorem State.repaths_of_noneStand {s : State} (h : s.ctx.noneStand) : s.repaths = s := by
  obtain ⟨hgangs, hparked⟩ := h
  have hg : (s.ctx.gangs.filter fun e => e.2.stands) = [] := List.filter_eq_nil_iff.2 fun e he => by simp [hgangs e he]
  have hp : (s.ctx.parked.filter fun e => e.2.stands) = [] := List.filter_eq_nil_iff.2 fun e he => by simp [hparked e he]
  unfold State.repaths
  rw [hg, hp]
  rfl

/-- The gangs go on with the next generation tag, and nothing else of the tenure changes. -/
theorem State.repaths_thaw_tenure (s : State) :
    s.repaths.thaw.tenure = (s.clock, s.ctx.number, s.ctx.gen + 1, s.fused, s.saved) := by
  have h := s.tenure_repaths
  simp only [State.tenure, Prod.mk.injEq] at h
  obtain ⟨hclock, hnumber, hgen, hfused, hsaved⟩ := h
  simp only [State.tenure, State.thaw, hclock, hnumber, hgen, hfused, hsaved]

end Sys2Proof.Machine
end

section
namespace Sys2Proof.Machine
open Sys2Proof

/-! CONTEXT_RESUME (R147). -/

/-- The context as it is before its gangs go on. -/
def State.answered (s : State) : State :=
  { s with
    halt := .running, faults := [],
    ctx := { s.ctx with grace := s.ctx.grace.map fun _ => 0, jobs := s.ctx.jobs.map fun e => (e.1, e.2.restart) } }

theorem State.resume_eq (s : State) : s.resume = s.answered.repaths.thaw := rfl

theorem State.resume_gen (s : State) : s.resume.ctx.gen = s.ctx.gen + 1 :=
  congrArg (·.2.2.1) s.answered.repaths_thaw_tenure

theorem State.resume_clock (s : State) : s.resume.clock = s.clock :=
  congrArg (·.1) s.answered.repaths_thaw_tenure

theorem State.resume_of_noneStand {s : State} (h : s.ctx.noneStand) : s.resume = s.answered.thaw := by
  rw [State.resume_eq, State.repaths_of_noneStand (s := s.answered) h]

theorem Path.thaw_pc (clock : Nat) (p : Path) : (p.thaw clock).pc = p.pc := by
  unfold Path.thaw; split <;> rfl

/-- As the gangs go on, each stands where it stood with the registers that it had. -/
theorem State.gangOf_thaw (s : State) (n : Nat) :
    (s.thaw.gangOf n).p0.pc = (s.gangOf n).p0.pc ∧ (s.thaw.gangOf n).w = (s.gangOf n).w
      ∧ (s.thaw.gangOf n).s = (s.gangOf n).s := by
  have h : ((s.thaw.gangOf n).p0.pc, (s.thaw.gangOf n).w, (s.thaw.gangOf n).s)
      = ((s.gangOf n).p0.pc, (s.gangOf n).w, (s.gangOf n).s) :=
    Table.look_map_keeps (fun g : Gang => (g.p0.pc, g.w, g.s)) (fun e => (e.1, e.2.thaw s.clock)) (fun _ => rfl)
      (fun e => Prod.ext (Path.thaw_pc ..) rfl) ..
  simpa only [Prod.mk.injEq] using h

theorem execContextResume_running {s : State} (hstopped : s.halt = .stopped) :
    ∃ t, execContextResume s = .next t ∧ t.ctx.gen = s.ctx.gen + 1 ∧ t.clock = s.clock
      ∧ (s.ctx.noneStand → t.halt = .running ∧ t.faults = [] ∧ t.mem = s.mem
          ∧ t.ctx.frames = s.ctx.frames ∧ t.ctx.slots = s.ctx.slots
          ∧ ∀ n, (t.gangOf n).p0.pc = (s.gangOf n).p0.pc ∧ (t.gangOf n).w = (s.gangOf n).w
              ∧ (t.gangOf n).s = (s.gangOf n).s) := by
  refine ⟨s.resume, by rw [execContextResume, hstopped]; rfl, s.resume_gen, s.resume_clock, fun hnone => ?_⟩
  rw [State.resume_of_noneStand hnone]
  exact ⟨rfl, rfl, rfl, rfl, rfl, s.answered.gangOf_thaw⟩

/-! CONTEXT_TERMINATE (R147). -/

@[simp] theorem State.bare_allHome (s : State) : s.allHome.bare = s.bare :=
  (foldl_keeps State.bare _ (fun _ _ => State.bare_flushL2 ..) _ _).trans
    (foldl_keeps State.bare _ (fun _ _ => State.bare_flushL1 ..) _ _)

/-- Every part that is neither memory's nor the caches' is kept; the translations of the engines go. -/
theorem State.bare_emptyCaches (s : State) : s.emptyCaches.bare = { s with engTlbs := [] }.bare :=
  (congrArg (fun u : State => { u with engTlbs := [] }.bare) s.bare_allHome :)

/-- What is left of a context that has failed with the fault: its open launches' completion words. -/
def State.terminated (s : State) (f : FaultInfo) : State :=
  { (((s.ctx.launches.filter fun e => !e.2.done).foldl
      (fun s e => s.completionWord e.2.completion (abortWord f.kind)) s).emptyCaches) with
    ctx := Context.none, halt := .running, faults := [] }

theorem State.terminated_saved (s : State) (f : FaultInfo) : (s.terminated f).saved = s.saved :=
  (congrArg State.saved (State.bare_emptyCaches _) :).trans
    (congrArg State.saved (foldl_keeps State.bare _ (fun _ _ => State.bare_completionWord ..) _ s) :)

theorem execContextTerminate_ended {s : State} (hstopped : s.halt = .stopped) (hfaults : s.faults ≠ []) :
    ∃ t, execContextTerminate s = .next t ∧ t.halt = .running ∧ t.faults = [] ∧ t.ctx = Context.none
      ∧ t.saved = s.saved := by
  obtain ⟨f, fs, hf⟩ := List.exists_cons_of_ne_nil hfaults
  refine ⟨s.terminated f, ?_, rfl, rfl, rfl, s.terminated_saved f⟩
  rw [execContextTerminate, hstopped, hf]
  rfl

/-! TRACE_FAULT_RESPONSE (R85). -/

theorem execTraceFaultResponse_rewrite {s : State} (hstopped : s.halt = .stopped) {n : Nat} (htrace : s.traceFault = some n)
    (hkind : (s.faults.head?.map (·.kind)) = some Code.traceRewrite) :
    execTraceFaultResponse s = .next (s.abandon n).resume := by
  obtain ⟨f, hf, hk⟩ := Option.map_eq_some_iff.1 hkind
  simp [execTraceFaultResponse, hstopped, htrace, hf, hk]

theorem execTraceFaultResponse_other {s : State} (hstopped : s.halt = .stopped) {n : Nat} (htrace : s.traceFault = some n)
    (hkind : (s.faults.head?.map (·.kind)) ≠ some Code.traceRewrite) :
    execTraceFaultResponse s = .next ((s.discardRuns n).abandon n).resume := by
  cases hf : s.faults.head? with
  | none => simp [execTraceFaultResponse, hstopped, htrace, hf]
  | some f =>
    have hk : f.kind ≠ Code.traceRewrite := by simpa [hf] using hkind
    simp [execTraceFaultResponse, hstopped, htrace, hf, hk]

end Sys2Proof.Machine

open Sys2Proof Sys2Proof.Machine

/-- Settles O47: the stop records by the run of bytes that each wing writes, which no other wing's run reaches; the
Curator's answers by what `repaths` leaves, which is everything where no path stands. -/
theorem haltAndAnswer : Obligations.HaltAndAnswer := by
  unfold Obligations.HaltAndAnswer
  refine ⟨fun s hline => ?line, fun s hstopped => ⟨execContextResume_running hstopped, execContextTerminate_ended hstopped,
    fun _ => execTraceFaultResponse_rewrite hstopped, fun _ => execTraceFaultResponse_other hstopped⟩⟩
  case line =>
    obtain ⟨t, ht, hhalt, hfaults, hclock, hmem⟩ := execHaltLine_stopped hline
    refine ⟨t, ht, hhalt, hfaults, hclock, fun w hw hfits n hn => ⟨s.skidOf w n, s.skidOf_le w n, ?_⟩⟩
    rw [hmem]
    exact s.read_writeStops s.faults hw hn hfits
end

section
namespace Sys2Proof.Machine
open Sys2Proof

/-! SLICE_END (R148, R153). -/

/-- W as the Curator leaves it or sets it (R148). -/
theorem State.setWindow_window (s : State) :
    (s.choice = 0 → s.setWindow.window = s.window) ∧ (∀ k < 256, s.choice = k + 1 → s.setWindow.window = 256 * k)
      ∧ (s.choice ≠ 0 → s.setWindow.window % 256 = 0 ∧ s.setWindow.window ≤ 65280) := by
  have hw : s.setWindow.window = if s.choice = 0 then s.window else 256 * ((s.choice - 1) % 256) := rfl
  rw [hw]
  refine ⟨fun h => if_pos h, fun k hk h => ?_, fun h => ?_⟩
  · rw [if_neg (by omega), h, Nat.add_sub_cancel, Nat.mod_eq_of_lt hk]
  · rw [if_neg h]; omega

theorem execSliceEnd_window {s : State} (hmade : s.ctx.made = true) (hrun : s.halt = .running) (hgrace : s.ctx.grace = none) :
    execSliceEnd s = .next s.setWindow.openWindow := by
  simp [execSliceEnd, hmade, hrun, hgrace]

/-- The status word is all that the slice sets of the context (R153). -/
theorem Context.slice_eq (x : Context) (w : Nat) : ∃ cstat, x.slice w = { x with cstat := cstat } :=
  ⟨_, by unfold Context.slice; rfl⟩

theorem State.openWindow_gangs (s : State) : s.openWindow.ctx.gangs = s.ctx.gangs := by
  obtain ⟨cstat, h⟩ := s.ctx.slice_eq s.window
  unfold State.openWindow
  rw [h]

/-! GRACE_WINDOW_CLOSE (R149 to R151). -/

/-- A context of which only what `bare` leaves out differs. -/
theorem State.ctx_of_bare {s t : State} (h : t.bare = s.bare) :
    t.ctx = { s.ctx with watches := t.ctx.watches, residents := t.ctx.residents, carrels := t.ctx.carrels } :=
  (congrArg (fun u : State =>
    { u.ctx with watches := t.ctx.watches, residents := t.ctx.residents, carrels := t.ctx.carrels }) h :)

/-- The partition as its context is saved: records written, gangs frozen, lines and frames home. -/
def State.closed (s : State) : State := ((s.writeStops []).freeze).emptyCaches.framesHome

theorem State.closeWindow_eq (s : State) : s.closeWindow =
    { s.closed with saved := s.closed.saved ++ [s.closed.ctx.image s.closed.fused], ctx := Context.none } := rfl

/-- Memory and caches apart, the gangs are frozen and nothing else changes. -/
theorem State.bare_closed (s : State) : s.closed.bare = { s.freeze with engTlbs := [] }.bare :=
  calc s.closed.bare
    _ = ((s.writeStops []).freeze).emptyCaches.bare :=
        foldl_keeps State.bare _ (fun _ _ => State.bare_deskWrite ..) _ _
    _ = { (s.writeStops []).freeze with engTlbs := [] }.bare := State.bare_emptyCaches _
    _ = { s.freeze with engTlbs := [] }.bare :=
        (congrArg (fun u : State => { u.freeze with engTlbs := [] }.bare) (s.bare_writeStops []) :)

theorem execGraceWindowClose_closed {s : State} {d : Nat} (hgrace : s.ctx.grace = some d) (hdue : d ≤ s.clock)
    (hrun : s.halt = .running) (hlaunches : s.launchesDue = []) : execGraceWindowClose s = .next s.closeWindow := by
  simp [execGraceWindowClose, hgrace, hdue, hrun, hlaunches]

/-- What the saved context holds (R151). -/
theorem State.closeWindow_saves (s : State) :
    ∃ x, s.closeWindow.ctx = Context.none ∧ s.closeWindow.saved = s.saved ++ [x] ∧ s.closeWindow.halt = s.halt
      ∧ x.number = s.ctx.number ∧ x.gen = s.ctx.gen ∧ x.grace = none ∧ x.fusedAt = s.fused
      ∧ x.frames = s.ctx.frames ∧ x.slots = s.ctx.slots ∧ x.shelves = s.ctx.shelves ∧ x.jobs = s.ctx.jobs
      ∧ x.traces = s.ctx.traces ∧ x.logs = s.ctx.logs
      ∧ x.gangs = s.ctx.gangs.map fun e => (e.1, e.2.freeze s.clock) := by
  have hbare := s.bare_closed
  have hsaved : s.closed.saved = s.saved := (congrArg State.saved hbare :)
  have hhalt : s.closed.halt = s.halt := (congrArg State.halt hbare :)
  have hfused : s.closed.fused = s.fused := (congrArg State.fused hbare :)
  have hctx := State.ctx_of_bare hbare
  rw [State.closeWindow_eq]
  generalize s.closed = u at hsaved hhalt hfused hctx
  rw [hsaved, hctx]
  exact ⟨_, rfl, rfl, hhalt, rfl, rfl, rfl, hfused, rfl, rfl, rfl, rfl, rfl, rfl, rfl⟩

/-! CONTEXT_RESTORE (R151). -/

/-- The saved context holds the partition under this status word, its gangs in their slots, before they go on. -/
def State.reinstated (s : State) (x : Context) (cstat : DWord) : State :=
  let x1 : Context := { x with cstat := cstat, gangs := x.gangs.map fun e => (e.1, e.2.unsave), fusedAt := [] }
  { s with
    ctx := x1, saved := s.saved.filter fun y => y.number != x.number, fused := x.fusedAt,
    gated := s.gated.filter fun c => !x1.gangs.any fun e => e.2.resident && e.2.carrel = c }

theorem State.restore_eq (s : State) (x : Context) : ∃ cstat, s.restore x = (s.reinstated x cstat).repaths.thaw := by
  obtain ⟨cstat, h⟩ := x.slice_eq s.window
  refine ⟨cstat, ?_⟩
  unfold State.restore
  rw [h]
  rfl

theorem State.restore_tenure (s : State) (x : Context) : (s.restore x).tenure =
    (s.clock, x.number, x.gen + 1, x.fusedAt, s.saved.filter fun y => y.number != x.number) := by
  obtain ⟨cstat, h⟩ := s.restore_eq x
  rw [h]
  exact (s.reinstated x cstat).repaths_thaw_tenure

theorem Gang.stands_unsave (g : Gang) : g.unsave.stands = g.stands := by
  unfold Gang.unsave; split <;> rfl

theorem State.reinstated_noneStand {x : Context} (h : x.noneStand) (s : State) (cstat : DWord) :
    (s.reinstated x cstat).ctx.noneStand := by
  obtain ⟨hgangs, hparked⟩ := h
  refine ⟨fun e he => ?_, hparked⟩
  obtain ⟨e0, he0, rfl⟩ := List.mem_map.1 he
  exact (Gang.stands_unsave _).trans (hgangs e0 he0)

theorem execContextRestore_restored {s : State} {n : Nat} {x : Context} (hmade : s.ctx.made = false) (hrun : s.halt = .running)
    (hrec : s.recovery = false) (hx : (s.saved.find? fun y => y.number = n) = some x) :
    execContextRestore n s = .next (s.restore x) := by
  simp [execContextRestore, hmade, hrun, hrec, hx]

/-- Where no path stands, the tables are as saved and the gangs go on. -/
theorem State.restore_of_noneStand {x : Context} (h : x.noneStand) (s : State) :
    (s.restore x).mem = s.mem ∧ (s.restore x).ctx.frames = x.frames ∧ (s.restore x).ctx.slots = x.slots
      ∧ (s.restore x).ctx.carrels = x.carrels
      ∧ (s.restore x).ctx.gangs = x.gangs.map (fun e => (e.1, e.2.unsave.thaw s.clock)) := by
  obtain ⟨cstat, he⟩ := s.restore_eq x
  rw [he, State.repaths_of_noneStand (State.reinstated_noneStand h s cstat)]
  exact ⟨rfl, rfl, rfl, rfl, List.map_map⟩

end Sys2Proof.Machine

open Sys2Proof Sys2Proof.Machine

/-- Settles O48: the window by its two sources; the saved context by what the close leaves, memory and caches apart
(`State.bare_closed`); the restored one by what `repaths` leaves. -/
theorem contextSwitch : Obligations.ContextSwitch := by
  unfold Obligations.ContextSwitch
  refine ⟨fun s hmade hrun hgrace => ?slice, fun s d hgrace hdue hrun hlaunches => ?close,
    fun s n x hmade hrun hrec hx => ?restore⟩
  case slice =>
    obtain ⟨hleft, hset, hbounds⟩ := s.setWindow_window
    exact ⟨_, _, execSliceEnd_window hmade hrun hgrace, rfl, rfl, hleft, hset, hbounds,
      s.setWindow.openWindow_gangs, rfl, rfl⟩
  case close =>
    obtain ⟨x, hctx, hsaved, hhalt, hx⟩ := s.closeWindow_saves
    exact ⟨_, x, execGraceWindowClose_closed hgrace hdue hrun hlaunches, hctx, hsaved, hhalt.trans hrun, hx⟩
  case restore =>
    have hn : x.number = n := by simpa using List.find?_some hx
    have htenure := s.restore_tenure x
    simp only [State.tenure, Prod.mk.injEq] at htenure
    obtain ⟨-, hnumber, hgen, hfused, hsaved⟩ := htenure
    refine ⟨_, execContextRestore_restored hmade hrun hrec hx, hnumber.trans hn, hgen, hfused,
      fun hnone => State.restore_of_noneStand hnone s, fun y hy => ?_⟩
    rw [hsaved] at hy
    simpa [hn] using (List.mem_filter.1 hy).2
end

section
namespace Sys2Proof.Machine
open Sys2Proof

/-! Order logs after updates (R158). -/

theorem State.logOf_of_bare {s t : State} (h : t.bare = s.bare) (n : Nat) : t.logOf n = s.logOf n :=
  (congrArg (fun u : State => u.logOf n) h :)

@[simp] theorem State.logOf_putLog (s : State) (n : Nat) (l : OrderLog) : (s.putLog n l).logOf n = l :=
  (Table.look_put ..).trans (if_pos rfl)

@[simp] theorem State.logOf_setLogOf (s : State) (n : Nat) (l : OrderLog) : (s.setLogOf n l).logOf n = l :=
  (State.logOf_of_bare (State.bare_writeLogs (s.putLog n l)) n).trans (s.logOf_putLog n l)

@[simp] theorem State.clock_setLogOf (s : State) (n : Nat) (l : OrderLog) : (s.setLogOf n l).clock = s.clock :=
  (State.clock_of_bare (State.bare_writeLogs (s.putLog n l)) :)

@[simp] theorem State.logOf_modGang (s : State) (f : Gang → Gang) (n : Nat) : (s.modGang f).logOf n = s.logOf n := rfl

@[simp] theorem State.logOf_advance (s : State) (h : Header) (n : Nat) : (s.advance h).logOf n = s.logOf n :=
  (State.logOf_of_bare s.bare_issuedOne n :)

/-! What an access and a departure leave in a log (R156, R159, R160). -/

theorem OrderLog.list_record {l : OrderLog} (ht : l.truncated = false) (slice f : Nat) :
    (l.record false slice f).list slice = appendChunk (l.list slice) f := by
  simp only [OrderLog.record, ht, Bool.false_eq_true, if_false]
  exact (Table.look_put ..).trans (if_pos rfl)

/-- Who arrives at a gate stands in its line, whether it stood there before or not. -/
theorem OrderLog.mem_waits_arrive (l : OrderLog) (slice : Nat) (me : Nat × Bool) :
    me ∈ Table.look (l.arrive slice me).waits slice [] := by
  unfold OrderLog.arrive
  extract_lets ws
  split
  case isTrue h => exact List.contains_iff_mem.1 h
  case isFalse => simp [Table.look_put]

/-- The log of a session that its root has left. -/
def OrderLog.rootLeaves (l : OrderLog) : OrderLog := ({ l with rootIn := false } : OrderLog).leave

/-- With no other member the log is recorded again, with one it stays as it is. -/
theorem OrderLog.rootLeaves_spec (l : OrderLog) :
    l.rootLeaves.rootIn = false ∧ (l.members = 0 → l.rootLeaves.state = .recorded)
      ∧ (l.members ≠ 0 → l.rootLeaves.state = l.state) := by
  by_cases hm : l.members = 0 <;> simp [OrderLog.rootLeaves, OrderLog.leave, hm]

/-! The order gate of a session's log (R159, R160). -/

/-- The number of the log of the current gang's session. -/
def State.sessionNo (s : State) : Nat := replayLog s.gang.replaym
/-- The log of the current gang's session. -/
def State.sessionLog (s : State) : OrderLog := s.logOf s.sessionNo

/-- The current gang's task has performed one more strong access. -/
def State.counted (s : State) : State := s.modGang fun g => { g with strong := g.strong + 1 }

theorem State.gang_counted (s : State) : s.counted.gang = { s.gang with strong := s.gang.strong + 1 } :=
  State.modGang_gang ..

section
variable {s : State} {me : Nat × Bool} {pa : Nat}

/-- The gate performs the access, with the session's log as `l`. -/
def State.gatePasses (s : State) (me : Nat × Bool) (pa : Nat) (l : OrderLog) : Prop :=
  s.gateAs me pa = .ok (s.counted.putLog s.sessionNo l)

/-- The gate holds the access. -/
def State.gateHolds (s : State) (me : Nat × Bool) (pa : Nat) : Prop :=
  s.gateAs me pa = .held (s.putLog s.sessionNo (s.sessionLog.arrive (s.sliceOf pa) me))

/-- An access that a gate performs counts for its task, and leaves the log as the gate says. -/
theorem State.gatePasses.spec {l : OrderLog} (h : s.gatePasses me pa l) :
    ∃ t, s.gateAs me pa = .ok t ∧ t.gang.strong = s.gang.strong + 1 ∧ t.mem = s.mem ∧ t.logOf s.sessionNo = l :=
  ⟨_, h, congrArg Gang.strong s.gang_counted, rfl, State.logOf_putLog ..⟩

/-- An access that a gate holds stands in its line, and changes neither memory nor the gang. -/
theorem State.gateHolds.spec (h : s.gateHolds me pa) :
    ∃ t, s.gateAs me pa = .held t ∧ t.mem = s.mem ∧ t.gang = s.gang
      ∧ me ∈ Table.look (t.logOf s.sessionNo).waits (s.sliceOf pa) [] :=
  ⟨_, h, rfl, rfl, by rw [State.logOf_putLog]; exact OrderLog.mem_waits_arrive ..⟩

variable (hin : s.gang.inSession = true)
include hin

/-- Under RECORD the access is performed and logged. -/
theorem State.gateAs_recording (hl : s.sessionLog.state = .recording) :
    s.gateAs me pa = .ok (s.counted.setLogOf s.sessionNo
      (s.sessionLog.record (decide (s.ctx.archiveMax ≤ s.archiveBytes)) (s.sliceOf pa) s.gang.rfolio)) := by
  rw [State.sessionLog, State.sessionNo] at hl
  simp only [State.gateAs, hin, hl]; rfl

variable (hl : s.sessionLog.state = .replaying)
include hl

theorem State.gateAs_diverged (hk : (s.sessionLog.folio s.gang.rfolio).strong ≤ s.gang.strong) :
    s.gateAs me pa = .diverged := by
  rw [State.sessionLog, State.sessionNo] at hl hk
  simp [State.gateAs, hin, hl, hk]

variable (hk : s.gang.strong < (s.sessionLog.folio s.gang.rfolio).strong)
include hk

/-- The head's folio passes and uses up an access of its chunk. -/
theorem State.gateAs_head {k : Nat} {rest : List (Nat × Nat)}
    (hh : Table.look s.sessionLog.gates (s.sliceOf pa) [] = (s.gang.rfolio, k) :: rest) :
    s.gatePasses me pa { s.sessionLog.pass (s.sliceOf pa) me with
      gates := Table.put s.sessionLog.gates (s.sliceOf pa) (if k ≤ 1 then rest else (s.gang.rfolio, k - 1) :: rest) } := by
  rw [State.sessionLog, State.sessionNo] at hl hk hh
  simp only [State.gatePasses, State.gateAs, hin, hl, Nat.not_le.2 hk, hh, if_false, if_true]; rfl

theorem State.gateAs_other {f k : Nat} {rest : List (Nat × Nat)}
    (hh : Table.look s.sessionLog.gates (s.sliceOf pa) [] = (f, k) :: rest) (hf : f ≠ s.gang.rfolio) :
    s.gateHolds me pa := by
  rw [State.sessionLog, State.sessionNo] at hl hk hh
  simp only [State.gateHolds, State.gateAs, hin, hl, Nat.not_le.2 hk, hh, hf, if_false]; rfl

/-- Past the last chunk the first in line passes, and who finds no line. -/
theorem State.gateAs_first (hh : Table.look s.sessionLog.gates (s.sliceOf pa) [] = [])
    (hw : Table.look s.sessionLog.waits (s.sliceOf pa) [] = []
      ∨ (Table.look s.sessionLog.waits (s.sliceOf pa) []).head? = some me) :
    s.gatePasses me pa (s.sessionLog.pass (s.sliceOf pa) me) := by
  have hfirst : ((Table.look s.sessionLog.waits (s.sliceOf pa) []).head?.map (· == me)).getD true = true := by
    obtain hw | hw := hw <;> simp [hw]
  rw [State.sessionLog, State.sessionNo] at hl hk hh hfirst
  simp only [State.gatePasses, State.gateAs, hin, hl, Nat.not_le.2 hk, hh, hfirst, if_false, if_true]; rfl

/-- Past the last chunk another than the first in line is held. -/
theorem State.gateAs_behind {y : Nat × Bool} {rest : List (Nat × Bool)}
    (hh : Table.look s.sessionLog.gates (s.sliceOf pa) [] = [])
    (hw : Table.look s.sessionLog.waits (s.sliceOf pa) [] = y :: rest) (hy : y ≠ me) : s.gateHolds me pa := by
  rw [State.sessionLog, State.sessionNo] at hl hk hh hw
  simp [State.gateHolds, State.gateAs, hin, hl, Nat.not_le.2 hk, hh, hw, hy, State.sessionLog, State.sessionNo]

end

/-- The gate of every session's task keeps to the rules. -/
theorem gateRules_of_inSession {s : State} (hin : s.gang.inSession = true) (me : Nat × Bool) (pa : Nat) :
    gateRules s me pa := by
  refine ⟨fun hl ht hroom => ?record, fun hl hk => State.gateAs_diverged hin hl hk, fun hl hk =>
    ⟨fun k rest hh => ?head, fun f k rest hh hf => ?other, fun hh hw => ?first, fun y rest hh hw hy => ?behind⟩⟩
  case record =>
    refine ⟨_, State.gateAs_recording hin hl, congrArg Gang.strong ((State.gang_setLogOf ..).trans s.gang_counted), ?_⟩
    rw [decide_eq_false (Nat.not_le.2 hroom)]
    exact (congrArg (OrderLog.list · _) (State.logOf_setLogOf ..)).trans (OrderLog.list_record ht ..)
  case head =>
    obtain ⟨t, ht, hstrong, hmem, hlog⟩ := (State.gateAs_head hin hl hk hh).spec
    refine ⟨t, ht, hstrong, hmem, ?_⟩
    exact (congrArg (fun l : OrderLog => Table.look l.gates _ []) hlog).trans ((Table.look_put ..).trans (if_pos rfl))
  case other =>
    exact (State.gateAs_other hin hl hk hh hf).spec
  case first =>
    obtain ⟨t, ht, hstrong, hmem, -⟩ := (State.gateAs_first hin hl hk hh hw).spec
    exact ⟨t, ht, hstrong, hmem⟩
  case behind =>
    obtain ⟨t, ht, hmem, hgang, -⟩ := (State.gateAs_behind hin hl hk hh hw hy).spec
    exact ⟨t, ht, hmem, hgang⟩

end Sys2Proof.Machine
end

section
namespace Sys2Proof.Machine
open Sys2Proof

/-! A write of REPLAYM by one task (R156). -/

/-- The log that a session with this root starts to record. -/
def recordLog (root : ReplayFolio) : OrderLog :=
  { OrderLog.none with state := .recording, rootIn := true, folios := [root] }

/-- A recorded log that a session starts to replay: every gate at its slice's first chunk, the root's folio taken. -/
def OrderLog.replay (l : OrderLog) : OrderLog :=
  { l with
    state := .replaying, rootIn := true, extra := [], gates := l.chunks,
    folios := l.folios.mapIdx fun i f => { f with used := i == 0 } }

/-- The current gang's task is the root of a session with REPLAYM `v` and the log `l`. -/
def State.sessionOpened (s : State) (v : DWord) (l : OrderLog) : State :=
  (s.setLogOf (replayLog v) l).modGang fun g =>
    { g with replaym := v, sroot := true, member := true, rfolio := 1, strong := 0 }

/-- The root has left its session. -/
def State.sessionLeft (s : State) (v : DWord) : State :=
  (s.setLogOf s.sessionNo s.sessionLog.rootLeaves).modGang fun g =>
    { g with replaym := v, sroot := false, member := false, rfolio := 0 }

/-- What a gang has of a session. -/
def Gang.sessionPart (g : Gang) : DWord × Bool × Nat := (g.replaym, g.sroot, g.rfolio)

theorem State.sessionPart_advance (s : State) (h : Header) : (s.advance h).gang.sessionPart = s.gang.sessionPart :=
  (congrArg Gang.sessionPart (s.offIssue_advance h) :)

theorem State.sessionPart_sessionOpened (s : State) (v : DWord) (l : OrderLog) :
    (s.sessionOpened v l).gang.sessionPart = (v, true, 1) := by rw [State.sessionOpened, State.modGang_gang]; rfl

theorem State.sessionPart_sessionLeft (s : State) (v : DWord) : (s.sessionLeft v).gang.sessionPart = (v, false, 0) := by
  rw [State.sessionLeft, State.modGang_gang]; rfl

/-- The task goes on as the root of its session. -/
theorem State.sessionOpened_advance (s : State) (v : DWord) (l : OrderLog) (h : Header) :
    let t := (s.sessionOpened v l).advance h
    t.clock = s.clock + 1 ∧ t.gang.replaym = v ∧ t.gang.sroot = true ∧ t.gang.rfolio = 1 ∧ t.logOf (replayLog v) = l := by
  have hpart := ((s.sessionOpened v l).sessionPart_advance h).trans (s.sessionPart_sessionOpened v l)
  simp only [Gang.sessionPart, Prod.mk.injEq] at hpart
  obtain ⟨hreplaym, hroot, hfolio⟩ := hpart
  refine ⟨?_, hreplaym, hroot, hfolio, ?_⟩
  · exact (State.leave_clock ..).trans (congrArg (· + 1) (State.clock_setLogOf ..))
  · rw [State.logOf_advance, State.sessionOpened, State.logOf_modGang, State.logOf_setLogOf]

/-- The task goes on outside its session. -/
theorem State.sessionLeft_advance (s : State) (v : DWord) (h : Header) :
    let t := (s.sessionLeft v).advance h
    t.clock = s.clock + 1 ∧ t.gang.replaym = v ∧ t.gang.sroot = false
      ∧ t.logOf s.sessionNo = s.sessionLog.rootLeaves := by
  have hpart := ((s.sessionLeft v).sessionPart_advance h).trans (s.sessionPart_sessionLeft v)
  simp only [Gang.sessionPart, Prod.mk.injEq] at hpart
  obtain ⟨hreplaym, hroot, -⟩ := hpart
  refine ⟨?_, hreplaym, hroot, ?_⟩
  · exact (State.leave_clock ..).trans (congrArg (· + 1) (State.clock_setLogOf ..))
  · rw [State.logOf_advance, State.sessionLeft, State.logOf_modGang, State.logOf_setLogOf]

section
variable {x : RRR} {s : State} {m : Mask} {v : DWord}

/-- Outside a session, and at the root of one, the page admits the write. -/
theorem State.issuesSpecial.admitted (hi : s.issuesSpecial x m)
    (hmine : (replayMode s.gang.replaym = 0 || s.gang.sroot) = true) :
    s.issues x.hdr .gang (specialMovOk x && (replayMode s.gang.replaym = 0 || s.gang.sroot)) [] (specialSrcs x) m :=
  hi.mono fun h => by rw [h, hmine]; rfl

theorem exec_replaymWrite_unpacked (hp : s.gang.packed = false) : exec (.replaymWrite x) s = replaymAct x s :=
  perTask_unpacked hp ..

variable (hi : s.issuesSpecial x m) (hp : s.gang.packed = false) (hv : readGang s 0x1D 0 x.a &&& 0x3F03 = v)
include hi hp hv

theorem exec_replaymWrite_record (hmode : replayMode v = 1) (hoff : replayMode s.gang.replaym = 0)
    (hfree : (s.logOf (replayLog v)).state ≠ .recording) (hidle : (s.logOf (replayLog v)).state ≠ .replaying) :
    exec (.replaymWrite x) s =
      .next ((s.sessionOpened v (recordLog (rootFolio (s.frameOf s.gang.frame)))).advance x.hdr) := by
  rw [exec_replaymWrite_unpacked hp, replaymAct, issue_of_issues _ (hi.admitted (by simp [hoff])), hv]
  simp [hmode, hoff, hfree, hidle, State.sessionOpened, recordLog]

theorem exec_replaymWrite_replay (hmode : replayMode v = 2) (hoff : replayMode s.gang.replaym = 0)
    (hrec : (s.logOf (replayLog v)).state = .recorded) :
    exec (.replaymWrite x) s = .next ((s.sessionOpened v (s.logOf (replayLog v)).replay).advance x.hdr) := by
  rw [exec_replaymWrite_unpacked hp, replaymAct, issue_of_issues _ (hi.admitted (by simp [hoff])), hv]
  simp [hmode, hoff, hrec, State.sessionOpened, OrderLog.replay]

theorem exec_replaymWrite_off (hmode : replayMode v = 0) (hin : replayMode s.gang.replaym ≠ 0)
    (hroot : s.gang.sroot = true) : exec (.replaymWrite x) s = .next ((s.sessionLeft v).advance x.hdr) := by
  rw [exec_replaymWrite_unpacked hp, replaymAct, issue_of_issues _ (hi.admitted (by simp [hroot])), hv]
  simp [hmode, hin, hroot, State.sessionLeft, State.sessionLog, State.sessionNo, OrderLog.rootLeaves]

end
end Sys2Proof.Machine

open Sys2Proof Sys2Proof.Machine

/-- Settles O13: the gate by its head and, past the last chunk, by its line; the write of REPLAYM by the log that the
session starts from or leaves. -/
theorem replaySessions : Obligations.ReplaySessions := by
  unfold Obligations.ReplaySessions
  refine ⟨fun s me pa hin => gateRules_of_inSession hin me pa, fun x s m hi hp => ?_⟩
  extract_lets v n n0
  refine ⟨fun hmode hoff hfree hidle => ?record, fun hmode hoff hrec => ?replay, fun hmode hin hroot => ?off⟩
  case record =>
    obtain ⟨hclock, hreplaym, hsroot, hfolio, hlog⟩ :=
      s.sessionOpened_advance v (recordLog (rootFolio (s.frameOf s.gang.frame))) x.hdr
    refine ⟨_, exec_replaymWrite_record hi hp rfl hmode hoff hfree hidle, hclock, hreplaym, hsroot, hfolio, ?_⟩
    rw [hlog]; exact ⟨rfl, rfl, rfl⟩
  case replay =>
    obtain ⟨hclock, hreplaym, hsroot, hfolio, hlog⟩ := s.sessionOpened_advance v (s.logOf n).replay x.hdr
    refine ⟨_, exec_replaymWrite_replay hi hp rfl hmode hoff hrec, hclock, hreplaym, hsroot, hfolio, ?_⟩
    rw [hlog]; exact ⟨rfl, rfl⟩
  case off =>
    obtain ⟨hclock, hreplaym, hsroot, hlog⟩ := s.sessionLeft_advance v x.hdr
    refine ⟨_, exec_replaymWrite_off hi hp rfl hmode hin hroot, hclock, hreplaym, hsroot, ?_⟩
    have hleft := s.sessionLog.rootLeaves_spec
    rw [← hlog] at hleft
    exact hleft
end

section
namespace Sys2Proof.Machine
open Sys2Proof

/-! HASHRD and HASHCLR (R179). What a packed gang has for its lanes' hashes: each task that comes to the front leaves them
as they are, and a task that clears its own leaves the others'. -/

/-- The hash of lane l's task (R33): the one in front has its hash in the gang's own fields. -/
def Gang.hashAt (g : Gang) (l : Nat) : Option DWord :=
  if l = g.front then some g.hash else (Table.seek g.pack l).map Part.hash

/-- The starting value of a store hash (R179). -/
abbrev hashStart : DWord := 0x243F6A8885A308D3

/-- The task in front has the starting value (R179). -/
def Gang.clearHash (g : Gang) : Gang := { g with hash := hashStart }

/-- Lane l's task, where the gang has one, comes to the front and has the starting value. -/
def Gang.clearHashOf (g : Gang) (l : Nat) : Gang := if g.lanes.has l then (g.task l).clearHash else g

theorem Gang.hash_task {g : Gang} {l : Nat} {h : DWord} (hl : g.hashAt l = some h) : (g.task l).hash = h := by
  unfold Gang.hashAt at hl
  unfold Gang.task
  split at hl
  next hfront => rw [if_pos hfront]; exact Option.some.inj hl
  next hfront =>
    obtain ⟨p, hp, rfl⟩ := Option.map_eq_some_iff.1 hl
    rw [if_neg hfront, hp]; rfl

theorem Gang.front_task {g : Gang} {l : Nat} (hl : (g.hashAt l).isSome = true) : (g.task l).front = l := by
  obtain ⟨h, hh⟩ := Option.isSome_iff_exists.1 hl
  unfold Gang.hashAt at hh
  unfold Gang.task
  split at hh
  next hfront => rw [if_pos hfront]; exact hfront.symm
  next hfront =>
    obtain ⟨p, hp, -⟩ := Option.map_eq_some_iff.1 hh
    rw [if_neg hfront, hp]

/-- The task that comes to the front changes places with the one that stood there. -/
theorem Gang.hashAt_task (g : Gang) (l j : Nat) : (g.task l).hashAt j = g.hashAt j := by
  unfold Gang.task
  split
  · rfl
  next hfront =>
    split
    next p hp =>
      simp only [Gang.hashAt, Table.seek_put, Table.seek_del]
      by_cases hj : j = l
      · subst hj; rw [if_pos rfl, if_neg hfront, hp]; rfl
      · by_cases hjf : j = g.front
        · rw [if_neg hj, if_pos hjf, if_pos hjf]; rfl
        · simp only [if_neg hj, if_neg hjf]
    · rfl

theorem Gang.hashAt_clearHash (g : Gang) (j : Nat) :
    g.clearHash.hashAt j = if j = g.front then some hashStart else g.hashAt j := by
  by_cases hj : j = g.front <;> simp [Gang.hashAt, Gang.clearHash, hj]

/-- Where the paths stand, how the gang is split and whether it is packed: what a task's coming to the front leaves. -/
def Gang.bearing (g : Gang) : Path × Option Split × Bool := (g.path, g.split, g.packed)

theorem Gang.bearing_task (g : Gang) (l : Nat) : (g.task l).bearing = g.bearing := by
  unfold Gang.task
  repeat' split
  all_goals rfl

theorem Gang.bearing_clearHashOf (g : Gang) (l : Nat) : (g.clearHashOf l).bearing = g.bearing := by
  unfold Gang.clearHashOf
  split
  · exact g.bearing_task l
  · rfl

theorem Gang.packed_clearHashOf {g : Gang} (hp : g.packed = true) (l : Nat) : (g.clearHashOf l).packed = true :=
  (congrArg (fun b : Path × Option Split × Bool => b.2.2) (g.bearing_clearHashOf l) :).trans hp

theorem Mask.getLsbD_lane (k l : Nat) : (Mask.lane k).getLsbD l = (decide (l < 32) && decide (l = k)) := by
  rw [Mask.lane, BitVec.getLsbD_ofNat, Nat.testBit_two_pow]
  simp only [eq_comm]

theorem Mask.getLsbD_foldl_lane {α : Type} (t : Table α) (m : Mask) (l : Nat) :
    (t.foldl (fun m e => m ||| Mask.lane e.1) m).getLsbD l = (m.getLsbD l || (decide (l < 32) && Table.has t l)) := by
  induction t generalizing m with
  | nil => simp [Table.has, Table.seek]
  | cons e r ih =>
    obtain ⟨k, v⟩ := e
    rw [List.foldl_cons, ih, BitVec.getLsbD_or, Mask.getLsbD_lane]
    by_cases hk : l = k
    · by_cases hl : l < 32 <;> simp [Table.has, Table.seek, ← hk, hl]
    · simp [Table.has, Table.seek, hk]

/-- The lanes of a packed gang are those with a task. -/
theorem Gang.has_lanes {g : Gang} (hp : g.packed = true) (l : Nat) :
    g.lanes.has l = (decide (l < 32) && (g.hashAt l).isSome) := by
  rw [Mask.has, Gang.lanes, if_pos hp, Mask.getLsbD_foldl_lane, Mask.getLsbD_lane, Gang.hashAt, ← Bool.and_or_distrib_left]
  by_cases hl : l = g.front <;> simp [Table.has, hl]

theorem Gang.hashAt_clearHashOf {g : Gang} (hp : g.packed = true) (l j : Nat) :
    (g.clearHashOf l).hashAt j = if j = l ∧ g.lanes.has l = true then some hashStart else g.hashAt j := by
  unfold Gang.clearHashOf
  split
  next hl =>
    have hsome : (g.hashAt l).isSome = true := by
      rw [Gang.has_lanes hp, Bool.and_eq_true] at hl
      exact hl.2
    rw [Gang.hashAt_clearHash, Gang.front_task hsome, Gang.hashAt_task]
    simp only [and_true, hl]
  next hl => rw [if_neg fun h => hl h.2]

/-- A lane whose task has cleared its hash still is one of the gang's. -/
theorem Gang.has_lanes_clearHashOf {g : Gang} (hp : g.packed = true) (l j : Nat) :
    (g.clearHashOf l).lanes.has j = g.lanes.has j := by
  rw [Gang.has_lanes (Gang.packed_clearHashOf hp l), Gang.hashAt_clearHashOf hp]
  split
  next h =>
    obtain ⟨rfl, hl⟩ := h
    rw [hl]
    rw [Gang.has_lanes hp, Bool.and_eq_true] at hl
    rw [hl.1]; rfl
  next => rw [Gang.has_lanes hp]

/-- The tasks of a list of lanes, one after another, clear their own hashes and no other's. -/
theorem Gang.hashAt_foldl_clearHashOf (ls : List Nat) {g : Gang} (hp : g.packed = true) (j : Nat) :
    (ls.foldl Gang.clearHashOf g).hashAt j =
      if j ∈ ls ∧ g.lanes.has j = true then some hashStart else g.hashAt j := by
  induction ls generalizing g with
  | nil => simp
  | cons l ls ih =>
    rw [List.foldl_cons, ih (Gang.packed_clearHashOf hp l), Gang.has_lanes_clearHashOf hp, Gang.hashAt_clearHashOf hp]
    by_cases hj : j = l
    · subst hj; by_cases hl : g.lanes.has j = true <;> simp [hl]
    · simp [hj]

theorem Mask.mem_lanes {m : Mask} {l : Nat} : l ∈ m.lanes ↔ m.getLsbD l = true := by
  simp only [Mask.lanes, List.mem_filter, List.mem_range, and_iff_right_iff_imp]
  exact BitVec.lt_of_getLsbD

/-- In a packed gang HASHCLR goes through the lanes of XM. -/
theorem Gang.inXm_clearHash_packed {g : Gang} (hp : g.packed = true) :
    g.inXm Gang.clearHash = g.xm.lanes.foldl Gang.clearHashOf g := if_pos hp

theorem Gang.bearing_inXm_clearHash (g : Gang) : (g.inXm Gang.clearHash).bearing = g.bearing := by
  unfold Gang.inXm
  split
  · exact foldl_keeps Gang.bearing Gang.clearHashOf Gang.bearing_clearHashOf _ g
  · rfl

/-- In a packed gang a task has the starting value where its lane is in XM, and elsewhere its hash as before (R179). -/
theorem Gang.hashAt_inXm_clearHash {g : Gang} (hp : g.packed = true) {l : Nat} (hl : g.lanes.has l = true) :
    (g.inXm Gang.clearHash).hashAt l = some (if g.xm.getLsbD l then hashStart else (g.task l).hash) := by
  have hsome : g.hashAt l = some (g.task l).hash := by
    rw [Gang.has_lanes hp, Bool.and_eq_true] at hl
    obtain ⟨h, hh⟩ := Option.isSome_iff_exists.1 hl.2
    rw [Gang.hash_task hh, hh]
  rw [Gang.inXm_clearHash_packed hp, Gang.hashAt_foldl_clearHashOf _ hp, hsome]
  by_cases hx : g.xm.getLsbD l = true <;> simp [Mask.mem_lanes, hx, hl]

theorem State.advance_sReg (s : State) (h : Header) (i : BitVec 6) : (s.advance h).gang.sReg i = s.gang.sReg i :=
  (congrArg (fun g : Gang => g.sReg i) (s.offIssue_advance h) :)

/-- Leaving a word moves no task and changes no hash. -/
theorem State.hashAt_advance (s : State) (h : Header) (l : Nat) : (s.advance h).gang.hashAt l = s.gang.hashAt l :=
  (congrArg (fun g : Gang => g.hashAt l) (s.offIssue_advance h) :)

/-- HASHCLR where it issues. -/
theorem execHashclr_issued {x : RRR} {s : State} {m : Mask}
    (hi : s.issues x.hdr .gang (hashFieldsOk x && x.hdr.d == .absent) [] (fun _ => []) m) :
    exec (.hashclr x) s = .next ((s.modGang fun g => g.inXm Gang.clearHash).advance x.hdr) :=
  issue_of_issues _ hi

/-- HASHRD where it issues. -/
theorem execHashrd_issued {x : RRR} {s : State} {m : Mask} {i : BitVec 6} (hd : x.hdr.d = .s i)
    (hi : s.issues x.hdr .gang (hashFieldsOk x) [(x.hdr.d, false)] (fun _ => []) m) :
    exec (.hashrd x) s = .next ((s.modGang fun g =>
      g.writeDest m (.s i) 64 (fun _ => 0) (g.task g.lane0).hash).advance x.hdr) := by
  rw [← hd]
  exact issue_of_issues _ (State.issuesActs.mono hi fun h => by rw [h, hd]; rfl)

end Sys2Proof.Machine

open Sys2Proof Sys2Proof.Machine

/-- Settles O38: the fold is the manual's; HASHRD writes its destination alone; HASHCLR by whether the gang is packed,
where it clears the hashes of the lanes of XM one after another. -/
theorem storeHash : Obligations.StoreHash := by
  refine ⟨fun h sp g ws => rfl, fun x s m i hd hi => ?hashrd, fun x s m hi => ?hashclr⟩
  case hashrd =>
    refine ⟨_, execHashrd_issued hd hi, wentOn_advance x.hdr rfl rfl rfl rfl rfl (State.stand_modGang rfl rfl), ?_, ?_⟩
    · rw [State.advance_sReg, State.modGang_gang, Gang.sReg_writeDest_s]
    · rw [State.advance_hash, State.modGang_gang]; rfl
  case hashclr =>
    obtain ⟨hpath, hrest⟩ := Prod.mk.inj s.gang.bearing_inXm_clearHash
    refine ⟨_, execHashclr_issued hi, wentOn_advance x.hdr rfl rfl rfl rfl rfl
      (State.stand_modGang hpath (Prod.mk.inj hrest).1), fun hp => ?_, fun hp l hl => Gang.hash_task ?_⟩
    · rw [State.advance_hash, State.modGang_gang, Gang.inXm, hp]; rfl
    · rw [State.hashAt_advance, State.modGang_gang]
      exact Gang.hashAt_inXm_clearHash hp hl
end

section
namespace Sys2Proof.Machine
open Sys2Proof

/-! The engines: jobs, their chunks and their faults. What an engine writes it writes before it sets its job's entry, so
each event is described by the entry that it leaves and the memory that it found written. -/

theorem State.jobOf_of_bare {s t : State} (h : t.bare = s.bare) (n : Nat) : t.jobOf n = s.jobOf n :=
  (congrArg (fun u : State => u.jobOf n) h :)
theorem State.faults_of_bare {s t : State} (h : t.bare = s.bare) : t.faults = s.faults := (congrArg State.faults h :)

@[simp] theorem State.jobOf_setJobOf_self (s : State) (j : Nat) (x : Job) : (s.setJobOf j x).jobOf j = x := by
  rw [State.jobOf_setJobOf, if_pos rfl]

/-- The number of the engine that job j uses. -/
abbrev State.engineOf (s : State) (j : Nat) : Nat := (s.jobOf j).engine (s.jobOf j).gallery

/-- An engine's fault record is a write at the home slice (R215). -/
@[simp] theorem State.bare_faultRecord (s : State) (x : Job) (code : BitVec 8) (addr : Option Nat) :
    (s.faultRecord x code addr).bare = s.bare := State.bare_homeWrite ..

/-- A job that works stands on its engine, and its card is of one of the event's kinds. -/
theorem State.of_working {s : State} {j : Nat} {kinds : List Nat} (h : s.working j kinds = true) :
    s.halt = .running ∧ (s.jobOf j).state = .running ∧ (s.jobOf j).card.kind.toNat ∈ kinds := by
  unfold State.working at h
  split at h
  next x hx =>
    have hjob : s.jobOf j = x := by rw [State.jobOf, Table.look_eq_seek, hx]; rfl
    simp only [Bool.and_eq_true, beq_iff_eq, List.contains_eq_mem, decide_eq_true_eq] at h
    obtain ⟨⟨⟨⟨⟨hhalt, -⟩, -⟩, hrun⟩, -⟩, hkind⟩ := h
    exact ⟨hhalt, hjob ▸ hrun, hjob ▸ hkind⟩
  next => cases h

/-- A fault outside traces suspends its job and is reported with the halt line (R144, R214). -/
theorem State.engineFault_spec (s : State) (j : Nat) (x : Job) (e : EngErr) :
    let t := s.engineFault j x e none
    t.halt = .asserted ∧ t.jobOf j = { x with state := .suspended } ∧
      ∃ f, t.faults = s.faults ++ [f] ∧ f.kind = e.kind ∧ f.unitKind = if x.card.kind = 3 then 5 else 4 := by
  unfold State.engineFault
  extract_lets s1 s2
  have hfaults : s1.faults = s.faults := by unfold s1; split <;> rfl
  have hbare : s2.bare = (s1.setJobOf j { x with state := .suspended }).bare := State.bare_faultRecord ..
  have hjob : s2.jobOf j = { x with state := .suspended } :=
    (State.jobOf_of_bare hbare j).trans (s1.jobOf_setJobOf_self j _)
  refine ⟨rfl, hjob, ?_⟩
  rw [State.assertHalt_faults, State.faults_of_bare hbare, State.setJobOf_faults, hfaults]
  exact ⟨_, rfl, rfl, rfl⟩

/-! CARD_TAKE (R48, R198). -/

/-- A COPYF's follow-on is all that a job takes from its block (R206). -/
theorem State.followOn_ok {s : State} {e : Nat} {x z : Job} (h : s.followOn e x = .ok z) :
    ∃ c o, z = { x with carrel := c, follow := o } := by
  unfold State.followOn at h
  simp only at h
  repeat' split at h
  all_goals simp only [reduceCtorEq, Except.ok.injEq] at h
  all_goals exact ⟨_, _, h.symm⟩

/-- A card that passes its engine's checks is left as it was, but for the follow-on (R198, R206). -/
theorem State.takeCheck_ok {s : State} {e : Nat} {x z : Job} (h : s.takeCheck e x = .ok z) :
    ∃ c o, z = { x with carrel := c, follow := o } := by
  unfold State.takeCheck at h
  have same (hx : (Except.ok x : Except EngErr Job) = .ok z) : ∃ c o, z = { x with carrel := c, follow := o } :=
    ⟨x.carrel, x.follow, (Except.ok.inj hx).symm⟩
  split at h
  next => cases h
  next =>
    split at h
    next => cases h
    next =>
      split at h
      next =>
        split at h
        next => cases h
        next =>
          split at h
          next => cases h
          next => exact same h
      next =>
        split at h
        next => cases h
        next => exact same h
      next => exact State.followOn_ok h
      next => exact same h

/-- The card is begun: its job runs in the gallery that was chosen. -/
theorem State.jobOf_beginJob (s : State) (j : Nat) (x : Job) :
    ∃ c o, (s.beginJob j x).jobOf j = { x with state := .running, begun := true, claim := c, olds := o } :=
  ⟨_, _, State.jobOf_setJobOf_self ..⟩

/-- What CARD_TAKE asks before an engine is chosen: the desk has linked the queues, and job j stands there as x with a
good envelope and no earlier job to wait for (R48, R176). -/
structure State.CardReady (s s1 : State) (j : Nat) (x : Job) : Prop where
  made : s.ctx.made = true
  running : s.halt = .running
  open_ : s.ctx.grace = none
  link : ∃ stuck, s.linkAll = (s1, stuck) ∧ ∀ p ∈ stuck, p.1 ≠ j
  found : Table.seek s1.ctx.jobs j = some x
  card : x.by_ ≠ .xform
  queued : x.state = .queued
  linked : x.linked = true
  envelope : x.envBad = false
  next : s1.jobWaits j x = false

theorem exec_cardTake {s s1 : State} {j g : Nat} {x z : Job} (h : s.CardReady s1 j x)
    (hg : s1.chooseGallery j x = some g)
    (hz : s1.takeCheck (({ x with gallery := g } : Job).engine g) { x with gallery := g } = .ok z) :
    exec (.cardTake j) s = .next (s1.beginJob j z) := by
  obtain ⟨stuck, hlink, hstuck⟩ := h.link
  have hfind : stuck.find? (fun p => decide (p.1 = j)) = none :=
    List.find?_eq_none.2 fun p hp => by simpa using hstuck p hp
  change execCardTake j s = _
  rw [execCardTake, if_neg (by simp [h.made, h.running, h.open_]), hlink]
  simp only [hfind, h.found]
  rw [if_neg (by simp [h.card, h.queued, h.linked]), if_neg (by simp [h.envelope]), if_neg (by simp [h.next])]
  simp only [hg, hz]

/-! Copies (R201, R206, R216). -/

/-- The bytes of the chunk that a copy is at (R201). -/
def Job.chunkLen (x : Job) : Nat := min 4096 (x.card.count.toNat - x.cursor)

/-- The job past that chunk. -/
def Job.copied (x : Job) : Job :=
  { x with cursor := x.cursor + x.chunkLen, out := x.out + x.chunkLen, state := .running, retries := 0 }

theorem State.copyNext_eq (s : State) (j : Nat) (x : Job) :
    s.copyNext j x = if x.copied.cursor < x.card.count.toNat then s.setJobOf j x.copied
      else ((s.setJobOf j x.copied).copyEnd j x.copied).getD (s.setJobOf j x.copied) := rfl

/-- What a copy has to show for its bytes: memory, its cursor and its output. -/
def State.progressOf (s : State) (j : Nat) : Memory × Nat × Nat := (s.mem, (s.jobOf j).cursor, (s.jobOf j).out)

theorem State.of_progressOf {s : State} {j cursor out : Nat} {mem : Memory} (h : s.progressOf j = (mem, cursor, out)) :
    s.mem = mem ∧ (s.jobOf j).cursor = cursor ∧ (s.jobOf j).out = out := by
  simpa only [State.progressOf, Prod.mk.injEq] using h

theorem State.progressOf_setJobOf (s : State) (j : Nat) (x : Job) :
    (s.setJobOf j x).progressOf j = (s.mem, x.cursor, x.out) := by
  rw [State.progressOf, State.jobOf_setJobOf_self, State.setJobOf_mem]

/-- A copy's end moves neither cursor nor output, whether it finishes or hands on to its follow-on. -/
theorem State.progressOf_copyEnd {s t : State} {j : Nat} {x : Job} (h : s.copyEnd j x = some t) :
    t.progressOf j = (s.mem, x.cursor, x.out) := by
  unfold State.copyEnd at h
  extract_lets v at h
  split at h
  next op hop =>
    split at h
    next => cases h
    next => rw [← Option.some.inj h, State.progressOf_setJobOf]; rfl
  next => rw [← Option.some.inj h, State.progressOf_setJobOf]; rfl

/-- A chunk that was written moves the cursor and the output by its bytes. -/
theorem State.progressOf_copyNext (s : State) (j : Nat) (x : Job) :
    (s.copyNext j x).progressOf j = (s.mem, x.cursor + x.chunkLen, x.out + x.chunkLen) := by
  rw [State.copyNext_eq]
  split
  · exact State.progressOf_setJobOf ..
  · cases hend : (s.setJobOf j x.copied).copyEnd j x.copied with
    | none => exact State.progressOf_setJobOf ..
    | some t => exact State.progressOf_copyEnd hend

/-- Short of the last byte the copy goes on. -/
theorem State.jobOf_copyNext_more {x : Job} (hmore : x.copied.cursor < x.card.count.toNat) (s : State) (j : Nat) :
    (s.copyNext j x).jobOf j = x.copied := by
  rw [State.copyNext_eq, if_pos hmore, State.jobOf_setJobOf_self]

/-- After its last byte a copy without follow-on finishes with the count of its bytes (R209). -/
theorem State.jobOf_copyNext_last {x : Job} (hlast : x.card.count.toNat ≤ x.copied.cursor)
    (hnone : x.follow = none) (s : State) (j : Nat) :
    (s.copyNext j x).jobOf j = x.copied.finish (BitVec.ofNat 64 x.copied.out) x.copied.out := by
  have hfollow : x.copied.follow = none := hnone
  rw [State.copyNext_eq, if_neg (Nat.not_lt.2 hlast), State.copyEnd, hfollow]
  exact State.jobOf_setJobOf_self ..

/-- A chunk whose check fails is recorded, and that is all that happens (R215, R216). -/
def State.mismatched (s : State) (j : Nat) (x : Job) : State := (s.setJobOf j x).faultRecord x 0xC0 none

theorem State.jobOf_mismatched (s : State) (j : Nat) (x : Job) : (s.mismatched j x).jobOf j = x :=
  (State.jobOf_of_bare (State.bare_faultRecord ..) j).trans (State.jobOf_setJobOf_self ..)

theorem State.halt_mismatched (s : State) (j : Nat) (x : Job) : (s.mismatched j x).halt = s.halt :=
  (State.halt_of_bare (State.bare_faultRecord ..) :)

section
variable {s : State} {j : Nat} (hwork : s.working j [1, 6] = true)
  (hleft : (s.jobOf j).cursor < (s.jobOf j).card.count.toNat)
include hwork hleft

theorem exec_copyChunk_ok {s1 : State}
    (hchunk : s.copyChunk (s.engineOf j) (s.jobOf j) = .ok s1) :
    exec (.copyChunk j) s = .next (s1.copyNext j (s.jobOf j)) := by
  change execCopyChunk j s = _
  simp [execCopyChunk, hwork, hleft, hchunk]

theorem exec_copyChunk_fault {e : EngErr}
    (hchunk : s.copyChunk (s.engineOf j) (s.jobOf j) = .fault e) :
    exec (.copyChunk j) s = .next (s.engineFault j (s.jobOf j) e none) := by
  change execCopyChunk j s = _
  simp [execCopyChunk, hwork, hleft, hchunk]

theorem exec_copyChunk_crc {w g : Word}
    (hchunk : s.copyChunk (s.engineOf j) (s.jobOf j) = .crc w g) :
    exec (.copyChunk j) s =
      .next (s.mismatched j { s.jobOf j with state := .crcFailed, crcWant := w, crcGot := g }) := by
  change execCopyChunk j s = _
  simp [execCopyChunk, hwork, hleft, hchunk, State.mismatched]

end

/-- The job as it tries its chunk once more (R216). -/
abbrev Job.retried (x : Job) : Job := { x with retries := x.retries + 1 }

/-- The job with the check sums of its last try. -/
abbrev Job.failedAgain (x : Job) (w g : Word) : Job := { x.retried with crcWant := w, crcGot := g }

/-- The third failure of a chunk ends its job with code 4 (R216). -/
def State.triedAgain (s : State) (j : Nat) (x : Job) : State :=
  if x.retries < 3 then s.mismatched j x else (s.mismatched j x).setJobOf j (x.finish (failValue 4 x.out) 0)

theorem State.jobOf_triedAgain (s : State) (j : Nat) (x : Job) :
    (s.triedAgain j x).jobOf j = if x.retries < 3 then x else x.finish (failValue 4 x.out) 0 := by
  unfold State.triedAgain
  split
  · exact State.jobOf_mismatched ..
  · exact State.jobOf_setJobOf_self ..

section
variable {s : State} {j : Nat} (hhas : Table.has s.ctx.jobs j = true) (hrun : s.halt = .running)
  (hfailed : (s.jobOf j).state = .crcFailed) (hfree : s.engineFree (s.engineOf j) j = true)
include hhas hrun hfailed hfree

/-- A try that passes goes on as any chunk does. -/
theorem exec_crcRetry_ok {s1 : State}
    (hchunk : s.copyChunk (s.engineOf j) (s.jobOf j).retried = .ok s1) :
    exec (.crcRetry j) s = .next (s1.copyNext j (s.jobOf j).retried) := by
  change execCrcRetry j s = _
  rw [execCrcRetry, if_neg (by simp [hhas, hrun, hfailed, hfree])]
  simp only [hchunk]

theorem exec_crcRetry_crc {w g : Word}
    (hchunk : s.copyChunk (s.engineOf j) (s.jobOf j).retried = .crc w g) :
    exec (.crcRetry j) s = .next (s.triedAgain j ((s.jobOf j).failedAgain w g)) := by
  change execCrcRetry j s = _
  rw [execCrcRetry, if_neg (by simp [hhas, hrun, hfailed, hfree])]
  simp only [hchunk]
  rfl

end

/-! Tensor copies and drains (R204, R205). -/

/-- The job past n elements of `unit` output units each. -/
def Job.pastElems (x : Job) (unit n : Nat) : Job := { x with cursor := x.cursor + n, out := x.out + n * unit }

theorem State.progressOf_elemsNext (s : State) (j : Nat) (x : Job) (total unit n : Nat) :
    (s.elemsNext j x total unit n).progressOf j = (s.mem, x.cursor + n, x.out + n * unit) := by
  rw [State.elemsNext, State.progressOf_setJobOf]
  split <;> rfl

/-- After its last element the job finishes with its output (R209). -/
theorem State.jobOf_elemsNext_last {x : Job} {total n : Nat} (hlast : total ≤ x.cursor + n) (s : State) (j unit : Nat) :
    (s.elemsNext j x total unit n).jobOf j =
      (x.pastElems unit n).finish (BitVec.ofNat 64 (x.pastElems unit n).out) (x.pastElems unit n).out := by
  rw [State.elemsNext, State.jobOf_setJobOf_self]
  exact if_neg (Nat.not_lt.2 hlast)

/-- The numbers of the elements, of w bytes each, in the chunk that the job is at. -/
abbrev Job.elemsAt (x : Job) (extents : List Nat) (w : Nat) : List Nat := chunkElems x.cursor (product extents) w

/-- The elements of that chunk of a drain. -/
abbrev Job.drainAt (x : Job) (r : Shape) : List (Nat × (Nat → Nat)) :=
  drainElems x r (x.elemsAt r.extents (containerBytes (fmtId r.fmt)))

section
variable {s s1 : State} {j : Nat}

/-- A chunk of a tensor copy. A value that the manual leaves open is used up for each of its elements. -/
theorem exec_tensorCopyChunk_copy {p : Pair2} {els : List (Nat × (Nat → Nat))} (hwork : s.working j [2, 4] = true)
    (hkind : (s.jobOf j).card.kind = 2) (hpair : s.pairOf (s.engineOf j) (s.jobOf j) = .ok p)
    (hels : s.tensorElems (s.engineOf j) p ((s.jobOf j).elemsAt p.extents p.ed) = .ok els)
    (hwrite : s.writeElems (s.engineOf j) p.ed (some (BitVec.ofNat 8 p.dst.scale ++ p.dst.fmt)) false els
      (blocksTouched els) = .ok s1) :
    let n := ((s.jobOf j).elemsAt p.extents p.ed).length
    exec (.tensorCopyChunk j) s =
      .next ({ s1 with free := s1.free + n }.elemsNext j (s.jobOf j) (product p.extents) p.ed n) := by
  change execTensorCopyChunk j s = _
  simp [execTensorCopyChunk, hwork, hkind, hpair, hels, hwrite]

/-- A chunk of a drain whose tile has been read. -/
theorem exec_tensorCopyChunk_drain {r : Shape} (hwork : s.working j [2, 4] = true) (hkind : (s.jobOf j).card.kind = 4)
    (hread : (s.jobOf j).tileRead = true) (hshape : s.drainShape (s.engineOf j) (s.jobOf j) = .ok r)
    (hwrite : s.writeElems (s.engineOf j) (containerBytes (fmtId r.fmt))
      (if (s.jobOf j).card.op = 0 then some (BitVec.ofNat 8 r.scale ++ r.fmt) else none) ((s.jobOf j).card.op ≠ 0)
      ((s.jobOf j).drainAt r) (blocksTouched ((s.jobOf j).drainAt r)) = .ok s1) :
    exec (.tensorCopyChunk j) s = .next (s1.elemsNext j (s.jobOf j) (product r.extents) 1
      ((s.jobOf j).elemsAt r.extents (containerBytes (fmtId r.fmt))).length) := by
  change execTensorCopyChunk j s = _
  rw [execTensorCopyChunk, if_neg (by simp [hwork, hread]), if_neg (by simp [hkind])]
  simp only [hshape, hwrite]

end

/-! Inflates (R194, R195). -/

/-- The decoder as its job left it. -/
def Job.decoder (x : Job) : Inflate := { at_ := x.cursor, out := x.out, buf := x.outBuf, code := 0 }

/-- The job as its decoder leaves it at the stream's end: finishing with the count, or with the decoder's code (R209). -/
def Job.inflated (x : Job) (z : Inflate) : Job :=
  let y := { x with cursor := z.at_, out := z.out, outBuf := [] }
  if z.code = 0 then y.finish (BitVec.ofNat 64 z.out) z.out else y.finish (failValue z.code z.out) 0

theorem Job.inflated_spec (x : Job) (z : Inflate) :
    (x.inflated z).state = .finishing
      ∧ (x.inflated z).value = if z.code = 0 then BitVec.ofNat 64 z.out else failValue z.code z.out := by
  unfold Job.inflated
  extract_lets y
  split <;> exact ⟨rfl, rfl⟩

section
variable {s s1 : State} {j : Nat} {z : Inflate} (hwork : s.working j [3] = true)
include hwork

/-- A cancelled inflate writes its pending block and finishes with code 5 (R195, R211). -/
theorem exec_inflateJob_cancelled (hcancel : (s.jobOf j).cancelled = true)
    (hflush : s.flushOut (s.engineOf j) (s.jobOf j) (s.jobOf j).decoder = .ok (s1, z)) :
    exec (.inflateJob j) s =
      .next (s1.setJobOf j ({ s.jobOf j with outBuf := [] }.finish (failValue 5 (s.jobOf j).out) 0)) := by
  change execInflateJob j s = _
  unfold Job.decoder at hflush
  simp [execInflateJob, hwork, hcancel, State.stopInflate, hflush]

variable (hcancel : (s.jobOf j).cancelled = false)
  (htokens : s.tokens (s.engineOf j) (s.jobOf j) (s.jobOf j).out (s.jobOf j).decoder
    ((s.jobOf j).card.count.toNat + 1 - (s.jobOf j).cursor) = .ok (s1, z))
include hcancel htokens

/-- Between two places where it may stop, the decoder's position is all that the job keeps (R214). -/
theorem exec_inflateJob_more (hleft : z.at_ < (s.jobOf j).card.count.toNat) (hcode : z.code = 0) :
    exec (.inflateJob j) s =
      .next (s1.setJobOf j { s.jobOf j with cursor := z.at_, out := z.out, outBuf := z.buf }) := by
  change execInflateJob j s = _
  unfold Job.decoder at htokens
  simp [execInflateJob, hwork, hcancel, htokens, hleft, hcode]

/-- At the stream's end, or at a token that it does not take, the pending block is written and the job finishes. -/
theorem exec_inflateJob_ended {s2 : State} {z2 : Inflate}
    (hended : (s.jobOf j).card.count.toNat ≤ z.at_ ∨ z.code ≠ 0)
    (hflush : s1.flushOut (s.engineOf j) (s.jobOf j) z = .ok (s2, z2)) :
    exec (.inflateJob j) s = .next (s2.setJobOf j ((s.jobOf j).inflated z)) := by
  change execInflateJob j s = _
  unfold Job.decoder at htokens
  rw [execInflateJob, if_neg (by simp [hwork]), if_neg (by simp [hcancel])]
  simp only [htokens]
  rw [if_neg (by simpa [Nat.not_le, or_iff_not_imp_left] using hended)]
  simp only [hflush]
  rfl

end

/-! JOB_COMPLETE (R200, R209). -/

theorem exec_jobComplete_untraced {s : State} {j : Nat} {x : Job} (hx : Table.seek s.ctx.jobs j = some x)
    (hfinishing : x.state = .finishing) (hrun : s.halt = .running) (htrace : x.trace = none) :
    exec (.jobComplete j) s = .next (s.endJob j x.value (if x.value.getLsbD 63 then none else some x.credit)) := by
  change execJobComplete j s = _
  simp [execJobComplete, hx, hfinishing, hrun, State.jobRecords, htrace]

end Sys2Proof.Machine

open Sys2Proof Sys2Proof.Machine

/-- Settles O42: each event by what came of its checks or its chunk. -/
theorem engineSteps : Obligations.EngineSteps := by
  unfold Obligations.EngineSteps
  refine ⟨fun s s1 j g x z stuck hmade hrun hgrace hlink hstuck hx hby hqueued hlinked henv hwaits hg hz => ?take,
    fun s j hwork => ?copy, fun s j hhas hrun => ?retry, fun s j hwork => ?elems,
    fun s s1 j z hwork hcancel => ?cancelled, fun s s1 j z hwork hcancel => ?inflate,
    fun s j x hx hfinishing hrun htrace => exec_jobComplete_untraced hx hfinishing hrun htrace⟩
  case take =>
    have hready : s.CardReady s1 j x :=
      ⟨hmade, hrun, hgrace, ⟨stuck, hlink, hstuck⟩, hx, hby, hqueued, hlinked, henv, hwaits⟩
    refine ⟨_, exec_cardTake hready hg hz, ?_⟩
    obtain ⟨c, o, hbegun⟩ := s1.jobOf_beginJob j z
    obtain ⟨c', o', hsame⟩ := State.takeCheck_ok hz
    rw [hbegun, hsame]
    exact ⟨rfl, rfl, rfl, rfl⟩
  case copy =>
    extract_lets x n
    refine fun hleft => ⟨fun s1 hchunk => ?_, fun e hchunk => ?_, fun w g hchunk => ?_⟩
    · obtain ⟨hmem, hcursor, hout⟩ := State.of_progressOf (s1.progressOf_copyNext j x)
      refine ⟨_, exec_copyChunk_ok hwork hleft hchunk, hmem, hcursor, hout, fun hmore => ?_, fun hlast hnone => ?_⟩
      · rw [State.jobOf_copyNext_more hmore]; rfl
      · rw [State.jobOf_copyNext_last hlast hnone]; exact ⟨rfl, rfl⟩
    · obtain ⟨hhalt, hjob, f, hfaults, hkind, hunit⟩ := s.engineFault_spec j x e
      obtain ⟨-, -, hmem⟩ := State.of_working hwork
      have hcard : x.card.kind ≠ 3 := by rintro h3; rw [h3] at hmem; exact absurd hmem (by decide)
      refine ⟨_, exec_copyChunk_fault hwork hleft hchunk, hhalt, by rw [hjob], f, hfaults, hkind, ?_⟩
      rw [hunit, if_neg hcard]
    · refine ⟨_, exec_copyChunk_crc hwork hleft hchunk, ?_⟩
      rw [State.jobOf_mismatched, State.halt_mismatched]
      exact ⟨rfl, rfl, rfl, rfl, (State.of_working hwork).1⟩
  case retry =>
    extract_lets x n y
    refine fun hfailed hfree => ⟨fun s1 hchunk => ?_, fun w g hchunk => ?_⟩
    · obtain ⟨hmem, hcursor, -⟩ := State.of_progressOf (s1.progressOf_copyNext j y)
      exact ⟨_, exec_crcRetry_ok hhas hrun hfailed hfree hchunk, hmem, hcursor⟩
    · refine ⟨_, exec_crcRetry_crc hhas hrun hfailed hfree hchunk, ?_⟩
      have hjob := s.jobOf_triedAgain j (x.failedAgain w g)
      refine ⟨?_, fun hfew => ?_, fun hthird => ?_⟩
      · rw [hjob]; split <;> rfl
      · rw [hjob, if_pos hfew]; exact hfailed
      · rw [hjob, if_neg (Nat.not_lt.2 hthird)]; exact ⟨rfl, rfl⟩
  case elems =>
    extract_lets x e
    refine ⟨fun p els s1 hkind hpair => ?_, fun r s1 hkind hread hshape => ?_⟩
    · extract_lets total ks
      intro hels hwrite
      obtain ⟨hmem, hcursor, hout⟩ := State.of_progressOf
        (State.progressOf_elemsNext { s1 with free := s1.free + ks.length } j x total p.ed ks.length)
      refine ⟨_, exec_tensorCopyChunk_copy hwork hkind hpair hels hwrite, hmem, hcursor, hout, fun hlast => ?_⟩
      rw [State.jobOf_elemsNext_last hlast]; exact ⟨rfl, rfl⟩
    · extract_lets w total ks els
      intro hwrite
      obtain ⟨hmem, hcursor, hout⟩ := State.of_progressOf (s1.progressOf_elemsNext j x total 1 ks.length)
      refine ⟨_, exec_tensorCopyChunk_drain hwork hkind hread hshape hwrite, hmem, hcursor, fun hlast => ?_⟩
      rw [State.jobOf_elemsNext_last hlast, Job.pastElems, Nat.mul_one]; exact ⟨rfl, rfl⟩
  case cancelled =>
    intro x hflush
    refine ⟨_, exec_inflateJob_cancelled hwork hcancel hflush, rfl, ?_⟩
    rw [State.jobOf_setJobOf_self]; exact ⟨rfl, rfl⟩
  case inflate =>
    intro x e htokens
    refine ⟨fun hleft hcode => ⟨_, exec_inflateJob_more hwork hcancel htokens hleft hcode, rfl, ?_⟩,
      fun s2 z2 hended hflush => ⟨_, exec_inflateJob_ended hwork hcancel htokens hended hflush, rfl, ?_⟩⟩
    · rw [State.jobOf_setJobOf_self]; exact ⟨rfl, rfl⟩
    · rw [State.jobOf_setJobOf_self]; exact x.inflated_spec z
end

section
namespace Sys2Proof

/-- A lane of the mask takes the value of f, every other lane keeps its own (R14). -/
theorem Lanes.at_merge (v : Lanes) (m : Mask) (f : Nat → Word) {l : Nat} (hl : l < 32) :
    (v.merge m f).at l = if m.getLsbD l then f l else v.at l := by
  simp [Lanes.at, Lanes.merge, Vector.getD, hl]

end Sys2Proof
end

section
namespace Sys2Proof.Machine
open Sys2Proof

/-! What a by-destination word leaves of the gang (R14, R92, R262, R275): the rules of its two operations, which give up
the entries of the sources' FIFOs and write the destination. -/

theorem Gang.wReg_writeLanes (g : Gang) (m : Mask) (i : BitVec 8) (w : Nat) (f : Nat → DWord) :
    (g.writeLanes m i w f).wReg i =
      (g.wReg i).merge m fun l => (f l).setWidth 32 &&& BitVec.ofNat 32 (2 ^ min w 32 - 1) := by
  have hne : (i + 1).toNat ≠ i.toNat := by bv_omega
  unfold Gang.writeLanes
  split <;> simp only [Gang.wReg, Gang.setW, Vector.getElem_set, hne, if_true, if_false]

theorem Gang.wEmpty_writeLanes (g : Gang) (m : Mask) (i : BitVec 8) (w : Nat) (f : Nat → DWord) :
    (g.writeLanes m i w f).wEmpty i = g.wEmpty i &&& ~~~m := by
  have hne : (i + 1).toNat ≠ i.toNat := by bv_omega
  unfold Gang.writeLanes
  split <;> simp only [Gang.wEmpty, Vector.getElem_set, hne, if_true, if_false]

/-- The upper register of a pair takes the high half (R275). -/
theorem Gang.wReg_writeLanes_upper (g : Gang) (m : Mask) (i : BitVec 8) (f : Nat → DWord) :
    (g.writeLanes m i 64 f).wReg (i + 1) = (g.wReg (i + 1)).merge m fun l => (f l).extractLsb' 32 32 := by
  have hne : i.toNat ≠ (i + 1).toNat := by bv_omega
  simp only [Gang.writeLanes, Gang.wReg, Gang.setW, Vector.getElem_set, hne, if_true, if_false]

theorem Gang.sReg_writeS (g : Gang) (i : BitVec 6) (w : Nat) (v : DWord) :
    (g.writeS i w v).sReg i = v &&& BitVec.ofNat 64 (2 ^ w - 1) := Vector.getElem_set_self ..

/-- The registers that a by-destination word can write: w registers with their empty lanes, and s registers. -/
structure Gang.Results where
  w  : Vector Lanes 256
  we : Vector Mask 256
  s  : Vector DWord 64

def Gang.results (g : Gang) : Gang.Results := ⟨g.w, g.we, g.s⟩

theorem Gang.wReg_of_results {g k : Gang} (h : g.results = k.results) (i : BitVec 8) : g.wReg i = k.wReg i :=
  congrArg (fun r : Gang.Results => r.w[i.toNat]) h
theorem Gang.wEmpty_of_results {g k : Gang} (h : g.results = k.results) (i : BitVec 8) : g.wEmpty i = k.wEmpty i :=
  congrArg (fun r : Gang.Results => r.we[i.toNat]) h
theorem Gang.sReg_of_results {g k : Gang} (h : g.results = k.results) (i : BitVec 6) : g.sReg i = k.sReg i :=
  congrArg (fun r : Gang.Results => r.s[i.toNat]) h

/-- A state whose registers are those of a gang that wrote its destination, from the registers of `s`. -/
theorem wroteDest_of_results {s t : State} {g : Gang} {m : Mask} {d : Operand} {w : Nat} {f : Nat → DWord} {v : DWord}
    (hg : g.results = s.gang.results) (ht : t.gang.results = (g.writeDest m d w f v).results) :
    wroteDest s t m d w f v := by
  cases d with
  | w i =>
    refine ⟨fun l hl => ?low, ?empty, fun hw l hl => ?upper⟩
    case low =>
      rw [Gang.wReg_of_results ht, ← Gang.wReg_of_results hg, Gang.writeDest, Gang.wReg_writeLanes, Lanes.at_merge _ _ _ hl]
    case empty => rw [Gang.wEmpty_of_results ht, ← Gang.wEmpty_of_results hg, Gang.writeDest, Gang.wEmpty_writeLanes]
    case upper =>
      rw [Gang.wReg_of_results ht, ← Gang.wReg_of_results hg, Gang.writeDest, hw, Gang.wReg_writeLanes_upper,
        Lanes.at_merge _ _ _ hl]
  | s i => exact (Gang.sReg_of_results ht i).trans (Gang.sReg_writeS ..)
  | _ => trivial

/-- The gang without its FIFOs. -/
def Gang.offQ (g : Gang) : Gang := { g with q := Vector.replicate 16 (Vector.replicate 32 []) }

@[simp] theorem Gang.offQ_popSources (g : Gang) (m : Mask) (ops : List Operand) : (g.popSources m ops).offQ = g.offQ :=
  foldl_keeps Gang.offQ _ (fun g o => by cases o <;> rfl) _ g

theorem Gang.results_popSources (g : Gang) (m : Mask) (ops : List Operand) : (g.popSources m ops).results = g.results :=
  (congrArg Gang.results (g.offQ_popSources m ops) :)

/-- What a by-destination word leaves as it is of where the gang stands, and its lanes' LRAND. -/
def Gang.aside (g : Gang) : (Path × Option Split × Bool) × Lanes := (g.bearing, g.lrand)

theorem Gang.aside_popSources (g : Gang) (m : Mask) (ops : List Operand) : (g.popSources m ops).aside = g.aside :=
  (congrArg Gang.aside (g.offQ_popSources m ops) :)

theorem Gang.aside_writeDest (g : Gang) (m : Mask) (d : Operand) (w : Nat) (f : Nat → DWord) (v : DWord) :
    (g.writeDest m d w f v).aside = g.aside := by
  cases d with
  | w i => simp only [Gang.writeDest, Gang.writeLanes]; split <;> rfl
  | _ => rfl

/-- The gang after a by-destination word has read its sources and written its destination. -/
def Gang.took (g : Gang) (m : Mask) (ops : List Operand) (d : Operand) (w : Nat) (f : Nat → DWord) (v : DWord) : Gang :=
  (g.popSources m ops).writeDest m d w f v

theorem Gang.aside_took (g : Gang) (m : Mask) (ops : List Operand) (d : Operand) (w : Nat) (f : Nat → DWord) (v : DWord) :
    (g.took m ops d w f v).aside = g.aside := (Gang.aside_writeDest ..).trans (Gang.aside_popSources ..)

/-- A word whose effect writes its destination, and moves neither path nor split, is over with that result. -/
theorem completes_took {s : State} {F : Gang → Gang} {m : Mask} {ops : List Operand} {d : Operand} {w : Nat}
    {f : Nat → DWord} {v : DWord} (h : Header) (hr : (F s.gang).results = (s.gang.took m ops d w f v).results)
    (hb : (F s.gang).bearing = s.gang.bearing) :
    wentOn s ((s.modGang F).advance h) (s.pc + 12) ∧ wroteDest s ((s.modGang F).advance h) m d w f v := by
  obtain ⟨hpath, hrest⟩ := Prod.mk.inj hb
  have hadv : ((s.modGang F).advance h).gang.results = (F s.gang).results := by
    rw [← State.modGang_gang s F]; exact (congrArg Gang.results (State.offIssue_advance (s.modGang F) h) :)
  exact ⟨wentOn_advance h rfl rfl rfl rfl rfl (State.stand_modGang hpath (Prod.mk.inj hrest).1),
    wroteDest_of_results (Gang.results_popSources ..) (hadv.trans hr)⟩

/-! RRR arithmetic (R275, R276, R279). -/

variable {s : State} {x : RRR} {n : Nat} {fields : Bool} {m : Mask}

/-- An RRR word that issues completes with what its operation makes of the sources' bits. -/
theorem alu_completes (f : Nat → DWord → DWord → DWord → DWord) (hi : s.issuesRrr x n fields m) :
    ∃ t, alu s x n fields f = .next t ∧ wentOn s t (s.pc + 12)
      ∧ wroteDest s t m x.hdr.d (typeWidth x.typ)
          (fun l => f l (readLane s x.typ 0 x.a l) (readLane s x.typ 0 x.b l) (readLane s x.typ 0 x.c l))
          (f 32 (readGang s x.typ 0 x.a) (readGang s x.typ 0 x.b) (readGang s x.typ 0 x.c)) :=
  ⟨_, issue_of_issues _ hi, completes_took x.hdr rfl (Prod.mk.inj (Gang.aside_took ..)).1⟩

/-! Float arithmetic (R235, R287). -/

/-- Under `.sr` the acting lanes' LRAND become what f says; under every other code none changes (R235). -/
def Gang.stepLrand (g : Gang) (rm : Nat) (m : Mask) (f : Nat → Word) : Gang :=
  if rm = rmSr then { g with lrand := g.lrand.merge m f } else g

theorem Gang.results_stepLrand (g : Gang) (rm : Nat) (m : Mask) (f : Nat → Word) :
    (g.stepLrand rm m f).results = g.results := by
  unfold Gang.stepLrand
  generalize g.lrand.merge m f = v
  split <;> rfl

theorem Gang.bearing_stepLrand (g : Gang) (rm : Nat) (m : Mask) (f : Nat → Word) :
    (g.stepLrand rm m f).bearing = g.bearing := by
  unfold Gang.stepLrand
  generalize g.lrand.merge m f = v
  split <;> rfl

theorem Gang.lrand_stepLrand (g : Gang) (rm : Nat) (m : Mask) (f : Nat → Word) {l : Nat} (hl : l < 32) :
    (g.stepLrand rm m f).lrand.at l = if rm = rmSr ∧ m.getLsbD l = true then f l else g.lrand.at l := by
  unfold Gang.stepLrand
  split
  next hrm => simp [hrm, Lanes.at_merge _ _ _ hl]
  next hrm => simp [hrm]

theorem State.advance_lrand (s : State) (h : Header) : (s.advance h).gang.lrand = s.gang.lrand :=
  (congrArg Gang.lrand (s.offIssue_advance h) :)

/-- The exact result of a float word in lane l (R287). -/
def floatValue (s : State) (x : RRR) (f : Nat → ExactNum → ExactNum → ExactNum → ExactNum) (l : Nat) : ExactNum :=
  f (rmOf x.sub) (numOf x.typ (readLane s x.typ 0 x.a l)) (numOf x.typ (readLane s x.typ 0 x.b l))
    (numOf x.typ (readLane s x.typ 0 x.c l))

/-- Its encoding, from a value of LRAND, and the LRAND that it leaves (R234, R235). -/
def floatRounded (s : State) (x : RRR) (f : Nat → ExactNum → ExactNum → ExactNum → ExactNum) (l : Nat) (lr : Word) :
    Nat × Word :=
  encodeNum x.typ.toNat (floatValue s x f l) (rmOf x.sub) lr

/-- The gang after a float word has acted in the lanes m. -/
def State.floatGang (s : State) (x : RRR) (f : Nat → ExactNum → ExactNum → ExactNum → ExactNum) (m : Mask) (g : Gang) : Gang :=
  (g.took m [x.a, x.b, x.c] x.hdr.d (typeWidth x.typ)
    (fun l => BitVec.ofNat 64 (floatRounded s x f l (s.gang.lrand.at l)).1)
    (BitVec.ofNat 64 (floatRounded s x f s.gang.lane0 0).1)).stepLrand
    (rmOf x.sub) m fun l => (floatRounded s x f l (s.gang.lrand.at l)).2

theorem lrand_floatGang (f : Nat → ExactNum → ExactNum → ExactNum → ExactNum) {l : Nat} (hl : l < 32) :
    (s.floatGang x f m s.gang).lrand.at l =
      if rmOf x.sub = rmSr ∧ m.getLsbD l = true then (floatRounded s x f l (s.gang.lrand.at l)).2
      else s.gang.lrand.at l := by
  rw [State.floatGang, Gang.lrand_stepLrand _ _ _ _ hl, (Prod.mk.inj (Gang.aside_took ..)).2]

/-- A float word that issues completes with its rounded result, and steps LRAND. -/
theorem falu_completes (f : Nat → ExactNum → ExactNum → ExactNum → ExactNum)
    (hi : s.issues x.hdr (WordClass.ofDest x.hdr.d) (fields && dstOk (WordClass.ofDest x.hdr.d) s.gang false x.hdr.d
      && rrrSrcsOk x n (WordClass.ofDest x.hdr.d) s.gang false) [(x.hdr.d, false)] (rrrSrcs x n false) m) :
    ∃ t, falu s x n fields f = .next t ∧ wentOn s t (s.pc + 12)
      ∧ wroteDest s t m x.hdr.d (typeWidth x.typ)
          (fun l => BitVec.ofNat 64 (floatRounded s x f l (s.gang.lrand.at l)).1)
          (BitVec.ofNat 64 (floatRounded s x f s.gang.lane0 0).1)
      ∧ ∀ l < 32, t.gang.lrand.at l =
          if rmOf x.sub = rmSr ∧ m.getLsbD l = true then (floatRounded s x f l (s.gang.lrand.at l)).2
          else s.gang.lrand.at l := by
  have hacted : falu s x n fields f = .next ((s.modGang (s.floatGang x f m)).advance x.hdr) := issue_of_issues _ hi
  obtain ⟨hwent, hwrote⟩ := completes_took (s := s) (F := s.floatGang x f m) x.hdr (Gang.results_stepLrand ..)
    ((Gang.bearing_stepLrand ..).trans (Prod.mk.inj (Gang.aside_took ..)).1)
  refine ⟨_, hacted, hwent, hwrote, fun l hl => ?_⟩
  rw [State.advance_lrand, State.modGang_gang, lrand_floatGang f hl]

/-! The rows. -/

/-- Each float row that rounds is the float operation of its entry (R287, R288, R291). -/
theorem exec_floatRow : ∀ r ∈ floatRows, ∀ (x : RRR) (s : State),
    exec (r.make x) s = falu s x r.sources (r.fields x) r.op := by
  simp only [floatRows, List.forall_mem_cons]
  exact ⟨fun _ _ => rfl, fun _ _ => rfl, fun _ _ => rfl, fun _ _ => rfl, fun _ _ => rfl, fun _ _ => rfl, fun _ _ => rfl,
    fun _ _ => rfl, fun _ _ => rfl, fun _ _ => rfl, fun _ _ => rfl, fun _ _ => rfl, fun _ _ => rfl, fun _ _ => rfl,
    List.forall_mem_nil _⟩

/-- FMIN, FMAX and FCLASS are RRR arithmetic on bits (R289, R290). -/
theorem exec_floatBitRow : ∀ r ∈ floatBitRows, ∀ (x : RRR) (s : State),
    exec (r.make x) s = alu s x r.sources (r.fields x) fun _ => r.op x := by
  simp only [floatBitRows, List.forall_mem_cons]
  exact ⟨fun _ _ => rfl, fun _ _ => rfl, fun _ _ => rfl, List.forall_mem_nil _⟩

end Sys2Proof.Machine

open Sys2Proof Sys2Proof.Machine

/-- Settles O9: a row that rounds is the float operation, whose one encoding gives both the destination's bits and the
acting lanes' LRAND; a row on bits is RRR arithmetic. -/
theorem floatResult : Obligations.FloatResult := by
  refine ⟨fun r hr x s m hi => ?round, fun r hr x s m hi => ?bits⟩
  case round =>
    rw [exec_floatRow r hr]
    exact falu_completes r.op hi
  case bits =>
    rw [exec_floatBitRow r hr]
    exact alu_completes (fun _ => r.op x) hi
end

section
namespace Sys2Proof.Machine
open Sys2Proof

/-! Blocks of the scratchpad: what a block is after whole blocks are written with their labels (R133). -/

theorem Table.look_store {α : Type} [BEq α] [LawfulBEq α] (t : Table α) (k j : Nat) (v d : α) :
    (Table.store t k v d).look j d = if j = k then v else t.look j d := by
  unfold Table.store
  split
  case isTrue h => rw [Table.look_del, eq_of_beq h]
  case isFalse => exact Table.look_put ..

theorem Memory.label_setLabel (m : Memory) (k : Nat) (l : Label) (j : Nat) :
    (m.setLabel k l).label j = if j = k then l else m.label j := Table.look_store ..

theorem Memory.read_write_self (m : Memory) (a : Nat) (bs : List Byte) : (m.write a bs).read a bs.length = bs := by
  simpa using (Memory.holds_write m a bs).read (off := 0) (n := bs.length) (by omega)

theorem Memory.read_write_apart (m : Memory) {a b n : Nat} {bs : List Byte} (h : b + n ≤ a ∨ a + bs.length ≤ b) :
    (m.write a bs).read b n = m.read b n := by
  refine List.map_congr_left fun i hi => ?_
  have hin : i < n := List.mem_range.1 hi
  rw [Memory.byte_write, if_neg (by omega)]

theorem Carrel.block_sp (c : Carrel) (k : Nat) :
    c.block false k = ⟨c.sp.label k, c.sp.read (64 * k) 64, c.spBad.contains k⟩ := rfl

/-- A block of 64 bytes whose check bits hold, as a label-changing write leaves one (R133, R146). -/
def Block.whole (x : Block) : Prop := x.bytes.length = 64 ∧ x.bad = false

theorem Carrel.block_putBlock_self (c : Carrel) (k : Nat) {x : Block} (hx : x.whole) :
    (c.putBlock k x).block false k = x := by
  obtain ⟨label, bytes, bad⟩ := x
  obtain ⟨hlen, rfl⟩ : bytes.length = 64 ∧ bad = false := hx
  have hread : ((c.sp.write (64 * k) bytes).setLabel k label).read (64 * k) 64 = bytes := by
    rw [← hlen]; exact Memory.read_write_self ..
  have hlabel := Memory.label_setLabel (c.sp.write (64 * k) bytes) k label k
  have hgood : (c.spBad.filter (· != k)).contains k = false := by simp
  simp only [Carrel.block_sp, Carrel.putBlock, hread, hlabel, hgood, if_true]

theorem Carrel.block_putBlock_other (c : Carrel) {j k : Nat} (hj : j ≠ k) {x : Block} (hx : x.whole) :
    (c.putBlock k x).block false j = c.block false j := by
  have hlen := hx.1
  have hread : ((c.sp.write (64 * k) x.bytes).setLabel k x.label).read (64 * j) 64 = c.sp.read (64 * j) 64 :=
    Memory.read_write_apart _ (by omega)
  have hlabel : ((c.sp.write (64 * k) x.bytes).setLabel k x.label).label j = c.sp.label j := by
    rw [Memory.label_setLabel, if_neg hj]; rfl
  have hbad : (c.spBad.filter (· != k)).contains j = c.spBad.contains j := by simp [hj]
  simp only [Carrel.block_sp, Carrel.putBlock, hread, hlabel, hbad]

/-- Of the whole blocks written in turn, those that go to block k being one block b, block k is b. -/
theorem Carrel.block_foldl_putBlock {α : Type} {key : α → Nat} {f : α → Block} (hf : ∀ e, (f e).whole) {k : Nat}
    {b : Block} (es : List α) (hsame : ∀ e ∈ es, key e = k → f e = b) (c : Carrel)
    (hput : c.block false k = b ∨ ∃ e ∈ es, key e = k) :
    (es.foldl (fun c e => c.putBlock (key e) (f e)) c).block false k = b := by
  induction es generalizing c with
  | nil => simpa using hput
  | cons e es ih =>
    obtain ⟨he, hes⟩ := List.forall_mem_cons.1 hsame
    refine ih hes _ ?_
    by_cases hk : k = key e
    · left
      rw [hk, Carrel.block_putBlock_self c (key e) (hf e), he hk.symm]
    · rw [Carrel.block_putBlock_other c hk (hf e)]
      refine hput.imp_right fun ⟨y, hy, hat⟩ => ⟨y, (List.mem_cons.1 hy).resolve_left ?_, hat⟩
      rintro rfl
      exact hk hat.symm

end Sys2Proof.Machine
end

section
namespace Sys2Proof.Machine
open Sys2Proof

/-! Cells of a tile (R238). -/

theorem Carrel.tile_setTile (c : Carrel) (u v : BitVec 2) (x : Tile) :
    (c.setTile u x).tile v = if v = u then x else c.tile v := by
  simp only [Carrel.tile, Carrel.setTile]
  rw [Vector.getElem_set]
  simp only [BitVec.toNat_inj, eq_comm]

/-- Cell (r, c) of a tile. -/
def Tile.cell (x : Tile) (r c : Nat) : Word := (x.toList.getD r (Vector.replicate 128 0)).toList.getD c 0

theorem Tile.cell_eq (x : Tile) {r c : Nat} (hr : r < 128) (hc : c < 128) : x.cell r c = x[r][c] := by
  simp [Tile.cell, hr, hc]

theorem Tile.cell_update (x : Tile) (rows cols : Nat) (f : Nat → Nat → Word → Word) {r c : Nat} (hr : r < 128)
    (hc : c < 128) :
    (x.update rows cols f).cell r c = if r < rows ∧ c < cols then f r c (x.cell r c) else x.cell r c := by
  rw [Tile.cell_eq _ hr hc, Tile.cell_eq _ hr hc]
  by_cases h : r < rows <;> by_cases h' : c < cols <;> simp [Tile.update, h, h']

theorem Carrel.cell_eq (c : Carrel) (u : BitVec 2) (r col : Nat) : c.cell u r col = (c.tile u).cell r col := rfl

theorem Carrel.cell_setTile (c : Carrel) (u : BitVec 2) (x : Tile) (r col : Nat) :
    (c.setTile u x).cell u r col = x.cell r col := by
  rw [Carrel.cell_eq, Carrel.tile_setTile, if_pos rfl]

/-- The rows of a tile as DRAIN takes them hold its cells. -/
theorem Tile.getD_rows (x : Tile) {r c : Nat} (hr : r < 128) :
    ((x.toList.map fun row => row.toList).getD r []).getD c 0 = x.cell r c := by
  simp [Tile.cell, hr]

/-! One step of the array upon its carrel. -/

theorem moveOk_stride {d : Desc} (h : moveOk d = true) : d.rowBlocks ≤ d.stride := by
  simp only [moveOk, Desc.ok, Bool.and_eq_true, decide_eq_true_eq] at h
  obtain ⟨⟨⟨⟨⟨⟨_, hstride⟩, _⟩, _⟩, _⟩, _⟩, _⟩ := h
  exact hstride

/-- The row and number of each block of a descriptor. -/
def Desc.places (d : Desc) : List (Nat × Nat) :=
  (List.range d.rows).flatMap fun r => (List.range d.rowBlocks).map fun j => (r, j)

theorem Desc.mem_places {d : Desc} {e : Nat × Nat} : e ∈ d.places ↔ e.1 < d.rows ∧ e.2 < d.rowBlocks := by
  obtain ⟨r, j⟩ := e
  simp [Desc.places]

/-- The blocks of a descriptor lie apart, since its stride holds a row (R219). -/
theorem Desc.at_inj {d : Desc} (hd : d.rowBlocks ≤ d.stride) {e y : Nat × Nat} (he : e.2 < d.rowBlocks)
    (hy : y.2 < d.rowBlocks) (h : d.at_ e.1 e.2 = d.at_ y.1 y.2) : e = y := by
  obtain ⟨r, j⟩ := e
  obtain ⟨q, i⟩ := y
  simp only [Desc.at_] at he hy h
  have hflat : j + d.stride * r = i + d.stride * q := by rw [Nat.mul_comm _ r, Nat.mul_comm _ q]; omega
  have hj : j = i := by
    simpa [Nat.add_mul_mod_self_left, Nat.mod_eq_of_lt (he.trans_le hd), Nat.mod_eq_of_lt (hy.trans_le hd)]
      using congrArg (· % d.stride) hflat
  have hr : r = q := Nat.eq_of_mul_eq_mul_left (by omega : 0 < d.stride) (by omega)
  rw [hr, hj]

/-- The block that AST writes with the cells of a tile from (row, 16 * number) on (R360, R361). -/
def TileOp.astBlock (x : TileOp) (c : Carrel) (e : Nat × Nat) : Block :=
  ⟨astLabel (descOf x.dA), (List.range 16).flatMap fun i => natToBytes 4 (c.cell x.tile e.1 (16 * e.2 + i)).toNat, false⟩

theorem TileOp.astBlock_whole (x : TileOp) (c : Carrel) (e : Nat × Nat) : (x.astBlock c e).whole :=
  ⟨length_flatMap_range (fun _ => length_natToBytes 4 _) 16, rfl⟩

theorem Carrel.tileStep_ast (c : Carrel) {x : TileOp} (hx : x.kind = .ast) :
    c.tileStep x = (descOf x.dA).places.foldl (fun c' e => c'.putBlock ((descOf x.dA).at_ e.1 e.2) (x.astBlock c e)) c := by
  simp only [Carrel.tileStep, hx]
  rfl

/-- AST writes blocks and no tile. -/
theorem Carrel.tile_tileStep_ast (c : Carrel) {x : TileOp} (hx : x.kind = .ast) (v : BitVec 2) :
    (c.tileStep x).tile v = c.tile v := by
  rw [Carrel.tileStep_ast c hx]
  refine foldl_keeps (fun c' : Carrel => c'.tile v) _ (fun c' e => ?_) _ _
  rfl

theorem Carrel.tile_tileStep_other (c : Carrel) (x : TileOp) {v : BitVec 2} (hv : v ≠ x.tile) :
    (c.tileStep x).tile v = c.tile v := by
  have hset (t : Tile) : (c.setTile x.tile t).tile v = c.tile v := by rw [Carrel.tile_setTile, if_neg hv]
  cases hk : x.kind with
  | ast => exact c.tile_tileStep_ast hk v
  | mma | mmac | aclr | ald => simp only [Carrel.tileStep, hk, hset]
  | drainRead => simp only [Carrel.tileStep, hk]

/-- Each cell of the step's tile becomes what the operation's step says (R244, R248, R360). -/
theorem Carrel.cell_tileStep (c : Carrel) (x : TileOp) {r col : Nat} (hr : r < 128) (hcol : col < 128) :
    (c.tileStep x).cell x.tile r col = stepCell x r col (c.cell x.tile r col) := by
  have hupdate (rows cols : Nat) (f : Nat → Nat → Word → Word) :
      (c.setTile x.tile ((c.tile x.tile).update rows cols f)).cell x.tile r col =
        if r < rows ∧ col < cols then f r col (c.cell x.tile r col) else c.cell x.tile r col := by
    rw [Carrel.cell_setTile, Tile.cell_update _ _ _ _ hr hcol, Carrel.cell_eq]
  cases hk : x.kind with
  | ast => simp only [stepCell, hk, Carrel.cell_eq, c.tile_tileStep_ast hk]
  | mma | ald => simp only [Carrel.tileStep, stepCell, hk, hupdate]
  | aclr => simp only [Carrel.tileStep, stepCell, hk, hupdate, hr, hcol, and_self, if_true]
  | mmac => simp [Carrel.tileStep, mmacStep, stepCell, hk, hupdate, hr, hcol, and_assoc]
  | drainRead => simp only [Carrel.tileStep, stepCell, hk]

theorem Carrel.sp_tileStep (c : Carrel) {x : TileOp} (hx : x.kind ≠ .ast) : (c.tileStep x).sp = c.sp := by
  cases hk : x.kind with
  | ast => exact absurd hk hx
  | mma | mmac | aclr | ald | drainRead => simp only [Carrel.tileStep, hk, Carrel.setTile]

/-- AST leaves its cells in the blocks of its descriptor, under the descriptor's label (R361). -/
theorem Carrel.block_tileStep_ast (c : Carrel) {x : TileOp} (hx : x.kind = .ast)
    (hd : (descOf x.dA).rowBlocks ≤ (descOf x.dA).stride) {e : Nat × Nat} (he : e ∈ (descOf x.dA).places) :
    (c.tileStep x).block false ((descOf x.dA).at_ e.1 e.2) = x.astBlock c e := by
  rw [Carrel.tileStep_ast c hx]
  refine Carrel.block_foldl_putBlock (x.astBlock_whole c) _ (fun y hy hat => ?_) c (.inr ⟨e, he, rfl⟩)
  rw [Desc.at_inj hd (Desc.mem_places.1 hy).2 (Desc.mem_places.1 he).2 hat]

end Sys2Proof.Machine
end

section
namespace Sys2Proof.Machine
open Sys2Proof

/-! The events of the array and of the transform unit. -/

/-- The carrel after a step of its oldest instruction: the tile or the blocks, the counter and the sequencer (R256). -/
def Carrel.stepped (c : Carrel) (x : TileOp) (rest : List TileOp) : Carrel :=
  { (c.tileStep x).count 6 1 with
    seq := if x.step + 1 < x.steps then { x with step := x.step + 1 } :: rest else rest }

theorem State.carrelOf_setCarrelOf_self (s : State) (k : Nat) (x : Carrel) : (s.setCarrelOf k x).carrelOf k = x := by
  rw [State.carrelOf_setCarrelOf, if_pos rfl]

theorem State.carrelOf_setJobOf (s : State) (j : Nat) (x : Job) (k : Nat) :
    (s.setJobOf j x).carrelOf k = s.carrelOf k := rfl

/-- What a step of the array leaves of the machine: its oldest instruction's last step ends a follow-on (R206). -/
def State.arrayStepped (s : State) (k : Nat) (x : TileOp) (rest : List TileOp) : State :=
  let t := s.setCarrelOf k ((s.carrelOf k).stepped x rest)
  if x.step + 1 < x.steps then t else t.followDone x.job

/-- The end of a follow-on writes its job only. -/
theorem State.followDone_jobs (s : State) (j : Nat) :
    ∃ jobs, s.followDone j = { s with ctx := { s.ctx with jobs := jobs } } := by
  unfold State.followDone
  split <;> exact ⟨_, rfl⟩

theorem State.arrayStepped_spec (s : State) (k : Nat) (x : TileOp) (rest : List TileOp) :
    (s.arrayStepped k x rest).clock = s.clock ∧ (s.arrayStepped k x rest).mem = s.mem
      ∧ (s.arrayStepped k x rest).ctx.gangs = s.ctx.gangs
      ∧ (s.arrayStepped k x rest).carrelOf k = (s.carrelOf k).stepped x rest := by
  have hcarrel := s.carrelOf_setCarrelOf_self k ((s.carrelOf k).stepped x rest)
  unfold State.arrayStepped
  extract_lets t
  split
  case isTrue => exact ⟨rfl, rfl, rfl, hcarrel⟩
  case isFalse =>
    obtain ⟨jobs, hjobs⟩ := t.followDone_jobs x.job
    rw [hjobs]
    exact ⟨rfl, rfl, rfl, hcarrel⟩

/-- SEQUENCER_STEP with an instruction that no fault has stopped and that passes the array's checks (R243, R256). -/
theorem exec_sequencerStep_passed {s : State} {k : Nat} {x : TileOp} {rest : List TileOp}
    (hseq : (s.carrelOf k).seq = x :: rest) (hrun : s.halt = .running) (hkind : x.kind ≠ .drainRead)
    (hagain : x.again = false) (hfault : x.step = 0 → x.fault = none) :
    exec (.sequencerStep k) s = .next (s.arrayStepped k x rest) := by
  have hfresh : ¬x.again = true := by simp [hagain]
  have hpass : (if x.step = 0 then x.fault else none) = none := by simpa using hfault
  change execSequencerStep k s = _
  simp only [execSequencerStep, hseq]
  rw [if_neg (by simp [hrun, hkind])]
  simp only [if_neg hfresh, hpass, State.arrayStepped, Carrel.stepped]
  split <;> rfl

/-- DRAIN's read gives its job the rows of the tile, and the next instruction becomes the oldest (R205). -/
theorem exec_drainTileRead_taken {s : State} {k : Nat} {x : TileOp} {rest : List TileOp}
    (hseq : (s.carrelOf k).seq = x :: rest) (hrun : s.halt = .running) (hkind : x.kind = .drainRead) :
    exec (.drainTileRead k) s =
      .next ((s.setCarrelOf k ({ s.carrelOf k with seq := rest }.count 6 1)).modJobOf x.job fun y => { y with
        tile := ((s.carrelOf k).tile x.tile).toList.map fun row => row.toList, tileRead := true }) := by
  change execDrainTileRead k s = _
  simp [execDrainTileRead, hseq, hrun, hkind]

section
variable {s : State} {k : Nat} {op : XformOp} {rest : List XformOp} (hxu : (s.carrelOf k).xu = op :: rest)
  (hrun : s.halt = .running)
  (hfault : (op.begun (s.carrelOf k)).step = 0 → (s.carrelOf k).xformFault (op.begun (s.carrelOf k)) = none)
  (hgood : (s.carrelOf k).xformBad (op.begun (s.carrelOf k)) = false)
include hxu hrun hfault hgood

/-- A step of a transform that passes its checks transforms its block, and goes on or ends the job (R256, R363). -/
theorem exec_xuStep_passed :
    let x := op.begun (s.carrelOf k)
    let c := ((s.carrelOf k).xformStep x).count 7 1
    exec (.xuStep k) s =
      if x.step + 1 < (descOf x.src).rows * (descOf x.src).blocks then
        .next ((s.setCarrelOf k { c with xu := { x with step := x.step + 1 } :: rest }).modJobOf x.job
          fun y => { y with out := x.step + 1 })
      else .next ((s.setCarrelOf k { c with xu := rest }).endJob x.job 0 none) := by
  extract_lets x c
  have hpass : (if x.step = 0 then (s.carrelOf k).xformFault x else none) = none := by simpa using hfault
  change execXuStep k s = _
  simp only [execXuStep, hxu]
  rw [if_neg (by simp [hrun])]
  simp only [hpass, hgood, x, c]
  rfl

end
end Sys2Proof.Machine

open Sys2Proof Sys2Proof.Machine

/-- Settles O40: what a step leaves is read off the carrel after it (its tile's cells, AST's blocks); DRAIN's read and
the transform unit's step are their events past the checks. -/
theorem arraySteps : Obligations.ArraySteps := by
  unfold Obligations.ArraySteps
  refine ⟨fun s k x rest hseq hrun hkind hagain hfault => ?step, fun s k x rest hseq hrun hkind => ?drain,
    fun s k op rest hxu hrun => ?xform⟩
  case step =>
    obtain ⟨hclock, hmem, hgangs, hcarrel⟩ := s.arrayStepped_spec k x rest
    refine ⟨_, exec_sequencerStep_passed hseq hrun hkind hagain hfault, hclock, hmem, hgangs, ?_⟩
    rw [hcarrel]
    refine ⟨rfl, fun v hv => ?others, fun r hr c hc => ?cells, fun hast => ?scratchpad, fun hast hmove => ?blocks⟩
    case others => exact Carrel.tile_tileStep_other _ x hv
    case cells => exact Carrel.cell_tileStep _ x hr hc
    case scratchpad => exact Carrel.sp_tileStep _ hast
    case blocks =>
      intro d r hr j hj
      exact Carrel.block_tileStep_ast _ hast (moveOk_stride hmove) (e := (r, j)) (Desc.mem_places.2 ⟨hr, hj⟩)
  case drain =>
    refine ⟨_, exec_drainTileRead_taken hseq hrun hkind, rfl, rfl, ?_⟩
    rw [State.modJobOf, State.jobOf_setJobOf_self, State.carrelOf_setJobOf, State.carrelOf_setCarrelOf_self]
    exact ⟨rfl, rfl, rfl, fun r hr c _ => Tile.getD_rows _ hr⟩
  case xform =>
    intro x hfault hgood c n
    have hexec := exec_xuStep_passed hxu hrun hfault hgood
    refine ⟨fun hmore => ⟨_, hexec.trans (if_pos hmore), ?_, ?_⟩,
      fun hlast => hexec.trans (if_neg (Nat.not_lt.2 hlast))⟩
    · rw [State.modJobOf, State.carrelOf_setJobOf, State.carrelOf_setCarrelOf_self]
    · rw [State.modJobOf, State.jobOf_setJobOf_self]
end

section
namespace Sys2Proof

/-! The fields of a word put together again (R260, R265). -/

/-- Two fields that lie side by side in a word are one field. -/
theorem append_fields {n k a b : Nat} (w : BitVec n) {x : BitVec a} {y : BitVec b} (hx : x = w.extractLsb' (k + b) a)
    (hy : y = w.extractLsb' k b) : x ++ y = w.extractLsb' k (a + b) := by
  rw [hx, hy]; exact BitVec.extractLsb'_append_extractLsb'_eq_extractLsb' rfl

theorem ofBool_getLsbD {n : Nat} (w : BitVec n) (k : Nat) : BitVec.ofBool (w.getLsbD k) = w.extractLsb' k 1 := by
  ext i hi
  obtain rfl : i = 0 := by omega
  simp

/-- Every pattern is one row of the operand table (R263). -/
theorem Operand.toBits_ofBits (r : BitVec 10) : (Operand.ofBits r).toBits = r := by
  revert r; decide +kernel

theorem Operand.wf_ofBits (r : BitVec 10) : (Operand.ofBits r).wf = true := by
  revert r; decide +kernel

theorem putHeader_getHeader (w : IWord) : putHeader (opcodeOf w) (getHeader w) = w.extractLsb' 64 32 := by
  have hop : BitVec.ofNat 9 (opcodeOf w) = w.extractLsb' 87 9 := BitVec.ofNat_toNat 9 (w.extractLsb' 87 9)
  simp only [putHeader, getHeader, Operand.toBits_ofBits, ofBool_getLsbD, hop]
  iterate 8 refine append_fields w ?_ rfl
  rfl

section
variable {w : IWord} {op : Nat} (h : opcodeOf w = op)
include h

theorem putRRR_getRRR : putRRR op (getRRR w) = w := by
  subst h
  simp only [putRRR, getRRR, Operand.toBits_ofBits, putHeader_getHeader]
  refine Eq.trans ?_ BitVec.extractLsb'_eq_self
  iterate 6 refine append_fields w ?_ rfl
  rfl

theorem putRI_getRI : putRI op (getRI w) = w := by
  subst h
  simp only [putRI, getRI, Operand.toBits_ofBits, ofBool_getLsbD, putHeader_getHeader]
  refine Eq.trans ?_ BitVec.extractLsb'_eq_self
  iterate 4 refine append_fields w ?_ rfl
  rfl

theorem putM_getM : putM op (getM w) = w := by
  subst h
  simp only [putM, getM, Operand.toBits_ofBits, ofBool_getLsbD, putHeader_getHeader]
  refine Eq.trans ?_ BitVec.extractLsb'_eq_self
  iterate 11 refine append_fields w ?_ rfl
  rfl

theorem putMS_getMS : putMS op (getMS w) = w := by
  subst h
  simp only [putMS, getMS, Operand.toBits_ofBits, ofBool_getLsbD, putHeader_getHeader]
  refine Eq.trans ?_ BitVec.extractLsb'_eq_self
  iterate 11 refine append_fields w ?_ rfl
  rfl

theorem putB_getB : putB op (getB w) = w := by
  subst h
  simp only [putB, getB, Operand.toBits_ofBits, putHeader_getHeader]
  refine Eq.trans ?_ BitVec.extractLsb'_eq_self
  iterate 3 refine append_fields w ?_ rfl
  rfl

theorem putG_getG : putG op (getG w) = w := by
  subst h
  simp only [putG, getG, Operand.toBits_ofBits, ofBool_getLsbD, putHeader_getHeader]
  refine Eq.trans ?_ BitVec.extractLsb'_eq_self
  iterate 7 refine append_fields w ?_ rfl
  rfl

theorem putE_getE : putE op (getE w) = w := by
  subst h
  simp only [putE, getE, Operand.toBits_ofBits, putHeader_getHeader]
  refine Eq.trans ?_ BitVec.extractLsb'_eq_self
  iterate 5 refine append_fields w ?_ rfl
  rfl

end

theorem wf_getRRR (w : IWord) : (getRRR w).wf = true := by
  simp only [RRR.wf, getRRR, getHeader, Operand.wf_ofBits, Bool.and_self]
theorem wf_getRI (w : IWord) : (getRI w).wf = true := by
  simp only [RI.wf, getRI, getHeader, Operand.wf_ofBits, Bool.and_self]
theorem wf_getM (w : IWord) : (getM w).wf = true := by
  simp only [MFmt.wf, getM, getHeader, Operand.wf_ofBits, Bool.and_self]
theorem wf_getMS (w : IWord) : (getMS w).wf = true := by
  simp only [MSFmt.wf, getMS, getHeader, Operand.wf_ofBits, Bool.and_self]
theorem wf_getB (w : IWord) : (getB w).wf = true := by
  simp only [BFmt.wf, getB, getHeader, Operand.wf_ofBits, Bool.and_self]
theorem wf_getG (w : IWord) : (getG w).wf = true := by
  simp only [GFmt.wf, getG, getHeader, Operand.wf_ofBits, Bool.and_self]
theorem wf_getE (w : IWord) : (getE w).wf = true := by
  simp only [EFmt.wf, getE, getHeader, Operand.wf_ofBits, Bool.and_self]

/-- The instruction is well-formed and its word is `w`. -/
def Instr.writes (i : Instr) (w : IWord) : Prop := i.wf = true ∧ encode i = some w

theorem Operand.isSpecial_eq_false {o : Operand} (h : ∀ i, o ≠ .special i) : o.isSpecial = false := by
  cases o with
  | special i => exact absurd rfl (h i)
  | _ => rfl

/-! Rows that share an opcode keep what tells them apart. -/

theorem Instr.writes_splitMov {x : RRR} {w : IWord} (hx : x.wf = true) (hw : putRRR 0x01F x = w) :
    (Instr.splitMov x).writes w := by
  unfold Instr.splitMov
  split
  next i hd => split_ifs <;> simp_all [Instr.writes, Instr.wf, encode, Operand.isSpecial]
  next hd =>
    have hspecial : x.hdr.d.isSpecial = false := Operand.isSpecial_eq_false hd
    exact ⟨by rw [Instr.wf, hx, hspecial]; rfl, congrArg some hw⟩

theorem Instr.writes_splitDrain {x : EFmt} {w : IWord} (hx : x.wf = true) (hw : putE 0x146 x = w) :
    (Instr.splitDrain x).writes w := by
  unfold Instr.splitDrain
  split <;> simp_all [Instr.writes, Instr.wf, encode]

theorem Instr.writes_splitXform {x : EFmt} {w : IWord} (hx : x.wf = true) (hw : putE 0x147 x = w) :
    (Instr.splitXform x).writes w := by
  unfold Instr.splitXform
  split <;> simp_all [Instr.writes, Instr.wf, encode]

theorem Instr.writes_splitBufrel {x : RRR} {w : IWord} (hx : x.wf = true) (hw : putRRR 0x15A x = w) :
    (Instr.splitBufrel x).writes w := by
  unfold Instr.splitBufrel
  split <;> simp_all [Instr.writes, Instr.wf, encode]

theorem Instr.writes_splitSysw {x : RI} {w : IWord} (hx : x.wf = true) (hw : putRI 0x181 x = w) :
    (Instr.splitSysw x).writes w := by
  unfold Instr.splitSysw
  split <;> simp_all [Instr.writes, Instr.wf, encode]

/-! The opcode map (R269) by body format; an opcode whose rows a field tells apart stands in the last list. -/

/-- The arithmetic words of the RRR format. -/
def arithmeticOpcodes : List Nat :=
  [0x000, 0x001, 0x002, 0x003, 0x004, 0x005, 0x006, 0x007, 0x008, 0x009, 0x00A, 0x00B, 0x00C, 0x00D, 0x00E, 0x00F,
   0x010, 0x011, 0x012, 0x013, 0x014, 0x015, 0x016, 0x017, 0x018, 0x019, 0x01A, 0x01B, 0x01C, 0x01D, 0x040, 0x041,
   0x042, 0x043, 0x044, 0x045, 0x046, 0x047, 0x048, 0x049, 0x04A, 0x04B, 0x04C, 0x04D, 0x04E, 0x04F, 0x050, 0x051,
   0x052]
/-- The other words of the RRR format. -/
def controlOpcodes : List Nat :=
  [0x080, 0x081, 0x082, 0x083, 0x084, 0x085, 0x086, 0x087, 0x088, 0x0C1, 0x0C3, 0x0C5, 0x0C6, 0x0C7, 0x0C8, 0x0C9,
   0x0D5, 0x0D6, 0x0D7, 0x0E0, 0x0E1, 0x0E2, 0x0E3, 0x0E4, 0x0F0, 0x0F1, 0x0F3, 0x0F4, 0x0F5, 0x0F6, 0x0F7, 0x118,
   0x119, 0x11A, 0x13C, 0x13D, 0x140, 0x158, 0x159, 0x15B, 0x183, 0x185]
/-- The words of the RI format. -/
def riOpcodes : List Nat :=
  [0x020, 0x021, 0x022, 0x029, 0x02A, 0x02C, 0x02D, 0x02E, 0x03B, 0x03D, 0x03F, 0x060, 0x180, 0x182]
/-- The words of the M format. -/
def mOpcodes : List Nat :=
  [0x0F2, 0x100, 0x101, 0x102, 0x103, 0x104, 0x110, 0x111]
/-- The words of the MS format. -/
def msOpcodes : List Nat :=
  [0x108, 0x109, 0x10A, 0x10B]
/-- The words of the B format. -/
def bOpcodes : List Nat :=
  [0x0C0, 0x0C2, 0x0C4, 0x0CA, 0x0D3, 0x0D4, 0x184]
/-- The words of the G format. -/
def gOpcodes : List Nat :=
  [0x0D0, 0x0D1, 0x0D2, 0x0D8]
/-- The words of the E format. -/
def eOpcodes : List Nat :=
  [0x141, 0x142, 0x143, 0x144, 0x145, 0x150, 0x151, 0x152, 0x153]
/-- MOV, DRAIN, XFORM, BUFREL and SYSW. -/
def sharedOpcodes : List Nat := [0x01F, 0x146, 0x147, 0x15A, 0x181]

theorem writes_of_arithmeticOpcodes : ∀ k ∈ arithmeticOpcodes, ∀ w, opcodeOf w = k → (decodeWord w).writes w := by
  simp only [arithmeticOpcodes, List.forall_mem_cons, List.not_mem_nil, false_implies, implies_true, and_true]
  and_intros
  all_goals
    intro w h
    rw [decodeWord, h]
    exact ⟨wf_getRRR w, congrArg some (putRRR_getRRR h)⟩

theorem writes_of_controlOpcodes : ∀ k ∈ controlOpcodes, ∀ w, opcodeOf w = k → (decodeWord w).writes w := by
  simp only [controlOpcodes, List.forall_mem_cons, List.not_mem_nil, false_implies, implies_true, and_true]
  and_intros
  all_goals
    intro w h
    rw [decodeWord, h]
    exact ⟨wf_getRRR w, congrArg some (putRRR_getRRR h)⟩

theorem writes_of_riOpcodes : ∀ k ∈ riOpcodes, ∀ w, opcodeOf w = k → (decodeWord w).writes w := by
  simp only [riOpcodes, List.forall_mem_cons, List.not_mem_nil, false_implies, implies_true, and_true]
  and_intros
  all_goals
    intro w h
    rw [decodeWord, h]
    exact ⟨wf_getRI w, congrArg some (putRI_getRI h)⟩

theorem writes_of_mOpcodes : ∀ k ∈ mOpcodes, ∀ w, opcodeOf w = k → (decodeWord w).writes w := by
  simp only [mOpcodes, List.forall_mem_cons, List.not_mem_nil, false_implies, implies_true, and_true]
  and_intros
  all_goals
    intro w h
    rw [decodeWord, h]
    exact ⟨wf_getM w, congrArg some (putM_getM h)⟩

theorem writes_of_msOpcodes : ∀ k ∈ msOpcodes, ∀ w, opcodeOf w = k → (decodeWord w).writes w := by
  simp only [msOpcodes, List.forall_mem_cons, List.not_mem_nil, false_implies, implies_true, and_true]
  and_intros
  all_goals
    intro w h
    rw [decodeWord, h]
    exact ⟨wf_getMS w, congrArg some (putMS_getMS h)⟩

theorem writes_of_bOpcodes : ∀ k ∈ bOpcodes, ∀ w, opcodeOf w = k → (decodeWord w).writes w := by
  simp only [bOpcodes, List.forall_mem_cons, List.not_mem_nil, false_implies, implies_true, and_true]
  and_intros
  all_goals
    intro w h
    rw [decodeWord, h]
    exact ⟨wf_getB w, congrArg some (putB_getB h)⟩

theorem writes_of_gOpcodes : ∀ k ∈ gOpcodes, ∀ w, opcodeOf w = k → (decodeWord w).writes w := by
  simp only [gOpcodes, List.forall_mem_cons, List.not_mem_nil, false_implies, implies_true, and_true]
  and_intros
  all_goals
    intro w h
    rw [decodeWord, h]
    exact ⟨wf_getG w, congrArg some (putG_getG h)⟩

theorem writes_of_eOpcodes : ∀ k ∈ eOpcodes, ∀ w, opcodeOf w = k → (decodeWord w).writes w := by
  simp only [eOpcodes, List.forall_mem_cons, List.not_mem_nil, false_implies, implies_true, and_true]
  and_intros
  all_goals
    intro w h
    rw [decodeWord, h]
    exact ⟨wf_getE w, congrArg some (putE_getE h)⟩

theorem writes_of_sharedOpcodes : ∀ k ∈ sharedOpcodes, ∀ w, opcodeOf w = k → (decodeWord w).writes w := by
  simp only [sharedOpcodes, List.forall_mem_cons, List.not_mem_nil, false_implies, implies_true, and_true]
  refine ⟨fun w h => ?mov, fun w h => ?drain, fun w h => ?xform, fun w h => ?bufrel, fun w h => ?sysw⟩
  all_goals rw [decodeWord, h]
  case mov => exact Instr.writes_splitMov (wf_getRRR w) (putRRR_getRRR h)
  case drain => exact Instr.writes_splitDrain (wf_getE w) (putE_getE h)
  case xform => exact Instr.writes_splitXform (wf_getE w) (putE_getE h)
  case bufrel => exact Instr.writes_splitBufrel (wf_getRRR w) (putRRR_getRRR h)
  case sysw => exact Instr.writes_splitSysw (wf_getRI w) (putRI_getRI h)

/-- The lists leave out no assigned opcode. -/
theorem assignedOpcodes_subset : ∀ k ∈ assignedOpcodes, k ∈ arithmeticOpcodes ∨ k ∈ controlOpcodes ∨ k ∈ riOpcodes
    ∨ k ∈ mOpcodes ∨ k ∈ msOpcodes ∨ k ∈ bOpcodes ∨ k ∈ gOpcodes ∨ k ∈ eOpcodes ∨ k ∈ sharedOpcodes := by
  decide +kernel

/-- No bit of a word is dropped (R259 to R270). -/
theorem decodeWord_writes (w : IWord) : (decodeWord w).writes w := by
  by_cases hk : opcodeOf w ∈ assignedOpcodes
  case pos =>
    rcases assignedOpcodes_subset _ hk with h | h | h | h | h | h | h | h | h
    · exact writes_of_arithmeticOpcodes _ h w rfl
    · exact writes_of_controlOpcodes _ h w rfl
    · exact writes_of_riOpcodes _ h w rfl
    · exact writes_of_mOpcodes _ h w rfl
    · exact writes_of_msOpcodes _ h w rfl
    · exact writes_of_bOpcodes _ h w rfl
    · exact writes_of_gOpcodes _ h w rfl
    · exact writes_of_eOpcodes _ h w rfl
    · exact writes_of_sharedOpcodes _ h w rfl
  case neg =>
    have hwf : (Instr.unassignedOpcode w).wf = true := by
      rw [Instr.wf, Bool.not_eq_true', ← Bool.not_eq_true, List.contains_iff_mem]; exact hk
    rw [Laws.RoundTrip.unassignedOpcode w w hwf rfl]
    exact ⟨hwf, rfl⟩

/-- The word of a well-formed instruction decodes to it: the family's lemma of each word; an event has no word. -/
theorem decodeWord_encode : (i : Instr) → Laws.RoundTrip.Statement i
  | .add x => Laws.RoundTrip.add x | .addRI x => Laws.RoundTrip.addRI x | .sub x => Laws.RoundTrip.sub x
  | .subRI x => Laws.RoundTrip.subRI x | .mul x => Laws.RoundTrip.mul x | .mulRI x => Laws.RoundTrip.mulRI x
  | .mulh x => Laws.RoundTrip.mulh x | .mad x => Laws.RoundTrip.mad x | .div x => Laws.RoundTrip.div x
  | .rem x => Laws.RoundTrip.rem x | .neg x => Laws.RoundTrip.neg x | .abs x => Laws.RoundTrip.abs x
  | .min x => Laws.RoundTrip.min x | .minRI x => Laws.RoundTrip.minRI x | .max x => Laws.RoundTrip.max x
  | .maxRI x => Laws.RoundTrip.maxRI x | .addmin x => Laws.RoundTrip.addmin x | .and x => Laws.RoundTrip.and x
  | .andRI x => Laws.RoundTrip.andRI x | .or x => Laws.RoundTrip.or x | .orRI x => Laws.RoundTrip.orRI x
  | .xor x => Laws.RoundTrip.xor x | .xorRI x => Laws.RoundTrip.xorRI x | .not x => Laws.RoundTrip.not x
  | .shl x => Laws.RoundTrip.shl x | .shr x => Laws.RoundTrip.shr x | .sra x => Laws.RoundTrip.sra x
  | .rot x => Laws.RoundTrip.rot x | .fsh x => Laws.RoundTrip.fsh x | .clz x => Laws.RoundTrip.clz x
  | .ctz x => Laws.RoundTrip.ctz x | .popc x => Laws.RoundTrip.popc x | .brev x => Laws.RoundTrip.brev x
  | .bfx x => Laws.RoundTrip.bfx x | .bfi x => Laws.RoundTrip.bfi x | .lea x => Laws.RoundTrip.lea x
  | .leaRI x => Laws.RoundTrip.leaRI x | .sel x => Laws.RoundTrip.sel x | .cmp x => Laws.RoundTrip.cmp x
  | .cmpRI x => Laws.RoundTrip.cmpRI x | .mov x => Laws.RoundTrip.mov x | .movi x => Laws.RoundTrip.movi x
  | .xmWrite x => Laws.RoundTrip.xmWrite x | .lrandWrite x => Laws.RoundTrip.lrandWrite x
  | .replaymWrite x => Laws.RoundTrip.replaymWrite x | .registerWrite x => Laws.RoundTrip.registerWrite x
  | .fadd x => Laws.RoundTrip.fadd x | .fsub x => Laws.RoundTrip.fsub x | .fmul x => Laws.RoundTrip.fmul x
  | .fma x => Laws.RoundTrip.fma x | .fmin x => Laws.RoundTrip.fmin x | .fmax x => Laws.RoundTrip.fmax x
  | .fcmp x => Laws.RoundTrip.fcmp x | .fclass x => Laws.RoundTrip.fclass x | .fdiv x => Laws.RoundTrip.fdiv x
  | .fsqrt x => Laws.RoundTrip.fsqrt x | .frcp x => Laws.RoundTrip.frcp x | .frsq x => Laws.RoundTrip.frsq x
  | .fexp x => Laws.RoundTrip.fexp x | .flog x => Laws.RoundTrip.flog x | .fsin x => Laws.RoundTrip.fsin x
  | .fcos x => Laws.RoundTrip.fcos x | .ftanh x => Laws.RoundTrip.ftanh x | .ferf x => Laws.RoundTrip.ferf x
  | .frnd x => Laws.RoundTrip.frnd x | .cvt x => Laws.RoundTrip.cvt x | .vote x => Laws.RoundTrip.vote x
  | .shfl x => Laws.RoundTrip.shfl x | .lsh x => Laws.RoundTrip.lsh x | .perm x => Laws.RoundTrip.perm x
  | .ptld x => Laws.RoundTrip.ptld x | .lred x => Laws.RoundTrip.lred x | .lscan x => Laws.RoundTrip.lscan x
  | .matchLanes x => Laws.RoundTrip.matchLanes x | .plog x => Laws.RoundTrip.plog x | .bra x => Laws.RoundTrip.bra x
  | .brx x => Laws.RoundTrip.brx x | .call x => Laws.RoundTrip.call x | .ret x => Laws.RoundTrip.ret x
  | .join x => Laws.RoundTrip.join x | .rwait x => Laws.RoundTrip.rwait x | .brk x => Laws.RoundTrip.brk x
  | .exit x => Laws.RoundTrip.exit x | .yield x => Laws.RoundTrip.yield x | .nop x => Laws.RoundTrip.nop x
  | .dispatch x => Laws.RoundTrip.dispatch x | .spawn x => Laws.RoundTrip.spawn x
  | .spawng x => Laws.RoundTrip.spawng x | .spawnv x => Laws.RoundTrip.spawnv x | .await x => Laws.RoundTrip.await x
  | .awaita x => Laws.RoundTrip.awaita x | .testf x => Laws.RoundTrip.testf x | .cancel x => Laws.RoundTrip.cancel x
  | .retv x => Laws.RoundTrip.retv x | .trecord x => Laws.RoundTrip.trecord x | .shput x => Laws.RoundTrip.shput x
  | .shtake x => Laws.RoundTrip.shtake x | .shdepth x => Laws.RoundTrip.shdepth x
  | .shbind x => Laws.RoundTrip.shbind x | .shprio x => Laws.RoundTrip.shprio x | .modnew x => Laws.RoundTrip.modnew x
  | .modfree x => Laws.RoundTrip.modfree x | .modset x => Laws.RoundTrip.modset x
  | .propagate x => Laws.RoundTrip.propagate x | .tdrop x => Laws.RoundTrip.tdrop x
  | .tstat x => Laws.RoundTrip.tstat x | .tkey x => Laws.RoundTrip.tkey x | .qend x => Laws.RoundTrip.qend x
  | .ld x => Laws.RoundTrip.ld x | .st x => Laws.RoundTrip.st x | .ldv x => Laws.RoundTrip.ldv x
  | .stv x => Laws.RoundTrip.stv x | .pref x => Laws.RoundTrip.pref x | .ldx x => Laws.RoundTrip.ldx x
  | .stx x => Laws.RoundTrip.stx x | .atom x => Laws.RoundTrip.atom x | .mwait x => Laws.RoundTrip.mwait x
  | .ldlbl x => Laws.RoundTrip.ldlbl x | .stlbl x => Laws.RoundTrip.stlbl x | .bar x => Laws.RoundTrip.bar x
  | .bara x => Laws.RoundTrip.bara x | .barw x => Laws.RoundTrip.barw x | .hashrd x => Laws.RoundTrip.hashrd x
  | .hashclr x => Laws.RoundTrip.hashclr x | .tcfg x => Laws.RoundTrip.tcfg x | .mma x => Laws.RoundTrip.mma x
  | .mmac x => Laws.RoundTrip.mmac x | .aclr x => Laws.RoundTrip.aclr x | .ald x => Laws.RoundTrip.ald x
  | .ast x => Laws.RoundTrip.ast x | .drain x => Laws.RoundTrip.drain x | .drainAdd x => Laws.RoundTrip.drainAdd x
  | .xformFwd x => Laws.RoundTrip.xformFwd x | .xformInv x => Laws.RoundTrip.xformInv x
  | .copy x => Laws.RoundTrip.copy x | .copyt x => Laws.RoundTrip.copyt x | .copyf x => Laws.RoundTrip.copyf x
  | .job x => Laws.RoundTrip.job x | .bufexp x => Laws.RoundTrip.bufexp x | .bufget x => Laws.RoundTrip.bufget x
  | .bufrel x => Laws.RoundTrip.bufrel x | .bufrelAbort x => Laws.RoundTrip.bufrelAbort x
  | .bufst x => Laws.RoundTrip.bufst x | .sysr x => Laws.RoundTrip.sysr x | .sysw x => Laws.RoundTrip.sysw x
  | .pmselWrite x => Laws.RoundTrip.pmselWrite x | .trap x => Laws.RoundTrip.trap x | .tret x => Laws.RoundTrip.tret x
  | .phint x => Laws.RoundTrip.phint x | .bkpt x => Laws.RoundTrip.bkpt x
  | .unassignedOpcode x => Laws.RoundTrip.unassignedOpcode x
  | .rwaitBudgetExpiry _ | .modsetHeldCompare | .propagationBegin _ | .reexecDispatch _ _ _ | .mwaitTimeout _ _
  | .loadReturn _ _ | .launchPacket _ | .launchComplete _ | .taskDispatch _ _ _ | .continuationResume _ _ _ _
  | .galleryModeChange _ _ | .cardTake _ | .copyChunk _ | .tensorCopyChunk _ | .inflateJob _ | .drainTileRead _
  | .jobComplete _ | .crcRetry _ | .sequencerStep _ | .xuStep _ | .haltLine | .contextResume | .contextTerminate
  | .traceFaultResponse | .sliceEnd | .graceWindowClose | .contextRestore _ | .singleStep _ | .relabel _
  | .translationInvalidate _ _ | .codeObjectLoad _ | .packageReset _ _ | .rmaWrite _ _ _ _ | .rmaRead _ _ _ _
  | .rmaAtomic _ _ _ _ | .queueSend _ _ _ _ _ | .attachRequest _ | .quoteRequest _ | .createContext _ _
  | .destroyContext _ | .createLaunchQueue _ | .createShelfEntry _ | .setQuota _ | .startMigrationRound _
  | .finalRound _ | .reportCopyQueue _ | .carrelGate _ | .carrelWake _ | .instructionFetchFault _ _
  | .gangResume _ | .accessTableChange _ _ _ _ | .nvmeOverFabricsCommand _ _ => Laws.RoundTrip.of_none rfl

/-! A word's bytes (R5, R259). -/

theorem bytesToNat_natToBytes (n v : Nat) : bytesToNat (natToBytes n v) = v % 256 ^ n := by
  induction n generalizing v with
  | zero => rw [natToBytes, bytesToNat, Nat.pow_zero, Nat.mod_one]
  | succ n ih => rw [natToBytes, bytesToNat, ih, BitVec.toNat_ofNat, Nat.pow_succ' (m := 256)]; exact Nat.mod_mul.symm

theorem wordOfBytes_encodeBytes (w : IWord) : wordOfBytes (encodeBytes w) = w := by
  have hw : w.toNat < 256 ^ 12 := w.isLt
  rw [wordOfBytes, encodeBytes, bytesToNat_natToBytes, Nat.mod_eq_of_lt hw, BitVec.ofNat_toNat, BitVec.setWidth_eq]

/-- The decoder reads the word at the head of a byte list (R259). -/
theorem decode_encodeBytes (w : IWord) (rest : List Byte) : decode (encodeBytes w ++ rest) = .ok (decodeWord w, rest) := by
  have hlen : (encodeBytes w).length = 12 := Machine.length_natToBytes 12 w.toNat
  rw [decode, if_neg (by rw [List.length_append, hlen]; omega), List.take_left' hlen, List.drop_left' hlen,
    wordOfBytes_encodeBytes]

end Sys2Proof

open Sys2Proof

/-- Settles O1: the word of each row decodes to it, and a word is the little-endian number of its twelve bytes. -/
theorem decodeInvertsEncode : Obligations.DecodeInvertsEncode := by
  intro i w rest hwf hw
  rw [decode_encodeBytes, decodeWord_encode i w hwf hw]

/-- Settles O2: each opcode's row keeps the fields of its format, and an unassigned opcode keeps the word. -/
theorem encodeInvertsDecode : Obligations.EncodeInvertsDecode := decodeWord_writes
end

section
namespace Sys2Proof.Machine
open Sys2Proof

/-! RI arithmetic (R264, R269). -/

/-- An RI word that issues completes with what its operation makes of the source's bits and of the imm field. -/
theorem aluImm_completes {s : State} {x : RI} {fields : Bool} {m : Mask} (f : Nat → DWord → DWord → DWord)
    (hi : s.issuesRi x fields m) :
    ∃ t, aluImm s x fields f = .next t ∧ wentOn s t (s.pc + 12)
      ∧ wroteDest s t m x.hdr.d (typeWidth x.typ)
          (fun l => f l (readLane s x.typ x.imm x.a l) (immFieldValue x.typ x.imm))
          (f 32 (readGang s x.typ x.imm x.a) (immFieldValue x.typ x.imm)) :=
  ⟨_, issue_of_issues _ hi, completes_took x.hdr rfl (Prod.mk.inj (Gang.aside_took ..)).1⟩

/-- Each row with an immediate is RI arithmetic (R264, R279). -/
theorem exec_immediateRow : ∀ r ∈ immediateRows, ∀ (x : RI) (s : State),
    exec (r.make x) s = aluImm s x (r.fields x) fun _ => r.op x := by
  simp only [immediateRows, List.forall_mem_cons]
  exact ⟨fun _ _ => rfl, fun _ _ => rfl, fun _ _ => rfl, fun _ _ => rfl, fun _ _ => rfl, fun _ _ => rfl, fun _ _ => rfl,
    fun _ _ => rfl, fun _ _ => rfl, List.forall_mem_nil _⟩

end Sys2Proof.Machine

open Sys2Proof Sys2Proof.Machine

/-- Settles O4: each row is RI arithmetic, which completes with its operation's bits. -/
theorem immediateResult : Obligations.ImmediateResult := by
  intro r hr x s m hi
  rw [exec_immediateRow r hr]
  exact aluImm_completes (fun _ => r.op x) hi
end

section
namespace Sys2Proof.Machine
open Sys2Proof

/-! The never guard (R14, R95, R261): each word of the RRR format that it stops only goes on. -/

/-- Each integer row is RRR arithmetic (R279). -/
theorem exec_integerRow : ∀ r ∈ integerRows, ∀ (x : RRR) (s : State),
    exec (r.make x) s = alu s x r.sources (r.fields x) fun _ => r.op x := by
  simp only [integerRows, List.cons_append, List.nil_append, List.forall_mem_cons, List.not_mem_nil, false_implies,
    implies_true, and_true]
  and_intros
  all_goals exact fun _ _ => rfl

theorem arithmeticWords_eq : arithmeticWords = integerRows.map RrrRow.make := rfl

section
variable {h : Header} (s : State) (hi : h.idx = 7) (hn : h.neg = true)
include hi hn

theorem issue_never (c : WordClass) (legal : Bool) (dsts : List (Operand × Bool)) (srcs : Mask → List Src)
    (act : Mask → Result) : issue s h c legal dsts srcs act = .next (s.advance h) :=
  issue_of_no legal dsts srcs act (acts_never s.gang h c hi hn)

/-- A word that acts for each task of a packed gang is, under the never guard, one no-op of the gang (R95, R302). -/
theorem perTask_never (one : Bool) {f : State → Result} (hf : f s = .next (s.advance h)) :
    perTask h one f s = .next (s.advance h) := by
  have hidle : s.gang.idles h = true := by simp [Gang.idles, hi, hn]
  unfold perTask
  extract_lets todo
  rw [if_pos hidle]
  split
  · exact hf
  · rfl

end

section
variable {x : RRR} (s : State) (hi : x.hdr.idx = 7) (hn : x.hdr.neg = true)
include hi hn

theorem exec_arithmeticWord_never : ∀ mk ∈ arithmeticWords, exec (mk x) s = .next (s.advance x.hdr) := by
  intro mk hmk
  obtain ⟨r, hr, rfl⟩ := List.mem_map.1 (arithmeticWords_eq ▸ hmk)
  rw [exec_integerRow r hr]
  exact issue_never s hi hn ..

theorem exec_mov_never : exec (.mov x) s = .next (s.advance x.hdr) := by
  have hact : movAct x s = .next (s.advance x.hdr) := issue_never s hi hn ..
  change execMov x s = _
  unfold execMov
  split
  · exact perTask_never s hi hn false hact
  · exact hact

theorem exec_selectWord_never : ∀ mk ∈ selectWords, exec (mk x) s = .next (s.advance x.hdr) := by
  simp only [selectWords, List.forall_mem_cons, List.not_mem_nil, false_implies, implies_true, and_true]
  refine ⟨?_, exec_mov_never s hi hn, ?_⟩
  and_intros
  all_goals exact issue_never s hi hn ..

/-- The named cases are the words that act for each task of a packed gang (R302). -/
theorem exec_controlWord_never : ∀ mk ∈ controlWords, exec (mk x) s = .next (s.advance x.hdr) := by
  simp only [controlWords, List.forall_mem_cons, List.not_mem_nil, false_implies, implies_true, and_true]
  refine ⟨?_, ?_, ?_, ?_, ?_, ?_, ?_, ?_, ?_, ?_, ?_, ?_, ?exit, ?_, ?_, ?retv, ?testf, ?cancel, ?_, ?_, ?_, ?_, ?_, ?_, ?_,
    ?propagate, ?tstat, ?tdrop, ?_, ?_, ?_, ?_⟩
  case exit => exact perTask_never s hi hn false (f := exitTask x) (issue_never s hi hn ..)
  case retv => exact perTask_never s hi hn false (f := retvTask x) (issue_never s hi hn ..)
  case testf => exact perTask_never s hi hn false (f := testfTask x) (issue_never s hi hn ..)
  case cancel => exact perTask_never s hi hn false (f := cancelTask x) (issue_never s hi hn ..)
  case propagate => exact perTask_never s hi hn false (f := propagateTask x) (issue_never s hi hn ..)
  case tstat => exact perTask_never s hi hn false (f := tstatTask x) (issue_never s hi hn ..)
  case tdrop => exact perTask_never s hi hn false (f := tdropTask x) (issue_never s hi hn ..)
  all_goals exact issue_never s hi hn ..

theorem exec_systemWord_never : ∀ mk ∈ systemWords, exec (mk x) s = .next (s.advance x.hdr) := by
  simp only [systemWords, List.forall_mem_cons, List.not_mem_nil, false_implies, implies_true, and_true]
  and_intros
  all_goals exact issue_never s hi hn ..

theorem exec_guardedWord_never : ∀ mk ∈ guardedWords, exec (mk x) s = .next (s.advance x.hdr) := by
  simp only [guardedWords, List.forall_mem_append]
  exact ⟨⟨⟨exec_arithmeticWord_never s hi hn, exec_selectWord_never s hi hn⟩, exec_controlWord_never s hi hn⟩,
    exec_systemWord_never s hi hn⟩

end

/-- What a gang has of another that stands elsewhere: all but its paths and what hints set. -/
theorem registersKept_of_offIssue {s t : State} (h : t.gang.offIssue = s.gang.offIssue) : registersKept s t := by
  let g' := t.gang
  exact congrArg (fun g : Gang => { g with
    p0 := g'.p0, p1 := g'.p1, younger := g'.younger, split := g'.split, focus := g'.focus, run := g'.run,
    ceded := g'.ceded, cededAt := g'.cededAt, stopped := g'.stopped, we := g'.we, wo := g'.wo, q := g'.q,
    flights := g'.flights, hash := g'.hash, trapc := g'.trapc, trappc := g'.trappc, trapSplit := g'.trapSplit,
    report := g'.report, mode := g'.mode, folio := g'.folio, puts := g'.puts }) h

/-! What comes before a word's effect (R271, R92, R17): one rule for each answer of the order of issue. -/

section
variable {s : State} {h : Header} {c : WordClass} {legal : Bool} {dsts : List (Operand × Bool)} {srcs : Mask → List Src}
  {act : Mask → Result} {m : Mask}

theorem issue_of_illegal (ha : acts s.gang h c = .illegal m) : issue s h c legal dsts srcs act = illegal s m := by
  simp only [issue, issueActs, ha]

variable (ha : acts s.gang h c = .yes m)
include ha

theorem issue_of_badFields (hbad : h.rsv = true ∨ legal = false) :
    issue s h c legal dsts srcs act = illegal s m := by
  simp only [issue, issueActs, ha]
  exact if_pos (by simpa using hbad)

variable (hrsv : h.rsv = false) (hlegal : legal = true)
include hrsv hlegal

theorem issue_of_dstEmpty (hd : ∃ d ∈ dsts, dstEmpty s d.2 m d.1 = true) :
    issue s h c legal dsts srcs act = .next s.holdEmpty := by
  simp only [issue, issueActs, ha]
  rw [if_neg (by simp [hrsv, hlegal]), if_pos (List.any_eq_true.2 hd)]

variable (hd : ∀ d ∈ dsts, dstEmpty s d.2 m d.1 = false)
include hd

theorem issue_of_srcBlocks
    (hblock : ∃ y ∈ srcs m, y.empty s.gang = true ∧ y.trap = false ∧ y.lost s = false) :
    issue s h c legal dsts srcs act = .next s.holdEmpty := by
  obtain ⟨y, hy, he, ht, hl⟩ := hblock
  simp only [issue, issueActs, ha]
  rw [if_neg (by simp [hrsv, hlegal]), if_neg (by simpa using hd), if_pos]
  exact List.any_eq_true.2 ⟨y, List.mem_filter.2 ⟨hy, he⟩, by simp [ht, hl]⟩

/-- Where no empty source blocks, the first empty one traps. -/
theorem issue_of_srcTraps {y : Src}
    (hblock : ∀ y ∈ srcs m, ¬ (y.empty s.gang = true ∧ y.trap = false ∧ y.lost s = false))
    (hfirst : (srcs m).find? (fun y => y.empty s.gang) = some y) :
    ∃ ls, issue s h c legal dsts srcs act = takeTrap s Trap.feEmpty y.field ls m ls s.pc := by
  have htraps : ∀ z ∈ srcs m, z.empty s.gang = true → (z.trap || z.lost s) = true := fun z hz he => by
    rw [← Bool.not_eq_false, Bool.or_eq_false_iff]
    exact fun hno => hblock z hz ⟨he, hno⟩
  obtain ⟨ys, hys⟩ : ∃ ys, (srcs m).filter (fun z => z.empty s.gang) = y :: ys :=
    List.head?_eq_some_iff.1 (List.head?_filter.trans hfirst)
  have hany : ((srcs m).filter fun z => z.empty s.gang).any (fun z => !z.trap && !z.lost s) = false :=
    List.any_eq_false.2 fun z hz => by
      obtain ⟨hz, he⟩ := List.mem_filter.1 hz
      rw [← Bool.not_or, htraps z hz he]; decide
  have hfind : ((srcs m).filter fun z => z.empty s.gang).find? (fun z => z.trap || z.lost s) = some y := by
    rw [hys, List.find?_cons_of_pos]
    exact htraps y (List.mem_of_find?_eq_some hfirst) (List.find?_some hfirst :)
  simp only [issue, issueActs, ha]
  rw [if_neg (by simp [hrsv, hlegal]), if_neg (by simpa using hd), if_neg (by rw [hany]; decide), hfind]
  exact ⟨_, rfl⟩

end

/-! A user trap (R141, R142). -/

section
variable (cause : BitVec 8) (detail : BitVec 16) (ls : Mask) (younger : Bool)

theorem trapcOf_cause : (trapcOf cause detail ls younger).extractLsb' 0 8 = cause :=
  field_here _ _ _ (by decide) (field_here _ _ _ (by decide) BitVec.extractLsb'_eq_self)

theorem trapcOf_detail : (trapcOf cause detail ls younger).extractLsb' 16 16 = detail :=
  field_above (ls ++ detail) _ 0 _ _ rfl (field_here _ _ _ (by decide) BitVec.extractLsb'_eq_self)

theorem trapcOf_inHandler : (trapcOf cause detail ls younger).getLsbD 8 = true :=
  bit_here _ _ _ (by decide) (bit_above _ _ 0 _ rfl (bit_here _ _ _ (by decide) rfl))

end

section
variable (s : State) (cause : BitVec 8) (detail : BitVec 16) (ls : Mask) (ret : DWord)

/-- The gang as it takes a trap, before it settles at its handler. -/
def Gang.atHandler (g : Gang) (cause : BitVec 8) (detail : BitVec 16) (ls : Mask) (ret : DWord) : Gang :=
  ({ g.stepStop with
      trappc := ret, trapc := trapcOf cause detail ls g.younger, trapSplit := g.split.isSome, run := 0,
      ceded := false } : Gang).modPath fun p => { p.leaves g.trapv with wait := .none, acted := p.acted }

theorem Gang.atHandler_spec (g : Gang) :
    (g.atHandler cause detail ls ret).offIssue = { g.offIssue with trappc := ret, trapc := trapcOf cause detail ls g.younger }
    ∧ (g.atHandler cause detail ls ret).path.pc = g.trapv ∧ (g.atHandler cause detail ls ret).path.stack = g.path.stack
    ∧ (g.atHandler cause detail ls ret).split = g.split := by
  rw [Gang.atHandler, Gang.modPath, Gang.offIssue_setPath, Gang.path_setPath, Gang.split_setPath]
  unfold Gang.stepStop
  split <;> exact ⟨rfl, rfl, rfl, rfl⟩

theorem State.trapped_gang : (s.trapped cause detail ls ret).gang = (s.gang.atHandler cause detail ls ret).settled false :=
  State.modGang_gang s fun g => (g.atHandler cause detail ls ret).settled false

theorem State.offIssue_trapped : (s.trapped cause detail ls ret).gang.offIssue =
    { s.gang.offIssue with trappc := ret, trapc := trapcOf cause detail ls s.gang.younger } := by
  rw [State.trapped_gang, Gang.settled, Gang.offIssue_settle, (s.gang.atHandler_spec cause detail ls ret).1]

theorem State.trapped_trappc : (s.trapped cause detail ls ret).gang.trappc = ret :=
  (congrArg Gang.trappc (s.offIssue_trapped cause detail ls ret) :)

theorem State.trapped_trapc : (s.trapped cause detail ls ret).gang.trapc = trapcOf cause detail ls s.gang.younger :=
  (congrArg Gang.trapc (s.offIssue_trapped cause detail ls ret) :)

/-- A trap that is delivered goes on at the handler, where no region is open. -/
theorem wentOn_trapped : wentOn s (s.trapped cause detail ls ret) s.gang.trapv := by
  refine ⟨rfl, rfl, rfl, rfl, rfl, fun hstack hsplit => ?_⟩
  obtain ⟨-, hpc, hs, hp⟩ := s.gang.atHandler_spec cause detail ls ret
  rw [State.pc, State.trapped_gang, (Gang.settled_flat _ (hs.trans hstack) (hp.trans hsplit)).1, hpc]

/-- With a handler the trap is taken: TRAPPC, TRAPC and the place are those of R142. -/
theorem takeTrap_taken (as os : Mask) (htv : s.gang.trapv ≠ 0) (hin : s.gang.inHandler = false)
    (hsh : s.gang.isShadow = false) :
    ∃ t, takeTrap s cause detail ls as os ret = .next t ∧ wentOn s t s.gang.trapv ∧ t.gang.trappc = ret
      ∧ t.gang.trapc.extractLsb' 0 8 = cause ∧ t.gang.inHandler = true ∧ t.gang.trapc.extractLsb' 16 16 = detail := by
  have hhandler : s.gang.noHandler = false := by rw [Gang.noHandler, beq_false_of_ne htv, hin, hsh]; rfl
  refine ⟨_, by rw [takeTrap, hhandler]; rfl, wentOn_trapped s cause detail ls ret, s.trapped_trappc cause detail ls ret, ?_⟩
  rw [Gang.inHandler, State.trapped_trapc]
  exact ⟨trapcOf_cause .., trapcOf_inHandler .., trapcOf_detail ..⟩

end
end Sys2Proof.Machine

open Sys2Proof Sys2Proof.Machine

/-- Settles O53: a guarded word under the never guard is the gang's step to the next word; an integer row is RRR
arithmetic, so the order of issue answers for it. -/
theorem issueOrder : Obligations.IssueOrder := by
  refine ⟨fun mk hmk x s hi hn => ?never, fun r hr x s m => ?order⟩
  case never =>
    have hgang := s.offIssue_advance x.hdr
    exact ⟨_, exec_guardedWord_never s hi hn mk hmk, wentOn_advance x.hdr rfl rfl rfl rfl rfl rfl,
      registersKept_of_offIssue hgang, (congrArg Gang.we hgang :), s.advance_hash x.hdr, (congrArg Gang.q hgang :),
      (congrArg Gang.flights hgang :), (congrArg Gang.mode hgang :)⟩
  case order =>
    rw [exec_integerRow r hr]
    intro c wide legal srcs blocks
    refine ⟨fun ha => ⟨_, issue_of_illegal ha, rfl⟩, fun ha => ⟨fun hbad => ⟨_, issue_of_badFields ha hbad, rfl⟩,
      fun hrsv hlegal => ⟨fun hd => ?_, fun hd => ⟨fun hb => ?_, fun y hb hy htv hin hsh => ?_⟩⟩⟩⟩
    · exact issue_of_dstEmpty ha hrsv hlegal ⟨_, List.mem_singleton_self _, hd⟩
    · exact issue_of_srcBlocks ha hrsv hlegal (List.forall_mem_singleton.2 hd) hb
    · obtain ⟨ls, htrap⟩ := issue_of_srcTraps (dsts := [(x.hdr.d, wide)]) (srcs := rrrSrcs x r.sources wide) ha hrsv hlegal
        (List.forall_mem_singleton.2 hd) hb hy
      obtain ⟨t, ht, htaken⟩ := takeTrap_taken s Trap.feEmpty y.field ls s.pc m ls htv hin hsh
      exact ⟨t, htrap.trans ht, htaken⟩
end

section
namespace Sys2Proof.Machine
open Sys2Proof

/-! Masks of lanes (R14, R96). -/

theorem testBit_foldr_bits (f : Nat → Bool) (xs : List Nat) (k : Nat) :
    (xs.foldr (fun l acc => acc * 2 + (f l).toNat) 0).testBit k = (xs[k]?.map f).getD false := by
  induction xs generalizing k with
  | nil => simp
  | cons x xs ih =>
    have hbit : ∀ n : Nat, n * 2 + (f x).toNat = Nat.bit (f x) n := fun n => by rw [Nat.bit_val, Nat.mul_comm]
    cases k with
    | zero => rw [List.foldr_cons, hbit, Nat.testBit_bit_zero]; rfl
    | succ k => rw [List.foldr_cons, hbit, Nat.testBit_bit_succ, ih, List.getElem?_cons_succ]

theorem Mask.getLsbD_ofFn (f : Nat → Bool) {l : Nat} (hl : l < 32) : (Mask.ofFn f).getLsbD l = f l := by
  rw [Mask.ofFn, BitVec.getLsbD_ofNat, testBit_foldr_bits, List.getElem?_range hl]
  simp [hl]

theorem Mask.lanes_sorted (m : Mask) : m.lanes.Pairwise (· < ·) := List.pairwise_lt_range.filter _

/-! The checks of the lanes (R271, R334): the fault that ranks first is that of the lowest lane that has it. -/

/-- The lanes whose checks fail, with what each raises. -/
def laneErrs (ls : List Nat) (f : Nat → Except LaneErr LaneAcc) : List (Nat × LaneErr) :=
  (ls.map fun l => (l, f l)).filterMap fun r => match r.2 with
    | .error e => some (r.1, e)
    | .ok _ => none

theorem laneErrs_append (as bs : List Nat) (f : Nat → Except LaneErr LaneAcc) :
    laneErrs (as ++ bs) f = laneErrs as f ++ laneErrs bs f := by
  simp only [laneErrs, List.map_append, List.filterMap_append]

theorem laneErrs_cons {l : Nat} {f : Nat → Except LaneErr LaneAcc} {e : LaneErr} (h : f l = .error e) (ls : List Nat) :
    laneErrs (l :: ls) f = (l, e) :: laneErrs ls f := by
  simp only [laneErrs, List.map_cons, List.filterMap_cons, h]

theorem mem_laneErrs {ls : List Nat} {f : Nat → Except LaneErr LaneAcc} {l : Nat} {e : LaneErr} :
    (l, e) ∈ laneErrs ls f ↔ l ∈ ls ∧ f l = .error e := by
  simp only [laneErrs, List.mem_filterMap, List.mem_map]
  constructor
  · rintro ⟨_, ⟨k, hk, rfl⟩, he⟩
    cases hf : f k <;> simp_all
  · rintro ⟨hl, he⟩
    exact ⟨_, ⟨l, hl, rfl⟩, by simp only [he]⟩

/-- The first of two faults stays unless the other ranks before it. -/
def firstRanked (best : Option (Nat × LaneErr)) (e : Nat × LaneErr) : Option (Nat × LaneErr) :=
  match best with
  | none => some e
  | some b => if e.2.rank < b.2.rank then some e else some b

theorem foldl_firstRanked_zero {x : Nat × LaneErr} (hx : x.2.rank = 0) (xs : List (Nat × LaneErr)) :
    xs.foldl firstRanked (some x) = some x := by
  induction xs with
  | nil => rfl
  | cons y ys ih =>
    have hy : firstRanked (some x) y = some x := if_neg (by omega)
    rw [List.foldl_cons, hy, ih]

/-- The first fault of rank zero is the one that the lanes raise together. -/
theorem foldl_firstRanked {x : Nat × LaneErr} (hx : x.2.rank = 0) (post : List (Nat × LaneErr)) :
    ∀ (pre : List (Nat × LaneErr)) (o : Option (Nat × LaneErr)), (∀ y ∈ pre, y.2.rank ≠ 0) →
      (∀ b ∈ o, b.2.rank ≠ 0) → (pre ++ x :: post).foldl firstRanked o = some x
  | [], none, _, _ => foldl_firstRanked_zero hx post
  | [], some b, _, ho => by
    have hb : firstRanked (some b) x = some x := if_pos (by have := ho b rfl; omega)
    rw [List.nil_append, List.foldl_cons, hb, foldl_firstRanked_zero hx]
  | y :: ys, o, hpre, ho => by
    refine foldl_firstRanked hx post ys (firstRanked o y) (fun z hz => hpre z (List.mem_cons_of_mem _ hz)) ?_
    have hy := hpre y List.mem_cons_self
    cases o with
    | none => rintro _ ⟨⟩; exact hy
    | some b =>
      unfold firstRanked
      dsimp only
      split
      · rintro _ ⟨⟩; exact hy
      · exact ho

/-- What the lanes with these faults raise together, where `e` ranks first. -/
def laneFaultOf (errs : List (Nat × LaneErr)) (e : LaneErr) : LaneFault :=
  let mine := errs.filter fun x => x.2.kind = e.kind
  { kind := e.kind, lanes := Mask.ofFn fun l => mine.any fun x => x.1 = l, detail := e.detail,
    bad := if e.kind = Code.uncorrectable then (mine.filterMap fun x => x.2.bad).eraseDups else [] }

theorem resolveAll_error {m : Mask} {f : Nat → Except LaneErr LaneAcc} {x : Nat × LaneErr}
    (h : (laneErrs m.lanes f).foldl firstRanked none = some x) :
    resolveAll m f = .error (laneFaultOf (laneErrs m.lanes f) x.2) := by
  have heq : resolveAll m f = match (laneErrs m.lanes f).foldl firstRanked none with
    | none => _
    | some (_, e) => .error (laneFaultOf (laneErrs m.lanes f) e) := rfl
  rw [heq, h]

/-- The fault lies behind an alignment fault in the order of R271. -/
def LaneErr.behindAlignment (e : LaneErr) : Prop := e.kind ≠ Code.alignment ∧ e.rank ≠ 0

theorem laneErr_behindAlignment {kind : BitVec 8} (h : kind ≠ Code.alignment) (a : Nat) :
    (laneErr kind a).behindAlignment := by
  refine ⟨h, ?_⟩
  simp only [laneErr, rankOf, if_neg h]
  split_ifs <;> decide

section
variable {m : Mask} {f : Nat → Except LaneErr LaneAcc} {addr : Nat → Nat} {mis : Nat → Bool}
  (hmis : ∀ l, mis l = true → f l = .error (laneErr Code.alignment (addr l)))
  (hother : ∀ l e, mis l = false → f l = .error e → e.behindAlignment)
include hmis hother

/-- The lanes of an alignment fault are the misaligned lanes. -/
theorem lanes_laneFaultOf_alignment (a : Nat) {l : Nat} (hl : l < 32) :
    (laneFaultOf (laneErrs m.lanes f) (laneErr Code.alignment a)).lanes.getLsbD l = (m.getLsbD l && mis l) := by
  rw [laneFaultOf, Mask.getLsbD_ofFn _ hl, Bool.eq_iff_iff, List.any_eq_true, Bool.and_eq_true]
  constructor
  · rintro ⟨⟨k, e⟩, he, hk⟩
    obtain ⟨hmem, hkind⟩ := List.mem_filter.1 he
    obtain ⟨hk', hf⟩ := mem_laneErrs.1 hmem
    obtain rfl : k = l := by simpa using hk
    refine ⟨Mask.mem_lanes.1 hk', ?_⟩
    by_contra hno
    exact (hother k e (Bool.eq_false_iff.2 hno) hf).1 (of_decide_eq_true hkind)
  · rintro ⟨hm, hl'⟩
    have herr : (l, laneErr Code.alignment (addr l)) ∈ laneErrs m.lanes f :=
      mem_laneErrs.2 ⟨Mask.mem_lanes.2 hm, hmis l hl'⟩
    exact ⟨_, List.mem_filter.2 ⟨herr, decide_eq_true rfl⟩, decide_eq_true rfl⟩

/-- Where a lane of the mask is misaligned, the lanes raise its alignment fault, with the lowest such lane's address. -/
theorem resolveAll_misaligned (hsome : ∃ l, l < 32 ∧ m.getLsbD l = true ∧ mis l = true) :
    ∃ e, resolveAll m f = .error e ∧ e.kind = Code.alignment ∧ e.bad = []
      ∧ (∀ l < 32, e.lanes.getLsbD l = (m.getLsbD l && mis l))
      ∧ ∃ l, l < 32 ∧ e.lanes.getLsbD l = true ∧ e.detail = BitVec.ofNat 64 (addr l)
          ∧ ∀ k < l, e.lanes.getLsbD k = false := by
  let low := Nat.find hsome
  obtain ⟨hlow, hm, hl⟩ : low < 32 ∧ m.getLsbD low = true ∧ mis low = true := Nat.find_spec hsome
  have hbelow : ∀ k < low, (m.getLsbD k && mis k) = false := fun k hk => by
    by_contra hno
    exact Nat.find_min hsome hk ⟨hk.trans hlow, by simpa using hno⟩
  obtain ⟨as, bs, hsplit⟩ := List.append_of_mem (Mask.mem_lanes.2 hm)
  have hpre : ∀ y ∈ laneErrs as f, y.2.rank ≠ 0 := by
    rintro ⟨k, e⟩ hy
    obtain ⟨hk, he⟩ := mem_laneErrs.1 hy
    have hkm : m.getLsbD k = true := Mask.mem_lanes.1 (hsplit ▸ List.mem_append_left _ hk)
    have hlt : k < low := (List.pairwise_append.1 (hsplit ▸ Mask.lanes_sorted m)).2.2 k hk low List.mem_cons_self
    exact (hother k e (by simpa [hkm] using hbelow k hlt) he).2
  have hfirst : (laneErrs m.lanes f).foldl firstRanked none = some (low, laneErr Code.alignment (addr low)) := by
    rw [hsplit, laneErrs_append, laneErrs_cons (hmis low hl)]
    exact foldl_firstRanked rfl _ _ none hpre (fun _ h => nomatch h)
  have hlanes := fun l (hl : l < 32) => lanes_laneFaultOf_alignment (m := m) hmis hother (addr low) hl
  refine ⟨_, resolveAll_error hfirst, rfl, rfl, hlanes, low, hlow, ?_, rfl, fun k hk => ?_⟩
  · rw [hlanes low hlow, hm, hl]; rfl
  · rw [hlanes k (hk.trans hlow), hbelow k hk]

end

/-! The checks of one lane. -/

theorem walk_not_alignment {s : State} {e : ReachErr} (fuel : Nat) :
    ∀ {level table va : Nat}, walk s fuel level table va = .error e → e.1 ≠ Code.alignment := by
  have htranslation : Code.translation ≠ Code.alignment := by decide
  have huncorrectable : Code.uncorrectable ≠ Code.alignment := by decide
  induction fuel with
  | zero => rintro _ _ _ ⟨⟩; exact htranslation
  | succ k ih =>
    intro level table va h
    unfold walk at h
    extract_lets idx at_ w addr size at h
    split_ifs at h
    · cases h; exact htranslation
    · cases h; exact huncorrectable
    · cases h; exact htranslation
    · cases h; exact htranslation
    · cases h; exact htranslation
    · exact ih h

theorem State.translate_not_alignment {s : State} {u : Unit_} {va : Nat} {e : ReachErr}
    (h : s.translate u va = .error e) : e.1 ≠ Code.alignment := by
  unfold State.translate at h
  split_ifs at h
  · cases h; exact (by decide : Code.translation ≠ Code.alignment)
  · split at h
    · cases h
    · exact walk_not_alignment 5 h

theorem State.reach_not_alignment {s : State} {u : Unit_} {va : Nat} {n : Need} {e : ReachErr}
    (h : s.reach u va n = .error e) : e.1 ≠ Code.alignment := by
  unfold State.reach at h
  split at h
  next htr => cases h; exact State.translate_not_alignment htr
  next =>
    split_ifs at h
    cases h; exact (by decide : Code.protection ≠ Code.alignment)

theorem reachErr_behindAlignment {e : ReachErr} (h : e.1 ≠ Code.alignment) (a : Nat) : (reachErr e a).behindAlignment := by
  unfold reachErr
  split
  · exact ⟨(by decide : Code.uncorrectable ≠ Code.alignment), (by decide : (3 : Nat) ≠ 0)⟩
  · exact laneErr_behindAlignment h a

section
variable {s : State} {spc : Space} {n l a : Nat} {need : Need} (hs : spc = .gm ∨ spc = .sp ∨ spc = .lf ∨ spc = .cn)
include hs

theorem resolveLane_misaligned (ha : a % n ≠ 0) :
    resolveLane s spc n need true l a = .error (laneErr Code.alignment a) := by
  rcases hs with rfl | rfl | rfl | rfl <;> simp [resolveLane, ha]

/-- An aligned lane raises none but the faults behind alignment (R271). -/
theorem resolveLane_aligned {e : LaneErr} (ha : a % n = 0) (h : resolveLane s spc n need true l a = .error e) :
    e.behindAlignment := by
  have hbad : laneBadHere.behindAlignment := ⟨by decide, by decide⟩
  have hprotection := laneErr_behindAlignment (by decide : Code.protection ≠ Code.alignment) a
  unfold resolveLane at h
  extract_lets g own gm at h
  have hown : ∀ limit bad, own limit bad = .error e → e.behindAlignment := by
    intro limit bad h
    simp only [own, ha, ne_eq, not_true_eq_false, decide_false, Bool.and_false, Bool.false_eq_true, if_false] at h
    split_ifs at h
    · cases h; exact hbad
    · cases h; exact hprotection
  have hgm : gm a n = .error e → e.behindAlignment := by
    intro h
    simp only [gm] at h
    split at h
    next hreach => cases h; exact reachErr_behindAlignment (State.reach_not_alignment hreach) a
    next =>
      split_ifs at h
      cases h; exact ⟨(by decide : Code.uncorrectable ≠ Code.alignment), (by decide : (3 : Nat) ≠ 0)⟩
  clear_value own gm
  rcases hs with rfl | rfl | rfl | rfl
  case inl =>
    dsimp only at h
    rw [if_neg (by simp [ha])] at h
    split at h
    next hfail => cases h; exact hgm hfail
    next => cases h
  case inr.inl => exact hown _ _ h
  case inr.inr.inl => exact hown _ _ h
  case inr.inr.inr => exact hown _ _ h

end

/-! What the events and words of R144, R259 and R270 answer. -/

theorem exec_unassignedOpcode_acts {raw : IWord} {s : State} {m : Mask} (h : acts s.gang (getHeader raw) .lane = .yes m) :
    exec (.unassignedOpcode raw) s = illegal s m := by
  change execUnassignedOpcode raw s = _
  simp only [execUnassignedOpcode, h]

theorem exec_unassignedOpcode_idle {raw : IWord} {s : State} (h : acts s.gang (getHeader raw) .lane = .no) :
    exec (.unassignedOpcode raw) s = .next (s.advance (getHeader raw)) := by
  change execUnassignedOpcode raw s = _
  simp only [execUnassignedOpcode, h]

/-- The fault code of a fetch (R145). -/
def fetchCode : FetchFault → BitVec 8
  | .translation => Code.translation
  | .protection => Code.protection

theorem exec_instructionFetchFault {s : State} {pa : Nat} (kind : FetchFault)
    (h : s.fetchBytes = .error (fetchCode kind, pa)) :
    exec (.instructionFetchFault kind s.pc) s = raiseFault s (fetchCode kind) s.xm s.xm s.pc := by
  change execInstructionFetchFault kind s.pc s = _
  cases kind <;> simp [execInstructionFetchFault, h, fetchCode]

/-- A store whose lanes fail their checks raises what the lanes raise, before any lane performs (R334). -/
theorem exec_st_fails {x : MFmt} {s : State} {m : Mask} {spc : Space} {e : LaneFault}
    (hspc : Space.ofBits x.space = some spc) (hbad : e.bad = [])
    (he : (resolveAll m fun l => resolveLane s spc (mWidth x.width) Need.store true l (mAddr s.gang x spc l)) = .error e)
    (hi : s.issues x.hdr .lane (spc != .lf && spc != .cn && x.width.toNat ≤ 3 && mFieldsOk s.gang x spc
      && x.hdr.d == .absent && !x.ext && (spc != .cl || 4 ≤ mWidth x.width)
      && storeDataOk s.gang (mWidth x.width = 8) x.data && !s.gang.isShadow) []
      (mSrcs x (readsBase spc) (mWidth x.width = 8)) m) :
    exec (.st x) s = raiseFault s e.kind m e.lanes e.detail := by
  change execSt x s = _
  unfold execSt
  simp only [hspc, Option.getD_some, Option.isSome_some, Bool.true_and]
  rw [issue_of_issues _ hi, storeAct, he]
  dsimp only
  rw [raiseLanes, hbad, List.foldl_nil]

end Sys2Proof.Machine

open Sys2Proof Sys2Proof.Machine

/-- Settles O46: the opcode and the fetch by their events, ST by what its lanes raise together, and a misaligned lane by
the rank of its fault, which no other lane's fault shares. -/
theorem contextFaults : Obligations.ContextFaults := by
  refine ⟨fun raw s m h => ⟨_, exec_unassignedOpcode_acts h, rfl⟩,
    fun raw s h => ⟨_, exec_unassignedOpcode_idle h, wentOn_advance _ rfl rfl rfl rfl rfl rfl⟩,
    fun s pa => ⟨fun h => ⟨_, exec_instructionFetchFault .translation h, rfl⟩,
      fun h => ⟨_, exec_instructionFetchFault .protection h, rfl⟩⟩,
    fun x s m spc e hspc _ hbad he hi => ⟨_, exec_st_fails hspc hbad he hi, rfl⟩,
    fun s m n need addr spc hs _ hsome => ?misaligned⟩
  case misaligned =>
    obtain ⟨l, hl, hm, hmis⟩ := hsome
    exact resolveAll_misaligned (mis := fun l => decide (addr l % n ≠ 0))
      (fun l h => resolveLane_misaligned hs (of_decide_eq_true h))
      (fun l e h => resolveLane_aligned hs (by simpa using h)) ⟨l, hl, hm, decide_eq_true hmis⟩
end

section
namespace Sys2Proof
/-- A byte list as a number is its first n bytes and the rest above them (R5). -/
theorem bytesToNat_take_drop (n : Nat) (bs : List Byte) :
    bytesToNat bs = bytesToNat (bs.take n) + 256 ^ n * bytesToNat (bs.drop n) := by
  induction n generalizing bs with
  | zero => rw [List.take_zero, List.drop_zero, bytesToNat, Nat.pow_zero, Nat.one_mul, Nat.zero_add]
  | succ n ih =>
    cases bs with
    | nil => rfl
    | cons b bs =>
      rw [List.take_succ_cons, List.drop_succ_cons, bytesToNat, bytesToNat, ih bs, Nat.pow_succ']
      ring

/-- A word is its first twelve bytes (R259). -/
theorem wordOfBytes_take (bs : List Byte) : wordOfBytes (bs.take 12) = wordOfBytes bs := by
  refine BitVec.eq_of_toNat_eq ?_
  rw [wordOfBytes, wordOfBytes, BitVec.toNat_ofNat, BitVec.toNat_ofNat, bytesToNat_take_drop 12 bs]
  exact (Nat.add_mul_mod_self_left ..).symm

theorem decodeWord_of_decode {bs rest : List Byte} {i : Instr} (h : decode bs = .ok (i, rest)) :
    decodeWord (wordOfBytes bs) = i := by
  unfold decode at h
  split_ifs at h
  rw [← wordOfBytes_take]
  exact (Prod.mk.inj (Except.ok.inj h)).1

end Sys2Proof

namespace Sys2Proof.Machine
open Sys2Proof

/-! What a fetch leaves of the path (R138, R272). -/

theorem State.gang_keepFetch (s : State) (ts : List (Nat × Translation)) : (s.keepFetch ts).gang = s.gang :=
  foldl_keeps State.gang (fun (s : State) (e : Nat × Translation) => s.keep (.carrel s.gang.carrel) e.1 e.2)
    (fun _ _ => rfl) ts s

theorem State.deep_latch (s : State) (w : IWord) : (s.latch w).gang.path.deep = s.gang.path.deep := by
  rw [State.latch, State.modPath, State.modGang_gang, Gang.modPath, Gang.path_setPath]
  rfl

/-! Which agent a step is of (R49, R144, log 3). -/

theorem step_of_agenda {s : State} {i : Instr} {rest : List Instr} (h : s.agenda = i :: rest) :
    step s = exec i { s with agenda := rest } := by
  simp only [step, stepWith, h]

section
variable {s : State} (hagenda : s.agenda = []) (hrecovery : s.recovery = false)
include hagenda hrecovery

theorem step_of_asserted (hhalt : s.halt = .asserted) : step s = exec .haltLine s := by
  simp only [step, stepWith, hagenda, hrecovery, hhalt]
  rfl

theorem step_of_stopped (hhalt : s.halt = .stopped) : step s = exec s.answer85 s := by
  simp only [step, stepWith, hagenda, hrecovery, hhalt]
  rfl

/-- With no other agent's work a step is the issue of the path whose turn it is. -/
theorem step_of_turn {turn : Turn} (hhalt : s.halt = .running) (hevicted : s.evicted = none) (hunmapped : s.unmapped = none)
    (hevents : firstOf (fun i => exec i s) s.events = none) (hturn : firstTurn s.turns = some turn) :
    step s = issueCurrent exec (s.select turn.gang turn.younger) := by
  simp only [step, stepWith, hagenda, hrecovery, hhalt, stepRunning, hevicted, hunmapped, hevents, hturn]
  rfl

end

/-! The word that issues (R163, R259, R272). -/

theorem issueWord_runs {run : Instr → State → Result} {i : Instr} {s : State} (h : s.waitsForHeld i = false) :
    issueWord run i s = spilled s.gang.path.deep (run i s) := if_neg (by simp [h])

theorem issueWord_waits {run : Instr → State → Result} {i : Instr} {s : State} (h : s.waitsForHeld i = true) :
    issueWord run i s = .next s.hold := if_pos h

section
variable {run : Instr → State → Result} {u : State} (hheld : u.heldTrap = none)
include hheld

theorem issueCurrent_latched {w : IWord} (hlatch : u.latched = some w) :
    issueCurrent run u = issueWord run (decodeWord w) u := by
  simp only [issueCurrent, hheld, hlatch]

theorem issueCurrent_fetched {bs rest : List Byte} {ts : List (Nat × Translation)} {i : Instr} (hlatch : u.latched = none)
    (hfetch : u.fetchBytes = .ok (bs, ts)) (hdecode : decode bs = .ok (i, rest)) :
    issueCurrent run u = issueWord run i ((u.keepFetch ts).latch (wordOfBytes bs)) := by
  simp only [issueCurrent, hheld, hlatch, hfetch, decodeWord_of_decode hdecode]

end
end Sys2Proof.Machine

open Sys2Proof Sys2Proof.Machine

/-- Settles O56: a step by the agent whose it is; the path's word by where its fields come from. -/
theorem stepRunsDecoded : Obligations.StepRunsDecoded := by
  refine ⟨fun s turn hagenda hrecovery hhalt hevicted hunmapped hevents hturn => ?issue, fun s i rest h => step_of_agenda h,
    fun s hagenda hrecovery => ⟨step_of_asserted hagenda hrecovery, fun hhalt hfault => ?ended, fun hhalt hfault => ?fault⟩⟩
  case issue =>
    intro u hheld
    rw [step_of_turn hagenda hrecovery hhalt hevicted hunmapped hevents hturn]
    refine ⟨fun bs ts i rest hlatch hfetch hdecode => ?_, fun w hlatch => ?_⟩
    · have hdeep : ((u.keepFetch ts).latch (wordOfBytes bs)).gang.path.deep = u.gang.path.deep := by
        rw [State.deep_latch, State.gang_keepFetch]
      rw [issueCurrent_fetched hheld hlatch hfetch hdecode, ← hdeep]
      exact ⟨issueWord_runs, issueWord_waits⟩
    · rw [issueCurrent_latched hheld hlatch]
      exact ⟨issueWord_runs, issueWord_waits⟩
  case ended =>
    rw [step_of_stopped hagenda hrecovery hhalt, State.answer85, hfault]
    rfl
  case fault =>
    rw [step_of_stopped hagenda hrecovery hhalt, State.answer85, if_pos (Option.isSome_iff_ne_none.2 hfault)]
end

section
open Sys2Proof Sys2Proof.Machine

/-- Settles O3: each row is RRR arithmetic, which completes with its operation's bits. -/
theorem integerResult : Obligations.IntegerResult := by
  intro r hr x s m hi
  rw [exec_integerRow r hr]
  exact alu_completes (fun _ => r.op x) hi
end

section
namespace Sys2Proof.Machine
open Sys2Proof

/-- LRAND starts as the lane's number plus one (R108). -/
theorem Gang.lrand_start (pc : DWord) (width : Nat) {l : Nat} (hl : l < 32) :
    (Gang.start pc width).lrand.at l = BitVec.ofNat 32 (1 + l) := by
  simp [Gang.start, Lanes.at, Vector.getD, hl]

end Sys2Proof.Machine

open Sys2Proof Sys2Proof.Machine

/-- Settles O60: the reset state and a starting gang are written out in the model; LRAND lane by lane. -/
theorem resetLeaves : Obligations.ResetLeaves :=
  ⟨⟨rfl, rfl, rfl, rfl, rfl, rfl, rfl, rfl, rfl, rfl, Memory.empty_wf, rfl⟩, fun pc width =>
    ⟨rfl, rfl, rfl, rfl, rfl, rfl, rfl, rfl, rfl, rfl, rfl, rfl, rfl, fun _ hl => Gang.lrand_start pc width hl⟩⟩
end

section
namespace Sys2Proof
open Machine

/-- The written-out words are the encodings of well-formed instructions (R259 to R269). -/
theorem specWords_encode : ∀ e ∈ specWords, e.2.2.wf = true ∧ e.1 * 2 ^ 64 + e.2.1 < 2 ^ 96
    ∧ encode e.2.2 = some (BitVec.ofNat 96 (e.1 * 2 ^ 64 + e.2.1)) := by
  decide +kernel

end Sys2Proof

open Sys2Proof Sys2Proof.Machine

/-- Settles O57: each word is the encoding of its instruction, which decoding inverts (O1). -/
theorem specWordsDecode : Obligations.SpecWordsDecode := by
  intro e he
  obtain ⟨hwf, hlt, hw⟩ := specWords_encode e he
  have hbytes : natToBytes 12 (e.1 * 2 ^ 64 + e.2.1) = encodeBytes (BitVec.ofNat 96 (e.1 * 2 ^ 64 + e.2.1)) := by
    rw [encodeBytes, BitVec.toNat_ofNat, Nat.mod_eq_of_lt hlt]
  refine ⟨hwf, ?_⟩
  rw [hbytes, ← List.append_nil (encodeBytes _)]
  exact decodeInvertsEncode e.2.2 _ [] hwf hw
end

section
namespace Sys2Proof.Machine
open Sys2Proof

/-! Little-endian numbers byte by byte (R5, R259). -/

theorem bytesToNat_lt (bs : List Byte) : bytesToNat bs < 256 ^ bs.length := by
  induction bs with
  | nil => simp [bytesToNat]
  | cons b bs ih =>
    have := b.isLt
    rw [bytesToNat, List.length_cons, Nat.pow_succ']
    omega

theorem bytesToNat_byte (bs : List Byte) (i : Nat) : bytesToNat bs / 256 ^ i % 256 = (bs.getD i 0).toNat := by
  induction bs generalizing i with
  | nil => simp [bytesToNat]
  | cons b bs ih =>
    have hb := b.isLt
    cases i with
    | zero => rw [bytesToNat, Nat.pow_zero, Nat.div_one, List.getD_cons_zero]; omega
    | succ i =>
      rw [bytesToNat, Nat.pow_succ', ← Nat.div_div_eq_div_mul, List.getD_cons_succ, ← ih]
      congr 2
      omega

theorem Memory.word_byte (m : Memory) (a : Nat) {n i : Nat} (hi : i < n) :
    m.word a n / 256 ^ i % 256 = (m.byte (a + i)).toNat := by
  rw [Memory.word, bytesToNat_byte]
  simp [Memory.read, hi]

theorem wordOfBytes_byte {bs : List Byte} (hlen : bs.length = 12) (i : Nat) :
    (wordOfBytes bs).extractLsb' (8 * i) 8 = bs.getD i 0 := by
  have hlt : bytesToNat bs < 2 ^ 96 := by simpa [hlen] using bytesToNat_lt bs
  refine BitVec.eq_of_toNat_eq ?_
  rw [← bytesToNat_byte, BitVec.extractLsb'_toNat, wordOfBytes, BitVec.toNat_ofNat, Nat.mod_eq_of_lt hlt,
    Nat.shiftRight_eq_div_pow, Nat.pow_mul]

theorem Memory.word_write (m : Memory) (a n v : Nat) (hv : v < 2 ^ (8 * n)) : (m.write a (natToBytes n v)).word a n = v := by
  have hread := m.read_write_self a (natToBytes n v)
  rw [length_natToBytes] at hread
  rw [Memory.word, hread, bytesToNat_natToBytes, Nat.mod_eq_of_lt (by rwa [Nat.pow_mul] at hv)]

/-! A canonical table is what it reads as. -/

theorem Table.look_below {α : Type} {t : Table α} {k : Nat} {d : α} (h : ∀ e ∈ t, k < e.1) : Table.look t k d = d := by
  induction t with
  | nil => rfl
  | cons e r ih =>
    obtain ⟨k', v⟩ := e
    have hk : k < k' := h (k', v) List.mem_cons_self
    rw [Table.look, if_neg (by omega), ih fun e he => h e (List.mem_cons_of_mem _ he)]

section
variable {α : Type} [BEq α] [LawfulBEq α] {d : α}

/-- The least key of a canonical table is one that every canonical table which reads alike lists, or has below its own. -/
theorem Table.canon_head_le {k k' : Nat} {v v' : α} {r r' : Table α} (h : Table.canon d ((k, v) :: r) = true)
    (h' : Table.canon d ((k', v') :: r') = true)
    (hlook : ∀ j, Table.look ((k, v) :: r) j d = Table.look ((k', v') :: r') j d) : k' ≤ k := by
  obtain ⟨hv, -, -⟩ := (Table.canon_cons d k v r).1 h
  obtain ⟨-, hk', -⟩ := (Table.canon_cons d k' v' r').1 h'
  by_contra hlt
  have hbelow : Table.look ((k', v') :: r') k d = d := Table.look_below fun e he => by
    rcases List.mem_cons.1 he with rfl | he
    · exact Nat.lt_of_not_le hlt
    · exact Nat.lt_trans (Nat.lt_of_not_le hlt) (hk' e he)
  have hhead : Table.look ((k, v) :: r) k d = v := if_pos rfl
  exact bne_iff_ne.1 hv (hhead.symm.trans ((hlook k).trans hbelow))

theorem Table.canon_ext {t t' : Table α} (h : Table.canon d t = true) (h' : Table.canon d t' = true)
    (hlook : ∀ j, Table.look t j d = Table.look t' j d) : t = t' := by
  induction t generalizing t' with
  | nil =>
    cases t' with
    | nil => rfl
    | cons e r' =>
      obtain ⟨k', v'⟩ := e
      obtain ⟨hv, -, -⟩ := (Table.canon_cons d k' v' r').1 h'
      exact absurd ((hlook k').trans (if_pos rfl)).symm (bne_iff_ne.1 hv)
  | cons e r ih =>
    obtain ⟨k, v⟩ := e
    obtain ⟨hv, hk, hr⟩ := (Table.canon_cons d k v r).1 h
    cases t' with
    | nil => exact absurd ((if_pos rfl).symm.trans (hlook k)) (bne_iff_ne.1 hv)
    | cons e' r' =>
      obtain ⟨k', v'⟩ := e'
      obtain ⟨-, hk', hr'⟩ := (Table.canon_cons d k' v' r').1 h'
      obtain rfl : k = k' :=
        Nat.le_antisymm (Table.canon_head_le h' h fun j => (hlook j).symm) (Table.canon_head_le h h' hlook)
      have hhead := hlook k
      rw [Table.look, Table.look, if_pos rfl, if_pos rfl] at hhead
      subst hhead
      refine congrArg _ (ih hr hr' fun j => ?_)
      by_cases hj : j = k
      · subst hj; rw [Table.look_below hk, Table.look_below hk']
      · have := hlook j
        rwa [Table.look, Table.look, if_neg hj, if_neg hj] at this

end

theorem Memory.ext_of_wf {m m' : Memory} (h : m.wf = true) (h' : m'.wf = true) (hbyte : ∀ a, m.byte a = m'.byte a)
    (hlabel : ∀ k, m.label k = m'.label k) : m = m' := by
  obtain ⟨hb, hl⟩ := (Memory.wf_iff m).1 h
  obtain ⟨hb', hl'⟩ := (Memory.wf_iff m').1 h'
  cases m
  cases m'
  exact congrArg₂ Memory.mk (Table.canon_ext hb hb' hbyte) (Table.canon_ext hl hl' hlabel)

end Sys2Proof.Machine

open Sys2Proof Sys2Proof.Machine

/-- Settles O58: a write by its bytes, words by their bytes, a label write by its table, canonical memories by theirs. -/
theorem memoryLaws : Obligations.MemoryLaws :=
  ⟨fun m a bs => ⟨m.byte_write a bs, m.read_write_self a bs, fun _ => rfl⟩, fun m a n v => m.word_write a n v,
    fun m a _ _ hi => m.word_byte a hi, fun _ i hlen _ => wordOfBytes_byte hlen i,
    fun m blk l => ⟨m.label_setLabel blk l, fun _ => rfl⟩, fun _ _ => Memory.ext_of_wf⟩
end

section
namespace Sys2Proof.Machine
open Sys2Proof

/-! The exact integer results and what R280 leaves of them. -/

/-- Integer and bit types have 32 or 64 bits (R279). -/
theorem typeWidth_of_typeI_or_typeB {ty : BitVec 6} (h : typeI ty = true ∨ typeB ty = true) :
    typeWidth ty = 32 ∨ typeWidth ty = 64 := by
  revert ty; decide

theorem typeSigned_of_typeS {ty : BitVec 6} (h : typeS ty = true) : typeSigned ty = true := by
  revert ty; decide

theorem intOf_eq_sourceInt (ty : BitVec 6) (x : DWord) : intOf ty x = sourceInt ty x := by
  simp [intOf, extendOp, sourceInt]

theorem wrapBits_cast (v : Int) (w : Nat) : (wrapBits v w : Int) = v % 2 ^ w := by
  have hpos : (0 : Int) < 2 ^ w := by positivity
  rw [wrapBits, Nat.cast_pow, Nat.cast_ofNat, Int.toNat_of_nonneg (Int.emod_nonneg v hpos.ne')]

theorem wrapBits_lt (v : Int) (w : Nat) : wrapBits v w < 2 ^ w := by
  have hpos : (0 : Int) < 2 ^ w := by positivity
  have h := Int.emod_lt_of_pos v hpos
  rw [← wrapBits_cast] at h
  exact_mod_cast h

/-- The w low bits of an integer, as a double word. -/
theorem toNat_wrapBits {w : Nat} (hw : w ≤ 64) (v : Int) : (BitVec.ofNat 64 (wrapBits v w)).toNat = wrapBits v w := by
  rw [BitVec.toNat_ofNat, Nat.mod_eq_of_lt]
  exact lt_of_lt_of_le (wrapBits_lt v w) (Nat.pow_le_pow_right (by omega) hw)

/-- Saturation takes the nearest value between the type's bounds (R237). -/
theorem satInt_eq (v : Int) (w : Nat) (signed : Bool) :
    satInt v w signed =
      (let lo : Int := if signed then -2 ^ (w - 1) else 0
       let hi : Int := if signed then 2 ^ (w - 1) - 1 else 2 ^ w - 1
       if v < lo then lo else if hi < v then hi else v) := by
  have h1 : (1 : Int) ≤ 2 ^ (w - 1) := one_le_pow₀ (by omega)
  have h2 : (1 : Int) ≤ 2 ^ w := one_le_pow₀ (by omega)
  cases signed <;> simp only [satInt, Nat.cast_pow, Nat.cast_ofNat] <;> grind

/-- Narrowing an exact result leaves what R280 says. -/
theorem narrow_leaves {ty : BitVec 6} (hw : typeWidth ty = 32 ∨ typeWidth ty = 64) (sat : Bool) (v : Int) :
    leaves ty sat v (narrow ty sat v) := by
  unfold leaves narrow
  rw [toNat_wrapBits (by omega), wrapBits_cast, satInt_eq]

end Sys2Proof.Machine

open Sys2Proof Sys2Proof.Machine

/-- Settles O5: each operation narrows the exact result of its sources' values; MULH is its high half. -/
theorem exactArithmetic : Obligations.ExactArithmetic := by
  intro ty sat sh x y z hty hsh
  have hw := typeWidth_of_typeI_or_typeB (.inl hty)
  have hn := fun sat v => narrow_leaves hw sat v
  simp only [← intOf_eq_sourceInt]
  refine ⟨hn _ _, hn _ _, hn _ _, hn _ _, hn _ _, hn _ _, hn _ _, hn _ _, ?_, ?_, fun hS => ?_⟩
  · simpa [opLea] using hn false (intOf ty x + intOf ty y * 2 ^ sh)
  · simp [opMulh, toNat_wrapBits (show typeWidth ty ≤ 64 by omega), wrapBits_cast]
  · have hsigned := typeSigned_of_typeS hS
    have hcap : ∀ v, satInt v (typeWidth ty) true = if v < -2 ^ (typeWidth ty - 1) then -2 ^ (typeWidth ty - 1)
        else if 2 ^ (typeWidth ty - 1) ≤ v then 2 ^ (typeWidth ty - 1) - 1 else v := by
      intro v
      rw [satInt_eq]
      simp only [if_true, Int.sub_one_lt_iff]
    have h := hn false (min (satInt (intOf ty x + intOf ty y) (typeWidth ty) true) (intOf ty z))
    rw [hcap] at h
    unfold opAddmin
    simp only [intOf, hsigned] at h ⊢
    rwa [hcap]
end

section
namespace Sys2Proof.Machine
open Sys2Proof

/-! DIV and REM (R281). -/

/-- What a remainder is (R281): the operand less the divisor times the truncated quotient, of the operand's sign. -/
theorem tmod_sign (X Y : Int) :
    X - Y * Int.tdiv X Y = 0 ∨ (0 < X ∧ 0 < X - Y * Int.tdiv X Y) ∨ (X < 0 ∧ X - Y * Int.tdiv X Y < 0) := by
  rw [← Int.tmod_def]
  rcases lt_trichotomy X 0 with hX | rfl | hX
  · have : Int.tmod X Y ≤ 0 := by
      have := Int.tmod_nonneg Y (a := -X) (by omega)
      rw [Int.neg_tmod] at this
      omega
    omega
  · simp
  · have := Int.tmod_nonneg Y hX.le
    omega

/-- With divisor 0 the quotient is all ones (R281). -/
theorem opDiv_zero {ty : BitVec 6} (hw : typeWidth ty = 32 ∨ typeWidth ty = 64) {x y : DWord} (hy : sourceInt ty y = 0) :
    (opDiv ty x y).toNat = 2 ^ typeWidth ty - 1 := by
  have h := narrow_leaves hw false (-1)
  rw [opDiv, intOf_eq_sourceInt, if_pos hy]
  rcases hw with hw | hw <;> simp only [leaves, hw] at h ⊢ <;> norm_num at h ⊢ <;> omega

/-- The most negative value by -1: the quotient wraps to the value itself and the remainder is 0 (R281). -/
theorem opDiv_overflow {ty : BitVec 6} (hw : typeWidth ty = 32 ∨ typeWidth ty = 64) {x y : DWord}
    (hx : sourceInt ty x = -2 ^ (typeWidth ty - 1)) (hy : sourceInt ty y = -1) :
    leaves ty false (sourceInt ty x) (opDiv ty x y) ∧ (opRem ty x y).toNat = 0 := by
  have hdiv := narrow_leaves hw false (2 ^ (typeWidth ty - 1))
  have hrem := narrow_leaves hw false 0
  rw [opDiv, opRem, intOf_eq_sourceInt, intOf_eq_sourceInt, hx, hy, if_neg (by decide), if_neg (by decide)]
  simp only [Int.tdiv_neg, Int.tdiv_one, neg_neg, Int.tmod_neg, Int.tmod_one]
  rcases hw with hw | hw <;> simp only [leaves, hw] at hdiv hrem ⊢ <;> norm_num at hdiv hrem ⊢ <;> omega

end Sys2Proof.Machine

open Sys2Proof Sys2Proof.Machine

/-- Settles O6: the results case by case, and the two instructions as any arithmetic completes. -/
theorem divisionRule : Obligations.DivisionRule := by
  constructor
  · intro ty x y hty
    have hw := typeWidth_of_typeI_or_typeB (.inl hty)
    refine ⟨fun hY => ⟨?_, ?_, tmod_sign _ _⟩, fun hY => ⟨opDiv_zero hw hY, ?_⟩, fun _ hX hY => opDiv_overflow hw hX hY⟩
    · simpa [opDiv, intOf_eq_sourceInt, hY] using narrow_leaves hw false (Int.tdiv (sourceInt ty x) (sourceInt ty y))
    · simpa [opRem, intOf_eq_sourceInt, hY, Int.tmod_def] using
        narrow_leaves hw false (Int.tmod (sourceInt ty x) (sourceInt ty y))
    · simpa [opRem, intOf_eq_sourceInt, hY] using narrow_leaves hw false (sourceInt ty x)
  · intro p hp x s m hi
    have hexec : exec (p.1 x) s = alu s x 2 (fieldsI x) fun _ a b _ => p.2 x.typ a b := by
      simp only [List.mem_cons, List.not_mem_nil, or_false] at hp
      rcases hp with rfl | rfl <;> rfl
    obtain ⟨t, ht, ⟨_, _, hhalt, hfaults, _⟩, hdest⟩ := alu_completes (fun _ a b _ => p.2 x.typ a b) hi
    exact ⟨t, hexec.trans ht, hhalt, hfaults, hdest⟩
end

section
namespace Sys2Proof.Machine
open Sys2Proof

/-! The bits of the shifts and bit operations (R282). -/

theorem bitAt_eq_testBit (x i : Nat) : bitAt x i = x.testBit i := by
  rw [bitAt, Nat.testBit_eq_decide_div_mod_eq]

theorem bitsOf_lt (ty : BitVec 6) (x : DWord) : bitsOf ty x < 2 ^ typeWidth ty := Nat.mod_lt _ (by positivity)

/-- The low bits of a source are its bits below the type's width. -/
theorem testBit_bitsOf (ty : BitVec 6) (x : DWord) (i : Nat) :
    (bitsOf ty x).testBit i = (decide (i < typeWidth ty) && x.getLsbD i) := by
  rw [bitsOf, Nat.testBit_mod_two_pow, BitVec.testBit_toNat]

/-- Bits 63:0 of a number. -/
theorem getLsbD_ofNat_below {v w i : Nat} (hw : w ≤ 64) (hi : i < w) : (BitVec.ofNat 64 v).getLsbD i = v.testBit i := by
  rw [BitVec.getLsbD_ofNat, decide_eq_true (Nat.lt_of_lt_of_le hi hw), Bool.true_and]

/-- The signed value of the low w bits: their number, less 2^w where the top bit is set. -/
theorem extendOp_eq {w : Nat} (hw : 1 ≤ w) (b : Nat) (signed : Bool) :
    extendOp b w signed = ((b % 2 ^ w : Nat) : Int) - ((if signed && b.testBit (w - 1) then 2 ^ w else 0 : Nat) : Int) := by
  have htop : b.testBit (w - 1) = decide (2 ^ (w - 1) ≤ b % 2 ^ w) := by
    have hlt : b % 2 ^ w < 2 * 2 ^ (w - 1) := by
      rw [← pow_succ', Nat.sub_add_cancel hw]
      exact Nat.mod_lt _ (by positivity)
    have hbit : b.testBit (w - 1) = (b % 2 ^ w).testBit (w - 1) := by
      simp [Nat.testBit_mod_two_pow, show w - 1 < w by omega]
    rw [hbit, Nat.testBit_eq_decide_div_mod_eq, decide_eq_decide]
    constructor
    · intro h
      by_contra hlow
      rw [Nat.div_eq_of_lt (by omega)] at h
      omega
    · intro h
      rw [Nat.div_eq_of_lt_le (k := 1) (by omega) (by omega)]
  rw [extendOp, htop]
  simp only [ge_iff_le]
  split <;> simp

/-- The w low bits of a field of m bits whose sign counts below 0: the field and, above it, its sign. -/
theorem testBit_wrapBits {v m w i : Nat} (hv : v < 2 ^ m) (hm : m ≤ w) (hi : i < w) (neg : Bool) :
    (wrapBits ((v : Int) - ((if neg then 2 ^ m else 0 : Nat) : Int)) w).testBit i = if i < m then v.testBit i else neg := by
  have hle : 2 ^ m ≤ 2 ^ w := Nat.pow_le_pow_right (by omega) hm
  cases neg with
  | false =>
    have hval : wrapBits ((v : Int) - ((if false then 2 ^ m else 0 : Nat) : Int)) w = v := by
      rw [← Nat.cast_inj (R := Int), wrapBits_cast]
      simp only [Bool.false_eq_true, if_false, Nat.cast_zero, sub_zero]
      exact_mod_cast Nat.mod_eq_of_lt (by omega : v < 2 ^ w)
    rw [hval]
    split
    · rfl
    · exact Nat.testBit_lt_two_pow (lt_of_lt_of_le hv (Nat.pow_le_pow_right (by omega) (by omega)))
  | true =>
    have hsplit : 2 ^ w = 2 ^ m * 2 ^ (w - m) := by rw [← pow_add, Nat.add_sub_cancel' hm]
    have hval : wrapBits ((v : Int) - ((if true then 2 ^ m else 0 : Nat) : Int)) w = 2 ^ m * (2 ^ (w - m) - 1) + v := by
      have hnat : 2 ^ m * (2 ^ (w - m) - 1) = 2 ^ w - 2 ^ m := by rw [Nat.mul_sub, ← hsplit, mul_one]
      rw [← Nat.cast_inj (R := Int), wrapBits_cast, hnat, ← Int.add_emod_right]
      push_cast [hle]
      rw [if_pos rfl, Int.emod_eq_of_lt] <;> zify at hv hle <;> omega
    rw [hval, Nat.testBit_two_pow_mul_add _ hv, Nat.testBit_two_pow_sub_one]
    grind

section
variable {ty : BitVec 6} (hw : typeWidth ty = 32 ∨ typeWidth ty = 64) (a b c : DWord) {i : Nat} (hi : i < typeWidth ty)
include hw hi

theorem opShl_bit : (opShl ty a b).getLsbD i = (decide (bitsOf ty b ≤ i) && a.getLsbD (i - bitsOf ty b)) := by
  unfold opShl
  simp only
  split
  · simp [show ¬ bitsOf ty b ≤ i by omega]
  · rw [getLsbD_ofNat_below (by omega) hi, Nat.testBit_mod_two_pow, Nat.testBit_mul_two_pow, testBit_bitsOf]
    simp [hi, show i - bitsOf ty b < typeWidth ty by omega]

theorem opShr_bit :
    (opShr ty a b).getLsbD i = (decide (i + bitsOf ty b < typeWidth ty) && a.getLsbD (i + bitsOf ty b)) := by
  unfold opShr
  split
  · simp [show ¬ i + bitsOf ty b < typeWidth ty by omega]
  · rw [getLsbD_ofNat_below (by omega) hi, Nat.testBit_div_two_pow, testBit_bitsOf]

theorem opSra_bit : (opSra ty a b).getLsbD i =
    a.getLsbD (if i + bitsOf ty b < typeWidth ty then i + bitsOf ty b else typeWidth ty - 1) := by
  have hk : min (bitsOf ty b) (typeWidth ty) ≤ typeWidth ty := Nat.min_le_right ..
  generalize hkdef : min (bitsOf ty b) (typeWidth ty) = k at hk
  have hsplit : 2 ^ typeWidth ty = 2 ^ (typeWidth ty - k) * 2 ^ k := by rw [← pow_add, Nat.sub_add_cancel hk]
  have hdiv : extendOp a.toNat (typeWidth ty) true / ((2 ^ k : Nat) : Int) = ((bitsOf ty a / 2 ^ k : Nat) : Int)
      - ((if a.getLsbD (typeWidth ty - 1) then 2 ^ (typeWidth ty - k) else 0 : Nat) : Int) := by
    rw [extendOp_eq (by omega), Bool.true_and, BitVec.testBit_toNat]
    cases a.getLsbD (typeWidth ty - 1) with
    | false => simp [bitsOf]
    | true =>
      simp only [if_true, hsplit]
      push_cast
      rw [Int.sub_mul_ediv_right _ _ (by positivity)]
      simp [bitsOf, hsplit]
  have hlow : bitsOf ty a / 2 ^ k < 2 ^ (typeWidth ty - k) :=
    Nat.div_lt_of_lt_mul (by rw [mul_comm, ← hsplit]; exact bitsOf_lt ty a)
  unfold opSra
  simp only
  rw [hkdef, hdiv, getLsbD_ofNat_below (by omega) hi, testBit_wrapBits hlow (by omega) hi, Nat.testBit_div_two_pow,
    testBit_bitsOf]
  grind

theorem opRot_bit : (opRot ty a b).getLsbD ((i + bitsOf ty b) % typeWidth ty) = a.getLsbD i := by
  have hk : bitsOf ty b % typeWidth ty < typeWidth ty := Nat.mod_lt _ (by omega)
  have hplace : (i + bitsOf ty b) % typeWidth ty = (i + bitsOf ty b % typeWidth ty) % typeWidth ty := by simp
  unfold opRot
  simp only
  rw [hplace]
  generalize bitsOf ty b % typeWidth ty = k at hk
  have hhigh : bitsOf ty a * 2 ^ k % 2 ^ typeWidth ty = 2 ^ k * (bitsOf ty a % 2 ^ (typeWidth ty - k)) := by
    rw [mul_comm, ← Nat.mul_mod_mul_left, ← pow_add, Nat.add_sub_cancel' hk.le]
  have hlow : bitsOf ty a / 2 ^ (typeWidth ty - k) < 2 ^ k :=
    Nat.div_lt_of_lt_mul (by rw [← pow_add, Nat.sub_add_cancel hk.le]; exact bitsOf_lt ty a)
  rw [getLsbD_ofNat_below (w := typeWidth ty) (by omega) (Nat.mod_lt _ (by omega)), hhigh,
    Nat.testBit_two_pow_mul_add _ hlow, Nat.testBit_mod_two_pow, Nat.testBit_div_two_pow, testBit_bitsOf, testBit_bitsOf]
  by_cases hwrap : i + k < typeWidth ty
  · rw [Nat.mod_eq_of_lt hwrap]
    simp [hi, show i < typeWidth ty - k by omega]
  · rw [Nat.mod_eq_sub_mod (by omega), Nat.mod_eq_of_lt (by omega), if_pos (by omega),
      show i + k - typeWidth ty + (typeWidth ty - k) = i by omega]
    simp [hi]

theorem opFsh_bit : (opFsh ty a b c).getLsbD i =
    (let j := i + bitsOf ty c % typeWidth ty
     if j < typeWidth ty then b.getLsbD j else a.getLsbD (j - typeWidth ty)) := by
  have hk : bitsOf ty c % typeWidth ty < typeWidth ty := Nat.mod_lt _ (by omega)
  unfold opFsh
  simp only
  rw [getLsbD_ofNat_below (by omega) hi, Nat.testBit_mod_two_pow, Nat.testBit_div_two_pow, mul_comm,
    Nat.testBit_two_pow_mul_add _ (bitsOf_lt ty b), testBit_bitsOf, testBit_bitsOf]
  grind

/-- A field of k bits at p, extended. -/
theorem opBfx_bit : (opBfx ty a b).getLsbD i =
    (let p := b.toNat % 256
     let len := b.toNat / 256 % 256
     let top := min (p + len) (typeWidth ty)
     if len = 0 ∨ typeWidth ty ≤ p then false
     else if p + i < top then a.getLsbD (p + i)
     else typeSigned ty && a.getLsbD (top - 1)) := by
  unfold opBfx
  simp only [ge_iff_le, Bool.or_eq_true, decide_eq_true_eq]
  generalize b.toNat % 256 = p
  generalize b.toNat / 256 % 256 = len
  split
  · simp
  · generalize htop : min (p + len) (typeWidth ty) = top
    have hlow := Nat.mod_lt (bitsOf ty a / 2 ^ p) (show 2 ^ (top - p) > 0 by positivity)
    rw [extendOp_eq (by omega), getLsbD_ofNat_below (by omega) hi, testBit_wrapBits hlow (by omega) hi,
      Nat.testBit_mod_two_pow, Nat.testBit_div_two_pow, Nat.testBit_div_two_pow, testBit_bitsOf, testBit_bitsOf]
    rw [show i + p = p + i by omega, show top - p - 1 + p = top - 1 by omega]
    grind

theorem opBfi_bit : (opBfi ty c a b).getLsbD i =
    (let p := b.toNat % 256
     let len := b.toNat / 256 % 256
     let top := min (p + len) (typeWidth ty)
     if len = 0 ∨ typeWidth ty ≤ p ∨ i < p ∨ top ≤ i then a.getLsbD i else c.getLsbD (i - p)) := by
  unfold opBfi
  simp only [ge_iff_le, Bool.or_eq_true, decide_eq_true_eq]
  generalize b.toNat % 256 = p
  generalize b.toNat / 256 % 256 = len
  split
  · rw [getLsbD_ofNat_below (by omega) hi, testBit_bitsOf]
    grind
  · generalize htop : min (p + len) (typeWidth ty) = top
    have hbase := Nat.mod_lt (bitsOf ty a) (show 2 ^ p > 0 by positivity)
    have hfield := Nat.mod_lt (bitsOf ty c) (show 2 ^ (top - p) > 0 by positivity)
    have hlow : 2 ^ p * (bitsOf ty c % 2 ^ (top - p)) + bitsOf ty a % 2 ^ p < 2 ^ (p + (top - p)) := by
      calc 2 ^ p * (bitsOf ty c % 2 ^ (top - p)) + bitsOf ty a % 2 ^ p
          < 2 ^ p * (bitsOf ty c % 2 ^ (top - p) + 1) := by rw [mul_add, mul_one]; omega
        _ ≤ 2 ^ (p + (top - p)) := by rw [pow_add]; exact Nat.mul_le_mul_left _ hfield
    rw [show bitsOf ty a % 2 ^ p + bitsOf ty c % 2 ^ (top - p) * 2 ^ p
          + bitsOf ty a / 2 ^ (p + (top - p)) * 2 ^ (p + (top - p))
        = 2 ^ (p + (top - p)) * (bitsOf ty a / 2 ^ (p + (top - p)))
          + (2 ^ p * (bitsOf ty c % 2 ^ (top - p)) + bitsOf ty a % 2 ^ p) by ring,
      getLsbD_ofNat_below (by omega) hi, Nat.testBit_two_pow_mul_add _ hlow, Nat.testBit_two_pow_mul_add _ hbase,
      Nat.testBit_mod_two_pow, Nat.testBit_mod_two_pow, Nat.testBit_div_two_pow, testBit_bitsOf, testBit_bitsOf,
      testBit_bitsOf]
    clear hlow hfield hbase
    by_cases hbelow : i < p
    · simp [hbelow, hi, show i < p + (top - p) by omega]
    by_cases hin : i < top
    · simp [hbelow, show i < p + (top - p) by omega, show ¬ top ≤ i by omega, show ¬ typeWidth ty ≤ p by omega,
        show len ≠ 0 by omega, show i - p < top - p by omega, show i - p < typeWidth ty by omega]
    · simp [show ¬ i < p + (top - p) by omega, show top ≤ i by omega, hi,
        show i - (p + (top - p)) + (p + (top - p)) = i by omega]

end

end Sys2Proof.Machine
end

section
namespace Sys2Proof.Machine
open Sys2Proof

/-! The counts of bits, and their reversal (R282). -/

theorem bitAt_bitsOf {ty : BitVec 6} (a : DWord) {i : Nat} (hi : i < typeWidth ty) :
    bitAt (bitsOf ty a) i = a.getLsbD i := by
  rw [bitAt_eq_testBit, testBit_bitsOf, decide_eq_true hi, Bool.true_and]

theorem toNat_ofNat_count {v w : Nat} (hw : w ≤ 64) (hv : v ≤ w) : (BitVec.ofNat 64 v).toNat = v := by
  rw [BitVec.toNat_ofNat, Nat.mod_eq_of_lt (by omega)]

/-- The first n steps of the reversal: the low n bits of x, reversed into bits w-1 to w-n. -/
def reversed (x w n : Nat) : Nat :=
  (List.range n).foldl (fun v i => if bitAt x i then v + 2 ^ (w - 1 - i) else v) 0

theorem reversed_succ (x w n : Nat) :
    reversed x w (n + 1) = if bitAt x n then reversed x w n + 2 ^ (w - 1 - n) else reversed x w n := by
  simp [reversed, List.range_succ]

theorem dvd_reversed (x w : Nat) {n : Nat} (hn : n ≤ w) : 2 ^ (w - n) ∣ reversed x w n := by
  induction n with
  | zero => simp [reversed]
  | succ n ih =>
    have hdvd : 2 ^ (w - (n + 1)) ∣ reversed x w n := (pow_dvd_pow 2 (by omega)).trans (ih (by omega))
    rw [reversed_succ]
    split
    · exact dvd_add hdvd (pow_dvd_pow 2 (by omega))
    · exact hdvd

theorem testBit_reversed (x w : Nat) {n : Nat} (hn : n ≤ w) (j : Nat) :
    (reversed x w n).testBit j = (decide (w - n ≤ j ∧ j < w) && x.testBit (w - 1 - j)) := by
  induction n with
  | zero => simp [reversed]
  | succ n ih =>
    specialize ih (by omega)
    obtain ⟨a, ha⟩ := dvd_reversed x w (show n ≤ w by omega)
    have hsame : reversed x w n = 2 ^ (w - n) * a + 0 := ha
    rw [hsame, Nat.testBit_two_pow_mul_add _ (by positivity)] at ih
    rw [reversed_succ, bitAt_eq_testBit]
    by_cases hbit : x.testBit n = true
    · rw [if_pos hbit, ha, Nat.testBit_two_pow_mul_add _ (Nat.pow_lt_pow_right (by omega) (by omega)),
        Nat.testBit_two_pow]
      split
      · next hj =>
        by_cases hlast : j = w - 1 - n
        · simp [hlast, show w - 1 - (w - 1 - n) = n by omega, hbit, show w - (n + 1) ≤ w - 1 - n by omega,
            show w - 1 - n < w by omega]
        · simp [show ¬ w - 1 - n = j by omega, show ¬ w - (n + 1) ≤ j by omega]
      · next hj =>
        rw [if_neg hj] at ih
        rw [ih]
        simp [show w - n ≤ j by omega, show w - (n + 1) ≤ j by omega]
    · rw [if_neg hbit, hsame, Nat.testBit_two_pow_mul_add _ (by positivity), ih]
      by_cases hlast : j = w - 1 - n
      · simp [hlast, show w - 1 - (w - 1 - n) = n by omega, hbit]
      · rw [decide_eq_decide.2 (show (w - n ≤ j ∧ j < w) ↔ (w - (n + 1) ≤ j ∧ j < w) by omega)]

section
variable {ty : BitVec 6} (hw : typeWidth ty = 32 ∨ typeWidth ty = 64) (a : DWord)
include hw

theorem opBrev_bit {i : Nat} (hi : i < typeWidth ty) : (opBrev ty a).getLsbD (typeWidth ty - 1 - i) = a.getLsbD i := by
  change (BitVec.ofNat 64 (reversed (bitsOf ty a) (typeWidth ty) (typeWidth ty))).getLsbD _ = _
  rw [getLsbD_ofNat_below (w := typeWidth ty) (by omega) (by omega), testBit_reversed _ _ le_rfl, testBit_bitsOf,
    show typeWidth ty - 1 - (typeWidth ty - 1 - i) = i by omega]
  simp [hi, show typeWidth ty - 1 - i < typeWidth ty by omega]

theorem opPopc_count : (opPopc ty a).toNat = (List.range (typeWidth ty)).countP fun i => a.getLsbD i := by
  rw [opPopc, ← List.countP_eq_length_filter, toNat_ofNat_count (w := typeWidth ty) (by omega)]
  · exact List.countP_congr fun i hi => by rw [bitAt_bitsOf a (List.mem_range.1 hi)]
  · simpa using List.countP_le_length (p := fun i => bitAt (bitsOf ty a) i) (l := List.range (typeWidth ty))

theorem opClz_zero (h : bitsOf ty a = 0) : (opClz ty a).toNat = typeWidth ty := by
  simp only [opClz, h, if_true, toNat_ofNat_count (show typeWidth ty ≤ 64 by omega) le_rfl]

/-- The leading zeros end at the highest bit that is set. -/
theorem opClz_top (h : bitsOf ty a ≠ 0) : (opClz ty a).toNat < typeWidth ty
    ∧ a.getLsbD (typeWidth ty - 1 - (opClz ty a).toNat) = true
    ∧ ∀ i < typeWidth ty, typeWidth ty - 1 - (opClz ty a).toNat < i → a.getLsbD i = false := by
  have hlog : (bitsOf ty a).log2 < typeWidth ty := (Nat.log2_lt h).2 (bitsOf_lt ty a)
  have hval : (opClz ty a).toNat = typeWidth ty - 1 - (bitsOf ty a).log2 := by
    simp only [opClz, if_neg h, toNat_ofNat_count (show typeWidth ty ≤ 64 by omega)
      (show typeWidth ty - 1 - (bitsOf ty a).log2 ≤ typeWidth ty by omega)]
  have hbit : ∀ i < typeWidth ty, a.getLsbD i = (bitsOf ty a).testBit i := fun i hi => by simp [testBit_bitsOf, hi]
  have hplace : typeWidth ty - 1 - (typeWidth ty - 1 - (bitsOf ty a).log2) = (bitsOf ty a).log2 := by omega
  rw [hval, hplace, hbit _ hlog]
  refine ⟨by omega, Nat.testBit_log2 h, fun i hi habove => ?_⟩
  rw [hbit i hi]
  exact Nat.testBit_lt_two_pow ((Nat.log2_lt h).1 habove)

theorem opCtz_zero (h : bitsOf ty a = 0) : (opCtz ty a).toNat = typeWidth ty := by
  have hnone : ((List.range (typeWidth ty)).find? fun i => bitAt (bitsOf ty a) i) = none := by
    simp [bitAt_eq_testBit, h]
  simp only [opCtz, hnone, Option.getD_none, toNat_ofNat_count (show typeWidth ty ≤ 64 by omega) le_rfl]

/-- The trailing zeros end at the lowest bit that is set. -/
theorem opCtz_low (h : bitsOf ty a ≠ 0) : (opCtz ty a).toNat < typeWidth ty
    ∧ a.getLsbD (opCtz ty a).toNat = true ∧ ∀ i < (opCtz ty a).toNat, a.getLsbD i = false := by
  have hval : (opCtz ty a).toNat =
      (((List.range (typeWidth ty)).find? fun i => bitAt (bitsOf ty a) i).getD (typeWidth ty)) % 2 ^ 64 :=
    BitVec.toNat_ofNat ..
  rw [hval]
  cases hfind : ((List.range (typeWidth ty)).find? fun i => bitAt (bitsOf ty a) i) with
  | none =>
    have hlog : (bitsOf ty a).log2 < typeWidth ty := (Nat.log2_lt h).2 (bitsOf_lt ty a)
    have := List.find?_range_eq_none.1 hfind _ hlog
    simp [bitAt_eq_testBit, Nat.testBit_log2 h] at this
  | some k =>
    obtain ⟨hk, hmem, hbelow⟩ := List.find?_range_eq_some.1 hfind
    rw [List.mem_range] at hmem
    rw [Option.getD_some, Nat.mod_eq_of_lt (by omega)]
    refine ⟨hmem, (bitAt_bitsOf a hmem).symm.trans hk, fun i hi => ?_⟩
    rw [← bitAt_bitsOf a (hi.trans hmem)]
    simpa using hbelow i hi

end

end Sys2Proof.Machine

open Sys2Proof Sys2Proof.Machine

/-- Settles O7: each operation's bits by the lemma about it. -/
theorem bitOperations : Obligations.BitOperations := by
  intro ty a b c hty
  have hw := typeWidth_of_typeI_or_typeB hty
  exact ⟨fun _ hi => opShl_bit hw a b hi, fun _ hi => opShr_bit hw a b hi, fun _ hi => opSra_bit hw a b hi,
    fun _ hi => opRot_bit hw a b hi, fun _ hi => opFsh_bit hw a b c hi,
    fun h0 => ⟨opClz_zero hw a h0, opCtz_zero hw a h0⟩, opClz_top hw a, opCtz_low hw a, opPopc_count hw a,
    fun _ hi => opBrev_bit hw a hi, fun _ hi => opBfx_bit hw a b hi, fun _ hi => opBfi_bit hw a b c hi⟩
end

section
open Sys2Proof Sys2Proof.Machine

/-- Settles O36: the new value operation by operation; a signed minimum or maximum is one of the two values. -/
theorem atomicRule : Obligations.AtomicRule := by
  intro noData w old v n hw hold hv hn
  have hsigned : ∀ x < 2 ^ w, extendOp x w true = if 2 ^ (w - 1) ≤ x then (x : Int) - 2 ^ w else x := by
    intro x hx
    simp [extendOp, Nat.mod_eq_of_lt hx]
  refine ⟨rfl, ⟨_, rfl, ?_⟩, ⟨_, rfl, ?_⟩, rfl, rfl, rfl, rfl, rfl, rfl, rfl, rfl, rfl⟩
  · simp only [hsigned v hv, hsigned old hold]
    grind
  · simp only [hsigned v hv, hsigned old hold]
    grind
end

section
namespace Sys2Proof.Machine
open Sys2Proof

/-! What a write of a predicate leaves (R89, R90). -/

/-- The predicate registers of a gang. -/
def Gang.preds (g : Gang) : Vector Mask 8 × BitVec 8 := (g.p, g.k)

theorem Gang.pReg_of_preds {g k : Gang} (h : g.preds = k.preds) (i : BitVec 3) : g.pReg i = k.pReg i := by
  rw [Gang.pReg, Gang.pReg, (Prod.mk.inj h).1]
theorem Gang.kReg_of_preds {g k : Gang} (h : g.preds = k.preds) (i : BitVec 3) : g.kReg i = k.kReg i := by
  rw [Gang.kReg, Gang.kReg, (Prod.mk.inj h).2]

theorem Gang.preds_popSources (g : Gang) (m : Mask) (ops : List Operand) : (g.popSources m ops).preds = g.preds :=
  (congrArg Gang.preds (g.offQ_popSources m ops) :)
theorem State.preds_advance (s : State) (h : Header) : (s.advance h).gang.preds = s.gang.preds :=
  (congrArg Gang.preds (s.offIssue_advance h) :)

theorem Gang.bearing_popSources (g : Gang) (m : Mask) (ops : List Operand) : (g.popSources m ops).bearing = g.bearing :=
  (congrArg Gang.bearing (g.offQ_popSources m ops) :)

theorem Gang.bearing_writePred (g : Gang) (m : Mask) (code : BitVec 4) (v : Mask) :
    (g.writePred m code v).bearing = g.bearing := by
  unfold Gang.writePred Gang.setK Gang.setP
  simp only
  split <;> split <;> rfl

theorem getLsbD_kBit (i : BitVec 3) : (BitVec.ofNat 8 (2 ^ i.toNat)).getLsbD i.toNat = true := by
  revert i; decide

/-- A k register takes the value once; k7 stays true. -/
theorem Gang.kReg_setK (g : Gang) (i : BitVec 3) (b : Bool) : (g.setK i b).kReg i = (decide (i = 7) || b) := by
  unfold Gang.setK Gang.kReg
  by_cases h : i = 7
  · rw [if_pos h, decide_eq_true h, Bool.true_or, Bool.true_or]
  · rw [if_neg h, decide_eq_false h, Bool.false_or, Bool.false_or]
    cases b
    · rw [if_neg Bool.false_ne_true, BitVec.getLsbD_and, BitVec.getLsbD_not, getLsbD_kBit, Bool.not_true, Bool.and_false,
        Bool.and_false]
    · rw [if_pos rfl, BitVec.getLsbD_or, getLsbD_kBit, Bool.or_true]

/-- A p register takes the mask; p7 stays true in every lane. -/
theorem Gang.pReg_setP (g : Gang) (i : BitVec 3) (v : Mask) :
    (g.setP i v).pReg i = if i = 7 then BitVec.allOnes 32 else v := by
  unfold Gang.setP Gang.pReg
  by_cases h : i = 7
  · rw [if_pos h, if_pos h]
  · rw [if_neg h, if_neg h, if_neg h]
    exact Vector.getElem_set_self ..

theorem Gang.kReg_writePred (g : Gang) (m : Mask) {code : BitVec 4} (v : Mask) (hk : predIsK code = true) :
    (g.writePred m code v).kReg (code.extractLsb' 0 3) = (decide (code.extractLsb' 0 3 = 7) || v.getLsbD 0) := by
  simp only [Gang.writePred, hk, if_true, Gang.kReg_setK]

theorem Gang.pReg_writePred (g : Gang) (m : Mask) {code : BitVec 4} (v : Mask) (hk : ¬ predIsK code = true) {l : Nat}
    (hl : l < 32) : ((g.writePred m code v).pReg (code.extractLsb' 0 3)).getLsbD l =
      (decide (code.extractLsb' 0 3 = 7) || if m.getLsbD l then v.getLsbD l else (g.pReg (code.extractLsb' 0 3)).getLsbD l) := by
  rw [Gang.writePred, if_neg hk, Gang.pReg_setP]
  generalize code.extractLsb' 0 3 = i
  by_cases h : i = 7
  · rw [if_pos h, decide_eq_true h, Bool.true_or, BitVec.getLsbD_allOnes, decide_eq_true hl]
  · rw [if_neg h, decide_eq_false h, Bool.false_or, BitVec.getLsbD_or, BitVec.getLsbD_and, BitVec.getLsbD_and,
      BitVec.getLsbD_not, decide_eq_true hl]
    cases m.getLsbD l <;> simp

/-- A state whose predicates are those of a gang that wrote the code's predicate, from the predicates of `s`. -/
theorem wrotePred_of_preds {s t : State} {g : Gang} {m : Mask} {code : BitVec 4} {v : Mask} {lane : Nat → Bool} {once : Bool}
    (hg : g.preds = s.gang.preds) (ht : t.gang.preds = (g.writePred m code v).preds)
    (honce : predIsK code = true → v.getLsbD 0 = once)
    (hlane : ¬ predIsK code = true → ∀ l < 32, v.getLsbD l = lane l) : wrotePred s t m code lane once := by
  unfold wrotePred
  simp only
  split
  · next hk => rw [Gang.kReg_of_preds ht, Gang.kReg_writePred g m v hk, honce hk]
  · next hk =>
    intro l hl
    rw [Gang.pReg_of_preds ht, Gang.pReg_writePred g m v hk hl, hlane hk l hl, Gang.pReg_of_preds hg]

/-- A word whose effect pops its sources and writes a predicate is over with it. -/
theorem completes_pred {s : State} {m : Mask} {ops : List Operand} {code : BitVec 4} {v : Mask} {lane : Nat → Bool}
    {once : Bool} (h : Header) (honce : predIsK code = true → v.getLsbD 0 = once)
    (hlane : ¬ predIsK code = true → ∀ l < 32, v.getLsbD l = lane l) :
    wentOn s ((s.modGang fun g => (g.popSources m ops).writePred m code v).advance h) (s.pc + 12)
      ∧ wrotePred s ((s.modGang fun g => (g.popSources m ops).writePred m code v).advance h) m code lane once := by
  have hb : ((s.gang.popSources m ops).writePred m code v).bearing = s.gang.bearing :=
    (Gang.bearing_writePred ..).trans (Gang.bearing_popSources ..)
  obtain ⟨hpath, hrest⟩ := Prod.mk.inj hb
  refine ⟨wentOn_advance h rfl rfl rfl rfl rfl (State.stand_modGang hpath (Prod.mk.inj hrest).1),
    wrotePred_of_preds (Gang.preds_popSources s.gang m ops) ?_ honce hlane⟩
  rw [State.preds_advance, State.modGang_gang]

/-- A compare writes what it makes of the lanes, or of the gang-class sources once (R285). -/
theorem completes_cmp {s : State} {m : Mask} {ops : List Operand} {code : BitVec 4} (lane : Nat → Bool) (once : Bool)
    (h : Header) :
    wentOn s ((s.modGang fun g => (g.popSources m ops).writeCmp m code lane once).advance h) (s.pc + 12)
      ∧ wrotePred s ((s.modGang fun g => (g.popSources m ops).writeCmp m code lane once).advance h) m code lane once := by
  refine completes_pred h (fun hk => ?_) (fun hk l hl => ?_)
  · rw [if_pos hk]; cases once <;> rfl
  · rw [if_neg hk, Mask.getLsbD_ofFn lane hl]

theorem cmpBits_eq (ty : BitVec 6) (code : BitVec 5) (a b : DWord) :
    cmpBits ty code a b = intCond code (sourceInt ty a) (sourceInt ty b) := by
  rw [← intOf_eq_sourceInt, ← intOf_eq_sourceInt]; rfl

/-- A predicate code's lanes, read once: the k register's value in every lane. -/
theorem Gang.predLanes_once (g : Gang) {code : BitVec 4} (hk : predIsK code = true) :
    (g.predLanes code).getLsbD 0 = g.kReg (code.extractLsb' 0 3) := by
  rw [Gang.predLanes, if_pos hk]
  cases g.kReg (code.extractLsb' 0 3) <;> rfl

/-- The value written once counts only for an s destination. -/
theorem wroteDest.congr_once {s t : State} {m : Mask} {d : Operand} {w : Nat} {f : Nat → DWord} {v v' : DWord}
    (h : wroteDest s t m d w f v) (hv : WordClass.ofDest d ≠ .lane → v = v') : wroteDest s t m d w f v' := by
  cases d with
  | s i => rw [← hv (by simp [WordClass.ofDest])]; exact h
  | _ => exact h

theorem sel_completes {x : RRR} {s : State} {m : Mask}
    (hi : s.issuesRrr x 2 ((typeI x.typ || typeB x.typ || x.typ.toNat = 0x01) && x.sub == 0
      && (WordClass.ofDest x.hdr.d == .lane || predIsK x.pred)) m) :
    ∃ t, exec (.sel x) s = .next t ∧ wentOn s t (s.pc + 12)
      ∧ wroteDest s t m x.hdr.d (typeWidth x.typ)
          (fun l => if (s.gang.predLanes x.pred).getLsbD (l % 32) then readLane s x.typ 0 x.a l else readLane s x.typ 0 x.b l)
          (if s.gang.kReg (x.pred.extractLsb' 0 3) then readGang s x.typ 0 x.a else readGang s x.typ 0 x.b) := by
  have hk : WordClass.ofDest x.hdr.d ≠ .lane → predIsK x.pred = true := by
    obtain ⟨-, -, hlegal, -⟩ := hi
    simp only [Bool.and_eq_true, Bool.or_eq_true, beq_iff_eq] at hlegal
    obtain ⟨⟨⟨_, hclass⟩, _⟩, _⟩ := hlegal
    exact fun hne => hclass.resolve_left hne
  obtain ⟨t, ht, hwent, hdest⟩ := alu_completes
    (fun l a b _ => if (s.gang.predLanes x.pred).getLsbD (l % 32) then a else b) hi
  refine ⟨t, ht, hwent, hdest.congr_once fun hne => ?_⟩
  rw [← Gang.predLanes_once _ (hk hne)]

end Sys2Proof.Machine

open Sys2Proof Sys2Proof.Machine

/-- Settles O8: SEL is RRR arithmetic; the compares and PLOG write a predicate. -/
theorem predicateResult : Obligations.PredicateResult := by
  refine ⟨fun x s m hi => sel_completes hi, fun x s m hi => ?cmp, fun x s m hi => ?cmpRI, fun x s m hi => ?fcmp, ?plog⟩
  case cmp =>
    refine ⟨_, issue_of_issues _ hi, ?_⟩
    simp only [← cmpBits_eq]
    exact completes_cmp _ _ x.hdr
  case cmpRI =>
    refine ⟨_, issue_of_issues _ hi, ?_⟩
    simp only [← cmpBits_eq]
    exact completes_cmp _ _ x.hdr
  case fcmp => exact ⟨_, issue_of_issues _ hi, completes_cmp _ _ x.hdr⟩
  case plog =>
    intro x s m dst P Q fn hi
    exact ⟨_, issue_of_issues _ hi, completes_pred (ops := []) x.hdr (fun _ => rfl) fun _ _ _ => rfl⟩
end

section
namespace Sys2Proof.Machine
open Sys2Proof

/-! Words that round each lane's result (R235). -/

/-- A word that writes its destination and steps the acting lanes' LRAND under `.sr` is over with both. -/
theorem completes_rounded {s : State} {F : Gang → Gang} {m : Mask} {ops : List Operand} {d : Operand} {w : Nat}
    {f : Nat → DWord} {v : DWord} {rm : Nat} {lr : Nat → Word} (h : Header)
    (hF : F s.gang = (s.gang.took m ops d w f v).stepLrand rm m lr) :
    wentOn s ((s.modGang F).advance h) (s.pc + 12) ∧ wroteDest s ((s.modGang F).advance h) m d w f v
      ∧ ∀ l < 32, ((s.modGang F).advance h).gang.lrand.at l =
          if rm = rmSr ∧ m.getLsbD l = true then lr l else s.gang.lrand.at l := by
  obtain ⟨hwent, hwrote⟩ := completes_took (s := s) (F := F) h ((congrArg Gang.results hF).trans (Gang.results_stepLrand ..))
    ((congrArg Gang.bearing hF).trans ((Gang.bearing_stepLrand ..).trans (Prod.mk.inj (Gang.aside_took ..)).1))
  refine ⟨hwent, hwrote, fun l hl => ?_⟩
  rw [State.advance_lrand, State.modGang_gang, hF, Gang.lrand_stepLrand _ _ _ _ hl, (Prod.mk.inj (Gang.aside_took ..)).2]

/-- FRND in lane l (R292): the encoding of the rounded value, and the LRAND that the rounding leaves. -/
def frndOut (s : State) (x : RRR) (l : Nat) : Nat × Word :=
  let out := roundIntegral (numOf x.typ (readLane s x.typ 0 x.a l)) (rmOf x.sub) (s.gang.lrand.at l)
  ((encodeNum x.typ.toNat out.1 rmRne 0).1, out.2)

/-- CVT in lane l (R293). -/
def cvtOut (s : State) (x : RI) (l : Nat) : Nat × Word :=
  convertBits x.typ.toNat x.typ2.toNat (x.imm.extractLsb' 0 8 : BitVec 8).toInt (rmOf x.sub) (cvtRead s x l)
    (s.gang.lrand.at l)

theorem exec_frnd {x : RRR} {s : State} {m : Mask}
    (hi : s.issues x.hdr (WordClass.ofDest x.hdr.d) (fieldsRm x && dstOk (WordClass.ofDest x.hdr.d) s.gang false x.hdr.d
      && rrrSrcsOk x 1 (WordClass.ofDest x.hdr.d) s.gang false) [(x.hdr.d, false)] (rrrSrcs x 1 false) m) :
    exec (.frnd x) s = .next ((s.modGang fun g =>
      (g.took m [x.a] x.hdr.d (typeWidth x.typ) (fun l => BitVec.ofNat 64 (frndOut s x l).1)
        (BitVec.ofNat 64 (frndOut s x g.lane0).1)).stepLrand (rmOf x.sub) m fun l => (frndOut s x l).2).advance x.hdr) :=
  issue_of_issues _ hi

theorem exec_cvt {x : RI} {s : State} {m : Mask}
    (hi : s.issues x.hdr (WordClass.ofDest x.hdr.d) (cvtType x.typ && cvtType x.typ2
      && (fmtComplex x.typ.toNat == fmtComplex x.typ2.toNat) && rmOk (WordClass.ofDest x.hdr.d) x.sub
      && !(x.sub.toNat = 4 && x.typ2.toNat = 0x09) && x.pred == 0 && x.imm.extractLsb' 8 24 == 0 && feOk x.fe x.a
      && (srcOk (WordClass.ofDest x.hdr.d) s.gang (wideType x.typ) x.a || x.a == .immField)
      && dstOk (WordClass.ofDest x.hdr.d) s.gang (wideType x.typ2) x.hdr.d) [(x.hdr.d, wideType x.typ2)]
      (riSrcs x (wideType x.typ)) m) :
    exec (.cvt x) s = .next ((s.modGang fun g =>
      (g.took m [x.a] x.hdr.d (typeWidth x.typ2) (fun l => BitVec.ofNat 64 (cvtOut s x l).1)
        (BitVec.ofNat 64 (cvtOut s x g.lane0).1)).stepLrand (rmOf x.sub) m fun l => (cvtOut s x l).2).advance x.hdr) :=
  issue_of_issues _ hi

end Sys2Proof.Machine

open Sys2Proof Sys2Proof.Machine

/-- Settles O10: both words write a destination lane by lane and step LRAND. -/
theorem roundAndConvert : Obligations.RoundAndConvert := by
  refine ⟨fun x s m hi => ?frnd, fun x s m => ?cvt⟩
  case frnd =>
    exact ⟨_, exec_frnd hi, completes_rounded x.hdr rfl⟩
  case cvt =>
    intro c hi
    exact ⟨_, exec_cvt hi, completes_rounded x.hdr rfl⟩
end

section
namespace Sys2Proof.Machine
open Sys2Proof

/-! A MOV of an h register in a gang that is not packed although it lists the part of a second task. -/

/-- Lane 1 alone acts; its part holds 1 in h0, the gang's own h0 is 0. -/
def partedGang : Gang :=
  { Gang.start 0x1000 2 with
    resident := true, p0 := { Path.start 0x1000 2 with xm := 2 }
    pack := [(1, { (Gang.start 0x1000 2).part with h := Vector.replicate 16 1 })] }

def partedState : State := { State.reset with ctx := { Context.none with gangs := [(0, partedGang)] } }

/-- MOV h1, h0. -/
def movH : RRR := wordRRR (.h 1) (.h 0) .absent .absent 0

theorem partedState_issues : partedState.issuesMov movH 2 := by
  refine ⟨?_, ?_, ?_, ?_, ?_⟩ <;> decide +kernel

/-- The MOV reads h0 of the lowest lane's task. -/
theorem partedState_moves :
    (match exec (.mov movH) partedState with
      | .next t => t.gang.hReg 1
      | _ => 0) = 1 := by decide +kernel

end Sys2Proof.Machine

open Sys2Proof Sys2Proof.Machine

/-- Refutes O11: for an h destination the clause reads the source of lane 0, where MOV reads that of the lowest lane of XM.
The two differ in a gang whose `packed` is false although `pack` lists a part for its lowest lane, which the clause's
premises allow (a state that no spawn makes). -/
theorem not_moveResult : ¬ Obligations.MoveResult := by
  rintro ⟨hmov, -⟩
  obtain ⟨t, ht, -, hreg⟩ := hmov movH partedState 2 partedState_issues fun _ _ => rfl
  have hmoves := partedState_moves
  rw [ht] at hmoves
  have hread : t.gang.hReg 1 = readLane partedState 0x1C 0 (.h 0) 0 := hreg
  exact absurd (hmoves.symm.trans hread) (by decide +kernel)
end

section
namespace Sys2Proof.Machine
open Sys2Proof

/-! A packed gang whose front task does not act and waits for its h0. -/

/-- Tasks in lanes 0 and 1; lane 1 alone acts; h0 is empty in lane 0's task and full in lane 1's. -/
def halfGang : Gang :=
  { Gang.start 0x1000 2 with
    resident := true, packed := true, he := 1, p0 := { Path.start 0x1000 2 with xm := 2 }
    pack := [(1, (Gang.start 0x1000 2).part)] }

def halfState : State := { State.reset with ctx := { Context.none with gangs := [(0, halfGang)] } }

/-- LSH.b32 w4, w1, 0, h0: no lane takes the fill. -/
def lshH : RRR := wordRRR (.w 4) (.w 1) (.imm 0) (.h 0) 0x1C

theorem halfState_issues : halfState.issuesLane lshH (shiftTypeOk lshH && dstOk .lane halfState.gang false lshH.hdr.d
    && laneSrcOk halfState.gang false lshH.a && laneSrcOk halfState.gang false lshH.c
    && feOk (lshH.fe.getLsbD 2) lshH.a && feOk (lshH.fe.getLsbD 1) lshH.b && feOk (lshH.fe.getLsbD 0) lshH.c) false
    (fun m => [⟨lshH.b, lshH.fe.getLsbD 1, 1, false, m⟩, ⟨lshH.a, lshH.fe.getLsbD 2, 0, false, m⟩,
      ⟨lshH.c, lshH.fe.getLsbD 0, 2, false, m⟩]) 2 := by
  refine ⟨?_, ?_, ?_, ?_, ?_⟩ <;> decide +kernel

/-- The word is held: read in no lane, h0 counts as the front task's. -/
theorem halfState_held :
    (match exec (.lsh lshH) halfState with
      | .next t => t.clock
      | _ => 0) = 0 := by decide +kernel

end Sys2Proof.Machine

open Sys2Proof Sys2Proof.Machine

/-- Refutes O14: in a packed gang the clause on LSH asks only that the acting lanes' sources are full, while the word reads
its fill in no lane where the amount is 0, and an h source read in no lane counts as the front task's. Where the front task
does not act and its h register is empty, the word is held and does not complete. -/
theorem not_laneOperations : ¬ Obligations.LaneOperations := by
  rintro ⟨-, -, -, -, -, -, hpacked⟩
  obtain ⟨-, -, -, hlsh, -⟩ := hpacked lshH halfState 2 rfl
  obtain ⟨t, ht, ⟨hclock, -⟩, -⟩ := hlsh halfState_issues
  have hheld := halfState_held
  rw [ht] at hheld
  have hone : t.clock = 1 := hclock
  exact absurd (hone.symm.trans hheld) (by decide)
end

section
namespace Sys2Proof.Machine
open Sys2Proof

/-! What leaving a word leaves of a carrel: all but its performance counters (R373). -/

/-- The carrel without its counts. -/
def Carrel.uncounted (c : Carrel) : Carrel := { c with pmcnt := Vector.replicate 4 0 }

theorem Carrel.uncounted_count (c : Carrel) (event n : Nat) : (c.count event n).uncounted = c.uncounted := rfl

theorem State.uncounted_count (s : State) (carrel event n k : Nat) :
    ((s.count carrel event n).carrelOf k).uncounted = (s.carrelOf k).uncounted := by
  unfold State.count
  split
  · rw [State.modCarrelOf, State.carrelOf_setCarrelOf]
    split
    · next h => rw [h, Carrel.uncounted_count]
    · rfl
  · rfl

theorem State.uncounted_issuedOne (s : State) (k : Nat) : (s.issuedOne.carrelOf k).uncounted = (s.carrelOf k).uncounted := by
  unfold State.issuedOne
  split
  · exact State.uncounted_count ..
  · rfl

theorem State.uncounted_tick (s : State) (k : Nat) : (s.tick.carrelOf k).uncounted = (s.carrelOf k).uncounted := by
  have hcounts : ∀ e : Nat × Carrel, (if s.gated.contains e.1 then e.2
      else (e.2.count 1 1).count 3 (s.lostSlots true e.1)).uncounted = e.2.uncounted := fun e => ?_
  · exact Table.look_map_keeps Carrel.uncounted (fun e => (e.1, if s.gated.contains e.1 then e.2
      else (e.2.count 1 1).count 3 (s.lostSlots true e.1))) (fun _ => rfl) hcounts ..
  split
  · rfl
  · exact (Carrel.uncounted_count ..).trans (Carrel.uncounted_count ..)

theorem State.uncounted_leave (s : State) (h : Header) (pc : DWord) (b : Bool) (k : Nat) :
    ((s.leave h pc b).carrelOf k).uncounted = (s.carrelOf k).uncounted :=
  (State.uncounted_tick _ k).trans (s.uncounted_issuedOne k)

theorem State.uncounted_advance (s : State) (h : Header) (k : Nat) :
    ((s.advance h).carrelOf k).uncounted = (s.carrelOf k).uncounted := s.uncounted_leave ..

end Sys2Proof.Machine
end

section
namespace Sys2Proof.Machine
open Sys2Proof

/-! PTLD and PERM (R107, R296). -/

theorem State.pats_advance (s : State) (h : Header) (k : Nat) : ((s.advance h).carrelOf k).pats = (s.carrelOf k).pats :=
  (congrArg Carrel.pats (s.uncounted_advance h k) :)

theorem tableNo_lt {o : Operand} {n : Nat} (h : tableNo o = some n) : n < 16 := by
  unfold tableNo at h
  split at h
  · split at h
    · cases h; omega
    · cases h
  · cases h

/-- The half word at byte k of a byte string. -/
theorem toNat_halfWord (bs : List Byte) (k : Nat) :
    (BitVec.ofNat 16 (bytesToNat ((bs.drop k).take 2))).toNat = (bs.getD k 0).toNat + 256 * (bs.getD (k + 1) 0).toNat := by
  have h0 : (bs.getD k 0).toNat < 256 := (bs.getD k 0).isLt
  have h1 : (bs.getD (k + 1) 0).toNat < 256 := (bs.getD (k + 1) 0).isLt
  have hbytes : bytesToNat ((bs.drop k).take 2) = (bs.getD k 0).toNat + 256 * (bs.getD (k + 1) 0).toNat := by
    have hget : ∀ j, (bs.drop k).getD j 0 = bs.getD (k + j) 0 := fun j => by simp [List.getD]
    have hfirst := hget 0
    have hnext := hget 1
    rw [Nat.add_zero] at hfirst
    rw [← hfirst, ← hnext]
    cases bs.drop k with
    | nil => rfl
    | cons a as => cases as <;> simp [bytesToNat]
  rw [hbytes, BitVec.toNat_ofNat, Nat.mod_eq_of_lt (by omega)]

/-- The pattern table that PTLD makes of the constant section at a. -/
def ptldPattern (g : Gang) (sec : List Byte) (a : Nat) : Pattern :=
  let bs := (sec.drop a).take 256
  { tag := g.code,
    entries := Vector.ofFn fun (e : Fin 128) => BitVec.ofNat 16 (bytesToNat ((bs.drop (2 * e)).take 2)) }

theorem ptldPattern_entry (g : Gang) (sec : List Byte) (a : Nat) {e : Nat} (he : e < 128) :
    ((ptldPattern g sec a).entries.getD e 0).toNat =
      (sec.getD (a + 2 * e) 0).toNat + 256 * (sec.getD (a + 2 * e + 1) 0).toNat := by
  have hbyte : ∀ k < 256, ((sec.drop a).take 256).getD k 0 = sec.getD (a + k) 0 := fun k hk => by
    simp [List.getD, hk]
  have hentry : (ptldPattern g sec a).entries.getD e 0 =
      BitVec.ofNat 16 (bytesToNat ((((sec.drop a).take 256).drop (2 * e)).take 2)) := by
    simp [ptldPattern, Vector.getD, he]
  rw [hentry, toNat_halfWord, hbyte _ (by omega), hbyte _ (by omega), Nat.add_assoc]

/-- The carrel of the current gang holds table n. -/
def State.putPattern (s : State) (n : Nat) (p : Pattern) : State :=
  s.modCarrelOf s.gang.carrel fun c => { c with pats := c.pats.setIfInBounds n (some p) }

theorem State.pats_putPattern (s : State) {n : Nat} (hn : n < 16) (p : Pattern) :
    ((s.putPattern n p).carrelOf s.gang.carrel).pats[n]? = some (some p) := by
  rw [State.putPattern, State.modCarrelOf, State.carrelOf_setCarrelOf, if_pos rfl]
  exact Vector.getElem?_setIfInBounds_self_of_lt hn

theorem exec_ptld {x : RRR} {s : State} {m : Mask}
    (hi : s.issues x.hdr .gang (permFieldsOk x && x.hdr.d == .absent && (tableNo x.a).isSome && !x.fe.getLsbD 2
      && isS x.b) [] (fun m => [⟨x.b, x.fe.getLsbD 1, 1, false, m⟩]) m)
    (halign : (readGang s 0x1D 0 x.b).toNat % 256 = 0)
    (hroom : (readGang s 0x1D 0 x.b).toNat + 256 ≤ (s.consts s.gang.code).length) :
    exec (.ptld x) s = .next ((s.putPattern ((tableNo x.a).getD 0)
      (ptldPattern s.gang (s.consts s.gang.code) (readGang s 0x1D 0 x.b).toNat)).advance x.hdr) := by
  refine (issue_of_issues _ (show s.issues x.hdr .gang _ [] _ m from ?_)).trans
    ((if_neg (not_not.2 halign)).trans (if_neg (Nat.not_lt.2 hroom)))
  cases hb : x.b <;> rw [hb] at hi <;> exact hi

theorem ptld_completes {x : RRR} {s : State} {m : Mask} {n : Nat}
    (hi : s.issues x.hdr .gang (permFieldsOk x && x.hdr.d == .absent && (tableNo x.a).isSome && !x.fe.getLsbD 2
      && isS x.b) [] (fun m => [⟨x.b, x.fe.getLsbD 1, 1, false, m⟩]) m)
    (hn : tableNo x.a = some n) (halign : (readGang s 0x1D 0 x.b).toNat % 256 = 0)
    (hroom : (readGang s 0x1D 0 x.b).toNat + 256 ≤ (s.consts s.gang.code).length) :
    ∃ t, exec (.ptld x) s = .next t ∧ wentOn s t (s.pc + 12)
      ∧ (t.carrelOf s.gang.carrel).pats[n]? =
          some (some (ptldPattern s.gang (s.consts s.gang.code) (readGang s 0x1D 0 x.b).toNat)) := by
  refine ⟨_, exec_ptld hi halign hroom, wentOn_advance x.hdr rfl rfl rfl rfl rfl rfl, ?_⟩
  rw [State.pats_advance, hn]
  exact State.pats_putPattern s (tableNo_lt hn) _

end Sys2Proof.Machine
end

section
namespace Sys2Proof.Machine
open Sys2Proof

/-! A source that no lane of m waits for is full in the fewer lanes that a word reads (R92). -/

theorem emptyLanes_w_mono {g : Gang} {wide : Bool} {m k : Mask} {i : BitVec 8} (hsub : k &&& m = k)
    (h : srcEmpty g wide m (.w i) = false) : srcEmpty g wide k (.w i) = false := by
  simp only [srcEmpty, emptyLanes, bne_eq_false_iff_eq] at h ⊢
  rw [← hsub, BitVec.and_assoc, h]
  exact BitVec.and_zero

theorem permByte_lt (g : Gang) (i : BitVec 8) (m : Mask) (l : Nat) (e : BitVec 16) : permByte g i m l e < 256 := by
  unfold permByte
  split
  · omega
  · extract_lets w b
    have hb : b < 256 := Nat.mod_lt _ (by omega)
    split <;> omega

/-- A number of 32 bits in a w register of 32 bits. -/
theorem toNat_lowWord {v : Nat} (hv : v < 2 ^ 32) :
    ((BitVec.ofNat 64 v).setWidth 32 &&& BitVec.ofNat 32 (2 ^ min 32 32 - 1)).toNat = v := by
  have hones : BitVec.ofNat 32 (2 ^ min 32 32 - 1) = BitVec.allOnes 32 := by decide
  rw [hones, BitVec.and_allOnes, BitVec.toNat_setWidth, BitVec.toNat_ofNat]
  omega

/-- The four bytes that PERM gathers for lane l, as a number (R107). -/
def permWord (g : Gang) (i : BitVec 8) (m : Mask) (p : Pattern) (l : Nat) : Nat :=
  (List.range 4).foldl (fun v k => v + permByte g i m l (p.entries.getD (4 * g.laneNo l + k) 0xC000) * 256 ^ k) 0

theorem foldl_sum_four (b w : Nat → Nat) : (List.range 4).foldl (fun v k => v + b k * w k) 0 =
    0 + b 0 * w 0 + b 1 * w 1 + b 2 * w 2 + b 3 * w 3 := rfl

/-- Four bytes put together as a number. -/
theorem foldl_fourBytes {b : Nat → Nat} (hb : ∀ k, b k < 256) :
    (List.range 4).foldl (fun v k => v + b k * 256 ^ k) 0 = bytesToNat ((List.range 4).map fun k => BitVec.ofNat 8 (b k)) := by
  have hbyte : ∀ k, (BitVec.ofNat 8 (b k)).toNat = b k := fun k => by rw [BitVec.toNat_ofNat, Nat.mod_eq_of_lt (hb k)]
  have hrange : List.range 4 = [0, 1, 2, 3] := rfl
  rw [foldl_sum_four, hrange]
  simp only [List.map_cons, List.map_nil, bytesToNat, hbyte]
  omega

theorem permWord_eq (g : Gang) (i : BitVec 8) (m : Mask) (p : Pattern) (l : Nat) :
    permWord g i m p l = bytesToNat ((List.range 4).map fun k =>
      BitVec.ofNat 8 (permByte g i m l (p.entries.getD (4 * g.laneNo l + k) 0xC000))) :=
  foldl_fourBytes fun _ => permByte_lt ..

theorem permWord_byte (g : Gang) (i : BitVec 8) (m : Mask) (p : Pattern) (l : Nat) {k : Nat} (hk : k < 4) :
    permWord g i m p l / 256 ^ k % 256 = permByte g i m l (p.entries.getD (4 * g.laneNo l + k) 0xC000) := by
  rw [permWord_eq, bytesToNat_byte]
  simp [List.getD, hk, Nat.mod_eq_of_lt (permByte_lt g i m l _)]

theorem permWord_lt (g : Gang) (i : BitVec 8) (m : Mask) (p : Pattern) (l : Nat) : permWord g i m p l < 2 ^ 32 := by
  rw [permWord_eq]
  exact lt_of_lt_of_eq (bytesToNat_lt _) (by simp)

theorem Gang.laneNo_le (g : Gang) (l : Nat) : g.laneNo l ≤ l := by
  unfold Gang.laneNo; split <;> omega

/-- An entry of a table that there is, whatever the default. -/
theorem Pattern.entries_getD (p : Pattern) {e : Nat} (he : e < 128) (d d' : BitVec 16) :
    p.entries.getD e d = p.entries.getD e d' := by simp [Vector.getD, he]

/-- The lanes of m that PERM reads of the r-th register (R107). -/
def permReads (g : Gang) (p : Pattern) (m : Mask) (r : Nat) : Mask := Mask.ofFn fun j =>
  m.has j && m.lanes.any fun l => (List.range 4).any fun k =>
    let e := p.entries.getD (4 * g.laneNo l + k) 0xC000
    entryMode e ≠ 3 && entryReg e = r && (g.crossMask m).has (entryLane e) && g.laneAt l (entryLane e) = j

theorem permReads_sub (g : Gang) (p : Pattern) (m : Mask) (r : Nat) : permReads g p m r &&& m = permReads g p m r := by
  refine BitVec.eq_of_getLsbD_eq fun l hl => ?_
  rw [BitVec.getLsbD_and, permReads, Mask.getLsbD_ofFn _ hl, Mask.has]
  cases m.getLsbD l <;> simp

theorem perm_table {x : RRR} {s : State} {n : Nat} {p : Pattern} (hn : tableNo x.b = some n)
    (hp : (s.carrelOf s.gang.carrel).pats[n]? = some (some p)) :
    ((tableNo x.b).bind fun t => (s.carrelOf s.gang.carrel).pats[t]?.join) = some p := by
  rw [hn]; exact congrArg Option.join hp

theorem Pattern.reserved_clear {p : Pattern} (h : ∀ e < 128, (p.entries.getD e 0).extractLsb' 9 5 = 0) :
    (p.entries.toList.all fun e => e.extractLsb' 9 5 == 0) = true := by
  rw [List.all_eq_true]
  intro e he
  obtain ⟨k, hk, rfl⟩ := List.getElem_of_mem he
  rw [Vector.length_toList] at hk
  simpa [Vector.getD, hk] using h k hk

theorem exec_perm {x : RRR} {s : State} {m : Mask} {n : Nat} {p : Pattern} {i d : BitVec 8}
    (ha : x.a = .w i) (hd : x.hdr.d = .w d) (hn : tableNo x.b = some n)
    (hp : (s.carrelOf s.gang.carrel).pats[n]? = some (some p)) (htag : p.tag = s.gang.code)
    (hres : ∀ e < 128, (p.entries.getD e 0).extractLsb' 9 5 = 0)
    (hi : s.issues x.hdr .lane (permFieldsOk x && !x.fe.getLsbD 1 && wOk s.gang false d && i.toNat % 4 = 0
      && i.toNat + 3 < s.gang.regs) [(x.hdr.d, false)]
      (fun m => (List.range 4).map fun r => ⟨.w (i + BitVec.ofNat 8 r), x.fe.getLsbD 2, 0, false, m⟩) m) :
    exec (.perm x) s = .next ((s.modGang fun g => g.writeDest m x.hdr.d 32
      (fun l => BitVec.ofNat 64 (permWord g i m p l)) 0).advance x.hdr) := by
  obtain ⟨hacts, hrsv, hlegal, hdst, hsrc⟩ := hi
  simp only [Bool.and_eq_true, decide_eq_true_eq] at hlegal
  obtain ⟨⟨⟨⟨hfields, hfe⟩, hw⟩, hfour⟩, hregs⟩ := hlegal
  change execPerm x s = _
  unfold execPerm
  simp only [perm_table hn hp]
  rw [issue_of_issues (m := m)]
  · simp only [ha, permWord]
  refine ⟨hacts, hrsv, ?_, hdst, ?_⟩
  · rw [Pattern.reserved_clear hres, hfields, hfe, hd, ha]
    simp [dstOk, hw, execPerm.quadOk_, hfour, hregs, feOk, htag]
  · intro y hy
    simp only [List.mem_map, List.mem_range] at hy
    obtain ⟨r, hr, rfl⟩ := hy
    rw [ha]
    exact emptyLanes_w_mono (permReads_sub s.gang p m r)
      (hsrc ⟨.w (i + BitVec.ofNat 8 r), x.fe.getLsbD 2, 0, false, m⟩ (List.mem_map.2 ⟨r, List.mem_range.2 hr, rfl⟩))

end Sys2Proof.Machine

open Sys2Proof Sys2Proof.Machine

/-- Settles O15: PTLD's table is made of the section's half words; PERM writes one word of four table entries a lane. -/
theorem patternTables : Obligations.PatternTables := by
  refine ⟨fun x s m n hi hn => ?ptld,
    fun x s m n p i d ha hd hn hp htag hres hi => ?perm⟩
  case ptld =>
    intro a sec halign hroom
    obtain ⟨t, ht, hwent, hpat⟩ := ptld_completes hi hn halign hroom
    exact ⟨t, ht, hwent, _, hpat, rfl, fun _ he => ptldPattern_entry _ _ _ he⟩
  case perm =>
    obtain ⟨hwent, hwrote⟩ := completes_took (s := s) (m := m) (ops := []) (d := x.hdr.d) (w := 32)
      (f := fun l => BitVec.ofNat 64 (permWord s.gang i m p l)) (v := 0)
      (F := fun g => g.writeDest m x.hdr.d 32 (fun l => BitVec.ofNat 64 (permWord g i m p l)) 0) x.hdr rfl
      (Prod.mk.inj (Gang.aside_writeDest ..)).1
    refine ⟨_, exec_perm ha hd hn hp htag hres hi, hwent, fun l hl hm k hk => ?_⟩
    rw [hd] at hwrote
    obtain ⟨hlow, -⟩ := hwrote
    rw [hd, hlow l hl, if_pos hm]
    have hword : ((BitVec.ofNat 64 (permWord s.gang i m p l)).setWidth 32 &&& BitVec.ofNat 32 (2 ^ min 32 32 - 1)).toNat
        = permWord s.gang i m p l := toNat_lowWord (permWord_lt s.gang i m p l)
    rw [hword, permWord_byte _ _ _ _ _ hk, p.entries_getD (by have := s.gang.laneNo_le l; omega)]
end

section
namespace Sys2Proof.Machine
open Sys2Proof

/-! What settling a path keeps of the gang, and control transfers (R15, R98, R303). -/

/-- Settling sets paths, and meets at a label at the most: what both keep stays. -/
theorem Gang.settle_keeps {P : Gang → Prop} (hpath : ∀ g p, P g → P (g.setPath p))
    (hmeet : ∀ g sp, P g → P (Gang.rejoin { g with split := some sp })) (fuel : Nat) (gone : Bool) {g : Gang} (h : P g) :
    P (g.settle fuel gone) := by
  induction fuel generalizing gone g with
  | zero => exact h
  | succ n ih =>
    unfold Gang.settle
    extract_lets p
    clear_value p
    split
    · split
      · extract_lets arrived
        split
        · exact ih _ (hpath _ _ h)
        · exact ih _ (hpath _ _ h)
      · exact hpath _ _ h
    · split
      · split
        · exact hmeet _ _ (hpath _ _ h)
        · exact hpath _ _ h
      · exact hpath _ _ h

/-- What the hints of a word set: the rest of the run, and whether the gang has ceded (R15). -/
def Gang.hints (g : Gang) : Nat × Bool := (g.run, g.ceded)

theorem Gang.hints_setPath (g : Gang) (p : Path) : (g.setPath p).hints = g.hints := by
  unfold Gang.setPath; split <;> rfl

theorem Gang.hints_rejoin (g : Gang) : g.rejoin.hints = g.hints := by
  unfold Gang.rejoin
  extract_lets away
  split
  · rfl
  · split <;> rfl

theorem Gang.hints_settled (g : Gang) (gone : Bool) : (g.settled gone).hints = g.hints :=
  Gang.settle_keeps (P := fun k => k.hints = g.hints) (fun _ _ h => (Gang.hints_setPath ..).trans h)
    (fun _ _ h => (Gang.hints_rejoin _).trans h) _ _ rfl

theorem Gang.hints_hint (g : Gang) (h : Header) (b : Bool) (now : Nat) :
    (g.hint h b now).hints = (if b then 0 else if h.run != 0 then h.run.toNat else g.run - 1, h.cede) := rfl

theorem State.hints_leave (s : State) (h : Header) (pc : DWord) (b : Bool) : (s.leave h pc b).gang.hints =
    (if b then 0 else if h.run != 0 then h.run.toNat else s.gang.run - 1, h.cede) := by
  have hrun : (s.gang.modPath fun p => p.leaves pc).run = s.gang.run := (Prod.mk.inj (Gang.hints_setPath ..)).1
  rw [State.leave_gang, Gang.hints_settled, Gang.hints_hint, hrun]

/-- A path of a trap's split handler stays one, or the paths have met (R142). -/
theorem Gang.trapSplit_settled (g : Gang) (gone : Bool) :
    (g.settled gone).trapSplit = g.trapSplit ∨ (g.settled gone).trapSplit = false := by
  refine Gang.settle_keeps (P := fun k => k.trapSplit = g.trapSplit ∨ k.trapSplit = false) (fun k p h => ?_) (fun k sp h => ?_)
    _ _ (.inl rfl)
  · unfold Gang.setPath
    split <;> exact h
  · unfold Gang.rejoin
    extract_lets away
    split
    · exact h
    · split
      · exact .inr rfl
      · exact h

theorem State.trapSplit_leave (s : State) (h : Header) (pc : DWord) (b : Bool) :
    (s.leave h pc b).gang.trapSplit = s.gang.trapSplit ∨ (s.leave h pc b).gang.trapSplit = false := by
  have hkeep : ((s.gang.modPath fun p => p.leaves pc).hint h b s.clock).trapSplit = s.gang.trapSplit := by
    unfold Gang.hint Gang.stepStop Gang.modPath Gang.setPath
    split <;> split <;> rfl
  rw [State.leave_gang, ← hkeep]
  exact Gang.trapSplit_settled ..

/-- A state that differs from `s` in neither memory nor the halt line goes on at `pc` as an instruction that is over. -/
theorem wentOn_leave {s u : State} (x : Header) (pc : DWord) (b : Bool) (hc : u.clock = s.clock) (hu : u.cur = s.cur)
    (hh : u.halt = s.halt) (hf : u.faults = s.faults) (hm : u.mem = s.mem) (hs : u.stand = s.stand) :
    wentOn s (u.leave x pc b) pc := by
  refine ⟨?_, ?_, ?_, ?_, ?_, fun hstack hsplit => State.leave_pc (State.flat_of_stand hs ⟨hstack, hsplit⟩) x pc b⟩
  · rw [State.leave_clock, hc]
  · rw [State.leave_cur, hu]
  · rw [State.leave_halt, hh]
  · rw [State.leave_faults, hf]
  · rw [State.leave_mem, hm]

theorem isGangOrAll {c : WordClass} {m k : Mask} (h : c = .gang ∨ m = k) : (c == .gang || decide (m = k)) = true := by
  rcases h with rfl | rfl <;> simp

/-- A branch that no lane of the path declines transfers control (R303). -/
theorem branchTo_all {s : State} (h : Header) {c : WordClass} {m : Mask} (target : DWord) (link : Gang → Gang)
    (hall : c = .gang ∨ m = s.xm) : branchTo s h c m target link = .next ((s.modGang link).leave h target true) :=
  if_pos (isGangOrAll hall)

/-- The lanes with which a word with a p guard issues (R14). -/
theorem guardLanes_of_acts {g : Gang} {h : Header} {m : Mask} (hc : WordClass.ofGuard h = .lane)
    (hm : acts g h (WordClass.ofGuard h) = .yes m) : guardLanes g h = m := by
  have hkind : h.kind = false := by
    unfold WordClass.ofGuard at hc
    cases hk : h.kind
    · rfl
    · simp [hk] at hc
  rw [hc] at hm
  unfold acts at hm
  simp only [hkind, Bool.false_eq_true, if_false] at hm
  split at hm
  · cases hm
  · split at hm
    · cases hm
    · exact Acts.yes.inj hm

theorem joinReady_of_all {s : State} {h : Header} {m : Mask} (hm : acts s.gang h (WordClass.ofGuard h) = .yes m)
    (hall : WordClass.ofGuard h = .gang ∨ m = s.xm) : s.gang.joinReady h (WordClass.ofGuard h) = true := by
  unfold Gang.joinReady
  cases hc : WordClass.ofGuard h with
  | gang => rfl
  | lane =>
    have hxm : guardLanes s.gang h = s.gang.xm := (guardLanes_of_acts hc hm).trans (hall.resolve_left (by rw [hc]; nofun))
    simp [hxm]

/-- BRX and RET (R303). -/
theorem branchReg_all {x : RRR} {s : State} {m : Mask}
    (hi : s.issues x.hdr (WordClass.ofGuard x.hdr) (rrrPlain x false false && isS x.a && x.hdr.d == .absent) [] (srcA x) m)
    (hall : WordClass.ofGuard x.hdr = .gang ∨ m = s.xm) (halign : (readGang s 0x1D 0 x.a).extractLsb' 0 2 = 0) :
    branchReg x s = .next ((s.modGang id).leave x.hdr (readGang s 0x1D 0 x.a) true) := by
  obtain ⟨hacts, hrsv, hlegal, hdst, hsrc⟩ := hi
  have hi' : s.issues x.hdr (WordClass.ofGuard x.hdr) (rrrPlain x false false && isS x.a && x.hdr.d == .absent
      && s.gang.joinReady x.hdr (WordClass.ofGuard x.hdr)) [] (srcA x) m :=
    ⟨hacts, hrsv, by rw [hlegal, joinReady_of_all hacts hall]; rfl, hdst, hsrc⟩
  have hstay : s.strandedBranch (WordClass.ofGuard x.hdr) m (readGang s 0x1D 0 x.a) = false := by
    rw [State.strandedBranch, isGangOrAll hall]; rfl
  refine (issue_of_issues _ hi').trans ?_
  simp only [hstay, Bool.false_eq_true, if_false, halign, ne_eq, not_true_eq_false]
  exact branchTo_all x.hdr _ id hall

theorem execCall_all {x : BFmt} {s : State} {m : Mask} {i : BitVec 6} (hd : x.hdr.d = .s i)
    (hi : s.issues x.hdr (WordClass.ofGuard x.hdr) (bFieldsOk x) [(x.hdr.d, false)] (fun _ => []) m)
    (hall : WordClass.ofGuard x.hdr = .gang ∨ m = s.xm) :
    exec (.call x) s = .next ((s.modGang fun g => g.setS i (s.pc + 12)).leave x.hdr (offTarget s.pc x.off) true) := by
  obtain ⟨hacts, hrsv, hlegal, hdst, hsrc⟩ := hi
  change execCall x s = _
  unfold execCall
  simp only [hd]
  rw [issue_of_issues (m := m) _ ⟨hacts, hrsv, by simp [hlegal], by rwa [hd] at hdst, hsrc⟩]
  exact branchTo_all x.hdr _ _ hall

end Sys2Proof.Machine

open Sys2Proof Sys2Proof.Machine

/-- Settles O16: each form issues, and no lane of the path declines the transfer. -/
theorem uniformBranch : Obligations.UniformBranch := by
  refine ⟨fun x s m hi hall => ?bra, fun x s m i hd hi hall => ?call, fun x s m hi hall => ?reg⟩
  case bra =>
    refine ⟨_, (issue_of_issues _ hi).trans (branchTo_all x.hdr _ id hall), wentOn_leave x.hdr _ true rfl rfl rfl rfl rfl ?_, ?_⟩
    · exact State.stand_modGang rfl rfl
    · exact (Prod.mk.inj (State.hints_leave ..)).1
  case call =>
    refine ⟨_, execCall_all hd hi hall, wentOn_leave x.hdr _ true rfl rfl rfl rfl rfl ?_, ?_⟩
    · exact State.stand_modGang rfl rfl
    · have hs := congrArg (fun g : Gang => g.sReg i)
        ((s.modGang fun g => g.setS i (s.pc + 12)).offIssue_leave x.hdr (offTarget s.pc x.off) true)
      refine Eq.trans hs ?_
      rw [State.modGang_gang]
      exact Vector.getElem_set_self ..
  case reg =>
    intro target halign
    have hwent : wentOn s ((s.modGang id).leave x.hdr target true) target :=
      wentOn_leave x.hdr _ true rfl rfl rfl rfl rfl (State.stand_modGang rfl rfl)
    exact ⟨⟨_, branchReg_all hi hall halign, hwent⟩, ⟨_, branchReg_all hi hall halign, hwent⟩⟩
end

section
namespace Sys2Proof.Machine
open Sys2Proof

/-! JOIN, NOP, YIELD and DISPATCH (R304, R306, R308). -/

/-- A record whose label the path reaches goes (R98). -/
theorem Gang.join_settled_flat {g : Gang} (hs : g.path.stack = []) (hp : g.split = none) :
    (g.settled false).path.join = if g.path.join = some g.path.pc then none else g.path.join := by
  have hfuel : 2 * g.path.stack.length + 3 = 2 + 1 := by rw [hs]; rfl
  have hstack : (if g.path.join = some g.path.pc then { g.path with join := none } else g.path).stack = [] := by
    split <;> exact hs
  rw [Gang.settled, hfuel, Gang.settle]
  simp only [hstack, hp, Gang.path_setPath]
  split <;> rfl

theorem State.join_leave {s : State} (hf : s.flat) (h : Header) (pc : DWord) (b : Bool) :
    (s.leave h pc b).gang.path.join = if s.gang.path.join = some pc then none else s.gang.path.join := by
  obtain ⟨hs, hp⟩ := hf
  rw [State.leave_gang, Gang.join_settled_flat (by simpa [Gang.modPath, Path.leaves] using hs)
    (by simpa [Gang.modPath] using hp)]
  simp [Gang.modPath, Path.leaves]

theorem Carrel.eq_of_uncounted {c k : Carrel} (h : c.uncounted = k.uncounted) : c = { k with pmcnt := c.pmcnt } :=
  (congrArg (fun x : Carrel => { x with pmcnt := c.pmcnt }) h :)

/-- Leaving a word changes the gang and counters alone. -/
theorem State.leave_rest (s : State) (h : Header) (pc : DWord) (b : Bool) :
    s.leave h pc b = { s with
      clock := (s.leave h pc b).clock, asleep := (s.leave h pc b).asleep, halt := (s.leave h pc b).halt,
      faults := (s.leave h pc b).faults,
      ctx := { s.ctx with gangs := (s.leave h pc b).ctx.gangs, carrels := (s.leave h pc b).ctx.carrels } } := by
  unfold State.leave State.issuedOne State.count
  split
  · split <;> rfl
  · rfl

theorem Gang.eq_of_offIssue {g k : Gang} (h : g.offIssue = k.offIssue) : g = { k with
    p0 := g.p0, p1 := g.p1, younger := g.younger, split := g.split, focus := g.focus, run := g.run,
    ceded := g.ceded, cededAt := g.cededAt, stopped := g.stopped, trapSplit := g.trapSplit, report := g.report } :=
  (congrArg (fun x : Gang => { x with
    p0 := g.p0, p1 := g.p1, younger := g.younger, split := g.split, focus := g.focus, run := g.run,
    ceded := g.ceded, cededAt := g.cededAt, stopped := g.stopped, trapSplit := g.trapSplit, report := g.report }) h :)

/-- A word that only goes on changes no register. -/
theorem registersOnly_advance (s : State) (h : Header) : registersOnly s (s.advance h) .absent false none [] := by
  have hoff := s.offIssue_advance h
  refine ⟨s.leave_rest .., fun n hn => s.leave_gangOf _ _ _ n hn, fun c => Carrel.eq_of_uncounted (s.uncounted_advance h c),
    ?gang, fun i _ _ => ?w, fun i _ => ?s, fun i _ => ?h, fun i _ => ?p, fun i _ => ?k, fun i _ => ?q, .inl ?trap⟩
  case gang =>
    exact (congrArg (fun x : Gang => { x with
      p0 := (s.advance h).gang.p0, p1 := (s.advance h).gang.p1, younger := (s.advance h).gang.younger,
      split := (s.advance h).gang.split, focus := (s.advance h).gang.focus, run := (s.advance h).gang.run,
      ceded := (s.advance h).gang.ceded, cededAt := (s.advance h).gang.cededAt, stopped := (s.advance h).gang.stopped,
      w := (s.advance h).gang.w, we := (s.advance h).gang.we, wo := (s.advance h).gang.wo, s := (s.advance h).gang.s,
      p := (s.advance h).gang.p, k := (s.advance h).gang.k, h := (s.advance h).gang.h, q := (s.advance h).gang.q,
      lrand := (s.advance h).gang.lrand, trapc := (s.advance h).gang.trapc, trappc := (s.advance h).gang.trappc,
      trapSplit := (s.advance h).gang.trapSplit, report := (s.advance h).gang.report }) hoff :)
  case w => exact ⟨(congrArg (fun g : Gang => g.wReg i) hoff :), (congrArg (fun g : Gang => g.wEmpty i) hoff :)⟩
  case s => exact (congrArg (fun g : Gang => g.sReg i) hoff :)
  case h => exact (congrArg (fun g : Gang => g.hReg i) hoff :)
  case p => exact (congrArg (fun g : Gang => g.pReg i) hoff :)
  case k => exact (congrArg (fun g : Gang => g.kReg i) hoff :)
  case q => exact (congrArg (fun g : Gang => g.q[i.toNat]) hoff :)
  case trap => exact ⟨(congrArg Gang.trapc hoff :), (congrArg Gang.trappc hoff :), s.trapSplit_leave ..⟩

theorem exec_nop {x : RRR} {s : State} {m : Mask}
    (hi : s.issuesPlain x.hdr .gang (rrrPlain x false false && x.a == .absent && x.hdr.d == .absent) m) :
    exec (.nop x) s = .next (s.advance x.hdr) := issue_of_issues _ hi

theorem exec_yield {x : RRR} {s : State} {m : Mask}
    (hi : s.issuesPlain x.hdr .gang (rrrPlain x false false && x.a == .absent && x.hdr.d == .absent) m) :
    exec (.yield x) s = .next (s.advance { x.hdr with cede := true }) := issue_of_issues _ hi

/-- YIELD is a NOP whose cede bit is set (R308). -/
theorem yield_eq_nop {x : RRR} {s : State} {m : Mask}
    (hi : s.issuesPlain x.hdr .gang (rrrPlain x false false && x.a == .absent && x.hdr.d == .absent) m) :
    exec (.yield x) s = exec (.nop { x with hdr := { x.hdr with cede := true } }) s := by
  rw [exec_yield hi]
  obtain ⟨hacts, hrsv, hlegal, -, -⟩ := hi
  have hacts' : acts s.gang { x.hdr with cede := true } .gang = .yes m := hacts
  rw [exec_nop (m := m)]
  refine ⟨hacts', hrsv, ?_, nofun, nofun⟩
  simpa only [rrrPlain] using hlegal

/-- The buckets of a table of n at off in the constant section (R50). -/
def bucketsAt (sec : List Byte) (off n : Nat) : List Bucket :=
  (List.range n).map fun i => bucketOf ((sec.drop (off + 40 * i)).take 40)

/-- DISPATCH with the bucket that it finds (R306). -/
def State.dispatchTo (s : State) (x : BFmt) : Option Bucket → State
  | none => s.advance x.hdr
  | some b => (s.modGang fun g => { g with maskm := g.shape.getD b.m 0, maskn := g.shape.getD b.n 0 }).leave
      x.hdr (offTarget s.pc b.entry) true

theorem exec_dispatch {x : BFmt} {s : State} {m : Mask}
    (hi : s.issuesPlain x.hdr .gang (x.a == .absent && x.hdr.d == .absent && x.mod.extractLsb' 5 17 == 0
      && 1 ≤ (x.mod.extractLsb' 0 5).toNat && (x.mod.extractLsb' 0 5).toNat ≤ 16 && !s.gang.isShadow) m)
    (halign : x.off.toNat % 8 = 0)
    (hroom : x.off.toNat + 40 * (x.mod.extractLsb' 0 5).toNat ≤ (s.consts s.gang.code).length)
    (hok : ∀ b ∈ bucketsAt (s.consts s.gang.code) x.off.toNat (x.mod.extractLsb' 0 5).toNat, b.ok = true) :
    exec (.dispatch x) s = .next (s.dispatchTo x
      ((bucketsAt (s.consts s.gang.code) x.off.toNat (x.mod.extractLsb' 0 5).toNat).find? fun b => b.holds s.gang)) := by
  have hinside : ((List.range (x.mod.extractLsb' 0 5).toNat).filter fun i =>
      decide (x.off.toNat + 40 * (i + 1) ≤ (s.consts s.gang.code).length)) = List.range (x.mod.extractLsb' 0 5).toNat := by
    rw [List.filter_eq_self]
    intro i hlt
    have := List.mem_range.1 hlt
    rw [decide_eq_true_eq]
    omega
  have hlegal : ((bucketsAt (s.consts s.gang.code) x.off.toNat (x.mod.extractLsb' 0 5).toNat).any fun b => !b.ok) = false := by
    rw [List.any_eq_false]
    intro b hb
    simp [hok b hb]
  refine (issue_of_issues _ hi).trans ?_
  simp only [hinside]
  rw [bucketsAt] at hlegal ⊢
  rw [hlegal, if_neg Bool.false_ne_true, if_neg (not_not.2 halign), if_neg (Nat.not_lt.2 hroom)]
  cases List.find? _ _ <;> rfl

theorem find?_first {α : Type} {p : α → Bool} {bs : List α} {k : Nat} {b : α} (hk : bs[k]? = some b) (hb : p b = true)
    (hbefore : ∀ j < k, ∀ c, bs[j]? = some c → p c = false) : bs.find? p = some b := by
  obtain ⟨hlt, hget⟩ := List.getElem?_eq_some_iff.1 hk
  refine List.find?_eq_some_iff_getElem.2 ⟨hb, k, hlt, hget, fun j hj => ?_⟩
  rw [hbefore j hj _ (List.getElem?_eq_getElem (hj.trans hlt))]
  rfl

end Sys2Proof.Machine

open Sys2Proof Sys2Proof.Machine

/-- Settles O18: each word issues and goes on, or takes its bucket. -/
theorem plainControl : Obligations.PlainControl := by
  refine ⟨fun x s m hi hf => ?join, fun x s m hi => ⟨?nop, ?yield, yield_eq_nop hi⟩, fun x s m => ?dispatch⟩
  case join =>
    intro label
    have hpath : (s.modPath fun p => { p with join := some (offTarget p.pc x.off) }).gang.path =
        { s.gang.path with join := some label } := by
      rw [State.modPath, State.modGang_gang, Gang.modPath, Gang.path_setPath]; rfl
    have hsplit : (s.modPath fun p => { p with join := some (offTarget p.pc x.off) }).gang.split = s.gang.split := by
      rw [State.modPath, State.modGang_gang, Gang.modPath, Gang.split_setPath]
    have hflat : (s.modPath fun p => { p with join := some (offTarget p.pc x.off) }).flat := by
      rw [State.flat, hpath, hsplit]; exact hf
    have hpc : (s.modPath fun p => { p with join := some (offTarget p.pc x.off) }).pc = s.pc := by
      rw [State.pc, hpath]; rfl
    refine ⟨_, issue_of_issues _ hi, ⟨?_, ?_, ?_, ?_, ?_, fun _ _ => ?_⟩, ?_⟩
    · rw [State.advance, State.leave_clock]; rfl
    · rw [State.advance, State.leave_cur]; rfl
    · rw [State.advance, State.leave_halt]; rfl
    · rw [State.advance, State.leave_faults]; rfl
    · rw [State.advance, State.leave_mem]; rfl
    · rw [State.advance, State.leave_pc hflat, hpc]
    · rw [State.advance, State.join_leave hflat, hpath, hpc]
      simp only [Option.some.injEq]
  case nop =>
    exact ⟨_, issue_of_issues _ hi, wentOn_advance x.hdr rfl rfl rfl rfl rfl rfl, (Prod.mk.inj (State.hints_leave ..)).2,
      registersOnly_advance s x.hdr, State.advance_lrand ..⟩
  case yield =>
    exact ⟨_, issue_of_issues _ hi, wentOn_advance _ rfl rfl rfl rfl rfl rfl, (Prod.mk.inj (State.hints_leave ..)).2⟩
  case dispatch =>
    intro n hi off sec bs halign hroom hok
    have hexec := exec_dispatch hi halign hroom hok
    refine ⟨fun hnone => ?none, fun k hk hbefore b hb hholds => ?some⟩
    case none =>
      have hfind : (bucketsAt sec off n).find? (fun b => b.holds s.gang) = none :=
        List.find?_eq_none.2 fun b hb => by rw [hnone b hb]; exact Bool.false_ne_true
      exact ⟨s.dispatchTo x none, hexec.trans (by rw [hfind]),
        wentOn_advance x.hdr rfl rfl rfl rfl rfl rfl⟩
    case some =>
      have hfind : (bucketsAt sec off n).find? (fun b => b.holds s.gang) = some b := find?_first hb hholds hbefore
      have hoff := (s.modGang fun g => { g with maskm := g.shape.getD b.m 0, maskn := g.shape.getD b.n 0 }).offIssue_leave
        x.hdr (offTarget s.pc b.entry) true
      rw [State.modGang_gang] at hoff
      exact ⟨s.dispatchTo x (some b), hexec.trans (by rw [hfind]),
        wentOn_leave x.hdr _ true rfl rfl rfl rfl rfl (State.stand_modGang rfl rfl),
        (congrArg Gang.maskm hoff :), (congrArg Gang.maskn hoff :)⟩
end

section
namespace Sys2Proof.Machine
open Sys2Proof

/-! TRAP and TRET (R142, R143, R375). -/

theorem Gang.atHandler_xm (g : Gang) (cause : BitVec 8) (detail : BitVec 16) (ls : Mask) (ret : DWord) :
    (g.atHandler cause detail ls ret).path.xm = g.path.xm := by
  rw [Gang.atHandler, Gang.modPath, Gang.path_setPath]
  unfold Gang.stepStop
  split <;> rfl

/-- A trap keeps the path's lanes, where no region is open. -/
theorem State.trapped_xm {s : State} (hf : s.flat) (cause : BitVec 8) (detail : BitVec 16) (ls : Mask) (ret : DWord) :
    (s.trapped cause detail ls ret).xm = s.xm := by
  obtain ⟨-, -, hs, hp⟩ := s.gang.atHandler_spec cause detail ls ret
  rw [State.xm, Gang.xm, State.trapped_gang, (Gang.settled_flat _ (hs.trans hf.1) (hp.trans hf.2)).2.1, Gang.atHandler_xm]
  rfl

/-- What has issued is over where it would be over had it not been counted. -/
theorem wentOn_of_issuedOne {s t : State} {pc : DWord} (h : wentOn s.issuedOne t pc) : wentOn s t pc := by
  simpa only [wentOn, State.issuedOne_clock, State.issuedOne_cur, State.issuedOne_halt, State.issuedOne_faults,
    State.issuedOne_mem, State.issuedOne_gang] using h

theorem State.flat_issuedOne {s : State} (hf : s.flat) : s.issuedOne.flat := by
  rw [State.flat, State.issuedOne_gang]; exact hf

/-- The handler's bit of TRAPC, cleared (R142). -/
theorem trapc_cleared (v : DWord) (i : Nat) : (v &&& ~~~0x100).getLsbD i = (v.getLsbD i && decide (i ≠ 8)) := by
  have hbit : (0x100 : DWord).getLsbD i = decide (i = 8) := by
    rw [show (0x100 : DWord) = BitVec.twoPow 64 8 by decide, BitVec.getLsbD_twoPow]
    simp [eq_comm]
  rw [BitVec.getLsbD_and, BitVec.getLsbD_not, hbit]
  by_cases hi : i < 64
  · simp [hi]
  · simp [BitVec.getLsbD_of_ge v i (by omega)]

theorem execTrap_delivered {x : RI} {s : State} {m : Mask}
    (hi : s.issues x.hdr .gang (x.mod == 0 && x.a == .absent && !x.fe && x.hdr.d == .absent && x.imm.extractLsb' 16 16 == 0
      && !s.gang.isShadow) [] (fun _ => []) m) (htv : s.gang.trapv ≠ 0) (hin : s.gang.trapc.getLsbD 8 = false) :
    exec (.trap x) s = .next (s.issuedOne.trapped Trap.trap (x.imm.extractLsb' 0 16) m (s.pc + 12)) := by
  have hshadow : s.gang.isShadow = false := by
    obtain ⟨-, -, hlegal, -⟩ := hi
    simpa using (Bool.and_eq_true_iff.1 hlegal).2
  have hhandler : s.issuedOne.gang.noHandler = false := by
    rw [State.issuedOne_gang, Gang.noHandler, beq_false_of_ne htv, Gang.inHandler, hin, hshadow]; rfl
  refine (issue_of_issues _ hi).trans ?_
  rw [beq_false_of_ne htv, Gang.inHandler, hin, Bool.or_false, if_neg Bool.false_ne_true, takeTrap, hhandler,
    if_neg Bool.false_ne_true]

theorem execTrap_illegal {x : RI} {s : State} {m : Mask}
    (hi : s.issues x.hdr .gang (x.mod == 0 && x.a == .absent && !x.fe && x.hdr.d == .absent && x.imm.extractLsb' 16 16 == 0
      && !s.gang.isShadow) [] (fun _ => []) m) (h : s.gang.trapv = 0 ∨ s.gang.trapc.getLsbD 8 = true) :
    exec (.trap x) s = illegal s m := by
  refine (issue_of_issues _ hi).trans (if_pos ?_)
  rw [Gang.inHandler, Bool.or_eq_true, beq_iff_eq]
  exact h

/-- A gang-class word under a p guard that is not p7 (R14, R95). -/
theorem acts_gang_of_pGuard {g : Gang} {h : Header} (hidx : h.idx ≠ 7) (hkind : h.kind = false) :
    acts g h .gang = if guardLanes g h = 0 then .no else .illegal (guardLanes g h) := by
  simp [acts, show ¬ h.idx = 7#3 from hidx, hkind]

/-- A never guard or a false k guard lets nothing act (R95). -/
theorem acts_gang_of_idles {g : Gang} {h : Header} (hidle : (h.idx = 7 ∧ h.neg = true) ∨ (h.kind = true ∧ g.kReg h.idx = h.neg)) :
    acts g h .gang = .no := by
  have hnever : h.idx = 7 → h.neg = true := fun h7 => hidle.elim And.right fun hk => by
    rw [← hk.2, h7]; rfl
  by_cases h7 : h.idx = 7
  · simp [acts, h7, hnever h7]
  · obtain ⟨hkind, hk⟩ := hidle.resolve_left fun h => h7 h.1
    simp [acts, show ¬ h.idx = 7#3 from h7, hkind, guardTrue, hk]

end Sys2Proof.Machine

open Sys2Proof Sys2Proof.Machine

/-- Settles O45: TRAP is delivered or raises ILLEGAL-OP, TRET leaves the handler, and a guard decides before both. -/
theorem userTraps : Obligations.UserTraps := by
  refine ⟨fun x s m hi => ⟨fun htv hin => ?trap, fun hno => ?illegal⟩, fun x s m hi => ⟨fun hin => ?tret, fun hin => ?stray⟩,
    fun x s hidx hkind => ?guard, fun x s hidle => ?idle⟩
  case trap =>
    have hwent := wentOn_trapped s.issuedOne Trap.trap (x.imm.extractLsb' 0 16) m (s.pc + 12)
    refine ⟨_, execTrap_delivered hi htv hin, ?_, State.trapped_trappc .., ?_, fun hf => ?_⟩
    · rw [State.issuedOne_gang] at hwent
      exact wentOn_of_issuedOne hwent
    · rw [State.trapped_trapc, State.issuedOne_gang]; rfl
    · rw [State.trapped_xm (State.flat_issuedOne hf), State.xm, State.issuedOne_gang]; rfl
  case illegal => exact ⟨_, execTrap_illegal hi hno, rfl⟩
  case tret =>
    have hexec : exec (.tret x) s = .next ((s.modGang fun g =>
        { g with trapc := g.trapc &&& ~~~0x100, trapSplit := false }).leave x.hdr s.gang.trappc true) :=
      (issue_of_issues _ hi).trans (if_pos hin)
    have hoff := (s.modGang fun g => { g with trapc := g.trapc &&& ~~~0x100, trapSplit := false }).offIssue_leave
      x.hdr s.gang.trappc true
    rw [State.modGang_gang] at hoff
    refine ⟨_, hexec, wentOn_leave x.hdr _ true rfl rfl rfl rfl rfl (State.stand_modGang rfl rfl), fun i => ?_⟩
    rw [← trapc_cleared]
    exact (congrArg (fun g : Gang => g.trapc.getLsbD i) hoff :)
  case stray =>
    have hexec : exec (.tret x) s = illegal s s.xm :=
      (issue_of_issues _ hi).trans (if_neg (by rw [Gang.inHandler, hin]; exact Bool.false_ne_true))
    exact ⟨_, hexec, rfl⟩
  case guard =>
    intro p m
    have hacts : acts s.gang x.hdr .gang = if m = 0 then .no else .illegal m := acts_gang_of_pGuard hidx hkind
    refine ⟨fun hm => ?_, fun hm => ?_⟩
    · rw [if_neg hm] at hacts
      exact ⟨_, issue_of_illegal hacts, rfl⟩
    · rw [if_pos hm] at hacts
      exact ⟨_, issue_of_no _ _ _ _ hacts, wentOn_advance x.hdr rfl rfl rfl rfl rfl rfl⟩
  case idle =>
    exact ⟨_, issue_of_no _ _ _ _ (acts_gang_of_idles hidle), wentOn_advance x.hdr rfl rfl rfl rfl rfl rfl⟩
end

section
namespace Sys2Proof.Machine
open Sys2Proof

/-! A task of a packed gang that issues alone (R33, R302). -/

/-- What a gang has once for all of its tasks. -/
def Gang.offTask (g : Gang) : Gang := { g.withPart (Gang.start 0 0).part with front := 0, pack := [] }

theorem Gang.offTask_task (g : Gang) (l : Nat) : (g.task l).offTask = g.offTask := by
  unfold Gang.task
  split
  · rfl
  · split <;> rfl

theorem Gang.lanes_task (g : Gang) (l : Nat) : (g.task l).lanes = g.lanes := by
  have hshared := g.offTask_task l
  by_cases hp : g.packed = true
  · have hp' : (g.task l).packed = true := (congrArg Gang.packed hshared :).trans hp
    refine BitVec.eq_of_getLsbD_eq fun j _ => ?_
    exact (Gang.has_lanes hp' j).trans ((congrArg _ (congrArg Option.isSome (g.hashAt_task l j))).trans (Gang.has_lanes hp j).symm)
  · have hpacked : (g.task l).packed = g.packed := (congrArg Gang.packed hshared :)
    have hp' : ¬ (g.task l).packed = true := by rwa [hpacked]
    rw [Gang.lanes, Gang.lanes, if_neg hp, if_neg hp']
    exact (congrArg (fun k : Gang => Mask.first k.width) hshared :)

/-- The gang in which the task of lane l issues alone. -/
def Gang.narrowed (g : Gang) (l : Nat) : Gang := (g.task l).modPath fun p => { p with xm := Mask.lane l }

theorem State.narrow_gang (s : State) (l : Nat) : (s.narrow l).gang = s.gang.narrowed l := State.modGang_gang ..

theorem Gang.offIssue_narrowed (g : Gang) (l : Nat) : (g.narrowed l).offIssue = (g.task l).offIssue := Gang.offIssue_setPath ..

/-- What a gang has once for all of its tasks, without its paths and what hints set. -/
theorem Gang.offTask_narrowed (g : Gang) (l : Nat) : (g.narrowed l).offIssue.offTask = g.offIssue.offTask := by
  rw [Gang.offIssue_narrowed]
  exact (congrArg Gang.offIssue (g.offTask_task l) :)

theorem Gang.path_narrowed (g : Gang) (l : Nat) : (g.narrowed l).path = { g.path with xm := Mask.lane l } := by
  rw [Gang.narrowed, Gang.modPath, Gang.path_setPath, (Prod.mk.inj (g.bearing_task l)).1]

theorem Gang.split_narrowed (g : Gang) (l : Nat) : (g.narrowed l).split = g.split := by
  rw [Gang.narrowed, Gang.modPath, Gang.split_setPath, (Prod.mk.inj (Prod.mk.inj (g.bearing_task l)).2).1]

theorem Gang.lanes_narrowed (g : Gang) (l : Nat) : (g.narrowed l).lanes = g.lanes := by
  have hoff := congrArg Gang.lanes (g.offIssue_narrowed l)
  exact hoff.trans (g.lanes_task l)

/-- Under a k guard the gang's one truth decides for every task (R14). -/
theorem acts_gang_of_kind {g : Gang} {h : Header} (hkind : h.kind = true) :
    acts g h .gang = if g.idles h then .no else .yes g.xm := by
  by_cases h7 : h.idx = 7
  · cases hneg : h.neg
    · simp [acts, Gang.idles, guardTrue, Gang.kReg, h7, hneg]
    · simp [acts, Gang.idles, h7, hneg]
  · cases hg : guardTrue g h <;> simp [acts, Gang.idles, show ¬ h.idx = 7#3 from h7, hkind, hg]

theorem Gang.idles_narrowed (g : Gang) (l : Nat) (h : Header) : (g.narrowed l).idles h = g.idles h :=
  (congrArg (fun k : Gang => k.idles h) (g.offTask_narrowed l) :)

theorem Mask.lanes_lane {l : Nat} (hl : l < 32) : (Mask.lane l).lanes = [l] := by
  revert l; decide

theorem Mask.lowest_lane {l : Nat} (hl : l < 32) : (Mask.lane l).lowest = l := by
  rw [Mask.lowest, Mask.lanes_lane hl]; rfl

theorem Mask.lane_ne_zero {l : Nat} (hl : l < 32) : Mask.lane l ≠ 0 := by
  revert l; decide

/-- The lowest lane of a mask that has one is one of its lanes. -/
theorem Mask.getLsbD_lowest {m : Mask} (hm : m ≠ 0) : m.getLsbD m.lowest = true := by
  rw [← Mask.mem_lanes, Mask.lowest]
  cases hls : m.lanes with
  | cons l ls => exact List.mem_cons_self
  | nil =>
    refine absurd (BitVec.eq_of_getLsbD_eq fun l hl => ?_) hm
    by_contra hbit
    rw [show (0 : Mask).getLsbD l = false from BitVec.getLsbD_zero] at hbit
    have := Mask.mem_lanes.2 (Bool.eq_true_of_not_eq_false hbit)
    rw [hls] at this
    cases this

/-- With lanes still to act, the path stays at its word and notes the lane that has acted (R302). -/
theorem Gang.next_more {s : State} {g : Gang} (h : Header) {l : Nat}
    (hmore : s.gang.path.xm &&& g.lanes &&& ~~~(s.gang.path.acted ||| Mask.lane l) ≠ 0) :
    (g.next h s l).path.pc = s.gang.path.pc ∧ (g.next h s l).path.acted = s.gang.path.acted ||| Mask.lane l
      ∧ (g.next h s l).path.xm = s.gang.path.xm &&& g.lanes := by
  have hmasks : (({ g with
      p0 := s.gang.p0, p1 := s.gang.p1, younger := s.gang.younger, split := s.gang.split, stopped := s.gang.stopped,
      report := s.gang.report, run := s.gang.run, ceded := s.gang.ceded, cededAt := s.gang.cededAt } : Gang).mapMasks
        fun m => m &&& g.lanes).path.pc = s.gang.path.pc
      ∧ (({ g with
      p0 := s.gang.p0, p1 := s.gang.p1, younger := s.gang.younger, split := s.gang.split, stopped := s.gang.stopped,
      report := s.gang.report, run := s.gang.run, ceded := s.gang.ceded, cededAt := s.gang.cededAt } : Gang).mapMasks
        fun m => m &&& g.lanes).path.xm = s.gang.path.xm &&& g.lanes := by
    unfold Gang.mapMasks Gang.path
    dsimp only
    split
    · cases s.gang.p1 with
      | none => exact ⟨rfl, by simp [Path.start, Mask.first]⟩
      | some q => exact ⟨rfl, rfl⟩
    · exact ⟨rfl, rfl⟩
  unfold Gang.next
  extract_lets me p acted g1
  rw [if_pos (by simpa using hmore), Gang.modPath, Gang.path_setPath]
  exact ⟨hmasks.1, rfl, hmasks.2⟩

end Sys2Proof.Machine
end

section
namespace Sys2Proof.Machine
open Sys2Proof

/-! RETV (R317). -/

/-- The value that RETV leaves (R317). -/
def retvValue (s : State) (x : RRR) : DWord := if s.gang.xm = 0 then 0 else match x.a with
  | .imm v => v.signExtend 64
  | a => readLane s 0x1C 0 a s.gang.lane0

/-- The state in which the task's return value is set. -/
def State.returned (s : State) (v : DWord) : State :=
  (s.modFrameOf s.gang.frame fun f => { f with ret := v, hasRet := true }).modGang fun g => { g with ret := v }

/-- The fields that RETV accepts (R317). -/
def retvFields (g : Gang) (x : RRR) : Bool :=
  rrrPlain x false false && x.hdr.d == .absent && !g.isShadow && (match x.a with
    | .w i => decide (i.toNat < g.regs)
    | .s _ | .imm _ => true
    | _ => false)

theorem retvTask_issued {x : RRR} {s : State} {m : Mask} (hi : s.issues x.hdr .gang (retvFields s.gang x) []
    (fun _ => [⟨x.a, x.fe.getLsbD 2, 0, false, if s.gang.xm = 0 then 0 else Mask.lane s.gang.lane0⟩]) m) :
    retvTask x s = .next ((s.returned (retvValue s x)).advance x.hdr) := by
  unfold retvTask
  simp only
  rw [issue_of_issues (m := m) _ ?_]
  · unfold retvValue
    cases x.a <;> rfl
  · obtain ⟨hacts, hrsv, hlegal, hdst, hsrc⟩ := hi
    refine ⟨hacts, hrsv, ?_, hdst, hsrc⟩
    unfold retvFields at hlegal
    cases ha : x.a <;> rw [ha] at hlegal <;> exact hlegal

theorem State.frameOf_returned (s : State) (v : DWord) :
    (s.returned v).frameOf s.gang.frame = { s.frameOf s.gang.frame with ret := v, hasRet := true } :=
  (State.frameOf_setFrameOf ..).trans (if_pos rfl)

theorem State.returned_gang (s : State) (v : DWord) : (s.returned v).gang = { s.gang with ret := v } :=
  State.modGang_gang ..

theorem retvValue_eq (s : State) {x : RRR} (hlegal : retvFields s.gang x = true) :
    retvValue s x = if s.xm = 0 then 0 else match x.a with
      | .w i => ((s.gang.wReg i).at s.gang.lane0).setWidth 64
      | .s i => s.gang.sReg i
      | .imm v => v.signExtend 64
      | _ => 0 := by
  unfold retvFields at hlegal
  unfold retvValue
  cases ha : x.a with
  | w i => rfl
  | s i => rfl
  | imm v => rfl
  | _ => rw [ha, Bool.and_false] at hlegal; cases hlegal

theorem retv_completes {x : RRR} {s : State} {m : Mask} (h1 : s.oneTask) (hi : s.issues x.hdr .gang (retvFields s.gang x) []
    (fun _ => [⟨x.a, x.fe.getLsbD 2, 0, false, if s.xm = 0 then 0 else Mask.lane s.gang.lane0⟩]) m) :
    ∃ t, exec (.retv x) s = .next t ∧ wentOn s t (s.pc + 12) ∧ (t.frameOf s.gang.frame).hasRet = true
      ∧ (t.frameOf s.gang.frame).ret = retvValue s x ∧ t.gang.ret = retvValue s x := by
  have hexec : exec (.retv x) s = .next ((s.returned (retvValue s x)).advance x.hdr) :=
    (perTask_oneTask h1 ..).trans (retvTask_issued hi)
  have hoff := (s.returned (retvValue s x)).offIssue_advance x.hdr
  rw [State.returned_gang] at hoff
  refine ⟨_, hexec, wentOn_advance x.hdr rfl rfl rfl rfl rfl (State.stand_modGang rfl rfl), ?_, ?_, (congrArg Gang.ret hoff :)⟩
  · rw [State.advance, State.leave_frameOf, State.frameOf_returned]
  · rw [State.advance, State.leave_frameOf, State.frameOf_returned]

/-- The lowest lane that a packed gang's word has still to act in. -/
abbrev State.firstTodo (s : State) : Nat := (s.xm &&& s.gang.lanes).lowest

theorem State.firstTodo_lt {s : State} (htodo : s.xm &&& s.gang.lanes ≠ 0) : s.firstTodo < 32 :=
  BitVec.lt_of_getLsbD (Mask.getLsbD_lowest htodo)

section
variable {x : RRR} {s : State} {m : Mask} {i : BitVec 8} (hp : s.gang.packed = true) (ha : x.a = .w i)
  (hacted : s.gang.path.acted = 0) (htodo : s.xm &&& s.gang.lanes ≠ 0)
  (hi : s.issues x.hdr .gang (rrrPlain x false false && x.hdr.d == .absent && !s.gang.isShadow
    && decide (i.toNat < s.gang.regs)) [] (fun _ => [⟨x.a, x.fe.getLsbD 2, 0, false, Mask.lane s.firstTodo⟩]) m)
  (hkind : x.hdr.kind = true)
include hp ha hacted htodo hi hkind

omit hp hacted in
/-- The first task's RETV issues in the gang that is narrowed to it. -/
theorem retvTask_narrowed : retvTask x (s.narrow s.firstTodo) =
    .next (((s.narrow s.firstTodo).returned (((s.gang.wReg i).at s.firstTodo).setWidth 64)).advance x.hdr) := by
  have hl := State.firstTodo_lt htodo
  have hgang := s.narrow_gang s.firstTodo
  have hshared := s.gang.offTask_narrowed s.firstTodo
  have hxm : (s.narrow s.firstTodo).gang.xm = Mask.lane s.firstTodo := by
    rw [hgang, Gang.xm, Gang.path_narrowed]
  have hlane0 : (s.narrow s.firstTodo).gang.lane0 = s.firstTodo := by rw [Gang.lane0, hxm, Mask.lowest_lane hl]
  have hvalue : retvValue (s.narrow s.firstTodo) x = ((s.gang.wReg i).at s.firstTodo).setWidth 64 := by
    rw [retvValue, hxm, if_neg (Mask.lane_ne_zero hl), ha, hlane0]
    refine (congrArg (fun g : Gang => ((g.wReg i).at s.firstTodo).setWidth 64) hgang).trans ?_
    exact (congrArg (fun g : Gang => ((g.wReg i).at s.firstTodo).setWidth 64) hshared :)
  obtain ⟨hacts, hrsv, hlegal, -, hsrc⟩ := hi
  rw [← hvalue]
  refine retvTask_issued (m := Mask.lane s.firstTodo) ⟨?_, hrsv, ?_, nofun, ?_⟩
  · rw [acts_gang_of_kind hkind] at hacts ⊢
    rw [hgang, Gang.idles_narrowed, ← hgang, hxm]
    split at hacts
    · cases hacts
    · next hidle => rw [if_neg hidle]
  · have hregs : (s.gang.narrowed s.firstTodo).regs = s.gang.regs := (congrArg Gang.regs hshared :)
    have hshadow : (s.gang.narrowed s.firstTodo).isShadow = s.gang.isShadow := (congrArg Gang.isShadow hshared :)
    rw [retvFields, ha, hgang, hregs, hshadow]
    exact hlegal
  · rw [hxm, if_neg (Mask.lane_ne_zero hl), hlane0, hgang]
    rw [List.forall_mem_singleton] at hsrc ⊢
    rw [ha] at hsrc ⊢
    exact (congrArg (fun g : Gang => srcEmpty g false (Mask.lane s.firstTodo) (.w i)) hshared :).trans hsrc

theorem execRetv_packed : exec (.retv x) s = .next (s.widen x.hdr s.firstTodo
    (((s.narrow s.firstTodo).returned (((s.gang.wReg i).at s.firstTodo).setWidth 64)).advance x.hdr)) := by
  have hidle : ¬ s.gang.idles x.hdr = true := by
    obtain ⟨hacts, -⟩ := hi
    rw [acts_gang_of_kind hkind] at hacts
    intro h
    rw [if_pos h] at hacts
    cases hacts
  have hall : s.xm &&& s.gang.lanes &&& ~~~s.gang.path.acted = s.xm &&& s.gang.lanes := by
    rw [hacted]
    exact BitVec.and_allOnes
  change perTask x.hdr false (retvTask x) s = _
  unfold perTask
  simp only [hall, hp, Bool.not_true, Bool.false_eq_true, if_false, hidle, htodo,
    retvTask_narrowed ha htodo hi hkind]

end

/-- A task that has gone on behind its word, in a packed gang with lanes still to act: the gang stays at the word. -/
theorem State.widen_more {s t : State} {h : Header} {l : Nat} (hhas : Table.has t.ctx.gangs s.cur = true)
    (hlanes : t.gang.lanes = s.gang.lanes) (hl : s.gang.lanes.has l = true) (hpc : t.gang.path.pc ≠ s.pc)
    (hin : t.gang.inHandler = s.gang.inHandler) : (s.widen h l t).gang = t.gang.next h s l := by
  unfold State.widen
  rw [hhas]
  simp only [Bool.not_true, Bool.false_eq_true, if_false]
  rw [State.modGang_gang, hlanes, hl]
  simp only [Bool.not_true, Bool.false_eq_true, if_false]
  rw [if_neg hpc, hin, Bool.and_not_self, if_neg Bool.false_ne_true]

theorem State.frameOf_widen (s : State) (h : Header) (l : Nat) (t : State) (n : Nat) :
    (s.widen h l t).frameOf n = t.frameOf n := by
  unfold State.widen
  split <;> rfl

theorem pc_add_ne (pc : DWord) : pc + 12 ≠ pc := by bv_omega

theorem State.has_gang_advance (s : State) (h : Header) : Table.has (s.advance h).ctx.gangs s.cur = true := by
  unfold State.advance State.leave
  rw [State.tick_ctx_gangs, State.modGang_eq, State.setGangOf_ctx_gangs, Table.has_put, State.issuedOne_cur]
  simp

theorem retv_packed {x : RRR} {s : State} {m : Mask} {i : BitVec 8} (hp : s.gang.packed = true) (ha : x.a = .w i)
    (hacted : s.gang.path.acted = 0) (htodo : s.xm &&& s.gang.lanes ≠ 0)
    (hi : s.issues x.hdr .gang (rrrPlain x false false && x.hdr.d == .absent && !s.gang.isShadow
      && decide (i.toNat < s.gang.regs)) [] (fun _ => [⟨x.a, x.fe.getLsbD 2, 0, false, Mask.lane s.firstTodo⟩]) m)
    (hkind : x.hdr.kind = true) (hf : s.flat) :
    ∃ t, exec (.retv x) s = .next t
      ∧ (t.frameOf (s.gang.task s.firstTodo).frame).ret = ((s.gang.wReg i).at s.firstTodo).setWidth 64
      ∧ (s.xm &&& s.gang.lanes &&& ~~~Mask.lane s.firstTodo ≠ 0 → t.pc = s.pc
          ∧ t.gang.path.acted = Mask.lane s.firstTodo ∧ t.xm = s.xm &&& s.gang.lanes) := by
  have hl := Mask.getLsbD_lowest htodo
  rw [BitVec.getLsbD_and, Bool.and_eq_true] at hl
  have hgang := s.narrow_gang s.firstTodo
  generalize hv : ((s.gang.wReg i).at s.firstTodo).setWidth 64 = v
  have hexec := execRetv_packed hp ha hacted htodo hi hkind
  rw [hv] at hexec
  have hframe : (s.narrow s.firstTodo).gang.frame = (s.gang.task s.firstTodo).frame := by
    rw [hgang]; exact (congrArg Gang.frame (s.gang.offIssue_narrowed s.firstTodo) :)
  refine ⟨_, hexec, ?_, fun hmore => ?_⟩
  · rw [State.frameOf_widen, State.advance, State.leave_frameOf, ← hframe, State.frameOf_returned]
  · have hoff := ((s.narrow s.firstTodo).returned v).offIssue_advance x.hdr
    rw [State.returned_gang, hgang] at hoff
    have hpath : ((s.narrow s.firstTodo).returned v).gang.path = { s.gang.path with xm := Mask.lane s.firstTodo } := by
      rw [State.returned_gang, hgang]; exact s.gang.path_narrowed _
    have hsplit : ((s.narrow s.firstTodo).returned v).gang.split = s.gang.split := by
      rw [State.returned_gang, hgang]; exact s.gang.split_narrowed _
    have hflat : ((s.narrow s.firstTodo).returned v).flat := by
      rw [State.flat, hpath, hsplit]; exact hf
    have hpc : (((s.narrow s.firstTodo).returned v).advance x.hdr).gang.path.pc = s.pc + 12 := by
      refine (State.leave_pc hflat ..).trans ?_
      rw [State.pc, hpath]; rfl
    have hlanes : (((s.narrow s.firstTodo).returned v).advance x.hdr).gang.lanes = s.gang.lanes :=
      (congrArg Gang.lanes hoff :).trans (s.gang.lanes_narrowed _)
    have hin : (((s.narrow s.firstTodo).returned v).advance x.hdr).gang.inHandler = s.gang.inHandler :=
      (congrArg Gang.inHandler hoff :).trans (congrArg Gang.inHandler (s.gang.offTask_narrowed s.firstTodo) :)
    have hor : (0 : Mask) ||| Mask.lane s.firstTodo = Mask.lane s.firstTodo := BitVec.zero_or
    have hhas : Table.has (((s.narrow s.firstTodo).returned v).advance x.hdr).ctx.gangs s.cur = true :=
      State.has_gang_advance ..
    have hw := State.widen_more (s := s) (h := x.hdr) hhas hlanes hl.2 (by rw [hpc]; exact pc_add_ne _) hin
    have hnext := Gang.next_more (s := s) (g := (((s.narrow s.firstTodo).returned v).advance x.hdr).gang) x.hdr
      (l := s.firstTodo) (by rw [hlanes, hacted, hor]; exact hmore)
    rw [State.pc, State.xm, Gang.xm, hw, hnext.1, hnext.2.1, hnext.2.2, hacted, hlanes]
    exact ⟨rfl, hor, rfl⟩

/-! TESTF and CANCEL of children (R315, R316). -/

theorem Gang.preds_writeDest (g : Gang) (m : Mask) (d : Operand) (w : Nat) (f : Nat → DWord) (v : DWord) :
    (g.writeDest m d w f v).preds = g.preds := by
  cases d with
  | w i => simp only [Gang.writeDest, Gang.writeLanes]; split <;> rfl
  | _ => rfl

theorem State.sReg_advance (s : State) (h : Header) (i : BitVec 6) : (s.advance h).gang.sReg i = s.gang.sReg i :=
  (congrArg (fun g : Gang => g.sReg i) (s.offIssue_advance h) :)

/-- The gang after TESTF has read a slot (R315). -/
def Gang.tested (g : Gang) (m : Mask) (x : RRR) (y : Slot) : Gang :=
  (g.writePred m x.pred (if y.complete then BitVec.allOnes 32 else 0)).writeDest m x.hdr.d 64 (fun _ => 0) (testfValue y)

theorem testf_completes {x : RRR} {s : State} {m : Mask} {r : BitVec 4} {key : Nat} {y : Slot} (ha : x.a = .h r)
    (h1 : s.oneTask)
    (hi : s.issues x.hdr .gang (x.rsv == 0 && x.mod.extractLsb' 0 11 == 0 && x.b == .absent && x.c == .absent
      && !x.fe.getLsbD 1 && !x.fe.getLsbD 0 && predIsK x.pred && !s.gang.isShadow
      && (x.hdr.d == .absent || isS x.hdr.d)) [(x.hdr.d, false)] (srcA x) m)
    (hy : s.named (s.gang.hReg r) = some (key, y)) :
    ∃ t, exec (.testf x) s = .next t ∧ wentOn s t (s.pc + 12)
      ∧ wrotePred s t m x.pred (fun _ => y.complete) y.complete
      ∧ ∀ i, x.hdr.d = .s i → t.gang.sReg i = testfValue y := by
  obtain ⟨hacts, hrsv, hlegal, hdst, hsrc⟩ := hi
  have hk : predIsK x.pred = true := by
    simp only [Bool.and_eq_true] at hlegal
    obtain ⟨⟨⟨_, hk⟩, _⟩, _⟩ := hlegal
    exact hk
  have hexec : exec (.testf x) s = .next ((s.modGang fun g => g.tested m x y).advance x.hdr) := by
    refine (perTask_oneTask h1 ..).trans ?_
    unfold testfTask
    simp only
    rw [issue_of_issues (m := m) _ ⟨hacts, hrsv, ?_, hdst, hsrc⟩]
    · rw [ha, readGang_h h1, hy]; rfl
    · rw [ha]
      simpa [feOk, and_assoc] using hlegal
  have hbearing : (s.gang.tested m x y).bearing = s.gang.bearing :=
    (congrArg Prod.fst (Gang.aside_writeDest ..)).trans (Gang.bearing_writePred ..)
  obtain ⟨hpath, hrest⟩ := Prod.mk.inj hbearing
  refine ⟨_, hexec, wentOn_advance x.hdr rfl rfl rfl rfl rfl (State.stand_modGang hpath (Prod.mk.inj hrest).1),
    wrotePred_of_preds (g := s.gang) (v := if y.complete then BitVec.allOnes 32 else 0) rfl ?_ (fun _ => ?_)
      (fun hk' => absurd hk hk'), fun i hd => ?_⟩
  · rw [State.preds_advance, State.modGang_gang, Gang.tested, Gang.preds_writeDest]
  · cases y.complete <;> rfl
  · rw [State.sReg_advance, State.modGang_gang, Gang.tested, hd]
    exact (Gang.sReg_writeS ..).trans BitVec.and_allOnes

/-- What a future's task child is: its frame, where it stands with the child's serial number (R35). -/
theorem State.childFrame?_eq {s : State} {k : Nat × Nat} {fr : Frame} (h : s.childFrame? k = some fr) :
    s.frameOf k.1 = fr := by
  obtain ⟨hseek, -⟩ := Option.filter_eq_some_iff.1 h
  rw [State.frameOf, Table.look_eq_seek, hseek]; rfl

theorem State.childFrame?_stands {s : State} {f serial : Nat} (hhas : Table.has s.ctx.frames f = true)
    (hserial : (s.frameOf f).serial = serial) : s.childFrame? (f, serial) = some (s.frameOf f) := by
  obtain ⟨fr, hfr⟩ := Option.isSome_iff_exists.1 hhas
  have hframe : s.frameOf f = fr := by rw [State.frameOf, Table.look_eq_seek, hfr]; rfl
  rw [hframe] at hserial ⊢
  exact Option.filter_eq_some_iff.2 ⟨hfr, by simpa using hserial⟩

theorem State.untraced_child {s : State} {k : Kid} (h : (s.frameOf k.frame).traced = false) :
    ((s.childFrame? (k.frame, k.serial)).map (·.traced)).getD false = false := by
  cases hc : s.childFrame? (k.frame, k.serial) with
  | none => rfl
  | some fr => rw [← State.childFrame?_eq hc]; exact h

/-- CANCEL of the children of a future that names no traced one (R316). -/
def State.cancelFuture (s : State) (key : Nat) (y : Slot) : State :=
  let r := s.cancelKids ((y.kids.filter fun k => !k.ended).map fun k => (k.frame, k.serial))
  if r.2 then r.1.modSlotOf key fun z => { z with cancelled := true } else r.1

/-- CANCEL by the kind of the future that its operand names (R316). -/
def State.cancelNamed (s : State) (h : Header) (m : Mask) (key : Nat) (y : Slot) : Result :=
  match y.kind.toNat with
  | 1 =>
    if y.kids.any fun k => ((s.childFrame? (k.frame, k.serial)).map (·.traced)).getD false then protect s m
    else .next ((s.cancelFuture key y).advance h)
  | 2 => .next ((s.cancelJob key).advance h)
  | 4 => .next ((s.cancelProp y.object.toNat key).advance h)
  | _ => protect s m

section
variable {x : RRR} {s : State} {m : Mask} {r : BitVec 4} {key : Nat} {y : Slot} (ha : x.a = .h r) (h1 : s.oneTask)
  (hi : s.issues x.hdr .gang (rrrPlain x false false && x.hdr.d == .absent && !s.gang.isShadow) [] (srcA x) m)
  (hy : s.named (s.gang.hReg r) = some (key, y))
include ha h1 hi hy

theorem exec_cancel : exec (.cancel x) s = s.cancelNamed x.hdr m key y := by
  obtain ⟨hacts, hrsv, hlegal, hdst, hsrc⟩ := hi
  refine (perTask_oneTask h1 ..).trans ?_
  unfold cancelTask
  simp only
  rw [issue_of_issues (m := m) _ ⟨hacts, hrsv, ?_, hdst, hsrc⟩]
  · rw [ha, readGang_h h1, hy]; rfl
  · rw [ha, hlegal]; rfl

theorem exec_cancel_kids (hkind : y.kind = 1) (huntraced : ∀ k ∈ y.kids, (s.frameOf k.frame).traced = false) :
    exec (.cancel x) s = .next ((s.cancelFuture key y).advance x.hdr) := by
  have hnone : (y.kids.any fun k => ((s.childFrame? (k.frame, k.serial)).map (·.traced)).getD false) = false := by
    rw [List.any_eq_false]
    intro k hk
    rw [State.untraced_child (huntraced k hk)]
    exact Bool.false_ne_true
  rw [exec_cancel ha h1 hi hy, State.cancelNamed, hkind]
  exact if_neg (by rw [hnone]; exact Bool.false_ne_true)

theorem exec_cancel_job (hkind : y.kind = 2) : exec (.cancel x) s = .next ((s.cancelJob key).advance x.hdr) := by
  rw [exec_cancel ha h1 hi hy, State.cancelNamed, hkind]; rfl

theorem exec_cancel_prop (hkind : y.kind = 4) :
    exec (.cancel x) s = .next ((s.cancelProp y.object.toNat key).advance x.hdr) := by
  rw [exec_cancel ha h1 hi hy, State.cancelNamed, hkind]; rfl

end

/-- Children that have all ended are left alone (R316). -/
theorem State.cancelFuture_ended {s : State} {key : Nat} {y : Slot} (h : ∀ k ∈ y.kids, k.ended = true) :
    s.cancelFuture key y = s := by
  have hnone : (y.kids.filter fun k => !k.ended) = [] := by
    rw [List.filter_eq_nil_iff]
    intro k hk
    simp [h k hk]
  rw [State.cancelFuture, hnone]; rfl

/-- A running child is marked, and the slot with it (R316). -/
theorem State.cancelFuture_running {s : State} {key : Nat} {y : Slot} {k : Kid} (hkids : y.kids = [k]) (hended : k.ended = false)
    (hhas : Table.has s.ctx.frames k.frame = true) (hserial : (s.frameOf k.frame).serial = k.serial)
    (huntraced : (s.frameOf k.frame).traced = false) (hrun : (s.frameOf k.frame).state = .running) :
    s.cancelFuture key y = (s.modFrameOf k.frame fun f => { f with cancel := true }).modSlotOf key fun z =>
      { z with cancelled := true } := by
  have hchild : s.cancelChild (k.frame, k.serial) = (s.modFrameOf k.frame fun f => { f with cancel := true }, true) := by
    rw [State.cancelChild, State.childFrame?_stands hhas hserial]
    simp only [huntraced, hrun, Bool.false_eq_true, if_false]
  have hone : (y.kids.filter fun k => !k.ended) = [k] := by rw [hkids]; simp [hended]
  rw [State.cancelFuture, hone, State.cancelKids]
  simp only [List.map_cons, List.map_nil, List.foldl_cons, List.foldl_nil, hchild, Bool.false_or, if_true]

end Sys2Proof.Machine

open Sys2Proof Sys2Proof.Machine

/-- Settles O25: RETV of one task and of a packed gang's first task, TESTF, and CANCEL by the kind of the future. -/
theorem futureInstructions : Obligations.FutureInstructions := by
  refine ⟨fun x s m h1 hi => ?retv, fun x s m i hp ha hacted htodo => ?packed,
    fun x s m r key y ha h1 hi hy => ?testf, fun x s m r key y ha h1 hi hy => ?cancel⟩
  case retv =>
    intro v
    obtain ⟨-, -, hlegal, -⟩ := id hi
    have hv : retvValue s x = v := retvValue_eq s hlegal
    rw [← hv]
    exact retv_completes h1 hi
  case packed =>
    intro l hi hkind hf
    exact retv_packed hp ha hacted htodo hi hkind hf
  case testf => exact testf_completes ha h1 hi hy
  case cancel =>
    refine ⟨fun hkind huntraced hended => ?_, fun hkind k hkids hended hhas hserial huntraced hrun => ?_,
      exec_cancel_job ha h1 hi hy, exec_cancel_prop ha h1 hi hy⟩
    · rw [exec_cancel_kids ha h1 hi hy hkind huntraced, State.cancelFuture_ended hended]
      exact ⟨_, rfl, wentOn_advance x.hdr rfl rfl rfl rfl rfl rfl⟩
    · rw [exec_cancel_kids ha h1 hi hy hkind (by rw [hkids]; simpa using huntraced),
        State.cancelFuture_running hkids hended hhas hserial huntraced hrun]
      refine ⟨_, rfl, wentOn_advance x.hdr rfl rfl rfl rfl rfl rfl, ?_, ?_⟩
      · rw [State.advance, State.leave_frameOf]
        exact congrArg Frame.cancel ((State.frameOf_setFrameOf ..).trans (if_pos rfl))
      · rw [State.advance, State.leave_slotOf]
        exact congrArg Slot.cancelled ((State.slotOf_setSlotOf ..).trans (if_pos rfl))
end

section
namespace Sys2Proof.Machine
open Sys2Proof

/-! SHPUT (R319). -/

theorem State.shelfOf_setShelfOf_self (s : State) (n : Nat) (y : Shelf) : (s.setShelfOf n y).shelfOf n = y :=
  (State.shelfOf_setShelfOf ..).trans (if_pos rfl)

theorem State.shelfOf_modShelfOf_self (s : State) (n : Nat) (f : Shelf → Shelf) :
    (s.modShelfOf n f).shelfOf n = f (s.shelfOf n) := State.shelfOf_setShelfOf_self ..

theorem State.shelfOf_touchBy (s : State) (c n k : Nat) : (s.touchBy c n).shelfOf k = s.shelfOf k :=
  State.shelfOf_of_bare (State.bare_touchBy ..) k

/-- The entry that a value makes as it comes to shelf n (R44, R45). -/
def State.valueEntry (s : State) (n : Nat) (team : Option Nat) (v : DWord) : ShelfEntry :=
  { age := s.ctx.age, team := team, isTask := false, boost := (s.shelfOf n).boosting, payload := v }

theorem State.shelfOf_enter_value (s : State) (n : Nat) (team : Option Nat) (v : DWord) :
    (s.enter n team false v).shelfOf n =
      Shelf.serve { s.shelfOf n with entries := (s.shelfOf n).entries ++ [s.valueEntry n team v] } :=
  State.shelfOf_setShelfOf_self ..

theorem Shelf.serve_nobody {x : Shelf} (h : x.takers = []) : x.serve = x := by
  unfold Shelf.serve; rw [h]

/-- The first value of a shelf of tasks is the one appended. -/
theorem findIdx?_appended {es : List ShelfEntry} (hes : ∀ e ∈ es, e.isTask = true) {e : ShelfEntry} (he : e.isTask = false) :
    ((es ++ [e]).findIdx? fun e => !e.isTask) = some es.length := by
  have hnone : (es.findIdx? fun e => !e.isTask) = none := by
    rw [List.findIdx?_eq_none_iff]
    intro d hd
    simp [hes d hd]
  rw [List.findIdx?_append, hnone]
  simp [he]

theorem Shelf.takeAt_given (x : Shelf) (i : Nat) : (x.takeAt i).given = x.given := by
  unfold Shelf.takeAt; simp only; split <;> rfl

theorem Shelf.takeAt_depth (x : Shelf) (i : Nat) : (x.takeAt i).depth = (x.entries.eraseIdx i).length := by
  unfold Shelf.takeAt
  simp only
  split
  · simp [Shelf.depth, Shelf.boostAll]
  · rfl

/-- A value that comes to a shelf of tasks goes on to the taker that has waited longest (R320). -/
theorem Shelf.serve_appended {x : Shelf} {y : Nat × Bool} {rest : List (Nat × Bool)} (htakers : x.takers = y :: rest)
    (htasks : ∀ e ∈ x.entries, e.isTask = true) {e : ShelfEntry} (he : e.isTask = false) :
    Shelf.serve { x with entries := x.entries ++ [e] } =
      { ({ x with entries := x.entries ++ [e] } : Shelf).takeAt x.entries.length with
        takers := rest, given := x.given ++ [(y, some e.payload)] } := by
  unfold Shelf.serve
  simp only [htakers, findIdx?_appended htasks he, List.getElem?_concat_length, Option.map_some]

theorem Shelf.gift_served {x : Shelf} {me : Nat × Bool} (hnone : x.gift me = Option.none) (v : Option DWord) :
    ({ x with given := x.given ++ [(me, v)] } : Shelf).gift me = some v := by
  rw [Shelf.gift, Option.map_eq_none_iff] at hnone
  rw [Shelf.gift, List.find?_append, hnone]
  simp

/-- SHPUT of a value, below the high watermark (R319, R42). -/
theorem execShput_value {x : RRR} {s : State} {m : Mask} {n : Nat} (hn : s.shelfOperand x.a = some n)
    (hi : s.issues x.hdr .gang (shelfFieldsOk s x false false && isSImm x.b && x.c == .absent && x.hdr.d == .absent) []
      (shelfSrcs x) m) (hfull : (s.shelfOf n).full = false) (hbound : (s.shelfOf n).consumer = 0)
    (hdeep : (s.shelfOf n).depth ≤ (s.shelfOf n).high) :
    exec (.shput x) s = .next (((s.touchBy s.gang.carrel n).enter n (some s.gang.carrel) false
      (readGang s 0x1D 0 x.b)).advance x.hdr) := by
  refine (issue_of_issues _ hi).trans ?_
  have hlow : decide ((s.shelfOf n).high < (s.shelfOf n).depth) = false := decide_eq_false (Nat.not_lt.2 hdeep)
  simp only [hn, hfull, hbound, hlow, Bool.false_eq_true, if_false, if_true]

/-- Where a word that has reached a shelf goes on. -/
theorem goesOn_of_offShelf {s u : State} (h : u.offShelf = s.offShelf) (x : Header) :
    (u.advance x).clock = s.clock + 1 ∧ (s.flat → (u.advance x).pc = s.pc + 12) := by
  have hstand : u.stand = s.stand := by rw [State.stand, State.gang_of_offShelf h]; rfl
  refine ⟨?_, fun hf => State.advance_pc hstand hf x⟩
  rw [State.advance, State.leave_clock, State.clock_of_offShelf h]

theorem State.offShelf_entered (s : State) (c n : Nat) (v : DWord) :
    ((s.touchBy c n).enter n (some c) false v).offShelf = s.offShelf :=
  (State.offShelf_enter ..).trans (State.offShelf_of_bare (State.bare_touchBy ..))

/-! SHTAKE (R320). -/

/-- A gang whose flights and empty s registers are those after a launch has the result on its way. -/
theorem launchedS_of_launch {t u : State} {i : BitVec 6} {v : DWord} (hse : t.gang.se = (u.launchS (.s i) v).gang.se)
    (hfl : t.gang.flights = (u.launchS (.s i) v).gang.flights) : launchedS t (.s i) v := by
  rw [State.launchS, State.modGang_gang, Gang.launch_s _ rfl] at hse hfl
  rw [launchedS, hfl]
  refine ⟨fun j hj => ?_, _, List.getLast?_concat, rfl, rfl, rfl, rfl⟩
  cases hj
  rw [Gang.sEmpty, hse]
  exact Gang.sEmpty_setSEmpty u.gang i

/-- What a write of a predicate leaves: the rest of the gang. -/
def Gang.offPreds (g : Gang) : Gang := { g with p := Vector.replicate 8 0, k := 0 }

theorem Gang.offPreds_writePred (g : Gang) (m : Mask) (code : BitVec 4) (v : Mask) :
    (g.writePred m code v).offPreds = g.offPreds := by
  unfold Gang.writePred Gang.setK Gang.setP
  simp only
  split <;> split <;> rfl

/-- SHTAKE's value on its way, and `.try`'s true predicate (R320). -/
theorem shtakeValue_spec {x : RRR} {s : State} (m : Mask) {try_ : Bool} (v : DWord) (u : State) (hd : isS x.hdr.d = true)
    (hk : try_ = true → predIsK x.pred = true) :
    launchedS (shtakeValue x m try_ v u) x.hdr.d v
      ∧ (try_ = true → wrotePred s (shtakeValue x m try_ v u) m x.pred (fun _ => true) true)
      ∧ ∀ n, (shtakeValue x m try_ v u).shelfOf n = u.shelfOf n := by
  obtain ⟨i, hi⟩ := exists_s_of_isS hd
  have hoff := ((u.launchS x.hdr.d v).modGang fun g =>
    if try_ then g.writePred m x.pred (BitVec.allOnes 32) else g).offIssue_advance x.hdr
  rw [State.modGang_gang] at hoff
  have hkeep : (if try_ then (u.launchS x.hdr.d v).gang.writePred m x.pred (BitVec.allOnes 32)
      else (u.launchS x.hdr.d v).gang).offPreds = (u.launchS x.hdr.d v).gang.offPreds := by
    cases try_
    · rfl
    · exact Gang.offPreds_writePred ..
  have hrest := (congrArg Gang.offPreds hoff :).trans (congrArg Gang.offIssue hkeep)
  refine ⟨?_, fun htry => ?_, fun n => ?_⟩
  · unfold shtakeValue
    rw [hi] at hrest ⊢
    exact launchedS_of_launch (u := u) ((congrArg Gang.se hrest :)) ((congrArg Gang.flights hrest :))
  · have hp := hk htry
    subst htry
    rw [wrotePred, if_pos hp]
    exact (congrArg (fun g : Gang => g.kReg (x.pred.extractLsb' 0 3)) hoff :).trans
      ((Gang.kReg_writePred _ m (BitVec.allOnes 32) hp).trans rfl)
  · exact (State.leave_shelfOf ..).trans rfl

section
variable {x : RRR} {s : State} {m : Mask} {n : Nat} (hn : s.shelfOperand x.a = some n)
  (hi : s.issues x.hdr .gang (shelfFieldsOk s x true true && x.sub.extractLsb' 1 4 == 0
    && (if x.sub.getLsbD 0 then predIsK x.pred else x.pred == 0) && x.b == .absent && x.c == .absent && isS x.hdr.d)
    [(x.hdr.d, false)] (shelfSrcs x) m)
include hn hi

/-- A value that came to a waiting SHTAKE (R320). -/
theorem execShtake_gift {v : DWord} (hgift : (s.shelfOf n).gift (s.cur, s.gang.younger) = some (some v)) :
    exec (.shtake x) s = .next (shtakeValue x m (x.sub.getLsbD 0) v
      (s.modShelfOf n fun y => y.handOver (s.cur, s.gang.younger))) := by
  refine (issue_of_issues _ hi).trans ?_
  simp only [hn, hgift]

/-- A shelf that was bound meanwhile (R329). -/
theorem execShtake_refused (hgift : (s.shelfOf n).gift (s.cur, s.gang.younger) = some none) :
    exec (.shtake x) s = protect (s.modShelfOf n fun y => y.handOver (s.cur, s.gang.younger)) m := by
  refine (issue_of_issues _ hi).trans ?_
  simp only [hn, hgift]

section
variable (hgift : (s.shelfOf n).gift (s.cur, s.gang.younger) = none) (hbound : (s.shelfOf n).consumer = 0)
include hgift hbound

/-- The oldest value, at the taker's turn (R320). -/
theorem execShtake_taken {i : Nat} {e : ShelfEntry} (hturn : (s.shelfOf n).turnOf (s.cur, s.gang.younger) = true)
    (hidx : ((s.shelfOf n).entries.findIdx? fun e => !e.isTask) = some i) (he : (s.shelfOf n).entries[i]? = some e) :
    exec (.shtake x) s = .next (shtakeValue x m (x.sub.getLsbD 0) e.payload
      (((s.touchBy s.gang.carrel n).modShelfOf n fun y => y.leaves (s.cur, s.gang.younger)).takeEntry n i)) := by
  refine (issue_of_issues _ hi).trans ?_
  simp only [hn, hgift, hbound, hturn, if_true, hidx, he, ne_eq, not_true_eq_false, if_false, Option.map_some,
    Option.getD_some]

/-- What SHTAKE answers where no value is its own to take (R320). -/
theorem execShtake_nothing
    (hnone : (s.shelfOf n).turnOf (s.cur, s.gang.younger) = false ∨ ∀ e ∈ (s.shelfOf n).entries, e.isTask = true) :
    exec (.shtake x) s = if x.sub.getLsbD 0 then
        .next ((((s.touchBy s.gang.carrel n).launchS x.hdr.d 0).modGang fun g => g.writePred m x.pred 0).advance x.hdr)
      else .next ((s.touchBy s.gang.carrel n).modShelfOf n fun y => y.joins (s.cur, s.gang.younger)).hold := by
  have hfind : (if (s.shelfOf n).turnOf (s.cur, s.gang.younger) then
      (s.shelfOf n).entries.findIdx? fun e => !e.isTask else none) = none := by
    rcases hnone with hturn | htasks
    · rw [hturn]; rfl
    · have hidx : ((s.shelfOf n).entries.findIdx? fun e => !e.isTask) = none := by
        rw [List.findIdx?_eq_none_iff]
        intro e he
        simp [htasks e he]
      rw [hidx, ite_self]
  refine (issue_of_issues _ hi).trans ?_
  simp only [hn, hgift, hbound, hfind, ne_eq, not_true_eq_false, if_false]

end
end

theorem Shelf.gift_handOver (x : Shelf) (me : Nat × Bool) : (x.handOver me).gift me = Option.none := by
  rw [Shelf.gift, Shelf.handOver, Option.map_eq_none_iff, List.find?_eq_none]
  intro e he
  simpa using (List.mem_filter.1 he).2

theorem Shelf.mem_joins (x : Shelf) (me : Nat × Bool) : me ∈ (x.joins me).takers := by
  unfold Shelf.joins
  split
  · next h => exact List.contains_iff_mem.1 h
  · exact List.mem_append_right _ (List.mem_singleton_self _)

theorem Shelf.entries_joins (x : Shelf) (me : Nat × Bool) : (x.joins me).entries = x.entries := by
  unfold Shelf.joins; split <;> rfl

/-- What `.try` leaves where nothing is to be taken: 0 on its way and a false predicate (R320). -/
theorem shtakeNothing_spec {x : RRR} {s u : State} (m : Mask) (hd : isS x.hdr.d = true) (hk : predIsK x.pred = true) :
    launchedS (((u.launchS x.hdr.d 0).modGang fun g => g.writePred m x.pred 0).advance x.hdr) x.hdr.d 0
      ∧ wrotePred s (((u.launchS x.hdr.d 0).modGang fun g => g.writePred m x.pred 0).advance x.hdr) m x.pred
          (fun _ => false) false := by
  obtain ⟨i, hi⟩ := exists_s_of_isS hd
  have hoff := ((u.launchS x.hdr.d 0).modGang fun g => g.writePred m x.pred 0).offIssue_advance x.hdr
  rw [State.modGang_gang] at hoff
  have hrest := (congrArg Gang.offPreds hoff :).trans
    (congrArg Gang.offIssue ((u.launchS x.hdr.d 0).gang.offPreds_writePred m x.pred 0))
  constructor
  · rw [hi] at hrest ⊢
    exact launchedS_of_launch (u := u) ((congrArg Gang.se hrest :)) ((congrArg Gang.flights hrest :))
  · rw [wrotePred, if_pos hk]
    exact (congrArg (fun g : Gang => g.kReg (x.pred.extractLsb' 0 3)) hoff :).trans ((Gang.kReg_writePred _ m 0 hk).trans rfl)

theorem Gang.bearing_launchS (g : Gang) {d : Operand} (hd : isS d = true) (f : Flight) (hf : f.dst = d) :
    (g.launch f).bearing = g.bearing := by
  obtain ⟨i, rfl⟩ := exists_s_of_isS hd
  rw [Gang.launch_s _ hf]; rfl

/-- A word that launches a result and writes a predicate goes on where it stood. -/
theorem goesOn_launch {s u : State} (h : u.offShelf = s.offShelf) {d : Operand} (hd : isS d = true) (v : DWord) (m : Mask)
    (code : BitVec 4) (k : Mask) (x : Header) :
    (((u.launchS d v).modGang fun g => g.writePred m code k).advance x).clock = s.clock + 1
      ∧ (s.flat → (((u.launchS d v).modGang fun g => g.writePred m code k).advance x).pc = s.pc + 12) := by
  have hbear : ((u.launchS d v).gang.writePred m code k).bearing = s.gang.bearing := by
    rw [Gang.bearing_writePred, State.launchS, State.modGang_gang, Gang.bearing_launchS _ hd _ rfl, State.gang_of_offShelf h]
  obtain ⟨hpath, hrest⟩ := Prod.mk.inj hbear
  have hstand : ((u.launchS d v).modGang fun g => g.writePred m code k).stand = s.stand := by
    rw [State.stand, State.modGang_gang, hpath, (Prod.mk.inj hrest).1]; rfl
  refine ⟨?_, fun hf => State.advance_pc hstand hf x⟩
  rw [State.advance, State.leave_clock]
  change u.clock + 1 = _
  rw [State.clock_of_offShelf h]

theorem State.hold_shelfOf (s : State) (n : Nat) : s.hold.shelfOf n = s.shelfOf n := rfl

theorem Gang.path_run (g : Gang) (n : Nat) : ({ g with run := n } : Gang).path = g.path := rfl

theorem State.pc_hold (s : State) : s.hold.pc = s.pc := by
  rw [State.pc, State.hold, State.modGang_gang, Gang.path_run, Gang.modPath, Gang.path_setPath]
  rfl

/-! SHBIND (R321). -/

/-- What the tasks that a bound shelf makes leave as it is: all but shelves, frames and what numbers them. -/
def State.offBound (s : State) : State :=
  { s.offShelf with ctx := { s.offShelf.ctx with frames := [], nextTask := 0, frameRoom := 0 } }

theorem State.gang_of_offBound {s t : State} (h : t.offBound = s.offBound) : t.gang = s.gang := (congrArg State.gang h :)
theorem State.offBound_modShelfOf (s : State) (n : Nat) (f : Shelf → Shelf) : (s.modShelfOf n f).offBound = s.offBound := rfl
theorem State.offBound_of_bare {s t : State} (h : t.bare = s.bare) : t.offBound = s.offBound :=
  (congrArg (fun u : State => { u with ctx := { u.ctx with shelves := [], age := 0, frames := [], nextTask := 0, frameRoom := 0 } }) h :)
theorem State.clock_of_offBound {s t : State} (h : t.offBound = s.offBound) : t.clock = s.clock := (congrArg State.clock h :)

/-- Entry i of a bound shelf, where it is a value, becomes a task (R321). -/
def State.bindEntry (s : State) (n i : Nat) : State :=
  match (s.shelfOf n).entries[i]? with
  | some e =>
    if e.isTask then s
    else
      let r := s.putFrame (s.boundFrame n e.payload (e.team.getD 0))
      r.1.modShelfOf n fun x =>
        { x with entries := x.entries.set i { e with isTask := true, payload := BitVec.ofNat 64 r.2 } }
  | none => s

theorem State.bindEntries_eq (s : State) (n : Nat) :
    s.bindEntries n = (List.range (s.shelfOf n).depth).foldl (fun s i => s.bindEntry n i) s := rfl

theorem State.offBound_bindEntry (s : State) (n i : Nat) : (s.bindEntry n i).offBound = s.offBound := by
  unfold State.bindEntry
  split
  · split <;> rfl
  · rfl

theorem State.offBound_bindEntries (s : State) (n : Nat) : (s.bindEntries n).offBound = s.offBound :=
  foldl_keeps State.offBound _ (fun s i => s.offBound_bindEntry n i) _ s

/-- After the entry at i has been bound: consumer and depth are as before, entry i is a task, and every other stays. -/
theorem State.shelfOf_bindEntry (s : State) (n i : Nat) :
    ((s.bindEntry n i).shelfOf n).consumer = (s.shelfOf n).consumer
      ∧ ((s.bindEntry n i).shelfOf n).entries.length = (s.shelfOf n).entries.length
      ∧ ∀ j e, ((s.bindEntry n i).shelfOf n).entries[j]? = some e →
          e.isTask = true ∨ (j ≠ i ∧ (s.shelfOf n).entries[j]? = some e) := by
  unfold State.bindEntry
  split
  · next e he =>
    split
    · next htask =>
      refine ⟨rfl, rfl, fun j d hj => ?_⟩
      by_cases hji : j = i
      · subst hji
        rw [he] at hj
        exact .inl (Option.some.inj hj ▸ htask)
      · exact .inr ⟨hji, hj⟩
    · extract_lets r
      have hsame : r.1.shelfOf n = s.shelfOf n := rfl
      rw [State.shelfOf_modShelfOf_self, hsame]
      refine ⟨rfl, List.length_set, fun j d hj => ?_⟩
      by_cases hji : j = i
      · subst hji
        have hset := List.mem_or_eq_of_mem_set (List.mem_of_getElem? hj)
        rw [List.getElem?_set_self (by
          have := List.getElem?_eq_some_iff.1 he
          exact this.1)] at hj
        exact .inl (by rw [← Option.some.inj hj])
      · rw [List.getElem?_set_ne (Ne.symm hji)] at hj
        exact .inr ⟨hji, hj⟩
  · next hnone =>
    refine ⟨rfl, rfl, fun j d hj => .inr ⟨?_, hj⟩⟩
    rintro rfl
    rw [hnone] at hj
    cases hj

/-- The entries below k are tasks once they have been bound. -/
theorem State.shelfOf_foldl_bindEntry (s : State) (n k : Nat) :
    (((List.range k).foldl (fun s i => s.bindEntry n i) s).shelfOf n).consumer = (s.shelfOf n).consumer
      ∧ (((List.range k).foldl (fun s i => s.bindEntry n i) s).shelfOf n).entries.length = (s.shelfOf n).entries.length
      ∧ ∀ j < k, ∀ e, (((List.range k).foldl (fun s i => s.bindEntry n i) s).shelfOf n).entries[j]? = some e →
          e.isTask = true := by
  induction k with
  | zero => exact ⟨rfl, rfl, fun j hj => absurd hj (Nat.not_lt_zero j)⟩
  | succ k ih =>
    rw [List.range_succ, List.foldl_append, List.foldl_cons, List.foldl_nil]
    generalize (List.range k).foldl (fun s i => s.bindEntry n i) s = u at ih
    obtain ⟨hconsumer, hlength, htasks⟩ := ih
    obtain ⟨hc, hl, hstep⟩ := u.shelfOf_bindEntry n k
    refine ⟨hc.trans hconsumer, hl.trans hlength, fun j hj e he => ?_⟩
    rcases hstep j e he with htask | ⟨hjk, hbefore⟩
    · exact htask
    · exact htasks j (by omega) e hbefore

theorem State.shelfOf_bindEntries (s : State) (n : Nat) :
    ((s.bindEntries n).shelfOf n).consumer = (s.shelfOf n).consumer
      ∧ ((s.bindEntries n).shelfOf n).entries.length = (s.shelfOf n).entries.length
      ∧ ∀ e ∈ ((s.bindEntries n).shelfOf n).entries, e.isTask = true := by
  rw [State.bindEntries_eq]
  obtain ⟨hc, hl, htasks⟩ := s.shelfOf_foldl_bindEntry n (s.shelfOf n).depth
  refine ⟨hc, hl, fun e he => ?_⟩
  obtain ⟨j, hj⟩ := List.getElem?_of_mem he
  have hlt := (List.getElem?_eq_some_iff.1 hj).1
  rw [hl] at hlt
  exact htasks j hlt e hj

/-- The shelf as SHBIND binds it, before its values become tasks (R321). -/
def State.boundTo (s : State) (n : Nat) (entry : DWord) : State :=
  (s.touchBy s.gang.carrel n).modShelfOf n fun y => { y with consumer := entry, launch := (s.frameOf s.gang.frame).launch }

theorem execShbind_bound {x : RRR} {s : State} {m : Mask} {n : Nat} (hn : s.shelfOperand x.a = some n)
    (hi : s.issues x.hdr .gang (shelfFieldsOk s x false false && isS x.b && x.c == .absent && x.hdr.d == .absent) []
      (shelfSrcs x) m) (h0 : n ≠ 0) (halign : (readGang s 0x1D 0 x.b).extractLsb' 0 2 = 0)
    (hentry : readGang s 0x1D 0 x.b ≠ 0) (hroom : (s.shelfOf n).entries.length ≤ s.ctx.frameRoom) :
    exec (.shbind x) s = .next ((((s.boundTo n (readGang s 0x1D 0 x.b)).bindEntries n).modShelfOf n
      Shelf.refuseTakers).advance x.hdr) := by
  have hvalues : ¬ s.ctx.frameRoom < ((s.shelfOf n).entries.filter fun e => !e.isTask).length :=
    Nat.not_lt.2 ((List.length_filter_le ..).trans hroom)
  refine (issue_of_issues _ hi).trans ?_
  dsimp only
  rw [if_neg (not_not_intro halign), hn]
  dsimp only
  rw [if_neg h0, if_neg (by rw [decide_eq_false hvalues, Bool.and_false]; exact Bool.false_ne_true), if_neg hentry]
  exact congrArg (fun u : State => Host.Outcome.next (((u.bindEntries n).modShelfOf n Shelf.refuseTakers).advance x.hdr))
    (State.boundTo.eq_1 s n _).symm

theorem shbind_completes {x : RRR} {s : State} {m : Mask} {n : Nat} (hn : s.shelfOperand x.a = some n)
    (hi : s.issues x.hdr .gang (shelfFieldsOk s x false false && isS x.b && x.c == .absent && x.hdr.d == .absent) []
      (shelfSrcs x) m) (h0 : n ≠ 0) (halign : (readGang s 0x1D 0 x.b).extractLsb' 0 2 = 0)
    (hentry : readGang s 0x1D 0 x.b ≠ 0) (hroom : (s.shelfOf n).entries.length ≤ s.ctx.frameRoom) :
    ∃ t, exec (.shbind x) s = .next t ∧ t.clock = s.clock + 1 ∧ (s.flat → t.pc = s.pc + 12)
      ∧ (t.shelfOf n).consumer = readGang s 0x1D 0 x.b ∧ (t.shelfOf n).entries.length = (s.shelfOf n).entries.length
      ∧ ∀ e ∈ (t.shelfOf n).entries, e.isTask = true := by
  have hbound : (s.boundTo n (readGang s 0x1D 0 x.b)).offBound = s.offBound :=
    (State.offBound_modShelfOf ..).trans (State.offBound_of_bare (State.bare_touchBy s s.gang.carrel n))
  have hoff : (((s.boundTo n (readGang s 0x1D 0 x.b)).bindEntries n).modShelfOf n Shelf.refuseTakers).offBound = s.offBound :=
    (State.offBound_modShelfOf ..).trans ((State.offBound_bindEntries ..).trans hbound)
  have hstand : (((s.boundTo n (readGang s 0x1D 0 x.b)).bindEntries n).modShelfOf n Shelf.refuseTakers).stand = s.stand := by
    rw [State.stand, State.gang_of_offBound hoff]; rfl
  have hshelf : (s.boundTo n (readGang s 0x1D 0 x.b)).shelfOf n = { s.shelfOf n with
      consumer := readGang s 0x1D 0 x.b, launch := (s.frameOf s.gang.frame).launch } := by
    rw [State.boundTo, State.shelfOf_modShelfOf_self, State.shelfOf_touchBy]
  obtain ⟨hconsumer, hlength, htasks⟩ := (s.boundTo n (readGang s 0x1D 0 x.b)).shelfOf_bindEntries n
  rw [hshelf] at hconsumer hlength
  refine ⟨_, execShbind_bound hn hi h0 halign hentry hroom, ?_, fun hf => State.advance_pc hstand hf x.hdr, ?_⟩
  · rw [State.advance, State.leave_clock, State.clock_of_offBound hoff]
  · rw [State.advance, State.leave_shelfOf, State.shelfOf_modShelfOf_self]
    exact ⟨hconsumer, hlength, htasks⟩

/-! SHPRIO (R321). -/

theorem execShprio_set {x : RRR} {s : State} {m : Mask} {n : Nat} (hn : s.shelfOperand x.a = some n)
    (hi : s.issues x.hdr .gang (shelfFieldsOk s x false false && isSImm x.b && isS x.c && x.hdr.d == .absent) []
      (shelfSrcs x) m) (h0 : n ≠ 0) (hprio : (readGang s 0x1D 0 x.b).toNat ≤ 7) :
    let new : Shelf := { s.shelfOf n with
      prio := (readGang s 0x1D 0 x.b).extractLsb' 0 3, low := ((readGang s 0x1D 0 x.c).extractLsb' 0 32).toNat,
      high := ((readGang s 0x1D 0 x.c).extractLsb' 32 32).toNat }
    new.ok = true →
    exec (.shprio x) s = .next ((((s.touchBy s.gang.carrel n).setShelfOf n
      (if new.entries.length < new.low then new.boostAll false else new)).wake).advance x.hdr) := by
  intro new hok
  obtain ⟨hacts, hrsv, hlegal, hdst, hsrc⟩ := hi
  have hc : isS x.c = true := by
    simp only [Bool.and_eq_true] at hlegal
    obtain ⟨⟨⟨_, _⟩, hc⟩, _⟩ := hlegal
    exact hc
  have habsent : (x.c == .absent) = false := by
    obtain ⟨i, hi⟩ := exists_s_of_isS hc
    rw [hi]; rfl
  have hi' : s.issues x.hdr .gang (shelfFieldsOk s x false false && isSImm x.b && (isS x.c || x.c == .absent)
      && x.hdr.d == .absent) [] (shelfSrcs x) m :=
    ⟨hacts, hrsv, by rw [habsent, Bool.or_false]; exact hlegal, hdst, hsrc⟩
  refine (issue_of_issues _ hi').trans ?_
  simp only [hn, habsent, Bool.false_eq_true, if_false]
  rw [if_neg]
  · rfl
  · change ¬ (decide (n = 0) || decide (7 < (readGang s 0x1D 0 x.b).toNat) || !new.ok) = true
    simp only [h0, hok, Nat.not_lt.2 hprio, decide_false, Bool.not_true, Bool.or_self, Bool.false_eq_true,
      not_false_eq_true]

end Sys2Proof.Machine

open Sys2Proof Sys2Proof.Machine

/-- Settles O26: each shelf instruction by what it finds at the shelf that its operand names. -/
theorem shelfInstructions : Obligations.ShelfInstructions := by
  intro x s m n hn sh
  refine ⟨fun hi hfull hbound hdeep => ⟨fun hnobody => ?put, fun y rest htakers htasks hgift => ?putTaken⟩, ?take,
    fun hi => ?depth, fun hi h0 halign hentry hroom => shbind_completes hn hi h0 halign hentry hroom,
    ?prio⟩
  case put =>
    obtain ⟨hclock, hpc⟩ := goesOn_of_offShelf (s.offShelf_entered s.gang.carrel n (readGang s 0x1D 0 x.b)) x.hdr
    refine ⟨_, execShput_value hn hi hfull hbound hdeep, hclock, hpc,
      (s.touchBy s.gang.carrel n).valueEntry n (some s.gang.carrel) (readGang s 0x1D 0 x.b), ?_, rfl, rfl, ?_, rfl⟩
    · rw [State.advance, State.leave_shelfOf, State.shelfOf_enter_value, State.shelfOf_touchBy, Shelf.serve_nobody]
      exact hnobody
    · exact (congrArg (fun u : State => u.ctx.age) (State.bare_touchBy s s.gang.carrel n) :)
  case putTaken =>
    obtain ⟨hclock, hpc⟩ := goesOn_of_offShelf (s.offShelf_entered s.gang.carrel n (readGang s 0x1D 0 x.b)) x.hdr
    refine ⟨_, execShput_value hn hi hfull hbound hdeep, hclock, hpc, ?_⟩
    rw [State.advance, State.leave_shelfOf, State.shelfOf_enter_value, State.shelfOf_touchBy,
      Shelf.serve_appended htakers htasks rfl]
    refine ⟨rfl, (Shelf.gift_served hgift _ :), ?_⟩
    have hdepth := Shelf.takeAt_depth { sh with
      entries := sh.entries ++ [(s.touchBy s.gang.carrel n).valueEntry n (some s.gang.carrel) (readGang s 0x1D 0 x.b)] }
      sh.entries.length
    refine Eq.trans hdepth ?_
    simp [List.length_eraseIdx, Shelf.depth]
  case take =>
    intro try_ me hi
    obtain ⟨hd, hk⟩ : isS x.hdr.d = true ∧ (try_ = true → predIsK x.pred = true) := by
      obtain ⟨-, -, hlegal, -⟩ := id hi
      simp only [Bool.and_eq_true] at hlegal
      obtain ⟨⟨⟨⟨_, hpred⟩, _⟩, _⟩, hd⟩ := hlegal
      exact ⟨hd, fun htry => by rwa [if_pos htry] at hpred⟩
    refine ⟨fun v hgift => ?gift, fun hgift => ?refused, fun hgift hbound => ⟨fun i e hturn hidx he => ?taken,
      fun hnone => ⟨fun htry => ?nothing, fun htry => ?waits⟩⟩⟩
    case gift =>
      obtain ⟨hlaunched, hpred, hshelf⟩ := shtakeValue_spec (s := s) m (try_ := try_) v
        (s.modShelfOf n fun y => y.handOver me) hd hk
      refine ⟨_, execShtake_gift hn hi hgift, hlaunched, hpred, ?_⟩
      rw [hshelf n, State.shelfOf_modShelfOf_self]
      exact ⟨Shelf.gift_handOver .., rfl⟩
    case refused => exact ⟨_, execShtake_refused hn hi hgift, rfl, rfl⟩
    case taken =>
      obtain ⟨hlaunched, hpred, -⟩ := shtakeValue_spec (s := s) m (try_ := try_) e.payload
        (((s.touchBy s.gang.carrel n).modShelfOf n fun y => y.leaves me).takeEntry n i) hd hk
      exact ⟨_, execShtake_taken hn hi hgift hbound hturn hidx he, hlaunched, hpred, rfl⟩
    case nothing =>
      have hexec := execShtake_nothing hn hi hgift hbound hnone
      rw [if_pos htry] at hexec
      obtain ⟨hlaunched, hpred⟩ := shtakeNothing_spec (s := s) (u := s.touchBy s.gang.carrel n) m hd (hk htry)
      obtain ⟨hclock, hpc⟩ := goesOn_launch (s := s) (u := s.touchBy s.gang.carrel n)
        (State.offShelf_of_bare (State.bare_touchBy ..)) hd 0 m x.pred 0 x.hdr
      refine ⟨_, hexec, hclock, hpc, hlaunched, ?_, hpred⟩
      rw [State.advance, State.leave_shelfOf]
      exact congrArg Shelf.entries (s.shelfOf_touchBy s.gang.carrel n n)
    case waits =>
      have hexec := execShtake_nothing hn hi hgift hbound hnone
      rw [if_neg (by rw [show x.sub.getLsbD 0 = false from htry]; exact Bool.false_ne_true)] at hexec
      have hgang : ((s.touchBy s.gang.carrel n).modShelfOf n fun y => y.joins me).gang = s.gang :=
        State.gang_of_offBound ((State.offBound_modShelfOf ..).trans
          (State.offBound_of_bare (State.bare_touchBy s s.gang.carrel n)))
      have hshelf : (((s.touchBy s.gang.carrel n).modShelfOf n fun y => y.joins me).hold.shelfOf n) = sh.joins me := by
        rw [State.hold_shelfOf, State.shelfOf_modShelfOf_self, State.shelfOf_touchBy]
      refine ⟨_, hexec, ?_, ?_, ?_, ?_⟩
      · exact (State.clock_of_bare (State.bare_touchBy s s.gang.carrel n) :)
      · rw [State.pc_hold, State.pc, hgang]; rfl
      · rw [hshelf, Shelf.entries_joins]
      · rw [hshelf]; exact Shelf.mem_joins ..
  case prio =>
    intro hi h0 p wm new hprio hok
    exact execShprio_set hn hi h0 hprio hok
  case depth =>
    have hd : isS x.hdr.d = true := by
      obtain ⟨-, -, hlegal, -⟩ := id hi
      exact (Bool.and_eq_true_iff.1 hlegal).2
    obtain ⟨i, hdi⟩ := exists_s_of_isS hd
    have hexec : exec (.shdepth x) s = .next (((s.touchBy s.gang.carrel n).launchS x.hdr.d
        (BitVec.ofNat 64 sh.entries.length)).advance x.hdr) := by
      refine (issue_of_issues _ hi).trans ?_
      simp only [hn]
      rfl
    have hstand : ((s.touchBy s.gang.carrel n).launchS x.hdr.d (BitVec.ofNat 64 sh.entries.length)).stand = s.stand := by
      rw [hdi, State.stand_launchS, State.stand, State.gang_of_bare (State.bare_touchBy ..)]; rfl
    refine ⟨_, hexec, ?_, fun hf => State.advance_pc hstand hf x.hdr, ?_⟩
    · rw [State.advance, State.leave_clock]
      exact congrArg (· + 1) (State.clock_of_bare (State.bare_touchBy s s.gang.carrel n) :)
    · rw [hdi]; exact launchedS_advance ..
end

section
namespace Sys2Proof.Machine
open Sys2Proof

/-! Barriers (R349 to R352). -/

theorem State.barrier_setBarrier_self (s : State) (level id : Nat) (b : Barrier) :
    (s.setBarrier level id b).barrier level id = b := by
  match level with
  | 0 =>
    change Table.look ((s.modCarrelOf s.gang.carrel _).carrelOf s.gang.carrel).bars id Barrier.zero = b
    rw [State.modCarrelOf, State.carrelOf_setCarrelOf, if_pos rfl, Table.look_put, if_pos rfl]
  | 1 =>
    change Table.look (Table.look (Table.put _ (galleryOf s.gang.carrel) _) (galleryOf s.gang.carrel) []) id Barrier.zero = b
    rw [Table.look_put, if_pos rfl, Table.look_put, if_pos rfl]
  | 2 =>
    change Table.look (Table.look (Table.put _ (s.gang.carrel / Config.carrelsPerWing) _)
      (s.gang.carrel / Config.carrelsPerWing) []) id Barrier.zero = b
    rw [Table.look_put, if_pos rfl, Table.look_put, if_pos rfl]
  | _ + 3 =>
    change Table.look (Table.look (Table.put _ pkgKey _) pkgKey []) id Barrier.zero = b
    rw [Table.look_put, if_pos rfl, Table.look_put, if_pos rfl]

/-- The arrivals of one word: one for each task set in XM of a packed gang, else one (R351). -/
def State.arriving (s : State) : Nat := if s.gang.packed then s.gang.xm.lanes.length else 1

/-- What an arrival that is no fault tells: the count's limits, and the barrier as it leaves it (R351). -/
theorem State.arrive_some {s u : State} {level id : Nat} {n : Option Nat} {token : Word}
    (h : s.arrive level id n = some (u, token)) :
    let b := (s.release s.gang.carrel level).barrier level id
    let k := n.getD b.standing
    token = b.phase ∧ 0 < k ∧ k ≤ barrierMax level ∧ id < barrierIds level ∧ (0 < b.count → b.n = k)
      ∧ u.barrier level id = { b with n := k, standing := k }.add s.arriving k := by
  intro b k
  have hgang : (s.release s.gang.carrel level).gang = s.gang := State.gang_of_bare (State.bare_release ..)
  unfold State.arrive at h
  extract_lets s1 b' k' at h
  split at h
  · cases h
  next hlimits =>
    obtain ⟨rfl, rfl⟩ := Prod.mk.inj (Option.some.inj h)
    simp only [Bool.or_eq_true, Bool.and_eq_true, decide_eq_true_eq, not_or, not_and, not_lt, not_le, ne_eq, not_not]
      at hlimits
    obtain ⟨⟨⟨hk, hmax⟩, hid⟩, hn⟩ := hlimits
    refine ⟨rfl, Nat.pos_of_ne_zero hk, hmax, hid, fun hc => (hn hc).symm, ?_⟩
    rw [State.barrier_setBarrier_self, State.arriving, ← hgang]

theorem Gang.xm_lanes_length (g : Gang) : g.xm.lanes.length = (List.range 32).countP fun l => g.xm.getLsbD l :=
  List.countP_eq_length_filter.symm

/-- One arrival at a barrier that lacks some. -/
theorem Barrier.add_one {b : Barrier} {n : Nat} (hb : b.count < n) :
    (b.add 1 n).count = (if b.count + 1 = n then 0 else b.count + 1)
      ∧ (b.add 1 n).phase = (if b.count + 1 = n then b.phase + 1 else b.phase) := by
  unfold Barrier.add
  by_cases hlast : b.count + 1 = n
  · rw [if_pos hlast, if_pos hlast, ← hlast, Nat.div_self (Nat.succ_pos _)]
    exact ⟨Nat.mod_self _, rfl⟩
  · have hless : b.count + 1 < n := by omega
    rw [if_neg hlast, if_neg hlast]
    refine ⟨Nat.mod_eq_of_lt hless, ?_⟩
    change b.phase + BitVec.ofNat 32 ((b.count + 1) / n) = b.phase
    rw [Nat.div_eq_of_lt hless]
    exact BitVec.add_zero _

theorem Gang.sReg_writeDest_word (g : Gang) (m : Mask) (d : BitVec 6) (f : Nat → DWord) (v : Word) :
    (g.writeDest m (.s d) 32 f (v.setWidth 64)).sReg d = v.setWidth 64 := by
  have hall : v.setWidth 64 &&& BitVec.ofNat 64 (2 ^ 32 - 1) = v.setWidth 64 := by
    apply BitVec.eq_of_toNat_eq
    rw [BitVec.toNat_and, BitVec.toNat_ofNat, Nat.mod_eq_of_lt (by decide), Nat.and_two_pow_sub_one_eq_mod]
    exact Nat.mod_eq_of_lt (by rw [BitVec.toNat_setWidth_of_le (by decide)]; exact v.isLt)
  show (g.s.set d.toNat (v.setWidth 64 &&& BitVec.ofNat 64 (2 ^ 32 - 1)))[d.toNat] = v.setWidth 64
  rw [hall]
  exact Vector.getElem_set_self ..

theorem execBara_arrives {x : RRR} {s u : State} {m : Mask} {token : Word}
    (hi : s.issues x.hdr .gang (barFieldsOk s.gang x && barCountOk x && dstOk .gang s.gang false x.hdr.d)
      [(x.hdr.d, false)] (barSrcs x) m) (ht : s.taskTraced = false)
    (hu : s.arrive (barLevel x) (barNumber s x.a) (barCount s x) = some (u, token)) :
    exec (.bara x) s = .next ((u.modGang fun g => g.writeDest m x.hdr.d 32 (fun _ => 0) (token.setWidth 64)).advance
      x.hdr) := by
  refine (issue_of_issues _ hi).trans ?_
  rw [if_neg (by rw [ht]; exact Bool.false_ne_true), hu]

theorem execBarw_waited {x : RRR} {s : State} {m : Mask}
    (hi : s.issues x.hdr .gang (barFieldsOk s.gang x && x.hdr.d == .absent && isS x.b) [] (barSrcs x) m)
    (ht : s.taskTraced = false) (hid : barNumber s x.a < barrierIds (barLevel x)) :
    exec (.barw x) s = .next (if (s.barrier (barLevel x) (barNumber s x.a)).phase.toNat = barNumber s x.b then s.hold
      else (s.acquire s.gang.carrel (barCross (barLevel x))).advance x.hdr) := by
  refine (issue_of_issues _ hi).trans ?_
  dsimp only
  rw [if_neg (by rw [ht, decide_eq_false (Nat.not_le.2 hid)]; exact Bool.false_ne_true)]
  split
  · rfl
  · rfl

/-- BAR's path, where its phase lacks arrivals, stands with the token (R352). -/
def State.barWaits (s : State) (token : Word) : State :=
  (s.issuedOne.modGang fun g => (g.modPath fun p => { p with wait := .barrier token }).waits).tick

theorem State.wait_barWaits (s : State) (token : Word) : (s.barWaits token).gang.path.wait = .barrier token := by
  have hgang : (s.barWaits token).gang = (s.issuedOne.gang.modPath fun p => { p with wait := .barrier token }).waits :=
    (State.modGang_gang s.issuedOne fun g => (g.modPath fun p => { p with wait := .barrier token }).waits :)
  rw [hgang, Gang.waits, Gang.path_run, Gang.modPath, Gang.path_setPath]

theorem execBar_arrives {x : RRR} {s u : State} {m : Mask} {token : Word}
    (hi : s.issues x.hdr .gang (barFieldsOk s.gang x && barCountOk x && x.hdr.d == .absent) [] (barSrcs x) m)
    (hw : s.gang.path.wait = .none) (ht : s.taskTraced = false)
    (hu : s.arrive (barLevel x) (barNumber s x.a) (barCount s x) = some (u, token)) :
    exec (.bar x) s = .next (if (u.barrier (barLevel x) (barNumber s x.a)).phase = token then u.barWaits token
      else (u.acquire s.gang.carrel (barCross (barLevel x))).advance x.hdr) := by
  have hexec : exec (.bar x) s = execBar x s := rfl
  rw [hexec, execBar, hw]
  refine (issue_of_issues _ hi).trans ?_
  rw [if_neg (by rw [ht]; exact Bool.false_ne_true), hu]
  dsimp only
  split
  · rfl
  · rfl

end Sys2Proof.Machine

open Sys2Proof Sys2Proof.Machine

/-- Settles O30: BARA, BARW and BAR by what the arrival leaves at the barrier. -/
theorem barriers : Obligations.Barriers := by
  refine ⟨fun x s u m token hi ht hu => ?bara, fun x s m hi ht hid => ?barw, fun x s u m token hi hw ht hu => ?bar,
    fun s u level id n token hu => ?arrival⟩
  case bara =>
    refine ⟨_, execBara_arrives hi ht hu, ?_, ?_, fun i hd => ?_⟩
    · rw [State.advance, State.leave_clock]; rfl
    · rw [State.advance, State.leave_mem]; rfl
    · rw [State.sReg_advance, State.modGang_gang, hd, Gang.sReg_writeDest_word]
  case barw =>
    rw [execBarw_waited hi ht hid]
    exact ⟨fun hpast => by rw [if_neg hpast], fun hsame => by rw [if_pos hsame]⟩
  case bar =>
    rw [execBar_arrives hi hw ht hu]
    refine ⟨fun hpast => by rw [if_neg hpast], fun hsame => ⟨_, rfl, ?_⟩⟩
    rw [if_pos hsame]
    refine ⟨?_, ?_, State.wait_barWaits ..⟩
    · exact congrArg (· + 1) u.issuedOne_clock
    · exact u.issuedOne_mem
  case arrival =>
    intro b
    obtain ⟨htoken, hpos, hmax, hid, hsame, hleft⟩ := State.arrive_some hu
    change u.barrier level id = { b with n := n, standing := n }.add s.arriving n at hleft
    refine ⟨htoken, hpos, hmax, hid, hsame, fun hone hless => ?_, ?_, by rw [hleft]; rfl⟩
    · rw [hleft, State.arriving, hone]
      exact Barrier.add_one hless
    · intro k
      have hk : s.arriving = k := by
        rw [State.arriving, Gang.xm_lanes_length]; rfl
      rw [hleft, hk]
      exact ⟨rfl, rfl⟩
end

section
namespace Sys2Proof.Machine
open Sys2Proof

/-! What a carrel sees through its caches (R122, R123, R125): fills and what carrels keep and count leave it as it was. -/

theorem Line.sector_setSector (l : Line) (i j : Nat) (x : Sector) (hi : i < 2) (hj : j < 2) :
    (l.setSector i x).sector j = if j = i then x else l.sector j := by
  have hcases : (i = 0 ∨ i = 1) ∧ (j = 0 ∨ j = 1) := by omega
  obtain ⟨rfl | rfl, rfl | rfl⟩ := hcases <;> rfl

theorem Cache.sector_setSector (c : Cache) (pa pa' : Nat) (x : Sector) (f : Line → Line)
    (hf : ∀ l i, (f l).sector i = l.sector i) :
    (c.setSector pa x f).sector pa' = if pa' / 128 = pa / 128 then x else c.sector pa' := by
  have hlook : (c.setSector pa x f).line pa'
      = if pa' / 256 = pa / 256 then f ((c.line pa).setSector (pa / 128 % 2) x) else c.line pa' := Table.look_put ..
  rw [Cache.sector, hlook]
  by_cases hline : pa' / 256 = pa / 256
  · rw [if_pos hline, hf, Line.sector_setSector _ _ _ _ (Nat.mod_lt _ (by decide)) (Nat.mod_lt _ (by decide))]
    have hsame : c.line pa' = c.line pa := by rw [Cache.line, Cache.line, hline]
    by_cases hhalf : pa' / 128 % 2 = pa / 128 % 2
    · rw [if_pos hhalf, if_pos (by omega)]
    · rw [if_neg hhalf, if_neg (by omega), Cache.sector, hsame]
  · rw [if_neg hline, if_neg (by omega)]
    rfl

/-- A sector's own byte where it has one, else the byte under it. -/
def Sector.see (x : Sector) (i : Nat) (under : Byte) : Byte :=
  if x.valid || x.mask.getLsbD i then x.data.getD i 0 else under

/-- A byte as an L2 holds it, else memory's. -/
def State.underByte (s : State) (gal pa : Nat) : Byte := ((s.galleryCache gal).sector pa).see (pa % 128) (s.mem.byte pa)

theorem State.viewByte_eq (s : State) (c pa : Nat) :
    s.viewByte c pa = ((s.cacheOf (s.l1For c pa)).sector pa).see (pa % 128) (s.underByte (galleryOf c) pa) := rfl

theorem Sector.see_valid {x : Sector} (h : x.valid = true) (i : Nat) (u : Byte) : x.see i u = x.data.getD i 0 := by
  rw [Sector.see, h]; rfl

theorem Sector.see_masked {x : Sector} {i : Nat} (h : x.mask.getLsbD i = true) (u : Byte) : x.see i u = x.data.getD i 0 := by
  rw [Sector.see, h, Bool.or_true]; rfl

theorem Sector.see_absent {x : Sector} {i : Nat} (hv : x.valid = false) (hm : x.mask.getLsbD i = false) (u : Byte) :
    x.see i u = u := by
  rw [Sector.see, hv, hm]; rfl

theorem vectorGetD_lt {α : Type} {n : Nat} (v : Vector α n) {i : Nat} (hi : i < n) (d : α) : v.getD i d = v[i] := by
  simp [Vector.getD, hi]

theorem Sector.see_fill {x : Sector} (hv : x.valid = false) (bytes : Nat → Byte) (a b : Label) {i : Nat} (hi : i < 128)
    (u : Byte) : (x.fill bytes a b).see i u = x.see i (bytes i) := by
  have hdata : (x.fill bytes a b).data.getD i 0 = if x.mask.getLsbD i then x.data[i] else bytes i := by
    rw [vectorGetD_lt _ hi]
    exact Vector.getElem_ofFn ..
  rw [Sector.see_valid rfl, hdata]
  by_cases hm : x.mask.getLsbD i = true
  · rw [if_pos hm, Sector.see_masked hm, vectorGetD_lt _ hi]
  · rw [if_neg hm, Sector.see_absent hv (by simpa using hm)]

/-! The slice of a fused gallery's L1 that serves an address depends on its line only (R124). -/

theorem State.l1For_line (s : State) (c : Nat) {pa pa' : Nat} (h : pa' / 128 = pa / 128) : s.l1For c pa' = s.l1For c pa := by
  rw [State.l1For, State.l1For, show pa' / 256 = pa / 256 by omega, show pa' / 4096 = pa / 4096 by omega]

theorem State.l1For_congr {s t : State} (h : t.fused = s.fused) (c pa : Nat) : t.l1For c pa = s.l1For c pa := by
  rw [State.l1For, State.l1For, State.isFused, State.isFused, h]

theorem State.galleryOf_l1For (s : State) (c pa : Nat) : galleryOf (s.l1For c pa) = galleryOf c := by
  unfold State.l1For
  split
  · have hslice : Nat.xor (pa / 256 % 4) (pa / 4096 % 4) < 4 :=
      Nat.xor_lt_two_pow (n := 2) (Nat.mod_lt _ (by decide)) (Nat.mod_lt _ (by decide))
    change (galleryOf c * 4 + Nat.xor (pa / 256 % 4) (pa / 4096 % 4)) / 4 = galleryOf c
    omega
  · rfl

theorem Cache.sector_line (c : Cache) {pa pa' : Nat} (h : pa' / 128 = pa / 128) : c.sector pa' = c.sector pa := by
  rw [Cache.sector, Cache.sector, Cache.line, Cache.line, h, show pa' / 256 = pa / 256 by omega]

/-! What the view rests on. -/

theorem State.viewByte_congr {s t : State} (h1 : t.l1s = s.l1s) (h2 : t.l2s = s.l2s) (hf : t.fused = s.fused)
    (hm : t.mem = s.mem) (c a : Nat) : t.viewByte c a = s.viewByte c a := by
  rw [State.viewByte_eq, State.viewByte_eq, State.l1For_congr hf, State.cacheOf, State.cacheOf, h1, State.underByte,
    State.underByte, State.galleryCache, State.galleryCache, h2, hm]

theorem State.viewByte_of_sectors {s t : State} {c a : Nat} (hf : t.fused = s.fused)
    (h1 : ∀ l1, ((t.cacheOf l1).sector a) = ((s.cacheOf l1).sector a))
    (hu : t.underByte (galleryOf c) a = s.underByte (galleryOf c) a) : t.viewByte c a = s.viewByte c a := by
  rw [State.viewByte_eq, State.viewByte_eq, State.l1For_congr hf, h1, hu]

@[simp] theorem State.cacheOf_fillL2 (s : State) (gal pa l1 : Nat) : (s.fillL2 gal pa).cacheOf l1 = s.cacheOf l1 := by
  unfold State.fillL2; extract_lets c x; split <;> rfl

@[simp] theorem State.fused_fillL2 (s : State) (gal pa : Nat) : (s.fillL2 gal pa).fused = s.fused := by
  unfold State.fillL2; extract_lets c x; split <;> rfl

/-- The sectors of the L2s after a fill. -/
theorem State.l2_fillL2 (s : State) (gal pa gal' pa' : Nat) :
    ((s.fillL2 gal pa).galleryCache gal').sector pa'
      = if gal' = gal ∧ pa' / 128 = pa / 128 ∧ ((s.galleryCache gal).sector pa).valid = false then
          ((s.galleryCache gal).sector pa).fill (fun i => s.mem.byte (pa / 128 * 128 + i))
            (s.mem.label (pa / 128 * 128 / 64)) (s.mem.label (pa / 128 * 128 / 64 + 1))
        else (s.galleryCache gal').sector pa' := by
  unfold State.fillL2
  extract_lets c x base y
  split
  next hv => rw [if_neg (by intro ⟨_, _, h⟩; exact Bool.false_ne_true (h.symm.trans hv))]
  next hv =>
    have hlook : (s.setGalleryCache gal (c.setSector pa y fun l => { l with mark := c.epoch })).galleryCache gal'
        = if gal' = gal then c.setSector pa y fun l => { l with mark := c.epoch } else s.galleryCache gal' :=
      Table.look_put ..
    rw [hlook]
    by_cases hg : gal' = gal
    · rw [if_pos hg, Cache.sector_setSector _ _ _ _ (fun l => { l with mark := c.epoch }) fun _ _ => rfl]
      by_cases hp : pa' / 128 = pa / 128
      · rw [if_pos hp, if_pos ⟨hg, hp, by simpa using hv⟩]
      · rw [if_neg hp, if_neg (by tauto), hg]
    · rw [if_neg hg, if_neg (by tauto)]

theorem State.underByte_fillL2 (s : State) (gal pa gal' a : Nat) :
    (s.fillL2 gal pa).underByte gal' a = s.underByte gal' a := by
  rw [State.underByte, State.l2_fillL2, State.fillL2_mem]
  split
  next h =>
    obtain ⟨rfl, hline, hv⟩ := h
    rw [Sector.see_fill hv _ _ _ (Nat.mod_lt _ (by decide)), State.underByte, Cache.sector_line _ hline,
      show pa / 128 * 128 + a % 128 = a by omega]
  next => rfl

theorem State.valid_fillL2 (s : State) (gal pa : Nat) : (((s.fillL2 gal pa).galleryCache gal).sector pa).valid = true := by
  rw [State.l2_fillL2]
  split
  · rfl
  next h => simpa using h

@[simp] theorem State.viewByte_fillL2 (s : State) (gal pa c a : Nat) : (s.fillL2 gal pa).viewByte c a = s.viewByte c a :=
  State.viewByte_of_sectors (s.fused_fillL2 gal pa) (fun l1 => by rw [State.cacheOf_fillL2]) (s.underByte_fillL2 ..)

theorem State.l1s_count (s : State) (c e n : Nat) : (s.count c e n).l1s = s.l1s := by unfold State.count; split <;> rfl
theorem State.l2s_count (s : State) (c e n : Nat) : (s.count c e n).l2s = s.l2s := by unfold State.count; split <;> rfl
theorem State.fused_count (s : State) (c e n : Nat) : (s.count c e n).fused = s.fused := by unfold State.count; split <;> rfl

theorem State.cacheOf_count (s : State) (c e n l1 : Nat) : (s.count c e n).cacheOf l1 = s.cacheOf l1 := by
  rw [State.cacheOf, State.l1s_count, State.cacheOf]
theorem State.galleryCache_count (s : State) (c e n g : Nat) : (s.count c e n).galleryCache g = s.galleryCache g := by
  rw [State.galleryCache, State.l2s_count, State.galleryCache]

@[simp] theorem State.viewByte_count (s : State) (k e n c a : Nat) : (s.count k e n).viewByte c a = s.viewByte c a :=
  State.viewByte_congr (s.l1s_count ..) (s.l2s_count ..) (s.fused_count ..) (s.count_mem ..) c a

@[simp] theorem State.fused_fillL1 (s : State) (c pa : Nat) : (s.fillL1 c pa).fused = s.fused := by
  unfold State.fillL1
  extract_lets l1 x s1 y c1
  split
  · rfl
  · rw [State.fused_count]; exact s.fused_fillL2 ..

/-- The L2 is filled where the L1's sector was absent. -/
theorem State.l2_fillL1 (s : State) (c pa gal : Nat) :
    (s.fillL1 c pa).galleryCache gal = if ((s.cacheOf (s.l1For c pa)).sector pa).valid then s.galleryCache gal
      else (s.fillL2 (galleryOf c) pa).galleryCache gal := by
  unfold State.fillL1
  extract_lets l1 x s1 y c1
  split
  · rfl
  · rw [State.galleryCache_count]; rfl

/-- The sectors of the L1s after a fill. -/
theorem State.l1_fillL1 (s : State) (c pa l1 pa' : Nat) :
    ((s.fillL1 c pa).cacheOf l1).sector pa'
      = if l1 = s.l1For c pa ∧ pa' / 128 = pa / 128 ∧ ((s.cacheOf (s.l1For c pa)).sector pa).valid = false then
          let y := ((s.fillL2 (galleryOf c) pa).galleryCache (galleryOf c)).sector pa
          ((s.cacheOf (s.l1For c pa)).sector pa).fill (fun i => y.data.getD i 0) y.lab0 y.lab1
        else (s.cacheOf l1).sector pa' := by
  unfold State.fillL1
  extract_lets k x s1 y c1 y'
  split
  next hv => rw [if_neg (by intro ⟨_, _, h⟩; exact Bool.false_ne_true (h.symm.trans hv))]
  next hv =>
    have hlook : (s1.setCacheOf k (c1.setSector pa (x.fill (fun i => y.data.getD i 0) y.lab0 y.lab1)
        fun l => { l with mark := c1.epoch })).cacheOf l1
        = if l1 = k then c1.setSector pa (x.fill (fun i => y.data.getD i 0) y.lab0 y.lab1)
            fun l => { l with mark := c1.epoch } else s1.cacheOf l1 := Table.look_put ..
    rw [State.cacheOf_count, hlook]
    by_cases hk : l1 = k
    · rw [if_pos hk, Cache.sector_setSector _ _ _ _ (fun l => { l with mark := c1.epoch }) fun _ _ => rfl]
      by_cases hp : pa' / 128 = pa / 128
      · rw [if_pos hp, if_pos ⟨hk, hp, by simpa using hv⟩]
      · rw [if_neg hp, if_neg (by tauto), show c1 = s.cacheOf k from s.cacheOf_fillL2 .., hk]
    · rw [if_neg hk, if_neg (by tauto), show s1.cacheOf l1 = s.cacheOf l1 from s.cacheOf_fillL2 ..]

theorem State.underByte_fillL1 (s : State) (c pa gal a : Nat) : (s.fillL1 c pa).underByte gal a = s.underByte gal a := by
  rw [State.underByte, State.l2_fillL1, State.fillL1_mem]
  split
  · rfl
  · rw [← State.underByte_fillL2 s (galleryOf c) pa, State.underByte, State.fillL2_mem]

@[simp] theorem State.viewByte_fillL1 (s : State) (c pa c' a : Nat) : (s.fillL1 c pa).viewByte c' a = s.viewByte c' a := by
  rw [State.viewByte_eq, State.viewByte_eq, State.l1For_congr (s.fused_fillL1 ..), State.l1_fillL1, State.underByte_fillL1]
  split
  next h =>
    obtain ⟨hk, hline, hv⟩ := h
    have hgal : galleryOf c' = galleryOf c := by
      rw [← s.galleryOf_l1For c' a, hk, s.galleryOf_l1For]
    have hunder : s.underByte (galleryOf c) a
        = (((s.fillL2 (galleryOf c) pa).galleryCache (galleryOf c)).sector pa).data.getD (a % 128) 0 := by
      rw [← s.underByte_fillL2 (galleryOf c) pa, State.underByte, Cache.sector_line _ hline,
        Sector.see_valid (s.valid_fillL2 ..)]
    rw [Sector.see_fill hv _ _ _ (Nat.mod_lt _ (by decide)), hk, hgal, Cache.sector_line _ hline, hunder]
  next => rfl

theorem State.valid_fillL1 (s : State) (c pa : Nat) :
    (((s.fillL1 c pa).cacheOf ((s.fillL1 c pa).l1For c pa)).sector pa).valid = true := by
  rw [State.l1For_congr (s.fused_fillL1 ..), State.l1_fillL1]
  split
  · rfl
  next h => simpa using h

/-- Keeping a translation leaves every sector. -/
theorem State.keep_sectors (s : State) (c va : Nat) (t : Translation) (l1 pa : Nat) :
    ((s.keep (.carrel c) va t).cacheOf l1).sector pa = (s.cacheOf l1).sector pa := by
  have hlook : (s.keep (.carrel c) va t).cacheOf l1 = if l1 = c then { s.cacheOf c with
      tlb := Table.put (s.cacheOf c).tlb (va / 65536) t } else s.cacheOf l1 := Table.look_put ..
  rw [hlook]
  split
  next h => rw [h]; rfl
  next => rfl

theorem State.keep_apart (s : State) (c va : Nat) (t : Translation) :
    (s.keep (.carrel c) va t).l2s = s.l2s ∧ (s.keep (.carrel c) va t).fused = s.fused
      ∧ (s.keep (.carrel c) va t).mem = s.mem := ⟨rfl, rfl, rfl⟩

theorem State.viewByte_keep (s : State) (k va : Nat) (t : Translation) (c a : Nat) :
    (s.keep (.carrel k) va t).viewByte c a = s.viewByte c a := by
  obtain ⟨hl2s, hfused, hmem⟩ := s.keep_apart k va t
  refine State.viewByte_of_sectors hfused (fun l1 => s.keep_sectors k va t l1 a) ?_
  rw [State.underByte, State.galleryCache, hl2s, hmem]; rfl

/-- What holds of every state that a carrel's keeping of translations leaves. -/
theorem State.keepAll_ind {P : State → Prop} (hkeep : ∀ u va t, P u → P (u.keep (.carrel u.gang.carrel) va t)) {s : State}
    (accs : List LaneAcc) (h : P s) : P (s.keepAll accs) := by
  unfold State.keepAll
  exact List.foldlRecOn accs _ h fun u hu a _ => List.foldlRecOn a.trans _ hu fun v hv t _ => hkeep v t.1 t.2 hv

@[simp] theorem State.viewByte_keepAll (s : State) (accs : List LaneAcc) (c a : Nat) :
    (s.keepAll accs).viewByte c a = s.viewByte c a :=
  State.keepAll_ind (P := fun u => u.viewByte c a = s.viewByte c a)
    (fun u _ _ hu => (u.viewByte_keep ..).trans hu) accs rfl

end Sys2Proof.Machine
end

section
namespace Sys2Proof.Machine
open Sys2Proof

/-! Two states that a carrel's accesses cannot tell apart: what translations, fills and counters leave. -/

/-- `u` differs from `s` in clean copies, translations and counters only: every byte and label that a carrel sees is the
same, and no copy has gone. -/
structure SameView (s u : State) : Prop where
  bare : u.bare = s.bare
  mem : u.mem = s.mem
  byte : ∀ c a, u.viewByte c a = s.viewByte c a
  label : ∀ c a, u.viewLabel c a = s.viewLabel c a
  carrel : ∀ k, (u.carrelOf k).uncounted = (s.carrelOf k).uncounted
  valid : ∀ l1 a, ((s.cacheOf l1).sector a).valid = true → ((u.cacheOf l1).sector a).valid = true

theorem SameView.refl (s : State) : SameView s s :=
  ⟨rfl, rfl, fun _ _ => rfl, fun _ _ => rfl, fun _ => rfl, fun _ _ h => h⟩

theorem SameView.trans {s u v : State} (h : SameView s u) (k : SameView u v) : SameView s v :=
  ⟨k.bare.trans h.bare, k.mem.trans h.mem, fun c a => (k.byte c a).trans (h.byte c a),
    fun c a => (k.label c a).trans (h.label c a), fun c => (k.carrel c).trans (h.carrel c),
    fun l1 a hv => k.valid l1 a (h.valid l1 a hv)⟩

theorem SameView.foldl {α : Type} {s : State} {f : State → α → State} (hf : ∀ u a, SameView u (f u a)) (xs : List α) :
    SameView s (xs.foldl f s) :=
  List.foldlRecOn xs f (SameView.refl s) fun u hu a _ => hu.trans (hf u a)

theorem SameView.gang {s u : State} (h : SameView s u) : u.gang = s.gang := State.gang_of_bare h.bare

theorem SameView.fused {s u : State} (h : SameView s u) : u.fused = s.fused := (congrArg State.fused h.bare :)

/-- The label that an L2 holds of a block, else memory's. -/
def State.underLabel (s : State) (gal pa : Nat) : Label :=
  let y := (s.galleryCache gal).sector pa
  if y.valid then (if pa / 64 % 2 = 0 then y.lab0 else y.lab1) else s.mem.label (pa / 64)

/-- A block's label as a sector and what is under it give it. -/
def Sector.seeLabel (x : Sector) (pa : Nat) (home under : Label) : Label :=
  if x.valid && !x.absent then (if pa / 64 % 2 = 0 then x.lab0 else x.lab1) else if x.valid then home else under

theorem State.viewLabel_eq (s : State) (c pa : Nat) : s.viewLabel c pa
    = ((s.cacheOf (s.l1For c pa)).sector pa).seeLabel pa (s.mem.label (pa / 64)) (s.underLabel (galleryOf c) pa) := rfl

theorem State.viewLabel_of_sectors {s t : State} {c a : Nat} (hf : t.fused = s.fused) (hm : t.mem = s.mem)
    (h1 : ∀ l1, (t.cacheOf l1).sector a = (s.cacheOf l1).sector a)
    (hu : t.underLabel (galleryOf c) a = s.underLabel (galleryOf c) a) : t.viewLabel c a = s.viewLabel c a := by
  rw [State.viewLabel_eq, State.viewLabel_eq, State.l1For_congr hf, h1, hu, hm]

theorem Sector.valid_fill (x : Sector) (bytes : Nat → Byte) (a b : Label) : (x.fill bytes a b).valid = true := rfl

theorem State.underLabel_fillL2 (s : State) (gal pa gal' a : Nat) :
    (s.fillL2 gal pa).underLabel gal' a = s.underLabel gal' a := by
  rw [State.underLabel, State.l2_fillL2, State.fillL2_mem]
  split
  next h =>
    obtain ⟨rfl, hline, hv⟩ := h
    rw [State.underLabel, Cache.sector_line _ hline, if_pos (Sector.valid_fill ..), hv,
      if_neg Bool.false_ne_true]
    change (if a / 64 % 2 = 0 then s.mem.label (pa / 128 * 128 / 64) else s.mem.label (pa / 128 * 128 / 64 + 1)) = _
    split
    · rw [show pa / 128 * 128 / 64 = a / 64 by omega]
    · rw [show pa / 128 * 128 / 64 + 1 = a / 64 by omega]
  next => rfl

theorem SameView.fillL2 (s : State) (gal pa : Nat) : SameView s (s.fillL2 gal pa) where
  bare := by unfold State.fillL2; extract_lets c x; split <;> rfl
  mem := s.fillL2_mem ..
  byte := s.viewByte_fillL2 gal pa
  label _ a := State.viewLabel_of_sectors (s.fused_fillL2 ..) (s.fillL2_mem ..) (fun l1 => by rw [State.cacheOf_fillL2])
    (s.underLabel_fillL2 ..)
  carrel _ := by unfold State.fillL2; extract_lets c x; split <;> rfl
  valid l1 a hv := by rw [State.cacheOf_fillL2]; exact hv

theorem SameView.count (s : State) (k e n : Nat) : SameView s (s.count k e n) where
  bare := s.bare_count ..
  mem := s.count_mem ..
  byte c a := s.viewByte_count ..
  label _ a := State.viewLabel_of_sectors (s.fused_count ..) (s.count_mem ..) (fun l1 => by rw [State.cacheOf_count])
    (by rw [State.underLabel, State.galleryCache_count, State.count_mem]; rfl)
  carrel c := s.uncounted_count ..
  valid l1 a hv := by rw [State.cacheOf_count]; exact hv

theorem SameView.keep (s : State) (k va : Nat) (t : Translation) : SameView s (s.keep (.carrel k) va t) where
  bare := s.bare_keep_carrel ..
  mem := rfl
  byte c a := s.viewByte_keep ..
  label _ a := State.viewLabel_of_sectors rfl rfl (fun l1 => s.keep_sectors k va t l1 a) rfl
  carrel c := rfl
  valid l1 a hv := by rw [State.keep_sectors]; exact hv

theorem SameView.keepAll (s : State) (accs : List LaneAcc) : SameView s (s.keepAll accs) :=
  State.keepAll_ind (P := SameView s) (fun u _ _ hu => hu.trans (SameView.keep u ..)) accs (SameView.refl s)

theorem State.underLabel_fillL1 (s : State) (c pa gal a : Nat) : (s.fillL1 c pa).underLabel gal a = s.underLabel gal a := by
  rw [State.underLabel, State.l2_fillL1, State.fillL1_mem]
  split
  · rfl
  · rw [← State.underLabel_fillL2 s (galleryOf c) pa, State.underLabel, State.fillL2_mem]

theorem State.viewLabel_fillL1 (s : State) (c pa c' a : Nat) : (s.fillL1 c pa).viewLabel c' a = s.viewLabel c' a := by
  rw [State.viewLabel_eq, State.viewLabel_eq, State.l1For_congr (s.fused_fillL1 ..), State.l1_fillL1,
    State.underLabel_fillL1, State.fillL1_mem]
  split
  next h =>
    obtain ⟨hk, hline, hv⟩ := h
    have hgal : galleryOf c' = galleryOf c := by rw [← s.galleryOf_l1For c' a, hk, s.galleryOf_l1For]
    have hunder : s.underLabel (galleryOf c) a = if a / 64 % 2 = 0 then
          (((s.fillL2 (galleryOf c) pa).galleryCache (galleryOf c)).sector pa).lab0
        else (((s.fillL2 (galleryOf c) pa).galleryCache (galleryOf c)).sector pa).lab1 := by
      rw [← s.underLabel_fillL2 (galleryOf c) pa, State.underLabel, Cache.sector_line _ hline, if_pos (s.valid_fillL2 ..)]
    rw [hk, hgal, Cache.sector_line _ hline, hunder, Sector.seeLabel, Sector.seeLabel, hv]
    rfl
  next => rfl

theorem SameView.fillL1 (s : State) (k pa : Nat) : SameView s (s.fillL1 k pa) where
  bare := by
    unfold State.fillL1
    extract_lets l1 x s1 y c
    split
    · rfl
    · rw [State.bare_count]; exact (SameView.fillL2 s (galleryOf k) pa).bare
  mem := s.fillL1_mem ..
  byte c a := s.viewByte_fillL1 ..
  label c a := s.viewLabel_fillL1 ..
  carrel c := by
    unfold State.fillL1
    extract_lets l1 x s1 y c'
    split
    · rfl
    · rw [State.uncounted_count]; exact (SameView.fillL2 s (galleryOf k) pa).carrel c
  valid l1 a hv := by
    rw [State.l1_fillL1]
    split
    · rfl
    · exact hv

theorem SameView.fillConst (s : State) (k code sec : Nat) : SameView s (s.fillConst k code sec) := by
  unfold State.fillConst
  extract_lets c
  split
  · exact SameView.refl s
  · refine SameView.trans ?_ (SameView.count ..)
    have hsector (l1 a : Nat) : ((s.setCacheOf k { c with consts := c.consts ++ [(code, sec)] }).cacheOf l1).sector a
        = (s.cacheOf l1).sector a := by
      have hlook : (s.setCacheOf k { c with consts := c.consts ++ [(code, sec)] }).cacheOf l1
          = if l1 = k then { c with consts := c.consts ++ [(code, sec)] } else s.cacheOf l1 := Table.look_put ..
      rw [hlook]
      split
      next h => rw [h]; rfl
      next => rfl
    exact ⟨rfl, rfl, fun _ a => State.viewByte_of_sectors rfl (fun l1 => hsector l1 a) rfl,
      fun _ a => State.viewLabel_of_sectors rfl rfl (fun l1 => hsector l1 a) rfl, fun _ => rfl,
      fun l1 a hv => by rw [hsector]; exact hv⟩

theorem SameView.fillFor (s : State) (stream : Bool) (pa : Nat) : SameView s (s.fillFor stream pa) := by
  unfold State.fillFor
  extract_lets c x
  split
  · exact SameView.fillL2 ..
  · exact SameView.fillL1 ..

theorem SameView.fillAll (s : State) (spc : Space) (stream : Bool) (accs : List LaneAcc) :
    SameView s (s.fillAll spc stream accs) := by
  unfold State.fillAll
  extract_lets g
  split
  · exact SameView.foldl (f := fun (u : State) (p : Piece) => u.fillFor stream p.pa) (fun u p => SameView.fillFor u ..) _
  · split
    · exact SameView.foldl (f := fun (u : State) (p : Piece) => u.fillConst g.carrel g.code (p.pa / 128))
        (fun u p => SameView.fillConst u ..) _
    · exact SameView.refl s

theorem SameView.view {s u : State} (h : SameView s u) (c pa n : Nat) : u.view c pa n = s.view c pa n :=
  List.map_congr_left fun i _ => h.byte c (pa + i)

/-- A carrel reads the same in both. -/
theorem SameView.readAcc {s u : State} (h : SameView s u) (spc : Space) (a : LaneAcc) : u.readAcc spc a = s.readAcc spc a := by
  have hsp : (u.carrelOf s.gang.carrel).sp = (s.carrelOf s.gang.carrel).sp := (congrArg Carrel.sp (h.carrel _) :)
  have hloft : (u.carrelOf s.gang.carrel).loft = (s.carrelOf s.gang.carrel).loft := (congrArg Carrel.loft (h.carrel _) :)
  have hframes : u.ctx.frames = s.ctx.frames := (congrArg (fun v : State => v.ctx.frames) h.bare :)
  have hcodes : u.ctx.codes = s.ctx.codes := (congrArg (fun v : State => v.ctx.codes) h.bare :)
  unfold State.readAcc
  refine congrArg (a.pieces.flatMap ·) (funext fun p => ?_)
  cases spc with
  | gm => rw [State.readPiece, h.gang, h.view]; rfl
  | cl => rw [State.readPiece, h.gang, h.view]; rfl
  | sp => rw [State.readPiece, h.gang, hsp]; rfl
  | lf => rw [State.readPiece, h.gang, hloft]; rfl
  | fr => rw [State.readPiece, h.gang, State.frameOf, hframes]; rfl
  | cn => rw [State.readPiece, h.gang, State.consts, hcodes]; rfl

end Sys2Proof.Machine
end

section
namespace Sys2Proof.Machine
open Sys2Proof

/-! What the checks of all lanes find (R334). -/

/-- Where the checks pass, the accesses are those of the lanes in order. -/
theorem resolveAll_lanes {m : Mask} {f : Nat → Except LaneErr LaneAcc} {accs : List LaneAcc} (h : resolveAll m f = .ok accs)
    (hlane : ∀ l a, f l = .ok a → a.lane = l) : accs.map (·.lane) = m.lanes := by
  have hall (l : Nat) (hl : l ∈ m.lanes) : ∃ a, f l = .ok a := by
    obtain ⟨a, -, ha⟩ := resolveAll_ok h l hl
    exact ⟨a, ha⟩
  unfold resolveAll at h
  extract_lets rs errs at h
  split at h
  next =>
    obtain rfl := (Except.ok.inj h).symm
    generalize hls : m.lanes = ls at hall
    have hmap : rs = ls.map fun l => (l, f l) := by rw [← hls]
    rw [hmap]
    clear * - hall hlane
    induction ls with
    | nil => rfl
    | cons l ls ih =>
      obtain ⟨a, ha⟩ := hall l List.mem_cons_self
      have hrest := ih fun k hk => hall k (List.mem_cons_of_mem _ hk)
      rw [List.map_cons, List.filterMap_cons, ha]
      exact congrArg₂ List.cons (hlane l a ha) hrest
  next => cases h

/-- Every access is that of an acting lane. -/
theorem resolveAll_mem {m : Mask} {f : Nat → Except LaneErr LaneAcc} {accs : List LaneAcc} (h : resolveAll m f = .ok accs)
    {a : LaneAcc} (ha : a ∈ accs) : ∃ l ∈ m.lanes, f l = .ok a := by
  unfold resolveAll at h
  extract_lets rs errs at h
  split at h
  next =>
    obtain rfl := (Except.ok.inj h).symm
    obtain ⟨r, hr, hra⟩ := List.mem_filterMap.1 ha
    obtain ⟨l, hl, rfl⟩ := List.mem_map.1 hr
    refine ⟨l, hl, ?_⟩
    cases hf : f l with
    | ok b => rw [hf] at hra; exact congrArg Except.ok (Option.some.inj hra)
    | error e => rw [hf] at hra; cases hra
  next => cases h

/-- The access of a lane names it. -/
theorem resolveLane_lane {s : State} {spc : Space} {n l a : Nat} {need : Need} {fits : Bool} {acc : LaneAcc}
    (h : resolveLane s spc n need fits l a = .ok acc) : acc.lane = l := by
  unfold resolveLane at h
  extract_lets g own gm top va at h
  have hown (limit : Nat) (bad : List Nat) : own limit bad = .ok acc → acc.lane = l := by
    intro h
    simp only [own] at h
    split_ifs at h
    cases h; rfl
  clear_value own gm
  cases spc with
  | gm =>
    dsimp only at h
    split_ifs at h
    split at h <;> cases h
    rfl
  | sp => exact hown _ _ h
  | lf => exact hown _ _ h
  | fr =>
    dsimp only at h
    split_ifs at h
    exact hown _ _ h
  | cn => exact hown _ _ h
  | cl =>
    dsimp only at h
    split_ifs at h
    · split at h
      · cases h
      · split at h <;> cases h
        rfl
    · split at h <;> cases h
      rfl

theorem Mask.lanes_nodup (m : Mask) : m.lanes.Nodup := List.Nodup.filter _ List.nodup_range

/-- The first access of a lane is its only one. -/
theorem find?_lane {accs : List LaneAcc} (hnodup : (accs.map (·.lane)).Nodup) {a : LaneAcc} (ha : a ∈ accs) :
    (accs.find? fun b => b.lane = a.lane) = some a := by
  induction accs with
  | nil => cases ha
  | cons b accs ih =>
    rw [List.map_cons, List.nodup_cons] at hnodup
    obtain ⟨hb, hrest⟩ := hnodup
    rcases List.mem_cons.1 ha with rfl | ha
    · exact List.find?_cons_of_pos (p := fun b : LaneAcc => decide (b.lane = a.lane)) (decide_eq_true rfl)
    · rw [List.find?_cons_of_neg (by
        rw [decide_eq_true_eq]; exact fun heq => hb (heq ▸ List.mem_map_of_mem ha))]
      exact ih hrest ha

section
variable {s : State} {x : MFmt} {spc : Space} {n : Nat} {need : Need} {m : Mask} {accs : List LaneAcc}
  (h : s.passes x spc n need m accs)
include h

theorem State.passes_lanes : accs.map (·.lane) = m.lanes := resolveAll_lanes h fun _ _ hl => resolveLane_lane hl

theorem State.passes_find {a : LaneAcc} (ha : a ∈ accs) : (accs.find? fun b => b.lane = a.lane) = some a :=
  find?_lane (by rw [State.passes_lanes h]; exact Mask.lanes_nodup m) ha

theorem State.passes_lane_lt {a : LaneAcc} (ha : a ∈ accs) : a.lane < 32 := by
  have hmem : a.lane ∈ m.lanes := by rw [← State.passes_lanes h]; exact List.mem_map_of_mem ha
  exact BitVec.lt_of_getLsbD (Mask.mem_lanes.1 hmem)

end

/-! Untraced accesses leave no record (R54). -/

theorem traceReads_untraced {s : State} {g : Gang} (h : ∀ l, s.traced (g.task l) = false) (gs : List (Nat × Nat)) :
    traceReads s g gs = .ok s := by
  cases gs with
  | nil => rfl
  | cons e gs =>
    rw [traceReads, h]
    rfl

theorem traceWrites_untraced {s : State} {g : Gang} (h : ∀ l, s.traced (g.task l) = false) (gs : List (Nat × Nat)) :
    traceWrites s g gs = .ok s := by
  cases gs with
  | nil => rfl
  | cons e gs =>
    rw [traceWrites, h]
    rfl

theorem traceCompare_untraced {s : State} {g : Gang} (h : ∀ l, s.traced (g.task l) = false)
    (old new : List (Nat × Nat × List Byte)) : traceCompare s g old new = s := by
  unfold traceCompare
  refine List.foldlRecOn (old.zip new) _ (motive := (· = s)) rfl fun u hu e _ => ?_
  dsimp only
  rw [hu, h]
  rfl

/-! Results in flight (R17, R93). -/

/-- What a launch leaves as it is: all of the gang but empty bits, producers and results in flight. -/
def Gang.offLaunch (g : Gang) : Gang := { g with
  we := Vector.replicate 256 0, wo := Vector.replicate 256 0, se := 0, flights := [] }

theorem Gang.offLaunch_markEmpty (g : Gang) (m : Mask) (o : Operand) (wide : Bool) :
    (g.markEmpty m o wide).offLaunch = g.offLaunch := by
  cases o with
  | w i => cases wide <;> rfl
  | _ => rfl

theorem Gang.flights_markEmpty (g : Gang) (m : Mask) (o : Operand) (wide : Bool) :
    (g.markEmpty m o wide).flights = g.flights := by
  cases o with
  | w i => cases wide <;> rfl
  | _ => rfl

theorem Gang.offLaunch_launch (g : Gang) (f : Flight) : (g.launch f).offLaunch = g.offLaunch := by
  have hmark (ks : List Nat) (i : BitVec 8) : (ks.foldl (fun (g : Gang) k =>
      g.markEmpty f.mask (.w (i + BitVec.ofNat 8 k)) false) g).offLaunch = g.offLaunch :=
    foldl_keeps Gang.offLaunch (fun (g : Gang) k => g.markEmpty f.mask (.w (i + BitVec.ofNat 8 k)) false)
      (fun _ _ => Gang.offLaunch_markEmpty ..) ks g
  unfold Gang.launch
  cases f.dst with
  | w i => exact hmark ..
  | _ => exact Gang.offLaunch_markEmpty ..

theorem Gang.flights_launch (g : Gang) (f : Flight) : (g.launch f).flights = g.flights ++ [f] := by
  have hmark (ks : List Nat) (i : BitVec 8) : (ks.foldl (fun (g : Gang) k =>
      g.markEmpty f.mask (.w (i + BitVec.ofNat 8 k)) false) g).flights = g.flights :=
    foldl_keeps Gang.flights (fun (g : Gang) k => g.markEmpty f.mask (.w (i + BitVec.ofNat 8 k)) false)
      (fun _ _ => Gang.flights_markEmpty ..) ks g
  unfold Gang.launch
  cases f.dst with
  | w i => exact congrArg (· ++ [f]) (hmark ..)
  | _ => exact congrArg (· ++ [f]) (Gang.flights_markEmpty ..)

/-- Marking one w register empty in the lanes m leaves no lane of another less empty. -/
theorem Gang.wEmpty_markEmpty_w (g : Gang) (m : Mask) (i j : BitVec 8) :
    (g.markEmpty m (.w i) false).wEmpty j = if j = i then g.wEmpty i ||| m else g.wEmpty j := by
  change (g.we.set i.toNat (g.wEmpty i ||| m))[j.toNat] = _
  rw [Vector.getElem_set]
  by_cases h : j = i
  · rw [if_pos h, if_pos (congrArg BitVec.toNat h.symm)]
  · rw [if_neg h, if_neg fun heq => h (BitVec.eq_of_toNat_eq heq.symm)]
    rfl

theorem Mask.or_and_self (k m : Mask) : (k ||| m) &&& m = m := by
  refine BitVec.eq_of_getLsbD_eq fun i _ => ?_
  rw [BitVec.getLsbD_and, BitVec.getLsbD_or]
  cases m.getLsbD i <;> simp

theorem Gang.wEmpty_markEmpty_mono {g : Gang} {m : Mask} {i j : BitVec 8} (h : g.wEmpty j &&& m = m) :
    (g.markEmpty m (.w i) false).wEmpty j &&& m = m := by
  rw [Gang.wEmpty_markEmpty_w]
  split
  · exact Mask.or_and_self ..
  · exact h

/-- The w registers of a result in flight are empty in its lanes (R17). -/
theorem Gang.wEmpty_launch (g : Gang) {f : Flight} {i : BitVec 8} (hd : f.dst = .w i) {k : Nat} (hk : k < f.vals.length) :
    (g.launch f).wEmpty (i + BitVec.ofNat 8 k) &&& f.mask = f.mask := by
  have hmark (ks : List Nat) (g : Gang) (h : k ∈ ks ∨ g.wEmpty (i + BitVec.ofNat 8 k) &&& f.mask = f.mask) :
      (ks.foldl (fun (g : Gang) k => g.markEmpty f.mask (.w (i + BitVec.ofNat 8 k)) false) g).wEmpty
        (i + BitVec.ofNat 8 k) &&& f.mask = f.mask := by
    induction ks generalizing g with
    | nil => exact h.resolve_left List.not_mem_nil
    | cons j ks ih =>
      refine ih _ ?_
      rcases h with h | h
      · rcases List.mem_cons.1 h with rfl | h
        · refine .inr ?_
          rw [Gang.wEmpty_markEmpty_w, if_pos rfl]
          exact Mask.or_and_self ..
        · exact .inl h
      · exact .inr (Gang.wEmpty_markEmpty_mono h)
  unfold Gang.launch
  rw [hd]
  exact hmark _ g (.inl (List.mem_range.2 hk))

theorem flightLanes_at {n k l : Nat} (f : Nat → Nat → Word) (hk : k < n) (hl : l < 32) :
    ((flightLanes n f).getD k (Lanes.all 0)).at l = f k l := by
  rw [flightLanes, List.getD_eq_getElem?_getD, List.getElem?_map, List.getElem?_range hk]
  exact (vectorGetD_lt _ hl 0).trans (Vector.getElem_ofFn ..)

end Sys2Proof.Machine
end

section
namespace Sys2Proof.Machine
open Sys2Proof

/-! LD and LDV (R335, R337). -/

/-- The state in which an untraced load reads its bytes: translations kept, sectors filled and counted (R123, R138). -/
def State.loadReady (s : State) (x : MFmt) (spc : Space) (accs : List LaneAcc) : State :=
  let s2 := (s.keepAll accs).fillAll spc (x.hint.toNat = 1) accs
  if countedSpace spc then s2.count s.gang.carrel 4 (sectorCount spc accs) else s2

theorem State.loadReady_sees (s : State) (x : MFmt) (spc : Space) (accs : List LaneAcc) :
    SameView s (s.loadReady x spc accs) := by
  have hfilled : SameView s ((s.keepAll accs).fillAll spc (x.hint.toNat = 1) accs) :=
    (SameView.keepAll s accs).trans (SameView.fillAll ..)
  unfold State.loadReady
  extract_lets s2
  split
  · exact hfilled.trans (SameView.count ..)
  · exact hfilled

/-- The bytes of a lane in that state. -/
def State.laneBytes (s : State) (spc : Space) (accs : List LaneAcc) (l : Nat) : List Byte :=
  match accs.find? fun a => a.lane = l with
  | some a => s.readAcc spc a
  | none => []

theorem State.laneBytes_of_passes {s : State} {x : MFmt} {spc : Space} {n : Nat} {need : Need} {m : Mask}
    {accs : List LaneAcc} (u : State) (h : s.passes x spc n need m accs) {a : LaneAcc} (ha : a ∈ accs) :
    u.laneBytes spc accs a.lane = u.readAcc spc a := by
  unfold State.laneBytes
  rw [State.passes_find h ha]

/-- The result in flight of a load of n bytes a lane, whose bytes `u` gives. -/
def State.loadFlight (s u : State) (x : MFmt) (spc : Space) (n : Nat) (m : Mask) (accs : List LaneAcc) : Flight :=
  { dst := x.hdr.d, mask := m, sval := 0, replay := false, pc := s.pc, younger := s.gang.younger,
    cycle := s.cycleOf s.gang.carrel,
    vals := flightLanes ((n + 3) / 4) (fun k l => loadWords (u.laneBytes spc accs l) x.ext k),
    req := .load spc n x.ext (accs.map fun a => (a.lane, (a.pieces.map (·.va)).headD 0)) }

theorem State.loadFlight_at (s u : State) (x : MFmt) (spc : Space) {n k l : Nat} (m : Mask) (accs : List LaneAcc)
    (hk : k < (n + 3) / 4) (hl : l < 32) : ((s.loadFlight u x spc n m accs).vals.getD k (Lanes.all 0)).at l
      = loadWords (u.laneBytes spc accs l) x.ext k :=
  flightLanes_at (fun k l => loadWords (u.laneBytes spc accs l) x.ext k) hk hl

theorem loadAct_untraced {s : State} {x : MFmt} {spc : Space} {n : Nat} {m : Mask} {accs : List LaneAcc}
    (ht : ∀ l, s.traced (s.gang.task l) = false) (hr : s.gang.path.reread = false)
    (h : s.passes x spc n Need.load m accs) :
    loadAct s x spc n m = .next (((s.loadReady x spc accs).modGang fun g =>
      g.launch (s.loadFlight (s.loadReady x spc accs) x spc n m accs)).advance x.hdr) := by
  unfold loadAct
  extract_lets g
  rw [show resolveAll m _ = .ok accs from h]
  dsimp only
  rw [traceReads_untraced ht]
  dsimp only
  rw [hr, if_neg Bool.false_ne_true]
  rfl

theorem flights_advance (s : State) (h : Header) : (s.advance h).gang.flights = s.gang.flights :=
  (congrArg Gang.flights (s.offIssue_advance h) :)

theorem wEmpty_advance (s : State) (h : Header) (i : BitVec 8) : (s.advance h).gang.wEmpty i = s.gang.wEmpty i :=
  (congrArg (fun g : Gang => g.wEmpty i) (s.offIssue_advance h) :)

/-- A load goes on, with its result in flight. -/
theorem loadAct_loads {s : State} {x : MFmt} {spc : Space} {n : Nat} {m : Mask} {accs : List LaneAcc}
    (ht : ∀ l, s.traced (s.gang.task l) = false) (hr : s.gang.path.reread = false)
    (h : s.passes x spc n Need.load m accs) : ∃ t, loadAct s x spc n m = .next t ∧ loaded s t x spc n m accs := by
  have hsees := s.loadReady_sees x spc accs
  have hbare := hsees.bare
  have hoff : ((s.loadReady x spc accs).gang.launch (s.loadFlight (s.loadReady x spc accs) x spc n m accs)).offLaunch
      = s.gang.offLaunch := by rw [Gang.offLaunch_launch, hsees.gang]
  have hgang : ((s.loadReady x spc accs).modGang fun g =>
      g.launch (s.loadFlight (s.loadReady x spc accs) x spc n m accs)).gang
        = (s.loadReady x spc accs).gang.launch (s.loadFlight (s.loadReady x spc accs) x spc n m accs) :=
    State.modGang_gang ..
  have hstand : ((s.loadReady x spc accs).modGang fun g =>
      g.launch (s.loadFlight (s.loadReady x spc accs) x spc n m accs)).stand = s.stand := by
    rw [State.stand, hgang]
    exact (congrArg (fun g : Gang => (g.path, g.split)) hoff :)
  refine ⟨_, loadAct_untraced ht hr h, wentOn_advance x.hdr ?_ ?_ ?_ ?_ ?_ hstand, fun i hd k hk => ?_, ?_⟩
  · exact (State.clock_of_bare hbare :)
  · exact (congrArg State.cur hbare :)
  · exact (congrArg State.halt hbare :)
  · exact (congrArg State.faults hbare :)
  · exact hsees.mem
  · rw [wEmpty_advance, hgang]
    refine Gang.wEmpty_launch _ (f := s.loadFlight (s.loadReady x spc accs) x spc n m accs) hd ?_
    exact (List.length_map ..).trans List.length_range ▸ hk
  · refine ⟨s.loadFlight (s.loadReady x spc accs) x spc n m accs, ?_, rfl, rfl, rfl,
      (List.length_map ..).trans List.length_range, fun a ha k hk => ?_⟩
    · rw [flights_advance, hgang, Gang.flights_launch, List.getLast?_concat]
    · refine (State.loadFlight_at s _ x spc m accs hk (State.passes_lane_lt h ha)).trans ?_
      exact congrArg (fun bs => loadWords bs x.ext k) ((State.laneBytes_of_passes _ h ha).trans (hsees.readAcc spc a))

theorem execLd_issues {x : MFmt} {s : State} {m : Mask} {spc : Space} (hspc : Space.ofBits x.space = some spc)
    (hi : s.issues x.hdr .lane (x.width.toNat ≤ 3 && mFieldsOk s.gang x spc && x.data == .absent
      && (!x.ext || mWidth x.width < 4) && (spc != .cl || 4 ≤ mWidth x.width) && (match x.hdr.d with
        | .w i => wOk s.gang (mWidth x.width = 8) i
        | .q _ => s.gang.isShadow && mWidth x.width ≤ 4
        | _ => false)) [(x.hdr.d, mWidth x.width = 8)] (mSrcs x (readsBase spc) false) m) :
    exec (.ld x) s = loadAct s x spc (mWidth x.width) m := by
  change execLd x s = _
  unfold execLd
  simp only [hspc, Option.getD_some, Option.isSome_some, Bool.true_and]
  exact issue_of_issues _ hi

theorem execLdv_issues {x : MFmt} {s : State} {m : Mask} {spc : Space} {i : BitVec 8}
    (hspc : Space.ofBits x.space = some spc) (hd : x.hdr.d = .w i)
    (hi : s.issues x.hdr .lane (spc != .cl && x.width.toNat = 4 && mFieldsOk s.gang x spc && x.data == .absent && !x.ext
      && quadOk s.gang x.hdr.d) [(x.hdr.d, true), (.w (i + 2), true)] (mSrcs x (readsBase spc) false) m) :
    exec (.ldv x) s = loadAct s x spc 16 m := by
  change execLdv x s = _
  unfold execLdv
  simp only [hspc, Option.getD_some, Option.isSome_some, Bool.true_and]
  simp only [hd] at hi ⊢
  exact issue_of_issues _ hi

end Sys2Proof.Machine

open Sys2Proof Sys2Proof.Machine

/-- Settles O31: an untraced LD or LDV reads its bytes in a state that shows a carrel what the one before showed it. -/
theorem loadResult : Obligations.LoadResult := by
  intro x s m accs spc hspc ht hr
  refine ⟨fun hi hpass => ?_, fun i hd hi hpass => ?_⟩
  · rw [execLd_issues hspc hi]
    exact loadAct_loads ht hr hpass
  · rw [execLdv_issues hspc hd hi]
    exact loadAct_loads ht hr hpass
end

section
namespace Sys2Proof.Machine
open Sys2Proof

/-! The last byte that a run of writes leaves at an address. -/

theorem lastWritten_cons (e : Nat × Byte) (ws : List (Nat × Byte)) (a : Nat) (before : Byte) :
    lastWritten (e :: ws) a before = lastWritten ws a (if e.1 = a then e.2 else before) := by
  unfold lastWritten
  rw [List.reverse_cons, List.find?_append]
  cases ws.reverse.find? fun e => e.1 = a with
  | some x => rfl
  | none =>
    by_cases h : e.1 = a
    · simp [h]
    · simp [h]

theorem lastWritten_nil (a : Nat) (before : Byte) : lastWritten [] a before = before := rfl

theorem lastWritten_append (ws vs : List (Nat × Byte)) (a : Nat) (before : Byte) :
    lastWritten (ws ++ vs) a before = lastWritten vs a (lastWritten ws a before) := by
  induction ws generalizing before with
  | nil => rfl
  | cons e ws ih => rw [List.cons_append, lastWritten_cons, lastWritten_cons, ih]

/-- Writes elsewhere leave the byte. -/
theorem lastWritten_of_none {ws : List (Nat × Byte)} {a : Nat} (h : ∀ e ∈ ws, e.1 ≠ a) (before : Byte) :
    lastWritten ws a before = before := by
  induction ws generalizing before with
  | nil => rfl
  | cons e ws ih =>
    rw [lastWritten_cons, if_neg (h e List.mem_cons_self), ih fun e he => h e (List.mem_cons_of_mem _ he)]

/-- Of an address that is written, nothing stays. -/
theorem lastWritten_of_some {ws : List (Nat × Byte)} {a : Nat} (h : ∃ e ∈ ws, e.1 = a) (b b' : Byte) :
    lastWritten ws a b = lastWritten ws a b' := by
  induction ws generalizing b b' with
  | nil => obtain ⟨e, he, -⟩ := h; cases he
  | cons e ws ih =>
    rw [lastWritten_cons, lastWritten_cons]
    by_cases hrest : ∃ x ∈ ws, x.1 = a
    · exact ih hrest ..
    · obtain ⟨x, hx, hxa⟩ := h
      rcases List.mem_cons.1 hx with rfl | hx
      · rw [if_pos hxa, if_pos hxa]
      · exact absurd ⟨x, hx, hxa⟩ hrest

theorem lastWritten_idem (ws : List (Nat × Byte)) (a : Nat) (b : Byte) :
    lastWritten ws a (lastWritten ws a b) = lastWritten ws a b := by
  by_cases h : ∃ e ∈ ws, e.1 = a
  · exact lastWritten_of_some h ..
  · exact lastWritten_of_none (fun e he hea => h ⟨e, he, hea⟩) _

/-- What a run of writes leaves in one sector. -/
theorem lastWritten_sector (ws : List (Nat × Byte)) (a : Nat) (b : Byte) :
    lastWritten ((ws.filter fun e => e.1 / 128 = a / 128).map fun e => (e.1 % 128, e.2)) (a % 128) b
      = lastWritten ws a b := by
  induction ws generalizing b with
  | nil => rfl
  | cons e ws ih =>
    rw [lastWritten_cons]
    by_cases h : e.1 / 128 = a / 128
    · rw [List.filter_cons, if_pos (decide_eq_true h), List.map_cons, lastWritten_cons, ih]
      by_cases he : e.1 = a
      · rw [if_pos he, if_pos (congrArg (· % 128) he)]
      · rw [if_neg he, if_neg (by dsimp only; omega)]
    · rw [List.filter_cons, if_neg (by rwa [decide_eq_true_eq]), ih, if_neg fun he => h (congrArg (· / 128) he)]

/-! A store into a sector (R123). -/

theorem Sector.see_cons (x : Sector) (i : Nat) (b : Byte) {j : Nat} (hj : j < 128) (u : Byte) :
    ({ x with dirty := true, mask := x.mask ||| BitVec.ofNat 128 (2 ^ i), data := x.data.setIfInBounds i b } : Sector).see
      j u = if i = j then b else x.see j u := by
  have hbit : (BitVec.ofNat 128 (2 ^ i)).getLsbD j = decide (i = j) := by
    rw [BitVec.getLsbD_ofNat, Nat.testBit_two_pow, decide_eq_true hj, Bool.true_and]
  by_cases h : i = j
  · subst h
    rw [if_pos rfl, Sector.see_masked (by rw [BitVec.getLsbD_or, hbit, decide_eq_true rfl, Bool.or_true]),
      vectorGetD_lt _ hj]
    exact Vector.getElem_setIfInBounds_self ..
  · rw [if_neg h, Sector.see, Sector.see, BitVec.getLsbD_or, hbit, decide_eq_false h, Bool.or_false, vectorGetD_lt _ hj,
      vectorGetD_lt _ hj, Vector.getElem_setIfInBounds_ne _ h]

theorem Sector.see_put (ws : List (Nat × Byte)) (x : Sector) {j : Nat} (hj : j < 128) (u : Byte) :
    (x.put ws).see j u = lastWritten ws j (x.see j u) := by
  induction ws generalizing x with
  | nil => rfl
  | cons e ws ih => rw [Sector.put, ih, Sector.see_cons _ _ _ hj, lastWritten_cons]

/-- What a carrel sees after a sector of the L1 that serves an address has been replaced. -/
theorem State.viewByte_setSector {s : State} {c pa l1 : Nat} (x : Sector) (f : Line → Line)
    (hf : ∀ l i, (f l).sector i = l.sector i) (hl1 : l1 = s.l1For c pa) (a : Nat) :
    (s.setCacheOf l1 ((s.cacheOf l1).setSector pa x f)).viewByte c a
      = if a / 128 = pa / 128 then x.see (a % 128) (s.underByte (galleryOf c) a) else s.viewByte c a := by
  have hlook (k : Nat) : (s.setCacheOf l1 ((s.cacheOf l1).setSector pa x f)).cacheOf k
      = if k = l1 then (s.cacheOf l1).setSector pa x f else s.cacheOf k := Table.look_put ..
  have hslice : (s.setCacheOf l1 ((s.cacheOf l1).setSector pa x f)).l1For c a = s.l1For c a := rfl
  have hunder : (s.setCacheOf l1 ((s.cacheOf l1).setSector pa x f)).underByte (galleryOf c) a
      = s.underByte (galleryOf c) a := rfl
  rw [State.viewByte_eq, hslice, hunder, hlook]
  by_cases hline : a / 128 = pa / 128
  · rw [if_pos hline, if_pos ((s.l1For_line c hline).trans hl1.symm), Cache.sector_setSector _ _ _ _ _ hf, if_pos hline]
  · rw [if_neg hline, State.viewByte_eq]
    by_cases hk : s.l1For c a = l1
    · rw [if_pos hk, Cache.sector_setSector _ _ _ _ _ hf, if_neg hline, hk]
    · rw [if_neg hk]

theorem State.underByte_intoL2 (s : State) (gal base : Nat) (who : BitVec 4) (ws : List (Nat × Byte)) (a : Nat) :
    (s.intoL2 gal base who ws).underByte gal a
      = if a / 128 = base / 128 then lastWritten ws (a % 128) (s.underByte gal a) else s.underByte gal a := by
  unfold State.intoL2
  cases ws with
  | nil => rw [lastWritten_nil, ite_self]; rfl
  | cons e ws =>
    rw [if_neg (by rw [List.isEmpty_cons]; exact Bool.false_ne_true)]
    extract_lets c
    have hlook : (s.setGalleryCache gal (c.setSector base ((c.sector base).put (e :: ws))
        fun l => { l with writers := l.writers ||| who })).galleryCache gal
          = c.setSector base ((c.sector base).put (e :: ws)) fun l => { l with writers := l.writers ||| who } :=
      (Table.look_put ..).trans (if_pos rfl)
    rw [State.underByte, hlook, Cache.sector_setSector _ _ _ _ (fun l => { l with writers := l.writers ||| who })
      fun _ _ => rfl]
    by_cases hline : a / 128 = base / 128
    · rw [if_pos hline, if_pos hline, Sector.see_put _ _ (Nat.mod_lt _ (by decide)), ← Cache.sector_line c hline]
      rfl
    · rw [if_neg hline, if_neg hline]
      rfl

theorem State.cacheOf_intoL2 (s : State) (gal base : Nat) (who : BitVec 4) (ws : List (Nat × Byte)) (l1 : Nat) :
    (s.intoL2 gal base who ws).cacheOf l1 = s.cacheOf l1 := by
  rw [State.cacheOf, State.l1s_intoL2, State.cacheOf]

theorem State.fused_intoL2 (s : State) (gal base : Nat) (who : BitVec 4) (ws : List (Nat × Byte)) :
    (s.intoL2 gal base who ws).fused = s.fused := (congrArg State.fused (s.bare_intoL2 gal base who ws) :)

/-- The stores of one word to a sector are what the carrel sees there (R123). -/
theorem State.viewByte_storeSector (s : State) (c : Nat) (how : StoreHow) (pa : Nat) (ws : List (Nat × Byte)) (a : Nat) :
    (s.storeSector c how pa ws).viewByte c a
      = if a / 128 = pa / 128 then lastWritten ws (a % 128) (s.viewByte c a) else s.viewByte c a := by
  have hlt : a % 128 < 128 := Nat.mod_lt _ (by decide)
  unfold State.storeSector
  extract_lets l1 x whole fused mark c0 fresh s1 c1
  have hmark (l : Line) (i : Nat) : (mark l).sector i = l.sector i := rfl
  split
  next h =>
    simp only [Bool.and_eq_true, Bool.not_eq_true', beq_iff_eq] at h
    obtain ⟨⟨hv, hmask⟩, -⟩ := h
    rw [State.viewByte_eq, State.cacheOf_intoL2, State.l1For_congr (s.fused_intoL2 ..), State.underByte_intoL2,
      show pa / 128 * 128 / 128 = pa / 128 by omega]
    by_cases hline : a / 128 = pa / 128
    · have hx : (s.cacheOf (s.l1For c a)).sector a = x := by rw [s.l1For_line c hline, Cache.sector_line _ hline]
      have hsees (u : Byte) : x.see (a % 128) u = u := Sector.see_absent hv (by rw [hmask]; exact BitVec.getLsbD_zero) u
      rw [if_pos hline, if_pos hline, State.viewByte_eq, hx, hsees, hsees]
    · rw [if_neg hline, if_neg hline, State.viewByte_eq]
  next =>
    split
    next h =>
      have hwhole : ∃ e ∈ ws, e.1 = a % 128 := by
        simp only [Bool.and_eq_true] at h
        obtain ⟨-, hwhole⟩ := h
        obtain ⟨e, he, hea⟩ := List.any_eq_true.1 (List.all_eq_true.1 hwhole (a % 128) (List.mem_range.2 hlt))
        exact ⟨e, he, of_decide_eq_true hea⟩
      rw [State.viewByte_setSector _ (fun l => { mark l with mark := c0.epoch }) (fun _ _ => rfl) rfl]
      by_cases hline : a / 128 = pa / 128
      · rw [if_pos hline, if_pos hline, Sector.see_put _ _ hlt]
        exact lastWritten_of_some hwhole ..
      · rw [if_neg hline, if_neg hline]
    next =>
      have hsees : SameView s s1 := by
        simp only [s1]
        split
        · exact SameView.refl s
        · exact SameView.fillL1 ..
      have hslice : s1.l1For c pa = l1 := State.l1For_congr hsees.fused ..
      rw [State.viewByte_setSector _ mark hmark hslice.symm]
      by_cases hline : a / 128 = pa / 128
      · rw [if_pos hline, if_pos hline, Sector.see_put _ _ hlt, ← hsees.byte, State.viewByte_eq s1,
          s1.l1For_line c hline, hslice, Cache.sector_line _ hline]
      · rw [if_neg hline, if_neg hline, hsees.byte]

theorem State.offCaches_storeSector (s : State) (c : Nat) (how : StoreHow) (pa : Nat) (ws : List (Nat × Byte)) :
    (s.storeSector c how pa ws).bare = s.bare
      ∧ ∀ k, ((s.storeSector c how pa ws).carrelOf k).uncounted = (s.carrelOf k).uncounted := by
  unfold State.storeSector
  extract_lets l1 x whole fused mark c0 fresh s1 c1
  split
  · refine ⟨s.bare_intoL2 .., fun k => ?_⟩
    unfold State.intoL2
    split <;> rfl
  · split
    · exact ⟨rfl, fun _ => rfl⟩
    · have hsees : SameView s s1 := by
        simp only [s1]
        split
        · exact SameView.refl s
        · exact SameView.fillL1 ..
      exact ⟨hsees.bare, hsees.carrel⟩

/-- The carrel sees the last byte stored at each address (R16, R123). -/
theorem State.viewByte_storeBytes (s : State) (c : Nat) (how : StoreHow) (ws : List (Nat × Byte)) (a : Nat) :
    (s.storeBytes c how ws).viewByte c a = lastWritten ws a (s.viewByte c a) := by
  have hfold (secs : List Nat) (u : State) : (secs.foldl (fun s sec => s.storeSector c how (sec * 128)
      ((ws.filter fun e => e.1 / 128 = sec).map fun e => (e.1 % 128, e.2))) u).viewByte c a
        = if a / 128 ∈ secs then lastWritten ws a (u.viewByte c a) else u.viewByte c a := by
    induction secs generalizing u with
    | nil => rfl
    | cons sec secs ih =>
      rw [List.foldl_cons, ih, State.viewByte_storeSector, Nat.mul_div_cancel _ (by decide)]
      by_cases hsec : a / 128 = sec
      · rw [if_pos hsec, ← hsec, lastWritten_sector, lastWritten_idem, ite_self, if_pos List.mem_cons_self]
      · rw [if_neg hsec]
        simp only [List.mem_cons, hsec, false_or]
  rw [State.storeBytes, hfold]
  split
  · rfl
  next h =>
    refine (lastWritten_of_none (fun e he hea => h ?_) _).symm
    exact List.mem_eraseDups.2 (List.mem_map.2 ⟨e, he, congrArg (· / 128) hea⟩)

theorem State.offCaches_storeBytes (s : State) (c : Nat) (how : StoreHow) (ws : List (Nat × Byte)) :
    (s.storeBytes c how ws).bare = s.bare
      ∧ ∀ k, ((s.storeBytes c how ws).carrelOf k).uncounted = (s.carrelOf k).uncounted := by
  unfold State.storeBytes
  refine List.foldlRecOn _ _ (motive := fun u : State => u.bare = s.bare
    ∧ ∀ k, (u.carrelOf k).uncounted = (s.carrelOf k).uncounted) ⟨rfl, fun _ => rfl⟩ fun u ⟨hb, hc⟩ sec _ => ?_
  obtain ⟨hbare, hcarrels⟩ := u.offCaches_storeSector c how (sec * 128)
    ((ws.filter fun e => e.1 / 128 = sec).map fun e => (e.1 % 128, e.2))
  exact ⟨hbare.trans hb, fun k => (hcarrels k).trans (hc k)⟩

end Sys2Proof.Machine
end

section
namespace Sys2Proof.Machine
open Sys2Proof

theorem State.offFrames_of_bare {s t : State} (h : t.bare = s.bare) : t.offFrames = s.offFrames :=
  (congrArg (fun u : State => { u with ctx := { u.ctx with frames := [], nextTask := 0, frameRoom := 0 } }) h :)

/-! What the stores of all lanes leave in each space (R335). -/

theorem setBytes_byte (ws : List (Nat × Byte)) (m : Memory) (a : Nat) :
    (ws.foldl (fun m e => m.setByte e.1 e.2) m).byte a = lastWritten ws a (m.byte a) := by
  induction ws generalizing m with
  | nil => rfl
  | cons e ws ih =>
    rw [List.foldl_cons, ih, lastWritten_cons]
    refine congrArg (lastWritten ws a) ((Table.look_store ..).trans ?_)
    by_cases h : e.1 = a
    · rw [if_pos h, if_pos h.symm]
    · rw [if_neg h, if_neg (Ne.symm h)]; rfl

/-- A frame's argument bytes after stores at or above its byte 64 (R34). -/
theorem Frame.args_store {ws : List (Nat × Byte)} (hws : ∀ e ∈ ws, 64 ≤ e.1) (f : Frame) {i : Nat} (hi : i < 128) :
    (f.store ws).args.getD i 0 = lastWritten ws (64 + i) (f.args.getD i 0) := by
  induction ws generalizing f with
  | nil => rfl
  | cons e ws ih =>
    have he := hws e List.mem_cons_self
    have hstep : f.store (e :: ws) = Frame.store { f with args := f.args.setIfInBounds (e.1 - 64) e.2 } ws := rfl
    rw [hstep, ih fun x hx => hws x (List.mem_cons_of_mem _ hx), lastWritten_cons]
    refine congrArg (lastWritten ws (64 + i)) ?_
    rw [vectorGetD_lt _ hi, vectorGetD_lt _ hi]
    by_cases h : e.1 = 64 + i
    · have hidx : e.1 - 64 = i := by omega
      subst hidx
      rw [if_pos h]
      exact Vector.getElem_setIfInBounds_self ..
    · rw [if_neg h]
      exact Vector.getElem_setIfInBounds_ne _ (by omega)

theorem Frame.store_append (f : Frame) (ws vs : List (Nat × Byte)) : f.store (ws ++ vs) = (f.store ws).store vs :=
  List.foldl_append ..

/-- Each lane stores into the frame of its own task. -/
def State.storeFrames (s : State) (frame : Nat → Nat) (accs : List LaneAcc) (data : Nat → List Byte) : State :=
  accs.foldl (fun s a => s.modFrameOf (frame a.lane) fun f => f.store (accWrites a (data a.lane))) s

theorem State.frameOf_storeFrames (s : State) (frame : Nat → Nat) (accs : List LaneAcc) (data : Nat → List Byte) (fr : Nat) :
    (s.storeFrames frame accs data).frameOf fr
      = (s.frameOf fr).store ((accs.filter fun a => frame a.lane = fr).flatMap fun a => accWrites a (data a.lane)) := by
  induction accs generalizing s with
  | nil => rfl
  | cons a accs ih =>
    have hstep : s.storeFrames frame (a :: accs) data
        = (s.modFrameOf (frame a.lane) fun f => f.store (accWrites a (data a.lane))).storeFrames frame accs data := rfl
    rw [hstep, ih, State.modFrameOf, State.frameOf_setFrameOf]
    by_cases h : frame a.lane = fr
    · rw [List.filter_cons, if_pos (decide_eq_true h), List.flatMap_cons, if_pos h.symm, Frame.store_append, h]
    · rw [if_neg (Ne.symm h), List.filter_cons, if_neg (by rwa [decide_eq_true_eq])]

theorem State.storeFrames_keeps {β : Type} (π : State → β) (hπ : ∀ s n f, π (s.setFrameOf n f) = π s) (s : State)
    (frame : Nat → Nat) (accs : List LaneAcc) (data : Nat → List Byte) : π (s.storeFrames frame accs data) = π s :=
  foldl_keeps π (fun (s : State) (a : LaneAcc) => s.modFrameOf (frame a.lane) fun f => f.store (accWrites a (data a.lane)))
    (fun _ _ => hπ ..) accs s

section
variable (s : State) (spc : Space) (stream : Bool) (accs : List LaneAcc) (data : Nat → List Byte)

theorem State.writeAccs_fr :
    s.writeAccs .fr stream accs data = s.storeFrames (fun l => (s.gang.task l).frame) accs data := rfl

theorem State.writeAccs_cached (h : cachedSpace spc = true) : s.writeAccs spc stream accs data
    = s.storeBytes s.gang.carrel { cellar := spc == .cl, stream := stream } (accs.flatMap fun a => accWrites a (data a.lane)) := by
  cases spc with
  | gm => rfl
  | cl => rfl
  | _ => cases h

theorem State.writeAccs_sp : s.writeAccs .sp stream accs data
    = s.modCarrelOf s.gang.carrel fun c => c.writeSp (accs.flatMap fun a => accWrites a (data a.lane)) := rfl

/-- Frames, scratchpads and caches alone change. -/
theorem State.offFrames_writeAccs : (s.writeAccs spc stream accs data).offFrames = s.offFrames := by
  cases spc with
  | gm => exact State.offFrames_of_bare (s.offCaches_storeBytes ..).1
  | cl => exact State.offFrames_of_bare (s.offCaches_storeBytes ..).1
  | sp => rfl
  | fr => rw [State.writeAccs_fr]; exact s.storeFrames_keeps State.offFrames (fun _ _ _ => rfl) ..
  | lf => rfl
  | cn => rfl

theorem State.viewByte_writeAccs (a : Nat) : (s.writeAccs spc stream accs data).viewByte s.gang.carrel a
    = if spc = .gm ∨ spc = .cl then lastWritten (accs.flatMap fun a => accWrites a (data a.lane)) a (s.viewByte s.gang.carrel a)
      else s.viewByte s.gang.carrel a := by
  cases spc with
  | gm => rw [if_pos (.inl rfl)]; exact s.viewByte_storeBytes ..
  | cl => rw [if_pos (.inr rfl)]; exact s.viewByte_storeBytes ..
  | fr =>
    rw [State.writeAccs_fr, State.viewByte_congr (s.storeFrames_keeps State.l1s (fun _ _ _ => rfl) ..)
      (s.storeFrames_keeps State.l2s (fun _ _ _ => rfl) ..) (s.storeFrames_keeps State.fused (fun _ _ _ => rfl) ..)
      (s.storeFrames_keeps State.mem (fun _ _ _ => rfl) ..), if_neg (by decide)]
  | sp => exact (if_neg (by decide)).symm
  | lf => exact (if_neg (by decide)).symm
  | cn => exact (if_neg (by decide)).symm

theorem State.sp_writeAccs (a : Nat) : ((s.writeAccs spc stream accs data).carrelOf s.gang.carrel).sp.byte a
    = if spc = .sp then lastWritten (accs.flatMap fun a => accWrites a (data a.lane)) a ((s.carrelOf s.gang.carrel).sp.byte a)
      else (s.carrelOf s.gang.carrel).sp.byte a := by
  have hcached (how : StoreHow) (ws : List (Nat × Byte)) : ((s.storeBytes s.gang.carrel how ws).carrelOf s.gang.carrel).sp
      = (s.carrelOf s.gang.carrel).sp := (congrArg Carrel.sp ((s.offCaches_storeBytes ..).2 _) :)
  cases spc with
  | gm => rw [if_neg (by decide)]; exact congrArg (Memory.byte · a) (hcached ..)
  | cl => rw [if_neg (by decide)]; exact congrArg (Memory.byte · a) (hcached ..)
  | fr =>
    rw [if_neg (by decide), State.writeAccs_fr]
    exact congrArg (Memory.byte · a) (s.storeFrames_keeps (fun u => (u.carrelOf s.gang.carrel).sp) (fun _ _ _ => rfl) ..)
  | sp =>
    rw [if_pos rfl, State.writeAccs_sp, State.modCarrelOf, State.carrelOf_setCarrelOf, if_pos rfl]
    exact setBytes_byte ..
  | lf => rfl
  | cn => rfl

theorem State.frameOf_writeAccs (fr : Nat) : (s.writeAccs spc stream accs data).frameOf fr
    = if spc = .fr then (s.frameOf fr).store
        ((accs.filter fun a => (s.gang.task a.lane).frame = fr).flatMap fun a => accWrites a (data a.lane))
      else s.frameOf fr := by
  have hcached (how : StoreHow) (ws : List (Nat × Byte)) : (s.storeBytes s.gang.carrel how ws).frameOf fr = s.frameOf fr :=
    (congrArg (fun u : State => u.frameOf fr) (s.offCaches_storeBytes ..).1 :)
  cases spc with
  | gm => rw [if_neg (by decide)]; exact hcached ..
  | cl => rw [if_neg (by decide)]; exact hcached ..
  | fr => rw [if_pos rfl, State.writeAccs_fr]; exact s.frameOf_storeFrames ..
  | sp => rfl
  | lf => rfl
  | cn => rfl

end

/-- Each address that a piece writes lies at or past its first. -/
theorem accWrites_one {a : LaneAcc} {p : Piece} (hp : a.pieces = [p]) (data : List Byte) {e : Nat × Byte}
    (he : e ∈ accWrites a data) : p.pa ≤ e.1 := by
  rw [accWrites, hp, accWrites.go, accWrites.go, List.append_nil] at he
  obtain ⟨y, -, rfl⟩ := List.mem_map.1 he
  exact Nat.le_add_right ..

/-- A store to a frame that passes its checks reaches the arguments (R34). -/
theorem resolveLane_fr {s : State} {n l addr : Nat} {a : LaneAcc}
    (h : resolveLane s .fr n Need.store true l addr = .ok a) : a.pieces = [⟨addr, addr, n⟩] ∧ 64 ≤ addr := by
  unfold resolveLane at h
  extract_lets g own gm at h
  dsimp only at h
  split_ifs at h with hrange
  simp only [own] at h
  split_ifs at h with hfits
  cases h
  refine ⟨rfl, ?_⟩
  simp only [Need.store, Bool.true_and, Bool.and_eq_true, decide_eq_true_eq, Bool.not_eq_true', Bool.not_true,
    Bool.false_or, ne_eq, not_not] at hrange hfits
  by_contra hlow
  refine hrange ⟨?_, hfits⟩
  rw [Bool.and_eq_false_iff]
  exact .inl (decide_eq_false hlow)

end Sys2Proof.Machine
end

section
namespace Sys2Proof.Machine
open Sys2Proof

/-! ST and STV (R335, R337, R178). -/

/-- The state in which the lanes of an untraced store have stored, before the store hash folds. -/
def State.storeDone (s : State) (x : MFmt) (spc : Space) (n : Nat) (accs : List LaneAcc) : State :=
  let s3 := (s.keepAll accs).writeAccs spc (x.hint.toNat = 1) accs (storeData s x.data n)
  if cachedSpace spc then s3.count s.gang.carrel 4 (sectorCount spc accs) else s3

/-- The store hash folds what the lanes wrote, except in frames (R178). -/
def State.storeHashed (s u : State) (x : MFmt) (spc : Space) (n : Nat) (accs : List LaneAcc) : State :=
  if spc == .fr then u else u.modGang fun g => g.foldStores (spc == .sp) accs (storeData s x.data n)

section
variable (s : State) (x : MFmt) (spc : Space) (n : Nat) (accs : List LaneAcc)

theorem State.storeDone_sees : SameView ((s.keepAll accs).writeAccs spc (x.hint.toNat = 1) accs (storeData s x.data n))
    (s.storeDone x spc n accs) := by
  unfold State.storeDone
  extract_lets s3
  split
  · exact SameView.count ..
  · exact SameView.refl _

theorem State.offFrames_storeDone : (s.storeDone x spc n accs).offFrames = s.offFrames :=
  (State.offFrames_of_bare (s.storeDone_sees x spc n accs).bare).trans
    ((State.offFrames_writeAccs ..).trans (State.offFrames_of_bare (s.bare_keepAll accs)))

theorem State.mem_storeDone : (s.storeDone x spc n accs).mem = s.mem := by
  rw [(s.storeDone_sees x spc n accs).mem, State.writeAccs_mem, State.keepAll_mem]

theorem State.gang_keepAll : (s.keepAll accs).gang = s.gang := State.gang_of_bare (s.bare_keepAll accs)

theorem State.viewByte_storeDone (a : Nat) : (s.storeDone x spc n accs).viewByte s.gang.carrel a
    = if spc = .gm ∨ spc = .cl then lastWritten (s.stores x n accs) a (s.viewByte s.gang.carrel a)
      else s.viewByte s.gang.carrel a := by
  have h := (s.keepAll accs).viewByte_writeAccs spc (x.hint.toNat = 1) accs (storeData s x.data n) a
  rw [s.gang_keepAll, State.viewByte_keepAll] at h
  rw [(s.storeDone_sees x spc n accs).byte, h]
  rfl

theorem State.sp_storeDone (a : Nat) : ((s.storeDone x spc n accs).carrelOf s.gang.carrel).sp.byte a
    = if spc = .sp then lastWritten (s.stores x n accs) a ((s.carrelOf s.gang.carrel).sp.byte a)
      else (s.carrelOf s.gang.carrel).sp.byte a := by
  have h := (s.keepAll accs).sp_writeAccs spc (x.hint.toNat = 1) accs (storeData s x.data n) a
  have hkept : ((s.keepAll accs).carrelOf s.gang.carrel).sp = (s.carrelOf s.gang.carrel).sp :=
    (congrArg Carrel.sp ((SameView.keepAll s accs).carrel _) :)
  have hcounted : ((s.storeDone x spc n accs).carrelOf s.gang.carrel).sp
      = (((s.keepAll accs).writeAccs spc (x.hint.toNat = 1) accs (storeData s x.data n)).carrelOf s.gang.carrel).sp :=
    (congrArg Carrel.sp ((s.storeDone_sees x spc n accs).carrel _) :)
  rw [s.gang_keepAll, hkept] at h
  rw [hcounted, h]
  rfl

theorem State.frameOf_storeDone (fr : Nat) : (s.storeDone x spc n accs).frameOf fr
    = if spc = .fr then (s.frameOf fr).store (s.stores x n (accs.filter fun a => (s.gang.task a.lane).frame = fr))
      else s.frameOf fr := by
  have h := (s.keepAll accs).frameOf_writeAccs spc (x.hint.toNat = 1) accs (storeData s x.data n) fr
  have hkept : (s.keepAll accs).frameOf fr = s.frameOf fr :=
    (congrArg (fun u : State => u.frameOf fr) (s.bare_keepAll accs) :)
  have hcounted : (s.storeDone x spc n accs).frameOf fr
      = ((s.keepAll accs).writeAccs spc (x.hint.toNat = 1) accs (storeData s x.data n)).frameOf fr :=
    (congrArg (fun u : State => u.frameOf fr) (s.storeDone_sees x spc n accs).bare :)
  rw [s.gang_keepAll, hkept] at h
  rw [hcounted, h]
  rfl

end

theorem traced_congr {s u : State} (h : u.ctx.traces = s.ctx.traces) (g : Gang) : u.traced g = s.traced g := by
  rw [State.traced, State.traced, State.traceOf, State.traceOf, h]

theorem storeAct_untraced {s : State} {x : MFmt} {spc : Space} {n : Nat} {m : Mask} {accs : List LaneAcc}
    (ht : ∀ l, s.traced (s.gang.task l) = false) (h : s.passes x spc n Need.store m accs)
    (hbad : storeFillBad s (s.stores x n accs) = []) :
    storeAct s x spc n m = .next ((s.storeHashed (s.storeDone x spc n accs) x spc n accs).advance x.hdr) := by
  have htraces : (s.storeDone x spc n accs).ctx.traces = s.ctx.traces :=
    (congrArg (fun u : State => u.ctx.traces) (s.offFrames_storeDone x spc n accs) :)
  unfold storeAct
  extract_lets g
  rw [show resolveAll m _ = .ok accs from h]
  dsimp only
  rw [if_neg (by
    rw [show (accs.flatMap fun a => accWrites a (storeData s x.data n a.lane)) = s.stores x n accs from rfl, hbad,
      List.isEmpty_nil, Bool.not_true, Bool.and_false]
    exact Bool.false_ne_true), traceWrites_untraced ht]
  have hsame := traceCompare_untraced (s := s.storeDone x spc n accs) (g := s.gang)
    (fun l => (traced_congr htraces _).trans (ht l)) ((s.keepAll accs).granules accs)
    ((s.storeDone x spc n accs).granules accs)
  exact congrArg (fun u => Host.Outcome.next ((s.storeHashed u x spc n accs).advance x.hdr)) hsame

theorem Gang.offTask_foldStores (g : Gang) (sp : Bool) (accs : List LaneAcc) (data : Nat → List Byte) :
    (g.foldStores sp accs data).offTask = g.offTask :=
  foldl_keeps Gang.offTask (fun (g : Gang) (a : LaneAcc) =>
    { g.task a.lane with hash := foldLane (g.task a.lane).hash sp (accVirtual a (data a.lane)) })
    (fun g a => g.offTask_task a.lane) accs g

theorem State.stand_storeHashed {s u : State} (x : MFmt) (spc : Space) (n : Nat) (accs : List LaneAcc)
    (hg : u.gang = s.gang) : (s.storeHashed u x spc n accs).stand = s.stand := by
  unfold State.storeHashed
  split
  · rw [State.stand, hg]; rfl
  · have hoff := u.gang.offTask_foldStores (spc == .sp) accs (storeData s x.data n)
    rw [State.stand, State.modGang_gang]
    exact (congrArg (fun g : Gang => (g.path, g.split)) hoff :).trans (by rw [hg]; rfl)

theorem State.offGangs_storeHashed (s u : State) (x : MFmt) (spc : Space) (n : Nat) (accs : List LaneAcc) :
    s.storeHashed u x spc n accs = { u with ctx := { u.ctx with gangs := (s.storeHashed u x spc n accs).ctx.gangs } } := by
  unfold State.storeHashed
  split <;> rfl

theorem State.viewByte_leave (s : State) (h : Header) (pc : DWord) (b : Bool) (c a : Nat) :
    (s.leave h pc b).viewByte c a = s.viewByte c a := by
  have hrest := s.leave_rest h pc b
  exact State.viewByte_congr (congrArg State.l1s hrest :) (congrArg State.l2s hrest :) (congrArg State.fused hrest :)
    (s.leave_mem ..) c a

theorem State.viewByte_advance (s : State) (h : Header) (c a : Nat) : (s.advance h).viewByte c a = s.viewByte c a :=
  s.viewByte_leave ..

/-- An untraced store goes on with exactly the stored bytes changed. -/
theorem storeAct_stores {s : State} {x : MFmt} {spc : Space} {n : Nat} {m : Mask} {accs : List LaneAcc}
    (ht : ∀ l, s.traced (s.gang.task l) = false) (h : s.passes x spc n Need.store m accs)
    (hbad : storeFillBad s (s.stores x n accs) = []) : ∃ t, storeAct s x spc n m = .next t ∧ stored s t x spc n accs := by
  have hoff := s.offFrames_storeDone x spc n accs
  have hrest := State.offGangs_storeHashed s (s.storeDone x spc n accs) x spc n accs
  have hgang : (s.storeDone x spc n accs).gang = s.gang := State.gang_of_offFrames hoff
  refine ⟨_, storeAct_untraced ht h hbad, wentOn_advance x.hdr ?_ ?_ ?_ ?_ ?_ (State.stand_storeHashed x spc n accs hgang),
    fun a => ?view, fun a => ?sp, fun fr i hi => ?frame, fun h1 => ?hash⟩
  · exact (congrArg State.clock hrest).trans (congrArg State.clock hoff :)
  · exact (congrArg State.cur hrest).trans (congrArg State.cur hoff :)
  · exact (congrArg State.halt hrest).trans (congrArg State.halt hoff :)
  · exact (congrArg State.faults hrest).trans (congrArg State.faults hoff :)
  · exact (congrArg State.mem hrest).trans (s.mem_storeDone ..)
  case view =>
    rw [State.viewByte_advance, hrest]
    exact (State.viewByte_congr rfl rfl rfl rfl ..).trans (s.viewByte_storeDone ..)
  case sp =>
    have hleft : (((s.storeHashed (s.storeDone x spc n accs) x spc n accs).advance x.hdr).carrelOf s.gang.carrel).sp
        = ((s.storeDone x spc n accs).carrelOf s.gang.carrel).sp :=
      (congrArg Carrel.sp (State.uncounted_advance _ x.hdr _) :).trans (by rw [hrest]; rfl)
    rw [hleft]
    exact s.sp_storeDone ..
  case frame =>
    have hleft : ((s.storeHashed (s.storeDone x spc n accs) x spc n accs).advance x.hdr).frameOf fr
        = (s.storeDone x spc n accs).frameOf fr := by
      rw [State.advance, State.leave_frameOf, hrest]; rfl
    rw [hleft, State.frameOf_storeDone]
    by_cases hspc : spc = .fr
    · subst hspc
      rw [if_pos rfl, if_pos rfl]
      refine Frame.args_store (fun e he => ?_) _ hi
      obtain ⟨a, ha, hea⟩ := List.mem_flatMap.1 he
      obtain ⟨l, -, hl⟩ := resolveAll_mem h (List.mem_of_mem_filter ha)
      obtain ⟨hpieces, hlow⟩ := resolveLane_fr hl
      exact hlow.trans (accWrites_one hpieces _ hea)
    · rw [if_neg hspc, if_neg hspc]
  case hash =>
    have hleft (u : State) : (u.advance x.hdr).gang.hash = u.gang.hash := (congrArg Gang.hash (u.offIssue_advance x.hdr) :)
    rw [hleft]
    unfold State.storeHashed
    by_cases hspc : spc = .fr
    · rw [if_pos hspc, if_pos (beq_iff_eq.2 hspc), hgang]
    · rw [if_neg hspc, if_neg (by rwa [beq_iff_eq]), State.modGang_gang,
        Gang.hash_foldStores _ _ _ (by rw [hgang]; exact h1.2), hgang]

theorem execSt_issues {x : MFmt} {s : State} {m : Mask} {spc : Space} (hspc : Space.ofBits x.space = some spc)
    (hi : s.issues x.hdr .lane (spc != .lf && spc != .cn && x.width.toNat ≤ 3 && mFieldsOk s.gang x spc
      && x.hdr.d == .absent && !x.ext && (spc != .cl || 4 ≤ mWidth x.width)
      && storeDataOk s.gang (mWidth x.width = 8) x.data && !s.gang.isShadow) []
      (mSrcs x (readsBase spc) (mWidth x.width = 8)) m) :
    exec (.st x) s = storeAct s x spc (mWidth x.width) m := by
  change execSt x s = _
  unfold execSt
  simp only [hspc, Option.getD_some, Option.isSome_some, Bool.true_and]
  exact issue_of_issues _ hi

theorem execStv_issues {x : MFmt} {s : State} {m : Mask} {spc : Space} {i : BitVec 8}
    (hspc : Space.ofBits x.space = some spc) (hd : x.data = .w i)
    (hi : s.issues x.hdr .lane ((spc == .gm || spc == .sp) && x.width.toNat = 4 && mFieldsOk s.gang x spc
       && x.hdr.d == .absent && !x.ext && quadOk s.gang x.data && !s.gang.isShadow) []
       (fun m => mSrcs x (readsBase spc) false m
         ++ [⟨.w i, x.fe.getLsbD 0, 1, true, m⟩, ⟨.w (i + 2), x.fe.getLsbD 0, 1, true, m⟩]) m) :
    exec (.stv x) s = storeAct s x spc 16 m := by
  change execStv x s = _
  unfold execStv
  simp only [hspc, Option.getD_some, Option.isSome_some, Bool.and_true]
  simp only [hd] at hi ⊢
  exact issue_of_issues _ hi

end Sys2Proof.Machine

open Sys2Proof Sys2Proof.Machine

/-- Settles O33: the carrel sees the last byte stored, sector by sector, and every other unit is as it was. -/
theorem storeResult : Obligations.StoreResult := by
  intro x s m accs spc hspc ht
  refine ⟨fun hi hpass hbad => ?_, fun i hd hi hpass hbad => ?_⟩
  · rw [execSt_issues hspc hi]
    exact storeAct_stores ht hpass hbad
  · rw [execStv_issues hspc hd hi]
    exact storeAct_stores ht hpass hbad
end

section
namespace Sys2Proof.Machine
open Sys2Proof

/-! Translations of one page (R135 to R138). -/

/-- The walk depends on the 64 KiB page alone. -/
theorem walk_page (s : State) {va va' : Nat} (h : va' / 65536 = va / 65536) (fuel level table : Nat) :
    walk s fuel level table va' = walk s fuel level table va := by
  have h48 : va' / 2 ^ 48 = va / 2 ^ 48 := by omega
  have h39 : va' / 2 ^ 39 = va / 2 ^ 39 := by omega
  have h30 : va' / 2 ^ 30 = va / 2 ^ 30 := by omega
  have h21 : va' / 2 ^ 21 = va / 2 ^ 21 := by omega
  have h16 : va' / 2 ^ 16 = va / 2 ^ 16 := by omega
  have m30 : va' % 2 ^ 30 / 65536 = va % 2 ^ 30 / 65536 := by omega
  have m21 : va' % 2 ^ 21 / 65536 = va % 2 ^ 21 / 65536 := by omega
  have m16 : va' % 2 ^ 16 / 65536 = va % 2 ^ 16 / 65536 := by omega
  induction fuel generalizing level table with
  | zero => rfl
  | succ k ih =>
    unfold walk
    simp only [h48, h39, h30, h21, h16, ih]
    by_cases h3 : level = 3
    · subst h3; simp only [m30]
    · by_cases h4 : level = 4
      · subst h4; simp only [m21]
      · simp only [m16]

/-! PREF (R338): what prefetches leave. -/

/-- `u` differs from `s` in clean copies, counters and in translations that agree with those of carrel k. -/
structure Prefetched (k : Nat) (s u : State) : Prop where
  sees : SameView s u
  bad : u.bad = s.bad
  under : ∀ g a, ((s.galleryCache g).sector a).valid = true → ((u.galleryCache g).sector a).valid = true
  translate : ∀ va, u.translate (.carrel k) va = s.translate (.carrel k) va

theorem Prefetched.refl (k : Nat) (s : State) : Prefetched k s s :=
  ⟨SameView.refl s, rfl, fun _ _ h => h, fun _ => rfl⟩

theorem Prefetched.trans {k : Nat} {s u v : State} (h : Prefetched k s u) (h' : Prefetched k u v) : Prefetched k s v :=
  ⟨h.sees.trans h'.sees, h'.bad.trans h.bad, fun g a hv => h'.under g a (h.under g a hv),
    fun va => (h'.translate va).trans (h.translate va)⟩

/-- Where the kept translations stay, so do the ones used. -/
theorem State.translate_congr {k : Nat} {s u : State} (hs : SameView s u) (hbad : u.bad = s.bad)
    (htlb : (u.cacheOf k).tlb = (s.cacheOf k).tlb) (va : Nat) : u.translate (.carrel k) va = s.translate (.carrel k) va := by
  have hroot : u.ctx.root = s.ctx.root := (congrArg (fun v : State => v.ctx.root) hs.bare :)
  have hwalk := walk_congr hs.mem hbad (congrArg State.part hs.bare :) 5 1 s.ctx.root va
  unfold State.translate
  rw [show u.tlbOf (.carrel k) = s.tlbOf (.carrel k) from htlb, hroot, hwalk]

theorem Prefetched.fillL2 (k : Nat) (s : State) (gal pa : Nat) : Prefetched k s (s.fillL2 gal pa) := by
  have hbad : (s.fillL2 gal pa).bad = s.bad := by unfold State.fillL2; extract_lets c x; split <;> rfl
  refine ⟨SameView.fillL2 .., hbad, fun g a hv => ?_, State.translate_congr (SameView.fillL2 ..) hbad
    (by rw [State.cacheOf_fillL2])⟩
  rw [State.l2_fillL2]
  split
  · rfl
  · exact hv

theorem State.bad_count (s : State) (c e n : Nat) : (s.count c e n).bad = s.bad := by unfold State.count; split <;> rfl

theorem State.tlb_fillL1 (s : State) (c pa k : Nat) : ((s.fillL1 c pa).cacheOf k).tlb = (s.cacheOf k).tlb := by
  unfold State.fillL1
  extract_lets l1 x s1 y c1
  split
  · rfl
  · have hlook : (s1.setCacheOf l1 (c1.setSector pa (x.fill (fun i => y.data.getD i 0) y.lab0 y.lab1)
        fun l => { l with mark := c1.epoch })).cacheOf k
        = if k = l1 then c1.setSector pa (x.fill (fun i => y.data.getD i 0) y.lab0 y.lab1)
            fun l => { l with mark := c1.epoch } else s1.cacheOf k := Table.look_put ..
    have hsame : s1.cacheOf k = s.cacheOf k := s.cacheOf_fillL2 ..
    rw [State.cacheOf_count, hlook]
    split
    next hk => rw [← hsame, hk]; rfl
    next => rw [hsame]

theorem Prefetched.fillL1 (k : Nat) (s : State) (c pa : Nat) : Prefetched k s (s.fillL1 c pa) := by
  have hbad : (s.fillL1 c pa).bad = s.bad := by
    unfold State.fillL1
    extract_lets l1 x s1 y c1
    split
    · rfl
    · rw [State.bad_count]; exact (Prefetched.fillL2 k s (galleryOf c) pa).bad
  refine ⟨SameView.fillL1 .., hbad, fun g a hv => ?_, State.translate_congr (SameView.fillL1 ..) hbad (s.tlb_fillL1 ..)⟩
  rw [State.l2_fillL1]
  split
  · exact hv
  · exact (Prefetched.fillL2 k s (galleryOf c) pa).under g a hv

/-- To keep a translation that is used leaves every translation as it is. -/
theorem Prefetched.keep {k : Nat} {s : State} {va : Nat} {t : Translation} (h : s.translate (.carrel k) va = .ok t) :
    Prefetched k s (s.keep (.carrel k) va t) := by
  refine ⟨SameView.keep .., rfl, fun _ _ hv => hv, fun va' => ?_⟩
  have htlb : (s.keep (.carrel k) va t).tlbOf (.carrel k) = Table.put (s.tlbOf (.carrel k)) (va / 65536) t :=
    congrArg Cache.tlb ((Table.look_put ..).trans (if_pos rfl) : (s.keep (.carrel k) va t).cacheOf k = _)
  have hwalk : walk (s.keep (.carrel k) va t) 5 1 s.ctx.root va' = walk s 5 1 s.ctx.root va' := walk_congr rfl rfl rfl ..
  unfold State.translate at h ⊢
  rw [htlb, Table.seek_put, show (s.keep (.carrel k) va t).ctx = s.ctx from rfl, hwalk]
  split at h
  · cases h
  next hlow =>
    by_cases hpage : va' / 65536 = va / 65536
    · have hlow' : ¬ 2 ^ 57 ≤ va' := by omega
      rw [if_neg hlow', if_neg hlow', hpage, if_pos rfl, walk_page s hpage]
      exact h.symm
    · rw [if_neg hpage]

/-- A lane's access that names one translation and uses it. -/
theorem resolveLane_gm {s : State} {n l addr : Nat} {need : Need} {a : LaneAcc}
    (h : resolveLane s .gm n need false l addr = .ok a) : ∃ t, a = ⟨l, [⟨addr, t.pa addr, n⟩], t.mod, [(addr, t)]⟩
      ∧ s.translate (.carrel s.gang.carrel) addr = .ok t ∧ s.pageOk t addr (need.of n) = true
      ∧ (need.read && s.fillBad s.gang.carrel (t.pa addr)) = false := by
  unfold resolveLane at h
  extract_lets g own gm at h
  dsimp only at h
  rw [if_neg (by rw [Bool.false_and]; exact Bool.false_ne_true)] at h
  split at h
  · cases h
  next t k hgm =>
    cases h
    simp only [gm, State.reach] at hgm
    cases htr : s.translate (.carrel g.carrel) addr with
    | error e => rw [htr] at hgm; cases hgm
    | ok t' =>
      rw [htr] at hgm
      dsimp only at hgm
      by_cases hpage : s.pageOk t' addr (need.of n) = true
      · rw [if_pos hpage] at hgm
        dsimp only at hgm
        split at hgm
        · cases hgm
        next hbad =>
          cases hgm
          exact ⟨t, rfl, rfl, hpage, eq_false_of_ne_true hbad⟩
      · rw [if_neg hpage] at hgm
        cases hgm

theorem resolveLane_gm_ok {s : State} {n l addr : Nat} {need : Need} {t : Translation}
    (htr : s.translate (.carrel s.gang.carrel) addr = .ok t) (hpage : s.pageOk t addr (need.of n) = true)
    (hbad : (need.read && s.fillBad s.gang.carrel (t.pa addr)) = false) :
    resolveLane s .gm n need false l addr = .ok ⟨l, [⟨addr, t.pa addr, n⟩], t.mod, [(addr, t)]⟩ := by
  unfold resolveLane
  extract_lets g own gm
  have hgm : gm addr n = .ok (t, n) := by
    simp only [gm, State.reach, g, htr, hpage, hbad, if_true, Bool.false_eq_true, if_false]
  dsimp only
  rw [if_neg (by rw [Bool.false_and]; exact Bool.false_ne_true), hgm]

/-- After prefetches a lane that would not fault still finds the same access. -/
theorem Prefetched.resolveLane {s u : State} (h : Prefetched s.gang.carrel s u) {n l addr : Nat} {need : Need} {a : LaneAcc}
    (hok : resolveLane s .gm n need false l addr = .ok a) : Machine.resolveLane u .gm n need false l addr = .ok a := by
  obtain ⟨t, rfl, htr, hpage, hbad⟩ := resolveLane_gm hok
  have hgang : u.gang.carrel = s.gang.carrel := by rw [h.sees.gang]
  refine resolveLane_gm_ok (by rw [hgang, h.translate, htr])
    ((congrArg (fun v : State => v.pageOk t addr (need.of n)) h.sees.bare :).trans hpage) ?_
  rw [hgang]
  cases hread : need.read with
  | false => rfl
  | true =>
    rw [hread, Bool.true_and, State.fillBad, Bool.and_eq_false_iff, Bool.and_eq_false_iff] at hbad
    rw [Bool.true_and, State.fillBad, Bool.and_eq_false_iff, Bool.and_eq_false_iff, State.l1For_congr h.sees.fused, blockBad,
      h.bad]
    refine hbad.imp (Or.imp (fun hv => ?_) fun hv => ?_) id
    · simpa using h.sees.valid _ _ (by simpa using hv)
    · simpa using h.under _ _ (by simpa using hv)

/-- One lane's prefetch (R338). -/
def State.prefLane (s : State) (x : MFmt) (g : Gang) (l : Nat) : State :=
  match resolveLane s .gm 1 Need.load false l (mAddr g x .gm l) with
  | .error _ => s
  | .ok a => a.pieces.foldl (fun s p =>
      let s := s.keepAll [a]
      if x.hint.toNat = 1 then
        (if ((s.cacheOf (s.l1For g.carrel p.pa)).sector p.pa).valid then s
         else s.fillL2 (galleryOf g.carrel) p.pa)
      else s.fillL1 g.carrel p.pa) s

theorem State.prefLane_prefetched (s : State) (x : MFmt) (l : Nat) : Prefetched s.gang.carrel s (s.prefLane x s.gang l) := by
  unfold State.prefLane
  split
  · exact Prefetched.refl ..
  next a hok =>
    obtain ⟨t, rfl, htr, -⟩ := resolveLane_gm hok
    have hkept : Prefetched s.gang.carrel s (s.keepAll [⟨l, [⟨mAddr s.gang x .gm l, t.pa (mAddr s.gang x .gm l), 1⟩], t.mod,
        [(mAddr s.gang x .gm l, t)]⟩]) := Prefetched.keep htr
    dsimp only [List.foldl_cons, List.foldl_nil]
    split
    · split
      · exact hkept
      · exact hkept.trans (Prefetched.fillL2 ..)
    · exact hkept.trans (Prefetched.fillL1 ..)

/-- Without `.stream` the sector of a lane that does not fault is in the L1. -/
theorem State.prefLane_valid {s : State} {x : MFmt} {l : Nat} {a : LaneAcc} (hh : x.hint.toNat ≠ 1)
    (hok : resolveLane s .gm 1 Need.load false l (mAddr s.gang x .gm l) = .ok a) {p : Piece} (hp : p ∈ a.pieces) :
    (((s.prefLane x s.gang l).cacheOf ((s.prefLane x s.gang l).l1For s.gang.carrel p.pa)).sector p.pa).valid = true := by
  have hlane : s.prefLane x s.gang l = (s.keepAll [a]).fillL1 s.gang.carrel p.pa := by
    unfold State.prefLane
    rw [hok]
    obtain ⟨t, rfl, -⟩ := resolveLane_gm hok
    obtain rfl := List.mem_singleton.1 hp
    dsimp only [List.foldl_cons, List.foldl_nil]
    rw [if_neg hh]
  rw [hlane]
  exact State.valid_fillL1 ..

theorem State.prefLanes_prefetched {s u : State} (x : MFmt) (h : Prefetched s.gang.carrel s u) (ls : List Nat) :
    Prefetched s.gang.carrel u (ls.foldl (fun u l => u.prefLane x s.gang l) u) := by
  induction ls generalizing u with
  | nil => exact Prefetched.refl ..
  | cons k ls ih =>
    have hstep : Prefetched s.gang.carrel u (u.prefLane x s.gang k) := by
      rw [← h.sees.gang]; exact u.prefLane_prefetched x k
    exact hstep.trans (ih (h.trans hstep))

/-- After all lanes the sector of each that does not fault is in the L1. -/
theorem State.prefLanes_valid {s u : State} {x : MFmt} (hh : x.hint.toNat ≠ 1) (h : Prefetched s.gang.carrel s u)
    {ls : List Nat} {l : Nat} (hl : l ∈ ls) {a : LaneAcc}
    (hok : Machine.resolveLane s .gm 1 Need.load false l (mAddr s.gang x .gm l) = .ok a) {p : Piece} (hp : p ∈ a.pieces) :
    (((ls.foldl (fun u l => u.prefLane x s.gang l) u).cacheOf (s.l1For s.gang.carrel p.pa)).sector p.pa).valid = true := by
  induction ls generalizing u with
  | nil => cases hl
  | cons k ls ih =>
    have hstep : Prefetched s.gang.carrel u (u.prefLane x s.gang k) := by
      rw [← h.sees.gang]; exact u.prefLane_prefetched x k
    have hthere := h.trans hstep
    rcases List.mem_cons.1 hl with rfl | hl
    · have hhere := State.prefLane_valid (s := u) (x := x) hh (by rw [h.sees.gang]; exact h.resolveLane hok) hp
      rw [h.sees.gang, State.l1For_congr hthere.sees.fused] at hhere
      exact (State.prefLanes_prefetched x hthere ls).sees.valid _ _ hhere
    · exact ih hthere hl

end Sys2Proof.Machine
end

section
namespace Sys2Proof.Machine
open Sys2Proof

/-! LDLBL (R347). -/

/-- The labels that a carrel reads are the same in both. -/
theorem SameView.labelAt {s u : State} (h : SameView s u) (spc : Space) (p : Piece) : u.labelAt spc p = s.labelAt spc p := by
  have hsp : (u.carrelOf s.gang.carrel).sp = (s.carrelOf s.gang.carrel).sp := (congrArg Carrel.sp (h.carrel _) :)
  have hloft : (u.carrelOf s.gang.carrel).loft = (s.carrelOf s.gang.carrel).loft := (congrArg Carrel.loft (h.carrel _) :)
  unfold State.labelAt
  rw [h.gang]
  cases spc with
  | sp => exact congrArg (Memory.label · (p.pa / 64)) hsp
  | lf => exact congrArg (Memory.label · (p.pa / 64)) hloft
  | _ => exact h.label ..

/-- The state in which an LDLBL reads its labels. -/
def State.labelReady (s : State) (spc : Space) (accs : List LaneAcc) : State :=
  (accs.foldl (fun u a => a.pieces.foldl (fun u p => if spc == .gm then u.fillL1 s.gang.carrel p.pa else u) u)
    (s.keepAll accs)).count s.gang.carrel 4 (if spc == .gm then sectorCount spc accs else 0)

theorem State.labelReady_sees (s : State) (spc : Space) (accs : List LaneAcc) : SameView s (s.labelReady spc accs) := by
  refine (SameView.keepAll s accs).trans (SameView.trans ?_ (SameView.count ..))
  refine SameView.foldl (f := fun (u : State) (a : LaneAcc) => a.pieces.foldl
    (fun u p => if spc == .gm then u.fillL1 s.gang.carrel p.pa else u) u) (fun u a => ?_) accs
  refine SameView.foldl (f := fun (u : State) (p : Piece) => if spc == .gm then u.fillL1 s.gang.carrel p.pa else u)
    (fun u p => ?_) a.pieces
  split
  · exact SameView.fillL1 ..
  · exact SameView.refl u

/-- The label of a lane's block in that state. -/
def State.laneLabel (s : State) (spc : Space) (accs : List LaneAcc) (l : Nat) : Word :=
  match accs.find? fun a => a.lane = l with
  | some a => (s.labelAt spc (a.pieces.headD ⟨0, 0, 1⟩)).setWidth 32
  | none => 0

def State.labelFlight (s u : State) (x : MFmt) (spc : Space) (m : Mask) (accs : List LaneAcc) : Flight :=
  { dst := x.hdr.d, mask := m, sval := 0, replay := false, vals := flightLanes 1 (fun _ l => u.laneLabel spc accs l),
    pc := s.pc, younger := s.gang.younger, cycle := s.cycleOf s.gang.carrel,
    req := .label spc (accs.map fun a => (a.lane, (a.pieces.map (·.va)).headD 0)) }

theorem State.labelFlight_at (s u : State) (x : MFmt) (spc : Space) (m : Mask) (accs : List LaneAcc) {l : Nat} (hl : l < 32) :
    ((s.labelFlight u x spc m accs).vals.getD 0 (Lanes.all 0)).at l = u.laneLabel spc accs l :=
  flightLanes_at (fun _ l => u.laneLabel spc accs l) Nat.zero_lt_one hl

theorem execLdlbl_issues {x : MFmt} {s : State} {m : Mask} {accs : List LaneAcc} {spc : Space} {i : BitVec 8}
    (hspc : Space.ofBits x.space = some spc) (hd : x.hdr.d = .w i)
    (hi : s.issues x.hdr .lane ((spc == .gm || spc == .sp || spc == .lf) && x.width.toNat = 1 && mFieldsOk s.gang x spc
      && x.hint == 0 && x.data == .absent && !x.ext && wOk s.gang false i) [(.w i, false)] (mSrcs x true false) m)
    (h : (resolveAll m fun l => resolveLane s spc 1 Need.load false l (mAddr s.gang x spc l)) = .ok accs) :
    exec (.ldlbl x) s = .next (((s.labelReady spc accs).modGang fun g =>
      g.launch (s.labelFlight (s.labelReady spc accs) x spc m accs)).advance x.hdr) := by
  change execLdlbl x s = _
  unfold execLdlbl
  simp only [hspc, Option.getD_some, Option.isSome_some, Bool.and_true]
  have hi' : s.issues x.hdr .lane ((spc == .gm || spc == .sp || spc == .lf) && x.width.toNat = 1 && mFieldsOk s.gang x spc
      && x.hint == 0 && x.data == .absent && !x.ext && dstOk .lane s.gang false x.hdr.d) [(x.hdr.d, false)]
      (mSrcs x true false) m := by rw [hd]; exact hi
  refine (issue_of_issues _ hi').trans ?_
  rw [h]
  rfl

theorem ldlbl_completes {x : MFmt} {s : State} {m : Mask} {accs : List LaneAcc} {spc : Space} {i : BitVec 8}
    (hd : x.hdr.d = .w i)
    (h : (resolveAll m fun l => resolveLane s spc 1 Need.load false l (mAddr s.gang x spc l)) = .ok accs) :
    let t := ((s.labelReady spc accs).modGang fun g =>
      g.launch (s.labelFlight (s.labelReady spc accs) x spc m accs)).advance x.hdr
    wentOn s t (s.pc + 12) ∧ t.gang.wEmpty i &&& m = m
      ∧ ∃ f, t.gang.flights.getLast? = some f ∧ f.dst = .w i ∧ f.mask = m
        ∧ ∀ a ∈ accs, (f.vals.getD 0 (Lanes.all 0)).at a.lane
            = (s.labelAt spc (a.pieces.headD ⟨0, 0, 1⟩)).setWidth 32 := by
  have hsees := s.labelReady_sees spc accs
  have hbare := hsees.bare
  have hoff : ((s.labelReady spc accs).gang.launch (s.labelFlight (s.labelReady spc accs) x spc m accs)).offLaunch
      = s.gang.offLaunch := by rw [Gang.offLaunch_launch, hsees.gang]
  have hgang : ((s.labelReady spc accs).modGang fun g =>
      g.launch (s.labelFlight (s.labelReady spc accs) x spc m accs)).gang
        = (s.labelReady spc accs).gang.launch (s.labelFlight (s.labelReady spc accs) x spc m accs) :=
    State.modGang_gang ..
  have hstand : ((s.labelReady spc accs).modGang fun g =>
      g.launch (s.labelFlight (s.labelReady spc accs) x spc m accs)).stand = s.stand := by
    rw [State.stand, hgang]
    exact (congrArg (fun g : Gang => (g.path, g.split)) hoff :)
  have hlanes := resolveAll_lanes h fun _ _ hl => resolveLane_lane hl
  refine ⟨wentOn_advance x.hdr (State.clock_of_bare hbare :) (congrArg State.cur hbare :) (congrArg State.halt hbare :)
    (congrArg State.faults hbare :) hsees.mem hstand, ?_, s.labelFlight (s.labelReady spc accs) x spc m accs, ?_, hd, rfl,
    fun a ha => ?_⟩
  · have hfirst := Gang.wEmpty_launch (s.labelReady spc accs).gang
      (f := s.labelFlight (s.labelReady spc accs) x spc m accs) hd (k := 0) Nat.zero_lt_one
    rw [BitVec.add_zero] at hfirst
    rw [wEmpty_advance, hgang]
    exact hfirst
  · rw [flights_advance, hgang, Gang.flights_launch, List.getLast?_concat]
  · have hmem : a.lane ∈ m.lanes := by rw [← hlanes]; exact List.mem_map_of_mem ha
    refine (State.labelFlight_at s _ x spc m accs (BitVec.lt_of_getLsbD (Mask.mem_lanes.1 hmem))).trans ?_
    unfold State.laneLabel
    rw [find?_lane (by rw [hlanes]; exact Mask.lanes_nodup m) ha]
    exact congrArg (BitVec.setWidth 32) (hsees.labelAt ..)

/-! STLBL (R348). -/

/-- The label that lanes leave of a block: the highest lane's there, or what was there. -/
def lastLabel (lab : LaneAcc → Label) (accs : List LaneAcc) (blk : Nat) (before : Label) : Label :=
  ((accs.reverse.find? fun a => (a.pieces.headD ⟨0, 0, 1⟩).pa / 64 = blk).map lab).getD before

theorem lastLabel_cons (lab : LaneAcc → Label) (a : LaneAcc) (accs : List LaneAcc) (blk : Nat) (before : Label) :
    lastLabel lab (a :: accs) blk before
      = lastLabel lab accs blk (if (a.pieces.headD ⟨0, 0, 1⟩).pa / 64 = blk then lab a else before) := by
  have hone : ([a].find? fun a => (a.pieces.headD ⟨0, 0, 1⟩).pa / 64 = blk)
      = if (a.pieces.headD ⟨0, 0, 1⟩).pa / 64 = blk then some a else none := by
    rw [List.find?_cons]
    by_cases h : (a.pieces.headD ⟨0, 0, 1⟩).pa / 64 = blk
    · rw [if_pos h, decide_eq_true h]
    · rw [if_neg h, decide_eq_false h]; rfl
  unfold lastLabel
  rw [List.reverse_cons, List.find?_append, hone]
  cases accs.reverse.find? fun a => (a.pieces.headD ⟨0, 0, 1⟩).pa / 64 = blk with
  | some x => rfl
  | none =>
    rw [Option.none_or]
    split <;> rfl

theorem setBytes_other (base : Nat) (ws : List (Nat × Byte)) (m : Memory) {b : Nat} (h : ∀ e ∈ ws, base + e.1 ≠ b) :
    (ws.foldl (fun m e => m.setByte (base + e.1) e.2) m).byte b = m.byte b := by
  induction ws generalizing m with
  | nil => rfl
  | cons e ws ih =>
    rw [List.foldl_cons, ih _ fun x hx => h x (List.mem_cons_of_mem _ hx)]
    exact (Table.look_store ..).trans (if_neg (Ne.symm (h e List.mem_cons_self)))

theorem setBytes_label (base : Nat) (ws : List (Nat × Byte)) (m : Memory) (blk : Nat) :
    (ws.foldl (fun m e => m.setByte (base + e.1) e.2) m).label blk = m.label blk :=
  foldl_keeps (fun m : Memory => m.label blk) (fun (m : Memory) (e : Nat × Byte) => m.setByte (base + e.1) e.2)
    (fun _ _ => rfl) ws m

theorem Sector.giveUp_range {x : Sector} {lo hi : Nat} {e : Nat × Byte} (h : e ∈ (x.giveUp lo hi).2) :
    lo ≤ e.1 ∧ e.1 < hi := by
  obtain ⟨-, hrange⟩ := List.mem_filter.1 h
  simpa using hrange

/-- The bytes that an expulsion sends home. -/
theorem State.mem_expel (s : State) (c pa n : Nat) (drop : Bool) : (s.expel c pa n drop).mem
    = (((s.cacheOf (s.l1For c pa)).sector pa).giveUp (pa % 128) (pa % 128 + n)).2.foldl
        (fun m e => m.setByte (pa / 128 * 128 + e.1) e.2)
        ((((s.galleryCache (galleryOf c)).sector pa).giveUp (pa % 128) (pa % 128 + n)).2.foldl
          (fun m e => m.setByte (pa / 128 * 128 + e.1) e.2) s.mem) := by
  change ((s.writeHome _ _).writeHome _ _).mem = _
  rw [State.writeHome_mem, State.writeHome_mem]
  rfl

/-- An expulsion leaves device memory outside its range, and every label (R340). -/
theorem State.byte_expel (s : State) {c pa n b : Nat} (drop : Bool) (h : b < pa ∨ pa + n ≤ b) :
    (s.expel c pa n drop).mem.byte b = s.mem.byte b := by
  have hout (x : Sector) : ∀ e ∈ (x.giveUp (pa % 128) (pa % 128 + n)).2, pa / 128 * 128 + e.1 ≠ b := by
    intro e he
    obtain ⟨hlo, hhi⟩ := Sector.giveUp_range he
    omega
  rw [State.mem_expel, setBytes_other _ _ _ (hout _), setBytes_other _ _ _ (hout _)]

theorem State.label_expel (s : State) (c pa n : Nat) (drop : Bool) (blk : Nat) :
    (s.expel c pa n drop).mem.label blk = s.mem.label blk := by
  rw [State.mem_expel, setBytes_label, setBytes_label]

theorem State.carrels_logWrite (s : State) (pa n : Nat) : (s.logWrite pa n).ctx = s.ctx := by
  unfold State.logWrite State.logFor
  split
  · split
    · split <;> rfl
    · rfl
  · rfl

theorem State.carrels_retest (s : State) (pa n : Nat) : (s.retest pa n).ctx.carrels = s.ctx.carrels := rfl

theorem State.carrels_writeHome (s : State) (base : Nat) (ws : List (Nat × Byte)) :
    (s.writeHome base ws).ctx.carrels = s.ctx.carrels := by
  unfold State.writeHome
  extract_lets whole
  split
  · rfl
  · exact (State.carrels_retest ..).trans (congrArg Context.carrels (State.carrels_logWrite ..))

theorem State.carrels_homeWrite (s : State) (pa : Nat) (bs : List Byte) : (s.homeWrite pa bs).ctx.carrels = s.ctx.carrels := by
  unfold State.homeWrite
  extract_lets kept
  exact (State.carrels_retest ..).trans (congrArg Context.carrels (State.carrels_logWrite ..))

theorem State.carrels_expel (s : State) (c pa n : Nat) (drop : Bool) : (s.expel c pa n drop).ctx.carrels = s.ctx.carrels := by
  change ((s.writeHome _ _).writeHome _ _).ctx.carrels = _
  rw [State.carrels_writeHome, State.carrels_writeHome]

/-- One lane's STLBL in the scratchpad. -/
theorem State.setLabelAt_sp (s : State) (p : Piece) (lab : Label) : s.setLabelAt .sp p lab
    = s.modCarrelOf s.gang.carrel fun c => { c with sp := c.sp.setLabel (p.pa / 64) lab } := rfl

theorem State.bare_homeLabelWrite (s : State) (pa : Nat) (lab : Label) (bs : List Byte) :
    (s.homeLabelWrite pa lab bs).bare = s.bare := (s.bare_homeWrite pa bs :)

theorem State.bare_setLabelAt (s : State) {spc : Space} (h : spc = .gm ∨ spc = .sp) (p : Piece) (lab : Label) :
    (s.setLabelAt spc p lab).bare = s.bare := by
  rcases h with rfl | rfl
  · unfold State.setLabelAt
    extract_lets g base s1 l1 s2
    exact (State.bare_homeLabelWrite ..).trans (s.bare_expel g.carrel base 64 false)
  · rfl

/-- One lane's STLBL in device memory: the block's label, no byte outside the block. -/
theorem State.setLabelAt_gm (s : State) (p : Piece) (lab : Label) :
    (∀ blk, (s.setLabelAt .gm p lab).mem.label blk = if blk = p.pa / 64 then lab else s.mem.label blk)
      ∧ (∀ b, b / 64 ≠ p.pa / 64 → (s.setLabelAt .gm p lab).mem.byte b = s.mem.byte b)
      ∧ (s.setLabelAt .gm p lab).ctx.carrels = s.ctx.carrels := by
  unfold State.setLabelAt
  extract_lets g base s1 l1 s2
  have hmem : s2.mem = s1.mem := rfl
  refine ⟨fun blk => ?_, fun b hb => ?_, ?_⟩
  · rw [State.homeLabelWrite_mem, Memory.label_setLabel, show base / 64 = p.pa / 64 by simp only [base]; omega]
    exact ite_congr rfl (fun _ => rfl) fun _ => s.label_expel g.carrel base 64 false blk
  · rw [State.homeLabelWrite_mem]
    change (s2.mem.write base _).byte b = _
    rw [Memory.byte_write, if_neg ?_, hmem]
    · exact s.byte_expel false (by simp only [base]; omega)
    · rw [List.length_take, State.homeRead, Memory.read, List.length_map, List.length_range]
      simp only [base]
      omega
  · exact (State.carrels_homeWrite s2 ..).trans (s.carrels_expel g.carrel base 64 false)

end Sys2Proof.Machine
end

section
namespace Sys2Proof.Machine
open Sys2Proof

/-- The STLBLs of all lanes, in lane order (R348). -/
def State.labelLanes (s : State) (spc : Space) (lab : Nat → Label) (accs : List LaneAcc) : State :=
  accs.foldl (fun u a => a.pieces.foldl (fun u p => u.setLabelAt spc p (lab a.lane)) u) s

theorem State.labelLanes_cons (s : State) (spc : Space) (lab : Nat → Label) {a : LaneAcc} {p : Piece} (hp : a.pieces = [p])
    (accs : List LaneAcc) :
    s.labelLanes spc lab (a :: accs) = (s.setLabelAt spc p (lab a.lane)).labelLanes spc lab accs := by
  rw [State.labelLanes, List.foldl_cons, hp]
  rfl

/-- The access of a lane outside the cellar is one piece. -/
def LaneAcc.one (a : LaneAcc) : Prop := ∃ p, a.pieces = [p]

theorem State.bare_labelLanes {spc : Space} (h : spc = .gm ∨ spc = .sp) (lab : Nat → Label) {accs : List LaneAcc}
    (hone : ∀ a ∈ accs, a.one) (s : State) : (s.labelLanes spc lab accs).bare = s.bare := by
  induction accs generalizing s with
  | nil => rfl
  | cons a accs ih =>
    obtain ⟨p, hp⟩ := hone a List.mem_cons_self
    rw [State.labelLanes_cons _ _ _ hp, ih fun b hb => hone b (List.mem_cons_of_mem _ hb), State.bare_setLabelAt _ h]

/-- In device memory: the labels of the lanes' blocks, no byte outside them, no carrel. -/
theorem State.labelLanes_gm (lab : Nat → Label) {accs : List LaneAcc} (hone : ∀ a ∈ accs, a.one) (s : State) :
    (∀ blk, (s.labelLanes .gm lab accs).mem.label blk = lastLabel (fun a => lab a.lane) accs blk (s.mem.label blk))
      ∧ (∀ b, (∀ a ∈ accs, (a.pieces.headD ⟨0, 0, 1⟩).pa / 64 ≠ b / 64) →
          (s.labelLanes .gm lab accs).mem.byte b = s.mem.byte b)
      ∧ (s.labelLanes .gm lab accs).ctx.carrels = s.ctx.carrels := by
  induction accs generalizing s with
  | nil => exact ⟨fun _ => rfl, fun _ _ => rfl, rfl⟩
  | cons a accs ih =>
    obtain ⟨p, hp⟩ := hone a List.mem_cons_self
    obtain ⟨hlabel, hbyte, hcarrels⟩ := ih (fun b hb => hone b (List.mem_cons_of_mem _ hb)) (s.setLabelAt .gm p (lab a.lane))
    obtain ⟨hlabel', hbyte', hcarrels'⟩ := s.setLabelAt_gm p (lab a.lane)
    have hhead : a.pieces.headD ⟨0, 0, 1⟩ = p := by rw [hp]; rfl
    rw [State.labelLanes_cons _ _ _ hp]
    refine ⟨fun blk => ?_, fun b hb => ?_, hcarrels.trans hcarrels'⟩
    · rw [hlabel, hlabel', lastLabel_cons, hhead]
      by_cases h : blk = p.pa / 64
      · rw [if_pos h, if_pos h.symm]
      · rw [if_neg h, if_neg (Ne.symm h)]
    · rw [hbyte b fun c hc => hb c (List.mem_cons_of_mem _ hc)]
      exact hbyte' b (Ne.symm (hhead ▸ hb a List.mem_cons_self))

/-- In the scratchpad: the labels of the lanes' blocks, and nothing of device memory. -/
theorem State.labelLanes_sp (lab : Nat → Label) {accs : List LaneAcc} (hone : ∀ a ∈ accs, a.one) (s : State) :
    (∀ blk, ((s.labelLanes .sp lab accs).carrelOf s.gang.carrel).sp.label blk
        = lastLabel (fun a => lab a.lane) accs blk ((s.carrelOf s.gang.carrel).sp.label blk))
      ∧ (∀ b, ((s.labelLanes .sp lab accs).carrelOf s.gang.carrel).sp.byte b = (s.carrelOf s.gang.carrel).sp.byte b)
      ∧ (s.labelLanes .sp lab accs).mem = s.mem := by
  induction accs generalizing s with
  | nil => exact ⟨fun _ => rfl, fun _ => rfl, rfl⟩
  | cons a accs ih =>
    obtain ⟨p, hp⟩ := hone a List.mem_cons_self
    obtain ⟨hlabel, hbyte, hmem⟩ := ih (fun b hb => hone b (List.mem_cons_of_mem _ hb)) (s.setLabelAt .sp p (lab a.lane))
    have hhead : a.pieces.headD ⟨0, 0, 1⟩ = p := by rw [hp]; rfl
    have hcarrel : (s.setLabelAt .sp p (lab a.lane)).gang.carrel = s.gang.carrel := rfl
    have hsp : ((s.setLabelAt .sp p (lab a.lane)).carrelOf s.gang.carrel).sp
        = (s.carrelOf s.gang.carrel).sp.setLabel (p.pa / 64) (lab a.lane) := by
      rw [State.setLabelAt_sp, State.modCarrelOf, State.carrelOf_setCarrelOf, if_pos rfl]
    rw [hcarrel] at hlabel hbyte
    rw [hsp] at hlabel hbyte
    rw [State.labelLanes_cons _ _ _ hp]
    refine ⟨fun blk => ?_, hbyte, hmem⟩
    rw [hlabel, Memory.label_setLabel, lastLabel_cons, hhead]
    by_cases h : blk = p.pa / 64
    · rw [if_pos h, if_pos h.symm]
    · rw [if_neg h, if_neg (Ne.symm h)]

/-- A lane's access outside the cellar is one piece (R334). -/
theorem resolveLane_one {s : State} {spc : Space} (hspc : spc ≠ .cl) {n l addr : Nat} {need : Need} {fits : Bool}
    {a : LaneAcc} (h : resolveLane s spc n need fits l addr = .ok a) : a.one := by
  unfold resolveLane at h
  extract_lets g own gm top va at h
  have hown (limit : Nat) (bad : List Nat) : own limit bad = .ok a → a.one := by
    intro h
    simp only [own] at h
    split_ifs at h
    cases h
    exact ⟨_, rfl⟩
  clear_value own gm
  cases spc with
  | gm =>
    dsimp only at h
    split_ifs at h
    split at h <;> cases h
    exact ⟨_, rfl⟩
  | sp => exact hown _ _ h
  | lf => exact hown _ _ h
  | fr =>
    dsimp only at h
    split_ifs at h
    exact hown _ _ h
  | cn => exact hown _ _ h
  | cl => exact absurd rfl hspc

/-- The fields that STLBL accepts beside those of its space (R333). -/
def stlblDataOk (g : Gang) (o : Operand) : Bool :=
  match o with
  | .w i => decide (i.toNat < g.regs)
  | .s _ => true
  | _ => false

/-- What a lane stores as a label: bits 15:0 of its operand. -/
def labelOf (s : State) (x : MFmt) (l : Nat) : Label := (readLane s 0x1C 0 x.data l).extractLsb' 0 16

theorem execStlbl_issues {x : MFmt} {s : State} {m : Mask} {accs : List LaneAcc} {spc : Space}
    (hspc : Space.ofBits x.space = some spc)
    (hi : s.issues x.hdr .lane ((spc == .gm || spc == .sp) && x.width.toNat = 1 && mFieldsOk s.gang x spc && x.hint == 0
      && x.hdr.d == .absent && !x.ext && !s.gang.isShadow && stlblDataOk s.gang x.data) [] (mSrcs x true false) m)
    (h : (resolveAll m fun l => resolveLane s spc 1 Need.store false l (mAddr s.gang x spc l)) = .ok accs)
    (hlive : ∀ a ∈ accs, a.mod = true → s.traceLive = false)
    (hbad : spc = .gm → ∀ a ∈ accs, ∀ p ∈ a.pieces, blockBad s (p.pa / 64 * 64) 64 = false) :
    exec (.stlbl x) s = .next (((s.keepAll accs).labelLanes spc (labelOf s x) accs).advance x.hdr) := by
  change execStlbl x s = _
  unfold execStlbl
  simp only [hspc, Option.getD_some, Option.isSome_some, Bool.and_true]
  refine (issue_of_issues _ hi).trans ?_
  have hall : (resolveAll m fun l =>
      match resolveLane s spc 1 Need.store false l (mAddr s.gang x spc l) with
      | .error e => .error e
      | .ok acc =>
        if acc.mod && s.traceLive then .error (laneErr Code.protection (mAddr s.gang x spc l)) else .ok acc) = .ok accs := by
    refine (resolveAll_congr fun l hl => ?_).trans h
    obtain ⟨a, ha, hok⟩ := resolveAll_ok h l hl
    rw [hok]
    refine if_neg ?_
    rw [Bool.and_eq_true]
    exact fun ⟨hmod, htrace⟩ => Bool.false_ne_true ((hlive a ha hmod).symm.trans htrace)
  have hnone : ¬ (spc == .gm && !(((accs.flatMap fun a => a.pieces.map fun p => p.pa / 64 * 64).eraseDups).filter
      fun b => blockBad s b 64).isEmpty) = true := by
    intro hsome
    simp only [Bool.and_eq_true, beq_iff_eq, Bool.not_eq_true', List.isEmpty_eq_false_iff] at hsome
    obtain ⟨hgm, hne⟩ := hsome
    refine hne (List.filter_eq_nil_iff.2 fun b hb => ?_)
    obtain ⟨a, ha, hab⟩ := List.mem_flatMap.1 (List.mem_eraseDups.1 hb)
    obtain ⟨p, hp, rfl⟩ := List.mem_map.1 hab
    rw [hbad hgm a ha p hp]
    exact Bool.false_ne_true
  split
  next e he => cases he.symm.trans hall
  next found he =>
    obtain rfl := Except.ok.inj (he.symm.trans hall)
    exact if_neg hnone

/-! PREF (R338). -/

theorem execPref_issues {x : MFmt} {s : State} {m : Mask}
    (hi : s.issues x.hdr .lane (x.space == 0 && x.width == 0 && mFieldsOk s.gang x .gm && x.hdr.d == .absent
      && x.data == .absent && !x.ext) [] (mSrcs x true false) m) :
    exec (.pref x) s = .next ((m.lanes.foldl (fun u l => u.prefLane x s.gang l) s).advance x.hdr) :=
  (issue_of_issues _ hi).trans rfl

end Sys2Proof.Machine

open Sys2Proof Sys2Proof.Machine

/-- Settles O34: LDLBL reads in a state that shows the same labels, STLBL block by block, PREF by what each lane leaves. -/
theorem labelsAndPrefetch : Obligations.LabelsAndPrefetch := by
  refine ⟨fun x s m accs spc i hspc hd hi h => ?ldlbl, fun x s m accs spc hspc hi h hlive hbad => ?stlbl,
    fun x s m hi => ?pref⟩
  case ldlbl => exact ⟨_, execLdlbl_issues hspc hd hi h, ldlbl_completes hd h⟩
  case stlbl =>
    intro left
    have hgs : spc = .gm ∨ spc = .sp := by
      obtain ⟨-, -, hlegal, -⟩ := id hi
      simp only [Bool.and_eq_true, Bool.or_eq_true, beq_iff_eq] at hlegal
      obtain ⟨⟨⟨⟨⟨⟨⟨hgs, -⟩, -⟩, -⟩, -⟩, -⟩, -⟩, -⟩ := hlegal
      exact hgs
    have hone : ∀ a ∈ accs, a.one := by
      intro a ha
      obtain ⟨l, -, hl⟩ := resolveAll_mem h ha
      exact resolveLane_one (by rcases hgs with rfl | rfl <;> decide) hl
    have hbare : ((s.keepAll accs).labelLanes spc (labelOf s x) accs).bare = s.bare :=
      (State.bare_labelLanes hgs _ hone _).trans (s.bare_keepAll accs)
    have hgang := State.gang_of_bare hbare
    have hkept : ∀ c, (s.keepAll accs).carrelOf c = s.carrelOf c := fun c =>
      State.keepAll_ind (P := fun u => u.carrelOf c = s.carrelOf c) (fun _ _ _ hu => hu) accs rfl
    have hsp (u : State) : ((u.advance x.hdr).carrelOf s.gang.carrel).sp = (u.carrelOf s.gang.carrel).sp :=
      (congrArg Carrel.sp (u.uncounted_advance x.hdr _) :)
    refine ⟨_, execStlbl_issues hspc hi h hlive hbad, ?_, fun hf => State.advance_pc (by rw [State.stand, hgang]; rfl) hf x.hdr,
      ?_, ?_⟩
    · rw [State.advance, State.leave_clock, State.clock_of_bare hbare]
    · have hhash (u : State) : (u.advance x.hdr).gang.hash = u.gang.hash :=
        (congrArg Gang.hash (u.offIssue_advance x.hdr) :)
      rw [hhash, hgang]
    · rw [hsp, State.advance, State.leave_mem]
      rcases hgs with rfl | rfl
      · obtain ⟨hlabel, hbyte, hcarrels⟩ := State.labelLanes_gm (labelOf s x) hone (s.keepAll accs)
        have hcarrel : ((s.keepAll accs).labelLanes .gm (labelOf s x) accs).carrelOf s.gang.carrel
            = s.carrelOf s.gang.carrel := by rw [State.carrelOf, hcarrels, ← hkept]; rfl
        rw [hcarrel]
        refine ⟨fun blk => ?_, fun blk => rfl, fun b => rfl, fun b hb => ?_⟩
        · rw [hlabel, State.keepAll_mem, if_pos rfl]
          rfl
        · rw [hbyte b (hb rfl), State.keepAll_mem]
      · obtain ⟨hlabel, hbyte, hmem⟩ := State.labelLanes_sp (labelOf s x) hone (s.keepAll accs)
        rw [s.gang_keepAll] at hlabel hbyte
        rw [hmem, State.keepAll_mem]
        refine ⟨fun blk => rfl, fun blk => ?_, fun b => ?_, fun b _ => rfl⟩
        · rw [hlabel, hkept, if_pos rfl]
          rfl
        · rw [hbyte, hkept]
  case pref =>
    have hleft := State.prefLanes_prefetched (s := s) x (Prefetched.refl ..) m.lanes
    have hbare := hleft.sees.bare
    have hgang := hleft.sees.gang
    refine ⟨_, execPref_issues hi, wentOn_advance x.hdr (State.clock_of_bare hbare) (congrArg State.cur hbare :)
      (congrArg State.halt hbare :) (congrArg State.faults hbare :) hleft.sees.mem (by rw [State.stand, hgang]; rfl), ?_,
      fun a => ?_, fun hh l a hm hl hok p hp => ?_⟩
    · rw [flights_advance, hgang]
    · rw [State.viewByte_advance, hleft.sees.byte]
    · have hvalid := State.prefLanes_valid (u := s) hh (Prefetched.refl ..) (Mask.mem_lanes.2 hm) hok hp
      have hrest := State.leave_rest (m.lanes.foldl (fun u l => u.prefLane x s.gang l) s) x.hdr
        ((m.lanes.foldl (fun u l => u.prefLane x s.gang l) s).pc + 12) false
      have hl1s : (State.advance (m.lanes.foldl (fun u l => u.prefLane x s.gang l) s) x.hdr).l1s
          = (m.lanes.foldl (fun u l => u.prefLane x s.gang l) s).l1s := (congrArg State.l1s hrest :)
      have hfused : (State.advance (m.lanes.foldl (fun u l => u.prefLane x s.gang l) s) x.hdr).fused = s.fused :=
        (congrArg State.fused hrest :).trans hleft.sees.fused
      rw [State.l1For_congr hfused, State.cacheOf, hl1s]
      exact hvalid
end

section
namespace Sys2Proof.Machine
open Sys2Proof

/-! What accesses leave of the registers and of the carrels (R335 to R348). -/

/-- What every access leaves of a gang of one task: all but its paths, hash, results in flight, empty bits, queues, traps and
stops, and what an abandoned trace takes from it. -/
def Gang.offAccess (g : Gang) : Gang :=
  { g.offIssue with
    we := Vector.replicate 256 0, wo := Vector.replicate 256 0, q := Vector.replicate 16 (Vector.replicate 32 []),
    flights := [], hash := 0, trapc := 0, trappc := 0, mode := TraceMode.untraced, folio := 0, puts := [] }

def Gang.isOne (g : Gang) : Bool := !g.packed && g.pack.isEmpty

/-- A gang's register files, and of a gang of one task all that accesses leave. -/
def Gang.accessed (g : Gang) : (Vector Lanes 256 × Vector DWord 64 × Vector Mask 8 × BitVec 8) × Option Gang :=
  ((g.w, g.s, g.p, g.k), if g.isOne then some g.offAccess else none)

/-- What every access leaves: the current gang's registers, lofts, tiles and future slots. -/
def State.accessed (s : State) :
    Nat × ((Vector Lanes 256 × Vector DWord 64 × Vector Mask 8 × BitVec 8) × Option Gang) × (Nat → Memory)
      × (Nat → Vector Tile 4) × Table Slot :=
  (s.cur, s.gang.accessed, fun c => (s.carrelOf c).loft, fun c => (s.carrelOf c).tiles, s.ctx.slots)

/-- What an access of an untraced gang leaves besides: the shelves, and the mode of a gang of one task. -/
def State.calm (s : State) : Table Shelf × Option TraceMode :=
  (s.ctx.shelves, if s.gang.isOne then some s.gang.mode else none)

theorem State.isOne_iff (s : State) : s.gang.isOne = true ↔ s.oneTask := by
  rw [Gang.isOne, Bool.and_eq_true, Bool.not_eq_true', List.isEmpty_iff]
  rfl

theorem registersKept_of_offAccess {s t : State} (h : t.gang.offAccess = s.gang.offAccess) : registersKept s t := by
  let g' := t.gang
  exact (congrArg (fun g : Gang => { g with
    p0 := g'.p0, p1 := g'.p1, younger := g'.younger, split := g'.split, focus := g'.focus, run := g'.run,
    ceded := g'.ceded, cededAt := g'.cededAt, stopped := g'.stopped, we := g'.we, wo := g'.wo, q := g'.q,
    flights := g'.flights, hash := g'.hash, trapc := g'.trapc, trappc := g'.trappc, trapSplit := g'.trapSplit,
    report := g'.report, mode := g'.mode, folio := g'.folio, puts := g'.puts }) h :)

/-- The first clause of AccessFrame, from what accesses leave. -/
theorem kept_of_accessed {s t : State} (h : t.accessed = s.accessed) :
    t.cur = s.cur ∧ (s.oneTask → registersKept s t) ∧ t.gang.w = s.gang.w ∧ t.gang.s = s.gang.s
      ∧ t.gang.p = s.gang.p ∧ t.gang.k = s.gang.k ∧ (∀ c, (t.carrelOf c).loft = (s.carrelOf c).loft)
      ∧ (∀ c, (t.carrelOf c).tiles = (s.carrelOf c).tiles) ∧ t.ctx.slots = s.ctx.slots := by
  obtain ⟨hcur, hrest⟩ := Prod.mk.inj h
  obtain ⟨hgang, hrest⟩ := Prod.mk.inj hrest
  obtain ⟨hloft, hrest⟩ := Prod.mk.inj hrest
  obtain ⟨htiles, hslots⟩ := Prod.mk.inj hrest
  obtain ⟨hfiles, hone⟩ := Prod.mk.inj hgang
  obtain ⟨hw, hfiles⟩ := Prod.mk.inj hfiles
  obtain ⟨hs, hfiles⟩ := Prod.mk.inj hfiles
  obtain ⟨hp, hk⟩ := Prod.mk.inj hfiles
  refine ⟨hcur, fun h1 => registersKept_of_offAccess ?_, hw, hs, hp, hk, fun c => congrFun hloft c,
    fun c => congrFun htiles c, hslots⟩
  rw [if_pos (s.isOne_iff.2 h1)] at hone
  split at hone
  · exact Option.some.inj hone
  · cases hone

theorem calm_spec {s t : State} (h : t.calm = s.calm) :
    t.ctx.shelves = s.ctx.shelves ∧ (s.oneTask → t.gang.mode = s.gang.mode) := by
  obtain ⟨hshelves, hmode⟩ := Prod.mk.inj h
  refine ⟨hshelves, fun h1 => ?_⟩
  rw [if_pos (s.isOne_iff.2 h1)] at hmode
  split at hmode
  · exact Option.some.inj hmode
  · cases hmode

theorem Gang.accessed_of_offIssue {g k : Gang} (h : g.offIssue = k.offIssue) : g.accessed = k.accessed :=
  (congrArg Gang.accessed h :)

/-- What the gang, the carrels and the slots determine. -/
theorem State.accessed_eq {s t : State} (hcur : t.cur = s.cur) (hgang : t.gang.accessed = s.gang.accessed)
    (hcarrel : ∀ c, (t.carrelOf c).uncounted = (s.carrelOf c).uncounted) (hslots : t.ctx.slots = s.ctx.slots) :
    t.accessed = s.accessed := by
  unfold State.accessed
  rw [hcur, hgang, hslots, show (fun c => (t.carrelOf c).loft) = fun c => (s.carrelOf c).loft from
    funext fun c => (congrArg Carrel.loft (hcarrel c) :), show (fun c => (t.carrelOf c).tiles)
      = fun c => (s.carrelOf c).tiles from funext fun c => (congrArg Carrel.tiles (hcarrel c) :)]

theorem State.accessed_of_bare {s t : State} (h : t.bare = s.bare)
    (hcarrel : ∀ c, (t.carrelOf c).uncounted = (s.carrelOf c).uncounted) : t.accessed = s.accessed :=
  State.accessed_eq (congrArg State.cur h :) (congrArg (fun u : State => u.gang.accessed) h :) hcarrel
    (congrArg (fun u : State => u.ctx.slots) h :)

theorem State.calm_of_bare {s t : State} (h : t.bare = s.bare) : t.calm = s.calm := (congrArg State.calm h :)

/-! States that differ in the current gang's paths, results in flight and traps, in copies and counters only. -/

/-- `t` shows every byte of memory, of scratchpads and of frames as `s` does, with all registers as they were. -/
structure Undisturbed (s t : State) : Prop where
  accessed : t.accessed = s.accessed
  calm : t.calm = s.calm
  mem : t.mem = s.mem
  byte : ∀ c a, t.viewByte c a = s.viewByte c a
  sp : ∀ c, (t.carrelOf c).sp = (s.carrelOf c).sp
  frames : t.ctx.frames = s.ctx.frames

theorem Undisturbed.trans {s u t : State} (h : Undisturbed s u) (k : Undisturbed u t) : Undisturbed s t :=
  ⟨k.accessed.trans h.accessed, k.calm.trans h.calm, k.mem.trans h.mem, fun c a => (k.byte c a).trans (h.byte c a),
    fun c => (k.sp c).trans (h.sp c), k.frames.trans h.frames⟩

theorem SameView.undisturbed {s u : State} (h : SameView s u) : Undisturbed s u :=
  ⟨State.accessed_of_bare h.bare h.carrel, State.calm_of_bare h.bare, h.mem, h.byte,
    fun c => (congrArg Carrel.sp (h.carrel c) :), (congrArg (fun v : State => v.ctx.frames) h.bare :)⟩

/-- A change of the current gang in what accesses do not leave. -/
theorem Undisturbed.modGang (s : State) {f : Gang → Gang} (h : (f s.gang).accessed = s.gang.accessed)
    (hmode : (f s.gang).isOne = s.gang.isOne ∧ (f s.gang).mode = s.gang.mode) : Undisturbed s (s.modGang f) where
  accessed := State.accessed_eq rfl (by rw [State.modGang_gang, h]) (fun _ => rfl) rfl
  calm := by
    obtain ⟨hone, hm⟩ := hmode
    rw [State.calm, State.modGang_gang, hone, hm]
    rfl
  mem := rfl
  byte c a := State.viewByte_congr rfl rfl rfl rfl c a
  sp c := rfl
  frames := rfl

theorem Undisturbed.of_offIssue (s : State) {f : Gang → Gang} (h : (f s.gang).offIssue = s.gang.offIssue) :
    Undisturbed s (s.modGang f) :=
  Undisturbed.modGang s (Gang.accessed_of_offIssue h) ⟨(congrArg Gang.isOne h :), (congrArg Gang.mode h :)⟩

theorem Undisturbed.modPath (s : State) (f : Path → Path) : Undisturbed s (s.modPath f) :=
  Undisturbed.of_offIssue s (Gang.offIssue_setPath ..)

theorem Undisturbed.hold (s : State) : Undisturbed s s.hold :=
  Undisturbed.of_offIssue s (Gang.offIssue_setPath s.gang { s.gang.path with held := some s.clock, lacks := false } :)

theorem Undisturbed.holdRead (s : State) : Undisturbed s s.holdRead :=
  (Undisturbed.modPath s _).trans (Undisturbed.hold _)

theorem Undisturbed.holdEmpty (s : State) : Undisturbed s s.holdEmpty :=
  (Undisturbed.hold s).trans (Undisturbed.modPath ..)

theorem Undisturbed.tick (s : State) : Undisturbed s s.tick where
  accessed := State.accessed_eq rfl rfl (s.uncounted_tick ·) rfl
  calm := rfl
  mem := rfl
  byte c a := State.viewByte_congr rfl rfl rfl rfl c a
  sp c := (congrArg Carrel.sp (s.uncounted_tick c) :)
  frames := rfl

theorem Undisturbed.issuedOne (s : State) : Undisturbed s s.issuedOne := by
  unfold State.issuedOne
  split
  · exact (SameView.count ..).undisturbed
  · exact (SameView.refl s).undisturbed

theorem Undisturbed.leave (s : State) (h : Header) (pc : DWord) (b : Bool) : Undisturbed s (s.leave h pc b) := by
  refine (Undisturbed.issuedOne s).trans (Undisturbed.trans ?_ (Undisturbed.tick _))
  refine Undisturbed.of_offIssue _ ?_
  rw [Gang.settled, Gang.offIssue_settle, Gang.offIssue_hint]
  exact Gang.offIssue_setPath ..

theorem Undisturbed.advance (s : State) (h : Header) : Undisturbed s (s.advance h) := Undisturbed.leave ..

theorem Undisturbed.assertHalt (s : State) (f : FaultInfo) : Undisturbed s (s.assertHalt f) :=
  ⟨rfl, rfl, rfl, fun c a => State.viewByte_congr rfl rfl rfl rfl c a, fun _ => rfl, rfl⟩

theorem Undisturbed.logErrors (s : State) (bs : List Nat) : Undisturbed s (bs.foldl (fun s b => s.logError b) s) :=
  List.foldlRecOn bs _ (SameView.refl s).undisturbed fun _ hu _ _ => hu.trans
    ⟨rfl, rfl, rfl, fun c a => State.viewByte_congr rfl rfl rfl rfl c a, fun _ => rfl, rfl⟩

theorem Undisturbed.raiseFault {s t : State} {kind : BitVec 8} {m ls : Mask} {detail : DWord}
    (h : Machine.raiseFault s kind m ls detail = .next t) : Undisturbed s t := by
  cases h
  exact Undisturbed.assertHalt ..

theorem Undisturbed.raiseLanes {s t : State} {m : Mask} {e : LaneFault} (h : Machine.raiseLanes s m e = .next t) :
    Undisturbed s t :=
  (Undisturbed.logErrors s e.bad).trans (Undisturbed.raiseFault h)

theorem Undisturbed.trapped (s : State) (cause : BitVec 8) (detail : BitVec 16) (ls : Mask) (ret : DWord) :
    Undisturbed s (s.trapped cause detail ls ret) := by
  refine Undisturbed.trans (Undisturbed.modGang s ?_ ?_) (Undisturbed.tick _)
  · have hoff := State.offIssue_trapped (s := s) (cause := cause) (detail := detail) (ls := ls) (ret := ret)
    have hgang := State.trapped_gang (s := s) (cause := cause) (detail := detail) (ls := ls) (ret := ret)
    rw [hgang] at hoff
    exact (congrArg Gang.accessed hoff :)
  · have hoff := State.offIssue_trapped (s := s) (cause := cause) (detail := detail) (ls := ls) (ret := ret)
    have hgang := State.trapped_gang (s := s) (cause := cause) (detail := detail) (ls := ls) (ret := ret)
    rw [hgang] at hoff
    exact ⟨(congrArg Gang.isOne hoff :), (congrArg Gang.mode hoff :)⟩

theorem Undisturbed.takeTrap {s t : State} {cause : BitVec 8} {detail : BitVec 16} {ls m off : Mask} {ret : DWord}
    (h : Machine.takeTrap s cause detail ls m off ret = .next t) : Undisturbed s t := by
  unfold Machine.takeTrap at h
  split at h
  · exact Undisturbed.raiseFault h
  · cases h
    exact Undisturbed.trapped ..

/-- Whatever comes of a word: nothing is disturbed, or it acts. -/
theorem issue_outcome {s t : State} {h : Header} {c : WordClass} {legal : Bool} {dsts : List (Operand × Bool)}
    {srcs : Mask → List Src} {act : Mask → Result} (ht : issue s h c legal dsts srcs act = .next t) :
    Undisturbed s t ∨ ∃ m, legal = true ∧ act m = .next t := by
  rcases issueActs_cases (s := s) (h := h) (a := acts s.gang h c) (legal := legal) (dsts := dsts) (srcs := srcs)
    (act := act) with ⟨-, e⟩ | ⟨m, e⟩ | e | ⟨x, m, -, -, -, -, ls, e⟩ | ⟨m, hacts, e⟩
  · cases e.symm.trans ht
    exact .inl (Undisturbed.advance ..)
  · exact .inl (Undisturbed.raiseFault (e.symm.trans ht))
  · cases e.symm.trans ht
    exact .inl (Undisturbed.holdEmpty s)
  · exact .inl (Undisturbed.takeTrap (e.symm.trans ht))
  · obtain ⟨-, -, hlegal, -, -⟩ := hacts
    exact .inr ⟨m, hlegal, e.symm.trans ht⟩

end Sys2Proof.Machine
end

section
namespace Sys2Proof.Machine
open Sys2Proof

/-! What the records of a traced access may do (R60): an abandoned trace leaves registers, carrels and slots. -/

theorem Gang.accessed_mapTasks {f : Gang → Gang} (hf : ∀ g, (f g).offAccess = g.offAccess) (g : Gang) :
    (g.mapTasks f).accessed = g.accessed := by
  have hfiles : ((f g).w, (f g).s, (f g).p, (f g).k) = (g.w, g.s, g.p, g.k) :=
    (congrArg (fun k : Gang => (k.w, k.s, k.p, k.k)) (hf g) :)
  have hpacked : (f g).packed = g.packed := (congrArg Gang.packed (hf g) :)
  have hone : (g.mapTasks f).isOne = g.isOne := by
    change (!(f g).packed && (g.pack.map _).isEmpty) = (!g.packed && g.pack.isEmpty)
    rw [hpacked, List.isEmpty_map]
  refine Prod.ext hfiles ?_
  change (if (g.mapTasks f).isOne then some (g.mapTasks f).offAccess else none) = if g.isOne then some g.offAccess else none
  rw [hone]
  split
  next h =>
    obtain ⟨-, hpack⟩ := Bool.and_eq_true_iff.1 h
    have hnil : g.pack = [] := List.isEmpty_iff.1 hpack
    have hsame : g.mapTasks f = f g := by
      have hf' : (f g).pack = [] := (congrArg Gang.pack (hf g) :).trans hnil
      rw [Gang.mapTasks, hnil, List.map_nil, ← hf']
    rw [hsame, hf]
  next => rfl

/-- Every gang of the table is changed in what accesses do not leave. -/
theorem State.accessed_mapGangs {s t : State} {F : Gang → Gang} (hF : ∀ g, (F g).accessed = g.accessed)
    (hcur : t.cur = s.cur) (hcarrels : t.ctx.carrels = s.ctx.carrels) (hslots : t.ctx.slots = s.ctx.slots)
    (ht : t.ctx.gangs = s.ctx.gangs.map fun e => (e.1, F e.2)) : t.accessed = s.accessed := by
  refine State.accessed_eq hcur ?_ (fun c => by rw [State.carrelOf, hcarrels]; rfl) hslots
  show (Table.look t.ctx.gangs t.cur _).accessed = (Table.look s.ctx.gangs s.cur _).accessed
  rw [ht, hcur]
  exact Table.look_map_keeps Gang.accessed (fun e => (e.1, F e.2)) (fun _ => rfl) (fun e => hF e.2) ..

theorem State.carrels_writeLog (s : State) (n area : Nat) (l : OrderLog) :
    (s.writeLog n area l).ctx.carrels = s.ctx.carrels := by
  unfold State.writeLog
  extract_lets fs at_ header entry s1
  refine (foldl_keeps (fun u : State => u.ctx.carrels) (fun (u : State) (e : Nat × List (Nat × Nat)) =>
    u.homeWrite (l.start s.sliceCount area e.1) (chunkBlocks (l.start s.sliceCount area e.1) (e.2.length + 1) e.2))
    (fun u _ => u.carrels_homeWrite ..) l.chunks s1).trans ?_
  rw [State.carrels_homeWrite, State.carrels_homeWrite]

theorem State.carrels_writeLogs (s : State) : s.writeLogs.ctx.carrels = s.ctx.carrels :=
  foldl_keeps (fun acc : State × Nat => acc.1.ctx.carrels)
    (fun (acc : State × Nat) (e : Nat × OrderLog) => (acc.1.writeLog e.1 acc.2 e.2, acc.2 + e.2.body s.sliceCount))
    (fun acc _ => acc.1.carrels_writeLog ..) s.ctx.logs (s, s.ctx.logBase.toNat + 4096)

theorem State.accessed_setLogOf (s : State) (n : Nat) (l : OrderLog) : (s.setLogOf n l).accessed = s.accessed := by
  refine (State.accessed_of_bare (State.bare_writeLogs (s.putLog n l)) fun c => ?_).trans rfl
  rw [State.carrelOf, State.carrels_writeLogs]
  rfl

theorem State.accessed_dropMember (s : State) (g : Gang) : (s.dropMember g).accessed = s.accessed := by
  unfold State.dropMember
  extract_lets n l
  split
  · rfl
  · exact State.accessed_setLogOf ..

theorem State.accessed_leaveCellar (s : State) (g : Gang) : (s.leaveCellar g).accessed = s.accessed := by
  unfold State.leaveCellar
  extract_lets me leave
  split <;> rfl

theorem State.accessed_dropTasks (s : State) (dead : List Nat) : (s.dropTasks dead).accessed = s.accessed := by
  unfold State.dropTasks
  extract_lets s1 close room stays
  have h1 : s1.accessed = s.accessed :=
    foldl_keeps State.accessed (fun (s : State) (a : Nat) => (s.dropMember (s.waitingGang a)).leaveCellar (s.waitingGang a))
      (fun _ _ => (State.accessed_leaveCellar ..).trans (State.accessed_dropMember ..)) dead s
  exact Eq.trans (State.accessed_mapGangs (s := s1)
    (Gang.accessed_mapTasks (f := fun g => { g with puts := g.puts.filter stays }) fun _ => rfl) rfl rfl rfl rfl) h1

theorem State.accessed_abandon (s : State) (n : Nat) : (s.abandon n).accessed = s.accessed := by
  unfold State.abandon
  extract_lets new flip lost waits
  split
  extract_lets s1 tr tr1
  have h1 : s1.accessed = s.accessed := (State.accessed_dropTasks ..).trans
    (foldl_keeps State.accessed (fun (s : State) (a : Nat) => s.dropParked a) (fun _ _ => rfl) _ _)
  have hflip (g : Gang) : (flip g).offAccess = g.offAccess := by
    simp only [flip]
    split
    · rfl
    · split <;> rfl
  exact Eq.trans (State.accessed_mapGangs (s := s1) (Gang.accessed_mapTasks hflip) rfl rfl rfl rfl) h1

theorem State.accessed_checkLimit (s : State) (n : Nat) : (s.checkLimit n).accessed = s.accessed := by
  unfold State.checkLimit
  split
  · exact State.accessed_abandon ..
  · rfl

theorem State.accessed_modTraceOf (s : State) (n : Nat) (f : Trace → Trace) : (s.modTraceOf n f).accessed = s.accessed := rfl

theorem State.accessed_addRecord (s : State) (t f : Nat) (r : Record) : (s.addRecord t f r).accessed = s.accessed :=
  (State.accessed_checkLimit ..).trans (State.accessed_modTraceOf ..)

theorem traceReads_accessed {s s1 : State} {g : Gang} {gs : List (Nat × Nat)} (h : traceReads s g gs = .ok s1) :
    s1.accessed = s.accessed := by
  induction gs generalizing s with
  | nil => cases h; rfl
  | cons e gs ih =>
    rw [traceReads] at h
    extract_lets k t at h
    split at h
    · cases h; rfl
    · split at h
      · cases h
      · split at h
        · cases h
        · split at h
          · exact ih h
          · exact (ih h).trans (State.accessed_addRecord ..)

theorem traceWrites_accessed {s s1 : State} {g : Gang} {gs : List (Nat × Nat)} (h : traceWrites s g gs = .ok s1) :
    s1.accessed = s.accessed := by
  induction gs generalizing s with
  | nil => cases h; rfl
  | cons e gs ih =>
    rw [traceWrites] at h
    extract_lets k at h
    split at h
    · cases h; rfl
    · split at h
      · cases h
      · split at h
        · exact ih h
        · exact (ih h).trans (State.accessed_addRecord ..)

theorem traceCompare_keeps {β : Type} (π : State → β) (hπ : ∀ s n t, π (s.setTraceOf n t) = π s) (s : State) (g : Gang)
    (old new : List (Nat × Nat × List Byte)) : π (traceCompare s g old new) = π s := by
  unfold traceCompare
  refine List.foldlRecOn _ _ (motive := fun u => π u = π s) rfl fun u hu e _ => ?_
  dsimp only
  split
  · exact hu
  · exact (hπ ..).trans hu

/-! Loads (R335, R337). -/

/-- A result for w registers or a FIFO marks registers empty and nothing else. -/
theorem Gang.accessed_launch (g : Gang) {f : Flight} (hd : (∃ i, f.dst = .w i) ∨ ∃ i, f.dst = .q i) :
    (g.launch f).accessed = g.accessed := by
  unfold Gang.launch
  rcases hd with ⟨i, hd⟩ | ⟨i, hd⟩
  · rw [hd]
    exact foldl_keeps Gang.accessed (fun (g : Gang) k => g.markEmpty f.mask (.w (i + BitVec.ofNat 8 k)) false)
      (fun _ _ => rfl) (List.range f.vals.length) g
  · rw [hd]; rfl

theorem Undisturbed.launch (s : State) {f : Flight} (hd : (∃ i, f.dst = .w i) ∨ ∃ i, f.dst = .q i) :
    Undisturbed s (s.modGang fun g => g.launch f) := by
  have hoff := s.gang.offLaunch_launch f
  exact Undisturbed.modGang s (Gang.accessed_launch _ hd) ⟨(congrArg Gang.isOne hoff :), (congrArg Gang.mode hoff :)⟩

/-- Whatever comes of a load. -/
theorem loadAct_outcome {s t : State} {x : MFmt} {spc : Space} {n : Nat} {m : Mask}
    (hd : (∃ i, x.hdr.d = .w i) ∨ ∃ i, x.hdr.d = .q i) (h : loadAct s x spc n m = .next t) :
    Undisturbed s t ∨ ∃ (accs : List LaneAcc) (s1 : State), traceReads s s.gang (modGranules accs) = .ok s1
      ∧ Undisturbed (if s.gang.path.reread then (s1.keepAll accs).expelAll spc accs else s1.keepAll accs) t := by
  unfold loadAct at h
  extract_lets g at h
  split at h
  · exact .inl (Undisturbed.raiseLanes h)
  next accs _ =>
    split at h
    · cases h; exact .inl (Undisturbed.holdRead s)
    · exact .inl (Undisturbed.raiseFault h)
    next s1 hs1 =>
      extract_lets s1' s2 s3 bytes f at h
      cases h
      refine .inr ⟨accs, s1, hs1, ?_⟩
      have hfilled : SameView (if g.path.reread then s1'.expelAll spc accs else s1') s2 := SameView.fillAll ..
      have hcounted : SameView s2 s3 := by
        simp only [s3]
        split
        · exact SameView.count ..
        · exact SameView.refl _
      exact (hfilled.trans hcounted).undisturbed.trans ((Undisturbed.launch s3 hd).trans (Undisturbed.advance ..))

theorem State.expelAll_keeps (s : State) (spc : Space) (accs : List LaneAcc) :
    (s.expelAll spc accs).bare = s.bare ∧ (s.expelAll spc accs).ctx.carrels = s.ctx.carrels := by
  unfold State.expelAll
  split
  · refine List.foldlRecOn _ _ (motive := fun u : State => u.bare = s.bare ∧ u.ctx.carrels = s.ctx.carrels) ⟨rfl, rfl⟩
      fun u ⟨hb, hc⟩ p _ => ?_
    exact ⟨(u.bare_expel ..).trans hb, (u.carrels_expel ..).trans hc⟩
  · exact ⟨rfl, rfl⟩

theorem State.accessed_reread (s : State) (b : Bool) (spc : Space) (accs : List LaneAcc) :
    (if b then (s.keepAll accs).expelAll spc accs else s.keepAll accs).accessed = s.accessed
      ∧ (if b then (s.keepAll accs).expelAll spc accs else s.keepAll accs).calm = s.calm := by
  have hkept := (SameView.keepAll s accs).undisturbed
  obtain ⟨hbare, hcarrels⟩ := (s.keepAll accs).expelAll_keeps spc accs
  split
  · refine ⟨(State.accessed_of_bare hbare fun c => ?_).trans hkept.accessed, (State.calm_of_bare hbare).trans hkept.calm⟩
    rw [State.carrelOf, hcarrels]
    rfl
  · exact ⟨hkept.accessed, hkept.calm⟩

theorem loadAct_accessed {s t : State} {x : MFmt} {spc : Space} {n : Nat} {m : Mask}
    (hd : (∃ i, x.hdr.d = .w i) ∨ ∃ i, x.hdr.d = .q i) (h : loadAct s x spc n m = .next t) :
    t.accessed = s.accessed ∧ ((∀ l, s.traced (s.gang.task l) = false) → t.calm = s.calm
      ∧ (s.gang.path.reread = false → Undisturbed s t)) := by
  rcases loadAct_outcome hd h with hleft | ⟨accs, s1, hs1, hleft⟩
  · exact ⟨hleft.accessed, fun _ => ⟨hleft.calm, fun _ => hleft⟩⟩
  · obtain ⟨haccessed, hcalm⟩ := s1.accessed_reread s.gang.path.reread spc accs
    refine ⟨hleft.accessed.trans (haccessed.trans (traceReads_accessed hs1)), fun ht => ?_⟩
    cases hs1.symm.trans (traceReads_untraced ht _)
    refine ⟨hleft.calm.trans hcalm, fun hr => ?_⟩
    rw [hr] at hleft
    exact (SameView.keepAll s accs).undisturbed.trans hleft

end Sys2Proof.Machine
end

section
namespace Sys2Proof.Machine
open Sys2Proof

/-! Stores (R335, R337). -/

theorem Table.put_ne_nil {α : Type} (t : Table α) (k : Nat) (v : α) : Table.put t k v ≠ [] := by
  intro h
  have hseek := Table.seek_put t k k v
  rw [h, if_pos rfl] at hseek
  cases hseek

theorem Gang.isOne_task (g : Gang) (l : Nat) : (g.task l).isOne = g.isOne := by
  unfold Gang.task
  split
  · rfl
  · split
    next p hp =>
      have hpack : g.pack.isEmpty = false := by
        cases hg : g.pack with
        | nil => rw [hg] at hp; cases hp
        | cons e r => rfl
      have hput : (Table.put (Table.del g.pack l) g.front g.part : List (Nat × Part)).isEmpty = false :=
        List.isEmpty_eq_false_iff.2 (Table.put_ne_nil (Table.del g.pack l) g.front g.part)
      change (!g.packed && (Table.put (Table.del g.pack l) g.front g.part : List (Nat × Part)).isEmpty)
        = (!g.packed && g.pack.isEmpty)
      rw [hpack, hput]
    next => rfl

/-- To bring a task to the front and fold its hash leaves what accesses leave. -/
theorem Gang.accessed_hashOf (g : Gang) (l : Nat) (h : DWord) : ({ g.task l with hash := h } : Gang).accessed = g.accessed := by
  have hone : ({ g.task l with hash := h } : Gang).isOne = g.isOne := g.isOne_task l
  have hfiles : ((g.task l).w, (g.task l).s, (g.task l).p, (g.task l).k) = (g.w, g.s, g.p, g.k) :=
    (congrArg (fun k : Gang => (k.w, k.s, k.p, k.k)) (g.offTask_task l) :)
  refine Prod.ext hfiles ?_
  change (if ({ g.task l with hash := h } : Gang).isOne then some ({ g.task l with hash := h } : Gang).offAccess else none)
    = if g.isOne then some g.offAccess else none
  rw [hone]
  split
  next h1 =>
    obtain ⟨-, hpack⟩ := Bool.and_eq_true_iff.1 h1
    rw [g.task_of_pack_nil (List.isEmpty_iff.1 hpack)]
    rfl
  next => rfl

theorem Gang.accessed_foldStores (g : Gang) (sp : Bool) (accs : List LaneAcc) (data : Nat → List Byte) :
    (g.foldStores sp accs data).accessed = g.accessed :=
  foldl_keeps Gang.accessed (fun (g : Gang) (a : LaneAcc) =>
    { g.task a.lane with hash := foldLane (g.task a.lane).hash sp (accVirtual a (data a.lane)) })
    (fun g a => g.accessed_hashOf a.lane _) accs g

/-- The mode of a gang of one task. -/
def Gang.modeOne (g : Gang) : Option TraceMode := if g.isOne then some g.mode else none

theorem Gang.modeOne_foldStores (g : Gang) (sp : Bool) (accs : List LaneAcc) (data : Nat → List Byte) :
    (g.foldStores sp accs data).modeOne = g.modeOne := by
  refine foldl_keeps Gang.modeOne (fun (g : Gang) (a : LaneAcc) =>
    { g.task a.lane with hash := foldLane (g.task a.lane).hash sp (accVirtual a (data a.lane)) }) (fun g a => ?_) accs g
  have hone := g.isOne_task a.lane
  change (if (g.task a.lane).isOne then some (g.task a.lane).mode else none) = if g.isOne then some g.mode else none
  rw [hone]
  split
  next h1 =>
    obtain ⟨-, hpack⟩ := Bool.and_eq_true_iff.1 h1
    rw [g.task_of_pack_nil (List.isEmpty_iff.1 hpack)]
  next => rfl

/-- A store into another gallery's L1 or L2 is not what a carrel sees (R123, R125). -/
theorem State.viewByte_storeSector_other (s : State) {c k : Nat} (hgal : galleryOf c ≠ galleryOf k) (how : StoreHow)
    (pa : Nat) (ws : List (Nat × Byte)) (a : Nat) : (s.storeSector k how pa ws).viewByte c a = s.viewByte c a := by
  have hput (u : State) (l1 : Nat) (x : Cache) (hfused : u.fused = s.fused) (hl1 : l1 = s.l1For k pa) :
      (u.setCacheOf l1 x).viewByte c a = u.viewByte c a := by
    have hne : u.l1For c a ≠ l1 := by
      rw [State.l1For_congr hfused, hl1]
      intro heq
      exact hgal (by rw [← s.galleryOf_l1For c a, heq, s.galleryOf_l1For])
    have hlook : (u.setCacheOf l1 x).cacheOf (u.l1For c a) = u.cacheOf (u.l1For c a) := (Table.look_put ..).trans (if_neg hne)
    rw [State.viewByte_eq, show (u.setCacheOf l1 x).l1For c a = u.l1For c a from rfl, hlook]
    rfl
  unfold State.storeSector
  extract_lets l1 x whole fused mark c0 fresh s1 c1
  split
  · unfold State.intoL2
    split
    · rfl
    · extract_lets d
      have hlook : (s.setGalleryCache (galleryOf k) (d.setSector (pa / 128 * 128) ((d.sector (pa / 128 * 128)).put ws)
          fun l => { l with writers := l.writers ||| carrelBit k })).galleryCache (galleryOf c) = s.galleryCache (galleryOf c) :=
        (Table.look_put ..).trans (if_neg hgal)
      rw [State.viewByte_eq, State.underByte, hlook]
      rfl
  · split
    · exact hput s l1 _ rfl rfl
    · have hsees : SameView s s1 := by
        simp only [s1]
        split
        · exact SameView.refl s
        · exact SameView.fillL1 ..
      exact (hput s1 l1 _ hsees.fused rfl).trans (hsees.byte ..)

section
variable (s : State) (spc : Space) (stream : Bool) (accs : List LaneAcc) (data : Nat → List Byte)

theorem State.viewByte_writeAccs_other {c : Nat} (hgal : galleryOf c ≠ galleryOf s.gang.carrel) (a : Nat) :
    (s.writeAccs spc stream accs data).viewByte c a = s.viewByte c a := by
  have hcached (how : StoreHow) (ws : List (Nat × Byte)) :
      (s.storeBytes s.gang.carrel how ws).viewByte c a = s.viewByte c a :=
    foldl_keeps (fun u : State => u.viewByte c a) (fun (u : State) (sec : Nat) => u.storeSector s.gang.carrel how (sec * 128)
      ((ws.filter fun e => e.1 / 128 = sec).map fun e => (e.1 % 128, e.2)))
      (fun u sec => u.viewByte_storeSector_other hgal how (sec * 128) _ a) _ s
  cases spc with
  | gm => exact hcached ..
  | cl => exact hcached ..
  | fr =>
    rw [State.writeAccs_fr]
    exact State.viewByte_congr (s.storeFrames_keeps State.l1s (fun _ _ _ => rfl) ..)
      (s.storeFrames_keeps State.l2s (fun _ _ _ => rfl) ..) (s.storeFrames_keeps State.fused (fun _ _ _ => rfl) ..)
      (s.storeFrames_keeps State.mem (fun _ _ _ => rfl) ..) _ _
  | sp => rfl
  | lf => rfl
  | cn => rfl

theorem State.accessed_writeAccs : (s.writeAccs spc stream accs data).accessed = s.accessed
    ∧ (s.writeAccs spc stream accs data).calm = s.calm := by
  have hcached (how : StoreHow) (ws : List (Nat × Byte)) : (s.storeBytes s.gang.carrel how ws).accessed = s.accessed
      ∧ (s.storeBytes s.gang.carrel how ws).calm = s.calm := by
    obtain ⟨hbare, hcarrels⟩ := s.offCaches_storeBytes s.gang.carrel how ws
    exact ⟨State.accessed_of_bare hbare hcarrels, State.calm_of_bare hbare⟩
  cases spc with
  | gm => exact hcached ..
  | cl => exact hcached ..
  | fr =>
    rw [State.writeAccs_fr]
    exact ⟨s.storeFrames_keeps State.accessed (fun _ _ _ => rfl) .., s.storeFrames_keeps State.calm (fun _ _ _ => rfl) ..⟩
  | sp =>
    rw [State.writeAccs_sp]
    have hcarrel (c : Nat) : (((s.modCarrelOf s.gang.carrel fun c => c.writeSp
        (accs.flatMap fun a => accWrites a (data a.lane))).carrelOf c).loft,
        ((s.modCarrelOf s.gang.carrel fun c => c.writeSp
          (accs.flatMap fun a => accWrites a (data a.lane))).carrelOf c).tiles)
        = ((s.carrelOf c).loft, (s.carrelOf c).tiles) := by
      rw [State.modCarrelOf, State.carrelOf_setCarrelOf]
      split
      next h => rw [h]; rfl
      next => rfl
    refine ⟨?_, rfl⟩
    unfold State.accessed
    rw [show (fun c => ((s.modCarrelOf s.gang.carrel _).carrelOf c).loft) = fun c => (s.carrelOf c).loft from
        funext fun c => congrArg Prod.fst (hcarrel c),
      show (fun c => ((s.modCarrelOf s.gang.carrel _).carrelOf c).tiles) = fun c => (s.carrelOf c).tiles from
        funext fun c => congrArg Prod.snd (hcarrel c)]
    rfl
  | lf => exact ⟨rfl, rfl⟩
  | cn => exact ⟨rfl, rfl⟩

end

/-- What the fold of the store hash leaves. -/
theorem State.storeHashed_keeps (s u : State) (x : MFmt) (spc : Space) (n : Nat) (accs : List LaneAcc) :
    (s.storeHashed u x spc n accs).accessed = u.accessed ∧ (s.storeHashed u x spc n accs).calm = u.calm := by
  unfold State.storeHashed
  split
  · exact ⟨rfl, rfl⟩
  · refine ⟨State.accessed_eq rfl (by rw [State.modGang_gang, Gang.accessed_foldStores]) (fun _ => rfl) rfl, ?_⟩
    have hmode := u.gang.modeOne_foldStores (spc == .sp) accs (storeData s x.data n)
    refine Prod.ext rfl ?_
    change (u.modGang fun g => g.foldStores (spc == .sp) accs (storeData s x.data n)).gang.modeOne = u.gang.modeOne
    rw [State.modGang_gang, hmode]

/-- Whatever comes of a store. -/
theorem storeAct_outcome {s t : State} {x : MFmt} {spc : Space} {n : Nat} {m : Mask} (h : storeAct s x spc n m = .next t) :
    Undisturbed s t ∨ ∃ (accs : List LaneAcc) (s1 : State), traceWrites s s.gang (modGranules accs) = .ok s1
      ∧ t.accessed = s1.accessed ∧ t.calm = s1.calm ∧ t.mem = s1.mem
      ∧ ∀ c, galleryOf c ≠ galleryOf s1.gang.carrel → ∀ a, t.viewByte c a = s1.viewByte c a := by
  unfold storeAct at h
  extract_lets g at h
  split at h
  · exact .inl (Undisturbed.raiseLanes h)
  next accs _ =>
    extract_lets ws bad at h
    split at h
    · exact .inl (Undisturbed.raiseLanes h)
    · split at h
      · cases h; exact .inl (Undisturbed.hold s)
      · exact .inl (Undisturbed.raiseFault h)
      next s1 hs1 =>
        extract_lets s2 s3 s4 s5 s6 at h
        cases h
        refine .inr ⟨accs, s1, hs1, ?_⟩
        have hkept : Undisturbed s1 s2 := (SameView.keepAll s1 accs).undisturbed
        have hcarrel : s2.gang.carrel = s1.gang.carrel := by rw [show s2.gang = s1.gang from s1.gang_keepAll accs]
        obtain ⟨haccessed, hcalm⟩ := s2.accessed_writeAccs spc (x.hint.toNat = 1) accs (storeData s x.data n)
        have hcounted : SameView s3 s4 := by
          simp only [s4]
          split
          · exact SameView.count ..
          · exact SameView.refl _
        have hcompared {β : Type} (π : State → β) (hπ : ∀ s n t, π (s.setTraceOf n t) = π s) : π s5 = π s4 :=
          traceCompare_keeps π hπ ..
        obtain ⟨hhashed, hhashedCalm⟩ := s.storeHashed_keeps s5 x spc n accs
        have hrest := s.offGangs_storeHashed s5 x spc n accs
        have hleft := Undisturbed.advance s6 x.hdr
        refine ⟨hleft.accessed.trans (hhashed.trans ?_), hleft.calm.trans (hhashedCalm.trans ?_), ?_, fun c hc a => ?_⟩
        · rw [hcompared State.accessed fun _ _ _ => rfl, hcounted.undisturbed.accessed, haccessed, hkept.accessed]
        · rw [hcompared State.calm fun _ _ _ => rfl, hcounted.undisturbed.calm, hcalm, hkept.calm]
        · rw [hleft.mem, show s6.mem = s5.mem from (congrArg State.mem hrest :), hcompared State.mem fun _ _ _ => rfl,
            hcounted.mem, State.writeAccs_mem, hkept.mem]
        · have hsame : s6.viewByte c a = s5.viewByte c a :=
            State.viewByte_congr (congrArg State.l1s hrest :) (congrArg State.l2s hrest :) (congrArg State.fused hrest :)
              (congrArg State.mem hrest :) c a
          rw [hleft.byte, hsame, hcompared (fun u => u.viewByte c a) fun _ _ _ => State.viewByte_congr rfl rfl rfl rfl c a,
            hcounted.byte, State.viewByte_writeAccs_other _ _ _ _ _ (by rw [hcarrel]; exact hc), hkept.byte]

theorem storeAct_accessed {s t : State} {x : MFmt} {spc : Space} {n : Nat} {m : Mask} (h : storeAct s x spc n m = .next t) :
    t.accessed = s.accessed ∧ ((∀ l, s.traced (s.gang.task l) = false) → t.calm = s.calm ∧ t.mem = s.mem
      ∧ ∀ c, galleryOf c ≠ galleryOf s.gang.carrel → ∀ a, t.viewByte c a = s.viewByte c a) := by
  rcases storeAct_outcome h with hleft | ⟨accs, s1, hs1, haccessed, hcalm, hmem, hview⟩
  · exact ⟨hleft.accessed, fun _ => ⟨hleft.calm, hleft.mem, fun c _ a => hleft.byte c a⟩⟩
  · refine ⟨haccessed.trans (traceWrites_accessed hs1), fun ht => ?_⟩
    cases hs1.symm.trans (traceWrites_untraced ht _)
    exact ⟨hcalm, hmem, hview⟩

/-! The words (R335 to R348). -/

section
variable {x : MFmt} {s t : State}

/-- What an LD or LDV issues with is a w register or a FIFO. -/
theorem execLd_outcome (h : exec (.ld x) s = .next t) : Undisturbed s t
    ∨ ∃ spc n m, ((∃ i, x.hdr.d = .w i) ∨ ∃ i, x.hdr.d = .q i) ∧ loadAct s x spc n m = .next t := by
  rcases issue_outcome (h : execLd x s = .next t) with hleft | ⟨m, hlegal, hact⟩
  · exact .inl hleft
  · refine .inr ⟨_, _, m, ?_, hact⟩
    obtain ⟨-, hd⟩ := Bool.and_eq_true_iff.1 hlegal
    split at hd
    next i hi => exact .inl ⟨i, hi⟩
    next i hi => exact .inr ⟨i, hi⟩
    next => cases hd

theorem execLdv_outcome (h : exec (.ldv x) s = .next t) : Undisturbed s t
    ∨ ∃ spc n m, ((∃ i, x.hdr.d = .w i) ∨ ∃ i, x.hdr.d = .q i) ∧ loadAct s x spc n m = .next t := by
  rcases issue_outcome (h : execLdv x s = .next t) with hleft | ⟨m, hlegal, hact⟩
  · exact .inl hleft
  · refine .inr ⟨_, _, m, .inl ?_, hact⟩
    obtain ⟨-, hd⟩ := Bool.and_eq_true_iff.1 hlegal
    unfold quadOk at hd
    split at hd
    next i hi => exact ⟨i, hi⟩
    next => cases hd

theorem execSt_outcome (h : exec (.st x) s = .next t) : Undisturbed s t ∨ ∃ spc n m, storeAct s x spc n m = .next t := by
  rcases issue_outcome (h : execSt x s = .next t) with hleft | ⟨m, -, hact⟩
  · exact .inl hleft
  · exact .inr ⟨_, _, m, hact⟩

theorem execStv_outcome (h : exec (.stv x) s = .next t) : Undisturbed s t ∨ ∃ spc n m, storeAct s x spc n m = .next t := by
  rcases issue_outcome (h : execStv x s = .next t) with hleft | ⟨m, -, hact⟩
  · exact .inl hleft
  · exact .inr ⟨_, _, m, hact⟩

theorem execPref_undisturbed (h : exec (.pref x) s = .next t) : Undisturbed s t := by
  rcases issue_outcome (h : execPref x s = .next t) with hleft | ⟨m, -, hact⟩
  · exact hleft
  · cases hact
    exact (State.prefLanes_prefetched (s := s) x (Prefetched.refl ..) m.lanes).sees.undisturbed.trans
      (Undisturbed.advance ..)

theorem execLdlbl_undisturbed (h : exec (.ldlbl x) s = .next t) : Undisturbed s t := by
  rcases issue_outcome (h : execLdlbl x s = .next t) with hleft | ⟨m, hlegal, hact⟩
  · exact hleft
  · split at hact
    · exact Undisturbed.raiseLanes hact
    next accs _ =>
      extract_lets s1 s2 lab f at hact
      cases hact
      have hd : ∃ i, x.hdr.d = .w i := by
        obtain ⟨-, hd⟩ := Bool.and_eq_true_iff.1 hlegal
        cases hop : x.hdr.d with
        | w i => exact ⟨i, rfl⟩
        | _ => rw [hop] at hd; cases hd
      exact (s.labelReady_sees _ accs).undisturbed.trans ((Undisturbed.launch s2 (.inl hd)).trans (Undisturbed.advance ..))

/-- STLBL changes labels and the bytes of blocks alone. -/
theorem State.accessed_setLabelAt (s : State) {spc : Space} (hspc : spc = .gm ∨ spc = .sp) (p : Piece) (lab : Label) :
    (s.setLabelAt spc p lab).accessed = s.accessed ∧ (s.setLabelAt spc p lab).calm = s.calm := by
  have hbare := s.bare_setLabelAt hspc p lab
  refine ⟨?_, State.calm_of_bare hbare⟩
  rcases hspc with rfl | rfl
  · obtain ⟨-, -, hcarrels⟩ := s.setLabelAt_gm p lab
    exact State.accessed_of_bare hbare fun c => by rw [State.carrelOf, hcarrels]; rfl
  · have hcarrel (c : Nat) : (((s.setLabelAt .sp p lab).carrelOf c).loft, ((s.setLabelAt .sp p lab).carrelOf c).tiles)
        = ((s.carrelOf c).loft, (s.carrelOf c).tiles) := by
      rw [State.setLabelAt_sp, State.modCarrelOf, State.carrelOf_setCarrelOf]
      split
      next h => rw [h]
      next => rfl
    unfold State.accessed
    rw [show (fun c => ((s.setLabelAt .sp p lab).carrelOf c).loft) = fun c => (s.carrelOf c).loft from
        funext fun c => congrArg Prod.fst (hcarrel c),
      show (fun c => ((s.setLabelAt .sp p lab).carrelOf c).tiles) = fun c => (s.carrelOf c).tiles from
        funext fun c => congrArg Prod.snd (hcarrel c)]
    rfl

theorem execStlbl_accessed (h : exec (.stlbl x) s = .next t) : t.accessed = s.accessed ∧ t.calm = s.calm := by
  rcases issue_outcome (h : execStlbl x s = .next t) with hleft | ⟨m, hlegal, hact⟩
  · exact ⟨hleft.accessed, hleft.calm⟩
  · extract_lets one at hact
    split at hact
    · exact ⟨(Undisturbed.raiseLanes hact).accessed, (Undisturbed.raiseLanes hact).calm⟩
    next accs _ =>
      extract_lets bad s2 at hact
      split at hact
      · exact ⟨(Undisturbed.raiseLanes hact).accessed, (Undisturbed.raiseLanes hact).calm⟩
      · cases hact
        have hspc : (Space.ofBits x.space).getD .gm = .gm ∨ (Space.ofBits x.space).getD .gm = .sp := by
          simp only [Bool.and_eq_true, Bool.or_eq_true, beq_iff_eq] at hlegal
          obtain ⟨⟨⟨⟨⟨⟨⟨⟨hspc, -⟩, -⟩, -⟩, -⟩, -⟩, -⟩, -⟩, -⟩ := hlegal
          exact hspc
        have hkept := (SameView.keepAll s accs).undisturbed
        have hlabels : s2.accessed = s.accessed ∧ s2.calm = s.calm :=
          List.foldlRecOn accs _ (motive := fun u : State => u.accessed = s.accessed ∧ u.calm = s.calm)
            ⟨hkept.accessed, hkept.calm⟩ fun u hu a _ =>
              List.foldlRecOn a.pieces _ (motive := fun u : State => u.accessed = s.accessed ∧ u.calm = s.calm) hu
                fun v ⟨ha, hc⟩ p _ => by
                  obtain ⟨haccessed, hcalm⟩ := v.accessed_setLabelAt hspc p
                    ((readLane s 0x1C 0 x.data a.lane).extractLsb' 0 16)
                  exact ⟨haccessed.trans ha, hcalm.trans hc⟩
        have hleft := Undisturbed.advance s2 x.hdr
        exact ⟨hleft.accessed.trans hlabels.1, hleft.calm.trans hlabels.2⟩

/-- What every access leaves, and what one of an untraced gang does. -/
theorem access_keeps : ∀ mk ∈ [Instr.ld, .ldv, .st, .stv, .pref, .ldlbl, .stlbl], exec (mk x) s = .next t →
    t.accessed = s.accessed ∧ ((∀ l, s.traced (s.gang.task l) = false) → t.calm = s.calm) := by
  have hload (hx : Undisturbed s t ∨ ∃ spc n m, ((∃ i, x.hdr.d = .w i) ∨ ∃ i, x.hdr.d = .q i)
      ∧ loadAct s x spc n m = .next t) :
      t.accessed = s.accessed ∧ ((∀ l, s.traced (s.gang.task l) = false) → t.calm = s.calm) := by
    rcases hx with hleft | ⟨spc, n, m, hd, hact⟩
    · exact ⟨hleft.accessed, fun _ => hleft.calm⟩
    · obtain ⟨haccessed, hcalm⟩ := loadAct_accessed hd hact
      exact ⟨haccessed, fun ht => (hcalm ht).1⟩
  have hstore (hx : Undisturbed s t ∨ ∃ spc n m, storeAct s x spc n m = .next t) :
      t.accessed = s.accessed ∧ ((∀ l, s.traced (s.gang.task l) = false) → t.calm = s.calm) := by
    rcases hx with hleft | ⟨spc, n, m, hact⟩
    · exact ⟨hleft.accessed, fun _ => hleft.calm⟩
    · obtain ⟨haccessed, hcalm⟩ := storeAct_accessed hact
      exact ⟨haccessed, fun ht => (hcalm ht).1⟩
  simp only [List.forall_mem_cons, List.not_mem_nil, false_implies, implies_true, and_true]
  refine ⟨fun h => hload (execLd_outcome h), fun h => hload (execLdv_outcome h), fun h => hstore (execSt_outcome h),
    fun h => hstore (execStv_outcome h), fun h => ?_, fun h => ?_, fun h => ?_⟩
  · exact ⟨(execPref_undisturbed h).accessed, fun _ => (execPref_undisturbed h).calm⟩
  · exact ⟨(execLdlbl_undisturbed h).accessed, fun _ => (execLdlbl_undisturbed h).calm⟩
  · exact ⟨(execStlbl_accessed h).1, fun _ => (execStlbl_accessed h).2⟩

/-- An untraced access that writes no memory shows every byte as it was. -/
theorem reading_undisturbed (ht : ∀ l, s.traced (s.gang.task l) = false) (hr : s.gang.path.reread = false) :
    ∀ mk ∈ [Instr.ld, .ldv, .pref, .ldlbl], exec (mk x) s = .next t → Undisturbed s t := by
  have hload (hx : Undisturbed s t ∨ ∃ spc n m, ((∃ i, x.hdr.d = .w i) ∨ ∃ i, x.hdr.d = .q i)
      ∧ loadAct s x spc n m = .next t) : Undisturbed s t := by
    rcases hx with hleft | ⟨spc, n, m, hd, hact⟩
    · exact hleft
    · exact ((loadAct_accessed hd hact).2 ht).2 hr
  simp only [List.forall_mem_cons, List.not_mem_nil, false_implies, implies_true, and_true]
  exact ⟨fun h => hload (execLd_outcome h), fun h => hload (execLdv_outcome h), execPref_undisturbed, execLdlbl_undisturbed⟩

/-- An untraced store leaves device memory and what other galleries see. -/
theorem storing_leaves (ht : ∀ l, s.traced (s.gang.task l) = false) :
    ∀ mk ∈ [Instr.st, .stv], exec (mk x) s = .next t →
      t.mem = s.mem ∧ ∀ c, galleryOf c ≠ galleryOf s.gang.carrel → ∀ a, t.viewByte c a = s.viewByte c a := by
  have hstore (hx : Undisturbed s t ∨ ∃ spc n m, storeAct s x spc n m = .next t) :
      t.mem = s.mem ∧ ∀ c, galleryOf c ≠ galleryOf s.gang.carrel → ∀ a, t.viewByte c a = s.viewByte c a := by
    rcases hx with hleft | ⟨spc, n, m, hact⟩
    · exact ⟨hleft.mem, fun c _ a => hleft.byte c a⟩
    · exact ((storeAct_accessed hact).2 ht).2
  simp only [List.forall_mem_cons, List.not_mem_nil, false_implies, implies_true, and_true]
  exact ⟨fun h => hstore (execSt_outcome h), fun h => hstore (execStv_outcome h)⟩

end

end Sys2Proof.Machine

open Sys2Proof Sys2Proof.Machine

/-- Settles O55: what loads, stores, prefetches and label accesses leave, by what comes of a word before it acts and by what
its act may write. -/
theorem accessFrame : Obligations.AccessFrame := by
  refine ⟨fun mk hmk x s t h => ?_, fun mk hmk x s t ht hr h => ?_, fun mk hmk x s t ht hr h => ?_,
    fun mk hmk x s t c ht h _ _ hgal => ?_⟩
  · obtain ⟨haccessed, hcalm⟩ := access_keeps mk hmk h
    obtain ⟨hcur, hregs, hw, hs, hp, hk, hloft, htiles, hslots⟩ := kept_of_accessed haccessed
    exact ⟨hcur, hregs, hw, hs, hp, hk, hloft, htiles, hslots, fun ht => calm_spec (hcalm ht)⟩
  · by_cases hreads : mk ∈ [Instr.ld, .ldv, .pref, .ldlbl]
    · exact (reading_undisturbed ht hr mk hreads h).mem
    · have hstores : mk ∈ [Instr.st, .stv] := by
        simp only [List.mem_cons, List.not_mem_nil, or_false] at hmk hreads ⊢
        tauto
      exact (storing_leaves ht mk hstores h).1
  · have hleft := reading_undisturbed ht hr mk hmk h
    exact ⟨fun a => hleft.byte _ a, hleft.sp, hleft.frames⟩
  · exact (storing_leaves ht mk hmk h).2 c hgal
end

section
namespace Sys2Proof.Machine
open Sys2Proof

/-! TCFG, the tile instructions and XFORM (R357 to R363). -/

/-- The collector adds the rows that it reads and nothing else (R255). -/
theorem Carrel.collect_rows (c : Carrel) (x : TileOp) :
    c.collect x = { x with rowsA := (c.collect x).rowsA, rowsB := (c.collect x).rowsB } := by
  obtain ⟨kind, tile, dA, dB, control, tcfg, maskm, maskn, job, step, rowsA, rowsB, again, issuer⟩ := x
  cases kind <;> rfl

/-- With room in the sequencer an instruction enters it at its first step, with TCFG and the masks as they are (R254). -/
theorem enterSeq_enters {s : State} (hroom : s.myCarrel.seqLength < 8) (h : Header) {x : TileOp} (hstep : x.step = 0) :
    ∃ t, enterSeq s h x = .next t ∧ entered s t x.kind x.tile x.dA x.dB x.control := by
  rw [enterSeq, if_neg (Nat.not_le.2 hroom)]
  refine ⟨_, rfl, wentOn_advance h rfl rfl rfl rfl rfl rfl, _,
    (congrArg Carrel.seq (State.uncounted_advance _ h s.gang.carrel)).trans
      (congrArg Carrel.seq (State.carrelOf_setCarrelOf_self ..)), ?_⟩
  rw [Carrel.collect_rows]
  exact ⟨rfl, rfl, rfl, rfl, rfl, hstep, rfl, rfl, rfl⟩

theorem mmaOk_reserved {a b : Desc} {c : BitVec 31} (h : mmaOk a b c = true) : c.extractLsb' 15 16 = 0 := by
  simp only [mmaOk, Bool.and_eq_true] at h
  simp_all

theorem mmacOk_reserved {a b : Desc} {c : BitVec 31} {t : DWord} (h : mmacOk a b c t = true) :
    c.extractLsb' 12 19 = 0 := by
  simp only [mmacOk, Bool.and_eq_true] at h
  simp_all

section
variable {x : EFmt} {s : State} {m : Mask} {tile : BitVec 2} (hroom : s.myCarrel.seqLength < 8)
include hroom

/-- A product word whose operand rules hold enters the sequencer (R358). -/
theorem matmul_enters (hd : x.hdr.d = .a tile) {kind : TileOpKind} {rsv : Bool} {ok : Desc → Desc → Bool}
    (hi : s.issues x.hdr .gang (eFieldsOk s.gang x && isS x.a && isS x.b && x.c == .absent) [] (eSrcs x) m)
    (hfa : (descOf (readGang s 0x1D 0 x.a)).fits = true) (hfb : (descOf (readGang s 0x1D 0 x.b)).fits = true)
    (hrsv : rsv = false) (hok : ok (descOf (readGang s 0x1D 0 x.a)) (descOf (readGang s 0x1D 0 x.b)) = true) :
    ∃ t, matmul x s kind rsv ok = .next t
      ∧ entered s t kind tile (readGang s 0x1D 0 x.a) (readGang s 0x1D 0 x.b) x.control := by
  rw [matmul, issue_of_issues _ (State.issuesActs.mono hi fun h => by simp_all [isTile])]
  simp only [hok, hfa, hfb, hd]
  exact enterSeq_enters hroom x.hdr rfl

theorem execMma_enters (hd : x.hdr.d = .a tile)
    (hi : s.issues x.hdr .gang (eFieldsOk s.gang x && isS x.a && isS x.b && x.c == .absent) [] (eSrcs x) m)
    (hfa : (descOf (readGang s 0x1D 0 x.a)).fits = true) (hfb : (descOf (readGang s 0x1D 0 x.b)).fits = true)
    (hok : mmaOk (descOf (readGang s 0x1D 0 x.a)) (descOf (readGang s 0x1D 0 x.b)) x.control = true) :
    ∃ t, exec (.mma x) s = .next t
      ∧ entered s t .mma tile (readGang s 0x1D 0 x.a) (readGang s 0x1D 0 x.b) x.control :=
  matmul_enters (kind := .mma) (rsv := x.control.extractLsb' 15 16 != 0) (ok := fun a b => mmaOk a b x.control)
    hroom hd hi hfa hfb (by rw [mmaOk_reserved hok]; rfl) hok

theorem execMmac_enters (hd : x.hdr.d = .a tile)
    (hi : s.issues x.hdr .gang (eFieldsOk s.gang x && isS x.a && isS x.b && x.c == .absent) [] (eSrcs x) m)
    (hfa : (descOf (readGang s 0x1D 0 x.a)).fits = true) (hfb : (descOf (readGang s 0x1D 0 x.b)).fits = true)
    (hok : mmacOk (descOf (readGang s 0x1D 0 x.a)) (descOf (readGang s 0x1D 0 x.b)) x.control s.gang.tcfg = true) :
    ∃ t, exec (.mmac x) s = .next t
      ∧ entered s t .mmac tile (readGang s 0x1D 0 x.a) (readGang s 0x1D 0 x.b) x.control :=
  matmul_enters (kind := .mmac) (rsv := x.control.extractLsb' 12 19 != 0)
    (ok := fun a b => mmacOk a b x.control s.gang.tcfg) hroom hd hi hfa hfb (by rw [mmacOk_reserved hok]; rfl) hok

theorem execAclr_enters (hd : x.hdr.d = .a tile) (hc : x.control = 0)
    (hi : s.issues x.hdr .gang (eFieldsOk s.gang x && x.a == .absent && x.b == .absent && x.c == .absent) [] (eSrcs x) m) :
    ∃ t, exec (.aclr x) s = .next t ∧ entered s t .aclr tile 0 0 0 := by
  have hexec : exec (.aclr x) s = execAclr x s := rfl
  rw [hexec, execAclr, issue_of_issues _ (State.issuesActs.mono hi fun h => by simp_all [isTile])]
  simp only [hd]
  exact enterSeq_enters hroom x.hdr rfl

theorem execAld_enters (hd : x.hdr.d = .a tile) (hc : x.control = 0)
    (hi : s.issues x.hdr .gang (eFieldsOk s.gang x && isS x.a && x.b == .absent && x.c == .absent) [] (eSrcs x) m)
    (hok : moveOk (descOf (readGang s 0x1D 0 x.a)) = true) (hf : (descOf (readGang s 0x1D 0 x.a)).fits = true) :
    ∃ t, exec (.ald x) s = .next t ∧ entered s t .ald tile (readGang s 0x1D 0 x.a) 0 0 := by
  have hexec : exec (.ald x) s = execAld x s := rfl
  rw [hexec, execAld, issue_of_issues _ (State.issuesActs.mono hi fun h => by simp_all [isTile])]
  simp only [hok, hf, hd]
  exact enterSeq_enters hroom x.hdr rfl

theorem execAst_enters (ha : x.a = .a tile) (hc : x.control = 0)
    (hi : s.issues x.hdr .gang (eFieldsOk s.gang x && x.hdr.d == .absent && isS x.b && x.c == .absent) [] (eSrcs x) m)
    (hok : moveOk (descOf (readGang s 0x1D 0 x.b)) = true) (hl : (descOf (readGang s 0x1D 0 x.b)).loft = false)
    (h16 : (descOf (readGang s 0x1D 0 x.b)).cols % 16 = 0) (hf : (descOf (readGang s 0x1D 0 x.b)).fits = true) :
    ∃ t, exec (.ast x) s = .next t ∧ entered s t .ast tile (readGang s 0x1D 0 x.b) 0 0 := by
  have hexec : exec (.ast x) s = execAst x s := rfl
  rw [hexec, execAst, issue_of_issues _ (State.issuesActs.mono hi fun h => by simp_all [isTile])]
  simp only [hok, hf, hl, h16, ha]
  exact enterSeq_enters hroom x.hdr rfl

end

/-- First slot, slot count and upper bit make up TCFG (R357). -/
theorem toNat_tcfg (k : BitVec 5) (c f : BitVec 32) (hf : f.toNat ≤ 511) (hc : c.toNat ≤ 511) :
    (0#45 ++ k.extractLsb' 0 1 ++ c.extractLsb' 0 9 ++ f.extractLsb' 0 9 : DWord).toNat
      = f.toNat + 2 ^ 9 * c.toNat + 2 ^ 18 * (k.toNat % 2) := by
  simp only [BitVec.toNat_append, BitVec.extractLsb'_toNat, Nat.shiftRight_zero, BitVec.toNat_ofNat, Nat.zero_mod,
    Nat.zero_shiftLeft, Nat.zero_or]
  rw [← Nat.shiftLeft_add_eq_or_of_lt (Nat.mod_lt _ (by decide)), ← Nat.shiftLeft_add_eq_or_of_lt (Nat.mod_lt _ (by decide))]
  simp only [Nat.shiftLeft_eq]
  omega

theorem State.tcfg_advance (s : State) (h : Header) : (s.advance h).gang.tcfg = s.gang.tcfg :=
  (congrArg Gang.tcfg (s.offIssue_advance h) :)

theorem execTcfg_sets {x : RRR} {s : State} {m : Mask}
    (hi : s.issues x.hdr .gang (x.rsv == 0 && x.typ == 0 && x.pred == 0 && x.sub.extractLsb' 1 4 == 0 && isSImm x.a
      && isSImm x.b && x.c == .absent && feOk (x.fe.getLsbD 2) x.a && feOk (x.fe.getLsbD 1) x.b && !x.fe.getLsbD 0
      && x.hdr.d == .absent && !s.gang.isShadow) [] (rrrSrcs x 2 false) m)
    (hf : (readGang s 0x1D 0 x.a).toNat % 2 ^ 32 ≤ 511) (hc : (readGang s 0x1D 0 x.b).toNat % 2 ^ 32 ≤ 511) :
    ∃ t, exec (.tcfg x) s = .next t ∧ wentOn s t (s.pc + 12)
      ∧ t.gang.tcfg.toNat = (readGang s 0x1D 0 x.a).toNat % 2 ^ 32 + 2 ^ 9 * ((readGang s 0x1D 0 x.b).toNat % 2 ^ 32)
          + 2 ^ 18 * (x.sub.toNat % 2) := by
  have hlow : ∀ v : DWord, (v.extractLsb' 0 32).toNat = v.toNat % 2 ^ 32 := fun v => by simp
  have hexec : exec (.tcfg x) s = execTcfg x s := rfl
  rw [hexec, execTcfg, issue_of_issues _ hi]
  have hsmall : ¬ (511 < ((readGang s 0x1D 0 x.a).extractLsb' 0 32).toNat
      || 511 < ((readGang s 0x1D 0 x.b).extractLsb' 0 32).toNat) = true := by
    rw [hlow, hlow, Bool.or_eq_true, decide_eq_true_eq, decide_eq_true_eq]
    omega
  rw [if_neg hsmall]
  refine ⟨_, rfl, wentOn_advance x.hdr rfl rfl rfl rfl rfl (State.stand_modGang rfl rfl), ?_⟩
  rw [State.tcfg_advance, State.modGang_gang, ← hlow, ← hlow]
  exact toNat_tcfg _ _ _ (by rw [hlow]; exact hf) (by rw [hlow]; exact hc)

/-! XFORM. -/

/-- A word that gives a handle goes on (R95). -/
theorem wentOn_giveHandle {s u : State} (i : BitVec 4) (key : Nat) (h : Header) (hc : u.clock = s.clock)
    (hu : u.cur = s.cur) (hh : u.halt = s.halt) (hf : u.faults = s.faults) (hm : u.mem = s.mem) (hs : u.stand = s.stand) :
    wentOn s ((u.giveHandle (.h i) key).advance h) (s.pc + 12) := by
  have hclock : (u.giveHandle (.h i) key).clock = u.clock := rfl
  have hcur : (u.giveHandle (.h i) key).cur = u.cur := rfl
  have hhalt : (u.giveHandle (.h i) key).halt = u.halt := rfl
  have hfaults : (u.giveHandle (.h i) key).faults = u.faults := rfl
  have hmem : (u.giveHandle (.h i) key).mem = u.mem := rfl
  exact wentOn_advance h (hclock.trans hc) (hcur.trans hu) (hhalt.trans hh) (hfaults.trans hf) (hmem.trans hm)
    ((State.stand_giveHandle u i key).trans hs)

theorem State.slotOf_giveHandle (s : State) (i : BitVec 4) (key k : Nat) :
    (s.giveHandle (.h i) key).slotOf k = s.slotOf k := rfl

theorem State.carrelOf_giveHandle (s : State) (i : BitVec 4) (key c : Nat) :
    (s.giveHandle (.h i) key).carrelOf c = s.carrelOf c := rfl

/-- The operation of the transform unit that the word makes. -/
def State.xformOf (s : State) (x : EFmt) (inverse : Bool) : XformOp :=
  { inverse := inverse, sym := x.control.getLsbD 1, src := readGang s 0x1D 0 x.a, dst := readGang s 0x1D 0 x.b,
    job := s.ctx.nextJob, step := 0, labels := [], by_ := s.gang.issuer s.cur (s.cycleOf s.gang.carrel) }

/-- Its job. -/
def State.xformJob (s : State) (key : Nat) : Job :=
  { Job.none with
    by_ := .xform, wing := wingOf s.gang.carrel, carrel := s.gang.carrel, future := some key,
    launch := (s.frameOf s.gang.frame).launch, state := .running }

/-- The future is open, the job made and the operation in the unit's queue. -/
def State.withXform (s : State) (op : XformOp) (key : Nat) : State :=
  let s2 := (s.openSlot key { Slot.none with kind := 2, outstanding := 1, maker := s.serial }).setJobOf
    s.ctx.nextJob (s.xformJob key)
  ({ s2 with ctx := { s2.ctx with nextJob := s.ctx.nextJob + 1 } } : State).modCarrelOf s.gang.carrel fun c =>
    { c with xu := c.xu ++ [op] }

theorem State.gang_withXform (s : State) (op : XformOp) (key : Nat) : (s.withXform op key).gang = s.gang := rfl
theorem State.clock_withXform (s : State) (op : XformOp) (key : Nat) : (s.withXform op key).clock = s.clock := rfl
theorem State.cur_withXform (s : State) (op : XformOp) (key : Nat) : (s.withXform op key).cur = s.cur := rfl
theorem State.halt_withXform (s : State) (op : XformOp) (key : Nat) : (s.withXform op key).halt = s.halt := rfl
theorem State.faults_withXform (s : State) (op : XformOp) (key : Nat) : (s.withXform op key).faults = s.faults := rfl
theorem State.mem_withXform (s : State) (op : XformOp) (key : Nat) : (s.withXform op key).mem = s.mem := rfl

theorem State.stand_withXform (s : State) (op : XformOp) (key : Nat) : (s.withXform op key).stand = s.stand := by
  rw [State.stand, State.gang_withXform]
  rfl

theorem State.slotOf_withXform (s : State) (op : XformOp) (key : Nat) :
    (s.withXform op key).slotOf key
      = { Slot.none with
          kind := 2, outstanding := 1, maker := s.serial, used := true, generation := (s.slotOf key).generation } :=
  (State.slotOf_setSlotOf s key key _).trans (if_pos rfl)

theorem State.carrelOf_withXform (s : State) (op : XformOp) (key : Nat) :
    (s.withXform op key).carrelOf s.gang.carrel
      = { s.carrelOf s.gang.carrel with xu := (s.carrelOf s.gang.carrel).xu ++ [op] } :=
  State.carrelOf_setCarrelOf_self ..

section
variable {x : EFmt} {s : State} {m : Mask} {i : BitVec 4} {key : Nat} {inverse : Bool}

theorem xformTask_queues (hd : x.hdr.d = .h i) (hroom : s.myCarrel.seqLength < 8)
    (hkey : s.newSlot (wingOf s.gang.carrel) = some key)
    (hi : s.issues x.hdr .gang (eFieldsOk s.gang x && isS x.a && isS x.b && x.c == .absent
      && x.control.extractLsb' 2 29 == 0) [(x.hdr.d, false)] (eSrcs x) m)
    (hok : xformOk inverse (descOf (readGang s 0x1D 0 x.a)) (descOf (readGang s 0x1D 0 x.b)) = true)
    (hfs : (descOf (readGang s 0x1D 0 x.a)).fits = true) (hfd : (descOf (readGang s 0x1D 0 x.b)).fits = true) :
    xformTask x inverse s
      = .next (((s.withXform (s.xformOf x inverse) key).giveHandle x.hdr.d key).advance x.hdr) := by
  rw [xformTask, issue_of_issues _ (State.issuesActs.mono hi fun h => by rw [h, hd]; rfl)]
  simp only [hok, hfs, hfd, if_neg (Nat.not_le.2 hroom), hkey]
  rfl

/-- What the queued transform leaves. -/
theorem xform_leaves (s : State) (op : XformOp) (i : BitVec 4) (key : Nat) (h : Header) :
    let t := ((s.withXform op key).giveHandle (.h i) key).advance h
    wentOn s t (s.pc + 12) ∧ handleComing t (.h i) (handle 2 (s.slotOf key).generation key)
      ∧ (t.slotOf key).kind = 2 ∧ (t.slotOf key).outstanding = 1 ∧ (t.slotOf key).complete = false
      ∧ (t.carrelOf s.gang.carrel).xu = (s.carrelOf s.gang.carrel).xu ++ [op] := by
  intro t
  have hslot : t.slotOf key = (s.withXform op key).slotOf key :=
    (State.leave_slotOf ..).trans (State.slotOf_giveHandle ..)
  have hhandle : (s.withXform op key).handleOf key = handle 2 (s.slotOf key).generation key := by
    rw [State.handleOf, State.slotOf_withXform]
  rw [hslot, State.slotOf_withXform, ← hhandle]
  refine ⟨wentOn_giveHandle i key h (s.clock_withXform op key) (s.cur_withXform op key) (s.halt_withXform op key)
    (s.faults_withXform op key) (s.mem_withXform op key) (s.stand_withXform op key),
    handleComing_giveHandle _ i key h, rfl, rfl, rfl, ?_⟩
  refine (congrArg Carrel.xu (State.uncounted_advance _ h s.gang.carrel)).trans ?_
  rw [Carrel.uncounted, State.carrelOf_giveHandle, State.carrelOf_withXform]

end

end Sys2Proof.Machine

open Sys2Proof Sys2Proof.Machine

/-- Settles O39: TCFG by its three fields, the tile words by their entry in the sequencer (`enterSeq_enters`), XFORM by
the operation, the job and the future that it makes (`xform_leaves`). -/
theorem tileIssue : Obligations.TileIssue := by
  unfold Obligations.TileIssue
  refine ⟨fun x s m hi hf hc => execTcfg_sets hi hf hc, ?tiles, ?xform⟩
  case tiles =>
    intro x s m tile hroom A B
    refine ⟨fun hd hi hfa hfb => ⟨fun hok => execMma_enters hroom hd hi hfa hfb hok,
      fun hok => execMmac_enters hroom hd hi hfa hfb hok⟩, ?_, ?_, ?_⟩
    · exact fun hd hc hi => execAclr_enters hroom hd hc hi
    · exact fun hd hc hi hok hf => execAld_enters hroom hd hc hi hok hf
    · exact fun ha hc hi hok hl h16 hf => execAst_enters hroom ha hc hi hok hl h16 hf
  case xform =>
    intro p hp x s m i key h1 hd hroom hkey hi src dst hok hfs hfd
    have hexec : exec (p.1 x) s = perTask x.hdr true (xformTask x p.2) s := by
      simp only [List.mem_cons, List.not_mem_nil, or_false] at hp
      rcases hp with rfl | rfl <;> rfl
    obtain ⟨hwent, hcoming, hkind, hout, hcomplete, hxu⟩ := xform_leaves s (s.xformOf x p.2) i key x.hdr
    rw [hexec, perTask_oneTask h1, xformTask_queues hd hroom hkey hi hok hfs hfd, hd]
    refine ⟨_, rfl, hwent,
      hcoming, hkind, hout, hcomplete, _, hxu, rfl, rfl, rfl, rfl, rfl, rfl⟩

end

section
namespace Sys2Proof.Machine
open Sys2Proof

/-! Write-backs and the desk's writes leave the carrels (R123, R125, R127). -/

theorem State.carrels_setCacheOf (s : State) (c : Nat) (x : Cache) : (s.setCacheOf c x).ctx.carrels = s.ctx.carrels := rfl
theorem State.carrels_setGalleryCache (s : State) (g : Nat) (x : Cache) :
    (s.setGalleryCache g x).ctx.carrels = s.ctx.carrels := rfl

@[simp] theorem State.carrels_intoL2 (s : State) (g base : Nat) (who : BitVec 4) (ws : List (Nat × Byte)) :
    (s.intoL2 g base who ws).ctx.carrels = s.ctx.carrels := by
  unfold State.intoL2
  split <;> rfl

@[simp] theorem State.carrels_lineToL2 (s : State) (l1 ln : Nat) (lv : BitVec 3) :
    (s.lineToL2 l1 ln lv).ctx.carrels = s.ctx.carrels := by
  unfold State.lineToL2
  extract_lets c l gal who s1
  split
  · simp [s1]
  · rfl

@[simp] theorem State.carrels_lineHome (s : State) (g ln : Nat) : (s.lineHome g ln).ctx.carrels = s.ctx.carrels := by
  unfold State.lineHome
  extract_lets c l s1 l'
  split
  · simp [s1, State.carrels_writeHome]
  · rfl

@[simp] theorem State.carrels_flushL1 (s : State) (l1 : Nat) (lv : BitVec 3) :
    (s.flushL1 l1 lv).ctx.carrels = s.ctx.carrels := by
  rw [State.flushL1, State.carrels_setCacheOf]
  exact foldl_keeps (fun u : State => u.ctx.carrels) (fun (u : State) (e : Nat × Line) => u.lineToL2 l1 e.1 lv)
    (fun _ _ => State.carrels_lineToL2 ..) _ _

@[simp] theorem State.carrels_flushL2 (s : State) (g : Nat) (who : BitVec 4) :
    (s.flushL2 g who).ctx.carrels = s.ctx.carrels := by
  rw [State.flushL2, State.carrels_setGalleryCache]
  exact foldl_keeps (fun u : State => u.ctx.carrels) (fun (u : State) (e : Nat × Line) =>
    if e.2.writers &&& who != 0 then u.lineHome g e.1 else u) (fun _ _ => by split <;> simp) _ _

@[simp] theorem State.carrels_flushFused (s : State) (c : Nat) : (s.flushFused c).ctx.carrels = s.ctx.carrels :=
  foldl_keeps (fun u : State => u.ctx.carrels) (fun (u : State) l1 => (u.cacheOf l1).lines.foldl (fun (u : State) e =>
    if e.2.writers.getLsbD (c % 4) then u.lineToL2 l1 e.1 4 else u) u)
    (fun u l1 => foldl_keeps (fun u : State => u.ctx.carrels) (fun (u : State) (e : Nat × Line) =>
      if e.2.writers.getLsbD (c % 4) then u.lineToL2 l1 e.1 4 else u) (fun _ _ => by split <;> simp) _ u) _ _

@[simp] theorem State.carrels_evictAllL2 (s : State) (g : Nat) : (s.evictAllL2 g).ctx.carrels = s.ctx.carrels :=
  foldl_keeps (fun u : State => u.ctx.carrels) _
    (fun _ _ => by split <;> simp) _ _

@[simp] theorem State.carrels_evictFused (s : State) (c : Nat) : (s.evictFused c).ctx.carrels = s.ctx.carrels :=
  foldl_keeps (fun u : State => u.ctx.carrels) _ (fun u _ => foldl_keeps (fun u : State => u.ctx.carrels) _
    (fun _ _ => by split <;> simp) _ u) _ _

@[simp] theorem State.carrels_evictOthers (s : State) (c : Nat) : (s.evictOthers c).ctx.carrels = s.ctx.carrels := by
  unfold State.evictOthers
  split <;> simp

@[simp] theorem State.carrels_release (s : State) (c lv : Nat) : (s.release c lv).ctx.carrels = s.ctx.carrels := by
  unfold State.release
  split
  · rfl
  · split <;> split <;> simp

@[simp] theorem State.carrels_deskWrite (s : State) (va : Nat) (bs : List Byte) :
    (s.deskWrite va bs).ctx.carrels = s.ctx.carrels := by
  have hput : ∀ (s : State) (o : Option Nat) (bs : List Byte),
      (match o with
        | some pa => s.homeWrite pa bs
        | none => s).ctx.carrels = s.ctx.carrels := by
    intro s o bs
    cases o with
    | none => rfl
    | some pa => exact State.carrels_homeWrite ..
  unfold State.deskWrite
  extract_lets put n
  have hputs : ∀ (s : State) (va : Nat) (bs : List Byte), (put s va bs).ctx.carrels = s.ctx.carrels :=
    fun s va bs => hput s (s.deskPa va) bs
  split
  · exact hputs ..
  · rw [hputs, hputs]

theorem State.carrelOf_of_carrels {s t : State} (h : t.ctx.carrels = s.ctx.carrels) (c : Nat) :
    t.carrelOf c = s.carrelOf c := by
  rw [State.carrelOf, h]
  rfl

theorem State.cur_of_bare {s t : State} (h : t.bare = s.bare) : t.cur = s.cur := (congrArg State.cur h :)
theorem State.nextJob_of_bare {s t : State} (h : t.bare = s.bare) : t.ctx.nextJob = s.ctx.nextJob :=
  (congrArg (fun u : State => u.ctx.nextJob) h :)

end Sys2Proof.Machine
end

section
namespace Sys2Proof.Machine
open Sys2Proof

/-! A card is appended to the copy queue (R198, R199, R367). -/

/-- The job as the queue holds it. -/
def State.inQueue (s : State) (x : Job) : Job :=
  { x with
    slotAddr := BitVec.ofNat 64 ((s.copyRing x.wing).slot (s.copyRing x.wing).write 128), index := (s.copyRing x.wing).write,
    claim := x.card.credits && ((s.carrelOf x.bufCarrel).buf x.card.entry).state != .free }

/-- A new job. -/
def State.addJob (s : State) (x : Job) : State :=
  { s with ctx := { s.ctx with jobs := Table.put s.ctx.jobs s.ctx.nextJob x, nextJob := s.ctx.nextJob + 1 } }

theorem State.bare_appendJob (s : State) (x : Job) : (s.appendJob x).bare = (s.addJob (s.inQueue x)).bare := by
  have hadd : ∀ u : State, u.bare = s.bare → (({ u.setJobOf s.ctx.nextJob (s.inQueue x) with
      ctx := { (u.setJobOf s.ctx.nextJob (s.inQueue x)).ctx with nextJob := u.ctx.nextJob + 1 } } : State)).bare
        = (s.addJob (s.inQueue x)).bare := by
    intro u hu
    have hjobs : u.ctx.jobs = s.ctx.jobs := (congrArg (fun v : State => v.ctx.jobs) hu :)
    have hnext : u.ctx.nextJob = s.ctx.nextJob := State.nextJob_of_bare hu
    have h := congrArg (fun v : State => { v with
      ctx := { v.ctx with jobs := Table.put s.ctx.jobs s.ctx.nextJob (s.inQueue x), nextJob := s.ctx.nextJob + 1 } }) hu
    refine Eq.trans ?_ h
    rw [State.setJobOf, hjobs, hnext]
    rfl
  refine hadd _ ?_
  split
  · exact (State.bare_deskWrite ..).trans (State.bare_deskWrite ..)
  · exact (State.bare_deskWrite ..).trans (State.bare_deskWrite ..)

/-- The queue's claim of a buffer entry leaves the sequencer. -/
theorem State.seq_appendJob (s : State) (x : Job) (c : Nat) : ((s.appendJob x).carrelOf c).seq = (s.carrelOf c).seq := by
  have hclaim : ∀ (u : State) (b : Bool), u.ctx.carrels = s.ctx.carrels →
      ((if b then u.modCarrelOf x.bufCarrel fun k => k.claim x.card.entry else u).carrelOf c).seq = (s.carrelOf c).seq := by
    intro u b hu
    rw [← State.carrelOf_of_carrels hu c]
    split
    · rw [State.modCarrelOf, State.carrelOf_setCarrelOf]
      split
      · rename_i hc; rw [hc]; rfl
      · rfl
    · rfl
  exact hclaim _ _ ((State.carrels_deskWrite ..).trans (State.carrels_deskWrite ..))

theorem State.jobOf_addJob (s : State) (x : Job) : (s.addJob x).jobOf s.ctx.nextJob = x :=
  (Table.look_put ..).trans (if_pos rfl)

theorem State.jobOf_advance_giveHandle (s : State) (i : BitVec 4) (key : Nat) (h : Header) (j : Nat) :
    ((s.giveHandle (.h i) key).advance h).jobOf j = s.jobOf j :=
  (State.jobOf_of_bare (State.bare_issuedOne (s.giveHandle (.h i) key)) j :)

theorem State.nextJob_advance_giveHandle (s : State) (i : BitVec 4) (key : Nat) (h : Header) :
    ((s.giveHandle (.h i) key).advance h).ctx.nextJob = s.ctx.nextJob :=
  (State.nextJob_of_bare (State.bare_issuedOne (s.giveHandle (.h i) key)) :)

/-- The future of a submitted card (R367). -/
def State.cardSlot (s : State) : Slot :=
  let ring := s.copyRing (wingOf s.gang.carrel)
  { Slot.none with kind := 2, object := BitVec.ofNat 64 (ring.slot ring.write 128), outstanding := 1, maker := s.serial }

/-- What is home and the future open as the card is appended. -/
def State.cardOpen (s : State) (key : Nat) : State := (s.release s.gang.carrel levelPackage).openSlot key s.cardSlot

/-- The state that a submission leaves before the handle is given. -/
def State.submitted (s : State) (x : Job) (key : Nat) (extra : Nat → State → State) : State :=
  (extra s.ctx.nextJob ((s.cardOpen key).appendJob x)).count s.gang.carrel 8 1

/-- The job of a card submitted by an untraced gang. -/
def State.jobBy (s : State) (x : Job) (key : Nat) : Job :=
  { x with
    wing := wingOf s.gang.carrel, gallery := galleryOf s.gang.carrel % Config.galleriesPerWing,
    bufCarrel := s.gang.carrel, future := some key, launch := (s.frameOf s.gang.frame).launch, carrel := s.gang.carrel,
    trace := none, folio := s.gang.folio }

/-- What an untraced submission does where the queue and the future table have room (R198, R367). -/
theorem submit_accepted {s : State} {key : Nat} (hs : s.submits key) (h : Header) (m : Mask) (reads : Nat × Nat) (x : Job)
    (extra : Nat → State → State) :
    submit s h m reads x extra
      = .next (((s.submitted (s.jobBy x key) key extra).giveHandle h.d key).advance h) := by
  obtain ⟨hring, hkey, -, htraced, howns⟩ := hs
  have hreads : traceReads s s.gang [] = .ok s := rfl
  simp only [submit, hring, hkey, htraced, howns, Bool.false_eq_true, if_false, hreads]
  rfl

/-- A submission opens its future and makes its job, where what else the word does is of the carrel alone. -/
theorem State.bare_submitted (s : State) (x : Job) (key : Nat) (extra : Nat → State → State)
    (he : ∀ j (u : State), (extra j u).bare = u.bare) :
    (s.submitted x key extra).bare = ((s.openSlot key s.cardSlot).addJob ((s.cardOpen key).inQueue x)).bare := by
  have hr : (s.release s.gang.carrel levelPackage).bare = s.bare := State.bare_release ..
  have hgen : (s.release s.gang.carrel levelPackage).slotOf key = s.slotOf key := State.slotOf_of_bare hr key
  have hopen : (s.cardOpen key).bare = (s.openSlot key s.cardSlot).bare := by
    have hslots : (s.release s.gang.carrel levelPackage).ctx.slots = s.ctx.slots :=
      (congrArg (fun v : State => v.ctx.slots) hr :)
    have h := congrArg (fun v : State => { v with ctx := { v.ctx with
      slots := Table.put s.ctx.slots key { s.cardSlot with used := true, generation := (s.slotOf key).generation } } }) hr
    refine Eq.trans ?_ h
    rw [State.cardOpen, State.openSlot, State.setSlotOf, hgen, hslots]
    rfl
  have hadd : ∀ (u v : State) (y : Job), u.bare = v.bare → (u.addJob y).bare = (v.addJob y).bare := by
    intro u v y huv
    have hjobs : u.ctx.jobs = v.ctx.jobs := (congrArg (fun w : State => w.ctx.jobs) huv :)
    have hnext : u.ctx.nextJob = v.ctx.nextJob := State.nextJob_of_bare huv
    have h := congrArg (fun w : State => { w with ctx := { w.ctx with
      jobs := Table.put v.ctx.jobs v.ctx.nextJob y, nextJob := v.ctx.nextJob + 1 } }) huv
    refine Eq.trans ?_ h
    rw [State.addJob, hjobs, hnext]
    rfl
  exact ((State.bare_count ..).trans (he ..)).trans ((State.bare_appendJob ..).trans (hadd _ _ _ hopen))

theorem State.slotOf_submitted {s : State} {x : Job} {key : Nat} {extra : Nat → State → State}
    (he : ∀ j (u : State), (extra j u).bare = u.bare) : (s.submitted x key extra).slotOf key
      = { s.cardSlot with used := true, generation := (s.slotOf key).generation } :=
  (State.slotOf_of_bare (s.bare_submitted x key extra he) key).trans
    ((State.slotOf_setSlotOf s key key _).trans (if_pos rfl))

/-- What an accepted submission leaves, with what the word adds to the carrel. -/
theorem submitted_leaves (s : State) (x : Job) (key : Nat) (extra : Nat → State → State)
    (he : ∀ j (u : State), (extra j u).bare = u.bare) (hx : x.state = .queued) (i : BitVec 4) (h : Header) :
    let t := ((s.submitted (s.jobBy x key) key extra).giveHandle (.h i) key).advance h
    cardQueued s t (.h i) x.by_ x.card key ∧ (t.jobOf s.ctx.nextJob).follow = x.follow := by
  intro t
  let u := s.submitted (s.jobBy x key) key extra
  have hb := s.bare_submitted (s.jobBy x key) key extra he
  have hslotU : u.slotOf key = { s.cardSlot with used := true, generation := (s.slotOf key).generation } :=
    State.slotOf_submitted he
  have hslot : t.slotOf key = { s.cardSlot with used := true, generation := (s.slotOf key).generation } :=
    ((State.leave_slotOf ..).trans (State.slotOf_giveHandle ..)).trans hslotU
  have hjob : t.jobOf s.ctx.nextJob = (s.cardOpen key).inQueue (s.jobBy x key) := by
    have hkeep : t.jobOf s.ctx.nextJob = u.jobOf s.ctx.nextJob := State.jobOf_advance_giveHandle ..
    exact hkeep.trans ((State.jobOf_of_bare hb _).trans (State.jobOf_addJob ..))
  have hhandle : u.handleOf key = handle 2 (s.slotOf key).generation key := by
    rw [State.handleOf, hslotU]
    rfl
  have hstand : (u.giveHandle (.h i) key).stand = s.stand :=
    (State.stand_giveHandle ..).trans (congrArg State.stand hb :)
  have hnext : t.ctx.nextJob = u.ctx.nextJob := State.nextJob_advance_giveHandle ..
  have hclock : t.clock = s.clock + 1 := by
    have h1 : (u.giveHandle (.h i) key).clock = s.clock := (congrArg State.clock hb :)
    exact (State.leave_clock ..).trans (congrArg (· + 1) h1)
  have hhalt : t.halt = s.halt := by
    have h1 : (u.giveHandle (.h i) key).halt = s.halt := (congrArg State.halt hb :)
    exact (State.leave_halt ..).trans h1
  rw [cardQueued, hslot, hjob, hnext, ← hhandle]
  exact ⟨⟨hclock, hhalt, fun hf => State.advance_pc hstand hf h, handleComing_giveHandle u i key h, rfl, rfl, rfl, rfl,
    State.nextJob_of_bare hb, rfl, rfl, rfl, hx, rfl⟩, rfl⟩

end Sys2Proof.Machine
end

section
namespace Sys2Proof.Machine
open Sys2Proof

/-! COPY, COPYT, COPYF, JOB and DRAIN (R362, R364 to R367). -/

theorem exists_h_of_isH {d : Operand} (h : isH d = true) : ∃ i, d = .h i := by
  cases d <;> simp_all [isH]

/-- A word that submits a card, and what else it does on its carrel. -/
theorem cardQueued_of_submit {s : State} {key : Nat} (hs : s.submits key) {h : Header} {task : State → Result} {m : Mask}
    {reads : Nat × Nat} {x : Job} {extra : Nat → State → State} (hd : isH h.d = true)
    (he : ∀ j (u : State), (extra j u).bare = u.bare) (hx : x.state = .queued)
    (hact : task s = submit s h m reads x extra) :
    ∃ t, perTask h true task s = .next t ∧ cardQueued s t h.d x.by_ x.card key
      ∧ (t.jobOf s.ctx.nextJob).follow = x.follow
      ∧ t = ((s.submitted (s.jobBy x key) key extra).giveHandle h.d key).advance h := by
  obtain ⟨i, hi⟩ := exists_h_of_isH hd
  have hone : s.oneTask := hs.2.2.1
  obtain ⟨hcard, hfollow⟩ := submitted_leaves s x key extra he hx i h
  rw [perTask_oneTask hone, hact, submit_accepted hs, hi]
  exact ⟨_, rfl, hcard, hfollow, rfl⟩

theorem State.issues_legal {s : State} {h : Header} {c : WordClass} {legal : Bool} {dsts : List (Operand × Bool)}
    {srcs : Mask → List Src} {m : Mask} (hi : s.issues h c legal dsts srcs m) : legal = true := hi.2.2.1

theorem State.seq_count (s : State) (c e n k : Nat) : ((s.count c e n).carrelOf k).seq = (s.carrelOf k).seq :=
  (congrArg Carrel.seq (s.uncounted_count c e n k) :)

theorem State.seq_advance (s : State) (h : Header) (k : Nat) : ((s.advance h).carrelOf k).seq = (s.carrelOf k).seq :=
  (congrArg Carrel.seq (s.uncounted_advance h k) :)

/-- The tile read of a drain. -/
def drainOp (g : Gang) (tile : BitVec 2) (j : Nat) (s : State) : TileOp :=
  { TileOp.none with kind := .drainRead, tile := tile, job := j, by_ := g.issuer s.cur (s.cycleOf g.carrel) }

/-- It enters the sequencer (R205). -/
def drainRead (g : Gang) (c : Nat) (tile : BitVec 2) (j : Nat) (s : State) : State :=
  s.modCarrelOf c fun k => { k with seq := k.seq ++ [drainOp g tile j s] }

theorem bare_drainRead (g : Gang) (c : Nat) (tile : BitVec 2) (j : Nat) (s : State) :
    (drainRead g c tile j s).bare = s.bare := rfl

theorem seq_drainRead (g : Gang) (c : Nat) (tile : BitVec 2) (j : Nat) (s : State) :
    ((drainRead g c tile j s).carrelOf c).seq = (s.carrelOf c).seq ++ [drainOp g tile j s] := by
  rw [drainRead, State.modCarrelOf, State.carrelOf_setCarrelOf_self]

theorem State.seq_cardOpen (s : State) (key k : Nat) : ((s.cardOpen key).carrelOf k).seq = (s.carrelOf k).seq := by
  have hrelease : (s.cardOpen key).ctx.carrels = s.ctx.carrels := State.carrels_release ..
  rw [State.carrelOf_of_carrels hrelease]

/-- It stands behind what the sequencer holds. -/
theorem seq_of_drainRead (s : State) (x : Job) (key : Nat) (tile : BitVec 2) (i : BitVec 4) (h : Header) :
    ∃ o, ((((s.submitted x key (drainRead s.gang s.gang.carrel tile)).giveHandle (.h i) key).advance h).carrelOf
          s.gang.carrel).seq = (s.carrelOf s.gang.carrel).seq ++ [o]
      ∧ o.kind = .drainRead ∧ o.tile = tile ∧ o.job = s.ctx.nextJob := by
  rw [State.seq_advance, State.carrelOf_giveHandle, State.submitted, State.seq_count, seq_drainRead, State.seq_appendJob,
    State.seq_cardOpen]
  exact ⟨_, rfl, rfl, rfl, rfl⟩

end Sys2Proof.Machine

open Sys2Proof Sys2Proof.Machine

/-- Settles O41: each word's submission is accepted (`submit_accepted`), so its job holds the card that the word builds
(`submitted_leaves`). -/
theorem cardsSubmitted : Obligations.CardsSubmitted := by
  unfold Obligations.CardsSubmitted
  intro x s m key hs
  have hid : ∀ j (u : State), ((fun _ s => s : Nat → State → State) j u).bare = u.bare := fun _ _ => rfl
  refine ⟨?copy, ?copyt, ?copyf, ?job, ?drain⟩
  case copy =>
    intro hi
    have hact : copyTask x s = submit s x.hdr m _ { Job.none with
        card := copyCard s x 1 (x.control.getLsbD 9), by_ := .copy } fun _ s => s := issue_of_issues _ hi
    obtain ⟨t, ht, hcard, -, -⟩ := cardQueued_of_submit hs (by have hl := State.issues_legal hi; simp_all) hid rfl hact
    exact ⟨t, ht, hcard⟩
  case copyt =>
    intro hi
    have hact : copytTask x s = submit s x.hdr m _ { Job.none with
        card := { Card.zero with kind := 2, flags := copyFlags x, aux := readGang s 0x1D 0 x.a },
        by_ := .copyt } fun _ s => s := issue_of_issues _ hi
    obtain ⟨t, ht, hcard, -, -⟩ := cardQueued_of_submit hs (by have hl := State.issues_legal hi; simp_all) hid rfl hact
    exact ⟨t, ht, hcard⟩
  case copyf =>
    intro hi
    have hact : copyfTask x s = submit s x.hdr m _ { Job.none with
        card := copyCard s x 6 true, by_ := .copyf,
        follow := some { TileOp.none with
          kind := .mma, tcfg := s.gang.tcfg, maskm := min s.gang.maskm.toNat 128, maskn := min s.gang.maskn.toNat 128,
          by_ := s.gang.issuer s.cur (s.cycleOf s.gang.carrel) } } fun _ s => s := issue_of_issues _ hi
    obtain ⟨t, ht, hcard, hfollow, -⟩ := cardQueued_of_submit hs (by have hl := State.issues_legal hi; simp_all) hid rfl hact
    exact ⟨t, ht, hcard, _, hfollow, rfl, rfl, rfl, rfl⟩
  case job =>
    intro hi off h64 hoff
    have hlow : ((readGang s 0x1D 0 x.a).extractLsb' 0 32).toNat = off := by simp [off]
    let card := cardOf (s.myCarrel.sp.read off 64)
    have hact : jobTask x s = submit s x.hdr m (card.rBase.toNat, card.rLen.toNat)
        { Job.none with card := card, by_ := .job } fun _ s => s := by
      rw [jobTask, issue_of_issues _ hi]
      simp only [hlow, h64, if_neg (Nat.not_le.2 hoff)]
      rfl
    obtain ⟨t, ht, hcard, -, -⟩ := cardQueued_of_submit hs (by have hl := State.issues_legal hi; simp_all) hid rfl hact
    exact ⟨t, ht, hcard⟩
  case drain =>
    intro p hp tile htile hi a c h64 hroom
    have hexec : exec (p.1 x) s = perTask x.hdr true (drainTask x p.2) s := by
      simp only [List.mem_cons, List.not_mem_nil, or_false] at hp
      rcases hp with rfl | rfl <;> rfl
    have hact : drainTask x p.2 s = submit s x.hdr m (0, 0) { Job.none with
        card := { Card.zero with
          kind := 4, op := p.2, aux := a,
          source := BitVec.ofNat 64 (c / 48 * 2 ^ 54 + c % 48 * 2 ^ 48 + tile.toNat) },
        by_ := .drain } (drainRead s.gang s.gang.carrel tile) := by
      rw [drainTask, issue_of_issues _ (State.issuesActs.mono hi fun h => by simp_all [isTile])]
      simp only [htile, a, h64, if_neg (Nat.not_le.2 hroom)]
      rfl
    have hd : isH x.hdr.d = true := by have hl := State.issues_legal hi; simp_all
    obtain ⟨i, hdi⟩ := exists_h_of_isH hd
    obtain ⟨t, ht, hcard, -, rfl⟩ := cardQueued_of_submit hs hd (bare_drainRead s.gang s.gang.carrel tile) rfl hact
    rw [hexec]
    refine ⟨_, ht, hcard, ?_⟩
    rw [hdi]
    exact seq_of_drainRead ..

end

section
namespace Sys2Proof.Machine
open Sys2Proof

/-! The buffer table (R212, R213, R369, R370). -/

theorem Carrel.buf_setBuf (c : Carrel) (i j : Nat) (e : BufEntry) (hi : i < 64) :
    (c.setBuf i e).buf j = if j = i then e else c.buf j := by
  change (c.bufs.setIfInBounds i e).getD j BufEntry.zero = if j = i then e else c.bufs.getD j BufEntry.zero
  by_cases hj : j < 64
  · rw [vectorGetD_lt _ hj, vectorGetD_lt _ hj, Vector.getElem_setIfInBounds]
    exact if_congr eq_comm rfl rfl
  · have hne : j ≠ i := fun h => hj (h ▸ hi)
    have hout : ∀ v : Vector BufEntry 64, v.getD j BufEntry.zero = BufEntry.zero := fun v => by simp [Vector.getD, hj]
    rw [if_neg hne, hout, hout]

theorem Carrel.buf_setBuf_self (c : Carrel) {i : Nat} (hi : i < 64) (e : BufEntry) : (c.setBuf i e).buf i = e := by
  rw [c.buf_setBuf i i e hi, if_pos rfl]

/-- The lowest free entry. -/
theorem Carrel.freeEntry_eq {c : Carrel} {i : Nat} (hi : i < 64) (hfree : (c.buf i).state = .free)
    (hlow : ∀ j < i, (c.buf j).state ≠ .free) : c.freeEntry = some i := by
  rw [Carrel.freeEntry, List.find?_range_eq_some]
  refine ⟨by simpa [Carrel.buf] using hfree, List.mem_range.2 hi, fun j hj => ?_⟩
  simpa [Carrel.buf] using hlow j hj

theorem Carrel.freeEntry_none {c : Carrel} (h : ∀ j < 64, (c.buf j).state ≠ .free) : c.freeEntry = none := by
  rw [Carrel.freeEntry, List.find?_range_eq_none]
  intro j hj
  simpa [Carrel.buf] using h j hj

theorem Carrel.serve_none {c : Carrel} (h : c.freeEntry = none) : c.serve = c := by
  unfold Carrel.serve
  rw [h]
  split
  · next he => cases he
  · rfl

theorem Carrel.serve_nobody {c : Carrel} (h : c.takers = []) : c.serve = c := by
  unfold Carrel.serve
  rw [h]

theorem Carrel.serve_first {c : Carrel} {y : Nat × Bool} {rest : List (Nat × Bool)} {i : Nat} (hy : c.takers = y :: rest)
    (h : c.freeEntry = some i) : c.serve
      = { c.setBuf i { BufEntry.zero with state := .filling } with takers := rest, given := c.given ++ [(y, i)] } := by
  unfold Carrel.serve
  rw [hy, h]
  rfl

/-- What becomes of an entry that is given up (R213). -/
def BufEntry.freed (e : BufEntry) : BufEntry := if e.claims = 0 then BufEntry.zero else { e with state := .draining }

theorem Carrel.freeBuf_eq (c : Carrel) (i : Nat) : c.freeBuf i = (c.setBuf i (c.buf i).freed).serve := rfl

/-- Where nobody waits, the entry stays as it was left. -/
theorem Carrel.buf_freeBuf_nobody {c : Carrel} {i : Nat} (hi : i < 64) (h : c.takers = []) :
    (c.freeBuf i).buf i = (c.buf i).freed := by
  have ht : (c.setBuf i (c.buf i).freed).takers = [] := h
  rw [Carrel.freeBuf_eq, Carrel.serve_nobody ht, c.buf_setBuf_self hi]

section
variable {c : Carrel} {i : Nat} (hi : i < 64) (hfull : ∀ j < 64, (c.buf j).state ≠ .free)
include hi hfull

/-- An entry with claims drains, and frees nothing. -/
theorem Carrel.buf_freeBuf_claimed (hc : (c.buf i).claims ≠ 0) : (c.freeBuf i).buf i = (c.buf i).freed := by
  have hnone : (c.setBuf i (c.buf i).freed).freeEntry = none := by
    refine Carrel.freeEntry_none fun j hj => ?_
    rw [c.buf_setBuf i j _ hi]
    split
    · rw [BufEntry.freed, if_neg hc]; exact BufState.noConfusion
    · exact hfull j hj
  rw [Carrel.freeBuf_eq, Carrel.serve_none hnone, c.buf_setBuf_self hi]

/-- The only entry that becomes free goes to the path that has waited longest. -/
theorem Carrel.freeBuf_first {y : Nat × Bool} {rest : List (Nat × Bool)} (hy : c.takers = y :: rest)
    (hc : (c.buf i).claims = 0) (hg : c.gift y = none) :
    (c.freeBuf i).buf i = { BufEntry.zero with state := .filling } ∧ (c.freeBuf i).gift y = some i := by
  have hfreed : (c.buf i).freed = BufEntry.zero := if_pos hc
  have hone : (c.setBuf i (c.buf i).freed).freeEntry = some i := by
    refine Carrel.freeEntry_eq hi (by rw [c.buf_setBuf_self hi, hfreed]; rfl) fun j hj => ?_
    rw [c.buf_setBuf i j _ hi, if_neg (Nat.ne_of_lt hj)]
    exact hfull j (hj.trans hi)
  have hserve := Carrel.serve_first (c := c.setBuf i (c.buf i).freed) hy hone
  rw [Carrel.freeBuf_eq, hserve]
  refine ⟨Carrel.buf_setBuf_self _ hi _, ?_⟩
  rw [Carrel.gift, Option.map_eq_none_iff] at hg
  show ((c.given ++ [(y, i)]).find? fun e => e.1 == y).map (·.2) = some i
  rw [List.find?_append, hg]
  simp

end

/-- Evaluating a filling entry with a named source: it is full, and its armed word written, where every named source is
satisfied (R213, R370). -/
theorem Carrel.buf_evalBuf (c : Carrel) {i : Nat} (hi : i < 64) {e : BufEntry} (hs : e.state = .filling)
    (hn : e.named ≠ 0) : (c.evalBuf i e).buf i
      = { e with satisfied := e.sat, state := if e.sat = e.named then .full else .filling } := by
  have hw : ∀ k : Carrel, (k.writeArmed e).buf i = k.buf i := by
    intro k
    unfold Carrel.writeArmed
    split <;> rfl
  rw [Carrel.evalBuf]
  by_cases h : e.sat = e.named
  · rw [if_pos (by simp_all), hw, c.buf_setBuf_self hi, if_pos h]
  · rw [if_neg (by simp [h]), c.buf_setBuf_self hi, if_neg h, ← hs]

theorem Carrel.sp_writeArmed {c : Carrel} {e : BufEntry} (ha : e.armed = true) :
    (c.writeArmed e).sp.word e.offset.toNat 4 = e.value.toNat := by
  rw [Carrel.writeArmed, if_pos ha]
  exact Memory.word_write _ _ _ _ e.value.isLt

theorem Carrel.sp_evalBuf_full {c : Carrel} {i : Nat} {e : BufEntry} (hs : e.state = .filling) (hn : e.named ≠ 0)
    (h : e.sat = e.named) (ha : e.armed = true) : (c.evalBuf i e).sp.word e.offset.toNat 4 = e.value.toNat := by
  rw [Carrel.evalBuf, if_pos (by simp_all)]
  exact Carrel.sp_writeArmed ha

theorem Carrel.sp_evalBuf (c : Carrel) (i : Nat) {e : BufEntry} (h : e.sat ≠ e.named ∨ e.armed = false) :
    (c.evalBuf i e).sp = c.sp := by
  rw [Carrel.evalBuf]
  split
  · next hc =>
    have hsat : e.sat = e.named := by simp_all
    have ha : e.armed = false := h.resolve_left (not_not_intro hsat)
    rw [Carrel.writeArmed, if_neg (by simp [ha])]
    rfl
  · rfl

theorem named_ne_zero (v : BitVec 4) {src : Nat} (h : src ≤ 3) : v ||| BitVec.ofNat 4 (2 ^ src) ≠ 0 := by
  intro h0
  have hbit := congrArg (fun w : BitVec 4 => w.getLsbD src) h0
  interval_cases src <;> simp at hbit

/-! What an instruction leaves of its carrel. -/

/-- What a word only goes on over leaves of the carrel, but counters. -/
theorem State.carrel_advance {α : Type} (f : Carrel → α) (hf : ∀ c, f c = f c.uncounted) (s : State) (h : Header)
    (k : Nat) : f ((s.advance h).carrelOf k) = f (s.carrelOf k) := by
  rw [hf, s.uncounted_advance, ← hf]

/-- A word that acts on its carrel alone. -/
theorem wentOn_modCarrelOf (s : State) (h : Header) (f : Carrel → Carrel) :
    wentOn s ((s.modCarrelOf s.gang.carrel f).advance h) (s.pc + 12) := wentOn_advance h rfl rfl rfl rfl rfl rfl

theorem carrelOf_modCarrelOf_advance {α : Type} (p : Carrel → α) (hp : ∀ c, p c = p c.uncounted) (s : State) (h : Header)
    (f : Carrel → Carrel) :
    p (((s.modCarrelOf s.gang.carrel f).advance h).carrelOf s.gang.carrel) = p (f s.myCarrel) := by
  rw [s.modCarrelOf s.gang.carrel f |>.carrel_advance p hp, State.modCarrelOf, State.carrelOf_setCarrelOf_self]
  rfl

/-- A word that acts on its carrel and launches a result. -/
theorem launched_modCarrelOf (s : State) (h : Header) (f : Carrel → Carrel) {d : Operand} (hd : isS d = true) (v : DWord) :
    let t := ((s.modCarrelOf s.gang.carrel f).launchS d v).advance h
    wentOn s t (s.pc + 12) ∧ launchedS t d v
      ∧ ∀ {α : Type} (p : Carrel → α), (∀ c, p c = p c.uncounted) → p (t.carrelOf s.gang.carrel) = p (f s.myCarrel) := by
  obtain ⟨i, rfl⟩ := exists_s_of_isS hd
  refine ⟨wentOn_advance h rfl rfl rfl rfl rfl (State.stand_launchS ..), launchedS_advance .., fun p hp => ?_⟩
  refine ((State.carrel_advance p hp _ h _).trans ?_)
  show p ((s.modCarrelOf s.gang.carrel f).carrelOf s.gang.carrel) = _
  rw [State.modCarrelOf, State.carrelOf_setCarrelOf_self]
  rfl

end Sys2Proof.Machine
end

section
namespace Sys2Proof.Machine
open Sys2Proof

/-! BUFGET, BUFEXP, BUFST and BUFREL (R368 to R370). -/

section
variable {x : RRR} {s : State} {m : Mask} {i : Nat}
  (hi : s.issues x.hdr .gang (bufFieldsOk s x 0 false && isS x.hdr.d) [(x.hdr.d, false)] (bufSrcs x) m)
include hi

theorem isS_of_bufget : isS x.hdr.d = true := by
  have hl := State.issues_legal hi
  simp_all

/-- The entry that came to the path (R369). -/
theorem execBufget_gift (hg : s.myCarrel.gift (s.cur, s.gang.younger) = some i) : exec (.bufget x) s
    = .next (((s.modCarrelOf s.gang.carrel fun c => c.handOver (s.cur, s.gang.younger)).launchS x.hdr.d
        (BitVec.ofNat 64 i)).advance x.hdr) := by
  refine (issue_of_issues _ hi).trans ?_
  simp only [hg]

section
variable (hg : s.myCarrel.gift (s.cur, s.gang.younger) = none)
include hg

theorem execBufget_free (ht : s.myCarrel.turnOf (s.cur, s.gang.younger) = true) (hf : s.myCarrel.freeEntry = some i) :
    exec (.bufget x) s = .next (((s.modCarrelOf s.gang.carrel fun c =>
      (c.leaves (s.cur, s.gang.younger)).setBuf i { BufEntry.zero with state := .filling }).launchS x.hdr.d
        (BitVec.ofNat 64 i)).advance x.hdr) := by
  refine (issue_of_issues _ hi).trans ?_
  simp only [hg, ht, hf, if_true]

theorem execBufget_waits
    (hw : (if s.myCarrel.turnOf (s.cur, s.gang.younger) then s.myCarrel.freeEntry else none) = none) :
    exec (.bufget x) s = .next (s.modCarrelOf s.gang.carrel fun c => c.joins (s.cur, s.gang.younger)).hold := by
  refine (issue_of_issues _ hi).trans ?_
  simp only [hg, hw]

end

end

theorem Carrel.gift_handOver (c : Carrel) (me : Nat × Bool) : (c.handOver me).gift me = none := by
  rw [Carrel.gift, Option.map_eq_none_iff, List.find?_eq_none]
  intro e he
  have h := (List.mem_filter.1 he).2
  simpa using h

theorem Carrel.mem_joins (c : Carrel) (me : Nat × Bool) : me ∈ (c.joins me).takers := by
  unfold Carrel.joins
  split
  · next h => simpa using h
  · exact List.mem_append_right _ (List.mem_singleton.2 rfl)

theorem Carrel.bufs_joins (c : Carrel) (me : Nat × Bool) : (c.joins me).bufs = c.bufs := by
  unfold Carrel.joins
  split <;> rfl

/-- A BUFGET that waits stands among the takers. -/
theorem bufget_stands (s : State) :
    let t := (s.modCarrelOf s.gang.carrel fun c => c.joins (s.cur, s.gang.younger)).hold
    t.clock = s.clock ∧ t.pc = s.pc ∧ (t.carrelOf s.gang.carrel).bufs = (s.carrelOf s.gang.carrel).bufs
      ∧ (s.cur, s.gang.younger) ∈ (t.carrelOf s.gang.carrel).takers := by
  intro t
  have hcarrel : t.carrelOf s.gang.carrel = (s.carrelOf s.gang.carrel).joins (s.cur, s.gang.younger) :=
    State.carrelOf_setCarrelOf_self ..
  rw [hcarrel]
  exact ⟨rfl, State.pc_hold _, Carrel.bufs_joins .., Carrel.mem_joins ..⟩

theorem State.bufOperand_some {s : State} {o : Operand} {i : Nat} (h : s.bufOperand o = some i) : i < 64 := by
  simp only [State.bufOperand, Option.ite_none_right_eq_some, Option.some.injEq] at h
  obtain ⟨hlt, rfl⟩ := h
  exact hlt

section
variable {x : RRR} {s : State} {m : Mask} {i : Nat} (hop : s.bufOperand x.a = some i)
include hop

theorem bufAct_entry (f : Nat → BufEntry → Result) : bufAct s x m f = f i (s.myCarrel.buf i) := by
  rw [bufAct, hop]

section
variable (hi : s.issues x.hdr .gang (bufFieldsOk s x 3 false && x.hdr.d == .absent) [] (bufSrcs x) m)
include hi

/-- The entry as BUFEXP writes it, before its evaluation (R213). -/
def State.expecting (s : State) (x : RRR) (e : BufEntry) : BufEntry :=
  { e with
    expected := e.expected.setIfInBounds (readGang s 0x1D 0 x.b).toNat ((readGang s 0x1D 0 x.c).setWidth 32),
    named := e.named ||| BitVec.ofNat 4 (2 ^ (readGang s 0x1D 0 x.b).toNat) }

theorem execBufexp_evaluates (hsrc : (readGang s 0x1D 0 x.b).toNat ≤ 3) (hf : (s.myCarrel.buf i).state = .filling) :
    exec (.bufexp x) s = .next ((s.modCarrelOf s.gang.carrel fun c =>
      c.evalBuf i (s.expecting x (s.myCarrel.buf i))).advance x.hdr) := by
  have hlow : (readGang s 0x1D 0 x.c).extractLsb' 0 32 = (readGang s 0x1D 0 x.c).setWidth 32 :=
    (BitVec.setWidth_eq_extractLsb' (by decide)).symm
  refine (issue_of_issues _ hi).trans ((bufAct_entry hop _).trans ?_)
  rw [if_neg (by rw [hf]; simpa using hsrc), hlow]
  rfl

/-- The entry as BUFST arms it (R370). -/
def State.arming (s : State) (x : RRR) (e : BufEntry) : BufEntry :=
  { e with
    armed := true, offset := BitVec.ofNat 19 (readGang s 0x1D 0 x.b).toNat, value := (readGang s 0x1D 0 x.c).setWidth 32 }

/-- The carrel once entry i is armed: a full one's word is stored at once. -/
def Carrel.arm (c : Carrel) (i : Nat) (e : BufEntry) : Carrel :=
  if e.state == .full then (c.setBuf i e).writeArmed e else c.setBuf i e

theorem execBufst_arms (h4 : (readGang s 0x1D 0 x.b).toNat % 4 = 0) (hoff : (readGang s 0x1D 0 x.b).toNat < 0x80000)
    (hs : (s.myCarrel.buf i).state = .filling ∨ (s.myCarrel.buf i).state = .full) :
    exec (.bufst x) s = .next ((s.modCarrelOf s.gang.carrel fun c =>
      c.arm i (s.arming x (s.myCarrel.buf i))).advance x.hdr) := by
  have hlow : (readGang s 0x1D 0 x.c).extractLsb' 0 32 = (readGang s 0x1D 0 x.c).setWidth 32 :=
    (BitVec.setWidth_eq_extractLsb' (by decide)).symm
  refine (issue_of_issues _ hi).trans ((bufAct_entry hop _).trans ?_)
  rw [if_neg (not_not_intro h4), if_neg (Nat.not_le.2 hoff), if_neg (by rcases hs with h | h <;> simp [h]), hlow]
  rfl

end

section
variable (hi : s.issues x.hdr .gang (bufFieldsOk s x 1 true && x.hdr.d == .absent) [] (bufSrcs x) m)
include hi

theorem execBufrel_full (hs : (s.myCarrel.buf i).state = .full) :
    exec (.bufrel x) s = .next ((s.modCarrelOf s.gang.carrel fun c => c.freeBuf i).advance x.hdr) := by
  refine (issue_of_issues _ hi).trans ((bufAct_entry hop _).trans ?_)
  simp only [hs]

theorem execBufrel_filling (hs : (s.myCarrel.buf i).state = .filling) : exec (.bufrel x) s = .next s.hold := by
  refine (issue_of_issues _ hi).trans ((bufAct_entry hop _).trans ?_)
  simp only [hs]

theorem execBufrelAbort_gives (hs : (s.myCarrel.buf i).state = .filling ∨ (s.myCarrel.buf i).state = .full) :
    exec (.bufrelAbort x) s = .next ((s.modCarrelOf s.gang.carrel fun c => c.freeBuf i).advance x.hdr) := by
  refine (issue_of_issues _ hi).trans ((bufAct_entry hop _).trans ?_)
  rcases hs with h | h <;> simp only [h]

end

end

theorem Carrel.buf_arm (c : Carrel) {i : Nat} (hi : i < 64) (e : BufEntry) : (c.arm i e).buf i = e := by
  have hw : ∀ k : Carrel, (k.writeArmed e).buf i = k.buf i := by
    intro k
    unfold Carrel.writeArmed
    split <;> rfl
  rw [Carrel.arm]
  split
  · rw [hw, c.buf_setBuf_self hi]
  · exact c.buf_setBuf_self hi e

theorem Carrel.sp_arm_full (c : Carrel) (i : Nat) {e : BufEntry} (hs : e.state = .full) (ha : e.armed = true) :
    (c.arm i e).sp.word e.offset.toNat 4 = e.value.toNat := by
  rw [Carrel.arm, if_pos (by rw [hs]; rfl)]
  exact Carrel.sp_writeArmed ha

theorem Carrel.sp_arm_filling (c : Carrel) (i : Nat) {e : BufEntry} (hs : e.state = .filling) : (c.arm i e).sp = c.sp := by
  rw [Carrel.arm, if_neg (by rw [hs]; decide)]
  rfl

end Sys2Proof.Machine

open Sys2Proof Sys2Proof.Machine

/-- Settles O43: each instruction's effect on its carrel's buffer table, by the rules of the table (`Carrel.buf_evalBuf`,
`Carrel.freeBuf_first` and the others). -/
theorem bufferInstructions : Obligations.BufferInstructions := by
  unfold Obligations.BufferInstructions
  intro x s m i k e freed left
  have hleft : i < 64 → left ((s.modCarrelOf s.gang.carrel fun c => c.freeBuf i).advance x.hdr) := by
    intro h64
    have hbuf := carrelOf_modCarrelOf_advance (fun c => c.buf i) (fun _ => rfl) s x.hdr fun c => c.freeBuf i
    refine ⟨fun h => hbuf.trans (Carrel.buf_freeBuf_nobody h64 h),
      fun hc hfull => hbuf.trans (Carrel.buf_freeBuf_claimed h64 hfull hc), fun y rest hy hc hfull hg => ?_⟩
    have hgift := carrelOf_modCarrelOf_advance (fun c => c.gift y) (fun _ => rfl) s x.hdr fun c => c.freeBuf i
    obtain ⟨hfilling, hgiven⟩ := Carrel.freeBuf_first h64 hfull hy hc hg
    exact ⟨hbuf.trans hfilling, hgift.trans hgiven⟩
  refine ⟨?taken, ?waits, ?gift, fun hop => ⟨fun hi => ⟨?bufexp, ?bufst⟩, fun hi => ⟨?full, ?filling, ?abort⟩⟩⟩
  case taken =>
    intro hi h64 hg hfree hlow ht
    obtain ⟨hwent, hl, hc⟩ := launched_modCarrelOf s x.hdr (fun c =>
      (c.leaves (s.cur, s.gang.younger)).setBuf i { BufEntry.zero with state := .filling }) (isS_of_bufget hi)
      (BitVec.ofNat 64 i)
    refine ⟨_, execBufget_free hi hg ht (Carrel.freeEntry_eq h64 hfree hlow), hwent, hl,
      (hc (fun c => c.buf i) fun _ => rfl).trans (Carrel.buf_setBuf_self _ h64 _), fun j hj => ?_⟩
    exact (hc (fun c => c.buf j) fun _ => rfl).trans ((Carrel.buf_setBuf _ i j _ h64).trans (if_neg hj))
  case waits =>
    intro hi hg hw
    refine ⟨_, execBufget_waits hi hg ?_, bufget_stands s⟩
    rcases hw with ht | hfull
    · rw [ht]; rfl
    · rw [Carrel.freeEntry_none hfull, ite_self]
  case gift =>
    intro hi hg
    obtain ⟨hwent, hl, hc⟩ := launched_modCarrelOf s x.hdr (fun c => c.handOver (s.cur, s.gang.younger)) (isS_of_bufget hi)
      (BitVec.ofNat 64 i)
    exact ⟨_, execBufget_gift hi hg, hwent, hl,
      (hc (fun c => c.gift (s.cur, s.gang.younger)) fun _ => rfl).trans (Carrel.gift_handOver ..),
      hc (fun c => c.bufs) fun _ => rfl⟩
  case bufexp =>
    intro src y hsrc hf
    have h64 := State.bufOperand_some hop
    have hn : y.named ≠ 0 := named_ne_zero _ hsrc
    have hc := fun {α : Type} (p : Carrel → α) hp =>
      carrelOf_modCarrelOf_advance p hp s x.hdr fun c => c.evalBuf i (s.expecting x e)
    refine ⟨_, execBufexp_evaluates hop hi hsrc hf, wentOn_modCarrelOf ..,
      (hc (fun c => c.buf i) fun _ => rfl).trans (Carrel.buf_evalBuf _ h64 hf hn), fun hsat ha => ?_, fun h => ?_⟩
    · exact (congrArg (fun sp : Memory => sp.word e.offset.toNat 4) (hc (fun c => c.sp) fun _ => rfl)).trans
        (Carrel.sp_evalBuf_full hf hn hsat ha)
    · exact (hc (fun c => c.sp) fun _ => rfl).trans (Carrel.sp_evalBuf _ i h)
  case bufst =>
    intro off v h4 hoff hs
    have h64 := State.bufOperand_some hop
    have hc := fun {α : Type} (p : Carrel → α) hp =>
      carrelOf_modCarrelOf_advance p hp s x.hdr fun c => c.arm i (s.arming x e)
    have hoffset : (s.arming x e).offset.toNat = off := BitVec.toNat_ofNat .. |>.trans (Nat.mod_eq_of_lt hoff)
    refine ⟨_, execBufst_arms hop hi h4 hoff hs, wentOn_modCarrelOf ..,
      (hc (fun c => c.buf i) fun _ => rfl).trans (Carrel.buf_arm _ h64 _), fun hfull => ?_, fun hfilling => ?_⟩
    · have hword := Carrel.sp_arm_full s.myCarrel i (e := s.arming x e) hfull rfl
      rw [hoffset] at hword
      exact (congrArg (fun sp : Memory => sp.word off 4) (hc (fun c => c.sp) fun _ => rfl)).trans hword
    · exact (hc (fun c => c.sp) fun _ => rfl).trans (Carrel.sp_arm_filling _ i hfilling)
  case full => exact fun hs => ⟨_, execBufrel_full hop hi hs, wentOn_modCarrelOf .., hleft (State.bufOperand_some hop)⟩
  case filling => exact fun hs => execBufrel_filling hop hi hs
  case abort =>
    exact fun hs => ⟨_, execBufrelAbort_gives hop hi hs, wentOn_modCarrelOf .., hleft (State.bufOperand_some hop)⟩

end

section
namespace Sys2Proof.Machine
open Sys2Proof

/-! The performance counters of a carrel as a word issues (R373). -/

/-- A pass over a table changes what stands under a key that it holds. -/
theorem Table.look_map_of_has {α : Type} (F : Nat × α → α) (t : Table α) {k : Nat} (h : Table.has t k = true) (d : α) :
    Table.look (t.map fun e => (e.1, F e) : Table α) k d = F (k, Table.look t k d) := by
  induction t with
  | nil => cases h
  | cons e r ih =>
    obtain ⟨j, v⟩ := e
    by_cases hj : k = j
    · subst hj
      simp [Table.look]
    · have hr : Table.has r k = true := by simpa [Table.has, Table.seek, hj] using h
      simpa [Table.look, hj] using ih hr

theorem Carrel.pmsel_count (c : Carrel) (event n : Nat) : (c.count event n).pmsel = c.pmsel := rfl

theorem Carrel.pmcnt_count (c : Carrel) (event n : Nat) {k : Nat} (hk : k < 4) :
    (c.count event n).pmcnt.getD k 0
      = if (c.pmsel.getD k 0).toNat = event then c.pmcnt.getD k 0 + BitVec.ofNat 64 n else c.pmcnt.getD k 0 := by
  rw [vectorGetD_lt _ hk, vectorGetD_lt _ hk, vectorGetD_lt _ hk]
  exact Vector.getElem_ofFn ..

theorem State.has_modCarrelOf (s : State) (c : Nat) (f : Carrel → Carrel) :
    Table.has (s.modCarrelOf c f).ctx.carrels c = true := by
  have h := Table.has_put s.ctx.carrels c c (f (s.carrelOf c))
  simp_all [State.modCarrelOf, State.setCarrelOf]

section
variable {s : State} (hc : Table.has s.ctx.carrels s.gang.carrel = true)
include hc

theorem State.has_issuedOne : Table.has s.issuedOne.ctx.carrels s.gang.carrel = true := by
  rw [State.issuedOne]
  split
  · rw [State.count, if_pos hc]
    exact State.has_modCarrelOf ..
  · exact hc

theorem State.carrelOf_issuedOne : s.issuedOne.carrelOf s.gang.carrel
    = if s.gang.path.acted = 0 then (s.carrelOf s.gang.carrel).count 2 1 else s.carrelOf s.gang.carrel := by
  rw [State.issuedOne]
  split
  · rw [State.count, if_pos hc, State.modCarrelOf, State.carrelOf_setCarrelOf_self]
  · rfl

end

theorem State.carrelOf_tick {s : State} {c : Nat} (hc : Table.has s.ctx.carrels c = true) (hg : c ∉ s.gated) :
    s.tick.carrelOf c = ((s.carrelOf c).count 1 1).count 3 (s.lostSlots true c) := by
  refine (Table.look_map_of_has (fun e : Nat × Carrel =>
    if s.gated.contains e.1 then e.2 else (e.2.count 1 1).count 3 (s.lostSlots true e.1)) s.ctx.carrels hc Carrel.reset).trans ?_
  rw [if_neg (by simpa using hg)]
  rfl

theorem List.nodup_eraseDups {α : Type} [BEq α] [LawfulBEq α] : ∀ l : List α, l.eraseDups.Nodup
  | [] => by simp
  | a :: l => by
    have ih := List.nodup_eraseDups (l.filter fun b => !b == a)
    rw [List.eraseDups_cons, List.nodup_cons]
    exact ⟨by simp [List.mem_eraseDups], ih⟩
termination_by l => l.length
decreasing_by
  have := List.length_filter_le (fun b => !b == a) l
  simp only [List.length_cons]
  omega

/-- At most the three other quarters of the carrel lose a slot while a word issues in its own (R373). -/
theorem State.lostSlots_le (s : State) : s.lostSlots true s.gang.carrel ≤ 3 := by
  have hsub : ∀ a ∈ (((s.ctx.gangs.filter fun e => (e.2.resident && decide (e.2.carrel = s.gang.carrel) && e.2.lacked s.clock
      && !(true && decide (s.gang.carrel = s.gang.carrel) && s.gang.quarter = e.2.quarter) && s.oldest e.2 : Bool)).map
        fun e => e.2.quarter.toNat).eraseDups), a ∈ (List.range 4).erase s.gang.quarter.toNat := by
    intro a ha
    rw [List.mem_eraseDups, List.mem_map] at ha
    obtain ⟨e, he, rfl⟩ := ha
    have hne : s.gang.quarter ≠ e.2.quarter := by
      have h := (List.mem_filter.1 he).2
      simp_all
    refine (List.mem_erase_of_ne fun h => hne (BitVec.eq_of_toNat_eq h.symm)).2 (List.mem_range.2 e.2.quarter.isLt)
  have hlen := (List.subperm_of_subset (List.nodup_eraseDups _) hsub).length_le
  rw [List.length_erase_of_mem (List.mem_range.2 s.gang.quarter.isLt)] at hlen
  exact hlen

/-- What a counter holds after the word that wrote it (R373). -/
theorem pmcnt_advance {s : State} (h : Header) (hc : Table.has s.ctx.carrels s.gang.carrel = true)
    (hg : s.gang.carrel ∉ s.gated) {k : Nat} (hk : k < 4) :
    let c := s.carrelOf s.gang.carrel
    let e := (c.pmsel.getD k 0).toNat
    (e ≠ 3 → ((s.advance h).carrelOf s.gang.carrel).pmcnt.getD k 0
        = if e = 1 ∨ (e = 2 ∧ s.gang.path.acted = 0) then c.pmcnt.getD k 0 + 1 else c.pmcnt.getD k 0)
      ∧ (e = 3 → ∃ n ≤ 3, ((s.advance h).carrelOf s.gang.carrel).pmcnt.getD k 0 = c.pmcnt.getD k 0 + BitVec.ofNat 64 n) := by
  intro c e
  obtain ⟨w, hw, hgang, hwgated⟩ : ∃ w : State, s.advance h = w.tick
      ∧ (w.gang.carrel = s.gang.carrel ∧ w.ctx.carrels = s.issuedOne.ctx.carrels) ∧ w.gated = s.gated := by
    refine ⟨_, rfl, ⟨?_, rfl⟩, ?_⟩
    · have hoff := (s.offIssue_advance h)
      exact (congrArg Gang.carrel hoff :)
    · show s.issuedOne.gated = s.gated
      rw [State.issuedOne]
      split
      · rw [State.count]; split <;> rfl
      · rfl
  obtain ⟨hcarrel, hcarrels⟩ := hgang
  have hhas : Table.has w.ctx.carrels s.gang.carrel = true := by
    rw [hcarrels]
    exact State.has_issuedOne hc
  have hat : (s.advance h).carrelOf s.gang.carrel
      = ((if s.gang.path.acted = 0 then c.count 2 1 else c).count 1 1).count 3 (w.lostSlots true s.gang.carrel) := by
    rw [hw, State.carrelOf_tick hhas (by rw [hwgated]; exact hg), State.carrelOf_of_carrels hcarrels,
      State.carrelOf_issuedOne hc]
  have hlost : w.lostSlots true s.gang.carrel ≤ 3 := hcarrel ▸ w.lostSlots_le
  have hsel : ∀ b : Prop, [Decidable b] → (if b then c.count 2 1 else c).pmsel = c.pmsel := by
    intro b _
    split <;> rfl
  have hcnt : (if s.gang.path.acted = 0 then c.count 2 1 else c).pmcnt.getD k 0
      = if e = 2 ∧ s.gang.path.acted = 0 then c.pmcnt.getD k 0 + 1 else c.pmcnt.getD k 0 := by
    by_cases ha : s.gang.path.acted = 0
    · simp only [ha, if_true, and_true]
      exact Carrel.pmcnt_count c 2 1 hk
    · simp only [ha, if_false, and_false]
  rw [hat, Carrel.pmcnt_count _ 3 _ hk, Carrel.pmcnt_count _ 1 _ hk, Carrel.pmsel_count, hsel, hcnt]
  refine ⟨fun h3 => ?_, fun h3 => ⟨_, hlost, ?_⟩⟩
  · rw [if_neg h3]
    by_cases h1 : e = 1
    · rw [if_pos h1, if_neg (by omega), if_pos (.inl h1)]
      rfl
    · rw [if_neg h1]
      simp only [h1, false_or]
  · rw [if_pos h3, if_neg (show ¬ e = 1 by omega), if_neg (by omega)]

end Sys2Proof.Machine
end

section
namespace Sys2Proof.Machine
open Sys2Proof

/-! SYSR, SYSW and PMSEL (R372 to R374), PHINT (R376), BKPT and the Curator's steps (R155, R377). -/

/-- The read of a system register, on its way. -/
def State.sysrFlight (s : State) (x : RI) : Flight :=
  { dst := x.hdr.d, mask := 0, vals := [], sval := 0, req := .sysr s.gang.carrel (RI.sysNumber x) (s.clock + 8),
    replay := false, pc := s.pc, younger := s.gang.younger, cycle := s.cycleOf s.gang.carrel }

theorem execSysr_launches {x : RI} {s : State} {m : Mask}
    (hi : s.issues x.hdr .gang (x.mod == 0 && x.a == .absent && !x.fe && isS x.hdr.d && x.imm.extractLsb' 16 16 == 0
      && (s.sysValue s.gang.carrel (RI.sysNumber x)).isSome && !s.gang.isShadow) [(x.hdr.d, false)] (fun _ => []) m) :
    exec (.sysr x) s = .next ((s.modGang fun g => g.launch (s.sysrFlight x)).advance x.hdr) := issue_of_issues _ hi

theorem sysr_leaves (s : State) (x : RI) (hd : isS x.hdr.d = true) :
    let t := (s.modGang fun g => g.launch (s.sysrFlight x)).advance x.hdr
    wentOn s t (s.pc + 12) ∧ (∀ i, x.hdr.d = .s i → t.gang.sEmpty i = true)
      ∧ ∃ f, t.gang.flights.getLast? = some f ∧ f.dst = x.hdr.d
          ∧ f.req = .sysr s.gang.carrel (RI.sysNumber x) (s.clock + 8) := by
  intro t
  obtain ⟨i, hi⟩ := exists_s_of_isS hd
  have hlaunch := Gang.launch_s s.gang (f := s.sysrFlight x) hi
  have hoff := (s.modGang fun g => g.launch (s.sysrFlight x)).offIssue_advance x.hdr
  have hadvance : t.gang.se = (s.modGang fun g => g.launch (s.sysrFlight x)).gang.se := (congrArg Gang.se hoff :)
  have hse : t.gang.se = (s.gang.launch (s.sysrFlight x)).se := by rw [hadvance, State.modGang_gang]
  have hflights : t.gang.flights = s.gang.flights ++ [s.sysrFlight x] := by
    refine (flights_advance ..).trans ?_
    rw [State.modGang_gang, hlaunch]
  refine ⟨wentOn_advance x.hdr rfl rfl rfl rfl rfl (State.stand_modGang ?_ ?_), fun j hj => ?_, s.sysrFlight x, ?_, rfl, rfl⟩
  · rw [hlaunch]; rfl
  · rw [hlaunch]; rfl
  · cases hi.symm.trans hj
    rw [Gang.sEmpty, hse, hlaunch]
    exact Gang.sEmpty_setSEmpty s.gang i
  · rw [hflights]
    exact List.getLast?_concat

section
variable {x : RI} {s : State} {m : Mask} (hi : s.issues x.hdr .gang (syswOk s x) [] (syswSrcs x) m)
include hi

/-- A SYSW of a counter issues, and so does one of DBGCTL, whose writes are the Curator's. -/
theorem execSysw_eq (hn : (0x18 ≤ RI.sysNumber x ∧ RI.sysNumber x ≤ 0x1B) ∨ RI.sysNumber x = 0x20) : exec (.sysw x) s
    = if RI.sysNumber x = 0x20 then protect s m
      else if s.sysReading (RI.sysNumber x) then .next s.hold
      else .next ((s.modCarrelOf s.gang.carrel fun c =>
        { c with pmcnt := c.pmcnt.setIfInBounds (RI.sysNumber x - 0x18) (readGang s 0x1D 0 x.a) }).advance x.hdr) :=
  issue_of_issues _ (State.issuesActs.mono hi fun h => by
    rw [h]
    rcases hn with ⟨h1, h2⟩ | h <;> simp_all)

theorem execPmselWrite_eq (hn : 0x10 ≤ RI.sysNumber x ∧ RI.sysNumber x ≤ 0x13) : exec (.pmselWrite x) s
    = if s.sysReading (RI.sysNumber x) then .next s.hold
      else .next ((s.modCarrelOf s.gang.carrel fun c =>
        { c with pmsel := c.pmsel.setIfInBounds (RI.sysNumber x - 0x10) (pmselStored (readGang s 0x1D 0 x.a)) }).advance
          x.hdr) :=
  issue_of_issues _ (State.issuesActs.mono hi fun h => by
    obtain ⟨h1, h2⟩ := hn
    simp_all)

end

theorem vectorGetD_setIfInBounds {α : Type} {n k : Nat} (v : Vector α n) (hk : k < n) (y d : α) :
    (v.setIfInBounds k y).getD k d = y := by
  rw [vectorGetD_lt _ hk, Vector.getElem_setIfInBounds, if_pos rfl]

theorem toNat_pmselStored (v : DWord) :
    (pmselStored v).toNat = if v.toNat % 256 ≤ 9 then v.toNat % 256 else 0 := by
  have hlow : (v.extractLsb' 0 8).toNat = v.toNat % 256 := by simp
  rw [pmselStored, hlow]
  split
  · rw [BitVec.toNat_setWidth, hlow]
    omega
  · rfl

/-- Writing a counter: the word that writes it is counted too, as PMSEL says (R373). -/
theorem sysw_counts {s : State} (h : Header) (hg : s.gang.carrel ∉ s.gated) {k : Nat} (hk : k < 4) (v : DWord) :
    let t := (s.modCarrelOf s.gang.carrel fun c => { c with pmcnt := c.pmcnt.setIfInBounds k v }).advance h
    let e := ((s.carrelOf s.gang.carrel).pmsel.getD k 0).toNat
    (e ≠ 3 → (t.carrelOf s.gang.carrel).pmcnt.getD k 0
        = if e = 1 ∨ (e = 2 ∧ s.gang.path.acted = 0) then v + 1 else v)
      ∧ (e = 3 → ∃ n ≤ 3, (t.carrelOf s.gang.carrel).pmcnt.getD k 0 = v + BitVec.ofNat 64 n) := by
  have hcount := pmcnt_advance (s := s.modCarrelOf s.gang.carrel fun c => { c with pmcnt := c.pmcnt.setIfInBounds k v }) h
    (State.has_modCarrelOf ..) hg hk
  have hat : (s.modCarrelOf s.gang.carrel fun c => { c with pmcnt := c.pmcnt.setIfInBounds k v }).carrelOf s.gang.carrel
      = { s.carrelOf s.gang.carrel with pmcnt := (s.carrelOf s.gang.carrel).pmcnt.setIfInBounds k v } :=
    State.carrelOf_setCarrelOf_self ..
  have hgang : (s.modCarrelOf s.gang.carrel fun c => { c with pmcnt := c.pmcnt.setIfInBounds k v }).gang = s.gang := rfl
  rw [hgang, hat] at hcount
  simp only [vectorGetD_setIfInBounds _ hk] at hcount
  exact hcount

theorem pmsel_selects (s : State) (h : Header) {k : Nat} (hk : k < 4) (v : DWord) :
    (((s.modCarrelOf s.gang.carrel fun c => { c with pmsel := c.pmsel.setIfInBounds k v }).advance h).carrelOf
      s.gang.carrel).pmsel.getD k 0 = v := by
  rw [carrelOf_modCarrelOf_advance (fun c => c.pmsel.getD k 0) (fun _ => rfl)]
  exact vectorGetD_setIfInBounds _ hk v 0

/-! PHINT. -/

section
variable {x : BFmt} {s : State} {m : Mask} (hi : s.issues x.hdr .gang (bFieldsOk x && x.hdr.d == .absent) [] (fun _ => []) m)
include hi

theorem execPhint_off (hg : s.ctx.grace = none) : exec (.phint x) s = .next (s.advance x.hdr) := by
  refine (issue_of_issues _ hi).trans ?_
  simp only [hg, Option.isNone_none, Bool.true_or, if_true]

section
variable (hg : s.ctx.grace ≠ none) (hshadow : s.gang.isShadow = false) (hflat : s.flat) (hpart : s.gang.partner = none)
  (h64 : x.off.toNat % 64 = 0) (hlen : x.off.toNat + 64 ≤ (s.consts s.gang.code).length)
  (hrsv : BitVec.ofNat 256 (field (((s.consts s.gang.code).drop x.off.toNat).take 64) 0 32) &&& bitmapRsv = 0)
  (hpad : field (((s.consts s.gang.code).drop x.off.toNat).take 64) 40 24 = 0)
include hg hshadow hflat hpart h64 hlen hrsv hpad

/-- Within a grace window a good record is used: the gang waits for its registers or is saved (R376). -/
theorem execPhint_window : exec (.phint x) s
    = if s.gang.namedEmpty (BitVec.ofNat 256 (field (((s.consts s.gang.code).drop x.off.toNat).take 64) 0 32)) then
        .next s.holdEmpty
      else .next (s.issuedOne.saveAtHint
        (BitVec.ofNat 256 (field (((s.consts s.gang.code).drop x.off.toNat).take 64) 0 32))
        (BitVec.ofNat 64 (field (((s.consts s.gang.code).drop x.off.toNat).take 64) 32 8))).tick := by
  have hsome : s.ctx.grace.isNone = false := by simpa [Option.isSome_iff_ne_none] using hg
  have hsplit : s.gang.split.isSome = false := by rw [hflat.2]; rfl
  have hpartner : s.gang.partner.isSome = false := by rw [hpart]; rfl
  refine (issue_of_issues _ hi).trans ?_
  simp only [hsome, hshadow, hrsv, hpad, h64, hsplit, hpartner, if_neg (Nat.not_lt.2 hlen)]
  simp

end

end

/-! BKPT and the Curator's control. -/

/-- Whether the gang has stopped, and its report. -/
def Gang.halted (g : Gang) : Bool × Option DWord := (g.stopped, g.report)

theorem Gang.halted_setPath (g : Gang) (p : Path) : (g.setPath p).halted = g.halted := by
  unfold Gang.setPath; split <;> rfl

theorem Gang.halted_rejoin (g : Gang) : g.rejoin.halted = g.halted := by
  unfold Gang.rejoin
  extract_lets away
  split
  · rfl
  · split <;> rfl

theorem Gang.halted_settled (g : Gang) (gone : Bool) : (g.settled gone).halted = g.halted :=
  Gang.settle_keeps (P := fun k => k.halted = g.halted) (fun _ _ h => (Gang.halted_setPath ..).trans h)
    (fun _ _ h => (Gang.halted_rejoin _).trans h) _ _ rfl

/-- Out of single-step mode a word stops no gang (R155). -/
theorem State.halted_advance {s : State} (h : Header) (hstep : s.gang.stepMode = false) :
    (s.advance h).gang.halted = s.gang.halted := by
  have hmode : (s.gang.modPath fun p => p.leaves (s.pc + 12)).stepMode = false := by
    unfold Gang.modPath Gang.setPath
    split <;> exact hstep
  have hhint : ((s.gang.modPath fun p => p.leaves (s.pc + 12)).hint h false s.clock).halted
      = (s.gang.modPath fun p => p.leaves (s.pc + 12)).halted := by
    unfold Gang.hint Gang.stepStop
    rw [hmode]
    rfl
  rw [State.advance, State.leave_gang, Gang.halted_settled, hhint]
  exact Gang.halted_setPath ..

section
variable {x : RRR} {s : State} {m : Mask} (hi : s.issues x.hdr .gang (rrrPlain x false false
  && (x.a == .absent || isSImm x.a) && x.hdr.d == .absent) [] (srcA x) m)
include hi

theorem execBkpt_off (hd : s.ctx.dbgctl.getLsbD 0 = false) : exec (.bkpt x) s = .next (s.advance x.hdr) := by
  refine (issue_of_issues _ hi).trans ?_
  rw [hd]
  rfl

theorem execBkpt_on (hd : s.ctx.dbgctl.getLsbD 0 = true) : exec (.bkpt x) s
    = .next ((s.advance x.hdr).modGang fun g => { g with
        stopped := true, report := some (if x.a == .absent then 0 else readGang s 0x1D 0 x.a) }) := by
  refine (issue_of_issues _ hi).trans ?_
  rw [hd]
  rfl

end

theorem wentOn_stopped (s : State) (h : Header) (report : Option DWord) :
    wentOn s ((s.advance h).modGang fun g => { g with stopped := true, report := report }) (s.pc + 12) := by
  obtain ⟨hclock, hcur, hhalt, hfaults, hmem, hpc⟩ :=
    wentOn_advance (s := s) (u := s) h rfl rfl rfl rfl rfl rfl
  refine ⟨hclock, hcur, hhalt, hfaults, hmem, fun hs hp => Eq.trans ?_ (hpc hs hp)⟩
  exact State.pc_of_stand (State.stand_modGang rfl rfl)

end Sys2Proof.Machine

open Sys2Proof Sys2Proof.Machine

/-- Settles O44: SYSR by the flight that it launches, SYSW by the counters as the word issues (`pmcnt_advance`), PHINT by
the record that it reads, BKPT and the Curator's steps by what stops a gang (`State.halted_advance`). -/
theorem systemInstructions : Obligations.SystemInstructions := by
  unfold Obligations.SystemInstructions
  refine ⟨?sysr, ?sysw, ?phint, ?bkpt, ?curator⟩
  case sysr =>
    intro x s m num hi
    have hd : isS x.hdr.d = true := by have hl := State.issues_legal hi; simp_all
    exact ⟨_, execSysr_launches hi, sysr_leaves s x hd⟩
  case sysw =>
    intro x s m num c v hi
    refine ⟨fun k hk hn hr hg => ?_, fun hn => ?_, fun k hk hr => ⟨fun hn => ?_, fun hn => ?_⟩, fun k hk hn hr => ?_⟩
    · have hsub : RI.sysNumber x - 0x18 = k := by omega
      refine ⟨_, (execSysw_eq hi (by omega)).trans ?_, wentOn_modCarrelOf s x.hdr _, sysw_counts x.hdr hg hk v⟩
      rw [if_neg (by omega), if_neg (by rw [hr]; exact Bool.false_ne_true), hsub]
    · obtain ⟨t, ht, hfault⟩ := raiseFault_faulted s Code.protection m m 0
      exact ⟨t, (execSysw_eq hi (.inr hn)).trans ((if_pos hn).trans ht), hfault⟩
    · rw [execSysw_eq hi (by omega), if_neg (by omega), if_pos hr]
    · rw [execPmselWrite_eq hi (by omega), if_pos hr]
    · have hsub : RI.sysNumber x - 0x10 = k := by omega
      refine ⟨_, (execPmselWrite_eq hi (by omega)).trans (if_neg (by rw [hr]; exact Bool.false_ne_true)),
        wentOn_modCarrelOf s x.hdr _, ?_⟩
      rw [hsub, pmsel_selects s x.hdr hk, toNat_pmselStored]
  case phint =>
    intro x s m hi
    refine ⟨fun hg => ⟨_, execPhint_off hi hg, wentOn_advance x.hdr rfl rfl rfl rfl rfl rfl⟩, ?_⟩
    intro o r bm hg hshadow hflat hpart h64 hlen hrsv hpad
    have hexec := execPhint_window hi hg hshadow hflat hpart h64 hlen hrsv hpad
    exact ⟨fun he => hexec.trans (if_pos he), fun he => hexec.trans (if_neg (by rw [he]; exact Bool.false_ne_true))⟩
  case bkpt =>
    intro x s m hi
    refine ⟨fun hd hstep => ⟨_, execBkpt_off hi hd, wentOn_advance x.hdr rfl rfl rfl rfl rfl rfl, ?_, ?_⟩,
      fun hd => ⟨_, execBkpt_on hi hd, wentOn_stopped .., ?_, ?_⟩⟩
    · exact congrArg Prod.snd (State.halted_advance x.hdr hstep)
    · exact congrArg Prod.fst (State.halted_advance x.hdr hstep)
    · rw [State.modGang_gang]
    · rw [State.modGang_gang]
      exact congrArg some (if_congr beq_iff_eq rfl rfl)
  case curator =>
    intro s n g hg hhalt
    refine ⟨fun hs => ?_, fun hr => ⟨s.chosen.setGangOf n { g with
      stopped := false, stepMode := true, report := none, focus := BitVec.ofNat 2 (s.choice % 3) }, ?_, rfl, ?_,
      fun k hk => ?_⟩⟩
    · show execGangResume n s = _
      simp only [execGangResume, hg, hs, hhalt]
      rfl
    · show execSingleStep n s = _
      simp only [execSingleStep, hg, hr, hhalt]
      rfl
    · rw [State.gangOf_setGangOf, if_pos rfl]
    · rw [State.gangOf_setGangOf, if_neg hk]
      rfl

end

section
namespace Sys2Proof.Machine
open Sys2Proof

/-! The mailbox (R398): contexts. -/

theorem State.pageOf_answer (s : State) (vi : Nat) (status : Byte) : ((s.answer vi status).pageOf vi).status = status := by
  rw [State.answer, State.setPageOf, State.pageOf, Table.look_put, if_pos rfl]

/-- A refusal changes the status byte alone. -/
theorem refused_of_answer {s : State} {vi : Nat} {status : Byte} {i : Instr} (h : exec i s = .next (s.answer vi status)) :
    ∃ t, exec i s = .next t ∧ ended s t vi status := ⟨_, h, rfl⟩

/-- Mapping pages writes at home alone. -/
theorem State.bare_mapIn {fuel level table va leaf : Nat} {ts rest : List Nat} {s t : State}
    (h : s.mapIn fuel level table va leaf ts = some (t, rest)) : t.bare = s.bare := by
  induction fuel generalizing level table ts s with
  | zero =>
    cases h
    exact State.bare_homeWrite ..
  | succ k ih =>
    rw [State.mapIn] at h
    split at h
    · split at h
      · cases h
      · exact ih h
    · extract_lets size at h
      clear_value size
      split at h
      · cases h
      · split at h
        · cases h
        · exact (ih h).trans ((State.bare_homeWrite ..).trans (State.bare_homeWrite ..))

theorem State.bare_mapPages {root : Nat} {ps : List PageMap} {ts rest : List Nat} {s t : State}
    (h : s.mapPages root ps ts = some (t, rest)) : t.bare = s.bare := by
  induction ps generalizing ts s with
  | nil => cases h; rfl
  | cons p ps ih =>
    rw [State.mapPages] at h
    split at h
    · next u us hu =>
      split at hu
      · cases hu
      · exact (ih h).trans (State.bare_mapIn hu)
    · cases h

theorem State.bare_writeQueues (qs : List QueuePlace) (s : State) :
    (qs.foldl (fun (s : State) (q : QueuePlace) => s.writeQueue q) s).bare = s.bare :=
  foldl_keeps State.bare (fun (s : State) (q : QueuePlace) => s.writeQueue q) (fun _ _ => State.bare_deskWrite ..) qs s

theorem State.saved_of_bare {s t : State} (h : t.bare = s.bare) : t.saved = s.saved := (congrArg State.saved h :)

/-- The numbers in use (R398). -/
def State.numbersUsed (s : State) : List Nat := ((if s.ctx.made then [s.ctx] else []) ++ s.saved).map (·.number)

/-- The number of a new context, if any is free. -/
def State.freeNumber (s : State) : Option Nat := (List.range 1024).find? fun n => !s.numbersUsed.contains n

/-- The new context in the partition, its queues' headers and its logs' area written. -/
def State.withContext (s : State) (vi n root : Nat) (x : Layout) (window : Nat) : State :=
  (x.queues.foldl (fun (s : State) (q : QueuePlace) => s.writeQueue q) { s with ctx := (newContext vi n root x).slice window }).homeWrite
    x.logBase.toNat (List.replicate 4096 0)

/-- A new context as its layout says. -/
theorem State.withContext_ctx (s : State) (vi n root : Nat) (x : Layout) (window : Nat) :
    let c := (s.withContext vi n root x window).ctx
    c.made = true ∧ c.number = n ∧ c.vi = vi ∧ c.root = root ∧ c.dbgctl = (if x.debug then 1 else 0)
      ∧ c.shelves = [(0, shelfZero x.shelfRing)] := by
  intro c
  have hbare : (s.withContext vi n root x window).bare
      = ({ s with ctx := (newContext vi n root x).slice window } : State).bare :=
    (State.bare_homeWrite ..).trans (State.bare_writeQueues ..)
  obtain ⟨cstat, hslice⟩ := (newContext vi n root x).slice_eq window
  rw [hslice] at hbare
  exact ⟨(congrArg (fun u : State => u.ctx.made) hbare :), (congrArg (fun u : State => u.ctx.number) hbare :),
    (congrArg (fun u : State => u.ctx.vi) hbare :), (congrArg (fun u : State => u.ctx.root) hbare :),
    (congrArg (fun u : State => u.ctx.dbgctl) hbare :), (congrArg (fun u : State => u.ctx.shelves) hbare :)⟩

theorem State.withContext_saved (s : State) (vi n root : Nat) (x : Layout) (window : Nat) :
    (s.withContext vi n root x window).saved = s.saved :=
  State.saved_of_bare (t := s.withContext vi n root x window)
    (s := { s with ctx := (newContext vi n root x).slice window })
    ((State.bare_homeWrite ..).trans (State.bare_writeQueues ..))

section
variable {s : State} {vi : Nat} {x : Layout} (ha : s.asked vi 1 = true)
include ha

theorem execCreateContext_refused (h : s.freeNumber = none ∨ s.argument vi % 4096 ≠ 0) :
    exec (.createContext vi x) s = .next (s.answer vi 2) := by
  have hexec : exec (.createContext vi x) s = execCreateContext vi x s := rfl
  rw [hexec, execCreateContext, if_neg (by rw [ha]; decide)]
  rw [State.freeNumber, State.numbersUsed] at h
  extract_lets root used
  split
  · rfl
  · next n hn => exact if_pos (h.resolve_left (by rw [hn]; exact Option.some_ne_none n))

/-- A context is created in an empty partition, or saved where a context holds it (R398). -/
theorem execCreateContext_made {s1 : State} {n : Nat} {rest : List Nat} (hn : s.freeNumber = some n)
    (hroot : s.argument vi % 4096 = 0) (hm : s.mapPages (s.argument vi) x.maps x.tables = some (s1, rest)) :
    exec (.createContext vi x) s
      = .next ((if s.ctx.made then
          { s1.withContext vi n (s.argument vi) x s.window with
            saved := (s1.withContext vi n (s.argument vi) x s.window).saved
              ++ [(s1.withContext vi n (s.argument vi) x s.window).ctx],
            ctx := s.ctx }
        else s1.withContext vi n (s.argument vi) x s.window).answer vi 0) := by
  have hexec : exec (.createContext vi x) s = execCreateContext vi x s := rfl
  rw [hexec, execCreateContext, if_neg (by rw [ha]; decide)]
  rw [State.freeNumber, State.numbersUsed] at hn
  simp only [hn, hroot, hm]
  rfl

end

/-- What CREATE_CONTEXT leaves (R41, R398). -/
theorem createContext_spec {s s1 : State} {vi n : Nat} {x : Layout} {rest : List Nat} (ha : s.asked vi 1 = true)
    (hn : s.freeNumber = some n) (hroot : s.argument vi % 4096 = 0)
    (hm : s.mapPages (s.argument vi) x.maps x.tables = some (s1, rest)) :
    ∃ t, exec (.createContext vi x) s = .next t ∧ (t.pageOf vi).status = 0
      ∧ (s.ctx.made = false → t.ctx.made = true ∧ t.ctx.number = n ∧ t.ctx.vi = vi
        ∧ t.ctx.root = s.argument vi ∧ t.ctx.dbgctl = (if x.debug then 1 else 0) ∧ (t.shelfOf 0).valid = true
        ∧ (t.shelfOf 0).pinned = true)
      ∧ (s.ctx.made = true → t.ctx = s.ctx ∧ ∃ c, t.saved = s.saved ++ [c] ∧ c.made = true ∧ c.number = n ∧ c.vi = vi
        ∧ c.root = s.argument vi ∧ c.dbgctl = (if x.debug then 1 else 0)) := by
  obtain ⟨hmade, hnumber, hvi, hr, hdbg, hshelves⟩ := s1.withContext_ctx vi n (s.argument vi) x s.window
  refine ⟨_, execCreateContext_made ha hn hroot hm, State.pageOf_answer .., fun hs => ?_, fun hs => ?_⟩
  · rw [if_neg (by rw [hs]; exact Bool.false_ne_true)]
    have hshelf : (s1.withContext vi n (s.argument vi) x s.window).shelfOf 0 = shelfZero x.shelfRing := by
      rw [State.shelfOf, hshelves]
      rfl
    exact ⟨hmade, hnumber, hvi, hr, hdbg, (congrArg Shelf.valid hshelf :), (congrArg Shelf.pinned hshelf :)⟩
  · rw [if_pos hs]
    refine ⟨rfl, _, congrArg (· ++ [_]) ?_, hmade, hnumber, hvi, hr, hdbg⟩
    rw [State.withContext_saved, State.saved_of_bare (State.bare_mapPages hm)]

/-! DESTROY_CONTEXT. -/

theorem State.number_of_contextOf {s : State} {vi n : Nat} {x : Context} (h : s.contextOf vi n = some x) : x.number = n := by
  simpa using List.find?_some h

section
variable {s : State} {vi : Nat} (ha : s.asked vi 2 = true) (hhalt : s.halt = .running)
include ha hhalt

theorem execDestroyContext_refused (hx : s.contextOf vi (s.argument vi) = none) :
    exec (.destroyContext vi) s = .next (s.answer vi 2) := by
  have hexec : exec (.destroyContext vi) s = execDestroyContext vi s := rfl
  rw [hexec, execDestroyContext, if_neg (by rw [ha, hhalt]; decide), hx]

theorem execDestroyContext_known {x : Context} (hx : s.contextOf vi (s.argument vi) = some x) :
    exec (.destroyContext vi) s
      = .next ((if s.ctx.made && s.ctx.number = s.argument vi then { s.emptyCaches with ctx := Context.none }
        else { s with saved := s.saved.filter fun y => y.number != s.argument vi }).answer vi 0) := by
  have hexec : exec (.destroyContext vi) s = execDestroyContext vi s := rfl
  rw [hexec, execDestroyContext, if_neg (by rw [ha, hhalt]; decide), hx, ← State.number_of_contextOf hx]

theorem destroyContext_running {x : Context} (hx : s.contextOf vi (s.argument vi) = some x) (hm : s.ctx.made = true)
    (hn : s.ctx.number = s.argument vi) :
    ∃ t, exec (.destroyContext vi) s = .next t ∧ t.ctx = Context.none ∧ (t.pageOf vi).status = 0 := by
  refine ⟨_, execDestroyContext_known ha hhalt hx, ?_, State.pageOf_answer ..⟩
  rw [if_pos (by simp [hm, hn])]
  rfl

theorem destroyContext_saved {x : Context} (hx : s.contextOf vi (s.argument vi) = some x)
    (hm : s.ctx.made = false ∨ s.ctx.number ≠ s.argument vi) :
    ∃ t, exec (.destroyContext vi) s = .next t ∧ t.ctx = s.ctx ∧ (∀ y ∈ t.saved, y.number ≠ s.argument vi)
      ∧ (t.pageOf vi).status = 0 := by
  refine ⟨_, execDestroyContext_known ha hhalt hx, ?_⟩
  rw [if_neg (by rcases hm with h | h <;> simp [h])]
  refine ⟨rfl, fun y hy => ?_, State.pageOf_answer ..⟩
  have h := (List.mem_filter.1 hy).2
  simpa using h

end

end Sys2Proof.Machine
end

section
namespace Sys2Proof.Machine
open Sys2Proof

/-! The mailbox (R396 to R398): queues, shelf entries, quotas, migration. -/

/-- The interface's first context is the partition's where it owns that. -/
theorem State.contextsOf_made {s : State} {vi : Nat} {x : Context} {rest : List Context} (hm : s.ctx.made = true)
    (hv : s.ctx.vi = vi) (h : s.contextsOf vi = x :: rest) : x = s.ctx := by
  rw [State.contextsOf, if_pos hm, List.singleton_append, List.filter_cons_of_pos (by simpa using hv)] at h
  exact (List.cons.inj h).1.symm

theorem State.putContext_own {s : State} {x : Context} (hm : s.ctx.made = true) (hn : s.ctx.number = x.number) :
    s.putContext x = { s with ctx := x } := by
  rw [State.putContext, if_pos (by simp [hm, hn])]

/-- Putting a saved context back replaces every one of its number. -/
theorem State.putContext_saved {s : State} {x y : Context} (hm : s.ctx.made = false) (hy : y ∈ (s.putContext x).saved)
    (hn : y.number = x.number) : y = x := by
  rw [State.putContext, if_neg (by simp [hm])] at hy
  obtain ⟨z, -, hz⟩ := List.mem_map.1 hy
  split at hz
  · exact hz.symm
  · next hne => exact absurd (hz ▸ hn) hne

theorem State.mem_putContext (s : State) (x : Context) : (s.putContext x).mem = s.mem := by
  unfold State.putContext
  split <;> rfl

/-! CREATE_LAUNCH_QUEUE. -/

/-- The context with the launch queue. -/
def Context.withQueue (x : Context) (a : Nat) : Context :=
  { x with queues := x.queues ++ (if x.queues.contains a then [] else [a]) }

theorem Context.mem_withQueue (x : Context) (a : Nat) : a ∈ (x.withQueue a).queues := by
  unfold Context.withQueue
  split
  · next h => exact List.mem_append_left _ (by simpa using h)
  · exact List.mem_append_right _ (List.mem_singleton.2 rfl)

section
variable {s : State} {vi : Nat} (ha : s.asked vi 3 = true)
include ha

theorem execCreateLaunchQueue_refused (h : s.contextsOf vi = [] ∨ s.argument vi % 64 ≠ 0) :
    exec (.createLaunchQueue vi) s = .next (s.answer vi 2) := by
  have hexec : exec (.createLaunchQueue vi) s = execCreateLaunchQueue vi s := rfl
  rw [hexec, execCreateLaunchQueue, if_neg (by rw [ha]; decide)]
  cases hc : s.contextsOf vi with
  | nil => rfl
  | cons x rest => exact if_pos (h.resolve_left (by rw [hc]; exact List.cons_ne_nil x rest))

theorem execCreateLaunchQueue_known {x : Context} {rest : List Context} (hc : s.contextsOf vi = x :: rest)
    (h64 : s.argument vi % 64 = 0) :
    exec (.createLaunchQueue vi) s = .next ((s.putContext (x.withQueue (s.argument vi))).answer vi 0) := by
  have hexec : exec (.createLaunchQueue vi) s = execCreateLaunchQueue vi s := rfl
  rw [hexec, execCreateLaunchQueue, if_neg (by rw [ha]; decide), hc]
  exact if_neg (not_not_intro h64)

theorem createLaunchQueue_spec {x : Context} {rest : List Context} (hc : s.contextsOf vi = x :: rest)
    (h64 : s.argument vi % 64 = 0) :
    ∃ t, exec (.createLaunchQueue vi) s = .next t ∧ (t.pageOf vi).status = 0 ∧ t.mem = s.mem
      ∧ (s.ctx.made = true → s.ctx.vi = vi → s.argument vi ∈ t.ctx.queues)
      ∧ (s.ctx.made = false → ∀ y ∈ t.saved, y.number = x.number → s.argument vi ∈ y.queues) := by
  refine ⟨_, execCreateLaunchQueue_known ha hc h64, State.pageOf_answer .., State.mem_putContext .., fun hm hv => ?_,
    fun hm y hy hn => ?_⟩
  · have hx := State.contextsOf_made hm hv hc
    have hown := State.putContext_own (s := s) (x := x.withQueue (s.argument vi)) hm (by rw [hx]; rfl)
    rw [hown]
    exact Context.mem_withQueue ..
  · rw [State.putContext_saved (s := s) (x := x.withQueue (s.argument vi)) hm hy hn]
    exact Context.mem_withQueue ..

end

/-! CREATE_SHELF_ENTRY. -/

/-- The context with an entry in its shelf table. -/
def Context.withShelf (x : Context) (k : Nat) (z : Shelf) : Context := { x with shelves := Table.put x.shelves k z }

/-- The entry that the command reads. -/
def State.shelfRead (s : State) (x : Context) (a : Nat) : Shelf :=
  shelfOfBytes (s.homeRead a 32) (Table.look x.shelves (a / 32 % 4096) Shelf.none)

section
variable {s : State} {vi : Nat} (ha : s.asked vi 4 = true)
include ha

theorem execCreateShelfEntry_unknown (h : s.contextsOf vi = [] ∨ s.argument vi % 32 ≠ 0) :
    exec (.createShelfEntry vi) s = .next (s.answer vi 2) := by
  have hexec : exec (.createShelfEntry vi) s = execCreateShelfEntry vi s := rfl
  rw [hexec, execCreateShelfEntry, if_neg (by rw [ha]; decide)]
  cases hc : s.contextsOf vi with
  | nil => rfl
  | cons x rest =>
    have h32 : s.argument vi % 32 ≠ 0 := h.resolve_left (by rw [hc]; exact List.cons_ne_nil x rest)
    exact if_pos (by simp [h32])

section
variable {x : Context} {rest : List Context} (hc : s.contextsOf vi = x :: rest) (h32 : s.argument vi % 32 = 0)
include hc h32

theorem execCreateShelfEntry_plain (hn : s.argument vi / 32 % 4096 ≠ 0) :
    exec (.createShelfEntry vi) s
      = .next ((s.putContext (x.withShelf (s.argument vi / 32 % 4096) (s.shelfRead x (s.argument vi)))).answer vi 0) := by
  have hexec : exec (.createShelfEntry vi) s = execCreateShelfEntry vi s := rfl
  rw [hexec, execCreateShelfEntry, if_neg (by rw [ha]; decide), hc]
  refine (if_neg (by simp [h32, hn])).trans ?_
  simp only [if_neg hn]
  rfl

theorem execCreateShelfEntry_first (hn : s.argument vi / 32 % 4096 = 0) :
    exec (.createShelfEntry vi) s
      = .next (if x.launches = [] ∧ (s.shelfRead x (s.argument vi)).ok = true then
          (s.putContext (x.withShelf 0 { s.shelfRead x (s.argument vi) with pinned := true })).answer vi 0
        else s.answer vi 2) := by
  have hexec : exec (.createShelfEntry vi) s = execCreateShelfEntry vi s := rfl
  rw [hexec, execCreateShelfEntry, if_neg (by rw [ha]; decide), hc]
  have hread : shelfOfBytes (s.homeRead (s.argument vi) 32) (Table.look x.shelves 0 Shelf.none)
      = s.shelfRead x (s.argument vi) := by rw [State.shelfRead, hn]
  simp only [h32, hn, hread]
  by_cases h : x.launches = [] ∧ (s.shelfRead x (s.argument vi)).ok = true
  · rw [if_pos h]
    exact if_neg (by simp [h])
  · rw [if_neg h]
    refine if_pos ?_
    simpa [← List.isEmpty_iff, -List.isEmpty_iff, Decidable.imp_iff_not_or] using h

end

end

/-- CREATE_SHELF_ENTRY in the running context (R41, R398). -/
theorem createShelfEntry_own {s : State} {vi : Nat} {x : Context} {rest : List Context} (ha : s.asked vi 4 = true)
    (hc : s.contextsOf vi = x :: rest) (h32 : s.argument vi % 32 = 0) (hm : s.ctx.made = true) (hv : s.ctx.vi = vi) :
    let n := s.argument vi / 32 % 4096
    let y := shelfOfBytes (s.homeRead (s.argument vi) 32) (s.shelfOf n)
    (n ≠ 0 → ∃ t, exec (.createShelfEntry vi) s = .next t ∧ (t.pageOf vi).status = 0 ∧ t.shelfOf n = y)
    ∧ (n = 0 → s.ctx.launches = [] → y.ok = true →
      ∃ t, exec (.createShelfEntry vi) s = .next t ∧ (t.pageOf vi).status = 0 ∧ t.shelfOf 0 = { y with pinned := true })
    ∧ (n = 0 → s.ctx.launches ≠ [] ∨ y.ok = false →
      ∃ t, exec (.createShelfEntry vi) s = .next t ∧ ended s t vi 2) := by
  intro n y
  obtain rfl := State.contextsOf_made hm hv hc
  have hput : ∀ k z, ((s.putContext (s.ctx.withShelf k z)).answer vi 0).shelfOf k = z := by
    intro k z
    have hown := State.putContext_own (s := s) (x := s.ctx.withShelf k z) hm rfl
    rw [hown]
    exact (Table.look_put ..).trans (if_pos rfl)
  refine ⟨fun hn => ⟨_, execCreateShelfEntry_plain ha hc h32 hn, State.pageOf_answer .., hput _ _⟩,
    fun hn hl hy => ?_, fun hn h => ?_⟩
  · refine ⟨_, (execCreateShelfEntry_first ha hc h32 hn).trans (congrArg Host.Outcome.next (if_pos ⟨hl, hy⟩)),
      State.pageOf_answer .., hput _ _⟩
  · refine refused_of_answer ((execCreateShelfEntry_first ha hc h32 hn).trans (congrArg Host.Outcome.next (if_neg ?_)))
    rintro ⟨hl, hy⟩
    rcases h with h | h
    · exact h hl
    · exact Bool.false_ne_true (h.symm.trans hy)

/-- CREATE_SHELF_ENTRY in a saved context. -/
theorem createShelfEntry_saved {s : State} {vi : Nat} {x : Context} {rest : List Context} (ha : s.asked vi 4 = true)
    (hc : s.contextsOf vi = x :: rest) (h32 : s.argument vi % 32 = 0) (hm : s.ctx.made = false)
    (hn : s.argument vi / 32 % 4096 ≠ 0) :
    ∃ t, exec (.createShelfEntry vi) s = .next t ∧ (t.pageOf vi).status = 0
      ∧ ∀ y ∈ t.saved, y.number = x.number → Table.seek y.shelves (s.argument vi / 32 % 4096)
          = some (shelfOfBytes (s.homeRead (s.argument vi) 32)
              (Table.look x.shelves (s.argument vi / 32 % 4096) Shelf.none)) := by
  refine ⟨_, execCreateShelfEntry_plain ha hc h32 hn, State.pageOf_answer .., fun y hy hnum => ?_⟩
  rw [State.putContext_saved (s := s) (x := x.withShelf (s.argument vi / 32 % 4096) (s.shelfRead x (s.argument vi))) hm hy hnum]
  exact (Table.seek_put ..).trans (if_pos rfl)

/-! SET_QUOTA. -/

section
variable {s : State} {vi : Nat} (ha : s.asked vi 5 = true)
include ha

theorem execSetQuota_eq : exec (.setQuota vi) s
    = if s.accepts vi 7 = false then .next (s.answer vi 4)
      else if 49152 < ((Table.del s.quotas vi).map (·.2)).sum + s.argument vi then .next (s.answer vi 3)
      else .next ({ s with quotas := Table.put s.quotas vi (s.argument vi) }.answer vi 0) := by
  have hexec : exec (.setQuota vi) s = execSetQuota vi s := rfl
  rw [hexec, execSetQuota, if_neg (by rw [ha]; decide)]
  exact if_congr (by rw [Bool.not_eq_true']) rfl rfl

theorem setQuota_stored (h7 : s.accepts vi 7 = true)
    (hroom : ((Table.del s.quotas vi).map (·.2)).sum + s.argument vi ≤ 49152) :
    ∃ t, exec (.setQuota vi) s = .next t ∧ Table.look t.quotas vi 0 = s.argument vi ∧ (t.pageOf vi).status = 0 := by
  refine ⟨_, (execSetQuota_eq ha).trans ((if_neg (by rw [h7]; decide)).trans (if_neg (Nat.not_lt.2 hroom))), ?_,
    State.pageOf_answer ..⟩
  exact (Table.look_put ..).trans (if_pos rfl)

end

/-! Migration. -/

section
variable {s : State} {vi : Nat} (ha : s.asked vi 6 = true)
include ha

theorem execStartMigrationRound_without (h6 : s.accepts vi 6 = false) :
    exec (.startMigrationRound vi) s = .next (s.answer vi 4) := by
  have hexec : exec (.startMigrationRound vi) s = execStartMigrationRound vi s := rfl
  rw [hexec, execStartMigrationRound, if_neg (by rw [ha]; decide), if_pos (by rw [h6]; rfl)]

theorem execStartMigrationRound_unknown (h6 : s.accepts vi 6 = true) (hx : s.contextOf vi (s.argument vi) = none) :
    exec (.startMigrationRound vi) s = .next (s.answer vi 2) := by
  have hexec : exec (.startMigrationRound vi) s = execStartMigrationRound vi s := rfl
  rw [hexec, execStartMigrationRound, if_neg (by rw [ha]; decide), if_neg (by rw [h6]; decide), hx]

theorem execStartMigrationRound_known {x : Context} (h6 : s.accepts vi 6 = true)
    (hx : s.contextOf vi (s.argument vi) = some x) :
    exec (.startMigrationRound vi) s = .next ({ s with migr := some (x.number, []) }.answer vi 0) := by
  have hexec : exec (.startMigrationRound vi) s = execStartMigrationRound vi s := rfl
  rw [hexec, execStartMigrationRound, if_neg (by rw [ha]; decide), if_neg (by rw [h6]; decide), hx]

end

section
variable {s : State} {vi : Nat} (ha : s.asked vi 7 = true)
include ha

theorem execFinalRound_without (h6 : s.accepts vi 6 = false) : exec (.finalRound vi) s = .next (s.answer vi 4) := by
  have hexec : exec (.finalRound vi) s = execFinalRound vi s := rfl
  rw [hexec, execFinalRound, if_neg (by rw [ha]; decide), if_pos (by rw [h6]; rfl)]

theorem execFinalRound_unknown (h6 : s.accepts vi 6 = true) (hx : s.contextOf vi (s.argument vi) = none) :
    exec (.finalRound vi) s = .next (s.answer vi 2) := by
  have hexec : exec (.finalRound vi) s = execFinalRound vi s := rfl
  rw [hexec, execFinalRound, if_neg (by rw [ha]; decide), if_neg (by rw [h6]; decide), hx]

variable {x : Context} (h6 : s.accepts vi 6 = true) (hx : s.contextOf vi (s.argument vi) = some x)
include h6 hx

theorem execFinalRound_saved (hm : s.ctx.made = false ∨ s.ctx.number ≠ x.number) :
    exec (.finalRound vi) s = .next ({ s with resend := s.dirtyPages x.number }.answer vi 0) := by
  have hexec : exec (.finalRound vi) s = execFinalRound vi s := rfl
  rw [hexec, execFinalRound, if_neg (by rw [ha]; decide), if_neg (by rw [h6]; decide), hx]
  exact if_pos (by rcases hm with h | h <;> simp [h])

theorem execFinalRound_running (hm : s.ctx.made = true) (hn : s.ctx.number = x.number) (hg : s.ctx.grace = none)
    (hhalt : s.halt = .running) : exec (.finalRound vi) s = .next s.openWindow := by
  have hexec : exec (.finalRound vi) s = execFinalRound vi s := rfl
  rw [hexec, execFinalRound, if_neg (by rw [ha]; decide), if_neg (by rw [h6]; decide), hx]
  exact (if_neg (by simp [hm, hn])).trans (if_pos (by simp [hg, hhalt]))

end

theorem State.status_of_asked {s : State} {vi : Nat} {code : Byte} (ha : s.asked vi code = true) :
    (s.pageOf vi).status = 1 := by
  simp only [State.asked, Bool.and_eq_true, decide_eq_true_eq] at ha
  exact ha.1.2

/-! REPORT_COPY_QUEUE. -/

section
variable {s : State} {vi : Nat} (ha : s.asked vi 8 = true)
include ha

theorem execReportCopyQueue_unknown (hx : s.contextOf vi (s.argument vi % 1024) = none) :
    exec (.reportCopyQueue vi) s = .next (s.answer vi 2) := by
  have hexec : exec (.reportCopyQueue vi) s = execReportCopyQueue vi s := rfl
  rw [hexec, execReportCopyQueue, if_neg (by rw [ha]; decide)]
  simp only [hx]

variable {x : Context} (hx : s.contextOf vi (s.argument vi % 1024) = some x)
include hx

theorem execReportCopyQueue_noQueue (hq : Table.seek x.copyRings (s.argument vi / 1024 % 16) = none) :
    exec (.reportCopyQueue vi) s = .next (s.answer vi 2) := by
  have hexec : exec (.reportCopyQueue vi) s = execReportCopyQueue vi s := rfl
  rw [hexec, execReportCopyQueue, if_neg (by rw [ha]; decide)]
  simp only [hx, hq]

variable {q : DWord × DWord} (hq : Table.seek x.copyRings (s.argument vi / 1024 % 16) = some q)
include hq

theorem execReportCopyQueue_unmapped (hpa : ({ s with ctx := x } : State).deskPa q.1.toNat = none) :
    exec (.reportCopyQueue vi) s = .next (s.answer vi 2) := by
  have hexec : exec (.reportCopyQueue vi) s = execReportCopyQueue vi s := rfl
  rw [hexec, execReportCopyQueue, if_neg (by rw [ha]; decide)]
  simp only [hx, hq, hpa]

theorem execReportCopyQueue_found {pa : Nat} (hpa : ({ s with ctx := x } : State).deskPa q.1.toNat = some pa) :
    exec (.reportCopyQueue vi) s
      = if 2 ^ 14 ≤ s.argument vi then .next (s.answer vi 2)
        else .next (s.setPageOf vi { s.pageOf vi with status := 0, argument := BitVec.ofNat 48 pa }) := by
  have hexec : exec (.reportCopyQueue vi) s = execReportCopyQueue vi s := rfl
  rw [hexec, execReportCopyQueue, if_neg (by rw [ha]; decide)]
  simp only [hx, hq, hpa]

end

theorem State.pageOf_setPageOf (s : State) (vi : Nat) (p : Page) : (s.setPageOf vi p).pageOf vi = p :=
  (Table.look_put ..).trans (if_pos rfl)

end Sys2Proof.Machine

open Sys2Proof Sys2Proof.Machine

/-- Settles O51: each command by its equation where its conditions are met, each refusal by the state with the status
byte changed (`refused_of_answer`). -/
theorem mailboxCommands : Obligations.MailboxCommands := by
  unfold Obligations.MailboxCommands
  intro s vi arg refused used free
  refine ⟨fun x s1 n rest ha hn hroot hm => createContext_spec ha hn hroot hm,
    fun x ha h => refused_of_answer (execCreateContext_refused ha h),
    fun x ha hhalt hx => ⟨fun hm hn => destroyContext_running ha hhalt hx hm hn,
      fun hm => destroyContext_saved ha hhalt hx hm⟩,
    fun ha hhalt hx => refused_of_answer (execDestroyContext_refused ha hhalt hx),
    fun x rest ha hc h64 => createLaunchQueue_spec ha hc h64,
    fun ha h => refused_of_answer (execCreateLaunchQueue_refused ha h),
    fun x rest ha hc h32 hm hv => createShelfEntry_own ha hc h32 hm hv,
    fun x rest ha hc h32 hm hn => createShelfEntry_saved ha hc h32 hm hn,
    fun ha h => refused_of_answer (execCreateShelfEntry_unknown ha h),
    fun ha h7 hroom => setQuota_stored ha h7 hroom,
    fun ha h7 hover => refused_of_answer ((execSetQuota_eq ha).trans ((if_neg (by rw [h7]; decide)).trans (if_pos hover))),
    fun ha h7 => refused_of_answer ((execSetQuota_eq ha).trans (if_pos h7)),
    fun x ha h6 hx => ⟨_, execStartMigrationRound_known ha h6 hx, rfl, State.pageOf_answer ..⟩,
    fun ha h6 hx => refused_of_answer (execStartMigrationRound_unknown ha h6 hx),
    fun ha h6 => refused_of_answer (execStartMigrationRound_without ha h6),
    fun x ha h6 hx => ⟨fun hm => ⟨_, execFinalRound_saved ha h6 hx hm, State.pageOf_answer .., rfl⟩,
      fun hm hn hg hhalt => ⟨_, execFinalRound_running ha h6 hx hm hn hg hhalt, rfl, State.status_of_asked ha⟩⟩,
    fun ha h6 hx => refused_of_answer (execFinalRound_unknown ha h6 hx),
    fun ha h6 => refused_of_answer (execFinalRound_without ha h6),
    fun x q pa ha hx hq hpa => ⟨fun hlt => ?_, fun hle =>
      refused_of_answer ((execReportCopyQueue_found ha hx hq hpa).trans (if_pos hle))⟩,
    fun x q ha hx hq hpa => refused_of_answer (execReportCopyQueue_unmapped ha hx hq hpa),
    fun x ha hx hq => refused_of_answer (execReportCopyQueue_noQueue ha hx hq),
    fun ha hx => refused_of_answer (execReportCopyQueue_unknown ha hx)⟩
  refine ⟨_, (execReportCopyQueue_found ha hx hq hpa).trans (if_neg (Nat.not_le.2 hlt)), ?_, ?_⟩
  · rw [State.pageOf_setPageOf]
  · rw [State.pageOf_setPageOf]

end

section
namespace Sys2Proof.Machine
open Sys2Proof

/-! Requests from the fabric (R388, R389, R391, R393). -/

/-- The room of device memory is the partition's. -/
theorem State.mem_logFor (s : State) (c pa n : Nat) : (s.logFor c pa n).mem = s.mem := by
  unfold State.logFor
  split
  · split <;> rfl
  · rfl

theorem State.clock_logFor (s : State) (c pa n : Nat) : (s.logFor c pa n).clock = s.clock := by
  unfold State.logFor
  split
  · split <;> rfl
  · rfl

/-- A write of the interface is a write of memory (R389). -/
theorem State.mem_rmaPut (s : State) (vi pa : Nat) (bs : List Byte) (h : pa + bs.length ≤ s.memBytes) :
    (s.rmaPut vi pa bs).mem = s.mem.write pa bs := by
  have hlogs := foldl_keeps State.mem (fun (u : State) (x : Context) => u.logFor x.number pa bs.length)
    (fun _ _ => State.mem_logFor ..) (s.contextsOf vi)
    { ({ s with migr := none } : State).homeWrite pa bs with migr := s.migr }
  exact hlogs.trans (({ s with migr := none } : State).homeWrite_mem_fits pa bs h)

theorem State.clock_rmaPut (s : State) (vi pa : Nat) (bs : List Byte) : (s.rmaPut vi pa bs).clock = s.clock := by
  have hlogs := foldl_keeps State.clock (fun (u : State) (x : Context) => u.logFor x.number pa bs.length)
    (fun _ _ => State.clock_logFor ..) (s.contextsOf vi)
    { ({ s with migr := none } : State).homeWrite pa bs with migr := s.migr }
  exact hlogs.trans (State.clock_of_bare (({ s with migr := none } : State).bare_homeWrite pa bs) :)

theorem State.fits_of_rangeGranted {s : State} {vi pa n : Nat} {r w : Bool} (h : s.rangeGranted vi pa n r w = true) :
    pa + n ≤ s.memBytes := by
  simp only [State.rangeGranted, Bool.and_eq_true, decide_eq_true_eq] at h
  exact h.1

section
variable {s : State} {who : Sender} {vi pa : Nat} {data : List Byte} (ha : s.admits who vi = true)
include ha

theorem execRmaWrite_home (hpage : inPage vi pa data.length = false)
    (hg : s.rangeGranted vi pa data.length false true = true) (hp : s.peerRefused who vi pa data.length = false) :
    exec (.rmaWrite who vi pa data) s = .next (s.rmaPut vi pa data) := by
  have hexec : exec (.rmaWrite who vi pa data) s = execRmaWrite who vi pa data s := rfl
  simp [hexec, execRmaWrite, ha, hpage, hg, hp]

theorem execRmaWrite_page (hpage : inPage vi pa data.length = true) :
    exec (.rmaWrite who vi pa data) s = .next (s.setPageOf vi ((s.pageOf vi).putAll (pa - pageBase vi) data)) := by
  have hexec : exec (.rmaWrite who vi pa data) s = execRmaWrite who vi pa data s := rfl
  simp [hexec, execRmaWrite, ha, hpage]

end

/-- A delivery that the interface does not take (R388). -/
theorem State.admits_false {s : State} {who : Sender} {vi : Nat} (h : who.delivery = .uud
    ∨ (who.delivery = .rod ∧ s.accepts vi 1 = false) ∨ (who.delivery = .rudi ∧ s.accepts vi 2 = false)) :
    s.admits who vi = false := by
  rcases h with h | ⟨h, ha⟩ | ⟨h, ha⟩ <;> simp_all [State.admits]

section
variable {s : State} {who : Sender} {vi pa : Nat} (ha : s.admits who vi = true) (h8 : pa % 8 = 0)
  (hg : s.rangeGranted vi pa 8 true true = true) (hp : s.peerRefused who vi pa 8 = false)
  (hbad : blockBad s pa 8 = false)
include ha h8 hg hp hbad

theorem execRmaAtomic_add (v : DWord) : exec (.rmaAtomic who vi pa (.fetchAdd v)) s
    = .next (s.rmaPut vi pa (natToBytes 8 (BitVec.ofNat 64 (s.mem.word pa 8) + v).toNat)) := by
  have hexec : exec (.rmaAtomic who vi pa (.fetchAdd v)) s = execRmaAtomic who vi pa (.fetchAdd v) s := rfl
  rw [hexec, execRmaAtomic, if_neg (by simp [ha, h8, hg, hp]), if_neg (by simp [hbad])]
  rfl

theorem execRmaAtomic_swap (expected new : DWord) : exec (.rmaAtomic who vi pa (.compareSwap expected new)) s
    = if BitVec.ofNat 64 (s.mem.word pa 8) = expected then .next (s.rmaPut vi pa (natToBytes 8 new.toNat))
      else .next s := by
  have hexec : exec (.rmaAtomic who vi pa (.compareSwap expected new)) s
      = execRmaAtomic who vi pa (.compareSwap expected new) s := rfl
  rw [hexec, execRmaAtomic, if_neg (by simp [ha, h8, hg, hp]), if_neg (by simp [hbad])]
  rfl

end

theorem Memory.word_lt (m : Memory) (a n : Nat) : m.word a n < 256 ^ n := by
  have h := bytesToNat_lt (m.read a n)
  rwa [Memory.read, List.length_map, List.length_range] at h

/-- A word that is written at home is read back. -/
theorem State.word_rmaPut {s : State} {vi pa : Nat} (h : pa + 8 ≤ s.memBytes) (v : DWord) :
    (s.rmaPut vi pa (natToBytes 8 v.toNat)).mem.word pa 8 = v.toNat := by
  rw [State.mem_rmaPut _ _ _ _ (by rw [length_natToBytes]; exact h)]
  exact Memory.word_write _ _ _ _ v.isLt

theorem rmaAtomic_spec {s : State} {who : Sender} {vi pa : Nat} (ha : s.admits who vi = true) (h8 : pa % 8 = 0)
    (hg : s.rangeGranted vi pa 8 true true = true) (hp : s.peerRefused who vi pa 8 = false)
    (hbad : blockBad s pa 8 = false) :
    (∀ v, ∃ t, exec (.rmaAtomic who vi pa (.fetchAdd v)) s = .next t
        ∧ t.mem.word pa 8 = (s.mem.word pa 8 + v.toNat) % 2 ^ 64)
      ∧ (∀ expected new, ∃ t, exec (.rmaAtomic who vi pa (.compareSwap expected new)) s = .next t
        ∧ t.mem.word pa 8 = if s.mem.word pa 8 = expected.toNat then new.toNat else s.mem.word pa 8) := by
  have hfits := State.fits_of_rangeGranted hg
  have hold : (BitVec.ofNat 64 (s.mem.word pa 8)).toNat = s.mem.word pa 8 :=
    (BitVec.toNat_ofNat ..).trans (Nat.mod_eq_of_lt (s.mem.word_lt pa 8))
  refine ⟨fun v => ⟨_, execRmaAtomic_add ha h8 hg hp hbad v, ?_⟩, fun expected new => ?_⟩
  · rw [State.word_rmaPut hfits, BitVec.toNat_add, hold]
  · rw [execRmaAtomic_swap ha h8 hg hp hbad]
    by_cases h : s.mem.word pa 8 = expected.toNat
    · rw [if_pos (BitVec.eq_of_toNat_eq (hold.trans h)), if_pos h]
      exact ⟨_, rfl, State.word_rmaPut hfits new⟩
    · rw [if_neg (fun he => h (hold.symm.trans (congrArg BitVec.toNat he))), if_neg h]
      exact ⟨_, rfl, rfl⟩

theorem execQueueSend_launch {s : State} {who : Sender} {vi header h : Nat} {x : Context} {slot : List Byte}
    (ha : s.admits who vi = true) (hlen : slot.length = 64) (hq : s.queueAt vi .launch header = some (x, h))
    (hp : who.peer = true → s.accepts vi 5 = true) (hfull : (({ s with ctx := x } : State).ringAt h).isFull = false) :
    exec (.queueSend who vi .launch header slot) s = .next (s.within x fun s => s.fillSlot h 64 slot) := by
  have hexec : exec (.queueSend who vi .launch header slot) s = execQueueSend who vi .launch header slot s := rfl
  have hpeer : (who.peer && !s.accepts vi 5) = false := by
    cases hw : who.peer with
    | false => rfl
    | true => rw [hp hw]; rfl
  rw [hexec, execQueueSend, if_neg (by simp [ha, hlen]), hq]
  simp only [hpeer, hfull]
  rfl

/-! Attachment and quotes. -/

section
variable {s : State} {vi : Nat} (hs : s.serves = true)
include hs

theorem execAttachRequest_accepts (hr : (s.pageOf vi).attachReq = true) (hatt : (s.pageOf vi).attached = false)
    (h9 : (s.pageOf vi).wanted.toNat / 2 ^ 9 = 0) (ho : (s.pageOf vi).wanted &&& ~~~Config.offered = 0) :
    exec (.attachRequest vi) s
      = .next (s.setPageOf vi { s.pageOf vi with attached := true, accepted := (s.pageOf vi).wanted, attachStatus := 0 }) := by
  have hexec : exec (.attachRequest vi) s = execAttachRequest vi s := rfl
  rw [hexec, execAttachRequest, if_neg (by simp [hs, hr, hatt]), if_neg (not_not_intro h9), if_neg (not_not_intro ho)]

theorem execAttachRequest_reserved (hr : (s.pageOf vi).attachReq = true) (hatt : (s.pageOf vi).attached = false)
    (h9 : (s.pageOf vi).wanted.toNat / 2 ^ 9 ≠ 0) :
    exec (.attachRequest vi) s = .next (s.setPageOf vi { s.pageOf vi with attachReq := false, attachStatus := 2 }) := by
  have hexec : exec (.attachRequest vi) s = execAttachRequest vi s := rfl
  rw [hexec, execAttachRequest, if_neg (by simp [hs, hr, hatt]), if_pos h9]

theorem execQuoteRequest_signs (hq : (s.pageOf vi).quoteReq = true) :
    exec (.quoteRequest vi) s = .next { s.setPageOf vi { s.pageOf vi with
      quoteReq := false, quote := s.quoteBytes vi,
      signature := quoteSignature (s.quoteBytes vi ++ padded (s.pageOf vi).nonce 32) } with quotes := s.quotes + 1 } := by
  have hexec : exec (.quoteRequest vi) s = execQuoteRequest vi s := rfl
  rw [hexec, execQuoteRequest, if_neg (by simp [hs, hq])]

end

theorem length_quoteSignature (message : List Byte) : (quoteSignature message).length = 5076 := by
  have hbig : ∀ n v, (bigBytes n v).length = n := fun n v => by rw [bigBytes, List.length_reverse, length_natToBytes]
  simp only [quoteSignature, List.length_append, List.length_map, List.length_range, hbig]

end Sys2Proof.Machine

open Sys2Proof Sys2Proof.Machine

/-- Settles O52: a granted request is one write at home (`State.mem_rmaPut`), the pages and queues by the equations of
their events. -/
theorem hostRequests : Obligations.HostRequests := by
  unfold Obligations.HostRequests
  refine ⟨fun s who vi pa data ha hpage hg hp => ⟨_, execRmaWrite_home ha hpage hg hp, State.clock_rmaPut .., fun b => ?_⟩,
    fun s who vi pa data ha hpage => execRmaWrite_page ha hpage, ?delivery, ?read,
    fun s who vi pa ha h8 hg hp hbad => rmaAtomic_spec ha h8 hg hp hbad,
    fun s who vi header h x slot ha hlen hq hp hfull => execQueueSend_launch ha hlen hq hp hfull,
    ?attach, fun s vi hs hq => ⟨_, execQuoteRequest_signs hs hq, rfl, ?_⟩, fun s vi command => rfl⟩
  case attach =>
    intro s vi p hs hr hatt
    refine ⟨fun h9 ho => ⟨_, execAttachRequest_accepts hs hr hatt h9 ho, ?_⟩,
      fun h9 => ⟨_, execAttachRequest_reserved hs hr hatt h9, ?_⟩⟩
    · rw [State.pageOf_setPageOf]
      exact ⟨rfl, rfl, rfl⟩
    · rw [State.pageOf_setPageOf]
      exact ⟨hatt, rfl⟩
  case delivery =>
    intro s who vi pa data op kind header h
    have ha := State.admits_false h
    have hwrite : exec (.rmaWrite who vi pa data) s = execRmaWrite who vi pa data s := rfl
    have hread : exec (.rmaRead who vi pa data.length) s = execRmaRead who vi pa data.length s := rfl
    have hatomic : exec (.rmaAtomic who vi pa op) s = execRmaAtomic who vi pa op s := rfl
    have hsend : exec (.queueSend who vi kind header data) s = execQueueSend who vi kind header data s := rfl
    refine ⟨?_, ?_, ?_, ?_⟩
    · simp [hwrite, execRmaWrite, ha]
    · simp [hread, execRmaRead, ha]
    · simp [hatomic, execRmaAtomic, ha]
    · simp [hsend, execQueueSend, ha]
  case read =>
    intro s who vi pa len hbad
    have hread : exec (.rmaRead who vi pa len) s = execRmaRead who vi pa len s := rfl
    simp [hread, execRmaRead, hbad]
  · rw [State.mem_rmaPut _ _ _ _ (State.fits_of_rangeGranted hg), Memory.byte_write]
  · have hpage := State.pageOf_setPageOf s vi { s.pageOf vi with
      quoteReq := false, quote := s.quoteBytes vi,
      signature := quoteSignature (s.quoteBytes vi ++ padded (s.pageOf vi).nonce 32) }
    exact ⟨(congrArg Page.quoteReq hpage :), (congrArg Page.quote hpage :),
      (congrArg (fun p : Page => p.signature.length) hpage).trans (length_quoteSignature _)⟩

end

section
namespace Sys2Proof.Machine
open Sys2Proof

/-! A strong access of a gang that is a member of a session although its REPLAYM selects none. -/

/-- The gang belongs to the session of log 0, which replays and has no access left for its folio. -/
def strandedState : State :=
  { State.reset with ctx := { Context.none with
      gangs := [(0, { Gang.start 0x1000 1 with resident := true, member := true })]
      logs := [(0, { OrderLog.none with state := .replaying })] } }

/-- Lane 0 reads the word at physical address 0. -/
def strandedPiece : Piece := ⟨0, 0, 4⟩
def strandedLane : LaneAcc := ⟨0, [strandedPiece], false, []⟩

theorem strandedState_admitted : strandedState.oneTask ∧ strandedPiece.pa % 4 = 0
    ∧ strandedPiece.pa + 4 ≤ strandedState.memBytes ∧ strandedState.traced strandedState.gang = false
    ∧ replayMode strandedState.gang.replaym = 0
    ∧ blockBad strandedState (strandedPiece.pa / 64 * 64) 64 = false := by
  refine ⟨⟨rfl, rfl⟩, ?_⟩
  decide +kernel

/-- The gate reports that the replay has diverged. -/
theorem strandedState_diverges :
    (match strongLane strandedState strandedLane 4 none fun _ _ => none with
      | .ok _ => true
      | _ => false) = false := by decide +kernel

end Sys2Proof.Machine

open Sys2Proof Sys2Proof.Machine

/-- Refutes O35: the clause on one lane asks that REPLAYM selects no session, while the gate asks whether the gang is a
member of one. A member whose REPLAYM is 0 (a state that no write of REPLAYM leaves, and which the clause's premises allow),
in a session that replays with no access left for its folio, diverges at the gate: the lane is a fault and not performed. -/
theorem not_strongAccess : ¬ Obligations.StrongAccess := by
  rintro ⟨-, -, -, hlane⟩
  obtain ⟨hone, halign, hfits, huntraced, hmode, hgood⟩ := strandedState_admitted
  obtain ⟨t, ht, -⟩ := hlane strandedState strandedLane strandedPiece 4 none (fun _ _ => none) hone rfl (.inl rfl) halign
    hfits huntraced hmode hgood
  have hdiverges := strandedState_diverges
  rw [ht] at hdiverges
  cases hdiverges

end

section
namespace Sys2Proof.Machine
open Sys2Proof

/-! An MWAIT that sets its watches and goes on or stands (R339, R343, R344). -/

/-- What the setting of watches keeps of the time and place of the path. -/
def State.standpoint (s : State) : Nat × Table Nat × Nat := (s.clock, s.asleep, s.gang.carrel)

theorem State.standpoint_of_bare {s t : State} (h : t.bare = s.bare) : t.standpoint = s.standpoint := (congrArg State.standpoint h :)

theorem State.standpoint_frontLane (s : State) (l : Nat) : (s.frontLane l).standpoint = s.standpoint := by
  have hcarrel : (s.gang.task l).carrel = s.gang.carrel := (congrArg Gang.carrel (s.gang.offTask_task l) :)
  have hgang : (s.frontLane l).gang.carrel = s.gang.carrel := by rw [State.frontLane, State.modGang_gang, hcarrel]
  exact congrArg (fun c => (s.clock, s.asleep, c)) hgang

theorem State.standpoint_counted (s : State) : (s.modGang fun g => { g with strong := g.strong + 1 }).standpoint = s.standpoint :=
  (congrArg (fun g : Gang => (s.clock, s.asleep, g.carrel))
    (State.modGang_gang s fun g => { g with strong := g.strong + 1 }) :)

/-- Where the gate lets an access by or holds it. -/
def Gate.standpoint : Gate → Option (Nat × Table Nat × Nat)
  | .ok t => some t.standpoint
  | .held t => some t.standpoint
  | .diverged => none

theorem State.standpoint_gateAs (s : State) (me : Nat × Bool) (pa : Nat) :
    ∀ p ∈ (s.gateAs me pa).standpoint, p = s.standpoint := by
  have hput : ∀ (n : Nat) (l : OrderLog), ((s.modGang fun g => { g with strong := g.strong + 1 }).putLog n l).standpoint = s.standpoint :=
    fun _ _ => s.standpoint_counted
  unfold State.gateAs
  extract_lets g n l sl counted held
  have hheld : ∀ p ∈ held.standpoint, p = s.standpoint := by rintro _ ⟨⟩; rfl
  split
  · rintro _ ⟨⟩; rfl
  · split
    · rintro _ ⟨⟩
      exact (State.standpoint_of_bare (State.bare_writeLogs _)).trans (hput ..)
    · split
      · rintro _ ⟨⟩
      · split
        · split
          · rintro _ ⟨⟩; exact hput ..
          · exact hheld
        · split
          · rintro _ ⟨⟩; exact hput ..
          · exact hheld
    · rintro _ ⟨⟩; rfl

/-- Where the setting of watches ends without a fault. -/
def StrongOut.standpoint : StrongOut → Option (Nat × Table Nat × Nat)
  | .ok t => some t.standpoint
  | .held t => some t.standpoint
  | .fault .. => none

theorem setWatches_standpoint (cond : BitVec 5) (z : Nat) (armed : Bool) (hs : List HeldLane) (s : State) :
    ∀ p ∈ (setWatches s cond z armed hs).standpoint, p = s.standpoint := by
  induction hs generalizing s with
  | nil => rintro _ ⟨⟩; rfl
  | cons a rest ih =>
    have hfront := s.standpoint_frontLane a.lane
    unfold setWatches
    extract_lets s1 g
    have hgate := s1.standpoint_gateAs (s1.cur, s1.gang.younger) a.pa
    split
    · exact fun p hp => (ih _ p hp).trans hfront
    · split
      · rintro _ ⟨⟩
      · split
        next s2 h =>
          rintro _ ⟨⟩
          exact (hgate s2.standpoint (by rw [← State.gate, h]; rfl)).trans hfront
        next h => rintro _ ⟨⟩
        next s2 h =>
          intro p hp
          have hs2 := hgate s2.standpoint (by rw [← State.gate, h]; rfl)
          exact ((ih _ p hp).trans (State.standpoint_of_bare (s2.bare_expel ..) : _)).trans (hs2.trans hfront)

theorem Gang.reread_rejoin {g : Gang} (h : g.path.reread = false) : g.rejoin.path.reread = false := by
  unfold Gang.rejoin
  extract_lets away
  split
  · exact h
  · split
    · rfl
    · exact h

/-- A path that settles waits to read memory afresh only where it did before. -/
theorem Gang.reread_settle (fuel : Nat) (gone : Bool) {g : Gang} (h : g.path.reread = false) :
    (g.settle fuel gone).path.reread = false := by
  have hset : ∀ (k : Gang) (p : Path), p.reread = false → (k.setPath p).path.reread = false := fun k p hp => by
    rw [Gang.path_setPath]
    exact hp
  induction fuel generalizing gone g with
  | zero => exact h
  | succ n ih =>
    unfold Gang.settle
    extract_lets old p
    have hp : p.reread = false := by
      unfold p
      split <;> exact h
    split
    · split
      · extract_lets arrived
        split
        · exact ih _ (hset _ _ hp)
        · exact ih _ (hset _ _ hp)
      · exact hset _ _ hp
    · split
      · split
        · exact Gang.reread_rejoin (hset _ { p with wait := .atJoin } hp)
        · exact hset _ _ hp
      · exact hset _ _ hp

theorem State.reread_advance (s : State) (h : Header) : (s.advance h).gang.path.reread = false := by
  have hhint : ((s.gang.modPath fun p => p.leaves (s.pc + 12)).hint h false s.clock).path
      = (s.gang.modPath fun p => p.leaves (s.pc + 12)).path := by
    unfold Gang.hint Gang.stepStop
    split <;> rfl
  rw [State.advance, State.leave_gang]
  refine Gang.reread_settle _ _ ?_
  rw [hhint, Gang.modPath, Gang.path_setPath]
  rfl

theorem Gang.task_offIssue (g : Gang) (l : Nat) : g.offIssue.task l = (g.task l).offIssue := by
  unfold Gang.task
  simp only [show g.offIssue.front = g.front from rfl, show g.offIssue.pack = g.pack from rfl]
  repeat' split
  all_goals rfl

/-- No change of a path makes a task traced. -/
theorem State.traced_modPath (s : State) (f : Path → Path) (h : ∀ l, s.traced (s.gang.task l) = false) (l : Nat) :
    (s.modPath f).traced ((s.modPath f).gang.task l) = false := by
  have hgang : ((s.modPath f).gang.task l).offIssue = (s.gang.task l).offIssue := by
    rw [← Gang.task_offIssue, ← Gang.task_offIssue, State.modPath, State.modGang_gang, Gang.modPath, Gang.offIssue_setPath]
  exact (congrArg s.traced hgang : _).trans (h l)

/-- The state of an MWAIT whose conditions have all held. -/
def State.metAll (s : State) (x : MSFmt) : State :=
  (s.dropWatches.modGang fun g =>
    (g.writeMet s.myWatches x.hdr.d (msWidth x.width)).modPath fun p => { p with wait := .none }).advance x.hdr

/-- The watches of the current path are not kept in it. -/
theorem State.myWatches_modPath (s : State) (f : Path → Path) : (s.modPath f).myWatches = s.myWatches := by
  have hyoung : (s.modPath f).gang.younger = s.gang.younger := by
    rw [State.modPath, State.modGang_gang, Gang.modPath, Gang.setPath]
    split <;> rfl
  rw [State.myWatches, hyoung]
  rfl

theorem mwaitComplete_untraced {s : State} (ht : ∀ l, s.traced (s.gang.task l) = false) (hr : s.gang.path.reread = false)
    (hall : s.allMet = true) (x : MSFmt) : mwaitComplete s x = .next (s.metAll x) := by
  have hreads := traceReads_untraced ht (watchGranules s.myWatches)
  simp only [mwaitComplete, hreads, hr, Bool.false_eq_true, if_false, hall, if_true]
  rfl

/-- The gang that begins to stand has emptied the destination of its acting lanes. -/
theorem Gang.wEmpty_markEmpty (g : Gang) (m : Mask) (i : BitVec 8) (wide : Bool) :
    (g.markEmpty m (.w i) wide).wEmpty i &&& m = m := by
  have hone : ∀ e : Mask, (e ||| m) &&& m = m := fun e => by
    rw [BitVec.and_comm]
    exact BitVec.eq_of_getLsbD_eq fun k _ => by simpa using Or.inr
  have hne : (i + 1).toNat ≠ i.toNat := fun h => absurd (BitVec.eq_of_toNat_eq h) (by bv_omega)
  cases wide with
  | false => simp [Gang.markEmpty, Gang.wEmpty, Gang.setWEmpty, hone]
  | true =>
    simp only [Gang.markEmpty, Gang.wEmpty, Gang.setWEmpty, if_true]
    rw [Vector.getElem_set_ne _ _ hne]
    simp [hone]

section
variable (s : State) (x : MSFmt) (m : Mask) (b : Option Nat) (hs : List HeldLane)

theorem State.beginMwait_gang : (s.beginMwait x m b hs).gang
    = ((s.gang.markEmpty m x.hdr.d (x.width.toNat = 1)).waits).modPath fun p =>
      { p with wait := .mwait s.clock b x.hdr.d (x.width.toNat = 1) (s.cycleOf s.gang.carrel), reach := hs,
               began := some (s.clock, s.cycleOf s.gang.carrel) } := by
  have hgang : s.issuedOne.gang = s.gang := State.gang_of_bare s.bare_issuedOne
  have hclock : s.issuedOne.clock = s.clock := State.clock_of_bare s.bare_issuedOne
  rw [State.beginMwait, State.modGang_gang, hgang]

end

/-- The budget of an MWAIT: none without one, its s register, or its immediate (R344). -/
theorem mwaitBudget_cases (s : State) (x : MSFmt) : (x.data2 = .absent → mwaitBudget s x = none)
    ∧ (∀ i, x.data2 = .s i → mwaitBudget s x = some (s.gang.sReg i).toNat)
    ∧ ∀ v, x.data2 = .imm v → mwaitBudget s x = some (v.signExtend 64).toNat := by
  refine ⟨fun h => ?_, fun i h => ?_, fun v h => ?_⟩
  · rw [mwaitBudget, h]
  · rw [mwaitBudget, h]
    rfl
  · rw [mwaitBudget, h]
    rfl

/-- What stands at an MWAIT: u, with the destination empty and the wait of the current path. -/
theorem beginMwait_stands {s u : State} (hat : u.standpoint = s.standpoint) (x : MSFmt) (m : Mask) (b : Option Nat) (hs : List HeldLane) :
    let t := (u.beginMwait x m b hs).tick
    t.clock = s.clock + 1 ∧ t.mem = u.mem ∧ t.pc = u.pc ∧ t.ctx.watches = u.ctx.watches
      ∧ t.gang.path.wait = .mwait s.clock b x.hdr.d (x.width.toNat = 1) (s.cycleOf s.gang.carrel)
      ∧ t.gang.path.reach = hs ∧ ∀ i, x.hdr.d = .w i → t.gang.wEmpty i &&& m = m := by
  intro t
  obtain ⟨hclock, hasleep, hcarrel⟩ : u.clock = s.clock ∧ u.asleep = s.asleep ∧ u.gang.carrel = s.gang.carrel := by
    simpa [State.standpoint] using hat
  have hcycle : u.cycleOf u.gang.carrel = s.cycleOf s.gang.carrel := by
    rw [State.cycleOf, State.cycleOf, hclock, hasleep, hcarrel]
  have hgang : t.gang = _ := u.beginMwait_gang x m b hs
  have hpath : (u.gang.markEmpty m x.hdr.d (x.width.toNat = 1)).waits.path = u.gang.path := by
    unfold Gang.markEmpty
    extract_lets one
    repeat' split
    all_goals rfl
  have hissued : u.issuedOne.mem = u.mem ∧ u.issuedOne.ctx.watches = u.ctx.watches := by
    unfold State.issuedOne State.count
    repeat' split
    all_goals exact ⟨rfl, rfl⟩
  obtain ⟨hm, hw⟩ := hissued
  have hc : u.issuedOne.clock = u.clock := State.clock_of_bare u.bare_issuedOne
  refine ⟨congrArg (· + 1) (hc.trans hclock), hm, ?_, hw, ?_, ?_, fun i hi => ?_⟩
  · rw [State.pc, hgang, Gang.modPath, Gang.path_setPath, hpath]
    rfl
  · rw [hgang, Gang.modPath, Gang.path_setPath, hclock, hcycle]
  · rw [hgang, Gang.modPath, Gang.path_setPath]
  · have hwe : t.gang.wEmpty i = (u.gang.markEmpty m (.w i) (x.width.toNat = 1)).wEmpty i := by
      rw [hgang, hi]
      unfold Gang.modPath Gang.setPath
      split <;> rfl
    rw [hwe]
    exact Gang.wEmpty_markEmpty ..

section
variable {x : MSFmt} {s u : State} {m : Mask} {accs : List LaneAcc} (hw : s.gang.path.wait = .none)
  (hi : s.issues x.hdr .lane (msFieldsOk s.gang x && x.op.toNat ≤ 5 && x.obs == 0 && !x.pub && !x.sub
    && dstOk .lane s.gang (x.width.toNat = 1) x.hdr.d && storeDataOk s.gang (x.width.toNat = 1) x.data
    && (match x.data2 with
      | .s _ | .imm _ | .absent => true
      | _ => false)) [(x.hdr.d, x.width.toNat = 1)] (msSrcs x) m)
  (ha : mwaitLanes s x m = .ok accs)

/-- The lanes that an MWAIT keeps while it stands. -/
def State.waitLanes (s : State) (x : MSFmt) (accs : List LaneAcc) : List HeldLane :=
  heldLanes s.gang accs (fun l => bytesToNat (storeData s x.data (msWidth x.width) l)) fun _ => 0

/-- The setting of its watches. -/
def State.waitSets (s : State) (x : MSFmt) (accs : List LaneAcc) : StrongOut :=
  setWatches (s.keepAll accs) x.op (msWidth x.width) (mwaitBudget s x != some 0) (s.waitLanes x accs)

include hw hi ha

theorem execMwait_gated (hu : s.waitSets x accs = .held u) :
    exec (.mwait x) s = .next (u.beginMwait x m (mwaitBudget s x) (s.waitLanes x accs)).tick := by
  change execMwait x s = _
  unfold execMwait
  simp only [hw]
  refine (issue_of_issues _ hi).trans ?_
  simp only [ha]
  rw [State.waitSets, State.waitLanes] at hu
  rw [hu]
  rfl

theorem execMwait_unmet (hu : s.waitSets x accs = .ok u)
    (hall : (u.modPath fun p => { p with reach := s.waitLanes x accs }).allMet = false) :
    exec (.mwait x) s = .next (u.beginMwait x m (mwaitBudget s x) (s.waitLanes x accs)).tick := by
  change execMwait x s = _
  unfold execMwait
  simp only [hw]
  refine (issue_of_issues _ hi).trans ?_
  simp only [ha]
  rw [State.waitSets, State.waitLanes] at hu
  rw [State.waitLanes] at hall
  rw [hu]
  simp only [hall]
  rfl

theorem execMwait_met (hu : s.waitSets x accs = .ok u) (ht : ∀ l, u.traced (u.gang.task l) = false)
    (hr : u.gang.path.reread = false)
    (hall : (u.modPath fun p => { p with reach := s.waitLanes x accs }).allMet = true) :
    exec (.mwait x) s = .next ((u.modPath fun p => { p with reach := s.waitLanes x accs }).metAll x) := by
  have hreread : (u.modPath fun p => { p with reach := s.waitLanes x accs }).gang.path.reread = false := by
    rw [State.modPath, State.modGang_gang, Gang.modPath, Gang.path_setPath]
    exact hr
  have hdone := mwaitComplete_untraced (State.traced_modPath u _ ht) hreread hall x
  have hleft := State.reread_advance ((u.modPath fun p => { p with reach := s.waitLanes x accs }).dropWatches.modGang fun g =>
    (g.writeMet (u.modPath fun p => { p with reach := s.waitLanes x accs }).myWatches x.hdr.d (msWidth x.width)).modPath
      fun p => { p with wait := .none }) x.hdr
  change execMwait x s = _
  unfold execMwait
  simp only [hw]
  refine (issue_of_issues _ hi).trans ?_
  simp only [ha]
  rw [State.waitSets, State.waitLanes] at hu
  rw [State.waitLanes] at hall hdone hleft
  rw [hu]
  simp only [hall, if_true, hdone]
  rw [State.metAll, hleft]
  rfl

end

section
variable {x : MSFmt} {s u : State} {start cycle : Nat} {b : Option Nat} {dst : Operand} {wide : Bool}
  (hw : s.gang.path.wait = .mwait start b dst wide cycle)
include hw

theorem execMwait_stillGated (hu : setWatches s x.op (msWidth x.width) (b != some 0) s.gang.path.reach = .held u) :
    exec (.mwait x) s = .next u.hold := by
  change execMwait x s = _
  simp only [execMwait, hw, hu]

theorem execMwait_again (hu : setWatches s x.op (msWidth x.width) (b != some 0) s.gang.path.reach = .ok u)
    (ht : ∀ l, u.traced (u.gang.task l) = false) (hr : u.gang.path.reread = false) :
    exec (.mwait x) s = .next (if u.allMet then u.metAll x else u.hold) := by
  change execMwait x s = _
  simp only [execMwait, hw, hu]
  cases hall : u.allMet with
  | true => exact mwaitComplete_untraced ht hr hall x
  | false => rfl

end

end Sys2Proof.Machine
end

section
namespace Sys2Proof.Machine
open Sys2Proof

/-! A watch and the writes that reach it, and the timeout of an MWAIT (R21, R142, R343, R344). -/

/-- A write that touches an armed watch not yet met tests it (R21). -/
theorem State.homeWrite_watch {s : State} {pa : Nat} {bs : List Byte} {w : Watch} (hw : w ∈ s.ctx.watches)
    (ha : w.armed = true) (hm : w.met = none) (hlo : w.pa < pa + bs.length) (hhi : pa < w.pa + w.size)
    (hfit : pa + bs.length ≤ s.memBytes) :
    (if mwaitHolds w.cond ((s.homeWrite pa bs).homeWord w.pa w.size) (w.cmp.toNat % 2 ^ (8 * w.size)) then
      { w with met := some (BitVec.ofNat 64 ((s.homeWrite pa bs).homeWord w.pa w.size)) } else w)
      ∈ (s.homeWrite pa bs).ctx.watches := by
  have htake : bs.take (s.memBytes - pa) = bs := List.take_of_length_le (by omega)
  unfold State.homeWrite
  simp only [htake]
  have hlog : ∀ t : State, (t.logWrite pa bs.length).ctx.watches = t.ctx.watches := by
    intro t
    unfold State.logWrite State.logFor
    repeat' split
    all_goals rfl
  refine List.mem_map.2 ⟨w, by rw [hlog]; exact hw, ?_⟩
  simp only [ha, hm, hlo, hhi, Option.isNone_none, decide_true, Bool.true_and]
  rfl

theorem mwaitHolds_conditions (v c : Nat) : mwaitHolds 0 v c = decide (v = c) ∧ mwaitHolds 1 v c = decide (v ≠ c)
    ∧ mwaitHolds 2 v c = decide (v < c) ∧ mwaitHolds 3 v c = decide (v ≤ c)
    ∧ mwaitHolds 4 v c = decide (c < v) ∧ mwaitHolds 5 v c = decide (c ≤ v) := by
  refine ⟨?_, ?_, ?_, ?_, ?_, ?_⟩
  all_goals
    simp only [mwaitHolds]
    refine decide_eq_decide.2 ?_
    omega

/-- The lanes of an MWAIT whose condition has not held. -/
def State.unmetLanes (s : State) (p : Path) : Mask :=
  Mask.ofFn fun l => p.reach.any fun a => a.lane = l && !(s.myWatches.any fun w => w.lane = l && w.met.isSome)

/-- The older path has left its MWAIT at the timeout, with the values that have come. -/
def State.timedOut (s : State) (dst : Operand) (wide : Bool) : State :=
  s.dropWatches.modGang fun g =>
    ((g.writeMet s.myWatches dst (if wide then 8 else 4)).orphan (s.unmetLanes s.gang.p0) dst wide).modPath fun p =>
      { p.leaves p.pc with wait := .none }

/-- The trap of the older path's timeout (R142, R344). -/
def State.timeoutTrap (s : State) (cycle : Nat) : TrapReq :=
  { cause := Trap.mwaitTimeout, detail := 0, lanes := s.gang.p0.xm, acting := s.gang.p0.xm,
    offending := s.unmetLanes s.gang.p0, younger := false, ret := s.gang.p0.pc + 12, pc := s.gang.p0.pc, cycle := cycle }

/-- What the end of a wait at an MWAIT leaves of the gang: all but its w registers and its older path. -/
def Gang.offWait (g : Gang) : Gang :=
  { g with w := (Gang.start 0 0).w, we := (Gang.start 0 0).we, wo := (Gang.start 0 0).wo, p0 := Path.start 0 0 }

theorem Gang.offWait_writeMet (g : Gang) (ws : List Watch) (d : Operand) (z : Nat) :
    (g.writeMet ws d z).offWait = g.offWait ∧ (g.writeMet ws d z).path = g.path := by
  unfold Gang.writeMet
  split
  · extract_lets m
    unfold Gang.writeLanes
    split <;> exact ⟨rfl, rfl⟩
  · exact ⟨rfl, rfl⟩

theorem Gang.offWait_orphan (g : Gang) (m : Mask) (d : Operand) (wide : Bool) :
    (g.orphan m d wide).offWait = g.offWait ∧ (g.orphan m d wide).path = g.path := by
  unfold Gang.orphan
  split
  · extract_lets g1
    split <;> exact ⟨rfl, rfl⟩
  · exact ⟨rfl, rfl⟩

/-- The older path is set, and nothing else. -/
theorem Gang.offWait_setPath {g : Gang} (hy : g.younger = false) (p : Path) :
    (g.setPath p).offWait = g.offWait ∧ (g.setPath p).p0 = p := by
  rw [Gang.setPath, if_neg (by rw [hy]; exact Bool.false_ne_true)]
  exact ⟨rfl, rfl⟩

section
variable {s : State} (hy : s.gang.younger = false) (dst : Operand) (wide : Bool)

theorem State.timedOut_gang : (s.timedOut dst wide).gang =
    ((s.gang.writeMet s.myWatches dst (if wide then 8 else 4)).orphan (s.unmetLanes s.gang.p0) dst wide).modPath fun p =>
      { p.leaves p.pc with wait := .none } := State.modGang_gang ..

include hy

theorem State.timedOut_spec : (s.timedOut dst wide).gang.offWait = s.gang.offWait
    ∧ (s.timedOut dst wide).gang.p0 = { s.gang.p0.leaves s.gang.p0.pc with wait := .none } := by
  let g1 := s.gang.writeMet s.myWatches dst (if wide then 8 else 4)
  have hkeep : (g1.orphan (s.unmetLanes s.gang.p0) dst wide).offWait = s.gang.offWait :=
    (g1.offWait_orphan ..).1.trans (s.gang.offWait_writeMet ..).1
  have hyoung : (g1.orphan (s.unmetLanes s.gang.p0) dst wide).younger = false := (congrArg Gang.younger hkeep :).trans hy
  have hpath : (g1.orphan (s.unmetLanes s.gang.p0) dst wide).path = s.gang.p0 := by
    rw [(g1.offWait_orphan ..).2, (s.gang.offWait_writeMet ..).2, Gang.path, hy]
    rfl
  obtain ⟨hoff, hp0⟩ := Gang.offWait_setPath hyoung { s.gang.p0.leaves s.gang.p0.pc with wait := .none }
  rw [State.timedOut_gang, Gang.modPath, hpath]
  exact ⟨hoff.trans hkeep, hp0⟩

/-- No watch of the path is left. -/
theorem State.myWatches_timedOut : (s.timedOut dst wide).myWatches = [] := by
  have hyoung : (s.timedOut dst wide).gang.younger = s.gang.younger := (congrArg Gang.younger (s.timedOut_spec hy dst wide).1 :)
  rw [State.myWatches, hyoung]
  refine List.filter_eq_nil_iff.2 fun w hw => ?_
  have hcur : (s.timedOut dst wide).cur = s.cur := rfl
  have hmem := (List.mem_filter.1 hw).2
  simpa [hcur, imp_iff_not_or] using hmem

end

/-- A flat path that settles keeps all but its JOIN record. -/
theorem Gang.settled_eq {g : Gang} (hs : g.path.stack = []) (hp : g.split = none) :
    ∃ j, g.settled false = g.setPath { g.path with join := j } := by
  have hfuel : 2 * g.path.stack.length + 3 = 2 + 1 := by rw [hs]; rfl
  have hstack : (if g.path.join = some g.path.pc then { g.path with join := none } else g.path).stack = [] := by
    split <;> exact hs
  rw [Gang.settled, hfuel, Gang.settle]
  simp only [hstack, hp]
  split
  · exact ⟨none, rfl⟩
  · exact ⟨g.path.join, rfl⟩

/-- A flat older path takes the trap: it stands at no wait, and stays the current one. -/
theorem State.trapped_older {s : State} (hy : s.gang.younger = false) (hf : s.flat) (cause : BitVec 8) (detail : BitVec 16)
    (ls : Mask) (ret : DWord) :
    (s.trapped cause detail ls ret).gang.p0.wait = .none ∧ (s.trapped cause detail ls ret).gang.younger = false := by
  obtain ⟨hstack, hsplit⟩ := hf
  obtain ⟨-, -, hs, hp⟩ := s.gang.atHandler_spec cause detail ls ret
  obtain ⟨j, hj⟩ := Gang.settled_eq (hs.trans hstack) (hp.trans hsplit)
  have hyoung : (s.gang.atHandler cause detail ls ret).younger = false := by
    unfold Gang.atHandler Gang.stepStop Gang.modPath Gang.setPath
    split <;> split <;> exact hy
  have hwait : (s.gang.atHandler cause detail ls ret).path.wait = .none := by
    rw [Gang.atHandler, Gang.modPath, Gang.path_setPath]
  rw [State.trapped_gang, hj]
  obtain ⟨hoff, hp0⟩ := Gang.offWait_setPath hyoung { (s.gang.atHandler cause detail ls ret).path with join := j }
  exact ⟨by rw [hp0]; exact hwait, (congrArg Gang.younger hoff :).trans hyoung⟩

section
variable {s : State} (hy : s.gang.younger = false) (dst : Operand) (wide : Bool) (cycle : Nat)
include hy

/-- With a free handler the timeout enters it (R142). -/
theorem timedOut_handled (hf : s.flat) (htv : s.gang.trapv ≠ 0) (hin : s.gang.inHandler = false)
    (hsh : s.gang.isShadow = false) :
    ∃ t, takeLateTrap (s.timedOut dst wide) (s.timeoutTrap cycle) = .next t ∧ t.clock = s.clock + 1 ∧ t.mem = s.mem
      ∧ t.pc = s.gang.trapv ∧ t.gang.p0.wait = .none ∧ t.gang.trappc = s.gang.p0.pc + 12
      ∧ t.gang.inHandler = true ∧ t.gang.trapc.extractLsb' 0 8 = Trap.mwaitTimeout ∧ t.myWatches = [] := by
  obtain ⟨hkeep, hp0⟩ := s.timedOut_spec hy dst wide
  have htv' : (s.timedOut dst wide).gang.trapv = s.gang.trapv := (congrArg Gang.trapv hkeep :)
  have hin' : (s.timedOut dst wide).gang.inHandler = s.gang.inHandler := (congrArg Gang.inHandler hkeep :)
  have hsh' : (s.timedOut dst wide).gang.isShadow = s.gang.isShadow := (congrArg Gang.isShadow hkeep :)
  have hsplit' : (s.timedOut dst wide).gang.split = s.gang.split := (congrArg Gang.split hkeep :)
  have hyoung : (s.timedOut dst wide).gang.younger = false := (congrArg Gang.younger hkeep :).trans hy
  have hhandler : (s.timedOut dst wide).gang.noHandler = false := by
    rw [Gang.noHandler, htv', hin', hsh', beq_false_of_ne htv, hin, hsh]
    rfl
  have hpath : (s.timedOut dst wide).gang.path = { s.gang.p0.leaves s.gang.p0.pc with wait := .none } := by
    rw [Gang.path, hyoung, ← hp0]
    rfl
  obtain ⟨hstack, hsplit⟩ := hf
  have hstack' : (s.timedOut dst wide).gang.path.stack = [] := by
    rw [hpath, ← hstack, Gang.path, hy]
    rfl
  have hflat : (s.timedOut dst wide).flat := ⟨hstack', hsplit'.trans hsplit⟩
  obtain ⟨hclock, -, -, -, hmem, hpc⟩ :=
    wentOn_trapped (s.timedOut dst wide) Trap.mwaitTimeout 0 s.gang.p0.xm (s.gang.p0.pc + 12)
  obtain ⟨hwait, hyoung'⟩ := State.trapped_older hyoung hflat Trap.mwaitTimeout 0 s.gang.p0.xm (s.gang.p0.pc + 12)
  have hnone := s.myWatches_timedOut hy dst wide
  refine ⟨(s.timedOut dst wide).trapped Trap.mwaitTimeout 0 s.gang.p0.xm (s.gang.p0.pc + 12), ?_, hclock, hmem,
    (hpc hstack' hflat.2).trans htv', hwait, State.trapped_trappc .., ?_, ?_, ?_⟩
  · rw [takeLateTrap, hhandler]
    rfl
  · rw [Gang.inHandler, State.trapped_trapc]
    exact trapcOf_inHandler ..
  · rw [State.trapped_trapc]
    exact trapcOf_cause ..
  · rw [State.myWatches, hyoung] at hnone
    rw [State.myWatches, hyoung']
    exact hnone

/-- Without a handler the timeout is ILLEGAL-OP, with the record of the MWAIT (R114, R344). -/
theorem timedOut_unhandled (htv : s.gang.trapv = 0) : ∃ t f, takeLateTrap (s.timedOut dst wide) (s.timeoutTrap cycle) = .next t
      ∧ t.halt = .asserted ∧ t.faults = s.faults ++ [f] ∧ f.kind = Code.illegalOp ∧ f.acting = s.gang.p0.xm
      ∧ f.pc = s.gang.p0.pc ∧ f.cycle = cycle := by
  have htv' : (s.timedOut dst wide).gang.trapv = 0 := (congrArg Gang.trapv (s.timedOut_spec hy dst wide).1 :).trans htv
  have hhandler : (s.timedOut dst wide).gang.noHandler = true := by
    rw [Gang.noHandler, htv']
    rfl
  refine ⟨_, _, by rw [takeLateTrap, hhandler]; rfl, rfl, rfl, rfl, rfl, rfl, rfl⟩

/-- The state in which the timeout waits for the handler that runs (R143). -/
def State.timeoutHeld (s : State) (dst : Operand) (wide : Bool) (cycle : Nat) : State :=
  (s.timedOut dst wide).modGang fun g =>
    let g1 := { g with traps := g.traps ++ [s.timeoutTrap cycle] }
    if g.handles false then g1.modPath fun p => { p with pc := p.pc + 12 } else g1

/-- While a handler runs the timeout is held (R143). -/
theorem timeoutHeld_spec : (s.timeoutHeld dst wide cycle).clock = s.clock ∧ (s.timeoutHeld dst wide cycle).mem = s.mem
      ∧ (s.timeoutHeld dst wide cycle).gang.traps = s.gang.traps ++ [s.timeoutTrap cycle]
      ∧ (s.timeoutHeld dst wide cycle).gang.p0.wait = .none ∧ (s.timeoutHeld dst wide cycle).gang.trappc = s.gang.trappc
      ∧ (s.timeoutHeld dst wide cycle).gang.trapc = s.gang.trapc ∧ (s.timeoutHeld dst wide cycle).myWatches = [] := by
  obtain ⟨hkeep, hp0⟩ := s.timedOut_spec hy dst wide
  have hnone := s.myWatches_timedOut hy dst wide
  have hyoung : (s.timedOut dst wide).gang.younger = false := (congrArg Gang.younger hkeep :).trans hy
  let g1 : Gang := { (s.timedOut dst wide).gang with traps := (s.timedOut dst wide).gang.traps ++ [s.timeoutTrap cycle] }
  have hgang : (s.timeoutHeld dst wide cycle).gang = if (s.timedOut dst wide).gang.handles false then
      g1.modPath fun p => { p with pc := p.pc + 12 } else g1 := State.modGang_gang ..
  have hoff : (s.timeoutHeld dst wide cycle).gang.offWait = g1.offWait := by
    rw [hgang]
    split
    · exact (Gang.offWait_setPath (g := g1) hyoung _).1
    · rfl
  have hwait : (s.timeoutHeld dst wide cycle).gang.p0.wait = .none := by
    have hg1 : g1.path.wait = .none := by
      have hpath : g1.path = g1.p0 := by rw [Gang.path, if_neg (by rw [hyoung]; exact Bool.false_ne_true)]
      rw [hpath]
      exact congrArg Path.wait hp0
    rw [hgang]
    split
    · rw [Gang.modPath, (Gang.offWait_setPath (g := g1) hyoung _).2]
      exact hg1
    · exact congrArg Path.wait hp0
  have hyoung' : (s.timeoutHeld dst wide cycle).gang.younger = false := (congrArg Gang.younger hoff :).trans hyoung
  refine ⟨rfl, rfl, ?_, hwait, ?_, ?_, ?_⟩
  · exact (congrArg Gang.traps hoff :).trans (congrArg (fun g : Gang => g.traps ++ [s.timeoutTrap cycle]) hkeep :)
  · exact (congrArg Gang.trappc hoff :).trans (congrArg Gang.trappc hkeep :)
  · exact (congrArg Gang.trapc hoff :).trans (congrArg Gang.trapc hkeep :)
  · rw [State.myWatches, hyoung] at hnone
    rw [State.myWatches, hyoung']
    exact hnone

end

/-- The state with the older path of its gang as the current one. -/
def State.older (s : State) : State := s.modGang fun g => { g with younger := false }

theorem State.older_gang {s : State} (hy : s.gang.younger = false) : s.older.gang = s.gang := by
  have hsame : { s.gang with younger := false } = s.gang := (congrArg (fun b => { s.gang with younger := b }) hy.symm :)
  exact (State.modGang_gang ..).trans hsame

/-- The timeout of the older path, once its budget has passed. -/
theorem execMwaitTimeout_older {s : State} {start b cycle : Nat} {dst : Operand} {wide : Bool}
    (hy : s.gang.younger = false) (hw : s.gang.p0.wait = .mwait start (some b) dst wide cycle) (hlate : start + b < s.clock)
    (hall : s.allMet = false) (hres : s.gang.resident = true) (hrun : s.halt = .running) :
    exec (.mwaitTimeout s.cur false) s = if s.gang.inHandler then .next (s.older.timeoutHeld dst wide cycle)
      else takeLateTrap (s.older.timedOut dst wide) (s.older.timeoutTrap cycle) := by
  have hgang := State.older_gang hy
  have hall' : s.older.allMet = false := by
    rw [State.allMet, hgang, ← hall, State.allMet]
    unfold State.myWatches
    rw [hgang]
    rfl
  have hguard : (decide (s.older.clock ≤ start + b) || s.older.allMet || !s.older.gang.resident
      || s.older.halt != .running) = false := by
    have hclock : s.older.clock = s.clock := rfl
    have hhalt : s.older.halt = s.halt := rfl
    simp [hall', hgang, hres, hclock, hhalt, hrun, hlate]
  change execMwaitTimeout s.cur false s = _
  unfold execMwaitTimeout
  have hcur : ({ s with cur := s.cur }.modGang fun g => { g with younger := false }) = s.older := rfl
  have hw' : s.older.gang.p0.wait = .mwait start (some b) dst wide cycle := by rw [hgang]; exact hw
  have hin : s.gang.inHandler = s.older.gang.inHandler := by rw [hgang]
  simp only [hcur, Bool.false_eq_true, if_false, hw', hguard]
  rw [hin]
  rfl

end Sys2Proof.Machine
end

section
open Sys2Proof Sys2Proof.Machine

/-- Settles O37: what stands is `beginMwait`, what goes on is `metAll` (whose path no longer reads afresh once it leaves),
a write at home tests each watch, and the timeout is a late trap of the older path. -/
theorem waitOnMemory : Obligations.WaitOnMemory := by
  refine ⟨?issue, ?again, ?write, mwaitHolds_conditions, ?timeout⟩
  case issue =>
    intro x s u m accs hw wide z b hs stood hi ha
    obtain ⟨hbn, hbs, hbi⟩ := mwaitBudget_cases s x
    have hstood : u.standpoint = s.standpoint → stood (u.beginMwait x m b hs).tick := by
      intro hat
      obtain ⟨hclock, hmem, hpc, hwatches, hwait, hreach, hempty⟩ := beginMwait_stands hat x m b hs
      exact ⟨hclock, hmem, hpc, hwatches, hwait, hreach, hbn, hbs, hbi, hempty⟩
    have hkept : (s.keepAll accs).standpoint = s.standpoint := State.standpoint_of_bare (s.bare_keepAll accs)
    have hset := setWatches_standpoint x.op z (b != some 0) hs (s.keepAll accs)
    refine ⟨fun hu ht hr => ⟨fun hall => ?_, fun hall => ?_⟩, fun hu => ?_⟩
    · refine (execMwait_met hw hi ha hu ht hr hall).trans ?_
      rw [State.metAll, State.myWatches_modPath]
      rfl
    · exact ⟨_, execMwait_unmet hw hi ha hu hall, hstood ((hset _ (by rw [hu]; rfl)).trans hkept)⟩
    · exact ⟨_, execMwait_gated hw hi ha hu, hstood ((hset _ (by rw [hu]; rfl)).trans hkept)⟩
  case again =>
    intro x s u start cycle b dst wide hw
    refine ⟨fun hu ht hr => ⟨fun hall => ?_, fun hall => ?_⟩, fun hu => execMwait_stillGated hw hu⟩
    · refine (execMwait_again hw hu ht hr).trans ?_
      rw [if_pos hall, State.metAll]
    · refine (execMwait_again hw hu ht hr).trans ?_
      rw [if_neg (by rw [hall]; exact Bool.false_ne_true)]
  case write =>
    intro s pa bs w hw ha hm hlo hhi hfit t v
    have htest := State.homeWrite_watch hw ha hm hlo hhi hfit
    refine ⟨fun h => ?_, fun h => ?_⟩
    · rwa [if_pos h] at htest
    · rwa [if_neg (by rw [h]; exact Bool.false_ne_true)] at htest
  case timeout =>
    intro s start b cycle dst wide hy hw hlate hall hres hrun
    have hexec := execMwaitTimeout_older hy hw hlate hall hres hrun
    have hgang := State.older_gang hy
    have hy' : s.older.gang.younger = false := by rw [hgang]; exact hy
    refine ⟨fun hf htv hin hsh => ?_, fun htv hin => ?_, fun hin => ?_⟩
    · have hflat : s.older.flat := by rw [State.flat, hgang]; exact hf
      have h := timedOut_handled hy' dst wide cycle hflat (by rw [hgang]; exact htv) (by rw [hgang]; exact hin)
        (by rw [hgang]; exact hsh)
      rw [hgang] at h
      rw [hexec, if_neg (by rw [hin]; exact Bool.false_ne_true)]
      exact h
    · have h := timedOut_unhandled hy' dst wide cycle (by rw [hgang]; exact htv)
      rw [hgang] at h
      rw [hexec, if_neg (by rw [hin]; exact Bool.false_ne_true)]
      exact h
    · obtain ⟨hclock, hmem, htraps, hwait, htrappc, htrapc, hnone⟩ := timeoutHeld_spec hy' dst wide cycle
      rw [hgang] at htraps htrappc htrapc
      refine ⟨s.older.timeoutHeld dst wide cycle, s.older.timeoutTrap cycle, by rw [hexec, if_pos hin], hclock, hmem, htraps,
        rfl, ?_, hwait, htrappc, htrapc, hnone⟩
      rw [State.timeoutTrap, hgang]
end

section
namespace Sys2Proof.Machine
open Sys2Proof

/-! The canonical form of memory under every operation (R131, log 4): what an operation does to memory it does through
the home slice, whose writes keep the form. First the operations that all words share. -/

/-- The next state of an answer, where it has one, has a canonical memory. -/
structure MemOk (r : Result) : Prop where
  wf : ∀ t, r = .next t → t.mem.wf = true

@[simp] theorem memOk_next (t : State) : MemOk (.next t) ↔ t.mem.wf = true :=
  ⟨fun h => h.wf t rfl, fun h => ⟨fun _ e => Host.Outcome.next.inj e ▸ h⟩⟩

@[simp] theorem memOk_fault (r : Fault) : MemOk (.fault r) := ⟨fun _ e => nomatch e⟩
@[simp] theorem memOk_refused (r : Refusal) : MemOk (.refused r) := ⟨fun _ e => nomatch e⟩

theorem memOk_ite {c : Prop} [Decidable c] {a b : Result} (ha : MemOk a) (hb : MemOk b) : MemOk (if c then a else b) := by
  split <;> assumption

/-- A fold of operations that keep the canonical form keeps it. -/
theorem State.foldl_wf {α : Type} {f : State → α → State} (xs : List α) {s : State}
    (hf : ∀ s x, s.mem.wf = true → (f s x).mem.wf = true) (hm : s.mem.wf = true) : (xs.foldl f s).mem.wf = true :=
  mem_foldl (fun m => m.wf = true) f xs s hf hm

@[simp] theorem State.modGang_mem (s : State) (f : Gang → Gang) : (s.modGang f).mem = s.mem := rfl
@[simp] theorem State.modPath_mem (s : State) (f : Path → Path) : (s.modPath f).mem = s.mem := rfl
@[simp] theorem State.advance_mem (s : State) (h : Header) : (s.advance h).mem = s.mem := State.leave_mem ..

section
variable {s : State} (hm : s.mem.wf = true)
include hm

theorem raiseFault_wf (k : BitVec 8) (a o : Mask) (d : DWord) : MemOk (raiseFault s k a o d) := (memOk_next _).2 hm
theorem illegal_wf (m : Mask) : MemOk (illegal s m) := raiseFault_wf hm ..
theorem protect_wf (m : Mask) : MemOk (protect s m) := raiseFault_wf hm ..

theorem takeTrap_wf (cause : BitVec 8) (detail : BitVec 16) (ls a o : Mask) (ret : DWord) :
    MemOk (takeTrap s cause detail ls a o ret) := by
  unfold takeTrap; split
  · exact raiseFault_wf hm ..
  · exact (memOk_next _).2 hm

theorem takeLateTrap_wf (t : TrapReq) : MemOk (takeLateTrap s t) := by
  unfold takeLateTrap; split <;> exact (memOk_next _).2 hm

theorem trapReturn_wf (h : Header) : MemOk (trapReturn s h) := by
  unfold trapReturn; simp only; split
  · simpa using hm
  · exact illegal_wf hm _

theorem advance_wf (h : Header) : MemOk (.next (s.advance h)) := by simpa using hm

/-- The order of issue keeps the form where the page's effect does. -/
theorem issueActs_wf {h : Header} {a : Acts} {legal : Bool} {dsts : List (Operand × Bool)} {srcs : Mask → List Src}
    {act : Mask → Result} (hact : ∀ m, MemOk (act m)) : MemOk (issueActs s h a legal dsts srcs act) := by
  rcases issueActs_cases (s := s) (h := h) (a := a) (legal := legal) (dsts := dsts) (srcs := srcs) (act := act) with
    ⟨-, e⟩ | ⟨m, e⟩ | e | ⟨x, m, -, -, -, -, ls, e⟩ | ⟨m, -, e⟩ <;> rw [e]
  · exact advance_wf hm h
  · exact illegal_wf hm m
  · exact (memOk_next _).2 hm
  · exact takeTrap_wf hm ..
  · exact hact m

theorem issue_wf {h : Header} {c : WordClass} {legal : Bool} {dsts : List (Operand × Bool)} {srcs : Mask → List Src}
    {act : Mask → Result} (hact : ∀ m, MemOk (act m)) : MemOk (issue s h c legal dsts srcs act) := issueActs_wf hm hact

/-- A word that writes registers only, once it issues. -/
theorem issue_next_wf {h : Header} {c : WordClass} {legal : Bool} {dsts : List (Operand × Bool)} {srcs : Mask → List Src}
    (f : Mask → Gang → Gang) :
    MemOk (issue s h c legal dsts srcs fun m => .next ((s.modGang (f m)).advance h)) :=
  issue_wf hm fun m => by simpa using hm

omit hm in
theorem widen_wf {t : State} (h : Header) (l : Nat) (ht : t.mem.wf = true) : (s.widen h l t).mem.wf = true := by
  unfold State.widen; split <;> exact ht

theorem perTask_wf {h : Header} {one : Bool} {f : State → Result} (hf : ∀ u, u.mem.wf = true → MemOk (f u)) :
    MemOk (perTask h one f s) := by
  unfold perTask; simp only; split
  · exact hf s hm
  · split
    · exact advance_wf hm h
    · split
      · have hu := hf (s.modGang fun g => g.task g.lanes.lowest) hm
        split
        next t e => rw [e, memOk_next] at hu; simp only [memOk_next]; split <;> simp [hu, hm]
        next => exact hu
      · have hu := hf (s.narrow (s.xm &&& s.gang.lanes &&& ~~~s.gang.path.acted).lowest) hm
        split
        next t e => rw [e, memOk_next] at hu; exact (memOk_next _).2 (widen_wf h _ hu)
        next => exact hu

theorem alu_wf (x : RRR) (n : Nat) (fields : Bool) (f : Nat → DWord → DWord → DWord → DWord) :
    MemOk (alu s x n fields f) := issue_next_wf hm _
theorem aluImm_wf (x : RI) (fields : Bool) (f : Nat → DWord → DWord → DWord) : MemOk (aluImm s x fields f) :=
  issue_next_wf hm _
theorem falu_wf (x : RRR) (n : Nat) (fields : Bool) (f : Nat → ExactNum → ExactNum → ExactNum → ExactNum) :
    MemOk (falu s x n fields f) := issue_wf hm fun m => by simpa using hm

end

end Sys2Proof.Machine
end


section
namespace Sys2Proof.Machine
open Sys2Proof

/-! Order logs, traces and the gate (R58 to R60, R126, R158, R160) under the canonical form. -/

@[simp] theorem State.leaveCellar_mem (s : State) (g : Gang) : (s.leaveCellar g).mem = s.mem := by
  unfold State.leaveCellar; split <;> rfl

@[simp] theorem traceCompare_mem (s : State) (g : Gang) (old new : List (Nat × Nat × List Byte)) :
    (traceCompare s g old new).mem = s.mem :=
  mem_foldl_eq _ _ _ fun _ _ => by simp only; split <;> rfl

@[simp] theorem State.dropWatches_mem (s : State) : s.dropWatches.mem = s.mem := rfl
@[simp] theorem State.remeet_mem (s : State) : s.remeet.mem = s.mem := rfl
@[simp] theorem State.setDone_mem (s : State) (done : List (Nat × DWord)) : (s.setDone done).mem = s.mem := rfl

@[simp] theorem State.logErrors_mem (s : State) (bad : List Nat) :
    (bad.foldl (fun s b => s.logError b) s).mem = s.mem := mem_foldl_eq _ _ _ fun _ _ => rfl

theorem State.ite_wf {c : Prop} [Decidable c] {t u : State} (ht : t.mem.wf = true) (hu : u.mem.wf = true) :
    (if c then t else u).mem.wf = true := by split <;> assumption

/-- The states of what a traced access meets have canonical memories. -/
@[simp] def Traced.MemOk : Traced → Prop
  | .ok s => s.mem.wf = true
  | .wait | .fault _ _ => True

/-- The states of what a gate answers have. -/
@[simp] def Gate.MemOk : Gate → Prop
  | .ok s | .held s => s.mem.wf = true
  | .diverged => True

/-- The states that strong lanes leave have. -/
@[simp] def StrongOut.MemOk : StrongOut → Prop
  | .ok s | .held s | .fault s _ _ => s.mem.wf = true

section
variable {s : State} (hm : s.mem.wf = true)
include hm

theorem State.writeLog_wf (n area : Nat) (l : OrderLog) : (s.writeLog n area l).mem.wf = true :=
  State.foldl_wf _ (fun s _ h => State.homeWrite_wf s _ _ h) (State.homeWrite_wf _ _ _ (State.homeWrite_wf _ _ _ hm))

theorem State.writeLogs_wf : s.writeLogs.mem.wf = true := by
  unfold State.writeLogs
  generalize s.ctx.logBase.toNat + 4096 = area
  suffices h : ∀ (logs : List (Nat × OrderLog)) (acc : State × Nat), acc.1.mem.wf = true →
      (logs.foldl (fun acc e => (acc.1.writeLog e.1 acc.2 e.2, acc.2 + e.2.body s.sliceCount)) acc).1.mem.wf = true from
    h _ (s, area) hm
  intro logs
  induction logs with
  | nil => exact fun _ h => h
  | cons e logs ih => exact fun acc h => ih _ (State.writeLog_wf h ..)

theorem State.setLogOf_wf (n : Nat) (l : OrderLog) : (s.setLogOf n l).mem.wf = true :=
  State.writeLogs_wf (s := s.putLog n l) hm

theorem State.dropMember_wf (g : Gang) : (s.dropMember g).mem.wf = true := by
  unfold State.dropMember; simp only; split
  · exact hm
  · exact State.setLogOf_wf hm ..

theorem State.dropTasks_wf (dead : List Nat) : (s.dropTasks dead).mem.wf = true :=
  State.foldl_wf dead (fun s a h => by rw [State.leaveCellar_mem]; exact State.dropMember_wf h _) hm

theorem State.abandon_wf (t : Nat) : (s.abandon t).mem.wf = true := by
  unfold State.abandon
  extract_lets new flip lost waits
  split
  extract_lets u tr tr1
  exact show u.mem.wf = true from State.dropTasks_wf (State.foldl_wf (f := fun s a => s.dropParked a) _ (fun _ _ h => h) hm) _

theorem State.checkLimit_wf (t : Nat) : (s.checkLimit t).mem.wf = true := by
  unfold State.checkLimit; split
  · exact State.abandon_wf hm t
  · exact hm

theorem State.addRecord_wf (t f : Nat) (r : Record) : (s.addRecord t f r).mem.wf = true :=
  State.checkLimit_wf (s := s.modTraceOf t _) hm t

theorem traceReads_memOk (g : Gang) (gs : List (Nat × Nat)) : (traceReads s g gs).MemOk := by
  induction gs generalizing s with
  | nil => exact hm
  | cons e gs ih =>
    unfold traceReads; simp only
    split
    · exact hm
    · split
      · trivial
      · split
        · trivial
        · split
          · exact ih hm
          · exact ih (State.addRecord_wf hm ..)

theorem traceWrites_memOk (g : Gang) (gs : List (Nat × Nat)) : (traceWrites s g gs).MemOk := by
  induction gs generalizing s with
  | nil => exact hm
  | cons e gs ih =>
    unfold traceWrites; simp only
    split
    · exact hm
    · split
      · trivial
      · split
        · exact ih hm
        · exact ih (s := State.modTraceOf _ _ _) (State.addRecord_wf hm ..)

theorem traceReads_wf {g : Gang} {gs : List (Nat × Nat)} {u : State} (h : traceReads s g gs = .ok u) : u.mem.wf = true := by
  have := traceReads_memOk hm g gs
  rwa [h] at this

theorem traceWrites_wf {g : Gang} {gs : List (Nat × Nat)} {u : State} (h : traceWrites s g gs = .ok u) : u.mem.wf = true := by
  have := traceWrites_memOk hm g gs
  rwa [h] at this

theorem State.gateAs_memOk (me : Nat × Bool) (pa : Nat) : (s.gateAs me pa).MemOk := by
  unfold State.gateAs; simp only
  split
  · exact hm
  · split
    · exact State.setLogOf_wf (s := s.modGang _) hm ..
    · split
      · trivial
      · split
        · split <;> exact hm
        · split <;> exact hm
    · exact hm

theorem State.gate_memOk (pa : Nat) : (s.gate pa).MemOk := State.gateAs_memOk hm ..

theorem raiseLanes_wf (m : Mask) (e : LaneFault) : Machine.MemOk (raiseLanes s m e) :=
  raiseFault_wf (s := e.bad.foldl _ s) (by simpa using hm) ..

theorem State.expelAll_wf (spc : Space) (accs : List LaneAcc) : (s.expelAll spc accs).mem.wf = true := by
  unfold State.expelAll; split
  · exact State.foldl_wf _ (fun s p h => State.expel_wf s _ _ _ _ h) hm
  · exact hm

/-! Ordinary accesses and labels (R332 to R338, R347, R348). -/

theorem loadAct_wf (x : MFmt) (spc : Space) (n : Nat) (m : Mask) : Machine.MemOk (loadAct s x spc n m) := by
  unfold loadAct; simp only
  split
  · exact raiseLanes_wf hm ..
  · split
    · exact (memOk_next _).2 hm
    · exact raiseFault_wf hm ..
    next u h =>
      have hu := traceReads_wf hm h
      have hread (accs : List LaneAcc) : (if s.gang.path.reread then (u.keepAll accs).expelAll spc accs
          else u.keepAll accs).mem.wf = true := by
        split
        · exact State.expelAll_wf (by simpa using hu) ..
        · simpa using hu
      simp only [memOk_next, State.advance_mem, State.modGang_mem]
      split <;> simpa using hread _

theorem storeAct_wf (x : MFmt) (spc : Space) (n : Nat) (m : Mask) : Machine.MemOk (storeAct s x spc n m) := by
  unfold storeAct; simp only
  split
  · exact raiseLanes_wf hm ..
  · split
    · exact raiseLanes_wf hm ..
    · split
      · exact (memOk_next _).2 hm
      · exact raiseFault_wf hm ..
      next u h =>
        have hu := traceWrites_wf hm h
        simp only [memOk_next, State.advance_mem]
        split <;> split <;> simpa using hu

theorem execPref_wf (x : MFmt) : Machine.MemOk (execPref x s) :=
  issue_wf hm fun m => by
    rw [memOk_next, State.advance_mem]
    refine State.foldl_wf _ (fun u l hu => ?_) hm
    split
    · exact hu
    · refine State.foldl_wf _ (fun u p hu => ?_) hu
      simp only; split
      · split <;> simpa using hu
      · simpa using hu

theorem execLdlbl_wf (x : MFmt) : Machine.MemOk (execLdlbl x s) :=
  issue_wf hm fun m => by
    split
    · exact raiseLanes_wf hm ..
    · simp only [memOk_next, State.advance_mem, State.modGang_mem, State.count_mem]
      refine State.foldl_wf _ (fun u a hu => State.foldl_wf _ (fun u p hu => ?_) hu) (by simpa using hm)
      split <;> simpa using hu

theorem State.setLabelAt_wf (spc : Space) (p : Piece) (lab : Label) : (s.setLabelAt spc p lab).mem.wf = true := by
  unfold State.setLabelAt; simp only; split
  · exact hm
  · exact State.homeLabelWrite_wf _ _ _ _ (State.expel_wf s s.gang.carrel (p.pa / 64 * 64) 64 false hm)

theorem execStlbl_wf (x : MFmt) : Machine.MemOk (execStlbl x s) :=
  issue_wf hm fun m => by
    simp only
    split
    · exact raiseLanes_wf hm ..
    · split
      · exact raiseLanes_wf hm ..
      · rw [memOk_next, State.advance_mem]
        exact State.foldl_wf _ (fun u a hu => State.foldl_wf _ (fun u p hu => State.setLabelAt_wf hu ..) hu)
          (by simpa using hm)

/-! Strong accesses (R339 to R346). -/

theorem strongLaneAs_memOk (me : Nat × Bool) (fo : Nat → Nat) (acc : LaneAcc) (z : Nat) (atom : Option Nat) (f : StrongFn) :
    (strongLaneAs me fo s acc z atom f).MemOk := by
  unfold strongLaneAs
  extract_lets u src g p l
  have hu : u.mem.wf = true := hm
  split
  · exact hu
  · have hgate := State.gateAs_memOk hu me p.pa
    split
    next h => rw [h] at hgate; exact hgate
    · exact hu
    next v h =>
      rw [h] at hgate
      split
      · split
        · split
          · exact State.addRecord_wf hgate ..
          · exact hu
        · exact hu
      · extract_lets v2 old new v3 v4
        have h2 : v2.mem.wf = true := State.expel_wf _ _ _ _ _ hgate
        have h3 : v3.mem.wf = true := by
          simp only [v3, new]; split
          · exact State.homeWrite_wf _ _ _ h2
          · exact h2
        have h4 : v4.mem.wf = true := by simp only [v4]; split <;> simpa using h3
        exact State.ite_wf (State.addRecord_wf h4 ..) h4

theorem strongLanesAs_memOk (me : Nat × Bool) (fo : Nat → Nat) (z : Nat) (atom : Option Nat) (f : StrongFn)
    (accs : List LaneAcc) : (strongLanesAs me fo s z atom f accs).MemOk := by
  induction accs generalizing s with
  | nil => exact hm
  | cons a accs ih =>
    have hlane := strongLaneAs_memOk hm me fo a z atom f
    unfold strongLanesAs; split
    · exact ih hm
    · split
      next h => rw [h] at hlane; exact ih hlane
      · exact hlane

theorem strongLanes_memOk (z : Nat) (atom : Option Nat) (f : StrongFn) (accs : List LaneAcc) :
    (strongLanes s z atom f accs).MemOk := strongLanesAs_memOk hm ..

theorem State.holdAccess_wf (x : MSFmt) (kind : StrongKind) (v n : Nat → Nat) (reads : Bool) (m : Mask)
    (accs : List LaneAcc) (due : Nat) : (s.holdAccess x kind v n reads m accs due).mem.wf = true := by
  simpa [State.holdAccess] using hm

theorem strongAct_wf (x : MSFmt) (need : Need) (kind : StrongKind) (v n : Nat → Nat) (reads : Bool) (m : Mask) :
    Machine.MemOk (strongAct s x need kind v n reads m) := by
  unfold strongAct
  extract_lets g z atom f
  split
  · exact raiseLanes_wf hm ..
  next accs _ =>
    extract_lets gs
    have hreads : (if need.read then traceReads s g gs else .ok s).MemOk := by
      split
      · exact traceReads_memOk hm ..
      · exact hm
    split
    · exact (memOk_next _).2 hm
    · exact raiseFault_wf hm ..
    next u h =>
      rw [h] at hreads
      have hwrites : (if need.write then traceWrites u g gs else .ok u).MemOk := by
        split
        · exact traceWrites_memOk hreads ..
        · exact hreads
      split
      · exact (memOk_next _).2 hm
      · exact raiseFault_wf hm ..
      next u2 h =>
        rw [h] at hwrites
        extract_lets u3 u4
        have h4 : u4.mem.wf = true := by
          simp only [u4, u3]; split
          · exact State.release_wf _ _ _ (by simpa using hwrites)
          · simpa using hwrites
        split
        · split
          next u5 h =>
            have h5 : (StrongOut.held u5).MemOk := h ▸ strongLanes_memOk h4 ..
            exact (memOk_next _).2 (State.holdAccess_wf (s := u5.chosen) h5 ..)
          next u5 h =>
            have h5 : (StrongOut.ok u5).MemOk := h ▸ strongLanes_memOk h4 ..
            exact (memOk_next _).2 (State.holdAccess_wf (s := u5.chosen) h5 ..)
          next u5 k l h =>
            have h5 : (StrongOut.fault u5 k l).MemOk := h ▸ strongLanes_memOk h4 ..
            exact raiseFault_wf h5 ..
        · split
          next u5 h =>
            have h5 : (StrongOut.held u5).MemOk := h ▸ strongLanes_memOk h4 ..
            exact (memOk_next _).2 (State.holdAccess_wf h5 ..)
          next u5 k l h =>
            have h5 : (StrongOut.fault u5 k l).MemOk := h ▸ strongLanes_memOk h4 ..
            exact raiseFault_wf h5 ..
          next u5 h =>
            have h5 : u5.mem.wf = true := show (StrongOut.ok u5).MemOk from h ▸ strongLanes_memOk h4 ..
            simp only [memOk_next, State.advance_mem, State.modGang_mem]
            split <;> simpa using h5

theorem setWatches_memOk (cond : BitVec 5) (z : Nat) (armed : Bool) (hs : List HeldLane) :
    (setWatches s cond z armed hs).MemOk := by
  induction hs generalizing s with
  | nil => exact hm
  | cons a hs ih =>
    unfold setWatches
    extract_lets u g
    have hu : u.mem.wf = true := hm
    split
    · exact ih hu
    · split
      · exact hu
      · have hgate := State.gate_memOk hu a.pa
        split
        next h => rw [h] at hgate; exact hgate
        · exact hu
        next h => rw [h] at hgate; exact ih (State.expel_wf _ g.carrel (a.pa / 8 * 8) 8 true hgate)

theorem mwaitFault_wf (k : BitVec 8) (acting offending : Mask) : Machine.MemOk (mwaitFault s k acting offending) :=
  (memOk_next _).2 hm

theorem mwaitComplete_wf (x : MSFmt) : Machine.MemOk (mwaitComplete s x) := by
  unfold mwaitComplete
  extract_lets g
  split
  · exact (memOk_next _).2 hm
  · exact mwaitFault_wf hm ..
  next u h =>
    have hu := traceReads_wf hm h
    extract_lets u2
    have h2 : u2.mem.wf = true := by simp only [u2]; split <;> exact hu
    split
    · simpa using h2
    · simpa using hm

theorem State.beginMwait_wf (x : MSFmt) (m : Mask) (b : Option Nat) (hs : List HeldLane) :
    (s.beginMwait x m b hs).mem.wf = true := by simpa [State.beginMwait] using hm

theorem execMwait_wf (x : MSFmt) : Machine.MemOk (execMwait x s) := by
  unfold execMwait
  extract_lets g wide z legal
  split
  next b _ _ _ _ =>
    have hset := setWatches_memOk hm x.op z (b != some 0) g.path.reach
    split
    next h => rw [h] at hset; exact (memOk_next _).2 hset
    next h => rw [h] at hset; exact mwaitFault_wf hset ..
    next h =>
      rw [h] at hset
      split
      · exact mwaitComplete_wf hset x
      · exact (memOk_next _).2 hset
  next =>
    refine issue_wf hm fun m => ?_
    split
    · exact raiseLanes_wf hm ..
    next accs _ =>
      extract_lets hs
      have hset (b : Bool) := setWatches_memOk (s := s.keepAll accs) (by simpa using hm) x.op z b hs
      split
      next u h =>
        have hu : (StrongOut.held u).MemOk := h ▸ hset _
        rw [memOk_next, State.tick_mem]
        exact State.beginMwait_wf hu ..
      next u k l h =>
        have hu : (StrongOut.fault u k l).MemOk := h ▸ hset _
        exact raiseFault_wf hu ..
      next u h =>
        have hu : (StrongOut.ok u).MemOk := h ▸ hset _
        extract_lets u2
        split
        · have hdone := mwaitComplete_wf (s := u2) hu x
          split
          next h =>
            rw [h, memOk_next] at hdone
            split
            · exact (memOk_next _).2 (State.beginMwait_wf hdone ..)
            · exact (memOk_next _).2 hdone
          · exact hdone
        · rw [memOk_next, State.tick_mem]
          exact State.beginMwait_wf hu ..

theorem execMwaitTimeout_wf (n : Nat) (younger : Bool) : Machine.MemOk (execMwaitTimeout n younger s) := by
  unfold execMwaitTimeout
  extract_lets u g ws
  have hu : u.mem.wf = true := hm
  split
  · exact memOk_refused _
  · split
    · split
      · exact memOk_refused _
      · extract_lets unmet u1 t
        split
        · exact (memOk_next _).2 hu
        · exact takeLateTrap_wf (s := u1) hu t
    · exact memOk_refused _

theorem State.heldTrap_wf {r : Result} (h : s.heldTrap = some r) : Machine.MemOk r := by
  unfold State.heldTrap at h
  extract_lets g at h
  split at h
  · split at h
    · cases h
    · cases h; exact takeLateTrap_wf (s := s.modGang _) hm _
  · cases h

omit hm in
@[simp] theorem State.land_mem (s : State) (f : Flight) : (s.land f).mem = s.mem := by
  unfold State.land; split <;> rfl

theorem State.requestFault_wf (f : Flight) (e : LaneFault) : (s.requestFault f e).mem.wf = true := by
  simpa [State.requestFault] using hm

theorem State.takeHeld_wf {i : Nat} {f : Flight} {h0 : HeldAcc} {t : State} (h : s.takeHeld i f h0 = some t) :
    t.mem.wf = true := by
  unfold State.takeHeld at h
  split at h
  · cases h; exact State.requestFault_wf hm ..
  next acc _ =>
    extract_lets was fo news land left keep at h
    have hkeep (u : State) (hu : u.mem.wf = true) : (keep u).mem.wf = true := by simpa [keep, land] using hu
    have hlanes := strongLanesAs_memOk (s := s.setDone acc.done) hm (s.cur, f.younger) fo acc.width acc.kind.code acc.fn acc.accs
    split at h
    next hl =>
      rw [hl] at hlanes
      split at h
      · cases h
      · cases h; exact hkeep _ hlanes
    next hl => rw [hl] at hlanes; cases h; exact hkeep _ hlanes
    next u hl =>
      rw [hl] at hlanes
      extract_lets t1 t2 at h
      have h1 : t1.mem.wf = true := by simp only [t1]; split <;> simpa using hlanes
      cases h
      simpa [land, t2] using h1

/-! Barriers and moves (R284, R349 to R352). -/

theorem State.arrive_wf {level id : Nat} {n : Option Nat} {u : State} {token : Word}
    (h : s.arrive level id n = some (u, token)) : u.mem.wf = true := by
  have hset (t : State) (b : Barrier) : (t.setBarrier level id b).mem = t.mem := by
    unfold State.setBarrier; split <;> rfl
  unfold State.arrive at h
  extract_lets u1 b k at h
  split at h
  · cases h
  · cases h; rw [hset]; exact State.release_wf _ _ _ hm

theorem execBara_wf (x : RRR) : Machine.MemOk (execBara x s) :=
  issue_wf hm fun m => by
    split
    · exact protect_wf hm m
    · split
      · exact protect_wf hm m
      next h => simpa using State.arrive_wf hm h

theorem execBarw_wf (x : RRR) : Machine.MemOk (execBarw x s) :=
  issue_wf hm fun m => by
    simp only
    split
    · exact protect_wf hm m
    · split
      · exact (memOk_next _).2 hm
      · simpa using hm

theorem execBar_wf (x : RRR) : Machine.MemOk (execBar x s) := by
  unfold execBar
  extract_lets level legal
  split
  · split
    · exact (memOk_next _).2 hm
    · simpa using hm
  · refine issue_wf hm fun m => ?_
    split
    · exact protect_wf hm m
    · split
      · exact protect_wf hm m
      next h =>
        have hu := State.arrive_wf hm h
        split <;> simpa using hu

theorem movAct_wf (x : RRR) : Machine.MemOk (movAct x s) :=
  issue_wf hm fun m => by
    simp only
    split
    case h_5 => exact illegal_wf hm m
    all_goals simpa using hm

theorem execMov_wf (x : RRR) : Machine.MemOk (execMov x s) := by
  unfold execMov; split
  · exact perTask_wf hm fun _ hu => movAct_wf hu x
  · exact movAct_wf hm x

theorem execMovi_wf (x : RI) : Machine.MemOk (execMovi x s) :=
  issue_wf hm fun m => by simp only; split <;> simpa using hm

theorem replaymAct_wf (x : RRR) : Machine.MemOk (replaymAct x s) := by
  unfold replaymAct
  refine issue_wf hm fun m => ?_
  extract_lets g v n l root
  have hset (n : Nat) (l : OrderLog) (f : Gang → Gang) :
      Machine.MemOk (.next (((s.setLogOf n l).modGang f).advance x.hdr)) := by
    simpa using State.setLogOf_wf hm n l
  split
  · exact illegal_wf hm m
  · split
    · split
      · simpa using hm
      · split
        · exact raiseFault_wf hm ..
        · exact hset ..
      · split
        · exact raiseFault_wf hm ..
        · exact hset ..
    · split
      · exact hset ..
      · exact illegal_wf hm m

theorem execReplaymWrite_wf (x : RRR) : Machine.MemOk (execReplaymWrite x s) :=
  perTask_wf hm fun _ hu => replaymAct_wf hu x

end

end Sys2Proof.Machine
end

section
namespace Sys2Proof.Machine
open Sys2Proof

/-! Futures, frames, shelves and parking (R34 to R45, R208 to R210) under the canonical form. -/

@[simp] theorem State.giveHandle_mem (s : State) (d : Operand) (k : Nat) : (s.giveHandle d k).mem = s.mem := by
  unfold State.giveHandle; split <;> rfl

@[simp] theorem State.sweepSlots_mem (s : State) : s.sweepSlots.mem = s.mem := rfl
@[simp] theorem State.modFrameOf_mem (s : State) (k : Nat) (f : Frame → Frame) : (s.modFrameOf k f).mem = s.mem := rfl
@[simp] theorem State.setGang_mem (s : State) (g : Gang) : (s.setGang g).mem = s.mem := rfl
@[simp] theorem State.deskFault_mem (s : State) (pa : Nat) : (s.deskFault pa).mem = s.mem := rfl

@[simp] theorem State.enter_mem (s : State) (n : Nat) (team : Option Nat) (b : Bool) (v : DWord) :
    (s.enter n team b v).mem = s.mem := rfl

@[simp] theorem State.freeFrame_mem (s : State) (f : Nat) : (s.freeFrame f).mem = s.mem := by
  unfold State.freeFrame; split <;> rfl

@[simp] theorem State.freeKid_mem (s : State) (k : Kid) : (s.freeKid k).mem = s.mem := by
  unfold State.freeKid; simp only; split
  · exact State.freeFrame_mem ..
  · rfl

@[simp] theorem State.freeKids_mem (s : State) (ks : List Kid) : (ks.foldl (fun s k => s.freeKid k) s).mem = s.mem :=
  mem_foldl_eq _ _ _ fun _ _ => State.freeKid_mem ..

@[simp] theorem State.sweepFrames_mem (s : State) : s.sweepFrames.mem = s.mem :=
  mem_foldl_eq _ _ _ fun _ _ => by split <;> simp

@[simp] theorem State.vacate_mem (s : State) (n : Nat) : (s.vacate n).mem = s.mem := by
  unfold State.vacate; simp only; split <;> rfl

@[simp] theorem State.endShadow_mem (s : State) (g : Gang) : (s.endShadow g).mem = s.mem := by
  unfold State.endShadow; split <;> rfl

section
variable {s : State} (hm : s.mem.wf = true)
include hm

/-- The context is not the memory. -/
theorem State.withCtx_wf (c : Context) : ({ s with ctx := c } : State).mem.wf = true := hm

theorem State.modGang_wf (f : Gang → Gang) : (s.modGang f).mem.wf = true := hm
theorem State.modFrameOf_wf (k : Nat) (f : Frame → Frame) : (s.modFrameOf k f).mem.wf = true := hm
theorem State.modCarrelOf_wf (k : Nat) (f : Carrel → Carrel) : (s.modCarrelOf k f).mem.wf = true := hm
theorem State.modTraceOf_wf (k : Nat) (f : Trace → Trace) : (s.modTraceOf k f).mem.wf = true := hm
theorem State.setTraceOf_wf (k : Nat) (t : Trace) : (s.setTraceOf k t).mem.wf = true := hm
theorem State.modSlotOf_wf (k : Nat) (f : Slot → Slot) : (s.modSlotOf k f).mem.wf = true := hm
theorem State.modShelfOf_wf (k : Nat) (f : Shelf → Shelf) : (s.modShelfOf k f).mem.wf = true := hm
theorem State.setJobOf_wf (k : Nat) (x : Job) : (s.setJobOf k x).mem.wf = true := hm
theorem State.setGangOf_wf (k : Nat) (g : Gang) : (s.setGangOf k g).mem.wf = true := hm

theorem State.deskWrite_wf (va : Nat) (bs : List Byte) : (s.deskWrite va bs).mem.wf = true := by
  unfold State.deskWrite
  extract_lets put n
  have hput (s : State) (va : Nat) (bs : List Byte) (h : s.mem.wf = true) : (put s va bs).mem.wf = true := by
    simp only [put]; split
    · exact State.homeWrite_wf _ _ _ h
    · exact h
  exact State.ite_wf (hput _ _ _ hm) (hput _ _ _ (hput _ _ _ hm))

theorem State.writeRing_wf (n : Nat) : (s.writeRing n).mem.wf = true := by
  unfold State.writeRing
  rw [State.useFree_mem]
  refine State.foldl_wf _ (fun u i h => ?_) (State.deskWrite_wf (State.deskWrite_wf hm ..) ..)
  split
  · exact State.deskWrite_wf h ..
  · exact h

theorem State.touch_wf (wing n : Nat) : (s.touch wing n).mem.wf = true := by
  unfold State.touch
  extract_lets key order here old s1
  have h1 : s1.mem.wf = true := hm
  split
  · exact hm
  · split
    · exact h1
    · split
      next k _ =>
        extract_lets s2
        change s2.mem.wf = true
        exact State.writeRing_wf h1 _
      · exact h1

theorem State.touchBy_wf (c n : Nat) : (s.touchBy c n).mem.wf = true := by
  unfold State.touchBy; simp only
  have htouch : (s.touch (c / Config.carrelsPerWing) n).mem.wf = true := State.touch_wf hm ..
  exact State.ite_wf htouch (by simpa using htouch)

theorem State.writeImage_wf (a : Nat) : (s.writeImage a).mem.wf = true := by
  unfold State.writeImage; split
  · exact State.deskWrite_wf hm ..
  · exact hm

theorem State.park_wf (bm : BitVec 256) (resume : DWord) (g : Gang) : (s.park bm resume g).mem.wf = true := by
  unfold State.park
  extract_lets me f fr units s1 s2
  have h2 : s2.mem.wf = true := State.release_wf _ _ _ hm
  split
  · extract_lets s3
    exact State.writeImage_wf (State.withCtx_wf (s := s3) (by simpa [s3] using h2) _) f
  · rw [State.setGang_mem]
    exact State.ite_wf (by simpa using h2) h2

theorem State.wakeOne_wf (f : Nat) (g : Gang) : (s.wakeOne f g).1.mem.wf = true := by
  unfold State.wakeOne
  extract_lets fr p captures s1 g1 s2 s3
  have h2 : s2.mem.wf = true :=
    State.ite_wf (State.checkLimit_wf (State.modTraceOf_wf hm ..) _) hm
  change (s3.enter _ _ _ _).mem.wf = true
  rw [State.enter_mem]
  exact State.touch_wf (State.modFrameOf_wf h2 ..) ..

theorem State.wake_wf : s.wake.mem.wf = true := by
  unfold State.wake
  extract_lets waiting s1
  have h1 : s1.mem.wf = true := by
    refine State.foldl_wf _ (fun u f h => ?_) hm
    split
    · split
      · extract_lets r
        have hr : r.1.mem.wf = true := State.wakeOne_wf h ..
        split
        · exact hr
        · exact hr
      · exact h
    · exact h
  refine State.foldl_wf _ (fun u n h => ?_) h1
  extract_lets g
  split
  · exact State.wakeOne_wf h ..
  · exact h

theorem State.writeFuture_wf (key : Nat) (v : DWord) : (s.writeFuture key v).mem.wf = true := by
  rw [State.writeFuture, State.sweepSlots_mem]
  exact State.wake_wf (State.modSlotOf_wf hm ..)

theorem State.complete_wf (key : Nat) (v : DWord) : (s.complete key v).mem.wf = true := by
  rw [State.complete, State.sweepSlots_mem]
  exact State.wake_wf (State.modSlotOf_wf hm ..)

theorem State.deschedule_wf (resume : DWord) (p : Pend) : (s.deschedule resume p).mem.wf = true := by
  have h1 : (s.park (bitmapAll s.gang.regs) resume (s.wholeGang resume p)).mem.wf = true := State.park_wf hm ..
  unfold State.deschedule
  simp only []
  generalize s.park (bitmapAll s.gang.regs) resume (s.wholeGang resume p) = s1 at h1 ⊢
  exact State.ite_wf hm (State.ite_wf (State.wake_wf (State.withCtx_wf h1 _)) (State.wake_wf h1))

theorem State.awaitRoom_wf (n : Nat) : (s.awaitRoom n).mem.wf = true := State.deschedule_wf hm ..

theorem State.takeEntry_wf (n i : Nat) : (s.takeEntry n i).mem.wf = true :=
  State.wake_wf (State.modShelfOf_wf hm ..)

theorem State.seat_wf {n : Nat} {t : State} (h : s.seat n = some t) : t.mem.wf = true := by
  unfold State.seat at h
  split at h
  · split at h
    · cases h; exact hm
    · cases h
  · obtain ⟨g, -, rfl⟩ := Option.map_eq_some_iff.1 h
    exact hm

theorem State.unseat_wf : s.unseat.mem.wf = true := by
  unfold State.unseat; split
  · exact hm
  · exact State.wake_wf (State.writeImage_wf (State.withCtx_wf hm _) _)

theorem State.returnFault_wf {f : Flight} {t : State} (h : s.returnFault f = some t) : t.mem.wf = true := by
  unfold State.returnFault at h
  split at h
  · cases h
  · obtain ⟨e, -, rfl⟩ := Option.map_eq_some_iff.1 h
    simpa using hm

theorem execLoadReturn_wf (gn n : Nat) : Machine.MemOk (execLoadReturn gn n s) := by
  unfold execLoadReturn
  split
  · exact memOk_refused _
  next u hseat =>
    have hu := State.seat_wf hm hseat
    split
    · exact memOk_refused _
    next f _ =>
      extract_lets early
      split
      · exact memOk_refused _
      · split
        · split
          next h => exact (memOk_next _).2 (State.unseat_wf (State.takeHeld_wf hu h))
          · exact memOk_refused _
        · split
          next h => exact (memOk_next _).2 (State.unseat_wf (State.returnFault_wf hu h))
          · exact (memOk_next _).2 (State.unseat_wf (by simpa using hu))

end

end Sys2Proof.Machine
end

section
namespace Sys2Proof.Machine
open Sys2Proof

/-! Traces, propagations, the end of a task and of a job (R27, R36, R39, R55, R60, R61, R77, R79, R199, R200) under the
canonical form. -/

@[simp] theorem State.rootValue_mem (s : State) (t : Nat) (v : DWord) : (s.rootValue t v).mem = s.mem := rfl
@[simp] theorem State.kidEnds_mem (s : State) (f : Nat) (v : DWord) (c : Nat) : (s.kidEnds f v c).mem = s.mem := rfl
@[simp] theorem State.restFrame_mem (s : State) (a : Nat) : (s.restFrame a).mem = s.mem := rfl

@[simp] theorem State.renewEntry_mem (s : State) (t g f : Nat) (v : DWord) (c : Nat) : (s.renewEntry t g f v c).mem = s.mem := by
  unfold State.renewEntry
  extract_lets x
  split
  · rfl
  · extract_lets p g1 im1 s1
    split
    · split <;> rfl
    · rfl

@[simp] theorem State.returnChanged_mem (s : State) (t t0 : Nat) (v : DWord) (c : Nat) :
    (s.returnChanged t t0 v c).mem = s.mem := by
  unfold State.returnChanged
  extract_lets x next started s1
  have h1 : s1.mem = s.mem := State.renewEntry_mem ..
  split
  · rfl
  · split
    · rfl
    · split
      · rfl
      · split <;> exact h1

@[simp] theorem State.releaseTrace_mem (s : State) (t : Nat) : (s.releaseTrace t).mem = s.mem :=
  mem_foldl_eq _ _ _ fun _ _ => State.freeFrame_mem ..

@[simp] theorem State.dropIfDue_mem (s : State) (t : Nat) : (s.dropIfDue t).mem = s.mem := by
  unfold State.dropIfDue; simp only; split
  · exact State.releaseTrace_mem ..
  · rfl

@[simp] theorem State.countDown_mem (s : State) (f : Nat) : (s.countDown f).mem = s.mem :=
  mem_foldl_eq _ _ _ fun _ _ => rfl

section
variable {s : State} (hm : s.mem.wf = true)
include hm

theorem State.revoke_wf (t root : Nat) : (s.revoke t root).mem.wf = true := by
  unfold State.revoke
  extract_lets tr ids running gs freed waits
  split
  refine State.dropTasks_wf (State.foldl_wf (f := fun s a => s.dropParked a) _ (fun _ _ h => h) ?_) _
  exact hm

theorem State.retireRun_wf (t f : Nat) : (s.retireRun t f).mem.wf = true := by
  unfold State.retireRun
  extract_lets x meets gone s1 now lost unmade freed
  split
  · exact State.revoke_wf hm ..
  · exact State.foldl_wf (f := fun s (e : Nat × Folio) => s.revoke t e.1) _ (fun _ _ h => State.revoke_wf h ..) hm

theorem State.retireExit_wf (t f : Nat) (v : DWord) (c : Nat) : (s.retireExit t f v c).mem.wf = true := by
  unfold State.retireExit
  extract_lets x last s1 s2
  split
  · exact hm
  · have h2 : s2.mem.wf = true := State.ite_wf hm (State.revoke_wf hm ..)
    split
    · exact h2
    · simpa using h2

theorem State.nextFolio_wf (t f : Nat) (resume : DWord) (running : Bool) : (s.nextFolio t f resume running).1.mem.wf = true := by
  unfold State.nextFolio; simp only; split
  · exact hm
  · exact State.checkLimit_wf (State.setTraceOf_wf hm ..) t

theorem State.completes_wf (keys : List Nat) (v : DWord) : (keys.foldl (fun s k => s.complete k v) s).mem.wf = true :=
  State.foldl_wf _ (fun _ _ h => State.complete_wf h ..) hm

theorem State.settleProp_wf (t : Nat) : (s.settleProp t).mem.wf = true := by
  unfold State.settleProp
  extract_lets tr gone s1
  split
  · exact hm
  · split
    · rw [State.dropIfDue_mem]
      exact State.completes_wf (State.abandon_wf (State.setTraceOf_wf hm ..) t) ..
    · split
      · split
        · rw [State.dropIfDue_mem]
          exact State.complete_wf (State.setTraceOf_wf hm ..) ..
        · exact hm
      · exact hm

theorem State.rootEnds_wf (f : Nat) (v : DWord) : (s.rootEnds f v).mem.wf = true := by
  unfold State.rootEnds
  refine State.foldl_wf _ (fun u e h => ?_) hm
  extract_lets tr tr1 s1 s2
  have h2 : s2.mem.wf = true := State.wake_wf (s := s1) h
  split
  · rw [State.dropIfDue_mem]
    split
    · exact State.complete_wf h2 ..
    · exact h2
  · exact h

theorem State.compareEntry_wf (k : Nat) (g : Gang) : (s.compareEntry k g).mem.wf = true := by
  unfold State.compareEntry
  extract_lets p new old s1 s2
  have h1 : s1.mem.wf = true := by
    unfold s1
    clear_value p
    rw [State.useFree_mem]
    split <;> exact hm
  have h2 : s2.mem.wf = true := State.ite_wf h1 h1
  exact State.settleProp_wf (State.checkLimit_wf (State.withCtx_wf h2 _) _) _

theorem State.compareEntries_wf : s.compareEntries.mem.wf = true := by
  unfold State.compareEntries
  refine State.foldl_wf _ (fun u k h => ?_) hm
  split
  · exact State.ite_wf (State.compareEntry_wf h ..) h
  · exact h

theorem State.completed_wf (key : Nat) (v : DWord) : (s.completed key v).mem.wf = true :=
  State.compareEntries_wf (State.complete_wf hm ..)

theorem State.taskEnds_wf (f : Nat) (v : DWord) (c : Nat) : (s.taskEnds f v c).mem.wf = true := by
  unfold State.taskEnds
  extract_lets s1 s2 launches old s3 s4 fr
  have h1 : s1.mem.wf = true := by rw [State.countDown_mem]; exact hm
  have h2 : s2.mem.wf = true := by rw [State.kidEnds_mem]; exact State.modFrameOf_wf h1 ..
  have h3 : s3.mem.wf = true := State.withCtx_wf h2 _
  clear_value s3
  have h4 : s4.mem.wf = true := by
    unfold s4
    rw [State.sweepSlots_mem, State.sweepFrames_mem]
    exact State.compareEntries_wf (State.wake_wf (State.rootEnds_wf h3 ..))
  exact State.ite_wf (by simpa using h4) h4

theorem State.leaveSession_wf (g : Gang) : (s.leaveSession g).mem.wf = true := by
  unfold State.leaveSession
  extract_lets n l
  exact State.ite_wf (State.dropMember_wf (s := s.putLog n _) hm g) (State.dropMember_wf hm g)

theorem State.discardTask_wf : s.discardTask.mem.wf = true := by
  unfold State.discardTask
  simp only [State.restFrame_mem, State.vacate_mem, State.leaveCellar_mem]
  exact State.dropMember_wf hm _

theorem State.endTask_wf (v : DWord) : (s.endTask v).mem.wf = true := by
  unfold State.endTask
  extract_lets g f s1
  have h1 : s1.mem.wf = true := by
    simp only [s1, State.vacate_mem, State.leaveCellar_mem]
    exact State.leaveSession_wf (State.release_wf _ _ _ hm) g
  clear_value s1
  have hrun := State.retireRun_wf h1 g.trace g.folio
  have hexit := State.retireExit_wf hrun g.trace g.folio v g.carrel
  split
  · exact State.taskEnds_wf h1 ..
  · exact h1
  · exact State.taskEnds_wf (State.modTraceOf_wf hrun ..) ..
  · exact State.settleProp_wf (State.taskEnds_wf hexit ..) _
  · exact State.settleProp_wf (State.compareEntries_wf (State.wake_wf (by rw [State.restFrame_mem]; exact hexit))) _

theorem State.parkSegment_wf (bm : BitVec 256) (resume : DWord) (p : Pend) : (s.parkSegment bm resume p).mem.wf = true := by
  unfold State.parkSegment
  extract_lets g im next r mode rn s0 s1 follower rx sx s2 waits s3 old
  have hnext (u : State) (h : u.mem.wf = true) : (next u).mem.wf = true :=
    State.settleProp_wf (State.compareEntries_wf (State.wake_wf h)) _
  have hfolio (u : State) (h : u.mem.wf = true) (running : Bool) :
      (u.nextFolio g.trace g.folio resume running).1.mem.wf = true := State.nextFolio_wf h ..
  have hrun := State.retireRun_wf hm g.trace g.folio
  have h0 : s0.mem.wf = true := State.release_wf _ _ _ hm
  have h1 : s1.mem.wf = true := State.retireRun_wf h0 ..
  have hr : r.1.mem.wf = true := hfolio _ hrun _
  have hrn : rn.1.mem.wf = true := hfolio _ hrun _
  have hrx : rx.1.mem.wf = true := hfolio _ h1 _
  have h2 : s2.mem.wf = true := State.modFrameOf_wf (State.discardTask_wf h1) ..
  have h3 : s3.mem.wf = true := State.ite_wf (State.modTraceOf_wf h2 ..) h2
  have hx : sx.mem.wf = true := State.park_wf hrx ..
  clear_value next s3 sx rx rn r
  split
  · exact State.wake_wf (State.park_wf hm ..)
  · exact State.discardTask_wf hm
  · exact State.wake_wf (State.park_wf hr ..)
  · split
    · exact hnext _ (State.retireRun_wf (State.discardTask_wf hm) ..)
    · split
      · exact hnext _ (State.discardTask_wf hrn)
      · exact hnext _ (State.park_wf hrn ..)
  · split
    · exact hnext _ (State.retireRun_wf (State.discardTask_wf h0) ..)
    · split
      · split
        · exact hnext _ (State.discardTask_wf hrx)
        · exact hnext _ (State.modFrameOf_wf hx ..)
      · exact hnext _ (State.withCtx_wf h3 _)

/-! Jobs. -/

theorem State.appendJob_wf (x : Job) : (s.appendJob x).mem.wf = true := by
  unfold State.appendJob
  extract_lets r at_ s1 claims s2 s3
  have h1 : s1.mem.wf = true := State.deskWrite_wf (State.deskWrite_wf hm ..) ..
  exact State.ite_wf (State.modCarrelOf_wf h1 ..) h1

theorem State.completionWord_wf (va v : DWord) : (s.completionWord va v).mem.wf = true :=
  State.ite_wf hm (State.deskWrite_wf hm ..)

theorem State.endJob_wf (j : Nat) (v : DWord) (credit : Option Nat) : (s.endJob j v credit).mem.wf = true := by
  unfold State.endJob
  extract_lets x s1 s2 s3 old s4 s5
  have h1 : s1.mem.wf = true := by
    unfold s1; split
    · exact State.ite_wf (State.modCarrelOf_wf hm ..) hm
    · exact hm
  have h2 : s2.mem.wf = true := State.ite_wf (State.modCarrelOf_wf h1 ..) h1
  have h4 : s4.mem.wf = true := State.withCtx_wf (State.completionWord_wf h2 ..) _
  clear_value s4
  have h5 : s5.mem.wf = true := by
    unfold s5; split
    · exact State.completed_wf h4 ..
    · exact h4
  split
  · exact State.compareEntries_wf (State.writeFuture_wf h5 ..)
  · exact h5

theorem State.stopJob_wf (j : Nat) : (s.stopJob j).mem.wf = true := by
  unfold State.stopJob
  extract_lets x code s1 s2
  have h1 : s1.mem.wf = true := State.modCarrelOf_wf hm ..
  have h2 : s2.mem.wf = true := State.endJob_wf h1 ..
  split
  · exact h2
  · split
    · exact hm
    · split
      · exact State.ite_wf h2 (State.setJobOf_wf h2 ..)
      · split
        · exact State.setJobOf_wf hm ..
        · exact State.setJobOf_wf h1 ..

theorem State.cancelJob_wf (key : Nat) : (s.cancelJob key).mem.wf = true := by
  unfold State.cancelJob; split
  · exact hm
  · split
    · extract_lets x
      exact State.ite_wf hm (State.stopJob_wf (State.modSlotOf_wf hm ..) _)
    · exact hm

end

end Sys2Proof.Machine
end

section
namespace Sys2Proof.Machine
open Sys2Proof

/-! Words of arithmetic, moves, lanes, control, tiles and the system page under the canonical form: they write registers,
the carrel or the path, and no memory but the spill area of a split. -/

@[simp] theorem State.depart_mem (s : State) (h : Header) (a b : Bool) (f : Gang → Gang) : (s.depart h a b f).mem = s.mem :=
  State.issuedOne_mem s

section
variable {s : State} (hm : s.mem.wf = true)
include hm

/-- A word that goes on to the next one once it has acted. -/
theorem advanced_wf {h : Header} {t : State} (ht : t.mem = s.mem) : MemOk (.next (t.advance h)) :=
  (memOk_next _).2 (by rw [State.advance_mem, ht]; exact hm)

theorem execVote_wf (x : RRR) : MemOk (execVote x s) :=
  issue_wf hm fun m => by
    extract_lets b res num
    split <;> exact advanced_wf hm rfl

theorem execPtld_wf (x : RRR) : MemOk (execPtld x s) :=
  issue_wf hm fun m => by
    extract_lets a sec bs p
    split
    · exact raiseFault_wf hm ..
    · split
      · exact raiseFault_wf hm ..
      · exact advanced_wf hm rfl

/-! Control. -/

theorem branchTo_wf (h : Header) (c : WordClass) (m : Mask) (target : DWord) (link : Gang → Gang) :
    MemOk (branchTo s h c m target link) := by
  unfold branchTo
  split
  · exact (memOk_next _).2 (by simpa using hm)
  · split
    · exact illegal_wf hm m
    · exact (memOk_next _).2 (by simpa using hm)

theorem branchReg_wf (x : RRR) : MemOk (branchReg x s) :=
  issue_wf hm fun m => by
    extract_lets t
    split
    · exact illegal_wf hm m
    · split
      · exact raiseFault_wf hm ..
      · exact branchTo_wf hm ..

theorem execRwait_wf (x : RRR) : MemOk (execRwait x s) :=
  issue_wf hm fun m => by
    extract_lets g p b
    split
    · exact advanced_wf hm rfl
    · split
      · split
        · split
          · exact (memOk_next _).2 (by simpa using hm)
          · exact advance_wf hm _
        · exact advance_wf hm _
        · exact (memOk_next _).2 (by simpa using hm)
      · exact advance_wf hm _

theorem execRwaitBudgetExpiry_wf (n : Nat) : MemOk (execRwaitBudgetExpiry n s) := by
  unfold execRwaitBudgetExpiry
  extract_lets g
  split
  · split
    · exact (memOk_next _).2 hm
    · exact memOk_refused _
  · exact memOk_refused _

theorem execBrk_wf (x : RRR) : MemOk (execBrk x s) :=
  issue_wf hm fun m => by
    extract_lets n
    split
    · exact illegal_wf hm m
    · exact (memOk_next _).2 (by simpa using hm)

theorem execDispatch_wf (x : BFmt) : MemOk (execDispatch x s) :=
  issue_wf hm fun m => by
    extract_lets g off sec inside bs
    split
    · exact illegal_wf hm m
    · split
      · exact raiseFault_wf hm ..
      · split
        · exact raiseFault_wf hm ..
        · split
          · exact advance_wf hm _
          · exact (memOk_next _).2 (by simpa using hm)

theorem State.spill_wf (old : List Region) : (s.spill old).mem.wf = true := by
  unfold State.spill
  extract_lets g deep f base first s1
  refine State.ite_wf hm (State.foldl_wf _ (fun u i h => ?_) (State.modFrameOf_wf hm ..))
  split
  · exact State.ite_wf h (State.homeWrite_wf _ _ _ h)
  · exact h

/-! Tiles. -/

theorem enterSeq_wf (h : Header) (x : TileOp) : MemOk (enterSeq s h x) := by
  unfold enterSeq
  extract_lets g y
  split
  · exact (memOk_next _).2 hm
  · exact advanced_wf hm rfl

theorem execTcfg_wf (x : RRR) : MemOk (execTcfg x s) :=
  issue_wf hm fun m => by
    extract_lets f c
    split
    · exact illegal_wf hm m
    · exact advanced_wf hm rfl

theorem matmul_wf (x : EFmt) (kind : TileOpKind) (rsv : Bool) (ok : Desc → Desc → Bool) : MemOk (matmul x s kind rsv ok) :=
  issue_wf hm fun m => by
    extract_lets dA dB
    split
    · exact illegal_wf hm m
    · split
      · exact protect_wf hm m
      · exact enterSeq_wf hm ..

theorem execAld_wf (x : EFmt) : MemOk (execAld x s) :=
  issue_wf hm fun m => by
    extract_lets dA
    split
    · exact illegal_wf hm m
    · split
      · exact protect_wf hm m
      · exact enterSeq_wf hm ..

theorem execAst_wf (x : EFmt) : MemOk (execAst x s) :=
  issue_wf hm fun m => by
    extract_lets dA d
    split
    · exact illegal_wf hm m
    · split
      · exact protect_wf hm m
      · exact enterSeq_wf hm ..

theorem execSequencerStep_wf (carrel : Nat) : MemOk (execSequencerStep carrel s) := by
  unfold execSequencerStep
  extract_lets c
  split
  · exact memOk_refused _
  · split
    · exact memOk_refused _
    · extract_lets y
      split
      · exact (memOk_next _).2 hm
      · split
        · exact (memOk_next _).2 hm
        · rw [memOk_next, State.followDone]
          exact State.ite_wf hm hm

theorem execDrainTileRead_wf (carrel : Nat) : MemOk (execDrainTileRead carrel s) := by
  unfold execDrainTileRead
  extract_lets c
  split
  · split
    · exact memOk_refused _
    · exact (memOk_next _).2 hm
  · exact memOk_refused _

theorem xformTask_wf (x : EFmt) (inverse : Bool) : MemOk (xformTask x inverse s) :=
  issue_wf hm fun m => by
    extract_lets src dst
    split
    · exact illegal_wf hm m
    · split
      · exact protect_wf hm m
      · split
        · exact (memOk_next _).2 hm
        · split
          · exact (memOk_next _).2 hm
          · exact (memOk_next _).2 (by rw [State.advance_mem, State.giveHandle_mem]; exact hm)

theorem execXuStep_wf (carrel : Nat) : MemOk (execXuStep carrel s) := by
  unfold execXuStep
  extract_lets c
  split
  · exact memOk_refused _
  · extract_lets x
    split
    · exact memOk_refused _
    · split
      · exact (memOk_next _).2 hm
      · split
        · exact (memOk_next _).2 hm
        · split
          · exact (memOk_next _).2 hm
          · exact (memOk_next _).2 (State.endJob_wf (s := s.setCarrelOf _ _) hm ..)

/-! The system page. -/

theorem execInstructionFetchFault_wf (kind : FetchFault) (addr : DWord) : MemOk (execInstructionFetchFault kind addr s) := by
  unfold execInstructionFetchFault
  extract_lets code
  split
  · split
    · exact raiseFault_wf hm ..
    · exact memOk_refused _
  · exact memOk_refused _

theorem execUnassignedOpcode_wf (raw : IWord) : MemOk (execUnassignedOpcode raw s) := by
  unfold execUnassignedOpcode
  extract_lets h
  split
  · exact advance_wf hm _
  · exact illegal_wf hm _
  · exact illegal_wf hm _

theorem execSysw_wf (x : RI) : MemOk (execSysw x s) :=
  issue_wf hm fun m => by
    split
    · exact protect_wf hm m
    · split
      · exact (memOk_next _).2 hm
      · exact advanced_wf hm rfl

theorem execPmselWrite_wf (x : RI) : MemOk (execPmselWrite x s) :=
  issue_wf hm fun m => by
    extract_lets v
    split
    · exact (memOk_next _).2 hm
    · exact advanced_wf hm rfl

theorem execTrap_wf (x : RI) : MemOk (execTrap x s) :=
  issue_wf hm fun m => by
    split
    · exact illegal_wf hm m
    · exact takeTrap_wf (by simpa using hm) ..

theorem execTret_wf (x : RRR) : MemOk (execTret x s) := issue_wf hm fun _ => trapReturn_wf hm _

theorem execPhint_wf (x : BFmt) : MemOk (execPhint x s) :=
  issue_wf hm fun m => by
    split
    · exact advance_wf hm _
    · extract_lets sec r bm
      split
      · exact illegal_wf hm m
      · split
        · exact raiseFault_wf hm ..
        · split
          · exact raiseFault_wf hm ..
          · split
            · exact advance_wf hm _
            · split
              · exact (memOk_next _).2 hm
              · exact (memOk_next _).2 ((State.issuedOne_mem s).symm ▸ hm : s.issuedOne.mem.wf = true)

theorem execBkpt_wf (x : RRR) : MemOk (execBkpt x s) :=
  issue_wf hm fun m => by
    extract_lets code s1
    split
    · exact (memOk_next _).2 (by rw [State.modGang_mem, State.advance_mem]; exact hm)
    · exact advance_wf hm _

theorem execGangResume_wf (n : Nat) : MemOk (execGangResume n s) := by
  unfold execGangResume
  split
  · split
    · exact (memOk_next _).2 hm
    · exact memOk_refused _
  · exact memOk_refused _

theorem execSingleStep_wf (n : Nat) : MemOk (execSingleStep n s) := by
  unfold execSingleStep
  split
  · split
    · exact (memOk_next _).2 hm
    · exact memOk_refused _
  · exact memOk_refused _

end

end Sys2Proof.Machine
end

section
namespace Sys2Proof.Machine
open Sys2Proof

/-! Spawns, AWAIT and the shelf instructions (R30 to R45, R309 to R321) under the canonical form. -/

@[simp] theorem State.launchS_mem (s : State) (d : Operand) (v : DWord) : (s.launchS d v).mem = s.mem := rfl
@[simp] theorem State.putFrame_mem (s : State) (f : Frame) : (s.putFrame f).1.mem = s.mem := rfl
@[simp] theorem State.chosen_mem (s : State) : s.chosen.mem = s.mem := rfl

@[simp] theorem State.markInPlace_mem (s : State) (y : Slot) : (s.markInPlace y).mem = s.mem := by
  unfold State.markInPlace
  extract_lets g mine
  split <;> rfl

@[simp] theorem State.bindEntries_mem (s : State) (n : Nat) : (s.bindEntries n).mem = s.mem :=
  mem_foldl_eq _ _ _ fun _ _ => by
    split
    · split <;> rfl
    · rfl

section
variable {s : State} (hm : s.mem.wf = true)
include hm

theorem State.useFree_wf : s.useFree.mem.wf = true := hm
theorem State.openSlot_wf (k : Nat) (x : Slot) : (s.openSlot k x).mem.wf = true := hm
theorem State.setShelfOf_wf (k : Nat) (x : Shelf) : (s.setShelfOf k x).mem.wf = true := hm

/-! Spawning. -/

theorem State.sessionFolio_wf (g : Gang) (ordinal : Word) (entry : DWord) : (s.sessionFolio g ordinal entry).1.mem.wf = true := by
  unfold State.sessionFolio
  extract_lets n l new hit
  split
  · exact hm
  · split
    · split <;> exact State.setLogOf_wf hm ..
    · split <;> exact State.setLogOf_wf hm ..

theorem State.spawnChild_wf {r : Spawn} {site : Nat} {c : Child} {t : State} {k : Kid} {a : Option Nat}
    (h : s.spawnChild r site c = some (t, k, a)) : t.mem.wf = true := by
  unfold State.spawnChild at h
  extract_lets g ordinal dig tr below old new frame0 put mode folio0 at h
  have hput (u : State) (f : Frame) (hu : u.mem.wf = true) : (put u f).mem.wf = true := hu
  have hfolio := State.sessionFolio_wf hm g ordinal r.entry
  clear_value old put
  split at h
  · cases h
    exact hm
  · split at h
    next s1 rf hs =>
      rw [hs] at hfolio
      extract_lets f kid at h
      split at h
      · split at h
        · cases h
        · extract_lets y at h
          split at h
          extract_lets t2 s2 s3 at h
          simp only [Option.some.injEq, Prod.mk.injEq] at h
          obtain ⟨rfl, -, -⟩ := h
          have h2 : s2.mem.wf = true := hput _ _ (State.setTraceOf_wf hfolio ..)
          exact State.checkLimit_wf (State.modTraceOf_wf h2 ..) _
      · simp only [Option.some.injEq, Prod.mk.injEq] at h
        obtain ⟨rfl, -, -⟩ := h
        exact hput _ _ hfolio

theorem State.spawnAll_wf {r : Spawn} {site : Nat} {cs : List Child} {t : State} {ks : List Kid} {as : List Nat}
    (h : s.spawnAll r site cs = some (t, ks, as)) : t.mem.wf = true := by
  induction cs generalizing s ks as with
  | nil => cases h; exact hm
  | cons c cs ih =>
    unfold State.spawnAll at h
    split at h
    · cases h
    next s1 k a hc =>
      have h1 := State.spawnChild_wf hm hc
      split at h
      · cases h
      next s2 ks2 as2 hrest =>
        cases h
        exact ih h1 hrest

theorem State.enterAll_wf (carrel : Nat) (ps : List Put) : (s.enterAll carrel ps).1.mem.wf = true := by
  induction ps generalizing s with
  | nil => exact hm
  | cons p ps ih =>
    unfold State.enterAll
    split
    · exact hm
    · exact ih (by rw [State.enter_mem]; exact State.touchBy_wf hm ..)

theorem State.spawnDone_wf (h : Header) (shelf : Nat) (deep : Bool) : (s.spawnDone h shelf deep).mem.wf = true := by
  unfold State.spawnDone
  extract_lets s1
  have h1 : s1.mem.wf = true := by rw [State.advance_mem]; exact hm
  exact State.ite_wf (State.deschedule_wf (State.modShelfOf_wf h1 ..) ..) h1

theorem State.enterMore_wf (h : Header) (shelf : Nat) (younger deep : Bool) :
    (s.enterMore h shelf younger deep).mem.wf = true := by
  unfold State.enterMore
  extract_lets g r s1
  have h1 : s1.mem.wf = true := State.modGang_wf (State.enterAll_wf hm ..) _
  exact State.ite_wf hm (State.ite_wf (State.spawnDone_wf h1 ..) h1)

/-- What a spawn does once its children are in their frames. -/
theorem spawned_wf {x : GFmt} {shelf key : Nat} {deep : Bool} (rest : List Put) (f : Gang → Gang) :
    MemOk (if rest.isEmpty then .next (((s.modGang f).giveHandle x.hdr.d key).spawnDone x.hdr shelf deep)
      else .next (((s.modGang f).giveHandle x.hdr.d key).modGang fun g =>
        { g with pend := .entering key g.younger deep }).hold) := by
  have h1 : ((s.modGang f).giveHandle x.hdr.d key).mem.wf = true := by rw [State.giveHandle_mem]; exact hm
  split
  · exact (memOk_next _).2 (State.spawnDone_wf h1 ..)
  · exact (memOk_next _).2 h1

theorem spawnAct_wf (x : GFmt) (r : Spawn) (kind : SpawnKind) (cs : List Child) : MemOk (spawnAct s x r kind cs) := by
  unfold spawnAct
  extract_lets g wing deep unused
  split
  · exact (memOk_next _).2 (State.awaitRoom_wf hm _)
  · split
    · exact (memOk_next _).2 hm
    next s1 kids frames hall =>
      have h1 := State.spawnAll_wf hm hall
      split
      · exact (memOk_next _).2 (State.awaitRoom_wf hm _)
      · extract_lets s1c s2 s3 e s4 s5
        have h1c : s1c.mem.wf = true := State.ite_wf (by rw [State.chosen_mem]; exact h1) h1
        have h3 : s3.mem.wf = true := State.modFrameOf_wf (State.openSlot_wf (State.release_wf _ _ _ h1c) ..) ..
        exact spawned_wf (s := e.1) (State.enterAll_wf h3 ..) e.2 _

theorem spawnIssue_wf {x : GFmt} {go : Result} (h : MemOk go) : MemOk (spawnIssue s x go) := by
  unfold spawnIssue
  split
  · exact (memOk_next _).2 (State.enterMore_wf hm ..)
  · exact h

theorem spawnTask_wf (x : GFmt) : MemOk (spawnTask x s) := by
  unfold spawnTask
  extract_lets g first n legal args
  refine spawnIssue_wf hm (issueActs_wf hm fun m => ?_)
  split
  · exact protect_wf hm m
  · exact spawnAct_wf hm ..

theorem spawngTask_wf (x : GFmt) : MemOk (spawngTask x s) := by
  unfold spawngTask
  extract_lets g
  refine spawnIssue_wf hm (issue_wf hm fun m => ?_)
  split
  · exact protect_wf hm m
  · exact spawnAct_wf hm ..

theorem spawnvTask_wf (x : GFmt) : MemOk (spawnvTask x s) := by
  unfold spawnvTask
  extract_lets g first legal rs srcs
  refine spawnIssue_wf hm (issue_wf hm fun m => ?_)
  split
  · exact illegal_wf hm m
  · split
    · exact protect_wf hm m
    · exact spawnAct_wf hm ..

theorem State.newTrace_wf (t root key : Nat) : (s.newTrace t root key).mem.wf = true := by
  unfold State.newTrace
  refine State.ite_wf hm (State.checkLimit_wf ?_ t)
  exact hm

theorem trecordTask_wf (x : GFmt) : MemOk (trecordTask x s) := by
  unfold trecordTask
  extract_lets g
  refine spawnIssue_wf hm (issue_wf hm fun m => ?_)
  split
  · exact protect_wf hm m
  · split
    · exact protect_wf hm m
    · exact (memOk_next _).2 (State.awaitRoom_wf hm _)
    · split
      · exact (memOk_next _).2 (State.awaitRoom_wf hm _)
      · extract_lets r deep
        split
        next s1 kid root hc =>
          have h1 := State.spawnChild_wf hm hc
          extract_lets s2 s3 e s4 s5
          have h3 : s3.mem.wf = true :=
            State.modFrameOf_wf (State.openSlot_wf (State.release_wf _ _ _ (State.newTrace_wf h1 ..)) ..) ..
          exact spawned_wf (s := e.1) (State.enterAll_wf h3 ..) e.2 _
        · exact (memOk_next _).2 hm

/-! EXIT, QEND, RETV, CANCEL. -/

theorem endNow_wf (m : Mask) (ret : DWord) : MemOk (endNow s m ret) := by
  unfold endNow
  extract_lets g
  split
  · exact (memOk_next _).2 hm
  · split
    · exact raiseFault_wf hm ..
    · exact (memOk_next _).2 (by rw [State.tick_mem]; exact State.endTask_wf (by simpa using hm) _)

theorem exitTask_wf (x : RRR) : MemOk (exitTask x s) :=
  issue_wf hm fun m => by
    extract_lets g
    split
    · exact endNow_wf hm ..
    · exact (memOk_next _).2 (by simpa using hm)

theorem execQend_wf (x : RRR) : MemOk (execQend x s) :=
  issue_wf hm fun m => by
    extract_lets s1
    split
    · exact (memOk_next _).2 hm
    · rw [memOk_next, State.tick_mem]
      exact State.withCtx_wf (s := s.issuedOne) (by simpa using hm) _

theorem retvTask_wf (x : RRR) : MemOk (retvTask x s) := issue_wf hm fun _ => advanced_wf hm rfl

theorem State.removeChild_wf (f : Nat) : (s.removeChild f).mem.wf = true := by
  unfold State.removeChild
  extract_lets s1 s2
  have h1 : s1.mem.wf = true := State.dropTasks_wf hm _
  have h2 : s2.mem.wf = true := by rw [State.freeFrame_mem, State.kidEnds_mem, State.countDown_mem]; exact h1
  rw [State.sweepSlots_mem]
  exact State.compareEntries_wf (State.wake_wf h2)

theorem State.cancelChild_wf (k : Nat × Nat) : (s.cancelChild k).1.mem.wf = true := by
  unfold State.cancelChild
  split
  · exact hm
  · split
    · exact hm
    · split
      · exact hm
      · exact State.removeChild_wf hm _
      · exact hm

theorem State.cancelKids_wf (ks : List (Nat × Nat)) : (s.cancelKids ks).1.mem.wf = true := by
  unfold State.cancelKids
  suffices h : ∀ acc : State × Bool, acc.1.mem.wf = true → (ks.foldl (fun acc k =>
      let r := acc.1.cancelChild k; (r.1, acc.2 || r.2)) acc).1.mem.wf = true from h (s, false) hm
  induction ks with
  | nil => exact fun _ h => h
  | cons k ks ih => exact fun acc h => ih _ (State.cancelChild_wf h k)

theorem State.cancelProp_wf (t key : Nat) : (s.cancelProp t key).mem.wf = true := by
  unfold State.cancelProp
  extract_lets tr s1 active s2
  have h1 : s1.mem.wf = true := State.modSlotOf_wf hm ..
  have h2 : s2.mem.wf = true := State.abandon_wf (State.setTraceOf_wf h1 ..) t
  refine State.ite_wf hm (State.ite_wf (State.settleProp_wf (State.setTraceOf_wf h1 ..) t) ?_)
  rw [State.dropIfDue_mem]
  exact State.completed_wf h2 ..

theorem cancelTask_wf (x : RRR) : MemOk (cancelTask x s) :=
  issue_wf hm fun m => by
    split
    · exact protect_wf hm m
    next key y _ =>
      split
      · extract_lets traced r s1
        have hr : r.1.mem.wf = true := State.cancelKids_wf hm _
        have h1 : s1.mem.wf = true := State.ite_wf (State.modSlotOf_wf hr ..) hr
        split
        · exact protect_wf hm m
        · exact advance_wf h1 _
      · exact advance_wf (State.cancelJob_wf hm key) _
      · exact advance_wf (State.cancelProp_wf hm ..) _
      · exact protect_wf hm m

/-! AWAIT and AWAITA. -/

theorem State.consume_wf (key : Nat) : (s.consume key).mem.wf = true := by
  unfold State.consume
  extract_lets x s1 s2
  have h2 : s2.mem.wf = true := State.ite_wf (by rw [State.freeKids_mem]; exact State.modSlotOf_wf hm ..) (State.modSlotOf_wf hm ..)
  rw [State.sweepSlots_mem]
  exact State.compareEntries_wf (State.wake_wf h2)

theorem futLost_wf {s1 : State} (h1 : s1.mem.wf = true) (x : BFmt) (m : Mask) (reg : Nat) (next : DWord) :
    MemOk (futLost s s1 x m reg next) := by
  unfold futLost
  extract_lets g t
  split
  · exact illegal_wf hm m
  · split
    · exact advanced_wf h1 rfl
    · exact takeTrap_wf h1 ..

theorem awaitDone_wf (x : BFmt) (m : Mask) (key : Nat) (y : Slot) (reg : Nat) : MemOk (awaitDone s x m key y reg) := by
  unfold awaitDone
  extract_lets u g s1
  have hu : u.mem.wf = true := by rw [State.markInPlace_mem]; exact hm
  have h1 : s1.mem.wf = true := State.useFree_wf (State.modGang_wf (by rw [State.acquire_mem]; exact hu) _)
  clear_value s1
  split
  · exact futLost_wf hm (State.consume_wf (State.modSlotOf_wf h1 ..) key) ..
  · exact advance_wf (State.consume_wf h1 key) _

theorem cancelledTask_wf (m : Mask) : MemOk (cancelledTask s m) := by
  unfold cancelledTask
  extract_lets s1
  have h1 : s1.mem.wf = true := State.cancelKids_wf hm _
  split
  · exact endNow_wf h1 ..
  · exact (memOk_next _).2 h1

theorem parkNow_wf (m : Mask) (bm : BitVec 256) (pend : Pend) : MemOk (parkNow s m bm pend) := by
  unfold parkNow
  extract_lets g
  split
  · exact raiseFault_wf hm ..
  · split
    · exact (memOk_next _).2 hm
    · split
      · exact (memOk_next _).2 hm
      · exact (memOk_next _).2 (by rw [State.tick_mem]; exact State.parkSegment_wf (by simpa using hm) ..)

theorem awaitTask_wf (x : BFmt) : MemOk (awaitTask x s) :=
  issue_wf hm fun m => by
    split
    · exact illegal_wf hm m
    · exact raiseFault_wf hm ..
    · split
      · exact protect_wf hm m
      next y _ =>
        split
        · exact cancelledTask_wf hm m
        · split
          · exact awaitDone_wf hm ..
          · split
            · exact (memOk_next _).2 (by simpa using hm)
            · exact parkNow_wf hm ..

theorem awaitaTask_wf (x : BFmt) : MemOk (awaitaTask x s) :=
  issue_wf hm fun m => by
    split
    · exact illegal_wf hm m
    · exact raiseFault_wf hm ..
    · extract_lets named slots all
      split
      · exact protect_wf hm m
      · split
        · exact cancelledTask_wf hm m
        · split
          · split
            · exact advance_wf (State.modGang_wf (by rw [State.acquire_mem]; exact hm) _) _
            · exact memOk_ite ((memOk_next _).2 hm) (parkNow_wf hm ..)
          · exact memOk_ite ((memOk_next _).2 hm) (parkNow_wf hm ..)

theorem testfTask_wf (x : RRR) : MemOk (testfTask x s) :=
  issue_wf hm fun m => by
    split
    · exact protect_wf hm m
    · exact advanced_wf hm rfl

/-! Shelves. -/

theorem execShput_wf (x : RRR) : MemOk (execShput x s) :=
  issue_wf hm fun m => by
    split
    · exact protect_wf hm m
    next n _ =>
      extract_lets sh v deep done s0 r
      have hdone (u : State) (hu : u.mem.wf = true) : (done u).mem.wf = true := by
        have h1 : (u.advance x.hdr).mem.wf = true := by rw [State.advance_mem]; exact hu
        exact State.ite_wf (State.deschedule_wf (State.modShelfOf_wf h1 ..) ..) h1
      have h0 : s0.mem.wf = true := State.touchBy_wf hm ..
      have hr : r.1.mem.wf = true := by rw [State.putFrame_mem]; exact State.release_wf _ _ _ h0
      clear_value done r
      split
      · exact (memOk_next _).2 hm
      · split
        · exact (memOk_next _).2 (hdone _ (by rw [State.enter_mem]; exact h0))
        · split
          · exact (memOk_next _).2 (State.awaitRoom_wf hm _)
          · exact (memOk_next _).2 (hdone _ (by rw [State.enter_mem]; exact hr))

theorem shtakeValue_wf (x : RRR) (m : Mask) (t : Bool) (v : DWord) : (shtakeValue x m t v s).mem.wf = true := by
  rw [shtakeValue, State.advance_mem]
  exact hm

theorem execShtake_wf (x : RRR) : MemOk (execShtake x s) :=
  issue_wf hm fun m => by
    split
    · exact protect_wf hm m
    next n _ =>
      extract_lets sh me s0
      have h0 : s0.mem.wf = true := State.touchBy_wf hm ..
      split
      · exact protect_wf (State.modShelfOf_wf hm ..) m
      · exact (memOk_next _).2 (shtakeValue_wf (State.modShelfOf_wf hm ..) ..)
      · split
        · exact protect_wf hm m
        · split
          · exact (memOk_next _).2 (shtakeValue_wf (State.takeEntry_wf (State.modShelfOf_wf h0 ..) ..) ..)
          · split
            · exact advance_wf (State.modGang_wf (by rw [State.launchS_mem]; exact h0) _) _
            · exact (memOk_next _).2 (by rw [State.hold_mem]; exact State.modShelfOf_wf h0 ..)

theorem execShdepth_wf (x : RRR) : MemOk (execShdepth x s) :=
  issue_wf hm fun m => by
    split
    · exact protect_wf hm m
    · exact advance_wf (by rw [State.launchS_mem]; exact State.touchBy_wf hm ..) _

theorem execShbind_wf (x : RRR) : MemOk (execShbind x s) :=
  issue_wf hm fun m => by
    extract_lets se
    split
    · exact raiseFault_wf hm ..
    · split
      · exact protect_wf hm m
      · extract_lets values s1
        have h1 : s1.mem.wf = true := State.modShelfOf_wf (State.touchBy_wf hm ..) ..
        split
        · exact protect_wf hm m
        · split
          · exact (memOk_next _).2 (State.awaitRoom_wf hm _)
          · refine advance_wf (State.ite_wf h1 (State.modShelfOf_wf ?_ ..)) _
            rw [State.bindEntries_mem]
            exact h1

theorem execShprio_wf (x : RRR) : MemOk (execShprio x s) :=
  issue_wf hm fun m => by
    split
    · exact protect_wf hm m
    · extract_lets sh p wm new s1
      have h1 : s1.mem.wf = true := State.setShelfOf_wf (State.touchBy_wf hm ..) ..
      split
      · exact protect_wf hm m
      · exact advance_wf (State.wake_wf h1) _

end

end Sys2Proof.Machine
end

section
namespace Sys2Proof.Machine
open Sys2Proof

/-! Buffers, modifiables and traces (R28, R55, R60, R64, R70, R322 to R327, R368 to R370) under the canonical form. -/

section
variable {s : State} (hm : s.mem.wf = true)
include hm

/-! Buffers. -/

theorem execBufget_wf (x : RRR) : MemOk (execBufget x s) :=
  issue_wf hm fun m => by
    extract_lets me
    split
    · exact advanced_wf hm rfl
    · split
      · exact (memOk_next _).2 hm
      · exact advanced_wf hm rfl

theorem bufAct_wf {x : RRR} {m : Mask} {f : Nat → BufEntry → Result} (hf : ∀ i e, MemOk (f i e)) : MemOk (bufAct s x m f) := by
  unfold bufAct
  split
  · exact protect_wf hm m
  · exact hf ..

theorem execBufexp_wf (x : RRR) : MemOk (execBufexp x s) :=
  issue_wf hm fun m => bufAct_wf hm fun i e => by
    extract_lets src n y
    exact memOk_ite (protect_wf hm m) (advanced_wf hm rfl)

theorem execBufst_wf (x : RRR) : MemOk (execBufst x s) :=
  issue_wf hm fun m => bufAct_wf hm fun i e => by
    extract_lets off v y
    split
    · exact raiseFault_wf hm ..
    · split
      · exact raiseFault_wf hm ..
      · exact memOk_ite (protect_wf hm m) (advanced_wf hm rfl)

theorem execBufrel_wf (x : RRR) : MemOk (execBufrel x s) :=
  issue_wf hm fun m => bufAct_wf hm fun i e => by
    split
    · exact (memOk_next _).2 hm
    · exact advanced_wf hm rfl
    all_goals exact protect_wf hm m

theorem execBufrelAbort_wf (x : RRR) : MemOk (execBufrelAbort x s) :=
  issue_wf hm fun m => bufAct_wf hm fun i e => by
    split
    · exact advanced_wf hm rfl
    · exact advanced_wf hm rfl
    all_goals exact protect_wf hm m

/-! MODNEW, MODFREE, MODSET. -/

theorem State.zeroGranule_wf (va : Nat) : (s.zeroGranule va).mem.wf = true := by
  unfold State.zeroGranule
  split
  · exact State.homeWrite_wf _ _ _ hm
  · exact hm

omit hm in
@[simp] theorem State.newAlloc_mem (s : State) (a n : Nat) : (s.newAlloc a n).mem = s.mem := rfl

omit hm in
@[simp] theorem State.reclaim_mem (s : State) (a n : Nat) : (s.reclaim a n).mem = s.mem := by
  unfold State.reclaim
  split <;> rfl

theorem State.modnew_wf (n : Nat) : (s.modnew n).1.mem.wf = true := by
  unfold State.modnew
  extract_lets g r s1 s2
  have hr : r.1.mem.wf = true := by
    unfold r
    split
    · rw [State.reclaim_mem]
      exact hm
    · split
      · exact hm
      · split
        · exact hm
        · exact State.foldl_wf _ (fun _ _ h => State.zeroGranule_wf h _) (by rw [State.newAlloc_mem]; exact hm)
  have h1 : s1.mem.wf = true := State.modGang_wf hr _
  exact State.ite_wf (State.modTraceOf_wf h1 ..) h1

theorem execModnew_wf (x : RRR) : MemOk (execModnew x s) :=
  issue_wf hm fun m => by
    extract_lets r
    exact advance_wf (by rw [State.launchS_mem]; exact State.modnew_wf hm _) _

theorem raiseRewrite_wf (k : BitVec 8) (m off : Mask) (gr : Nat) : MemOk (raiseRewrite s k m off gr) := (memOk_next _).2 hm

theorem execModfree_wf (x : RRR) : MemOk (execModfree x s) :=
  issue_wf hm fun m => by
    extract_lets a n lo hi gs owner foreign touched held allocs
    split
    · exact advance_wf hm _
    · split
      · exact protect_wf hm m
      · split
        · exact protect_wf hm m
        · split
          · exact raiseRewrite_wf hm ..
          · exact advance_wf (State.withCtx_wf hm _) _

theorem State.modsetAt_memOk (lane va pa : Nat) (data : List Byte) : (s.modsetAt lane va pa data).MemOk := by
  unfold State.modsetAt
  extract_lets u g
  have hgate := State.gate_memOk (s := u) hm pa
  split
  next h => rw [h] at hgate; exact hgate
  · exact hm
  next v h =>
    rw [h] at hgate
    extract_lets v2 old v3 traces src v4
    have h3 : v3.mem.wf = true := State.homeWrite_wf _ _ _ (State.expel_wf _ _ _ _ _ hgate)
    exact State.ite_wf h3 (State.withCtx_wf h3 _)

theorem modsetLanes_memOk (data : Nat → List Byte) (accs : List LaneAcc) : (modsetLanes s data accs).MemOk := by
  induction accs generalizing s with
  | nil => exact hm
  | cons a accs ih =>
    unfold modsetLanes
    extract_lets p h
    split
    · exact ih hm
    · split
      · exact hm
      · split
        · exact hm
        · split
          · exact hm
          · split
            · exact hm
            · have hlane := State.modsetAt_memOk hm a.lane p.va p.pa (data a.lane)
              split
              next h => rw [h] at hlane; exact ih hlane
              · exact hlane

theorem execModset_wf (x : MFmt) : MemOk (execModset x s) :=
  issue_wf hm fun m => by
    split
    · exact protect_wf hm m
    · split
      · exact raiseLanes_wf hm ..
      next accs _ =>
        extract_lets s2
        have h2 : s2.mem.wf = true := State.ite_wf (State.release_wf _ _ _ (by simpa using hm)) hm
        have hlanes := modsetLanes_memOk h2 (storeData s x.data (mWidth x.width)) accs
        split
        next h => rw [h] at hlanes; exact (memOk_next _).2 hlanes
        next h => rw [h] at hlanes; exact raiseRewrite_wf hlanes ..
        next h => rw [h] at hlanes; exact advance_wf (State.modGang_wf hlanes _) _

theorem State.compareMine_wf {h : HeldSet} {r : Result} (he : s.compareMine h = some r) : MemOk r := by
  unfold State.compareMine at he
  extract_lets u src u1 at he
  have hu : u.mem.wf = true := State.modGang_wf hm _
  have h1 : u1.mem.wf = true := State.withCtx_wf hu _
  clear_value u u1
  split at he
  · cases he
  · split at he
    · cases he
      exact raiseRewrite_wf h1 ..
    · split at he
      · cases he
        exact raiseFault_wf (by simpa using h1) ..
      · have hset := State.modsetAt_memOk h1 h.lane h.va h.pa h.data
        split at he
        next h2 =>
          rw [h2] at hset
          cases he
          exact (memOk_next _).2 hset
        next h2 =>
          split at he
          · cases he
          · cases he
            exact (memOk_next _).2 (State.withCtx_wf hu _)
        next h2 =>
          rw [h2] at hset
          cases he
          exact raiseFault_wf hset ..

theorem State.compareHeld_wf {h : HeldSet} {r : Result} (he : s.compareHeld h = some r) : MemOk r := by
  unfold State.compareHeld at he
  obtain ⟨t, ht, hr⟩ := Option.bind_eq_some_iff.1 he
  obtain ⟨q, hq, rfl⟩ := Option.map_eq_some_iff.1 hr
  have hmine := State.compareMine_wf (State.seat_wf hm ht) hq
  split
  · exact (memOk_next _).2 (State.unseat_wf ((memOk_next _).1 hmine))
  · exact hmine

theorem execModsetHeldCompare_wf : MemOk (execModsetHeldCompare s) := by
  unfold execModsetHeldCompare
  split
  · exact memOk_refused _
  · cases hfind : s.ctx.heldSets.findSome? s.compareHeld with
    | none => exact memOk_refused _
    | some r =>
      obtain ⟨h, -, he⟩ := List.exists_of_findSome?_eq_some hfind
      exact State.compareHeld_wf hm he

/-! PROPAGATE, TDROP, TSTAT and the events of traces. -/

theorem propagateTask_wf (x : RRR) : MemOk (propagateTask x s) :=
  issue_wf hm fun m => by
    split
    · exact protect_wf hm m
    · split
      · exact protect_wf hm m
      · split
        · exact (memOk_next _).2 (State.awaitRoom_wf hm _)
        · extract_lets old s1
          have h1 : s1.mem.wf = true := State.modTraceOf_wf (State.openSlot_wf (State.release_wf _ _ _ hm) ..) ..
          exact advance_wf (by rw [State.giveHandle_mem]; exact h1) _

theorem State.recordAfresh_wf (t key : Nat) (rest : List Nat) : (s.recordAfresh t key rest).mem.wf = true := by
  unfold State.recordAfresh
  extract_lets tr a f0 f begun y0 y r s1
  have h1 : s1.mem.wf = true := State.ite_wf (by simpa using hm) (by simpa using hm)
  exact State.checkLimit_wf (by rw [State.enter_mem]; exact State.touch_wf h1 ..) _

theorem execPropagationBegin_wf (t : Nat) : MemOk (execPropagationBegin t s) := by
  unfold execPropagationBegin
  extract_lets tr
  split
  · exact memOk_refused _
  · split
    · exact memOk_refused _
    · split
      · exact memOk_ite (memOk_refused _) ((memOk_next _).2 (State.recordAfresh_wf hm ..))
      · exact (memOk_next _).2 (State.settleProp_wf (State.setTraceOf_wf hm ..) _)

theorem tdropTask_wf (x : RRR) : MemOk (tdropTask x s) :=
  issue_wf hm fun m => by
    split
    · exact protect_wf hm m
    next t _ =>
      extract_lets tr s1 s2
      have h1 : s1.mem.wf = true := State.setTraceOf_wf hm ..
      have h2 : s2.mem.wf = true := State.ite_wf (State.abandon_wf h1 t) h1
      exact advance_wf (by rw [State.dropIfDue_mem]; exact h2) _

theorem tstatTask_wf (x : RRR) : MemOk (tstatTask x s) :=
  issue_wf hm fun m => by
    split
    · exact protect_wf hm m
    · extract_lets i
      exact memOk_ite (protect_wf hm m) (advanced_wf hm (State.launchS_mem ..))

theorem execRelabel_wf (t : Nat) : MemOk (execRelabel t s) := by
  unfold execRelabel
  extract_lets tr labels step spread
  exact memOk_ite ((memOk_next _).2 (State.setTraceOf_wf hm ..)) (memOk_refused _)

end

end Sys2Proof.Machine
end

section
namespace Sys2Proof.Machine
open Sys2Proof

/-! The circulation desk and the cards that words submit (R32, R39, R45 to R49, R76, R124, R362 to R367) under the
canonical form. -/

@[simp] theorem State.giveCellar_mem (s : State) (g : Gang) : (s.giveCellar g).1.mem = s.mem := by
  unfold State.giveCellar
  split <;> rfl

@[simp] theorem State.ranOn_mem (s : State) (l carrel : Nat) : (s.ranOn l carrel).mem = s.mem := by
  unfold State.ranOn
  split
  · split <;> rfl
  · rfl

@[simp] theorem State.takeNumber_mem (s : State) : s.takeNumber.1.mem = s.mem := rfl

@[simp] theorem State.watchesBack_mem (s : State) (a n : Nat) : (s.watchesBack a n).mem = s.mem := rfl

@[simp] theorem State.settleIn_mem (s : State) (n carrel q i : Nat) (g : Gang) (mid : Bool) (shadow : Option Gang) :
    (s.settleIn n carrel q i g mid shadow).mem = s.mem := by
  unfold State.settleIn
  extract_lets info place
  have h1 (y : Gang) : (s.giveCellar y).1.mem = s.mem := State.giveCellar_mem s y
  generalize hc : s.giveCellar _ = r
  replace h1 : r.1.mem = s.mem := hc ▸ h1 _
  obtain ⟨s1, g1⟩ := r
  simp only []
  generalize (if mid then g1 else g1.newSegment) = g2
  have h2 (l : Nat) : ((s1.setGangOf n g2).ranOn l carrel).mem = s.mem := (State.ranOn_mem ..).trans h1
  split
  · exact h2 _
  · split <;> exact h2 _
  · exact h2 _

@[simp] theorem State.holdFollower_mem (s : State) (t f : Nat) : (s.holdFollower t f).mem = s.mem := by
  unfold State.holdFollower
  extract_lets x fr s1 old s2
  have h1 : s1.mem = s.mem := by
    unfold s1
    split <;> rfl
  have h2 : s2.mem = s.mem := h1
  split
  next n _ =>
    extract_lets g s3
    change s3.mem = s.mem
    exact (State.vacate_mem ..).trans h2
  · exact h2

section
variable {s : State} (hm : s.mem.wf = true)
include hm

theorem deliverPend_wf (p : Pend) : MemOk (deliverPend s p) := by
  unfold deliverPend
  split
  next k was d chk =>
    extract_lets y live s1 lost s2 g
    have h1 : s1.mem.wf = true := State.useFree_wf (State.modGang_wf hm _)
    have h2 : s2.mem.wf = true := State.ite_wf (State.consume_wf (State.ite_wf (State.modSlotOf_wf h1 ..) h1) _) h1
    split
    · split
      · exact (memOk_next _).2 hm
      · exact takeTrap_wf h2 ..
    · exact (memOk_next _).2 h2
  · exact (memOk_next _).2 hm
  · exact (memOk_next _).2 hm

theorem execTaskDispatch_wf (carrel quarter slot : Nat) : MemOk (execTaskDispatch carrel quarter slot s) := by
  unfold execTaskDispatch
  split
  · exact memOk_refused _
  next p _ =>
    extract_lets a f info as s1 run s2
    have h1 : s1.mem.wf = true := State.wake_wf (State.modShelfOf_wf (State.touch_wf hm ..) ..)
    have h2 : s2.mem.wf = true := State.foldl_wf _ (fun _ _ h => State.modFrameOf_wf h ..) h1
    clear_value s2
    split
    · exact memOk_refused _
    · rw [memOk_next, State.settleIn_mem, State.acquire_mem]
      exact h2

theorem execContinuationResume_wf (frame carrel quarter slot : Nat) :
    MemOk (execContinuationResume frame carrel quarter slot s) := by
  unfold execContinuationResume
  split
  · exact memOk_refused _
  next p _ =>
    extract_lets f info s1 shadow old away
    have h1 : s1.mem.wf = true := State.takeEntry_wf (State.touch_wf hm ..) ..
    have haway : away.mem.wf = true := State.withCtx_wf h1 _
    clear_value s1 away
    split
    · exact memOk_refused _
    · split
      next n _ =>
        extract_lets g mid s2 s3
        have h2 : s2.mem.wf = true := by rw [State.acquire_mem]; exact h1
        have h3 : s3.mem.wf = true := by rw [State.settleIn_mem]; exact h2
        clear_value s2 s3
        split
        · exact memOk_refused _
        · exact memOk_ite ((memOk_next _).2 (State.setGangOf_wf h2 ..)) (deliverPend_wf (State.setGangOf_wf h3 ..) _)
      · split
        · exact memOk_refused _
        next g _ =>
          extract_lets mid s3
          have h3 : s3.mem.wf = true := by rw [State.acquire_mem]; exact haway
          clear_value s3
          split
          · exact memOk_refused _
          · split
            next s4 n h4 =>
              have h4' : s4.mem.wf = true := by
                have e := State.takeNumber_mem s3
                rw [h4] at e
                exact e ▸ h3
              extract_lets s5
              have h5 : s5.mem.wf = true := by rw [State.watchesBack_mem, State.settleIn_mem]; exact h4'
              exact memOk_ite ((memOk_next _).2 h5) (deliverPend_wf h5 _)

theorem execReexecDispatch_wf (t f carrel : Nat) : MemOk (execReexecDispatch t f carrel s) := by
  unfold execReexecDispatch
  extract_lets tr x
  split
  next im _ _ _ =>
    extract_lets s1 old g
    have h1 : s1.mem.wf = true := by
      refine State.modFrameOf_wf (State.modTraceOf_wf ?_ ..) ..
      rw [State.holdFollower_mem]
      exact hm
    clear_value s1 g
    split
    · exact memOk_refused _
    · rw [memOk_next, State.settleIn_mem, State.takeNumber_mem, State.acquire_mem]
      exact h1
  · exact memOk_refused _

theorem execLaunchPacket_wf (header : Nat) : MemOk (execLaunchPacket header s) := by
  unfold execLaunchPacket
  extract_lets r attached l old
  split
  · exact memOk_refused _
  next pa _ =>
    extract_lets b reason completion next n
    have hnext (u : State) (hu : u.mem.wf = true) : (next u).mem.wf = true :=
      State.deskWrite_wf (State.homeWrite_wf _ _ _ hu) ..
    clear_value next
    split
    · exact memOk_refused _
    · split
      · exact (memOk_next _).2 (by rw [State.deskFault_mem]; exact hm)
      · exact (memOk_next _).2 (by rw [State.deskFault_mem]; exact hm)
      · split
        · exact (memOk_next _).2 (hnext _ (State.completionWord_wf hm ..))
        · split
          · exact memOk_refused _
          · split
            next s1 a h1 =>
              have e := State.putFrame_mem s (s.rootFrame b l)
              rw [h1] at e
              extract_lets launch old s2
              have h2 : s2.mem.wf = true := by
                change s1.mem.wf = true
                rw [show s1.mem = s.mem from e]
                exact hm
              exact (memOk_next _).2 (hnext _ (by rw [State.enter_mem]; exact State.touch_wf h2 ..))

theorem execLaunchComplete_wf (l : Nat) : MemOk (execLaunchComplete l s) := by
  unfold execLaunchComplete
  split
  · exact memOk_refused _
  next x _ =>
    split
    · exact memOk_refused _
    · extract_lets s1 s2
      have h1 : s1.mem.wf = true := State.foldl_wf _ (fun _ _ h => State.release_wf _ _ _ h) hm
      exact (memOk_next _).2 (State.withCtx_wf (State.useFree_wf (State.completionWord_wf h1 ..)) _)

theorem State.emptyL1_wf (l1 : Nat) : (s.emptyL1 l1).mem.wf = true := by
  unfold State.emptyL1
  simpa using hm

theorem execGalleryModeChange_wf (gallery : Nat) (fused : Bool) : MemOk (execGalleryModeChange gallery fused s) := by
  unfold execGalleryModeChange
  extract_lets cs busy s1
  have h1 : s1.mem.wf = true := State.flushL2_wf _ _ _ (State.foldl_wf _ (fun _ _ h => State.emptyL1_wf h _) hm)
  clear_value s1
  exact memOk_ite (memOk_refused _) ((memOk_next _).2 h1)

/-! Submissions. -/

theorem submit_wf (h : Header) (m : Mask) (reads : Nat × Nat) (x : Job) {extra : Nat → State → State}
    (he : ∀ j u, u.mem.wf = true → (extra j u).mem.wf = true) : MemOk (submit s h m reads x extra) := by
  unfold submit
  extract_lets g wing ring grs old owns
  split
  · exact (memOk_next _).2 hm
  · split
    · exact (memOk_next _).2 hm
    next key _ =>
      split
      · exact (memOk_next _).2 hm
      · exact raiseFault_wf hm ..
      next s1 hreads =>
        have h1 := traceReads_wf hm hreads
        extract_lets j s2 s3 s4
        have h2 : s2.mem.wf = true := State.openSlot_wf (State.release_wf _ _ _ h1) ..
        have h3 : s3.mem.wf = true := State.ite_wf (State.completionWord_wf h2 ..) (State.appendJob_wf h2 _)
        have h4 : s4.mem.wf = true := State.ite_wf (by rw [State.count_mem]; exact he _ _ h3) h3
        exact advance_wf (by rw [State.giveHandle_mem]; exact h4) _

theorem drainTask_wf (x : EFmt) (op : Byte) : MemOk (drainTask x op s) :=
  issue_wf hm fun m => by
    extract_lets a tile c
    split
    · exact raiseFault_wf hm ..
    · split
      · exact (memOk_next _).2 hm
      · exact submit_wf hm _ _ _ _ fun _ _ h => State.modCarrelOf_wf h ..

theorem copyTask_wf (x : EFmt) : MemOk (copyTask x s) := issue_wf hm fun _ => submit_wf hm _ _ _ _ fun _ _ h => h
theorem copytTask_wf (x : EFmt) : MemOk (copytTask x s) := issue_wf hm fun _ => submit_wf hm _ _ _ _ fun _ _ h => h
theorem copyfTask_wf (x : EFmt) : MemOk (copyfTask x s) := issue_wf hm fun _ => submit_wf hm _ _ _ _ fun _ _ h => h

theorem jobTask_wf (x : EFmt) : MemOk (jobTask x s) :=
  issue_wf hm fun m => by
    extract_lets off
    split
    · exact raiseFault_wf hm ..
    · split
      · exact raiseFault_wf hm ..
      · exact submit_wf hm _ _ _ _ fun _ _ h => h

end
end Sys2Proof.Machine
end

section
namespace Sys2Proof.Machine
open Sys2Proof

/-! The gallery engines (R48, R117, R133, R176, R193 to R206, R209, R214 to R216) under the canonical form. -/

@[simp] theorem State.keepSpans_mem (s : State) (e : Nat) (xs : List Span) : (s.keepSpans e xs).mem = s.mem :=
  mem_foldl_eq _ _ _ fun _ x => by
    split
    · exact State.keep_mem ..
    · rfl

@[simp] theorem State.elemsNext_mem (s : State) (j : Nat) (x : Job) (total unit n : Nat) :
    (s.elemsNext j x total unit n).mem = s.mem := rfl

/-- The next state of a chunk, where it has one, has a canonical memory. -/
def ChunkOut.MemOk : ChunkOut → Prop
  | .ok t => t.mem.wf = true
  | .fault _ | .crc _ _ => True

/-- The next state of a step of the back-reference stream, where it has one, has a canonical memory. -/
structure StreamOk (r : Except EngErr (State × Inflate)) : Prop where
  wf : ∀ t z, r = .ok (t, z) → t.mem.wf = true

theorem streamOk_error (e : EngErr) : StreamOk (.error e) := ⟨fun _ _ h => nomatch h⟩

theorem streamOk_ok {s : State} (hm : s.mem.wf = true) (z : Inflate) : StreamOk (.ok (s, z)) :=
  ⟨fun _ _ h => (Prod.mk.inj (Except.ok.inj h)).1 ▸ hm⟩

section
variable {s : State} (hm : s.mem.wf = true)
include hm

/-! Places. -/

theorem State.placeWrite_wf (p : Place) (lab : Option Label) (bs : List Byte) : (s.placeWrite p lab bs).mem.wf = true := by
  unfold State.placeWrite
  split
  · split
    · exact State.homeLabelWrite_wf _ _ _ _ hm
    · exact State.homeWrite_wf _ _ _ hm
  · exact hm
  · exact hm

theorem State.writeSpans_wf (label : Span → Label) (xs : List Span) (bs : List Byte) :
    (s.writeSpans label xs bs).mem.wf = true := by
  induction xs generalizing s bs with
  | nil => exact hm
  | cons x xs ih =>
    unfold State.writeSpans
    exact ih (State.placeWrite_wf hm ..) _

/-! The desk links cards. -/

theorem State.linkOne_wf {wing : Nat} {t : State} (h : s.linkOne wing = .linked t) : t.mem.wf = true := by
  unfold State.linkOne at h
  extract_lets r at_ next at h
  have hnext (u : State) (hu : u.mem.wf = true) : (next u).mem.wf = true :=
    State.deskWrite_wf (State.deskWrite_wf hu ..) ..
  clear_value next
  split at h
  · cases h
  · split at h
    · split at h
      · cases h
      · split at h
        · cases h
          exact hnext _ (State.withCtx_wf hm _)
        · split at h
          · cases h
          · cases h
            exact hnext _ hm
    · split at h
      · cases h
      · extract_lets b x claims s0 s1 at h
        split at h
        · cases h
        · have h0 : s0.mem.wf = true := State.ite_wf (State.modCarrelOf_wf hm ..) hm
          have h1 : s1.mem.wf = true := State.setJobOf_wf h0 ..
          cases h
          exact hnext _ (State.withCtx_wf h1 _)

theorem State.linkWing_wf (wing k : Nat) : (s.linkWing wing k).1.mem.wf = true := by
  induction k generalizing s with
  | zero => exact hm
  | succ k ih =>
    unfold State.linkWing
    split
    next s1 h => exact ih (State.linkOne_wf hm h)
    · exact hm
    · exact hm

theorem State.linkAll_wf : s.linkAll.1.mem.wf = true := by
  unfold State.linkAll
  generalize ([] : List (Nat × EngErr)) = es
  generalize s.wings = ws
  induction ws generalizing s es with
  | nil => exact hm
  | cons w ws ih => exact ih (State.linkWing_wf hm ..) _

omit hm in
theorem State.onlyLinked_wf {t : State} (ht : t.mem.wf = true) : MemOk (s.onlyLinked t) := by
  unfold State.onlyLinked
  split
  · exact (memOk_next _).2 (by rw [State.deskFault_mem]; exact ht)
  · exact memOk_ite (memOk_refused _) ((memOk_next _).2 ht)

/-! Taking a card. -/

theorem State.beginJob_wf (j : Nat) (x : Job) : (s.beginJob j x).mem.wf = true := by
  unfold State.beginJob
  extract_lets claim s1 olds
  have h1 : s1.mem.wf = true := State.ite_wf (State.modCarrelOf_wf hm ..) hm
  exact State.setJobOf_wf h1 ..

theorem State.faultRecord_wf (x : Job) (code : BitVec 8) (addr : Option Nat) : (s.faultRecord x code addr).mem.wf = true :=
  State.homeWrite_wf _ _ _ hm

theorem State.engineFault_wf (j : Nat) (x : Job) (e : EngErr) (trace : Option Nat) :
    (s.engineFault j x e trace).mem.wf = true := by
  unfold State.engineFault
  extract_lets s1 s2
  have h1 : s1.mem.wf = true := by
    unfold s1
    split <;> exact hm
  rw [State.assertHalt_mem]
  exact State.faultRecord_wf (State.setJobOf_wf h1 ..) ..

theorem execCardTake_wf (j : Nat) : MemOk (execCardTake j s) := by
  unfold execCardTake
  split
  · exact memOk_refused _
  · have h1 := State.linkAll_wf hm
    split
    next s1 stuck hl =>
      rw [hl] at h1
      replace h1 : s1.mem.wf = true := h1
      split
      · exact (memOk_next _).2 (State.engineFault_wf h1 ..)
      · split
        · exact State.onlyLinked_wf h1
        next x _ =>
          split
          · exact State.onlyLinked_wf h1
          · split
            · exact (memOk_next _).2 (State.withCtx_wf (State.completionWord_wf h1 ..) _)
            · split
              · exact State.onlyLinked_wf h1
              · split
                · exact State.onlyLinked_wf h1
                next g _ =>
                  extract_lets y
                  split
                  · exact (memOk_next _).2 (State.engineFault_wf h1 ..)
                  · exact (memOk_next _).2 (State.beginJob_wf h1 ..)

/-! Chunks of a copy. -/

theorem State.copyChunk_memOk (e : Nat) (x : Job) : (s.copyChunk e x).MemOk := by
  unfold State.copyChunk
  extract_lets n src dst want
  clear_value want
  split
  · trivial
  · trivial
  next xs ds _ _ =>
    split
    · trivial
    · split
      · trivial
      · trivial
      · extract_lets bs got
        split
        · trivial
        · exact State.writeSpans_wf (by rw [State.keepSpans_mem, State.keepSpans_mem]; exact hm) ..

theorem State.copyEnd_wf {j : Nat} {x : Job} {t : State} (h : s.copyEnd j x = some t) : t.mem.wf = true := by
  unfold State.copyEnd at h
  extract_lets v c at h
  split at h
  · split at h
    · cases h
    · cases h
      exact hm
  · cases h
    exact hm

theorem State.copyNext_wf (j : Nat) (x : Job) : (s.copyNext j x).mem.wf = true := by
  unfold State.copyNext
  extract_lets n y
  have hy : (s.setJobOf j y).mem.wf = true := State.setJobOf_wf hm ..
  split
  · exact hy
  · cases h : (s.setJobOf j y).copyEnd j y with
    | none => exact hy
    | some t => exact State.copyEnd_wf hy h

theorem execCopyChunk_wf (j : Nat) : MemOk (execCopyChunk j s) := by
  unfold execCopyChunk
  extract_lets x
  split
  · exact memOk_refused _
  · split
    · split
      next s1 h => exact (memOk_next _).2 (State.copyEnd_wf hm h)
      · exact memOk_refused _
    · have hchunk := State.copyChunk_memOk hm (x.engine x.gallery) x
      split
      next s1 h => rw [h] at hchunk; exact (memOk_next _).2 (State.copyNext_wf hchunk ..)
      · exact (memOk_next _).2 (State.engineFault_wf hm ..)
      · exact (memOk_next _).2 (State.faultRecord_wf (State.setJobOf_wf hm ..) ..)

theorem execCrcRetry_wf (j : Nat) : MemOk (execCrcRetry j s) := by
  unfold execCrcRetry
  extract_lets x y
  split
  · exact memOk_refused _
  · have hchunk := State.copyChunk_memOk hm (x.engine x.gallery) y
    split
    next s1 h => rw [h] at hchunk; exact (memOk_next _).2 (State.copyNext_wf hchunk ..)
    · exact (memOk_next _).2 (State.engineFault_wf hm ..)
    · extract_lets z s1
      have h1 : s1.mem.wf = true := State.faultRecord_wf (State.setJobOf_wf hm ..) ..
      exact (memOk_next _).2 (State.ite_wf h1 (State.setJobOf_wf h1 ..))

/-! Chunks of a tensor copy or a drain. -/

theorem State.writeElems_wf {e w : Nat} {lab : Option Label} {reads : Bool} {els : List (Nat × (Nat → Nat))}
    {bs : List Nat} {t : State} (h : s.writeElems e w lab reads els bs = .ok t) : t.mem.wf = true := by
  induction bs generalizing s with
  | nil => cases h; exact hm
  | cons b bs ih =>
    unfold State.writeElems at h
    extract_lets mine need full at h
    split at h
    · cases h
    · cases h
    · split at h
      · cases h
      · extract_lets s1 at h
        exact ih (State.placeWrite_wf (by rw [State.keepSpans_mem]; exact hm) ..) h

theorem execTensorCopyChunk_wf (j : Nat) : MemOk (execTensorCopyChunk j s) := by
  unfold execTensorCopyChunk
  extract_lets x e fault
  have hfault (y : EngErr) : MemOk (fault y) := (memOk_next _).2 (State.engineFault_wf hm ..)
  clear_value fault
  split
  · exact memOk_refused _
  · split
    · split
      · exact hfault _
      next p _ =>
        extract_lets total ks lab
        split
        · exact hfault _
        next els _ =>
          split
          · exact hfault _
          next s1 h =>
            have h1 := State.writeElems_wf hm h
            exact (memOk_next _).2 (by rw [State.elemsNext_mem]; exact h1)
    · split
      · exact hfault _
      next r _ =>
        extract_lets w total ks els lab
        split
        · exact hfault _
        next s1 h =>
          have h1 := State.writeElems_wf hm h
          exact (memOk_next _).2 (by rw [State.elemsNext_mem]; exact h1)

/-! The back-reference stream. -/

theorem State.flushOut_ok (e : Nat) (x : Job) (z : Inflate) : StreamOk (s.flushOut e x z) := by
  unfold State.flushOut
  split
  · exact streamOk_error _
  · split
    · exact streamOk_error _
    · exact streamOk_ok (State.writeSpans_wf (by rw [State.keepSpans_mem]; exact hm) ..) _

theorem State.pushOut_ok (e : Nat) (x : Job) (z : Inflate) (b : Byte) : StreamOk (s.pushOut e x z b) := by
  unfold State.pushOut
  extract_lets z1
  split
  · exact State.flushOut_ok hm ..
  · exact streamOk_ok hm _

theorem State.copyBytes_ok (e : Nat) (x : Job) (z : Inflate) (a n : Nat) : StreamOk (s.copyBytes e x z a n) := by
  induction n generalizing s z a with
  | zero => exact streamOk_ok hm _
  | succ n ih =>
    unfold State.copyBytes
    split
    · exact streamOk_error _
    next b _ =>
      have hpush := State.pushOut_ok hm e x z b
      split
      · exact streamOk_error _
      next s1 z1 h => exact ih (hpush.wf _ _ h) ..

theorem State.token_ok (e : Nat) (x : Job) (z : Inflate) : StreamOk (s.token e x z) := by
  unfold State.token
  extract_lets count cap src i bad
  have hbad (c : Nat) : StreamOk (bad c) := streamOk_ok hm _
  clear_value bad
  split
  · exact streamOk_error _
  next tb _ =>
    extract_lets t n n'
    split
    · split
      · exact hbad _
      · split
        · exact hbad _
        · exact State.copyBytes_ok hm ..
    · split
      · exact hbad _
      · split
        · exact streamOk_error _
        · exact streamOk_error _
        · extract_lets d
          split
          · exact hbad _
          · split
            · exact hbad _
            · exact State.copyBytes_ok hm ..

theorem State.tokens_ok (e : Nat) (x : Job) (start : Nat) (z : Inflate) (k : Nat) : StreamOk (s.tokens e x start z k) := by
  induction k generalizing s z with
  | zero => exact streamOk_ok hm _
  | succ k ih =>
    unfold State.tokens
    split
    · exact streamOk_ok hm _
    · have htoken := State.token_ok hm e x z
      split
      · exact streamOk_error _
      next s1 z1 h => exact ih (htoken.wf _ _ h) _

theorem State.stopInflate_wf (j : Nat) (x : Job) : (s.stopInflate j x).mem.wf = true := by
  unfold State.stopInflate
  extract_lets e
  split
  · exact State.engineFault_wf hm ..
  next s1 z h => exact State.setJobOf_wf ((State.flushOut_ok hm ..).wf _ _ h) ..

theorem execInflateJob_wf (j : Nat) : MemOk (execInflateJob j s) := by
  unfold execInflateJob
  extract_lets x e z0
  split
  · exact memOk_refused _
  · split
    · exact (memOk_next _).2 (State.stopInflate_wf hm ..)
    · split
      · exact (memOk_next _).2 (State.engineFault_wf hm ..)
      next s1 z h =>
        have h1 := (State.tokens_ok hm ..).wf _ _ h
        extract_lets ended y
        split
        · exact (memOk_next _).2 (State.setJobOf_wf h1 ..)
        · split
          · exact (memOk_next _).2 (State.engineFault_wf hm ..)
          next s2 z2 h2 => exact (memOk_next _).2 (State.setJobOf_wf ((State.flushOut_ok h1 ..).wf _ _ h2) ..)

/-! The end of a job. -/

theorem State.jobRecords_memOk (x : Job) : (s.jobRecords x).MemOk := by
  unfold State.jobRecords
  split
  · exact hm
  next t _ =>
    extract_lets tr old g gs olds news
    split
    · exact hm
    · have hw := traceWrites_memOk hm g (gs.map fun e => (0, e.1))
      split
      next s1 h =>
        rw [h] at hw
        extract_lets s2
        have h2 : s2.mem.wf = true := by
          unfold s2
          rw [traceCompare_mem]
          exact hw
        exact State.ite_wf h2 (State.modTraceOf_wf h2 ..)
      · exact hw

theorem execJobComplete_wf (j : Nat) : MemOk (execJobComplete j s) := by
  unfold execJobComplete
  split
  · exact memOk_refused _
  next x _ =>
    split
    · exact memOk_refused _
    · have hrec := State.jobRecords_memOk hm x
      split
      · exact (memOk_next _).2 (State.engineFault_wf hm ..)
      · exact memOk_refused _
      next s1 h => rw [h] at hrec; exact (memOk_next _).2 (State.endJob_wf hrec ..)

end
end Sys2Proof.Machine
end

section
namespace Sys2Proof.Machine
open Sys2Proof

/-! The halt line, the Curator and the host (R85, R114, R135 to R155, R383 to R399) under the canonical form. -/

theorem State.withCtx_mem (s : State) (c : Context) : ({ s with ctx := c } : State).mem = s.mem := rfl

@[simp] theorem State.freeze_mem (s : State) : s.freeze.mem = s.mem := rfl
@[simp] theorem State.thaw_mem (s : State) : s.thaw.mem = s.mem := rfl
@[simp] theorem State.openWindow_mem (s : State) : s.openWindow.mem = s.mem := by
  unfold State.openWindow
  exact State.withCtx_mem ..

@[simp] theorem State.answer_mem (s : State) (vi : Nat) (status : Byte) : (s.answer vi status).mem = s.mem := rfl

@[simp] theorem State.repath_mem (s : State) (younger : Bool) : (s.repath younger).mem = s.mem := by
  unfold State.repath
  extract_lets u p waits size isDone left
  have hu : u.mem = s.mem := rfl
  split
  · rfl
  · split
    · exact (State.logErrors_mem ..).trans hu
    next accs _ =>
      extract_lets moved s1
      change s1.mem = s.mem
      exact (State.keepAll_mem ..).trans hu

section
variable {s : State} (hm : s.mem.wf = true)
include hm

/-! The halt line. -/

theorem State.writeStops_wf (fs : List FaultInfo) : (s.writeStops fs).mem.wf = true := by
  unfold State.writeStops
  extract_lets s1
  exact State.foldl_wf _ (fun _ _ h => State.homeWrite_wf _ _ _ h) hm

theorem State.repaths_wf : s.repaths.mem.wf = true := by
  unfold State.repaths
  extract_lets owners s1
  refine State.foldl_wf owners (fun u n h => ?_) hm
  split
  next t ht =>
    have h1 := State.seat_wf h ht
    extract_lets t1
    have h2 : t1.mem.wf = true := by
      unfold t1
      rw [State.repath_mem]
      exact h1
    refine State.unseat_wf (State.ite_wf ?_ h2)
    rw [State.repath_mem]
    exact h2
  · exact h

theorem execHaltLine_wf : MemOk (execHaltLine s) := by
  unfold execHaltLine
  refine memOk_ite ((memOk_next _).2 ?_) (memOk_refused _)
  change (s.writeStops s.faults).freeze.mem.wf = true
  rw [State.freeze_mem]
  exact State.writeStops_wf hm _

theorem State.resume_wf : s.resume.mem.wf = true := by
  unfold State.resume
  rw [State.thaw_mem]
  exact State.repaths_wf (s := { s with halt := _, faults := _, ctx := _ }) hm

theorem execContextResume_wf : MemOk (execContextResume s) :=
  memOk_ite ((memOk_next _).2 (State.resume_wf hm)) (memOk_refused _)

theorem State.allHome_wf : s.allHome.mem.wf = true := by
  unfold State.allHome
  extract_lets s1
  have h1 : s1.mem.wf = true := State.foldl_wf _ (fun _ _ h => by rw [State.flushL1_mem]; exact h) hm
  exact State.foldl_wf _ (fun _ _ h => State.flushL2_wf _ _ _ h) h1

theorem State.emptyCaches_wf : s.emptyCaches.mem.wf = true := by
  unfold State.emptyCaches
  exact State.allHome_wf hm

theorem execContextTerminate_wf : MemOk (execContextTerminate s) := by
  unfold execContextTerminate
  split
  · extract_lets open_ s1
    have h1 : s1.mem.wf = true :=
      State.emptyCaches_wf (State.foldl_wf _ (fun _ _ h => State.completionWord_wf h ..) hm)
    exact (memOk_next _).2 h1
  · exact memOk_refused _

theorem State.discardRuns_wf (t : Nat) : (s.discardRuns t).mem.wf = true := by
  unfold State.discardRuns
  extract_lets mine out
  have hout (n : Nat) (u : State) (g : Gang) (hu : u.mem.wf = true) : (out n u g).mem.wf = true := by
    unfold out
    split
    · exact hu
    · extract_lets s1
      have h1 : s1.mem.wf = true := by
        change ((u.dropMember g).leaveCellar g).mem.wf = true
        rw [State.leaveCellar_mem]
        exact State.dropMember_wf hu g
      refine State.modFrameOf_wf ?_ ..
      rw [State.restFrame_mem, State.vacate_mem]
      exact h1
  exact State.foldl_wf _ (fun _ e h => State.foldl_wf e.2.tasks (fun u g hu => hout e.1 u g hu) h) hm

theorem execTraceFaultResponse_wf : MemOk (execTraceFaultResponse s) := by
  unfold execTraceFaultResponse
  split
  · extract_lets kept
    exact (memOk_next _).2 (State.resume_wf (State.abandon_wf (State.ite_wf hm (State.discardRuns_wf hm _)) _))
  · exact memOk_refused _

/-! Pre-emption. -/

theorem execSliceEnd_wf : MemOk (execSliceEnd s) :=
  memOk_ite ((memOk_next _).2 (by rw [State.openWindow_mem]; exact hm)) (memOk_refused _)

theorem State.closeWindow_wf : s.closeWindow.mem.wf = true := by
  unfold State.closeWindow
  extract_lets s1
  have h0 : (s.writeStops []).freeze.mem.wf = true := by
    rw [State.freeze_mem]
    exact State.writeStops_wf hm _
  exact State.foldl_wf _ (fun _ _ h => State.deskWrite_wf h ..) (State.emptyCaches_wf h0)

theorem execGraceWindowClose_wf : MemOk (execGraceWindowClose s) := by
  unfold execGraceWindowClose
  split
  · exact memOk_ite ((memOk_next _).2 (State.closeWindow_wf hm)) (memOk_refused _)
  · exact memOk_refused _

theorem State.restore_wf (x : Context) : (s.restore x).mem.wf = true := by
  unfold State.restore
  rw [State.thaw_mem]
  exact State.repaths_wf (s := { s with ctx := _, saved := _, fused := _, gated := _ }) hm

theorem execContextRestore_wf (n : Nat) : MemOk (execContextRestore n s) := by
  unfold execContextRestore
  split
  · exact memOk_refused _
  · split
    · exact (memOk_next _).2 (State.restore_wf hm _)
    · exact memOk_refused _

/-! The Curator. -/

theorem State.drainPages_wf (frames : List Nat) : (s.drainPages frames).mem.wf = true := by
  unfold State.drainPages
  extract_lets hit s1
  have h1 : s1.mem.wf = true :=
    State.foldl_wf _ (fun _ e h => State.foldl_wf e.2.lines (fun _ _ h => by
      split
      · rw [State.lineToL2_mem]
        exact h
      · exact h) h) hm
  exact State.foldl_wf _ (fun _ e h => State.foldl_wf e.2.lines (fun _ _ h => by
    split
    · exact State.lineHome_wf _ _ _ h
    · exact h) h) h1

theorem execTranslationInvalidate_wf (va size : Nat) : MemOk (execTranslationInvalidate va size s) := by
  refine (memOk_next _).2 ?_
  rw [State.drains_mem]
  exact State.drainPages_wf hm _

theorem State.mapIn_wf {fuel level table va leaf : Nat} {tables : List Nat} {r : State × List Nat}
    (h : s.mapIn fuel level table va leaf tables = some r) : r.1.mem.wf = true := by
  induction fuel generalizing s level table tables with
  | zero =>
    cases h
    exact State.homeWrite_wf _ _ _ hm
  | succ k ih =>
    simp only [State.mapIn] at h
    generalize (if level = 4 then 256 else 4096) = size at h
    split at h
    · split at h
      · cases h
      · exact ih hm h
    · split at h
      · cases h
      · split at h
        · cases h
        · exact ih (State.homeWrite_wf _ _ _ (State.homeWrite_wf _ _ _ hm)) h

theorem State.mapPages_wf {root : Nat} {ps : List PageMap} {tables : List Nat} {r : State × List Nat}
    (h : s.mapPages root ps tables = some r) : r.1.mem.wf = true := by
  induction ps generalizing s tables with
  | nil =>
    cases h
    exact hm
  | cons p ps ih =>
    unfold State.mapPages at h
    split at h
    next s1 ts h1 =>
      split at h1
      · cases h1
      · exact ih (State.mapIn_wf hm h1) h
    · cases h

theorem execCodeObjectLoad_wf (o : CodeObject) : MemOk (execCodeObjectLoad o s) := by
  unfold execCodeObjectLoad
  split
  · exact memOk_refused _
  · split
    · exact (memOk_next _).2 hm
    · extract_lets pages allocs
      split
      · exact memOk_refused _
      next s1 _ h =>
        have h1 := State.mapPages_wf hm h
        extract_lets s2
        have h2 : s2.mem.wf = true := State.homeWrite_wf _ _ _ (State.homeWrite_wf _ _ _ (State.homeWrite_wf _ _ _ h1))
        exact (memOk_next _).2 (State.withCtx_wf h2 _)

/-- A reset of the package leaves device memory as it was. -/
theorem execPackageReset_wf (image : BootImage) (layout : Partition) : MemOk (execPackageReset image layout s) := by
  unfold execPackageReset
  extract_lets good
  exact memOk_ite (memOk_refused _) ((memOk_next _).2 hm)

theorem State.putContext_wf (x : Context) : (s.putContext x).mem.wf = true := by
  rw [State.mem_putContext]
  exact hm

theorem State.within_wf (x : Context) {f : State → State} (hf : ∀ u, u.mem.wf = true → (f u).mem.wf = true) :
    (s.within x f).mem.wf = true := by
  unfold State.within
  split
  · exact hf _ hm
  · extract_lets s1
    have h1 : s1.mem.wf = true := hf _ hm
    exact State.putContext_wf (State.withCtx_wf h1 _) _

theorem execCreateContext_wf (vi : Nat) (x : Layout) : MemOk (execCreateContext vi x s) := by
  unfold execCreateContext
  split
  · exact memOk_refused _
  · extract_lets root used
    split
    · exact (memOk_next _).2 hm
    next n _ =>
      split
      · exact (memOk_next _).2 hm
      · split
        · exact memOk_refused _
        next s1 _ h =>
          have h1 := State.mapPages_wf hm h
          extract_lets s2 s3 s4
          have h2 : s2.mem.wf = true := State.foldl_wf _ (fun _ _ h => State.deskWrite_wf h ..) (State.withCtx_wf h1 _)
          have h3 : s3.mem.wf = true := State.homeWrite_wf _ _ _ h2
          have h4 : s4.mem.wf = true := State.ite_wf h3 h3
          exact (memOk_next _).2 (by rw [State.answer_mem]; exact h4)

theorem execDestroyContext_wf (vi : Nat) : MemOk (execDestroyContext vi s) := by
  unfold execDestroyContext
  split
  · exact memOk_refused _
  · split
    · exact (memOk_next _).2 hm
    next x _ =>
      extract_lets unused s1
      have h1 : s1.mem.wf = true := State.ite_wf (State.withCtx_wf (State.emptyCaches_wf hm) _) hm
      exact (memOk_next _).2 (by rw [State.answer_mem]; exact h1)

theorem execCreateLaunchQueue_wf (vi : Nat) : MemOk (execCreateLaunchQueue vi s) := by
  unfold execCreateLaunchQueue
  split
  · exact memOk_refused _
  · extract_lets a
    split
    · exact (memOk_next _).2 hm
    · exact memOk_ite ((memOk_next _).2 hm)
        ((memOk_next _).2 (by rw [State.answer_mem]; exact State.putContext_wf hm _))

theorem execCreateShelfEntry_wf (vi : Nat) : MemOk (execCreateShelfEntry vi s) := by
  unfold execCreateShelfEntry
  split
  · exact memOk_refused _
  · extract_lets a n
    split
    · exact (memOk_next _).2 hm
    · extract_lets y z
      exact memOk_ite ((memOk_next _).2 hm)
        ((memOk_next _).2 (by rw [State.answer_mem]; exact State.putContext_wf hm _))

theorem execSetQuota_wf (vi : Nat) : MemOk (execSetQuota vi s) :=
  memOk_ite (memOk_refused _) (memOk_ite ((memOk_next _).2 hm) (memOk_ite ((memOk_next _).2 hm) ((memOk_next _).2 hm)))

theorem execStartMigrationRound_wf (vi : Nat) : MemOk (execStartMigrationRound vi s) := by
  unfold execStartMigrationRound
  split
  · exact memOk_refused _
  · split
    · exact (memOk_next _).2 hm
    · split <;> exact (memOk_next _).2 hm

theorem execFinalRound_wf (vi : Nat) : MemOk (execFinalRound vi s) := by
  unfold execFinalRound
  split
  · exact memOk_refused _
  · split
    · exact (memOk_next _).2 hm
    · split
      · exact (memOk_next _).2 hm
      · split
        · exact (memOk_next _).2 hm
        · exact memOk_ite ((memOk_next _).2 (by rw [State.openWindow_mem]; exact hm)) (memOk_refused _)

theorem execReportCopyQueue_wf (vi : Nat) : MemOk (execReportCopyQueue vi s) := by
  unfold execReportCopyQueue
  split
  · exact memOk_refused _
  · extract_lets a
    split
    · exact (memOk_next _).2 hm
    · split
      · exact (memOk_next _).2 hm
      · split
        · exact (memOk_next _).2 hm
        · exact memOk_ite ((memOk_next _).2 hm) ((memOk_next _).2 hm)

theorem execCarrelGate_wf (carrel : Nat) : MemOk (execCarrelGate carrel s) := by
  unfold execCarrelGate
  split
  · exact memOk_refused _
  · extract_lets fused s1
    have h1 : s1.mem.wf = true :=
      State.flushL2_wf _ _ _ (State.emptyL1_wf (State.ite_wf (by rw [State.flushFused_mem]; exact hm) hm) _)
    exact (memOk_next _).2 h1

theorem execCarrelWake_wf (carrel : Nat) : MemOk (execCarrelWake carrel s) :=
  memOk_ite ((memOk_next _).2 hm) (memOk_refused _)

theorem execAccessTableChange_wf (vi : Nat) (t : Target) (ranges : List AccessRange) (owner : Bool) :
    MemOk (execAccessTableChange vi t ranges owner s) := by
  unfold execAccessTableChange
  extract_lets t1 rest s1
  have h1 : s1.mem.wf = true := State.ite_wf (by rw [State.drains_mem]; exact State.allHome_wf hm) hm
  exact memOk_ite (memOk_refused _) ((memOk_next _).2 h1)

/-! The host. -/

theorem State.rmaPut_wf (vi pa : Nat) (bs : List Byte) : (s.rmaPut vi pa bs).mem.wf = true := by
  unfold State.rmaPut
  extract_lets s1
  have h1 : s1.mem.wf = true := State.homeWrite_wf _ _ _ hm
  exact State.foldl_wf _ (fun _ _ h => by rw [State.mem_logFor]; exact h) h1

theorem execRmaWrite_wf (from_ : Sender) (vi pa : Nat) (data : List Byte) : MemOk (execRmaWrite from_ vi pa data s) := by
  unfold execRmaWrite
  extract_lets n
  exact memOk_ite ((memOk_next _).2 hm) (memOk_ite ((memOk_next _).2 hm)
    (memOk_ite ((memOk_next _).2 (State.rmaPut_wf hm ..)) ((memOk_next _).2 hm)))

theorem execRmaRead_wf (from_ : Sender) (vi pa len : Nat) : MemOk (execRmaRead from_ vi pa len s) :=
  memOk_ite ((memOk_next _).2 hm) ((memOk_next _).2 hm)

theorem execRmaAtomic_wf (from_ : Sender) (vi pa : Nat) (op : RmaOp) : MemOk (execRmaAtomic from_ vi pa op s) := by
  unfold execRmaAtomic
  split
  · exact (memOk_next _).2 hm
  · split
    · exact (memOk_next _).2 hm
    · extract_lets old
      split
      · exact (memOk_next _).2 (State.rmaPut_wf hm ..)
      · exact memOk_ite ((memOk_next _).2 (State.rmaPut_wf hm ..)) ((memOk_next _).2 hm)

theorem State.fillSlot_wf (header size : Nat) (slot : List Byte) : (s.fillSlot header size slot).mem.wf = true :=
  State.deskWrite_wf (State.deskWrite_wf hm ..) ..

theorem execQueueSend_wf (from_ : Sender) (vi : Nat) (kind : QueueKind) (header : Nat) (slot : List Byte) :
    MemOk (execQueueSend from_ vi kind header slot s) := by
  unfold execQueueSend
  extract_lets size peer
  split
  · exact (memOk_next _).2 hm
  · split
    · exact (memOk_next _).2 hm
    next x h _ =>
      extract_lets t wing refused
      split
      · split
        · exact (memOk_next _).2 (State.within_wf hm _ fun _ h => State.completionWord_wf h ..)
        · exact (memOk_next _).2 hm
      · exact memOk_ite (memOk_refused _)
          ((memOk_next _).2 (State.within_wf hm _ fun _ h => State.fillSlot_wf h ..))

theorem execAttachRequest_wf (vi : Nat) : MemOk (execAttachRequest vi s) := by
  unfold execAttachRequest
  extract_lets p
  exact memOk_ite (memOk_refused _)
    (memOk_ite ((memOk_next _).2 hm) (memOk_ite ((memOk_next _).2 hm) ((memOk_next _).2 hm)))

theorem execQuoteRequest_wf (vi : Nat) : MemOk (execQuoteRequest vi s) :=
  memOk_ite (memOk_refused _) ((memOk_next _).2 hm)

end
end Sys2Proof.Machine
end

section
namespace Sys2Proof.Machine
open Sys2Proof

/-! A step keeps the canonical form of memory: every word and every event does, and so do the fetch, the evictions and
the order in which steps come (R15, R131, log 3, log 4). -/

section
variable {s : State} (hm : s.mem.wf = true)
include hm

theorem execSel_wf (x : RRR) : MemOk (execSel x s) := by
  unfold execSel
  exact alu_wf hm x _ _ _

/-- What any word or event leaves keeps the canonical form: one rule for each kind of word, and each event by its own. -/
theorem exec_wf (i : Instr) : MemOk (exec i s) :=
  match i with
  | .add x => (alu_wf hm x _ _ _ : MemOk (execAdd x s))
  | .addRI _ => aluImm_wf hm ..
  | .sub x => (alu_wf hm x _ _ _ : MemOk (execSub x s))
  | .subRI _ => aluImm_wf hm ..
  | .mul x => (alu_wf hm x _ _ _ : MemOk (execMul x s))
  | .mulRI _ => aluImm_wf hm ..
  | .mulh x => (alu_wf hm x _ _ _ : MemOk (execMulh x s))
  | .mad x => (alu_wf hm x _ _ _ : MemOk (execMad x s))
  | .div x => (alu_wf hm x _ _ _ : MemOk (execDiv x s))
  | .rem x => (alu_wf hm x _ _ _ : MemOk (execRem x s))
  | .neg x => (alu_wf hm x _ _ _ : MemOk (execNeg x s))
  | .abs x => (alu_wf hm x _ _ _ : MemOk (execAbs x s))
  | .min x => (alu_wf hm x _ _ _ : MemOk (execMin x s))
  | .minRI _ => aluImm_wf hm ..
  | .max x => (alu_wf hm x _ _ _ : MemOk (execMax x s))
  | .maxRI _ => aluImm_wf hm ..
  | .addmin x => (alu_wf hm x _ _ _ : MemOk (execAddmin x s))
  | .and x => (alu_wf hm x _ _ _ : MemOk (execAnd x s))
  | .andRI _ => aluImm_wf hm ..
  | .or x => (alu_wf hm x _ _ _ : MemOk (execOr x s))
  | .orRI _ => aluImm_wf hm ..
  | .xor x => (alu_wf hm x _ _ _ : MemOk (execXor x s))
  | .xorRI _ => aluImm_wf hm ..
  | .not x => (alu_wf hm x _ _ _ : MemOk (execNot x s))
  | .shl x => (alu_wf hm x _ _ _ : MemOk (execShl x s))
  | .shr x => (alu_wf hm x _ _ _ : MemOk (execShr x s))
  | .sra x => (alu_wf hm x _ _ _ : MemOk (execSra x s))
  | .rot x => (alu_wf hm x _ _ _ : MemOk (execRot x s))
  | .fsh x => (alu_wf hm x _ _ _ : MemOk (execFsh x s))
  | .clz x => (alu_wf hm x _ _ _ : MemOk (execClz x s))
  | .ctz x => (alu_wf hm x _ _ _ : MemOk (execCtz x s))
  | .popc x => (alu_wf hm x _ _ _ : MemOk (execPopc x s))
  | .brev x => (alu_wf hm x _ _ _ : MemOk (execBrev x s))
  | .bfx x => (alu_wf hm x _ _ _ : MemOk (execBfx x s))
  | .bfi x => (alu_wf hm x _ _ _ : MemOk (execBfi x s))
  | .lea x => (alu_wf hm x _ _ _ : MemOk (execLea x s))
  | .leaRI _ => aluImm_wf hm ..
  | .sel x => execSel_wf hm x
  | .cmp _ => issue_wf hm fun _ => advanced_wf hm rfl
  | .cmpRI _ => issue_wf hm fun _ => advanced_wf hm rfl
  | .mov x => execMov_wf hm x
  | .movi x => execMovi_wf hm x
  | .xmWrite _ => issue_wf hm fun _ => advanced_wf hm rfl
  | .lrandWrite _ => issue_wf hm fun _ => advanced_wf hm rfl
  | .replaymWrite x => execReplaymWrite_wf hm x
  | .registerWrite _ => issue_wf hm fun _ => advanced_wf hm rfl
  | .fadd x => (falu_wf hm x _ _ _ : MemOk (execFadd x s))
  | .fsub x => (falu_wf hm x _ _ _ : MemOk (execFsub x s))
  | .fmul x => (falu_wf hm x _ _ _ : MemOk (execFmul x s))
  | .fma x => (falu_wf hm x _ _ _ : MemOk (execFma x s))
  | .fmin x => (alu_wf hm x _ _ _ : MemOk (execFmin x s))
  | .fmax x => (alu_wf hm x _ _ _ : MemOk (execFmax x s))
  | .fcmp _ => issue_wf hm fun _ => advanced_wf hm rfl
  | .fclass x => (alu_wf hm x _ _ _ : MemOk (execFclass x s))
  | .fdiv x => (falu_wf hm x _ _ _ : MemOk (execFdiv x s))
  | .fsqrt x => (falu_wf hm x _ _ _ : MemOk (execFsqrt x s))
  | .frcp x => (falu_wf hm x _ _ _ : MemOk (execFrcp x s))
  | .frsq x => (falu_wf hm x _ _ _ : MemOk (execFrsq x s))
  | .fexp x => (falu_wf hm x _ _ _ : MemOk (execFexp x s))
  | .flog x => (falu_wf hm x _ _ _ : MemOk (execFlog x s))
  | .fsin x => (falu_wf hm x _ _ _ : MemOk (execFsin x s))
  | .fcos x => (falu_wf hm x _ _ _ : MemOk (execFcos x s))
  | .ftanh x => (falu_wf hm x _ _ _ : MemOk (execFtanh x s))
  | .ferf x => (falu_wf hm x _ _ _ : MemOk (execFerf x s))
  | .frnd _ => issue_wf hm fun _ => advanced_wf hm rfl
  | .cvt _ => issue_wf hm fun _ => advanced_wf hm rfl
  | .vote x => execVote_wf hm x
  | .shfl _ => issue_wf hm fun _ => advanced_wf hm rfl
  | .lsh _ => issue_wf hm fun _ => advanced_wf hm rfl
  | .perm _ => issue_wf hm fun _ => advanced_wf hm rfl
  | .ptld x => execPtld_wf hm x
  | .lred _ => issue_wf hm fun _ => advanced_wf hm rfl
  | .lscan _ => issue_wf hm fun _ => advanced_wf hm rfl
  | .matchLanes _ => issue_wf hm fun _ => advanced_wf hm rfl
  | .plog _ => issue_wf hm fun _ => advanced_wf hm rfl
  | .bra _ => issue_wf hm fun _ => branchTo_wf hm ..
  | .brx x => branchReg_wf hm x
  | .call _ => issue_wf hm fun _ => branchTo_wf hm ..
  | .ret x => branchReg_wf hm x
  | .join _ => issue_wf hm fun _ => advanced_wf hm rfl
  | .rwait x => execRwait_wf hm x
  | .rwaitBudgetExpiry g => execRwaitBudgetExpiry_wf hm g
  | .brk x => execBrk_wf hm x
  | .exit x => perTask_wf hm fun _ h => exitTask_wf h x
  | .yield _ => issue_wf hm fun _ => advance_wf hm _
  | .nop _ => issue_wf hm fun _ => advance_wf hm _
  | .dispatch x => execDispatch_wf hm x
  | .spawn x => perTask_wf hm fun _ h => spawnTask_wf h x
  | .spawng x => perTask_wf hm fun _ h => spawngTask_wf h x
  | .spawnv x => perTask_wf hm fun _ h => spawnvTask_wf h x
  | .await x => perTask_wf hm fun _ h => awaitTask_wf h x
  | .awaita x => perTask_wf hm fun _ h => awaitaTask_wf h x
  | .testf x => perTask_wf hm fun _ h => testfTask_wf h x
  | .cancel x => perTask_wf hm fun _ h => cancelTask_wf h x
  | .retv x => perTask_wf hm fun _ h => retvTask_wf h x
  | .trecord x => perTask_wf hm fun _ h => trecordTask_wf h x
  | .shput x => execShput_wf hm x
  | .shtake x => execShtake_wf hm x
  | .shdepth x => execShdepth_wf hm x
  | .shbind x => execShbind_wf hm x
  | .shprio x => execShprio_wf hm x
  | .modnew x => execModnew_wf hm x
  | .modfree x => execModfree_wf hm x
  | .modset x => execModset_wf hm x
  | .modsetHeldCompare => execModsetHeldCompare_wf hm
  | .propagate x => perTask_wf hm fun _ h => propagateTask_wf h x
  | .propagationBegin t => execPropagationBegin_wf hm t
  | .reexecDispatch t f carrel => execReexecDispatch_wf hm t f carrel
  | .tdrop x => perTask_wf hm fun _ h => tdropTask_wf h x
  | .tstat x => perTask_wf hm fun _ h => tstatTask_wf h x
  | .tkey _ => issue_wf hm fun _ => advanced_wf hm rfl
  | .qend x => execQend_wf hm x
  | .ld _ => issue_wf hm fun _ => loadAct_wf hm ..
  | .st _ => issue_wf hm fun _ => storeAct_wf hm ..
  | .ldv _ => issue_wf hm fun _ => loadAct_wf hm ..
  | .stv _ => issue_wf hm fun _ => storeAct_wf hm ..
  | .pref x => execPref_wf hm x
  | .ldx _ => issue_wf hm fun _ => strongAct_wf hm ..
  | .stx _ => issue_wf hm fun _ => strongAct_wf hm ..
  | .atom _ => issue_wf hm fun _ => strongAct_wf hm ..
  | .mwait x => execMwait_wf hm x
  | .mwaitTimeout g younger => execMwaitTimeout_wf hm g younger
  | .ldlbl x => execLdlbl_wf hm x
  | .stlbl x => execStlbl_wf hm x
  | .bar x => execBar_wf hm x
  | .bara x => execBara_wf hm x
  | .barw x => execBarw_wf hm x
  | .hashrd _ => issue_wf hm fun _ => advanced_wf hm rfl
  | .hashclr _ => issue_wf hm fun _ => advanced_wf hm rfl
  | .tcfg x => execTcfg_wf hm x
  | .mma x => (matmul_wf hm x _ _ _ : MemOk (execMma x s))
  | .mmac x => (matmul_wf hm x _ _ _ : MemOk (execMmac x s))
  | .aclr _ => issue_wf hm fun _ => enterSeq_wf hm ..
  | .ald x => execAld_wf hm x
  | .ast x => execAst_wf hm x
  | .drain x => perTask_wf hm fun _ h => drainTask_wf h x 0
  | .drainAdd x => perTask_wf hm fun _ h => drainTask_wf h x 1
  | .xformFwd x => perTask_wf hm fun _ h => xformTask_wf h x false
  | .xformInv x => perTask_wf hm fun _ h => xformTask_wf h x true
  | .copy x => perTask_wf hm fun _ h => copyTask_wf h x
  | .copyt x => perTask_wf hm fun _ h => copytTask_wf h x
  | .copyf x => perTask_wf hm fun _ h => copyfTask_wf h x
  | .job x => perTask_wf hm fun _ h => jobTask_wf h x
  | .bufexp x => execBufexp_wf hm x
  | .bufget x => execBufget_wf hm x
  | .bufrel x => execBufrel_wf hm x
  | .bufrelAbort x => execBufrelAbort_wf hm x
  | .bufst x => execBufst_wf hm x
  | .sysr _ => issue_wf hm fun _ => advanced_wf hm rfl
  | .sysw x => execSysw_wf hm x
  | .pmselWrite x => execPmselWrite_wf hm x
  | .trap x => execTrap_wf hm x
  | .tret x => execTret_wf hm x
  | .phint x => execPhint_wf hm x
  | .bkpt x => execBkpt_wf hm x
  | .loadReturn g n => execLoadReturn_wf hm g n
  | .launchPacket header => execLaunchPacket_wf hm header
  | .launchComplete l => execLaunchComplete_wf hm l
  | .taskDispatch carrel quarter slot => execTaskDispatch_wf hm carrel quarter slot
  | .continuationResume frame carrel quarter slot => execContinuationResume_wf hm frame carrel quarter slot
  | .galleryModeChange gallery fused => execGalleryModeChange_wf hm gallery fused
  | .cardTake j => execCardTake_wf hm j
  | .copyChunk j => execCopyChunk_wf hm j
  | .tensorCopyChunk j => execTensorCopyChunk_wf hm j
  | .inflateJob j => execInflateJob_wf hm j
  | .drainTileRead carrel => execDrainTileRead_wf hm carrel
  | .jobComplete j => execJobComplete_wf hm j
  | .crcRetry j => execCrcRetry_wf hm j
  | .sequencerStep carrel => execSequencerStep_wf hm carrel
  | .xuStep carrel => execXuStep_wf hm carrel
  | .haltLine => execHaltLine_wf hm
  | .contextResume => execContextResume_wf hm
  | .contextTerminate => execContextTerminate_wf hm
  | .traceFaultResponse => execTraceFaultResponse_wf hm
  | .sliceEnd => execSliceEnd_wf hm
  | .graceWindowClose => execGraceWindowClose_wf hm
  | .contextRestore ctx => execContextRestore_wf hm ctx
  | .singleStep g => execSingleStep_wf hm g
  | .relabel t => execRelabel_wf hm t
  | .translationInvalidate va size => execTranslationInvalidate_wf hm va size
  | .codeObjectLoad o => execCodeObjectLoad_wf hm o
  | .packageReset image layout => execPackageReset_wf hm image layout
  | .rmaWrite from_ vi pa data => execRmaWrite_wf hm from_ vi pa data
  | .rmaRead from_ vi pa len => execRmaRead_wf hm from_ vi pa len
  | .rmaAtomic from_ vi pa op => execRmaAtomic_wf hm from_ vi pa op
  | .queueSend from_ vi kind header slot => execQueueSend_wf hm from_ vi kind header slot
  | .attachRequest vi => execAttachRequest_wf hm vi
  | .quoteRequest vi => execQuoteRequest_wf hm vi
  | .createContext vi x => execCreateContext_wf hm vi x
  | .destroyContext vi => execDestroyContext_wf hm vi
  | .createLaunchQueue vi => execCreateLaunchQueue_wf hm vi
  | .createShelfEntry vi => execCreateShelfEntry_wf hm vi
  | .setQuota vi => execSetQuota_wf hm vi
  | .startMigrationRound vi => execStartMigrationRound_wf hm vi
  | .finalRound vi => execFinalRound_wf hm vi
  | .reportCopyQueue vi => execReportCopyQueue_wf hm vi
  | .carrelGate carrel => execCarrelGate_wf hm carrel
  | .carrelWake carrel => execCarrelWake_wf hm carrel
  | .unassignedOpcode raw => execUnassignedOpcode_wf hm raw
  | .instructionFetchFault kind addr => execInstructionFetchFault_wf hm kind addr
  | .gangResume g => execGangResume_wf hm g
  | .accessTableChange vi t ranges owner => execAccessTableChange_wf hm vi t ranges owner
  | .nvmeOverFabricsCommand _ _ => memOk_refused _

/-! The schedule. -/

omit hm in
theorem spilled_wf {old : List Region} {r : Result} (hr : MemOk r) : MemOk (spilled old r) := by
  unfold spilled
  split
  · exact (memOk_next _).2 (State.spill_wf ((memOk_next _).1 hr) _)
  · exact hr

theorem issueWord_wf (i : Instr) : MemOk (issueWord exec i s) :=
  memOk_ite ((memOk_next _).2 hm) (spilled_wf (exec_wf hm i))

omit hm in
@[simp] theorem State.keepFetch_mem (s : State) (ts : List (Nat × Translation)) : (s.keepFetch ts).mem = s.mem :=
  mem_foldl_eq _ _ _ fun _ _ => State.keep_mem ..

theorem issueCurrent_wf : MemOk (issueCurrent exec s) := by
  unfold issueCurrent
  split
  next r h => exact State.heldTrap_wf hm h
  · split
    · exact issueWord_wf hm _
    · split
      next bs ts _ =>
        have h1 : (s.keepFetch ts).mem.wf = true := by rw [State.keepFetch_mem]; exact hm
        exact issueWord_wf (s := (s.keepFetch ts).latch (wordOfBytes bs)) h1 _
      next k pa _ =>
        have hlog : (s.logError pa).mem.wf = true := by rw [State.logError_mem]; exact hm
        exact memOk_ite (exec_wf hm _)
          (memOk_ite (exec_wf hm _) (raiseFault_wf hlog ..))

/-- The first of some words or events that can happen. -/
theorem firstOf_wf {is : List Instr} {r : Result} (h : firstOf (fun i => exec i s) is = some r) : MemOk r := by
  induction is with
  | nil => cases h
  | cons i is ih =>
    unfold firstOf at h
    split at h
    · exact ih h
    · cases h
      exact exec_wf hm i

theorem State.unmapped_wf {t : State} (h : s.unmapped = some t) : t.mem.wf = true := by
  unfold State.unmapped at h
  split at h
  · cases h
    exact hm
  · cases h

theorem stepRunning_wf : MemOk (stepRunning exec s) := by
  unfold stepRunning
  split
  next t h =>
    rcases (Option.orElse_eq_some ..).1 h with h | ⟨-, h⟩
    · exact (memOk_next _).2 (State.evicted_wf _ _ hm h)
    · exact (memOk_next _).2 (State.unmapped_wf hm h)
  · split
    next r h => exact firstOf_wf hm h
    · split
      · exact issueCurrent_wf (s := s.select _ _) hm
      · split
        next r h => exact firstOf_wf hm h
        · exact (memOk_next _).2 hm

theorem step_wf : MemOk (step s) := by
  unfold step stepWith
  split
  next i rest _ => exact exec_wf (s := { s with agenda := rest }) hm i
  · split
    · exact memOk_fault _
    · split
      · exact exec_wf hm .haltLine
      · exact exec_wf hm s.answer85
      · exact stepRunning_wf hm

end
end Sys2Proof.Machine

open Sys2Proof Sys2Proof.Machine

/-- Settles O59: memory is written at the home slice alone, whose writes keep the canonical form, so every word, every
event and the schedule around them do. -/
theorem memoryStaysCanonical : Obligations.MemoryStaysCanonical := by
  unfold Obligations.MemoryStaysCanonical
  intro s s' hm hs
  exact (step_wf hm).wf _ hs

end
